-- ==== Sys2Proof/Word.lean ====
section
/-! DEFINITION. The word types of Cheith: 64-bit scalars, bytes, 256-byte rows, 56-bit addresses. -/
namespace Sys2Proof

/-- A 64-bit scalar, and one word of code (R209). -/
abbrev Word := BitVec 64

/-- One byte of memory. -/
abbrev Byte := BitVec 8

/-- A v register, and one 256-byte line: lane l is bits 32l+31:32l, byte n is bits 8n+7:8n (R289). -/
abbrev Row := BitVec 2048

/-- A sign-extended 32-bit immediate or offset (R215, R216). -/
def sext32 (x : BitVec 32) : Word := x.signExtend 64

/-- The truth value of a comparison as a scalar: 1 or 0 (R240). -/
def ofFlag (b : Bool) : Word := if b then 1 else 0

end Sys2Proof
end

