-- ==== Sys2Proof/Config.lean ====
section
/-! DEFINITION. What the package fixes (numbers of dies, cores, slots), and the free values: constants without a
body, of which nothing can be proved. -/
namespace Sys2Proof.Config

/-- Compute dies cd0-cd7 are dies 0-7 (R11). -/
def computeDies : Nat := 8
/-- The infield die (R11). -/
def infieldDie : Nat := 8
/-- Base dies hs0-hs15 are dies 9-24 (R11). -/
def baseDie0 : Nat := 9
/-- Number of HBM stacks (R11). -/
def stackCount : Nat := 16
/-- Optical dies od0-od3 are dies 25-28 (R11). -/
def opticalDie0 : Nat := 25
/-- Number of dies in all (R11). -/
def dieCount : Nat := 29
/-- Cores of a compute die (R14). -/
def coresPerDie : Nat := 128
/-- Bytes of a core's scratchpad (R20). -/
def scratchBytes : Nat := 0x400000
/-- Bytes of the private region of a near-core slot (R20). -/
def privateBytes : Nat := 0x10000

/-- FREE VALUE: what the runtime's service returns in g1 or g2 (R373 leaves the services to the runtime).
The argument is the counter of free values drawn so far. -/
opaque freeWord : Nat → Word

/-- FREE VALUE: the 48-bit stamp that a reply of the runtime or of another agent carries, before it is merged. -/
opaque freeStamp : Nat → BitVec 48

/-- FREE VALUE: a byte the spec leaves unspecified. -/
opaque freeByte : Nat → Byte

/-- FREE FUNCTION: the SM2 signature of a report (R407 names the algorithm, this spec does not define it). -/
opaque sm2Sign : List Byte → BitVec 512

/-- FREE VALUE: the SM3 digest of image `n` of those the boot ROM loads: the firmware of the service core and of the
representation manager, and the loader (R407). -/
opaque imageDigest : Nat → BitVec 256

/-- FREE VALUE: the serial number of a die (R407 reports it and states no value). -/
opaque dieSerial : Nat → Word

/-- FREE VALUE: the stepping in DEVID (R398 states no value). -/
opaque stepping : BitVec 32

end Sys2Proof.Config
end

