-- ==== Sys2Proof/Syntax.lean ====
section
/-! DEFINITION. The operands and the instructions of Cheith version 1: one constructor of `Instr` for each row of the
opcode table, the instructions with a word first (rows 0-195), then the steps of the device, which have no word. -/
namespace Sys2Proof

/-! ## Operands (R221-R224) -/

/-- A scalar register that an instruction writes, or reads without a W bit (R221). -/
inductive SReg where
  | g (n : BitVec 5)
  | s (n : BitVec 6)
  | m (n : BitVec 3)
  deriving DecidableEq, Repr

/-- A scalar source: a g, s, m or q register; `sync` is the W bit of its field (R116, R221, R222). -/
inductive Src where
  | g (n : BitVec 5)
  | s (n : BitVec 6) (sync : Bool)
  | m (n : BitVec 3) (sync : Bool)
  | q (n : BitVec 3)
  deriving DecidableEq, Repr

/-- The lane permutation of a v register in B (R223): SEG and DIST as encoded. -/
inductive Perm where
  | none
  | rot   (seg : BitVec 3) (dist : BitVec 7)
  | bfly  (seg : BitVec 3) (dist : BitVec 7)
  | bcast (seg : BitVec 3) (dist : BitVec 7)
  deriving DecidableEq, Repr

/-- The B operand of a vector instruction: a permuted v register, or a scalar source (R290). -/
inductive VSrc where
  | v  (n : BitVec 4) (perm : Perm)
  | sc (s : Src)
  deriving DecidableEq, Repr

/-- The destination of KMOV (R317). -/
inductive KDst where
  | k (n : BitVec 3)
  | r (d : SReg)
  deriving DecidableEq, Repr

/-- The source of KMOV (R317). -/
inductive KSrc where
  | k (n : BitVec 3)
  | r (s : Src)
  deriving DecidableEq, Repr

/-- Element types of TY (R224). -/
inductive Ty where
  | i32 | n32 | f32 | bf16 | i16 | i8 | e4m3 | e5m2
  deriving DecidableEq, Repr

/-- Rounding modes (R197). -/
inductive RMode where
  | rne | rtz | rdn | rup | srh
  deriving DecidableEq, Repr

/-- Branch conditions (R217). -/
inductive Cond where
  | eq | ne | lt | ge | ltn | gen | any | none
  deriving DecidableEq, Repr

/-- Lane conditions of VCMP (R301). -/
inductive VCond where
  | eq | ne | lt | le | gt | ge | un | ord
  deriving DecidableEq, Repr

/-- Operations of VRED (R305). -/
inductive RedOp where
  | add | min | max | and | or | xor
  deriving DecidableEq, Repr

/-- Access sizes of scalar loads and stores, SZ 000-110 (R216). -/
inductive Size where
  | n8 | n16 | n32 | n64 | i8 | i16 | i32
  deriving DecidableEq, Repr

/-- Store scopes (R133, R216). -/
inductive Scope where
  | sys | pkg | die | core
  deriving DecidableEq, Repr

/-- The address part of format M: base, signed offset, SP and KEEPHINT (R216, R260). -/
structure MAddr where
  base : Src
  off  : BitVec 32
  glb  : Bool
  keep : Bool
  deriving DecidableEq, Repr

/-- Element types of a remote add (R272). -/
inductive RTy where
  | i32 | i64 | f32
  deriving DecidableEq, Repr

/-- SHAPE of a tile instruction: rows 8(r+1), columns 8(c+1), VIEW (R218). -/
structure TShape where
  r    : BitVec 4
  c    : BitVec 4
  view : BitVec 4
  deriving DecidableEq, Repr

/-- Edge of a matrix operand: M code and N code (R218). -/
inductive Edge where
  | e32 | e64 | e128
  deriving DecidableEq, Repr

/-- SHAPE of a matrix instruction: M, N, and K = 32(kg+1) (R218). -/
structure MShape where
  m  : Edge
  n  : Edge
  kg : BitVec 8
  deriving DecidableEq, Repr

/-- Format tags of tensors and of matrix operands (R55, R322). -/
inductive Tag where
  | f32 | bf16 | e4m3 | e5m2 | i8 | i4 | i32 | px9 | px6 | px4 | mxfp4 | dxe4m3 | dxe5m2 | sg3 | sg5 | sg7
  deriving DecidableEq, Repr

/-- Activation of AEPI (R333). -/
inductive Act where
  | none | relu | sqrelu | clamp
  deriving DecidableEq, Repr

/-- Operations of TRED (R350). -/
inductive TRedOp where
  | add | max | min | amax
  deriving DecidableEq, Repr

/-- Operations of TEW with a second operand (R351). -/
inductive TewOp where
  | add | mul | max | min
  deriving DecidableEq, Repr

/-- The operation and second operand of TEW (R351). -/
inductive TewArg where
  | tile   (op : TewOp) (l : SReg)
  | scalar (op : TewOp) (l : BitVec 5)
  | relu
  deriving DecidableEq, Repr

/-- Formats of VQUANT and VDEQ, with the scale operand of the integer ones (R314). -/
inductive QFmt where
  | px9 | px6 | px4 | mxfp4
  | i8 (b : VSrc)
  | i4 (b : VSrc)
  deriving DecidableEq, Repr

/-- Stash grades (R354). -/
inductive Grade where
  | s3 | s5 | s7
  deriving DecidableEq, Repr

/-- Targets of STASH and RESTORE (R354). -/
inductive Tgt where
  | image | host | peer
  deriving DecidableEq, Repr

/-- Levels of CANCEL (R368). -/
inductive Level where
  | launch | graph | phase | job
  deriving DecidableEq, Repr

/-- The special registers of R369. -/
inductive SpReg where
  | slotid | unitid | launchid | dieid | cycles | time | timeerr | pts
  | xcause | xvalue | xpc | xstat | xhandler | progidx | seed | rmode
  | xferdone | xfernext
  | hb (n : BitVec 2)
  | vw (n : BitVec 3)
  | stalls | parks | migrs
  | lnksel | lnkstat
  | lnkcorr (n : BitVec 3)
  | lnkmap | lnkretr | lnkthr
  | featsel | featcap
  | keep (n : BitVec 3)
  | leaselen | actlvl | govstat
  deriving DecidableEq, Repr

/-- The operands of a vector instruction of three registers: D, A, B, K, TY (R214). -/
structure V3 where
  d  : BitVec 4
  a  : BitVec 4
  b  : VSrc
  k  : BitVec 3
  ty : Ty
  deriving DecidableEq, Repr

/-- The operands of a vector instruction without B. -/
structure V2 where
  d  : BitVec 4
  a  : BitVec 4
  k  : BitVec 3
  ty : Ty
  deriving DecidableEq, Repr

/-- The operands of a global or local strided access (R268). -/
structure Strided where
  v      : BitVec 4
  base   : Src
  stride : SReg
  k      : BitVec 3
  glb    : Bool
  off    : BitVec 11
  deriving DecidableEq, Repr

/-- The operands of a gathered access (R268). -/
structure Gathered where
  v    : BitVec 4
  base : Src
  vi   : BitVec 4
  perm : Perm
  k    : BitVec 3
  glb  : Bool
  off  : BitVec 10
  deriving DecidableEq, Repr

/-- The operands of VGATH.t and VSCAT.t (R270): handle, coordinate register, index vector. -/
structure TGathered where
  v    : BitVec 4
  h    : Src
  c    : BitVec 5
  vi   : BitVec 4
  perm : Perm
  k    : BitVec 3
  deriving DecidableEq, Repr

/-- The operands of an atomic (R271). -/
structure Amo where
  d     : SReg
  a     : Src
  b     : Src
  glb   : Bool
  scope : Scope
  w64   : Bool
  deriving DecidableEq, Repr

/-- The operands of RADDV (R272). -/
structure RaddV where
  isF : Bool
  a   : Src
  v   : BitVec 4
  perm : Perm
  k   : BitVec 3
  deriving DecidableEq, Repr

/-- The operands of GET and PUT (R281). -/
structure CopyArgs where
  h    : SReg
  c    : BitVec 5
  l    : SReg
  rc   : Option (BitVec 5)
  sc   : Option (BitVec 5)
  prio : Option (BitVec 2)
  deriving DecidableEq, Repr

/-- The operands of a tile instruction with a scratchpad side (R348). -/
structure TileArgs where
  h  : SReg
  c  : SReg
  l  : SReg
  sh : TShape
  deriving DecidableEq, Repr

/-- The operands of GETT and PUTT (R284): `n` is the counter, `id` the register of the id (0: none). -/
structure TCopyArgs where
  t    : TileArgs
  n    : Option (BitVec 5)
  id   : BitVec 5
  prio : Option (BitVec 2)
  deriving DecidableEq, Repr

/-- The operands of MMA (R326): `n` is the stride register, 0 for none. -/
structure MmaArgs where
  h  : SReg
  c  : SReg
  l  : BitVec 4
  n  : BitVec 5
  sh : MShape
  af : Tag
  bf : Tag
  ta : Bool
  tb : Bool
  deriving DecidableEq, Repr

/-- The operands of MMAT (R326): a format of `none` makes that operand a handle. -/
structure MmatArgs where
  h  : BitVec 5
  c  : BitVec 5
  l  : BitVec 4
  n  : BitVec 5
  sh : MShape
  af : Option Tag
  bf : Option Tag
  ta : Bool
  tb : Bool
  deriving DecidableEq, Repr

/-- The operands of MMAG (R326). -/
structure MmagArgs where
  h  : BitVec 5
  vi : BitVec 4
  l  : BitVec 4
  n  : BitVec 5
  sh : MShape
  bf : Tag
  deriving DecidableEq, Repr

/-- The operands of AEPI (R333): `c` and `n` are 0 for none, `xs` is the shape given by XS = 1. -/
structure AepiArgs where
  h   : SReg
  c   : BitVec 5
  l   : BitVec 4
  n   : BitVec 5
  xs  : Option (Edge × Edge)
  df  : Tag
  act : Act
  add : Bool
  rel : Bool
  rm  : Option RMode
  deriving DecidableEq, Repr

/-- The operands of COLL (R338): `l` is the residual register, 0 for none. -/
structure CollArgs where
  h : BitVec 5
  c : BitVec 5
  l : BitVec 5
  n : Option (BitVec 5)
  deriving DecidableEq, Repr

/-- The operands of STASH and RESTORE (R354). -/
structure StashArgs where
  h     : SReg
  l     : BitVec 5
  n     : Option (BitVec 5)
  st    : BitVec 5
  grade : Grade
  tgt   : Tgt
  deriving DecidableEq, Repr

/-! ## Instructions -/

/-- The instructions, and the steps of the device. Each constructor is one row of the opcode table. -/
inductive Instr where
  -- scalar and address instructions (R239-R249)
  | nop
  | add (d : SReg) (a b : Src)
  | addi (d : SReg) (a : Src) (imm : BitVec 32)
  | sub (d : SReg) (a b : Src)
  | mul (d : SReg) (a b : Src)
  | mulh (d : SReg) (a b : Src)
  | mulhn (d : SReg) (a b : Src)
  | div (d : SReg) (a b : Src)
  | divn (d : SReg) (a b : Src)
  | rem (d : SReg) (a b : Src)
  | remn (d : SReg) (a b : Src)
  | and (d : SReg) (a b : Src)
  | andi (d : SReg) (a : Src) (imm : BitVec 32)
  | or (d : SReg) (a b : Src)
  | ori (d : SReg) (a : Src) (imm : BitVec 32)
  | xor (d : SReg) (a b : Src)
  | xori (d : SReg) (a : Src) (imm : BitVec 32)
  | andn (d : SReg) (a b : Src)
  | shl (d : SReg) (a b : Src)
  | shli (d : SReg) (a : Src) (n : BitVec 6)
  | shr (d : SReg) (a b : Src)
  | shri (d : SReg) (a : Src) (n : BitVec 6)
  | sar (d : SReg) (a b : Src)
  | sari (d : SReg) (a : Src) (n : BitVec 6)
  | rol (d : SReg) (a b : Src)
  | roli (d : SReg) (a : Src) (n : BitVec 6)
  | clz (d : SReg) (a : Src)
  | ctz (d : SReg) (a : Src)
  | popc (d : SReg) (a : Src)
  | brev (d : SReg) (a : Src)
  | sext (d : SReg) (a : Src) (w : BitVec 7)
  | zext (d : SReg) (a : Src) (w : BitVec 7)
  | bfx (d : SReg) (a : Src) (pos lenM1 : BitVec 6)
  | bfxS (d : SReg) (a : Src) (pos lenM1 : BitVec 6)
  | bfi (d : SReg) (a : Src) (pos lenM1 : BitVec 6)
  | min (d : SReg) (a b : Src)
  | max (d : SReg) (a b : Src)
  | minn (d : SReg) (a b : Src)
  | maxn (d : SReg) (a b : Src)
  | slt (d : SReg) (a b : Src)
  | sltn (d : SReg) (a b : Src)
  | slti (d : SReg) (a : Src) (imm : BitVec 32)
  | sltiN (d : SReg) (a : Src) (imm : BitVec 32)
  | seq (d : SReg) (a b : Src)
  | sel (d : SReg) (a b : Src) (c : SReg)
  | mov (d : SReg) (a : Src)
  | movi (d : SReg) (imm : BitVec 32)
  | movx (d : SReg) (x : Word)
  | lea (d : SReg) (a : Src) (off : BitVec 32)
  | leaWin (d : SReg) (a : Src) (off : BitVec 32)
  -- transfers, waiting and ending (R250-R258)
  | br (c : Cond) (a b : Src) (off : BitVec 35)
  | jmp (off : BitVec 35)
  | jmpi (a : Src)
  | call (off : BitVec 35)
  | calli (a : Src)
  | loop (n : BitVec 5) (off : BitVec 35)
  | btag (port : BitVec 3) (table : Src) (mask : SReg)
  | bkany (ka kb : BitVec 3) (off : BitVec 35)
  | bkall (ka kb : BitVec 3) (off : BitVec 35)
  | park (n : BitVec 32)
  | parkEv (mask : BitVec 12)
  | done
  | trap (code : BitVec 32)
  | brkp (code : BitVec 32)
  -- memory, synchronisation and migration (R260-R288)
  | ld (d : SReg) (sz : Size) (p : MAddr)
  | lds (n : BitVec 5) (sz : Size) (p : MAddr)
  | st (v : Src) (sz : Size) (scope : Scope) (p : MAddr)
  | vld (v : BitVec 4) (p : MAddr)
  | vst (v : BitVec 4) (scope : Scope) (p : MAddr)
  | vlds (o : Strided)
  | vsts (o : Strided)
  | vgath (o : Gathered)
  | vscat (o : Gathered)
  | vgathT (o : TGathered)
  | vscatT (o : TGathered)
  | kld (k : BitVec 3) (p : MAddr)
  | kst (k : BitVec 3) (scope : Scope) (p : MAddr)
  | amoadd (o : Amo)
  | amoswp (o : Amo)
  | amocas (o : Amo) (c : SReg)
  | amoand (o : Amo)
  | amoor (o : Amo)
  | amoxor (o : Amo)
  | amomin (o : Amo) (uns : Bool)
  | amomax (o : Amo) (uns : Bool)
  | amofadd (o : Amo)
  | radd (t : RTy) (a b : Src)
  | raddOrd (t : RTy) (a b : Src) (o : SReg)
  | raddv (r : RaddV)
  | raddvOrd (r : RaddV) (o : SReg)
  | fence
  | sfill (d : SReg) (a : Src)
  | fstat (d : SReg) (mail : Bool)
  | migr (a : Src) (off : BitVec 32)
  | migrCrew (a : Src) (off : BitVec 32)
  | mpin (on : Bool)
  | crewj (a b : Src)
  | get (o : CopyArgs)
  | put (o : CopyArgs)
  | gett (o : TCopyArgs)
  | putt (o : TCopyArgs)
  | qsend (p : BitVec 3) (a : Src) (b : BitVec 5) (nM1 : BitVec 3)
  | cexp (c : BitVec 5) (b : Src)
  | cadd (c : BitVec 5) (b : Src)
  | caddClr (c : BitVec 5) (b : Src)
  | crd (d : SReg) (c : BitVec 5)
  | xwait (a : Src)
  | hset (n : BitVec 2) (a : Src)
  | hurdle (n : BitVec 2)
  | view (n : BitVec 3) (a : Src)
  | clineWb (a : Src) (off : BitVec 32)
  | clineEvict (a : Src) (off : BitVec 32)
  | clinePf (a : Src) (off : BitVec 32)
  -- vector, conversion and mask instructions (R289-R317)
  | vadd (o : V3) (rm : Option RMode) (sat : Bool)
  | vsub (o : V3) (rm : Option RMode) (sat : Bool)
  | vmul (o : V3) (rm : Option RMode) (sat : Bool)
  | vfma (o : V3) (rm : Option RMode) (sat : Bool)
  | vmin (o : V3)
  | vmax (o : V3)
  | vabs (o : V2) (sat : Bool)
  | vneg (o : V2) (sat : Bool)
  | vand (o : V3)
  | vor (o : V3)
  | vxor (o : V3)
  | vshl (o : V3)
  | vshr (o : V3)
  | vsar (o : V3)
  | vcmp (d : BitVec 3) (c : VCond) (a : BitVec 4) (b : VSrc) (k : BitVec 3) (ty : Ty)
  | vsel (o : V3) (km : BitVec 3)
  | vmov (d : BitVec 4) (b : VSrc) (k : BitVec 3) (ty : Ty)
  | vbcast (d a : BitVec 4) (i : Src) (k : BitVec 3) (ty : Ty)
  | vext (d : SReg) (a : BitVec 4) (i : Src) (ty : Ty)
  | vins (d : BitVec 4) (a i : Src) (ty : Ty)
  | vred (d : SReg) (op : RedOp) (a : BitVec 4) (k : BitVec 3) (ty : Ty) (rm : Option RMode)
  | vidx (d : BitVec 4) (a b : Src) (k : BitVec 3) (ty : Ty)
  | vrcp (o : V2) (rm : Option RMode)
  | vrsq (o : V2) (rm : Option RMode)
  | vexp2 (o : V2) (rm : Option RMode)
  | vlog2 (o : V2) (rm : Option RMode)
  | vcvt (o : V2) (src : Ty) (rm : Option RMode)
  | vpack (d a b : BitVec 4) (perm : Perm) (k : BitVec 3) (dst src : Ty) (rm : Option RMode)
  | vunpk (o : V2) (src : Ty) (hi : Bool)
  | vshrr (o : V3)
  | vsat (o : V2) (nM1 : BitVec 6) (u : Bool)
  | vmulq (o : V3)
  | vquant (d a : BitVec 4) (f : QFmt) (rm : Option RMode)
  | vdeq (d a : BitVec 4) (f : QFmt) (rm : Option RMode)
  | vdot (d a : BitVec 4) (b : VSrc) (k : BitVec 3) (au bu sat : Bool)
  | kand (d a b : BitVec 3)
  | kor (d a b : BitVec 3)
  | kxor (d a b : BitVec 3)
  | knot (d a : BitVec 3)
  | kpop (d : SReg) (a : BitVec 3)
  | kfirst (d : SReg) (a : BitVec 3)
  | kmov (d : KDst) (a : KSrc)
  -- matrix and collective instructions (R319-R340)
  | mma (o : MmaArgs)
  | mmat (o : MmatArgs)
  | mmag (o : MmagArgs)
  | mmas (h c : BitVec 5) (l : BitVec 4) (sh : MShape)
  | azero (l : BitVec 4) (i32 : Bool)
  | aepi (o : AepiArgs)
  | arel (l : BitVec 4)
  | aclaim (l : BitVec 4)
  | asave (h : SReg) (l : BitVec 4)
  | aload (h : SReg) (l : BitVec 4)
  | collAr (o : CollArgs)
  | collRs (o : CollArgs)
  | collAg (o : CollArgs)
  | collA2a (o : CollArgs)
  -- tensor and engine instructions (R341-R361)
  | talloc (h c l st : BitVec 5)
  | tfree (h : SReg)
  | twiden (h c : SReg) (st : BitVec 5) (wait : Bool)
  | tinfo (h l : SReg) (w : BitVec 3)
  | tld (o : TileArgs)
  | tldt (o : TileArgs)
  | tst (o : TileArgs)
  | tstAdd (o : TileArgs)
  | tredRow (o : TileArgs) (op : TRedOp) (rm : Option RMode)
  | tredCol (o : TileArgs) (op : TRedOp) (rm : Option RMode)
  | tscale (h c : SReg) (l : BitVec 5) (sh : TShape) (rm : Option RMode)
  | tew (h c : SReg) (y : TewArg) (sh : TShape) (rm : Option RMode)
  | tcopy (h : SReg) (c l : BitVec 5) (sh : TShape) (t : Bool) (rm : Option RMode)
  | stash (o : StashArgs)
  | restore (o : StashArgs)
  | nmload (h c : SReg)
  | nmstrm (h c : SReg) (rows cols : BitVec 4)
  | nmdrain (h c : SReg) (rows cols : BitVec 4) (rm : Option RMode)
  -- system, trap and launch instructions (R362-R374)
  | spawn (a b : Src)
  | reap (d : SReg) (a b : Src)
  | launch (d : SReg) (a : Src)
  | cancel (lvl : Level) (d : SReg) (a : Src)
  | sysrd (d : SReg) (r : SpReg)
  | syswr (r : SpReg) (a : Src)
  | xret (a : Option Src)
  | svc (n : BitVec 16)
  | keep (n : BitVec 3) (a : Src)
  -- steps of the device, which have no word (R10-R409); each argument list names the agent and the choice it makes
  | xpcWrite (x : Word)
  | ptsTick (t : Nat)
  | lapBoundary (c : Nat)
  | translationRequest (t : Nat)
  | walkEnd (die job page : Nat)
  | shootdown (die job : Nat)
  | shootdownAck (job : Nat)
  | leaseRenewal (t : Nat)
  | homeStore (t : Nat)
  | crossingInvalidation (die line : Nat)
  | directoryEviction (line : Nat)
  | hbmRequest (sector bank errs : Nat) (wr : Bool)
  | periodicRefresh (stack bank : Nat)
  | patrolScrub (sector errs : Nat)
  | managerErrorHandling (sector fresh : Nat) (clean : Bool)
  | carveInterval
  | carveStepReady
  | handleStamp (t : Nat)
  | publish (t : Nat)
  | reduceStoreLineAdd (t : Nat)
  | reRepresentation (job idx cls : Nat)
  | converterSnapshot (job idx : Nat)
  | reRepresentationPublish (job idx : Nat)
  | tensorEntryFree (job idx : Nat)
  | copyChunk (core : Nat)
  | chunkVisible (core bank id : Nat)
  | chunkAck (core bank id : Nat)
  | copyDone (core bank id : Nat)
  | copyStop (core bank id status : Nat)
  | raddArrival (t : Nat)
  | raddOrdStage (t : Nat)
  | queueMessageArrival (n : Nat)
  | assignStart (core : Nat) (id : Word) (n i : Nat)
  | assignEnded (t : Nat)
  | assignCancel (core : Nat) (id : Word)
  | matrixStep (t : Nat)
  | epilogueStep (t : Nat)
  | tensorStep (t : Nat)
  | batonArrival (n : Nat)
  | batonRefusal (n : Nat)
  | batonAccepted (n : Nat)
  | crewBatonArrival (n : Nat)
  | crewAdmissionTimeout (core job id : Nat)
  | crewRefusalWindowEnd (core job id : Nat)
  | crewjTimeout (core job id : Nat)
  | hurdleSignal (n : Nat)
  | hurdleRelease (n : Nat)
  | brokenSignal (n : Nat)
  | brokenRelease (n : Nat)
  | completionRecordWrite (id : Word)
  | killAck (id : Word)
  | cancelDelivery (t : Nat)
  | cancelHandlerTimeout (t : Nat)
  | phaseStart (job : Nat)
  | graphStart (job : Nat)
  | launchPlacement (id : Word)
  | farUnitPlace (id : Word) (core : Nat)
  | farUnitRetire (t : Nat)
  | preemption (id : Word)
  | launchRestore (id : Word)
  | rebase (job : Nat)
  | clusterAssignment (cluster job : Nat)
  | loaderLoad (job image len base status : Nat)
  | jobnotify (x : Word)
  | intakeReread (frame : Nat)
  | hostRead (pa n : Nat)
  | hostWrite (pa n x : Nat)
  | hostRegisterWrite (off : Nat) (x : Word)
  | featselWrite (x : Word)
  | actlvlhWrite (x : Word)
  | lnkcthrWrite (x : Word)
  | portmodeWrite (x : Word)
  | portmodeApply (port : Nat)
  | attestationRequest (x : Word)
  | freeze (x : Word)
  | freezeToken (die : Nat)
  | coldReset (good : Bool)
  | frameReceive (link seq : Nat) (bad : Bool) (corr : List (Nat × Nat))
  | windowClose (link : Nat)
  | laneMapMarker (link w : Nat) (back : Bool)
  | retrainComplete (link w : Nat) (good : Bool)
  | rateAdvertisement (link rate : Nat)
  | keyExchange (link : Nat)
  | timeDiscipline (src bound tai die : Nat)
  | governorTick (power : Nat) (near : Bool)
  | replyArrival (t : Nat)
  | graphEngineRequest (t : Nat)
  | crewjRefusalWindowEnd (core job id : Nat)
  | disciplineLost (us : Nat)
  | warmReset
  | peerStashRequest (job handle rows cols pages : Nat) (grade : Grade) (data : Option (List (Nat × Nat)))
  | collPeerData (t rank : Nat) (same : Bool) (data : List (Nat × Nat))
  deriving DecidableEq, Repr

end Sys2Proof
end

