-- ==== Sys2Proof/Machine/State.lean ====
section
/-! DEFINITION. The state of the Blunan X8 as plain data: slots, cores, clusters, dies, jobs, tensors, links, the package,
and the model's own bookkeeping (which agent moves next, what a parked slot waits for). -/
namespace Sys2Proof.Machine

/-! ## Sparse maps: a list of (key, value) in one canonical form -/

/-- A sparse map from Nat: keys strictly rising, no entry equal to the default value. -/
abbrev SMap (α : Type) := List (Nat × α)

namespace SMap

/-- The value at a key; `d` where no entry is listed. -/
def get {α : Type} (d : α) : SMap α → Nat → α
  | [], _ => d
  | (k, v) :: m, i => if i = k then v else get d m i

/-- Drops every entry of a key. -/
def erase {α : Type} : SMap α → Nat → SMap α
  | [], _ => []
  | (k, v) :: m, i => if i = k then erase m i else (k, v) :: erase m i

/-- Puts an entry at its place. -/
def put {α : Type} : SMap α → Nat → α → SMap α
  | [], i, x => [(i, x)]
  | (k, v) :: m, i, x =>
    if i < k then (i, x) :: (k, v) :: m
    else if i = k then (i, x) :: m
    else (k, v) :: put m i x

/-- Writes a key; writing the default removes the entry. -/
def set {α : Type} [DecidableEq α] (d : α) (m : SMap α) (i : Nat) (x : α) : SMap α :=
  if x = d then erase m i else put m i x

/-- Every key of the list is above `lo` and rising, and no value is the default. -/
def wfFrom {α : Type} [DecidableEq α] (d : α) : Option Nat → SMap α → Bool
  | _, [] => true
  | lo, (k, v) :: m =>
    (match lo with | none => true | some b => decide (b < k)) && decide (v ≠ d) && wfFrom d (some k) m

/-- The canonical form. -/
def wf {α : Type} [DecidableEq α] (d : α) (m : SMap α) : Bool := wfFrom d none m

/-- Changes every listed value; one that becomes the default is dropped. -/
def mapV {α : Type} [DecidableEq α] (d : α) (f : Nat → α → α) (m : SMap α) : SMap α :=
  (m.map fun e => (e.1, f e.1 e.2)).filter fun e => decide (e.2 ≠ d)

end SMap

/-- Physical memory: an address that is not listed reads as 0 (notes/assumptions/1.md). -/
abbrev Memory := SMap Byte

/-- The canonical form of a memory: addresses strictly rising, no listed byte 0. -/
def Memory.wf (m : Memory) : Bool := SMap.wf 0 m

/-! ## Slots (threads) -/

/-- The state of a slot (R160). -/
inductive SlotSt where
  | free | running | parked | reserved | held | ended
  deriving DecidableEq, Repr

/-- What a PARKED slot waits for (R162). The first group is looked at again at the slot's turn; a reply of the second
group is a step of another agent. -/
inductive WaitKind where
  -- looked at again at each turn of the slot
  | ready                              -- released: issues at its next turn (R41)
  | syncRead (r : Nat)                 -- register s0-s63 (0-63) or m0-m7 (64-71): head of its readers and F = 1 (R117)
  | syncWrite (r : Nat)                -- the same for SFILL: F = 0
  | port (n : Nat) (words : Nat)       -- port qn holds that many words for this reader (R119)
  | lapStart                           -- a mailbox request of a far slot, performed at the next lap start (R120)
  | board                              -- the range scoreboard (R82)
  | queueFull                          -- the put-and-get queue, the ids or the unreported failures (R282, R283)
  | counter (c : Nat)                  -- CEXP (R151)
  | xfer (id : Nat)                    -- XWAIT (R150)
  | fence                              -- FENCE (R110)
  | quiet                              -- R157 before a baton leaves
  | turns (n : Nat)                    -- PARK n (R256)
  | event (mask : Nat) (hit : Bool)    -- PARK.ev (R256)
  | watch (hit : Option Nat)           -- LDS: a store reached the location, with its wts (R265)
  | hurdle (n : Nat) (done : Option Bool)   -- HURDLE: released (true: broken) (R184, R185)
  | crewJoin (id : Nat)                -- CREWJ (R280)
  | reap                               -- REAP (R364)
  | acc (a : Nat)                      -- an accumulator slot that another thread holds (R321)
  | view                               -- a view write (R79)
  | room (core p n : Nat)              -- QSEND (R285)
  | order                              -- a handle operation behind an earlier one (R67, R143)
  | doneWait                           -- DONE (R257)
  -- replies
  | translate (page : Nat)             -- TLB miss (R40)
  | load                               -- a renewal, or a load at a home (R125, R128)
  | store                              -- a store, atomic or remote add at the home (R126)
  | stage                              -- RADD.ord at the home (R274)
  | hostReply                          -- an access over the host link (R140)
  | svc                                -- the runtime (R373)
  | timeReply                          -- TIME, TIMEERR or a remote link register (R369)
  | graph                              -- the graph engine (R367, R368)
  | stamp                              -- handle stamps (R64)
  | engine                             -- the steps of an engine (R327, R335, R353)
  | publish                            -- the publish of a shadow, or the last lines of a reduce-store (R143, R147)
  | widen                              -- the publish of a re-representation (R67)
  | error                              -- an uncorrectable error, until the manager has handled the frame (R103)
  | baton                              -- RESERVED: the answer to a baton (R177)
  deriving DecidableEq, Repr

/-- One operand an instruction has taken before it parked: the field (0 D or V, 1 A, 2 B, 3 third), its value, and how
to put it back (R118): a register with its stamp, or a port word with its stamp. -/
inductive Taken where
  | plain
  | reg  (r : Nat) (stamp : Nat)
  | word (p : Nat) (stamp : Nat)
  deriving DecidableEq, Repr

/-- An operand taken by the instruction that issues. -/
structure Latch where
  field : Nat
  val   : Word
  how   : Taken
  deriving DecidableEq, Repr

/-- What a parked slot is doing: the kind, the instruction, the handle stamps it holds, and its unfinished data. -/
structure Wait where
  kind   : WaitKind
  instr  : Instr
  stamps : List Nat
  data   : SMap Nat
  n      : Nat
  deriving DecidableEq, Repr

/-- Where in a block a thread stands (R209-R211, R424). -/
inductive Span where
  | entry                                            -- the next word must be a header
  | block (left : Nat) (lg lv : BitVec 16) (lk : Bool)   -- words left in the span, and the block's live fields
  | open_                                            -- an open span
  deriving DecidableEq, Repr

/-- The g, v and k registers of a thread (R221): keys 1-31, 0-15, 1-7. -/
structure Regs where
  g : SMap Word
  v : SMap Row
  k : SMap Word
  deriving DecidableEq, Repr

/-- The special registers a slot holds (R369-R371), and the return mark (R372). -/
structure Special where
  unitid   : Word
  launchid : Word
  xcause   : Word
  xvalue   : Word
  xpc      : Word
  xstat    : Word
  xhandler : Word
  progidx  : Word
  seed     : Word
  lnksel   : Word
  rmark    : Bool
  deriving DecidableEq, Repr

/-- How a unit ended (R364). -/
structure EndRec where
  code  : Nat
  cause : Nat
  xpc   : Word
  tid   : Nat
  deriving DecidableEq, Repr

/-- The result buffer of a far slot: shape, type and elements row by row (R359). -/
structure FarBuf where
  rows  : Nat
  cols  : Nat
  isInt : Bool
  data  : SMap Nat
  deriving DecidableEq, Repr

/-- The weights a far slot has loaded: format and 64 codes, row by row (R360). -/
structure FarWts where
  fmt  : Tag
  data : SMap Nat
  deriving DecidableEq, Repr

/-- A slot and the thread it holds. -/
structure Slot where
  st      : SlotSt
  wait    : Option Wait
  latch   : List Latch
  regs    : Regs
  pc      : BitVec 56
  span    : Span
  wmask   : BitVec 33            -- [15:0] g pairs, [31:16] v, [32] k (R175, R389)
  sp      : Special
  pts     : Nat                  -- R124
  issued  : Nat                  -- instructions issued since the last wake-up (R130)
  total   : Nat                  -- instructions issued since the thread started (R130)
  ticked  : Bool                 -- the PTS has been raised for the instruction that issues next (R130)
  fails   : List (Nat × Nat)     -- unreported copy failures: id, status (R283)
  copyPts : Nat                  -- highest timestamp among the thread's done copies and publishes (R109, R159)
  crewN   : Nat                  -- crew size (R176)
  hops    : Nat                  -- hop count (R176)
  origin  : Nat                  -- the origin of the baton that brought the thread
  fin     : Option EndRec
  mailOut : Option (Nat × Word)  -- a far slot's finished write of a mailbox, until its core performs it (R120)
  cancel  : Option Nat           -- the level whose cancel is pending: 0 launch .. 3 job (R172)
  handTurns : Nat                -- turns a cancel handler has used (R172)
  job     : Option Nat
  priv    : SMap Byte            -- the private region of a near-core slot (R20)
  buf     : Option FarBuf
  wts     : Option FarWts
  deriving DecidableEq, Repr

/-! ## Shared registers, ports, counters (R115-R120, R151) -/

/-- An s or m register. -/
structure SyncReg where
  val     : Word
  full    : Bool
  stamp   : Nat
  readers : List Nat
  writers : List Nat
  deriving DecidableEq, Repr

/-- A q port: its words with their stamps, and the slots that wait to read it. -/
structure Port where
  words   : List (Word × Nat)
  readers : List Nat
  deriving DecidableEq, Repr

/-- A byte counter. -/
structure Counter where
  val    : Int
  err    : Nat
  stamp  : Nat
  failId : Nat
  deriving DecidableEq, Repr

/-- The shared state of a core, or one job bank of near cores 4-7 (R52). -/
structure Bank where
  regs     : SMap SyncReg        -- 0-63 s, 64-71 m
  ports    : SMap Port
  ctrs     : SMap Counter
  xferNext : Nat
  pending  : List Nat            -- the ids not yet done, in order of issue
  xferStamp : Nat
  spw      : Nat                 -- R127
  deriving DecidableEq, Repr

/-! ## Cores -/

/-- An entry of the range scoreboard (R81): the copy or thread it belongs to, its range, and whether it writes. -/
structure BoardEnt where
  tid  : Nat
  id   : Nat
  lo   : Nat
  hi   : Nat
  wr   : Bool
  deriving DecidableEq, Repr

/-- A hurdle (R183-R185): its register, and the signals of the phase. -/
structure Hurdle where
  val    : Word      -- EN, PHASE, PCNTM1 and the rectangle; ARR is the length of `arrs`
  arrs   : List Nat  -- the PTS of each arrival of the phase
  extra  : List Nat  -- the PTS of each arrival that counts toward the next phase
  row    : Bool      -- the neighbour farther from X0 has signalled
  col    : Bool      -- the neighbour farther from Y0 has signalled
  sent   : Bool
  pts    : Nat       -- the maximum PTS of the signals received
  broken : Bool
  deriving DecidableEq, Repr

/-- A copy of a line in L1 or die L2 (R84-R88, R123, R125): data and pair, the sectors it holds, those that its holder has
written (dirty as long as the home notes that holder), and its class: 0 ordinary, k + 1 retained by residency register k (R91). -/
structure LineCopy where
  job  : Nat
  line : Nat
  data : Row
  wts  : Nat
  rts  : Nat
  valid : BitVec 8
  dirty : BitVec 8
  kept : Nat
  deriving DecidableEq, Repr

/-- A line of tensor storage in a die L2 (R86, R92): a row line, or the column line g of square q as line 4q + g, with the size w
of its elements (0: a row line), and the pair that it carries (R123). It holds no data of its own: operations on handles are ordered
by their stamps, so it never differs from the home. -/
structure TensLine where
  job  : Nat
  line : Nat
  col  : Nat
  kept : Nat
  wts  : Nat := 0
  rts  : Nat := 0
  deriving DecidableEq, Repr

/-- A square in the LLC (R92, R95, R87): stored by columns or by rows, the dirty bits of its 32 stored sectors, and whether its
directory entry is on its way back to the controller. -/
structure LlcSq where
  cols   : Bool
  dirty  : BitVec 32
  moving : Bool
  deriving DecidableEq, Repr

/-- A translation (R35, R38): the job, the first virtual byte, the size, and the leaf. -/
structure Leaf where
  job  : Nat
  va   : Nat
  size : Nat
  pa   : Nat
  cls  : Nat
  x    : Bool
  w    : Bool
  home : Nat
  deriving DecidableEq, Repr

/-- A baton (R176): everything that travels. -/
structure Baton where
  hops    : Nat
  pc      : BitVec 56
  xstat   : Word
  pts     : Nat
  unitid  : Word
  launchid : Word
  seed    : Word
  xhandler : Word
  crewN   : Nat
  job     : Nat
  origin  : Nat
  total   : Nat            -- instructions the thread has issued since it started, for R130 (notes/assumptions/17.md)
  carried : BitVec 33
  regs    : Regs
  addr    : Nat            -- the address that sent it, for trap 0x0A (R178)
  dest    : Nat            -- the core it goes to
  held    : Bool           -- accepted into the arrival buffer during the lap in which it arrived (R177)
  verdict : Option Nat     -- the answer on its way back: none accepted, or the reason of the refusal (R178)
  cancel  : Option Nat
  deriving DecidableEq, Repr

/-- A crew at its destination (R182). -/
structure CrewAdm where
  job      : Nat
  id       : Nat
  size     : Nat
  arrived  : List Nat      -- slots that hold an arrived member
  slots    : List Nat      -- reserved slots not yet filled
  refused  : Bool
  deriving DecidableEq, Repr

/-- A crew join on a core (R280). -/
structure CrewJoin where
  job     : Nat
  id      : Nat
  size    : Nat
  members : List Nat
  failed  : Bool
  deriving DecidableEq, Repr

/-- A compute core or a near core. -/
structure Core where
  turn     : Nat
  begun    : Bool                -- the boundary of this lap is past
  lap      : Nat
  cycle    : Nat
  spad     : SMap Byte           -- by physical place: row * 256 + bank * 8 + byte (R74)
  poison   : SMap Bool           -- poisoned scratchpad words (R104)
  vw       : SMap Word
  hb       : SMap Hurdle
  stalls   : Nat
  parks    : Nat
  migrs    : Nat
  board    : List BoardEnt
  banks    : SMap Bank           -- key 0 on a compute core, the job number on a near core
  port0    : Port                -- q0 of a near core (R52)
  deficit  : SMap Nat            -- R384
  l1       : List LineCopy
  tlb      : List Leaf
  arrivals : List Baton          -- the batons that the arrival buffer holds from earlier laps (R177)
  landed   : List Baton          -- arrived during this lap, in order: placed at the next lap boundary (R383)
  crews    : List CrewAdm
  joins    : List CrewJoin
  mail     : List Nat            -- far slots whose mailbox request waits for the next lap start (R120)
  deriving DecidableEq, Repr

/-! ## Clusters and dies -/

/-- The state of an accumulator slot (R320). -/
inductive AccSt where
  | free | owned | epilogue | parked
  deriving DecidableEq, Repr

/-- An accumulator slot. -/
structure Acc where
  st      : AccSt
  unitid  : Word
  launchid : Word
  job     : Nat
  isInt   : Bool
  ext     : Option (Edge × Edge)
  data    : SMap (BitVec 32)     -- key 128 * row + column
  waiters : List Nat
  fault   : Bool                 -- an epilogue stopped by a fault (R335)
  poison  : Bool
  deriving DecidableEq, Repr

/-- A cluster: job, whether it is out of service, accumulators, gather latch. -/
structure Cluster where
  job       : Option Nat
  harvested : Bool
  acc       : SMap Acc
  latch     : SMap Nat
  deriving DecidableEq, Repr

/-- A residency range register (R89-R91). -/
structure Keep where
  val   : Word
  owner : Option Nat
  count : Nat
  deriving DecidableEq, Repr

/-- A table walk in progress, with the slots that wait on it (R40). -/
structure Walk where
  job   : Nat
  page  : Nat
  tids  : List Nat
  deriving DecidableEq, Repr

/-- An entry of the black box (R409). -/
structure BoxEnt where
  time : Nat
  terr : Nat
  seq  : Nat
  kind : Nat
  who  : Nat
  data : Nat
  deriving DecidableEq, Repr

/-- A die. -/
structure Die where
  cycles  : Nat
  time    : Nat
  timeErr : Nat
  keep    : SMap Keep
  l2      : List LineCopy
  tens    : List TensLine        -- lines of tensor storage in the L2 (R86)
  tcache  : List Leaf
  walks   : List Walk            -- the first 64 are in progress, the others wait (R40)
  box     : SMap BoxEnt          -- by entry number mod 128
  boxSeq  : Nat
  stopped : Bool
  token   : Bool                 -- a freeze token is on its way (R408)
  ecc     : SMap Nat             -- corrected errors of each of its arrays (R104, R394)
  deriving DecidableEq, Repr

/-! ## The memory side -/

/-- The directory entry of a coherence unit: its authoritative pair, its scoped holder, and its exclusive owner (R87, R123, R133). -/
structure Pair where
  wts   : Nat
  rts   : Nat
  scope : Nat              -- 0 sys, 1 pkg, 2 die, 3 core
  who   : Nat              -- the holding core
  owner : Nat := 0         -- the die whose L2 holds the unit exclusively, plus 1; 0 none (R87)
  deriving DecidableEq, Repr

/-- A contribution of RADD.ord (R274). -/
structure Contrib where
  idx   : Nat
  n     : Nat
  ty    : RTy
  pts   : Nat
  lanes : SMap (BitVec 64)   -- by byte offset in the line; a contribution of zero is kept by `mask`
  mask  : List Nat           -- the byte offsets it touches
  level : Word               -- the launch of the contributor
  job   : Nat                -- its job, and the address it names, for R146
  va    : Nat
  deriving DecidableEq, Repr

/-- The ordered round of a line for the contributions of a job (R49, R274). -/
structure Round where
  line   : Nat
  job    : Nat
  n      : Nat
  ty     : RTy
  staged : List Contrib
  held   : List Contrib
  deriving DecidableEq, Repr

/-! ## Tensors (R53-R70) -/

/-- What a queued operation of a handle is: a reader, a shadowed writer, a reduce-store, a widening, a TFREE. -/
inductive OpKind where
  | reader | writer | adder | widen | free
  deriving DecidableEq, Repr

/-- A rectangle of a tensor: rows `row` to `row + n - 1`, counted over all pages, and of each row the bytes from `lo` up to `hi`. -/
structure Ext where
  row : Nat
  n   : Nat
  lo  : Nat
  hi  : Nat
  deriving DecidableEq, Repr

/-- A place for a representation: its class, the form of each copy or part (R63), the 64 KiB frame of each segment, copy after copy,
and the physical address of its segment map (R53). -/
structure Home where
  cls    : Nat
  form   : Nat
  frames : List Nat
  map    : Nat
  deriving DecidableEq, Repr

/-- A queued operation of a handle (R64): its stamp, thread, kind, the rectangles and the segments it touches, the bits it uses, whether
it waits for a re-representation (R67), and how many shadow segments it holds (R66); for a widening, the bits that it added to CAPS,
and the place reserved for its representation (R70). -/
structure HOp where
  stamp  : Nat
  tid    : Nat
  kind   : OpKind
  exts   : List Ext
  segs   : List Nat
  caps   : Nat
  parked : Bool
  shadow : Nat
  home   : Option Home
  deriving DecidableEq, Repr

/-- Frames of an old representation, and the stamps of the readers that still use them (R67). -/
structure OldRep where
  users  : List Nat
  frames : List Nat
  deriving DecidableEq, Repr

/-- A re-representation in progress (R67). -/
structure ReRep where
  tc    : Nat
  add   : Nat              -- the capability bits added at Tc
  home  : Home             -- the place of the new representation
  ready : Bool             -- the converter has taken its snapshot
  deriving DecidableEq, Repr

/-- One entry of a tensor table with the tensor's contents as codes (R53, R65). -/
structure Tensor where
  gen       : Nat
  fmt       : Option Tag
  scl       : Nat
  st        : Nat          -- 0 free, 1 live, 2 re-representing, 3 retiring
  caps      : Nat
  rowsM1    : Nat
  colsM1    : Nat
  pagesM1   : Nat
  scaleBase : Nat
  aliasAt   : Nat
  hlast     : Nat
  cls       : Nat
  layout    : Nat
  segmap    : Nat
  cells     : SMap Nat     -- codes, by (page * rows + row) * columns-in-units + unit
  log       : List (Nat × SMap Nat)   -- what a publish overwrote, plus 1, by its stamp: seen by earlier stamps (R143)
  ops       : List HOp
  rerep     : Option ReRep
  frames    : List Nat     -- the 64 KiB frame of each segment, copy after copy (R63, R65)
  olds      : List OldRep  -- old representations that readers still use (R67)
  poison    : List Nat     -- poisoned segments
  deriving DecidableEq, Repr

/-! ## Jobs and levels of work (R167-R172, R375-R382) -/

/-- What every level above the unit has (R167, R168). -/
structure Lvl where
  policy : Nat
  retry  : Nat
  tries  : Nat
  faults : Nat
  fcause : Nat
  ftid   : Nat
  doneN  : Nat
  failN  : Nat
  cancN  : Nat
  gone   : Nat             -- children among them that were dropped before they began, without a record (R168)
  retried : Bool
  tstart : Option Nat
  record : Nat
  pts    : Nat             -- the maximum of R159
  status : Option Nat      -- set when the level is killed or cancelled, before its record is written
  written : Bool
  acked  : Bool            -- kill-acknowledged (R158)
  deriving DecidableEq, Repr

/-- A unit of a launch. -/
structure UnitRec where
  idx   : Nat
  tries : Nat
  core  : Nat
  far   : Bool
  st    : Nat              -- 0 to be placed, 1 assigned, 2 counted
  deriving DecidableEq, Repr

/-- A launch (R365). -/
structure Launch where
  id     : Word
  entry  : Nat
  dies   : Nat
  excl   : Nat
  x0     : Nat
  y0     : Nat
  w      : Nat
  h      : Nat
  prio   : Nat
  far    : Bool
  units  : Nat
  args   : Word
  after  : Word
  handler : Word
  seedBase : Word
  lvl    : Lvl
  deps   : List Word       -- predecessors not yet done
  st     : Nat             -- 0 waiting, 1 ready, 2 placed, 3 pre-empted, 4 ended
  placed : Nat             -- order of placement
  list   : List UnitRec
  minPts : Nat
  added  : Bool            -- added by LAUNCH (R171, R367)
  deriving DecidableEq, Repr

/-- A graph or a phase in progress: its index, level, the number of its children, and the reruns of the child that starts
next. -/
structure Grp where
  idx   : Nat
  lvl   : Lvl
  tab   : Nat              -- LTAB or GTAB
  n     : Nat
  again : Nat
  deriving DecidableEq, Repr

/-- A shootdown in progress (R43): the range, the entries that change with their new values, and the dies still to acknowledge. For a
remap (R68, R395), also what moves when the change takes effect (from, to, bytes), and the 4 KiB frame that is then poisoned. -/
structure Shoot where
  va    : Nat
  size  : Nat
  ents  : List (Nat × Nat)
  move  : List (Nat × Nat × Nat)
  lose  : Option Nat
  dies  : List Nat
  deriving DecidableEq, Repr

/-- A save record that holds a stopped thread (R388-R390): its number, launch and unit; the thread, and what is left of a long
instruction stopped at a step boundary (R148); for a far slot, the buffer and the weights that the runtime keeps (R359, R389). -/
structure Saved where
  k      : Nat
  launch : Word
  unit   : Nat
  tid    : Nat
  total  : Nat             -- instructions issued since the thread started (R130)
  wait   : Option Wait
  latch  : List Latch
  buf    : Option FarBuf
  wts    : Option FarWts
  copyPts : Nat
  deriving DecidableEq, Repr

/-- A running job. -/
structure Job where
  frame      : Nat
  root       : Nat
  carveHi    : Nat
  carveLo    : Nat
  shadowPool : Nat
  stashPool  : Nat
  saveArea   : Nat
  phaseTab   : Nat
  nPhases    : Nat
  leaseLen   : Nat
  lvl        : Lvl
  phase      : Option Grp
  graph      : Option Grp
  launches   : List Launch
  nextX      : Nat
  seq        : Nat              -- completion record sequence (R168)
  tensors    : SMap Tensor
  shoot      : Option Shoot
  again      : Nat              -- reruns of the phase that starts next
  saved      : List Saved
  stopping   : List Nat         -- threads that a pre-emption has stopped and not yet saved (R388)
  rebasing   : Bool             -- a timestamp has come near 2^47: its slots stop for a rebase (R131)
  early      : List Word        -- levels cancelled before they start (R368, R378)
  deriving DecidableEq, Repr

/-- A copy in progress (R149, R281-R284). -/
structure Copy where
  id      : Nat
  core    : Nat
  bank    : Nat
  tid     : Nat
  job     : Nat
  kind    : Nat                 -- 0 GET, 1 PUT, 2 GETT, 3 PUTT
  glob    : Nat                 -- global address
  loc     : Nat                 -- local address
  n       : Nat
  done    : Nat                 -- bytes sent
  vis     : Nat                 -- bytes visible
  acked   : Nat
  prio    : Nat
  rc      : Option Nat
  sc      : Option Nat
  p0      : Nat
  pts     : Nat                 -- highest chunk timestamp
  stamp   : Nat
  handle  : Nat
  row0    : Nat
  col0    : Nat
  page    : Nat
  rows    : Nat
  cols    : Nat
  pitch   : Nat
  data    : SMap Nat
  launch  : Word
  deriving DecidableEq, Repr

/-- A message on its way to a port (R119, R285); `src` is the slot that parks on it. -/
structure Msg where
  src   : Option Nat
  core  : Nat
  bank  : Nat
  port  : Nat
  words : List Word
  stamp : Nat
  deriving DecidableEq, Repr

/-- A hurdle signal or release on its way (R184, R185). -/
structure HSig where
  die   : Nat
  x     : Nat
  y     : Nat
  n     : Nat
  val   : Word
  row   : Bool          -- along a row
  rel   : Bool          -- a release
  broken : Bool
  pts   : Nat
  deriving DecidableEq, Repr

/-- The state of a collective member (R340). -/
structure Coll where
  job    : Nat
  launch : Word
  tid    : Nat
  op     : Nat
  handle : Nat
  res    : Nat
  ctr    : Option Nat
  core   : Nat
  bank   : Nat
  rank   : Nat
  pkg    : Nat
  mods   : Nat
  camp   : Nat
  cfmt   : Nat
  mfmt   : Nat
  peers  : Nat                      -- the peer table that its descriptor names
  inst   : Nat                      -- which of the group's collectives, counted in issue order
  stamps : List Nat
  got    : List (Nat × SMap Nat)    -- the data of each member heard from
  pts    : Nat
  deriving DecidableEq, Repr

/-! ## Links, ports, package -/

/-- A link, or an external group (R400-R404). -/
structure Link where
  down    : Bool
  active  : Nat              -- LNKMAP
  retr    : Nat
  thr     : Nat
  corr    : SMap Nat         -- LNKCORR by wavelength
  win     : SMap Nat         -- counts of the current window
  frames  : Nat              -- frames of the current window
  seq     : Nat              -- the next sequence number expected
  fails   : Nat              -- failures in a row
  training : List Nat        -- wavelengths that retrain
  waiting : List Nat
  tries   : SMap Nat         -- failed retrains by wavelength
  out     : List Nat         -- left out until reset
  unacked : Nat              -- frames sent and not acknowledged: those in the replay buffer or window (R400, R403)
  resend  : Nat              -- how many of them an external group is to send again (R403)
  clock   : Nat              -- frame times passed, in ps (R400)
  sentUs  : Nat              -- frames sent in the current microsecond
  long    : Bool
  rate    : Option Nat       -- the latest advertisement, in frames per microsecond (R403)
  epoch   : Nat
  keyed   : Nat              -- frames sent under the key
  tagBad  : Nat
  deriving DecidableEq, Repr

/-- The intake of notifies (R376). -/
structure Notify where
  frame : Nat
  seq   : Nat
  tries : Nat
  deriving DecidableEq, Repr

/-- What one package holds beside its dies. -/
structure Package where
  featsel   : Nat
  featDone  : Bool
  hwbase    : Word
  frames    : SMap Byte        -- intake frames
  accepted  : SMap Nat         -- last accepted SEQ of a frame, plus 1
  notifies  : List Notify
  msix      : List Nat
  budget    : Nat
  power     : Nat
  limit     : Bool
  near      : Bool
  mdiv      : Nat
  actlvl    : Nat
  lnkcsel   : Word
  portReq   : Nat
  portMode  : Nat
  replayBase : Nat
  replayStride : Nat
  mailbox   : SMap Byte
  recovery  : Bool
  carve     : Nat              -- C in MiB
  growing   : Nat              -- the top steps of C that are not yet usable (R98)
  waitPlace : Bool             -- the manager has a placement waiting
  topEmpty  : Bool             -- the manager has marked the top step empty
  hits      : SMap Nat         -- H(k)
  raa       : SMap Nat         -- per bank
  eccHbm    : SMap Nat         -- corrected errors per stack
  master    : Nat              -- the time that every disciplined die follows (R405)
  timeSrc   : Nat              -- 0 never, 1 host, 2 port, 3 lost
  timeBound : Nat
  lostUs    : Nat
  deriving DecidableEq, Repr

/-- A move of the machine: a turn of a core (with replies at once or later), or a step of the device. -/
inductive Move where
  | turn (core : Nat) (prompt : Bool)
  | event (i : Instr)
  deriving DecidableEq, Repr

/-- The whole machine. -/
structure State where
  -- the model's own
  agenda  : List Move          -- which agents move next
  active  : Nat                -- the core that takes the next turn when the agenda is empty
  cur     : Nat                -- the thread that issues
  prompt  : Bool               -- replies come within the step that asks for them
  grant   : Option WaitKind    -- the reply that the current event brings
  broken  : Option Nat         -- the link whose requests in flight the current event answers with an error (R393)
  picks   : List Nat           -- the free choices of managers and controllers
  frees   : Nat                -- free values drawn so far
  -- the machine
  slots   : SMap Slot          -- by thread id
  cores   : SMap Core          -- by die * 128 + core
  clusters : SMap Cluster      -- by die * 32 + cluster
  dies    : SMap Die
  mem     : Memory             -- physical memory
  hostMem : SMap Byte          -- the host's memory, by its own addresses (R397)
  pairs   : SMap Pair          -- by coherence unit
  squares : List Nat           -- oriented squares (R93)
  llc     : SMap (Option LlcSq) -- the squares that the LLC holds (R87, R92, R95)
  invals  : List (Nat × Nat)   -- invalidations of crossing lines on their way: die, square (R94)
  badWords : List Nat          -- poisoned 8-byte words of infield storage and of dirty cached sectors (R104, R396)
  poison  : List Nat           -- poisoned 4 KiB frames
  badSect : List Nat           -- poisoned sectors (R103)
  retired : List Nat           -- retired frames (R395)
  loaded  : List Nat           -- frames that the runtime loaded from a host image (R395)
  dirty   : List Nat           -- frames stored to since they were loaded from a host image
  rounds  : List Round
  streams : SMap (SMap Nat)    -- the deficits of the streamers of stacks (4096 up), of the infield die and of the host link (R384)
  jobs    : SMap (Option Job)
  copies  : List Copy
  msgs    : List Msg
  batons  : List Baton
  answers : List Baton         -- the answers to batons, on their way back to the origins
  sigs    : List HSig
  colls   : List Coll
  links   : SMap Link
  pkg     : Package
  deriving DecidableEq, Repr

/-! ## Faults and refusals -/

/-- A stop of the machine that is not a trap. -/
inductive Fault where
  /-- Raised by `step` and by every instruction and event of a die whose clocks a freeze has stopped (R408): nothing
  happens on that die until a cold reset. Safe: a claim about a stopped die cannot be proved. -/
  | clocksStopped
  deriving DecidableEq, Repr

/-- A refusal by the model. -/
inductive Refusal where
  /-- Raised by the dispatch for an instruction whose meaning is not written. Safe: nothing can be proved of it. -/
  | notModelled (mnemonic : String)
  deriving DecidableEq, Repr

/-! ## Reset values -/

namespace Regs
/-- All registers zero (R363). -/
def zero : Regs := { g := [], v := [], k := [] }
end Regs

namespace Special
/-- Every special register of a slot at its reset value (R370, R371, R402). -/
def zero : Special :=
  { unitid := 0, launchid := 0, xcause := 0, xvalue := 0, xpc := 0, xstat := 0, xhandler := 0, progidx := 0, seed := 0,
    lnksel := 0, rmark := false }
end Special

namespace Slot
/-- A FREE slot. -/
def dflt : Slot :=
  { st := .free, wait := none, latch := [], regs := Regs.zero, pc := 0, span := .entry, wmask := 0, sp := Special.zero,
    pts := 0, issued := 0, total := 0, ticked := false, fails := [], copyPts := 0, crewN := 0, hops := 0, origin := 0, fin := none, mailOut := none, cancel := none,
    handTurns := 0, job := none, priv := [], buf := none, wts := none }
end Slot

namespace SyncReg
/-- An empty register (R115). -/
def dflt : SyncReg := { val := 0, full := false, stamp := 0, readers := [], writers := [] }
end SyncReg

namespace Port
/-- An empty port. -/
def dflt : Port := { words := [], readers := [] }
end Port

namespace Counter
/-- A cleared counter. -/
def dflt : Counter := { val := 0, err := 0, stamp := 0, failId := 0 }
end Counter

namespace Bank
/-- The shared state of a core after R51, or of a job bank after R52. -/
def dflt : Bank := { regs := [], ports := [], ctrs := [], xferNext := 0, pending := [], xferStamp := 0, spw := 0 }
end Bank

namespace Hurdle
/-- A hurdle that is not set. -/
def dflt : Hurdle :=
  { val := 0, arrs := [], extra := [], row := false, col := false, sent := false, pts := 0, broken := false }
end Hurdle

namespace Core
/-- A core after R51. -/
def dflt : Core :=
  { turn := 0, begun := false, lap := 0, cycle := 0, spad := [], poison := [], vw := [], hb := [], stalls := 0, parks := 0,
    migrs := 0, board := [], banks := [], port0 := Port.dflt, deficit := [], l1 := [], tlb := [], arrivals := [],
    landed := [], crews := [], joins := [], mail := [] }
end Core

namespace Acc
/-- A FREE accumulator slot (R320). -/
def dflt : Acc :=
  { st := .free, unitid := 0, launchid := 0, job := 0, isInt := false, ext := none, data := [], waiters := [],
    fault := false, poison := false }
end Acc

namespace Cluster
/-- A cluster in service that no job holds. -/
def dflt : Cluster := { job := none, harvested := false, acc := [], latch := [] }
end Cluster

namespace Keep
/-- An unassigned residency register. -/
def dflt : Keep := { val := 0, owner := none, count := 0 }
end Keep

namespace BoxEnt
/-- An entry never written. -/
def dflt : BoxEnt := { time := 0, terr := 0, seq := 0, kind := 0, who := 0, data := 0 }
end BoxEnt

namespace Die
/-- A die after reset: TIMEERR all ones, for never disciplined (R405). -/
def dflt : Die :=
  { cycles := 0, time := 0, timeErr := 0xFFFFFFFF, keep := [], l2 := [], tens := [], tcache := [], walks := [], box := [],
    boxSeq := 0, stopped := false, token := false, ecc := [] }
end Die

namespace Pair
/-- A unit never touched: both timestamps 0, no scoped holder. -/
def dflt : Pair := { wts := 0, rts := 0, scope := 0, who := 0 }
end Pair

namespace Tensor
/-- An entry no job has allocated (R53). -/
def dflt : Tensor :=
  { gen := 0, fmt := none, scl := 0, st := 0, caps := 0, rowsM1 := 0, colsM1 := 0, pagesM1 := 0, scaleBase := 0,
    aliasAt := 0, hlast := 0, cls := 0, layout := 0, segmap := 0, cells := [], log := [], ops := [],
    rerep := none, frames := [], olds := [], poison := [] }
end Tensor

namespace Link
/-- A link that is up with eight wavelengths (R402). -/
def dflt : Link :=
  { down := false, active := 0xFF, retr := 0, thr := 1024, corr := [], win := [], frames := 0, seq := 0, fails := 0,
    training := [], waiting := [], tries := [], out := [], unacked := 0, resend := 0, clock := 0, sentUs := 0, long := false, rate := none, epoch := 0,
    keyed := 0, tagBad := 0 }
end Link

namespace Package
/-- The package after reset (R398, R399, R405, R406). -/
def dflt : Package :=
  { featsel := 0, featDone := false, hwbase := 0, frames := [], accepted := [], notifies := [], msix := [],
    budget := 3600, power := 0, limit := false, near := false, mdiv := 0, actlvl := 64, lnkcsel := 0, portReq := 0,
    portMode := 0, replayBase := 0, replayStride := 0, mailbox := [], recovery := false, carve := 0, growing := 0,
    waitPlace := false, topEmpty := false, hits := [], raa := [], eccHbm := [], master := 0, timeSrc := 0, timeBound := 0,
    lostUs := 0 }
end Package

/-- The machine right after reset: every slot FREE, no job, no line touched, memory with nothing listed. -/
def State.reset : State :=
  { agenda := [], active := 0, cur := 0, prompt := true, grant := none, broken := none, picks := [], frees := 0, slots := [], cores := [],
    clusters := [], dies := [], mem := [], hostMem := [], pairs := [], squares := [], llc := [], invals := [], badWords := [], poison := [], badSect := [], retired := [],
    loaded := [], dirty := [], rounds := [], streams := [], jobs := [], copies := [], msgs := [], batons := [], answers := [], sigs := [], colls := [],
    links := [], pkg := Package.dflt }

end Sys2Proof.Machine
end

