-- ==== Sys2Proof/Machine/Ops.lean ====
section
/-! DEFINITION. The named operations of the machine: the step of one instruction as a state monad, threads and their
places, parking and waking, trap entry and trap return (R385, R387, R372). -/
namespace Sys2Proof.Machine

/-- What one instruction or event answers. -/
abbrev Out := Host.Outcome State Fault Refusal

/-- Why an instruction does not complete. `trap` performs nothing of it; `trapDo` performs nothing but a record of the
trap (a failure that is now reported); `trapAt` keeps the state of the lanes or steps
below PROGIDX (R107); `park` keeps what it has taken; `leave` is a final state (a transfer, a baton, an ended unit). -/
inductive Stop where
  | trap   (cause : Nat) (xvalue : Word)
  | trapDo (cause : Nat) (xvalue : Word) (f : State → State)
  | trapAt (cause : Nat) (xvalue : Word) (s : State)
  | park   (k : WaitKind) (s : State)
  | leave  (s : State)

/-- One instruction in progress. -/
abbrev M := StateT State (Except Stop)

/-- Stops the instruction in progress. -/
def stop {α : Type} (x : Stop) : M α := fun _ => .error x

/-- Raises a trap: nothing of the instruction is performed. -/
def trap {α : Type} (cause : Nat) (xvalue : Word) : M α := stop (.trap cause xvalue)

/-- Raises a trap that keeps what has been performed. -/
def trapAt {α : Type} (cause : Nat) (xvalue : Word) : M α := fun s => .error (.trapAt cause xvalue s)

/-- Trap 0x01 with a subcause and a field (R226, R427). -/
def illegalOp {α : Type} (sub field : Nat) : M α := trap 1 (BitVec.ofNat 64 (field * 256 + sub))

/-- Trap 0x09 with a reason (R331, R361). -/
def badFormat {α : Type} (reason : Nat) : M α := trap 9 (BitVec.ofNat 64 reason)

/-- Parks. -/
def park {α : Type} (k : WaitKind) : M α := fun s => .error (.park k s)

/-- Ends the instruction in the state it stands in, without moving the PC. -/
def leave {α : Type} : M α := fun s => .error (.leave s)

/-- Stops with a trap where a condition fails. -/
def ensure (ok : Bool) (t : M Unit) : M Unit := if ok then pure () else t

/-- The function `f` applied to `x`, `n` times. -/
def times {α : Type} (n : Nat) (f : Nat → α → α) (x : α) : α := (List.range n).foldl (fun a i => f i a) x

/-- A monadic loop over 0 .. n-1. -/
def loopM : List Nat → (Nat → M Unit) → M Unit
  | [], _ => pure ()
  | i :: l, f => do f i; loopM l f

/-! ## Names of places (R14-R17) -/

/-- The thread id of slot `k` of core key `c`. -/
def tidOf (c k : Nat) : Nat := c * 32 + k
/-- The core key of a thread: die * 128 + core. -/
def coreOf (t : Nat) : Nat := t / 32
/-- The slot number of a thread. -/
def slotNo (t : Nat) : Nat := t % 32
/-- The die of a thread, by its logical name. -/
def dieOf (t : Nat) : Nat := t / 4096
/-- A core of a compute die. -/
def isCompute (c : Nat) : Bool := decide (c < 1024)
/-- Near cores 4-7 of a base die, which run job code (R12). -/
def isNear (c : Nat) : Bool :=
  decide (Config.baseDie0 ≤ c / 128) && decide (c / 128 < Config.opticalDie0) && decide (4 ≤ c % 128) && decide (c % 128 < 8)
/-- A far slot, by its logical name (R17). -/
def isFar (t : Nat) : Bool := decide (slotNo t = 16)
/-- A local slot of a compute core. -/
def isLocal (t : Nat) : Bool := isCompute (coreOf t) && !isFar t
/-- The stack that houses a far slot: hs(2d + (c div 64)) (R17). -/
def farStack (t : Nat) : Nat := 2 * dieOf t + (coreOf t % 128) / 64
/-- The physical name of a thread (R17). -/
def physOf (t : Nat) : Nat :=
  if isFar t then
    (Config.baseDie0 + farStack t) * 4096 + ((coreOf t % 64) / 16) * 32 + coreOf t % 16
  else t
/-- The die where a thread runs. -/
def runDie (t : Nat) : Nat := physOf t / 4096
/-- The cluster key of a compute core: die * 32 + 8 * (y div 2) + (x div 2) (R14). -/
def clusterOf (c : Nat) : Nat := (c / 128) * 32 + 8 * ((c % 128) / 32) + (c % 16) / 2
/-- The core at position `p` of a cluster (R14). -/
def coreAt (k p : Nat) : Nat :=
  (k / 32) * 128 + 16 * (2 * ((k % 32) / 8) + p / 2) + (2 * (k % 8) + p % 2)

namespace State

/-- The slot of a thread. -/
def slot (s : State) (t : Nat) : Slot := s.slots.get Slot.dflt t
/-- A core. -/
def core (s : State) (c : Nat) : Core := s.cores.get Core.dflt c
/-- A cluster. -/
def cluster (s : State) (k : Nat) : Cluster := s.clusters.get Cluster.dflt k
/-- A die. -/
def die (s : State) (d : Nat) : Die := s.dies.get Die.dflt d
/-- A running job. -/
def job (s : State) (j : Nat) : Option Job := s.jobs.get none j
/-- Replaces a slot. -/
def setSlot (s : State) (t : Nat) (x : Slot) : State := { s with slots := s.slots.set Slot.dflt t x }
/-- Replaces a core. -/
def setCore (s : State) (c : Nat) (x : Core) : State := { s with cores := s.cores.set Core.dflt c x }
/-- Replaces a cluster. -/
def setCluster (s : State) (k : Nat) (x : Cluster) : State := { s with clusters := s.clusters.set Cluster.dflt k x }
/-- Replaces a die. -/
def setDie (s : State) (d : Nat) (x : Die) : State := { s with dies := s.dies.set Die.dflt d x }
/-- Replaces a job. -/
def setJob (s : State) (j : Nat) (x : Option Job) : State := { s with jobs := s.jobs.set none j x }
/-- Changes a slot. -/
def modSlot (s : State) (t : Nat) (f : Slot → Slot) : State := s.setSlot t (f (s.slot t))
/-- Changes a core. -/
def modCore (s : State) (c : Nat) (f : Core → Core) : State := s.setCore c (f (s.core c))
/-- Changes a cluster. -/
def modCluster (s : State) (k : Nat) (f : Cluster → Cluster) : State := s.setCluster k (f (s.cluster k))
/-- Changes a die. -/
def modDie (s : State) (d : Nat) (f : Die → Die) : State := s.setDie d (f (s.die d))
/-- Changes a job that runs. -/
def modJob (s : State) (j : Nat) (f : Job → Job) : State :=
  match s.job j with
  | none => s
  | some x => s.setJob j (some (f x))

/-- The slot of the thread that issues. -/
def me (s : State) : Slot := s.slot s.cur
/-- The job of the thread that issues; a slot of a cluster takes the cluster's (R49). 16 stands for none. -/
def jobOf (s : State) (t : Nat) : Nat :=
  match (s.slot t).job with
  | some j => j
  | none => if isLocal t then ((s.cluster (clusterOf (coreOf t))).job).getD 16 else 16

/-- The bank of shared state a thread uses: the core's own, or a job bank of a near core (R52). R52 gives a near core the 16 banks of the
jobs, and its starter runs for no job: it uses a bank of its own, number 16 (DESIGN CHOICE, unsafe; notes/assumptions/82.md). -/
def bankNo (s : State) (t : Nat) : Nat := if isNear (coreOf t) then s.jobOf t else 0
/-- A bank of a core. -/
def bank (s : State) (c b : Nat) : Bank := (s.core c).banks.get Bank.dflt b
/-- Changes a bank. -/
def modBank (s : State) (c b : Nat) (f : Bank → Bank) : State :=
  s.modCore c fun x => { x with banks := x.banks.set Bank.dflt b (f (x.banks.get Bank.dflt b)) }

end State

/-- Reads the state. -/
def getS : M State := fun s => .ok (s, s)
/-- Changes the state. -/
def modS (f : State → State) : M Unit := fun s => .ok ((), f s)
/-- The slot that issues. -/
def myself : M Slot := fun s => .ok (s.me, s)
/-- Changes the slot that issues. -/
def modMe (f : Slot → Slot) : M Unit := modS fun s => s.modSlot s.cur f
/-- Changes the special registers of the slot that issues. -/
def modSp (f : Special → Special) : M Unit := modMe fun x => { x with sp := f x.sp }
/-- Raises the PTS of the slot that issues (R116, R124). -/
def mergePts (n : Nat) : M Unit := modMe fun x => { x with pts := max x.pts n }
/-- The next free choice of a manager or controller; 0 when none is given. -/
def pick : M Nat := fun s => .ok (s.picks.headD 0, { s with picks := s.picks.tail })

/-- The slots of the infield die's service cores, which run the firmware of the representation manager: TINFO there is in service mode, and
SYSWR may write ACTLVL (R12, R53, R101, R347; notes/assumptions/63.md). -/
def isService (t : Nat) : Bool := decide (coreOf t / 128 = Config.infieldDie) && decide (coreOf t % 128 < 16)

/-! ## Waiting for another agent -/

/-- Waits for a reply: parks, unless replies come at once or the event that resumes the slot brings it. -/
def await (k : WaitKind) : M Unit := fun s =>
  if s.grant = some k then .ok ((), { s with grant := none })
  else if s.prompt then .ok ((), s)
  else .error (.park k s)

/-- What the parked instruction of the issuing slot has kept. -/
def myWait : M Wait := fun s =>
  .ok (s.me.wait.getD { kind := .ready, instr := .nop, stamps := [], data := [], n := 0 }, s)

/-- What a slot waits for. -/
def State.waitOf (s : State) (t : Nat) : Option WaitKind :=
  if (s.slot t).st = .parked then (s.slot t).wait.map (·.kind) else none

/-- The instruction of a parked slot. -/
def State.instrOf (s : State) (t : Nat) : Instr := ((s.slot t).wait.map (·.instr)).getD .nop

/-- Keeps data for the time the instruction is parked. -/
def keepWait (f : Wait → Wait) : M Unit := modMe fun x =>
  { x with wait := some (f (x.wait.getD { kind := .ready, instr := .nop, stamps := [], data := [], n := 0 })) }

/-! ## Full bits and ports: putting back what a trap undoes (R118) -/

/-- Changes a shared register of a bank. -/
def State.modReg (s : State) (c b r : Nat) (f : SyncReg → SyncReg) : State :=
  s.modBank c b fun x => { x with regs := x.regs.set SyncReg.dflt r (f (x.regs.get SyncReg.dflt r)) }

/-- The event of PARK.ev that a write of register `r` is: bit 9 for s, bit 10 for m (R256). -/
def regEvent (r : Nat) : Nat := if r < 64 then 0x200 else 0x400

/-- A port: q0 of a near core is not banked (R52); a far slot has no port that a message reaches. -/
def State.port (s : State) (c b p : Nat) : Port :=
  if p = 0 ∧ isNear c then (s.core c).port0 else (s.bank c b).ports.get Port.dflt p

/-- Changes a port. -/
def State.modPort (s : State) (c b p : Nat) (f : Port → Port) : State :=
  if p = 0 ∧ isNear c then s.modCore c fun x => { x with port0 := f x.port0 }
  else s.modBank c b fun x => { x with ports := x.ports.set Port.dflt p (f (x.ports.get Port.dflt p)) }

/-- The bank of the ports of a thread: a far slot has none that a message reaches. -/
def State.portBank (s : State) (t : Nat) : Nat := if isFar t then 17 else s.bankNo t

/-- Puts one taken operand of thread `t` back. -/
def State.putBack (s : State) (t : Nat) (l : Latch) : State :=
  match l.how with
  | .plain => s
  | .reg r st => s.modReg (coreOf t) (s.bankNo t) r fun x => { x with val := l.val, full := true, stamp := st }
  | .word p st =>
    s.modPort (coreOf t) (s.portBank t) p fun x => { x with words := (l.val, st) :: x.words }

/-- Takes a thread out of every list of its core's registers, ports and joins; a message that it waits to send is gone,
and so is the range an engine's instruction has entered in the scoreboard (ids from 2^40 up). -/
def State.unlist (s : State) (t : Nat) : State :=
  let c := coreOf t
  let b := s.bankNo t
  let s := s.modBank c b fun x =>
    { x with
      regs := x.regs.mapV SyncReg.dflt fun _ r => { r with readers := r.readers.filter (· ≠ t),
                                                           writers := r.writers.filter (· ≠ t) }
      ports := x.ports.mapV Port.dflt fun _ p => { p with readers := p.readers.filter (· ≠ t) } }
  let s := s.modCore c fun x => { x with port0 := { x.port0 with readers := x.port0.readers.filter (· ≠ t) },
                                         mail := x.mail.filter (· ≠ t),
                                         board := x.board.filter fun e => ¬ (e.tid = t ∧ 2 ^ 40 ≤ e.id),
                                         joins := x.joins.map fun j => { j with members := j.members.filter (· ≠ t) } }
  let s := { s with msgs := s.msgs.filter fun m => decide (m.src ≠ some t) }
  if isLocal t then
    s.modCluster (clusterOf (coreOf t)) fun k =>
      { k with acc := k.acc.mapV Acc.dflt fun _ a => { a with waiters := a.waiters.filter (· ≠ t) } }
  else s

/-- The key of a parked matrix instruction's data that holds the accumulator slot it has opened and not yet changed,
plus 1. -/
def openKey : Nat := 2 ^ 60

/-- Frees an accumulator slot (R320). -/
def freeAcc (a : Acc) : Acc := { Acc.dflt with waiters := a.waiters }

/-- A matrix instruction of thread `t` that has opened an accumulator slot and performs nothing leaves it FREE (R107). -/
def State.unopen (s : State) (t : Nat) : State :=
  match ((s.slot t).wait.map fun w => w.data.get 0 openKey).getD 0 with
  | 0 => s
  | l + 1 => s.modCluster (clusterOf (coreOf t)) fun k =>
      { k with acc := k.acc.set Acc.dflt l (freeAcc (k.acc.get Acc.dflt l)) }

/-- Undoes what the instruction of thread `t` has taken, and ends its wait: the words come back in the reverse order. -/
def State.undo (s : State) (t : Nat) : State :=
  let s := (s.slot t).latch.foldr (fun l s => s.putBack t l) s
  let s := (s.unopen t).unlist t
  s.modSlot t fun x => { x with latch := [], wait := none, mailOut := none, st := if x.st = .parked then .running else x.st }

/-! ## Events that wake a PARK.ev (R256) -/

/-- A slot sees the events of a bank of core `c`: on a near core it uses that bank, a starter number 16, or the event is one of q0, which
belongs to no bank (`any`); the events of ports (bits 7:0) are none of a far slot's (R52, R256). -/
def sees (c b mask : Nat) (any : Bool) (t : Nat) (x : Slot) : Bool :=
  decide (coreOf t = c) && (!isNear c || any || decide (x.job.getD 16 = b)) && (!isFar t || decide (256 ≤ mask))

/-- Tells the slots of a bank that an event of `mask` has occurred. -/
def State.signal (s : State) (c b mask : Nat) (any : Bool := false) : State :=
  { s with slots := s.slots.map fun e =>
      (e.1, if sees c b mask any e.1 e.2 then
              match e.2.wait with
              | some w =>
                match w.kind with
                | .event m false => { e.2 with wait := some { w with kind := .event m (decide (m &&& mask ≠ 0)) } }
                | _ => e.2
              | none => e.2
            else e.2) }

/-- The effect of a write of a shared register: value, F = 1, the writer's PTS as the stamp (R116). -/
def State.fillReg (s : State) (c b r : Nat) (v : Word) (stamp : Nat) : State :=
  (s.modReg c b r fun x => { x with val := v, full := true, stamp := stamp }).signal c b (regEvent r)

/-! ## Mailbox requests of far slots (R120) -/

/-- A far slot's request joins those that its core performs at the next lap start. -/
def State.askMail (s : State) (t : Nat) : State :=
  s.modCore (coreOf t) fun x => { x with mail := if x.mail.contains t then x.mail else x.mail ++ [t] }

/-- The request is performed. -/
def State.doneMail (s : State) (t : Nat) : State :=
  s.modCore (coreOf t) fun x => { x with mail := x.mail.filter (· ≠ t) }

/-! ## Accumulator slots of a unit -/

/-- The thread's unit holds the accumulator slot. -/
def holds (x : Slot) (j : Nat) (a : Acc) : Bool :=
  decide (a.st ≠ .free) && decide (a.unitid = x.sp.unitid) && decide (a.launchid = x.sp.launchid) && decide (a.job = j)

/-- Frees every accumulator slot a unit holds, in every cluster (R257, R320, R387). -/
def State.freeHeld (s : State) (x : Slot) (j : Nat) : State :=
  { s with clusters := s.clusters.map fun e =>
      (e.1, { e.2 with acc := e.2.acc.mapV Acc.dflt fun _ a => if holds x j a then freeAcc a else a }) }

/-- The unit holds some accumulator slot. -/
def State.holdsAcc (s : State) (x : Slot) (j : Nat) : Bool :=
  s.clusters.any fun e => e.2.acc.any fun a => holds x j a.2

/-! ## The black box (R409) -/

/-- Writes the next entry of a die's ring. -/
def State.log (s : State) (d kind who data : Nat) : State :=
  let s := s.modDie d fun x =>
    { x with box := x.box.set BoxEnt.dflt (x.boxSeq % 128)
               { time := x.time, terr := x.timeErr, seq := x.boxSeq, kind := kind, who := who, data := data }
             boxSeq := x.boxSeq + 1 }
  if 5 ≤ kind ∧ kind ≤ 7 then { s with pkg := { s.pkg with msix := s.pkg.msix ++ [2] } } else s

/-! ## Operations of a thread on handles: what a trap discards -/

/-- The log is kept only for operations that may still read it, and the frames of an old representation for the readers that used it
(R67, R143). -/
def Tensor.prune (t : Tensor) : Tensor :=
  { t with log := t.log.filter fun e => t.ops.any fun o => decide (o.stamp < e.1)
           olds := (t.olds.map fun r => { r with users := r.users.filter fun T => t.ops.any fun o => decide (o.stamp = T) }).filter
             fun r => !r.users.isEmpty }

/-- Removes the queued readers and writers of a thread from every tensor: an unpublished shadow is discarded (R107, R158).
A widening that adds bits, or a TFREE, that has its stamp completes; one that adds none has nothing to do (R62, R70). -/
def State.dropOps (s : State) (t : Nat) : State :=
  { s with jobs := s.jobs.map fun e =>
      (e.1, e.2.map fun j =>
        { j with tensors := j.tensors.map fun x =>
            if x.2.ops.any (fun o => decide (o.tid = t)) then
              (x.1, ({ x.2 with ops := x.2.ops.filter (fun o =>
                        decide (o.tid ≠ t) || (decide (o.kind = .widen) && decide (o.caps ≠ 0)) || decide (o.kind = .free)) } :
                      Tensor).prune)
            else x }) }

/-! ## Ending a unit -/

/-- Words a port holds (R119). -/
def portRoom : Nat := 64

/-- The words of a message enter a port whole, which is an event for the slots that wait for one (R119, R256). -/
def State.deliver (s : State) (m : Msg) : State :=
  (s.modPort m.core m.bank m.port fun x => { x with words := x.words ++ m.words.map fun w => (w, m.stamp) }).signal m.core m.bank
    (2 ^ m.port) (decide (m.port = 0))

/-- The port has room for the whole message. -/
def State.hasRoom (s : State) (m : Msg) : Bool :=
  decide ((s.port m.core m.bank m.port).words.length + m.words.length ≤ portRoom)

/-- The ENDED message of a slot, to q0 of its core (R382). -/
def State.endedMsg (s : State) (t : Nat) : Msg :=
  { src := none, core := coreOf t, bank := 0, port := 0, words := [BitVec.ofNat 64 (1 + slotNo t * 65536)],
    stamp := (s.slot t).pts }

/-- The core tells its starter that a slot has ended (R382). A far slot has no starter (R165). -/
def State.tellStarter (s : State) (t : Nat) : State :=
  if isFar t then s
  else
    let m := s.endedMsg t
    if s.prompt ∧ s.hasRoom m then s.deliver m else { s with msgs := s.msgs ++ [m] }

/-- The slot of a unit becomes ENDED (R166, R172, R387); its accumulator slots become FREE. -/
def State.endUnit (s : State) (t : Nat) (e : EndRec) : State :=
  let x := s.slot t
  let j := s.jobOf t
  let s := (s.undo t).dropOps t
  let s := s.freeHeld x j
  let s := s.modSlot t fun x => { x with st := .ended, wait := none, latch := [], mailOut := none, fin := some e, cancel := none }
  s.tellStarter t

/-! ## Taking a trap (R385, R387) -/

/-- The level that a cancel stops, in XVALUE of trap 0x13. -/
def cancelValue (n : Nat) : Word := BitVec.ofNat 64 n

/-- A trap that its unit does not absorb: the unit fails and keeps its cause and XPC (R387); a cancel ends it as
CANCELLED (R172). -/
def State.failUnit (s : State) (t cause : Nat) : State :=
  let x := s.slot t
  let xpc := x.pc.setWidth 64
  if cause = 0x13 then s.endUnit t { code := 2, cause := 0, xpc := 0, tid := t }
  else
    let s := s.log (runDie t) 1 t (cause + xpc.toNat * 256)
    s.endUnit t { code := 1, cause := cause, xpc := xpc, tid := t }

/-- Trap entry: XCAUSE, XVALUE, XPC, HND, the return mark and the PC, in that order (R385). -/
def State.enter (s : State) (t cause : Nat) (xvalue : Word) : State :=
  s.modSlot t fun x =>
    { x with
      sp := { x.sp with xcause := BitVec.ofNat 64 cause, xvalue := xvalue, xpc := x.pc.setWidth 64,
                        xstat := x.sp.xstat ||| 1, rmark := true }
      pc := x.sp.xhandler.setWidth 56
      span := .entry
      handTurns := 0
      st := .running }

/-- Taking a trap: absorbed where there is a handler that is not running, else the unit fails (R387). `ok` says that
the handler's address passes the check of a transfer (R212); where it does not, the unit fails with the original cause. -/
def State.takeTrap (s : State) (t cause : Nat) (xvalue : Word) (ok : Bool) : State :=
  let x := s.slot t
  let s := s.undo t
  if x.sp.xhandler ≠ 0 ∧ x.sp.xstat.getLsbD 0 = false ∧ ok then s.enter t cause xvalue
  else s.failUnit t cause

/-- The return from a handler: XSTAT with HND = 0, the PC from XPC; the written mask is all ones where the return mark
is set, and the thread then runs in an open span (R372, R424). `x` is the new XSTAT before HND is cleared. -/
def State.trapReturn (s : State) (t : Nat) (x : Word) : State :=
  s.modSlot t fun k =>
    { k with
      pc := k.sp.xpc.setWidth 56
      wmask := if k.sp.rmark then BitVec.allOnes 33 else k.wmask
      span := if k.sp.rmark then .open_ else .entry
      sp := { k.sp with xstat := x &&& ~~~(1 : Word) } }

/-! ## Completing, parking, running -/

/-- The words an instruction takes: two for MOVX (R219). -/
def wordsOf : Instr → Nat
  | .movx _ _ => 2
  | _ => 1

/-- The span after `n` of its words. -/
def Span.after (n : Nat) : Span → Span
  | .entry => .entry
  | .block left lg lv lk => .block (left - n) lg lv lk
  | .open_ => .open_

/-- The instruction is done: the PC passes its words, nothing taken is kept. -/
def State.advance (s : State) (i : Instr) : State :=
  s.modSlot s.cur fun x =>
    { x with
      pc := x.pc + BitVec.ofNat 56 (8 * wordsOf i)
      span := x.span.after (wordsOf i)
      latch := []
      wait := none
      mailOut := none
      st := .running }

/-- The slot parks with its instruction. -/
def State.parkOn (s : State) (i : Instr) (k : WaitKind) : State :=
  s.modSlot s.cur fun x =>
    { x with
      st := .parked
      wait := some (match x.wait with
                    | some w => { w with kind := k, instr := i }
                    | none => { kind := k, instr := i, stamps := [], data := [], n := 0 }) }

end Sys2Proof.Machine
end

