-- ==== Sys2Proof/Machine/Mem.lean ====
section
/-! DEFINITION. Memory: bytes, address spaces, page tables and translation (R20-R43), the scratchpad with its views and
scoreboard (R74-R83), and the coherent accesses with their timestamps (R122-R140). -/
namespace Sys2Proof.Machine

/-! ## Bytes -/

/-- `n` bytes of a byte map from `a` up, little-endian (R3). -/
def readN (m : SMap Byte) (a : Nat) : Nat → Nat
  | 0 => 0
  | n + 1 => (m.get 0 a).toNat + 256 * readN m (a + 1) n

/-- Stores the low `n` bytes of `x` from `a` up, little-endian (R3). -/
def writeN (m : SMap Byte) (a : Nat) : Nat → Nat → SMap Byte
  | 0, _ => m
  | n + 1, x => writeN (m.set 0 a (BitVec.ofNat 8 x)) (a + 1) n (x / 256)

/-- The field of `n` bits from bit `lo` of a number. -/
def fieldN (x lo n : Nat) : Nat := (x >>> lo) % 2 ^ n

/-! ## Physical addresses (R32, R33) -/

/-- The end of HBM. -/
def hbmEnd : Nat := 0x014000000000
/-- Bytes of one stack. -/
def stackBytes : Nat := 0x1400000000
/-- The first byte of directly addressed infield storage. -/
def infieldBase : Nat := 0x800000000000
/-- The first byte of the host window. -/
def hostBase : Nat := 0xC00000000000
/-- The address lies in HBM. -/
def inHbm (pa : Nat) : Bool := decide (pa < hbmEnd)
/-- The address lies in infield storage. -/
def inInfield (pa : Nat) : Bool := decide (infieldBase ≤ pa) && decide (pa < infieldBase + 0x30000000)
/-- The address lies in the host window. -/
def inHost (pa : Nat) : Bool := decide (hostBase ≤ pa) && decide (pa < 2 ^ 48)

/-! ## Page tables (R34-R38) -/

/-- Why a walk stops: NOTPRESENT or MALFORMED (R36), with the level. -/
structure WalkStop where
  reason : Nat
  level  : Nat

/-- The size of a leaf at a level (R34). -/
def leafSize (lvl : Nat) (s64 : Bool) : Nat :=
  if lvl = 1 then 0x40000000 else if lvl = 2 then 0x200000 else if s64 then 0x10000 else 0x1000

/-- The leaf that an entry maps, checked as R36 states; `lo` is the job's lower carve-out limit in bytes (R33). -/
def leafOf (job va lvl lo e : Nat) : Except WalkStop Leaf :=
  let bad : Except WalkStop Leaf := .error { reason := 1, level := lvl }
  let s64 := e.testBit 8
  let cls := fieldN e 5 2
  let pa := fieldN e 12 36 * 4096
  let size := leafSize lvl s64
  let home := fieldN e 48 2
  if fieldN e 50 14 ≠ 0 ∨ fieldN e 9 3 ≠ 0 ∨ fieldN e 1 2 ≠ 0 then bad
  else if lvl ≠ 3 ∧ s64 then bad
  else if home ≠ 0 ∧ cls ≠ 1 then bad
  else if pa % size ≠ 0 then bad
  else if ¬ (inHbm pa ∨ inInfield pa ∨ inHost pa) then bad
  else if inInfield pa ∧ infieldBase + lo < pa + size then bad
  else if (cls = 3) ≠ (inHost pa = true) then bad
  else if cls = 1 ∧ ¬ inHbm pa then bad
  else .ok { job := job, va := va - va % size, size := size, pa := pa, cls := cls, x := e.testBit 4, w := e.testBit 3,
             home := home }

/-- The next table that a pointer entry names (R36). -/
def pointerOf (lvl lo e : Nat) : Except WalkStop Nat :=
  let pa := fieldN e 12 36 * 4096
  if e % 4096 ≠ 1 ∨ fieldN e 48 16 ≠ 0 then .error { reason := 1, level := lvl }
  else if inHbm pa then .ok pa
  else if inInfield pa ∧ pa + 4096 ≤ infieldBase + lo then .ok pa
  else .error { reason := 1, level := lvl }

/-- The walk from level 1, 2 or 3 down (R34-R37). An indexed level 3 entry with P = 0 stops the walk before S64 is looked at, whatever
its group's first entry holds (DESIGN CHOICE between R36 and R37, unsafe; notes/assumptions/88.md). -/
def walkFrom (m : SMap Byte) (job lo va : Nat) : Nat → Nat → Nat → Except WalkStop Leaf
  | 0, _, _ => .error { reason := 1, level := 3 }
  | fuel + 1, lvl, tab =>
    let idx := fieldN va (12 + 9 * (3 - lvl)) 9
    let e := readN m (tab + 8 * idx) 8
    if e % 2 = 0 then .error { reason := 0, level := lvl }
    else if lvl = 3 then
      if e.testBit 8 then
        let g := readN m (tab + 8 * (idx - idx % 16)) 8
        if g.testBit 8 = false then .error { reason := 1, level := 3 }
        else if g % 2 = 0 then .error { reason := 0, level := 3 }
        else leafOf job va 3 lo g
      else leafOf job va 3 lo e
    else if e.testBit 7 then leafOf job va lvl lo e
    else match pointerOf lvl lo e with
      | .error x => .error x
      | .ok t => walkFrom m job lo va fuel (lvl + 1) t

/-- The walk of a paged address through a job's table (R34). -/
def walk (m : SMap Byte) (job root lo va : Nat) : Except WalkStop Leaf :=
  let e := readN m (root + 8 * fieldN va 39 16) 8
  if e % 2 = 0 then .error { reason := 0, level := 0 }
  else match pointerOf 0 lo e with
    | .error x => .error x
    | .ok t => walkFrom m job lo va 4 1 t

/-- The tables that a walk reads below level `lvl`. -/
def tablesFrom (m : SMap Byte) (lo va : Nat) : Nat → Nat → Nat → List Nat
  | 0, _, _ => []
  | fuel + 1, lvl, tab =>
    let e := readN m (tab + 8 * fieldN va (12 + 9 * (3 - lvl)) 9) 8
    tab :: (if lvl = 3 ∨ e % 2 = 0 ∨ e.testBit 7 then []
      else match pointerOf lvl lo e with
        | .error _ => []
        | .ok t => tablesFrom m lo va fuel (lvl + 1) t)

/-- The tables that the walk of an address reads, the root first (R34). -/
def tablesOf (m : SMap Byte) (root lo va : Nat) : List Nat :=
  root :: (let e := readN m (root + 8 * fieldN va 39 16) 8
    if e % 2 = 0 then []
    else match pointerOf 0 lo e with
      | .error _ => []
      | .ok t => tablesFrom m lo va 4 1 t)

/-- The walk of an address of job `j` in a state; a job that does not run has no table. -/
def State.walkOf (s : State) (j va : Nat) : Except WalkStop Leaf :=
  match s.job j with
  | none => .error { reason := 0, level := 0 }
  | some x => walk s.mem j x.root (x.carveLo * 0x100000) va

/-- The physical address of a byte under a leaf (R38). -/
def Leaf.phys (l : Leaf) (va : Nat) : Nat := l.pa + va % l.size

/-- A cached translation serves an address of its job. -/
def Leaf.covers (l : Leaf) (j va : Nat) : Bool :=
  decide (l.job = j) && decide (l.va ≤ va) && decide (va < l.va + l.size)

/-! ## Address faults (R48) -/

/-- XVALUE of traps 0x05 and 0x06. -/
def faultValue (reason level : Nat) (fetch wr : Bool) (a : Int) : Word :=
  BitVec.ofNat 64 ((a % 2 ^ 56).toNat + (if wr then 2 ^ 56 else 0) + (if fetch then 2 ^ 57 else 0) + level * 2 ^ 58 +
    reason * 2 ^ 60)

/-- The lowest byte of [a, a+n) that lies outside [0, lim). -/
def firstOutside (a : Int) (n lim : Nat) : Option Int :=
  if n = 0 then none
  else if a < 0 then some a
  else if a + n ≤ lim then none
  else some (max a lim)

/-- The end of local space of a thread (R20). -/
def localEnd (t : Nat) : Nat := if isCompute (coreOf t) then 0x400000 else 0x10000

/-- The limits of local space (R20, R21). -/
def checkLocal (a : Int) (n : Nat) (wr : Bool) : M Unit := do
  let s ← getS
  if isFar s.cur then trap 6 (faultValue 3 0 false wr a)
  else match firstOutside a n (localEnd s.cur) with
    | none => pure ()
    | some b => trap 5 (faultValue 2 0 false wr b)

/-- The first window address, and the first invalid one (R24). -/
def windowBase : Nat := 0x80000000000000

/-- A global address outside paged memory and the windows, or in an unpopulated part of the windows (R24, R25). -/
def outsideGlobal (a : Int) : Bool :=
  if a < 0 then true
  else
    let x := a.toNat
    if x < windowBase then false
    else decide (windowBase + 0x20000000000 ≤ x) || x.testBit 35 || decide (8 ≤ fieldN x 36 5) ||
         decide (0x400000 ≤ fieldN x 0 28)

/-- The core a window address names. -/
def windowCore (x : Nat) : Nat := fieldN x 36 5 * 128 + fieldN x 28 7

/-- A core that is out of service, or that another job holds (R15, R25). -/
def State.notOwned (s : State) (c j : Nat) : Bool :=
  let k := s.cluster (clusterOf c)
  k.harvested || decide (k.job ≠ some j)

/-- Where an access goes. -/
inductive Place where
  | loc (off : Nat)              -- local space of the core where the thread runs
  | win (core off : Nat)         -- the scratchpad of another core
  | page (pa : Nat) (l : Leaf)

/-- Installs a translation in the TLB of a core. -/
def State.installTlb (s : State) (c : Nat) (l : Leaf) : State := s.modCore c fun x => { x with tlb := l :: x.tlb }

/-! ## Routes over the links of the package (R17, R400, R402, R419, R423) -/

/-- The links from die `a` to die `b`, each in the layout of LNKSEL (R402): the first, and how many. -/
def linksTo (a b : Nat) : Nat × Nat :=
  if a = Config.infieldDie ∧ b < 8 then (b * 2048, 128)
  else if a < 8 ∧ b = Config.infieldDie then (b * 2048 + 128 * a, 128)
  else if a < 8 ∧ b < 8 ∧ a = (b + 1) % 8 then (b * 2048 + 128, 32)
  else if a < 8 ∧ b < 8 ∧ a = (b + 7) % 8 then (b * 2048 + 160, 32)
  else if a = Config.infieldDie ∧ Config.opticalDie0 ≤ b ∧ b < Config.dieCount then (b * 2048, 64)
  else if b = Config.infieldDie ∧ Config.opticalDie0 ≤ a ∧ a < Config.dieCount then (b * 2048 + 1024 + 64 * (a - Config.opticalDie0), 64)
  else (0, 0)

/-- Link `k` between two dies is up both ways: a reply returns over the link of its request (R419). -/
def State.pairUp (s : State) (a b k : Nat) : Bool :=
  !(s.links.get Link.dflt ((linksTo a b).1 + k)).down && !(s.links.get Link.dflt ((linksTo b a).1 + k)).down

/-- Some link is up both ways between two dies. -/
def State.joined (s : State) (a b : Nat) : Bool := (List.range (linksTo a b).2).any fun k => s.pairUp a b k

/-- A route of up links between a compute die and the infield die: direct, or through a neighbour of the track (R423). -/
def State.toInfield (s : State) (d : Nat) : Bool :=
  let via (n : Nat) : Bool := s.joined d n && s.joined n Config.infieldDie
  s.joined d Config.infieldDie || via ((d + 1) % 8) || via ((d + 7) % 8)

/-- The track from compute die `d` for `k` steps, each to the next die, or to the last. -/
def State.track (s : State) (d k step : Nat) : Bool := (List.range k).all fun i => s.joined ((d + i * step) % 8) ((d + (i + 1) * step) % 8)

/-- A route of up links between two compute dies (R419, R423). -/
def State.between (s : State) (d e : Nat) : Bool :=
  decide (d = e) || (s.toInfield d && s.toInfield e) || s.track d ((e + 8 - d) % 8) 1 || s.track d ((d + 8 - e) % 8) 7

/-- The compute die over whose attachment a core is reached: its own, or that of the base die it lies on (R17, R419). -/
def attached (c : Nat) : Nat := if isCompute c then c / 128 else (c / 128 - Config.baseDie0) / 2

/-- Link `v` carries the requests of core `c` between dies `a` and `b`, in one of the two directions: the pair of links taken is the first,
from number c mod 128 on, that is up both ways, and a reply returns over the link of its request (R419). -/
def State.carries (s : State) (v c a b : Nat) : Bool :=
  let n := (linksTo a b).2
  match ((List.range n).map fun i => (c % 128 + i) % n).find? (s.pairUp a b) with
  | none => false
  | some k => decide (v = (linksTo a b).1 + k) || decide (v = (linksTo b a).1 + k)

/-- The pairs of dies that the path from compute die `d` to the infield die crosses (R423). -/
def State.hopsIn (s : State) (d : Nat) : List (Nat × Nat) :=
  let i := Config.infieldDie
  if s.joined d i then [(d, i)]
  else if s.joined d ((d + 1) % 8) ∧ s.joined ((d + 1) % 8) i then [(d, (d + 1) % 8), ((d + 1) % 8, i)]
  else [(d, (d + 7) % 8), ((d + 7) % 8, i)]

/-- The pairs of dies that the path from compute die `d` to die `e` crosses: to the infield die and on, or along the track; the host lies
behind the first optical die (R419, R423). -/
def State.hops (s : State) (d e : Nat) : List (Nat × Nat) :=
  if d = e then []
  else if e = Config.infieldDie then s.hopsIn d
  else if Config.computeDies ≤ e then s.hopsIn d ++ [(Config.infieldDie, e)]
  else if s.toInfield d ∧ s.toInfield e then s.hopsIn d ++ s.hopsIn e
  else if s.track d ((e + 8 - d) % 8) 1 then (List.range ((e + 8 - d) % 8)).map fun i => ((d + i) % 8, (d + i + 1) % 8)
  else (List.range ((d + 8 - e) % 8)).map fun i => ((d + 7 * i) % 8, (d + 7 * (i + 1)) % 8)

/-- A request of core `c` to die `e`, and its reply, cross link `v` (R419, R423). -/
def State.crossesLink (s : State) (v c e : Nat) : Bool := (s.hops (attached c) e).any fun p => s.carries v c p.1 p.2

/-- No request of core `c` to die `e` is answered with an error now: none of its links is the one that is declared down (R393). -/
def State.unbroken (s : State) (c e : Nat) : Bool := s.broken.all fun v => !s.crossesLink v c e

/-- The die over which the home of a physical address is reached. -/
def homeDie (pa : Nat) : Nat :=
  if inHbm pa then pa / stackBytes / 2 else if inHost pa then Config.opticalDie0 else Config.infieldDie

/-- A route of up links from a core to the home of a physical address; with every link up there is one. -/
def State.routed (s : State) (c pa : Nat) : Bool :=
  s.unbroken c (homeDie pa) &&
  (s.links.all (fun e => !e.2.down) ||
   (if inHbm pa then s.between (attached c) (pa / stackBytes / 2)
    else if inHost pa then s.toInfield (attached c) && s.joined Config.infieldDie Config.opticalDie0
    else s.toInfield (attached c)))

/-- A route of up links between two cores. -/
def State.routedTo (s : State) (c q : Nat) : Bool :=
  s.unbroken c (attached q) && (s.links.all (fun e => !e.2.down) || s.between (attached c) (attached q))

/-- A route of up links from a core to the infield die. -/
def State.routedIn (s : State) (c : Nat) : Bool :=
  s.unbroken c Config.infieldDie && (s.links.all (fun e => !e.2.down) || s.toInfield (attached c))

/-- The slot's unit is cancelled, and its cancel handler does not run yet (R172). -/
def Slot.dying (x : Slot) : Bool := x.cancel.isSome && !(x.sp.xstat.getLsbD 0 && decide (x.sp.xcause = 0x13))

/-- A request of thread `t` that no route of up links reaches is an event of kind 7; the error reply of a link that is declared down, whose
own event says so, is delivered (R393, R423). -/
def State.noteRoute (s : State) (t : Nat) : State :=
  if s.broken.isSome then { s with broken := none }
  else s.log (runDie t) 7 (attached (physOf t / 32) * 2048 + coreOf t % 128) 0

/-- A request of the issuing slot for which no route of up links exists: an event of kind 7, and trap 0x0C (R423). To a cancelled unit
that waits for the reply it is the error reply, and the unit takes trap 0x13 (R393). -/
def noRoute {α : Type} (kind place : Nat) : M α := do
  let x ← myself
  let log (s : State) : State := s.noteRoute s.cur
  if x.dying then stop (.trapDo 0x13 (cancelValue (x.cancel.getD 0)) log)
  else stop (.trapDo 0x0C (BitVec.ofNat 64 (kind * 2 ^ 60 + place % 2 ^ 56)) log)

/-- The core where a thread runs. -/
def atCore (t : Nat) : Nat := physOf t / 32

/-- A direct access or a walk needs a route to the home of a physical address (R423). -/
def checkRoute (pa va : Nat) : M Unit := do
  let s ← getS
  if s.routed (atCore s.cur) pa then pure () else noRoute 0 va

/-- A reply of the infield die to a cancelled unit that no route of up links reaches is an error reply (R393). -/
def replyRoute : M Unit := do
  let s ← getS
  if s.me.dying ∧ s.routedIn (atCore s.cur) = false then noRoute 0 0 else pure ()

/-- Every table that the walk of an address of job `j` reads has a route from a core (R423). -/
def State.walkRouted (s : State) (c j va : Nat) : Bool :=
  match s.job j with
  | none => true
  | some x => (tablesOf s.mem x.root (x.carveLo * 0x100000) va).all fun t => s.routed c t

/-- Translates a paged address of the issuing thread: a TLB miss parks until the translation is there (R39-R41). The translations of a
far slot are kept in the TLB of its compute core, by its logical name (DESIGN CHOICE: R39 says 'per core',
notes/assumptions/70.md). -/
def translate (va : Nat) (wr fetch : Bool) : M Leaf := do
  let s ← getS
  let j := s.jobOf s.cur
  match (s.core (coreOf s.cur)).tlb.find? (fun l => l.covers j va) with
  | some l => pure l
  | none =>
    await (.translate (va / 4096))
    let s ← getS
    if s.walkRouted (atCore s.cur) j va then pure () else noRoute 0 va
    match s.walkOf j va with
    | .error x => trap 5 (faultValue x.reason x.level fetch wr va)
    | .ok l => do
      modS fun s => (s.installTlb (coreOf s.cur) l).modDie (runDie s.cur) fun d => { d with tcache := l :: d.tcache }
      pure l

/-- The lowest enabled residency register of a die whose owner is the job and whose range holds the address (R89-R91). -/
def Die.keepOf (x : Die) (j va : Nat) : Option (Nat × Keep) :=
  x.keep.find? fun e => decide (e.2.owner = some j) && decide (fieldN e.2.val.toNat 52 4 ≠ 0) &&
    decide (fieldN e.2.val.toNat 8 34 * 2 ^ 21 ≤ va) &&
    decide (va < fieldN e.2.val.toNat 8 34 * 2 ^ 21 + 2 ^ (21 + fieldN e.2.val.toNat 48 4))

/-- The access with count `c` is sampled: n of every 256, n = SAMP + 1, and every access with KEEPHINT (R91). -/
def Keep.samples (k : Keep) (hint : Bool) : Bool :=
  let n := fieldN k.val.toNat 56 8 + 1
  hint || decide ((k.count * n) % 256 < n)

/-- A residency register changes: the lines retained under its old value become ordinary ones (R91). -/
def Die.setKeep (x : Die) (n : Nat) (k : Keep) : Die :=
  { x with keep := x.keep.set Keep.dflt n k
           l2 := x.l2.map fun l => if l.kept = n + 1 then { l with kept := 0 } else l
           tens := x.tens.map fun l => if l.kept = n + 1 then { l with kept := 0 } else l }

/-- One performed access of a job to a paged address, at a die: it is counted by its residency register. Beside the state, the class
of a line that it fills: k + 1 where register k retains it, 0 for an ordinary one (R91). -/
def State.sample (s : State) (d j va : Nat) (hint : Bool) : State × Nat :=
  match (s.die d).keepOf j va with
  | none => (s, 0)
  | some e =>
    (s.modDie d fun x => { x with keep := x.keep.set Keep.dflt e.1 { e.2 with count := (e.2.count + 1) % 256 } },
     if e.2.samples hint then e.1 + 1 else 0)

/-- Counts an access of the issuing slot, and answers the class of a line that it fills (R91). -/
def sampled (va : Nat) (hint : Bool) : M Nat := fun s =>
  let r := s.sample (runDie s.cur) (s.jobOf s.cur) va hint
  .ok (r.2, r.1)

/-- The checks of R29 and R30 on one global access, whose bytes lie in one page or one window because it is naturally
aligned: limits and ownership, the walk, the rights and the class. -/
def resolve (a : Int) (wr amo : Bool) : M Place := do
  let s ← getS
  if outsideGlobal a then trap 5 (faultValue 2 0 false wr a)
  else
    let x := a.toNat
    if windowBase ≤ x then
      let c := windowCore x
      if s.notOwned c (s.jobOf s.cur) then trap 5 (faultValue 3 0 false wr a)
      else if c = coreOf s.cur ∧ isLocal s.cur then pure (.loc (fieldN x 0 28))
      else pure (.win c (fieldN x 0 28))
    else do
      let l ← translate x wr false
      if wr ∧ ¬ l.w then trap 6 (faultValue 0 0 false wr a)
      else if l.cls = 2 then trap 6 (faultValue 2 0 false wr a)
      else if amo ∧ l.cls = 3 then trap 6 (faultValue 4 0 false wr a)
      else pure (.page (l.phys x) l)

/-- The core that is the home of a MIGRATE page (R28). -/
def homeCore (pa home : Nat) : Nat := (Config.baseDie0 + pa / stackBytes) * 128 + 4 + home

/-! ## The scratchpad (R74-R80) -/

/-- A view covers a local address (R78). -/
def viewCovers (w : Word) (a : Nat) : Bool :=
  w.getLsbD 63 && decide (fieldN w.toNat 16 14 ≤ a / 256) && decide (a / 256 ≤ fieldN w.toNat 16 14 + fieldN w.toNat 0 14)

/-- The physical place, row * 256 + bank * 8 + byte, that a view gives an address (R78). -/
def viewPlace (w : Word) (a : Nat) : Nat :=
  let mode := fieldN w.toNat 61 2
  if mode = 1 then (a / 256) * 256 + (((a / 8) ^^^ (a / 256)) % 32) * 8 + a % 8
  else if mode = 2 then
    let z := 2 ^ fieldN w.toNat 59 2
    let brow := fieldN w.toNat 16 14
    let o := a - brow * 256
    let t := o / (1024 * z)
    let e := (o % (1024 * z)) / z
    let i := e / 32
    let j := e % 32
    (brow + 4 * z * t + (i * z) / 8) * 256 + ((i + j) % 32) * 8 + ((i * z) % 8 + o % z)
  else a

/-- The physical place of a local address of a core (R74). -/
def Core.place (x : Core) (a : Nat) : Nat :=
  match x.vw.find? (fun e => viewCovers e.2 a) with
  | none => a
  | some e => viewPlace e.2 a

/-- `n` bytes of a core's scratchpad through its views. -/
def Core.read (x : Core) (a : Nat) : Nat → Nat
  | 0 => 0
  | n + 1 => (x.spad.get 0 (x.place a)).toNat + 256 * x.read (a + 1) n

/-- The scratchpad after a write of `n` bytes through the core's views. -/
def Core.writeSpad (x : Core) (m : SMap Byte) (a : Nat) : Nat → Nat → SMap Byte
  | 0, _ => m
  | n + 1, v => x.writeSpad (m.set 0 (x.place a) (BitVec.ofNat 8 v)) (a + 1) n (v / 256)

/-- The bank words that the bytes of [a, a+n) lie in. -/
def Core.wordsAt (x : Core) (a n : Nat) : List Nat := ((List.range n).map fun i => x.place (a + i) / 8).eraseDups

/-- A write of `n` bytes to a core's scratchpad; a bank word written whole is no longer poisoned (R396). -/
def Core.write (x : Core) (a n v : Nat) : Core :=
  let whole := (x.wordsAt a n).filter fun w =>
    decide (8 ≤ ((List.range n).filter fun i => decide (x.place (a + i) / 8 = w)).length)
  { x with spad := x.writeSpad x.spad a n v,
           poison := if x.poison = [] then [] else whole.foldl (fun p w => p.erase w) x.poison }

/-- The lowest poisoned byte of [a, a+n) of a scratchpad. -/
def Core.poisoned (x : Core) (a n : Nat) : Option Nat :=
  if x.poison = [] then none
  else ((List.range n).map (a + ·)).find? fun b => x.poison.get false (x.place b / 8)

/-- Bank cycles of the word path (R76). -/
def wordCycles (ws : List Nat) : Nat :=
  let ws := ws.eraseDups
  ws.foldl (fun m w => max m (ws.filter fun v => decide (v % 32 = w % 32)).length) 1

/-- Bank cycles of the row path: the physical rows that the mapped bytes occupy (R76). -/
def Core.rowCycles (x : Core) (a n : Nat) : Nat := max 1 ((x.wordsAt a n).map (· / 32)).eraseDups.length

/-- Counts extra bank cycles in STALLS (R76, R80) and delays the turns of the core (R75). -/
def State.stall (s : State) (c k : Nat) : State :=
  if k = 0 then s
  else s.modCore c fun x => { x with stalls := (x.stalls + k) % 2 ^ 48, cycle := x.cycle + k }

/-- How many times the physical row changes along a list of places. -/
def rowChanges : List Nat → Nat
  | x :: y :: l => (if x / 256 = y / 256 then 0 else 1) + rowChanges (y :: l)
  | _ => 0

/-- Extra bank cycles of an engine-port transfer of a range: its pieces, split at physical row boundaries, less the least
(R76). -/
def Core.engineExtra (x : Core) (a n : Nat) : Nat :=
  if n = 0 then 0
  else
    let pieces := if x.vw = [] then (a + n - 1) / 256 - a / 256 + 1
      else rowChanges ((List.range n).map fun i => x.place (a + i)) + 1
    pieces - (n + 255) / 256

/-- Extra bank cycles of the engine port count in STALLS and delay no turn (R75, R76). -/
def State.stallEngine (s : State) (c a n : Nat) : State :=
  if isCompute c then
    s.modCore c fun x => { x with stalls := (x.stalls + x.engineExtra a n) % 2 ^ 48 }
  else s

/-! ## Watches (R265) and shared pairs -/

/-- Tells the LDS watches of a space (0: physical memory, 1 + core: a scratchpad, or 8192 + thread: a private region)
that a store has reached [a, a+n). -/
def State.notify (s : State) (space a n wts : Nat) : State :=
  if s.slots.all (fun e => match e.2.wait with | some w => decide (w.kind ≠ .watch none) | none => true) then s
  else { s with slots := s.slots.map fun e =>
      (e.1, match e.2.wait with
            | some w =>
              if w.kind = .watch none ∧ w.data.get 0 0 = space ∧ w.data.get 0 1 < a + n ∧ a < w.data.get 0 1 + w.n then
                { e.2 with wait := some { w with kind := .watch (some wts) } }
              else e.2
            | none => e.2) }

/-! ## Local accesses (R20-R22, R127) -/

/-- Some byte of [a, a+n) lies in an entry of the scoreboard (R82). -/
def Core.boardHit (x : Core) (a n : Nat) : Bool := x.board.any fun e => decide (e.lo < a + n) && decide (a < e.hi)

/-- The base of a thread's local space on its core's scoreboard: the private regions of a near core lie apart. -/
def boardBase (t : Nat) : Nat := if isCompute (coreOf t) then 0 else slotNo t * 0x10000

/-- Parks while the range scoreboard holds the bytes (R82). -/
def boardPark (a n : Nat) : M Unit := do
  let s ← getS
  if (s.core (coreOf s.cur)).boardHit (a + boardBase s.cur) n then park .board else pure ()

/-- The timestamp of a local load (R127). -/
def spwLoad : M Unit := modS fun s =>
  let c := coreOf s.cur
  let b := s.bankNo s.cur
  let p := max s.me.pts (s.bank c b).spw
  (s.modSlot s.cur fun x => { x with pts := p }).modBank c b fun x => { x with spw := p }

/-- The timestamp of a local store (R127). -/
def spwStore : M Unit := modS fun s =>
  let c := coreOf s.cur
  let b := s.bankNo s.cur
  let p := max s.me.pts ((s.bank c b).spw + 1)
  (s.modSlot s.cur fun x => { x with pts := p }).modBank c b fun x => { x with spw := p }

/-- Raises a core's SPW at the end of an engine's write (R127). -/
def State.raiseSpw (s : State) (c b n : Nat) : State := s.modBank c b fun x => { x with spw := max x.spw n }

/-- `n` bytes of the local space of thread `t`. -/
def State.readLocal (s : State) (t a n : Nat) : Nat :=
  if isCompute (coreOf t) then (s.core (coreOf t)).read a n else readN (s.slot t).priv a n

/-- Writes `n` bytes of the local space of thread `t`. -/
def State.writeLocal (s : State) (t a n v : Nat) : State :=
  if isCompute (coreOf t) then s.modCore (coreOf t) fun x => x.write a n v
  else s.modSlot t fun x => { x with priv := writeN x.priv a n v }

/-- The space of a local watch. -/
def localSpace (t : Nat) : Nat := if isCompute (coreOf t) then 1 + coreOf t else 8192 + t

/-- Trap 0x0C (R396). -/
def dataLost {α : Type} (kind place : Nat) : M α := trap 0x0C (BitVec.ofNat 64 (kind * 2 ^ 60 + place % 2 ^ 56))

/-- A poisoned scratchpad byte that is read traps (R104, R396). -/
def checkSpadPoison (a n : Nat) : M Unit := do
  let s ← getS
  if isCompute (coreOf s.cur) then
    match (s.core (coreOf s.cur)).poisoned a n with
    | some b => dataLost 2 b
    | none => pure ()
  else pure ()

/-- A local load of the issuing slot: scoreboard, timestamp, bank cycles, bytes. -/
def loadLocal (a n : Nat) : M Nat := do
  boardPark a n
  checkSpadPoison a n
  spwLoad
  let s ← getS
  if n = 256 ∧ isCompute (coreOf s.cur) then
    modS fun s => s.stall (coreOf s.cur) ((s.core (coreOf s.cur)).rowCycles a n - 1)
  pure (s.readLocal s.cur a n)

/-- A local store of the issuing slot. -/
def storeLocal (a n v : Nat) : M Unit := do
  boardPark a n
  spwStore
  modS fun s =>
    let s := if n = 256 ∧ isCompute (coreOf s.cur) then
        s.stall (coreOf s.cur) ((s.core (coreOf s.cur)).rowCycles a n - 1) else s
    (s.writeLocal s.cur a n v).notify (localSpace s.cur) a n s.me.pts

/-! ## Global accesses (R122-R134) -/

/-- The coherence unit of a physical address: a line, or the first line of an oriented square (R93, R123). -/
def State.unitOf (s : State) (pa : Nat) : Nat := if s.squares.contains (pa / 1024) then pa / 1024 * 4 else pa / 256
/-- The authoritative pair of an address. -/
def State.pairOf (s : State) (pa : Nat) : Pair := s.pairs.get Pair.dflt (s.unitOf pa)
/-- Replaces the authoritative pair of an address. -/
def State.setPair (s : State) (pa : Nat) (p : Pair) : State := { s with pairs := s.pairs.set Pair.dflt (s.unitOf pa) p }
/-- The lease length of a job (R129). -/
def State.lease (s : State) (j : Nat) : Nat := match s.job j with | none => 256 | some x => x.leaseLen

/-- Where a line that the issuing slot stores may rest under a scope: a near core and a far slot have no L1 and no die L2, so a line of
theirs rests in the LLC or at its home (R88, R134; notes/assumptions/56.md). -/
def State.restScope (s : State) (scope : Nat) : Nat := if isLocal s.cur ∨ scope ≤ 1 then scope else 0

/-- An agent lies inside the scope that a line's holder keeps (R134). -/
def insideScope (p : Pair) (t : Nat) : Bool :=
  match p.scope with
  | 0 => true
  | 1 => true
  | 2 => isLocal t && decide (dieOf t = p.who / 128)
  | _ => isLocal t && decide (coreOf t = p.who)

/-- The die L2 that a thread's accesses go through, plus 1; 0 for a slot that has none. -/
def l2Of (t : Nat) : Nat := if isLocal t then dieOf t + 1 else 0

/-- The entry after an access by thread `t`: an access from outside the scope makes the holder write the line back (R134), and a
request that does not come from its die ends an exclusive ownership (R87). -/
def Pair.published (p : Pair) (t : Nat) : Pair :=
  let p := if p.owner = l2Of t then p else { p with owner := 0 }
  if insideScope p t then p else { p with scope := 0, who := 0 }

/-- The bytes from `pa` of a line held as a row. -/
def rowBytes (d : Row) (pa n : Nat) : Nat := (d.toNat >>> (8 * (pa % 256))) % 2 ^ (8 * n)

/-- The 32-byte sectors of its line that [pa, pa+n) touches, one bit each (R84). -/
def sectorsOf (pa n : Nat) : BitVec 8 :=
  BitVec.ofNat 8 (((List.range 8).filter fun i =>
    decide (pa % 256 < 32 * i + 32) && decide (32 * i < pa % 256 + n)).foldl (fun m i => m + 2 ^ i) 0)

/-- A copy that can serve a load of [pa, pa+n) at a timestamp (R125): it holds the sectors, and its lease lasts. -/
def LineCopy.serves (k : LineCopy) (j pa n pts len : Nat) : Bool :=
  decide (k.job = j) && decide (k.line = pa / 256) && decide (sectorsOf pa n &&& ~~~k.valid = 0) && decide (pts ≤ k.rts) &&
  decide (k.rts - pts ≤ len)

/-- A copy of a line fills a cache. The dirty sectors of a copy that the cache holds stay dirty while the home notes it (`holder`):
the fill brings only the sectors that are missing (R84). -/
def refill (l : List LineCopy) (holder : Bool) (k : LineCopy) : LineCopy :=
  { k with dirty := if holder then ((l.find? fun x => decide (x.job = k.job) && decide (x.line = k.line)).map (·.dirty)).getD 0 else 0 }

/-- Core `c` is the scoped holder of a line in its L1, or die `d` in its L2 (R88). -/
def Pair.heldBy (p : Pair) (lvl c : Nat) : Bool :=
  if lvl = 1 then decide (p.scope = 3) && decide (p.who = c) else decide (p.scope = 2) && decide (p.who / 128 = c)

/-- Replaces the copy of a line in a cache. -/
def putCopy (l : List LineCopy) (k : LineCopy) : List LineCopy :=
  k :: l.filter fun x => ¬ (x.job = k.job ∧ x.line = k.line)

/-- The renewal at the home: the new home pair, the timestamp, and the copy (R125). -/
def State.renew (s : State) (j pa kept : Nat) : State × Nat × LineCopy :=
  let p := (s.pairOf pa).published s.cur
  let len := s.lease j
  let t := max s.me.pts p.wts
  let p' := { p with rts := max p.rts (t + len) }
  let k : LineCopy := { job := j, line := pa / 256, data := BitVec.ofNat 2048 (readN s.mem (pa - pa % 256) 256),
                        wts := p.wts, rts := min p'.rts (t + len), valid := BitVec.allOnes 8, dirty := 0, kept := kept }
  (s.setPair pa p', t, k)

/-! ### Lost data (R103, R104, R395, R396) -/

/-- The lowest byte of [pa, pa+n) in a poisoned word of infield storage or of a dirty cached sector (R104, R396). -/
def State.lostAt (s : State) (pa n : Nat) : Option Nat :=
  (s.badWords.filter fun w => decide (8 * w < pa + n) && decide (pa < 8 * w + 8)).foldl (fun b w =>
    match b with
    | none => some (max pa (8 * w))
    | some x => some (min x (max pa (8 * w)))) none

/-- [pa, pa+n) meets an uncorrectable sector; a write that covers a sector whole does not wait for it (R103). -/
def State.badAt (s : State) (pa n : Nat) (wr : Bool) : Bool :=
  s.badSect.any fun x => decide (pa / 32 ≤ x) && decide (x ≤ (pa + n - 1) / 32) &&
    !(wr && decide (pa ≤ 32 * x) && decide (32 * x + 32 ≤ pa + n))

/-- Bytes of a poisoned frame are lost, and poisoned words that are read; an uncorrectable sector parks the access until the
manager has handled the frame (R103, R104, R395, R396). `wr` says that the access only writes. -/
def checkPoison (pa : Nat) (va : Nat) (n : Nat) (wr : Bool) : M Unit := do
  let s ← getS
  if s.poison.contains (pa / 4096) then dataLost 0 va
  else if s.badAt pa n wr then park .error
  else if wr then pure ()
  else match s.lostAt pa n with
    | some b => dataLost 0 (va + (b - pa))
    | none => pure ()

/-! ### The LLC and the directory entry (R87, R92, R95, R96) -/

/-- The ways that the LLC keeps (R96). -/
def Package.llcWays (p : Package) : Nat := 64 - p.carve / 16

/-- Squares that the LLC has room for: 64 slices of 256 sets (R92). -/
def State.llcRoom (s : State) : Nat := 64 * 256 * s.pkg.llcWays

/-- The square of the LLC that holds an address; none while the controller of its stack is its home. -/
def State.llcOf (s : State) (pa : Nat) : Option LlcSq := s.llc.get none (pa / 1024)

/-- The directory entry of an address is in transfer: a request waits where it arrives (R87). -/
def State.moving (s : State) (pa : Nat) : Bool := (s.llcOf pa).any fun q => q.moving

/-- Waits while the directory entry is in transfer (R87). -/
def entryReady (k : WaitKind) (pa : Nat) : M Unit := do
  let s ← getS
  if s.moving pa then park k else pure ()

/-- A copy of a line reaches the L1 of a core and the L2 of its die (R84, R85). -/
def State.fillBoth (s : State) (c : Nat) (k : LineCopy) : State :=
  let p := s.pairOf (k.line * 256)
  let s := s.modCore c fun x => { x with l1 := putCopy x.l1 (refill x.l1 (p.heldBy 1 c) k) }
  s.modDie (c / 128) fun x => { x with l2 := putCopy x.l2 (refill x.l2 (p.heldBy 2 (c / 128)) k) }

/-- A read of a line homed in HBM fills its square of the LLC, in the orientation of the request that fills it (R92, R95, R96):
infield storage is never in the LLC. -/
def State.llcFill (s : State) (pa : Nat) (cols : Bool) : State :=
  match s.llcOf pa with
  | some _ => s
  | none =>
    if inHbm pa ∧ s.llc.length < s.llcRoom then
      { s with llc := s.llc.set none (pa / 1024) (some { cols := cols, dirty := 0, moving := false }) }
    else s

/-- The stored sectors that bytes [pa, pa+n) of a square change: rows, or, through the transpose network, byte columns (R95). -/
def LlcSq.touched (q : LlcSq) (pa n : Nat) : BitVec 32 :=
  let o := pa % 1024
  BitVec.ofNat 32 (((List.range 32).filter fun i =>
    if q.cols then (List.range n).any fun b => decide ((o + b) % 32 = i)
    else decide (o < 32 * i + 32) && decide (32 * i < o + n)).foldl (fun m i => m + 2 ^ i) 0)

/-- A write that rests in the LLC merges into the stored sectors (R88, R95). -/
def State.llcDirty (s : State) (pa n : Nat) : State :=
  let s := s.llcFill pa false
  match s.llcOf pa with
  | none => s
  | some q => { s with llc := s.llc.set none (pa / 1024) (some { q with dirty := q.dirty ||| q.touched pa n }) }

/-- The sectors of a stored square that a write-back brings to HBM, always as rows: a square stored by columns is turned back by
the transpose network, and any dirty column touches every row (R95). -/
def LlcSq.rowsBack (q : LlcSq) : BitVec 32 := if q.cols then (if q.dirty = 0 then 0 else BitVec.allOnes 32) else q.dirty

/-- The home sends an invalidation to every die that holds a line crossing a written line of an oriented square: a row line crosses
every column line of its square (R94). -/
def State.sendCrossing (s : State) (pa : Nat) : State :=
  if s.squares.contains (pa / 1024) then
    { s with invals := s.invals ++ ((s.dies.filter fun e =>
        e.2.tens.any fun k => decide (k.col ≠ 0) && decide (k.line / 4 = pa / 1024)).map fun e => (e.1, pa / 1024)) }
  else s

/-- The line that the issuing slot loads is dirty in its own core's L1 or its own die's L2, which then keeps the line's pair. -/
def State.ownLine (s : State) (pa : Nat) : Bool :=
  let p := s.pairOf pa
  isLocal s.cur && (decide (p.scope = 3 ∧ p.who = coreOf s.cur) || decide (p.scope = 2 ∧ p.who / 128 = dieOf s.cur))

/-- A load of a CACHED page through L1 and die L2 (R84-R87, R125, R134); near cores and far slots ask the home. A line that rests
dirty outside the slot's reach is published first, and then the home serves the access. -/
def loadCached (pa va n : Nat) (hint : Bool) : M Nat := do
  let s ← getS
  let j := s.jobOf s.cur
  let c := coreOf s.cur
  let len := s.lease j
  let pts := s.me.pts
  if isLocal s.cur then
    match (s.core c).l1.find? (fun k => k.serves j pa n pts len) with
    | some k => do
      let _ ← sampled va hint
      mergePts k.wts
      pure (rowBytes k.data pa n)
    | none => do
      entryReady .load pa
      await .load
      match (s.die (dieOf s.cur)).l2.find? (fun k => k.serves j pa n pts len && insideScope (s.pairOf pa) s.cur) with
      | some k => do
        let _ ← sampled va hint
        mergePts k.wts
        modS fun s => s.modCore c fun x => { x with l1 := putCopy x.l1 (refill x.l1 ((s.pairOf pa).heldBy 1 c) k) }
        pure (rowBytes k.data pa n)
      | none => do
        if s.ownLine pa then pure () else checkRoute pa va
        let kept ← sampled va hint
        modS fun s =>
          let (s', t, k) := s.renew j pa kept
          let s' := (s'.modSlot s.cur fun x => { x with pts := t }).fillBoth c k
          if s.ownLine pa then s' else s'.llcFill pa false
        pure (readN s.mem pa n)
  else do
    entryReady .load pa
    await .load
    checkRoute pa va
    let _ ← sampled va hint
    modS fun s =>
      let (s', t, _) := s.renew j pa 0
      (s'.modSlot s.cur fun x => { x with pts := t }).llcFill pa false
    pure (readN s.mem pa n)

/-- The number of a scope in a pair. -/
def scopeNo : Scope → Nat
  | .sys => 0
  | .pkg => 1
  | .die => 2
  | .core => 3

/-- A store of the bytes at the authoritative pair, by an agent whose PTS is `pts`: the state and its timestamp (R126). The die whose L2
takes the line exclusively for it, plus 1, is its owner (R87). -/
def State.storeAt (s : State) (pa n v pts scope who : Nat) (owner : Nat := 0) : State × Nat :=
  let p := s.pairOf pa
  let t := max pts (p.rts + 1)
  let s := s.setPair pa { wts := t, rts := t, scope := scope, who := who, owner := owner }
  let s := { s with mem := writeN s.mem pa n v,
                    badSect := s.badSect.filter fun x => ¬ (pa ≤ 32 * x ∧ 32 * x + 32 ≤ pa + n),
                    badWords := s.badWords.filter fun x => ¬ (pa ≤ 8 * x ∧ 8 * x + 8 ≤ pa + n),
                    dirty := if s.dirty.contains (pa / 4096) then s.dirty else pa / 4096 :: s.dirty }
  ((s.sendCrossing pa).notify 0 pa n t, t)

/-- Drops the column lines of a square from a die L2 (R94). -/
def State.dropColumns (s : State) (d sq : Nat) : State :=
  s.modDie d fun x => { x with tens := x.tens.filter fun k => !(decide (k.col ≠ 0) && decide (k.line / 4 = sq)) }

/-- The store of the issuing slot at a pair. The die L2 of a local slot takes the line exclusively, and holds no line that crosses
it (R94, R126). -/
def storePair (pa n v scope : Nat) : M Unit := modS fun s =>
  let scope := s.restScope scope
  let (s', t) := s.storeAt pa n v s.me.pts scope (if scope = 0 then 0 else coreOf s.cur) (l2Of s.cur)
  let s' := if isLocal s.cur ∧ s.squares.contains (pa / 1024) then s'.dropColumns (dieOf s.cur) (pa / 1024) else s'
  s'.modSlot s.cur fun x => { x with pts := t }

/-- The copy that a writer's cache holds after its store at timestamp `t` (R84, R126): the sectors of a current copy and the
sectors written, whole; those written are dirty, and so are those that were while it still holds the line. -/
def ownCopy (l : List LineCopy) (old : Pair) (holder : Bool) (m : Memory) (j pa n t kept : Nat) : LineCopy :=
  let k := l.find? fun k => decide (k.job = j) && decide (k.line = pa / 256) && decide (k.wts = old.wts)
  { job := j, line := pa / 256, data := BitVec.ofNat 2048 (readN m (pa - pa % 256) 256), wts := t, rts := t,
    valid := (k.map (·.valid)).getD 0 ||| sectorsOf pa n,
    dirty := (if holder then (k.map (·.dirty)).getD 0 else 0) ||| sectorsOf pa n,
    kept := max kept ((k.map (·.kept)).getD 0) }

/-- A store to a line of a CACHED page by a local slot leaves the line in its L1 and in its die's L2, with the new pair: its own core
never reads an older value. With scope pkg the line rests dirty in the LLC (R84, R85, R88, R126). -/
def State.keepOwn (s : State) (old : Pair) (j pa n t scope kept : Nat) : State :=
  let s' :=
    if isLocal s.cur then
      let c := coreOf s.cur
      let d := dieOf s.cur
      let k1 := ownCopy (s.core c).l1 old (decide (old.scope = 3 ∧ old.who = c)) s.mem j pa n t kept
      let k2 := ownCopy (s.die d).l2 old (decide (old.scope = 2 ∧ old.who / 128 = d)) s.mem j pa n t kept
      (s.modCore c fun x => { x with l1 := putCopy x.l1 k1 }).modDie d fun x =>
        { x with l2 := putCopy x.l2 { k2 with valid := k1.valid ||| k2.valid } }
    else s
  if scope = 1 then s'.llcDirty pa n else s'

/-- A store of the issuing slot to a line of a CACHED page. -/
def storeCached (pa va n v scope : Nat) (hint : Bool) : M Unit := do
  let kept ← sampled va hint
  let s ← getS
  storePair pa n v scope
  modS fun u => u.keepOwn (s.pairOf pa) (s.jobOf s.cur) pa n u.me.pts scope kept

/-- A load at the home of a MIGRATE page (R128). -/
def loadHome (pa n : Nat) : M Nat := do
  let s ← getS
  let p := s.pairOf pa
  let t := max s.me.pts p.wts
  modS fun s => (s.setPair pa { p with rts := max p.rts t }).modSlot s.cur fun x => { x with pts := t }
  pure (readN s.mem pa n)

/-- A queued shadowed writer of a PLAIN tensor changes a byte of [va, va+n) of its alias: a store there parks (R146). -/
def State.aliasBusy (s : State) (j va n : Nat) : Bool :=
  match s.job j with
  | none => false
  | some x => x.tensors.any fun e =>
      e.2.caps.testBit 17 && decide (e.2.st ≠ 0) && decide (e.2.aliasAt ≤ va + n - 1) && e.2.ops.any fun o =>
        decide (o.kind = .writer) && o.segs.any fun g => decide (e.2.aliasAt + g * 65536 < va + n) && decide (va < e.2.aliasAt + g * 65536 + 65536)

/-- Where the byte at a physical address of the host window lies in the host's own memory: at HWBASE and the offset in the window
(R397). -/
def State.hostAt (s : State) (pa : Nat) : Nat := (s.pkg.hwbase.toNat + (pa - hostBase)) % 2 ^ 64

/-- `n` bytes of host memory through the window. -/
def State.hostGet (s : State) (pa n : Nat) : Nat := readN s.hostMem (s.hostAt pa) n

/-- Stores `n` bytes into host memory through the window. -/
def State.hostPut (s : State) (pa n v : Nat) : State := { s with hostMem := writeN s.hostMem (s.hostAt pa) n v }

/-- Bytes of the host window are read and written over the host link, uncached, without a timestamp (R140). -/
def hostLoad (pa va n : Nat) : M Nat := do
  await .hostReply
  checkRoute pa va
  let _ ← sampled va false
  let s ← getS
  pure (s.hostGet pa n)

/-- A store over the host link (R140). -/
def hostStore (pa va n v : Nat) : M Unit := do
  await .hostReply
  checkRoute pa va
  let _ ← sampled va false
  modS fun s => s.hostPut pa n v

end Sys2Proof.Machine
end

