-- ==== Sys2Proof/Machine/Operands.lean ====
section
/-! DEFINITION. The operand forms: general, shared and mailbox registers, ports, vector and mask registers, lane
permutations (R115-R120, R221-R224, R289-R291). -/
namespace Sys2Proof.Machine

/-! ## g, v and k registers -/

/-- A general register; g0 reads as 0. -/
def Regs.readG (r : Regs) (n : Nat) : Word := if n = 0 then 0 else r.g.get 0 n
/-- Writes a general register; a write to g0 is discarded (R221). -/
def Regs.writeG (r : Regs) (n : Nat) (x : Word) : Regs := if n = 0 then r else { r with g := r.g.set 0 n x }
/-- A vector register. -/
def Regs.readV (r : Regs) (n : Nat) : Row := r.v.get 0 n
/-- Writes a vector register. -/
def Regs.writeV (r : Regs) (n : Nat) (x : Row) : Regs := { r with v := r.v.set 0 n x }
/-- A mask register; k0 reads all ones (R214). -/
def Regs.readK (r : Regs) (n : Nat) : Word := if n = 0 then BitVec.allOnes 64 else r.k.get 0 n
/-- Writes a mask register; a write to k0 is discarded (R221). -/
def Regs.writeK (r : Regs) (n : Nat) (x : Word) : Regs := if n = 0 then r else { r with k := r.k.set 0 n x }

/-- One bit of the written mask (R175). -/
def maskBit (i : Nat) : BitVec 33 := BitVec.ofNat 33 (2 ^ i)

/-- A slot after a write of a general register, with its written mask (R175). -/
def Slot.putG (x : Slot) (n : Nat) (v : Word) : Slot :=
  { x with regs := x.regs.writeG n v, wmask := x.wmask ||| maskBit (n / 2) }
/-- A slot after a write of a vector register. -/
def Slot.putV (x : Slot) (n : Nat) (v : Row) : Slot :=
  { x with regs := x.regs.writeV n v, wmask := x.wmask ||| maskBit (16 + n) }
/-- A slot after a write of a mask register. -/
def Slot.putK (x : Slot) (n : Nat) (v : Word) : Slot :=
  { x with regs := x.regs.writeK n v, wmask := x.wmask ||| maskBit 32 }

/-- Reads a general register. -/
def readG (n : BitVec 5) : M Word := fun s => .ok (s.me.regs.readG n.toNat, s)
/-- Writes a general register. -/
def writeG (n : BitVec 5) (v : Word) : M Unit := modMe fun x => x.putG n.toNat v
/-- Reads a vector register. -/
def readV (n : BitVec 4) : M Row := fun s => .ok (s.me.regs.readV n.toNat, s)
/-- Writes a vector register. -/
def writeV (n : BitVec 4) (v : Row) : M Unit := modMe fun x => x.putV n.toNat v
/-- Reads a mask register. -/
def readK (n : BitVec 3) : M Word := fun s => .ok (s.me.regs.readK n.toNat, s)
/-- Writes a mask register. -/
def writeK (n : BitVec 3) (v : Word) : M Unit := modMe fun x => x.putK n.toNat v

/-! ## Shared registers, mailboxes and ports -/

/-- A far slot reaches a mailbox by a request that its core performs at the start of a lap, and at no other time (R120). -/
def mailTrip : M Unit := do
  let s ← getS
  if isFar s.cur then
    if s.grant = some .lapStart then modS fun s => ({ s with grant := none } : State).doneMail s.cur
    else do
      modS fun s => s.askMail s.cur
      park .lapStart
  else pure ()

/-- A shared register of the issuing slot's bank: s0-s63 are 0-63, m0-m7 are 64-71. -/
def State.myReg (s : State) (r : Nat) : SyncReg := (s.bank (coreOf s.cur) (s.bankNo s.cur)).regs.get SyncReg.dflt r
/-- Changes a shared register of the issuing slot's bank. -/
def modMyReg (r : Nat) (f : SyncReg → SyncReg) : M Unit :=
  modS fun s => s.modReg (coreOf s.cur) (s.bankNo s.cur) r f

/-- The mailbox trip that register `r` needs. -/
def tripFor (r : Nat) : M Unit := if 64 ≤ r then mailTrip else pure ()

/-- The request of a far slot for a mailbox that is not as it must be stays with the core: it is looked at again at each lap start (R120). -/
def staysAsked (r : Nat) : M Unit := modS fun s => if isFar s.cur ∧ 64 ≤ r then s.askMail s.cur else s

/-- An ordinary read: the value, F unchanged, the stamp merged (R116). -/
def readShared (r : Nat) : M Word := do
  tripFor r
  let s ← getS
  let x := s.myReg r
  mergePts x.stamp
  pure x.val

/-- Joins the end of a list once. -/
def joinEnd (l : List Nat) (t : Nat) : List Nat := if l.contains t then l else l ++ [t]

/-- A synchronised read (R116, R117): the head of the readers takes the value when F = 1; anyone else joins the list. -/
def takeShared (r : Nat) : M (Word × Nat) := do
  tripFor r
  let s ← getS
  let x := s.myReg r
  if x.full && (decide (x.readers = []) || decide (x.readers.head? = some s.cur)) then do
    modMyReg r fun x => { x with full := false, readers := x.readers.filter (· ≠ s.cur) }
    mergePts x.stamp
    pure (x.val, x.stamp)
  else do
    modMyReg r fun x => { x with readers := joinEnd x.readers s.cur }
    staysAsked r
    park (.syncRead r)

/-- The effect of a write of either kind: value, F = 1, the writer's PTS as the stamp (R116). -/
def fillShared (r : Nat) (v : Word) : M Unit := modS fun s => s.fillReg (coreOf s.cur) (s.bankNo s.cur) r v s.me.pts

/-- An ordinary write (R116). It is the last effect of its instruction: a far slot's write of a mailbox is sent to the core with
every other effect done, and the slot parks until the core has performed it (R107, R120). -/
def writeShared (r : Nat) (v : Word) : M Unit := do
  let s ← getS
  if 64 ≤ r ∧ isFar s.cur then do
    modS fun s => (s.modSlot s.cur fun x => { x with mailOut := some (r, v) }).askMail s.cur
    park .lapStart
  else fillShared r v

/-- A synchronised write (R116, R117). -/
def sfillShared (r : Nat) (v : Word) : M Unit := do
  tripFor r
  let s ← getS
  let x := s.myReg r
  if !x.full && (decide (x.writers = []) || decide (x.writers.head? = some s.cur)) then do
    modMyReg r fun x => { x with writers := x.writers.filter (· ≠ s.cur) }
    fillShared r v
  else do
    modMyReg r fun x => { x with writers := joinEnd x.writers s.cur }
    staysAsked r
    park (.syncWrite r)

/-- Takes the head word of a port that must hold `n` words for this instruction; the slot keeps its place in the list of readers
until it has taken the last of them (R119, R239). DESIGN CHOICE, unsafe: R52 gives q0 of a near core to its starter and names no trap for
another slot that reads it, waits on it by BTAG or PARK.ev; it takes the starter's words (notes/assumptions/99.md). -/
def takePort (p n : Nat) : M (Word × Nat) := do
  let s ← getS
  let c := coreOf s.cur
  let b := s.portBank s.cur
  let x := s.port c b p
  if decide (n ≤ x.words.length) && (decide (x.readers = []) || decide (x.readers.head? = some s.cur)) then
    match x.words with
    | [] => park (.port p n)
    | w :: ws => do
      modS fun s => s.modPort c b p fun x =>
        { x with words := ws, readers := if 2 ≤ n then x.readers else x.readers.filter (· ≠ s.cur) }
      mergePts w.2
      pure w
  else do
    modS fun s => s.modPort c b p fun x => { x with readers := joinEnd x.readers s.cur }
    park (.port p n)

/-- Keeps an operand that the instruction has taken, for the time it is parked (R118). -/
def latchOp (f : Nat) (v : Word) (how : Taken) : M Unit :=
  modMe fun x => { x with latch := x.latch ++ [{ field := f, val := v, how := how }] }

/-- Reads a scalar source in field `f` (0 D or V, 1 A, 2 B, 3 third). An operand taken before the instruction parked is
not read again. `n` is how many words a port must hold for it. -/
def readSrcN (f : Nat) (a : Src) (n : Nat) : M Word := do
  match a with
  | .g r => readG r
  | _ =>
    let me ← myself
    match me.latch.find? (fun l => decide (l.field = f)) with
    | some l => pure l.val
    | none =>
      match a with
      | .g r => readG r
      | .s r false => do
        let v ← readShared r.toNat
        latchOp f v .plain
        pure v
      | .m r false => do
        let v ← readShared (64 + r.toNat)
        latchOp f v .plain
        pure v
      | .s r true => do
        let (v, st) ← takeShared r.toNat
        latchOp f v (.reg r.toNat st)
        pure v
      | .m r true => do
        let (v, st) ← takeShared (64 + r.toNat)
        latchOp f v (.reg (64 + r.toNat) st)
        pure v
      | .q p => do
        let (v, st) ← takePort p.toNat n
        latchOp f v (.word p.toNat st)
        pure v

/-- Reads a scalar source. -/
def readSrc (f : Nat) (a : Src) : M Word := readSrcN f a 1

/-- The words A needs in its port: two where B names the same port (R239). -/
def needA : Src → Src → Nat
  | .q p, .q r => if p = r then 2 else 1
  | _, _ => 1

/-- Reads A, then B (R239). -/
def readAB (a b : Src) : M (Word × Word) := do
  let x ← readSrcN 1 a (needA a b)
  let y ← readSrc 2 b
  pure (x, y)

/-- Reads a register named without a W bit, in field `f`. -/
def readSR (f : Nat) : SReg → M Word
  | .g n => readG n
  | .s n => readSrc f (.s n false)
  | .m n => readSrc f (.m n false)

/-- Writes a destination (R239): an s or m register by an ordinary write. -/
def writeSR : SReg → Word → M Unit
  | .g n, v => writeG n v
  | .s n, v => writeShared n.toNat v
  | .m n, v => writeShared (64 + n.toNat) v

/-- The instruction has taken a synchronised read or a word of a port (R174, reason CONSUMED). -/
def Slot.consumed (x : Slot) : Bool := x.latch.any fun l => decide (l.how ≠ .plain)

/-! ## Lanes and elements (R223, R224, R289) -/

/-- Lane `l` of a row, or byte, or element: `w` bits at place `i`. -/
def elemAt (x : Row) (w i : Nat) : Nat := (x.toNat >>> (w * i)) % 2 ^ w

/-- The elements of a row. -/
def elems (w : Nat) (x : Row) : List Nat := (List.range (2048 / w)).map (elemAt x w)

/-- The number whose `w`-bit digits are given, the lowest first. -/
def packNat (w : Nat) : List Nat → Nat
  | [] => 0
  | x :: xs => x % 2 ^ w + 2 ^ w * packNat w xs

/-- A row from its elements. -/
def ofElems (w : Nat) (xs : List Nat) : Row := BitVec.ofNat 2048 (packNat w xs)

/-- The lane that lane `l` of the permuted B takes (R223). -/
def permLane (p : Perm) (l : Nat) : Nat :=
  let size (seg : BitVec 3) : Nat := if seg = 0 then 64 else 2 ^ seg.toNat
  match p with
  | .none => l
  | .rot seg d => (l - l % size seg) + (l % size seg + d.toNat) % size seg
  | .bfly _ d => l ^^^ 2 ^ d.toNat
  | .bcast seg d => (l - l % size seg) + d.toNat

/-- B after PERM (R223). -/
def permRow (p : Perm) (x : Row) : Row :=
  match p with
  | .none => x
  | _ => ofElems 32 ((List.range 64).map fun l => elemAt x 32 (permLane p l))

/-- The width of an element (R289). -/
def tyWidth : Ty → Nat
  | .i32 | .n32 | .f32 => 32
  | .bf16 | .i16 => 16
  | .i8 | .e4m3 | .e5m2 => 8

/-- Reads the B operand of a vector instruction for elements of `w` bits (R290). -/
def readVSrc (w : Nat) : VSrc → M Row
  | .v n p => do
    let x ← readV n
    pure (permRow p x)
  | .sc a => do
    let x ← readSrc 2 a
    pure (ofElems w (List.replicate (2048 / w) (x.toNat % 2 ^ w)))

/-- A result merged under a lane mask: a lane whose bit is 0 keeps its old value (R291). -/
def mergeLanes (k : Word) (new old : Row) : Row :=
  if k = BitVec.allOnes 64 then new
  else ofElems 32 ((List.range 64).map fun l => if k.getLsbD l then elemAt new 32 l else elemAt old 32 l)

/-- Writes D under mask register `k` (R291). -/
def writeMasked (d : BitVec 4) (k : BitVec 3) (new : Row) : M Unit := do
  let m ← readK k
  let old ← readV d
  writeV d (mergeLanes m new old)

end Sys2Proof.Machine
end

