-- ==== Sys2Proof/Machine/Flags.lean ====
section
/-! DEFINITION. Conditions. The architecture keeps no flags (R187, R239): a comparison is made where it is used, and its
truth value is a register value, a branch or a mask bit. -/
namespace Sys2Proof.Machine

/-- The truth of a branch condition on two scalars (R217). -/
def condHolds (c : Cond) (a b : Word) : Bool :=
  match c with
  | .eq => a == b
  | .ne => a != b
  | .lt => a.slt b
  | .ge => !a.slt b
  | .ltn => a.ult b
  | .gen => !a.ult b
  | .any => (a &&& b) != 0
  | .none => (a &&& b) == 0

/-- A lane that takes part in an operation under a mask. -/
def laneOn (k : Word) (l : Nat) : Bool := k.getLsbD l

/-- A mask from its lanes. -/
def maskOf (f : Nat → Bool) : Word :=
  BitVec.ofNat 64 (packNat 1 ((List.range 64).map fun l => if f l then 1 else 0))

end Sys2Proof.Machine
end

