-- ==== Sys2Proof/Machine/Num.lean ====
section
/-! DEFINITION. Numbers: the element formats, exact values, rounding, sums, the block quantisers and the stash grades
(R186-R205, R293, R307). -/
namespace Sys2Proof.Machine

/-! ## Formats and values (R186) -/

/-- A floating-point format: widths, bias, whether it has infinities, and its largest finite code. -/
structure FFmt where
  ebits : Nat
  fbits : Nat
  bias  : Nat
  inf   : Bool
  top   : Nat      -- the code of the largest finite magnitude

/-- FP32. -/
def fp32 : FFmt := { ebits := 8, fbits := 23, bias := 127, inf := true, top := 0x7F7FFFFF }
/-- BF16. -/
def fpBf16 : FFmt := { ebits := 8, fbits := 7, bias := 127, inf := true, top := 0x7F7F }
/-- E4M3: no infinity, one NaN. -/
def fpE4m3 : FFmt := { ebits := 4, fbits := 3, bias := 7, inf := false, top := 0x7E }
/-- E5M2. -/
def fpE5m2 : FFmt := { ebits := 5, fbits := 2, bias := 15, inf := true, top := 0x7B }
/-- E2M1: every code is finite. -/
def fpE2m1 : FFmt := { ebits := 2, fbits := 1, bias := 1, inf := false, top := 7 }

/-- The place of the sign bit. -/
def FFmt.sign (f : FFmt) : Nat := f.ebits + f.fbits
/-- The code with the exponent all ones and fraction 0: infinity where the format has one. -/
def FFmt.infCode (f : FFmt) : Nat := (2 ^ f.ebits - 1) * 2 ^ f.fbits
/-- The default NaN (R187). -/
def FFmt.nan (f : FFmt) : Nat := if f.inf then f.infCode + 2 ^ (f.fbits - 1) else f.top + 1
/-- The exponent of the smallest subnormal. -/
def FFmt.minExp (f : FFmt) : Int := 1 - (f.bias : Int) - f.fbits

/-- An exact value: (-1)^neg * m * 2^e, an infinity, or a NaN. A zero keeps its sign. -/
inductive FV where
  | nan
  | inf (neg : Bool)
  | num (neg : Bool) (m : Nat) (e : Int)
  deriving DecidableEq, Repr

/-- The value of a code (R186). -/
def FFmt.value (f : FFmt) (c : Nat) : FV :=
  let neg := c.testBit f.sign
  let a := c % 2 ^ f.sign
  let ex := a / 2 ^ f.fbits
  let fr := a % 2 ^ f.fbits
  if f.inf ∧ f.infCode ≤ a then (if a = f.infCode then .inf neg else .nan)
  else if f.top < a then .nan
  else if ex = 0 then .num neg fr f.minExp
  else .num neg (2 ^ f.fbits + fr) (f.minExp + (ex - 1))

/-- A code is a NaN. -/
def FFmt.isNan (f : FFmt) (c : Nat) : Bool := match f.value c with | .nan => true | _ => false

/-- The code with the top fraction bit set; an E4M3 NaN keeps its one code (R293). -/
def FFmt.quiet (f : FFmt) (c : Nat) : Nat := if f.inf then c ||| 2 ^ (f.fbits - 1) else c

/-! ## Rounding (R197-R199) -/

/-- A mode with the SRH seed and the index of the element (R198). -/
structure Rnd where
  mode : RMode
  seed : Word
  idx  : Nat

/-- RNE. -/
def rne : Rnd := { mode := .rne, seed := 0, idx := 0 }

/-- The 24-bit hash of SRH (R198). -/
def srhHash (seed : Word) (idx : Nat) : Nat :=
  ((seed.toNat * 0x9E3779B97F4A7C15 + idx * 0xC2B2AE3D27D4EB4F) % 2 ^ 64) / 2 ^ 40

/-- Whether a magnitude n/d between t and t+1 units, with remainder r, goes up. -/
def goesUp (k : Rnd) (neg : Bool) (t r d : Nat) : Bool :=
  match k.mode with
  | .rne => decide (d < 2 * r) || (decide (2 * r = d) && t % 2 == 1)
  | .rtz => false
  | .rdn => neg && decide (r ≠ 0)
  | .rup => !neg && decide (r ≠ 0)
  | .srh => decide (r ≠ 0) && decide (srhHash k.seed k.idx < 2 ^ 24 * r / d)

/-- n/d rounded to an integer in a mode, of the signed value. -/
def roundNat (k : Rnd) (neg : Bool) (n d : Nat) : Nat :=
  let t := n / d
  if goesUp k neg t (n % d) d then t + 1 else t

/-- floor(log2 (n/d)) for n, d > 0. -/
def log2Q (n d : Nat) : Int :=
  let g : Int := (n.log2 : Int) - d.log2
  let le (e : Int) : Bool := if 0 ≤ e then decide (d * 2 ^ e.toNat ≤ n) else decide (d ≤ n * 2 ^ (-e).toNat)
  if le g then g else g - 1

/-- The result of an overflow (R199); `up` says that SRH rounds up. -/
def overflow (f : FFmt) (k : Rnd) (neg up : Bool) : Nat :=
  if f.inf then
    match k.mode with
    | .rne => f.infCode
    | .rtz => f.top
    | .rdn => if neg then f.infCode else f.top
    | .rup => if neg then f.top else f.infCode
    | .srh => if up then f.infCode else f.top
  else f.top

/-- The code of the magnitude n/d in a format, n > 0: one rounding (R197), overflow under R199. -/
def roundMag (f : FFmt) (k : Rnd) (neg : Bool) (n d : Nat) : Nat :=
  let e := log2Q n d
  let q := max (e - f.fbits) f.minExp
  let (n', d') := if 0 ≤ q then (n, d * 2 ^ q.toNat) else (n * 2 ^ (-q).toNat, d)
  let t := roundNat k neg n' d'
  let c := (q - f.minExp).toNat * 2 ^ f.fbits + t
  if (2 ^ f.ebits : Int) - 1 - f.bias < e + (if f.inf then 1 else 0) then overflow f k neg true
  else if f.top < c then overflow f k neg true
  else c

/-- The code of a rational value. -/
def roundQ (f : FFmt) (k : Rnd) (neg : Bool) (n d : Nat) : Nat :=
  (if neg then 2 ^ f.sign else 0) + (if n = 0 then 0 else roundMag f k neg n d)

/-- m * 2^e as a fraction. -/
def fracOf (m : Nat) (e : Int) : Nat × Nat := if 0 ≤ e then (m * 2 ^ e.toNat, 1) else (m, 2 ^ (-e).toNat)

/-- The code of a value: a NaN gives the default NaN, an infinity the format's, or its NaN with the sign where the format
has none (R199). -/
def roundFV (f : FFmt) (k : Rnd) (v : FV) : Nat :=
  match v with
  | .nan => f.nan
  | .inf neg => (if neg then 2 ^ f.sign else 0) + (if f.inf then f.infCode else f.nan)
  | .num neg m e =>
    let (n, d) := fracOf m e
    roundQ f k neg n d

/-! ## Exact arithmetic on values -/

/-- The signed integer of a value at exponent `e`, which is at most its own. -/
def intAt (neg : Bool) (m : Nat) (e0 e : Int) : Int :=
  let x : Int := (m * 2 ^ (e0 - e).toNat : Nat)
  if neg then -x else x

/-- The value of an integer at an exponent; an exact zero takes the sign of `z`. -/
def ofIntAt (x : Int) (e : Int) (z : Bool) : FV := .num (if x = 0 then z else decide (x < 0)) x.natAbs e

/-- The sum: two zeros of one sign keep it, any other zero sum is -0 under RDN only (R293). -/
def FV.add (rdn : Bool) : FV → FV → FV
  | .nan, _ => .nan
  | _, .nan => .nan
  | .inf a, .inf b => if a = b then .inf a else .nan
  | .inf a, .num _ _ _ => .inf a
  | .num _ _ _, .inf b => .inf b
  | .num a m e, .num b n f =>
    let g := min e f
    let x := intAt a m e g + intAt b n f g
    ofIntAt x g (if m = 0 ∧ n = 0 ∧ a = b then a else rdn)

/-- The negated value. -/
def FV.neg : FV → FV
  | .nan => .nan
  | .inf a => .inf (!a)
  | .num a m e => .num (!a) m e

/-- The product (R293); 0 times infinity is a NaN. -/
def FV.mul : FV → FV → FV
  | .nan, _ => .nan
  | _, .nan => .nan
  | .inf a, .inf b => .inf (a ^^ b)
  | .inf a, .num b n _ => if n = 0 then .nan else .inf (a ^^ b)
  | .num a m _, .inf b => if m = 0 then .nan else .inf (a ^^ b)
  | .num a m e, .num b n f => .num (a ^^ b) (m * n) (e + f)

/-- An integer as a value. -/
def FV.ofInt (x : Int) : FV := .num (decide (x < 0)) x.natAbs 0

/-- The value is zero. -/
def FV.isZero : FV → Bool
  | .num _ m _ => decide (m = 0)
  | _ => false

/-- Strict order by value, with -0 below +0 where `z`; of numbers only. -/
def FV.lt (z : Bool) : FV → FV → Bool
  | .nan, _ => false
  | _, .nan => false
  | .inf a, .inf b => a && !b
  | .inf a, .num _ _ _ => a
  | .num _ _ _, .inf b => !b
  | .num a m e, .num b n f =>
    if m = 0 ∧ n = 0 then z && a && !b
    else
      let g := min e f
      decide (intAt a m e g < intAt b n f g)

/-- A value rounded to an integer in a mode. -/
def FV.toInt (k : Rnd) : FV → Int
  | .nan => 0
  | .inf a => if a then -(2 ^ 200) else 2 ^ 200
  | .num a m e =>
    let (n, d) := fracOf m e
    let t : Int := (roundNat k a n d : Nat)
    if a then -t else t

/-- Clamps an integer. -/
def clampI (lo hi x : Int) : Int := if x < lo then lo else if hi < x then hi else x

/-- A signed integer from `w` bits. -/
def sintOf (w c : Nat) : Int := if c.testBit (w - 1) then (c : Int) - 2 ^ w else c
/-- The `w`-bit code of an integer. -/
def codeOf (w : Nat) (x : Int) : Nat := (x % 2 ^ w).toNat

/-! ## Operations with NaN operands (R187, R293) -/

/-- The first NaN among operand codes, quieted. -/
def firstNan (f : FFmt) : List Nat → Option Nat
  | [] => none
  | c :: cs => if f.isNan c then some (f.quiet c) else firstNan f cs

/-- An operation on codes: the first NaN operand, else the exact value rounded once. -/
def fop (f : FFmt) (k : Rnd) (cs : List Nat) (v : FV) : Nat :=
  match firstNan f cs with
  | some c => c
  | none => roundFV f k v

/-- RDN changes the sign of an exact zero sum. -/
def Rnd.isRdn (k : Rnd) : Bool := match k.mode with | .rdn => true | _ => false

/-- A + B (R296). -/
def fadd (f : FFmt) (k : Rnd) (a b : Nat) : Nat := fop f k [a, b] ((f.value a).add k.isRdn (f.value b))
/-- A - B (R296). -/
def fsub (f : FFmt) (k : Rnd) (a b : Nat) : Nat := fop f k [a, b] ((f.value a).add k.isRdn (f.value b).neg)
/-- A * B (R296). -/
def fmul (f : FFmt) (k : Rnd) (a b : Nat) : Nat := fop f k [a, b] ((f.value a).mul (f.value b))
/-- D + A * B with one rounding; an invalid product is the default NaN, even when D is a NaN (R297). -/
def ffma (f : FFmt) (k : Rnd) (a b d : Nat) : Nat :=
  let p := (f.value a).mul (f.value b)
  match firstNan f [a, b] with
  | some c => c
  | none => if p = .nan then f.nan else fop f k [d] (p.add k.isRdn (f.value d))
/-- The smaller (R296). -/
def fmin (f : FFmt) (a b : Nat) : Nat :=
  match firstNan f [a, b] with
  | some c => c
  | none => if (f.value b).lt true (f.value a) then b else a
/-- The larger (R296). -/
def fmax (f : FFmt) (a b : Nat) : Nat :=
  match firstNan f [a, b] with
  | some c => c
  | none => if (f.value a).lt true (f.value b) then b else a

/-- f32 addition by RNE with the NaN rule of R187. -/
def f32Add (a b : Nat) : Nat := fadd fp32 rne a b

/-- f32 addition in a tree: a NaN makes the default NaN (R203, R274). -/
def f32Tree (k : Rnd) (a b : Nat) : Nat :=
  roundFV fp32 k ((fp32.value a).add k.isRdn (fp32.value b))

/-! ## Conversions (R200) -/

/-- The FP32 image of a code of another format, NaN payloads kept (R200). -/
def toFp32 (f : FFmt) (c : Nat) : Nat :=
  match f.value c with
  | .nan =>
    let sg := if c.testBit f.sign then 2 ^ 31 else 0
    if f.inf then sg + 0x7F800000 + (c % 2 ^ f.fbits) * 2 ^ (23 - f.fbits) else sg + 0x7FC00000
  | v => roundFV fp32 rne v

/-- FP32 to a narrower format: values rounded, overflow under R199, NaNs under R200. -/
def fromFp32 (f : FFmt) (k : Rnd) (c : Nat) : Nat :=
  match fp32.value c with
  | .nan =>
    let sg := if c.testBit 31 then 2 ^ f.sign else 0
    if f.inf then
      let p := (c % 2 ^ 23) / 2 ^ (23 - f.fbits)
      sg + f.infCode + (if p = 0 then (if f.fbits = 2 then 1 else 2 ^ (f.fbits - 1)) else p)
    else sg + f.nan
  | v => roundFV f k v

/-- The code of a value in a destination format, with the NaN rule of R200 where the source is a narrow code. -/
def convF (src dst : FFmt) (k : Rnd) (c : Nat) : Nat := fromFp32 dst k (toFp32 src c)

/-! ## Transcendentals (R307) -/

/-- The integer square root, bit by bit from bit `b`. -/
def isqrt (n : Nat) : Nat → Nat → Nat
  | 0, r => r
  | b + 1, r => let c := r + 2 ^ b; if c * c ≤ n then isqrt n b c else isqrt n b r

/-- 2^256 * ln 2, rounded down. -/
def ln2Fix : Nat := 80260960185991308862233904206310070533990667611589946606122867505419956976171

/-- 2^256 * exp(z / 2^256) for z below ln 2, by its series. -/
def expFix (z : Nat) : Nat :=
  ((List.range 60).foldl (fun (p : Nat × Nat) i =>
    let t := p.2 * z / ((i + 1) * 2 ^ 256)
    (p.1 + t, t)) (2 ^ 256, 2 ^ 256)).1

/-- 2^256 * ln m for m = 1 + r / 2^256, by the series of the inverse hyperbolic tangent. -/
def lnFix (r : Nat) : Nat :=
  let z := r * 2 ^ 256 / (2 ^ 257 + r)
  let z2 := z * z / 2 ^ 256
  2 * ((List.range 90).foldl (fun (p : Nat × Nat) i =>
    (p.1 + p.2 / (2 * i + 1), p.2 * z2 / 2 ^ 256)) (0, z)).1

/-- 1 / x (R307). -/
def recip (f : FFmt) (k : Rnd) (c : Nat) : Nat :=
  match f.value c with
  | .nan => f.quiet c
  | .inf a => if a then 2 ^ f.sign else 0
  | .num a m e =>
    if m = 0 then (if a then 2 ^ f.sign else 0) + f.infCode
    else
      let (n, d) := fracOf m e
      roundQ f k a d n

/-- 1 / sqrt x: the square root taken to 200 bits with a sticky half unit (R307). -/
def rsqrt (f : FFmt) (k : Rnd) (c : Nat) : Nat :=
  match f.value c with
  | .nan => f.quiet c
  | .inf a => if a then f.nan else 0
  | .num a m e =>
    if m = 0 then (if a then 2 ^ f.sign else 0) + f.infCode
    else if a then f.nan
    else
      let (n, d) := fracOf m e
      let x := d * 2 ^ 400 / n
      let r := isqrt x 300 0
      if r * r * n = d * 2 ^ 400 then roundQ f k false r (2 ^ 200) else roundQ f k false (2 * r + 1) (2 ^ 201)

/-- 2^x (R307). An argument below 2^-100 in magnitude gives a value that lies strictly beside 1. -/
def exp2 (f : FFmt) (k : Rnd) (c : Nat) : Nat :=
  match f.value c with
  | .nan => f.quiet c
  | .inf a => if a then 0 else f.infCode
  | .num a m e =>
    if m = 0 then f.bias * 2 ^ f.fbits
    else
      let (n, d) := fracOf m e
      if n * 2 ^ 100 < d then
        if a then roundQ f k false (2 ^ 100 - 1) (2 ^ 100) else roundQ f k false (2 ^ 100 + 1) (2 ^ 100)
      else if d * 1000 < n then
        if a then roundQ f k false 1 (2 ^ 1000) else roundQ f k false (2 ^ 1000) 1
      else
        let i : Nat := n / d
        let r := n % d
        -- 2^x = 2^w * 2^(u/d), 0 <= u < d
        let (w, u) : Int × Nat := if a then (if r = 0 then (-(i : Int), 0) else (-(i : Int) - 1, d - r)) else ((i : Int), r)
        let y := if u = 0 then 2 ^ 257 else 2 * expFix (u * ln2Fix / d) + 1
        let (p, q) := fracOf y (w - 257)
        roundQ f k false p q

/-- log2 x (R307). DESIGN CHOICE, unsafe: the zero that is log2 of 1 has sign + in every mode, RDN too; R293 gives no sign for it
(notes/assumptions/98.md). -/
def log2F (f : FFmt) (k : Rnd) (c : Nat) : Nat :=
  match f.value c with
  | .nan => f.quiet c
  | .inf a => if a then f.nan else f.infCode
  | .num a m e =>
    if m = 0 then 2 ^ f.sign + f.infCode
    else if a then f.nan
    else
      let b := m.log2
      let w : Int := b + e
      let r := (m - 2 ^ b) * 2 ^ 256 / 2 ^ b
      if r = 0 then roundFV f k (FV.ofInt w)
      else
        let l := 2 * (lnFix r * 2 ^ 256 / ln2Fix) + 1
        roundFV f k ((FV.num false l (-257)).add false (FV.ofInt w))

/-! ## Sums (R201-R203, R274) -/

/-- One level of a pairwise tree: adjacent pairs, an unpaired last value passes up (R203, R274). -/
def pairUp {α : Type} (f : Nat → α → α → α) : Nat → List α → List α
  | i, a :: b :: l => f i a b :: pairUp f (i + 1) l
  | _, l => l

/-- The pairwise tree; `f` gets the number of each addition, counted level by level (R198). -/
def treeSum {α : Type} (f : Nat → α → α → α) (z : α) : Nat → Nat → List α → α
  | 0, _, l => l.headD z
  | fuel + 1, i, l =>
    match l with
    | [] => z
    | [x] => x
    | l => treeSum f z fuel (i + l.length / 2) (pairUp f i l)

/-- The pairwise tree of a list. -/
def tree {α : Type} (f : Nat → α → α → α) (z : α) (l : List α) : α := treeSum f z l.length 0 l

/-- The group sum of R202 over exact products, as an f32 code; `scale` multiplies it exactly before it is rounded. -/
def groupSum (ps : List FV) : Nat :=
  if ps.any (fun p => decide (p = .nan)) || (ps.contains (.inf false) && ps.contains (.inf true)) then fp32.nan
  else if ps.contains (.inf false) then fp32.infCode
  else if ps.contains (.inf true) then 2 ^ 31 + fp32.infCode
  else
    let top := ps.foldl (fun (b : Option Int) p => match p with
      | .num _ m e => if m = 0 then b else
          let l : Int := m.log2 + e
          some (match b with | none => l | some x => max x l)
      | _ => b) none
    match top with
    | none => 0
    | some l =>
      let q := l - 40
      let x := ps.foldl (fun (s : Int) p => match p with
        | .num a m e =>
          let t : Int := (if q ≤ e then m * 2 ^ (e - q).toNat else m / 2 ^ (q - e).toNat : Nat)
          if a then s - t else s + t
        | _ => s) 0
      let r := roundFV fp32 rne (ofIntAt x q false)
      if r = 2 ^ 31 then 0 else r

/-- The group sum times an exact factor, as a value (R196); NaN and infinities pass. -/
def scaledSum (ps : List FV) (scale : FV) : FV := (fp32.value (groupSum ps)).mul scale

/-- acc + s by RNE (R202). -/
def accAdd (acc : Nat) (s : FV) : Nat := roundFV fp32 rne ((fp32.value acc).add false s)

/-! ## Block formats (R189-R193) -/

/-- floor(log2 |x|) of an f32 code that is finite and not zero. -/
def flog2 (c : Nat) : Option Int :=
  match fp32.value c with
  | .num _ m e => if m = 0 then none else some (m.log2 + e)
  | _ => none

/-- The largest floor(log2 |x|) over the non-zero values. -/
def maxLog (cs : List Nat) : Option Int :=
  cs.foldl (fun b c => match flog2 c, b with
    | none, b => b
    | some x, none => some x
    | some x, some y => some (max x y)) none

/-- A finite f32 magnitude divided by 2^e, rounded to an integer in a mode, of the signed value. -/
def roundUnit (k : Rnd) (c : Nat) (e : Int) : Nat :=
  match fp32.value c with
  | .num a m x =>
    let (n, d) := fracOf m (x - e)
    roundNat k a n d
  | _ => 0

/-- The i-th group of `n` of a list. -/
def chunk {α : Type} (l : List α) (n i : Nat) : List α := (l.drop (n * i)).take n

/-- An f32 code is a NaN. -/
def nan32 (c : Nat) : Bool := fp32.isNan c
/-- An f32 code is a NaN or an infinity. -/
def notFinite (c : Nat) : Bool := decide (0x7F800000 ≤ c % 2 ^ 31)

/-- The bytes of a PX block as a number: X, the micro-exponents, and 16 fields of m + 1 bits (R189). -/
def packPx (m x mu : Nat) (fields : List Nat) : Nat := x + 256 * mu + 65536 * packNat (m + 1) fields

/-- The PX quantiser on 16 f32 codes; `base` is the SRH index of the first (R191). -/
def quantPx (m : Nat) (k : Rnd) (xs : List Nat) : Nat :=
  if xs.all nan32 then
    packPx m 0xFF (packNat 1 ((List.range 8).map fun p => (xs.getD (2 * p) 0 / 2 ^ 21) % 2))
      (xs.map fun c => (if c.testBit 31 then 2 ^ m else 0) + fieldN c (21 - m) m)
  else if xs.any notFinite then packPx m 0xFF 0 []
  else
    let signs := xs.map fun c => c.testBit 31
    match maxLog xs with
    | none => packPx m 0 0 (signs.map fun b => if b then 2 ^ m else 0)
    | some e =>
      let x := (clampI 0 254 (e + 127)).toNat
      let pair (p : Nat) : Nat × List Nat :=
        let mu : Nat := match maxLog (chunk xs 2 p) with
          | some g => if g ≤ (x : Int) - 128 then 1 else 0
          | none => 0
        let mags := [0, 1].map fun i =>
          min (roundUnit { k with idx := k.idx + 2 * p + i } (xs.getD (2 * p + i) 0) ((x : Int) - 127 - mu - (m - 1))) (2 ^ m - 1)
        (if mags.all (· == 0) then 0 else mu,
         [0, 1].map fun i => (if signs.getD (2 * p + i) false then 2 ^ m else 0) + mags.getD i 0)
      let ps := (List.range 8).map pair
      packPx m x (packNat 1 (ps.map (·.1))) (ps.flatMap (·.2))

/-- The value of element `i` of a PX block (R190); a NaN block reads as NaNs. -/
def pxValue (m blk i : Nat) : FV :=
  let x := blk % 256
  let mu := if (blk / 256).testBit (i / 2) then 1 else 0
  let f := (blk / 65536) >>> ((m + 1) * i) % 2 ^ (m + 1)
  if x = 0xFF then .nan
  else .num (f.testBit m) (f % 2 ^ m) ((x : Int) - 127 - mu - (m - 1))

/-- The f32 image of element `i` of a PX block (R190). -/
def pxImage (m blk i : Nat) : Nat :=
  let x := blk % 256
  let mu := if (blk / 256).testBit (i / 2) then 1 else 0
  let f := (blk / 65536) >>> ((m + 1) * i) % 2 ^ (m + 1)
  if x = 0xFF then
    (if f.testBit m then 2 ^ 31 else 0) + 0x7F800000 + 2 ^ 22 + mu * 2 ^ 21 + (f % 2 ^ m) * 2 ^ (21 - m)
  else roundFV fp32 rne (pxValue m blk i)

/-- The MXFP4 quantiser on 32 f32 codes: the 16-byte block and its scale (R193). -/
def quantMx (k : Rnd) (xs : List Nat) : Nat × Nat :=
  let sg (c : Nat) : Nat := if c.testBit 31 then 8 else 0
  if xs.all nan32 then (packNat 4 (xs.map fun c => sg c + fieldN c 19 3), 0xFF)
  else if xs.any notFinite then (0, 0xFF)
  else
    let x : Nat := match maxLog xs with
      | none => 0
      | some e => (clampI 0 254 (e - 2 + 127)).toNat
    (packNat 4 ((List.range 32).map fun i =>
      match fp32.value (xs.getD i 0) with
      | .num a m e => roundFV fpE2m1 { k with idx := k.idx + i } (.num a m (e - ((x : Int) - 127)))
      | _ => 0), x)

/-- The value of an MXFP4 element (R193). -/
def mxValue (code x : Nat) : FV :=
  if x = 0xFF then .nan
  else match fpE2m1.value code with
    | .num a m e => .num a m (e + (x : Int) - 127)
    | v => v

/-- The f32 image of an MXFP4 element; one beyond the range overflows in the mode (R193). -/
def mxImage (k : Rnd) (code x : Nat) : Nat :=
  if x = 0xFF then (if code.testBit 3 then 2 ^ 31 else 0) + 0x7F800000 + 2 ^ 22 + (code % 8) * 2 ^ 19
  else roundFV fp32 k (mxValue code x)

/-- An E8M0 scale as a value (R186). -/
def e8Value (x : Nat) : FV := if x = 0xFF then .nan else .num false 1 ((x : Int) - 127)

/-! ## Dual-axis scales (R194-R196) -/

/-- An element of a DX format with one plane byte applied within its own format (R196). -/
def dxAdjust (f : FFmt) (code plane : Nat) : FV :=
  if plane = 0xFF then .nan
  else match f.value code with
    | .num a m e =>
      let e' := e + (plane : Int) - 127
      let u := if f.minExp ≤ e' then (m * 2 ^ (e' - f.minExp).toNat) else m / 2 ^ (f.minExp - e').toNat
      let topv := match f.value f.top with | .num _ n g => n * 2 ^ (g - f.minExp).toNat | _ => 0
      .num a (min u topv) f.minExp
    | v => v

/-! ### The quantiser of a tile (R195) -/

/-- A quantised tile: the f32 code of S, the plane bytes Rv by row and group of 32 columns, Cv by group of 32 rows and column, and the
codes row by row. -/
structure DxTile where
  s     : Nat
  rv    : List (List Nat)
  cv    : List (List Nat)
  codes : List (List Nat)
  deriving DecidableEq, Repr

/-- The magnitude of a finite value as a fraction. -/
def magQ : FV → Nat × Nat
  | .num _ m e => fracOf m e
  | _ => (0, 1)

/-- The larger of two fractions. -/
def maxQ (a b : Nat × Nat) : Nat × Nat := if a.1 * b.2 < b.1 * a.2 then b else a

/-- Divides a fraction by m * 2^e. -/
def divQ (x : Nat × Nat) (m : Nat) (e : Int) : Nat × Nat :=
  let d := fracOf m e
  (x.1 * d.2, x.2 * d.1)

/-- The plane byte of a segment whose largest scaled magnitude is y: clamp(127 - (emax - floor(log2 y)), 0, 127), and 127 for 0. -/
def dxPlane (emax : Nat) (y : Nat × Nat) : Nat :=
  if y.1 = 0 then 127 else (max 0 (min 127 (127 - ((emax : Int) - log2Q y.1 y.2)))).toNat

/-- An element's code: the value over S and its two planes, rounded in the mode, and at most the largest finite value (R195, step 4). -/
def dxCode (f : FFmt) (k : Rnd) (x : FV) (sm : Nat) (se : Int) (rv cv : Nat) : Nat :=
  let neg := match x with | .num a _ _ => a | _ => false
  let q := divQ (magQ x) sm (se + (rv : Int) - 127 + ((cv : Int) - 127))
  let top := magQ (f.value f.top)
  if top.1 * q.2 < q.1 * top.2 then (if neg then 2 ^ f.sign else 0) + f.top else roundQ f k neg q.1 q.2

/-- R195 on a tile of f32 codes, given row by row: rows and columns multiples of 32. `f` is E4M3 or E5M2; `idx` numbers the elements for
SRH. None where S rounds to zero and the tile is not zero: the spec states no result there (notes/assumptions/64.md). -/
def dxQuantise (f : FFmt) (k : Rnd) (idx : Nat → Nat → Nat) (xs : List (List Nat)) : Option DxTile :=
  let rows := xs.length
  let cols := (xs.headD []).length
  let x (i j : Nat) : FV := fp32.value ((xs.getD i []).getD j 0)
  let bad := xs.any fun r => r.any fun c => match fp32.value c with | .num _ _ _ => false | _ => true
  let plane (v : Nat) : List (List Nat) := (List.range rows).map fun _ => (List.range (cols / 32)).map fun _ => v
  let planeC (v : Nat) : List (List Nat) := (List.range (rows / 32)).map fun _ => (List.range cols).map fun _ => v
  if bad then
    some { s := fp32.nan, rv := plane 0x7F, cv := planeC 0x7F, codes := (List.range rows).map fun _ => (List.range cols).map fun _ => f.nan }
  else
    let cmax := magQ (f.value f.top)
    let emax := (log2Q cmax.1 cmax.2).toNat
    let amax := xs.foldl (fun m r => r.foldl (fun m c => maxQ m (magQ (fp32.value c))) m) (0, 1)
    let s := if amax.1 = 0 then 0x3F800000 else roundQ fp32 rne false (amax.1 * cmax.2) (amax.2 * cmax.1)
    match fp32.value s with
    | .num _ sm se =>
      if sm = 0 then none
      else
        let cv := (List.range (rows / 32)).map fun r => (List.range cols).map fun j =>
          dxPlane emax ((List.range 32).foldl (fun m i => maxQ m (divQ (magQ (x (32 * r + i) j)) sm se)) (0, 1))
        let cvAt (i j : Nat) : Nat := (cv.getD (i / 32) []).getD j 127
        let rv := (List.range rows).map fun i => (List.range (cols / 32)).map fun c =>
          dxPlane emax ((List.range 32).foldl (fun m j =>
            maxQ m (divQ (magQ (x i (32 * c + j))) sm (se + (cvAt i (32 * c + j) : Int) - 127))) (0, 1))
        some { s := s, rv := rv, cv := cv,
               codes := (List.range rows).map fun i => (List.range cols).map fun j =>
                 dxCode f { k with idx := k.idx + idx i j } (x i j) sm se ((rv.getD i []).getD (j / 32) 127) (cvAt i j) }
    | _ => none

/-! ## Stash grades (R204, R205) -/

/-- The bits of a code of a grade. -/
def gradeBits : Grade → Nat
  | .s3 => 3
  | .s5 => 5
  | .s7 => 7

/-- One stash block of 64 f32 images: the header byte and 64 codes, as a number (R204, R205). -/
def stashBlock (m : Nat) (xs : List Nat) : Nat :=
  if xs.any notFinite then 0xFF
  else
    let e := match maxLog xs with | none => (-127 : Int) | some e => max e (-127)
    let lim : Int := 2 ^ (m - 1) - 1
    (e + 127).toNat + 256 * packNat m (xs.map fun c =>
      let t : Int := (roundUnit rne c (e - m + 2) : Nat)
      codeOf m (clampI (-lim) lim (if c.testBit 31 then -t else t)))

/-- Element `i` of a stash block as an f32 code (R204). -/
def unstash (m blk i : Nat) : Nat :=
  let h := blk % 256
  if h = 0xFF then fp32.nan
  else
    let x := sintOf m ((blk / 256) >>> (m * i) % 2 ^ m)
    roundFV fp32 rne (.num (decide (x < 0)) x.natAbs ((h : Int) - 127 - m + 2))

/-- Bytes of one page of `n` elements at a grade (R205). -/
def stashPage (m n : Nat) : Nat := (((n + 63) / 64) * (1 + 8 * m) + 31) / 32 * 32

/-- The larger, -0 below +0. -/
def FV.maxV (a b : FV) : FV := if a.lt true b then b else a
/-- The smaller. -/
def FV.minV (a b : FV) : FV := if b.lt true a then b else a

end Sys2Proof.Machine
end

