-- ==== Sys2Proof/Machine/Place.lean ====
section
/-! DEFINITION. What the managers have handed out and what is free: the contents of page tables, fresh frames, mapped pages and their
changes under a shootdown, the frames of representations, oriented squares, lines of tensor storage in the die L2 (R42, R43, R63, R68,
R86, R91-R95, R98, R105, R106, R395). -/
namespace Sys2Proof.Machine

/-! ## What page tables hold (R34-R37) -/

/-- The present entries of a table of `n` entries at `tab`: index and entry. -/
def presentEntries (m : SMap Byte) (tab n : Nat) : List (Nat × Nat) :=
  ((((m.filter fun e => decide (tab ≤ e.1) && decide (e.1 < tab + 8 * n)).map fun e => (e.1 - tab) / 8).eraseDups).map fun i =>
    (i, readN m (tab + 8 * i) 8)).filter fun e => decide (e.2 % 2 = 1)

/-- The tables and the leaves below a table of level `lvl` at `tab`, which maps addresses from `va` up. -/
def tableContents (m : SMap Byte) (job lo : Nat) : Nat → Nat → Nat → Nat → List (Nat ⊕ Leaf)
  | 0, _, _, _ => []
  | fuel + 1, lvl, tab, va =>
    (presentEntries m tab (if lvl = 0 then 65536 else 512)).flatMap fun e =>
      let v := va + e.1 * 2 ^ (12 + 9 * (3 - lvl))
      if lvl = 3 ∨ (lvl ≠ 0 ∧ e.2.testBit 7) then
        match walkFrom m job lo v 1 lvl tab with
        | .ok l => [.inr l]
        | .error _ => []
      else match pointerOf lvl lo e.2 with
        | .ok t => .inl t :: tableContents m job lo fuel (lvl + 1) t v
        | .error _ => []

/-- The tables and the leaves of a job. -/
def State.tabled (s : State) (j : Nat) : List (Nat ⊕ Leaf) :=
  match s.job j with
  | none => []
  | some x => tableContents s.mem j (x.carveLo * 0x100000) 4 0 x.root 0

/-! ## What is in use (R42, R63, R395, R403) -/

/-- The replay window of a port in mode LONG, in HBM (R403). -/
def Package.replayRange (p : Package) (port : Nat) : List (Nat × Nat) :=
  if p.portMode.testBit port then [(p.replayBase + port * p.replayStride, p.replayStride)] else []

/-- The frames of the segment map of `n` segments at an address: 8 bytes for each segment (notes/assumptions/62.md). -/
def mapFrames (map n : Nat) : List Nat := if map = 0 then [] else (List.range (max 1 ((8 * n + 65535) / 65536))).map (map / 65536 + ·)

/-- The frames of a place for a representation, those of its map included. -/
def Home.allFrames (h : Home) : List Nat := h.frames ++ mapFrames h.map h.frames.length

/-- The frames of the representation that an entry has. -/
def Tensor.ownFrames (t : Tensor) : List Nat := t.frames ++ mapFrames t.segmap t.frames.length

/-- The frames of an entry: those of its representation, of the one in preparation, of old ones that readers still use, and those
reserved for widenings. -/
def Tensor.allFrames (t : Tensor) : List Nat :=
  t.ownFrames ++ ((t.rerep.map (·.home.allFrames)).getD []) ++ t.olds.flatMap (·.frames) ++
    t.ops.flatMap fun o => (o.home.map (·.allFrames)).getD []

/-- The physical ranges of a job: its tables, what they map, the places where a change under way moves pages, and its tensors' frames. -/
def State.rangesOf (s : State) (j : Nat) (x : Job) : List (Nat × Nat) :=
  (x.root, 0x80000) :: ((s.tabled j).map fun e => match e with | .inl t => (t, 4096) | .inr l => (l.pa, l.size)) ++
    ((x.shoot.map fun w => w.move.map fun m => (m.2.1, m.2.2)).getD []) ++
    x.tensors.flatMap fun (e : Nat × Tensor) => e.2.allFrames.map fun f => (f * 65536, 65536)

/-- The physical ranges that the managers do not hand out: first byte and length. -/
def State.occupied (s : State) : List (Nat × Nat) :=
  (s.jobs.flatMap fun (e : Nat × Option Job) => match e.2 with | none => [] | some x => s.rangesOf e.1 x) ++
  ((s.retired ++ s.poison).map fun f => (f * 4096, 4096)) ++ (List.range 64).flatMap s.pkg.replayRange

/-- The first range of `size` bytes free of those in use among the places from a hint up: at the hint, or behind a range in use. `ok` says
where the manager may place it. -/
def freeIn (used : List (Nat × Nat)) (hints : List Nat) (size align : Nat) (ok : Nat → Bool) : Option Nat :=
  ((hints ++ used.map fun r => r.1 + r.2).map fun a => (a + align - 1) / align * align).find? fun a =>
    ok a && used.all fun r => decide (a + size ≤ r.1) || decide (r.1 + r.2 ≤ a)

/-- The same among all that the managers have not handed out. -/
def State.freeRun (s : State) (hints : List Nat) (size align : Nat) (ok : Nat → Bool) : Option Nat :=
  freeIn s.occupied hints size align ok

/-! ## Frames and pages (R42, R232, R373) -/

/-- A fresh 4 KiB frame at the first free place from frame `f` on: its bytes are zero; none where there is no memory. -/
def State.freshFrame (s : State) (f : Nat) : Option (State × Nat) :=
  match s.freeRun [f * 4096] 4096 4096 (fun a => decide (a + 4096 ≤ hbmEnd)) with
  | none => none
  | some a => some ({ s with mem := s.mem.filter (fun e => ¬ (a ≤ e.1 ∧ e.1 < a + 4096)),
                             loaded := s.loaded.filter (fun d => decide (d ≠ a / 4096)),
                             dirty := s.dirty.filter (fun d => decide (d ≠ a / 4096)) }, a / 4096)

/-- A fresh frame from the runtime, which chooses where the search begins; 0 says that it has none to give. -/
def State.takeFrame (s : State) : Option (State × Nat) :=
  let f := s.picks.headD 0
  let s := { s with picks := s.picks.tail }
  if f = 0 then none else s.freshFrame f

/-- A fresh frame of the representation manager: the first that is free. -/
def State.nextFrame (s : State) : Option (State × Nat) := s.freshFrame 1

/-- The level 3 table of an address, from a table of level `lvl` at `tab` down: a missing table takes a fresh frame. -/
def State.tableFor (s : State) (take : State → Option (State × Nat)) (va : Nat) : Nat → Nat → Nat → Option (State × Nat)
  | 0, _, tab => some (s, tab)
  | fuel + 1, lvl, tab =>
    let a := tab + 8 * (if lvl = 0 then fieldN va 39 16 else fieldN va (12 + 9 * (3 - lvl)) 9)
    let e := readN s.mem a 8
    if e % 2 = 1 then
      if lvl ≠ 0 ∧ e.testBit 7 then none else s.tableFor take va fuel (lvl + 1) (fieldN e 12 36 * 4096)
    else match take s with
      | none => none
      | some (s, f) => ({ s with mem := writeN s.mem a 8 (f * 4096 + 1) } : State).tableFor take va fuel (lvl + 1) (f * 4096)

/-- Maps a page of a job to a fresh frame, CACHED, with rights W and X: text W = 0 and X = 1, constants W = 0 and X = 0, data W = 1 and
X = 0 (R232); its frame is answered. `take` says how frames are chosen. -/
def State.mapPage (s : State) (take : State → Option (State × Nat)) (root va : Nat) (w x : Bool) : Option (State × Nat) :=
  match s.tableFor take va 3 0 root with
  | none => none
  | some (s, t) =>
    let a := t + 8 * fieldN va 12 9
    if readN s.mem a 8 % 2 = 1 then none
    else match take s with
      | none => none
      | some (s, f) => some ({ s with mem := writeN s.mem a 8 (f * 4096 + (if x then 16 else 0) + (if w then 8 else 0) + 1) }, f)

/-- A translation meets a range of addresses of a job. -/
def Leaf.meets (l : Leaf) (j va n : Nat) : Bool := decide (l.job = j) && decide (l.va < va + n) && decide (va < l.va + l.size)

/-- A die drops its translations of a range (R43). -/
def State.dropLeaves (s : State) (d j va n : Nat) : State :=
  let s := s.modDie d fun x => { x with tcache := x.tcache.filter fun l => !l.meets j va n }
  { s with cores := s.cores.map fun (e : Nat × Core) =>
      (e.1, if e.1 / 128 = d then { e.2 with tlb := e.2.tlb.filter fun l => !l.meets j va n } else e.2) }

/-- Every die drops its translations of a range. -/
def State.dropAll (s : State) (j va n : Nat) : State := (List.range Config.dieCount).foldl (fun s d => s.dropLeaves d j va n) s

/-- The address of the entry that maps an address, from level `lvl` down, and its level. -/
def entryFrom (m : SMap Byte) (lo va : Nat) : Nat → Nat → Nat → Option (Nat × Nat)
  | 0, _, _ => none
  | fuel + 1, lvl, tab =>
    let idx := fieldN va (12 + 9 * (3 - lvl)) 9
    let a := tab + 8 * idx
    let e := readN m a 8
    if e % 2 = 0 then none
    else if lvl = 3 then some (if e.testBit 8 then tab + 8 * (idx - idx % 16) else a, 3)
    else if e.testBit 7 then some (a, lvl)
    else match pointerOf lvl lo e with
      | .error _ => none
      | .ok t => entryFrom m lo va fuel (lvl + 1) t

/-- The entry of an address of a job. -/
def State.entryOf (s : State) (j va : Nat) : Option (Nat × Nat) :=
  match s.job j with
  | none => none
  | some x =>
    match pointerOf 0 (x.carveLo * 0x100000) (readN s.mem (x.root + 8 * fieldN va 39 16) 8) with
    | .error _ => none
    | .ok t => entryFrom s.mem (x.carveLo * 0x100000) va 4 1 t

/-! ## Changes of valid entries (R43, R68, R395) -/

/-- The entries that a page's entry stands for: a 64 KiB page has the sixteen of its group (R37). -/
def entriesOf (a size : Nat) : List Nat := if size = 0x10000 then (List.range 16).map fun i => a + 8 * i else [a]

/-- An address in [a, a+n) has moved to the same place in [b, b+n). -/
def moved (a b n x : Nat) : Nat := if a ≤ x ∧ x < a + n then x - a + b else x

/-- The bytes of [a, a+n), with the pairs of their lines and what is known to be lost in them, are at [b, b+n). -/
def State.moveBytes (s : State) (a b n : Nat) : State :=
  let rest := s.mem.filter fun e => ¬ (b ≤ e.1 ∧ e.1 < b + n)
  { s with
    mem := (s.mem.filter fun e => decide (a ≤ e.1) && decide (e.1 < a + n)).foldl (fun m e => m.set 0 (e.1 - a + b) e.2) rest
    pairs := (s.pairs.filter fun e => decide (a ≤ e.1 * 256) && decide (e.1 * 256 < a + n)).foldl (fun m e =>
      m.set Pair.dflt (e.1 - a / 256 + b / 256) { e.2 with scope := 0, who := 0, owner := 0 }) s.pairs
    badSect := s.badSect.map fun x => moved (a / 32) (b / 32) (n / 32) x
    badWords := s.badWords.map fun x => moved (a / 8) (b / 8) (n / 8) x
    poison := s.poison.map fun x => moved (a / 4096) (b / 4096) (n / 4096) x }

/-- The slots that wait for the manager look at their access again. -/
def State.releaseErrors (s : State) : State :=
  { s with slots := s.slots.map fun (e : Nat × Slot) =>
      (e.1, if s.waitOf e.1 = some .error then { e.2 with wait := e.2.wait.map fun w => { w with kind := .ready } } else e.2) }

/-- A near-memory command: it waits for a change of the mapping, and holds no translation (R63). -/
def isNearCmd : Instr → Bool
  | .nmload _ _ | .nmstrm _ _ _ _ | .nmdrain _ _ _ _ _ => true
  | _ => false

/-- A parked slot has an access under way that used a translation: it waits for the reply, or for a publish to which its store gives way
(R146). One that waits for the manager to handle an error waits for the change itself (R395). -/
def accessing (w : Wait) : Bool :=
  match w.kind with
  | .load | .store | .stage | .hostReply => true
  | .order => w.stamps.isEmpty && !isNearCmd w.instr
  | _ => false

/-- Some slot of a die has an access of a job under way. -/
def State.busyDie (s : State) (d j : Nat) : Bool :=
  s.slots.any fun e => decide (coreOf e.1 / 128 = d) && decide (s.jobOf e.1 = j) && decide (e.2.st = .parked) && e.2.wait.any accessing

/-- A change of the mapping takes effect (R43): what moves has moved, the entries have their new values, no die holds an old translation,
the lost frame is poisoned, and the slots that waited for the manager go on (R395). -/
def State.takeEffect (s : State) (j : Nat) (w : Shoot) : State :=
  let s := w.move.foldl (fun (s : State) m => s.moveBytes m.1 m.2.1 m.2.2) s
  let s := ({ s with mem := w.ents.foldl (fun m e => writeN m e.1 8 e.2) s.mem } : State).dropAll j w.va w.size
  let s := s.modJob j fun x => { x with shoot := none }
  match w.lose with
  | none => s.releaseErrors
  | some g => ({ s with badSect := s.badSect.filter (fun x => decide (x / 128 ≠ g)), badWords := s.badWords.filter (fun x => decide (x / 512 ≠ g)),
                        poison := if s.poison.contains g then s.poison else g :: s.poison } : State).releaseErrors

/-- The change that a job's shootdown announces takes effect where every die has acknowledged and no access is under way. -/
def State.endShoot (s : State) (j : Nat) : State :=
  match (s.job j).bind (·.shoot) with
  | none => s
  | some w => if w.dies = [] ∧ (List.range Config.dieCount).all (fun d => !s.busyDie d j) then s.takeEffect j w else s

/-- A die drops the range, and acknowledges, once no access under way can have used it (R43). -/
def State.ackShoot (s : State) (d j : Nat) : State :=
  match (s.job j).bind (·.shoot) with
  | none => s
  | some w =>
    if s.busyDie d j then s
    else (s.dropLeaves d j w.va w.size).modJob j fun x => { x with shoot := some { w with dies := w.dies.filter fun e => decide (e ≠ d) } }

/-- The manager sends a shootdown to every die before it changes valid entries of a job. Where replies come at once, the dies
acknowledge at once (R43). -/
def State.changeMap (s : State) (j : Nat) (w : Shoot) : State :=
  let s := s.modJob j fun x => { x with shoot := some { w with dies := List.range Config.dieCount } }
  if s.prompt then ((List.range Config.dieCount).foldl (fun (s : State) d => s.ackShoot d j) s).endShoot j else s

/-- A change of the mapping of a job is under way: the manager makes one at a time. -/
def State.changing (s : State) (j : Nat) : Bool := ((s.job j).bind (·.shoot)).isSome

/-! ## Where the device writes for a job (R389, R426) -/

/-- What stops a record's write: the cause of its fault; else the physical address (R426). -/
def State.recordPlace (s : State) (j va : Nat) : Except Nat Nat :=
  if windowBase ≤ va then .error 5
  else match s.walkOf j va with
    | .error _ => .error 5
    | .ok l => if l.w = false ∨ l.cls = 2 ∨ l.cls = 3 then .error 6 else .ok (l.phys va)

/-- The save area of a job. -/
def State.saveArea (s : State) (j : Nat) : Nat := match s.job j with | none => 0 | some x => x.saveArea

/-! ## The alias of a PLAIN tensor (R68) -/

/-- The first range of unmapped addresses of a job from `va` up, of `n` bytes, at a multiple of 4 KiB. -/
def State.freeVa (s : State) (j va n : Nat) : Option Nat :=
  let ls := (s.tabled j).filterMap fun e => match e with | .inl _ => none | .inr l => some l
  ((max va 4096 :: ls.map fun l => l.va + l.size).map fun a => (a + 4095) / 4096 * 4096).find? fun a =>
    decide (a + n ≤ windowBase) && ls.all fun l => !l.meets j a n

/-- Maps the pages of an alias: CACHED, W = 1, on fresh frames. -/
def State.mapAlias (s : State) (j va n : Nat) : Option State :=
  match s.job j with
  | none => none
  | some x => (List.range ((n + 4095) / 4096)).foldl (fun (r : Option State) i => r.bind fun s =>
      (s.mapPage State.nextFrame x.root (va + 4096 * i) true false).map (·.1)) (some s)

/-- The pages of an alias, one by one: the address, the entry's address, and the leaf. -/
def State.aliasPages (s : State) (j va n : Nat) : List (Nat × Nat × Leaf) :=
  (List.range ((n + 4095) / 4096)).filterMap fun i =>
    match s.entryOf j (va + 4096 * i), s.walkOf j (va + 4096 * i) with
    | some (a, 3), .ok l => some (va + 4096 * i, a, l)
    | _, _ => none

/-- Takes the pages of an alias away, under a shootdown (R43, R62). -/
def State.unmapAlias (s : State) (j va n : Nat) : State :=
  s.changeMap j { va := va, size := (n + 4095) / 4096 * 4096, ents := (s.aliasPages j va n).map fun e => (e.2.1, 0), move := [],
                  lose := none, dies := [] }

/-- An entry with another frame. -/
def withFrame (e pa : Nat) : Nat := e - fieldN e 12 36 * 4096 + pa

/-- Every page of an alias lies on a stack. -/
def State.aliasOn (s : State) (j va n stack : Nat) : Bool :=
  (s.aliasPages j va n).all fun e => inHbm e.2.2.pa && decide (e.2.2.pa / stackBytes = stack)

/-- The frames of an alias move to a stack, under a shootdown (R43, R63, R68); none where they do not fit. -/
def State.moveAlias (s : State) (j va n stack : Nat) : Option State :=
  let ps := s.aliasPages j va n
  (s.freeRun [stack * stackBytes] (ps.length * 4096) 4096 fun a =>
    decide (a / stackBytes = stack) && decide (a + ps.length * 4096 ≤ (stack + 1) * stackBytes)).map fun b =>
    let ms := ps.zip ((List.range ps.length).map fun i => b + 4096 * i)
    s.changeMap j { va := va, size := (n + 4095) / 4096 * 4096, lose := none, dies := [],
                    ents := ms.map fun e => (e.1.2.1, withFrame (readN s.mem e.1.2.1 8) e.2),
                    move := ms.map fun e => (e.1.2.2.pa, e.2, 4096) }

/-! ## Oriented squares (R93, R123) -/

/-- A square becomes one coherence unit: its pair is the highest of its four lines'. -/
def State.orient (s : State) (q : Nat) : State :=
  if s.squares.contains q then s
  else
    let p := (List.range 4).foldl (fun (p : Pair) i =>
      let l := s.pairs.get Pair.dflt (4 * q + i)
      { p with wts := max p.wts l.wts, rts := max p.rts l.rts }) Pair.dflt
    { s with squares := s.squares ++ [q],
             pairs := ((((s.pairs.erase (4 * q + 1)).erase (4 * q + 2)).erase (4 * q + 3)).set Pair.dflt (4 * q) p) }

/-- The lines of a square become coherence units of their own, each with the pair of the square. -/
def State.disorient (s : State) (q : Nat) : State :=
  if s.squares.contains q then
    let p := s.pairs.get Pair.dflt (4 * q)
    { s with squares := s.squares.filter fun x => decide (x ≠ q),
             pairs := (List.range 4).foldl (fun m i => m.set Pair.dflt (4 * q + i) p) s.pairs }
  else s

/-- The squares of a 64 KiB frame. -/
def frameSquares (f : Nat) : List Nat := (List.range 64).map (64 * f + ·)

/-- The form of a tensor's storage: that of its class, or of each copy of a REPL tensor and each part of a SLICE tensor, which LAYOUT
holds (R53, R63; notes/assumptions/62.md). -/
def Tensor.form (t : Tensor) : Nat := if t.cls = 4 ∨ t.cls = 5 then t.layout % 8 else t.cls

/-- The squares of a tensor whose storage has the form SQUARE. -/
def Tensor.squares (t : Tensor) : List Nat := if t.form = 2 ∧ t.st ≠ 0 then t.frames.flatMap frameSquares else []

/-- The squares of a tensor in class SQUARE are oriented; those of a tensor that leaves the class, or ends, are not (R93). -/
def State.remark (s : State) (old new : Tensor) : State :=
  new.squares.foldl (fun s q => s.orient q) (old.squares.foldl (fun s q => s.disorient q) s)

/-! ## Where representations lie (R63, R98, R105, R106) -/

/-- The bytes can hold tensor storage: in HBM, or in the usable part of the carve-out (R96, R98). -/
def State.storage (s : State) (a n : Nat) : Bool :=
  decide (a + n ≤ hbmEnd) ||
  (decide (infieldBase ≤ a) && decide (a + n ≤ infieldBase + (s.pkg.carve - 16 * s.pkg.growing) * 0x100000))

/-- Where a run of frames may lie: anywhere, whole on one stack, or inside the stacks from `lo` up to `hi`. -/
inductive Spot where
  | any
  | one
  | stacks (lo hi : Nat)

/-- `n` bytes from `a` up lie where a spot allows. -/
def Spot.allows (p : Spot) (a n : Nat) : Bool :=
  match p with
  | .any => true
  | .one => inHbm a && decide (a / stackBytes = (a + n - 1) / stackBytes)
  | .stacks lo hi => decide (lo * stackBytes ≤ a) && decide (a + n ≤ hi * stackBytes)

/-- Where the search for a run begins, from frame `hint` up. -/
def Spot.hints (p : Spot) (hint : Nat) : List Nat :=
  match p with
  | .any => [hint * 65536]
  | .one => [hint * 65536, (hint * 65536 / stackBytes + 1) * stackBytes]
  | .stacks lo _ => [max (hint * 65536) (lo * stackBytes), lo * stackBytes]

/-- `n` frames of 64 KiB in one run, from a hint up, beside the ranges in use. -/
def State.takeRun (s : State) (used : List (Nat × Nat)) (hint n : Nat) (p : Spot) : Option (List Nat) :=
  if n = 0 then some []
  else (freeIn used (p.hints hint) (n * 65536) 65536 fun a => s.storage a (n * 65536) && p.allows a (n * 65536)).map fun a =>
    (List.range n).map (a / 65536 + ·)

/-- Several runs, one after the other, each beside those before it. -/
def State.takeRuns (s : State) (hint : Nat) : List (Nat × Spot) → List (Nat × Nat) → Option (List Nat)
  | [], _ => some []
  | (n, p) :: l, used =>
    match s.takeRun used hint n p with
    | none => none
    | some fs => (s.takeRuns hint l (fs.map (fun f => (f * 65536, 65536)) ++ used)).map fun gs => fs ++ gs

/-- The stack that holds every frame of a tensor; none where they lie apart, or outside HBM. -/
def Tensor.stack (t : Tensor) : Option Nat :=
  match t.frames with
  | [] => none
  | f :: l => if inHbm (f * 65536) ∧ l.all (fun g => decide (g * 65536 / stackBytes = f * 65536 / stackBytes)) then
      some (f * 65536 / stackBytes) else none

/-! ## Lines of tensor storage in a die L2 (R86, R91-R95) -/

/-- A line joins those that a die L2 holds; a column line of another element size replaces the one held (R94). -/
def putTens (l : List TensLine) (k : TensLine) : List TensLine :=
  k :: l.filter fun x => ¬ (x.job = k.job ∧ x.line = k.line ∧ decide (x.col = 0) = decide (k.col = 0))

/-- The home answers a read of a line of tensor storage at a timestamp: the line carries the pair, with its lease (R93, R123, R125). -/
def State.tensFill (s : State) (d T : Nat) (k : TensLine) : State :=
  let p := s.pairOf (k.line * 256)
  let rts := max p.rts (max T p.wts + s.lease k.job)
  ((s.setPair (k.line * 256) { p with rts := rts, owner := 0 }).modDie d fun x =>
    { x with tens := putTens x.tens { k with wts := p.wts, rts := rts } }).llcFill (k.line * 256) (decide (k.col ≠ 0))

/-- A compute die's streamers and engines read lines of tensor storage at a stamp: they fill the die L2, and the LLC in the orientation
of the request (R86, R93, R95). -/
def State.tensRead (s : State) (d T : Nat) (ks : List TensLine) : State :=
  if d < Config.computeDies then ks.foldl (fun s k => s.tensFill d T k) s else s

/-- Bytes of tensor storage are written in a square that the LLC holds: they merge into the stored sectors, and each sector changed is
dirty (R95). -/
def State.llcMerge (s : State) (pa n : Nat) : State :=
  match s.llcOf pa with
  | none => s
  | some q => { s with llc := s.llc.set none (pa / 1024) (some { q with dirty := q.dirty ||| q.touched pa n }) }

/-- A write of tensor storage, at some ranges of bytes: the LLC takes them where it holds their squares; the pairs of the units written
are stamped above their rts; an invalidation goes to every die that holds a column line that crosses; and the row lines written leave
the L2s (R94, R95). -/
def State.tensWritten (s : State) (rs : List (Nat × Nat)) : State :=
  let s := if s.llc.isEmpty then s else rs.foldl (fun (s : State) r => s.llcMerge r.1 r.2) s
  let s := ((rs.map fun r => s.unitOf r.1).eraseDups).foldl (fun (s : State) u =>
    let p := s.pairs.get Pair.dflt u
    { s with pairs := s.pairs.set Pair.dflt u { wts := p.rts + 1, rts := p.rts + 1, scope := 0, who := 0 } }) s
  let lines := (rs.map (·.1 / 256)).eraseDups
  let sqs := (lines.map (· / 4)).eraseDups
  let s := { s with invals := s.invals ++ s.dies.flatMap fun (e : Nat × Die) =>
    ((e.2.tens.filter fun (k : TensLine) => decide (k.col ≠ 0) && sqs.contains (k.line / 4)).map fun (k : TensLine) =>
      (e.1, k.line / 4)).eraseDups }
  { s with dies := s.dies.map fun (e : Nat × Die) =>
      (e.1, { e.2 with tens := e.2.tens.filter fun k => !(decide (k.col = 0) && lines.contains k.line) }) }

end Sys2Proof.Machine
end

