-- ==== Sys2Proof/Machine/Form.lean ====
section
/-! DEFINITION. Tensors as the representation manager keeps them: tags and geometry, the places of each form of storage, tables, the queue
of a handle, and re-representation (R44, R53-R55, R58, R62-R71, R92, R105, R106). -/
namespace Sys2Proof.Machine

/-! ## Tags (R55) -/

/-- The FMT code of a tag. -/
def tagCode : Tag → Nat
  | .f32 => 1 | .bf16 => 2 | .e4m3 => 3 | .e5m2 => 4 | .i8 => 5 | .i4 => 6 | .i32 => 7 | .px9 => 8 | .px6 => 9
  | .px4 => 10 | .mxfp4 => 11 | .dxe4m3 => 12 | .dxe5m2 => 13 | .sg3 => 16 | .sg5 => 17 | .sg7 => 18

/-- The tag of an FMT code. -/
def tagOf (n : Nat) : Option Tag :=
  [Tag.f32, .bf16, .e4m3, .e5m2, .i8, .i4, .i32, .px9, .px6, .px4, .mxfp4, .dxe4m3, .dxe5m2, .sg3, .sg5, .sg7].find?
    fun t => decide (tagCode t = n)

/-- Elements of one stored unit along a row: a PX block holds 16. -/
def unitCols : Tag → Nat
  | .px9 | .px6 | .px4 => 16
  | _ => 1

/-- Bits of one stored unit (R55); the unit of a stash image is a byte. -/
def unitBits : Tag → Nat
  | .f32 | .i32 => 32
  | .bf16 => 16
  | .i4 | .mxfp4 => 4
  | .px9 => 144
  | .px6 => 96
  | .px4 => 64
  | _ => 8

/-- Magnitude bits of a PX tag (R189). -/
def pxM : Tag → Nat
  | .px9 => 7
  | .px6 => 4
  | _ => 2

/-- The column rule of a tile (R343). -/
def tileRule : Tag → Nat
  | .px9 | .px6 | .px4 => 16
  | .mxfp4 => 32
  | _ => 1

/-- The grade of a stash tag. -/
def sgGrade : Tag → Option Grade
  | .sg3 => some .s3
  | .sg5 => some .s5
  | .sg7 => some .s7
  | _ => none

/-- A floating-point format with one code for each element. -/
def tagFloat : Tag → Option FFmt
  | .f32 => some fp32
  | .bf16 => some fpBf16
  | .e4m3 | .dxe4m3 => some fpE4m3
  | .e5m2 | .dxe5m2 => some fpE5m2
  | _ => none

/-- Width of an integer tag. -/
def tagInt : Tag → Option Nat
  | .i8 => some 8
  | .i4 => some 4
  | .i32 => some 32
  | _ => none

/-- F32, BF16, E4M3 or E5M2 (R351, R352). -/
def plainFloat : Tag → Bool
  | .f32 | .bf16 | .e4m3 | .e5m2 => true
  | _ => false

/-- The formats of TLDT (R348). -/
def elementTag : Tag → Bool
  | .f32 | .bf16 | .e4m3 | .e5m2 | .i8 | .i32 | .dxe4m3 | .dxe5m2 => true
  | _ => false

/-! ## Geometry (R46, R55, R58) -/

namespace Tensor
/-- Rows. -/
def rows (t : Tensor) : Nat := t.rowsM1 + 1
/-- Columns. -/
def cols (t : Tensor) : Nat := t.colsM1 + 1
/-- Pages. -/
def pages (t : Tensor) : Nat := t.pagesM1 + 1
/-- The tag; F32 for an entry that is free. -/
def tag (t : Tensor) : Tag := t.fmt.getD .f32
/-- Units of a row. -/
def upr (t : Tensor) : Nat := t.cols / unitCols t.tag
/-- The place of unit `u` of row `i` of page `p`. -/
def key (t : Tensor) (p i u : Nat) : Nat := (p * t.rows + i) * t.upr + u
/-- The element lies inside the geometry. -/
def inside (t : Tensor) (p i j : Nat) : Bool := decide (p < t.pages) && decide (i < t.rows) && decide (j < t.cols)
end Tensor

/-- The data bytes of a tensor (R55, R205). -/
def dataBytes (f : Tag) (rows cols pages : Nat) : Nat :=
  match sgGrade f with
  | some g => pages * stashPage (gradeBits g) (rows * cols)
  | none => pages * rows * (cols / unitCols f) * unitBits f / 8

/-- The data bytes of an entry. -/
def Tensor.bytes (t : Tensor) : Nat := dataBytes t.tag t.rows t.cols t.pages

/-- A tensor coordinate (R46). -/
structure Crd where
  p : Nat
  r : Nat
  c : Nat

/-- The fields of a coordinate register. -/
def crdOf (x : Word) : Crd := { p := fieldN x.toNat 0 16, r := fieldN x.toNat 40 24, c := fieldN x.toNat 16 24 }

/-- Rows of a tile. -/
def tileRows (sh : TShape) : Nat := 8 * (sh.r.toNat + 1)
/-- Columns of a tile. -/
def tileCols (sh : TShape) : Nat := 8 * (sh.c.toNat + 1)

/-- Bytes of a segment (R66). -/
def segBytes : Nat := 65536

/-- Data bytes of a row; a row of 4-bit elements ends in a whole byte. -/
def Tensor.rowBytes (t : Tensor) : Nat := (t.upr * unitBits t.tag + 7) / 8

/-! ### Places of a representation (R63, R65, R66, R92, R106)

The storage of a tensor is a list of rows: row `p * rows + i` is row `i` of page `p`; a stash image is one row. -/

/-- Rows of the storage. -/
def Tensor.strips (t : Tensor) : Nat := if (sgGrade t.tag).isSome then 1 else t.pages * t.rows
/-- Bytes of such a row. -/
def Tensor.stripBytes (t : Tensor) : Nat := if (sgGrade t.tag).isSome then t.bytes else t.rowBytes
/-- The row, and the byte in it, where a unit of the dense image lies. -/
def Tensor.unitPlace (t : Tensor) (k : Nat) : Nat × Nat :=
  if (sgGrade t.tag).isSome then (0, k) else (k / t.upr, k % t.upr * unitBits t.tag / 8)

/-- DRAM rows of 1 KiB that one row of a NEARROW tensor takes (R106). -/
def Tensor.nearBlocks (t : Tensor) : Nat := (t.stripBytes + 1023) / 1024
/-- Byte `b` of row `r` of a NEARROW tensor: its pseudo-channel, the DRAM row counted from the tensor's first in that channel, and the
byte in it. A row begins a DRAM row, and goes on in the following ones (R106). -/
def Tensor.nearPlace (t : Tensor) (r b : Nat) : Nat × Nat × Nat := (r % 64, r / 64 * t.nearBlocks + b / 1024, b % 1024)
/-- What stands at a byte of a DRAM row of a NEARROW tensor: the row of the tensor and the byte in it; none between the end of a
tensor row and the next DRAM row, where the bytes are zero (R106). -/
def Tensor.nearOwner (t : Tensor) (ch dr o : Nat) : Option (Nat × Nat) :=
  let r := dr / t.nearBlocks * 64 + ch
  let b := dr % t.nearBlocks * 1024 + o
  if r < t.strips ∧ b < t.stripBytes then some (r, b) else none

/-- Squares along a row of a SQUARE tensor (R92). -/
def Tensor.squareCols (t : Tensor) : Nat := (t.stripBytes + 31) / 32
/-- Rows of squares of a page. -/
def Tensor.squareRows (t : Tensor) : Nat := (t.rows + 31) / 32
/-- The square of byte `b` of row `r`: squares row by row of squares, page after page (R92; the order is the model's:
notes/assumptions/62.md). -/
def Tensor.squareAt (t : Tensor) (r b : Nat) : Nat := (r / t.rows * t.squareRows + r % t.rows / 32) * t.squareCols + b / 32
/-- The byte of a SQUARE tensor's storage that holds byte `b` of row `r`: 32 rows of 32 bytes in each square (R92). -/
def Tensor.squarePlace (t : Tensor) (r b : Nat) : Nat := t.squareAt r b * 1024 + r % t.rows % 32 * 32 + b % 32
/-- What stands at row `i`, byte column `c` of square `q` of a SQUARE tensor; none outside the geometry. -/
def Tensor.squareOwner (t : Tensor) (q i c : Nat) : Option (Nat × Nat) :=
  let g := q / t.squareCols
  let r := g % t.squareRows * 32 + i
  let b := q % t.squareCols * 32 + c
  if g / t.squareRows < t.pages ∧ r < t.rows ∧ b < t.stripBytes then some (g / t.squareRows * t.rows + r, b) else none
/-- The byte of a square in class SWZ where byte column `c` of row `i` lies: the 8-byte words of a row change places by the row's number
(XOR; which bits is the model's: DESIGN CHOICE, unsafe, notes/assumptions/62.md). -/
def swizzle (i c : Nat) : Nat := c ^^^ (i % 4 * 8)

/-- The offset in one copy of the storage that holds byte `b` of row `r`, in a form (R63). -/
def Tensor.placeIn (t : Tensor) (form r b : Nat) : Nat :=
  if form = 1 then t.squareAt r b * 1024 + r % t.rows % 32 * 32 + swizzle (r % t.rows % 32) (b % 32)
  else if form = 2 then t.squarePlace r b
  else if form = 7 then ((t.nearPlace r b).2.1 * 64 + (t.nearPlace r b).1) * 1024 + (t.nearPlace r b).2.2
  else r * t.stripBytes + b

/-- What stands at an offset of one copy: the row and the byte in it. -/
def Tensor.ownerIn (t : Tensor) (form o : Nat) : Option (Nat × Nat) :=
  if form = 1 then t.squareOwner (o / 1024) (o % 1024 / 32) (swizzle (o % 1024 / 32) (o % 32))
  else if form = 2 then t.squareOwner (o / 1024) (o % 1024 / 32) (o % 32)
  else if form = 7 then t.nearOwner (o / 1024 % 64) (o / 1024 / 64) (o % 1024)
  else if o / t.stripBytes < t.strips then some (o / t.stripBytes, o % t.stripBytes) else none

/-- Bytes of one copy of the storage in a form (R63, R71, R105, R106). -/
def Tensor.copyBytes (t : Tensor) (form : Nat) : Nat :=
  if form = 1 ∨ form = 2 then t.pages * t.squareRows * t.squareCols * 1024
  else if form = 7 then 64 * ((t.strips + 63) / 64) * t.nearBlocks * 1024
  else t.strips * t.stripBytes
/-- Segments of one copy (R66). -/
def Tensor.copySegs (t : Tensor) (form : Nat) : Nat := (t.copyBytes form + segBytes - 1) / segBytes

/-- The copy of a REPL tensor that serves the readers of a die: copy `d` lies on the stacks of compute die `d`, and a base die is served
by the copy on its own stack (R71). -/
def copyFor (d : Nat) : Nat :=
  if d < Config.computeDies then d
  else if Config.baseDie0 ≤ d ∧ d < Config.baseDie0 + 16 then (d - Config.baseDie0) / 2 else 0

/-- The physical address of byte `b` of row `r` as the streamers of die `d` find it. -/
def Tensor.physAt (t : Tensor) (d r b : Nat) : Nat :=
  let o := t.placeIn t.form r b
  let k := o / segBytes + (if t.cls = 4 then copyFor d * t.copySegs t.form else 0)
  t.frames.getD k 0 * segBytes + o % segBytes

/-! ### Rectangles and their segments (R66) -/

/-- The numbers from `a` up to `b`. -/
def upTo (a b : Nat) : List Nat := (List.range (b + 1 - a)).map (a + ·)

/-- The band of storage that a row lies in: the row itself, a row of squares, or 64 rows of NEARROW. -/
def Tensor.band (t : Tensor) (form r : Nat) : Nat :=
  if form = 1 ∨ form = 2 then r / t.rows * t.squareRows + r % t.rows / 32 else if form = 7 then r / 64 else r
/-- The first and the last byte of a band's storage that hold bytes [lo, hi) of its rows. -/
def Tensor.bandSpan (t : Tensor) (form g lo hi : Nat) : Nat × Nat :=
  if form = 1 ∨ form = 2 then ((g * t.squareCols + lo / 32) * 1024, (g * t.squareCols + (hi - 1) / 32) * 1024 + 1023)
  else if form = 7 then ((g * t.nearBlocks + lo / 1024) * 65536, (g * t.nearBlocks + (hi - 1) / 1024) * 65536 + 65535)
  else (g * t.stripBytes + lo, g * t.stripBytes + hi - 1)
/-- The segments of a rectangle in a form. -/
def Tensor.extSegs (t : Tensor) (form : Nat) (e : Ext) : List Nat :=
  if e.n = 0 ∨ e.hi ≤ e.lo then []
  else
    let g0 := t.band form e.row
    let g1 := t.band form (e.row + e.n - 1)
    if e.lo = 0 ∧ e.hi = t.stripBytes then
      upTo ((t.bandSpan form g0 e.lo e.hi).1 / segBytes) ((t.bandSpan form g1 e.lo e.hi).2 / segBytes)
    else (upTo g0 g1).flatMap fun g => upTo ((t.bandSpan form g e.lo e.hi).1 / segBytes) ((t.bandSpan form g e.lo e.hi).2 / segBytes)
/-- The segments of some rectangles in a form, each once. -/
def Tensor.segsIn (t : Tensor) (form : Nat) (es : List Ext) : List Nat := (es.flatMap (t.extSegs form)).eraseDups
/-- The segments of some rectangles in the representation that the tensor has. -/
def Tensor.segs (t : Tensor) (es : List Ext) : List Nat := t.segsIn t.form es

/-- The rectangle of a region of a tensor: the part that lies inside its geometry (notes/assumptions/14.md). -/
def Tensor.regionExt (t : Tensor) (p r nr c nc : Nat) : List Ext :=
  let w := unitBits t.tag
  let hi := min (c + nc) t.cols
  if t.pages ≤ p ∨ hi ≤ c ∨ t.rows ≤ r then []
  else [{ row := p * t.rows + r, n := min nr (t.rows - r), lo := c / unitCols t.tag * w / 8,
          hi := ((hi + unitCols t.tag - 1) / unitCols t.tag * w + 7) / 8 }]

/-- The whole tensor. -/
def Tensor.allExt (t : Tensor) : List Ext := [{ row := 0, n := t.strips, lo := 0, hi := t.stripBytes }]

/-- The rectangles of units [lo, hi) of the dense image: the end of a row, whole rows, the beginning of a row. -/
def Tensor.unitExt (t : Tensor) (lo hi : Nat) : List Ext :=
  if hi ≤ lo then []
  else
    let a := t.unitPlace lo
    let b := t.unitPlace (hi - 1)
    let e := b.2 + (unitBits t.tag + 7) / 8
    if a.1 = b.1 then [{ row := a.1, n := 1, lo := a.2, hi := e }]
    else [{ row := a.1, n := 1, lo := a.2, hi := t.stripBytes }, { row := a.1 + 1, n := b.1 - a.1 - 1, lo := 0, hi := t.stripBytes },
          { row := b.1, n := 1, lo := 0, hi := e }]

/-! ## Tables -/

/-- An entry of a job's tensor table. -/
def State.tensor (s : State) (j i : Nat) : Tensor :=
  match s.job j with
  | none => Tensor.dflt
  | some x => x.tensors.get Tensor.dflt i

/-- Changes an entry of a job's tensor table. -/
def State.modTensor (s : State) (j i : Nat) (f : Tensor → Tensor) : State :=
  s.modJob j fun x => { x with tensors := x.tensors.set Tensor.dflt i (f (x.tensors.get Tensor.dflt i)) }

/-- The handle of an entry (R44). -/
def handleNo (i gen : Nat) : Nat := i * 65536 + gen

/-- The entry a handle names, where it is not stale (R44). -/
def State.liveTensor (s : State) (j h : Nat) : Option Tensor :=
  let t := s.tensor j (h / 65536)
  if h % 65536 ≠ 0 ∧ t.gen = h % 65536 ∧ t.st ≠ 0 ∧ t.st ≠ 3 then some t else none

/-- Two maps in one, the first before the second: by the sum of their lengths. -/
def unionMap {α : Type} : Nat → SMap α → SMap α → SMap α
  | 0, _, b => b
  | _ + 1, [], b => b
  | _ + 1, a, [] => a
  | fuel + 1, (i, x) :: a, (k, y) :: b =>
    if i < k then (i, x) :: unionMap fuel a ((k, y) :: b)
    else if i = k then (i, x) :: unionMap fuel a b
    else (k, y) :: unionMap fuel ((i, x) :: a) b

/-- The union of two maps, the first before the second. -/
def union {α : Type} (a b : SMap α) : SMap α := unionMap (a.length + b.length) a b

/-- The tensor's codes lie in its alias (R68). -/
def Tensor.plain (t : Tensor) : Bool := t.caps.testBit 17

/-- The virtual byte address, and the bit in it, of a unit of a PLAIN tensor. -/
def Tensor.aliasVa (t : Tensor) (k : Nat) : Nat := t.aliasAt + k * unitBits t.tag / 8

/-! ## The queue of a handle (R64, R66, R67, R143, R144, R147) -/

/-- A kind that writes. -/
def OpKind.writes : OpKind → Bool
  | .reader => false
  | _ => true

/-- An operation counts in PENDW: a writer, a reduce-store, a TFREE, and a TWIDEN stamped after an earlier widening, until its own turn
(R53, R62, R70, R155). -/
def HOp.counted (o : HOp) : Bool :=
  match o.kind with
  | .reader => false
  | .widen => o.parked
  | _ => true

/-- PENDW: the writers stamped and not yet published (R53). -/
def Tensor.pendw (t : Tensor) : Nat := (t.ops.filter HOp.counted).length

/-- The next stamp of an entry for an agent at a PTS (R64). -/
def Tensor.nextStamp (t : Tensor) (pts : Nat) : Nat := max pts (t.hlast + 1)

/-- An operation that takes its stamp while a re-representation is in progress parks where R67, step 3, says so. -/
def Tensor.parksNew (t : Tensor) (k : OpKind) (caps : Nat) : Bool :=
  match t.rerep with
  | none => false
  | some r => k.writes || t.ops.any (fun o => o.parked) || decide (caps &&& r.add ≠ 0)

/-- The form of the representation that an operation which parks now will use: that of the last widening stamped, or of the
re-representation in progress (R67, R155). -/
def Tensor.nextForm (t : Tensor) : Nat :=
  match t.ops.reverse.findSome? fun o => o.home with
  | some h => h.form
  | none => (t.rerep.map (·.home.form)).getD t.form

/-- The segments of an operation that takes its stamp now (R66). -/
def Tensor.newSegs (t : Tensor) (k : OpKind) (caps : Nat) (es : List Ext) : List Nat :=
  t.segsIn (if t.parksNew k caps then t.nextForm else t.form) es

/-- Queues an operation with its stamp. -/
def Tensor.queue (t : Tensor) (T tid : Nat) (k : OpKind) (es : List Ext) (caps : Nat) : Tensor :=
  { t with hlast := T,
           ops := t.ops ++ [{ stamp := T, tid := tid, kind := k, exts := es, segs := t.newSegs k caps es, caps := caps,
                              parked := t.parksNew k caps, shadow := 0, home := none }] }

/-- Shadow segments of a job in use (R66). -/
def Job.shadowsUsed (x : Job) : Nat := x.tensors.foldl (fun n e => e.2.ops.foldl (fun n o => n + o.shadow) n) 0

/-- Shadow segments of a job in use. -/
def State.shadowsUsed (s : State) (j : Nat) : Nat := match s.job j with | none => 0 | some x => x.shadowsUsed

/-- Shadow segments of the job's pool. -/
def State.poolSegs (s : State) (j : Nat) : Nat := match s.job j with | none => 0 | some x => x.shadowPool / segBytes

/-- Two lists of segments meet. -/
def segsMeet (a b : List Nat) : Bool := a.any fun x => b.contains x

/-- An operation must wait: it is parked, or an earlier writer of one of its segments has not published; a reduce-store waits for
earlier readers too (R67, R143, R144, R147). -/
def Tensor.blocked (t : Tensor) (o : HOp) : Bool :=
  o.parked || t.ops.any fun q =>
    decide (q.stamp < o.stamp) && segsMeet q.segs o.segs &&
      (decide (q.kind = .writer) || decide (q.kind = .adder) || (decide (q.kind = .reader) && decide (o.kind = .adder)))

/-- The queued operation with a stamp. -/
def Tensor.opAt (t : Tensor) (T : Nat) : Option HOp := t.ops.find? fun o => decide (o.stamp = T)

/-- Changes the queued operation with a stamp. -/
def Tensor.modOp (t : Tensor) (T : Nat) (f : HOp → HOp) : Tensor :=
  { t with ops := t.ops.map fun o => if o.stamp = T then f o else o }

/-- The operation with a stamp retires. -/
def Tensor.retire (t : Tensor) (T : Nat) : Tensor := ({ t with ops := t.ops.filter fun o => decide (o.stamp ≠ T) } : Tensor).prune

/-- A tensor that TFREE has retired becomes free once nothing is queued on it (R62). -/
def Tensor.settle (t : Tensor) : Tensor :=
  if t.st = 3 ∧ t.ops.all (fun o => decide (o.kind = .free)) then
    { Tensor.dflt with gen := t.gen, hlast := t.hlast }
  else t

/-- An entry that TFREE has retired becomes free, and its memory returns to the job: its frames, its squares, its alias, whose pages go
under a shootdown; it waits while another change of the mapping is under way (R43, R62, R68, R93). -/
def State.settleTensor (s : State) (j i : Nat) : State :=
  let t := s.tensor j i
  let u := t.settle
  if u = t ∨ (t.plain ∧ s.changing j) then s
  else
    let s := (s.modTensor j i fun _ => u).remark t u
    if t.plain then s.unmapAlias j t.aliasAt t.bytes else s

/-- The same where replies come at once. -/
def State.settleIf (s : State) (j i : Nat) : State := if s.prompt then s.settleTensor j i else s

/-! ## Classes and places (R63, R66, R71, R105, R106) -/

/-- The classes that a mask permits a tensor (R63). -/
def classOk (f : Tag) (caps cls : Nat) : Bool :=
  if (sgGrade f).isSome then decide (cls = 6)
  else if caps.testBit 17 then decide (cls = 0)
  else match cls with
    | 0 | 1 | 2 | 5 => true
    | 3 => caps.testBit 13
    | 4 => caps.testBit 16
    | 7 => caps.testBit 12
    | _ => false

/-- A class a mask permits: the one asked for, else the only one of a stash image, else ROWMAJ. -/
def classFor (f : Tag) (caps cls : Nat) : Nat :=
  if classOk f caps cls then cls else if (sgGrade f).isSome then 6 else 0

/-- The form of the storage in a class: for REPL and SLICE the one asked for, where the mask permits it, else ROWMAJ (R63). -/
def formFor (caps cls form : Nat) : Nat :=
  if cls = 4 ∨ cls = 5 then (if form = 1 ∨ form = 2 ∨ (form = 3 ∧ caps.testBit 13) then form else 0) else cls

/-- Segments that a job's stash images hold (R105). -/
def Job.stashUsed (x : Job) : Nat :=
  x.tensors.foldl (fun n e => if e.2.st ≠ 0 ∧ e.2.cls = 6 then n + e.2.frames.length else n) 0

/-- The runs of frames of a representation with `m` segments in a class: one for each die's copy of a REPL tensor, on the stacks of that
die; a SLICE tensor's parts on up to sixteen stacks in turn; a stash image and NEARROW whole on one stack (R63, R71, R105, R106). -/
def runsFor (cls m : Nat) (stack : Option Nat) : List (Nat × Spot) :=
  match cls with
  | 4 => (List.range 8).map fun d => (m, .stacks (2 * d) (2 * d + 2))
  | 5 => (List.range (min 16 m)).map fun q => (m * (q + 1) / min 16 m - m * q / min 16 m, .stacks q (q + 1))
  | 6 => [(m, .one)]
  | 7 => [(m, match stack with | some k => .stacks k (k + 1) | none => .one)]
  | _ => [(m, .any)]

/-- A place for a representation in a class and a form, from frame `hint` up, with its segment map; none where it does not fit. A PLAIN
tensor lies in the frames of its alias; a stash image keeps to the job's stash pool (R53, R63, R66, R68, R105). -/
def State.placeTensor (s : State) (j : Nat) (t : Tensor) (cls form hint : Nat) (stack : Option Nat) : Option Home :=
  let m := if t.plain then 0 else t.copySegs form
  let room : Bool := match s.job j with | none => false | some x => decide ((x.stashUsed + m) * segBytes ≤ x.stashPool)
  if cls = 6 ∧ room = false then none
  else
    let used := s.occupied
    match s.takeRuns hint (runsFor cls m stack) used with
    | none => none
    | some fs =>
      (s.takeRun (fs.map (fun f => (f * segBytes, segBytes)) ++ used) (max 1 hint) (max 1 ((8 * fs.length + segBytes - 1) / segBytes)) .any).map
        fun g => { cls := cls, form := form, frames := fs, map := g.headD 0 * segBytes }

/-- The tensor lies at a place: CLASS, LAYOUT and SEGMAP say so. LAYOUT holds the form, and above it the segments of one copy (R53;
notes/assumptions/62.md). -/
def Tensor.putAt (t : Tensor) (h : Home) : Tensor :=
  { t with cls := h.cls, layout := h.form + 16 * t.copySegs h.form, segmap := h.map, frames := h.frames }

/-! ## Re-representation (R67, R70, R155) -/

/-- The operations queued above `tc` are sorted as R67, step 3, says. -/
def sortParked (tc add : Nat) : Bool → List HOp → List HOp
  | _, [] => []
  | b, o :: l =>
    let p := decide (tc < o.stamp) && (b || o.kind.writes || decide (o.caps &&& add ≠ 0))
    { o with parked := o.parked || p } :: sortParked tc add (b || p) l

/-- A re-representation starts at its stamp `tc`, adding the bits `add`, into the place reserved for it. -/
def Tensor.startRerep (t : Tensor) (tc add : Nat) (h : Home) : Tensor :=
  { t with st := if t.st = 3 then 3 else 2, caps := t.caps ||| add,
           rerep := some { tc := tc, add := add, home := h, ready := false },
           ops := sortParked tc add false t.ops }

/-- The next widening whose turn has come starts: one that adds bits, and that is not parked. No slot has to ask for it, so a widening that
has its stamp completes (R70). -/
def Tensor.startNext (t : Tensor) : Tensor :=
  match t.rerep, t.ops.find? fun o => decide (o.kind = .widen) && decide (o.caps ≠ 0) && !o.parked with
  | none, some o =>
    match o.home with
    | none => t
    | some h => (t.modOp o.stamp fun o => { o with home := none }).startRerep o.stamp o.caps h
  | _, _ => t

/-- The converter takes its snapshot once no writer stamped below `tc` is left (R67, step 2). -/
def Tensor.snapshot (t : Tensor) : Tensor :=
  match t.rerep with
  | none => t
  | some r =>
    if t.ops.any fun o => decide (o.stamp < r.tc) && (decide (o.kind = .writer) || decide (o.kind = .adder)) then t
    else { t with rerep := some { r with ready := true } }

/-- Parked operations resume in the logical order. Behind a widening that adds bits they are sorted as R67, step 3, says of it; one that
adds none has nothing to convert (R67, step 5, R70). -/
def unpark : List HOp → List HOp
  | [] => []
  | o :: l => { o with parked := false } :: (if o.kind = .widen ∧ o.caps ≠ 0 then
      sortParked o.stamp o.caps false (l.map fun q => { q with parked := false }) else unpark l)

/-- The rectangles of a segment of a form, byte by byte. -/
def Tensor.segExt (t : Tensor) (form g : Nat) : List Ext :=
  (List.range segBytes).filterMap fun i =>
    (t.ownerIn form (g * segBytes + i)).map fun x => { row := x.1, n := 1, lo := x.2, hi := x.2 + 1 }

/-- The old representation, which its frames keep while readers that it serves are queued (R67). -/
def Tensor.oldRep (t : Tensor) : OldRep :=
  { users := (t.ops.filter fun o => decide (o.kind = .reader) && !o.parked).map (·.stamp), frames := t.ownFrames }

/-- The publish of the new representation at Tp = HLAST + 1: every operation uses it from there on, its segments are those of the new form, a
poisoned segment poisons those that take its bytes, and the next widening starts (R67, steps 4 and 5, R70, R72). -/
def Tensor.publishRerep (t : Tensor) : Tensor :=
  match t.rerep with
  | none => t
  | some r =>
    if r.ready then
      let u := ({ t with st := if t.st = 3 then 3 else 1, hlast := t.hlast + 1, rerep := none, olds := t.olds ++ [t.oldRep] } : Tensor).putAt
        r.home
      let lost := t.poison.flatMap fun g => u.segs (t.segExt t.form g)
      let ops := unpark (t.ops.filter fun o => ¬ (o.kind = .widen ∧ o.stamp = r.tc))
      ({ u with poison := lost.eraseDups, ops := ops.map fun o => { o with segs := u.segs o.exts } } : Tensor).startNext.prune
    else t

/-- The same in the job's table: its squares are marked, or no longer (R93). -/
def State.publishRerep (s : State) (j i : Nat) : State :=
  let t := s.tensor j i
  (s.modTensor j i Tensor.publishRerep).remark t t.publishRerep

/-- The converter finishes every re-representation that it can: where replies come at once, it does so when an operation has to wait for
one. -/
def State.convert (s : State) (j i : Nat) : Nat → State
  | 0 => s
  | fuel + 1 =>
    if (s.tensor j i).rerep.isSome then
      (((s.modTensor j i Tensor.snapshot).publishRerep j i).settleTensor j i).convert j i fuel
    else s

/-- The same for every entry that a thread's operations are queued on. -/
def State.convertOwn (s : State) (t : Nat) : State :=
  match s.job (s.jobOf t) with
  | none => s
  | some x => (x.tensors.filter fun e => e.2.ops.any fun o => decide (o.tid = t)).foldl
      (fun (s : State) e => s.convert (s.jobOf t) e.1 (e.2.ops.length + 1)) s

/-- A re-representation of the manager's own: one stamp Tc = HLAST + 1, and a place for the new form; none where it does not fit or
where another has not ended (R63, R67). -/
def State.moveTensor (s : State) (j i cls form hint : Nat) (stack : Option Nat) : Option State :=
  let t := s.tensor j i
  if t.st = 1 ∧ t.rerep.isNone ∧ t.ops.all (fun o => decide (o.kind ≠ .widen)) ∧ t.plain = false ∧ classOk t.tag t.caps cls then
    (s.placeTensor j t cls (formFor t.caps cls form) hint stack).map fun h =>
      s.modTensor j i fun t => ({ t with hlast := t.hlast + 1 } : Tensor).startRerep (t.hlast + 1) 0 h
  else none

end Sys2Proof.Machine
end

