-- ==== Sys2Proof/Decode.lean ====
section
/-! DEFINITION. The words of Cheith (R209-R226, R427): the formats, a decoder that is total and refuses by cause and
XVALUE, and the encoder. -/
namespace Sys2Proof.Dec

/-! ## Bits -/

/-- Bit `i` of a word. -/
def bit {n : Nat} (w : BitVec n) (i : Nat) : Bool := w.getLsbD i

/-- Bits `lo + n - 1 : lo` of a word. -/
def bits {m : Nat} (w : BitVec m) (lo n : Nat) : BitVec n := w.extractLsb' lo n

/-! ## The formats (R214-R218) -/

/-- Format A (R214). -/
structure FA where
  d    : BitVec 8 := 0
  a    : BitVec 8 := 0
  wa   : Bool := false
  b    : BitVec 8 := 0
  wb   : Bool := false
  perm : BitVec 12 := 0
  k    : BitVec 3 := 0
  ty   : BitVec 3 := 0
  fn   : BitVec 12 := 0
  deriving DecidableEq, Repr

/-- Format I (R215). -/
structure FI where
  d   : BitVec 8 := 0
  a   : BitVec 8 := 0
  wa  : Bool := false
  ty  : BitVec 3 := 0
  sub : BitVec 4 := 0
  imm : BitVec 32 := 0
  deriving DecidableEq, Repr

/-- Format M (R216). -/
structure FM where
  v     : BitVec 8 := 0
  a     : BitVec 8 := 0
  wa    : Bool := false
  sz    : BitVec 3 := 0
  sp    : Bool := false
  scope : BitVec 2 := 0
  keep  : Bool := false
  off   : BitVec 32 := 0
  deriving DecidableEq, Repr

/-- Format B (R217). -/
structure FB where
  a    : BitVec 8 := 0
  b    : BitVec 8 := 0
  wa   : Bool := false
  cond : BitVec 4 := 0
  off  : BitVec 35 := 0
  deriving DecidableEq, Repr

/-- Format T (R218). -/
structure FT where
  h     : BitVec 8 := 0
  c     : BitVec 8 := 0
  l     : BitVec 8 := 0
  n     : BitVec 8 := 0
  shape : BitVec 12 := 0
  fn    : BitVec 12 := 0
  deriving DecidableEq, Repr

/-- The fields of a word of format A (R214). -/
def partsA (w : Word) : FA :=
  { d := bits w 48 8, a := bits w 40 8, wa := bit w 39, b := bits w 31 8, wb := bit w 30, perm := bits w 18 12,
    k := bits w 15 3, ty := bits w 12 3, fn := bits w 0 12 }

/-- The fields of a word of format I (R215). -/
def partsI (w : Word) : FI :=
  { d := bits w 48 8, a := bits w 40 8, wa := bit w 39, ty := bits w 36 3, sub := bits w 32 4, imm := bits w 0 32 }

/-- The fields of a word of format M (R216). -/
def partsM (w : Word) : FM :=
  { v := bits w 48 8, a := bits w 40 8, wa := bit w 39, sz := bits w 36 3, sp := bit w 35, scope := bits w 33 2,
    keep := bit w 32, off := bits w 0 32 }

/-- The fields of a word of format B (R217). -/
def partsB (w : Word) : FB :=
  { a := bits w 48 8, b := bits w 40 8, wa := bit w 39, cond := bits w 35 4, off := bits w 0 35 }

/-- The fields of a word of format T (R218). -/
def partsT (w : Word) : FT :=
  { h := bits w 48 8, c := bits w 40 8, l := bits w 32 8, n := bits w 24 8, shape := bits w 12 12, fn := bits w 0 12 }

/-- The word of opcode `op` with the fields of format A. -/
def packA (op : BitVec 8) (f : FA) : Word :=
  op ++ f.d ++ f.a ++ BitVec.ofBool f.wa ++ f.b ++ BitVec.ofBool f.wb ++ f.perm ++ f.k ++ f.ty ++ f.fn

/-- The word of opcode `op` with the fields of format I. -/
def packI (op : BitVec 8) (f : FI) : Word :=
  op ++ f.d ++ f.a ++ BitVec.ofBool f.wa ++ f.ty ++ f.sub ++ f.imm

/-- The word of opcode `op` with the fields of format M. -/
def packM (op : BitVec 8) (f : FM) : Word :=
  op ++ f.v ++ f.a ++ BitVec.ofBool f.wa ++ f.sz ++ BitVec.ofBool f.sp ++ f.scope ++ BitVec.ofBool f.keep ++ f.off

/-- The word of opcode `op` with the fields of format B. -/
def packB (op : BitVec 8) (f : FB) : Word :=
  op ++ f.a ++ f.b ++ BitVec.ofBool f.wa ++ f.cond ++ f.off

/-- The word of opcode `op` with the fields of format T. -/
def packT (op : BitVec 8) (f : FT) : Word :=
  op ++ f.h ++ f.c ++ f.l ++ f.n ++ f.shape ++ f.fn

/-- The literal word that holds the low 60 bits of a value (R219). -/
def packX (x : Word) : Word := (0xE : BitVec 4) ++ bits x 0 60

/-! ## Refusals (R226, R427) -/

/-- A refused word: the trap cause and its XVALUE. -/
structure Illegal where
  cause  : BitVec 8
  xvalue : Word
  deriving DecidableEq, Repr

/-- Trap 0x01 with subcause SUB and FIELD (R226). -/
def illegal (sub field : Nat) : Illegal := { cause := 0x01, xvalue := BitVec.ofNat 64 (field * 256 + sub) }

/-- Trap 0x09 with its reason (R331, R361). -/
def badShape (reason : Nat) : Illegal := { cause := 0x09, xvalue := BitVec.ofNat 64 reason }

/-- The result of decoding. -/
abbrev R (α : Type) := Except Illegal α

/-- A check of the word: trap 0x01 with SUB and FIELD where it fails. -/
def need (ok : Bool) (sub field : Nat) : R Unit := if ok then .ok () else .error (illegal sub field)

/-- A reserved field must be zero (R220). -/
def zero {n : Nat} (x : BitVec n) (field : Nat) : R Unit := need (x == 0) 3 field

/-- An unused W bit or hint must be zero (R220). -/
def zeroBit (b : Bool) (field : Nat) : R Unit := need (!b) 3 field

/-- A field whose class is not allowed (R221): SUB 0x04. -/
def cls {α : Type} (o : Option α) (field : Nat) : R α :=
  match o with
  | some x => .ok x
  | none => .error (illegal 4 field)

/-- A field whose value is not assigned: SUB 0x05. -/
def modv {α : Type} (o : Option α) (field : Nat) : R α :=
  match o with
  | some x => .ok x
  | none => .error (illegal 5 field)

/-- A format or shape that is refused: trap 0x09. -/
def shp {α : Type} (o : Option α) (reason : Nat) : R α :=
  match o with
  | some x => .ok x
  | none => .error (badShape reason)

/-! ## Register specifiers (R221); `far` is a far slot, which may not name s0-s63 -/

/-- A g, s or m register. -/
def toSReg (far : Bool) (b : BitVec 8) : Option SReg :=
  if b.toNat < 0x20 then some (.g (bits b 0 5))
  else if 0x40 ≤ b.toNat && b.toNat < 0x80 && !far then some (.s (bits b 0 6))
  else if 0x80 ≤ b.toNat && b.toNat < 0x88 then some (.m (bits b 0 3))
  else none

/-- A g, s, m or q register with its W bit. -/
def toSrc (far : Bool) (b : BitVec 8) (w : Bool) : Option Src :=
  if b.toNat < 0x20 then some (.g (bits b 0 5))
  else if 0x38 ≤ b.toNat && b.toNat < 0x40 then some (.q (bits b 0 3))
  else if 0x40 ≤ b.toNat && b.toNat < 0x80 && !far then some (.s (bits b 0 6) w)
  else if 0x80 ≤ b.toNat && b.toNat < 0x88 then some (.m (bits b 0 3) w)
  else none

/-- A g, s or m register with its W bit. -/
def toBase (far : Bool) (b : BitVec 8) (w : Bool) : Option Src :=
  match toSrc far b w with
  | some (.q _) => none
  | o => o

/-- An s or m register. -/
def toSM (far : Bool) (b : BitVec 8) : Option SReg :=
  match toSReg far b with
  | some (.g _) => none
  | o => o

/-- A g register. -/
def toG (b : BitVec 8) : Option (BitVec 5) := if b.toNat < 0x20 then some (bits b 0 5) else none

/-- One of g1-g31. -/
def toG1 (b : BitVec 8) : Option (BitVec 5) :=
  if 0 < b.toNat && b.toNat < 0x20 then some (bits b 0 5) else none

/-- An even g register. -/
def toGE (b : BitVec 8) : Option (BitVec 5) :=
  if b.toNat < 0x20 && !bit b 0 then some (bits b 0 5) else none

/-- A v register. -/
def toV (b : BitVec 8) : Option (BitVec 4) :=
  if 0x20 ≤ b.toNat && b.toNat < 0x30 then some (bits b 0 4) else none

/-- A k register. -/
def toK (b : BitVec 8) : Option (BitVec 3) :=
  if 0x30 ≤ b.toNat && b.toNat < 0x38 then some (bits b 0 3) else none

/-- A q register. -/
def toQ (b : BitVec 8) : Option (BitVec 3) :=
  if 0x38 ≤ b.toNat && b.toNat < 0x40 then some (bits b 0 3) else none

/-- An accumulator slot. -/
def toA (b : BitVec 8) : Option (BitVec 4) :=
  if 0x88 ≤ b.toNat && b.toNat < 0x98 then some (bits (b - 0x88) 0 4) else none

/-- A counter. -/
def toC (b : BitVec 8) : Option (BitVec 5) :=
  if 0x98 ≤ b.toNat && b.toNat < 0xB8 then some (bits (b - 0x98) 0 5) else none

/-- A counter, or 0x00 for none (R218). -/
def toCZ (b : BitVec 8) : Option (Option (BitVec 5)) :=
  if b == 0 then some none
  else match toC b with
    | some c => some (some c)
    | none => none

/-- A g, s, m or q register, or a v register, of the B field; the permutation is checked later. -/
def toVB (far : Bool) (b : BitVec 8) (w : Bool) : Option (BitVec 4 ⊕ Src) :=
  match toV b with
  | some v => some (.inl v)
  | none => match toSrc far b w with
    | some s => some (.inr s)
    | none => none

/-- A W bit is legal on an s or m register only (R118, R222). -/
def syncOk (b : BitVec 8) (w : Bool) : Bool := !w || (0x40 ≤ b.toNat && b.toNat < 0x88)

/-- Step 6 of R226 for a word whose A and B may be synchronised reads. -/
def syncAB (f : FA) : R Unit := do
  need (syncOk f.a f.wa) 0x0A 39
  need (syncOk f.b f.wb && !(f.wa && f.wb && f.a == f.b)) 0x0A 30

/-- Step 6 of R226 for a word whose A may be a synchronised read. -/
def syncA (a : BitVec 8) (wa : Bool) : R Unit := need (syncOk a wa) 0x0A 39

/-- The specifier of a g, s or m register. -/
def ofSReg : SReg → BitVec 8
  | .g n => (0 : BitVec 3) ++ n
  | .s n => (1 : BitVec 2) ++ n
  | .m n => (0x10 : BitVec 5) ++ n

/-- The specifier of a source. -/
def ofSrc : Src → BitVec 8
  | .g n => (0 : BitVec 3) ++ n
  | .s n _ => (1 : BitVec 2) ++ n
  | .m n _ => (0x10 : BitVec 5) ++ n
  | .q n => (0x7 : BitVec 5) ++ n

/-- The W bit of a source. -/
def wOf : Src → Bool
  | .s _ w => w
  | .m _ w => w
  | _ => false

/-- The specifier of a g register. -/
def ofG (n : BitVec 5) : BitVec 8 := (0 : BitVec 3) ++ n
/-- The specifier of a v register. -/
def ofV (n : BitVec 4) : BitVec 8 := (0x2 : BitVec 4) ++ n
/-- The specifier of a k register. -/
def ofK (n : BitVec 3) : BitVec 8 := (0x6 : BitVec 5) ++ n
/-- The specifier of a q register. -/
def ofQ (n : BitVec 3) : BitVec 8 := (0x7 : BitVec 5) ++ n
/-- The specifier of an accumulator slot. -/
def ofA (n : BitVec 4) : BitVec 8 := 0x88 + n.setWidth 8
/-- The specifier of a counter. -/
def ofC (n : BitVec 5) : BitVec 8 := 0x98 + n.setWidth 8
/-- The specifier of a counter or none. -/
def ofCZ : Option (BitVec 5) → BitVec 8
  | none => 0
  | some c => ofC c

/-! ## Modifier fields -/

/-- TY (R224). -/
def toTy (b : BitVec 3) : Ty :=
  match b.toNat with
  | 0 => .i32 | 1 => .n32 | 2 => .f32 | 3 => .bf16 | 4 => .i16 | 5 => .i8 | 6 => .e4m3 | _ => .e5m2

/-- The TY code of a type (R224). -/
def ofTy : Ty → BitVec 3
  | .i32 => 0 | .n32 => 1 | .f32 => 2 | .bf16 => 3 | .i16 => 4 | .i8 => 5 | .e4m3 => 6 | .e5m2 => 7

/-- RM (R197): 101-111 are refused. -/
def toRM (b : BitVec 3) : Option RMode :=
  match b.toNat with
  | 0 => some .rne | 1 => some .rtz | 2 => some .rdn | 3 => some .rup | 4 => some .srh | _ => none

/-- The code of a rounding mode (R197). -/
def ofRM : RMode → BitVec 3
  | .rne => 0 | .rtz => 1 | .rdn => 2 | .rup => 3 | .srh => 4

/-- COND (R217): 8-15 are reserved. -/
def toCond (b : BitVec 4) : Option Cond :=
  match b.toNat with
  | 0 => some .eq | 1 => some .ne | 2 => some .lt | 3 => some .ge | 4 => some .ltn | 5 => some .gen
  | 6 => some .any | 7 => some .none | _ => none

/-- The code of a branch condition. -/
def ofCond : Cond → BitVec 4
  | .eq => 0 | .ne => 1 | .lt => 2 | .ge => 3 | .ltn => 4 | .gen => 5 | .any => 6 | .none => 7

/-- The condition of VCMP (R301). -/
def toVCond (b : BitVec 3) : VCond :=
  match b.toNat with
  | 0 => .eq | 1 => .ne | 2 => .lt | 3 => .le | 4 => .gt | 5 => .ge | 6 => .un | _ => .ord

/-- The code of a lane condition. -/
def ofVCond : VCond → BitVec 3
  | .eq => 0 | .ne => 1 | .lt => 2 | .le => 3 | .gt => 4 | .ge => 5 | .un => 6 | .ord => 7

/-- The operation of VRED (R305): 6 and 7 are refused. -/
def toRed (b : BitVec 3) : Option RedOp :=
  match b.toNat with
  | 0 => some .add | 1 => some .min | 2 => some .max | 3 => some .and | 4 => some .or | 5 => some .xor | _ => none

/-- The code of a reduction. -/
def ofRed : RedOp → BitVec 3
  | .add => 0 | .min => 1 | .max => 2 | .and => 3 | .or => 4 | .xor => 5

/-- SZ of a scalar load (R216): 111 is not accepted. -/
def toSize (b : BitVec 3) : Option Size :=
  match b.toNat with
  | 0 => some .n8 | 1 => some .n16 | 2 => some .n32 | 3 => some .n64 | 4 => some .i8 | 5 => some .i16
  | 6 => some .i32 | _ => none

/-- SZ of a scalar store (R264): 000-011. -/
def toStSize (b : BitVec 3) : Option Size :=
  match b.toNat with
  | 0 => some .n8 | 1 => some .n16 | 2 => some .n32 | 3 => some .n64 | _ => none

/-- The SZ code of a size. -/
def ofSize : Size → BitVec 3
  | .n8 => 0 | .n16 => 1 | .n32 => 2 | .n64 => 3 | .i8 => 4 | .i16 => 5 | .i32 => 6

/-- SCOPE (R216). -/
def toScope (b : BitVec 2) : Scope :=
  match b.toNat with
  | 0 => .sys | 1 => .pkg | 2 => .die | _ => .core

/-- The SCOPE code of a scope. -/
def ofScope : Scope → BitVec 2
  | .sys => 0 | .pkg => 1 | .die => 2 | .core => 3

/-- M code and N code (R218): 3 is refused. -/
def toEdge (b : BitVec 2) : Option Edge :=
  match b.toNat with
  | 0 => some .e32 | 1 => some .e64 | 2 => some .e128 | _ => none

/-- The code of an edge. -/
def ofEdge : Edge → BitVec 2
  | .e32 => 0 | .e64 => 1 | .e128 => 2

/-- The format nibble of a matrix operand (R322). -/
def toTag (b : BitVec 4) : Option Tag :=
  match b.toNat with
  | 1 => some .f32 | 2 => some .bf16 | 3 => some .e4m3 | 4 => some .e5m2 | 5 => some .i8 | 6 => some .i4
  | 7 => some .i32 | 8 => some .px9 | 9 => some .px6 | 10 => some .px4 | 11 => some .mxfp4 | 12 => some .dxe4m3
  | 13 => some .dxe5m2 | _ => none

/-- The low nibble of a tag (R55). -/
def ofTag : Tag → BitVec 4
  | .f32 => 1 | .bf16 => 2 | .e4m3 => 3 | .e5m2 => 4 | .i8 => 5 | .i4 => 6 | .i32 => 7 | .px9 => 8 | .px6 => 9
  | .px4 => 10 | .mxfp4 => 11 | .dxe4m3 => 12 | .dxe5m2 => 13 | .sg3 => 0 | .sg5 => 0 | .sg7 => 0

/-- The classes of matrix formats (R322). -/
inductive MClass where
  | w | h | l | q | d
  deriving DecidableEq, Repr

/-- The class of a format (R322). -/
def mclass : Tag → Option MClass
  | .f32 => some .w
  | .bf16 => some .h
  | .e4m3 | .e5m2 | .px9 | .px6 | .px4 | .mxfp4 => some .l
  | .i8 | .i4 => some .q
  | .dxe4m3 | .dxe5m2 => some .d
  | .i32 | .sg3 | .sg5 | .sg7 => none

/-- A format that a scratchpad operand may have (R322: class D is for handles only). -/
def scratchFmt (t : Tag) : Bool :=
  match mclass t with
  | some .d => false
  | some _ => true
  | none => false

/-- Element formats, which alone may be transposed in scratchpad (R324). -/
def elemFmt (t : Tag) : Bool :=
  match t with
  | .f32 | .bf16 | .e4m3 | .e5m2 | .i8 => true
  | _ => false

/-- Two scratchpad formats that form a legal pair (R322). -/
def scratchPair (x y : Tag) : Bool :=
  match mclass x, mclass y with
  | some .w, some .w => true
  | some .q, some .q => true
  | some .h, some .h | some .h, some .l | some .l, some .h | some .l, some .l => true
  | _, _ => false

/-- The destination formats of AEPI (R333). -/
def epiFmt (t : Tag) : Bool :=
  match t with
  | .f32 | .bf16 | .e4m3 | .e5m2 | .i8 | .i32 => true
  | _ => false

/-- PERM (R223), when B is a v register. -/
def toPerm (b : BitVec 12) : Option Perm :=
  let c := (bits b 10 2).toNat
  let seg := bits b 7 3
  let dist := bits b 0 7
  let lg := if seg == 0 then 6 else seg.toNat
  if c == 0 then (if b == 0 then some .none else none)
  else if seg == 7 then none
  else if c == 1 then (if dist.toNat < 2 ^ lg then some (.rot seg dist) else none)
  else if c == 2 then (if dist.toNat < lg then some (.bfly seg dist) else none)
  else (if dist.toNat < 2 ^ lg then some (.bcast seg dist) else none)

/-- The PERM field of a permutation. -/
def ofPerm : Perm → BitVec 12
  | .none => 0
  | .rot s d => (1 : BitVec 2) ++ s ++ d
  | .bfly s d => (2 : BitVec 2) ++ s ++ d
  | .bcast s d => (3 : BitVec 2) ++ s ++ d

/-- SHAPE of a tile instruction (R218). -/
def toTShape (b : BitVec 12) : TShape := { r := bits b 8 4, c := bits b 4 4, view := bits b 0 4 }

/-- The SHAPE field of a tile. -/
def ofTShape (s : TShape) : BitVec 12 := s.r ++ s.c ++ s.view

/-- SHAPE of a matrix instruction (R218). -/
def toMShape (b : BitVec 12) : Option MShape :=
  match toEdge (bits b 10 2), toEdge (bits b 8 2) with
  | some m, some n => some { m := m, n := n, kg := bits b 0 8 }
  | _, _ => none

/-- The SHAPE field of a matrix instruction. -/
def ofMShape (s : MShape) : BitVec 12 := ofEdge s.m ++ ofEdge s.n ++ s.kg

/-- The special register that a number names (R369). -/
def toSp (b : BitVec 12) : Option SpReg :=
  match b.toNat with
  | 0x000 => some .slotid | 0x001 => some .unitid | 0x002 => some .launchid | 0x003 => some .dieid
  | 0x004 => some .cycles | 0x005 => some .time | 0x006 => some .timeerr | 0x007 => some .pts
  | 0x010 => some .xcause | 0x011 => some .xvalue | 0x012 => some .xpc | 0x013 => some .xstat
  | 0x014 => some .xhandler | 0x015 => some .progidx | 0x016 => some .seed | 0x017 => some .rmode
  | 0x020 => some .xferdone | 0x021 => some .xfernext
  | 0x040 => some .stalls | 0x041 => some .parks | 0x042 => some .migrs
  | 0x100 => some .lnksel | 0x101 => some .lnkstat
  | 0x110 => some .lnkmap | 0x111 => some .lnkretr | 0x112 => some .lnkthr
  | 0x200 => some .featsel | 0x201 => some .featcap
  | 0x310 => some .leaselen | 0x311 => some .actlvl | 0x320 => some .govstat
  | n =>
    if 0x030 ≤ n && n < 0x034 then some (.hb (bits b 0 2))
    else if 0x038 ≤ n && n < 0x040 then some (.vw (bits b 0 3))
    else if 0x108 ≤ n && n < 0x110 then some (.lnkcorr (bits b 0 3))
    else if 0x300 ≤ n && n < 0x308 then some (.keep (bits b 0 3))
    else none

/-- The number of a special register (R369). -/
def ofSp : SpReg → BitVec 12
  | .slotid => 0x000 | .unitid => 0x001 | .launchid => 0x002 | .dieid => 0x003
  | .cycles => 0x004 | .time => 0x005 | .timeerr => 0x006 | .pts => 0x007
  | .xcause => 0x010 | .xvalue => 0x011 | .xpc => 0x012 | .xstat => 0x013
  | .xhandler => 0x014 | .progidx => 0x015 | .seed => 0x016 | .rmode => 0x017
  | .xferdone => 0x020 | .xfernext => 0x021
  | .hb n => 0x030 + n.setWidth 12
  | .vw n => 0x038 + n.setWidth 12
  | .stalls => 0x040 | .parks => 0x041 | .migrs => 0x042
  | .lnksel => 0x100 | .lnkstat => 0x101
  | .lnkcorr n => 0x108 + n.setWidth 12
  | .lnkmap => 0x110 | .lnkretr => 0x111 | .lnkthr => 0x112
  | .featsel => 0x200 | .featcap => 0x201
  | .keep n => 0x300 + n.setWidth 12
  | .leaselen => 0x310 | .actlvl => 0x311 | .govstat => 0x320

/-! ## Rows: each checks reserved fields from the lowest bit up, register classes from the high field down, modifier
values, synchronised reads, and for format T shape and format (R226). -/

/-- OP d, a, b (R240). -/
def rR3 (mk : SReg → Src → Src → Instr) (far : Bool) (f : FA) : R Instr := do
  zero f.fn 0; zero f.ty 12; zero f.k 15; zero f.perm 18
  let d ← cls (toSReg far f.d) 48
  let a ← cls (toSrc far f.a f.wa) 40
  let b ← cls (toSrc far f.b f.wb) 31
  syncAB f
  .ok (mk d a b)

/-- OP d, a, imm (R243) without SUB forms. -/
def rRI (mk : SReg → Src → BitVec 32 → Instr) (far : Bool) (f : FI) : R Instr := do
  zero f.ty 36
  let d ← cls (toSReg far f.d) 48
  let a ← cls (toSrc far f.a f.wa) 40
  need (f.sub == 0) 5 32
  syncA f.a f.wa
  .ok (mk d a f.imm)

/-- SLTI and SLTI.n (R243). -/
def rSlti (far : Bool) (f : FI) : R Instr := do
  zero f.ty 36
  let d ← cls (toSReg far f.d) 48
  let a ← cls (toSrc far f.a f.wa) 40
  need (f.sub == 0 || f.sub == 1) 5 32
  syncA f.a f.wa
  .ok (if f.sub == 0 then .slti d a f.imm else .sltiN d a f.imm)

/-- OP d, a, n with the distance in IMM32[5:0] (R241). -/
def rSh (mk : SReg → Src → BitVec 6 → Instr) (far : Bool) (f : FI) : R Instr := do
  zero (bits f.imm 6 26) 6; zero f.sub 32; zero f.ty 36
  let d ← cls (toSReg far f.d) 48
  let a ← cls (toSrc far f.a f.wa) 40
  syncA f.a f.wa
  .ok (mk d a (bits f.imm 0 6))

/-- OP d, a (R244, R248). -/
def rR1 (mk : SReg → Src → Instr) (far : Bool) (f : FA) : R Instr := do
  zero f.fn 0; zero f.ty 12; zero f.k 15; zero f.perm 18; zeroBit f.wb 30; zero f.b 31
  let d ← cls (toSReg far f.d) 48
  let a ← cls (toSrc far f.a f.wa) 40
  syncA f.a f.wa
  .ok (mk d a)

/-- SEXT and ZEXT (R245). -/
def rExt (mk : SReg → Src → BitVec 7 → Instr) (far : Bool) (f : FI) : R Instr := do
  zero f.sub 32; zero f.ty 36
  let d ← cls (toSReg far f.d) 48
  let a ← cls (toSrc far f.a f.wa) 40
  need (1 ≤ f.imm.toNat && f.imm.toNat ≤ 64) 5 0
  syncA f.a f.wa
  .ok (mk d a (bits f.imm 0 7))

/-- BFX, BFX.s and BFI (R246): `subs` is the highest SUB the opcode takes. -/
def rBf (mk : BitVec 4 → SReg → Src → BitVec 6 → BitVec 6 → Instr) (subs : Nat) (far : Bool) (f : FI) : R Instr := do
  zero (bits f.imm 6 2) 6; zero (bits f.imm 14 18) 14; zero f.ty 36
  let d ← cls (toSReg far f.d) 48
  let a ← cls (toSrc far f.a f.wa) 40
  need (f.sub.toNat ≤ subs) 5 32
  need ((bits f.imm 0 6).toNat + (bits f.imm 8 6).toNat + 1 ≤ 64) 5 0
  syncA f.a f.wa
  .ok (mk f.sub d a (bits f.imm 0 6) (bits f.imm 8 6))

/-- SEL (R247). -/
def rSel (far : Bool) (f : FA) : R Instr := do
  zero (bits f.fn 8 4) 8; zero f.ty 12; zero f.k 15; zero f.perm 18
  let d ← cls (toSReg far f.d) 48
  let a ← cls (toSrc far f.a f.wa) 40
  let b ← cls (toSrc far f.b f.wb) 31
  let c ← cls (toSReg far (bits f.fn 0 8)) 0
  syncAB f
  .ok (.sel d a b c)

/-- An instruction of format A with no operand (R248, R257, R275). -/
def rNone (i : Instr) (f : FA) : R Instr := do
  zero f.fn 0; zero f.ty 12; zero f.k 15; zero f.perm 18; zeroBit f.wb 30; zero f.b 31; zeroBit f.wa 39
  zero f.a 40; zero f.d 48
  .ok i

/-- MOVI (R248). -/
def rMovi (far : Bool) (f : FI) : R Instr := do
  zero f.sub 32; zero f.ty 36; zeroBit f.wa 39; zero f.a 40
  let d ← cls (toSReg far f.d) 48
  .ok (.movi d f.imm)

/-- MOVX, given the literal word that follows (R219, R248). -/
def rMovx (far : Bool) (lit : Word) (f : FI) : R Instr := do
  zero f.imm 0; zero f.ty 36; zeroBit f.wa 39; zero f.a 40
  let d ← cls (toSReg far f.d) 48
  .ok (.movx d (f.sub ++ bits lit 0 60))

/-- LEA and LEA.win (R249). -/
def rLea (far : Bool) (f : FM) : R Instr := do
  zeroBit f.keep 32; zero f.scope 33; zero f.sz 36
  let d ← cls (toSReg far f.v) 48
  let a ← cls (toBase far f.a f.wa) 40
  syncA f.a f.wa
  .ok (if f.sp then .leaWin d a f.off else .lea d a f.off)

/-- BR (R251). -/
def rBr (far : Bool) (f : FB) : R Instr := do
  let a ← cls (toSrc far f.a f.wa) 48
  let b ← cls (toSrc far f.b false) 40
  let c ← modv (toCond f.cond) 35
  need (syncOk f.a f.wa) 0x0A 39
  .ok (.br c a b f.off)

/-- JMP and CALL (R251, R252). -/
def rJmp (mk : BitVec 35 → Instr) (f : FB) : R Instr := do
  zero f.cond 35; zeroBit f.wa 39; zero f.b 40; zero f.a 48
  .ok (mk f.off)

/-- JMPI and CALLI (R252). -/
def rJmpi (mk : Src → Instr) (far : Bool) (f : FA) : R Instr := do
  zero f.fn 0; zero f.ty 12; zero f.k 15; zero f.perm 18; zeroBit f.wb 30; zero f.b 31; zero f.d 48
  let a ← cls (toBase far f.a f.wa) 40
  syncA f.a f.wa
  .ok (mk a)

/-- LOOP (R253). -/
def rLoop (f : FB) : R Instr := do
  zero f.cond 35; zeroBit f.wa 39; zero f.b 40
  let n ← cls (toG1 f.a) 48
  .ok (.loop n f.off)

/-- BTAG (R254). -/
def rBtag (far : Bool) (f : FA) : R Instr := do
  zero (bits f.fn 8 4) 8; zero f.ty 12; zero f.k 15; zero f.perm 18; zero f.d 48
  let p ← cls (toQ f.a) 40
  let t ← cls (toBase far f.b f.wb) 31
  let m ← cls (toSReg far (bits f.fn 0 8)) 0
  syncAB f
  .ok (.btag p t m)

/-- BKANY and BKALL (R255). -/
def rBk (mk : BitVec 3 → BitVec 3 → BitVec 35 → Instr) (f : FB) : R Instr := do
  zero f.cond 35; zeroBit f.wa 39
  let a ← cls (toK f.a) 48
  let b ← cls (toK f.b) 40
  .ok (mk a b f.off)

/-- PARK and PARK.ev (R256). -/
def rPark (f : FI) : R Instr := do
  need (f.sub != 1 || bits f.imm 12 20 == 0) 3 12
  zero f.ty 36; zeroBit f.wa 39; zero f.a 40; zero f.d 48
  need (f.sub == 0 || f.sub == 1) 5 32
  need (f.sub == 0 || bits f.imm 0 12 != 0) 5 0
  .ok (if f.sub == 0 then .park f.imm else .parkEv (bits f.imm 0 12))

/-- TRAP and BRKP (R258). -/
def rTrap (mk : BitVec 32 → Instr) (f : FI) : R Instr := do
  zero f.sub 32; zero f.ty 36; zeroBit f.wa 39; zero f.a 40; zero f.d 48
  .ok (mk f.imm)

/-- The base, space and hint of a format M word, with the limits of R260; `sc` tells that SCOPE is used. -/
def mReserved (sc : Bool) (f : FM) : R Unit := do
  zeroBit (f.keep && !f.sp) 32
  need (f.scope == 0 || (sc && f.sp)) 3 33

/-- The address part of a format M word. -/
def mAddr (base : Src) (f : FM) : MAddr := { base := base, off := f.off, glb := f.sp, keep := f.keep }

/-- LD (R264). -/
def rLd (far : Bool) (f : FM) : R Instr := do
  mReserved false f
  let d ← cls (toSReg far f.v) 48
  let a ← cls (toBase far f.a f.wa) 40
  let z ← modv (toSize f.sz) 36
  syncA f.a f.wa
  .ok (.ld d z (mAddr a f))

/-- LDS (R265). -/
def rLds (far : Bool) (f : FM) : R Instr := do
  mReserved false f
  let d ← cls (toG1 f.v) 48
  let a ← cls (toBase far f.a f.wa) 40
  let z ← modv (toSize f.sz) 36
  syncA f.a f.wa
  .ok (.lds d z (mAddr a f))

/-- ST (R264). -/
def rSt (far : Bool) (f : FM) : R Instr := do
  mReserved true f
  let v ← cls (toSrc far f.v false) 48
  let a ← cls (toBase far f.a f.wa) 40
  let z ← modv (toStSize f.sz) 36
  syncA f.a f.wa
  .ok (.st v z (toScope f.scope) (mAddr a f))

/-- VLD and VST (R266). -/
def rVm (st : Bool) (far : Bool) (f : FM) : R Instr := do
  mReserved st f
  let v ← cls (toV f.v) 48
  let a ← cls (toBase far f.a f.wa) 40
  need (f.sz == 7) 5 36
  syncA f.a f.wa
  .ok (if st then .vst v (toScope f.scope) (mAddr a f) else .vld v (mAddr a f))

/-- KLD and KST (R267). -/
def rKm (st : Bool) (far : Bool) (f : FM) : R Instr := do
  mReserved st f
  let k ← cls (toK f.v) 48
  let a ← cls (toBase far f.a f.wa) 40
  need (f.sz == 3) 5 36
  syncA f.a f.wa
  .ok (if st then .kst k (toScope f.scope) (mAddr a f) else .kld k (mAddr a f))

/-- VLDS and VSTS (R268). DEDUCED, unsafe for a claim about XVALUE: TY is a field that R268 uses, with one value, so another one is
refused as a modifier (SUB 5, FIELD 12; notes/assumptions/80.md). -/
def rStrided (mk : Strided → Instr) (far : Bool) (f : FA) : R Instr := do
  zero f.perm 18; zeroBit f.wb 30
  let v ← cls (toV f.d) 48
  let a ← cls (toBase far f.a f.wa) 40
  let b ← cls (toSReg far f.b) 31
  need (f.ty == 0) 5 12
  syncA f.a f.wa
  .ok (mk { v := v, base := a, stride := b, k := f.k, glb := bit f.fn 11, off := bits f.fn 0 11 })

/-- VGATH and VSCAT with T = 0, and VGATH.t and VSCAT.t with T = 1 (R268, R270). DEDUCED, unsafe for a claim about XVALUE:
a nonzero TY is refused as a modifier (SUB 5, FIELD 12; notes/assumptions/80.md). -/
def rGather (mk : Gathered → Instr) (mkT : TGathered → Instr) (far : Bool) (f : FA) : R Instr :=
  if bit f.fn 10 then do
    zero (bits f.fn 8 2) 8; zeroBit (bit f.fn 11) 11; zeroBit f.wb 30
    let v ← cls (toV f.d) 48
    let a ← cls (toBase far f.a f.wa) 40
    let b ← cls (toV f.b) 31
    let c ← cls (toG (bits f.fn 0 8)) 0
    need (f.ty == 0) 5 12
    let p ← modv (toPerm f.perm) 18
    syncA f.a f.wa
    .ok (mkT { v := v, h := a, c := c, vi := b, perm := p, k := f.k })
  else do
    zeroBit f.wb 30
    let v ← cls (toV f.d) 48
    let a ← cls (toBase far f.a f.wa) 40
    let b ← cls (toV f.b) 31
    need (f.ty == 0) 5 12
    let p ← modv (toPerm f.perm) 18
    syncA f.a f.wa
    .ok (mk { v := v, base := a, vi := b, perm := p, k := f.k, glb := bit f.fn 11, off := bits f.fn 0 10 })

/-- The atomics without a comparand (R271): `tys` says which TY is accepted. -/
def rAmo (mk : Amo → BitVec 3 → Instr) (tys : BitVec 3 → Bool) (noW64 : Bool) (far : Bool) (f : FA) : R Instr := do
  zero (bits f.fn 0 8) 0; zero f.k 15; zero f.perm 18
  let d ← cls (toSReg far f.d) 48
  let a ← cls (toBase far f.a f.wa) 40
  let b ← cls (toSrc far f.b f.wb) 31
  need (tys f.ty) 5 12
  need (!(noW64 && bit f.fn 8)) 5 8
  syncAB f
  .ok (mk { d := d, a := a, b := b, glb := bit f.fn 11, scope := toScope (bits f.fn 9 2), w64 := bit f.fn 8 } f.ty)

/-- AMOCAS (R271). -/
def rCas (far : Bool) (f : FA) : R Instr := do
  zero f.k 15; zero f.perm 18
  let d ← cls (toSReg far f.d) 48
  let a ← cls (toBase far f.a f.wa) 40
  let b ← cls (toSrc far f.b f.wb) 31
  let c ← cls (toSReg far (bits f.fn 0 8)) 0
  need (f.ty == 0) 5 12
  syncAB f
  .ok (.amocas { d := d, a := a, b := b, glb := bit f.fn 11, scope := toScope (bits f.fn 9 2), w64 := bit f.fn 8 } c)

/-- RADD and RADD.ord (R272). -/
def rRadd (far : Bool) (f : FA) : R Instr := do
  need (bit f.fn 11 || bits f.fn 0 8 == 0) 3 0
  zero (bits f.fn 9 2) 9; zero f.k 15; zero f.perm 18; zero f.d 48
  let a ← cls (toBase far f.a f.wa) 40
  let b ← cls (toSrc far f.b f.wb) 31
  let o ← cls (toSReg far (if bit f.fn 11 then bits f.fn 0 8 else 0)) 0
  need (f.ty == 0 || f.ty == 2) 5 12
  need (!(bit f.fn 8 && f.ty == 2)) 5 8
  syncAB f
  let t : RTy := if f.ty == 2 then .f32 else if bit f.fn 8 then .i64 else .i32
  .ok (if bit f.fn 11 then .raddOrd t a b o else .radd t a b)

/-- RADDV and RADDV.ord (R272). -/
def rRaddv (far : Bool) (f : FA) : R Instr := do
  need (bit f.fn 11 || bits f.fn 0 8 == 0) 3 0
  zero (bits f.fn 9 2) 9; zeroBit f.wb 30; zero f.d 48
  let a ← cls (toBase far f.a f.wa) 40
  let b ← cls (toV f.b) 31
  let o ← cls (toSReg far (if bit f.fn 11 then bits f.fn 0 8 else 0)) 0
  need (f.ty == 0 || f.ty == 2) 5 12
  let p ← modv (toPerm f.perm) 18
  need (!(bit f.fn 8)) 5 8
  syncA f.a f.wa
  let r : RaddV := { isF := f.ty == 2, a := a, v := b, perm := p, k := f.k }
  .ok (if bit f.fn 11 then .raddvOrd r o else .raddv r)

/-- SFILL (R276). -/
def rSfill (far : Bool) (f : FA) : R Instr := do
  zero f.fn 0; zero f.ty 12; zero f.k 15; zero f.perm 18; zeroBit f.wb 30; zero f.b 31
  let d ← cls (toSM false f.d) 48
  let a ← cls (toSrc far f.a f.wa) 40
  syncA f.a f.wa
  .ok (.sfill d a)

/-- FSTAT (R277). -/
def rFstat (far : Bool) (f : FA) : R Instr := do
  zero f.fn 0; zero f.ty 12; zero f.k 15; zero f.perm 18; zeroBit f.wb 30; zero f.b 31; zeroBit f.wa 39
  let d ← cls (toSReg far f.d) 48
  need (f.a == 0x40 || f.a == 0x80) 5 40
  .ok (.fstat d (f.a == 0x80))

/-- MIGR and MIGR.crew (R278). DEDUCED, unsafe for a claim about XVALUE: SP = 0 is refused as a modifier (SUB 5, FIELD 35;
notes/assumptions/80.md). -/
def rMigr (far : Bool) (f : FM) : R Instr := do
  zeroBit f.keep 32; zero f.scope 33; zero f.v 48
  let a ← cls (toBase far f.a f.wa) 40
  need (f.sz == 0 || f.sz == 1) 5 36
  need f.sp 5 35
  syncA f.a f.wa
  .ok (if f.sz == 0 then .migr a f.off else .migrCrew a f.off)

/-- CLINE.wb, CLINE.evict and CLINE.pf (R288). DEDUCED, unsafe for a claim about XVALUE: SP = 0 is refused as a modifier (SUB 5, FIELD 35;
notes/assumptions/80.md). -/
def rCline (far : Bool) (f : FM) : R Instr := do
  zeroBit f.keep 32; zero f.scope 33; zero f.v 48
  let a ← cls (toBase far f.a f.wa) 40
  need (f.sz.toNat ≤ 2) 5 36
  need f.sp 5 35
  syncA f.a f.wa
  .ok (if f.sz == 0 then .clineWb a f.off else if f.sz == 1 then .clineEvict a f.off else .clinePf a f.off)

/-- MPIN (R279). -/
def rMpin (f : FI) : R Instr := do
  zero f.sub 32; zero f.ty 36; zeroBit f.wa 39; zero f.a 40; zero f.d 48
  need (f.imm == 0 || f.imm == 1) 5 0
  .ok (.mpin (f.imm == 1))

/-- CREWJ (R280). -/
def rCrewj (far : Bool) (f : FA) : R Instr := do
  zero f.fn 0; zero f.ty 12; zero f.k 15; zero f.perm 18; zero f.d 48
  let a ← cls (toSrc far f.a f.wa) 40
  let b ← cls (toSrc far f.b f.wb) 31
  syncAB f
  .ok (.crewj a b)

/-- The priority class of a copy, FN[11:9] (R281). -/
def prioOf (fn : BitVec 12) : Option (BitVec 2) := if bit fn 11 then some (bits fn 9 2) else none

/-- GET and PUT (R281). -/
def rCopy (mk : CopyArgs → Instr) (far : Bool) (f : FT) : R Instr := do
  zeroBit (bit f.fn 8) 8
  need (bit f.fn 11 || bits f.fn 9 2 == 0) 3 9
  zero f.shape 12
  let h ← cls (toSReg far f.h) 48
  let c ← cls (toG1 f.c) 40
  let l ← cls (toSReg far f.l) 32
  let n ← cls (toCZ f.n) 24
  let s ← cls (toCZ (bits f.fn 0 8)) 0
  .ok (mk { h := h, c := c, l := l, rc := n, sc := s, prio := prioOf f.fn })

/-- The three registers and the shape of a tile instruction. -/
def tileOf (far : Bool) (f : FT) : R TileArgs := do
  let h ← cls (toSReg far f.h) 48
  let c ← cls (toSReg far f.c) 40
  let l ← cls (toSReg far f.l) 32
  .ok { h := h, c := c, l := l, sh := toTShape f.shape }

/-- One of g1-g31, or 0x00 for none. -/
def toGZ (b : BitVec 8) : Option (BitVec 5) := toG b

/-- GETT and PUTT (R284). -/
def rTcopy (mk : TCopyArgs → Instr) (far : Bool) (f : FT) : R Instr := do
  zeroBit (bit f.fn 8) 8
  need (bit f.fn 11 || bits f.fn 9 2 == 0) 3 9
  let t ← tileOf far f
  let n ← cls (toCZ f.n) 24
  let i ← cls (toGZ (bits f.fn 0 8)) 0
  .ok (mk { t := t, n := n, id := i, prio := prioOf f.fn })

/-- QSEND (R285). -/
def rQsend (far : Bool) (f : FA) : R Instr := do
  zero (bits f.fn 6 6) 6; zero f.ty 12; zero f.k 15; zero f.perm 18; zeroBit f.wb 30; zero f.d 48
  let a ← cls (toSrc far f.a f.wa) 40
  let b ← cls (toG1 f.b) 31
  need (b.toNat + (bits f.fn 3 3).toNat ≤ 31) 5 3
  syncA f.a f.wa
  .ok (.qsend (bits f.fn 0 3) a b (bits f.fn 3 3))

/-- CEXP (R286). -/
def rCexp (far : Bool) (f : FA) : R Instr := do
  zero f.fn 0; zero f.ty 12; zero f.k 15; zero f.perm 18; zeroBit f.wa 39; zero f.d 48
  let a ← cls (toC f.a) 40
  let b ← cls (toBase far f.b f.wb) 31
  need (syncOk f.b f.wb) 0x0A 30
  .ok (.cexp a b)

/-- CADD and CADD.clr (R286). -/
def rCadd (far : Bool) (f : FA) : R Instr := do
  zero (bits f.fn 1 11) 1; zero f.ty 12; zero f.k 15; zero f.perm 18; zeroBit f.wa 39; zero f.d 48
  let a ← cls (toC f.a) 40
  let b ← cls (toBase far f.b f.wb) 31
  need (syncOk f.b f.wb) 0x0A 30
  .ok (if bit f.fn 0 then .caddClr a b else .cadd a b)

/-- CRD (R286). -/
def rCrd (far : Bool) (f : FA) : R Instr := do
  zero f.fn 0; zero f.ty 12; zero f.k 15; zero f.perm 18; zeroBit f.wb 30; zero f.b 31; zeroBit f.wa 39
  let d ← cls (toSReg far f.d) 48
  let a ← cls (toC f.a) 40
  .ok (.crd d a)

/-- HSET (R287). -/
def rHset (far : Bool) (f : FI) : R Instr := do
  zero f.imm 0; zero f.ty 36; zero f.d 48
  let a ← cls (toSrc far f.a f.wa) 40
  need (f.sub.toNat ≤ 3) 5 32
  syncA f.a f.wa
  .ok (.hset (bits f.sub 0 2) a)

/-- HURDLE (R287). -/
def rHurdle (f : FI) : R Instr := do
  zero f.imm 0; zero f.ty 36; zeroBit f.wa 39; zero f.a 40; zero f.d 48
  need (f.sub.toNat ≤ 3) 5 32
  .ok (.hurdle (bits f.sub 0 2))

/-- VIEW and KEEP (R287, R374). -/
def rSub8 (mk : BitVec 3 → Src → Instr) (far : Bool) (f : FI) : R Instr := do
  zero f.imm 0; zero f.ty 36; zero f.d 48
  let a ← cls (toSrc far f.a f.wa) 40
  need (f.sub.toNat ≤ 7) 5 32
  syncA f.a f.wa
  .ok (mk (bits f.sub 0 3) a)

/-! ### Vector rows (R289-R317) -/

/-- FN[4:0] of a vector instruction: RM, RMX and SAT where they are not used (R292). -/
def fnLow (fn : BitVec 12) (rounds sats : Bool) : R Unit := do
  need (bits fn 0 3 == 0 || (rounds && bit fn 3)) 3 0
  need (!bit fn 3 || rounds) 3 3
  need (!bit fn 4 || sats) 3 4

/-- The rounding mode of FN[3:0] (R292). -/
def fnRM (fn : BitVec 12) : R (Option RMode) :=
  if bit fn 3 then do
    let m ← modv (toRM (bits fn 0 3)) 0
    .ok (some m)
  else .ok none

/-- A type of float elements. -/
def tyFloat (t : Ty) : Bool :=
  match t with
  | .f32 | .bf16 | .e4m3 | .e5m2 => true
  | _ => false

/-- The B operand with its permutation (R223, R290). -/
def vsrc (b : BitVec 4 ⊕ Src) (perm : BitVec 12) : R VSrc :=
  match b with
  | .inl v => do
    let p ← modv (toPerm perm) 18
    .ok (.v v p)
  | .inr s => do
    need (perm == 0) 5 18
    .ok (.sc s)

/-- D, A, B, K and TY of a vector word: classes, the type and the permutation. -/
def v3of (tys : Ty → Bool) (far : Bool) (f : FA) : R V3 := do
  let d ← cls (toV f.d) 48
  let a ← cls (toV f.a) 40
  let b ← cls (toVB far f.b f.wb) 31
  need (tys (toTy f.ty)) 5 12
  let b ← vsrc b f.perm
  .ok { d := d, a := a, b := b, k := f.k, ty := toTy f.ty }

/-- D, A, K and TY of a vector word without B. -/
def v2of (tys : Ty → Bool) (f : FA) : R V2 := do
  let d ← cls (toV f.d) 48
  let a ← cls (toV f.a) 40
  need (tys (toTy f.ty)) 5 12
  .ok { d := d, a := a, k := f.k, ty := toTy f.ty }

/-- Reserved fields of a vector word without B. -/
def noB (f : FA) : R Unit := do
  zero f.perm 18; zeroBit f.wb 30; zero f.b 31

/-- Types of VADD (R296). -/
def tyArith (t : Ty) : Bool :=
  match t with
  | .i32 | .n32 | .f32 | .bf16 | .i16 | .i8 => true
  | _ => false

/-- Integer types with a shift (R300). -/
def tyShift (t : Ty) : Bool :=
  match t with
  | .i32 | .n32 | .i16 | .i8 => true
  | _ => false

/-- VADD, VSUB, VMUL and VFMA (R296, R297). -/
def rVarith (mk : V3 → Option RMode → Bool → Instr) (far : Bool) (f : FA) : R Instr := do
  fnLow f.fn (tyFloat (toTy f.ty)) (!tyFloat (toTy f.ty)); zero (bits f.fn 5 7) 5
  let o ← v3of tyArith far f
  let rm ← fnRM f.fn
  syncAB f
  .ok (mk o rm (bit f.fn 4))

/-- A vector instruction of three registers without modifiers in FN. -/
def rV3 (mk : V3 → Instr) (tys : Ty → Bool) (far : Bool) (f : FA) : R Instr := do
  zero f.fn 0
  let o ← v3of tys far f
  syncAB f
  .ok (mk o)

/-- VMULQ (R313): SAT must be 0. -/
def rVmulq (far : Bool) (f : FA) : R Instr := do
  fnLow f.fn false false; zero (bits f.fn 5 7) 5
  let o ← v3of (fun t => t == .i32 || t == .i16) far f
  syncAB f
  .ok (.vmulq o)

/-- VABS and VNEG (R298). -/
def rVabs (mk : V2 → Bool → Instr) (f : FA) : R Instr := do
  fnLow f.fn false (!tyFloat (toTy f.ty)); zero (bits f.fn 5 7) 5; noB f
  let o ← v2of (· != .n32) f
  syncA f.a f.wa
  .ok (mk o (bit f.fn 4))

/-- VCMP (R301). -/
def rVcmp (far : Bool) (f : FA) : R Instr := do
  zero (bits f.fn 0 5) 0; zero (bits f.fn 8 4) 8
  let d ← cls (toK f.d) 48
  let a ← cls (toV f.a) 40
  let b ← cls (toVB far f.b f.wb) 31
  need (f.ty.toNat ≤ 2) 5 12
  let b ← vsrc b f.perm
  syncAB f
  .ok (.vcmp d (toVCond (bits f.fn 5 3)) a b f.k (toTy f.ty))

/-- VSEL (R302). -/
def rVsel (far : Bool) (f : FA) : R Instr := do
  zero (bits f.fn 0 5) 0; zero (bits f.fn 8 4) 8
  let o ← v3of (· == .i32) far f
  syncAB f
  .ok (.vsel o (bits f.fn 5 3))

/-- VMOV (R303). -/
def rVmov (far : Bool) (f : FA) : R Instr := do
  zero f.fn 0; zeroBit f.wa 39; zero f.a 40
  let d ← cls (toV f.d) 48
  let b ← cls (toVB far f.b f.wb) 31
  let b ← vsrc b f.perm
  need (syncOk f.b f.wb) 0x0A 30
  .ok (.vmov d b f.k (toTy f.ty))

/-- VBCAST (R303). -/
def rVbcast (far : Bool) (f : FA) : R Instr := do
  zero f.fn 0; zero f.perm 18
  let d ← cls (toV f.d) 48
  let a ← cls (toV f.a) 40
  let b ← cls (toSrc far f.b f.wb) 31
  syncAB f
  .ok (.vbcast d a b f.k (toTy f.ty))

/-- VEXT (R304). -/
def rVext (far : Bool) (f : FA) : R Instr := do
  zero f.fn 0; zero f.k 15; zero f.perm 18
  let d ← cls (toSReg far f.d) 48
  let a ← cls (toV f.a) 40
  let b ← cls (toSrc far f.b f.wb) 31
  syncAB f
  .ok (.vext d a b (toTy f.ty))

/-- VINS (R304). -/
def rVins (far : Bool) (f : FA) : R Instr := do
  zero f.fn 0; zero f.k 15; zero f.perm 18
  let d ← cls (toV f.d) 48
  let a ← cls (toSrc far f.a f.wa) 40
  let b ← cls (toSrc far f.b f.wb) 31
  syncAB f
  .ok (.vins d a b (toTy f.ty))

/-- VRED (R305). DESIGN CHOICE, unsafe: R292 refuses RMX = 1 on 'an instruction or type' that does not round, and whether that takes in
VRED.f32 with an op that rounds nothing it does not say; RMX = 1 is accepted there (notes/assumptions/96.md). -/
def rVred (far : Bool) (f : FA) : R Instr := do
  fnLow f.fn (tyFloat (toTy f.ty)) false; zero (bits f.fn 8 4) 8; noB f
  let d ← cls (toSReg far f.d) 48
  let a ← cls (toV f.a) 40
  need (f.ty.toNat ≤ 2) 5 12
  let op ← modv (toRed (bits f.fn 5 3)) 5
  let rm ← fnRM f.fn
  syncA f.a f.wa
  .ok (.vred d op a f.k (toTy f.ty) rm)

/-- VIDX (R306). -/
def rVidx (far : Bool) (f : FA) : R Instr := do
  zero f.fn 0; zero f.perm 18
  let d ← cls (toV f.d) 48
  let a ← cls (toSrc far f.a f.wa) 40
  let b ← cls (toSrc far f.b f.wb) 31
  need (tyShift (toTy f.ty)) 5 12
  syncAB f
  .ok (.vidx d a b f.k (toTy f.ty))

/-- VRCP, VRSQ, VEXP2 and VLOG2 (R307). -/
def rVtrans (mk : V2 → Option RMode → Instr) (f : FA) : R Instr := do
  fnLow f.fn true false; zero (bits f.fn 5 7) 5; noB f
  let o ← v2of (fun t => t == .f32 || t == .bf16) f
  let rm ← fnRM f.fn
  syncA f.a f.wa
  .ok (mk o rm)

/-- The pairs of VCVT, destination first (R308). -/
def cvtPair (d s : Ty) : Bool :=
  match d, s with
  | .f32, .i32 | .f32, .n32 | .i32, .f32 | .n32, .f32 => true
  | .bf16, .i16 | .i16, .bf16 => true
  | .e4m3, .e5m2 | .e5m2, .e4m3 | .e4m3, .i8 | .e5m2, .i8 | .i8, .e4m3 | .i8, .e5m2 => true
  | _, _ => false

/-- The pairs of VPACK, destination first (R309). -/
def packPair (d s : Ty) : Bool :=
  match d, s with
  | .bf16, .f32 | .e4m3, .bf16 | .e5m2, .bf16 | .i16, .i32 | .i8, .i16 => true
  | _, _ => false

/-- The pairs of VUNPK, destination first (R310). -/
def unpkPair (d s : Ty) : Bool :=
  match d, s with
  | .f32, .bf16 | .bf16, .e4m3 | .bf16, .e5m2 | .i32, .i16 | .i16, .i8 => true
  | _, _ => false

/-- VCVT (R308). -/
def rVcvt (f : FA) : R Instr := do
  fnLow f.fn true false; zero (bits f.fn 8 4) 8; noB f
  let o ← v2of (fun _ => true) f
  let rm ← fnRM f.fn
  need (cvtPair o.ty (toTy (bits f.fn 5 3))) 5 5
  syncA f.a f.wa
  .ok (.vcvt o (toTy (bits f.fn 5 3)) rm)

/-- VPACK (R309). -/
def rVpack (f : FA) : R Instr := do
  fnLow f.fn (tyFloat (toTy f.ty)) false; zero (bits f.fn 8 4) 8
  let d ← cls (toV f.d) 48
  let a ← cls (toV f.a) 40
  let b ← cls (toV f.b) 31
  let p ← modv (toPerm f.perm) 18
  let rm ← fnRM f.fn
  need (packPair (toTy f.ty) (toTy (bits f.fn 5 3))) 5 5
  syncAB f
  .ok (.vpack d a b p f.k (toTy f.ty) (toTy (bits f.fn 5 3)) rm)

/-- VUNPK (R310). -/
def rVunpk (f : FA) : R Instr := do
  fnLow f.fn false false; zero (bits f.fn 9 3) 9; noB f
  let o ← v2of (fun _ => true) f
  need (unpkPair o.ty (toTy (bits f.fn 5 3))) 5 5
  syncA f.a f.wa
  .ok (.vunpk o (toTy (bits f.fn 5 3)) (bit f.fn 8))

/-- The width of an element in bits (R289). -/
def tyBits (t : Ty) : Nat :=
  match t with
  | .i32 | .n32 | .f32 => 32
  | .bf16 | .i16 => 16
  | .i8 | .e4m3 | .e5m2 => 8

/-- VSAT (R312). -/
def rVsat (f : FA) : R Instr := do
  zero (bits f.fn 0 5) 0; noB f
  let o ← v2of (fun t => t == .i32 || t == .i16 || t == .i8) f
  need ((bits f.fn 5 6).toNat + 1 + (bit f.fn 11).toNat ≤ tyBits o.ty) 5 5
  syncA f.a f.wa
  .ok (.vsat o (bits f.fn 5 6) (bit f.fn 11))

/-- VQUANT and VDEQ (R314). DESIGN CHOICE, unsafe: RMX = 1 is accepted on VDEQ of every FMT, also where its conversion is always exact (R292,
R315; notes/assumptions/97.md). -/
def rVquant (mk : BitVec 4 → BitVec 4 → QFmt → Option RMode → Instr) (far : Bool) (f : FA) : R Instr :=
  let c := (bits f.fn 5 3).toNat
  if c < 4 then do
    fnLow f.fn true false; zero (bits f.fn 8 4) 8; zero f.k 15; noB f
    let d ← cls (toV f.d) 48
    let a ← cls (toV f.a) 40
    need (toTy f.ty == .f32) 5 12
    let rm ← fnRM f.fn
    syncA f.a f.wa
    .ok (mk d a (match c with | 0 => .px9 | 1 => .px6 | 2 => .px4 | _ => .mxfp4) rm)
  else do
    fnLow f.fn true false; zero (bits f.fn 8 4) 8; zero f.k 15
    let d ← cls (toV f.d) 48
    let a ← cls (toV f.a) 40
    let b ← cls (toVB far f.b f.wb) 31
    need (toTy f.ty == .f32) 5 12
    let b ← vsrc b f.perm
    let rm ← fnRM f.fn
    need (c < 6) 5 5
    syncAB f
    .ok (mk d a (if c == 4 then .i8 b else .i4 b) rm)

/-- VDOT (R316). -/
def rVdot (far : Bool) (f : FA) : R Instr := do
  fnLow f.fn false true; zero (bits f.fn 7 5) 7
  let o ← v3of (· == .i8) far f
  syncAB f
  .ok (.vdot o.d o.a o.b o.k (bit f.fn 5) (bit f.fn 6) (bit f.fn 4))

/-- KAND, KOR and KXOR (R317). -/
def rK3 (mk : BitVec 3 → BitVec 3 → BitVec 3 → Instr) (f : FA) : R Instr := do
  zero f.fn 0; zero f.ty 12; zero f.k 15; zero f.perm 18
  let d ← cls (toK f.d) 48
  let a ← cls (toK f.a) 40
  let b ← cls (toK f.b) 31
  syncAB f
  .ok (mk d a b)

/-- Reserved fields of a mask instruction without B. -/
def kReserved (f : FA) : R Unit := do
  zero f.fn 0; zero f.ty 12; zero f.k 15; zero f.perm 18; zeroBit f.wb 30; zero f.b 31

/-- KNOT (R317). -/
def rKnot (f : FA) : R Instr := do
  kReserved f
  let d ← cls (toK f.d) 48
  let a ← cls (toK f.a) 40
  syncA f.a f.wa
  .ok (.knot d a)

/-- KPOP and KFIRST (R317). -/
def rKpop (mk : SReg → BitVec 3 → Instr) (far : Bool) (f : FA) : R Instr := do
  kReserved f
  let d ← cls (toSReg far f.d) 48
  let a ← cls (toK f.a) 40
  syncA f.a f.wa
  .ok (mk d a)

/-- A k, g, s or m destination. -/
def toKD (far : Bool) (b : BitVec 8) : Option KDst :=
  match toK b with
  | some k => some (.k k)
  | none => match toSReg far b with
    | some r => some (.r r)
    | none => none

/-- A k, g, s, m or q source. -/
def toKS (far : Bool) (b : BitVec 8) (w : Bool) : Option KSrc :=
  match toK b with
  | some k => some (.k k)
  | none => match toSrc far b w with
    | some r => some (.r r)
    | none => none

/-- KMOV moves to or from a k register (R317). -/
def kmovOk : KDst → KSrc → Bool
  | .r _, .r _ => false
  | _, _ => true

/-- KMOV (R317). -/
def rKmov (far : Bool) (f : FA) : R Instr := do
  kReserved f
  let d ← cls (toKD far f.d) 48
  let a ← cls (toKS far f.a f.wa) 40
  need (kmovOk d a) 4 40
  syncA f.a f.wa
  .ok (.kmov d a)

/-! ### Matrix, tensor and engine rows (R319-R361) -/

/-- FN[11:8] of a tensor instruction that rounds: RM must be 000 without RMX (R341). -/
def fnHigh (fn : BitVec 12) : R Unit := need (bits fn 8 3 == 0 || bit fn 11) 3 8

/-- The rounding mode of FN[11:8] (R341). -/
def fnHighRM (fn : BitVec 12) : R (Option RMode) :=
  if bit fn 11 then do
    let m ← modv (toRM (bits fn 8 3)) 8
    .ok (some m)
  else .ok none

/-- MMA (R326). -/
def rMma (far : Bool) (f : FT) : R Instr := do
  zero (bits f.fn 10 2) 10
  let h ← cls (toSReg far f.h) 48
  let c ← cls (toSReg far f.c) 40
  let l ← cls (toA f.l) 32
  let n ← cls (toGZ f.n) 24
  let sh ← shp (toMShape f.shape) 1
  let af ← shp (toTag (bits f.fn 0 4)) 2
  let bf ← shp (toTag (bits f.fn 4 4)) 2
  let o : MmaArgs := { h := h, c := c, l := l, n := n, sh := sh, af := af, bf := bf, ta := bit f.fn 8, tb := bit f.fn 9 }
  if scratchPair af bf && (!o.ta || elemFmt af) && (!o.tb || elemFmt bf) then .ok (.mma o) else .error (badShape 2)

/-- The format of one operand of MMAT: none for a handle. -/
def mmatFmt (handle : Bool) (nib : BitVec 4) (tr : Bool) : R (Option Tag) :=
  if handle then .ok none else do
    let t ← shp (toTag nib) 2
    if scratchFmt t && (!tr || elemFmt t) then .ok (some t) else .error (badShape 2)

/-- MMAT (R326). -/
def rMmat (f : FT) : R Instr := do
  need (!bit f.fn 8 || bits f.fn 0 4 == 0) 3 0
  need (!bit f.fn 9 || bits f.fn 4 4 == 0) 3 4
  let h ← cls (toG f.h) 48
  let c ← cls (toGE f.c) 40
  let l ← cls (toA f.l) 32
  let n ← cls (toGZ f.n) 24
  need (bit f.fn 8 || bit f.fn 9) 5 8
  let sh ← shp (toMShape f.shape) 1
  let af ← mmatFmt (bit f.fn 8) (bits f.fn 0 4) (bit f.fn 10)
  let bf ← mmatFmt (bit f.fn 9) (bits f.fn 4 4) (bit f.fn 11)
  .ok (.mmat { h := h, c := c, l := l, n := n, sh := sh, af := af, bf := bf, ta := bit f.fn 10, tb := bit f.fn 11 })

/-- MMAG (R326): an odd index register with M = 128 is refused as its class. -/
def rMmag (f : FT) : R Instr := do
  zero (bits f.fn 0 4) 0; zero (bits f.fn 8 4) 8
  let h ← cls (toG f.h) 48
  let c ← cls (toV f.c) 40
  need (!(bits f.shape 10 2 == 2 && bit c 0)) 4 40
  let l ← cls (toA f.l) 32
  let n ← cls (toG f.n) 24
  let sh ← shp (toMShape f.shape) 1
  let bf ← shp (toTag (bits f.fn 4 4)) 2
  if scratchFmt bf then .ok (.mmag { h := h, vi := c, l := l, n := n, sh := sh, bf := bf })
  else .error (badShape 2)

/-- MMAS (R326). -/
def rMmas (f : FT) : R Instr := do
  zero f.fn 0; zero f.n 24
  let h ← cls (toG f.h) 48
  let c ← cls (toGE f.c) 40
  let l ← cls (toA f.l) 32
  let sh ← shp (toMShape f.shape) 1
  .ok (.mmas h c l sh)

/-- AZERO (R332). -/
def rAzero (f : FT) : R Instr := do
  zero (bits f.fn 1 11) 1; zero f.shape 12; zero f.n 24; zero f.c 40; zero f.h 48
  let l ← cls (toA f.l) 32
  .ok (.azero l (bit f.fn 0))

/-- AREL and ACLAIM (R332). -/
def rArel (mk : BitVec 4 → Instr) (f : FT) : R Instr := do
  zero f.fn 0; zero f.shape 12; zero f.n 24; zero f.c 40; zero f.h 48
  let l ← cls (toA f.l) 32
  .ok (mk l)

/-- ACT (R333). -/
def toAct (b : BitVec 2) : Act :=
  match b.toNat with
  | 0 => .none | 1 => .relu | 2 => .sqrelu | _ => .clamp

/-- The code of an activation. -/
def ofAct : Act → BitVec 2
  | .none => 0 | .relu => 1 | .sqrelu => 2 | .clamp => 3

/-- The shape of an AEPI (R333): none takes EXT; bits 19:13 are those of the K groups, which AEPI forbids (R331, reason 1). -/
def epiShape (sh : BitVec 12) : R (Option (Edge × Edge)) :=
  if bits sh 1 7 != 0 then .error (badShape 1)
  else if bit sh 0 then do
    let m ← shp (toEdge (bits sh 10 2)) 1
    let n ← shp (toEdge (bits sh 8 2)) 1
    .ok (some (m, n))
  else .ok none

/-- AEPI (R333): with XS = 0 the codes of M and N must be zero (R220). -/
def rAepi (far : Bool) (f : FT) : R Instr := do
  fnHigh f.fn
  need (bit f.shape 0 || bits f.shape 8 4 == 0) 3 20
  let h ← cls (toSReg far f.h) 48
  let c ← cls (toGZ f.c) 40
  let l ← cls (toA f.l) 32
  let n ← cls (toGZ f.n) 24
  let rm ← fnHighRM f.fn
  need (!(bits f.fn 4 2 == 3 && n == 0)) 5 4
  let xs ← epiShape f.shape
  let df ← shp (toTag (bits f.fn 0 4)) 2
  if epiFmt df then
    if bit f.fn 6 && c == 0 then .error (badShape 6)
    else .ok (.aepi { h := h, c := c, l := l, n := n, xs := xs, df := df, act := toAct (bits f.fn 4 2),
                      add := bit f.fn 6, rel := bit f.fn 7, rm := rm })
  else .error (badShape 2)

/-- ASAVE and ALOAD (R337). -/
def rAimg (mk : SReg → BitVec 4 → Instr) (far : Bool) (f : FT) : R Instr := do
  zero f.fn 0; zero f.shape 12; zero f.n 24; zero f.c 40
  let h ← cls (toSReg far f.h) 48
  let l ← cls (toA f.l) 32
  .ok (mk h l)

/-- COLL (R338). -/
def rColl (f : FT) : R Instr := do
  zero (bits f.fn 2 10) 2; zero f.shape 12
  let h ← cls (toG f.h) 48
  let c ← cls (toG f.c) 40
  let l ← cls (toGZ f.l) 32
  let n ← cls (toCZ f.n) 24
  let o : CollArgs := { h := h, c := c, l := l, n := n }
  .ok (match (bits f.fn 0 2).toNat with | 0 => .collAr o | 1 => .collRs o | 2 => .collAg o | _ => .collA2a o)

/-- TALLOC (R344). -/
def rTalloc (f : FT) : R Instr := do
  zero (bits f.fn 8 4) 8; zero f.shape 12; zero f.n 24
  let h ← cls (toG f.h) 48
  let c ← cls (toG f.c) 40
  let l ← cls (toGZ f.l) 32
  let st ← cls (toGZ (bits f.fn 0 8)) 0
  .ok (.talloc h c l st)

/-- TFREE (R345). -/
def rTfree (far : Bool) (f : FT) : R Instr := do
  zero f.fn 0; zero f.shape 12; zero f.n 24; zero f.l 32; zero f.c 40
  let h ← cls (toSReg far f.h) 48
  .ok (.tfree h)

/-- TWIDEN (R346). -/
def rTwiden (far : Bool) (f : FT) : R Instr := do
  zero (bits f.fn 9 3) 9; zero f.shape 12; zero f.n 24; zero f.l 32
  let h ← cls (toSReg far f.h) 48
  let c ← cls (toSReg far f.c) 40
  let st ← cls (toGZ (bits f.fn 0 8)) 0
  .ok (.twiden h c st (bit f.fn 8))

/-- TINFO (R347). That a hidden word is refused depends on the slot: its meaning says so. -/
def rTinfo (far : Bool) (f : FT) : R Instr := do
  zero (bits f.fn 3 9) 3; zero f.shape 12; zero f.n 24; zero f.c 40
  let h ← cls (toSReg far f.h) 48
  let l ← cls (toSReg far f.l) 32
  .ok (.tinfo h l (bits f.fn 0 3))

/-- TLD and TLDT (R348). -/
def rTld (mk : TileArgs → Instr) (far : Bool) (f : FT) : R Instr := do
  zero f.fn 0; zero f.n 24
  let t ← tileOf far f
  .ok (mk t)

/-- TST and TST.add (R348). -/
def rTst (far : Bool) (f : FT) : R Instr := do
  zero (bits f.fn 1 11) 1; zero f.n 24
  let t ← tileOf far f
  .ok (if bit f.fn 0 then .tstAdd t else .tst t)

/-- The operation of TRED (R350). -/
def toTRed (b : BitVec 2) : TRedOp :=
  match b.toNat with
  | 0 => .add | 1 => .max | 2 => .min | _ => .amax

/-- The code of a TRED operation. -/
def ofTRed : TRedOp → BitVec 2
  | .add => 0 | .max => 1 | .min => 2 | .amax => 3

/-- TRED (R350). -/
def rTred (far : Bool) (f : FT) : R Instr := do
  zero (bits f.fn 3 5) 3; fnHigh f.fn; zero f.n 24
  let t ← tileOf far f
  let rm ← fnHighRM f.fn
  .ok (if bit f.fn 0 then .tredCol t (toTRed (bits f.fn 1 2)) rm else .tredRow t (toTRed (bits f.fn 1 2)) rm)

/-- TSCALE (R351). -/
def rTscale (far : Bool) (f : FT) : R Instr := do
  zero (bits f.fn 0 8) 0; fnHigh f.fn; zero f.n 24
  let h ← cls (toSReg far f.h) 48
  let c ← cls (toSReg far f.c) 40
  let l ← cls (toG f.l) 32
  let rm ← fnHighRM f.fn
  .ok (.tscale h c l (toTShape f.shape) rm)

/-- The binary operation of TEW (R351). -/
def toTew (b : BitVec 3) : Option TewOp :=
  match b.toNat with
  | 0 => some .add | 1 => some .mul | 2 => some .max | 3 => some .min | _ => none

/-- The code of a TEW operation. -/
def ofTew : TewOp → BitVec 3
  | .add => 0 | .mul => 1 | .max => 2 | .min => 3

/-- TEW (R351). -/
def rTew (far : Bool) (f : FT) : R Instr :=
  if bits f.fn 0 3 == 4 then do
    zeroBit (bit f.fn 3) 3; zero (bits f.fn 4 4) 4; fnHigh f.fn; zero f.n 24; zero f.l 32
    let h ← cls (toSReg far f.h) 48
    let c ← cls (toSReg far f.c) 40
    let rm ← fnHighRM f.fn
    .ok (.tew h c .relu (toTShape f.shape) rm)
  else do
    zero (bits f.fn 4 4) 4; fnHigh f.fn; zero f.n 24
    let h ← cls (toSReg far f.h) 48
    let c ← cls (toSReg far f.c) 40
    if bit f.fn 3 then
      let l ← cls (toG f.l) 32
      let op ← modv (toTew (bits f.fn 0 3)) 0
      let rm ← fnHighRM f.fn
      .ok (.tew h c (.scalar op l) (toTShape f.shape) rm)
    else
      let l ← cls (toSReg far f.l) 32
      let op ← modv (toTew (bits f.fn 0 3)) 0
      let rm ← fnHighRM f.fn
      .ok (.tew h c (.tile op l) (toTShape f.shape) rm)

/-- TCOPY (R352). -/
def rTcopyI (far : Bool) (f : FT) : R Instr := do
  zero (bits f.fn 1 7) 1; fnHigh f.fn; zero f.n 24
  let h ← cls (toSReg far f.h) 48
  let c ← cls (toGE f.c) 40
  let l ← cls (toG f.l) 32
  let rm ← fnHighRM f.fn
  .ok (.tcopy h c l (toTShape f.shape) (bit f.fn 0) rm)

/-- The grade of a stash (R354). -/
def toGrade (b : BitVec 2) : Option Grade :=
  match b.toNat with
  | 0 => some .s3 | 1 => some .s5 | 2 => some .s7 | _ => none

/-- The code of a grade. -/
def ofGrade : Grade → BitVec 2
  | .s3 => 0 | .s5 => 1 | .s7 => 2

/-- The target of a stash (R354). -/
def toTgt (b : BitVec 2) : Option Tgt :=
  match b.toNat with
  | 0 => some .image | 1 => some .host | 2 => some .peer | _ => none

/-- The code of a target. -/
def ofTgt : Tgt → BitVec 2
  | .image => 0 | .host => 1 | .peer => 2

/-- STASH and RESTORE (R354). -/
def rStash (mk : StashArgs → Instr) (far : Bool) (f : FT) : R Instr := do
  zero f.shape 12; zero f.c 40
  let h ← cls (toSReg far f.h) 48
  let l ← cls (toG f.l) 32
  let n ← cls (toCZ f.n) 24
  let st ← cls (toGZ (bits f.fn 0 8)) 0
  let tgt ← modv (toTgt (bits f.fn 10 2)) 10
  let g ← shp (toGrade (bits f.fn 8 2)) 3
  .ok (mk { h := h, l := l, n := n, st := st, grade := g, tgt := tgt })

/-- NMLOAD (R360). -/
def rNmload (far : Bool) (f : FT) : R Instr := do
  zero f.fn 0; zero f.shape 12; zero f.n 24; zero f.l 32
  let h ← cls (toSReg far f.h) 48
  let c ← cls (toSReg far f.c) 40
  .ok (.nmload h c)

/-- NMSTRM (R360): VIEW is reserved. -/
def rNmstrm (far : Bool) (f : FT) : R Instr := do
  zero f.fn 0; zero (bits f.shape 0 4) 12; zero f.n 24; zero f.l 32
  let h ← cls (toSReg far f.h) 48
  let c ← cls (toSReg far f.c) 40
  .ok (.nmstrm h c (bits f.shape 8 4) (bits f.shape 4 4))

/-- NMDRAIN (R360): VIEW is reserved. -/
def rNmdrain (far : Bool) (f : FT) : R Instr := do
  zero (bits f.fn 0 8) 0; fnHigh f.fn; zero (bits f.shape 0 4) 12; zero f.n 24; zero f.l 32
  let h ← cls (toSReg far f.h) 48
  let c ← cls (toSReg far f.c) 40
  let rm ← fnHighRM f.fn
  .ok (.nmdrain h c (bits f.shape 8 4) (bits f.shape 4 4) rm)

/-! ### System rows (R362-R374) -/

/-- SPAWN (R363). -/
def rSpawn (far : Bool) (f : FA) : R Instr := do
  zero f.fn 0; zero f.ty 12; zero f.k 15; zero f.perm 18; zero f.d 48
  let a ← cls (toSrc far f.a f.wa) 40
  let b ← cls (toSrc far f.b f.wb) 31
  syncAB f
  .ok (.spawn a b)

/-- REAP (R364). -/
def rReap (far : Bool) (f : FA) : R Instr := do
  zero f.fn 0; zero f.ty 12; zero f.k 15; zero f.perm 18
  let d ← cls (toSReg far f.d) 48
  let a ← cls (toSrc far f.a f.wa) 40
  let b ← cls (toSrc far f.b f.wb) 31
  syncAB f
  .ok (.reap d a b)

/-- LAUNCH (R367). -/
def rLaunch (far : Bool) (f : FA) : R Instr := do
  zero f.fn 0; zero f.ty 12; zero f.k 15; zero f.perm 18; zeroBit f.wb 30; zero f.b 31
  let d ← cls (toSReg far f.d) 48
  let a ← cls (toSrc far f.a f.wa) 40
  syncA f.a f.wa
  .ok (.launch d a)

/-- The level of CANCEL (R368). -/
def toLevel (b : BitVec 2) : Level :=
  match b.toNat with
  | 0 => .launch | 1 => .graph | 2 => .phase | _ => .job

/-- The code of a level. -/
def ofLevel : Level → BitVec 2
  | .launch => 0 | .graph => 1 | .phase => 2 | .job => 3

/-- CANCEL (R368). -/
def rCancel (far : Bool) (f : FA) : R Instr := do
  zero (bits f.fn 2 10) 2; zero f.ty 12; zero f.k 15; zero f.perm 18; zeroBit f.wb 30; zero f.b 31
  let d ← cls (toSReg far f.d) 48
  let a ← cls (toSrc far f.a f.wa) 40
  syncA f.a f.wa
  .ok (.cancel (toLevel (bits f.fn 0 2)) d a)

/-- SYSRD (R369). -/
def rSysrd (far : Bool) (f : FI) : R Instr := do
  zero (bits f.imm 12 20) 12; zero f.sub 32; zero f.ty 36; zeroBit f.wa 39; zero f.a 40
  let d ← cls (toSReg far f.d) 48
  let r ← modv (toSp (bits f.imm 0 12)) 0
  .ok (.sysrd d r)

/-- SYSWR (R369). -/
def rSyswr (far : Bool) (f : FI) : R Instr := do
  zero (bits f.imm 12 20) 12; zero f.sub 32; zero f.ty 36; zero f.d 48
  let a ← cls (toSrc far f.a f.wa) 40
  let r ← modv (toSp (bits f.imm 0 12)) 0
  syncA f.a f.wa
  .ok (.syswr r a)

/-- XRET and XRET.st (R372). -/
def rXret (far : Bool) (f : FA) : R Instr :=
  if bit f.fn 0 then do
    zero (bits f.fn 1 11) 1; zero f.ty 12; zero f.k 15; zero f.perm 18; zeroBit f.wb 30; zero f.b 31; zero f.d 48
    let a ← cls (toBase far f.a f.wa) 40
    syncA f.a f.wa
    .ok (.xret (some a))
  else do
    zero (bits f.fn 1 11) 1; zero f.ty 12; zero f.k 15; zero f.perm 18; zeroBit f.wb 30; zero f.b 31
    zeroBit f.wa 39; zero f.a 40; zero f.d 48
    .ok (.xret none)

/-- SVC (R373). -/
def rSvc (f : FI) : R Instr := do
  zero f.sub 32; zero f.ty 36; zeroBit f.wa 39; zero f.a 40; zero f.d 48
  need (f.imm.toNat < 0x10000) 5 0
  .ok (.svc (bits f.imm 0 16))

/-! ## The opcode map (R225) -/

/-- An opcode that is not assigned (R226). -/
def unassigned : R Instr := .error (illegal 2 56)

/-- Opcodes 0x00-0x0F. -/
def op0 (far : Bool) (w : Word) (lo : Nat) : R Instr :=
  match lo with
  | 0x1 => rNone .nop (partsA w)
  | 0x2 => rR3 .add far (partsA w)
  | 0x3 => rRI .addi far (partsI w)
  | 0x4 => rR3 .sub far (partsA w)
  | 0x5 => rR3 .mul far (partsA w)
  | 0x6 => rR3 .mulh far (partsA w)
  | 0x7 => rR3 .mulhn far (partsA w)
  | 0x8 => rR3 .div far (partsA w)
  | 0x9 => rR3 .divn far (partsA w)
  | 0xA => rR3 .rem far (partsA w)
  | 0xB => rR3 .remn far (partsA w)
  | 0xC => rR3 .and far (partsA w)
  | 0xD => rRI .andi far (partsI w)
  | 0xE => rR3 .or far (partsA w)
  | 0xF => rRI .ori far (partsI w)
  | _ => unassigned

/-- Opcodes 0x10-0x1F. -/
def op1 (far : Bool) (w : Word) (lo : Nat) : R Instr :=
  match lo with
  | 0x0 => rR3 .xor far (partsA w)
  | 0x1 => rRI .xori far (partsI w)
  | 0x2 => rR3 .andn far (partsA w)
  | 0x3 => rR3 .shl far (partsA w)
  | 0x4 => rSh .shli far (partsI w)
  | 0x5 => rR3 .shr far (partsA w)
  | 0x6 => rSh .shri far (partsI w)
  | 0x7 => rR3 .sar far (partsA w)
  | 0x8 => rSh .sari far (partsI w)
  | 0x9 => rR3 .rol far (partsA w)
  | 0xA => rSh .roli far (partsI w)
  | 0xB => rR1 .clz far (partsA w)
  | 0xC => rR1 .ctz far (partsA w)
  | 0xD => rR1 .popc far (partsA w)
  | 0xE => rR1 .brev far (partsA w)
  | 0xF => rExt .sext far (partsI w)
  | _ => unassigned

/-- Opcodes 0x20-0x2F; `lit` is the literal word after a MOVX. -/
def op2 (far : Bool) (lit : Word) (w : Word) (lo : Nat) : R Instr :=
  match lo with
  | 0x0 => rExt .zext far (partsI w)
  | 0x1 => rBf (fun s => if s == 0 then .bfx else .bfxS) 1 far (partsI w)
  | 0x2 => rBf (fun _ => .bfi) 0 far (partsI w)
  | 0x3 => rR3 .min far (partsA w)
  | 0x4 => rR3 .max far (partsA w)
  | 0x5 => rR3 .minn far (partsA w)
  | 0x6 => rR3 .maxn far (partsA w)
  | 0x7 => rR3 .slt far (partsA w)
  | 0x8 => rR3 .sltn far (partsA w)
  | 0x9 => rSlti far (partsI w)
  | 0xA => rR3 .seq far (partsA w)
  | 0xB => rSel far (partsA w)
  | 0xC => rR1 .mov far (partsA w)
  | 0xD => rMovi far (partsI w)
  | 0xE => rMovx far lit (partsI w)
  | 0xF => rLea far (partsM w)
  | _ => unassigned

/-- Opcodes 0x30-0x3F. -/
def op3 (far : Bool) (w : Word) (lo : Nat) : R Instr :=
  match lo with
  | 0x0 => rBr far (partsB w)
  | 0x1 => rJmp .jmp (partsB w)
  | 0x2 => rJmpi .jmpi far (partsA w)
  | 0x3 => rJmp .call (partsB w)
  | 0x4 => rJmpi .calli far (partsA w)
  | 0x5 => rLoop (partsB w)
  | 0x6 => rBtag far (partsA w)
  | 0x7 => rBk .bkany (partsB w)
  | 0x8 => rBk .bkall (partsB w)
  | 0x9 => rPark (partsI w)
  | 0xA => rNone .done (partsA w)
  | 0xB => rTrap .trap (partsI w)
  | 0xC => rTrap .brkp (partsI w)
  | _ => unassigned

/-- Opcodes 0x50-0x5F. -/
def op5 (far : Bool) (w : Word) (lo : Nat) : R Instr :=
  match lo with
  | 0x0 => rLd far (partsM w)
  | 0x1 => rLds far (partsM w)
  | 0x2 => rSt far (partsM w)
  | 0x3 => rVm false far (partsM w)
  | 0x4 => rVm true far (partsM w)
  | 0x5 => rStrided .vlds far (partsA w)
  | 0x6 => rStrided .vsts far (partsA w)
  | 0x7 => rGather .vgath .vgathT far (partsA w)
  | 0x8 => rGather .vscat .vscatT far (partsA w)
  | 0x9 => rKm false far (partsM w)
  | 0xA => rKm true far (partsM w)
  | 0xB => rAmo (fun o _ => .amoadd o) (· == 0) false far (partsA w)
  | 0xC => rAmo (fun o _ => .amoswp o) (· == 0) false far (partsA w)
  | 0xD => rCas far (partsA w)
  | 0xE => rAmo (fun o _ => .amoand o) (· == 0) false far (partsA w)
  | 0xF => rAmo (fun o _ => .amoor o) (· == 0) false far (partsA w)
  | _ => unassigned

/-- Opcodes 0x60-0x6F. -/
def op6 (far : Bool) (w : Word) (lo : Nat) : R Instr :=
  match lo with
  | 0x0 => rAmo (fun o _ => .amoxor o) (· == 0) false far (partsA w)
  | 0x1 => rAmo (fun o t => .amomin o (t == 1)) (fun t => t == 0 || t == 1) false far (partsA w)
  | 0x2 => rAmo (fun o t => .amomax o (t == 1)) (fun t => t == 0 || t == 1) false far (partsA w)
  | 0x3 => rAmo (fun o _ => .amofadd o) (· == 2) true far (partsA w)
  | 0x4 => rRadd far (partsA w)
  | 0x5 => rRaddv far (partsA w)
  | 0x6 => rNone .fence (partsA w)
  | 0x7 => rSfill far (partsA w)
  | 0x8 => rFstat far (partsA w)
  | 0x9 => rMigr far (partsM w)
  | 0xA => rMpin (partsI w)
  | 0xB => rCrewj far (partsA w)
  | 0xC => rCopy .get far (partsT w)
  | 0xD => rCopy .put far (partsT w)
  | 0xE => rTcopy .gett far (partsT w)
  | 0xF => rTcopy .putt far (partsT w)
  | _ => unassigned

/-- Opcodes 0x70-0x7F. -/
def op7 (far : Bool) (w : Word) (lo : Nat) : R Instr :=
  match lo with
  | 0x0 => rQsend far (partsA w)
  | 0x1 => rCexp far (partsA w)
  | 0x2 => rCadd far (partsA w)
  | 0x3 => rCrd far (partsA w)
  | 0x4 => rJmpi .xwait far (partsA w)
  | 0x5 => rHurdle (partsI w)
  | 0x6 => rHset far (partsI w)
  | 0x7 => rSub8 .view far (partsI w)
  | 0x8 => rCline far (partsM w)
  | _ => unassigned

/-- Opcodes 0x80-0x8F. -/
def op8 (far : Bool) (w : Word) (lo : Nat) : R Instr :=
  match lo with
  | 0x0 => rVarith .vadd far (partsA w)
  | 0x1 => rVarith .vsub far (partsA w)
  | 0x2 => rVarith .vmul far (partsA w)
  | 0x3 => rVarith .vfma far (partsA w)
  | 0x4 => rV3 .vmin (fun _ => true) far (partsA w)
  | 0x5 => rV3 .vmax (fun _ => true) far (partsA w)
  | 0x6 => rVabs .vabs (partsA w)
  | 0x7 => rVabs .vneg (partsA w)
  | 0x8 => rV3 .vand (· == .i32) far (partsA w)
  | 0x9 => rV3 .vor (· == .i32) far (partsA w)
  | 0xA => rV3 .vxor (· == .i32) far (partsA w)
  | 0xB => rV3 .vshl tyShift far (partsA w)
  | 0xC => rV3 .vshr tyShift far (partsA w)
  | 0xD => rV3 .vsar tyShift far (partsA w)
  | 0xE => rVcmp far (partsA w)
  | 0xF => rVsel far (partsA w)
  | _ => unassigned

/-- Opcodes 0x90-0x9F. -/
def op9 (far : Bool) (w : Word) (lo : Nat) : R Instr :=
  match lo with
  | 0x0 => rVmov far (partsA w)
  | 0x1 => rVbcast far (partsA w)
  | 0x2 => rVext far (partsA w)
  | 0x3 => rVins far (partsA w)
  | 0x4 => rVred far (partsA w)
  | 0x5 => rVidx far (partsA w)
  | 0x6 => rVtrans .vrcp (partsA w)
  | 0x7 => rVtrans .vrsq (partsA w)
  | 0x8 => rVtrans .vexp2 (partsA w)
  | 0x9 => rVtrans .vlog2 (partsA w)
  | 0xA => rVcvt (partsA w)
  | 0xB => rVpack (partsA w)
  | 0xC => rVunpk (partsA w)
  | 0xD => rV3 .vshrr tyShift far (partsA w)
  | 0xE => rVsat (partsA w)
  | 0xF => rVmulq far (partsA w)
  | _ => unassigned

/-- Opcodes 0xA0-0xAF. -/
def opA (far : Bool) (w : Word) (lo : Nat) : R Instr :=
  match lo with
  | 0x0 => rVquant .vquant far (partsA w)
  | 0x1 => rVquant .vdeq far (partsA w)
  | 0x2 => rVdot far (partsA w)
  | 0x3 => rK3 .kand (partsA w)
  | 0x4 => rK3 .kor (partsA w)
  | 0x5 => rK3 .kxor (partsA w)
  | 0x6 => rKnot (partsA w)
  | 0x7 => rKpop .kpop far (partsA w)
  | 0x8 => rKpop .kfirst far (partsA w)
  | 0x9 => rKmov far (partsA w)
  | _ => unassigned

/-- Opcodes 0xB0-0xBF. -/
def opB (far : Bool) (w : Word) (lo : Nat) : R Instr :=
  match lo with
  | 0x0 => rMma far (partsT w)
  | 0x1 => rMmat (partsT w)
  | 0x2 => rMmag (partsT w)
  | 0x3 => rMmas (partsT w)
  | 0x4 => rAzero (partsT w)
  | 0x5 => rAepi far (partsT w)
  | 0x6 => rArel .arel (partsT w)
  | 0x7 => rArel .aclaim (partsT w)
  | 0x8 => rAimg .asave far (partsT w)
  | 0x9 => rAimg .aload far (partsT w)
  | 0xA => rColl (partsT w)
  | _ => unassigned

/-- Opcodes 0xC0-0xCF. -/
def opC (far : Bool) (w : Word) (lo : Nat) : R Instr :=
  match lo with
  | 0x0 => rTalloc (partsT w)
  | 0x1 => rTfree far (partsT w)
  | 0x2 => rTwiden far (partsT w)
  | 0x3 => rTinfo far (partsT w)
  | 0x4 => rTld .tld far (partsT w)
  | 0x5 => rTld .tldt far (partsT w)
  | 0x6 => rTst far (partsT w)
  | 0x7 => rTred far (partsT w)
  | 0x8 => rTscale far (partsT w)
  | 0x9 => rTew far (partsT w)
  | 0xA => rTcopyI far (partsT w)
  | 0xB => rStash .stash far (partsT w)
  | 0xC => rStash .restore far (partsT w)
  | 0xD => rNmload far (partsT w)
  | 0xE => rNmstrm far (partsT w)
  | 0xF => rNmdrain far (partsT w)
  | _ => unassigned

/-- Opcodes 0xD0-0xDF. -/
def opD (far : Bool) (w : Word) (lo : Nat) : R Instr :=
  match lo with
  | 0x0 => rSpawn far (partsA w)
  | 0x1 => rReap far (partsA w)
  | 0x2 => rLaunch far (partsA w)
  | 0x3 => rCancel far (partsA w)
  | 0x4 => rSysrd far (partsI w)
  | 0x5 => rSyswr far (partsI w)
  | 0x6 => rXret far (partsA w)
  | 0x7 => rSvc (partsI w)
  | 0x8 => rSub8 .keep far (partsI w)
  | _ => unassigned

/-- The row of an opcode. -/
def row (far : Bool) (lit : Word) (w : Word) (hi lo : Nat) : R Instr :=
  match hi with
  | 0x0 => op0 far w lo
  | 0x1 => op1 far w lo
  | 0x2 => op2 far lit w lo
  | 0x3 => op3 far w lo
  | 0x5 => op5 far w lo
  | 0x6 => op6 far w lo
  | 0x7 => op7 far w lo
  | 0x8 => op8 far w lo
  | 0x9 => op9 far w lo
  | 0xA => opA far w lo
  | 0xB => opB far w lo
  | 0xC => opC far w lo
  | 0xD => opD far w lo
  | _ => unassigned

/-- A word of class literal (R209). -/
def isLiteral (w : Word) : Bool := bits w 60 4 == 0xE

/-- A word of class block header (R209). -/
def isHeader (w : Word) : Bool := bits w 60 4 == 0xF

/-- MOVX, the only instruction with a literal word (R219). -/
def isMovx (w : Word) : Bool := bits w 56 8 == 0x2E

/-- Decodes the word `w` of a slot (`far`: a far slot); `next` is the word after it within its span, if there is one.
Total: every word gives an instruction, or the cause and XVALUE of its trap (R226). A block header is no instruction
and is refused as an opcode that does not exist. -/
def decode (far : Bool) (w : Word) (next : Option Word) : R Instr :=
  if isLiteral w then .error (illegal 6 60)
  else if isMovx w then
    match next with
    | some x => if isLiteral x then row far x w (bits w 60 4).toNat (bits w 56 4).toNat else .error (illegal 6 60)
    | none => .error (illegal 6 60)
  else row far 0 w (bits w 60 4).toNat (bits w 56 4).toNat

/-! ## The encoder -/

/-- The B field and PERM of a vector operand. -/
def eVS (f : FA) : VSrc → FA
  | .v n p => { f with b := ofV n, perm := ofPerm p }
  | .sc s => { f with b := ofSrc s, wb := wOf s }

/-- FN[4:0] of a vector word (R292). -/
def eLow (rm : Option RMode) (sat : Bool) : BitVec 5 :=
  match rm with
  | none => BitVec.ofBool sat ++ (0 : BitVec 4)
  | some m => BitVec.ofBool sat ++ (1 : BitVec 1) ++ ofRM m

/-- FN[11:8] of a tensor word (R341). -/
def eHigh (rm : Option RMode) : BitVec 4 :=
  match rm with
  | none => 0
  | some m => (1 : BitVec 1) ++ ofRM m

/-- FN[11:9] of a copy (R281). -/
def ePrio : Option (BitVec 2) → BitVec 3
  | none => 0
  | some p => (1 : BitVec 1) ++ p

def eR3 (op : BitVec 8) (d : SReg) (a b : Src) : Word :=
  packA op { d := ofSReg d, a := ofSrc a, wa := wOf a, b := ofSrc b, wb := wOf b }
def eR1 (op : BitVec 8) (d : SReg) (a : Src) : Word := packA op { d := ofSReg d, a := ofSrc a, wa := wOf a }
def eRI (op : BitVec 8) (sub : BitVec 4) (d : SReg) (a : Src) (imm : BitVec 32) : Word :=
  packI op { d := ofSReg d, a := ofSrc a, wa := wOf a, sub := sub, imm := imm }
def eBf (op : BitVec 8) (sub : BitVec 4) (d : SReg) (a : Src) (p l : BitVec 6) : Word :=
  eRI op sub d a ((0 : BitVec 18) ++ l ++ (0 : BitVec 2) ++ p)
def eM (op v : BitVec 8) (sz : BitVec 3) (sc : Scope) (p : MAddr) : Word :=
  packM op { v := v, a := ofSrc p.base, wa := wOf p.base, sz := sz, sp := p.glb, scope := ofScope sc, keep := p.keep,
             off := p.off }
def eA1 (op v : BitVec 8) (sz : BitVec 3) (sp : Bool) (a : Src) (off : BitVec 32) : Word :=
  packM op { v := v, a := ofSrc a, wa := wOf a, sz := sz, sp := sp, off := off }
def eStrided (op : BitVec 8) (o : Strided) : Word :=
  packA op { d := ofV o.v, a := ofSrc o.base, wa := wOf o.base, b := ofSReg o.stride, k := o.k,
             fn := BitVec.ofBool o.glb ++ o.off }
def eGath (op : BitVec 8) (o : Gathered) : Word :=
  packA op { d := ofV o.v, a := ofSrc o.base, wa := wOf o.base, b := ofV o.vi, perm := ofPerm o.perm, k := o.k,
             fn := BitVec.ofBool o.glb ++ (0 : BitVec 1) ++ o.off }
def eGathT (op : BitVec 8) (o : TGathered) : Word :=
  packA op { d := ofV o.v, a := ofSrc o.h, wa := wOf o.h, b := ofV o.vi, perm := ofPerm o.perm, k := o.k,
             fn := (4 : BitVec 4) ++ ofG o.c }
def eAmo (op : BitVec 8) (o : Amo) (ty : BitVec 3) (c : BitVec 8) : Word :=
  packA op { d := ofSReg o.d, a := ofSrc o.a, wa := wOf o.a, b := ofSrc o.b, wb := wOf o.b, ty := ty,
             fn := BitVec.ofBool o.glb ++ ofScope o.scope ++ BitVec.ofBool o.w64 ++ c }
def eRadd (t : RTy) (a b : Src) (ord : Bool) (o : BitVec 8) : Word :=
  packA 0x64 { a := ofSrc a, wa := wOf a, b := ofSrc b, wb := wOf b, ty := if t = .f32 then 2 else 0,
               fn := BitVec.ofBool ord ++ (0 : BitVec 2) ++ BitVec.ofBool (decide (t = .i64)) ++ o }
def eRaddv (r : RaddV) (ord : Bool) (o : BitVec 8) : Word :=
  packA 0x65 { a := ofSrc r.a, wa := wOf r.a, b := ofV r.v, perm := ofPerm r.perm, k := r.k,
               ty := if r.isF then 2 else 0, fn := BitVec.ofBool ord ++ (0 : BitVec 3) ++ o }
def eCopy (op : BitVec 8) (o : CopyArgs) : Word :=
  packT op { h := ofSReg o.h, c := ofG o.c, l := ofSReg o.l, n := ofCZ o.rc,
             fn := ePrio o.prio ++ (0 : BitVec 1) ++ ofCZ o.sc }
def eTile (op : BitVec 8) (o : TileArgs) (n : BitVec 8) (fn : BitVec 12) : Word :=
  packT op { h := ofSReg o.h, c := ofSReg o.c, l := ofSReg o.l, n := n, shape := ofTShape o.sh, fn := fn }
def eTcopy (op : BitVec 8) (o : TCopyArgs) : Word :=
  eTile op o.t (ofCZ o.n) (ePrio o.prio ++ (0 : BitVec 1) ++ ofG o.id)
def eV3 (op : BitVec 8) (o : V3) (fn : BitVec 12) : Word :=
  packA op (eVS { d := ofV o.d, a := ofV o.a, k := o.k, ty := ofTy o.ty, fn := fn } o.b)
def eV2 (op : BitVec 8) (o : V2) (fn : BitVec 12) : Word :=
  packA op { d := ofV o.d, a := ofV o.a, k := o.k, ty := ofTy o.ty, fn := fn }
def eK (op d a b : BitVec 8) : Word := packA op { d := d, a := a, b := b }
def eQuant (op : BitVec 8) (d a : BitVec 4) (f : QFmt) (rm : Option RMode) : Word :=
  let w (c : BitVec 3) : FA := { d := ofV d, a := ofV a, ty := 2, fn := (0 : BitVec 4) ++ c ++ eLow rm false }
  match f with
  | .px9 => packA op (w 0)
  | .px6 => packA op (w 1)
  | .px4 => packA op (w 2)
  | .mxfp4 => packA op (w 3)
  | .i8 b => packA op (eVS (w 4) b)
  | .i4 b => packA op (eVS (w 5) b)
def fmtNib : Option Tag → BitVec 4
  | none => 0
  | some t => ofTag t
def eColl (op : BitVec 2) (o : CollArgs) : Word :=
  packT 0xBA { h := ofG o.h, c := ofG o.c, l := ofG o.l, n := ofCZ o.n, fn := (0 : BitVec 10) ++ op }
def eStash (op : BitVec 8) (o : StashArgs) : Word :=
  packT op { h := ofSReg o.h, l := ofG o.l, n := ofCZ o.n, fn := ofTgt o.tgt ++ ofGrade o.grade ++ ofG o.st }
def eL (op : BitVec 8) (l : BitVec 4) (fn : BitVec 12) : Word := packT op { l := ofA l, fn := fn }
def eTR (col : Bool) (o : TileArgs) (op : TRedOp) (rm : Option RMode) : Word :=
  eTile 0xC7 o 0 (eHigh rm ++ (0 : BitVec 5) ++ ofTRed op ++ BitVec.ofBool col)
def eKD : KDst → BitVec 8
  | .k n => ofK n
  | .r d => ofSReg d
def eKS : KSrc → BitVec 8
  | .k n => ofK n
  | .r s => ofSrc s
def wKS : KSrc → Bool
  | .k _ => false
  | .r s => wOf s
def eSub8 (op : BitVec 8) (sub : BitVec 4) (a : Src) : Word :=
  packI op { a := ofSrc a, wa := wOf a, sub := sub }

/-- The words of an instruction, from the encoding tables; a step of the device has none. -/
def encode : Instr → List Word
  | .nop => [packA 0x01 { }]
  | .add d a b => [eR3 0x02 d a b]
  | .sub d a b => [eR3 0x04 d a b]
  | .mul d a b => [eR3 0x05 d a b]
  | .mulh d a b => [eR3 0x06 d a b]
  | .mulhn d a b => [eR3 0x07 d a b]
  | .div d a b => [eR3 0x08 d a b]
  | .divn d a b => [eR3 0x09 d a b]
  | .rem d a b => [eR3 0x0A d a b]
  | .remn d a b => [eR3 0x0B d a b]
  | .and d a b => [eR3 0x0C d a b]
  | .or d a b => [eR3 0x0E d a b]
  | .xor d a b => [eR3 0x10 d a b]
  | .andn d a b => [eR3 0x12 d a b]
  | .shl d a b => [eR3 0x13 d a b]
  | .shr d a b => [eR3 0x15 d a b]
  | .sar d a b => [eR3 0x17 d a b]
  | .rol d a b => [eR3 0x19 d a b]
  | .min d a b => [eR3 0x23 d a b]
  | .max d a b => [eR3 0x24 d a b]
  | .minn d a b => [eR3 0x25 d a b]
  | .maxn d a b => [eR3 0x26 d a b]
  | .slt d a b => [eR3 0x27 d a b]
  | .sltn d a b => [eR3 0x28 d a b]
  | .seq d a b => [eR3 0x2A d a b]
  | .addi d a i => [eRI 0x03 0 d a i]
  | .andi d a i => [eRI 0x0D 0 d a i]
  | .ori d a i => [eRI 0x0F 0 d a i]
  | .xori d a i => [eRI 0x11 0 d a i]
  | .slti d a i => [eRI 0x29 0 d a i]
  | .sltiN d a i => [eRI 0x29 1 d a i]
  | .shli d a n => [eRI 0x14 0 d a ((0 : BitVec 26) ++ n)]
  | .shri d a n => [eRI 0x16 0 d a ((0 : BitVec 26) ++ n)]
  | .sari d a n => [eRI 0x18 0 d a ((0 : BitVec 26) ++ n)]
  | .roli d a n => [eRI 0x1A 0 d a ((0 : BitVec 26) ++ n)]
  | .clz d a => [eR1 0x1B d a]
  | .ctz d a => [eR1 0x1C d a]
  | .popc d a => [eR1 0x1D d a]
  | .brev d a => [eR1 0x1E d a]
  | .mov d a => [eR1 0x2C d a]
  | .sext d a w => [eRI 0x1F 0 d a ((0 : BitVec 25) ++ w)]
  | .zext d a w => [eRI 0x20 0 d a ((0 : BitVec 25) ++ w)]
  | .bfx d a p l => [eBf 0x21 0 d a p l]
  | .bfxS d a p l => [eBf 0x21 1 d a p l]
  | .bfi d a p l => [eBf 0x22 0 d a p l]
  | .sel d a b c =>
    [packA 0x2B { d := ofSReg d, a := ofSrc a, wa := wOf a, b := ofSrc b, wb := wOf b, fn := (0 : BitVec 4) ++ ofSReg c }]
  | .movi d i => [packI 0x2D { d := ofSReg d, imm := i }]
  | .movx d x => [packI 0x2E { d := ofSReg d, sub := bits x 60 4 }, packX x]
  | .lea d a o => [eA1 0x2F (ofSReg d) 0 false a o]
  | .leaWin d a o => [eA1 0x2F (ofSReg d) 0 true a o]
  | .br c a b o => [packB 0x30 { a := ofSrc a, b := ofSrc b, wa := wOf a, cond := ofCond c, off := o }]
  | .jmp o => [packB 0x31 { off := o }]
  | .jmpi a => [packA 0x32 { a := ofSrc a, wa := wOf a }]
  | .call o => [packB 0x33 { off := o }]
  | .calli a => [packA 0x34 { a := ofSrc a, wa := wOf a }]
  | .loop n o => [packB 0x35 { a := ofG n, off := o }]
  | .btag p t m => [packA 0x36 { a := ofQ p, b := ofSrc t, wb := wOf t, fn := (0 : BitVec 4) ++ ofSReg m }]
  | .bkany a b o => [packB 0x37 { a := ofK a, b := ofK b, off := o }]
  | .bkall a b o => [packB 0x38 { a := ofK a, b := ofK b, off := o }]
  | .park n => [packI 0x39 { imm := n }]
  | .parkEv m => [packI 0x39 { sub := 1, imm := (0 : BitVec 20) ++ m }]
  | .done => [packA 0x3A { }]
  | .trap c => [packI 0x3B { imm := c }]
  | .brkp c => [packI 0x3C { imm := c }]
  | .ld d z p => [eM 0x50 (ofSReg d) (ofSize z) .sys p]
  | .lds n z p => [eM 0x51 (ofG n) (ofSize z) .sys p]
  | .st v z sc p => [eM 0x52 (ofSrc v) (ofSize z) sc p]
  | .vld v p => [eM 0x53 (ofV v) 7 .sys p]
  | .vst v sc p => [eM 0x54 (ofV v) 7 sc p]
  | .vlds o => [eStrided 0x55 o]
  | .vsts o => [eStrided 0x56 o]
  | .vgath o => [eGath 0x57 o]
  | .vscat o => [eGath 0x58 o]
  | .vgathT o => [eGathT 0x57 o]
  | .vscatT o => [eGathT 0x58 o]
  | .kld k p => [eM 0x59 (ofK k) 3 .sys p]
  | .kst k sc p => [eM 0x5A (ofK k) 3 sc p]
  | .amoadd o => [eAmo 0x5B o 0 0]
  | .amoswp o => [eAmo 0x5C o 0 0]
  | .amocas o c => [eAmo 0x5D o 0 (ofSReg c)]
  | .amoand o => [eAmo 0x5E o 0 0]
  | .amoor o => [eAmo 0x5F o 0 0]
  | .amoxor o => [eAmo 0x60 o 0 0]
  | .amomin o u => [eAmo 0x61 o (if u then 1 else 0) 0]
  | .amomax o u => [eAmo 0x62 o (if u then 1 else 0) 0]
  | .amofadd o => [eAmo 0x63 o 2 0]
  | .radd t a b => [eRadd t a b false 0]
  | .raddOrd t a b o => [eRadd t a b true (ofSReg o)]
  | .raddv r => [eRaddv r false 0]
  | .raddvOrd r o => [eRaddv r true (ofSReg o)]
  | .fence => [packA 0x66 { }]
  | .sfill d a => [eR1 0x67 d a]
  | .fstat d mail => [packA 0x68 { d := ofSReg d, a := if mail then 0x80 else 0x40 }]
  | .migr a o => [eA1 0x69 0 0 true a o]
  | .migrCrew a o => [eA1 0x69 0 1 true a o]
  | .mpin on => [packI 0x6A { imm := if on then 1 else 0 }]
  | .crewj a b => [packA 0x6B { a := ofSrc a, wa := wOf a, b := ofSrc b, wb := wOf b }]
  | .get o => [eCopy 0x6C o]
  | .put o => [eCopy 0x6D o]
  | .gett o => [eTcopy 0x6E o]
  | .putt o => [eTcopy 0x6F o]
  | .qsend p a b n => [packA 0x70 { a := ofSrc a, wa := wOf a, b := ofG b, fn := (0 : BitVec 6) ++ n ++ p }]
  | .cexp c b => [packA 0x71 { a := ofC c, b := ofSrc b, wb := wOf b }]
  | .cadd c b => [packA 0x72 { a := ofC c, b := ofSrc b, wb := wOf b }]
  | .caddClr c b => [packA 0x72 { a := ofC c, b := ofSrc b, wb := wOf b, fn := 1 }]
  | .crd d c => [packA 0x73 { d := ofSReg d, a := ofC c }]
  | .xwait a => [packA 0x74 { a := ofSrc a, wa := wOf a }]
  | .hurdle n => [packI 0x75 { sub := (0 : BitVec 2) ++ n }]
  | .hset n a => [eSub8 0x76 ((0 : BitVec 2) ++ n) a]
  | .view n a => [eSub8 0x77 ((0 : BitVec 1) ++ n) a]
  | .clineWb a o => [eA1 0x78 0 0 true a o]
  | .clineEvict a o => [eA1 0x78 0 1 true a o]
  | .clinePf a o => [eA1 0x78 0 2 true a o]
  | .vadd o rm s => [eV3 0x80 o ((0 : BitVec 7) ++ eLow rm s)]
  | .vsub o rm s => [eV3 0x81 o ((0 : BitVec 7) ++ eLow rm s)]
  | .vmul o rm s => [eV3 0x82 o ((0 : BitVec 7) ++ eLow rm s)]
  | .vfma o rm s => [eV3 0x83 o ((0 : BitVec 7) ++ eLow rm s)]
  | .vmin o => [eV3 0x84 o 0]
  | .vmax o => [eV3 0x85 o 0]
  | .vabs o s => [eV2 0x86 o ((0 : BitVec 7) ++ eLow none s)]
  | .vneg o s => [eV2 0x87 o ((0 : BitVec 7) ++ eLow none s)]
  | .vand o => [eV3 0x88 o 0]
  | .vor o => [eV3 0x89 o 0]
  | .vxor o => [eV3 0x8A o 0]
  | .vshl o => [eV3 0x8B o 0]
  | .vshr o => [eV3 0x8C o 0]
  | .vsar o => [eV3 0x8D o 0]
  | .vcmp d c a b k ty =>
    [packA 0x8E (eVS { d := ofK d, a := ofV a, k := k, ty := ofTy ty, fn := (0 : BitVec 4) ++ ofVCond c ++ (0 : BitVec 5) } b)]
  | .vsel o km => [eV3 0x8F o ((0 : BitVec 4) ++ km ++ (0 : BitVec 5))]
  | .vmov d b k ty => [packA 0x90 (eVS { d := ofV d, k := k, ty := ofTy ty } b)]
  | .vbcast d a i k ty => [packA 0x91 { d := ofV d, a := ofV a, b := ofSrc i, wb := wOf i, k := k, ty := ofTy ty }]
  | .vext d a i ty => [packA 0x92 { d := ofSReg d, a := ofV a, b := ofSrc i, wb := wOf i, ty := ofTy ty }]
  | .vins d a i ty =>
    [packA 0x93 { d := ofV d, a := ofSrc a, wa := wOf a, b := ofSrc i, wb := wOf i, ty := ofTy ty }]
  | .vred d op a k ty rm =>
    [packA 0x94 { d := ofSReg d, a := ofV a, k := k, ty := ofTy ty, fn := (0 : BitVec 4) ++ ofRed op ++ eLow rm false }]
  | .vidx d a b k ty =>
    [packA 0x95 { d := ofV d, a := ofSrc a, wa := wOf a, b := ofSrc b, wb := wOf b, k := k, ty := ofTy ty }]
  | .vrcp o rm => [eV2 0x96 o ((0 : BitVec 7) ++ eLow rm false)]
  | .vrsq o rm => [eV2 0x97 o ((0 : BitVec 7) ++ eLow rm false)]
  | .vexp2 o rm => [eV2 0x98 o ((0 : BitVec 7) ++ eLow rm false)]
  | .vlog2 o rm => [eV2 0x99 o ((0 : BitVec 7) ++ eLow rm false)]
  | .vcvt o s rm => [eV2 0x9A o ((0 : BitVec 4) ++ ofTy s ++ eLow rm false)]
  | .vpack d a b p k dst src rm =>
    [packA 0x9B { d := ofV d, a := ofV a, b := ofV b, perm := ofPerm p, k := k, ty := ofTy dst,
                  fn := (0 : BitVec 4) ++ ofTy src ++ eLow rm false }]
  | .vunpk o s hi => [eV2 0x9C o ((0 : BitVec 3) ++ BitVec.ofBool hi ++ ofTy s ++ (0 : BitVec 5))]
  | .vshrr o => [eV3 0x9D o 0]
  | .vsat o n u => [eV2 0x9E o (BitVec.ofBool u ++ n ++ (0 : BitVec 5))]
  | .vmulq o => [eV3 0x9F o 0]
  | .vquant d a f rm => [eQuant 0xA0 d a f rm]
  | .vdeq d a f rm => [eQuant 0xA1 d a f rm]
  | .vdot d a b k au bu s =>
    [eV3 0xA2 { d := d, a := a, b := b, k := k, ty := .i8 }
      ((0 : BitVec 5) ++ BitVec.ofBool bu ++ BitVec.ofBool au ++ BitVec.ofBool s ++ (0 : BitVec 4))]
  | .kand d a b => [eK 0xA3 (ofK d) (ofK a) (ofK b)]
  | .kor d a b => [eK 0xA4 (ofK d) (ofK a) (ofK b)]
  | .kxor d a b => [eK 0xA5 (ofK d) (ofK a) (ofK b)]
  | .knot d a => [eK 0xA6 (ofK d) (ofK a) 0]
  | .kpop d a => [eK 0xA7 (ofSReg d) (ofK a) 0]
  | .kfirst d a => [eK 0xA8 (ofSReg d) (ofK a) 0]
  | .kmov d a => [packA 0xA9 { d := eKD d, a := eKS a, wa := wKS a }]
  | .mma o =>
    [packT 0xB0 { h := ofSReg o.h, c := ofSReg o.c, l := ofA o.l, n := ofG o.n, shape := ofMShape o.sh,
                  fn := (0 : BitVec 2) ++ BitVec.ofBool o.tb ++ BitVec.ofBool o.ta ++ ofTag o.bf ++ ofTag o.af }]
  | .mmat o =>
    [packT 0xB1 { h := ofG o.h, c := ofG o.c, l := ofA o.l, n := ofG o.n, shape := ofMShape o.sh,
                  fn := BitVec.ofBool o.tb ++ BitVec.ofBool o.ta ++ BitVec.ofBool (decide (o.bf = none))
                    ++ BitVec.ofBool (decide (o.af = none)) ++ fmtNib o.bf ++ fmtNib o.af }]
  | .mmag o =>
    [packT 0xB2 { h := ofG o.h, c := ofV o.vi, l := ofA o.l, n := ofG o.n, shape := ofMShape o.sh,
                  fn := (0 : BitVec 4) ++ ofTag o.bf ++ (0 : BitVec 4) }]
  | .mmas h c l sh => [packT 0xB3 { h := ofG h, c := ofG c, l := ofA l, shape := ofMShape sh }]
  | .azero l t => [eL 0xB4 l ((0 : BitVec 11) ++ BitVec.ofBool t)]
  | .aepi o =>
    let sh : BitVec 12 := match o.xs with
      | none => 0
      | some (m, n) => ofEdge m ++ ofEdge n ++ (0 : BitVec 7) ++ (1 : BitVec 1)
    [packT 0xB5 { h := ofSReg o.h, c := ofG o.c, l := ofA o.l, n := ofG o.n, shape := sh,
                  fn := eHigh o.rm ++ BitVec.ofBool o.rel ++ BitVec.ofBool o.add ++ ofAct o.act ++ ofTag o.df }]
  | .arel l => [eL 0xB6 l 0]
  | .aclaim l => [eL 0xB7 l 0]
  | .asave h l => [packT 0xB8 { h := ofSReg h, l := ofA l }]
  | .aload h l => [packT 0xB9 { h := ofSReg h, l := ofA l }]
  | .collAr o => [eColl 0 o]
  | .collRs o => [eColl 1 o]
  | .collAg o => [eColl 2 o]
  | .collA2a o => [eColl 3 o]
  | .talloc h c l st => [packT 0xC0 { h := ofG h, c := ofG c, l := ofG l, fn := (0 : BitVec 4) ++ ofG st }]
  | .tfree h => [packT 0xC1 { h := ofSReg h }]
  | .twiden h c st w =>
    [packT 0xC2 { h := ofSReg h, c := ofSReg c, fn := (0 : BitVec 3) ++ BitVec.ofBool w ++ ofG st }]
  | .tinfo h l w => [packT 0xC3 { h := ofSReg h, l := ofSReg l, fn := (0 : BitVec 9) ++ w }]
  | .tld o => [eTile 0xC4 o 0 0]
  | .tldt o => [eTile 0xC5 o 0 0]
  | .tst o => [eTile 0xC6 o 0 0]
  | .tstAdd o => [eTile 0xC6 o 0 1]
  | .tredRow o op rm => [eTR false o op rm]
  | .tredCol o op rm => [eTR true o op rm]
  | .tscale h c l sh rm =>
    [packT 0xC8 { h := ofSReg h, c := ofSReg c, l := ofG l, shape := ofTShape sh, fn := eHigh rm ++ (0 : BitVec 8) }]
  | .tew h c y sh rm =>
    match y with
    | .tile op l => [packT 0xC9 { h := ofSReg h, c := ofSReg c, l := ofSReg l, shape := ofTShape sh,
                                  fn := eHigh rm ++ (0 : BitVec 5) ++ ofTew op }]
    | .scalar op l => [packT 0xC9 { h := ofSReg h, c := ofSReg c, l := ofG l, shape := ofTShape sh,
                                    fn := eHigh rm ++ (1 : BitVec 5) ++ ofTew op }]
    | .relu => [packT 0xC9 { h := ofSReg h, c := ofSReg c, shape := ofTShape sh,
                             fn := eHigh rm ++ (0 : BitVec 5) ++ (4 : BitVec 3) }]
  | .tcopy h c l sh t rm =>
    [packT 0xCA { h := ofSReg h, c := ofG c, l := ofG l, shape := ofTShape sh,
                  fn := eHigh rm ++ (0 : BitVec 7) ++ BitVec.ofBool t }]
  | .stash o => [eStash 0xCB o]
  | .restore o => [eStash 0xCC o]
  | .nmload h c => [packT 0xCD { h := ofSReg h, c := ofSReg c }]
  | .nmstrm h c r k => [packT 0xCE { h := ofSReg h, c := ofSReg c, shape := r ++ k ++ (0 : BitVec 4) }]
  | .nmdrain h c r k rm =>
    [packT 0xCF { h := ofSReg h, c := ofSReg c, shape := r ++ k ++ (0 : BitVec 4), fn := eHigh rm ++ (0 : BitVec 8) }]
  | .spawn a b => [packA 0xD0 { a := ofSrc a, wa := wOf a, b := ofSrc b, wb := wOf b }]
  | .reap d a b => [eR3 0xD1 d a b]
  | .launch d a => [eR1 0xD2 d a]
  | .cancel l d a => [packA 0xD3 { d := ofSReg d, a := ofSrc a, wa := wOf a, fn := (0 : BitVec 10) ++ ofLevel l }]
  | .sysrd d r => [packI 0xD4 { d := ofSReg d, imm := (0 : BitVec 20) ++ ofSp r }]
  | .syswr r a => [packI 0xD5 { a := ofSrc a, wa := wOf a, imm := (0 : BitVec 20) ++ ofSp r }]
  | .xret none => [packA 0xD6 { }]
  | .xret (some a) => [packA 0xD6 { a := ofSrc a, wa := wOf a, fn := 1 }]
  | .svc n => [packI 0xD7 { imm := (0 : BitVec 16) ++ n }]
  | .keep n a => [eSub8 0xD8 ((0 : BitVec 1) ++ n) a]
  -- the steps of the device have no word
  | _ => []

end Sys2Proof.Dec

/-- The instruction that the decoder of a local slot reads from the bits `w`: word 0 is bits 63:0 and the word after it
bits 127:64 (the table numbers bits from the first word's lowest); bits at and above `nbits` are 0. -/
def Sys2Proof.decodeTableWord (nbits w : Nat) : Option Sys2Proof.Instr :=
  let x := w % 2 ^ nbits
  match Sys2Proof.Dec.decode false (BitVec.ofNat 64 x) (some (BitVec.ofNat 64 (x / 2 ^ 64))) with
  | .ok i => some i
  | .error _ => none
end

