-- ==== Sys2Proof/Machine/Run.lean ====
section
/-! DEFINITION. Fetching code words, checking the target of a transfer (R31, R212, R250), and running one instruction. -/
namespace Sys2Proof.Machine

/-- A fetch has a route of up links to the tables of its walk and to the home of its word (R423). -/
def State.fetchRouted (s : State) (t a : Nat) : Bool :=
  s.walkRouted (atCore t) (s.jobOf t) a &&
  (match s.walkOf (s.jobOf t) a with
    | .error _ => true
    | .ok l => s.routed (atCore t) (l.phys a))

/-- The fetch of one code word: the cause and XVALUE of its fault, or the word (R31, R48). A word that no route reaches, or that lies in
a poisoned range, is trap 0x0C with its address (R423; for lost code the spec names no trap: DESIGN CHOICE, unsafe,
notes/assumptions/90.md). -/
def State.fetch (s : State) (t : Nat) (a : Nat) : Except (Nat × Word) Word :=
  let bad (cause reason lvl : Nat) : Except (Nat × Word) Word := .error (cause, faultValue reason lvl true false a)
  if outsideGlobal a then bad 5 2 0
  else if windowBase ≤ a then (if s.notOwned (windowCore a) (s.jobOf t) then bad 5 3 0 else bad 6 1 0)
  else if s.fetchRouted t a = false then .error (0x0C, BitVec.ofNat 64 a)
  else match s.walkOf (s.jobOf t) a with
    | .error x => bad 5 x.reason x.level
    | .ok l =>
      if l.cls = 0 ∧ l.x then
        if s.poison.contains (l.phys a / 4096) then .error (0x0C, BitVec.ofNat 64 a)
        else .ok (BitVec.ofNat 64 (readN s.mem (l.phys a) 8))
      else bad 6 1 0

/-- The check of a transfer's target: aligned, fetchable, a header; the fault it takes otherwise (R212, R250). -/
def State.targetFault (s : State) (t : Nat) (a : Nat) : Option (Nat × Word) :=
  if a % 8 ≠ 0 then some (3, BitVec.ofNat 64 (a % 2 ^ 56))
  else match s.fetch t a with
    | .error e => some e
    | .ok w => if Dec.isHeader w then none else some (3, BitVec.ofNat 64 (a % 2 ^ 56))

/-- A fetch of thread `t` that stops with trap `c` for want of a route is an event of kind 7 (R423). -/
def State.logFetch (s : State) (t c : Nat) (x : Word) : State :=
  if c = 0x0C ∧ s.fetchRouted t (x.toNat % 2 ^ 56) = false then s.noteRoute t else s

/-- Checks a target and traps where it fails. -/
def checkTarget (a : Nat) : M Unit := do
  let s ← getS
  match s.targetFault s.cur a with
  | none => pure ()
  | some (c, x) => stop (.trapDo c x fun s => s.logFetch s.cur c x)

/-- The transfer itself: the PC moves, and the next word is the header of a block. -/
def State.jump (s : State) (a : Nat) : State :=
  s.modSlot s.cur fun x =>
    { x with pc := BitVec.ofNat 56 a, span := .entry, latch := [], wait := none, mailOut := none, st := .running }

/-- A checked transfer. -/
def transfer (a : Nat) : M Unit := do
  checkTarget a
  modS fun s => s.jump a
  leave

/-- The handler of a thread can be entered (R387). -/
def State.handlerOk (s : State) (t : Nat) : Bool := (s.targetFault t (s.slot t).sp.xhandler.toNat).isNone

/-- Takes a trap on the thread that issues. -/
def State.trapMe (s : State) (c : Nat) (x : Word) : State :=
  let s := { s with grant := none }
  (s.dropOps s.cur).takeTrap s.cur c x (s.handlerOk s.cur)

/-- An instruction of a far slot whose last effect is a write of a mailbox: it is complete once the core has performed the write, at
the start of a lap (R120). -/
def State.mailDone (s : State) (i : Instr) (r : Nat) (v : Word) : State :=
  if s.grant = some .lapStart then
    ((({ s with grant := none } : State).doneMail s.cur).fillReg (coreOf s.cur) (s.bankNo s.cur) r v s.me.pts).advance i
  else (s.askMail s.cur).parkOn i .lapStart

/-- Runs one instruction of the issuing slot: it completes, traps, parks or leaves. On a stopped die nothing runs. -/
def run (i : Instr) (m : M Unit) (s : State) : Out :=
  if (s.die (runDie s.cur)).stopped then .fault .clocksStopped
  else match s.me.mailOut with
  | some (r, v) => .next (s.mailDone i r v)
  | none => match m s with
    | .ok (_, s') => .next (s'.advance i)
    | .error (.trap c x) => .next (s.trapMe c x)
    | .error (.trapDo c x f) => .next ((f s).trapMe c x)
    | .error (.trapAt c x s') => .next (s'.trapMe c x)
    | .error (.park k s') => .next (s'.parkOn i k)
    | .error (.leave s') => .next s'

/-- A step of the device on a die: nothing happens on a die whose clocks a freeze has stopped (R408). -/
def event (d : Nat) (f : State → State) (s : State) : Out :=
  if (s.die d).stopped then .fault .clocksStopped else .next (f s)

/-- A step of the firmware that a boot image brings: the service core's, the representation manager's or the loader's. A device in
recovery runs none of it (R407). -/
def service (f : State → State) (s : State) : Out :=
  event Config.infieldDie (fun s => if s.pkg.recovery then s else f s) s

end Sys2Proof.Machine
end

