-- ==== Sys2Proof/Machine/Baton.lean ====
section
/-! DEFINITION. Migration: what a baton carries, its departure, arrival, refusal and placement, and crews at their
destination (R157, R173-R182, R383). -/
namespace Sys2Proof.Machine

/-! ## Nothing outstanding (R110, R157) -/

/-- Every chunk of a GET, PUT or GETT is visible: the id is done, and only acknowledgements are on their way (R150, R151). -/
def Copy.over (k : Copy) : Bool := decide (k.kind ≠ 3) && decide (k.vis = k.n)

/-- Every copy and every handle operation that the thread has issued is complete (R110, R157). -/
def State.quiet (s : State) (t : Nat) : Bool :=
  s.copies.all (fun c => decide (c.tid ≠ t) || c.over) && s.colls.all (fun c => decide (c.tid ≠ t)) &&
  s.jobs.all fun e => match e.2 with
    | none => true
    | some j => j.tensors.all fun x => x.2.ops.all fun o => decide (o.tid ≠ t)

/-- The unreported failure with the lowest id below or at a bound (R283). -/
def lowestFail (l : List (Nat × Nat)) : Option (Nat × Nat) :=
  l.foldl (fun b e => match b with | none => some e | some x => if e.1 < x.1 then some e else b) none

/-- XVALUE of trap 0x0D (R386). -/
def engineValue (status low : Nat) : Word := BitVec.ofNat 64 (status * 2 ^ 32 + low)

/-- Reports one unreported copy failure among `l` by trap 0x0D; it is then reported (R283). -/
def reportFail (l : List (Nat × Nat)) : M Unit :=
  match lowestFail l with
  | none => pure ()
  | some e => stop (.trapDo 0x0D (engineValue e.2 e.1) fun s =>
      s.modSlot s.cur fun x => { x with fails := x.fails.filter (· ≠ e) })

/-- Waits for the thread's copies and operations, then reports a failure (R157, R283). Where replies come at once, the converter first
finishes what the thread's widenings wait for. -/
def waitQuiet (k : WaitKind) : M Unit := do
  modS fun s => if s.prompt ∧ s.quiet s.cur = false then s.convertOwn s.cur else s
  let s ← getS
  if s.quiet s.cur then reportFail s.me.fails else park k

/-! ## What a baton carries (R175) -/

/-- The live fields of the block a thread is in; none in an open span (R424). -/
def spanLive : Span → BitVec 33
  | .entry => 0
  | .open_ => 0
  | .block _ lg lv lk => BitVec.ofBool lk ++ lv ++ lg

/-- The carried set (R175). -/
def Slot.carried (x : Slot) : BitVec 33 := spanLive x.span ||| x.wmask

/-- The registers of a carried set; g0 is never carried (R175). -/
def Regs.carry (r : Regs) (m : BitVec 33) : Regs :=
  { g := r.g.filter fun e => m.getLsbD (e.1 / 2)
    v := r.v.filter fun e => m.getLsbD (16 + e.1)
    k := r.k.filter fun _ => m.getLsbD 32 }

/-- The baton of thread `t` (R176). -/
def State.batonOf (s : State) (t dest addr : Nat) : Baton :=
  let x := s.slot t
  { hops := min 255 (x.hops + 1), pc := x.pc, xstat := x.sp.xstat, pts := x.pts, unitid := x.sp.unitid,
    launchid := x.sp.launchid, seed := x.sp.seed, xhandler := x.sp.xhandler, crewN := x.crewN, job := s.jobOf t,
    origin := t, total := x.total, carried := x.carried, regs := x.regs.carry x.carried, addr := addr, dest := dest, held := false, verdict := none,
    cancel := x.cancel }

/-- The first 64 bytes of a baton, as eight words (R176). -/
def Baton.header (b : Baton) : List Nat :=
  [b.hops % 256 * 2 ^ 56 + b.pc.toNat, b.xstat.toNat, b.pts % 2 ^ 48, b.unitid.toNat, b.launchid.toNat, b.seed.toNat, b.xhandler.toNat,
   b.crewN % 16 * 2 ^ 54 + b.job % 16 * 2 ^ 50 + b.origin % 2 ^ 17 * 2 ^ 33 + b.carried.toNat]

/-- The g registers that a carried set names, ascending: a pair gives both, pair 0 gives g1 alone (R175, R176). -/
def carriedG (m : BitVec 33) : List Nat := (List.range 32).filter fun i => decide (i ≠ 0) && m.getLsbD (i / 2)
/-- The v registers that it names. -/
def carriedV (m : BitVec 33) : List Nat := (List.range 16).filter fun i => m.getLsbD (16 + i)
/-- The k registers that it names. -/
def carriedK (m : BitVec 33) : List Nat := if m.getLsbD 32 then (List.range 7).map (· + 1) else []

/-- Bytes of a baton: 64, 8 for each carried g and k register, 256 for each v register (R176). -/
def Baton.size (b : Baton) : Nat :=
  64 + 8 * (carriedG b.carried).length + 256 * (carriedV b.carried).length + 8 * (carriedK b.carried).length

/-- The bytes of a baton, as a number: the header, then g ascending, v and k (R176). -/
def Baton.image (b : Baton) : Nat :=
  let g := carriedG b.carried
  let v := carriedV b.carried
  packNat 64 (b.header ++ g.map fun i => (b.regs.readG i).toNat) +
    packNat 2048 (v.map fun i => (b.regs.readV i).toNat) * 2 ^ (512 + 64 * g.length) +
    packNat 64 ((carriedK b.carried).map fun i => (b.regs.readK i).toNat) * 2 ^ (512 + 64 * g.length + 2048 * v.length)

/-- The baton leaves: the origin becomes RESERVED (R177). -/
def State.depart (s : State) (t dest addr : Nat) : State :=
  let b := s.batonOf t dest addr
  let s := s.modSlot t fun x =>
    { x with st := .reserved, latch := [],
             wait := some { kind := .baton, instr := .nop, stamps := [], data := [], n := addr } }
  { s with batons := s.batons ++ [b] }

/-- Trap 0x0B or 0x0A with a reason and an address (R174, R178). -/
def migrationValue (reason : Nat) (a : Int) : Word := BitVec.ofNat 64 (reason * 2 ^ 60 + (a % 2 ^ 56).toNat)

/-- The thread migrates to core `dest` for an access at `a` (R173): what R174 forbids traps, the thread's copies and
operations end first (R157), an unreported failure is reported (R283), and the baton leaves. Where several conditions of R174
hold at once, the lowest of the reasons 0, 1, 3, 4, 5 is reported (DESIGN CHOICE, notes/assumptions/65.md). The copies that have
ended are merged into the PTS that the baton carries, so that every later access sees them whole (R109,
notes/assumptions/73.md). -/
def migrate {α : Type} (dest : Nat) (a : Int) (crew : Bool) : M α := do
  let s ← getS
  let x := s.me
  if x.sp.xstat.getLsbD 1 then trap 0x0B (migrationValue 0 a)
  else if isFar s.cur then trap 0x0B (migrationValue 1 a)
  else if s.holdsAcc x (s.jobOf s.cur) then trap 0x0B (migrationValue 3 a)
  else if x.sp.xstat.getLsbD 2 ∧ ¬ crew then trap 0x0B (migrationValue 4 a)
  else if x.consumed then trap 0x0B (migrationValue 5 a)
  else do
    waitQuiet .quiet
    modMe fun x => { x with pts := max x.pts x.copyPts }
    modS fun s => s.depart s.cur dest (a % 2 ^ 56).toNat
    leave

/-! ## The destination (R177, R182, R383) -/

/-- The FREE slots among 1-15 of a core, the lowest first. -/
def State.freeSlots (s : State) (c : Nat) : List Nat :=
  ((List.range 15).map (· + 1)).filter fun k => decide ((s.slot (tidOf c k)).st = .free)

/-- A core that can take a baton of a job (R15, R50, R178). -/
def State.takes (s : State) (c j : Nat) : Bool := isNear c || (isCompute c && !s.notOwned c j)

/-- Sends the answer to a baton. -/
def State.sendAnswer (s : State) (b : Baton) (v : Option Nat) : State :=
  { s with answers := s.answers ++ [{ b with verdict := v }] }

/-- The thread of a baton in a slot: what it carries, every other register zero, an open span (R175, R363, R424). -/
def threadOf (b : Baton) (st : SlotSt) : Slot :=
  { Slot.dflt with
    st := st, regs := b.regs, pc := b.pc, span := .open_, wmask := b.carried
    sp := { Special.zero with unitid := b.unitid, launchid := b.launchid, xstat := b.xstat, xhandler := b.xhandler,
                              seed := b.seed }
    pts := b.pts, total := b.total, crewN := b.crewN, hops := b.hops, origin := b.origin, job := some b.job, cancel := b.cancel }

/-- MIGRS counts an accepted baton (R179). -/
def State.countMigr (s : State) (c : Nat) : State := s.modCore c fun x => { x with migrs := (x.migrs + 1) % 2 ^ 48 }

/-- The batons in a core's arrival buffer: those of earlier laps, and those of this lap that found no FREE slot. -/
def Core.buffered (x : Core) : Nat := x.arrivals.length + (x.landed.filter (·.held)).length

/-- A single baton reaches its destination: it is to be placed at the next lap boundary, enters the arrival buffer, or is refused
(R177). `landed` keeps the batons of a lap in order of arrival (R383). -/
def State.land (s : State) (b : Baton) : State :=
  let c := b.dest
  let x := s.core c
  if ¬ s.takes c b.job then s.sendAnswer b (some 1)
  else if x.landed.length + x.arrivals.length < (s.freeSlots c).length then
    s.modCore c fun x => { x with landed := x.landed ++ [b] }
  else if x.buffered < 8 then
    ((s.modCore c fun x => { x with landed := x.landed ++ [{ b with held := true }] }).countMigr c).sendAnswer b none
  else s.sendAnswer b (some 0)

/-- Accepts a baton that is not yet in the arrival buffer: MIGRS counts it and its origin is told (R177, R179). -/
def State.accepts (s : State) (c : Nat) (b : Baton) : State := if b.held then s else (s.countMigr c).sendAnswer b none

/-- Places batons in the lowest FREE slots, in order; the rest is returned (R177). -/
def State.placeAll (s : State) (c : Nat) : List Baton → State × List Baton
  | [] => (s, [])
  | b :: l =>
    match s.freeSlots c with
    | [] =>
      let (s, r) := s.placeAll c l
      (s, b :: r)
    | k :: _ => ((s.setSlot (tidOf c k) (threadOf b .running)).accepts c b).placeAll c l

/-- Batons that found no slot stay in the buffer, or enter it, each at its place in the order of arrival, while `room` of those that are
not in it fit; the others are refused. Beside the state, the buffer (R177). -/
def State.bufferAll (s : State) (c : Nat) : Nat → List Baton → State × List Baton
  | _, [] => (s, [])
  | room, b :: l =>
    if b.held then
      let (s, r) := s.bufferAll c room l
      (s, b :: r)
    else match room with
      | 0 => (s.sendAnswer b (some 0)).bufferAll c 0 l
      | room + 1 =>
        let (s, r) := (s.accepts c b).bufferAll c room l
        (s, { b with held := true } :: r)

/-- The batons that wait are placed at a lap boundary, in order of arrival: those of earlier laps first (R177, R383). One that finds
no slot after all stays in the buffer, or enters it; with the buffer full it is refused. -/
def State.placeBatons (s : State) (c : Nat) : State :=
  let x := s.core c
  let (s, rest) := s.placeAll c (x.arrivals ++ x.landed)
  let (s, buf) := s.bufferAll c (8 - (rest.filter (·.held)).length) rest
  s.modCore c fun x => { x with arrivals := buf, landed := [] }

/-- The answer to a baton reaches its origin: accepted, the origin is FREE; refused, it takes trap 0x0A (R177, R178). -/
def State.hear (s : State) (b : Baton) : State :=
  match b.verdict with
  | none => s.setSlot b.origin Slot.dflt
  | some r =>
    let s := s.modSlot b.origin fun x => { x with st := .running, wait := none }
    s.takeTrap b.origin 0x0A (migrationValue r b.addr) (s.handlerOk b.origin)

/-- The crew a baton belongs to. -/
def batonCrew (b : Baton) : Nat := fieldN b.xstat.toNat 16 16

/-- A baton of a crew reaches its destination: slots are reserved for the whole crew, or the crew is refused (R182). -/
def State.crewLand (s : State) (b : Baton) : State :=
  let c := b.dest
  let id := batonCrew b
  if ¬ s.takes c b.job then s.sendAnswer b (some 1)
  else
    let adm := (s.core c).crews.find? fun a => decide (a.job = b.job) && decide (a.id = id)
    let fill (s : State) (a : CrewAdm) : State :=
      match a.slots with
      | [] => s.sendAnswer b (some 2)
      | k :: rest =>
        let s := s.setSlot (tidOf c k) (threadOf b .held)
        s.modCore c fun x =>
          { x with crews := { a with slots := rest, arrived := a.arrived ++ [k] } ::
                              x.crews.filter fun q => ¬ (q.job = b.job ∧ q.id = id) }
    match adm with
    | some a => if a.refused then s.sendAnswer b (some 2) else fill s a
    | none =>
      let ks := (s.freeSlots c).take b.crewN
      let a : CrewAdm := { job := b.job, id := id, size := b.crewN, arrived := [], slots := ks, refused := false }
      if ks.length < b.crewN then
        (s.modCore c fun x => { x with crews := { a with slots := [], refused := true } :: x.crews }).sendAnswer b (some 2)
      else
        let s := ks.foldl (fun s k => s.setSlot (tidOf c k) { Slot.dflt with st := .held }) s
        fill s a

/-- The crews that are whole start at a lap boundary, and their origins become FREE (R182). -/
def State.startCrews (s : State) (c : Nat) : State :=
  let whole := (s.core c).crews.filter fun a => decide (a.arrived.length = a.size) && !a.refused
  let s := whole.foldl (fun s a => a.arrived.foldl (fun s k =>
      let t := tidOf c k
      let o := (s.slot t).origin
      let s := (s.modSlot t fun x => { x with st := .running }).countMigr c
      if o = t then s else s.setSlot o Slot.dflt) s) s
  s.modCore c fun x => { x with crews := x.crews.filter fun a => ¬ (a.arrived.length = a.size ∧ a.refused = false) }

/-- A baton of a crew, or a single one, reaches its destination. -/
def State.arrive (s : State) (b : Baton) : State :=
  if s.routedTo (atCore b.origin) b.dest = false then
    (s.log (runDie b.origin) 7 (attached (atCore b.origin) * 2048 + coreOf b.origin % 128) 0).sendAnswer b (some 1)
  else if b.xstat.getLsbD 2 ∧ b.crewN ≠ 0 then s.crewLand b else s.land b

/-- A crew is refused with GROUP: its members resume at their origins, its slots are freed (R182, step 4). -/
def State.refuseCrew (s : State) (c : Nat) (a : CrewAdm) : State :=
  let s := a.arrived.foldl (fun s k =>
      let x := s.slot (tidOf c k)
      let b := { s.batonOf (tidOf c k) c 0 with origin := x.origin, addr := ((s.slot x.origin).wait.map (·.n)).getD 0 }
      (s.setSlot (tidOf c k) Slot.dflt).sendAnswer b (some 2)) s
  let s := a.slots.foldl (fun s k => s.setSlot (tidOf c k) Slot.dflt) s
  s.modCore c fun x =>
    { x with crews := { a with arrived := [], slots := [], refused := true } ::
                        x.crews.filter fun q => ¬ (q.job = a.job ∧ q.id = a.id) }

end Sys2Proof.Machine
end

