-- ==== Sys2Proof/Machine/Access.lean ====
section
/-! DEFINITION. One data access: its checks in the order of R261, migration (R173), and its performance (R107). -/
namespace Sys2Proof.Machine

/-- Where an access is performed. -/
inductive Target where
  | loc (a : Nat)
  | cached (pa va : Nat)
  | home (pa va : Nat)
  | host (pa va : Nat)

/-- The address of format M: base plus offset, without wrapping (R21, R24). -/
def addrOf (b : Word) (off : BitVec 32) : Int := b.toNat + off.toInt

/-- Checks the alignment of an access (R262). -/
def aligned (a : Int) (n : Nat) : M Unit :=
  if a % n = 0 then pure () else trap 4 (BitVec.ofNat 64 (a % 2 ^ 56).toNat)

/-- The target of a checked access, and the core it must migrate to (R26, R28, R173). -/
def placeOf (glb : Bool) (a : Int) (n : Nat) (wr amo : Bool) : M (Target ⊕ Nat) := do
  if glb then do
    let p ← resolve a wr amo
    let s ← getS
    match p with
    | .loc off => pure (.inl (.loc off))
    | .win c _ => pure (.inr c)
    | .page pa l =>
      if l.cls = 3 then pure (.inl (.host pa a.toNat))
      else if l.cls = 1 then
        let h := homeCore pa l.home
        if h = coreOf s.cur then pure (.inl (.home pa a.toNat)) else pure (.inr h)
      else pure (.inl (.cached pa a.toNat))
  else do
    checkLocal a n wr
    pure (.inl (.loc a.toNat))

/-- The checks of one access: alignment, address, migration (R261, steps 3-5). -/
def access (glb : Bool) (a : Int) (n align : Nat) (wr amo : Bool) : M Target := do
  aligned a align
  let p ← placeOf glb a n wr amo
  match p with
  | .inl t => pure t
  | .inr c => migrate c a false

/-- Performs a load of `n` bytes. -/
def loadT (t : Target) (n : Nat) (hint : Bool := false) : M Nat := do
  match t with
  | .loc a => loadLocal a n
  | .cached pa va => do
    checkPoison pa va n false
    loadCached pa va n hint
  | .home pa va => do
    checkPoison pa va n false
    entryReady .load pa
    await .load
    checkRoute pa va
    let _ ← sampled va hint
    loadHome pa n
  | .host pa va => hostLoad pa va n

/-- Parks a store to alias bytes that a queued shadowed writer changes (R146), then checks for lost data, which a store that only
writes clears where it covers it (R103), and for an entry in transfer (R87). -/
def storeGate (pa va n : Nat) (wr : Bool) : M Unit := do
  let s ← getS
  if s.aliasBusy (s.jobOf s.cur) va n then park .order
  else do
    checkPoison pa va n wr
    entryReady .store pa
    await .store
    checkRoute pa va

/-- Performs a store of `n` bytes under a scope; a line of a MIGRATE page rests in no cache (R27, R88). -/
def storeT (t : Target) (n v scope : Nat) (hint : Bool := false) : M Unit := do
  match t with
  | .loc a => storeLocal a n v
  | .cached pa va => do
    storeGate pa va n true
    storeCached pa va n v scope hint
  | .home pa va => do
    storeGate pa va n true
    let _ ← sampled va hint
    storePair pa n v 0
  | .host pa va => hostStore pa va n v

/-- Performs a read and a write of `n` bytes at one timestamp: the old value; a write even where the value stays
(R126, R271). -/
def updateT (t : Target) (n scope : Nat) (f : Nat → Nat) : M Nat := do
  match t with
  | .loc a => do
    boardPark a n
    checkSpadPoison a n
    spwStore
    let s ← getS
    let old := s.readLocal s.cur a n
    modS fun s => (s.writeLocal s.cur a n (f old)).notify (localSpace s.cur) a n s.me.pts
    pure old
  | .cached pa va => do
    storeGate pa va n false
    let s ← getS
    let old := readN s.mem pa n
    storeCached pa va n (f old) scope false
    pure old
  | .home pa va => do
    storeGate pa va n false
    let _ ← sampled va false
    let s ← getS
    let old := readN s.mem pa n
    storePair pa n (f old) 0
    pure old
  | .host pa va => do
    let s ← getS
    let old := s.hostGet pa n
    hostStore pa va n (f old)
    pure old

/-! ## Accesses on an instruction's own behalf (R425) -/

/-- The checks of R425 and the target; another core's window is legal and is named by its core. -/
def behalf (a : Int) (wr : Bool) : M (Target ⊕ (Nat × Nat)) := do
  let p ← resolve a wr false
  match p with
  | .loc off => pure (.inl (.loc off))
  | .win c off => pure (.inr (c, off))
  | .page pa l =>
    if l.cls = 3 then pure (.inl (.host pa a.toNat))
    else if l.cls = 1 then pure (.inl (.home pa a.toNat))
    else pure (.inl (.cached pa a.toNat))

/-- A load that never migrates (R425). -/
def behalfLoad (a : Int) (n : Nat) : M Nat := do
  let p ← behalf a false
  match p with
  | .inl t => loadT t n
  | .inr (c, off) => do
    let s ← getS
    if (s.core c).board.any fun e => e.wr && decide (e.lo < off + n) && decide (off < e.hi) then park .board
    await .load
    let s ← getS
    ensure (s.routedTo (atCore s.cur) c) (noRoute 0 a.toNat)
    match (s.core c).poisoned off n with
    | some b => dataLost 2 b
    | none => do
      modS fun s =>
        let t := max s.me.pts (s.bank c 0).spw
        (s.modSlot s.cur fun x => { x with pts := t }).raiseSpw c 0 t
      pure ((s.core c).read off n)

/-- A store of the issuing slot into another core's scratchpad (R127, R425). -/
def State.windowPut (s : State) (c off n v : Nat) : State :=
  let t := max s.me.pts ((s.bank c 0).spw + 1)
  let s := (s.modSlot s.cur fun x => { x with pts := t }).raiseSpw c 0 t
  (s.modCore c fun x => x.write off n v).notify (1 + c) off n t

/-- What a store of R425 waits for, and what stops it, before it asks for its reply. -/
def behalfGate (p : Target ⊕ (Nat × Nat)) (a n : Nat) : M Unit := do
  let s ← getS
  match p with
  | .inl (.loc off) => boardPark off n
  | .inl (.cached pa va) | .inl (.home pa va) => do
    if s.aliasBusy (s.jobOf s.cur) va n then park .order else pure ()
    checkPoison pa va n true
    entryReady .store pa
    checkRoute pa va
  | .inl (.host pa va) => checkRoute pa va
  | .inr (c, _) => ensure (s.routedTo (atCore s.cur) c) (noRoute 0 a)

/-- The store of R425 itself, when nothing stands in its way. -/
def behalfPut (p : Target ⊕ (Nat × Nat)) (n v : Nat) : M Unit :=
  match p with
  | .inl (.loc off) => storeLocal off n v
  | .inl (.cached pa va) => storeCached pa va n v 0 false
  | .inl (.home pa va) => do
    let _ ← sampled va false
    storePair pa n v 0
  | .inl (.host pa va) => do
    let _ ← sampled va false
    modS fun s => s.hostPut pa n v
  | .inr (c, off) => modS fun s => s.windowPut c off n v

/-- A store that never migrates (R425). -/
def behalfStore (a : Int) (n v : Nat) : M Unit := do
  let p ← behalf a true
  match p with
  | .inl t => storeT t n v 0
  | .inr (c, off) => do
    await .store
    let s ← getS
    ensure (s.routedTo (atCore s.cur) c) (noRoute 0 a.toNat)
    modS fun s => s.windowPut c off n v

/-! ## Sizes (R216) -/

/-- Bytes of a size. -/
def sizeBytes : Size → Nat
  | .n8 | .i8 => 1
  | .n16 | .i16 => 2
  | .n32 | .i32 => 4
  | .n64 => 8

/-- A value read, extended as R216 states. -/
def sizeExt (z : Size) (v : Nat) : Word :=
  match z with
  | .i8 => BitVec.ofInt 64 (sintOf 8 v)
  | .i16 => BitVec.ofInt 64 (sintOf 16 v)
  | .i32 => BitVec.ofInt 64 (sintOf 32 v)
  | _ => BitVec.ofNat 64 v

/-- A trap inside keeps what has been performed (R107): the lanes or steps below PROGIDX. -/
def keepDone {α : Type} (m : M α) : M α := fun s =>
  match m s with
  | .error (.trap c x) => .error (.trapAt c x s)
  | r => r

end Sys2Proof.Machine
end

