-- ==== Sys2Proof/Machine/Vector.lean ====
section
/-! DEFINITION. Vector and conversion instructions (R289-R316). -/
namespace Sys2Proof.Machine

/-! ## Elements -/

/-- The rounding mode of a code of XSTAT[10:8] (R197). -/
def modeOf (n : Nat) : RMode :=
  match n with
  | 0 => .rne
  | 1 => .rtz
  | 2 => .rdn
  | 3 => .rup
  | _ => .srh

/-- The applicable mode with the slot's SEED: the modifier's, or the slot's (R197). -/
def Slot.rnd (x : Slot) (rm : Option RMode) : Rnd :=
  { mode := rm.getD (modeOf (fieldN x.sp.xstat.toNat 8 3)), seed := x.sp.seed, idx := 0 }

/-- The mode at an element index (R198). -/
def Rnd.at (k : Rnd) (i : Nat) : Rnd := { k with idx := i }

/-- The floating-point format of an element type; FP32 for the others, which do not use it. -/
def tyFmt : Ty → FFmt
  | .bf16 => fpBf16
  | .e4m3 => fpE4m3
  | .e5m2 => fpE5m2
  | _ => fp32

/-- A floating-point element type. -/
def tyFloat : Ty → Bool
  | .f32 | .bf16 | .e4m3 | .e5m2 => true
  | _ => false

/-- The integer of an element: unsigned for n32 (R294). -/
def tyInt (t : Ty) (c : Nat) : Int :=
  match t with
  | .n32 => c
  | _ => sintOf (tyWidth t) c

/-- The integer range of a type (R294). -/
def tyRange (t : Ty) : Int × Int :=
  match t with
  | .n32 => (0, 2 ^ 32 - 1)
  | _ => (-(2 ^ (tyWidth t - 1)), 2 ^ (tyWidth t - 1) - 1)

/-- An integer result: wrapped, or clamped with SAT (R294). -/
def tyOut (t : Ty) (sat : Bool) (x : Int) : Nat :=
  codeOf (tyWidth t) (if sat then clampI (tyRange t).1 (tyRange t).2 x else x)

/-- A row from a function of the element index. -/
def rowOf (w : Nat) (f : Nat → Nat) : Row := ofElems w ((List.range (2048 / w)).map f)

/-- `OP d, a, b`: A, then B, then D under K; `f` gets the element index and the two elements (R290, R291). -/
def vec2 (o : V3) (f : Nat → Nat → Nat → Nat) : M Unit := do
  let w := tyWidth o.ty
  let a ← readV o.a
  let b ← readVSrc w o.b
  writeMasked o.d o.k (rowOf w fun i => f i (elemAt a w i) (elemAt b w i))

/-- `OP d, a, b` that reads the old D as a third operand. -/
def vec3 (o : V3) (f : Nat → Nat → Nat → Nat → Nat) : M Unit := do
  let w := tyWidth o.ty
  let a ← readV o.a
  let b ← readVSrc w o.b
  let d ← readV o.d
  writeMasked o.d o.k (rowOf w fun i => f i (elemAt a w i) (elemAt b w i) (elemAt d w i))

/-- `OP d, a`. -/
def vec1 (o : V2) (f : Nat → Nat → Nat) : M Unit := do
  let w := tyWidth o.ty
  let a ← readV o.a
  writeMasked o.d o.k (rowOf w fun i => f i (elemAt a w i))

/-- The applicable rounding of the issuing slot. -/
def myRnd (rm : Option RMode) : M Rnd := do
  let x ← myself
  pure (x.rnd rm)

/-! ## Arithmetic (R296-R298) -/

/-- VADD (R296). -/
def execVadd (o : V3) (rm : Option RMode) (sat : Bool) (s : State) : Out :=
  run (.vadd o rm sat) (do
    let k ← myRnd rm
    vec2 o fun i a b => if tyFloat o.ty then fadd (tyFmt o.ty) (k.at i) a b else tyOut o.ty sat (tyInt o.ty a + tyInt o.ty b)) s

/-- VSUB (R296). -/
def execVsub (o : V3) (rm : Option RMode) (sat : Bool) (s : State) : Out :=
  run (.vsub o rm sat) (do
    let k ← myRnd rm
    vec2 o fun i a b => if tyFloat o.ty then fsub (tyFmt o.ty) (k.at i) a b else tyOut o.ty sat (tyInt o.ty a - tyInt o.ty b)) s

/-- VMUL (R296). -/
def execVmul (o : V3) (rm : Option RMode) (sat : Bool) (s : State) : Out :=
  run (.vmul o rm sat) (do
    let k ← myRnd rm
    vec2 o fun i a b => if tyFloat o.ty then fmul (tyFmt o.ty) (k.at i) a b else tyOut o.ty sat (tyInt o.ty a * tyInt o.ty b)) s

/-- VFMA: one rounding of D + A * B (R297). -/
def execVfma (o : V3) (rm : Option RMode) (sat : Bool) (s : State) : Out :=
  run (.vfma o rm sat) (do
    let k ← myRnd rm
    vec3 o fun i a b d =>
      if tyFloat o.ty then ffma (tyFmt o.ty) (k.at i) a b d
      else tyOut o.ty sat (tyInt o.ty d + tyInt o.ty a * tyInt o.ty b)) s

/-- The smaller element (R296). -/
def tyMin (t : Ty) (a b : Nat) : Nat := if tyFloat t then fmin (tyFmt t) a b else if tyInt t b < tyInt t a then b else a
/-- The larger element (R296). -/
def tyMax (t : Ty) (a b : Nat) : Nat := if tyFloat t then fmax (tyFmt t) a b else if tyInt t a < tyInt t b then b else a

/-- VMIN (R296). -/
def execVmin (o : V3) (s : State) : Out := run (.vmin o) (vec2 o fun _ a b => tyMin o.ty a b) s
/-- VMAX (R296). -/
def execVmax (o : V3) (s : State) : Out := run (.vmax o) (vec2 o fun _ a b => tyMax o.ty a b) s

/-- VABS: clears the sign bit, or takes the absolute value (R298). -/
def execVabs (o : V2) (sat : Bool) (s : State) : Out :=
  run (.vabs o sat) (vec1 o fun _ a =>
    if tyFloat o.ty then a % 2 ^ (tyWidth o.ty - 1) else tyOut o.ty sat ((tyInt o.ty a).natAbs : Int)) s

/-- VNEG: flips the sign bit, or negates (R298). -/
def execVneg (o : V2) (sat : Bool) (s : State) : Out :=
  run (.vneg o sat) (vec1 o fun _ a =>
    if tyFloat o.ty then a ^^^ 2 ^ (tyWidth o.ty - 1) else tyOut o.ty sat (-(tyInt o.ty a))) s

/-! ## Logic, shifts, comparison, selection (R299-R302) -/

/-- VAND (R299). -/
def execVand (o : V3) (s : State) : Out := run (.vand o) (vec2 o fun _ a b => a &&& b) s
/-- VOR (R299). -/
def execVor (o : V3) (s : State) : Out := run (.vor o) (vec2 o fun _ a b => a ||| b) s
/-- VXOR (R299). -/
def execVxor (o : V3) (s : State) : Out := run (.vxor o) (vec2 o fun _ a b => a ^^^ b) s

/-- VSHL: by the low log2(w) bits of B (R300). -/
def execVshl (o : V3) (s : State) : Out :=
  run (.vshl o) (vec2 o fun _ a b => (a * 2 ^ (b % tyWidth o.ty)) % 2 ^ tyWidth o.ty) s
/-- VSHR (R300). -/
def execVshr (o : V3) (s : State) : Out := run (.vshr o) (vec2 o fun _ a b => a / 2 ^ (b % tyWidth o.ty)) s
/-- VSAR (R300). -/
def execVsar (o : V3) (s : State) : Out :=
  run (.vsar o) (vec2 o fun _ a b =>
    codeOf (tyWidth o.ty) (sintOf (tyWidth o.ty) a / (2 ^ (b % tyWidth o.ty) : Int))) s

/-- The truth of a lane condition (R301). -/
def laneCond (c : VCond) (t : Ty) (a b : Nat) : Bool :=
  let un := tyFloat t && (fp32.isNan a || fp32.isNan b)
  let lt := if tyFloat t then (fp32.value a).lt false (fp32.value b) else decide (tyInt t a < tyInt t b)
  let gt := if tyFloat t then (fp32.value b).lt false (fp32.value a) else decide (tyInt t b < tyInt t a)
  match c with
  | .eq => !un && !lt && !gt
  | .ne => un || lt || gt
  | .lt => !un && lt
  | .le => !un && !gt
  | .gt => !un && gt
  | .ge => !un && !lt
  | .un => un
  | .ord => !un

/-- VCMP: a lane that K excludes gives 0 (R301). -/
def execVcmp (d : BitVec 3) (c : VCond) (a : BitVec 4) (b : VSrc) (k : BitVec 3) (ty : Ty) (s : State) : Out :=
  run (.vcmp d c a b k ty) (do
    let x ← readV a
    let y ← readVSrc 32 b
    let m ← readK k
    writeK d (maskOf fun l => laneOn m l && laneCond c ty (elemAt x 32 l) (elemAt y 32 l))) s

/-- VSEL (R302). -/
def execVsel (o : V3) (km : BitVec 3) (s : State) : Out :=
  run (.vsel o km) (do
    let x ← readV o.a
    let y ← readVSrc 32 o.b
    let m ← readK km
    writeMasked o.d o.k (rowOf 32 fun l => if laneOn m l then elemAt x 32 l else elemAt y 32 l)) s

/-! ## Movement and reduction (R303-R306) -/

/-- VMOV (R303). -/
def execVmov (d : BitVec 4) (b : VSrc) (k : BitVec 3) (ty : Ty) (s : State) : Out :=
  run (.vmov d b k ty) (do
    let y ← readVSrc (tyWidth ty) b
    writeMasked d k y) s

/-- VBCAST (R303). -/
def execVbcast (d a : BitVec 4) (i : Src) (k : BitVec 3) (ty : Ty) (s : State) : Out :=
  run (.vbcast d a i k ty) (do
    let x ← readV a
    let n ← readSrc 2 i
    let w := tyWidth ty
    let e := elemAt x w (n.toNat % (2048 / w))
    writeMasked d k (rowOf w fun _ => e)) s

/-- An element as a scalar: i types sign-extended (R304). -/
def tyScalar (t : Ty) (c : Nat) : Word :=
  match t with
  | .i32 | .i16 | .i8 => BitVec.ofInt 64 (sintOf (tyWidth t) c)
  | _ => BitVec.ofNat 64 c

/-- VEXT (R304). -/
def execVext (d : SReg) (a : BitVec 4) (i : Src) (ty : Ty) (s : State) : Out :=
  run (.vext d a i ty) (do
    let x ← readV a
    let n ← readSrc 2 i
    let w := tyWidth ty
    writeSR d (tyScalar ty (elemAt x w (n.toNat % (2048 / w))))) s

/-- VINS: the other elements keep their values (R304). -/
def execVins (d : BitVec 4) (a i : Src) (ty : Ty) (s : State) : Out :=
  run (.vins d a i ty) (do
    let (x, n) ← readAB a i
    let old ← readV d
    let w := tyWidth ty
    let j := n.toNat % (2048 / w)
    writeV d (rowOf w fun e => if e = j then x.toNat % 2 ^ w else elemAt old w e)) s

/-- The identity of a reduction (R305). -/
def redIdentity (op : RedOp) (t : Ty) : Nat :=
  match op, t with
  | .add, .f32 => 0x80000000
  | .min, .f32 => 0x7F800000
  | .max, .f32 => 0xFF800000
  | .min, .n32 => 0xFFFFFFFF
  | .min, _ => 0x7FFFFFFF
  | .max, .n32 => 0
  | .max, _ => 0x80000000
  | .and, _ => 0xFFFFFFFF
  | _, _ => 0

/-- One combination of VRED; a NaN in an f32 tree makes the default NaN (R203, R305). -/
def redCombine (op : RedOp) (t : Ty) (k : Rnd) (i a b : Nat) : Nat :=
  match op with
  | .and => a &&& b
  | .or => a ||| b
  | .xor => a ^^^ b
  | .add => if tyFloat t then f32Tree (k.at i) a b else (a + b) % 2 ^ 32
  | .min => if tyFloat t then (if nan32 a || nan32 b then fp32.nan else fmin fp32 a b) else tyMin t a b
  | .max => if tyFloat t then (if nan32 a || nan32 b then fp32.nan else fmax fp32 a b) else tyMax t a b

/-- VRED: a lane that K excludes contributes the identity (R305). -/
def execVred (d : SReg) (op : RedOp) (a : BitVec 4) (k : BitVec 3) (ty : Ty) (rm : Option RMode) (s : State) : Out :=
  run (.vred d op a k ty rm) (do
    let r ← myRnd rm
    let x ← readV a
    let m ← readK k
    let z := redIdentity op ty
    let v := tree (redCombine op ty r) z ((List.range 64).map fun l => if laneOn m l then elemAt x 32 l else z)
    writeSR d (tyScalar ty v)) s

/-- VIDX: element e becomes A + e * B (R306). -/
def execVidx (d : BitVec 4) (a b : Src) (k : BitVec 3) (ty : Ty) (s : State) : Out :=
  run (.vidx d a b k ty) (do
    let (x, y) ← readAB a b
    let w := tyWidth ty
    writeMasked d k (rowOf w fun e => (x.toNat + e * y.toNat) % 2 ^ w)) s

/-! ## Transcendentals (R307) -/

/-- VRCP (R307). -/
def execVrcp (o : V2) (rm : Option RMode) (s : State) : Out :=
  run (.vrcp o rm) (do
    let k ← myRnd rm
    vec1 o fun i a => recip (tyFmt o.ty) (k.at i) a) s
/-- VRSQ (R307). -/
def execVrsq (o : V2) (rm : Option RMode) (s : State) : Out :=
  run (.vrsq o rm) (do
    let k ← myRnd rm
    vec1 o fun i a => rsqrt (tyFmt o.ty) (k.at i) a) s
/-- VEXP2 (R307). -/
def execVexp2 (o : V2) (rm : Option RMode) (s : State) : Out :=
  run (.vexp2 o rm) (do
    let k ← myRnd rm
    vec1 o fun i a => exp2 (tyFmt o.ty) (k.at i) a) s
/-- VLOG2 (R307). -/
def execVlog2 (o : V2) (rm : Option RMode) (s : State) : Out :=
  run (.vlog2 o rm) (do
    let k ← myRnd rm
    vec1 o fun i a => log2F (tyFmt o.ty) (k.at i) a) s

/-! ## Conversions (R308-R310) -/

/-- One element converted between types (R308-R310): floats by R200, integers rounded and clamped. -/
def convElem (dst src : Ty) (k : Rnd) (c : Nat) : Nat :=
  match tyFloat src, tyFloat dst with
  | true, true => convF (tyFmt src) (tyFmt dst) k c
  | false, true => roundFV (tyFmt dst) k (FV.ofInt (tyInt src c))
  | true, false => tyOut dst true (((tyFmt src).value c).toInt k)
  | false, false => tyOut dst true (tyInt src c)

/-- VCVT (R308). -/
def execVcvt (o : V2) (src : Ty) (rm : Option RMode) (s : State) : Out :=
  run (.vcvt o src rm) (do
    let k ← myRnd rm
    vec1 o fun i a => convElem o.ty src (k.at i) a) s

/-- VPACK: the converted image of A, then that of B (R309). -/
def execVpack (d a b : BitVec 4) (p : Perm) (k : BitVec 3) (dst src : Ty) (rm : Option RMode) (s : State) : Out :=
  run (.vpack d a b p k dst src rm) (do
    let r ← myRnd rm
    let x ← readV a
    let y ← readV b
    let y := permRow p y
    let w := tyWidth src
    let n := 2048 / w
    writeMasked d k (rowOf (tyWidth dst) fun e =>
      convElem dst src (r.at e) (if e < n then elemAt x w e else elemAt y w (e - n)))) s

/-- VUNPK: one half of A widened exactly (R310). -/
def execVunpk (o : V2) (src : Ty) (hi : Bool) (s : State) : Out :=
  run (.vunpk o src hi) (do
    let x ← readV o.a
    let w := tyWidth o.ty
    let n := 2048 / w
    writeMasked o.d o.k (rowOf w fun e =>
      convElem o.ty src rne (elemAt x (tyWidth src) (e + if hi then n else 0)))) s

/-! ## Fixed point (R311-R313) -/

/-- VSHRR: floor((A + 2^(n-1)) / 2^n) (R311). -/
def execVshrr (o : V3) (s : State) : Out :=
  run (.vshrr o) (vec2 o fun _ a b =>
    let n := b % tyWidth o.ty
    if n = 0 then a else codeOf (tyWidth o.ty) ((tyInt o.ty a + 2 ^ (n - 1)) / (2 ^ n : Int))) s

/-- VSAT (R312). -/
def execVsat (o : V2) (nM1 : BitVec 6) (u : Bool) (s : State) : Out :=
  run (.vsat o nM1 u) (vec1 o fun _ a =>
    let n := nM1.toNat + 1
    let x := sintOf (tyWidth o.ty) a
    codeOf (tyWidth o.ty) (if u then clampI 0 (2 ^ n - 1) x else clampI (-(2 ^ (n - 1))) (2 ^ (n - 1) - 1) x)) s

/-- VMULQ (R313). -/
def execVmulq (o : V3) (s : State) : Out :=
  run (.vmulq o) (vec2 o fun _ a b =>
    let w := tyWidth o.ty
    tyOut o.ty true ((sintOf w a * sintOf w b + 2 ^ (w - 2)) / (2 ^ (w - 1) : Int))) s

/-! ## Block quantisation (R314, R315) -/

/-- A quotient of two f32 codes rounded to an integer and clamped; a NaN gives 0, an infinity saturates (R315). -/
def quantInt (k : Rnd) (lim : Int) (a b : Nat) : Int :=
  match fp32.value a, fp32.value b with
  | .nan, _ => 0
  | _, .nan => 0
  | .inf _, .inf _ => 0
  | .inf p, .num q _ _ => if p ^^ q then -lim else lim
  | .num _ _ _, .inf _ => 0
  | .num p m e, .num q n f =>
    if n = 0 then (if m = 0 then 0 else if p ^^ q then -lim else lim)
    else
      let (x, y) := fracOf m (e - f)
      let t : Int := (roundNat k (p ^^ q) x (y * n) : Nat)
      clampI (-lim) lim (if p ^^ q then -t else t)

/-- The B operand of the integer formats; zero for the others, which do not read it. -/
def quantScale : QFmt → M Row
  | .i8 b => readVSrc 32 b
  | .i4 b => readVSrc 32 b
  | _ => pure 0

/-- The packed image of 64 f32 codes (R314, R315). -/
def quantImage (f : QFmt) (k : Rnd) (x : List Nat) (b : Row) : Nat :=
  let px (m bytes : Nat) : Nat := packNat (8 * bytes) ((List.range 4).map fun g => quantPx m (k.at (16 * g)) (chunk x 16 g))
  match f with
  | .px9 => px 7 18
  | .px6 => px 4 12
  | .px4 => px 2 8
  | .mxfp4 =>
    let q0 := quantMx (k.at 0) (chunk x 32 0)
    let q1 := quantMx (k.at 32) (chunk x 32 1)
    packNat 128 [q0.1, q1.1] + 2 ^ 256 * (q0.2 + 256 * q1.2)
  | .i8 _ => packNat 8 ((List.range 64).map fun e => codeOf 8 (quantInt (k.at e) 127 (x.getD e 0) (elemAt b 32 e)))
  | .i4 _ => packNat 4 ((List.range 64).map fun e => codeOf 4 (quantInt (k.at e) 7 (x.getD e 0) (elemAt b 32 e)))

/-- Element `e` of a packed image as an f32 code (R315). -/
def dequantElem (f : QFmt) (k : Rnd) (x : Row) (b : Row) (e : Nat) : Nat :=
  let px (m bytes : Nat) : Nat := pxImage m (elemAt x (8 * bytes) (e / 16)) (e % 16)
  let int (w : Nat) : Nat :=
    let c := sintOf w (elemAt x w e)
    fop fp32 k [elemAt b 32 e] ((FV.ofInt c).mul (fp32.value (elemAt b 32 e)))
  match f with
  | .px9 => px 7 18
  | .px6 => px 4 12
  | .px4 => px 2 8
  | .mxfp4 => mxImage k (elemAt x 4 e) (elemAt x 8 (32 + e / 32))
  | .i8 _ => int 8
  | .i4 _ => int 4

/-- VQUANT (R315). -/
def execVquant (d a : BitVec 4) (f : QFmt) (rm : Option RMode) (s : State) : Out :=
  run (.vquant d a f rm) (do
    let k ← myRnd rm
    let x ← readV a
    let b ← quantScale f
    writeV d (BitVec.ofNat 2048 (quantImage f k (elems 32 x) b))) s

/-- VDEQ (R315). -/
def execVdeq (d a : BitVec 4) (f : QFmt) (rm : Option RMode) (s : State) : Out :=
  run (.vdeq d a f rm) (do
    let k ← myRnd rm
    let x ← readV a
    let b ← quantScale f
    writeV d (rowOf 32 fun e => dequantElem f (k.at e) x b e)) s

/-! ## Dot product (R316) -/

/-- VDOT (R316). -/
def execVdot (d a : BitVec 4) (b : VSrc) (k : BitVec 3) (au bu sat : Bool) (s : State) : Out :=
  run (.vdot d a b k au bu sat) (do
    let x ← readV a
    let y ← readVSrc 8 b
    let old ← readV d
    let v (u : Bool) (r : Row) (i : Nat) : Int := if u then elemAt r 8 i else sintOf 8 (elemAt r 8 i)
    writeMasked d k (rowOf 32 fun l =>
      tyOut .i32 sat (sintOf 32 (elemAt old 32 l) +
        ((List.range 4).map fun p => v au x (4 * l + p) * v bu y (4 * l + p)).sum))) s

end Sys2Proof.Machine
end

