-- ==== Sys2Proof/Machine/Memory.lean ====
section
/-! DEFINITION. Loads, stores, vector and mask accesses, atomics, remote adds, line operations (R260-R274, R288). -/
namespace Sys2Proof.Machine

/-! ## Scalar and row accesses (R264-R267) -/

/-- LD (R264). -/
def execLd (d : SReg) (sz : Size) (p : MAddr) (s : State) : Out :=
  run (.ld d sz p) (do
    let b ← readSrc 1 p.base
    let t ← access p.glb (addrOf b p.off) (sizeBytes sz) (sizeBytes sz) false false
    let v ← loadT t (sizeBytes sz) p.keep
    writeSR d (sizeExt sz v)) s

/-- ST (R264). -/
def execSt (v : Src) (sz : Size) (sc : Scope) (p : MAddr) (s : State) : Out :=
  run (.st v sz sc p) (do
    let x ← readSrcN 0 v (needA v p.base)
    let b ← readSrc 1 p.base
    let t ← access p.glb (addrOf b p.off) (sizeBytes sz) (sizeBytes sz) true false
    storeT t (sizeBytes sz) (x.toNat % 2 ^ (8 * sizeBytes sz)) (scopeNo sc) p.keep) s

/-- The space and place of a watch (R265). -/
def watchOf (s : State) : Target → Nat × Nat
  | .loc a => (localSpace s.cur, a)
  | .cached pa _ => (0, pa)
  | .home pa _ => (0, pa)
  | .host pa _ => (0, pa)

/-- LDS: loads until the value differs from the old D, parked on stores to the location (R265). -/
def execLds (n : BitVec 5) (sz : Size) (p : MAddr) (s : State) : Out :=
  run (.lds n sz p) (do
    let w ← myWait
    match w.kind with
    | .watch none => park (.watch none)
    | .watch (some t) => mergePts t
    | _ => pure ()
    let old ← readG n
    let b ← readSrc 1 p.base
    let t ← access p.glb (addrOf b p.off) (sizeBytes sz) (sizeBytes sz) false true
    let v ← loadT t (sizeBytes sz) p.keep
    let x := sizeExt sz v
    if x ≠ sizeExt sz (old.toNat % 2 ^ (8 * sizeBytes sz)) then writeG n x
    else do
      let s ← getS
      let (space, a) := watchOf s t
      keepWait fun w => { w with data := (w.data.set 0 0 space).set 0 1 a, n := sizeBytes sz }
      park (.watch none)) s

/-- VLD (R266). -/
def execVld (v : BitVec 4) (p : MAddr) (s : State) : Out :=
  run (.vld v p) (do
    let b ← readSrc 1 p.base
    let t ← access p.glb (addrOf b p.off) 256 (if p.glb then 256 else 1) false false
    let x ← loadT t 256 p.keep
    writeV v (BitVec.ofNat 2048 x)) s

/-- VST (R266). -/
def execVst (v : BitVec 4) (sc : Scope) (p : MAddr) (s : State) : Out :=
  run (.vst v sc p) (do
    let b ← readSrc 1 p.base
    let t ← access p.glb (addrOf b p.off) 256 (if p.glb then 256 else 1) true false
    let x ← readV v
    storeT t 256 x.toNat (scopeNo sc) p.keep) s

/-- KLD; into k0 the value is discarded (R267). -/
def execKld (k : BitVec 3) (p : MAddr) (s : State) : Out :=
  run (.kld k p) (do
    let b ← readSrc 1 p.base
    let t ← access p.glb (addrOf b p.off) 8 8 false false
    let x ← loadT t 8 p.keep
    writeK k (BitVec.ofNat 64 x)) s

/-- KST (R267). -/
def execKst (k : BitVec 3) (sc : Scope) (p : MAddr) (s : State) : Out :=
  run (.kst k sc p) (do
    let b ← readSrc 1 p.base
    let t ← access p.glb (addrOf b p.off) 8 8 true false
    let x ← readK k
    storeT t 8 x.toNat (scopeNo sc) p.keep) s

/-! ## Strided and gathered accesses (R268, R269) -/

/-- The lanes that take part. -/
def lanesOn (k : Word) : List Nat := (List.range 64).filter fun l => laneOn k l

/-- Every lane's alignment is checked, then every lane's address, in ascending order (R269). -/
def checkLanes (ls : List Nat) (addr : Nat → Int) (wr : Bool) : M Unit := do
  loopM ls fun l => aligned (addr l) 4
  loopM ls fun l => checkLocal (addr l) 4 wr

/-- Parks while any lane's bytes lie in an entry of the scoreboard. -/
def boardLanes (ls : List Nat) (addr : Nat → Int) : M Unit := loopM ls fun l => boardPark (addr l).toNat 4

/-- The bank cycles of the lanes beyond the first (R76). -/
def stallLanes (ls : List Nat) (addr : Nat → Int) : M Unit := modS fun s =>
  let c := coreOf s.cur
  if isCompute c then
    s.stall c (wordCycles (ls.map fun l => (s.core c).place (addr l).toNat / 8) - 1)
  else s

/-- The local loads of the lanes (R268, R269). -/
def gatherLocal (ls : List Nat) (addr : Nat → Int) (d : BitVec 4) : M Unit := do
  checkLanes ls addr false
  boardLanes ls addr
  loopM ls fun l => checkSpadPoison (addr l).toNat 4
  spwLoad
  stallLanes ls addr
  let s ← getS
  let old ← readV d
  writeV d (rowOf 32 fun l => if ls.contains l then s.readLocal s.cur (addr l).toNat 4 else elemAt old 32 l)

/-- The local stores of the lanes; the higher lane's value remains (R268). -/
def scatterLocal (ls : List Nat) (addr : Nat → Int) (x : Row) : M Unit := do
  checkLanes ls addr true
  boardLanes ls addr
  spwStore
  stallLanes ls addr
  modS fun s => ls.foldl (fun s l =>
    (s.writeLocal s.cur (addr l).toNat 4 (elemAt x 32 l)).notify (localSpace s.cur) (addr l).toNat 4 s.me.pts) s

/-- One lane of a global form: a remote MIGRATE page traps (R174, R269). -/
def laneTarget (a : Int) (wr : Bool) : M Target := do
  aligned a 4
  let p ← placeOf true a 4 wr false
  match p with
  | .inl t => pure t
  | .inr _ => trap 0x0B (migrationValue 2 a)

/-- The lanes of a long form from PROGIDX up; a lane that traps leaves PROGIDX at it (R269). -/
def longLanes (ls : List Nat) (f : Nat → M Unit) : M Unit := do
  let x ← myself
  loopM (ls.filter fun l => decide (x.sp.progidx.toNat ≤ l)) fun l => do
    modSp fun p => { p with progidx := BitVec.ofNat 64 l }
    keepDone (f l)
  modSp fun p => { p with progidx := 0 }

/-- A vector read once, and kept for the time the instruction is parked. -/
def keepRow (key : Nat) (m : M Row) : M Row := do
  let w ← myWait
  if w.data.get 0 key = 0 then do
    let x ← m
    keepWait fun w => { w with data := w.data.set 0 key (x.toNat + 1) }
    pure x
  else pure (BitVec.ofNat 2048 (w.data.get 0 key - 1))

/-- The strided or gathered loads (R268, R269). -/
def gatherForm (glb : Bool) (k : BitVec 3) (d : BitVec 4) (addr : Nat → Int) : M Unit := do
  let m ← readK k
  if glb then
    longLanes (lanesOn m) fun l => do
      let t ← laneTarget (addr l) false
      let v ← loadT t 4
      let old ← readV d
      writeV d (rowOf 32 fun i => if i = l then v else elemAt old 32 i)
  else gatherLocal (lanesOn m) addr d

/-- The strided or gathered stores (R268, R269). -/
def scatterForm (glb : Bool) (k : BitVec 3) (x : Row) (addr : Nat → Int) : M Unit := do
  let m ← readK k
  if glb then
    longLanes (lanesOn m) fun l => do
      let t ← laneTarget (addr l) true
      storeT t 4 (elemAt x 32 l) 0
  else scatterLocal (lanesOn m) addr x

/-- The lane addresses of a strided form (R268). -/
def stridedAddr (o : Strided) : M (Nat → Int) := do
  let b ← readSrc 1 o.base
  let g ← readSR 2 o.stride
  pure fun l => b.toNat + o.off.toInt + l * g.toInt

/-- The lane addresses of a gathered form (R268). -/
def gatheredAddr (o : Gathered) : M (Nat → Int) := do
  let b ← readSrc 1 o.base
  let x ← keepRow 100 (readV o.vi)
  let y := permRow o.perm x
  pure fun l => b.toNat + o.off.toInt + 4 * elemAt y 32 l

/-- VLDS (R268). -/
def execVlds (o : Strided) (s : State) : Out :=
  run (.vlds o) (do
    let f ← stridedAddr o
    gatherForm o.glb o.k o.v f) s

/-- VSTS (R268). -/
def execVsts (o : Strided) (s : State) : Out :=
  run (.vsts o) (do
    let f ← stridedAddr o
    let x ← readV o.v
    scatterForm o.glb o.k x f) s

/-- VGATH (R268). -/
def execVgath (o : Gathered) (s : State) : Out :=
  run (.vgath o) (do
    let f ← gatheredAddr o
    gatherForm o.glb o.k o.v f) s

/-- VSCAT: the source is read whole (R268). -/
def execVscat (o : Gathered) (s : State) : Out :=
  run (.vscat o) (do
    let f ← gatheredAddr o
    let x ← readV o.v
    scatterForm o.glb o.k x f) s

/-! ## Atomics (R271) -/

/-- An atomic: A and B, the checks, one indivisible access; D receives the old value, zero-extended. -/
def atomic (o : Amo) (op : Nat → Nat → Nat) : M Unit := do
  let (a, b) ← readAB o.a o.b
  let n := if o.w64 then 8 else 4
  let t ← access o.glb a.toNat n n true true
  let old ← updateT t n (scopeNo o.scope) fun x => op x (b.toNat % 2 ^ (8 * n)) % 2 ^ (8 * n)
  writeSR o.d (BitVec.ofNat 64 old)

/-- The width of an atomic in bits. -/
def amoWidth (o : Amo) : Nat := if o.w64 then 64 else 32

/-- AMOADD (R271). -/
def execAmoadd (o : Amo) (s : State) : Out := run (.amoadd o) (atomic o (· + ·)) s
/-- AMOSWP (R271). -/
def execAmoswp (o : Amo) (s : State) : Out := run (.amoswp o) (atomic o fun _ b => b) s
/-- AMOCAS: the comparand is read after B; a failed one is a write too (R126, R271). -/
def execAmocas (o : Amo) (c : SReg) (s : State) : Out :=
  run (.amocas o c) (do
    let (a, b) ← readAB o.a o.b
    let z ← readSR 3 c
    let n := if o.w64 then 8 else 4
    let t ← access o.glb a.toNat n n true true
    let old ← updateT t n (scopeNo o.scope) fun x =>
      if x = z.toNat % 2 ^ (8 * n) then b.toNat % 2 ^ (8 * n) else x
    writeSR o.d (BitVec.ofNat 64 old)) s
/-- AMOAND (R271). -/
def execAmoand (o : Amo) (s : State) : Out := run (.amoand o) (atomic o (· &&& ·)) s
/-- AMOOR (R271). -/
def execAmoor (o : Amo) (s : State) : Out := run (.amoor o) (atomic o (· ||| ·)) s
/-- AMOXOR (R271). -/
def execAmoxor (o : Amo) (s : State) : Out := run (.amoxor o) (atomic o (· ^^^ ·)) s
/-- AMOMIN, signed or unsigned (R271). -/
def execAmomin (o : Amo) (uns : Bool) (s : State) : Out :=
  run (.amomin o uns) (atomic o fun x b =>
    if uns then min x b else if sintOf (amoWidth o) b < sintOf (amoWidth o) x then b else x) s
/-- AMOMAX (R271). -/
def execAmomax (o : Amo) (uns : Bool) (s : State) : Out :=
  run (.amomax o uns) (atomic o fun x b =>
    if uns then max x b else if sintOf (amoWidth o) x < sintOf (amoWidth o) b then b else x) s
/-- AMOFADD: by RNE (R271). -/
def execAmofadd (o : Amo) (s : State) : Out := run (.amofadd o) (atomic o f32Add) s

/-! ## Remote adds (R272-R274) -/

/-- Bytes of an element. -/
def rtyBytes : RTy → Nat
  | .i64 => 8
  | _ => 4

/-- One addition of an element (R273). -/
def rtyAdd (t : RTy) (x y : Nat) : Nat :=
  match t with
  | .i32 => (x + y) % 2 ^ 32
  | .i64 => (x + y) % 2 ^ 64
  | .f32 => f32Add x y

/-- The bytes of a line after an element is added at byte offset `o`. -/
def addAt (t : RTy) (line o v : Nat) : Nat :=
  let w := 8 * rtyBytes t
  let old := fieldN line (8 * o) w
  line - old * 2 ^ (8 * o) + rtyAdd t old v * 2 ^ (8 * o)

/-- A plain remote add of some elements to the `n` bytes of a target (R273). -/
def raddPlain (t : Target) (ty : RTy) (n : Nat) (es : List (Nat × Nat)) : M Unit := do
  let _ ← updateT t n 0 fun x => es.foldl (fun x e => addAt ty x e.1 e.2) x
  pure ()

/-- RADD (R273). -/
def execRadd (t : RTy) (a b : Src) (s : State) : Out :=
  run (.radd t a b) (do
    let (x, y) ← readAB a b
    let n := rtyBytes t
    let p ← access true x.toNat n n true true
    raddPlain p t n [(0, y.toNat % 2 ^ (8 * n))]) s

/-- The lanes that RADDV adds, with their byte offsets. -/
def raddvLanes (m : Word) (x : Row) : List (Nat × Nat) := (lanesOn m).map fun l => (4 * l, elemAt x 32 l)

/-- RADDV (R273). -/
def execRaddv (r : RaddV) (s : State) : Out :=
  run (.raddv r) (do
    let x ← readSrc 1 r.a
    let v ← readV r.v
    let m ← readK r.k
    let p ← access true x.toNat 256 256 true true
    raddPlain p (if r.isF then .f32 else .i32) 256 (raddvLanes m (permRow r.perm v))) s

/-! ### Ordered rounds (R274) -/

/-- The sum of one element over the contributions that touch it, in ascending index order (R274). -/
def roundSum (ty : RTy) (cs : List Contrib) (o : Nat) : Option Nat :=
  let vs := cs.filterMap fun c => if c.mask.contains o then some (c.lanes.get 0 o).toNat else none
  match vs with
  | [] => none
  | _ => some (tree (fun _ a b => match ty with
      | .f32 => f32Tree rne a b
      | _ => (a + b) % 2 ^ (8 * rtyBytes ty)) 0 vs)

/-- The contributions in ascending index order; the indices of a round are distinct. -/
def byIndex (n : Nat) (cs : List Contrib) : List Contrib :=
  (List.range n).filterMap fun i => cs.find? fun c => decide (c.idx = i)

/-- The line after a round closes: value = value + sum, element by element; any NaN is the default NaN (R274). -/
def closeLine (r : Round) (line : Nat) : Nat :=
  let cs := byIndex r.n r.staged
  (List.range (256 / rtyBytes r.ty)).foldl (fun x i =>
    let o := i * rtyBytes r.ty
    match roundSum r.ty cs o with
    | none => x
    | some v =>
      let w := 8 * rtyBytes r.ty
      let old := fieldN x (8 * o) w
      let z := match r.ty with | .f32 => f32Tree rne old v | _ => (old + v) % 2 ^ w
      x - old * 2 ^ (8 * o) + z * 2 ^ (8 * o)) line

/-- A contribution can enter an open round (R274). -/
def Round.admits (r : Round) (c : Contrib) : Bool :=
  decide (r.job = c.job) && decide (r.n = c.n) && decide (r.ty = c.ty) && r.staged.all fun x => decide (x.idx ≠ c.idx)

/-- Stages one contribution, or holds it for the next round (R274). -/
def Round.stage (r : Round) (c : Contrib) : Round :=
  if r.staged.isEmpty then { r with n := c.n, ty := c.ty, staged := [c] }
  else if r.admits c then { r with staged := r.staged ++ [c] }
  else { r with held := r.held ++ [c] }

/-- Where the bytes of a round's line are: `line` below 2^40 is a physical line; above, a scratchpad line of a core. -/
def lineSpace (line : Nat) : Nat × Nat :=
  if line < 2 ^ 40 then (0, line * 256) else (1 + (line - 2 ^ 40) / 2 ^ 20, ((line - 2 ^ 40) % 2 ^ 20) * 256)

/-- Writes the line of a full round as one store at its home, no lower than any contribution (R126, R274). -/
def State.closeRound (s : State) (r : Round) : State :=
  let pts := r.staged.foldl (fun m c => max m c.pts) 0
  let (space, a) := lineSpace r.line
  if space = 0 then (s.storeAt a 256 (closeLine r (readN s.mem a 256)) pts 0 0).1
  else
    let c := space - 1
    let t := max pts ((s.bank c 0).spw + 1)
    let s := s.raiseSpw c 0 t
    (s.modCore c fun x => x.write a 256 (closeLine r (x.read a 256))).notify (1 + c) a 256 t

/-- A line of a round lies in alias bytes that a queued shadowed writer changes: its store waits for the publish (R146). -/
def State.roundBusy (s : State) (r : Round) : Bool := r.staged.any fun c => s.aliasBusy c.job (c.va - c.va % 256) 256

/-- Rounds close as long as they are full; held contributions enter the next round in order (R274). -/
def closeAll : Nat → State → Round → State
  | 0, s, r => { s with rounds := r :: s.rounds }
  | fuel + 1, s, r =>
    if r.staged.length = r.n ∧ ¬ r.staged.isEmpty ∧ s.roundBusy r = false then
      let s := s.closeRound r
      let next : Round := r.held.foldl (fun q c => q.stage c) { r with staged := [], held := [] }
      if next.staged.isEmpty then s else closeAll fuel s next
    else { s with rounds := r :: s.rounds }

/-- Full rounds that have waited for a publish close (R146, R274). -/
def State.settleRounds (s : State) : State :=
  s.rounds.foldr (fun r s => closeAll (r.held.length + 2) s r) { s with rounds := [] }

/-- A contribution reaches the home of its line, and joins the round of its job there (R49, R50, R274). -/
def State.contribute (s : State) (line : Nat) (c : Contrib) : State :=
  let r := (s.rounds.find? fun r => decide (r.line = line) && decide (r.job = c.job)).getD
    { line := line, job := c.job, n := c.n, ty := c.ty, staged := [], held := [] }
  let s := { s with rounds := s.rounds.filter fun r => !(decide (r.line = line) && decide (r.job = c.job)) }
  let r := r.stage c
  closeAll (r.held.length + 2) s r

/-- The contribution of the issuing slot, at byte `base` of its line and address `va`. -/
def State.contribOf (s : State) (ty : RTy) (n idx base va : Nat) (es : List (Nat × Nat)) : Contrib :=
  { idx := idx, n := n, ty := ty, pts := s.me.pts,
    lanes := es.foldl (fun m e => m.set 0 (base + e.1) (BitVec.ofNat 64 e.2)) [],
    mask := es.map fun e => base + e.1, level := s.me.sp.launchid, job := s.jobOf s.cur, va := va }

/-- An ordered contribution reaches the home of a line of paged memory, behind every store that R146 and R87 hold back; the PTS
rises as for a store (R126, R274). -/
def stagePage (pa va w : Nat) (ty : RTy) (n idx : Nat) (es : List (Nat × Nat)) : M Unit := do
  let s ← getS
  if s.aliasBusy (s.jobOf s.cur) va w then park .order
  checkPoison pa va w false
  entryReady .stage pa
  await .stage
  checkRoute pa va
  let _ ← sampled va false
  modS fun s => s.modSlot s.cur fun x => { x with pts := max x.pts ((s.pairOf pa).rts + 1) }
  modS fun s => s.contribute (pa / 256) (s.contribOf ty n idx (pa % 256) va es)

/-- An ordered contribution of the issuing slot to `w` bytes: it is staged at the home (R126, R274), or, in the own core's window,
at the scratchpad. -/
def raddStage (t : Target) (ty : RTy) (n idx w : Nat) (es : List (Nat × Nat)) : M Unit := do
  match t with
  | .loc a => do
    boardPark a w
    checkSpadPoison a w
    spwStore
    modS fun s => s.contribute (2 ^ 40 + coreOf s.cur * 2 ^ 20 + a / 256)
      (s.contribOf ty n idx (a % 256) (windowBase + coreOf s.cur * 2 ^ 28) es)
  | .cached pa va => stagePage pa va w ty n idx es
  | .home pa va => stagePage pa va w ty n idx es
  | .host _ _ => pure ()

/-- The order register: index and count; an index at or above the count is refused (R272). -/
def orderOf (o : Word) : M (Nat × Nat) := do
  let i := fieldN o.toNat 0 8
  let n := fieldN o.toNat 8 8 + 1
  ensure (decide (i < n)) (illegalOp 7 0)
  pure (i, n)

/-- RADD.ord (R274). -/
def execRaddOrd (t : RTy) (a b : Src) (o : SReg) (s : State) : Out :=
  run (.raddOrd t a b o) (do
    let (x, y) ← readAB a b
    let r ← readSR 3 o
    let (i, c) ← orderOf r
    let n := rtyBytes t
    let p ← access true x.toNat n n true true
    raddStage p t c i n [(0, y.toNat % 2 ^ (8 * n))]) s

/-- RADDV.ord (R274). -/
def execRaddvOrd (r : RaddV) (o : SReg) (s : State) : Out :=
  run (.raddvOrd r o) (do
    let x ← readSrc 1 r.a
    let q ← readSR 3 o
    let (i, c) ← orderOf q
    let v ← readV r.v
    let m ← readK r.k
    let p ← access true x.toNat 256 256 true true
    raddStage p (if r.isF then .f32 else .i32) c i 256 (raddvLanes m (permRow r.perm v))) s

/-! ## Line operations (R288) -/

/-- The physical line of an address that the issuing job maps as CACHED; none otherwise: CLINE never faults. -/
def State.clineLine (s : State) (a : Int) : Option Nat :=
  if a < 0 then none
  else if windowBase ≤ a.toNat then none
  else match s.walkOf (s.jobOf s.cur) a.toNat with
    | .error _ => none
    | .ok l => if l.cls = 0 then some (l.phys a.toNat / 256) else none

/-- Drops the line from the L1s and the L2 of a die. -/
def State.dropLine (s : State) (d line : Nat) : State :=
  let s := { s with cores := s.cores.map fun (e : Nat × Core) =>
    (e.1, if e.1 / 128 = d then { e.2 with l1 := e.2.l1.filter fun k => decide (k.line ≠ line) } else e.2) }
  s.modDie d fun x => { x with l2 := x.l2.filter fun k => decide (k.line ≠ line) }

/-- The line's dirty sectors are written back: no scoped holder of the die remains (R88, R288). -/
def State.writeBack (s : State) (d line : Nat) : State :=
  let p := s.pairOf (line * 256)
  if 2 ≤ p.scope ∧ p.who / 128 = d then s.setPair (line * 256) { p with scope := 0, who := 0, owner := 0 } else s

/-- CLINE.wb: keeps clean copies (R288). -/
def execClineWb (a : Src) (off : BitVec 32) (s : State) : Out :=
  run (.clineWb a off) (do
    let b ← readSrc 1 a
    modS fun s => match s.clineLine (addrOf b off) with
      | none => s
      | some l => s.writeBack (runDie s.cur) l) s

/-- CLINE.evict: writes back, then drops the line (R288). -/
def execClineEvict (a : Src) (off : BitVec 32) (s : State) : Out :=
  run (.clineEvict a off) (do
    let b ← readSrc 1 a
    modS fun s => match s.clineLine (addrOf b off) with
      | none => s
      | some l => (s.writeBack (runDie s.cur) l).dropLine (runDie s.cur) l) s

/-- The copy that a fill of a line brings to an agent at a PTS without a renewal: it changes no timestamp of the line. -/
def State.fillCopy (s : State) (j line pts : Nat) : LineCopy :=
  let p := s.pairOf (line * 256)
  { job := j, line := line, data := BitVec.ofNat 2048 (readN s.mem (line * 256) 256), wts := p.wts,
    rts := min p.rts (max pts p.wts + s.lease j), valid := BitVec.allOnes 8, dirty := 0, kept := 0 }

/-- A prefetch is an access to the line: one from outside its scope makes the holder publish first (R134), and without a route to the
home there is none (R419, R423). -/
def State.prefetch (s : State) (j line pts : Nat) : State :=
  let pa := line * 256
  if s.ownLine pa = false ∧ s.routed (atCore s.cur) pa = false then s
  else
    let s := s.setPair pa ((s.pairOf pa).published s.cur)
    s.fillBoth (coreOf s.cur) (s.fillCopy j line pts)

/-- CLINE.pf: a fill of the line into the core's L1 and the die's L2; it raises no timestamp of the slot or of the line (R288). -/
def execClinePf (a : Src) (off : BitVec 32) (s : State) : Out :=
  run (.clinePf a off) (do
    let b ← readSrc 1 a
    modS fun s => match s.clineLine (addrOf b off) with
      | none => s
      | some l =>
        if isLocal s.cur ∧ ¬ s.poison.contains (l / 16) ∧ s.badAt (l * 256) 256 false = false then
          s.prefetch (s.jobOf s.cur) l s.me.pts
        else s) s

end Sys2Proof.Machine
end

