-- ==== Sys2Proof/Machine/Sync.lean ====
section
/-! DEFINITION. Fences, full bits, messages, byte counters, watermarks, hurdles and views (R79, R110, R115-R121,
R150-R154, R183-R185, R275-R277, R285-R287). -/
namespace Sys2Proof.Machine

/-! ## Fence and full bits -/

/-- FENCE: waits, reports a failure, and takes the stamp of the copies it waited for (R109, R110, R275). -/
def execFence (s : State) : Out :=
  run .fence (do
    waitQuiet .fence
    modMe fun x => { x with pts := max x.pts x.copyPts }) s

/-- The number of a shared register: s0-s63 are 0-63, m0-m7 are 64-71. -/
def sharedNo : SReg → Option Nat
  | .g _ => none
  | .s n => some n.toNat
  | .m n => some (64 + n.toNat)

/-- One of s0-s63, which a far slot does not share (R221). -/
def isS : SReg → Bool
  | .s _ => true
  | _ => false

/-- SFILL: the synchronised write (R116, R276); a far slot fills its mailboxes only, and what is refused there is the instruction (R263,
R427). -/
def execSfill (d : SReg) (a : Src) (s : State) : Out :=
  run (.sfill d a) (do
    let s ← getS
    ensure (!(isFar s.cur && isS d)) (illegalOp 8 56)
    let x ← readSrc 1 a
    match sharedNo d with
    | none => pure ()
    | some r => sfillShared r x) s

/-- The F bits of s0-s63, or of m0-m7 (R277). -/
def State.fullBits (s : State) (mail : Bool) : Word :=
  maskOf fun i => if mail then decide (i < 8) && (s.myReg (64 + i)).full else (s.myReg i).full

/-- FSTAT: reads no value, merges no stamp, waits for nothing; a far slot reads the F bits of its mailboxes only
(R263, R277). DEDUCED, unsafe for a claim about XVALUE: what is refused is the instruction in a far slot, so FIELD is 56, the opcode
(R427; notes/assumptions/80.md). -/
def execFstat (d : SReg) (mail : Bool) (s : State) : Out :=
  run (.fstat d mail) (do
    let s ← getS
    ensure (mail || !isFar s.cur) (illegalOp 8 56)
    writeSR d (s.fullBits mail)) s

/-! ## Messages (R119, R285) -/

/-- The bank of a core that the messages of job `j` enter (R52). -/
def bankFor (c j : Nat) : Nat := if isNear c then j else 0

/-- The refusal of a target, or its core (R285). -/
def sendTarget (a : Word) (port : BitVec 3) : M Nat := do
  let s ← getS
  let c := fieldN a.toNat 12 5 * 128 + fieldN a.toNat 5 7
  if 2 ^ 17 ≤ a.toNat ∨ ¬ (isCompute c ∨ isNear c) then trap 5 (faultValue 2 0 false false a.toNat)
  else if port = 0 ∨ (isCompute c ∧ s.notOwned c (s.jobOf s.cur)) then trap 5 (faultValue 3 0 false false a.toNat)
  else pure c

/-- QSEND: parks until the port has room for all its words (R285). -/
def execQsend (p : BitVec 3) (a : Src) (b : BitVec 5) (nM1 : BitVec 3) (s : State) : Out :=
  run (.qsend p a b nM1) (do
    let w ← myWait
    if w.kind = .ready ∧ w.n = 1 then pure ()
    else do
      let x ← readSrc 1 a
      let c ← sendTarget x p
      let me ← myself
      let s ← getS
      let m : Msg := { src := some s.cur, core := c, bank := bankFor c (s.jobOf s.cur), port := p.toNat,
                       words := (List.range (nM1.toNat + 1)).map fun i => me.regs.readG (b.toNat + i), stamp := me.pts }
      if s.prompt ∧ s.hasRoom m then
        modS fun s => ({ s with msgs := s.msgs.filter fun q => decide (q.src ≠ m.src) } : State).deliver m
      else do
        modS fun s => { s with msgs := if s.msgs.any fun q => decide (q.src = m.src) then s.msgs else s.msgs ++ [m] }
        park (.room c p.toNat m.words.length)) s

/-! ## Byte counters (R151-R154) -/

/-- The range of VALUE (R151). -/
def inRange (v : Int) : Bool := decide (-(2 ^ 47) ≤ v) && decide (v < 2 ^ 47)

/-- A counter of a bank. -/
def State.ctr (s : State) (c b n : Nat) : Counter := (s.bank c b).ctrs.get Counter.dflt n

/-- Writes a counter; a change of VALUE or ERR is an event of PARK.ev (R256). -/
def State.setCtr (s : State) (c b n : Nat) (x : Counter) : State :=
  let old := s.ctr c b n
  let s := s.modBank c b fun k => { k with ctrs := k.ctrs.set Counter.dflt n x }
  if old.val = x.val ∧ old.err = x.err then s else s.signal c b 0x100

/-- A chunk is counted; VALUE saturates and ERR becomes OVERFLOW past the range (R151, R154). -/
def State.countChunk (s : State) (c b n bytes stamp id : Nat) : State :=
  let x := s.ctr c b n
  let v := x.val + bytes
  let x := { x with stamp := max x.stamp stamp }
  if inRange v then s.setCtr c b n { x with val := v }
  else s.setCtr c b n { x with val := 2 ^ 47 - 1, err := if x.err = 0 then 1 else x.err,
                               failId := if x.err = 0 then id else x.failId }

/-- The first failure sets ERR and FAILID (R154). -/
def State.failCtr (s : State) (c b n err id : Nat) : State :=
  let x := s.ctr c b n
  if x.err = 0 then s.setCtr c b n { x with err := err, failId := id } else s

/-- The counter of the issuing core. -/
def myCtr (n : BitVec 5) : M Counter := fun s => .ok (s.ctr (coreOf s.cur) (s.bankNo s.cur) n.toNat, s)
/-- Writes a counter of the issuing core. -/
def setMyCtr (n : BitVec 5) (x : Counter) : M Unit :=
  modS fun s => s.setCtr (coreOf s.cur) (s.bankNo s.cur) n.toNat x

/-- Counters are of local slots and near cores 4-7 (R263). -/
def notFar : M Unit := do
  let s ← getS
  ensure (!isFar s.cur) (illegalOp 8 56)

/-- Trap 0x12 for a counter (R154). -/
def overflowTrap {α : Type} (n : BitVec 5) : M α := trap 0x12 (n.setWidth 64)

/-- The traps of CEXP on a counter in error (R154). -/
def checkErr (n : BitVec 5) (x : Counter) : M Unit :=
  if x.err = 0 then pure ()
  else if x.err = 1 then overflowTrap n
  else trap 0x0D (engineValue x.err x.failId)

/-- CEXP: the subtraction, once, then a wait for VALUE ≥ 0 (R151, R154, R286). -/
def execCexp (c : BitVec 5) (b : Src) (s : State) : Out :=
  run (.cexp c b) (do
    notFar
    let w ← myWait
    let x ← myCtr c
    if w.kind = .counter c.toNat then checkErr c x
    else do
      let n ← readSrc 2 b
      checkErr c x
      ensure (inRange (x.val - n.toInt)) (overflowTrap c)
      setMyCtr c { x with val := x.val - n.toInt }
    let x ← myCtr c
    if x.val < 0 then park (.counter c.toNat) else mergePts x.stamp) s

/-- CADD: an ERR other than OVERFLOW stays and does not trap (R151, R154). -/
def execCadd (c : BitVec 5) (b : Src) (s : State) : Out :=
  run (.cadd c b) (do
    notFar
    let n ← readSrc 2 b
    let x ← myCtr c
    ensure (decide (x.err ≠ 1)) (overflowTrap c)
    ensure (inRange (x.val + n.toInt)) (overflowTrap c)
    let me ← myself
    setMyCtr c { x with val := x.val + n.toInt, stamp := max x.stamp me.pts }) s

/-- CADD.clr: VALUE is set, ERR and FAILID are cleared (R151, R154). -/
def execCaddClr (c : BitVec 5) (b : Src) (s : State) : Out :=
  run (.caddClr c b) (do
    notFar
    let n ← readSrc 2 b
    let x ← myCtr c
    ensure (inRange n.toInt) (overflowTrap c)
    let me ← myself
    setMyCtr c { val := n.toInt, err := 0, failId := 0, stamp := max x.stamp me.pts }) s

/-- The word that CRD returns (R151). -/
def Counter.word (x : Counter) : Word := BitVec.ofNat 64 (x.err * 2 ^ 56 + (x.val % 2 ^ 48).toNat)

/-- CRD (R151). -/
def execCrd (d : SReg) (c : BitVec 5) (s : State) : Out :=
  run (.crd d c) (do
    notFar
    let x ← myCtr c
    mergePts x.stamp
    writeSR d x.word) s

/-! ## Transfer ids (R150) -/

/-- XFERDONE: every id below it is done (R150). -/
def Bank.xferDone (b : Bank) : Nat := b.pending.headD b.xferNext

/-- Id `t` comes before `w` in the order of ids (R150). -/
def idBelow (t w : Nat) : Bool := decide (((w : Int) - 1 - t) % 2 ^ 32 < 2 ^ 31)

/-- XWAIT: an id not yet issued traps; a wait for the id; a failure of that id or an earlier one is reported
(R150, R283). -/
def execXwait (a : Src) (s : State) : Out :=
  run (.xwait a) (do
    notFar
    let x ← readSrc 1 a
    let t : Nat := x.toNat % 2 ^ 32
    let s ← getS
    let b := s.bank (coreOf s.cur) (s.bankNo s.cur)
    if idBelow b.xferNext (t + 1) then trap 0x0D (engineValue 6 t)
    else if b.pending.contains t then park (.xfer t)
    else do
      let me ← myself
      reportFail (me.fails.filter fun e => idBelow e.1 (t + 1))
      mergePts b.xferStamp) s

/-! ## Hurdles (R183-R185, R132) -/

/-- The fields of HBn that software writes (R183). -/
def hbWritten : Word := 0x8000F000001FFF80
/-- The reserved bits of HBn. -/
def hbReserved : Word := 0x3FE00FFFFFE0007F

/-- Corner column. -/
def hbX0 (v : Word) : Nat := fieldN v.toNat 10 4
/-- Corner row. -/
def hbY0 (v : Word) : Nat := fieldN v.toNat 7 3
/-- Width. -/
def hbW (v : Word) : Nat := fieldN v.toNat 17 4 + 1
/-- Height. -/
def hbH (v : Word) : Nat := fieldN v.toNat 14 3 + 1
/-- Participants per core. -/
def hbCount (v : Word) : Nat := fieldN v.toNat 44 4 + 1

/-- A hurdle of a core. -/
def State.hb (s : State) (c n : Nat) : Hurdle := (s.core c).hb.get Hurdle.dflt n
/-- Changes a hurdle of a core. -/
def State.modHb (s : State) (c n : Nat) (f : Hurdle → Hurdle) : State :=
  s.modCore c fun x => { x with hb := x.hb.set Hurdle.dflt n (f (x.hb.get Hurdle.dflt n)) }

/-- What reading HBn returns: ARR is the number of arrivals of the phase. -/
def Hurdle.word (h : Hurdle) : Word := h.val ||| BitVec.ofNat 64 (h.arrs.length * 2 ^ 48)

/-- Column and row of a core (R14). -/
def colOf (c : Nat) : Nat := c % 16
/-- Row of a core. -/
def rowOfCore (c : Nat) : Nat := c % 128 / 16
/-- The core of a die at a column and a row. -/
def coreXY (d x y : Nat) : Nat := d * 128 + 16 * y + x

/-- A write of HBn by a core is refused (R183). -/
def hbBad (c : Nat) (h : Hurdle) (v : Word) : Bool :=
  decide (v &&& hbReserved ≠ 0) || decide (16 < hbX0 v + hbW v) || decide (8 < hbY0 v + hbH v) ||
  decide (colOf c < hbX0 v) || decide (hbX0 v + hbW v ≤ colOf c) || decide (rowOfCore c < hbY0 v) ||
  decide (hbY0 v + hbH v ≤ rowOfCore c) || decide (h.arrs ≠ [])

/-- HSET, HURDLE and VIEW issue in local slots of compute cores only (R287). -/
def localOnly : M Unit := do
  let s ← getS
  ensure (isLocal s.cur) (illegalOp 8 56)

/-- A write of HBn of the issuing core (R183); PHASE and ARR are read-only. -/
def writeHb (n : Nat) (v : Word) : M Unit := do
  let s ← getS
  let c := coreOf s.cur
  ensure (!hbBad c (s.hb c n) v) (illegalOp 7 40)
  modS fun s => s.modHb c n fun h => { h with val := (v &&& hbWritten) ||| (h.val &&& 0x4000000000000000) }

/-- HSET (R287). -/
def execHset (n : BitVec 2) (a : Src) (s : State) : Out :=
  run (.hset n a) (do
    localOnly
    let x ← readSrc 1 a
    writeHb n.toNat x) s

/-- The core is ready, and has the signals it waits for: from its row, and in column X0 from the row beyond (R184). -/
def hbReady (c : Nat) (h : Hurdle) : Bool :=
  decide (hbCount h.val ≤ h.arrs.length) &&
  (h.row || decide (hbX0 h.val + hbW h.val ≤ colOf c + 1)) &&
  (h.col || decide (colOf c ≠ hbX0 h.val) || decide (hbY0 h.val + hbH h.val ≤ rowOfCore c + 1))

/-- The PTS that a core's signal carries: the maximum over its arrivals and the signals it has received (R132). -/
def Hurdle.maxPts (h : Hurdle) : Nat := h.arrs.foldl max h.pts

/-- The signal of a core on its way: toward column X0, then toward row Y0, then, at the corner, the release. -/
def hbSignal (c n : Nat) (h : Hurdle) : HSig :=
  let x := colOf c
  let y := rowOfCore c
  let base : HSig := { die := c / 128, x := x, y := y, n := n, val := h.val &&& hbWritten, row := false, rel := false,
                       broken := h.broken, pts := h.maxPts }
  if hbX0 h.val < x then { base with x := x - 1, row := true }
  else if hbY0 h.val < y then { base with y := y - 1 }
  else { base with rel := true }

/-- A core sends its signal when it is ready, or at once when the phase is broken (R184, R185). -/
def State.hbSend (s : State) (c n : Nat) : State :=
  let h := s.hb c n
  if h.sent ∨ ¬ (h.broken ∨ hbReady c h) then s
  else
    let s := { s with sigs := s.sigs ++ [hbSignal c n h] }
    s.modHb c n fun h => { h with sent := true }

/-- A signal reaches a core: a value that differs, or a broken signal, breaks the phase, and the broken signal goes on at
once, once (R185). -/
def State.hbReceive (s : State) (g : HSig) : State :=
  let c := coreXY g.die g.x g.y
  let h := s.hb c g.n
  let bad := g.broken || decide (g.val ≠ h.val &&& hbWritten)
  let s := s.modHb c g.n fun h =>
    { h with row := h.row || g.row, col := h.col || !g.row, pts := max h.pts g.pts, broken := h.broken || bad,
             sent := h.sent && !(bad && !h.broken) }
  s.hbSend c g.n

/-- The wait of a thread at a hurdle after a release: a participant of the phase is released, an extra arrival moves up
(R185). `cnt` is how many of them enter the next phase. -/
def hbWake (n pts cnt : Nat) (broken : Bool) (w : Wait) : Wait :=
  if w.kind = .hurdle n none then
    if w.n = 0 then { w with kind := .hurdle n (some broken), stamps := [pts] }
    else { w with n := w.n - cnt }
  else w

/-- The release at a core: ARR is cleared, PHASE toggles, the participants are released, and the release goes on along
the reverse paths of the rectangle of the corner that sent it, whose HBn it carries (R184, R185). -/
def State.hbRelease (s : State) (g : HSig) : State :=
  let c := coreXY g.die g.x g.y
  let h := s.hb c g.n
  let v := g.val
  let cnt := hbCount h.val
  let s := { s with slots := s.slots.map fun (e : Nat × Slot) =>
    (e.1, if coreOf e.1 = c then { e.2 with wait := e.2.wait.map (hbWake g.n g.pts cnt g.broken) } else e.2) }
  let s := s.modHb c g.n fun h =>
    { h with val := h.val ^^^ 0x4000000000000000, arrs := h.extra.take cnt, extra := h.extra.drop cnt, row := false,
             col := false, sent := false, pts := 0, broken := false }
  let right := if g.x + 1 < hbX0 v + hbW v then [{ g with x := g.x + 1 }] else []
  let up := if g.x = hbX0 v ∧ g.y + 1 < hbY0 v + hbH v then [{ g with y := g.y + 1 }] else []
  ({ s with sigs := s.sigs ++ right ++ up } : State).hbSend c g.n

/-- One signal or release reaches its core. -/
def State.hbDeliver (s : State) (g : HSig) : State := if g.rel then s.hbRelease g else s.hbReceive g

/-- Delivers every signal on its way, at most `fuel` of them. -/
def State.hbRun : Nat → State → State
  | 0, s => s
  | fuel + 1, s =>
    match s.sigs with
    | [] => s
    | g :: rest => State.hbRun fuel (({ s with sigs := rest } : State).hbDeliver g)

/-- A thread arrives: it counts toward this phase, or, at a core that is ready, toward the next (R184, R185). Its place is
0, or its place among the extra arrivals. -/
def hbArrive (n : Nat) : M Nat := do
  let s ← getS
  let c := coreOf s.cur
  let h := s.hb c n
  let extra := decide (hbCount h.val ≤ h.arrs.length)
  modS fun s => s.modHb c n fun h =>
    if extra then { h with extra := h.extra ++ [s.me.pts] } else { h with arrs := h.arrs ++ [s.me.pts] }
  modS fun s => s.hbSend c n
  pure (if extra then h.extra.length + 1 else 0)

/-- A participant goes on: its PTS is that of the release, and a broken phase traps (R132, R185). -/
def hbLeave (broken : Bool) (pts : Nat) : M Unit := do
  mergePts pts
  if broken then trapAt 1 1 else pure ()

/-- HURDLE (R184, R185, R287): it arrives once, and parks until its core's release. -/
def execHurdle (n : BitVec 2) (s : State) : Out :=
  run (.hurdle n) (do
    localOnly
    let w ← myWait
    match w.kind with
    | .hurdle _ (some b) => hbLeave b (w.stamps.headD 0)
    | .hurdle _ none => park (.hurdle n.toNat none)
    | _ => do
      let s ← getS
      ensure ((s.hb (coreOf s.cur) n.toNat).val.getLsbD 63) (illegalOp 7 32)
      let k ← hbArrive n.toNat
      keepWait fun w => { w with kind := .hurdle n.toNat none, n := k }
      if s.prompt then modS (State.hbRun 1024) else pure ()
      let w ← myWait
      match w.kind with
      | .hurdle _ (some b) => hbLeave b (w.stamps.headD 0)
      | _ => park (.hurdle n.toNat none)) s

/-! ## Views (R78, R79) -/

/-- The first byte, and the byte after the last, of a view's range. -/
def viewRange (v : Word) : Nat × Nat :=
  (fieldN v.toNat 16 14 * 256, (fieldN v.toNat 16 14 + fieldN v.toNat 0 14 + 1) * 256)

/-- Two half-open ranges overlap. -/
def overlap (a b : Nat × Nat) : Bool := decide (a.1 < b.2) && decide (b.1 < a.2)

/-- A write of VWn is refused (R79). -/
def viewBad (x : Core) (n : Nat) (v : Word) : Bool :=
  let mode := fieldN v.toNat 61 2
  let esz := fieldN v.toNat 59 2
  decide (fieldN v.toNat 30 29 ≠ 0) || decide (fieldN v.toNat 14 2 ≠ 0) || decide (mode = 3) ||
  (decide (esz ≠ 0) && decide (mode ≠ 2)) || decide (16383 < fieldN v.toNat 16 14 + fieldN v.toNat 0 14) ||
  (decide (mode = 2) && decide ((fieldN v.toNat 0 14 + 1) % (4 * 2 ^ esz) ≠ 0)) ||
  (v.getLsbD 63 && x.vw.any fun e => decide (e.1 ≠ n) && e.2.getLsbD 63 && overlap (viewRange e.2) (viewRange v))

/-- A copy of another agent through the window of core `c` touches a range (R79). -/
def State.windowBusy (s : State) (c : Nat) (r : Nat × Nat) : Bool :=
  s.copies.any fun k => decide (k.kind ≤ 1) && !k.over && decide (windowBase ≤ k.glob) && decide (windowCore k.glob = c) &&
    overlap (fieldN k.glob 0 28, fieldN k.glob 0 28 + k.n) r

/-- The key of an AEPI's data that holds which bank words of its row group it has written. -/
def partKey : Nat := 209
/-- The keys that hold the core of that scratchpad, plus 1, and the hull of the group. -/
def partCore : Nat := 210
def partLo : Nat := 211
def partHi : Nat := 212

/-- An AEPI has written part of a row group to the scratchpad of core `c`, and the group touches a range (R79, R113). -/
def State.partBusy (s : State) (c : Nat) (r : Nat × Nat) : Bool :=
  s.slots.any fun (e : Nat × Slot) => e.2.wait.any fun w =>
    decide (w.data.get 0 partKey ≠ 0) && decide (w.data.get 0 partCore = c + 1) && overlap (w.data.get 0 partLo, w.data.get 0 partHi) r

/-- A write of VWn of the issuing core: it parks while the scoreboard or a transfer holds a byte of the old or the new
range (R79). -/
def writeView (n : Nat) (v : Word) : M Unit := do
  let s ← getS
  let c := coreOf s.cur
  let x := s.core c
  ensure (!viewBad x n v) (illegalOp 7 40)
  let busy (r : Nat × Nat) : Bool := x.board.any (fun e => overlap (e.lo, e.hi) r) || s.windowBusy c r || s.partBusy c r
  if busy (viewRange (x.vw.get 0 n)) || busy (viewRange v) then park .view
  else modS fun s => s.modCore c fun x => { x with vw := x.vw.set 0 n v }

/-- VIEW (R287). -/
def execView (n : BitVec 3) (a : Src) (s : State) : Out :=
  run (.view n a) (do
    localOnly
    let x ← readSrc 1 a
    writeView n.toNat x) s

end Sys2Proof.Machine
end

