-- ==== Sys2Proof/Machine/Tensor.lean ====
section
/-! DEFINITION. Tensors as instructions use them: codes at a stamp, scale planes, element values, handles and their stamps, shadows
and publishes, tiles in local space (R44-R46, R53-R72, R142-R148, R343). -/
namespace Sys2Proof.Machine

/-! ## Loads of an agent that is not a slot (R57, R145, R149) -/

/-- One line read at a timestamp by an agent of the memory side: the new state and the timestamp of the load (R125, R128);
bytes of the host window take none (R140). Only lines of CACHED pages enter the LLC (R27). -/
def State.lineLoad (s : State) (j cls pa ts : Nat) : State × Nat :=
  if cls = 3 then (s, ts)
  else
    let p := s.pairOf pa
    let t := max ts p.wts
    let rts := if cls = 1 then max p.rts t else max p.rts (t + s.lease j)
    let s := s.setPair pa { p with rts := rts, scope := 0, who := 0, owner := 0 }
    (if cls = 0 then s.llcFill pa false else s, t)

/-- The first bytes of the lines that [a, a+n) lies in. -/
def linesOf (a n : Nat) : List Nat := if n = 0 then [] else (List.range ((a + n - 1) / 256 + 1 - a / 256)).map fun i => (a / 256 + i) * 256

/-- What keeps an agent from bytes: an address fault, data that is lost, an error that the manager has not yet handled (R103), or a
directory entry in transfer (R87). -/
inductive Lost where
  | fault
  | poison
  | error
  | moving
  deriving DecidableEq, Repr

/-- What keeps an agent from a range of bytes of one page. -/
def State.lost (s : State) (pa n : Nat) : Option Lost :=
  if s.poison.contains (pa / 4096) ∨ (s.lostAt pa n).isSome then some .poison
  else if s.badAt pa n false then some .error
  else if s.moving pa then some .moving
  else none

/-- `n` bytes of one page at `va` read by an agent of die `d` for job `j` at timestamp `ts`: the state, the highest timestamp, the
bytes. `queue` says that a QUEUE page may be read (R27). The access is counted by the die's residency register, once for a range of
several lines, while a write counts once for each line (DESIGN CHOICE for R91, unsafe; notes/assumptions/89.md). -/
def State.agentLoad (s : State) (d j va n ts : Nat) (queue : Bool) : Except Lost (State × Nat × Nat) :=
  if windowBase ≤ va then .error .fault
  else match s.walkOf j va with
    | .error _ => .error .fault
    | .ok l =>
      let pa := l.phys va
      if l.cls = 2 ∧ ¬ queue then .error .fault
      else match (if l.cls = 3 then none else s.lost pa n) with
      | some e => .error e
      | none =>
        let (s', t) := (linesOf pa n).foldl (fun (p : State × Nat) a =>
          let (s', t) := p.1.lineLoad j l.cls a ts
          (s', max p.2 t)) ((s.sample d j va false).1, ts)
        .ok (s', t, if l.cls = 3 then s'.hostGet pa n else readN s'.mem pa n)

/-! ## Codes at a stamp (R65, R143) -/

/-- What a later publish than `T` overwrote at a key: the value of the earliest such publish. -/
def Tensor.logged (t : Tensor) (T k : Nat) : Option Nat :=
  (t.log.foldl (fun (b : Option (Nat × Nat)) e =>
    if e.1 ≤ T ∨ e.2.get 0 k = 0 then b
    else match b with
      | none => some (e.1, e.2.get 0 k - 1)
      | some x => if e.1 < x.1 then some (e.1, e.2.get 0 k - 1) else b) none).map (·.2)

/-! ### The SPARSE class (R63, R65, R71) -/

/-- The bitmap of up to 64 codes: bit i is set where the bits of code i are not all zero (R63, R65). -/
def sparseBitmap : List Nat → Nat
  | [] => 0
  | c :: l => (if c = 0 then 0 else 1) + 2 * sparseBitmap l

/-- The packed codes: those that are not zero, in order (R63). -/
def sparsePacked (l : List Nat) : List Nat := l.filter fun c => decide (c ≠ 0)

/-- The dense image of `n` codes from their bitmap and their packed codes, as the streamer expands it (R71). -/
def sparseExpand : Nat → Nat → List Nat → List Nat
  | 0, _, _ => []
  | n + 1, m, l => if m % 2 = 1 then l.headD 0 :: sparseExpand n (m / 2) l.tail else 0 :: sparseExpand n (m / 2) l

/-- Expanding what is packed gives the codes back, bit for bit (R65). -/
theorem sparseExpand_packed (l : List Nat) : sparseExpand l.length (sparseBitmap l) (sparsePacked l) = l := by
  induction l with
  | nil => rfl
  | cons c l ih =>
    by_cases h : c = 0
    · have e : (0 + 2 * sparseBitmap l) % 2 ≠ 1 := by omega
      simp [sparseBitmap, sparsePacked, sparseExpand, h] at *
      exact ih
    · simp [sparseBitmap, sparsePacked, sparseExpand, h] at *
      have e : (1 + 2 * sparseBitmap l) / 2 = sparseBitmap l := by omega
      rw [e]
      exact ih

/-- The 64 codes, or those up to the end of the row, of the group that unit `k` of a SPARSE tensor lies in (R63). -/
def Tensor.sparseGroup (t : Tensor) (k : Nat) : List Nat :=
  let u := k % t.upr / 64 * 64
  (List.range (min 64 (t.upr - u))).map fun i => t.cells.get 0 (k - k % t.upr + u + i)

/-- The code of a unit of a SPARSE tensor, from the bitmap and the packed codes of its group. -/
def Tensor.sparseCode (t : Tensor) (k : Nat) : Nat :=
  let g := t.sparseGroup k
  (sparseExpand g.length (sparseBitmap g) (sparsePacked g)).getD (k % t.upr % 64) 0

/-- The code of a unit as it stands published now. -/
def State.codeNow (s : State) (j : Nat) (t : Tensor) (k : Nat) : Nat :=
  if t.plain then
    let w := unitBits t.tag
    match s.walkOf j (t.aliasVa k) with
    | .error _ => 0
    | .ok l =>
      let b := readN s.mem (l.phys (t.aliasVa k)) ((w + 7) / 8)
      fieldN b (k * w % 8) w
  else if t.form = 3 then t.sparseCode k
  else t.cells.get 0 k

/-- The code of a unit at stamp `T`. -/
def State.codeAt (s : State) (j : Nat) (t : Tensor) (T k : Nat) : Nat :=
  match t.logged T k with
  | some x => x
  | none => s.codeNow j t k

/-- The code of the unit that holds element (p, i, j) at stamp `T`; the all-zero code outside the geometry (R343). -/
def State.unitAt (s : State) (jb : Nat) (t : Tensor) (T p i j : Nat) : Nat :=
  if t.inside p i j then s.codeAt jb t T (t.key p i (j / unitCols t.tag)) else 0

/-! ### Column lines (R92) -/

/-- The offset in column line `c / 8`, delivered for elements of `w` bytes, where byte column `c` of row `i` of a square appears: an element
column comes as `w` column sectors, packed element by element (R92). -/
def columnPlace (w i c : Nat) : Nat := ((c / w - 8 * (c / 8) / w) * 32 + i) * w + c % w

/-- The row and the byte column of a square that appear at offset `o` of column line `g`, delivered for elements of `w` bytes. -/
def columnOwner (w g o : Nat) : Nat × Nat := (o / w % 32, (o / w / 32 + 8 * g / w) * w + o % w)

/-- The code of an element that the tensor path asks for along a column: of a tensor in squares, as the column lines of its squares bring it;
the all-zero code outside the geometry (R92, R93, R343). -/
def State.columnCode (s : State) (jb : Nat) (t : Tensor) (T p i j : Nat) : Nat :=
  if t.form = 2 ∧ t.inside p i j then
    let w := max 1 (unitBits t.tag / 8)
    let o := t.squarePlace (p * t.rows + i) (j * w)
    let x := columnOwner w (o % 32 / 8) (columnPlace w (o % 1024 / 32) (o % 32))
    match t.squareOwner (o / 1024) x.1 x.2 with
    | some (r, b) => s.unitAt jb t T (r / t.rows) (r % t.rows) (b / w)
    | none => 0
  else s.unitAt jb t T p i j

/-- The codes of the units of a tile row. -/
def State.rowCodes (s : State) (jb : Nat) (t : Tensor) (T p i c nc : Nat) : List Nat :=
  (List.range (nc / unitCols t.tag)).map fun u => s.unitAt jb t T p i (c + u * unitCols t.tag)

/-- A read of poisoned storage: trap 0x0C names the handle (R72, R396). -/
def checkTensorPoison (h : Nat) (t : Tensor) (segs : List Nat) : M Unit :=
  ensure (t.poison.all fun g => !segs.contains g) (dataLost 1 h)

/-- The lines of a PLAIN tensor's alias that a region covers, read as loads at the stamp; one whose wts is higher is read
at that (R57, R145). The highest timestamp is answered. -/
def State.readAlias (s : State) (d j : Nat) (t : Tensor) (T p r nr c nc : Nat) : Except Lost (State × Nat) :=
  let hi := min (c + nc) t.cols
  if ¬ t.plain ∨ t.pages ≤ p ∨ hi ≤ c then .ok (s, T)
  else
    let lines := (((List.range nr).map (r + ·)).filter fun i => decide (i < t.rows)).flatMap fun i =>
      let a := t.aliasVa (t.key p i c)
      let e := t.aliasVa (t.key p i (hi - 1)) + (unitBits t.tag + 7) / 8
      (linesOf a (e - a)).map fun v => (max v a, min (v + 256) e - max v a)
    lines.eraseDups.foldl (fun (b : Except Lost (State × Nat)) v =>
      match b with
      | .error e => .error e
      | .ok (s, m) =>
        match s.agentLoad d j v.1 v.2 T true with
        | .ok (s', ts, _) => .ok (s', max m ts)
        | .error .fault => .ok (s, m)
        | .error e => .error e) (.ok (s, T))

/-- What keeps the issuing slot from bytes that it reads as an agent of the memory side: a fault or lost data traps, an error that the
manager has not handled parks it, and so does an entry in transfer (R87, R103). -/
def lostStop {α : Type} (fault : M α) (kind place : Nat) : Lost → M α
  | .fault => fault
  | .poison => dataLost kind place
  | .error => park .error
  | .moving => park .order

/-- The same for the issuing slot: lost data is trap 0x0C. -/
def touchAlias (h : Nat) (t : Tensor) (T p r nr c nc : Nat) : M Unit := do
  let s ← getS
  match s.readAlias (runDie s.cur) (s.jobOf s.cur) t T p r nr c nc with
  | .ok (s', ts) => do
    modS fun _ => s'
    mergePts ts
  | .error e => lostStop (dataLost 1 h) 1 h e

/-! ## Scale planes (R56, R57) -/

/-- The next 256-byte boundary. -/
def align256 (n : Nat) : Nat := (n + 255) / 256 * 256

/-- One read of a scale plane at the stamp, as a load of the issuing slot; a fault is SCALEFAULT (R57). -/
def planeLoad (hH : Nat) (T va n : Nat) : M Nat := do
  let s ← getS
  match s.agentLoad (runDie s.cur) (s.jobOf s.cur) va n T false with
  | .ok (s', ts, x) => do
    modS fun _ => s'
    mergePts ts
    pure x
  | .error e => lostStop (trap 0x0D (engineValue 0x11 hH)) 0 va e

/-- Tiles of R194 along an axis. -/
def dxTiles (n : Nat) : Nat := (n + 127) / 128

/-- The address of the tile scale S of an element (R56, R194). -/
def dxS (t : Tensor) (p i j : Nat) : Nat :=
  t.scaleBase + 4 * ((p * dxTiles t.rows + i / 128) * dxTiles t.cols + j / 128)
/-- The address of the plane Rv. -/
def dxRvBase (t : Tensor) : Nat := t.scaleBase + align256 (4 * t.pages * dxTiles t.rows * dxTiles t.cols)
/-- The address of the plane Cv. -/
def dxCvBase (t : Tensor) : Nat := dxRvBase t + align256 (t.pages * t.rows * (t.cols / 32))
/-- The address of an element's Rv byte. -/
def dxRv (t : Tensor) (p i j : Nat) : Nat := dxRvBase t + (p * t.rows + i) * (t.cols / 32) + j / 32
/-- The address of an element's Cv byte. -/
def dxCv (t : Tensor) (p i j : Nat) : Nat := dxCvBase t + (p * (t.rows / 32) + i / 32) * t.cols + j
/-- The address of an element's E8M0 byte under BLKE8. -/
def blkX (t : Tensor) (p i j : Nat) : Nat := t.scaleBase + (p * t.rows + i) * (t.cols / 32) + j / 32
/-- The address of the f32 scale of a row, or of a column, under ROWF32 and COLF32. -/
def lineScale (t : Tensor) (p i j : Nat) : Nat :=
  t.scaleBase + 4 * (if t.scl = 1 then p * t.rows + i else p * t.cols + j)

/-- The value of an element from its unit's code, scales included (R188-R194); +0 outside the geometry. -/
def elemValue (hH : Nat) (t : Tensor) (T p i j : Nat) : M FV := do
  let s ← getS
  if ¬ t.inside p i j then pure (.num false 0 0)
  else
    let c := s.unitAt (s.jobOf s.cur) t T p i j
    match t.tag with
    | .px9 | .px6 | .px4 => pure (pxValue (pxM t.tag) c (j % 16))
    | .mxfp4 => do
      let x ← planeLoad hH T (blkX t p i j) 1
      pure (mxValue c x)
    | .dxe4m3 | .dxe5m2 => do
      let sc ← planeLoad hH T (dxS t p i j) 4
      let rv ← planeLoad hH T (dxRv t p i j) 1
      let cv ← planeLoad hH T (dxCv t p i j) 1
      let f := (tagFloat t.tag).getD fp32
      pure ((((fp32.value sc).mul (e8Value rv)).mul (e8Value cv)).mul (f.value c))
    | _ =>
      match tagInt t.tag, tagFloat t.tag with
      | some w, _ =>
        let v := FV.ofInt (sintOf w c)
        if t.scl = 0 then pure v
        else do
          let sc ← planeLoad hH T (lineScale t p i j) 4
          pure (v.mul (fp32.value sc))
      | _, some f => pure (f.value c)
      | _, _ => pure (.num false 0 0)

/-! ## Handles: checks, stamps, order (R44, R64, R66, R67, R69, R143-R148) -/

/-- The lowest bit of `need` that `caps` lacks. -/
def missingBit (need caps : Nat) : Option Nat := (List.range 32).find? fun i => need.testBit i && !caps.testBit i

/-- Checks that a handle is not stale. -/
def checkStale (h : Nat) : M Tensor := do
  let s ← getS
  match s.liveTensor (s.jobOf s.cur) h with
  | some t => pure t
  | none => trap 8 (BitVec.ofNat 64 h)

/-- Checks a handle's capabilities (R69). -/
def checkCaps (h need : Nat) (t : Tensor) : M Unit :=
  match missingBit need t.caps with
  | some b => trap 7 (BitVec.ofNat 64 (b * 2 ^ 32 + h))
  | none => pure ()

/-- Checks a handle: stale first, then the capabilities (R69). -/
def checkHandle (h need : Nat) : M Tensor := do
  let t ← checkStale h
  checkCaps h need t
  pure t

/-- The entry of a handle of the issuing slot's job. -/
def entry (h : Nat) : M Tensor := fun s => .ok (s.tensor (s.jobOf s.cur) (h / 65536), s)
/-- Changes the entry of a handle. -/
def modEntry (h : Nat) (f : Tensor → Tensor) : M Unit := modS fun s => s.modTensor (s.jobOf s.cur) (h / 65536) f

/-- A cancelled unit in its cancel handler: what it issues on a handle is refused (R172). -/
def Slot.refusing (x : Slot) : Bool := x.cancel.isSome && x.sp.xstat.getLsbD 0 && decide (x.sp.xcause = 0x13)

/-- Refuses an operation of a cancelled unit (R172). -/
def notRefused (h : Nat) : M Unit := do
  let x ← myself
  ensure (!x.refusing) (trap 0x0D (engineValue 3 h))

/-- A writer that needs more segments than the whole shadow pool gets no stamp (R148). `h` is the handle that XVALUE names. -/
def checkPool (h n : Nat) : M Unit := do
  let s ← getS
  ensure (decide (n ≤ s.poolSegs (s.jobOf s.cur))) (trap 0x0D (engineValue 0x12 h))

/-- The `k`-th stamp of the instruction: kept while it is parked, else taken at the ordering point, where the handle is
checked again (R64, R69); a writer that needs more than the whole pool gets none (R148). `hH` is the handle in H. -/
def stampHandle (k h hH need : Nat) (kind : OpKind) (exts : Tensor → List Ext) : M Nat := do
  let w ← myWait
  match w.stamps[k]? with
  | some T => pure T
  | none => do
    await .stamp
    let s ← getS
    ensure (s.routedIn (atCore s.cur)) (noRoute 1 h)
    let t ← checkHandle h need
    if kind = .writer then checkPool hH (t.newSegs kind need (exts t)).length else pure ()
    let T := t.nextStamp s.me.pts
    modEntry h fun t => t.queue T s.cur kind (exts t) need
    mergePts T
    keepWait fun w => { w with stamps := w.stamps ++ [T] }
    pure T

/-- The frames of some segments of a tensor, of every copy. -/
def Tensor.framesOf (t : Tensor) (segs : List Nat) : List Nat :=
  let m := max 1 (t.copySegs t.form)
  ((t.frames.zip (List.range t.frames.length)).filter fun e => segs.contains (e.2 % m)).map (·.1)

/-- A sector of some segments has an error that the manager has not handled (R103). -/
def State.segsBad (s : State) (t : Tensor) (segs : List Nat) : Bool :=
  !s.badSect.isEmpty && (t.framesOf segs).any fun f => s.badSect.any fun x => decide (x / 2048 = f)

/-- Where replies come at once, the converter finishes the re-representation that a parked operation waits for. -/
def convertFor (h T : Nat) : M Unit := modS fun s =>
  let t := s.tensor (s.jobOf s.cur) (h / 65536)
  if s.prompt ∧ (t.opAt T).any (fun o => o.parked) then s.convert (s.jobOf s.cur) (h / 65536) (t.ops.length + 1) else s

/-- Waits for the operation's turn in the logical order, and for its shadow segments, which are filled from the segments as they
stand published: a poisoned one is read, and traps, and an error that the manager has not handled is waited for (R66, R72, R103, R143). -/
def opTurn (h T : Nat) : M Unit := do
  convertFor h T
  let t ← entry h
  match t.opAt T with
  | none => pure ()
  | some o =>
    if t.blocked o then park .order
    else if o.kind = .writer ∧ o.shadow = 0 then do
      let s ← getS
      let j := s.jobOf s.cur
      checkTensorPoison h t o.segs
      if s.segsBad t o.segs then park .error
      else if s.shadowsUsed j + o.segs.length ≤ s.poolSegs j then modEntry h fun t => t.modOp T fun o => { o with shadow := o.segs.length }
      else park .order
    else pure ()

/-- The operation of a stamp retires; in a machine whose replies come at once, a freed entry is then free. -/
def retireOp (h T : Nat) : M Unit := do
  modEntry h fun t => t.retire T
  modS fun s => s.settleIf (s.jobOf s.cur) (h / 65536)

/-! ## Shadows and publishes (R142-R147) -/

/-- Keys of an instruction's kept data from here up are units of its shadow; the code is kept plus 1. -/
def shadowBase : Nat := 2 ^ 44

/-- Writes units into the shadow of the issuing instruction: keys rising. -/
def keepShadow (es : List (Nat × Nat)) : M Unit :=
  keepWait fun w => { w with data := union (es.map fun e => (shadowBase + e.1, e.2 + 1)) w.data }

/-- The units of a shadow. -/
def shadowOf (m : SMap Nat) : List (Nat × Nat) :=
  (m.filter fun e => decide (shadowBase ≤ e.1)).map fun e => (e.1 - shadowBase, e.2 - 1)

/-- The code of a unit as the operation with stamp `T` sees it: its own shadow first. -/
def State.shadowed (s : State) (jb : Nat) (m : SMap Nat) (t : Tensor) (T k : Nat) : Nat :=
  match m.get 0 (shadowBase + k) with
  | 0 => s.codeAt jb t T k
  | x + 1 => x

/-- The physical addresses of the alias lines of some segments (R146). -/
def State.aliasLines (s : State) (j : Nat) (t : Tensor) (segs : List Nat) : List Nat :=
  let size := (t.bytes + 4095) / 4096 * 4096
  segs.flatMap fun g =>
    ((List.range 256).map (fun i => g * segBytes + i * 256)).filterMap fun o =>
      if size ≤ o then none
      else match s.walkOf j (t.aliasAt + o) with
        | .ok l => some (l.phys (t.aliasAt + o))
        | .error _ => none

/-- Writes codes into the alias of a PLAIN tensor. -/
def State.writeAlias (s : State) (j : Nat) (t : Tensor) (es : List (Nat × Nat)) : State :=
  es.foldl (fun s e =>
    let w := unitBits t.tag
    match s.walkOf j (t.aliasVa e.1) with
    | .error _ => s
    | .ok l =>
      let pa := l.phys (t.aliasVa e.1)
      let n := (w + 7) / 8
      let b := readN s.mem pa n
      let sh := e.1 * w % 8
      { s with mem := writeN s.mem pa n (b - fieldN b sh w * 2 ^ sh + e.2 % 2 ^ w * 2 ^ sh) }) s

/-- What some units held, plus 1, for the log. -/
def State.oldUnits (s : State) (j : Nat) (t : Tensor) (es : List (Nat × Nat)) : SMap Nat :=
  es.map fun e => (e.1, s.codeNow j t e.1 + 1)

/-- Codes in place of some units of a tensor's own storage, their keys rising; a code 0 is not listed. -/
def overlay (es : List (Nat × Nat)) (cells : SMap Nat) : SMap Nat :=
  union (es.filter fun e => decide (e.2 ≠ 0)) ((es.filter fun e => decide (e.2 = 0)).foldl (fun m e => m.erase e.1) cells)

/-- The physical addresses of byte `b` of row `r`: one for each copy of a REPL tensor (R66, R71). -/
def Tensor.places (t : Tensor) (r b : Nat) : List Nat :=
  if t.cls = 4 then (List.range 8).map fun d => t.physAt d r b else [t.physAt 0 r b]

/-- The ranges of bytes of a tensor's storage that some units take, in every copy. -/
def Tensor.rangesIn (t : Tensor) (es : List (Nat × Nat)) : List (Nat × Nat) :=
  let n := (unitBits t.tag + 7) / 8
  es.flatMap fun e =>
    let a := t.unitPlace e.1
    if n ≤ 8 then (t.places a.1 a.2).map fun p => (p, n)
    else (List.range (n / 2)).flatMap fun i => (t.places a.1 (a.2 + 2 * i)).map fun p => (p, 2)

/-- Puts codes in place of some units, and keeps what they held for the operations stamped below `T`. -/
def State.install (s : State) (j i T : Nat) (es : List (Nat × Nat)) : State :=
  let t := s.tensor j i
  let old := s.oldUnits j t es
  let s := if t.plain then s.writeAlias j t es
    else (s.modTensor j i fun t => { t with cells := overlay es t.cells }).tensWritten (t.rangesIn es)
  if t.ops.any fun o => decide (o.stamp < T) then s.modTensor j i fun t => { t with log := t.log ++ [(T, old)] } else s

/-- The segments of the operation with a stamp. -/
def Tensor.segsAt (t : Tensor) (T : Nat) : List Nat := ((t.opAt T).map (·.segs)).getD []

/-- The timestamp of a publish: `tm`, for a PLAIN tensor raised above the rts of every alias line of its segments (R145, R146). -/
def State.publishTm (s : State) (j i T tm : Nat) : Nat :=
  let t := s.tensor j i
  if t.plain then (s.aliasLines j t (t.segsAt T)).foldl (fun m a => max m ((s.pairOf a).rts + 1)) tm else tm

/-- The publish at a timestamp: the units are in place, the errors of the segments that it replaces are gone, the alias lines of a PLAIN
tensor are stored at it, and the operation retires (R143, R146). -/
def State.publishAs (s : State) (j i T tm : Nat) (es : List (Nat × Nat)) : State :=
  let t := s.tensor j i
  let segs := t.segsAt T
  let s := s.install j i T es
  let s := if s.badSect.isEmpty then s else
    { s with badSect := s.badSect.filter fun x => !(t.framesOf segs).contains (x / 2048) }
  let s := if t.plain then
      (s.aliasLines j t segs).foldl (fun s a => (s.setPair a { wts := tm, rts := tm, scope := 0, who := 0 }).notify 0 a 256 tm) s
    else s
  s.modTensor j i fun t => t.retire T

/-- The publish of a shadow (R143, R145, R146): every unit of the writer at once, at `tm`, for a PLAIN tensor raised above
the rts of every line of its segments; then the operation retires. The timestamp is answered. -/
def State.publishAt (s : State) (j i T tm : Nat) (es : List (Nat × Nat)) : State × Nat :=
  let tm := s.publishTm j i T tm
  (s.publishAs j i T tm es, tm)

/-- The publish of the issuing instruction's shadow: its PTS rises to Tm (R111, R145). -/
def publishMine (h T : Nat) : M Nat := do
  await .publish
  let w ← myWait
  let s ← getS
  let j := s.jobOf s.cur
  let (s', tm) := s.publishAt j (h / 65536) T (max T s.me.pts) (shadowOf w.data)
  modS fun _ => s'
  modMe fun x => { x with pts := max x.pts tm, copyPts := max x.copyPts tm }
  modS fun s => s.settleIf j (h / 65536)
  pure tm

/-- One line of a reduce-store (R147): its units are added in place, at their home, at a timestamp above the line's rts. -/
def addLine (h T : Nat) (es : List (Nat × Nat)) : M Unit := do
  await .publish
  let s ← getS
  let j := s.jobOf s.cur
  let i := h / 65536
  let t := s.tensor j i
  modS fun s => s.install j i T es
  if t.plain then
    loopM (es.map fun e => t.aliasVa e.1 / 256 * 256).eraseDups fun v => do
      let s ← getS
      match s.walkOf j v with
      | .error _ => pure ()
      | .ok l =>
        let a := l.phys v
        let ts := max T ((s.pairOf a).rts + 1)
        modS fun s => (s.setPair a { wts := ts, rts := ts, scope := 0, who := 0 }).notify 0 a 256 ts
        mergePts ts
  else pure ()

/-! ## Tiles in local space (R343) -/

/-- Row bytes of `n` columns. -/
def rowBytes8 (f : Tag) (n : Nat) : Nat := n / unitCols f * unitBits f / 8

/-- The pitch: the row bytes, or 256 × VIEW (R343). -/
def pitchOf (view : BitVec 4) (rb : Nat) : Nat := if view = 0 then rb else 256 * view.toNat

/-- The alignment of L for a tag (R343). -/
def tileAlign : Tag → Nat
  | .f32 | .i32 => 4
  | .bf16 => 2
  | _ => 1

/-- Checks the pitch, the local range and the alignment of a tile in local space (R341, steps 3 and 4). -/
def checkTile (l : Nat) (rows rb pitch al : Nat) (wr : Bool) : M Unit := do
  ensure (decide (rb ≤ pitch)) (badFormat 1)
  checkLocal l ((rows - 1) * pitch + rb) wr
  aligned l al

/-- The entry of an instruction that is not a copy. -/
def boardOp : Nat := 2 ^ 40

/-- Parks while a new copy of a range conflicts with the scoreboard, or all 32 entries are in use; then enters the range
(R81, R82). An instruction that has entered already goes on. -/
def boardEnter (id lo n : Nat) (wr : Bool) : M Unit := do
  let s ← getS
  let c := coreOf s.cur
  let x := s.core c
  let lo := lo + boardBase s.cur
  if n = 0 ∨ x.board.any (fun e => decide (e.tid = s.cur) && decide (e.id = id)) then pure ()
  else if x.board.any (fun e => overlap (e.lo, e.hi) (lo, lo + n) && (e.wr || wr)) || decide (32 ≤ x.board.length) then
    park .board
  else modS fun s => s.modCore c fun x => { x with board := x.board ++ [{ tid := s.cur, id := id, lo := lo, hi := lo + n, wr := wr }] }

/-- Retires an entry of the scoreboard (R83). -/
def State.boardLeave (s : State) (t id : Nat) : State :=
  s.modCore (coreOf t) fun x => { x with board := x.board.filter fun e => ¬ (e.tid = t ∧ e.id = id) }

/-- Retires the entry of the issuing instruction. -/
def boardDone : M Unit := modS fun s => s.boardLeave s.cur boardOp

/-- Reads `n` local bytes through the engine port. -/
def engineRead (a n : Nat) : M Nat := do
  checkSpadPoison a n
  let s ← getS
  modS fun s => s.stallEngine (coreOf s.cur) a n
  pure (s.readLocal s.cur a n)

/-- Writes those bytes of [a, a+n) of a core's scratchpad that lie in some bank words. -/
def Core.writeWords (x : Core) (ws : List Nat) (a n v : Nat) : Core :=
  if (x.wordsAt a n).all fun w => ws.contains w then x.write a n v
  else ((List.range n).filter fun i => ws.contains (x.place (a + i) / 8)).foldl (fun y i => y.write (a + i) 1 (v / 2 ^ (8 * i))) x

/-- The same in the state, which tells the watches of the bytes written. -/
def State.padWords (s : State) (c : Nat) (ws : List Nat) (a n v ts : Nat) : State :=
  let u := s.modCore c fun x => x.writeWords ws a n v
  if ((s.core c).wordsAt a n).all fun w => ws.contains w then u.notify (1 + c) a n ts
  else ((List.range n).filter fun i => ws.contains ((s.core c).place (a + i) / 8)).foldl (fun t i => t.notify (1 + c) (a + i) 1 ts) u

/-- Writes `n` local bytes through the engine port (R113). -/
def engineWrite (a n v : Nat) : M Unit := modS fun s =>
  ((s.stallEngine (coreOf s.cur) a n).writeLocal s.cur a n v).notify (localSpace s.cur) a n s.me.pts

/-- The core's SPW rises to at least the handle stamp (R127): to the slot's PTS, which is no lower. -/
def engineDone : M Unit := modS fun s => s.raiseSpw (coreOf s.cur) (s.bankNo s.cur) s.me.pts

/-- Tensor instructions are of slots 1-15 of compute cores and of the slots of near cores 4-7 (R341). -/
def tensorSlot : M Unit := do
  let s ← getS
  ensure (!isFar s.cur && (isNear (coreOf s.cur) || decide (slotNo s.cur ≠ 0))) (illegalOp 8 56)

/-! ## Steps of an engine (R327, R335, R353) -/

/-- Step `k` of the instruction: performed once, when the engine takes it; steps already done are passed over. -/
def engineStep (k : Nat) (m : M Unit) : M Unit := do
  let w ← myWait
  if k < w.n then pure ()
  else do
    await .engine
    m
    keepWait fun w => { w with n := k + 1 }

/-- PROGIDX of the issuing slot. -/
def setProg (k : Nat) : M Unit := modSp fun p => { p with progidx := BitVec.ofNat 64 k }

/-- One step of a long instruction that traps: `onLoss` finishes what a poisoned read keeps (R353); any other trap keeps
nothing and leaves PROGIDX 0 (R57). -/
def longTrap (onLoss : M Unit) (m : M Unit) : M Unit := fun s =>
  match m s with
  | .error (.trap c x) =>
    if c = 0x0C then
      match onLoss s with
      | .ok (_, s') => .error (.trapAt c x s')
      | .error _ => .error (.trapAt c x s)
    else
      match setProg 0 s with
      | .ok (_, s') => .error (.trapAt c x s')
      | .error _ => .error (.trapAt c x s)
  | r => r

/-- Step `k` of a long instruction: PROGIDX counts it (R353). -/
def longStep (k : Nat) (onLoss : M Unit) (m : M Unit) : M Unit := do
  setProg k
  engineStep k (longTrap onLoss m)

end Sys2Proof.Machine
end

