-- ==== Sys2Proof/Machine/Tile.lean ====
section
/-! DEFINITION. Tiles and elements of tensors: TLD, TLDT, TST, TST.add, TRED, TSCALE, TEW, TCOPY, VGATH.t, VSCAT.t
(R270, R343, R348-R353). -/
namespace Sys2Proof.Machine

/-- Bit numbers of the capability mask (R54). -/
def capRdRow : Nat := 0
/-- RD_COL. -/
def capRdCol : Nat := 1
/-- WR_TILE. -/
def capWrTile : Nat := 2
/-- RED_ROW. -/
def capRedRow : Nat := 3
/-- RED_COL. -/
def capRedCol : Nat := 4
/-- SCALE. -/
def capScale : Nat := 5
/-- EWISE. -/
def capEwise : Nat := 6
/-- MM_A. -/
def capMmA : Nat := 7
/-- MM_B. -/
def capMmB : Nat := 8
/-- GATHER_ROWS. -/
def capGather : Nat := 9
/-- ACCUM. -/
def capAccum : Nat := 10
/-- STASH. -/
def capStash : Nat := 11
/-- NEAR. -/
def capNear : Nat := 12
/-- SPARSE. -/
def capSparse : Nat := 13
/-- COLL. -/
def capColl : Nat := 14

/-- The handle a register names: bits 31:0 (R44). -/
def handleIn (x : Word) : Nat := x.toNat % 2 ^ 32

/-- A region of a tensor: page, first row, first column, rows, columns. -/
structure Region where
  p  : Nat
  r  : Nat
  c  : Nat
  nr : Nat
  nc : Nat

/-- The region of a tile at a coordinate (R343). -/
def regionOf (x : Word) (sh : TShape) : Region :=
  { p := (crdOf x).p, r := (crdOf x).r, c := (crdOf x).c, nr := tileRows sh, nc := tileCols sh }

/-- The rectangle of a region. -/
def Region.ext (q : Region) (t : Tensor) : List Ext := t.regionExt q.p q.r q.nr q.c q.nc

/-- The segments of a region. -/
def Region.segs (q : Region) (t : Tensor) : List Nat := t.segs (q.ext t)

/-- The eight rows of step `k` (R353). -/
def Region.step (q : Region) (k : Nat) : Region := { q with r := q.r + 8 * k, nr := min 8 (q.nr - 8 * k) }

/-- The pitch of a tile is no less than its row bytes (R343): for an instruction that has no tile in local space, too. -/
def checkPitch (f : Tag) (view : BitVec 4) (n : Nat) : M Unit :=
  ensure (decide (rowBytes8 f n ≤ pitchOf view (rowBytes8 f n))) (badFormat 1)

/-- The column rule of a tile (R343). -/
def checkColumns (f : Tag) (q : Region) : M Unit :=
  ensure (decide (q.nc % tileRule f = 0) && decide (q.c % tileRule f = 0)) (badFormat 3)

/-- The 8-byte words of a tensor's storage that hold a rectangle, by their physical addresses, as die `d` finds them. -/
def Tensor.wordsIn (t : Tensor) (d : Nat) (es : List Ext) : List Nat :=
  if t.plain then []
  else es.flatMap fun e => (List.range e.n).flatMap fun i => (upTo (e.lo / 8) ((e.hi - 1) / 8)).map fun b => t.physAt d (e.row + i) (8 * b)

/-- The lines of a tensor's storage that a read of a region asks for: row lines, or, where the tensor path asks for columns of a tensor in
squares, the column lines for its element size (R92, R93). -/
def linesAt (j : Nat) (t : Tensor) (cols : Bool) (ws : List Nat) : List TensLine :=
  (ws.map fun pa =>
    if cols && decide (t.form = 2) then
      ({ job := j, line := pa / 1024 * 4 + pa % 32 / 8, col := max 1 (unitBits t.tag / 8), kept := 0 } : TensLine)
    else { job := j, line := pa / 256, col := 0, kept := 0 }).eraseDups

/-- A sector of some words has an error that the manager has not handled (R103). -/
def State.wordsBad (s : State) (ws : List Nat) : Bool := !s.badSect.isEmpty && ws.any fun pa =>
  s.badSect.contains (pa / 32) || s.badSect.contains ((pa + 7) / 32)

/-- Some rectangles of a tensor are read at a stamp: a poisoned segment traps, an error that the manager has not handled is waited for, and the
lines of storage fill the caches (R72, R86, R93, R103). `cols` says that the tensor path asks for columns. -/
def readStorage (h : Nat) (t : Tensor) (T : Nat) (es : List Ext) (cols : Bool) : M Unit := do
  checkTensorPoison h t (t.segs es)
  let s ← getS
  let ws := t.wordsIn (runDie s.cur) es
  if s.wordsBad ws then park .error
  else modS fun s => s.tensRead (runDie s.cur) T (linesAt (s.jobOf s.cur) t cols ws)

/-- The elements of a region are read at a stamp: its storage, and the loads of a PLAIN alias (R57, R145). -/
def readRegion (h : Nat) (t : Tensor) (T : Nat) (q : Region) (cols : Bool := false) : M Unit := do
  readStorage h t T (q.ext t) cols
  touchAlias h t T q.p q.r q.nr q.c q.nc

/-- The instruction has its first stamp. -/
def stamped : M Bool := do
  let w ← myWait
  pure (!w.stamps.isEmpty)

/-- The results of `f` over a list. -/
def mapL {α β : Type} (f : α → M β) : List α → M (List β)
  | [] => pure []
  | x :: l => do
    let y ← f x
    let ys ← mapL f l
    pure (y :: ys)

/-- PROGIDX lies in range when a long instruction issues (R353). -/
def checkProg (steps : Nat) : M Unit := do
  let x ← myself
  ensure (decide (x.sp.progidx.toNat < steps)) (illegalOp 7 0)

/-- The units of a row of a tile from their bytes: places and codes, inside the geometry only (R343). -/
def tileUnits (t : Tensor) (p i c nc x : Nat) : List (Nat × Nat) :=
  let w := unitBits t.tag
  ((List.range (nc / unitCols t.tag)).filter fun u => t.inside p i (c + u * unitCols t.tag)).map fun u =>
    (t.key p i ((c + u * unitCols t.tag) / unitCols t.tag), fieldN x (u * w) w)

/-! ## TLD, TLDT, TST (R348) -/

/-- The registers H, C and L of a tile instruction: the handle, the region, the local address (R343). -/
def tileRegs (o : TileArgs) : M (Nat × Region × Nat) := do
  tensorSlot
  let h ← readSR 0 o.h
  let y ← readSR 1 o.c
  let l ← readSR 2 o.l
  pure (handleIn h, regionOf y o.sh, l.toNat)

/-- What is done once, before the first stamp. -/
def unstamped (m : M Unit) : M Unit := do
  let go ← stamped
  if go then pure () else m

/-- The checks and the scoreboard entry of TLD (R341, R343, R348). -/
def tldChecks (o : TileArgs) (h l : Nat) (q : Region) : M Unit := do
  let t ← checkHandle h (2 ^ capRdRow)
  checkColumns t.tag q
  let rb := rowBytes8 t.tag q.nc
  checkTile l q.nr rb (pitchOf o.sh.view rb) (tileAlign t.tag) true
  notRefused h
  boardEnter boardOp l ((q.nr - 1) * pitchOf o.sh.view rb + rb) true

/-- The rows of a TLD at its stamp, into local space. -/
def tldRows (o : TileArgs) (h l T : Nat) (q : Region) : M Unit := do
  let t ← entry h
  readRegion h t T q
  let rb := rowBytes8 t.tag q.nc
  loopM (List.range q.nr) fun i => do
    let s ← getS
    engineWrite (l + i * pitchOf o.sh.view rb) rb
      (packNat (unitBits t.tag) (s.rowCodes (s.jobOf s.cur) t T q.p (q.r + i) q.c q.nc))

/-- TLD: the stored codes, unchanged, into local space. -/
def execTld (o : TileArgs) (s : State) : Out :=
  run (.tld o) (do
    let (h, q, l) ← tileRegs o
    unstamped (tldChecks o h l q)
    let T ← stampHandle 0 h h (2 ^ capRdRow) .reader q.ext
    opTurn h T
    engineStep 0 (tldRows o h l T q)
    retireOp h T
    boardDone
    engineDone) s

/-- The checks and the scoreboard entry of TLDT (R341, R348, R361). -/
def tldtChecks (o : TileArgs) (h l : Nat) (q : Region) : M Unit := do
  let t ← checkHandle h (2 ^ capRdCol)
  ensure (elementTag t.tag) (badFormat 2)
  let rb := rowBytes8 t.tag q.nr
  checkTile l q.nc rb (pitchOf o.sh.view rb) (tileAlign t.tag) true
  notRefused h
  boardEnter boardOp l ((q.nc - 1) * pitchOf o.sh.view rb + rb) true

/-- The columns of a TLDT at its stamp, into local space as rows. -/
def tldtRows (o : TileArgs) (h l T : Nat) (q : Region) : M Unit := do
  let t ← entry h
  readRegion h t T q true
  let rb := rowBytes8 t.tag q.nr
  loopM (List.range q.nc) fun i => do
    let s ← getS
    engineWrite (l + i * pitchOf o.sh.view rb) rb
      (packNat (unitBits t.tag) ((List.range q.nr).map fun j => s.columnCode (s.jobOf s.cur) t T q.p (q.r + j) (q.c + i)))

/-- TLDT: the transpose of the tile, C stored rows of R elements. -/
def execTldt (o : TileArgs) (s : State) : Out :=
  run (.tldt o) (do
    let (h, q, l) ← tileRegs o
    unstamped (tldtChecks o h l q)
    let T ← stampHandle 0 h h (2 ^ capRdCol) .reader q.ext
    opTurn h T
    engineStep 0 (tldtRows o h l T q)
    retireOp h T
    boardDone
    engineDone) s

/-- The checks and the scoreboard entry that TST and TST.add share (R341, R348). -/
def storeTileChecks (o : TileArgs) (h l : Nat) (q : Region) (need : Nat) (ok : Tag → Bool) : M Unit := do
  let t ← checkHandle h need
  ensure (ok t.tag) (badFormat 3)
  checkColumns t.tag q
  let rb := rowBytes8 t.tag q.nc
  checkTile l q.nr rb (pitchOf o.sh.view rb) (tileAlign t.tag) false
  notRefused h
  boardEnter boardOp l ((q.nr - 1) * pitchOf o.sh.view rb + rb) false

/-- The rows of a tile in local space, into the shadow of the instruction. -/
def tstRows (o : TileArgs) (h l : Nat) (q : Region) : M Unit := do
  let t ← entry h
  let rb := rowBytes8 t.tag q.nc
  loopM (List.range q.nr) fun i => do
    let x ← engineRead (l + i * pitchOf o.sh.view rb) rb
    keepShadow (tileUnits t q.p (q.r + i) q.c q.nc x)

/-- TST: the codes of a tile in local space into a shadow, and one publish. -/
def execTst (o : TileArgs) (s : State) : Out :=
  run (.tst o) (do
    let (h, q, l) ← tileRegs o
    unstamped (storeTileChecks o h l q (2 ^ capWrTile) fun _ => true)
    let T ← stampHandle 0 h h (2 ^ capWrTile) .writer q.ext
    opTurn h T
    engineStep 0 (do tstRows o h l q; boardDone)
    let _ ← publishMine h T
    pure ()) s

/-- The addition of a reduce-store: the element first, by RNE, or wrapping for I32 (R349). -/
def addElem (f : Tag) (old x : Nat) : Nat :=
  match tagFloat f with
  | some g => fadd g rne old x
  | none => (old + x) % 2 ^ 32

/-- The line of the tensor that a unit lies in: of the alias, or of the dense layout (R147). -/
def Tensor.lineOf (t : Tensor) (k : Nat) : Nat := (if t.plain then t.aliasVa k else k * unitBits t.tag / 8) / 256

/-- A reduce-store's additions, line by line, from the `k`-th line on: once each (R147). `add` gets the code that stands
there and the value kept for the unit. -/
def addLines (h T : Nat) (t : Tensor) (es : List (Nat × Nat)) (add : Nat → Nat → Nat) : List Nat → Nat → M Unit
  | [], _ => pure ()
  | ln :: lines, k => do
    let w ← myWait
    if k < w.n then pure ()
    else do
      let s ← getS
      let t' ← entry h
      let us := es.filter fun e => decide (t.lineOf e.1 = ln)
      addLine h T (us.map fun e => (e.1, add (s.codeNow (s.jobOf s.cur) t' e.1) e.2))
      keepWait fun w => { w with n := k + 1 }
    addLines h T t es add lines (k + 1)

/-- The formats of a reduce-store (R349). -/
def addFormat (f : Tag) : Bool := decide (f = .f32) || decide (f = .bf16) || decide (f = .i32)

/-- The tile that a TST.add reads: the region's own lines, then the rows in local space. -/
def tstAddRows (o : TileArgs) (h l T : Nat) (q : Region) : M Unit := do
  let t ← entry h
  readRegion h t T q
  tstRows o h l q

/-- The lines of a TST.add, once each (R147, R349). -/
def tstAddLines (h T : Nat) : M Unit := do
  let t ← entry h
  let w ← myWait
  let es := shadowOf w.data
  addLines h T t es (addElem t.tag) (es.map fun e => t.lineOf e.1).eraseDups 1

/-- TST.add: a reduce-store of F32, BF16 or I32 (R349). -/
def execTstAdd (o : TileArgs) (s : State) : Out :=
  run (.tstAdd o) (do
    let (h, q, l) ← tileRegs o
    unstamped (storeTileChecks o h l q (2 ^ capAccum) addFormat)
    let T ← stampHandle 0 h h (2 ^ capAccum) .adder q.ext
    opTurn h T
    engineStep 0 (do tstAddRows o h l T q; boardDone)
    tstAddLines h T
    retireOp h T
    modMe fun x => { x with copyPts := max x.copyPts x.pts }) s

/-! ## TRED (R350) -/

/-- The values are integers: unscaled I8, I4 and I32. -/
def Tensor.ints (t : Tensor) : Bool := (tagInt t.tag).isSome && decide (t.scl = 0)

/-- The result over integers, as 32 bits. -/
def tredInt (op : TRedOp) (xs : List Int) : Nat :=
  codeOf 32 (match op with
    | .add => xs.foldl (· + ·) 0
    | .max => xs.foldl max (-(2 ^ 31))
    | .min => xs.foldl min (2 ^ 31 - 1)
    | .amax => xs.foldl (fun a x => max a x.natAbs) 0)

/-- The magnitude of a value. -/
def FV.abs : FV → FV
  | .nan => .nan
  | .inf _ => .inf false
  | .num _ m e => .num false m e

/-- The result over floating values, as an f32 code. -/
def tredFloat (op : TRedOp) (k : Rnd) (xs : List FV) : Nat :=
  if xs.contains .nan then fp32.nan
  else roundFV fp32 k (match op with
    | .add => tree (fun _ a b => fp32.value (roundFV fp32 k (a.add k.isRdn b))) (.num false 0 0) xs
    | .max => xs.foldl FV.maxV (.inf true)
    | .min => xs.foldl FV.minV (.inf false)
    | .amax => xs.foldl (fun a x => a.maxV x.abs) (.num false 0 0))

/-- The result over some elements of a page. DESIGN CHOICE, unsafe: an MXFP4 element beyond FP32's range enters the tree as its exact
value (R350); R193 lets a conversion of such a value to FP32 overflow (notes/assumptions/81.md). -/
def tredOf (hH : Nat) (t : Tensor) (T p : Nat) (op : TRedOp) (k : Rnd) (es : List (Nat × Nat)) : M Nat := do
  let es := es.filter fun e => t.inside p e.1 e.2
  if t.ints then do
    let s ← getS
    pure (tredInt op (es.map fun e => sintOf ((tagInt t.tag).getD 32) (s.unitAt (s.jobOf s.cur) t T p e.1 e.2)))
  else do
    let xs ← mapL (fun e => elemValue hH t T p e.1 e.2) es
    pure (tredFloat op k xs)

/-- Writes results lo .. hi-1 to local space at `l`. -/
def tredWrite (l lo hi : Nat) : M Unit := do
  if lo < hi then do
    let w ← myWait
    engineWrite (l + 4 * lo) (4 * (hi - lo)) (packNat 32 ((List.range (hi - lo)).map fun i => w.data.get 0 (lo + i)))
  else pure ()

/-- The checks of TRED: handle, pitch, local range and alignment, scoreboard (R341, R343, R350). -/
def tredChecks (h l : Nat) (q : Region) (view : BitVec 4) (need n : Nat) : M Unit := do
  let t ← checkHandle h need
  checkColumns t.tag q
  checkPitch t.tag view q.nc
  checkLocal l (4 * n) true
  aligned l 4
  notRefused h
  boardPark l (4 * n)

/-- The first step that a TRED.row takes: PROGIDX when it issued. -/
def tredFirst : M Nat := do
  let me ← myself
  let w ← myWait
  let k0 : Nat := if w.data.get 0 shadowBase = 0 then me.sp.progidx.toNat else w.data.get 0 shadowBase - 1
  keepWait fun w => { w with data := w.data.set 0 shadowBase (k0 + 1) }
  pure k0

/-- Step `k` of a TRED.row: the results of eight tile rows. -/
def tredRowStep (h T : Nat) (q : Region) (op : TRedOp) (rnd : Rnd) (k : Nat) : M Unit := do
  let t ← entry h
  readRegion h t T (q.step k)
  loopM (List.range 8) fun i => do
    let x ← tredOf h t T q.p op (rnd.at (8 * k + i)) ((List.range q.nc).map fun j => (q.r + 8 * k + i, q.c + j))
    keepWait fun w => { w with data := w.data.set 0 (8 * k + i) x }

/-- The steps of a TRED.row from `k0` up, and the results in local space. -/
def tredRowRun (h l T k0 : Nat) (q : Region) (op : TRedOp) (rnd : Rnd) : M Unit := do
  loopM ((List.range (q.nr / 8)).filter fun (k : Nat) => decide (k0 ≤ k)) fun k =>
    longStep k (do tredWrite l (8 * k0) (8 * k); engineDone) (tredRowStep h T q op rnd k)
  tredWrite l (8 * k0) q.nr
  setProg 0

/-- TRED.row: one result for each tile row. -/
def execTredRow (o : TileArgs) (op : TRedOp) (rm : Option RMode) (s : State) : Out :=
  run (.tredRow o op rm) (do
    let (h, q, l) ← tileRegs o
    checkProg (q.nr / 8)
    unstamped (tredChecks h l q o.sh.view (2 ^ capRedRow) q.nr)
    let T ← stampHandle 0 h h (2 ^ capRedRow) .reader q.ext
    opTurn h T
    let me ← myself
    let k0 ← tredFirst
    tredRowRun h l T k0 q op (me.rnd rm)
    retireOp h T
    engineDone) s

/-- The results of a TRED.col. -/
def tredColStep (h T : Nat) (q : Region) (op : TRedOp) (rnd : Rnd) : M Unit := do
  let t ← entry h
  readRegion h t T q
  loopM (List.range q.nc) fun j => do
    let x ← tredOf h t T q.p op (rnd.at j) ((List.range q.nr).map fun i => (q.r + i, q.c + j))
    keepWait fun w => { w with data := w.data.set 0 j x }

/-- TRED.col: one result for each tile column; not long. -/
def execTredCol (o : TileArgs) (op : TRedOp) (rm : Option RMode) (s : State) : Out :=
  run (.tredCol o op rm) (do
    let (h, q, l) ← tileRegs o
    unstamped (tredChecks h l q o.sh.view (2 ^ capRedCol) q.nc)
    let T ← stampHandle 0 h h (2 ^ capRedCol) .reader q.ext
    opTurn h T
    let me ← myself
    engineStep 0 (longTrap (setProg 0) (tredColStep h T q op (me.rnd rm)))
    tredWrite l 0 q.nc
    retireOp h T
    engineDone) s

/-! ## TSCALE and TEW (R351) -/

/-- An element after an operation with an f32 operand: a NaN passes, `x` first; else the exact result rounded once. -/
def ewCode (f : FFmt) (k : Rnd) (g : FV → FV → FV) (x y : Nat) : Nat :=
  if f.isNan x then f.quiet x
  else if fp32.isNan y then fromFp32 f k (fp32.quiet y)
  else roundFV f k (g (f.value x) (fp32.value y))

/-- One step of an in-place transform: eight tile rows, with the f32 operands that `ys` reads for a row. -/
def ewStep (h T : Nat) (rnd : Rnd) (g : FV → FV → FV) (q : Region) (k : Nat) (ys : Nat → M (List Nat)) : M Unit := do
  let t ← entry h
  let p := q.step k
  readRegion h t T p
  loopM (List.range p.nr) fun i => do
    let row ← ys (8 * k + i)
    let s ← getS
    match tagFloat t.tag with
    | none => pure ()
    | some f =>
      keepShadow (((List.range q.nc).filter fun j => t.inside p.p (p.r + i) (p.c + j)).map fun j =>
        let u := t.key p.p (p.r + i) (p.c + j)
        (u, ewCode f (rnd.at u) g (s.codeAt (s.jobOf s.cur) t T u) (row.getD j 0)))

/-- A shadowed writer's steps from PROGIDX up; a trap leaves PROGIDX 0 and discards the shadow (R353). -/
def writerSteps (n : Nat) (f : Nat → M Unit) : M Unit := do
  let me ← myself
  loopM ((List.range n).filter fun k => decide (me.sp.progidx.toNat ≤ k)) fun k => longStep k (setProg 0) (f k)
  setProg 0

/-- The checks of TSCALE (R343, R351, R361). -/
def tscaleChecks (h : Nat) (view : BitVec 4) (q : Region) : M Unit := do
  let t ← checkHandle h (2 ^ capScale)
  ensure (plainFloat t.tag) (badFormat 2)
  checkPitch t.tag view q.nc
  notRefused h

/-- The steps of a TSCALE. -/
def tscaleRun (h T z : Nat) (q : Region) (rnd : Rnd) : M Unit :=
  writerSteps (q.nr / 8) fun k => ewStep h T rnd FV.mul q k fun _ => pure (List.replicate q.nc z)

/-- TSCALE: every element times an f32 scale (R351). -/
def execTscale (h c : SReg) (l : BitVec 5) (sh : TShape) (rm : Option RMode) (s : State) : Out :=
  run (.tscale h c l sh rm) (do
    tensorSlot
    let x ← readSR 0 h
    let y ← readSR 1 c
    let z ← readG l
    let hn := handleIn x
    let q := regionOf y sh
    checkProg (q.nr / 8)
    unstamped (tscaleChecks hn sh.view q)
    let T ← stampHandle 0 hn hn (2 ^ capScale) .writer q.ext
    opTurn hn T
    let me ← myself
    tscaleRun hn T (z.toNat % 2 ^ 32) q (me.rnd rm)
    let _ ← publishMine hn T
    pure ()) s

/-- The exact operation of TEW. -/
def tewOp (rdn : Bool) : TewOp → FV → FV → FV
  | .add => FV.add rdn
  | .mul => FV.mul
  | .max => FV.maxV
  | .min => FV.minV

/-- The parts of a TEW: the operation, the local tile of f32 operands if there is one, the scalar (R351). -/
def tewParts (rdn : Bool) : TewArg → M ((FV → FV → FV) × Option Nat × Nat)
  | .tile op l => do
    let x ← readSR 2 l
    pure (tewOp rdn op, some x.toNat, 0)
  | .scalar op l => do
    let x ← readG l
    pure (tewOp rdn op, none, x.toNat % 2 ^ 32)
  | .relu => pure (FV.maxV, none, 0)

/-- The checks of TEW, with the local tile of its second operand (R343, R351, R361). -/
def tewChecks (h : Nat) (tile : Option Nat) (view : BitVec 4) (q : Region) : M Unit := do
  let t ← checkHandle h (2 ^ capEwise)
  let pitch := pitchOf view (4 * q.nc)
  ensure (plainFloat t.tag) (badFormat 2)
  match tile with
  | none => do
    checkPitch t.tag view q.nc
    notRefused h
  | some l => do
    checkTile l q.nr (4 * q.nc) pitch 4 false
    notRefused h
    boardPark l ((q.nr - 1) * pitch + 4 * q.nc)

/-- The f32 operands of row `i` of a TEW. -/
def tewRow (tile : Option Nat) (pitch sc : Nat) (q : Region) (i : Nat) : M (List Nat) :=
  match tile with
  | none => pure (List.replicate q.nc sc)
  | some l => do
    let v ← engineRead (l + i * pitch) (4 * q.nc)
    pure ((List.range q.nc).map fun j => fieldN v (32 * j) 32)

/-- The steps of a TEW. -/
def tewRun (h T : Nat) (g : FV → FV → FV) (tile : Option Nat) (pitch sc : Nat) (q : Region) (rnd : Rnd) : M Unit :=
  writerSteps (q.nr / 8) fun k => ewStep h T rnd g q k (tewRow tile pitch sc q)

/-- TEW: element by element with a tile, a scalar, or relu (R351). -/
def execTew (h c : SReg) (y : TewArg) (sh : TShape) (rm : Option RMode) (s : State) : Out :=
  run (.tew h c y sh rm) (do
    tensorSlot
    let x ← readSR 0 h
    let z ← readSR 1 c
    let me ← myself
    let (g, tile, sc) ← tewParts (me.rnd rm).isRdn y
    let hn := handleIn x
    let q := regionOf z sh
    checkProg (q.nr / 8)
    unstamped (tewChecks hn tile sh.view q)
    let T ← stampHandle 0 hn hn (2 ^ capEwise) .writer q.ext
    opTurn hn T
    tewRun hn T g tile (pitchOf sh.view (4 * q.nc)) sc q (me.rnd rm)
    let _ ← publishMine hn T
    pure ()) s

/-! ## TCOPY (R352) -/

/-- The code of a destination element: codes of equal tags unchanged, others converted (R199, R200, R352). -/
def copyCode (src dst : Tag) (k : Rnd) (c : Nat) : Nat :=
  if src = dst then c
  else match tagFloat src, tagFloat dst with
    | some f, some g => convF f g k c
    | _, _ => c

/-- The source region of a TCOPY. -/
def copySource (x : Word) (sh : TShape) (tr : Bool) : Region :=
  let q := regionOf x sh
  if tr then { q with nr := q.nc, nc := q.nr } else q

/-- One step of a TCOPY: eight destination rows, unit by unit; without a source element, +0. -/
def copyStep (hd hs Ts : Nat) (rnd : Rnd) (tr : Bool) (d q : Region) (k : Nat) : M Unit := do
  let t ← entry hd
  let u ← entry hs
  let p := d.step k
  readRegion hs u Ts (if tr then { q with c := q.c + 8 * k, nc := 8 } else q.step k) tr
  let uc := unitCols t.tag
  loopM (List.range p.nr) fun i => do
    let s ← getS
    keepShadow (((List.range (d.nc / uc)).filter fun j => t.inside p.p (p.r + i) (p.c + j * uc)).map fun j =>
      let w := t.key p.p (p.r + i) ((p.c + j * uc) / uc)
      let c := if tr then s.columnCode (s.jobOf s.cur) u Ts q.p (q.r + j) (q.c + 8 * k + i)
        else s.unitAt (s.jobOf s.cur) u Ts q.p (q.r + 8 * k + i) (q.c + j * uc)
      (w, copyCode u.tag t.tag (rnd.at w) c))

/-- Two handles of one instruction: both stale checks, then the capabilities of each, in the order H, then the other (R69, R341). -/
def checkTwo (h hneed k kneed : Nat) : M (Tensor × Tensor) := do
  let t ← checkStale h
  let u ← checkStale k
  checkCaps h hneed t
  checkCaps k kneed u
  pure (t, u)

/-- The checks of TCOPY (R343, R352); where the destination needs more than the whole shadow pool, the source gets no stamp either (R148). -/
def tcopyChecks (hd hs need : Nat) (tr : Bool) (view : BitVec 4) (d q : Region) : M Unit := do
  let (dt, st) ← checkTwo hd (2 ^ capWrTile) hs need
  ensure (!tr || (elementTag dt.tag && elementTag st.tag)) (badFormat 3)
  ensure (decide (dt.tag = st.tag) || (plainFloat dt.tag && plainFloat st.tag)) (badFormat 2)
  checkColumns dt.tag d
  checkColumns st.tag q
  checkPitch dt.tag view d.nc
  notRefused hd
  checkPool hd (dt.newSegs .writer (2 ^ capWrTile) (d.ext dt)).length

/-- The capability that TCOPY needs of its source. -/
def copyNeed (tr : Bool) : Nat := if tr then 2 ^ capRdCol else 2 ^ capRdRow

/-- TCOPY: the source is stamped first; its values are read from before the copy's own write (R352). -/
def execTcopy (h : SReg) (c l : BitVec 5) (sh : TShape) (t : Bool) (rm : Option RMode) (s : State) : Out :=
  run (.tcopy h c l sh t rm) (do
    tensorSlot
    let x ← readSR 0 h
    let cd ← readG c
    let cs ← readG (c + 1)
    let z ← readG l
    let hd := handleIn x
    let hs := handleIn z
    let d := regionOf cd sh
    let q := copySource cs sh t
    checkProg (d.nr / 8)
    unstamped (tcopyChecks hd hs (copyNeed t) t sh.view d q)
    let Ts ← stampHandle 0 hs hd (copyNeed t) .reader q.ext
    let Td ← stampHandle 1 hd hd (2 ^ capWrTile) .writer d.ext
    opTurn hs Ts
    opTurn hd Td
    let me ← myself
    writerSteps (d.nr / 8) (copyStep hd hs Ts (me.rnd rm) t d q)
    retireOp hs Ts
    let _ ← publishMine hd Td
    pure ()) s

/-! ## VGATH.t and VSCAT.t (R270) -/

/-- The element a lane names: row and column. -/
def laneElem (y : Row) (l : Nat) : Nat × Nat := (fieldN (elemAt y 32 l) 16 16, fieldN (elemAt y 32 l) 0 16)

/-- The checks of the tensor forms: handle, F32 or I32. R341 limits the slots of its own chapter only: these forms are of every
slot (R270). -/
def gatherChecks (h need : Nat) : M Unit := do
  let go ← stamped
  if go then pure ()
  else do
    let t ← checkHandle h need
    ensure (decide (t.tag = .f32) || decide (t.tag = .i32)) (badFormat 3)
    notRefused h

/-- The elements that some lanes name, as rectangles. -/
def laneExt (k : Crd) (y : Row) (ls : List Nat) (t : Tensor) : List Ext :=
  (ls.flatMap fun l => t.regionExt k.p (k.r + (laneElem y l).1) 1 (k.c + (laneElem y l).2) 1).eraseDups

/-- The operands of VGATH.t and VSCAT.t: the handle, the coordinate, the permuted indexes and the lanes. -/
def gatherRegs (o : TGathered) : M (Nat × Crd × Row) := do
  let x ← readSrc 1 o.h
  let cx ← readG o.c
  let b ← keepRow 100 (readV o.vi)
  pure (handleIn x, crdOf cx, permRow o.perm b)

/-- The lanes from PROGIDX up, each as one step of an engine; PROGIDX is then 0. -/
def laneSteps (ls : List Nat) (f : Nat → M Unit) : M Unit := do
  let me ← myself
  loopM (ls.filter fun l => decide (me.sp.progidx.toNat ≤ l)) fun l => do
    setProg l
    engineStep l (f l)
  setProg 0

/-- One lane of VGATH.t. -/
def gatherLane (v : BitVec 4) (h T : Nat) (crd : Crd) (y : Row) (l : Nat) : M Unit := keepDone do
  let t ← entry h
  let e := laneElem y l
  readRegion h t T { p := crd.p, r := crd.r + e.1, c := crd.c + e.2, nr := 1, nc := 1 }
  let s ← getS
  let x := s.unitAt (s.jobOf s.cur) t T crd.p (crd.r + e.1) (crd.c + e.2)
  let old ← readV v
  writeV v (rowOf 32 fun i => if i = l then x else elemAt old 32 i)

/-- One lane of VSCAT.t; an element outside the geometry is discarded. -/
def scatterLane (h : Nat) (crd : Crd) (y v : Row) (l : Nat) : M Unit := do
  let t ← entry h
  let e := laneElem y l
  if t.inside crd.p (crd.r + e.1) (crd.c + e.2) then
    keepShadow [(t.key crd.p (crd.r + e.1) (crd.c + e.2), elemAt v 32 l)]
  else pure ()

/-- VGATH.t: a reader, lane by lane from PROGIDX. -/
def execVgathT (o : TGathered) (s : State) : Out :=
  run (.vgathT o) (do
    let (h, crd, y) ← gatherRegs o
    let m ← readK o.k
    gatherChecks h (2 ^ capRdRow)
    let T ← stampHandle 0 h h (2 ^ capRdRow) .reader (laneExt crd y (lanesOn m))
    opTurn h T
    laneSteps (lanesOn m) (gatherLane o.v h T crd y)
    retireOp h T) s

/-- VSCAT.t: a shadowed writer; where lanes name one element, the higher lane's value remains. A trap leaves PROGIDX 0 (R270). -/
def execVscatT (o : TGathered) (s : State) : Out :=
  run (.vscatT o) (do
    let (h, crd, y) ← gatherRegs o
    let v ← keepRow 101 (readV o.v)
    let m ← readK o.k
    gatherChecks h (2 ^ capWrTile)
    let T ← stampHandle 0 h h (2 ^ capWrTile) .writer (laneExt crd y (lanesOn m))
    opTurn h T
    longTrap (setProg 0) do
      laneSteps (lanesOn m) (scatterLane h crd y v)
      let _ ← publishMine h T
      pure ()) s

end Sys2Proof.Machine
end

