-- ==== Sys2Proof/Machine/Copy.lean ====
section
/-! DEFINITION. Copies: GET, PUT, GETT, PUTT, their chunks, completion and failure (R81-R83, R149-R154, R281-R284, R384). -/
namespace Sys2Proof.Machine

/-! ## Copies of a state -/

/-- Is copy `id` of a bank of a core. -/
def Copy.isAt (k : Copy) (c b id : Nat) : Bool := decide (k.core = c) && decide (k.bank = b) && decide (k.id = id)

/-- The copy with an id. -/
def State.copyAt (s : State) (c b id : Nat) : Option Copy := s.copies.find? fun k => k.isAt c b id

/-- Replaces a copy. -/
def State.setCopy (s : State) (k : Copy) : State :=
  { s with copies := s.copies.map fun q => if q.isAt k.core k.bank k.id then k else q }

/-- GETT or PUTT. -/
def Copy.isTile (k : Copy) : Bool := decide (2 ≤ k.kind)
/-- PUT or PUTT: the copy reads the issuing core's local space. -/
def Copy.isPut (k : Copy) : Bool := decide (k.kind % 2 = 1)
/-- Row bytes of a tile copy. -/
def Copy.rowBytes (k : Copy) : Nat := k.n / k.rows

/-- Bytes of the chunk that begins at an offset: at most 2 KiB, inside one aligned 2 KiB of the global side, or whole rows of
a tile (R149). -/
def Copy.size (k : Copy) (o : Nat) : Nat :=
  if k.isTile then min (k.n - o) (max 1 (2048 / k.rowBytes) * k.rowBytes)
  else min (k.n - o) (2048 - (k.glob + o) % 2048)

/-- Keys of a copy's data: the bytes of a chunk sent, at its offset; its timestamp plus 1. -/
def sentKey (o : Nat) : Nat := 2 ^ 50 + o
/-- A chunk in the shadow of a PUTT: its bytes, plus 1. -/
def shadowKey (o : Nat) : Nat := 2 ^ 51 + o
/-- A chunk that is visible and whose acknowledgement is on its way: 2^20 × (its timestamp plus 1), and its size. -/
def ackKey (o : Nat) : Nat := 2 ^ 52 + o
/-- The words of a chunk that have landed, one bit each (R113). -/
def landKey (o : Nat) : Nat := 2 ^ 53 + o
/-- A chunk that another streamer has been asked to serve: its number in the order of arrival there (R384). -/
def askKey (o : Nat) : Nat := 2 ^ 54 + o
/-- A stopped copy still has a request on link `v`, which is failing: its streamer is not quiescent until the link is declared down, or
delivers again (R393). -/
def drainKey (v : Nat) : Nat := 2 ^ 55 + v

/-- The offsets of the chunks of a copy that lie between two key bases. -/
def Copy.marks (k : Copy) (lo : Nat) : List Nat :=
  (k.data.filter fun e => decide (2 ^ lo ≤ e.1) && decide (e.1 < 2 ^ (lo + 1))).map fun e => e.1 - 2 ^ lo

/-- The thread number of a copy's operation on a handle: none of a slot. -/
def copyTid (c b id : Nat) : Nat := 2 ^ 20 + (c * 64 + b) * 2 ^ 32 + id

/-- The pieces of local space that a chunk covers: address, length, place in the chunk. -/
def Copy.pieces (k : Copy) (o m : Nat) : List (Nat × Nat × Nat) :=
  if k.isTile then
    (List.range (m / k.rowBytes)).map fun i => (k.loc + (o / k.rowBytes + i) * k.pitch, k.rowBytes, i * k.rowBytes)
  else [(k.loc + o, m, 0)]

/-! ## Reading a chunk (R149, R282) -/

/-- The core whose window is the global side of a copy. -/
def Copy.window (k : Copy) : Option Nat := if !k.isTile && decide (windowBase ≤ k.glob) then some (windowCore k.glob) else none

/-- What a streamer finds when it serves a chunk: it must wait, the copy stops with FARFAULT, or state, timestamp, bytes. -/
inductive Served where
  | wait
  | fail
  | got (s : State) (ts : Nat) (x : Nat)

/-- Bytes of a core's scratchpad read through the engine port, as a slot with PTS `ts` would (R127, R149). -/
def State.serveSpad (s : State) (c b off m ts : Nat) : Served :=
  match (s.core c).poisoned off m with
  | some _ => .fail
  | none =>
    let ts := max ts (s.bank c b).spw
    .got (s.raiseSpw c b ts) ts ((s.core c).read off m)

/-- Bytes of the local space of a copy's issuer. -/
def State.serveLocal (s : State) (k : Copy) (a m ts : Nat) : Served :=
  if isCompute k.core then s.serveSpad k.core k.bank a m ts
  else
    let ts := max ts (s.bank k.core k.bank).spw
    .got (s.raiseSpw k.core k.bank ts) ts (readN (s.slot k.tid).priv a m)

/-- The local pieces of a chunk, one after the other. -/
def State.servePieces (s : State) (k : Copy) (ts : Nat) : List (Nat × Nat × Nat) → Served
  | [] => .got s ts 0
  | (a, n, at_) :: l =>
    match s.serveLocal k a n ts with
    | .got s' ts' x =>
      match s'.servePieces k ts' l with
      | .got s'' ts'' y => .got s'' ts'' (x * 2 ^ (8 * at_) + y)
      | r => r
    | r => r

/-- The operation of a copy on its handle may go on: its turn in stamp order, and the shadow segments of a writer, which are filled
from the segments as they stand published: a poisoned one is a byte that the copy reads (R66, R72, R143, R282). -/
def State.copyTurn (s : State) (k : Copy) : Served :=
  let i := k.handle / 65536
  let t := s.tensor k.job i
  match t.opAt k.stamp with
  | none => .got s 0 0
  | some o =>
    if t.blocked o then .wait
    else if o.kind = .writer ∧ o.shadow = 0 then
      if segsMeet t.poison o.segs then .fail
      else if s.segsBad t o.segs then .wait
      else if s.shadowsUsed k.job + o.segs.length ≤ s.poolSegs k.job then
        .got (s.modTensor k.job i fun t => t.modOp k.stamp fun o => { o with shadow := o.segs.length }) 0 0
      else .wait
    else .got s 0 0

/-- A write entry of a core's scoreboard that is not of copy `k` holds a byte of [a, a+n) (R82). -/
def Core.writeHit (x : Core) (k : Copy) (a n : Nat) : Bool :=
  x.board.any fun e => e.wr && decide (e.lo < a + n) && decide (a < e.hi) && !(decide (e.tid = k.tid) && decide (e.id = k.id))

/-- What keeps a streamer from bytes of the memory side: an error that the manager has not handled, or an entry in transfer, is waited for
(R87, R103); a fault or lost data stops the copy. -/
def Lost.served : Lost → Served
  | .fault | .poison => .fail
  | .error | .moving => .wait

/-- Reads `m` bytes of a copy from offset `o` at its source. -/
def State.serve (s : State) (k : Copy) (o m : Nat) : Served :=
  match k.kind with
  | 0 =>
    let a := k.glob + o
    if windowBase ≤ a then
      let c := windowCore a
      let off := fieldN a 0 28
      if s.notOwned c k.job then .fail
      else if (s.core c).writeHit k off m then .wait
      else s.serveSpad c 0 off m k.p0
    else match s.agentLoad (k.core / 128) k.job a m k.p0 true with
      | .ok (s', ts, x) => .got s' ts x
      | .error e => e.served
  | 1 => s.servePieces k k.p0 (k.pieces o m)
  | 2 =>
    match s.copyTurn k with
    | .got s _ _ =>
      let t := s.tensor k.job (k.handle / 65536)
      let q : Region := { p := k.page, r := k.row0 + o / k.rowBytes, c := k.col0, nr := m / k.rowBytes, nc := k.cols }
      let d := k.core / 128
      let ws := t.wordsIn d (q.ext t)
      if segsMeet (q.segs t) t.poison then .fail
      else if s.wordsBad ws then .wait
      else match (s.tensRead d k.stamp (linesAt k.job t false ws)).readAlias d k.job t k.stamp q.p q.r q.nr q.c q.nc with
        | .error e => e.served
        | .ok (s', ts) =>
          .got s' (max ts k.p0) (packNat (8 * k.rowBytes) ((List.range q.nr).map fun i =>
            packNat (unitBits t.tag) (s'.rowCodes k.job t k.stamp k.page (q.r + i) k.col0 k.cols)))
    | r => r
  | _ =>
    match s.copyTurn k with
    | .got s _ _ => s.servePieces k (max k.p0 k.stamp) (k.pieces o m)
    | r => r

/-! ## Completion (R83, R150, R154, R283, R284) -/

/-- The bank and core that hold a copy's receiving counter. -/
def Copy.rcPlace (k : Copy) : Nat × Nat := if k.kind = 1 then (windowCore k.glob, 0) else (k.core, k.bank)

/-- The chunks of a copy: offset and size, in ascending order. -/
def Copy.chunks (k : Copy) : Nat → Nat → List (Nat × Nat)
  | 0, _ => []
  | fuel + 1, o => if k.n ≤ o then [] else (o, k.size o) :: k.chunks fuel (o + k.size o)

/-- Every chunk of a copy. -/
def Copy.allChunks (k : Copy) : List (Nat × Nat) := k.chunks (k.n / 2048 + k.rows + 2) 0

/-- Neighbouring ranges in one. -/
def joinRanges : List (Nat × Nat) → List (Nat × Nat)
  | [] => []
  | (o, m) :: l =>
    match joinRanges l with
    | (p, n) :: l' => if o + m = p then (o, m + n) :: l' else (o, m) :: (p, n) :: l'
    | [] => [(o, m)]

/-- What a copy has moved: the bytes read at its source, or those visible at its destination: offset and length. A chunk that is asked for
and not sent has been read nowhere. -/
def Copy.moved (k : Copy) (src : Bool) : List (Nat × Nat) :=
  let asked := k.marks 54
  let sent := k.marks 50
  joinRanges (k.allChunks.filter fun e => decide (e.1 < k.done) && !(asked.contains e.1 && !sent.contains e.1) && (src || !sent.contains e.1))

/-- Extra engine-port cycles of what a copy has moved count in STALLS (R76). One transfer is a run of consecutive bytes of GET or
PUT, and each row of a tile (DESIGN CHOICE: the spec does not say what one transfer of n bytes is, notes/assumptions/76.md). -/
def State.copyStalls (s : State) (k : Copy) : State :=
  let s := ((k.moved k.isPut).flatMap fun e => k.pieces e.1 e.2).foldl (fun s p => s.stallEngine k.core p.1 p.2.1) s
  match k.window with
  | none => s
  | some c => (k.moved (!k.isPut)).foldl (fun s e => s.stallEngine c (fieldN k.glob 0 28 + e.1) e.2) s

/-- The record of a launch takes a timestamp above the completion stamp of each of its copies and publishes (R159). -/
def State.raiseLaunch (s : State) (j : Nat) (id : Word) (tm : Nat) : State :=
  s.modJob j fun x => { x with launches := x.launches.map fun l =>
    if l.id = id then { l with lvl := { l.lvl with pts := max l.lvl.pts tm } } else l }

/-- What still comes of a copy whose id is done: acknowledgements on their way, and the end of requests on a failing link (R151, R393). -/
def Copy.rest (k : Copy) : SMap Nat :=
  k.data.filter fun e => (decide (2 ^ 52 ≤ e.1) && decide (e.1 < 2 ^ 53)) || decide (2 ^ 55 ≤ e.1)

/-- The id is done: the watermark and its stamp, the issuer's stamp, the scoreboard entry, the queue entry; the copy is kept for what still
comes of it (R83, R150, R151, R393). -/
def State.retireCopy (s : State) (k : Copy) (tm : Nat) : State :=
  let s := if k.rest.isEmpty then { s with copies := s.copies.filter fun q => !q.isAt k.core k.bank k.id }
    else s.setCopy { k with kind := k.kind % 3, n := k.vis, done := k.vis, data := k.rest }
  let old := (s.bank k.core k.bank).xferDone
  let s := s.modBank k.core k.bank fun b =>
    { b with pending := b.pending.filter fun i => decide (i ≠ k.id), xferStamp := max b.xferStamp tm }
  let s := (s.raiseLaunch k.job k.launch tm).modSlot k.tid fun x => { x with copyPts := max x.copyPts tm }
  let s := s.boardLeave k.tid k.id
  if (s.bank k.core k.bank).xferDone = old then s else s.signal k.core k.bank 0x800

/-- The units of a PUTT's shadow. -/
def State.puttUnits (s : State) (k : Copy) : List (Nat × Nat) :=
  let t := s.tensor k.job (k.handle / 65536)
  (k.data.filter fun e => decide (2 ^ 51 ≤ e.1) && decide (e.1 < 2 ^ 52)).flatMap fun e =>
    let o := e.1 - 2 ^ 51
    (List.range (k.size o / k.rowBytes)).flatMap fun i =>
      tileUnits t k.page (k.row0 + o / k.rowBytes + i) k.col0 k.cols
        (fieldN (e.2 - 1) (8 * i * k.rowBytes) (8 * k.rowBytes))

/-- A copy whose chunks are all visible is done; a PUTT publishes here (R150, R284). -/
def State.finishCopy (s : State) (k : Copy) : State :=
  let s := s.copyStalls k
  let i := k.handle / 65536
  match k.kind with
  | 2 => ((s.modTensor k.job i fun t => t.retire k.stamp).settleIf k.job i).retireCopy k k.pts
  | 3 =>
    let (s, tm) := s.publishAt k.job i k.stamp (max k.stamp k.pts) (s.puttUnits k)
    let s := match k.sc with
      | some c => s.countChunk k.core k.bank c k.n tm k.id
      | none => s
    (s.settleIf k.job i).retireCopy k tm
  | _ => s.retireCopy k k.pts

/-- The die over which the home of a copy's bytes at the far side is reached. -/
def State.copyHome (s : State) (k : Copy) (o : Nat) : Nat :=
  let a := k.glob + o
  if k.isTile then Config.infieldDie
  else if windowBase ≤ a then attached (windowCore a)
  else match s.walkOf k.job a with
    | .error _ => Config.infieldDie
    | .ok l => homeDie (l.phys a)

/-- A copy has a request in flight on link `v`. -/
def State.copyOn (s : State) (v : Nat) (k : Copy) : Bool :=
  !k.over && (k.marks 50 ++ k.marks 54).any fun o => s.crossesLink v k.core (s.copyHome k o)

/-- The failing links, not yet declared down, on which a copy has requests in flight (R393, R400). -/
def State.failing (s : State) (k : Copy) : List Nat :=
  (s.links.filter fun e => decide (e.2.fails ≠ 0) && !e.2.down && s.copyOn e.1 k).map (·.1)

/-- A copy stops with a status: no further chunk, every counter it names takes ERR, the slot keeps the failure, a shadow is
discarded, and the id is done; the stamps are those of the chunks that are visible (R150, R154, R158, R283). Requests on a failing link keep
its streamer from being quiescent (R393). DESIGN CHOICE, unsafe: the slot keeps a failure beyond the 64 that R283 makes the next copy
park on, where several copies in flight fail; a save record holds the first 64 (notes/assumptions/93.md). -/
def State.stopCopy (s : State) (k : Copy) (status : Nat) : State :=
  let i := k.handle / 65536
  let s := match k.rc with
    | some c => s.failCtr k.rcPlace.1 k.rcPlace.2 c status k.id
    | none => s
  let s := match k.sc with
    | some c => s.failCtr k.core k.bank c status k.id
    | none => s
  let s := s.modSlot k.tid fun x => { x with fails := x.fails ++ [(k.id, status)] }
  let s := if k.isTile then (s.modTensor k.job i fun t => t.retire k.stamp).settleIf k.job i else s
  let k' := { k with data := (s.failing k).foldl (fun m v => m.set 0 (drainKey v) 1) k.data }
  (s.copyStalls k).retireCopy k' (if k.kind = 3 then 0 else k.pts)

/-- A link is declared down, or delivers again: nothing of a stopped copy waits for it any more (R393). -/
def State.drained (s : State) (v : Nat) : State :=
  { s with copies := s.copies.filterMap fun k =>
      if (k.marks 55).contains v then
        let k := { k with data := k.data.set 0 (drainKey v) 0 }
        if k.rest.isEmpty then none else some k
      else some k }

/-! ## Chunks -/

/-- The streamer that serves a chunk of a copy, where it is not the core's own: that of another core, whose number it has; that of the
home's stack for a MIGRATE page, and for tensor storage that of the stack of the first row; the infield die's for what lies there, and for
HOST pages (R11, R27, R149). Lines of other pages, and of a PLAIN alias, are read as loads and written as stores. The number of a stack's
streamer is 4096 more than the stack's, that of the infield die's 4112. -/
def State.server (s : State) (k : Copy) (o : Nat) : Option Nat :=
  let at_ (pa : Nat) : Nat := if inHbm pa then 4096 + pa / stackBytes else 4112
  if k.isTile then
    let t := s.tensor k.job (k.handle / 65536)
    if t.plain then none else some (at_ (t.physAt (k.core / 128) (k.page * t.rows + k.row0 + o / k.rowBytes) 0))
  else match k.window with
    | some c => if c = k.core then none else some c
    | none => match s.walkOf k.job (k.glob + o) with
      | .error _ => none
      | .ok l => if l.cls = 1 then some (at_ (l.phys (k.glob + o))) else if l.cls = 3 then some 4112 else none

/-- The deficits of a streamer: of its own queue from key 0, of the requests it serves from key 8; key 6 counts the requests. -/
def State.dues (s : State) (v : Nat) : SMap Nat := if v < 4096 then (s.core v).deficit else s.streams.get [] v
/-- Changes them. -/
def State.setDues (s : State) (v : Nat) (d : SMap Nat) : State :=
  if v < 4096 then s.modCore v fun x => { x with deficit := d } else { s with streams := s.streams.set [] v d }

/-- The chunk of a copy at offset `o` has a route of up links: to the home, to the other core, or to the infield die for a tile
(R423). -/
def State.copyRouted (s : State) (k : Copy) (o : Nat) : Bool :=
  let a := k.glob + o
  if k.isTile then s.routedIn k.core
  else if windowBase ≤ a then s.routedTo k.core (windowCore a)
  else match s.walkOf k.job a with
    | .error _ => true
    | .ok l => s.routed k.core (l.phys a)

/-- A chunk of a copy is read at its source, and is on its way to its destination (R149); a fault or a lost byte stops the copy. None: it must
wait. -/
def State.readChunk (s : State) (k : Copy) (o : Nat) : Option State :=
  let m := k.size o
  match s.serve k o m with
  | .wait => none
  | .fail => some (s.stopCopy k 4)
  | .got s ts x =>
    let s := s.setCopy { k with done := max k.done (o + m), data := (k.data.set 0 o x).set 0 (sentKey o) (ts + 1) }
    some (if k.isPut ∧ k.n ≤ o + m ∧ k.window ≠ some k.core then s.boardLeave k.tid k.id else s)

/-- The next chunk of a copy leaves the core's queue (R149, R384): its streamer reads the source at once, or asks the one that serves it; a
chunk of PUT or PUTT goes to its server with its bytes. A tile copy waits in the queue for its turn on the handle. None: it must wait. -/
def State.sendChunk (s : State) (k : Copy) : Option State :=
  let o := k.done
  if s.copyRouted k o = false then
    some ((s.log (k.core / 128) 7 (attached k.core * 2048 + k.core % 128) 0).stopCopy k 2)
  else match (if k.isTile then s.copyTurn k else .got s 0 0) with
    | .wait => none
    | .fail => some (s.stopCopy k 4)
    | .got s _ _ =>
      match s.server k o with
      | none => s.readChunk k o
      | some v =>
        let n := (s.dues v).get 0 6 + 1
        let k' := { k with data := k.data.set 0 (askKey o) n }
        (if k.isPut then s.readChunk k' o else some (s.setCopy { k' with done := o + k.size o })).map fun t =>
          t.setDues v ((t.dues v).set 0 6 n)

/-- A streamer serves a chunk that it has been asked for: it reads a source, or takes what goes to a destination. None: it must wait. -/
def State.serveChunk (s : State) (k : Copy) (o : Nat) : Option State :=
  let k' := { k with data := k.data.set 0 (askKey o) 0 }
  if k.isPut then some (s.setCopy k') else s.readChunk k' o

/-- The chunks of a copy that are on their way to their destination: sent, and not waiting to be served. -/
def Copy.coming (k : Copy) : List Nat := let asked := k.marks 54; (k.marks 50).filter fun o => !asked.contains o

/-- The words that a chunk changes at its destination, each indivisible: bank words of a scratchpad, words of a private region, lines
of paged memory; a shadow is one (R113, R126). -/
def State.chunkWords (s : State) (k : Copy) (o m : Nat) : List Nat :=
  match k.kind with
  | 1 =>
    let a := k.glob + o
    if windowBase ≤ a then (s.core (windowCore a)).wordsAt (fieldN a 0 28) m else linesOf a m
  | 3 => [0]
  | _ =>
    ((k.pieces o m).flatMap fun p =>
      if isCompute k.core then (s.core k.core).wordsAt p.1 p.2.1 else (List.range p.2.1).map fun i => (p.1 + i) / 8).eraseDups

/-- Writes those bytes of [a, a+n) of the private region of a near-core slot that lie in some words, and tells the watches. -/
def State.privWords (s : State) (t : Nat) (ws : List Nat) (a n v ts : Nat) : State :=
  ((List.range n).filter fun i => ws.contains ((a + i) / 8)).foldl (fun s i =>
    (s.writeLocal t (a + i) 1 (v / 2 ^ (8 * i))).notify (8192 + t) (a + i) 1 ts) s

/-- Writes the words `ws` of a chunk at its destination, whose own job must still hold it (R49, R50). -/
def State.writeChunk (s : State) (k : Copy) (o m x ts : Nat) (ws : List Nat) : Served :=
  match k.kind with
  | 1 =>
    let a := k.glob + o
    if windowBase ≤ a then
      let c := windowCore a
      if s.notOwned c k.job then .fail
      else .got (s.padWords c ws (fieldN a 0 28) m x ts) ts 0
    else match s.walkOf k.job a with
      | .error _ => .fail
      | .ok l =>
        if ¬ l.w ∨ s.poison.contains (l.phys a / 4096) then .fail
        else if s.aliasBusy k.job a m ∨ s.badAt (l.phys a) m true ∨ s.moving (l.phys a) then .wait
        else
          let r := ws.foldl (fun (r : State × Nat) v =>
            let lo := max a v
            let n := min (a + m) (v + 256) - lo
            let y := fieldN x (8 * (lo - a)) (8 * n)
            let s := (r.1.sample (k.core / 128) k.job lo false).1
            if l.cls = 3 then (s.hostPut (l.phys lo) n y, r.2) else s.storeAt (l.phys lo) n y r.2 0 0) (s, ts)
          .got r.1 r.2 0
  | 3 => .got s ts 0
  | _ =>
    .got ((k.pieces o m).foldl (fun s p =>
      let y := fieldN x (8 * p.2.2) (8 * p.2.1)
      if isCompute k.core then s.padWords k.core ws p.1 p.2.1 y ts else s.privWords k.tid ws p.1 p.2.1 y ts) s) ts 0

/-- The core and the bank whose SPW a chunk raises when it is written (R127, R149). -/
def Copy.padOf (k : Copy) : Option (Nat × Nat) :=
  match k.kind with
  | 1 => k.window.map fun c => (c, 0)
  | 3 => none
  | _ => some (k.core, k.bank)

/-- Words of a chunk that has been sent land: those that `mask` names, or, where it is 0, all that are left (R113). With the last of
them the chunk is visible: SPW, the receiving counter (R149, R151); with the last chunk, the id is done (R150). -/
def State.landChunk (s : State) (k : Copy) (o mask : Nat) : State :=
  let m := k.size o
  let x := k.data.get 0 o
  let ts := k.data.get 0 (sentKey o) - 1
  let all := s.chunkWords k o m
  let landed := k.data.get 0 (landKey o)
  let left := all.zipIdx.filter fun w => !landed.testBit w.2
  let some_ := left.filter fun w => mask.testBit w.2
  let part : Bool := decide (mask ≠ 0) && decide (some_.length < left.length)
  match s.writeChunk k o m x ts ((if part then some_ else left).map (·.1)) with
  | .wait => s
  | .fail => s.stopCopy k 4
  | .got s ts _ =>
    if part then
      s.setCopy { k with data := (k.data.set 0 (sentKey o) (ts + 1)).set 0 (landKey o) (landed + (some_.map fun w => 2 ^ w.2).sum) }
    else
      let s := match k.padOf with | some p => s.raiseSpw p.1 p.2 ts | none => s
      let d := ((k.data.set 0 o 0).set 0 (sentKey o) 0).set 0 (landKey o) 0
      let d := if k.kind = 3 then d.set 0 (shadowKey o) (x + 1)
        else if k.sc.isSome then d.set 0 (ackKey o) ((ts + 1) * 2 ^ 20 + m) else d
      let k := { k with data := d, vis := k.vis + m, pts := max k.pts ts }
      let s := s.setCopy k
      let s := match k.rc with
        | some c => s.countChunk k.rcPlace.1 k.rcPlace.2 c m ts k.id
        | none => s
      if k.over then s.finishCopy k else s

/-- The acknowledgement of a visible chunk reaches the sender: its counter gains the bytes (R151). -/
def State.ackChunk (s : State) (k : Copy) (o : Nat) : State :=
  let e := k.data.get 0 (ackKey o)
  let k := { k with data := k.data.set 0 (ackKey o) 0, acked := k.acked + e % 2 ^ 20 }
  let s := if k.over ∧ k.rest.isEmpty then { s with copies := s.copies.filter fun q => !q.isAt k.core k.bank k.id }
    else s.setCopy k
  match k.sc with
  | some c => s.countChunk k.core k.bank c (e % 2 ^ 20) (e / 2 ^ 20 - 1) k.id
  | none => s

/-- A PUTT whose every chunk stands in its shadow: it publishes (R284). -/
def Copy.complete (k : Copy) : Bool := decide (k.kind = 3) && decide (k.vis = k.n)

/-! ## The streamers: deficit round-robin (R149, R384) -/

/-- The copies of a core and class with a chunk to send, in issue order. -/
def State.waiting (s : State) (c cls : Nat) : List Copy :=
  s.copies.filter fun k => decide (k.core = c) && decide (k.prio = cls) && decide (k.done < k.n)

/-- What a class of a queue holds: no chunk; a chunk that must wait; or its bytes, and the state after it has gone. -/
abbrev Head := Option (Option (Nat × State))

/-- The chunk of a class that a core's streamer sends next. -/
def State.nextSend (s : State) (c cls : Nat) : Head :=
  match s.waiting c cls with
  | [] => none
  | k :: _ => some ((s.sendChunk k).map fun t => (k.size k.done, t))

/-- The request of a class that arrived first at a streamer (R384). -/
def State.asked (s : State) (v cls : Nat) : Option (Nat × Copy × Nat) :=
  (s.copies.flatMap fun k =>
    if k.prio = cls then ((k.marks 54).filter fun o => decide (s.server k o = some v)).map fun o => (k.data.get 0 (askKey o), k, o)
    else []).foldl
    (fun (b : Option (Nat × Copy × Nat)) e => match b with | none => some e | some x => if e.1 < x.1 then some e else b) none

/-- The request of a class that a streamer serves next. -/
def State.nextServe (s : State) (v cls : Nat) : Head :=
  (s.asked v cls).map fun e => (s.serveChunk e.2.1 e.2.2).map fun t => (e.2.1.size e.2.2, t)

/-- The quantum of a class (R384). -/
def quantum (cls : Nat) : Nat := if cls = 0 then 8192 else if cls = 1 then 4096 else 2048

/-- Deficit round-robin over four classes (R384): the deficits (keys b to b + 3; b + 4 the class; b + 5 whether its quantum has been
given), and the state after the next chunk. `head` gives what each class holds; one whose chunk must wait keeps its deficit, and gets no
quantum (notes/assumptions/77.md). -/
def drr (head : Nat → Head) (b : Nat) : Nat → SMap Nat → SMap Nat × Option State
  | 0, d => (d, none)
  | fuel + 1, d =>
    let cls := d.get 0 (b + 4)
    let fresh := decide (d.get 0 (b + 5) = 0)
    let next (d : SMap Nat) : SMap Nat := (d.set 0 (b + 4) ((cls + 1) % 4)).set 0 (b + 5) 0
    match head cls with
    | none => drr head b fuel (next (if fresh then d.set 0 (b + cls) 0 else d))
    | some none => drr head b fuel (next d)
    | some (some (n, t)) =>
      let d := if fresh then (d.set 0 (b + cls) (d.get 0 (b + cls) + quantum cls)).set 0 (b + 5) 1 else d
      if n ≤ d.get 0 (b + cls) then (d.set 0 (b + cls) (d.get 0 (b + cls) - n), some t) else drr head b fuel (next d)

/-- A streamer takes the next chunk of its own queue (`b` = 0), or of the requests it serves (`b` = 8): the state after it. -/
def State.drrStep (s : State) (v b : Nat) (head : Nat → Head) : Option State :=
  let r := drr head b 16 (s.dues v)
  r.2.map fun t => t.setDues v (r.1.set 0 6 ((t.dues v).get 0 6))

/-- A core's streamer sends the next chunk of its queue. -/
def State.sendNext (s : State) (c : Nat) : Option State := s.drrStep c 0 fun cls => s.nextSend c cls
/-- A streamer serves the next request. -/
def State.serveNext (s : State) (v : Nat) : Option State := s.drrStep v 8 fun cls => s.nextServe v cls

/-- A streamer serves its requests in order, until it has served a chunk of copy `id` at offset `o`. -/
def State.serveUntil : Nat → State → Nat → Nat → Nat → Nat → Nat → State
  | 0, s, _, _, _, _, _ => s
  | fuel + 1, s, v, c, b, id, o =>
    if (s.copyAt c b id).any (fun k => (k.marks 54).contains o) then
      match s.serveNext v with
      | none => s
      | some t => t.serveUntil fuel v c b id o
    else s

/-- Does something with each of some chunks of a copy, as long as the copy is there. -/
def State.eachMark (s : State) (c b id : Nat) (l : Copy → List Nat) (f : State → Copy → Nat → State) : State :=
  match s.copyAt c b id with
  | none => s
  | some k => (l k).foldl (fun s o => match s.copyAt c b id with | none => s | some k => f s k o) s

/-- Requests that wait to be served. -/
def State.askedCount (s : State) : Nat := (s.copies.map fun k => (k.marks 54).length).sum

/-- Everything of a copy that is on its way arrives; its requests are served in their turn. -/
def State.promptCopy (s : State) (c b id : Nat) : State :=
  let s := s.eachMark c b id (fun k => k.marks 54) fun s k o =>
    match s.server k o with | none => s | some v => s.serveUntil (s.askedCount + 1) v c b id o
  let s := s.eachMark c b id Copy.coming fun s k o => s.landChunk k o 0
  let s := s.eachMark c b id (fun k => k.marks 52) fun s k o => s.ackChunk k o
  match s.copyAt c b id with
  | none => s
  | some k => if k.complete then s.finishCopy k else s

/-- Serves the queue of a core to its end: what a machine does whose replies come at once. What must wait is left where it is. -/
def State.runQueue : Nat → State → Nat → State
  | 0, s, _ => s
  | fuel + 1, s, c =>
    match s.sendNext c with
    | none => s
    | some t => ((t.copies.filter fun k => decide (k.core = c)).foldl (fun s k => s.promptCopy k.core k.bank k.id) t).runQueue fuel c

/-! ## Issue (R281, R282, R284) -/

/-- The priority class of a copy (R281). -/
def copyPrio (p : Option (BitVec 2)) : M Nat := do
  let x ← myself
  pure (match p with | some q => q.toNat | none => fieldN x.sp.xstat.toNat 6 2)

/-- The range [a, a+n) of global space: its lowest bad byte traps (R24, R25, R282). -/
def checkGlobal (a : Int) (n : Nat) (wr : Bool) : M Unit := do
  let s ← getS
  let w : Int := max a windowBase
  let pts : List Int := [a, windowBase, w - (w - windowBase) % 2 ^ 28 + 0x400000]
  let bad (b : Int) : Bool := outsideGlobal b || (decide ((windowBase : Int) ≤ b) && s.notOwned (windowCore b.toNat) (s.jobOf s.cur))
  match (pts.filter fun b => decide (a ≤ b) && decide (b < a + n) && bad b).foldl
      (fun (m : Option Int) b => match m with | none => some b | some x => some (min x b)) none with
  | none => pure ()
  | some b => trap 5 (faultValue (if outsideGlobal b then 2 else 3) 0 false wr b)

/-- The core's put-and-get queue, its ids, and the slot's unreported failures leave room for a copy (R282, R283). -/
def copyRoom : M Unit := do
  let s ← getS
  let c := coreOf s.cur
  let full := decide (64 ≤ (s.copies.filter fun k => decide (k.core = c) && !k.over).length) || decide (64 ≤ s.me.fails.length) ||
    decide (2 ^ 31 - 1 ≤ (s.bank c (s.bankNo s.cur)).pending.length)
  if full then park .queueFull else pure ()

/-- A copy of the issuing slot before it has an id. -/
def newCopy (kind glob loc n prio : Nat) (rc sc : Option (BitVec 5)) : M Copy := do
  let s ← getS
  pure { id := (s.bank (coreOf s.cur) (s.bankNo s.cur)).xferNext, core := coreOf s.cur, bank := s.bankNo s.cur, tid := s.cur,
         job := s.jobOf s.cur, kind := kind, glob := glob, loc := loc, n := n, done := 0, vis := 0, acked := 0, prio := prio,
         rc := rc.map (·.toNat), sc := sc.map (·.toNat), p0 := s.me.pts, pts := 0, stamp := 0, handle := 0, row0 := 0,
         col0 := 0, page := 0, rows := 1, cols := 0, pitch := 0, data := [], launch := s.me.sp.launchid }

/-- The copy takes its id and its queue entry; where replies come at once it is served at once; a cancelled unit's is
refused as CANCELLED (R172, R282). -/
def launchCopy (k : Copy) : M Unit := do
  modS fun s => s.modBank k.core k.bank fun b =>
    { b with xferNext := (b.xferNext + 1) % 2 ^ 32, pending := b.pending ++ [k.id] }
  modS fun s => { s with copies := s.copies ++ [k] }
  let s ← getS
  if s.me.refusing then modS fun s => s.stopCopy k 3
  else if k.n = 0 then modS fun s => s.retireCopy k 0
  else if s.prompt then modS fun s => s.runQueue (s.copies.foldl (fun n q => n + q.n / 2048 + q.rows + 3) 0) k.core
  else pure ()

/-- The hull of the bytes of the issuing core's own scratchpad that GET or PUT touches: those of its local side, and of its own window
where that is the global side (R81): first byte and length. -/
def Copy.hull (k : Copy) : Nat × Nat :=
  if k.window = some k.core ∧ k.n ≠ 0 then
    let g := fieldN k.glob 0 28
    (min k.loc g, max (k.loc + k.n) (g + k.n) - min k.loc g)
  else (k.loc, k.n)

/-- GET and PUT (R281, R282). A copy that writes bytes of its own core's scratchpad, on either side, enters a write entry (R81;
notes/assumptions/76.md). -/
def copyOp (o : CopyArgs) (put : Bool) : M Unit := do
  let h ← readSR 0 o.h
  let l ← readSR 2 o.l
  let c ← readG o.c
  let n := c.toNat
  ensure (decide (n ≤ 0x400000)) (illegalOp 7 40)
  checkLocal l.toNat n (!put)
  checkGlobal h.toNat n put
  ensure (!put || o.rc.isNone || decide (windowBase ≤ h.toNat)) (illegalOp 0x0B 24)
  copyRoom
  let prio ← copyPrio o.prio
  let k ← newCopy (if put then 1 else 0) h.toNat l.toNat n prio o.rc o.sc
  let hull := k.hull
  boardEnter k.id hull.1 hull.2 (!put || decide (k.window = some k.core))
  writeG o.c (BitVec.ofNat 64 k.id)
  launchCopy k

/-- GET (R281). -/
def execGet (o : CopyArgs) (s : State) : Out := run (.get o) (copyOp o false) s
/-- PUT (R281). -/
def execPut (o : CopyArgs) (s : State) : Out := run (.put o) (copyOp o true) s

/-- The range that the instruction entered before its stamp now belongs to a copy; so does its operation on the handle. -/
def State.adopt (s : State) (k : Copy) : State :=
  let s := s.modCore k.core fun x =>
    { x with board := x.board.map fun e => if e.tid = k.tid ∧ e.id = boardOp then { e with id := k.id } else e }
  s.modTensor k.job (k.handle / 65536) fun t => t.modOp k.stamp fun o => { o with tid := copyTid k.core k.bank k.id }

/-- What GETT and PUTT check, and the scoreboard entry, before the first stamp (R282, R284). -/
def tileCopyChecks (o : TCopyArgs) (h l need : Nat) (q : Region) (put : Bool) : M Unit := do
  let t ← checkHandle h need
  checkColumns t.tag q
  let rb := rowBytes8 t.tag q.nc
  checkTile l q.nr rb (pitchOf o.t.sh.view rb) (tileAlign t.tag) (!put)
  copyRoom
  boardEnter boardOp l ((q.nr - 1) * pitchOf o.t.sh.view rb + rb) (!put)

/-- The copy of a GETT or PUTT that has its stamp, or is refused one; the range and the operation now belong to it. -/
def tileCopyOf (o : TCopyArgs) (h l T : Nat) (q : Region) (put : Bool) : M Copy := do
  let t ← entry h
  let rb := rowBytes8 t.tag q.nc
  let prio ← copyPrio o.prio
  let k ← newCopy (if put then 3 else 2) 0 l (q.nr * rb) prio (if put then none else o.n) (if put then o.n else none)
  let k := { k with stamp := T, handle := h, row0 := q.r, col0 := q.c, page := q.p, rows := q.nr, cols := q.nc,
                    pitch := pitchOf o.t.sh.view rb }
  modS fun s => s.adopt k
  pure k

/-- The capability that GETT, or PUTT, needs. -/
def tileCopyNeed (put : Bool) : Nat := if put then 2 ^ capWrTile else 2 ^ capRdRow

/-- GETT and PUTT (R284). A cancelled unit's, like its GET and PUT, takes its id and no stamp, and stops as CANCELLED (R172). -/
def tileCopy (o : TCopyArgs) (put : Bool) : M Unit := do
  let h ← readSR 0 o.t.h
  let y ← readSR 1 o.t.c
  let l ← readSR 2 o.t.l
  let h := handleIn h
  let q := regionOf y o.t.sh
  unstamped (tileCopyChecks o h l.toNat (tileCopyNeed put) q put)
  let x ← myself
  let T ← if x.refusing then pure 0 else stampHandle 0 h h (tileCopyNeed put) (if put then .writer else .reader) q.ext
  copyRoom
  let k ← tileCopyOf o h l.toNat T q put
  if o.id = 0 then pure () else writeG o.id (BitVec.ofNat 64 k.id)
  launchCopy k

/-- GETT (R284). -/
def execGett (o : TCopyArgs) (s : State) : Out := run (.gett o) (tileCopy o false) s
/-- PUTT (R284). -/
def execPutt (o : TCopyArgs) (s : State) : Out := run (.putt o) (tileCopy o true) s

/-! ## The steps of the streamers (R149-R151, R384) -/

/-- The streamer that serves requests where a core stands: a compute core's own, that of a base die's stack, the infield die's. -/
def serverAt (c : Nat) : Nat :=
  if isCompute c then c
  else if Config.baseDie0 ≤ c / 128 ∧ c / 128 < Config.baseDie0 + 16 then 4096 + (c / 128 - Config.baseDie0) else 4112

/-- COPY_CHUNK: the core's streamer sends the next chunk of its queue in the order of R384, or, where it has none that can go or the
free choice says so, the streamer that serves requests there serves the next one. -/
def execCopyChunk (core : Nat) (s : State) : Out :=
  event (core / 128) (fun s =>
    let p := s.picks.headD 0
    let s := { s with picks := s.picks.tail }
    ((if p = 0 then s.sendNext core else none).orElse fun _ => s.serveNext (serverAt core)).getD s) s

/-- One of some offsets: chunks land in any order (R149); the free choice picks. -/
def State.choose (s : State) (l : List Nat) : Option Nat × State :=
  match l with
  | [] => (none, s)
  | x :: _ => (some (l.getD (s.picks.headD 0 % l.length) x), { s with picks := s.picks.tail })

/-- CHUNK_VISIBLE: words of a chunk that has been sent are written at its destination: those that the free choice names, or all of
them (R113, R149, R151). -/
def execChunkVisible (core bank id : Nat) (s : State) : Out :=
  event (core / 128) (fun s =>
    match s.copyAt core bank id with
    | none => s
    | some k =>
      match s.choose k.coming with
      | (none, s) => s
      | (some o, s) => { s with picks := s.picks.tail }.landChunk k o (s.picks.headD 0)) s

/-- CHUNK_ACK: the sender learns that a chunk is visible (R151). -/
def execChunkAck (core bank id : Nat) (s : State) : Out :=
  event (core / 128) (fun s =>
    match s.copyAt core bank id with
    | none => s
    | some k =>
      match s.choose (k.marks 52) with
      | (none, s) => s
      | (some o, s) => s.ackChunk k o) s

/-- COPY_DONE: a PUTT whose chunks all stand in its shadow publishes, and its id is done (R150, R284); the id of any other copy is done
with its last visible chunk. -/
def execCopyDone (core bank id : Nat) (s : State) : Out :=
  event (core / 128) (fun s =>
    match s.copyAt core bank id with
    | none => s
    | some k => if k.complete then s.finishCopy k else s) s

/-- COPY_STOP: a copy that is not complete stops with LINKDOWN, CANCELLED or FARFAULT (R154, R283). -/
def execCopyStop (core bank id status : Nat) (s : State) : Out :=
  event (core / 128) (fun s =>
    match s.copyAt core bank id with
    | none => s
    | some k => if k.complete ∨ k.over ∨ ¬ (status = 2 ∨ status = 3 ∨ status = 4) then s else s.stopCopy k status) s

end Sys2Proof.Machine
end

