-- ==== Sys2Proof/Machine/Matrix.lean ====
section
/-! DEFINITION. The matrix engine: accumulator slots, operands, MMA, MMAT, MMAG, MMAS, AZERO, AREL, ACLAIM, AEPI, ASAVE,
ALOAD (R194-R196, R201, R202, R319-R337). -/
namespace Sys2Proof.Machine

/-! ## Accumulator slots (R319-R321) -/

/-- Matrix instructions are of local slots 1-15 of compute cores (R319). -/
def matrixSlot : M Unit := do
  let s ← getS
  ensure (isLocal s.cur && decide (slotNo s.cur ≠ 0)) (illegalOp 8 56)

/-- An accumulator slot of the issuing slot's cluster. -/
def State.acc (s : State) (l : Nat) : Acc := (s.cluster (clusterOf (coreOf s.cur))).acc.get Acc.dflt l

/-- Changes an accumulator slot of the issuing slot's cluster. -/
def modAcc (l : Nat) (f : Acc → Acc) : M Unit := modS fun s =>
  s.modCluster (clusterOf (coreOf s.cur)) fun k => { k with acc := k.acc.set Acc.dflt l (f (k.acc.get Acc.dflt l)) }

/-- Trap 0x01, SUB 0x08, FIELD 32: the slot is not one this instruction may name. -/
def accRefused {α : Type} : M α := illegalOp 8 32

/-- Waits for an accumulator slot, in order of arrival (R321). -/
def waitAcc {α : Type} (l : Nat) : M α := do
  let s ← getS
  modAcc l fun a => { a with waiters := joinEnd a.waiters s.cur }
  Sys2Proof.Machine.park (.acc l)

/-- The unit of the issuing slot holds an accumulator slot. -/
def State.mineAcc (s : State) (l : Nat) : Bool := holds s.me (s.jobOf s.cur) (s.acc l)

/-- The slot that AZERO, the MMA family or ALOAD names: held already, or opened if FREE and it is this thread's turn; the
answer says whether this instruction has opened it. `free` asks for a FREE slot (R321, R337). -/
def openAcc (l : Nat) (free : Bool) : M Bool := do
  let w ← myWait
  if w.data.get 0 openKey ≠ 0 then pure true
  else do
    let s ← getS
    let a := s.acc l
    if s.mineAcc l ∧ a.st = .epilogue then accRefused
    else if s.mineAcc l ∧ a.st = .owned ∧ ¬ free then pure false
    else if a.st = .free ∧ (a.waiters = [] ∨ a.waiters.head? = some s.cur) then do
      modAcc l fun a => { a with st := .owned, unitid := s.me.sp.unitid, launchid := s.me.sp.launchid, job := s.jobOf s.cur,
                                 waiters := a.waiters.filter (· ≠ s.cur) }
      keepWait fun w => { w with data := w.data.set 0 openKey (l + 1) }
      pure true
    else waitAcc l

/-- The instruction is performed: the slot it has opened stays open. -/
def accKept : M Unit := keepWait fun w => { w with data := w.data.set 0 openKey 0 }

/-- The slot that AEPI, AREL or ASAVE names: a FREE one, or one another unit holds, is refused; a PARKED one is waited
for, where `parked` does not say otherwise (R321). -/
def ownAcc (l : Nat) (parked : Bool) : M Acc := do
  let s ← getS
  let a := s.acc l
  if a.st = .parked then (if parked then pure a else waitAcc l)
  else if ¬ s.mineAcc l then accRefused
  else pure a

/-- A poisoned accumulator slot that is read traps (R104, R396). -/
def checkAccPoison (l : Nat) : M Unit := do
  let s ← getS
  ensure (!(s.acc l).poison) (dataLost 3 l)

/-- Rows or columns of an edge code. -/
def edgeOf : Edge → Nat
  | .e32 => 32
  | .e64 => 64
  | .e128 => 128

/-- The edge code of a size. -/
def edgeMax (a b : Edge) : Edge := if edgeOf a < edgeOf b then b else a

/-- New elements in place of an accumulator's first `mm` rows of `nn`; an element +0 is not listed. -/
def Acc.put (a : Acc) (mm nn : Nat) (es : List (Nat × Nat)) : Acc :=
  let new : SMap (BitVec 32) := (es.map fun e => (e.1, BitVec.ofNat 32 e.2)).filter fun e => decide (e.2 ≠ 0)
  let rest : SMap (BitVec 32) := a.data.filter fun e => decide (mm ≤ e.1 / 128) || decide (nn ≤ e.1 % 128)
  { a with data := union new rest }

/-- An element of an accumulator slot, as its 32 bits. -/
def Acc.elem (a : Acc) (i j : Nat) : Nat := (a.data.get 0 (128 * i + j)).toNat

/-! ## Formats and kinds (R322) -/

/-- The class of a format. -/
inductive FmtClass where
  | w | h | l | q | d
  deriving DecidableEq, Repr

/-- The class of a tag; none for a tag that no matrix instruction takes. -/
def classOf : Tag → Option FmtClass
  | .f32 => some .w
  | .bf16 => some .h
  | .e4m3 | .e5m2 | .px9 | .px6 | .px4 | .mxfp4 => some .l
  | .i8 | .i4 => some .q
  | .dxe4m3 | .dxe5m2 => some .d
  | _ => none

/-- H or L. -/
def narrow (c : FmtClass) : Bool := decide (c = .h) || decide (c = .l)

/-- The kind of a pair: some true integer, some false float; `sa`, `sb` say that an integer operand is scaled. -/
def pairKind (a b : FmtClass) (sa sb : Bool) : Option Bool :=
  if a = .w ∧ b = .w then some false
  else if narrow a ∧ narrow b then some false
  else if a = .d ∧ b = .d then some false
  else if a = .q ∧ b = .q ∧ ¬ sa ∧ ¬ sb then some true
  else if (a = .q ∧ sa ∧ narrow b) ∨ (b = .q ∧ sb ∧ narrow a) then some false
  else none

/-- Bytes of an element format (R324); 0 for a block format and I4. -/
def elemBytes : Tag → Nat
  | .f32 => 4
  | .bf16 => 2
  | .e4m3 | .e5m2 | .i8 => 1
  | _ => 0

/-- Bytes of a stored row of `n` elements (R324). -/
def storedRow (f : Tag) (n : Nat) : Nat :=
  match f with
  | .mxfp4 => n / 32 * 17
  | _ => rowBytes8 f n

/-! ## Operands (R323, R324, R328) -/

/-- One operand of a multiply: a handle with a coordinate, or a scratchpad at a core and a stride. `kIn` says that its
stored rows run along K; `idx` gives the stored rows of a gathered A. -/
structure Operand where
  handle : Option Nat
  crd    : Crd
  fmt    : Tag
  scaled : Bool
  isA    : Bool
  tr     : Bool
  addr   : Nat
  stride : Nat
  idx    : Option (List Nat)

namespace Operand
/-- The stored rows run along K. -/
def kIn (o : Operand) : Bool := if o.isA then !o.tr else o.tr
/-- Elements of a stored row, for `p` = M or N and `k` = K. -/
def rowLen (o : Operand) (p k : Nat) : Nat := if o.kIn then k else p
/-- Stored rows. -/
def rowCount (o : Operand) (p k : Nat) : Nat := if o.kIn then p else k
/-- The stride, with the default for 0 (R324). -/
def step (o : Operand) (p k : Nat) : Nat :=
  let rb := storedRow o.fmt (o.rowLen p k)
  if o.stride ≠ 0 then o.stride else if o.isA ∧ ¬ o.tr then align256 rb else rb
/-- Bytes from the base to the end. -/
def extent (o : Operand) (p k : Nat) : Nat := (o.rowCount p k - 1) * o.step p k + storedRow o.fmt (o.rowLen p k)
/-- The local address of a scratchpad operand. -/
def base (o : Operand) : Nat := fieldN o.addr 0 22
end Operand

/-- The core a cluster address names (R14, R323). -/
def clusterCore (c v : Nat) : Nat := if v.testBit 26 then coreAt (clusterOf c) (fieldN v 24 2) else c

/-- A cluster address is well-formed and `n` bytes lie inside the scratchpad (R323). -/
def clusterOk (v n : Nat) : Bool :=
  decide (v < 2 ^ 27) && decide (fieldN v 22 2 = 0) && (v.testBit 26 || decide (fieldN v 24 2 = 0)) &&
  decide (fieldN v 0 22 + n ≤ 0x400000)

/-- Trap 0x05, OUTSIDE, with the cluster address in ADDR, and WRITE for a destination (R48, R323). -/
def checkCluster (v n : Nat) (wr : Bool) : M Unit := ensure (clusterOk v n) (trap 5 (faultValue 2 0 false wr v))

/-- Reads `n` bytes of a core's scratchpad through its engine port. -/
def padRead (c a n : Nat) : M Nat := do
  let s ← getS
  match (s.core c).poisoned a n with
  | some b => dataLost 2 b
  | none => do
    modS fun s => s.stallEngine c a n
    pure ((s.core c).read a n)

/-- The values of elements c0 .. c0+n-1 of a stored row in a scratchpad (R188-R193, R324). -/
def padRow (c a : Nat) (f : Tag) (c0 n len : Nat) : M (List FV) :=
  match f with
  | .px9 | .px6 | .px4 => do
    let b := unitBits f / 8
    let x ← padRead c (a + c0 / 16 * b) (n / 16 * b)
    pure ((List.range n).map fun i => pxValue (pxM f) (fieldN x (i / 16 * (8 * b)) (8 * b)) (i % 16))
  | .mxfp4 => do
    let x ← padRead c (a + c0 / 2) (n / 2)
    let y ← padRead c (a + len / 2 + c0 / 32) (n / 32)
    pure ((List.range n).map fun i => mxValue (fieldN x (4 * i) 4) (fieldN y (i / 32 * 8) 8))
  | _ => do
    let w := unitBits f
    let x ← padRead c (a + c0 * w / 8) (n * w / 8)
    pure ((List.range n).map fun i =>
      match tagFloat f with
      | some g => g.value (fieldN x (i * w) w)
      | none => FV.ofInt (sintOf w (fieldN x (i * w) w)))

/-- Columns in place of rows. -/
def flip (n : Nat) (xs : List (List FV)) : List (List FV) :=
  (List.range n).map fun i => xs.map fun r => r.getD i (.num false 0 0)

/-- The values of one row of an operand in a K group, and the exact factor of its sum; no factor where the scales that R196
factors out are not constant over the group (notes/assumptions/16.md). -/
abbrev OpRow := List FV × Option FV

/-- The factor 1. -/
def one : FV := .num false 1 0

/-- The stored row and column of element (i, k) of an operand, inside its handle. -/
def Operand.at_ (o : Operand) (i k : Nat) : Nat × Nat :=
  if o.kIn then (o.crd.r + (match o.idx with | none => i | some l => l.getD i 0), o.crd.c + k)
  else (o.crd.r + k, o.crd.c + i)

/-- The factor that all elements share; 1 where there is none. -/
def common : List FV → Option FV
  | [] => some one
  | x :: l => if l.all (fun y => decide (y = x)) then some x else none

/-- One row of a DX operand: each element with the plane that varies along K applied, and S times the other plane (R196). -/
def dxRow (h : Nat) (t : Tensor) (T : Nat) (o : Operand) (i : Nat) (ks : List Nat) : M OpRow := do
  let f := (tagFloat t.tag).getD fp32
  let xs ← mapL (fun k => do
    let (r, c) := o.at_ i k
    if t.inside o.crd.p r c then do
      let sc ← planeLoad h T (dxS t o.crd.p r c) 4
      let rv ← planeLoad h T (dxRv t o.crd.p r c) 1
      let cv ← planeLoad h T (dxCv t o.crd.p r c) 1
      let s ← getS
      let code := s.unitAt (s.jobOf s.cur) t T o.crd.p r c
      let (fix, var) := if o.kIn then (rv, cv) else (cv, rv)
      pure (dxAdjust f code var, some ((fp32.value sc).mul (e8Value fix)))
    else pure (FV.num false 0 0, none)) ks
  pure (xs.map (·.1), common (xs.filterMap (·.2)))

/-- One row of a handle operand in a K group. -/
def handleRow (h : Nat) (t : Tensor) (T : Nat) (o : Operand) (i : Nat) (ks : List Nat) : M OpRow :=
  match t.tag with
  | .dxe4m3 | .dxe5m2 => dxRow h t T o i ks
  | _ => do
    let xs ← mapL (fun k => elemValue h t T o.crd.p (o.at_ i k).1 (o.at_ i k).2) ks
    pure (xs, some one)

/-- The stored regions of a handle operand that one K group reads. -/
def Operand.regions (o : Operand) (p g : Nat) : List Region :=
  match o.idx with
  | some l => (l.take p).map fun r => { p := o.crd.p, r := o.crd.r + r, c := o.crd.c + 32 * g, nr := 1, nc := 32 }
  | none =>
    if o.kIn then [{ p := o.crd.p, r := o.crd.r, c := o.crd.c + 32 * g, nr := p, nc := 32 }]
    else [{ p := o.crd.p, r := o.crd.r + 32 * g, c := o.crd.c, nr := 32, nc := p }]

/-- Some regions of a handle operand are read at its stamp. -/
def readRegions (h : Nat) (t : Tensor) (T : Nat) (qs : List Region) (cols : Bool) : M Unit :=
  loopM (List.range qs.length) fun n => match qs[n]? with
    | some q => readRegion h t T q cols
    | none => pure ()

/-- The rows of an operand in K group `g`: `p` of them, 32 values each. A gathered operand comes from the latch, which was filled before
the first step (R329). -/
def opRows (o : Operand) (T p k g : Nat) : M (List OpRow) :=
  match o.handle with
  | some h => do
    let t ← entry h
    if o.idx.isSome then pure () else readRegions h t T (o.regions p g) o.tr
    mapL (fun i => handleRow h t T o i ((List.range 32).map (32 * g + ·))) (List.range p)
  | none => do
    let s ← getS
    let c := clusterCore (coreOf s.cur) o.addr
    let S := o.step p k
    if o.kIn then do
      let xs ← mapL (fun i => padRow c (o.base + i * S) o.fmt (32 * g) 32 k) (List.range p)
      pure (xs.map fun r => (r, some one))
    else do
      let xs ← mapL (fun i => padRow c (o.base + (32 * g + i) * S) o.fmt 0 p p) (List.range 32)
      pure ((flip p xs).map fun r => (r, some one))

/-! ## One step (R201, R202, R327) -/

/-- The exact integer of a value. -/
def FV.int (v : FV) : Int := v.toInt rne

/-- One output of a K group; `n` numbers the free value of a sum that the spec does not give. -/
def groupOut (ints : Bool) (old n : Nat) (a b : OpRow) : Nat :=
  if ints then codeOf 32 (sintOf 32 old + ((a.1.zip b.1).map fun e => e.1.int * e.2.int).foldl (· + ·) 0)
  else match a.2, b.2 with
    | some x, some y => accAdd old (scaledSum ((a.1.zip b.1).map fun e => e.1.mul e.2) (x.mul y))
    | _, _ => (Config.freeWord n).toNat % 2 ^ 32

/-- One K group into an accumulator slot. -/
def mmStep (l mm nn : Nat) (ints : Bool) (as bs : List OpRow) : M Unit := do
  let s ← getS
  let a := s.acc l
  let es := (List.range mm).flatMap fun i => (List.range nn).map fun j =>
    (128 * i + j, groupOut ints (a.elem i j) (s.frees + 128 * i + j) (as.getD i ([], none)) (bs.getD j ([], none)))
  modAcc l fun a => a.put mm nn es
  if (as ++ bs).all (fun r => r.2.isSome) then pure () else modS fun s => { s with frees := s.frees + 16384 }

/-! ## Checks of the multiply family (R331) -/

/-- A handle operand is not stale (R69). -/
def operandStale (o : Operand) : M Unit :=
  match o.handle with
  | none => pure ()
  | some h => do
    let _ ← checkStale h
    pure ()

/-- A handle operand has the capabilities it needs (R69, R328). -/
def operandCaps (o : Operand) (need : Nat) : M Unit :=
  match o.handle with
  | none => pure ()
  | some h => do
    let _ ← checkHandle h need
    pure ()

/-- The format and the alignment of a handle operand; the operand with its format is answered (R328). -/
def handleOperand (o : Operand) : M Operand :=
  match o.handle with
  | none => pure o
  | some h => do
    let t ← checkStale h
    ensure ((classOf t.tag).isSome && (!o.tr || decide (elemBytes t.tag ≠ 0)) && decide (o.crd.c % tileRule t.tag = 0))
      (badFormat 3)
    pure { o with fmt := t.tag, scaled := decide ((tagInt t.tag).isSome) && decide (t.scl ≠ 0) }

/-- What a handle operand needs (R328). DESIGN CHOICE, unsafe for a claim that an MMAS traps: R54 lists SPARSE alone for MMAS and says that no
instruction needs a bit beyond those listed, while R328 and R330 ask MM_A and MM_B of its handles; MMAS needs all of them here
(notes/assumptions/91.md). -/
def needOf (o : Operand) (sparse gather : Bool) : Nat :=
  (if o.isA then 2 ^ capMmA else 2 ^ capMmB) + (if o.tr then 2 ^ capRdCol else 0) + (if sparse then 2 ^ capSparse else 0) +
    (if gather then 2 ^ capGather else 0)

/-- Steps 5 and 6 of R331 for one scratchpad operand. -/
def padAddress (o : Operand) (p k : Nat) : M Unit :=
  match o.handle with
  | some _ => pure ()
  | none => checkCluster o.addr (o.extent p k) false

/-- Alignment of a scratchpad operand (R324). -/
def padAlign (o : Operand) (p k : Nat) : M Unit :=
  match o.handle with
  | some _ => pure ()
  | none =>
    let e := elemBytes o.fmt
    ensure (decide (e = 0) || (decide (o.base % e = 0) && decide (o.step p k % e = 0))) (trap 4 (BitVec.ofNat 64 (o.addr % 2 ^ 56)))

/-- A byte of some rows of a core's scratchpad lies in an entry of that core's scoreboard: park. Bytes between the rows, which the
instruction does not touch, do not count (R82). -/
def padPark (c a n rows stride : Nat) : M Unit := do
  let s ← getS
  if (List.range rows).any fun i => (s.core c).boardHit (a + i * stride) n then Sys2Proof.Machine.park .board else pure ()

/-- Step 7 of R331. -/
def padBoard (o : Operand) (p k : Nat) : M Unit :=
  match o.handle with
  | some _ => pure ()
  | none => do
    let s ← getS
    padPark (clusterCore (coreOf s.cur) o.addr) o.base (storedRow o.fmt (o.rowLen p k)) (o.rowCount p k) (o.step p k)

/-- The plane bytes that a handle operand needs for element (i, k): addresses and lengths. -/
def planeBytes (t : Tensor) (p r c : Nat) : List (Nat × Nat) :=
  match t.tag with
  | .mxfp4 => [(blkX t p r c, 1)]
  | .dxe4m3 | .dxe5m2 => [(dxS t p r c, 4), (dxRv t p r c, 1), (dxCv t p r c, 1)]
  | _ => if (tagInt t.tag).isSome ∧ t.scl ≠ 0 then [(lineScale t p r c, 4)] else []

/-- Every plane read of a handle operand, before the first step: a fault is SCALEFAULT (R57, R328). -/
def planePass (o : Operand) (T p k : Nat) : M Unit :=
  match o.handle with
  | none => pure ()
  | some h => do
    let t ← entry h
    let all := (List.range p).flatMap fun i => (List.range k).flatMap fun j =>
      let e := o.at_ i j
      if t.inside o.crd.p e.1 e.2 then planeBytes t o.crd.p e.1 e.2 else []
    if t.scl = 0 then pure ()
    else loopM (List.range all.length) fun n => match all[n]? with
      | some e => do
        let _ ← planeLoad h T e.1 e.2
        pure ()
      | none => pure ()

/-- The stamp of a handle operand; the others have none. -/
def stampOperand (n : Nat) (hH : Nat) (o : Operand) (need : Nat) (k p : Nat) : M Nat :=
  match o.handle with
  | none => pure 0
  | some h => stampHandle n h hH need .reader fun t =>
      ((List.range (k / 32)).flatMap fun g => (o.regions p g).flatMap fun q => q.ext t).eraseDups

/-- Waits for a handle operand's turn. -/
def operandTurn (o : Operand) (T : Nat) : M Unit :=
  match o.handle with
  | none => pure ()
  | some h => opTurn h T

/-- A handle operand's operation retires. -/
def operandRetire (o : Operand) (T : Nat) : M Unit :=
  match o.handle with
  | none => pure ()
  | some h => retireOp h T

/-- The cores of the scratchpad operands. -/
def padCores (c : Nat) (os : List Operand) : List Nat :=
  (os.filterMap fun o => match o.handle with | none => some (clusterCore c o.addr) | some _ => none).eraseDups

/-- At completion the PTS rises to the SPW of each core read (R127, R325). -/
def padStamps (os : List Operand) : M Unit := modS fun s =>
  let cs := padCores (coreOf s.cur) os
  let t := cs.foldl (fun m c => max m (s.bank c 0).spw) s.me.pts
  let s := s.modSlot s.cur fun x => { x with pts := t }
  cs.foldl (fun s c => s.raiseSpw c 0 t) s

/-- The key of an MMAG's data that says that the latch holds its operand; a stop for pre-emption clears it. -/
def latchKey : Nat := 208

/-- Fills a half of the gather latch with the codes of A at its stamp: before the first step, and again before the first step after a
restore (R329). The whole M × K operand is read, so poisoned storage anywhere in it traps here (R72, R395). -/
def fillLatch (o : Operand) (T mm K : Nat) : M Unit := do
  let w ← myWait
  match o.handle, o.idx, w.data.get 0 latchKey with
  | some h, some l, 0 => do
    let t ← entry h
    readRegions h t T ((l.take mm).map fun r => { p := o.crd.p, r := o.crd.r + r, c := o.crd.c, nr := 1, nc := K }) false
    keepWait fun w => { w with data := w.data.set 0 latchKey 1 }
    let half ← pick
    modS fun s =>
      let codes := (List.range mm).flatMap fun i =>
        (s.rowCodes (s.jobOf s.cur) t T o.crd.p (o.crd.r + l.getD i 0) o.crd.c K).mapIdx fun u c =>
          ((half % 2) * 2 ^ 20 + i * (K / unitCols t.tag) + u, c)
      s.modCluster (clusterOf (coreOf s.cur)) fun k =>
        { k with latch := ((union codes k.latch).filter fun e => decide (e.2 ≠ 0)) }
  | _, _, _ => pure ()

/-- What is done once, before the first K group. -/
def mmFirst (m : M Unit) : M Unit := do
  let w ← myWait
  if w.n = 0 then m else pure ()

/-- What the two operands need of their handles. -/
def needOfA (a : Operand) (sparse : Bool) : Nat := needOf a sparse a.idx.isSome

/-- Steps 3 and 4 of R331: the operands with their formats, and the kind of the pair; some true integer, some false float. -/
def mmPair (mm K : Nat) (a b : Operand) (sparse : Bool) : M (Operand × Operand × Bool) := do
  operandStale a
  operandStale b
  operandCaps a (needOfA a sparse)
  operandCaps b (needOf b sparse false)
  let a ← handleOperand a
  let b ← handleOperand b
  ensure (!sparse || (decide (elemBytes a.fmt ≠ 0) && decide (elemBytes b.fmt ≠ 0) && !a.scaled && !b.scaled)) (badFormat 3)
  ensure (!sparse || decide (a.fmt = b.fmt)) (badFormat 2)
  match a.handle, b.handle with
  | some h, _ => notRefused h
  | none, some h => notRefused h
  | none, none => pure ()
  match a.idx, classOf a.fmt with
  | some _, some c => do
    ensure (narrow c) (badFormat 3)
    ensure (decide (mm * rowBytes8 a.fmt K ≤ 65536)) (badFormat 5)
  | _, _ => pure ()
  match (classOf a.fmt).bind fun ca => (classOf b.fmt).bind fun cb => pairKind ca cb a.scaled b.scaled with
  | none => badFormat 2
  | some ints => pure (a, b, ints)

/-- The accumulator slot takes the kind of the pair, or has it already (R322). -/
def mmKind (l : Nat) (fresh ints : Bool) : M Unit := do
  let s ← getS
  if fresh then modAcc l fun q => { q with isInt := ints }
  else ensure (decide ((s.acc l).isInt = ints)) (badFormat 4)

/-- Steps 5 to 7 of R331: addresses, alignment, scoreboards of the scratchpad operands. -/
def mmPads (mm nn K : Nat) (a b : Operand) : M Unit := do
  padAddress a mm K
  padAddress b nn K
  padAlign a mm K
  padAlign b nn K
  mmFirst (do
    padBoard a mm K
    padBoard b nn K)

/-- The stamps of the handle operands, A's first, and their turns (R64, R331). -/
def mmStamps (mm nn K na nb : Nat) (a b : Operand) : M (Nat × Nat) := do
  let hH := a.handle.getD (b.handle.getD 0)
  let Ta ← stampOperand 0 hH a na K mm
  let Tb ← stampOperand (if a.handle.isSome then 1 else 0) hH b nb K nn
  operandTurn a Ta
  operandTurn b Tb
  mmFirst (do
    planePass a Ta mm K
    planePass b Tb nn K)
  fillLatch a Ta mm K
  pure (Ta, Tb)

/-- The K groups from PROGIDX up, each as one step (R201, R327). -/
def mmGroups (l mm nn G : Nat) (ints : Bool) (a b : Operand) (Ta Tb : Nat) : M Unit := do
  let x ← myself
  loopM ((List.range G).filter fun (g : Nat) => decide (x.sp.progidx.toNat ≤ g)) fun g =>
    longStep g (pure ()) do
      accKept
      checkAccPoison l
      let as ← opRows a Ta mm (32 * G) g
      let bs ← opRows b Tb nn (32 * G) g
      mmStep l mm nn ints as bs
  setProg 0

/-- The extents of an accumulator slot after a multiply of M by N: the greater of each (R320). -/
def grown (e : Option (Edge × Edge)) (m n : Edge) : Edge × Edge :=
  match e with
  | none => (m, n)
  | some e => (edgeMax e.1 m, edgeMax e.2 n)

/-- The end of a multiply: extents, handle operations, stamps of the scratchpads read. -/
def mmClose (l : Nat) (sh : MShape) (a b : Operand) (Ta Tb : Nat) : M Unit := do
  modAcc l fun q => { q with ext := some (grown q.ext sh.m sh.n) }
  operandRetire a Ta
  operandRetire b Tb
  padStamps [a, b]

/-- What the MMA family does with its two operands (R327-R331). -/
def multiply (l : Nat) (sh : MShape) (a b : Operand) (sparse : Bool) : M Unit := do
  let mm := edgeOf sh.m
  let nn := edgeOf sh.n
  let G := sh.kg.toNat + 1
  checkProg G
  let fresh ← openAcc l false
  let (a', b', ints) ← mmPair mm (32 * G) a b sparse
  mmKind l fresh ints
  mmPads mm nn (32 * G) a' b'
  let (Ta, Tb) ← mmStamps mm nn (32 * G) (needOfA a sparse) (needOf b sparse false) a' b'
  mmGroups l mm nn G ints a' b' Ta Tb
  mmClose l sh a' b' Ta Tb

/-- The strides SA and SB of a stride register; 0 for none (R326). -/
def strides (n : BitVec 5) : M (Nat × Nat) :=
  if n = 0 then pure (0, 0) else do
    let x ← readG n
    pure (fieldN x.toNat 0 32, fieldN x.toNat 32 32)

/-- A scratchpad operand. -/
def padOperand (isA tr : Bool) (f : Tag) (addr stride : Nat) : Operand :=
  { handle := none, crd := { p := 0, r := 0, c := 0 }, fmt := f, scaled := false, isA := isA, tr := tr, addr := addr,
    stride := stride, idx := none }

/-- A handle operand. -/
def handleOp (isA tr : Bool) (h : Nat) (crd : Crd) : Operand :=
  { handle := some h, crd := crd, fmt := .f32, scaled := false, isA := isA, tr := tr, addr := 0, stride := 0, idx := none }

/-- MMA (R326). -/
def execMma (o : MmaArgs) (s : State) : Out :=
  run (.mma o) (do
    matrixSlot
    let h ← readSR 0 o.h
    let c ← readSR 1 o.c
    let (sa, sb) ← strides o.n
    multiply o.l.toNat o.sh (padOperand true o.ta o.af h.toNat sa) (padOperand false o.tb o.bf c.toNat sb) false) s

/-- MMAT: each operand a handle, or a cluster address in bits 26:0 of its half (R326). DESIGN CHOICE, unsafe: bits 31:27 of such a half are
ignored, where MMAG checks all 32 bits of its own (notes/assumptions/92.md). -/
def execMmat (o : MmatArgs) (s : State) : Out :=
  run (.mmat o) (do
    matrixSlot
    let h ← readG o.h
    let ca ← readG o.c
    let cb ← readG (o.c + 1)
    let (sa, sb) ← strides o.n
    let a := match o.af with
      | none => handleOp true o.ta (fieldN h.toNat 0 32) (crdOf ca)
      | some f => padOperand true o.ta f (fieldN h.toNat 0 27) sa
    let b := match o.bf with
      | none => handleOp false o.tb (fieldN h.toNat 32 32) (crdOf cb)
      | some f => padOperand false o.tb f (fieldN h.toNat 32 27) sb
    multiply o.l.toNat o.sh a b false) s

/-- MMAG: A is gathered by an index vector of one v register, or two for M = 128 (R329). -/
def execMmag (o : MmagArgs) (s : State) : Out :=
  run (.mmag o) (do
    matrixSlot
    let h ← readG o.h
    let ca ← readG o.n
    let x ← keepRow 100 (readV o.vi)
    let y ← keepRow 101 (readV (o.vi + 1))
    let idx := (elems 32 x ++ elems 32 y).take (edgeOf o.sh.m)
    multiply o.l.toNat o.sh { handleOp true false (fieldN h.toNat 0 32) (crdOf ca) with idx := some idx }
      (padOperand false false o.bf (fieldN h.toNat 32 32) 0) false) s

/-- MMAS: the result equals the multiply on the dense images (R330). -/
def execMmas (h c : BitVec 5) (l : BitVec 4) (sh : MShape) (s : State) : Out :=
  run (.mmas h c l sh) (do
    matrixSlot
    let x ← readG h
    let ca ← readG c
    let cb ← readG (c + 1)
    multiply l.toNat sh (handleOp true false (fieldN x.toNat 0 32) (crdOf ca))
      (handleOp false false (fieldN x.toNat 32 32) (crdOf cb)) true) s

/-! ## AZERO, AREL, ACLAIM (R332) -/

/-- AZERO. -/
def execAzero (l : BitVec 4) (i32 : Bool) (s : State) : Out :=
  run (.azero l i32) (do
    matrixSlot
    let _ ← openAcc l.toNat false
    modAcc l.toNat fun a => { a with isInt := i32, data := [], ext := none, poison := false }) s

/-- AREL: parks while an epilogue is in flight or stopped by a fault. -/
def execArel (l : BitVec 4) (s : State) : Out :=
  run (.arel l) (do
    matrixSlot
    let a ← ownAcc l.toNat false
    if a.st = .epilogue then Sys2Proof.Machine.park (.acc l.toNat) else modAcc l.toNat freeAcc) s

/-- ACLAIM: a slot PARKED for the issuing unit is claimed; one it owns stays; any other is refused at once. -/
def execAclaim (l : BitVec 4) (s : State) : Out :=
  run (.aclaim l) (do
    matrixSlot
    let s ← getS
    if ¬ s.mineAcc l.toNat then accRefused
    else if (s.acc l.toNat).st = .epilogue then Sys2Proof.Machine.park (.acc l.toNat)
    else modAcc l.toNat fun a => { a with st := .owned }) s

/-! ## AEPI (R333-R335) -/

/-- What an epilogue descriptor gives, read when the AEPI issues: USE, row scales, column scales, biases, clamp bounds,
destination stride. -/
structure EpiDesc where
  use : Nat
  rs  : Nat
  cs  : Nat
  bs  : Nat
  lo  : Nat
  hi  : Nat
  dst : Nat

/-- No descriptor. -/
def EpiDesc.none : EpiDesc := { use := 0, rs := 0, cs := 0, bs := 0, lo := 0, hi := 0, dst := 0 }

/-- Reads `n` f32 numbers of local space where a bit of USE asks for them (R333). -/
def epiArray (used : Bool) (a n : Nat) : M Nat :=
  if used then do
    checkLocal a (4 * n) false
    boardPark a (4 * n)
    engineRead a (4 * n)
  else pure 0

/-- The descriptor at a local address (R333). -/
def epiDesc (a : Word) (mm nn : Nat) : M EpiDesc := do
  checkLocal a.toNat 64 false
  aligned a.toNat 8
  boardPark a.toNat 64
  let x ← engineRead a.toNat 64
  let f (lo n : Nat) : Nat := fieldN x lo n
  ensure (decide (f 3 61 = 0) && decide (f 96 32 = 0) && decide (f 160 32 = 0) && decide (f 224 32 = 0) &&
    decide (f 352 32 = 0) && decide (f 384 128 = 0)) (illegalOp 7 24)
  let rs ← epiArray (x.testBit 0) (f 64 32) mm
  let cs ← epiArray (x.testBit 1) (f 128 32) nn
  let bs ← epiArray (x.testBit 2) (f 192 32) nn
  pure { use := f 0 3, rs := rs, cs := cs, bs := bs, lo := f 256 32, hi := f 288 32, dst := f 320 32 }

/-- The descriptor, read once and kept while the AEPI runs. -/
def keptDesc (n : BitVec 5) (mm nn : Nat) : M EpiDesc := do
  let w ← myWait
  let g (k : Nat) : Nat := w.data.get 0 (200 + k)
  if g 0 ≠ 0 then pure { use := g 0 - 1, rs := g 1, cs := g 2, bs := g 3, lo := g 4, hi := g 5, dst := g 6 }
  else do
    let d ← (if n = 0 then pure EpiDesc.none else do
      let a ← readG n
      epiDesc a mm nn)
    keepWait fun w => { w with data :=
      (((((((w.data.set 0 200 (d.use + 1)).set 0 201 d.rs).set 0 202 d.cs).set 0 203 d.bs).set 0 204 d.lo).set 0 205 d.hi).set
        0 206 d.dst) }
    pure d

/-- An f32 number of an array. -/
def f32At (x i : Nat) : FV := fp32.value (fieldN x (32 * i) 32)

/-- A bound that is a NaN gives a NaN. -/
def bounded (f : FV → FV → FV) (v b : FV) : FV := if b = .nan then .nan else f v b

/-- The activation (R334). -/
def activate (d : EpiDesc) (act : Act) (v : FV) : FV :=
  let z : FV := .num false 0 0
  if v = .nan then .nan
  else match act with
    | .none => v
    | .relu => v.maxV z
    | .sqrelu => (v.maxV z).mul (v.maxV z)
    | .clamp => bounded FV.minV (bounded FV.maxV v (fp32.value d.lo)) (fp32.value d.hi)

/-- The exact value of an element of the epilogue before conversion (R334). -/
def epiValue (a : Acc) (d : EpiDesc) (act : Act) (rdn : Bool) (i j : Nat) : FV :=
  let c := a.elem i j
  let v := if a.isInt then FV.ofInt (sintOf 32 c) else fp32.value c
  let v := if d.use.testBit 0 then v.mul (f32At d.rs i) else v
  let v := if d.use.testBit 1 then v.mul (f32At d.cs j) else v
  let v := if d.use.testBit 2 then v.add rdn (f32At d.bs j) else v
  activate d act v

/-- The conversion to DF (R334): a NaN gives the default NaN, or 0 for an integer. -/
def convertTo (f : Tag) (k : Rnd) (v : FV) : Nat :=
  match tagFloat f, tagInt f with
  | some g, _ => roundFV g k v
  | _, some w => if v = .nan then 0 else codeOf w (clampI (-(2 ^ (w - 1))) (2 ^ (w - 1) - 1) (v.toInt k))
  | _, _ => 0

/-- The f32 NaN of an element of the epilogue: the first NaN among its operands, quieted where an operation takes it; the default NaN
where the operation itself is invalid (R200, R293). `dest` holds the destination's value with ADD. -/
def epiNan (a : Acc) (d : EpiDesc) (act : Act) (i j : Nat) (dest : List Nat) : Nat :=
  let pick (b : Nat) (x k : Nat) : List Nat := if d.use.testBit b then [fieldN x (32 * k) 32] else []
  let acc := if a.isInt then [] else [a.elem i j]
  match (dest ++ acc ++ pick 0 d.rs i ++ pick 1 d.cs j ++ pick 2 d.bs j ++ (if act = .clamp then [d.lo, d.hi] else [])).find? fp32.isNan with
  | none => fp32.nan
  | some c => if dest = [] ∧ d.use % 8 = 0 ∧ acc = [c] then c else fp32.quiet c

/-- One element of the epilogue in the format of the destination: a NaN keeps its sign and the top of its payload (R200, R334). -/
def epiCode (f : Tag) (k : Rnd) (a : Acc) (d : EpiDesc) (act : Act) (i j : Nat) : Nat :=
  match epiValue a d act k.isRdn i j, tagFloat f with
  | .nan, some g => fromFp32 g k (epiNan a d act i j [])
  | v, _ => convertTo f k v

/-- A stored code of the destination's format as a value. -/
def codeValue (f : Tag) (c : Nat) : FV :=
  match tagFloat f, tagInt f with
  | some g, _ => g.value c
  | _, some w => FV.ofInt (sintOf w c)
  | _, _ => .num false 0 0

/-- One element of the epilogue added to the destination's code `old` (R334). -/
def epiSum (f : Tag) (k : Rnd) (a : Acc) (d : EpiDesc) (act : Act) (i j old : Nat) : Nat :=
  match (codeValue f old).add k.isRdn (epiValue a d act k.isRdn i j), tagFloat f with
  | .nan, some g => fromFp32 g k (epiNan a d act i j [toFp32 g old])
  | v, _ => convertTo f k v

/-- A step of an epilogue that faults leaves the slot in EPILOGUE, stopped; for a handle PROGIDX is then 0 (R335). -/
def epiStep (l : Nat) (hnd : Bool) (m : M Unit) : M Unit := fun s =>
  match m s with
  | .error (.trap c x) =>
    match (do modAcc l fun a => { a with st := .epilogue, fault := true }
              if hnd then setProg 0 else pure () : M Unit) s with
    | .ok (_, s') => .error (.trapAt c x s')
    | .error e => .error e
  | r => r

/-- The key of an AEPI's data that holds what the slot was before it: 1 OWNED, 2 in an epilogue stopped by a fault. -/
def epiKey : Nat := 207

/-- The slot goes to EPILOGUE (R335). -/
def epiBegin (l : Nat) : M Unit := do
  let s ← getS
  let w ← myWait
  if w.data.get 0 epiKey = 0 then do
    keepWait fun w => { w with data := w.data.set 0 epiKey (if (s.acc l).st = .epilogue then 2 else 1) }
    modAcc l fun a => { a with st := .epilogue, fault := false }
  else pure ()

/-- An AEPI that traps outside its steps leaves the slot as it was; SHADOWSIZE stops the epilogue (R335). -/
def epiGuard (l : Nat) (m : M Unit) : M Unit := fun s =>
  match m s with
  | .error (.trap c x) =>
    let was := ((s.me.wait.map fun w => w.data.get 0 epiKey).getD 0)
    let stopped := decide (c = 0x0D) && decide (x.toNat / 2 ^ 32 = 0x12)
    match (do modAcc l fun a =>
                if stopped ∨ was = 2 then { a with st := .epilogue, fault := true }
                else if was = 1 then { a with st := .owned, fault := false } else a
              if stopped then setProg 0 else pure () : M Unit) s with
    | .ok (_, s') => .error (.trapAt c x s')
    | .error e => .error e
  | r => r

/-- The end of an epilogue: OWNED again, or FREE with REL (R335). -/
def epiEnd (l : Nat) (rel : Bool) : M Unit :=
  modAcc l fun a => if rel then freeAcc a else { a with st := .owned, fault := false }

/-- An engine writes bank words of a scratchpad, each whole, in an order that `picks` chooses (R113): those whose bits the next number names
become visible now, every one of them where it is 0. The step goes on once all are written. A row is its address, its length and its
value; a bank word is the place of its bytes in the core's views. -/
def writeRows (c : Nat) (rs : List (Nat × Nat × Nat)) : M Unit := do
  let s ← getS
  let w ← myWait
  let ws := (rs.flatMap fun r => (s.core c).wordsAt r.1 r.2.1).eraseDups
  let old := w.data.get 0 partKey
  let full := 2 ^ ws.length - 1
  let now := if s.prompt ∨ s.picks.headD 0 = 0 then full else (old ||| s.picks.headD 0) &&& full
  modS fun s => { s with picks := if s.prompt then s.picks else s.picks.tail }
  let new := ((ws.zip (List.range ws.length)).filter fun e => now.testBit e.2 && !old.testBit e.2).map (·.1)
  loopM (List.range rs.length) fun i =>
    let r := rs.getD i (0, 0, 0)
    modS fun s => s.padWords c new r.1 r.2.1 r.2.2 s.me.pts
  let lo := rs.foldl (fun m r => min m r.1) (rs.headD (0, 0, 0)).1
  let hi := rs.foldl (fun m r => max m (r.1 + r.2.1)) 0
  keepWait fun w => { w with data := w.data.set 0 partKey (if now = full then 0 else now) |>.set 0 partCore (c + 1) |>.set 0 partLo lo
                               |>.set 0 partHi hi }
  if now = full then pure () else park .engine

/-- A poisoned accumulator slot is read when a row group begins; one that has words in the scratchpad already goes on (R107). -/
def epiPoison (l : Nat) : M Unit := do
  let w ← myWait
  if w.data.get 0 partKey = 0 then checkAccPoison l else pure ()

/-- The row groups of an epilogue into a scratchpad, from PROGIDX up (R335). -/
def epiPad (l c base stride mm nn : Nat) (df : Tag) (d : EpiDesc) (act : Act) (k : Rnd) : M Unit := do
  let x ← myself
  let e := unitBits df / 8
  loopM ((List.range ((mm + 7) / 8)).filter fun (g : Nat) => decide (x.sp.progidx.toNat ≤ g)) fun g => do
    setProg g
    engineStep g (epiStep l false do
      epiPoison l
      let s ← getS
      let a := s.acc l
      let rows := (List.range (min 8 (mm - 8 * g))).map (8 * g + ·)
      writeRows c (rows.map fun r => (base + r * stride, nn * e,
        packNat (8 * e) ((List.range nn).map fun j => epiCode df (k.at (r * nn + j)) a d act r j)))
      loopM rows fun r => modS fun s => s.stallEngine c (base + r * stride) (nn * e))
  setProg 0
  modS fun s =>
    let t := max s.me.pts ((s.bank c 0).spw + 1)
    (s.modSlot s.cur fun x => { x with pts := t }).raiseSpw c 0 t

/-- The elements of rows lo .. lo+n-1 of an epilogue that lie inside the destination: units, and row and column. -/
def epiUnits (t : Tensor) (q : Region) (lo n : Nat) : List (Nat × Nat) :=
  ((List.range n).map (lo + ·)).flatMap fun i =>
    ((List.range q.nc).filter fun j => t.inside q.p (q.r + i) (q.c + j)).map fun j =>
      (t.key q.p (q.r + i) (q.c + j), 128 * i + j)

/-- The row groups of an epilogue into a handle, and the publish (R143, R335). -/
def epiShadow (l h T : Nat) (q : Region) (df : Tag) (d : EpiDesc) (act : Act) (k : Rnd) : M Unit := do
  let x ← myself
  loopM ((List.range ((q.nr + 7) / 8)).filter fun (g : Nat) => decide (x.sp.progidx.toNat ≤ g)) fun g => do
    setProg g
    engineStep g (epiStep l true do
      checkAccPoison l
      let t ← entry h
      let s ← getS
      let a := s.acc l
      keepShadow ((epiUnits t q (8 * g) (min 8 (q.nr - 8 * g))).map fun e =>
        (e.1, epiCode df (k.at e.1) a d act (e.2 / 128) (e.2 % 128))))
  setProg 0
  let _ ← publishMine h T
  pure ()

/-- The additions of an epilogue into an ACCUM tensor, line by line (R147, R334). -/
def epiAdd (l h T : Nat) (q : Region) (df : Tag) (d : EpiDesc) (act : Act) (k : Rnd) : M Unit := do
  let t ← entry h
  engineStep 0 (epiStep l true do
    checkAccPoison l
    readRegion h t T q)
  let s ← getS
  let a := s.acc l
  let es := epiUnits t q 0 q.nr
  addLines h T t es (fun old x =>
    let u := t.key q.p (q.r + x / 128) (q.c + x % 128)
    epiSum df (k.at u) a d act (x / 128) (x % 128) old)
    (es.map fun e => t.lineOf e.1).eraseDups 1
  retireOp h T
  modMe fun x => { x with copyPts := max x.copyPts x.pts }

/-- An AEPI into a scratchpad. -/
def aepiPad (o : AepiArgs) (l v mm nn : Nat) (k : Rnd) : M Unit := do
  let d ← keptDesc o.n mm nn
  let e := unitBits o.df / 8
  let stride := if d.dst = 0 then nn * e else d.dst
  checkCluster v ((mm - 1) * stride + nn * e) true
  let s ← getS
  let c := clusterCore (coreOf s.cur) v
  let w ← myWait
  if w.n = 0 then padPark c (fieldN v 0 22) (nn * e) mm stride else pure ()
  epiBegin l
  epiPad l c (fieldN v 0 22) stride mm nn o.df d o.act k

/-- An AEPI into a handle. -/
def aepiHandle (o : AepiArgs) (l h mm nn : Nat) (k : Rnd) : M Unit := do
  let cx ← readG o.c
  let need := if o.add then 2 ^ capAccum else 2 ^ capWrTile
  let q : Region := { p := (crdOf cx).p, r := (crdOf cx).r, c := (crdOf cx).c, nr := mm, nc := nn }
  let go ← stamped
  if go then pure ()
  else do
    let t ← checkHandle h need
    ensure (decide (t.tag = o.df) && decide (t.scl = 0)) (badFormat 6)
    notRefused h
  let d ← keptDesc o.n mm nn
  epiBegin l
  let T ← stampHandle 0 h h need (if o.add then .adder else .writer) q.ext
  epiStep l true (opTurn h T)
  if o.add then epiAdd l h T q o.df d o.act k else epiShadow l h T q o.df d o.act k

/-- AEPI (R333-R335). -/
def execAepi (o : AepiArgs) (s : State) : Out :=
  run (.aepi o) (do
    matrixSlot
    let l := o.l.toNat
    let hv ← readSR 0 o.h
    let a ← ownAcc l false
    let me ← myself
    match (match o.xs with | some e => some e | none => a.ext) with
    | none => badFormat 6
    | some (em, en) => do
      epiGuard l (if o.c = 0 then aepiPad o l hv.toNat (edgeOf em) (edgeOf en) (me.rnd o.rm)
        else aepiHandle o l (handleIn hv) (edgeOf em) (edgeOf en) (me.rnd o.rm))
      epiEnd l o.rel) s

/-! ## ASAVE and ALOAD (R337) -/

/-- Bytes of an image. -/
def imageBytes : Nat := 65792

/-- The code of an extent in an image. -/
def extCode (e : Option Edge) : Nat :=
  match e with
  | none => 3
  | some .e32 => 0
  | some .e64 => 1
  | some .e128 => 2

/-- The 256 bytes at line `n` of the image of a slot: the header, then two rows' halves of data. -/
def Acc.line (a : Acc) (n : Nat) : Nat :=
  match n with
  | 0 => a.unitid.toNat + a.launchid.toNat * 2 ^ 64 +
      (extCode (a.ext.map (·.2)) * 16 + extCode (a.ext.map (·.1)) * 4 + 2 + (if a.isInt then 1 else 0)) * 2 ^ 128
  | n + 1 => packNat 32 ((List.range 64).map fun i => (a.data.get 0 (64 * n + i)).toNat)

/-- The slot of an image from its lines (R337); none where it is not valid for the issuing unit. -/
def accOfImage (x : Slot) (j : Nat) (lines : Nat → Nat) : Option Acc :=
  let h := lines 0
  let w2 := fieldN h 128 64
  let edge (c : Nat) : Option Edge := match c with | 0 => some .e32 | 1 => some .e64 | 2 => some .e128 | _ => none
  if w2.testBit 1 = false ∨ 64 ≤ w2 ∨ h >>> 192 ≠ 0 ∨ BitVec.ofNat 64 (fieldN h 0 64) ≠ x.sp.unitid ∨
      BitVec.ofNat 64 (fieldN h 64 64) ≠ x.sp.launchid then none
  else some
    { Acc.dflt with
      st := .owned, unitid := x.sp.unitid, launchid := x.sp.launchid, job := j, isInt := w2.testBit 0,
      ext := match edge (fieldN w2 2 2), edge (fieldN w2 4 2) with | some m, some n => some (m, n) | _, _ => none,
      data := ((List.range 16384).map fun i => (i, BitVec.ofNat 32 (fieldN (lines (1 + i / 64)) (32 * (i % 64)) 32))).filter
        fun e => decide (e.2 ≠ 0) }

/-- The pages of an image pass the checks of R425, in ascending order. -/
def checkImage (h : Word) (wr : Bool) : M Unit :=
  loopM (List.range 17) fun i => do
    let a := if i = 16 then h.toNat + imageBytes - 256 else h.toNat + 4096 * i
    let _ ← behalf a wr
    pure ()

/-- The lines of an image, stored in ascending order once every one of them can be: an ASAVE that traps has stored none (R107,
R337). -/
def saveLines (hv : Word) (a : Acc) : M Unit := do
  loopM (List.range 257) fun n => do
    let p ← behalf (hv.toNat + 256 * n) true
    behalfGate p (hv.toNat + 256 * n) 256
  await .store
  loopM (List.range 257) fun n => do
    let p ← behalf (hv.toNat + 256 * n) true
    behalfPut p 256 (a.line n)

/-- The lines of an image, loaded one by one and kept. -/
def loadLines (hv : Word) : M Unit :=
  loopM (List.range 257) fun n => do
    let w ← myWait
    if n < w.n then pure ()
    else do
      let x ← behalfLoad (hv.toNat + 256 * n) 256
      keepWait fun w => { w with n := n + 1, data := w.data.set 0 (2 ^ 30 + n) x }

/-- ASAVE. -/
def execAsave (h : SReg) (l : BitVec 4) (s : State) : Out :=
  run (.asave h l) (do
    matrixSlot
    let hv ← readSR 0 h
    let a ← ownAcc l.toNat true
    let s ← getS
    if a.st = .parked ∧ a.job ≠ s.jobOf s.cur then accRefused
    else do
      aligned hv.toNat 256
      if a.st = .epilogue then Sys2Proof.Machine.park (.acc l.toNat)
      else do
        checkImage hv true
        checkAccPoison l.toNat
        saveLines hv a
        if a.st = .parked then modAcc l.toNat freeAcc else pure ()) s

/-- ALOAD: a FREE slot becomes OWNED with the image's contents; an image that is not the issuer's is BADIMAGE. -/
def execAload (h : SReg) (l : BitVec 4) (s : State) : Out :=
  run (.aload h l) (do
    matrixSlot
    let hv ← readSR 0 h
    let _ ← openAcc l.toNat true
    aligned hv.toNat 256
    checkImage hv false
    loadLines hv
    let w ← myWait
    let s ← getS
    match accOfImage s.me (s.jobOf s.cur) fun n => w.data.get 0 (2 ^ 30 + n) with
    | none => trap 0x0D (engineValue 0x10 0)
    | some q => modAcc l.toNat fun a => { q with waiters := a.waiters }) s

end Sys2Proof.Machine
end

