-- ==== Sys2Proof/Machine/Coll.lean ====
section
/-! DEFINITION. Collectives: COLL.ar, COLL.rs, COLL.ag, COLL.a2a and the data of their members (R338-R340). -/
namespace Sys2Proof.Machine

/-! ## The group descriptor (R338) -/

/-- The fields of a group descriptor. -/
structure Group where
  rank : Nat
  size : Nat
  pkg  : Nat
  mods : Nat
  camp : Nat
  cfmt : Nat
  mfmt : Nat
  peers : Nat

/-- The fields of the 64 bytes. -/
def groupOf (x : Nat) : Group :=
  { rank := fieldN x 32 32, size := fieldN x 0 32, pkg := fieldN x 64 16, mods := fieldN x 80 16, camp := fieldN x 96 16,
    cfmt := fieldN x 132 4, mfmt := fieldN x 128 4, peers := fieldN x 192 56 }

/-- The bits that are zero in a descriptor are zero, and its fields agree. -/
def groupOk (x : Nat) (g : Group) : Bool :=
  decide (fieldN x 112 16 = 0) && decide (fieldN x 136 56 = 0) && decide (fieldN x 248 8 = 0) &&
  decide (1 ≤ g.pkg) && decide (1 ≤ g.mods) && decide (1 ≤ g.camp) && decide (g.size = g.pkg * g.mods * g.camp) &&
  decide (g.rank < g.size)

/-- The stage formats are allowed. -/
def groupFmts (g : Group) : Bool :=
  (decide (g.cfmt = 1) || decide (g.cfmt = 2) || decide (g.cfmt = 8) || decide (g.cfmt = 9)) &&
  (decide (g.mfmt = 1) || decide (g.mfmt = 2) || decide (g.mfmt = 8))

/-! ## Values (R339) -/

/-- Adds rows column by column in the tree of R274. -/
def sumRows (n : Nat) (rows : List (List Nat)) : List Nat :=
  (List.range n).map fun j => tree (fun _ a b => f32Tree rne a b) 0 (rows.map fun r => r.getD j 0)

/-- A row of f32 codes quantised to a stage format by RNE and expanded again; columns past the end of the last block are
+0 (R191, R200). -/
def stageRow (fmt : Nat) (xs : List Nat) : List Nat :=
  match fmt with
  | 1 => xs
  | 2 => xs.map fun c => toFp32 fpBf16 (fromFp32 fpBf16 rne c)
  | _ =>
    let m := if fmt = 8 then 7 else 4
    ((List.range ((xs.length + 15) / 16)).flatMap fun b =>
      let blk := quantPx m rne ((List.range 16).map fun i => xs.getD (16 * b + i) 0)
      (List.range 16).map fun i => pxImage m blk i).take xs.length

/-- The f32 code of a data element. -/
def collF32 (f : Tag) (c : Nat) : Nat := match f with | .bf16 => toFp32 fpBf16 c | _ => c
/-- The data code of an f32 result. -/
def collOut (f : Tag) (c : Nat) : Nat := match f with | .bf16 => fromFp32 fpBf16 rne c | _ => c

/-- Keys of a member's data from here up are units of its residual. -/
def resKey : Nat := 2 ^ 40
/-- The key that says that a member has a residual. -/
def resMark : Nat := 2 ^ 41

namespace Coll
/-- The number of members. -/
def size (c : Coll) : Nat := c.pkg * c.mods * c.camp
/-- A member's data. -/
def dataOf (c : Coll) (r : Nat) : SMap Nat := ((c.got.find? fun e => decide (e.1 = r)).map (·.2)).getD []
/-- Every member has been heard from. -/
def full (c : Coll) : Bool := (List.range c.size).all fun r => c.got.any fun e => decide (e.1 = r)
/-- The leader of a campus: index 0, module 0. -/
def leaderOf (c : Coll) (k : Nat) : Nat := k * c.mods * c.pkg
end Coll

/-- The f32 row of a member. -/
def memberRow (c : Coll) (t : Tensor) (r p i : Nat) : List Nat :=
  (List.range t.cols).map fun j => collF32 t.tag ((c.dataOf r).get 0 (t.key p i j))

/-- The sum of a campus for one row, what it sends on, and the leader's new residual (R339). -/
def campusRow (c : Coll) (t : Tensor) (k p i : Nat) : List Nat × Option (List Nat) :=
  let mods := (List.range c.mods).map fun m =>
    let s := sumRows t.cols ((List.range c.pkg).map fun x => memberRow c t ((k * c.mods + m) * c.pkg + x) p i)
    if c.mods = 1 then s else stageRow c.mfmt s
  let s := sumRows t.cols mods
  if c.camp = 1 then (s, none)
  else
    let d := c.dataOf (c.leaderOf k)
    if d.get 0 resMark = 0 then (stageRow c.cfmt s, none)
    else
      let u := (List.range t.cols).map fun j => f32Tree rne (s.getD j 0) (d.get 0 (resKey + t.key p i j))
      let q := stageRow c.cfmt u
      (q, some ((List.range t.cols).map fun j =>
        roundFV fp32 rne ((fp32.value (u.getD j 0)).add false (fp32.value (q.getD j 0)).neg)))

/-- The rows of slice `r` of `size`. -/
def sliceRows (R size r : Nat) : List Nat := (List.range (R * (r + 1) / size - R * r / size)).map (· + R * r / size)

/-- The data units that a member writes (R339). -/
def collUnits (c : Coll) (t : Tensor) : List (Nat × Nat) :=
  (List.range t.pages).flatMap fun p =>
    match c.op with
    | 0 => (List.range t.rows).flatMap fun i =>
        let r := sumRows t.cols ((List.range c.camp).map fun k => (campusRow c t k p i).1)
        (List.range t.cols).map fun j => (t.key p i j, collOut t.tag (r.getD j 0))
    | 1 => (sliceRows t.rows c.size c.rank).flatMap fun i =>
        let r := sumRows t.cols ((List.range c.camp).map fun k => (campusRow c t k p i).1)
        (List.range t.cols).map fun j => (t.key p i j, collOut t.tag (r.getD j 0))
    | 2 => (List.range c.size).flatMap fun m => (sliceRows t.rows c.size m).flatMap fun i =>
        (List.range t.upr).map fun u => (t.key p i u, (c.dataOf m).get 0 (t.key p i u))
    | _ => (List.range c.size).flatMap fun m =>
        let b := t.rows / c.size
        (List.range b).flatMap fun i => (List.range t.upr).map fun u =>
          (t.key p (m * b + i) u, (c.dataOf m).get 0 (t.key p (c.rank * b + i) u))

/-- The residual units that a leader writes. -/
def resUnits (c : Coll) (t : Tensor) : List (Nat × Nat) :=
  let k := c.rank / (c.mods * c.pkg)
  if c.rank = c.leaderOf k ∧ c.op ≤ 1 ∧ c.res ≠ 0 then
    (List.range t.pages).flatMap fun p => (List.range t.rows).flatMap fun i =>
      match (campusRow c t k p i).2 with
      | none => []
      | some r => (List.range t.cols).map fun j => (t.key p i j, r.getD j 0)
  else []

/-! ## Progress (R340) -/

/-- The thread number of a collective's operations on handles: none of a slot. -/
def collTid (t : Nat) : Nat := 2 ^ 60 + t

/-- The handles of a member with their stamps. -/
def Coll.parts (c : Coll) : List (Nat × Nat) :=
  (if c.res = 0 then [c.handle] else [c.handle, c.res]).zip c.stamps

/-- The member's operations may go on: their turn has come, no error in what they read waits for the manager, and their shadow segments are
there (R66, R103, R143). -/
def State.collTurn (s : State) (c : Coll) : Option State :=
  c.parts.foldl (fun (b : Option State) e =>
    b.bind fun s =>
      let i := e.1 / 65536
      let t := s.tensor c.job i
      match t.opAt e.2 with
      | none => some s
      | some o =>
        if t.blocked o ∨ s.segsBad t o.segs then none
        else if o.shadow ≠ 0 then some s
        else if s.shadowsUsed c.job + o.segs.length ≤ s.poolSegs c.job then
          some (s.modTensor c.job i fun t => t.modOp e.2 fun o => { o with shadow := o.segs.length })
        else none) (some s)

/-- Every unit of a handle at a stamp, from key `base` on. -/
def State.allUnits (s : State) (j : Nat) (t : Tensor) (T base : Nat) : List (Nat × Nat) :=
  ((List.range (t.pages * t.rows * t.upr)).map fun k => (base + k, s.codeAt j t T k)).filter fun e => decide (e.2 ≠ 0)

/-- The member's handles are read at their stamps, the aliases of PLAIN ones as loads: the highest timestamp (R145). -/
def State.collRead (s : State) (c : Coll) : Except Lost (State × Nat) :=
  c.parts.foldl (fun (b : Except Lost (State × Nat)) e =>
    b.bind fun (s, m) =>
      let t := s.tensor c.job (e.1 / 65536)
      (List.range t.pages).foldl (fun (b : Except Lost (State × Nat)) p =>
        b.bind fun (s, m) => (s.readAlias Config.infieldDie c.job t e.2 p 0 t.rows 0 t.cols).map fun r => (r.1, max m r.2)) (.ok (s, m)))
    (.ok (s, c.pts))

/-- The member's own data at its stamps. -/
def State.collData (s : State) (c : Coll) : SMap Nat :=
  s.allUnits c.job (s.tensor c.job (c.handle / 65536)) (c.stamps.getD 0 0) 0 ++
    if c.res = 0 then [] else s.allUnits c.job (s.tensor c.job (c.res / 65536)) (c.stamps.getD 1 0) resKey ++ [(resMark, 1)]

/-- Two members of this package belong to one collective of one group: their descriptors name one peer table (notes/assumptions/67.md). -/
def Coll.mate (c q : Coll) : Bool := decide (q.job = c.job) && decide (q.peers = c.peers) && decide (q.inst = c.inst)

/-- The members of a collective in this package. -/
def State.matesOf (s : State) (c : Coll) : List Coll := s.colls.filter fun q => c.mate q

/-- Two members agree in op, format, geometry and the descriptor's fields 0x08 to 0x10 (R340). -/
def State.agrees (s : State) (c q : Coll) : Bool :=
  let t := s.tensor c.job (c.handle / 65536)
  let u := s.tensor q.job (q.handle / 65536)
  decide (q.op = c.op) && decide (q.pkg = c.pkg) && decide (q.mods = c.mods) && decide (q.camp = c.camp) && decide (q.cfmt = c.cfmt) &&
  decide (q.mfmt = c.mfmt) && decide (u.tag = t.tag) && decide (u.rowsM1 = t.rowsM1) && decide (u.colsM1 = t.colsM1) &&
  decide (u.pagesM1 = t.pagesM1)

/-- A segment that a member reads is poisoned: its data, its residual, or what fills its shadow (R72). -/
def State.collLost (s : State) (c : Coll) : Bool :=
  c.parts.any fun e => !(s.tensor c.job (e.1 / 65536)).poison.isEmpty

/-- Is the collective of a thread with its stamps. -/
def Coll.is (c q : Coll) : Bool := decide (q.tid = c.tid) && decide (q.stamps = c.stamps)

/-- Replaces, or drops, a collective. -/
def State.setColl (s : State) (c : Coll) (x : Option Coll) : State :=
  { s with colls := s.colls.flatMap fun q => if c.is q then x.toList else [q] }

/-- The member cannot finish: its shadows are discarded and its counter takes ERR, FAILID 0 (R154, R340). -/
def State.failColl (s : State) (c : Coll) (err : Nat) : State :=
  let s := c.parts.foldl (fun s e => (s.modTensor c.job (e.1 / 65536) fun t => t.retire e.2).settleIf c.job (e.1 / 65536)) s
  let s := match c.ctr with
    | some n => s.failCtr c.core c.bank n err 0
    | none => s
  s.setColl c none

/-- Every member of a collective in this package fails: a member disagrees, and nothing is published (R340). -/
def State.failGroup (s : State) (c : Coll) (err : Nat) : State := (s.matesOf c).foldl (fun s q => s.failColl q err) s

/-- The member has heard from member `r`. -/
def Coll.heard (c : Coll) (r : Nat) : Bool := c.got.any fun e => decide (e.1 = r)

/-- The member hears what it has not heard yet. -/
def Coll.hear (c : Coll) (l : List (Nat × SMap Nat)) : Coll := { c with got := c.got ++ l.filter fun e => !c.heard e.1 }

/-- Member `r` belongs to the package of a member (R338). -/
def Coll.near (c : Coll) (r : Nat) : Bool := decide (r / c.pkg = c.rank / c.pkg)

/-- A member that has heard every other publishes its data and its residual, once and together, at one timestamp; what it has heard the
others of its package keep, so that all of them work with the same bits (R143, R339, R340). -/
def State.publishColl (s : State) (c : Coll) : State :=
  let i := c.handle / 65536
  let k := c.res / 65536
  let T := c.stamps.getD 0 0
  let Tr := c.stamps.getD 1 0
  let us := collUnits c (s.tensor c.job i)
  let rs := resUnits c (s.tensor c.job k)
  let tm := s.publishTm c.job i T (max (max T Tr) c.pts)
  let tm := if c.res = 0 then tm else s.publishTm c.job k Tr tm
  let bytes := (s.tensor c.job i).bytes
  let s := s.publishAs c.job i T tm us
  let s := if c.res = 0 then s else (s.publishAs c.job k Tr tm rs).settleIf c.job k
  let s := s.settleIf c.job i
  let s := match c.ctr with
    | some n => s.countChunk c.core c.bank n bytes tm 0
    | none => s
  let s := (s.raiseLaunch c.job c.launch tm).modSlot c.tid fun x => { x with copyPts := max x.copyPts tm }
  ({ s with colls := s.colls.map fun q => if c.mate q then q.hear c.got else q } : State).setColl c none

/-- The member takes its own data when its turn has come, and publishes once it has heard every member (R340). A member that would read
a poisoned segment after its slot has gone on cannot finish: FARFAULT (R72, R154; notes/assumptions/68.md). -/
def State.stepColl (s : State) (c : Coll) : State :=
  match s.collTurn c with
  | none => s
  | some s =>
    if s.collLost c then s.failColl c 4
    else if c.heard c.rank then (if c.full then s.publishColl c else s)
    else match s.collRead c with
      | .error .error | .error .moving => s
      | .error _ => s.failColl c 4
      | .ok (s, ts) =>
        let c' := { c.hear [(c.rank, s.collData c)] with pts := ts }
        let s := s.setColl c (some c')
        if c'.full then s.publishColl c' else s

/-- Each of some members that is still there goes on. -/
def State.stepColls (s : State) (l : List Coll) : State :=
  l.foldl (fun (s : State) c => match s.colls.find? c.is with | none => s | some q => s.stepColl q) s

/-! ## The instructions (R338, R340) -/

/-- The checks of R338 on the data and the residual; trap 0x09 where one fails. -/
def collChecks (op : Nat) (g : Group) (t : Tensor) (r : Option Tensor) : M Unit := do
  ensure (decide (2 ≤ op) || decide (t.tag = .f32) || decide (t.tag = .bf16)) (badFormat 3)
  ensure (!(decide (op = 1) || decide (op = 3)) || decide (t.rows % g.size = 0)) (badFormat 3)
  match r with
  | none => pure ()
  | some r =>
    ensure (decide (g.cfmt ≠ 1) && decide (r.tag = .f32) && decide (r.rowsM1 = t.rowsM1) && decide (r.colsM1 = t.colsM1) &&
      decide (r.pagesM1 = t.pagesM1)) (badFormat 3)

/-- The group descriptor of a COLL, loaded once and kept (R338). -/
def collDesc (a : Nat) : M Nat := do
  let w ← myWait
  if w.data.get 0 220 ≠ 0 then pure (w.data.get 0 220 - 1)
  else do
    aligned a 64
    let x ← behalfLoad a 64
    keepWait fun w => { w with data := w.data.set 0 220 (x + 1) }
    pure x

/-- The registers of a COLL: the data handle, the descriptor's address, the residual handle or 0. -/
def collRegs (o : CollArgs) : M (Nat × Nat × Nat) := do
  matrixSlot
  let hx ← readG o.h
  let cx ← readG o.c
  let rx ← (if o.l = 0 then pure 0 else readG o.l)
  pure (handleIn hx, cx.toNat, handleIn rx)

/-- The checks of a COLL on its handles and its descriptor `x`; stages across modules need COLLX (R338, R399). -/
def collGuard (op h r x : Nat) (res : Bool) : M Unit := do
  let g := groupOf x
  let (t, q) ← (if res then do
      let (t, q) ← checkTwo h (2 ^ capColl) r (2 ^ capColl)
      pure (t, some q)
    else do
      let t ← checkHandle h (2 ^ capColl)
      pure (t, none))
  ensure (groupOk x g) (badFormat 3)
  ensure (groupFmts g) (badFormat 2)
  let s ← getS
  ensure (s.pkg.featsel.testBit 2 || (decide (g.mods ≤ 1) && decide (g.camp ≤ 1))) (badFormat 3)
  collChecks op g t q

/-- A COLL whose data and residual together need more segments than the whole shadow pool gets no stamp (R148). -/
def collPool (h r : Nat) (first : Tensor → Nat) : M Unit := do
  let t ← entry h
  let q ← entry r
  checkPool h (first t + (q.newSegs .writer (2 ^ capColl) q.allExt).length)

/-- The stamps of a COLL: the data's, then the residual's (R340). -/
def collStamps (h r : Nat) (res : Bool) : M (List Nat) := do
  if res then unstamped (collPool h r fun t => (t.newSegs .writer (2 ^ capColl) t.allExt).length) else pure ()
  let T ← stampHandle 0 h h (2 ^ capColl) .writer Tensor.allExt
  if res then do
    collPool h r fun t => (t.segsAt T).length
    let Tr ← stampHandle 1 r h (2 ^ capColl) .writer Tensor.allExt
    pure [T, Tr]
  else pure [T]

/-- The number of the collective of its group that a new member belongs to: the oldest that has neither this member nor its data, else a
new one. -/
def State.instOf (s : State) (j peers rank : Nat) : Nat :=
  let group := s.colls.filter fun q => decide (q.job = j) && decide (q.peers = peers)
  match (group.map (·.inst)).filter fun n => (group.filter fun q => decide (q.inst = n)).all fun q => decide (q.rank ≠ rank) && !q.heard rank with
  | [] => group.foldl (fun n q => max n (q.inst + 1)) 0
  | n :: l => l.foldl min n

/-- The member that the issuing slot's COLL makes. -/
def State.collOf (s : State) (o : CollArgs) (op h r : Nat) (g : Group) (st : List Nat) : Coll :=
  { job := s.jobOf s.cur, launch := s.me.sp.launchid, tid := s.cur, op := op, handle := h, res := r, ctr := o.n.map (·.toNat),
    core := coreOf s.cur, bank := s.bankNo s.cur, rank := g.rank, pkg := g.pkg, mods := g.mods, camp := g.camp, cfmt := g.cfmt,
    mfmt := g.mfmt, peers := g.peers, inst := s.instOf (s.jobOf s.cur) g.peers g.rank, stamps := st, got := [], pts := s.me.pts }

/-- A member joins those of its collective: it hears of the members outside the package what they have heard; where it disagrees with one
of them, every member fails with MISMATCH (R339, R340). -/
def State.joinColl (s : State) (c : Coll) : State :=
  let mates := s.matesOf c
  let c := mates.foldl (fun (c : Coll) q => c.hear (q.got.filter fun e => !c.near e.1)) c
  let s : State := { s with colls := s.colls ++ [c] }
  if mates.any fun q => !s.agrees c q then s.failGroup c 5 else if s.prompt then s.stepColl c else s

/-- A poisoned segment that a COLL would read is trap 0x0C as long as the slot has not gone on (R72, R395). -/
def collPoison (c : Coll) : M Unit := do
  loopM (List.range c.parts.length) fun n => match c.parts[n]? with
    | some e => do
      let t ← entry e.1
      checkTensorPoison e.1 t (t.segsAt e.2)
    | none => pure ()

/-- The member goes on without the slot: its operations are its own (R340). -/
def collEnter (c : Coll) : M Unit := do
  let s ← getS
  loopM (List.range c.parts.length) fun n => match c.parts[n]? with
    | some e => modEntry e.1 fun t => t.modOp e.2 fun o => { o with tid := collTid s.cur }
    | none => pure ()
  modS fun s => s.joinColl c

/-- A COLL of a cancelled unit is refused: the counter that it names takes ERR CANCELLED; one that names none takes trap 0x0D (R172, R340). -/
def collRefused (o : CollArgs) (h : Nat) : M Unit :=
  match o.n with
  | none => notRefused h
  | some n => modS fun s => s.failCtr (coreOf s.cur) (s.bankNo s.cur) n.toNat 3 0

/-- A COLL takes its stamps and goes on without the slot (R340). -/
def collOp (o : CollArgs) (op : Nat) : M Unit := do
  let (h, a, r) ← collRegs o
  let x ← collDesc a
  unstamped (collGuard op h r x (decide (o.l ≠ 0)))
  let me ← myself
  if me.refusing then collRefused o h
  else do
    let st ← collStamps h r (decide (o.l ≠ 0))
    let s ← getS
    let c := s.collOf o op h (if o.l = 0 then 0 else r) (groupOf x) st
    collPoison c
    collEnter c

/-- COLL.ar: all-reduce. -/
def execCollAr (o : CollArgs) (s : State) : Out := run (.collAr o) (collOp o 0) s
/-- COLL.rs: reduce-scatter. -/
def execCollRs (o : CollArgs) (s : State) : Out := run (.collRs o) (collOp o 1) s
/-- COLL.ag: all-gather. -/
def execCollAg (o : CollArgs) (s : State) : Out := run (.collAg o) (collOp o 2) s
/-- COLL.a2a: all-to-all. -/
def execCollA2a (o : CollArgs) (s : State) : Out := run (.collA2a o) (collOp o 3) s

/-- COLL_PEER_DATA: the data of the member with a rank reaches the member of thread `t`. Of a member of this package they are those that
it has read, and a member that has not issued its COLL is waited for; those of a member outside reach every member of this package, with the
same bits. One that disagrees makes the members fail with MISMATCH (R339, R340). -/
def execCollPeerData (t rank : Nat) (same : Bool) (data : List (Nat × Nat)) (s : State) : Out :=
  event (runDie t) (fun s =>
    match s.colls.find? fun c => decide (c.tid = t) && !c.heard rank with
    | none => s
    | some c =>
      if ¬ same then s.failGroup c 5
      else if c.size ≤ rank ∨ rank = c.rank then s
      else if c.near rank then
        match (s.matesOf c).find? fun q => decide (q.rank = rank) && q.heard rank with
        | none => s
        | some q => (s.setColl c (some (c.hear [(rank, q.dataOf rank)]))).stepColls [c]
      else
        let d := data.foldl (fun (m : SMap Nat) e => m.set 0 e.1 e.2) []
        ({ s with colls := s.colls.map fun q => if c.mate q then q.hear [(rank, d)] else q } : State).stepColls (s.matesOf c)) s

/-- A collective that crosses a link that is down cannot finish: its member has no route to the infield die's collective engines, or,
where members lie outside the package, to the optical dies; `ext` says that an external group has gone down (R340). -/
def State.dropColls (s : State) (ext : Bool) : State :=
  (s.colls.filter fun c => !s.routedIn c.core || (ext && (decide (1 < c.mods) || decide (1 < c.camp)))).foldl
    (fun s c => s.failColl c 2) s

end Sys2Proof.Machine
end

