-- ==== Sys2Proof/Machine/Control.lean ====
section
/-! DEFINITION. Transfers of control, waiting, ending a unit, software traps (R250-R258). -/
namespace Sys2Proof.Machine

/-! ## Transfers (R250-R255) -/

/-- The target of a PC-relative transfer: PC + 8 * sext(OFF) (R251). -/
def relTarget (pc : BitVec 56) (off : BitVec 35) : BitVec 56 := pc + (off.signExtend 56 <<< 3)

/-- A conditional transfer: a taken one checks its target and moves the PC. -/
def branchIf (c : Bool) (off : BitVec 35) : M Unit := do
  let x ← myself
  if c then transfer (relTarget x.pc off).toNat else pure ()

/-- BR (R251). -/
def execBr (c : Cond) (a b : Src) (off : BitVec 35) (s : State) : Out :=
  run (.br c a b off) (do
    let (x, y) ← readAB a b
    branchIf (condHolds c x y) off) s

/-- JMP (R251). -/
def execJmp (off : BitVec 35) (s : State) : Out := run (.jmp off) (branchIf true off) s

/-- JMPI (R252). -/
def execJmpi (a : Src) (s : State) : Out :=
  run (.jmpi a) (do
    let x ← readSrc 1 a
    transfer x.toNat) s

/-- CALL and CALLI must be the last word of their span (R211, R424). -/
def checkCallPos : M Unit := do
  let s ← getS
  let x := s.me
  let last : Bool := match x.span with
    | .block left _ _ _ => decide (left = 1)
    | _ => match s.fetch s.cur (x.pc + 8).toNat with
      | .ok w => Dec.isHeader w
      | .error _ => false
  ensure last (trap 2 (BitVec.ofNat 64 (3 * 2 ^ 60 + x.pc.toNat)))

/-- The link of a call: the address of the next word (R252). -/
def linkOf (x : Slot) : Word := (x.pc + 8).setWidth 64

/-- CALL: the position check, the target check, the link, the PC (R250, R252). -/
def execCall (off : BitVec 35) (s : State) : Out :=
  run (.call off) (do
    checkCallPos
    let x ← myself
    let t := (relTarget x.pc off).toNat
    checkTarget t
    writeG 31 (linkOf x)
    transfer t) s

/-- CALLI: the target is read before the link is written (R252). -/
def execCalli (a : Src) (s : State) : Out :=
  run (.calli a) (do
    checkCallPos
    let x ← myself
    let t ← readSrc 1 a
    checkTarget t.toNat
    writeG 31 (linkOf x)
    transfer t.toNat) s

/-- LOOP: a target check that fails leaves A as it was (R253). -/
def execLoop (n : BitVec 5) (off : BitVec 35) (s : State) : Out :=
  run (.loop n off) (do
    let a ← readG n
    writeG n (a - 1)
    branchIf (a - 1 != 0) off) s

/-- BTAG: the head tag is captured, masked, and indexes a table of targets; no word is removed (R254). -/
def execBtag (port : BitVec 3) (table : Src) (mask : SReg) (s : State) : Out :=
  run (.btag port table mask) (do
    let me ← myself
    let h ← (match me.latch.find? (fun l => decide (l.field = 1)) with
      | some l => pure l.val
      | none => do
        let s ← getS
        match (s.port (coreOf s.cur) (s.portBank s.cur) port.toNat).words with
        | [] => park (.port port.toNat 1)
        | w :: _ => do
          mergePts w.2
          latchOp 1 w.1 .plain
          pure w.1)
    let b ← readSrc 2 table
    let m ← readSR 3 mask
    let idx := (h &&& m).toNat % 65536
    let a : Int := b.toNat + 8 * idx
    aligned a 8
    let e ← behalfLoad a 8
    transfer e) s

/-- BKANY: taken when (kA & kB) is not 0 (R255). -/
def execBkany (ka kb : BitVec 3) (off : BitVec 35) (s : State) : Out :=
  run (.bkany ka kb off) (do
    let x ← readK ka
    let y ← readK kb
    branchIf ((x &&& y) != 0) off) s

/-- BKALL: taken when (kA & kB) = kB (R255). -/
def execBkall (ka kb : BitVec 3) (off : BitVec 35) (s : State) : Out :=
  run (.bkall ka kb off) (do
    let x ← readK ka
    let y ← readK kb
    branchIf ((x &&& y) == y) off) s

/-! ## Waiting and ending (R256-R258) -/

/-- PARK: the next n turns stay unused; PARK 0 is a NOP (R256). -/
def execPark (n : BitVec 32) (s : State) : Out :=
  run (.park n) (if n = 0 then pure () else Sys2Proof.Machine.park (.turns n.toNat)) s

/-- A port of the mask holds a word (R256, bits 7:0). -/
def State.portEvent (s : State) (mask : Nat) : Bool :=
  (List.range 8).any fun p =>
    mask.testBit p && !(s.port (coreOf s.cur) (s.portBank s.cur) p).words.isEmpty

/-- PARK.ev: until an event of the mask; a port that already holds a word wakes at once (R256). -/
def execParkEv (mask : BitVec 12) (s : State) : Out :=
  run (.parkEv mask) (do
    let s ← getS
    let w ← myWait
    let hit : Bool := match w.kind with | .event _ h => h | _ => false
    if s.portEvent mask.toNat || hit then pure ()
    else Sys2Proof.Machine.park (.event mask.toNat false)) s

/-- Some accumulator slot of the unit has an epilogue in flight. -/
def State.epiBusy (s : State) (x : Slot) (j : Nat) : Bool :=
  s.clusters.any fun e => e.2.acc.any fun a => holds x j a.2 && decide (a.2.st = .epilogue) && !a.2.fault

/-- The unit retires: DONE, or CANCELLED where a cancel reached it (R166, R172). -/
def State.retire (s : State) (t : Nat) : State :=
  s.endUnit t { code := if (s.slot t).cancel.isSome then 2 else 0, cause := 0, xpc := 0, tid := t }

/-- What DONE does (R257): it waits for the thread's copies and operations, reports a copy failure, waits for epilogues
in flight, and retires the unit. -/
def doneOp : M Unit := do
  let s ← getS
  ensure (isFar s.cur || decide (slotNo s.cur ≠ 0)) (illegalOp 8 56)
  waitQuiet .doneWait
  if s.epiBusy s.me (s.jobOf s.cur) then Sys2Proof.Machine.park .doneWait
  else do
    modS fun s => s.retire s.cur
    leave

/-- DONE (R257). -/
def execDone (s : State) : Out := run .done doneOp s

/-- TRAP: cause 0x0F with its code (R258). -/
def execTrap (code : BitVec 32) (s : State) : Out :=
  run (.trap code) (Sys2Proof.Machine.trap 0x0F (code.setWidth 64)) s

/-- BRKP: cause 0x10 with its code (R258). -/
def execBrkp (code : BitVec 32) (s : State) : Out :=
  run (.brkp code) (Sys2Proof.Machine.trap 0x10 (code.setWidth 64)) s

end Sys2Proof.Machine
end

