-- ==== Sys2Proof/Machine/Handle.lean ====
section
/-! DEFINITION. TALLOC, TFREE, TWIDEN, TINFO (R53, R60-R62, R67, R70, R344-R347). -/
namespace Sys2Proof.Machine

/-! ## TALLOC (R60, R344) -/

/-- The fields of an allocation descriptor. -/
structure AllocDesc where
  fmt   : Nat
  scl   : Nat
  caps  : Nat
  rows  : Nat
  cols  : Nat
  pages : Nat
  base  : Nat

/-- The descriptor in its 64 bytes (R344). -/
def allocDesc (x : Nat) : AllocDesc :=
  { fmt := fieldN x 40 8, scl := fieldN x 37 3, caps := fieldN x 0 32, rows := fieldN x 104 24 + 1,
    cols := fieldN x 80 24 + 1, pages := fieldN x 64 16 + 1, base := fieldN x 128 56 }

/-- A reserved bit of a descriptor outside CAPS is set (R344). -/
def descReserved (x : Nat) : Bool :=
  decide (fieldN x 48 16 ≠ 0) || decide (fieldN x 32 5 ≠ 0) || decide (fieldN x 184 8 ≠ 0) || decide (x >>> 192 ≠ 0)

/-- The scale mode is allowed for the tag (R55). -/
def sclOk (f : Tag) (scl : Nat) : Bool :=
  match f with
  | .i8 | .i4 => decide (scl ≤ 2)
  | .mxfp4 => decide (scl = 3)
  | .dxe4m3 | .dxe5m2 => decide (scl = 4)
  | _ => decide (scl = 0)

/-- The column rule of a tag (R55). -/
def colsOk (f : Tag) (rows cols : Nat) : Bool :=
  match f with
  | .i4 => decide (cols % 2 = 0)
  | .px9 | .px6 | .px4 => decide (cols % 16 = 0)
  | .mxfp4 => decide (cols % 32 = 0)
  | .dxe4m3 | .dxe5m2 => decide (cols % 32 = 0) && decide (rows % 32 = 0)
  | _ => true

/-- Geometry inside R58 and the tag's rule (the widths of the fields keep each count in its range). -/
def geometryOk (f : Tag) (rows cols pages : Nat) : Bool :=
  colsOk f rows cols && decide (dataBytes f rows cols pages ≤ 2 ^ 38)

/-- A mask is allowed with a tag (R59). -/
def combineOk (f : Tag) (caps : Nat) : Bool :=
  let has (b : Nat) : Bool := caps.testBit b
  if (sgGrade f).isSome then decide (caps = 2 ^ 11) || decide (caps = 2 ^ 11 + 2 ^ 15)
  else
    (!has 13 || (!has 17 && (plainFloat f || decide (f = .i8) || decide (f = .i32)))) &&
    (!has 11 || (!has 17 && (decide (f = .f32) || decide (f = .bf16)))) &&
    (!has 12 || decide (f = .bf16) || decide (f = .e4m3) || decide (f = .e5m2) || decide (f = .i8)) &&
    (!has 10 || (!has 16 && (decide (f = .f32) || decide (f = .bf16) || decide (f = .i32)))) &&
    (!has 17 || plainFloat f || (tagInt f).isSome)

/-- The scale planes' address is allowed (R57). -/
def scaleOk (scl base : Nat) : Bool :=
  decide (scl = 0) || (decide (base ≠ 0) && decide (base % 256 = 0) && decide (base < windowBase))

/-- The initial contents lie in local space (R20, R60). -/
def initOk (t : Nat) (init : Option Word) (bytes : Nat) : Bool :=
  match init with
  | none => true
  | some a => decide (a.toNat + bytes ≤ localEnd t)

/-- The status of the checks of R60, step 1, in their order; 0 where they pass. -/
def allocStatus (t : Nat) (d : AllocDesc) (init : Option Word) : Nat :=
  if 2 ^ 18 ≤ d.caps then 2
  else match tagOf d.fmt with
    | none => 3
    | some f =>
      if ¬ sclOk f d.scl then 3
      else if ¬ geometryOk f d.rows d.cols d.pages then 4
      else if ¬ combineOk f d.caps then 5
      else if ¬ scaleOk d.scl d.base then 8
      else if ¬ initOk t init (dataBytes f d.rows d.cols d.pages) then 9
      else 0

/-- An entry that TALLOC can take. -/
def Tensor.usable (t : Tensor) : Bool := decide (t.st = 0) && decide (t.gen < 0xFFFF)

/-- A usable entry: the lowest from `k` up, else the lowest (R60 leaves the choice to the manager). -/
def freeEntry (m : SMap Tensor) (k : Nat) : Option Nat :=
  let from_ (k : Nat) := ((List.range (m.length + 1)).map (k + ·)).find? fun i =>
    decide (i < 65536) && (m.get Tensor.dflt i).usable
  match from_ k with
  | some i => some i
  | none => from_ 0

/-- The units of the dense image of some bytes (R60). -/
def denseUnits (f : Tag) (bytes x : Nat) : List (Nat × Nat) :=
  ((List.range (bytes * 8 / unitBits f)).map fun k => (k, fieldN x (k * unitBits f) (unitBits f))).filter fun e => e.2 ≠ 0

/-- The new entry, before it has a place (R60, steps 2 and 5). -/
def newEntry (old : Tensor) (f : Tag) (d : AllocDesc) (T base : Nat) : Tensor :=
  { Tensor.dflt with
    gen := old.gen + 1, fmt := some f, scl := d.scl, st := 1, caps := d.caps, rowsM1 := d.rows - 1, colsM1 := d.cols - 1,
    pagesM1 := d.pages - 1, scaleBase := if d.scl = 0 then 0 else d.base, aliasAt := if d.caps.testBit 17 then base else 0,
    hlast := T }

/-- What the manager chooses for a TALLOC: `full` says that no memory is left, `at_` where the search for an entry begins, the class, with
16 times the form of a REPL or SLICE tensor, and where the search for frames, or for the alias of a PLAIN tensor, begins. -/
structure AllocPick where
  full : Nat
  at_  : Nat
  cls  : Nat
  base : Nat

/-- The place of a tensor that takes a class and a form as the manager picks them, where the mask permits it (R63). -/
def State.placePick (s : State) (j : Nat) (t : Tensor) (pick hint : Nat) : Option Home :=
  let c := classFor t.tag t.caps (pick % 16)
  s.placeTensor j t c (formFor t.caps c (pick / 16)) hint none

/-- Steps 2 and 3 of R60 for job `j`: the entry, the base of the alias, the place of the representation, and the state in which the alias is
mapped; or the status of what fails, NOENTRY before NOMEM. -/
def State.allocPlace (s : State) (j : Nat) (d : AllocDesc) (f : Tag) (k : AllocPick) : Except Nat (State × Nat × Nat × Home) :=
  match s.job j with
  | none => .error 6
  | some x =>
    match freeEntry x.tensors k.at_ with
    | none => .error 6
    | some i =>
      let bytes := dataBytes f d.rows d.cols d.pages
      if k.full ≠ 0 then .error 7
      else if d.caps.testBit 17 then
        match s.freeVa j k.base bytes with
        | none => .error 7
        | some va =>
          match s.mapAlias j va bytes with
          | none => .error 7
          | some s' => match s'.placePick j (newEntry (s.tensor j i) f d 0 va) 0 0 with
            | none => .error 7
            | some h => .ok (s', i, va, h)
      else match s.placePick j (newEntry (s.tensor j i) f d 0 0) k.cls k.base with
        | none => .error 7
        | some h => .ok (s, i, 0, h)

/-- Steps 2 to 5 of R60 for job `j` at a PTS. Answered: the handle, the status and the stamp. -/
def State.allocTensor (s : State) (j pts : Nat) (d : AllocDesc) (f : Tag) (data : Nat) (k : AllocPick) : State × Nat × Nat × Nat :=
  match s.allocPlace j d f k with
  | .error st => (s, 0, st, pts)
  | .ok (s, i, va, h) =>
    let old := s.tensor j i
    let T := old.nextStamp pts
    let t := (newEntry old f d T va).putAt h
    let s := (s.modTensor j i fun _ => t).remark old t
    let s := s.install j i T (denseUnits f (dataBytes f d.rows d.cols d.pages) data)
    let s := if t.plain then
        (s.aliasLines j t (t.segs t.allExt)).foldl (fun s a =>
          let ts := max T ((s.pairOf a).rts + 1)
          s.setPair a { wts := ts, rts := ts, scope := 0, who := 0 }) s
      else s
    (s, handleNo i t.gen, 0, T)

/-- Steps 2 to 5 of R60 for the issuing slot: the handle and its status. The choices of the manager come from `picks`; the contents are
read once the entry and the memory are there. -/
def allocate (d : AllocDesc) (f : Tag) (init : Option Word) : M (Nat × Nat) := do
  let full ← pick
  let at_ ← pick
  let cls ← pick
  let base ← pick
  let k : AllocPick := { full := full, at_ := at_, cls := cls, base := base }
  let s ← getS
  let data ← (match s.allocPlace (s.jobOf s.cur) d f k, init with
    | .ok _, some a => engineRead a.toNat (dataBytes f d.rows d.cols d.pages)
    | _, _ => pure 0)
  let s ← getS
  let (s', h, st, T) := s.allocTensor (s.jobOf s.cur) s.me.pts d f data k
  modS fun _ => s'
  mergePts T
  pure (h, st)

/-- A status register, 0 for none (R341). -/
def writeStatus (st : BitVec 5) (x : Nat) : M Unit := if st = 0 then pure () else writeG st (BitVec.ofNat 64 x)

/-- The descriptor of a TALLOC, read in its issue cycle and kept while the instruction is parked (R344): its 64 bytes. -/
def allocKept (a : Word) : M Nat := do
  let w ← myWait
  match w.data.get 0 1 with
  | x + 1 => pure x
  | 0 => do
    checkLocal a.toNat 64 false
    aligned a.toNat 8
    let x ← loadLocal a.toNat 64
    ensure (!descReserved x) (illegalOp 7 40)
    pure x

/-- Keeps the descriptor of a TALLOC that has issued. -/
def keepAlloc (x : Nat) : M Unit := keepWait fun w => { w with data := w.data.set 0 1 (x + 1) }

/-- TALLOC (R60, R344). -/
def execTalloc (h c l st : BitVec 5) (s : State) : Out :=
  run (.talloc h c l st) (do
    tensorSlot
    let a ← readG c
    let x ← allocKept a
    let d := allocDesc x
    let init ← (if l = 0 then pure none else do
      let y ← readG l
      pure (some y))
    let s ← getS
    let st0 := allocStatus s.cur d init
    match tagOf d.fmt, st0 with
    | some f, 0 => do
      (match init with
        | none => pure ()
        | some y => boardEnter boardOp y.toNat (dataBytes f d.rows d.cols d.pages) false)
      keepAlloc x
      await .stamp
      let (hd, status) ← allocate d f init
      boardDone
      writeG h (BitVec.ofNat 64 hd)
      writeStatus st status
    | _, _ => do
      keepAlloc x
      await .stamp
      writeG h 0
      writeStatus st st0) s

/-! ## TFREE (R62, R345) -/

/-- GEN after a TFREE (R62). The field has 16 bits: an entry whose GEN is 0xFFFF keeps it, and is never allocated again
(notes/assumptions/61.md). -/
def nextGen (g : Nat) : Nat := min 0xFFFF (g + 1)

/-- The entry at a TFREE's stamp: retiring, with the next generation (R62). -/
def Tensor.freed (t : Tensor) : Tensor := { t with st := 3, gen := nextGen t.gen }

/-- TFREE: stamped as a writer; the entry retires at its stamp, and GEN advances (R62). -/
def execTfree (h : SReg) (s : State) : Out :=
  run (.tfree h) (do
    tensorSlot
    let x ← readSR 0 h
    let hn := handleIn x
    let _ ← checkStale hn
    notRefused hn
    let _ ← stampHandle 0 hn hn 0 .free Tensor.allExt
    modEntry hn Tensor.freed
    modS fun s => s.settleIf (s.jobOf s.cur) (hn / 65536)) s

/-! ## TWIDEN (R61, R67, R70, R346) -/

/-- The status of the checks of a widening (R70, step 1); 0 where they pass. -/
def widenStatus (t : Tensor) (mask : Nat) : Nat :=
  if mask = 0 then 1
  else if 2 ^ 18 ≤ mask then 2
  else if mask.testBit 17 then 5
  else if ¬ combineOk t.tag (t.caps ||| mask) then 5
  else 0

/-- The part of a widening after its stamp. At its own turn it finds that others have declared every bit, or its conversion has begun; with
WAIT it parks on until that has published. Where replies come at once, the converter finishes what it waits for (R67, R70, R346). -/
def widenRun (hn T : Nat) (wait : Bool) : M Nat := do
  convertFor hn T
  let t ← entry hn
  match t.opAt T with
  | none => pure 0
  | some o =>
    if o.parked then park .order
    else if o.caps = 0 then do
      retireOp hn T
      pure 1
    else if wait then do
      modS fun s => if s.prompt then s.convert (s.jobOf s.cur) (hn / 65536) (t.ops.length + 1) else s
      let t ← entry hn
      if (t.opAt T).isSome then park .widen else pure 0
    else pure 0

/-- Steps 2 and 3 of R70 for a widening that has passed its checks: memory for the new form, then its stamp, at which CAPS gains the
bits; where no other re-representation is in progress, its conversion begins. Answered: the status, and the stamp where there is one. -/
def stampWiden (hn mask : Nat) : M (Nat × Option Nat) := do
  let s ← getS
  let t ← entry hn
  let add := mask - (mask &&& t.caps)
  let full ← (if add = 0 then pure 0 else pick)
  let cls ← (if add = 0 then pure 0 else pick)
  let hint ← (if add = 0 then pure 0 else pick)
  let home := if full ≠ 0 then none else s.placePick (s.jobOf s.cur) { t with caps := t.caps ||| mask } cls hint
  if add ≠ 0 ∧ home = none then pure (7, none)
  else do
    let T := t.nextStamp s.me.pts
    modEntry hn fun t => (({ (t.queue T s.cur .widen [] add) with caps := t.caps ||| mask } : Tensor).modOp T fun o =>
      { o with home := if add = 0 then none else home }).startNext
    mergePts T
    keepWait fun w => { w with stamps := [T] }
    pure (0, some T)

/-- TWIDEN (R70, R346). -/
def execTwiden (h c : SReg) (st : BitVec 5) (wait : Bool) (s : State) : Out :=
  run (.twiden h c st wait) (do
    tensorSlot
    let x ← readSR 0 h
    let y ← readSR 1 c
    let hn := handleIn x
    let mask := y.toNat % 2 ^ 32
    let w ← myWait
    match w.stamps with
    | T :: _ => do
      let status ← widenRun hn T wait
      writeStatus st status
    | [] => do
      let _ ← checkStale hn
      notRefused hn
      if mask = 0 then writeStatus st 1
      else do
        await .stamp
        let s ← getS
        ensure (s.routedIn (atCore s.cur)) (noRoute 1 hn)
        let t ← checkStale hn
        match widenStatus t mask with
        | 0 => do
          let (status, T) ← stampWiden hn mask
          match T with
          | none => writeStatus st status
          | some T => do
            let status ← widenRun hn T wait
            writeStatus st status
        | k => writeStatus st k) s

/-! ## TINFO (R53, R347) -/

/-- Word `w` of an entry (R53). -/
def Tensor.word (t : Tensor) (w : Nat) : Word :=
  match w with
  | 0 => BitVec.ofNat 64 (t.gen * 2 ^ 48 + (match t.fmt with | some f => tagCode f | none => 0) * 2 ^ 40 + t.scl * 2 ^ 37 +
      t.st * 2 ^ 35 + t.caps)
  | 1 => BitVec.ofNat 64 (t.rowsM1 * 2 ^ 40 + t.colsM1 * 2 ^ 16 + t.pagesM1)
  | 2 => BitVec.ofNat 64 t.scaleBase
  | 3 => BitVec.ofNat 64 t.aliasAt
  | 4 => BitVec.ofNat 64 t.hlast
  | 5 => BitVec.ofNat 64 t.pendw
  | 6 => BitVec.ofNat 64 (t.cls * 2 ^ 60 + t.layout)
  | _ => BitVec.ofNat 64 t.segmap

/-- The word of an entry as it stands at the stamp of a TINFO, kept while the instruction is parked. -/
def keptWord (hn w : Nat) : M Word := do
  let k ← myWait
  match k.data.get 0 2 with
  | x + 1 => pure (BitVec.ofNat 64 x)
  | 0 => do
    let t ← entry hn
    keepWait fun k => { k with data := k.data.set 0 2 ((t.word w).toNat + 1) }
    pure (t.word w)

/-- TINFO: a reader; the word as it stands at its stamp. The hidden words are for service mode only (R347). -/
def execTinfo (h l : SReg) (w : BitVec 3) (s : State) : Out :=
  run (.tinfo h l w) (do
    let s ← getS
    ensure (decide (w.toNat < 4) || isService s.cur) (illegalOp 8 0)
    if isService s.cur then pure () else tensorSlot
    let x ← readSR 0 h
    let hn := handleIn x
    let _ ← checkStale hn
    notRefused hn
    let T ← stampHandle 0 hn hn 0 .reader fun _ => []
    let x ← keptWord hn w.toNat
    opTurn hn T
    retireOp hn T
    writeSR l x) s

end Sys2Proof.Machine
end

