-- ==== Sys2Proof/Machine/Scalar.lean ====
section
/-! DEFINITION. Scalar and address instructions: arithmetic, logic, shifts, bit counts and fields, moves and constants
(R239-R249). -/
namespace Sys2Proof.Machine

/-! ## Values -/

/-- The shift distance of a register form: the low 6 bits (R241). -/
def dist (b : Word) : Nat := b.toNat % 64

/-- The high 64 bits of the signed product (R240). -/
def mulHigh (a b : Word) : Word := ((a.signExtend 128 * b.signExtend 128) >>> 64).setWidth 64

/-- The high 64 bits of the unsigned product (R240). -/
def mulHighN (a b : Word) : Word := ((a.setWidth 128 * b.setWidth 128) >>> 64).setWidth 64

/-- The signed quotient, truncated toward zero; all ones for a zero divisor; the overflow wraps (R242). -/
def divS (a b : Word) : Word :=
  if b = 0 then BitVec.allOnes 64
  else if a = 0x8000000000000000 ∧ b = BitVec.allOnes 64 then a
  else BitVec.ofInt 64 (a.toInt.tdiv b.toInt)

/-- The signed remainder, with the sign of A (R242). -/
def remS (a b : Word) : Word :=
  if b = 0 then a
  else if a = 0x8000000000000000 ∧ b = BitVec.allOnes 64 then 0
  else BitVec.ofInt 64 (a.toInt.tmod b.toInt)

/-- The unsigned quotient; all ones for a zero divisor (R242). -/
def divU (a b : Word) : Word := if b = 0 then BitVec.allOnes 64 else a / b

/-- The unsigned remainder (R242). -/
def remU (a b : Word) : Word := if b = 0 then a else a % b

/-- The bits of a word from bit 0 up. -/
def bitsUp (a : Word) : List Bool := (List.range 64).map a.getLsbD

/-- How many entries from the head are false. -/
def zerosRun : List Bool → Nat
  | [] => 0
  | true :: _ => 0
  | false :: l => zerosRun l + 1

/-- Leading zero bits; 64 for 0 (R244). -/
def clz (a : Word) : Word := BitVec.ofNat 64 (zerosRun (bitsUp a).reverse)
/-- Trailing zero bits; 64 for 0 (R244). -/
def ctz (a : Word) : Word := BitVec.ofNat 64 (zerosRun (bitsUp a))
/-- One bits (R244). -/
def popCount (a : Word) : Word := BitVec.ofNat 64 ((bitsUp a).filter id).length
/-- The bits in reverse order (R244). -/
def bitRev (a : Word) : Word := maskOf fun k => a.getLsbD (63 - k)

/-- The low `w` bits, sign-extended; the value itself for 64 (R245). -/
def signExt (a : Word) (w : Nat) : Word := (a <<< (64 - w)).sshiftRight (64 - w)
/-- The low `w` bits, zero-extended (R245). -/
def zeroExt (a : Word) (w : Nat) : Word := (a <<< (64 - w)) >>> (64 - w)

/-- The field of `len` bits from `pos` (R246). -/
def bitField (a : Word) (pos len : Nat) : Word := zeroExt (a >>> pos) len
/-- The field sign-extended (R246). -/
def bitFieldS (a : Word) (pos len : Nat) : Word := signExt (a >>> pos) len
/-- The low `len` bits of A in place of a field of D (R246). -/
def bitInsert (d a : Word) (pos len : Nat) : Word :=
  let m := zeroExt (BitVec.allOnes 64) len <<< pos
  (d &&& ~~~m) ||| ((a <<< pos) &&& m)

/-! ## The shared shapes -/

/-- `OP d, a, b`: both sources, then the destination (R239). -/
def alu2 (d : SReg) (a b : Src) (f : Word → Word → Word) : M Unit := do
  let (x, y) ← readAB a b
  writeSR d (f x y)

/-- `OP d, a`. -/
def alu1 (d : SReg) (a : Src) (f : Word → Word) : M Unit := do
  let x ← readSrc 1 a
  writeSR d (f x)

/-! ## The instructions -/

/-- NOP: the slot uses its turn (R248). -/
def execNop (s : State) : Out := run .nop (pure ()) s

/-- ADD (R240). -/
def execAdd (d : SReg) (a b : Src) (s : State) : Out := run (.add d a b) (alu2 d a b fun x y => x + y) s

/-- SUB (R240). -/
def execSub (d : SReg) (a b : Src) (s : State) : Out := run (.sub d a b) (alu2 d a b fun x y => x - y) s

/-- MUL (R240). -/
def execMul (d : SReg) (a b : Src) (s : State) : Out := run (.mul d a b) (alu2 d a b fun x y => x * y) s

/-- MULH (R240). -/
def execMulh (d : SReg) (a b : Src) (s : State) : Out := run (.mulh d a b) (alu2 d a b fun x y => mulHigh x y) s

/-- MULHN (R240). -/
def execMulhn (d : SReg) (a b : Src) (s : State) : Out := run (.mulhn d a b) (alu2 d a b fun x y => mulHighN x y) s

/-- DIV (R242). -/
def execDiv (d : SReg) (a b : Src) (s : State) : Out := run (.div d a b) (alu2 d a b fun x y => divS x y) s

/-- DIVN (R242). -/
def execDivn (d : SReg) (a b : Src) (s : State) : Out := run (.divn d a b) (alu2 d a b fun x y => divU x y) s

/-- REM (R242). -/
def execRem (d : SReg) (a b : Src) (s : State) : Out := run (.rem d a b) (alu2 d a b fun x y => remS x y) s

/-- REMN (R242). -/
def execRemn (d : SReg) (a b : Src) (s : State) : Out := run (.remn d a b) (alu2 d a b fun x y => remU x y) s

/-- AND (R240). -/
def execAnd (d : SReg) (a b : Src) (s : State) : Out := run (.and d a b) (alu2 d a b fun x y => x &&& y) s

/-- OR (R240). -/
def execOr (d : SReg) (a b : Src) (s : State) : Out := run (.or d a b) (alu2 d a b fun x y => x ||| y) s

/-- XOR (R240). -/
def execXor (d : SReg) (a b : Src) (s : State) : Out := run (.xor d a b) (alu2 d a b fun x y => x ^^^ y) s

/-- ANDN (R240). -/
def execAndn (d : SReg) (a b : Src) (s : State) : Out := run (.andn d a b) (alu2 d a b fun x y => x &&& ~~~y) s

/-- SHL (R241). -/
def execShl (d : SReg) (a b : Src) (s : State) : Out := run (.shl d a b) (alu2 d a b fun x y => x <<< dist y) s

/-- SHR (R241). -/
def execShr (d : SReg) (a b : Src) (s : State) : Out := run (.shr d a b) (alu2 d a b fun x y => x >>> dist y) s

/-- SAR (R241). -/
def execSar (d : SReg) (a b : Src) (s : State) : Out := run (.sar d a b) (alu2 d a b fun x y => x.sshiftRight (dist y)) s

/-- ROL (R241). -/
def execRol (d : SReg) (a b : Src) (s : State) : Out := run (.rol d a b) (alu2 d a b fun x y => x.rotateLeft (dist y)) s

/-- MIN (R240). -/
def execMin (d : SReg) (a b : Src) (s : State) : Out := run (.min d a b) (alu2 d a b fun x y => if x.slt y then x else y) s

/-- MAX (R240). -/
def execMax (d : SReg) (a b : Src) (s : State) : Out := run (.max d a b) (alu2 d a b fun x y => if x.slt y then y else x) s

/-- MINN (R240). -/
def execMinn (d : SReg) (a b : Src) (s : State) : Out := run (.minn d a b) (alu2 d a b fun x y => if x.ult y then x else y) s

/-- MAXN (R240). -/
def execMaxn (d : SReg) (a b : Src) (s : State) : Out := run (.maxn d a b) (alu2 d a b fun x y => if x.ult y then y else x) s

/-- SLT (R240). -/
def execSlt (d : SReg) (a b : Src) (s : State) : Out := run (.slt d a b) (alu2 d a b fun x y => ofFlag (x.slt y)) s

/-- SLTN (R240). -/
def execSltn (d : SReg) (a b : Src) (s : State) : Out := run (.sltn d a b) (alu2 d a b fun x y => ofFlag (x.ult y)) s

/-- SEQ (R240). -/
def execSeq (d : SReg) (a b : Src) (s : State) : Out := run (.seq d a b) (alu2 d a b fun x y => ofFlag (x == y)) s

/-- ADDI (R243). -/
def execAddi (d : SReg) (a : Src) (imm : BitVec 32) (s : State) : Out :=
  run (.addi d a imm) (alu1 d a fun x => x + sext32 imm) s

/-- ANDI (R243). -/
def execAndi (d : SReg) (a : Src) (imm : BitVec 32) (s : State) : Out :=
  run (.andi d a imm) (alu1 d a fun x => x &&& sext32 imm) s

/-- ORI (R243). -/
def execOri (d : SReg) (a : Src) (imm : BitVec 32) (s : State) : Out :=
  run (.ori d a imm) (alu1 d a fun x => x ||| sext32 imm) s

/-- XORI (R243). -/
def execXori (d : SReg) (a : Src) (imm : BitVec 32) (s : State) : Out :=
  run (.xori d a imm) (alu1 d a fun x => x ^^^ sext32 imm) s

/-- SLTI (R243). -/
def execSlti (d : SReg) (a : Src) (imm : BitVec 32) (s : State) : Out :=
  run (.slti d a imm) (alu1 d a fun x => ofFlag (x.slt (sext32 imm))) s

/-- SLTIN (R243). -/
def execSltiN (d : SReg) (a : Src) (imm : BitVec 32) (s : State) : Out :=
  run (.sltiN d a imm) (alu1 d a fun x => ofFlag (x.ult (sext32 imm))) s

/-- SHLI (R241). -/
def execShli (d : SReg) (a : Src) (n : BitVec 6) (s : State) : Out := run (.shli d a n) (alu1 d a fun x => x <<< n.toNat) s

/-- SHRI (R241). -/
def execShri (d : SReg) (a : Src) (n : BitVec 6) (s : State) : Out := run (.shri d a n) (alu1 d a fun x => x >>> n.toNat) s

/-- SARI (R241). -/
def execSari (d : SReg) (a : Src) (n : BitVec 6) (s : State) : Out := run (.sari d a n) (alu1 d a fun x => x.sshiftRight n.toNat) s

/-- ROLI (R241). -/
def execRoli (d : SReg) (a : Src) (n : BitVec 6) (s : State) : Out := run (.roli d a n) (alu1 d a fun x => x.rotateLeft n.toNat) s

/-- CLZ (R244). -/
def execClz (d : SReg) (a : Src) (s : State) : Out := run (.clz d a) (alu1 d a fun x => clz x) s

/-- CTZ (R244). -/
def execCtz (d : SReg) (a : Src) (s : State) : Out := run (.ctz d a) (alu1 d a fun x => ctz x) s

/-- POPC (R244). -/
def execPopc (d : SReg) (a : Src) (s : State) : Out := run (.popc d a) (alu1 d a fun x => popCount x) s

/-- BREV (R244). -/
def execBrev (d : SReg) (a : Src) (s : State) : Out := run (.brev d a) (alu1 d a fun x => bitRev x) s

/-- SEXT (R245). -/
def execSext (d : SReg) (a : Src) (w : BitVec 7) (s : State) : Out :=
  run (.sext d a w) (alu1 d a fun x => signExt x w.toNat) s

/-- ZEXT (R245). -/
def execZext (d : SReg) (a : Src) (w : BitVec 7) (s : State) : Out :=
  run (.zext d a w) (alu1 d a fun x => zeroExt x w.toNat) s

/-- BFX (R246). -/
def execBfx (d : SReg) (a : Src) (pos lenM1 : BitVec 6) (s : State) : Out :=
  run (.bfx d a pos lenM1) (alu1 d a fun x => bitField x pos.toNat (lenM1.toNat + 1)) s

/-- BFX.s (R246). -/
def execBfxS (d : SReg) (a : Src) (pos lenM1 : BitVec 6) (s : State) : Out :=
  run (.bfxS d a pos lenM1) (alu1 d a fun x => bitFieldS x pos.toNat (lenM1.toNat + 1)) s

/-- BFI: D is read after A, with an ordinary read (R246). -/
def execBfi (d : SReg) (a : Src) (pos lenM1 : BitVec 6) (s : State) : Out :=
  run (.bfi d a pos lenM1) (do
    let x ← readSrc 1 a
    let old ← readSR 3 d
    writeSR d (bitInsert old x pos.toNat (lenM1.toNat + 1))) s

/-- SEL: A, B, then c with an ordinary read (R247). -/
def execSel (d : SReg) (a b : Src) (c : SReg) (s : State) : Out :=
  run (.sel d a b c) (do
    let (x, y) ← readAB a b
    let z ← readSR 3 c
    writeSR d (if z ≠ 0 then x else y)) s

/-- MOV (R248). -/
def execMov (d : SReg) (a : Src) (s : State) : Out := run (.mov d a) (alu1 d a fun x => x) s

/-- MOVI (R248). -/
def execMovi (d : SReg) (imm : BitVec 32) (s : State) : Out := run (.movi d imm) (writeSR d (sext32 imm)) s

/-- MOVX: the PC passes both words (R209, R219, R248). -/
def execMovx (d : SReg) (x : Word) (s : State) : Out := run (.movx d x) (writeSR d x) s

/-- LEA (R249). -/
def execLea (d : SReg) (a : Src) (off : BitVec 32) (s : State) : Out :=
  run (.lea d a off) (alu1 d a fun x => x + sext32 off) s

/-- The window address of an offset of a core (R25, R249). -/
def windowAddr (c : Nat) (off : Word) : Word :=
  BitVec.ofNat 64 (windowBase + (c / 128) * 2 ^ 36 + (c % 128) * 2 ^ 28 + off.toNat % 2 ^ 28)

/-- LEA.win, in local slots of compute cores only (R249). -/
def execLeaWin (d : SReg) (a : Src) (off : BitVec 32) (s : State) : Out :=
  run (.leaWin d a off) (do
    ensure (isLocal s.cur) (illegalOp 8 56)
    alu1 d a fun x => windowAddr (coreOf s.cur) (x + sext32 off)) s

end Sys2Proof.Machine
end

