-- ==== Sys2Proof/Machine/Mask.lean ====
section
/-! DEFINITION. Mask instructions (R317). -/
namespace Sys2Proof.Machine

/-- `OP d, a, b` on mask registers. -/
def mask2 (d a b : BitVec 3) (f : Word → Word → Word) : M Unit := do
  let x ← readK a
  let y ← readK b
  writeK d (f x y)

/-- KAND (R317). -/
def execKand (d a b : BitVec 3) (s : State) : Out := run (.kand d a b) (mask2 d a b (· &&& ·)) s
/-- KOR (R317). -/
def execKor (d a b : BitVec 3) (s : State) : Out := run (.kor d a b) (mask2 d a b (· ||| ·)) s
/-- KXOR (R317). -/
def execKxor (d a b : BitVec 3) (s : State) : Out := run (.kxor d a b) (mask2 d a b (· ^^^ ·)) s
/-- KNOT (R317). -/
def execKnot (d a : BitVec 3) (s : State) : Out := run (.knot d a) (mask2 d a a fun x _ => ~~~x) s

/-- KPOP (R317). -/
def execKpop (d : SReg) (a : BitVec 3) (s : State) : Out :=
  run (.kpop d a) (do
    let x ← readK a
    writeSR d (popCount x)) s

/-- KFIRST: 64 for an empty mask (R317). -/
def execKfirst (d : SReg) (a : BitVec 3) (s : State) : Out :=
  run (.kfirst d a) (do
    let x ← readK a
    writeSR d (ctz x)) s

/-- Reads the source of KMOV. -/
def readKSrc : KSrc → M Word
  | .k n => readK n
  | .r a => readSrc 1 a

/-- KMOV: all 64 bits (R317). -/
def execKmov (d : KDst) (a : KSrc) (s : State) : Out :=
  run (.kmov d a) (do
    let x ← readKSrc a
    match d with
    | .k n => writeK n x
    | .r r => writeSR r x) s

end Sys2Proof.Machine
end

