-- ==== Sys2Proof/Machine/Migration.lean ====
section
/-! DEFINITION. Migration by instruction, pinning and crew joins (R173-R182, R278-R280). -/
namespace Sys2Proof.Machine

/-! ## MIGR (R278) -/

/-- MIGR and MIGR.crew: the checks of R29 on one byte, as for a load; a page that is not MIGRATE, or a home (the core of a window
among them, R26) where the thread runs, completes as NOP; else the thread migrates, and the instruction issues again at the
home. -/
def migrTo (a : Src) (off : BitVec 32) (crew : Bool) : M Unit := do
  let b ← readSrc 1 a
  let p ← placeOf true (addrOf b off) 1 false false
  match p with
  | .inl _ => pure ()
  | .inr c => migrate c (addrOf b off) crew

/-- MIGR (R278). -/
def execMigr (a : Src) (off : BitVec 32) (s : State) : Out := run (.migr a off) (migrTo a off false) s

/-- MIGR.crew: the issuer must be a crew member (R181, R278). -/
def execMigrCrew (a : Src) (off : BitVec 32) (s : State) : Out :=
  run (.migrCrew a off) (do
    let x ← myself
    ensure (x.sp.xstat.getLsbD 2) (illegalOp 9 0)
    migrTo a off true) s

/-- MPIN: XSTAT.PIN (R279). -/
def execMpin (on : Bool) (s : State) : Out :=
  run (.mpin on) (modSp fun p =>
    { p with xstat := if on then p.xstat ||| 2 else p.xstat &&& ~~~(2 : Word) }) s

/-! ## Crew joins (R180, R280) -/

/-- The crew bits of XSTAT: CREW and the id in 31:16. -/
def crewBits : Word := 0xFFFF0004

/-- XSTAT of a member of crew `id`. -/
def joinedStat (x : Word) (id : Nat) : Word := (x &&& ~~~crewBits) ||| 4 ||| BitVec.ofNat 64 (id % 65536 * 65536)

/-- XSTAT after leaving a crew. -/
def leftStat (x : Word) : Word := x &&& ~~~crewBits

/-- What a member that waits in CREWJ finds at its next turn: 1 joined, 2 refused. -/
def joinWait (n : Nat) (w : Wait) : Wait := { w with kind := .ready, n := n }

/-- Tells the members of a join. -/
def State.tellJoin (s : State) (ms : List Nat) (n : Nat) : State :=
  ms.foldl (fun s t => s.modSlot t fun x => { x with wait := x.wait.map (joinWait n) }) s

/-- Is the join of crew `id` of job `j`. -/
def isJoin (j id : Nat) (k : CrewJoin) : Bool := decide (k.job = j) && decide (k.id = id)

/-- Replaces, or drops, the join of a crew on a core. -/
def State.setJoin (s : State) (c j id : Nat) (k : Option CrewJoin) : State :=
  s.modCore c fun x => { x with joins := (x.joins.filter fun q => !isJoin j id q) ++ k.toList }

/-- A join fails: every waiting member is told, and the core keeps the failure (R180, R280). -/
def State.failJoin (s : State) (c : Nat) (k : CrewJoin) : State :=
  (s.tellJoin k.members 2).setJoin c k.job k.id (some { k with members := [], failed := true })

/-- A thread joins: the last member completes the join, a size that differs fails it (R180). The value answered is what
the thread itself finds: 0 it waits, 1 joined, 2 refused. -/
def State.join (s : State) (t c j id size : Nat) : State × Nat :=
  match (s.core c).joins.find? (isJoin j id) with
  | none => (s.setJoin c j id (some { job := j, id := id, size := size, members := [t], failed := false }), 0)
  | some k =>
    if k.failed then (s, 2)
    else if k.size ≠ size then (s.failJoin c k, 2)
    else
      let ms := joinEnd k.members t
      if ms.length = size then ((s.tellJoin k.members 1).setJoin c j id none, 1)
      else (s.setJoin c j id (some { k with members := ms }), 0)

/-- CREWJ (R180, R280). -/
def execCrewj (a b : Src) (s : State) : Out :=
  run (.crewj a b) (do
    let (x, y) ← readAB a b
    let id := x.toNat % 65536
    let me ← myself
    let w ← myWait
    let s ← getS
    if me.sp.xstat.getLsbD 2 then do
      ensure (decide (y = 0)) (illegalOp 9 0)
      modMe fun m => { m with crewN := 0, sp := { m.sp with xstat := leftStat m.sp.xstat } }
    else do
      ensure (decide (2 ≤ y.toNat) && decide (y.toNat ≤ 15)) (illegalOp 7 31)
      let found ← (if w.kind = .ready ∧ w.n ≠ 0 then pure w.n
        else if w.kind = .crewJoin id then pure 0
        else do
          let (s', n) := s.join s.cur (coreOf s.cur) (s.jobOf s.cur) id y.toNat
          modS fun _ => s'
          pure n)
      if found = 0 then park (.crewJoin id)
      else if found = 1 then
        modMe fun m => { m with crewN := y.toNat, sp := { m.sp with xstat := joinedStat m.sp.xstat id } }
      else trapAt 1 9) s

end Sys2Proof.Machine
end

