-- ==== Sys2Proof/Machine/Near.lean ====
section
/-! DEFINITION. The near-memory commands NMLOAD, NMSTRM, NMDRAIN (R359, R360). -/
namespace Sys2Proof.Machine

/-- Near commands are of far slots, with near-memory arrays built and switched on (R341, R399). -/
def nearSlot : M Unit := do
  let s ← getS
  ensure (isFar s.cur && s.pkg.featsel.testBit 0) (illegalOp 8 56)

/-- The tags of a near command (R359). -/
def nearTag (t : Tensor) : Bool :=
  decide (t.scl = 0) && (decide (t.tag = .bf16) || decide (t.tag = .e4m3) || decide (t.tag = .e5m2) || decide (t.tag = .i8))

/-- The checks of a near command on its handle, and what else it checks. -/
def nearChecks (h : Nat) (more : Tensor → M Unit) : M Unit := do
  let go ← stamped
  if go then pure ()
  else do
    let t ← checkHandle h (2 ^ capNear)
    ensure (nearTag t) (badFormat 3)
    more t
    notRefused h

/-- The tensor lies on a stack: in class NEARROW; a PLAIN tensor, which is ROWMAJ always, in the frames of its alias (R63, R68). -/
def State.nearReady (s : State) (j : Nat) (t : Tensor) (stack : Nat) : Bool :=
  if t.plain then s.aliasOn j t.aliasAt t.bytes stack
  else decide (t.cls = 7) && decide (t.stack = some stack) && t.rerep.isNone

/-- The move of a tensor to a stack has begun: a re-representation in class NEARROW, or new frames for an alias, under a shootdown; none
where it must wait for another change, or for memory (R43, R63, R67). -/
def State.nearStart (s : State) (j i stack : Nat) : Option State :=
  let t := s.tensor j i
  if t.plain then (if s.changing j then none else s.moveAlias j t.aliasAt t.bytes stack)
  else (s.moveTensor j i 7 0 0 (some stack)).map fun s => if s.prompt then s.convert j i (t.ops.length + 1) else s

/-- Before its stamp, a near command on a tensor that lies elsewhere, or in another class, causes a re-representation onto the stack of
its far slot, and waits until that has published (R63, R67, R359). -/
def nearMove (h : Nat) : M Unit := do
  let go ← stamped
  if go then pure ()
  else do
    let s ← getS
    let j := s.jobOf s.cur
    let i := h / 65536
    if s.nearReady j (s.tensor j i) (farStack s.cur) then pure ()
    else match s.nearStart j i (farStack s.cur) with
      | none => park .order
      | some s' => do
        modS fun _ => s'
        if s'.nearReady j (s'.tensor j i) (farStack s.cur) then pure () else park .order

/-- The code of an element of a NEARROW tensor as the array of its pseudo-channel finds it in the row buffer; zero bytes beyond a row
(R106). -/
def State.nearCode (s : State) (j : Nat) (t : Tensor) (T p i c : Nat) : Nat :=
  let w := unitBits t.tag / 8
  let a := t.nearPlace (p * t.rows + i) (c * w)
  match t.nearOwner a.1 a.2.1 a.2.2 with
  | some (r, b) => s.unitAt j t T (r / t.rows) (r % t.rows) (b / w)
  | none => 0

/-- The 8 × 8 region that NMLOAD reads. -/
def weightRegion (x : Word) : Region := { p := (crdOf x).p, r := (crdOf x).r, c := (crdOf x).c, nr := 8, nc := 8 }

/-- The codes of a region that are not 0, row by row; an element outside the geometry is +0. -/
def State.regionCodes (s : State) (t : Tensor) (T : Nat) (q : Region) : SMap Nat :=
  ((List.range (q.nr * q.nc)).map fun k =>
    (k, if t.inside q.p (q.r + k / q.nc) (q.c + k % q.nc) then
          s.nearCode (s.jobOf s.cur) t T q.p (q.r + k / q.nc) (q.c + k % q.nc) else 0)).filter
    fun (e : Nat × Nat) => decide (e.2 ≠ 0)

/-- The weights of every array of a stack: each far slot of the stack that holds a unit drives them (R359, R360). -/
def State.setWeights (s : State) (stack : Nat) (w : FarWts) : State :=
  { s with slots := s.slots.map fun (e : Nat × Slot) =>
      (e.1, if isFar e.1 && decide (farStack e.1 = stack) && decide (e.2.st ≠ .free) then { e.2 with wts := some w } else e.2) }

/-- The step of NMLOAD: the codes of the region become the weights of every array of the stack. -/
def loadWeights (hn T : Nat) (q : Region) : M Unit := do
  let t ← entry hn
  readRegion hn t T q
  modS fun s => s.setWeights (farStack s.cur) { fmt := t.tag, data := s.regionCodes t T q }

/-- NMLOAD: the weights of the stack's arrays (R360). -/
def execNmload (h c : SReg) (s : State) : Out :=
  run (.nmload h c) (do
    nearSlot
    let x ← readSR 0 h
    let y ← readSR 1 c
    let hn := handleIn x
    let q := weightRegion y
    nearChecks hn fun _ => pure ()
    nearMove hn
    let T ← stampHandle 0 hn hn (2 ^ capNear) .reader q.ext
    opTurn hn T
    engineStep 0 (loadWeights hn T q)
    retireOp hn T) s

/-- A stored code of a near tag as a value. -/
def nearValue (f : Tag) (c : Nat) : FV :=
  match tagFloat f with
  | some g => g.value c
  | none => FV.ofInt (sintOf 8 c)

/-- One result of NMSTRM: the exact sum wrapped in I32, or one group of R202 (R360). -/
def nearDot (w : FarWts) (f : Tag) (xs : Nat → Nat) (c : Nat) : Nat :=
  if f = .i8 then
    codeOf 32 ((List.range 8).foldl (fun (n : Int) r => n + sintOf 8 (xs r) * sintOf 8 (w.data.get 0 (8 * r + c))) 0)
  else groupSum ((List.range 8).map fun r => (nearValue f (xs r)).mul (nearValue w.fmt (w.data.get 0 (8 * r + c))))

/-- The result buffer of NMSTRM over a tile (R360). -/
def nearResult (w : FarWts) (f : Tag) (q : Region) (xs : SMap Nat) : FarBuf :=
  { rows := q.nr, cols := q.nc, isInt := decide (f = .i8),
    data := ((List.range (q.nr * q.nc)).map fun k =>
      (k, nearDot w f (fun r => xs.get 0 (k / q.nc * q.nc + k % q.nc / 8 * 8 + r)) (k % 8))).filter
        fun (e : Nat × Nat) => decide (e.2 ≠ 0) }

/-- NMSTRM and the weights agree: both I8, or both float (R360). -/
def nearPair (w : FarWts) (f : Tag) : Bool := decide (w.fmt = .i8) == decide (f = .i8)

/-- A far slot's tile, from the edges in the SHAPE of NMSTRM and NMDRAIN. -/
def nearTile (x : Word) (rows cols : BitVec 4) : Region :=
  { p := (crdOf x).p, r := (crdOf x).r, c := (crdOf x).c, nr := 8 * (rows.toNat + 1), nc := 8 * (cols.toNat + 1) }

/-- The step of NMSTRM: the tile times the weights becomes the result buffer. -/
def streamTile (hn T : Nat) (q : Region) (w : FarWts) : M Unit := do
  let t ← entry hn
  readRegion hn t T q
  let s ← getS
  modMe fun m => { m with buf := some (nearResult w t.tag q (s.regionCodes t T q)) }

/-- NMSTRM: the tile times the weights, into the result buffer (R360). -/
def execNmstrm (h c : SReg) (rows cols : BitVec 4) (s : State) : Out :=
  run (.nmstrm h c rows cols) (do
    nearSlot
    let x ← readSR 0 h
    let y ← readSR 1 c
    let hn := handleIn x
    let q := nearTile y rows cols
    let me ← myself
    match me.wts with
    | none => do
      nearChecks hn fun _ => badFormat 2
      badFormat 2
    | some w => do
      nearChecks hn fun t => ensure (nearPair w t.tag) (badFormat 2)
      nearMove hn
      let T ← stampHandle 0 hn hn (2 ^ capNear) .reader q.ext
      opTurn hn T
      engineStep 0 (streamTile hn T q w)
      retireOp hn T) s

/-- The exact value of an element of the result buffer. -/
def FarBuf.value (b : FarBuf) (i j : Nat) : FV :=
  let c := b.data.get 0 (i * b.cols + j)
  if b.isInt then FV.ofInt (sintOf 32 c) else fp32.value c

/-- The step of NMDRAIN: the buffer, converted, into the shadow. -/
def drainTile (hn : Nat) (q : Region) (b : FarBuf) (k : Rnd) : M Unit := do
  let t ← entry hn
  keepShadow ((epiUnits t q 0 q.nr).map fun (e : Nat × Nat) =>
    (e.1, convertTo t.tag (k.at e.1) (b.value (e.2 / 128) (e.2 % 128))))

/-- The result buffer of a far slot; before any NMSTRM it has no rows. -/
def Slot.nearBuf (x : Slot) : FarBuf := x.buf.getD { rows := 0, cols := 0, isInt := false, data := [] }

/-- NMDRAIN: the result buffer, converted, into the tile; one publish (R360). -/
def execNmdrain (h c : SReg) (rows cols : BitVec 4) (rm : Option RMode) (s : State) : Out :=
  run (.nmdrain h c rows cols rm) (do
    nearSlot
    let x ← readSR 0 h
    let y ← readSR 1 c
    let hn := handleIn x
    let q := nearTile y rows cols
    let me ← myself
    nearChecks hn fun _ => ensure (decide (me.nearBuf.rows = q.nr) && decide (me.nearBuf.cols = q.nc)) (badFormat 1)
    nearMove hn
    let T ← stampHandle 0 hn hn (2 ^ capNear) .writer q.ext
    opTurn hn T
    engineStep 0 (drainTile hn q me.nearBuf (me.rnd rm))
    let _ ← publishMine hn T
    pure ()) s

end Sys2Proof.Machine
end

