-- ==== Sys2Proof/Machine/Stash.lean ====
section
/-! DEFINITION. STASH, RESTORE, and the requests of a peer module (R105, R204, R205, R354-R358, R399). -/
namespace Sys2Proof.Machine

/-- The tag of the image of a grade. -/
def gradeTag : Grade → Tag
  | .s3 => .sg3
  | .s5 => .sg5
  | .s7 => .sg7

/-- Blocks of one page of a tensor (R205). -/
def pageBlocks (t : Tensor) : Nat := (t.rows * t.cols + 63) / 64
/-- Blocks of a tensor. -/
def allBlocks (t : Tensor) : Nat := t.pages * pageBlocks t
/-- Steps of 64 blocks (R356). -/
def stashSteps (t : Tensor) : Nat := (allBlocks t + 63) / 64
/-- Bytes of a block. -/
def blockBytes (g : Grade) : Nat := 1 + 8 * gradeBits g
/-- Bytes of the image of a tensor. -/
def imageSize (g : Grade) (t : Tensor) : Nat := t.pages * stashPage (gradeBits g) (t.rows * t.cols)
/-- The first byte of block `b` of the image. -/
def blockAt (g : Grade) (t : Tensor) (b : Nat) : Nat :=
  b / pageBlocks t * stashPage (gradeBits g) (t.rows * t.cols) + b % pageBlocks t * blockBytes g
/-- The unit of element `k` of block `b`; none beyond the end of the page. -/
def blockElem (t : Tensor) (b k : Nat) : Option Nat :=
  let e := b % pageBlocks t * 64 + k
  if e < t.rows * t.cols then some (b / pageBlocks t * (t.rows * t.cols) + e) else none
/-- The blocks of step `k`. -/
def stepBlocks (t : Tensor) (k : Nat) : List Nat := ((List.range 64).map (64 * k + ·)).filter fun b => decide (b < allBlocks t)

/-- Units [lo, hi) of a tensor without blocks are read at a stamp: their storage, and the loads of a PLAIN alias, page by page (R72, R145). -/
def readUnits (h : Nat) (t : Tensor) (T lo hi : Nat) : M Unit := do
  readStorage h t T (t.unitExt lo hi) false
  let n := t.rows * t.cols
  loopM (upTo (lo / n) ((hi - 1) / n)) fun p => do
    let a := (max lo (p * n) - p * n) / t.cols
    let b := (min hi (p * n + n) - p * n + t.cols - 1) / t.cols
    touchAlias h t T p a (b - a) 0 t.cols

/-- The zero bytes that end a page of the image, behind its last block (R205). -/
def pagePad (g : Grade) (t : Tensor) (b : Nat) : List (Nat × Nat) :=
  if b % pageBlocks t + 1 = pageBlocks t then
    (List.range (stashPage (gradeBits g) (t.rows * t.cols) - pageBlocks t * blockBytes g)).map fun i =>
      (b / pageBlocks t * stashPage (gradeBits g) (t.rows * t.cols) + pageBlocks t * blockBytes g + i, 0)
  else []

/-- The image bytes of block `b` at stamp `T`, as units, with the padding of its page (R204, R205). -/
def encodeBlock (s : State) (j : Nat) (t : Tensor) (T : Nat) (g : Grade) (b : Nat) : List (Nat × Nat) :=
  let x := stashBlock (gradeBits g) ((List.range 64).map fun k =>
    match blockElem t b k with
    | some u => collF32 t.tag (s.codeAt j t T u)
    | none => 0)
  ((List.range (blockBytes g)).map fun i => (blockAt g t b + i, fieldN x (8 * i) 8)) ++ pagePad g t b

/-- The units of block `b` of the destination from the bytes of an image (R204, R357). -/
def decodeBlock (t : Tensor) (g : Grade) (byte : Nat → Nat) (b : Nat) : List (Nat × Nat) :=
  let x := packNat 8 ((List.range (blockBytes g)).map fun i => byte (blockAt g t b + i))
  (List.range 64).filterMap fun k => (blockElem t b k).map fun u => (u, collOut t.tag (unstash (gradeBits g) x k))

/-! ## Checks (R354, R355) -/

/-- A target descriptor (R355). -/
structure Target_ where
  base : Nat
  len  : Nat

/-- The descriptor at a local address. -/
def targetDesc (a : Nat) (host : Bool) : M Target_ := do
  checkLocal a 32 false
  aligned a 8
  let x ← loadLocal a 32
  let ok := decide (fieldN x 56 8 = 0) && decide (fieldN x 192 64 = 0) &&
    (if host then decide (fieldN x 128 64 = 0) else decide (fieldN x 0 128 = 0))
  ensure ok (illegalOp 7 32)
  pure { base := fieldN x 0 56, len := fieldN x 64 64 }

/-- STASH and RESTORE to host or peer need the feature STASHX (R399). -/
def stashAllowed (t : Tgt) : M Unit := do
  let s ← getS
  ensure (decide (t = .image) || s.pkg.featsel.testBit 1) (illegalOp 8 56)

/-- The handle checks, and the image handle's; the number of the image handle is answered. -/
def stashChecks (o : StashArgs) (h : Nat) (l : Word) : M Unit := do
  match o.tgt with
  | .image => do
    let (t, q) ← checkTwo h (2 ^ capStash) (handleIn l) (2 ^ capStash)
    ensure (decide (t.tag = .f32) || decide (t.tag = .bf16)) (badFormat 3)
    ensure (decide (q.tag = gradeTag o.grade) && decide (q.rowsM1 = t.rowsM1) && decide (q.colsM1 = t.colsM1) &&
      decide (q.pagesM1 = t.pagesM1)) (badFormat 3)
  | _ => do
    let t ← checkHandle h (2 ^ capStash)
    ensure (decide (t.tag = .f32) || decide (t.tag = .bf16)) (badFormat 3)

/-- The target of an instruction whose descriptor is read at issue, and kept: base and length. DESIGN CHOICE, unsafe: a host BASE that is not
256-byte aligned, which R355 rules out and for which it names no trap, takes trap 0x04 (notes/assumptions/94.md). -/
def keptTarget (o : StashArgs) (l : Word) : M Target_ := do
  let w ← myWait
  if w.data.get 0 231 ≠ 0 then pure { base := w.data.get 0 232, len := w.data.get 0 233 }
  else do
    let d ← (match o.tgt with
      | .image => pure { base := 0, len := 0 }
      | .host => targetDesc l.toNat true
      | .peer => targetDesc l.toNat false)
    (match o.tgt with | .host => aligned d.base 256 | _ => pure ())
    keepWait fun w => { w with data := ((w.data.set 0 231 1).set 0 232 d.base).set 0 233 d.len }
    pure d

/-- The answer of the peer module, which no rule of this package fixes: a free choice, kept. -/
def peerStatus (key : Nat) (ok : Nat → Bool) : M Nat := do
  let w ← myWait
  if w.data.get 0 key ≠ 0 then pure (w.data.get 0 key - 1)
  else do
    await .hostReply
    let x ← pick
    let x := if ok x then x else 0
    keepWait fun w => { w with data := w.data.set 0 key (x + 1) }
    pure x

/-- Reports a status that is not OK: in the status register, else by trap 0x0D (R342, R358). -/
def reportStatus (st : BitVec 5) (x h : Nat) : M Unit :=
  if st = 0 then (if x = 0 then pure () else trap 0x0D (engineValue x h)) else writeStatus st x

/-- Bytes count in the counter that N names. -/
def countBytes (n : Option (BitVec 5)) (bytes tm : Nat) : M Unit :=
  match n with
  | none => pure ()
  | some c => modS fun s => s.countChunk (coreOf s.cur) (s.bankNo s.cur) c.toNat bytes tm 0

/-- What a counter takes of a command that fails: ERR LINKDOWN or CANCELLED; TARGETSIZE and NOTARGET leave it as it is (R154, R358). -/
def stashError (n : Option (BitVec 5)) (status : Nat) : M Unit :=
  match n with
  | none => pure ()
  | some c => if status = 2 ∨ status = 3 then modS fun s => s.failCtr (coreOf s.cur) (s.bankNo s.cur) c.toNat status 0 else pure ()

/-- The status of a command that fails: its shadow is discarded; where it takes a trap, what it has done to a counter stays (R358). -/
def stashFail (o : StashArgs) (h status : Nat) : M Unit := do
  modS fun s => s.dropOps s.cur
  stashError o.n status
  keepDone (reportStatus o.st status h)

/-! ## STASH (R356) -/

/-- The steps of a STASH: the tensor is read at its stamp, block by block. -/
def stashEncode (h T : Nat) (g : Grade) (n0 : Nat) : M Unit := do
  let t ← entry h
  let me ← myself
  loopM ((List.range (stashSteps t)).filter fun (k : Nat) => decide (me.sp.progidx.toNat ≤ k)) fun k => do
    setProg k
    engineStep (n0 + k) (longTrap (setProg 0) do
      let us := (stepBlocks t k).flatMap fun b => (List.range 64).filterMap fun i => blockElem t b i
      readUnits h t T (us.foldl min (us.headD 0)) (us.foldl max 0 + 1)
      let s ← getS
      keepShadow ((stepBlocks t k).flatMap fun b => encodeBlock s (s.jobOf s.cur) t T g b))
  setProg 0

/-- The lines of an image in host memory: offset and length. -/
def imageLines (size : Nat) : List (Nat × Nat) := (List.range ((size + 255) / 256)).map fun i => (256 * i, min 256 (size - 256 * i))

/-- A link on the way to the host is down (R154, R358). -/
def hostDown : M Bool := do
  let s ← getS
  pure (!s.routed (atCore s.cur) hostBase)

/-- Writes the image over the host link, line by line in order, from line `i` on (R356). The answer says that a link failed. -/
def stashHost (base size n0 : Nat) : List Nat → M Bool
  | [] => pure false
  | i :: l => do
    let w ← myWait
    if n0 + i < w.n then stashHost base size n0 l
    else do
      let down ← hostDown
      if down then pure true
      else do
        match (imageLines size)[i]? with
        | none => pure ()
        | some (o, n) => do
          behalfStore (base + o) n (packNat 8 ((List.range n).map fun b => w.data.get 0 (shadowBase + o + b) - 1))
          keepWait fun w => { w with n := n0 + i + 1 }
        stashHost base size n0 l

/-- The registers H and L, the checks, and the target of a STASH or RESTORE (R354, R355): the handle, L and the target. -/
def stashBegin (o : StashArgs) : M (Nat × Word × Target_) := do
  tensorSlot
  stashAllowed o.tgt
  let hx ← readSR 0 o.h
  let l ← readG o.l
  let h := handleIn hx
  unstamped (do
    let t ← (do stashChecks o h l; entry h)
    checkProg (stashSteps t))
  let d ← keptTarget o l
  pure (h, l, d)

/-- Why a STASH of `size` bytes ends before it moves any: too little room at a host, or a peer's refusal (R358). -/
def stashEarly (o : StashArgs) (d : Target_) (size : Nat) : M Nat :=
  match o.tgt with
  | .image => pure 0
  | .host => pure (if d.len < size then 0x13 else 0)
  | .peer => peerStatus 234 fun x => decide (x = 0x13) || decide (x = 0x14)

/-- A STASH into an image handle: read at its stamp, published once (R356). -/
def stashImage (o : StashArgs) (h q T size : Nat) : M Unit := do
  let Ti ← stampHandle 1 q h (2 ^ capStash) .writer Tensor.allExt
  opTurn h T
  opTurn q Ti
  stashEncode h T o.grade 0
  retireOp h T
  let tm ← publishMine q Ti
  countBytes o.n size tm
  writeStatus o.st 0

/-- The end of a STASH to a host or a peer. -/
def stashEnd (o : StashArgs) (h T size : Nat) : M Unit := do
  retireOp h T
  let me ← myself
  countBytes o.n size me.pts
  writeStatus o.st 0

/-- A STASH to host memory, line by line (R356). -/
def stashToHost (o : StashArgs) (h T size : Nat) (d : Target_) : M Unit := do
  opTurn h T
  stashEncode h T o.grade 0
  let t ← entry h
  let down ← stashHost d.base size (stashSteps t) (List.range (imageLines size).length)
  if down then stashFail o h 2 else stashEnd o h T size

/-- A STASH to a peer module; a link that fails ends it as LINKDOWN (R356, R358). -/
def stashToPeer (o : StashArgs) (h T size : Nat) : M Unit := do
  opTurn h T
  stashEncode h T o.grade 0
  let late ← peerStatus 235 fun x => decide (x = 2)
  if late ≠ 0 then stashFail o h late else stashEnd o h T size

/-- STASH (R354-R356, R358). That of a cancelled unit is refused as CANCELLED (R172). -/
def execStash (o : StashArgs) (s : State) : Out :=
  run (.stash o) (do
    let (h, l, d) ← stashBegin o
    let me ← myself
    if me.refusing then stashFail o h 3
    else do
    match o.tgt with
    | .image => unstamped (do
        let q ← entry (handleIn l)
        checkPool h (q.newSegs .writer (2 ^ capStash) q.allExt).length)
    | _ => pure ()
    let T ← stampHandle 0 h h (2 ^ capStash) .reader Tensor.allExt
    let t ← entry h
    let size := imageSize o.grade t
    let early ← stashEarly o d size
    if early ≠ 0 then stashFail o h early
    else match o.tgt with
      | .image => stashImage o h (handleIn l) T size
      | .host => stashToHost o h T size d
      | .peer => stashToPeer o h T size) s

/-! ## RESTORE (R357) -/

/-- The steps of a RESTORE from the bytes that `byte` gives in a state. -/
def restoreDecode (h : Nat) (g : Grade) (n0 : Nat) (check : Nat → M Unit) (byte : State → Nat → Nat) : M Unit := do
  let t ← entry h
  let me ← myself
  loopM ((List.range (stashSteps t)).filter fun (k : Nat) => decide (me.sp.progidx.toNat ≤ k)) fun k => do
    setProg k
    engineStep (n0 + k) (longTrap (setProg 0) do
      check k
      let s ← getS
      keepShadow ((stepBlocks t k).flatMap fun b => decodeBlock t g (byte s) b))
  setProg 0

/-- Reads an image over the host link, line by line, and keeps it. The answer says that a link failed. -/
def restoreHost (base size : Nat) : List Nat → M Bool
  | [] => pure false
  | i :: l => do
    let w ← myWait
    if i < w.n then restoreHost base size l
    else do
      let down ← hostDown
      if down then pure true
      else do
        match (imageLines size)[i]? with
        | none => pure ()
        | some (o, n) => do
          let x ← behalfLoad (base + o) n
          keepWait fun w => { w with n := i + 1, data := w.data.set 0 (2 ^ 30 + i) x }
        restoreHost base size l

/-- Why a RESTORE of `size` bytes ends before it moves any: a length at a host that differs, or a peer's refusal (R358). -/
def restoreEarly (o : StashArgs) (d : Target_) (size : Nat) : M Nat :=
  match o.tgt with
  | .image => pure 0
  | .host => pure (if d.len = size then 0 else 0x13)
  | .peer => peerStatus 234 fun x => decide (x = 0x13) || decide (x = 0x14)

/-- The end of a RESTORE: one publish, the counter, the status. -/
def restoreEnd (o : StashArgs) (h T : Nat) : M Unit := do
  let t ← entry h
  let tm ← publishMine h T
  countBytes o.n t.bytes tm
  writeStatus o.st 0

/-- A RESTORE from an image handle, read at its stamp (R357). -/
def restoreImage (o : StashArgs) (h q : Nat) : M Unit := do
  unstamped (do
    let t ← entry h
    checkPool h (t.newSegs .writer (2 ^ capStash) t.allExt).length)
  let Ti ← stampHandle 0 q h (2 ^ capStash) .reader Tensor.allExt
  let T ← stampHandle 1 h h (2 ^ capStash) .writer Tensor.allExt
  opTurn q Ti
  opTurn h T
  restoreDecode h o.grade 0 (fun k => do
    let t ← entry h
    let q' ← entry q
    let bs := (stepBlocks t k).map (blockAt o.grade t)
    readStorage q q' Ti (q'.unitExt (bs.headD 0) (bs.getLastD 0 + blockBytes o.grade)) false)
    fun s b => s.codeAt (s.jobOf s.cur) (s.tensor (s.jobOf s.cur) (q / 65536)) Ti b
  retireOp q Ti
  restoreEnd o h T

/-- A RESTORE from host memory, line by line (R357). -/
def restoreFromHost (o : StashArgs) (h size : Nat) (d : Target_) : M Unit := do
  let T ← stampHandle 0 h h (2 ^ capStash) .writer Tensor.allExt
  opTurn h T
  let down ← restoreHost d.base size (List.range (imageLines size).length)
  if down then stashFail o h 2
  else do
    restoreDecode h o.grade (imageLines size).length (fun _ => pure ()) fun s b =>
      fieldN ((s.me.wait.map fun w => w.data.get 0 (2 ^ 30 + b / 256)).getD 0) (b % 256 * 8) 8
    restoreEnd o h T

/-- A RESTORE from a peer module: the bytes of its image are free values. -/
def restoreFromPeer (o : StashArgs) (h size : Nat) : M Unit := do
  let T ← stampHandle 0 h h (2 ^ capStash) .writer Tensor.allExt
  opTurn h T
  restoreDecode h o.grade 0 (fun _ => pure ()) fun s b => (Config.freeByte (s.frees + b)).toNat
  let late ← peerStatus 235 fun x => decide (x = 2)
  if late ≠ 0 then stashFail o h late
  else do
    modS fun s => { s with frees := s.frees + size }
    restoreEnd o h T

/-- RESTORE (R354, R355, R357, R358). That of a cancelled unit is refused as CANCELLED (R172). -/
def execRestore (o : StashArgs) (s : State) : Out :=
  run (.restore o) (do
    let (h, l, d) ← stashBegin o
    let t ← entry h
    let size := imageSize o.grade t
    let me ← myself
    let early ← (if me.refusing then pure 3 else restoreEarly o d size)
    if early ≠ 0 then stashFail o h early
    else match o.tgt with
      | .image => restoreImage o h (handleIn l)
      | .host => restoreFromHost o h size d
      | .peer => restoreFromPeer o h size) s

/-! ## A peer's request (R356, R357) -/

/-- PEER_STASH_REQUEST: a peer's stash (with the image's bytes by offset) or restore of an image handle. A stale handle
(NOTARGET) and a geometry or grade that differs (TARGETSIZE) change nothing; a writer publishes once, when its turn and its
shadow segments are there. -/
def execPeerStashRequest (job handle rows cols pages : Nat) (grade : Grade) (data : Option (List (Nat × Nat))) (s : State) : Out :=
  event Config.infieldDie (fun s =>
    match s.liveTensor job handle with
    | none => s
    | some t =>
      let i := handle / 65536
      let T := t.nextStamp 0
      let segs := t.newSegs .writer (2 ^ capStash) t.allExt
      if t.tag ≠ gradeTag grade ∨ t.caps.testBit capStash = false ∨ t.rows ≠ rows ∨ t.cols ≠ cols ∨ t.pages ≠ pages then s
      else match data with
        | none => if t.rerep.isSome then s else s.modTensor job i fun t => { t with hlast := T }
        | some d =>
          if t.rerep.isSome ∨ s.poolSegs job < s.shadowsUsed job + segs.length ∨ t.poison ≠ [] ∨ s.segsBad t segs ∨
              t.blocked { stamp := T, tid := 2 ^ 59, kind := .writer, exts := t.allExt, segs := segs, caps := 0, parked := false,
                          shadow := 0, home := none } then s
          else
            let s := s.modTensor job i fun t => t.queue T (2 ^ 59) .writer t.allExt (2 ^ capStash)
            let es := d.foldl (fun (m : SMap Nat) e => if e.1 < t.bytes then m.set 0 e.1 (e.2 % 256) else m) []
            let all := (List.range t.bytes).map fun b => (b, es.get 0 b)
            (s.publishAt job i T T all).1) s

end Sys2Proof.Machine
end

