-- ==== Sys2Proof/Machine/Work.lean ====
section
/-! DEFINITION. Levels of work: launches, graphs, phases and jobs, their counting, containment, cancelling and killing, launch
records and eligible cores (R158, R167-R172, R365-R368, R378-R380). -/
namespace Sys2Proof.Machine

/-! ## Ids (R378) -/

/-- The job of an id. -/
def idJob (id : Word) : Nat := fieldN id.toNat 60 4
/-- The phase of an id. -/
def idPhase (id : Word) : Nat := fieldN id.toNat 44 16
/-- The graph of an id. -/
def idGraph (id : Word) : Nat := fieldN id.toNat 28 16
/-- The level of an id: 0 launch, 1 graph, 2 phase, 3 job; 4 for none of them. -/
def idKind (id : Word) : Nat := match fieldN id.toNat 12 3 with | 1 => 0 | 2 => 1 | 3 => 2 | 4 => 3 | _ => 4

/-- The id of a launch. -/
def launchIdOf (j p g x : Nat) : Word := BitVec.ofNat 64 (j * 2 ^ 60 + p * 2 ^ 44 + g * 2 ^ 28 + 0x1000 + x)
/-- The id of a graph. -/
def graphIdOf (j p g : Nat) : Word := BitVec.ofNat 64 (j * 2 ^ 60 + p * 2 ^ 44 + g * 2 ^ 28 + 0x2000)
/-- The id of a phase. -/
def phaseIdOf (j p : Nat) : Word := BitVec.ofNat 64 (j * 2 ^ 60 + p * 2 ^ 44 + 0x3000)
/-- The id of a job. -/
def jobIdOf (j : Nat) : Word := BitVec.ofNat 64 (j * 2 ^ 60 + 0x4000)

/-- A launch belongs to the level of an id, which is of that kind. -/
def inLevel (kind : Nat) (id launch : Word) : Bool :=
  match kind with
  | 0 => decide (launch = id)
  | 1 => decide (launch.toNat / 2 ^ 28 = id.toNat / 2 ^ 28)
  | 2 => decide (launch.toNat / 2 ^ 44 = id.toNat / 2 ^ 44)
  | _ => decide (idJob launch = idJob id)

/-! ## Level fields -/

/-- A level that begins: its policy, retry count and record; `tries` counts the reruns it has had. -/
def newLvl (policy retry record tries : Nat) : Lvl :=
  { policy := policy, retry := retry, tries := tries, faults := 0, fcause := 0, ftid := 0, doneN := 0, failN := 0, cancN := 0,
    gone := 0, retried := false, tstart := none, record := record, pts := 0, status := none, written := false, acked := false }

namespace Lvl
/-- The children counted. -/
def counted (l : Lvl) : Nat := l.doneN + l.failN + l.cancN
/-- A fault is passed to the level (R170). -/
def fault (l : Lvl) (cause tid : Nat) : Lvl :=
  { l with faults := l.faults + 1, fcause := if l.fcause = 0 then cause else l.fcause,
           ftid := if l.fcause = 0 then tid else l.ftid }
/-- A child counted as failed. -/
def addFail (l : Lvl) : Lvl := { l with failN := l.failN + 1 }
/-- Children counted as cancelled. -/
def addCanc (l : Lvl) (n : Nat) : Lvl := { l with cancN := l.cancN + n }
/-- Children that have not begun: `f` of the `n` failed in their last run and wait to be run again, and count by it (R168). -/
def addGone (l : Lvl) (n f : Nat) : Lvl :=
  { l with failN := l.failN + min f n, cancN := l.cancN + (n - f), gone := l.gone + n }
/-- The children whose records are written: the first ones, as graphs and phases run in order (R168, R379). -/
def recorded (l : Lvl) : Nat := l.counted - l.gone
/-- A child counted as done; `again` says that it succeeded on a retry. -/
def addDone (l : Lvl) (again : Bool) : Lvl := { l with doneN := l.doneN + 1, retried := l.retried || again }
/-- Stops the level with a status; one it has stays. -/
def stopWith (l : Lvl) (st : Nat) : Lvl := { l with status := some (l.status.getD st) }
/-- The status in the record (R169). A level none of whose children failed is OK, be it that a child level ended RETRIED or IGNORED
(DESIGN CHOICE, notes/assumptions/66.md). -/
def final (l : Lvl) : Nat :=
  match l.status with
  | some st => st
  | none => if l.failN ≠ 0 then 1 else if l.retried then 2 else 0
/-- A child of the level has been placed. -/
def begun (l : Lvl) : Bool := l.tstart.isSome
/-- The first child is placed at a time. -/
def start (l : Lvl) (t : Nat) : Lvl := { l with tstart := some (l.tstart.getD t) }
/-- Raises the PTS of the level's record (R159). -/
def raise (l : Lvl) (n : Nat) : Lvl := { l with pts := max l.pts n }
end Lvl

/-- Changes the level of a job that an id names: a launch, the running graph or phase, or the job itself. -/
def Job.modLvl (x : Job) (kind : Nat) (id : Word) (f : Lvl → Lvl) : Job :=
  match kind with
  | 0 => { x with launches := x.launches.map fun l => if l.id = id then { l with lvl := f l.lvl } else l }
  | 1 => { x with graph := x.graph.map fun g => { g with lvl := f g.lvl } }
  | 2 => { x with phase := x.phase.map fun g => { g with lvl := f g.lvl } }
  | _ => { x with lvl := f x.lvl }

/-- The level of a job that an id names. -/
def Job.lvlOf (x : Job) (kind : Nat) (id : Word) : Option Lvl :=
  match kind with
  | 0 => (x.launches.find? fun l => decide (l.id = id)).map (·.lvl)
  | 1 => x.graph.map (·.lvl)
  | 2 => x.phase.map (·.lvl)
  | _ => some x.lvl

/-- The id of the running graph. -/
def Job.graphId (x : Job) (j : Nat) : Option Word :=
  match x.phase, x.graph with
  | some p, some g => some (graphIdOf j p.idx g.idx)
  | _, _ => none

/-- The launches of the running graph. -/
def Job.mine (x : Job) (j : Nat) : List Launch :=
  match x.graphId j with
  | none => []
  | some g => x.launches.filter fun l => inLevel 1 g l.id

/-! ## Stopping a level (R158, R168, R170, R172) -/

/-- The units of a launch. -/
def Launch.total (l : Launch) : Nat := l.list.length

/-- A stopped launch: its units not placed again count by their last run, those saved count as cancelled (R168). -/
def Launch.drop (l : Launch) (saved : Nat → Bool) : Launch :=
  let gone (u : UnitRec) : Bool := decide (u.st = 0) || (decide (u.st = 1) && saved u.idx)
  let f := (l.list.filter fun u => gone u && decide (u.st = 0) && decide (u.tries ≠ 0)).length
  let c := (l.list.filter gone).length - f
  { l with list := l.list.map fun u => if gone u then { u with st := 2 } else u,
           lvl := { l.lvl with failN := l.lvl.failN + f, cancN := l.lvl.cancN + c } }

/-- A launch of a stopped graph: one that has begun is cancelled, one that has not is dropped without a record. -/
def Job.stopLaunch (x : Job) (st : Nat) (l : Launch) : Launch :=
  let saved (i : Nat) : Bool := x.saved.any fun v => decide (v.launch = l.id) && decide (v.unit = i)
  { (l.drop saved) with lvl := (l.drop saved).lvl.stopWith st, st := if l.st = 3 then 2 else l.st }

/-- The running graph stops with a status. -/
def Job.stopGraph (x : Job) (j st : Nat) : Job :=
  let mine := x.mine j
  let drop (l : Launch) : Bool := mine.any (fun m => decide (m.id = l.id)) && !l.lvl.written && !l.lvl.begun &&
    decide (l.lvl.status ≠ some 6)
  let n := (x.launches.filter drop).length
  let f := (x.launches.filter fun l => drop l && decide (l.lvl.tries ≠ 0)).length
  { x with
    launches := x.launches.map fun l =>
      if drop l then { l with st := 4, lvl := { l.lvl.stopWith 5 with written := true, acked := false } }
      else if mine.any (fun m => decide (m.id = l.id)) ∧ l.lvl.written = false then x.stopLaunch 5 l else l
    graph := x.graph.map fun g => { g with lvl := (g.lvl.stopWith st).addGone n f } }

/-- A graph or a phase has begun, or has been killed by itself: it gets a record of its own (R168, R170). -/
def Lvl.live (l : Lvl) : Bool := l.begun || decide (l.status = some 3) || decide (l.status = some 4)

/-- The running phase stops with a status: its graphs that have not begun count as cancelled, or by their last run. -/
def Job.stopPhase (x : Job) (j st : Nat) : Job :=
  let x := x.stopGraph j 5
  let live : Bool := (x.graph.map fun g => g.lvl.live).getD false
  let again (p : Grp) : Bool := decide (p.again ≠ 0) || (x.graph.map fun g => !live && decide (g.lvl.tries ≠ 0)).getD false
  { x with
    graph := if live then x.graph else none
    phase := x.phase.map fun p =>
      { p with lvl := (p.lvl.stopWith st).addGone (p.n - p.lvl.counted - (if live then 1 else 0)) (if again p then 1 else 0) } }

/-- The job stops with a status. -/
def Job.stopJob (x : Job) (j st : Nat) : Job :=
  let x := x.stopPhase j 5
  let live : Bool := (x.phase.map fun p => p.lvl.live || x.graph.isSome).getD false
  let again : Bool := decide (x.again ≠ 0) || (x.phase.map fun p => !live && decide (p.lvl.tries ≠ 0)).getD false
  { x with
    phase := if live then x.phase else none
    lvl := (x.lvl.stopWith st).addGone (x.nPhases - x.lvl.counted - (if live then 1 else 0)) (if again then 1 else 0) }

/-- A level of a job stops with a status: what the job's tables say afterwards. -/
def Job.stop (x : Job) (j kind : Nat) (id : Word) (st : Nat) : Job :=
  match kind with
  | 0 => { x with launches := x.launches.map fun l => if l.id = id ∧ l.lvl.status = none then x.stopLaunch st l else l }
  | 1 => x.stopGraph j st
  | 2 => x.stopPhase j st
  | _ => x.stopJob j st

/-- A unit of a level is in a slot of a core. -/
def State.runsOn (s : State) (j kind : Nat) (id : Word) (c : Nat) : Bool :=
  s.slots.any fun (e : Nat × Slot) => decide (coreOf e.1 = c) && decide (slotNo e.1 ≠ 0) && !isFar e.1 && inLevel kind id e.2.sp.launchid &&
    decide (s.jobOf e.1 = j) && decide (e.2.st ≠ .free) && decide (e.2.st ≠ .ended)

/-- The threads, batons and copies of a level are cancelled (R158, R172), and a starter of one of its cores that is parked on REAP
wakes (R364); `n` is the level in XVALUE of trap 0x13. -/
def State.cancelUnits (s : State) (j kind : Nat) (id : Word) : State :=
  let hit (b : Baton) : Baton := if b.job = j ∧ inLevel kind id b.launchid ∧ b.cancel = none then { b with cancel := some kind } else b
  let s : State := { s with
    slots := s.slots.map fun (e : Nat × Slot) =>
      (e.1, if inLevel kind id e.2.sp.launchid ∧ s.jobOf e.1 = j ∧ (isFar e.1 ∨ slotNo e.1 ≠ 0) ∧ e.2.st ≠ .free ∧ e.2.st ≠ .ended ∧
                e.2.cancel = none then
              { e.2 with cancel := some kind, handTurns := 0 }
            else if slotNo e.1 = 0 ∧ e.2.wait.any (fun w => decide (w.kind = .reap)) ∧ s.runsOn j kind id (coreOf e.1) then
              { e.2 with cancel := some kind }
            else e.2)
    batons := s.batons.map hit
    cores := s.cores.map fun (e : Nat × Core) => (e.1, { e.2 with arrivals := e.2.arrivals.map hit, landed := e.2.landed.map hit }) }
  let s := (s.copies.filter fun k => decide (k.job = j) && !k.over && inLevel kind id k.launch).foldl (fun s k =>
    if k.complete then s.finishCopy k else s.stopCopy k 3) s
  let s := (s.colls.filter fun c => decide (c.job = j) && inLevel kind id c.launch).foldl (fun s c => s.failColl c 3) s
  { s with rounds := s.rounds.map fun r =>
      { r with staged := r.staged.filter (fun c => !inLevel kind id c.level), held := r.held.filter (fun c => !inLevel kind id c.level) } }

/-- A PARKED accumulator slot of one of some saved threads. -/
def heldBySaved (j : Nat) (l : List Saved) (a : Acc) : Bool :=
  decide (a.job = j) && decide (a.st = .parked) &&
  l.any fun v => decide (v.launch = a.launchid) && decide (a.unitid.toNat % 2 ^ 32 = v.unit)

/-- The thread id that the operations of a saved thread carry: `k` is the number of its record. -/
def savedTid (k : Nat) : Nat := 2 ^ 61 + k

/-- What saved threads of a level hold is given up: their accumulator slots become FREE, and their queued operations are discarded
with their shadows (R158, R387, R391). -/
def State.freeSaved (s : State) (j kind : Nat) (id : Word) : State :=
  match s.job j with
  | none => s
  | some x =>
    let gone := x.saved.filter fun v => inLevel kind id v.launch
    let s : State := { s with clusters := s.clusters.map fun (e : Nat × Cluster) =>
      (e.1, { e.2 with acc := e.2.acc.mapV Acc.dflt fun _ a => if heldBySaved j gone a then freeAcc a else a }) }
    let s := gone.foldl (fun s v => s.dropOps (savedTid v.k)) s
    s.modJob j fun x => { x with saved := x.saved.filter (fun v => !inLevel kind id v.launch),
                                 stopping := x.stopping.filter fun t => !inLevel kind id (s.slot t).sp.launchid }

/-- A level is cancelled under R158 with a status: KILLED, PARENTKILL, CANCELLED. A kill is entered in the black box of the
infield die (R409). -/
def State.stopLevel (s : State) (j kind : Nat) (id : Word) (st : Nat) : State :=
  let s := if st = 5 then s else s.log Config.infieldDie 6 (idJob id) id.toNat
  let s := s.modJob j fun x => x.stop j kind id st
  (s.freeSaved j kind id).cancelUnits j kind id

/-! ## Containment (R170, R171) -/

/-- The id of a level's parent. -/
def parentId (kind : Nat) (id : Word) : Word :=
  match kind with
  | 0 => graphIdOf (idJob id) (idPhase id) (idGraph id)
  | 1 => phaseIdOf (idJob id) (idPhase id)
  | _ => jobIdOf (idJob id)

/-- A failed child is passed to a level: counted, retried, or the level is killed (R170). `again` reruns the child. -/
def State.childFailed (s : State) (j kind : Nat) (id : Word) (cause tid tries : Nat) (again : State → State) : State :=
  match (s.job j).bind fun x => x.lvlOf kind id with
  | none => s
  | some p =>
    let q := p.fault cause tid
    let s := s.modJob j fun x => x.modLvl kind id fun _ => q
    let count (s : State) : State := s.modJob j fun x => x.modLvl kind id Lvl.addFail
    if p.status.isSome then count s
    else match p.policy with
      | 0 => count s
      | 1 => if tries < p.retry then again s else (count s).stopLevel j kind id 3
      | 2 => (count s).stopLevel j kind id 3
      | _ =>
        let s := (count s).stopLevel j kind id 3
        if 3 ≤ kind then s
        else
          let up := parentId kind id
          (s.modJob j fun x => x.modLvl (kind + 1) up fun l => l.fault q.fcause q.ftid).stopLevel j (kind + 1) up 4

/-- Changes a unit of a launch. -/
def Job.modUnit (x : Job) (id : Word) (i : Nat) (f : UnitRec → UnitRec) : Job :=
  { x with launches := x.launches.map fun l =>
      if l.id = id then { l with list := l.list.map fun u => if u.idx = i then f u else u } else l }

/-- A unit to be placed again, with one more try (R171). -/
def State.rerunUnit (id : Word) (j i : Nat) (s : State) : State :=
  s.modJob j fun x => x.modUnit id i fun u => { u with st := 0, tries := u.tries + 1 }

/-- A unit's retirement is counted by its launch (R166, R168, R170); `pts` is the highest of its final PTS and the stamps of its
copies and publishes (R159). -/
def State.countUnit (s : State) (j : Nat) (launch : Word) (i : Nat) (e : EndRec) (pts : Nat) : State :=
  match (s.job j).bind fun x => x.launches.find? fun l => decide (l.id = launch) with
  | none => s
  | some l =>
    match l.list.find? fun u => decide (u.idx = i) && decide (u.st = 1) with
    | none => s
    | some u =>
      let s := s.modJob j fun x => (x.modUnit launch i fun u => { u with st := 2 }).modLvl 0 launch fun l => l.raise pts
      match e.code with
      | 0 => s.modJob j fun x => x.modLvl 0 launch fun l => l.addDone (decide (u.tries ≠ 0))
      | 2 => s.modJob j fun x => x.modLvl 0 launch fun l => l.addCanc 1
      | _ => s.childFailed j 0 launch e.cause e.tid u.tries (State.rerunUnit launch j i)

/-- What a slot that has ended reports (R364): it becomes FREE, and its launch counts the unit. -/
def State.reapSlot (s : State) (t : Nat) : State :=
  let x := s.slot t
  let j := s.jobOf t
  let e := x.fin.getD { code := 0, cause := 0, xpc := 0, tid := t }
  (s.setSlot t Slot.dflt).countUnit j x.sp.launchid (x.sp.unitid.toNat % 2 ^ 32) e (max x.pts x.copyPts)

/-! ## Launch records (R365) -/

/-- The words of a launch record. -/
def recWord (x k : Nat) : Nat := fieldN x (64 * k) 64

/-- The record keeps the layout and the limits of R365. -/
def launchRecOk (x : Nat) : Bool :=
  let w0 := recWord x 0
  let w1 := recWord x 1
  let w2 := recWord x 2
  decide (fieldN w0 56 8 = 0) && decide (w0 % 8 = 0) && decide (fieldN w1 24 8 = 0) && decide (fieldN w1 0 2 = 0) &&
  decide (fieldN w1 16 8 ≠ 0) && decide (fieldN w1 12 4 + fieldN w1 5 4 + 1 ≤ 16) &&
  decide (fieldN w1 9 3 + fieldN w1 2 3 + 1 ≤ 8) && decide (fieldN w2 16 48 = 0) && decide (fieldN w2 4 3 = 0) &&
  (decide (fieldN w2 0 4 ≠ 0) || w2.testBit 7) && decide (recWord x 4 ≠ 0) && decide (recWord x 4 % 64 = 0)

/-- The launch of a record: its id and try, the PTS its units start with, whether a unit added it, what it waits for. -/
def launchOf (x : Nat) (id : Word) (tries minPts : Nat) (added : Bool) (deps : List Word) : Launch :=
  let w1 := recWord x 1
  let w2 := recWord x 2
  { id := id, entry := fieldN x 0 56, dies := fieldN w1 16 8, excl := fieldN w1 32 32, x0 := fieldN w1 12 4, y0 := fieldN w1 9 3,
    w := fieldN w1 5 4 + 1, h := fieldN w1 2 3 + 1, prio := fieldN w2 8 2, far := w2.testBit 7, units := fieldN w2 0 4,
    args := BitVec.ofNat 64 (recWord x 3), after := BitVec.ofNat 64 (recWord x 5), handler := BitVec.ofNat 64 (recWord x 6),
    seedBase := BitVec.ofNat 64 (recWord x 7), lvl := newLvl (fieldN w2 10 2) (fieldN w2 12 4) (recWord x 4) tries, deps := deps,
    st := if deps = [] then 1 else 0, placed := 0, list := [], minPts := minPts, added := added }

/-- The eligible cores of a launch, by ascending die and core (R366). -/
def State.eligible (s : State) (j : Nat) (l : Launch) : List Nat :=
  (List.range 1024).filter fun c =>
    l.dies.testBit (c / 128) && decide (l.x0 ≤ c % 16) && decide (c % 16 < l.x0 + l.w) && decide (l.y0 ≤ c % 128 / 16) &&
    decide (c % 128 / 16 < l.y0 + l.h) && !l.excl.testBit (clusterOf c % 32) && !s.notOwned c j

/-! ## Tables of the graph engine (R377) -/

/-- `n` × 16 bytes of a table, read by the graph engine for job `j`: the state, the highest timestamp, the bytes. Every table is
16-byte aligned, so that each 16 bytes lie in one page. -/
def State.tableRead (s : State) (j va pts : Nat) : Nat → Option (State × Nat × Nat)
  | 0 => some (s, pts, 0)
  | n + 1 =>
    match s.tableRead j va pts n with
    | none => none
    | some (s, t, x) =>
      match s.agentLoad Config.infieldDie j (va + 16 * n) 16 t false with
      | .error _ => none
      | .ok (s', t', y) => some (s', t', x + y * 2 ^ (128 * n))

/-- An entry of a phase table or of a graph table: record, table of the children, policy, retry, number of children. -/
structure TabEnt where
  record : Nat
  tab    : Nat
  policy : Nat
  retry  : Nat
  n      : Nat

/-- The entry in its 32 bytes, where it keeps the layout and the limits of R377; `lim` is the limit of its count. -/
def tabEnt (x lim : Nat) : Option TabEnt :=
  let rec_ := recWord x 0
  let tab := recWord x 1
  let w := recWord x 2
  if fieldN w 22 42 ≠ 0 ∨ recWord x 3 ≠ 0 ∨ fieldN w 0 16 = 0 ∨ lim < fieldN w 0 16 ∨ tab % 16 ≠ 0 ∨ rec_ % 64 ≠ 0 then none
  else some { record := rec_, tab := tab, policy := fieldN w 16 2, retry := fieldN w 18 4, n := fieldN w 0 16 }

/-- Entry `i` of a table. -/
def State.tabEntry (s : State) (j tab i lim pts : Nat) : Option (State × Nat × TabEnt) :=
  match s.tableRead j (tab + 32 * i) pts 2 with
  | none => none
  | some (s, t, x) => (tabEnt x lim).map fun e => (s, t, e)

/-- A level that the job's tables name and that has not yet started, by the indexes of its phase, graph and launch. -/
def State.named (s : State) (x : Job) (j kind p g l : Nat) : Bool :=
  let later : Bool := match x.phase with
    | none => decide (x.lvl.counted ≤ p)
    | some ph => decide (ph.idx < p) || (decide (p = ph.idx) && ph.lvl.status.isNone && decide (kind < 2) &&
        (match x.graph with | none => decide (ph.lvl.counted ≤ g) | some gr => decide (gr.idx < g)))
  x.lvl.status.isNone && later && decide (p < x.nPhases) &&
  (match s.tabEntry j x.phaseTab p 65535 0 with
   | none => false
   | some (_, _, e) => decide (kind = 2) || (decide (g < e.n) &&
      (match s.tabEntry j e.tab g 4096 0 with
       | none => false
       | some (_, _, q) => decide (kind = 1) || decide (l < q.n))))

/-! ## The graph engine's requests (R367, R368) -/

/-- LAUNCH is decided: the new state and the id, 0 where it is refused (R367). -/
def State.submit (s : State) (t : Nat) (x : Nat) : State × Word :=
  let j := s.jobOf t
  match s.job j with
  | none => (s, 0)
  | some b =>
    match b.phase, b.graph with
    | some p, some g =>
      let mine := b.mine j
      let after := BitVec.ofNat 64 (recWord x 5)
      let pred := mine.find? fun l => decide (l.id = after)
      if ¬ inLevel 1 (graphIdOf j p.idx g.idx) (s.slot t).sp.launchid ∨ g.lvl.status.isSome ∨ g.lvl.written ∨ 4096 ≤ mine.length ∨
          4096 ≤ b.nextX ∨ (after ≠ 0 ∧ pred.isNone) then (s, 0)
      else
        let id := launchIdOf j p.idx g.idx b.nextX
        let deps := match pred with | some l => if after ≠ 0 ∧ l.lvl.written = false then [after] else [] | none => []
        let pts := match pred with | some l => max (s.slot t).pts l.lvl.pts | none => (s.slot t).pts
        (s.setJob j (some { b with launches := b.launches ++ [launchOf x id 0 pts true deps], nextX := b.nextX + 1 }), id)
    | _, _ => (s, 0)

/-- The status of a CANCEL of a level of job `j` that its tables name (R368), before anything changes: 0 where it is accepted,
3 where the level has not yet started. A launch, graph or phase that was dropped with its parent before it began has no record: it is
being cancelled. A level that was cancelled itself has its record once that is acknowledged. -/
def State.cancelStatus (s : State) (x : Job) (j kind : Nat) (id : Word) : Nat :=
  let early (ok : Bool) : Nat :=
    if ok && s.named x j kind (idPhase id) (idGraph id) (id.toNat % 4096) then 3 else 2
  if idKind id ≠ kind ∨ idJob id ≠ j then 2
  else match kind with
    | 0 =>
      match x.launches.find? fun l => decide (l.id = id) with
      | none => early (decide (id = launchIdOf j (idPhase id) (idGraph id) (id.toNat % 4096)))
      | some l => if l.lvl.written && (l.lvl.begun || l.lvl.acked || decide (l.lvl.status ≠ some 5)) then 1 else 0
    | 1 =>
      if id ≠ graphIdOf j (idPhase id) (idGraph id) then 2
      else if x.graphId j = some id then 0
      else match x.phase.filter fun p => decide (p.idx = idPhase id) with
        | some p => if idGraph id < p.lvl.recorded then 1 else if p.lvl.status.isSome ∧ idGraph id < p.n then 0 else early true
        | none => if x.launches.any (fun l => inLevel 1 id l.id) then 1 else early true
    | 2 =>
      if id ≠ phaseIdOf j (idPhase id) then 2
      else if (x.phase.map (·.idx)) = some (idPhase id) then 0
      else if idPhase id < x.lvl.recorded then 1
      else if x.lvl.status.isSome ∧ idPhase id < x.nPhases then 0 else early true
    | _ => if id = jobIdOf j then 0 else 2

/-- CANCEL is decided by the graph engine (R368): the new state and the status. A level that has not started is cancelled when
it starts. -/
def State.cancelLevel (s : State) (j kind : Nat) (id : Word) : State × Nat :=
  match s.job j with
  | none => (s, 2)
  | some x =>
    match s.cancelStatus x j kind id with
    | 0 => if ((x.lvlOf kind id).bind (·.status)).isSome then (s, 0) else (s.stopLevel j kind id 5, 0)
    | 3 => (s.modJob j fun x => { x with early := if x.early.contains id then x.early else id :: x.early }, 0)
    | n => (s, n)

end Sys2Proof.Machine
end

