-- ==== Sys2Proof/Machine/System.lean ====
section
/-! DEFINITION. SPAWN, REAP, LAUNCH, CANCEL, SYSRD, SYSWR, XRET, SVC, KEEP and the special registers (R362-R374). -/
namespace Sys2Proof.Machine

/-! ## SPAWN and REAP (R363, R364) -/

/-- SPAWN and REAP are of the starter (R164, R362). -/
def starterOnly : M Unit := do
  let s ← getS
  ensure (!isFar s.cur && decide (slotNo s.cur = 0)) (illegalOp 8 56)

/-- A spawn record keeps its layout (R363). -/
def spawnOk (x : Nat) : Bool :=
  decide (fieldN x 56 8 = 0) && decide (fieldN x 320 6 = 0) && decide (fieldN x 331 53 = 0) && decide (fieldN x 384 128 = 0) &&
  decide (fieldN x 328 3 ≤ 4) && decide (fieldN x 0 3 = 0) && decide (fieldN x 192 3 = 0)

/-- The unit of a spawn record: every register it does not set at its reset value; HELD until the next lap boundary. -/
def spawned (x pts : Nat) (job : Option Nat) : Slot :=
  let w (k : Nat) : Word := BitVec.ofNat 64 (recWord x k)
  { Slot.dflt with
    st := .held
    pc := BitVec.ofNat 56 (recWord x 0)
    regs := (List.range 8).foldl (fun r i => r.writeG (i + 1) (w (8 + i))) Regs.zero
    sp := { Special.zero with unitid := w 1, launchid := w 2, xhandler := w 3, seed := w 4, xstat := w 5 }
    pts := pts
    job := job }

/-- SPAWN: the record is read at the core port, and the unit is placed; it runs from the next lap boundary (R163, R363). -/
def execSpawn (a b : Src) (s : State) : Out :=
  run (.spawn a b) (do
    starterOnly
    let (n, r) ← readAB a b
    aligned r.toNat 8
    checkLocal r.toNat 128 false
    let x ← loadLocal r.toNat 128
    let s ← getS
    let t := tidOf (coreOf s.cur) n.toNat
    ensure (decide (1 ≤ n.toNat) && decide (n.toNat < 16) && decide ((s.slot t).st = .free)) (illegalOp 7 40)
    ensure (spawnOk x) (illegalOp 7 31)
    modS fun s => s.setSlot t
      (spawned x s.me.pts (if isNear (coreOf s.cur) then some (idJob (BitVec.ofNat 64 (recWord x 2))) else none))) s

/-- The reap record of a slot (R364). -/
def reapRecord (x : Slot) : Nat :=
  let e := x.fin.getD { code := 0, cause := 0, xpc := 0, tid := 0 }
  packNat 64 [x.sp.unitid.toNat, x.sp.launchid.toNat, e.code + e.cause * 2 ^ 8 + e.tid * 2 ^ 16, e.xpc.toNat]

/-- REAP: the lowest ENDED slot, or the slot named (R364). -/
def execReap (d : SReg) (a b : Src) (s : State) : Out :=
  run (.reap d a b) (do
    starterOnly
    let (n, r) ← readAB a b
    ensure (decide (n.toNat < 16)) (illegalOp 7 40)
    aligned r.toNat 8
    checkLocal r.toNat 32 true
    let s ← getS
    let c := coreOf s.cur
    let st (k : Nat) : SlotSt := (s.slot (tidOf c k)).st
    ensure (decide (n.toNat = 0) || decide (st n.toNat ≠ .free)) (illegalOp 7 40)
    match (if n.toNat = 0 then ((List.range 15).map (· + 1)).find? fun k => decide (st k = .ended)
           else if st n.toNat = .ended then some n.toNat else none) with
    | none => park .reap
    | some k => do
      storeLocal r.toNat 32 (reapRecord (s.slot (tidOf c k)))
      modS fun s => s.reapSlot (tidOf c k)
      writeSR d (BitVec.ofNat 64 k)) s

/-! ## LAUNCH and CANCEL (R367, R368) -/

/-- Keys of the data that a parked LAUNCH keeps. -/
def launchKey : Nat := 230

/-- LAUNCH: the record is read once; the graph engine decides (R367). -/
def execLaunch (d : SReg) (a : Src) (s : State) : Out :=
  run (.launch d a) (do
    let r ← readSrc 1 a
    aligned r.toNat 64
    let w ← myWait
    let x ← (if w.data.get 0 launchKey ≠ 0 then pure (w.data.get 0 launchKey - 1) else do
      let x ← behalfLoad r.toNat 64
      keepWait fun w => { w with data := w.data.set 0 launchKey (x + 1) }
      pure x)
    ensure (launchRecOk x) (illegalOp 7 40)
    await .graph
    replyRoute
    let s ← getS
    let (s', id) := s.submit s.cur x
    modS fun _ => s'
    writeSR d id) s

/-- The number of a level. -/
def levelNo : Level → Nat
  | .launch => 0
  | .graph => 1
  | .phase => 2
  | .job => 3

/-- CANCEL: the graph engine decides (R368). -/
def execCancel (lvl : Level) (d : SReg) (a : Src) (s : State) : Out :=
  run (.cancel lvl d a) (do
    let id ← readSrc 1 a
    await .graph
    replyRoute
    let s ← getS
    let (s', st) := s.cancelLevel (s.jobOf s.cur) (levelNo lvl) id
    modS fun _ => s'
    writeSR d (BitVec.ofNat 64 st)) s

/-! ## Special registers (R369-R371) -/

/-- The core where a thread runs. -/
def runCore (t : Nat) : Nat := physOf t / 32

/-- A register that job code may not write (R369). -/
def readOnly : SpReg → Bool
  | .slotid | .unitid | .launchid | .dieid | .cycles | .time | .timeerr | .pts | .xferdone | .xfernext | .lnkstat | .lnkcorr _
  | .lnkmap | .lnkretr | .lnkthr | .featsel | .featcap | .actlvl | .govstat => true
  | _ => false

/-- HB and VW are of compute cores; a near-core slot and a far slot may not name them (R369). -/
def checkSp (r : SpReg) : M Unit := do
  let s ← getS
  match r with
  | .hb _ | .vw _ => ensure (isLocal s.cur) (illegalOp 8 0)
  | _ => pure ()

/-- A value of LNKSEL names a link (R402). -/
def linkOk (v : Word) : Bool :=
  let d := fieldN v.toNat 11 5
  let l := fieldN v.toNat 0 11
  decide (v.toNat < 2 ^ 17) &&
  (if v.getLsbD 16 then decide (Config.opticalDie0 ≤ d) && decide (d < Config.dieCount) && decide (l < 256)
   else if d < 8 then decide (l < 192)
   else if d = Config.infieldDie then decide (l < 1280)
   else decide (Config.opticalDie0 ≤ d) && decide (d < Config.dieCount) && decide (l < 64))

/-- The link that a value of LNKSEL names. -/
def State.link (s : State) (v : Nat) : Link := s.links.get Link.dflt v

/-- Ones among the low eight bits. -/
def ones8 (x : Nat) : Nat := ((List.range 8).filter fun i => x.testBit i).length

/-- LNKSTAT: 0 up, 1 retraining, 2 down, and the wavelengths out (R402, R420). -/
def Link.stat (l : Link) : Nat := (8 - ones8 l.active) % 4 * 4 + (if l.down then 2 else if l.active = 0xFF then 0 else 1)

/-- The governor's state (R406). -/
def Package.govstat (p : Package) : Nat :=
  p.budget % 2 ^ 16 * 2 ^ 48 + p.power % 2 ^ 16 * 2 ^ 32 + (if p.limit then 32 else 0) + (if p.near then 16 else 0) + p.mdiv

/-- FEATCAP: every feature is built (R399). -/
def featcap : Nat := 0x3F

/-- A KEEP register as job `j` reads it: zero where it is not its own (R90). -/
def State.keepOf (s : State) (d j n : Nat) : Word :=
  let k := (s.die d).keep.get Keep.dflt n
  if k.owner = some j then k.val else 0

/-- A link register of the link that LNKSEL names, as it stands when the reply is formed (R369, R402). -/
def linkReg (f : Link → Nat) : M Word := do
  let s ← getS
  let v := s.me.sp.lnksel.toNat
  if fieldN v 11 5 = runDie s.cur then pure () else do
    await .timeReply
    replyRoute
  let s ← getS
  pure (BitVec.ofNat 64 (f (s.link v)))

/-- What SYSRD reads (R369-R371). -/
def readSp (r : SpReg) : M Word := do
  let s ← getS
  let t := s.cur
  let x := s.me
  let nat (n : Nat) : M Word := pure (BitVec.ofNat 64 n)
  match r with
  | .slotid => nat (physOf t * 2 ^ 17 + t)
  | .unitid => pure x.sp.unitid
  | .launchid => pure x.sp.launchid
  | .dieid => nat (runDie t)
  | .cycles => nat (s.die (runDie t)).cycles
  | .time => do
    await .timeReply
    replyRoute
    let s ← getS
    pure (BitVec.ofNat 64 (s.die (runDie t)).time)
  | .timeerr => do
    await .timeReply
    replyRoute
    let s ← getS
    pure (BitVec.ofNat 64 ((s.die (runDie t)).timeErr % 2 ^ 32))
  | .pts => nat (x.pts % 2 ^ 48)
  | .xcause => pure x.sp.xcause
  | .xvalue => pure x.sp.xvalue
  | .xpc => pure x.sp.xpc
  | .xstat => pure x.sp.xstat
  | .xhandler => pure x.sp.xhandler
  | .progidx => pure x.sp.progidx
  | .seed => pure x.sp.seed
  | .rmode => nat (fieldN x.sp.xstat.toNat 8 3)
  | .xferdone => do
    let b := s.bank (runCore t) (s.bankNo t)
    mergePts b.xferStamp
    nat b.xferDone
  | .xfernext => nat (s.bank (runCore t) (s.bankNo t)).xferNext
  | .hb n => pure (s.hb (coreOf t) n.toNat).word
  | .vw n => pure ((s.core (coreOf t)).vw.get 0 n.toNat)
  | .stalls => nat (s.core (runCore t)).stalls
  | .parks => nat (s.core (runCore t)).parks
  | .migrs => nat (s.core (runCore t)).migrs
  | .lnksel => pure x.sp.lnksel
  | .lnkstat => linkReg Link.stat
  | .lnkcorr n => linkReg fun l => l.corr.get 0 n.toNat
  | .lnkmap => linkReg fun l => l.active
  | .lnkretr => linkReg fun l => l.retr
  | .lnkthr => linkReg fun l => l.thr
  | .featsel => nat s.pkg.featsel
  | .featcap => nat featcap
  | .keep n => pure (s.keepOf (runDie t) (s.jobOf t) n.toNat)
  | .leaselen => nat (s.lease (s.jobOf t))
  | .actlvl => nat s.pkg.actlvl
  | .govstat => nat s.pkg.govstat

/-- A SYSWR refuses its value (R369, R427). -/
def refuseValue {α : Type} : M α := illegalOp 7 40

/-- A SYSWR to XSTAT is refused (R371). -/
def xstatBad (old v : Word) : Bool :=
  decide (v.toNat / 2 ^ 32 ≠ 0) || decide (fieldN v.toNat 11 5 ≠ 0) || decide (fieldN v.toNat 3 3 ≠ 0) ||
  decide (4 < fieldN v.toNat 8 3) || decide ((v ^^^ old) &&& 0xFFFF0006 ≠ 0) || (v.getLsbD 0 && !old.getLsbD 0)

/-- A write of a KEEP register is refused (R90). -/
def keepBad (d : Die) (j n : Nat) (v : Word) : Bool :=
  let ways (w : Word) : Nat := fieldN w.toNat 52 4
  decide ((d.keep.get Keep.dflt n).owner ≠ some j) || decide (fieldN v.toNat 42 6 ≠ 0) || decide (fieldN v.toNat 0 8 ≠ 0) ||
  decide (8 < ways v) || decide (fieldN v.toNat 8 34 % 2 ^ fieldN v.toNat 48 4 ≠ 0) ||
  decide (12 < ways v + d.keep.foldl (fun m e => m + if e.1 = n then 0 else ways e.2.val) 0)

/-- A write of KEEPn of the slot's die (R90). -/
def writeKeep (n : Nat) (v : Word) : M Unit := do
  let s ← getS
  let d := runDie s.cur
  ensure (!keepBad (s.die d) (s.jobOf s.cur) n v) refuseValue
  modS fun s => s.modDie d fun x => x.setKeep n { x.keep.get Keep.dflt n with val := v }

/-- XPC is written, and the return mark is cleared (R372). -/
def State.writeXpc (s : State) (v : Word) : State :=
  s.modSlot s.cur fun x => { x with sp := { x.sp with xpc := v, rmark := false } }

/-- A legal value of XPC or XHANDLER (R370). -/
def codeAddress (v : Word) : Bool := decide (v.toNat < 2 ^ 56) && decide (v.toNat % 8 = 0)

/-- A write of a register of the slot, refused where a condition fails. -/
def writeSlot (ok : Bool) (f : Special → Special) : M Unit := do
  ensure ok refuseValue
  modSp f

/-- A count of 48 bits of the core where the slot runs: a value with a reserved bit is refused (R370). -/
def writeCount (v : Word) (f : Core → Core) : M Unit := do
  ensure (decide (v.toNat < 2 ^ 48)) refuseValue
  modS fun s => s.modCore (runCore s.cur) f

/-- What SYSWR writes (R369-R371); a read-only register is SUB 0x08 (R427). Bits 63:48 of STALLS are read-only, and a write of them is
ignored (R4, R80). -/
def writeSp (r : SpReg) (v : Word) : M Unit := do
  let x ← myself
  match r with
  | .xcause => writeSlot (decide (v.toNat < 256)) fun p => { p with xcause := v }
  | .xvalue => writeSlot true fun p => { p with xvalue := v }
  | .xpc => do
    ensure (codeAddress v) refuseValue
    modS fun s => s.writeXpc v
  | .xstat => writeSlot (!xstatBad x.sp.xstat v) fun p => { p with xstat := v }
  | .xhandler => writeSlot (codeAddress v) fun p => { p with xhandler := v }
  | .progidx => writeSlot (decide (v.toNat < 2 ^ 32)) fun p => { p with progidx := v }
  | .seed => writeSlot true fun p => { p with seed := v }
  | .rmode => writeSlot (decide (v.toNat ≤ 4)) fun p => { p with xstat := (p.xstat &&& ~~~(0x700 : Word)) ||| (v <<< 8) }
  | .hb n => writeHb n.toNat v
  | .vw n => writeView n.toNat v
  | .stalls => modS fun s => s.modCore (runCore s.cur) fun c => { c with stalls := v.toNat % 2 ^ 48 }
  | .parks => writeCount v fun c => { c with parks := v.toNat }
  | .migrs => writeCount v fun c => { c with migrs := v.toNat }
  | .lnksel => writeSlot (linkOk v) fun p => { p with lnksel := v }
  | .keep n => writeKeep n.toNat v
  | .actlvl => do
    ensure (decide (16 ≤ v.toNat) && decide (v.toNat ≤ 128)) refuseValue
    modS fun s => { s with pkg := { s.pkg with actlvl := v.toNat } }
  | .leaselen => do
    ensure (decide (1 ≤ v.toNat) && decide (v.toNat < 2 ^ 16)) refuseValue
    modS fun s => s.modJob (s.jobOf s.cur) fun j => { j with leaseLen := v.toNat }
  | _ => illegalOp 8 0

/-- SYSRD (R369). -/
def execSysrd (d : SReg) (r : SpReg) (s : State) : Out :=
  run (.sysrd d r) (do
    checkSp r
    let v ← readSp r
    writeSR d v) s

/-- SYSWR (R369). -/
def execSyswr (r : SpReg) (a : Src) (s : State) : Out :=
  run (.syswr r a) (do
    checkSp r
    let s ← getS
    ensure (!readOnly r || (decide (r = .actlvl) && isService s.cur)) (illegalOp 8 0)
    let v ← readSrc 1 a
    writeSp r v) s

/-- KEEP: SYSWR to KEEPn, from slots 1-15 of compute cores (R362, R374). -/
def execKeep (n : BitVec 3) (a : Src) (s : State) : Out :=
  run (.keep n a) (do
    let s ← getS
    ensure (isLocal s.cur && decide (slotNo s.cur ≠ 0)) (illegalOp 8 56)
    let v ← readSrc 1 a
    writeKeep n.toNat v) s

/-! ## XRET (R372) -/

/-- The bits of A that XRET.st refuses. -/
def xretBad (v : Word) : Bool :=
  decide (v.toNat / 2 ^ 32 ≠ 0) || decide (fieldN v.toNat 11 5 ≠ 0) || decide (fieldN v.toNat 3 3 ≠ 0) || decide (4 < fieldN v.toNat 8 3)

/-- The status that XRET restores: A's bits 10:6 where there is an A. -/
def xretStat (old : Word) : Option Word → Word
  | none => old
  | some v => (old &&& ~~~(0x7C0 : Word)) ||| (v &&& 0x7C0)

/-- XRET: bad returns trap 0x0E; after cause 0x13 it acts as DONE; a written XPC must be the address of a header (R372). -/
def execXret (a : Option Src) (s : State) : Out :=
  run (.xret a) (do
    let v ← (match a with
      | none => pure none
      | some r => do
        let v ← readSrc 1 r
        pure (some v))
    let x ← myself
    ensure (x.sp.xstat.getLsbD 0) (trap 0x0E 1)
    (match v with
      | none => pure ()
      | some v => ensure (!xretBad v) (trap 0x0E 2))
    if x.sp.xcause = 0x13 then doneOp
    else do
      if x.sp.rmark then pure () else checkTarget x.sp.xpc.toNat
      modS fun s => s.trapReturn s.cur (xretStat x.sp.xstat v)
      modMe fun x => { x with latch := [], wait := none, st := .running }
      leave) s

/-! ## SVC (R373) -/

/-- The alias of a live PLAIN tensor meets a range (R68). -/
def Job.aliasMeets (x : Job) (va n : Nat) : Bool :=
  x.tensors.any fun (e : Nat × Tensor) => e.2.plain && decide (e.2.st ≠ 0) && decide (e.2.aliasAt < va + n) &&
    decide (va < e.2.aliasAt + (e.2.bytes + 4095) / 4096 * 4096)

/-- The page of a job that holds an address changes under a shootdown (R42, R43): it is unmapped (`how` even), or its rights become W = bit 1
and X = bit 2 of `how`. A page of 64 KiB is unmapped by clearing the sixteen entries of its group, so that every address in it is then not
present (DESIGN CHOICE, unsafe: R43 does not say which of them; notes/assumptions/95.md). -/
def State.changeEntry (s : State) (j va how : Nat) : State :=
  match s.job j, s.entryOf j va, s.walkOf j va with
  | some x, some (a, _), .ok l =>
    if x.shoot.isSome || x.aliasMeets l.va l.size then s
    else
      let e := readN s.mem a 8
      let ents := if how % 2 = 0 then (entriesOf a l.size).map fun p => (p, 0) else [(a, e - fieldN e 3 2 * 8 + fieldN how 1 2 * 8)]
      s.changeMap j { va := l.va, size := l.size, ents := ents, move := [], lose := none, dies := [] }
  | _, _, _ => s

/-- A job gets a page on a fresh frame (R42): W = bit 0 and X = bit 1 of `how`, CACHED, MIGRATE with a home, or QUEUE. -/
def State.givePage (s : State) (j va how : Nat) : State :=
  let va := va / 4096 * 4096
  match s.job j with
  | none => s
  | some x =>
    match (if va < windowBase then s.mapPage State.takeFrame x.root va (how.testBit 0) (how.testBit 1) else none) with
    | none => s
    | some (t, _) =>
      match t.entryOf j va with
      | some (a, 3) =>
        let cls := fieldN how 2 2 % 3
        { t with mem := writeN t.mem a 8 (readN t.mem a 8 + cls * 32 + (if cls = 1 then fieldN how 4 2 * 2 ^ 48 else 0)) }
      | _ => t

/-- The runtime writes a group descriptor into job memory (R338, R373): at `a`, the rank, the members of each stage (16 bits each:
PKG, MODS, CAMP), and MFMT, CFMT and PEERS (4, 4 and 56 bits); its store has the timestamp that is answered. -/
def State.giveGroup (s : State) (j a rank dims fp : Nat) : State × Nat :=
  let p := fieldN dims 0 16
  let m := fieldN dims 16 16
  let c := fieldN dims 32 16
  let ok := decide (1 ≤ p) && decide (1 ≤ m) && decide (1 ≤ c) && decide (rank < p * m * c) && decide (a % 64 = 0) && decide (a < windowBase) &&
    [1, 2, 8].contains (fieldN fp 0 4) && [1, 2, 8, 9].contains (fieldN fp 4 4)
  match s.walkOf j a with
  | .error _ => (s, 0)
  | .ok l =>
    if ok ∧ l.w ∧ l.cls ≤ 1 then
      s.storeAt (l.phys a) 32 (rank * 2 ^ 32 + p * m * c % 2 ^ 32 + dims % 2 ^ 48 * 2 ^ 64 + fieldN fp 0 8 * 2 ^ 128 + fieldN fp 8 56 * 2 ^ 192) 0 0 0
    else (s, 0)

/-- A 4 KiB frame belongs to a job (R49). -/
def State.holdsFrame (s : State) (j f : Nat) : Bool :=
  match s.job j with
  | none => false
  | some x => (s.rangesOf j x).any fun r => decide (r.1 ≤ f * 4096) && decide (f * 4096 + 4096 ≤ r.1 + r.2)

/-- What the runtime does for a job before it replies: nothing; a KEEP register assigned or released (R90); a page-table entry
changed under a shootdown, or a new page (R42, R43); poisoned storage of its own refilled (R49, R395); a group descriptor (R338). Which, and with
what, is the runtime's choice. Beside the state: the timestamp that its reply carries at least. -/
def State.serve1 (s : State) (d j : Nat) (act a b c e : Nat) : State × Nat :=
  if act = 8 then s.giveGroup j a b c e
  else (match act with
    | 2 => s.modDie d fun x =>
        if (x.keep.get Keep.dflt (a % 8)).owner = none then x.setKeep (a % 8) { Keep.dflt with owner := some j } else x
    | 3 => s.modDie d fun x =>
        if (x.keep.get Keep.dflt (a % 8)).owner = some j then x.setKeep (a % 8) Keep.dflt else x
    | 4 => s.changeEntry j a b
    | 5 => if s.holdsFrame j a then { s with poison := s.poison.filter fun f => decide (f ≠ a) } else s
    | 6 => s.modTensor j a fun t => { t with poison := t.poison.filter fun g => decide (g ≠ b) }
    | 7 => s.givePage j a b
    | _ => s, 0)

/-- The reply of the runtime: g1 all ones where it does not serve n (R373); what a service returns, and the reply's stamp, are
free values. -/
def svcReply : M Unit := do
  let act ← pick
  let a ← pick
  let b ← pick
  let c ← pick
  let e ← pick
  let s ← getS
  let d := if isCompute (coreOf s.cur) then dieOf s.cur else runDie s.cur
  let r := s.serve1 d (s.jobOf s.cur) act a b c e
  modS fun _ => r.1
  mergePts r.2
  writeG 1 (if act = 0 then BitVec.allOnes 64 else Config.freeWord s.frees)
  writeG 2 (Config.freeWord (s.frees + 1))
  mergePts (Config.freeStamp (s.frees + 2)).toNat
  modS fun s => { s with frees := s.frees + 3 }

/-- SVC: parks until the runtime's reply (R373). -/
def execSvc (n : BitVec 16) (s : State) : Out :=
  run (.svc n) (do
    await .svc
    replyRoute
    svcReply) s

end Sys2Proof.Machine
end

