-- ==== Sys2Proof/Machine/Resume.lean ====
section
/-! DEFINITION. The meaning of an instruction that has a word, for a slot that looks at its instruction again when a reply
arrives or its turn comes; the steps of the device change nothing here. -/
namespace Sys2Proof.Machine

/-- The meaning of an instruction with a word. -/
def rerun (i : Instr) (s : State) : Out :=
  match i with
  | .nop => Sys2Proof.Machine.execNop s
  | .add d a b => Sys2Proof.Machine.execAdd d a b s
  | .addi d a imm => Sys2Proof.Machine.execAddi d a imm s
  | .sub d a b => Sys2Proof.Machine.execSub d a b s
  | .mul d a b => Sys2Proof.Machine.execMul d a b s
  | .mulh d a b => Sys2Proof.Machine.execMulh d a b s
  | .mulhn d a b => Sys2Proof.Machine.execMulhn d a b s
  | .div d a b => Sys2Proof.Machine.execDiv d a b s
  | .divn d a b => Sys2Proof.Machine.execDivn d a b s
  | .rem d a b => Sys2Proof.Machine.execRem d a b s
  | .remn d a b => Sys2Proof.Machine.execRemn d a b s
  | .and d a b => Sys2Proof.Machine.execAnd d a b s
  | .andi d a imm => Sys2Proof.Machine.execAndi d a imm s
  | .or d a b => Sys2Proof.Machine.execOr d a b s
  | .ori d a imm => Sys2Proof.Machine.execOri d a imm s
  | .xor d a b => Sys2Proof.Machine.execXor d a b s
  | .xori d a imm => Sys2Proof.Machine.execXori d a imm s
  | .andn d a b => Sys2Proof.Machine.execAndn d a b s
  | .shl d a b => Sys2Proof.Machine.execShl d a b s
  | .shli d a n => Sys2Proof.Machine.execShli d a n s
  | .shr d a b => Sys2Proof.Machine.execShr d a b s
  | .shri d a n => Sys2Proof.Machine.execShri d a n s
  | .sar d a b => Sys2Proof.Machine.execSar d a b s
  | .sari d a n => Sys2Proof.Machine.execSari d a n s
  | .rol d a b => Sys2Proof.Machine.execRol d a b s
  | .roli d a n => Sys2Proof.Machine.execRoli d a n s
  | .clz d a => Sys2Proof.Machine.execClz d a s
  | .ctz d a => Sys2Proof.Machine.execCtz d a s
  | .popc d a => Sys2Proof.Machine.execPopc d a s
  | .brev d a => Sys2Proof.Machine.execBrev d a s
  | .sext d a w => Sys2Proof.Machine.execSext d a w s
  | .zext d a w => Sys2Proof.Machine.execZext d a w s
  | .bfx d a pos lenM1 => Sys2Proof.Machine.execBfx d a pos lenM1 s
  | .bfxS d a pos lenM1 => Sys2Proof.Machine.execBfxS d a pos lenM1 s
  | .bfi d a pos lenM1 => Sys2Proof.Machine.execBfi d a pos lenM1 s
  | .min d a b => Sys2Proof.Machine.execMin d a b s
  | .max d a b => Sys2Proof.Machine.execMax d a b s
  | .minn d a b => Sys2Proof.Machine.execMinn d a b s
  | .maxn d a b => Sys2Proof.Machine.execMaxn d a b s
  | .slt d a b => Sys2Proof.Machine.execSlt d a b s
  | .sltn d a b => Sys2Proof.Machine.execSltn d a b s
  | .slti d a imm => Sys2Proof.Machine.execSlti d a imm s
  | .sltiN d a imm => Sys2Proof.Machine.execSltiN d a imm s
  | .seq d a b => Sys2Proof.Machine.execSeq d a b s
  | .sel d a b c => Sys2Proof.Machine.execSel d a b c s
  | .mov d a => Sys2Proof.Machine.execMov d a s
  | .movi d imm => Sys2Proof.Machine.execMovi d imm s
  | .movx d x => Sys2Proof.Machine.execMovx d x s
  | .lea d a off => Sys2Proof.Machine.execLea d a off s
  | .leaWin d a off => Sys2Proof.Machine.execLeaWin d a off s
  | .br c a b off => Sys2Proof.Machine.execBr c a b off s
  | .jmp off => Sys2Proof.Machine.execJmp off s
  | .jmpi a => Sys2Proof.Machine.execJmpi a s
  | .call off => Sys2Proof.Machine.execCall off s
  | .calli a => Sys2Proof.Machine.execCalli a s
  | .loop n off => Sys2Proof.Machine.execLoop n off s
  | .btag port table mask => Sys2Proof.Machine.execBtag port table mask s
  | .bkany ka kb off => Sys2Proof.Machine.execBkany ka kb off s
  | .bkall ka kb off => Sys2Proof.Machine.execBkall ka kb off s
  | .park n => Sys2Proof.Machine.execPark n s
  | .parkEv mask => Sys2Proof.Machine.execParkEv mask s
  | .done => Sys2Proof.Machine.execDone s
  | .trap code => Sys2Proof.Machine.execTrap code s
  | .brkp code => Sys2Proof.Machine.execBrkp code s
  | .ld d sz p => Sys2Proof.Machine.execLd d sz p s
  | .lds n sz p => Sys2Proof.Machine.execLds n sz p s
  | .st v sz scope p => Sys2Proof.Machine.execSt v sz scope p s
  | .vld v p => Sys2Proof.Machine.execVld v p s
  | .vst v scope p => Sys2Proof.Machine.execVst v scope p s
  | .vlds o => Sys2Proof.Machine.execVlds o s
  | .vsts o => Sys2Proof.Machine.execVsts o s
  | .vgath o => Sys2Proof.Machine.execVgath o s
  | .vscat o => Sys2Proof.Machine.execVscat o s
  | .vgathT o => Sys2Proof.Machine.execVgathT o s
  | .vscatT o => Sys2Proof.Machine.execVscatT o s
  | .kld k p => Sys2Proof.Machine.execKld k p s
  | .kst k scope p => Sys2Proof.Machine.execKst k scope p s
  | .amoadd o => Sys2Proof.Machine.execAmoadd o s
  | .amoswp o => Sys2Proof.Machine.execAmoswp o s
  | .amocas o c => Sys2Proof.Machine.execAmocas o c s
  | .amoand o => Sys2Proof.Machine.execAmoand o s
  | .amoor o => Sys2Proof.Machine.execAmoor o s
  | .amoxor o => Sys2Proof.Machine.execAmoxor o s
  | .amomin o uns => Sys2Proof.Machine.execAmomin o uns s
  | .amomax o uns => Sys2Proof.Machine.execAmomax o uns s
  | .amofadd o => Sys2Proof.Machine.execAmofadd o s
  | .radd t a b => Sys2Proof.Machine.execRadd t a b s
  | .raddOrd t a b o => Sys2Proof.Machine.execRaddOrd t a b o s
  | .raddv r => Sys2Proof.Machine.execRaddv r s
  | .raddvOrd r o => Sys2Proof.Machine.execRaddvOrd r o s
  | .fence => Sys2Proof.Machine.execFence s
  | .sfill d a => Sys2Proof.Machine.execSfill d a s
  | .fstat d mail => Sys2Proof.Machine.execFstat d mail s
  | .migr a off => Sys2Proof.Machine.execMigr a off s
  | .migrCrew a off => Sys2Proof.Machine.execMigrCrew a off s
  | .mpin on => Sys2Proof.Machine.execMpin on s
  | .crewj a b => Sys2Proof.Machine.execCrewj a b s
  | .get o => Sys2Proof.Machine.execGet o s
  | .put o => Sys2Proof.Machine.execPut o s
  | .gett o => Sys2Proof.Machine.execGett o s
  | .putt o => Sys2Proof.Machine.execPutt o s
  | .qsend p a b nM1 => Sys2Proof.Machine.execQsend p a b nM1 s
  | .cexp c b => Sys2Proof.Machine.execCexp c b s
  | .cadd c b => Sys2Proof.Machine.execCadd c b s
  | .caddClr c b => Sys2Proof.Machine.execCaddClr c b s
  | .crd d c => Sys2Proof.Machine.execCrd d c s
  | .xwait a => Sys2Proof.Machine.execXwait a s
  | .hset n a => Sys2Proof.Machine.execHset n a s
  | .hurdle n => Sys2Proof.Machine.execHurdle n s
  | .view n a => Sys2Proof.Machine.execView n a s
  | .clineWb a off => Sys2Proof.Machine.execClineWb a off s
  | .clineEvict a off => Sys2Proof.Machine.execClineEvict a off s
  | .clinePf a off => Sys2Proof.Machine.execClinePf a off s
  | .vadd o rm sat => Sys2Proof.Machine.execVadd o rm sat s
  | .vsub o rm sat => Sys2Proof.Machine.execVsub o rm sat s
  | .vmul o rm sat => Sys2Proof.Machine.execVmul o rm sat s
  | .vfma o rm sat => Sys2Proof.Machine.execVfma o rm sat s
  | .vmin o => Sys2Proof.Machine.execVmin o s
  | .vmax o => Sys2Proof.Machine.execVmax o s
  | .vabs o sat => Sys2Proof.Machine.execVabs o sat s
  | .vneg o sat => Sys2Proof.Machine.execVneg o sat s
  | .vand o => Sys2Proof.Machine.execVand o s
  | .vor o => Sys2Proof.Machine.execVor o s
  | .vxor o => Sys2Proof.Machine.execVxor o s
  | .vshl o => Sys2Proof.Machine.execVshl o s
  | .vshr o => Sys2Proof.Machine.execVshr o s
  | .vsar o => Sys2Proof.Machine.execVsar o s
  | .vcmp d c a b k ty => Sys2Proof.Machine.execVcmp d c a b k ty s
  | .vsel o km => Sys2Proof.Machine.execVsel o km s
  | .vmov d b k ty => Sys2Proof.Machine.execVmov d b k ty s
  | .vbcast d a idx k ty => Sys2Proof.Machine.execVbcast d a idx k ty s
  | .vext d a idx ty => Sys2Proof.Machine.execVext d a idx ty s
  | .vins d a idx ty => Sys2Proof.Machine.execVins d a idx ty s
  | .vred d op a k ty rm => Sys2Proof.Machine.execVred d op a k ty rm s
  | .vidx d a b k ty => Sys2Proof.Machine.execVidx d a b k ty s
  | .vrcp o rm => Sys2Proof.Machine.execVrcp o rm s
  | .vrsq o rm => Sys2Proof.Machine.execVrsq o rm s
  | .vexp2 o rm => Sys2Proof.Machine.execVexp2 o rm s
  | .vlog2 o rm => Sys2Proof.Machine.execVlog2 o rm s
  | .vcvt o src rm => Sys2Proof.Machine.execVcvt o src rm s
  | .vpack d a b perm k dst src rm => Sys2Proof.Machine.execVpack d a b perm k dst src rm s
  | .vunpk o src hi => Sys2Proof.Machine.execVunpk o src hi s
  | .vshrr o => Sys2Proof.Machine.execVshrr o s
  | .vsat o nM1 u => Sys2Proof.Machine.execVsat o nM1 u s
  | .vmulq o => Sys2Proof.Machine.execVmulq o s
  | .vquant d a f rm => Sys2Proof.Machine.execVquant d a f rm s
  | .vdeq d a f rm => Sys2Proof.Machine.execVdeq d a f rm s
  | .vdot d a b k au bu sat => Sys2Proof.Machine.execVdot d a b k au bu sat s
  | .kand d a b => Sys2Proof.Machine.execKand d a b s
  | .kor d a b => Sys2Proof.Machine.execKor d a b s
  | .kxor d a b => Sys2Proof.Machine.execKxor d a b s
  | .knot d a => Sys2Proof.Machine.execKnot d a s
  | .kpop d a => Sys2Proof.Machine.execKpop d a s
  | .kfirst d a => Sys2Proof.Machine.execKfirst d a s
  | .kmov d a => Sys2Proof.Machine.execKmov d a s
  | .mma o => Sys2Proof.Machine.execMma o s
  | .mmat o => Sys2Proof.Machine.execMmat o s
  | .mmag o => Sys2Proof.Machine.execMmag o s
  | .mmas h c l sh => Sys2Proof.Machine.execMmas h c l sh s
  | .azero l i32 => Sys2Proof.Machine.execAzero l i32 s
  | .aepi o => Sys2Proof.Machine.execAepi o s
  | .arel l => Sys2Proof.Machine.execArel l s
  | .aclaim l => Sys2Proof.Machine.execAclaim l s
  | .asave h l => Sys2Proof.Machine.execAsave h l s
  | .aload h l => Sys2Proof.Machine.execAload h l s
  | .collAr o => Sys2Proof.Machine.execCollAr o s
  | .collRs o => Sys2Proof.Machine.execCollRs o s
  | .collAg o => Sys2Proof.Machine.execCollAg o s
  | .collA2a o => Sys2Proof.Machine.execCollA2a o s
  | .talloc h c l st => Sys2Proof.Machine.execTalloc h c l st s
  | .tfree h => Sys2Proof.Machine.execTfree h s
  | .twiden h c st wait => Sys2Proof.Machine.execTwiden h c st wait s
  | .tinfo h l w => Sys2Proof.Machine.execTinfo h l w s
  | .tld o => Sys2Proof.Machine.execTld o s
  | .tldt o => Sys2Proof.Machine.execTldt o s
  | .tst o => Sys2Proof.Machine.execTst o s
  | .tstAdd o => Sys2Proof.Machine.execTstAdd o s
  | .tredRow o op rm => Sys2Proof.Machine.execTredRow o op rm s
  | .tredCol o op rm => Sys2Proof.Machine.execTredCol o op rm s
  | .tscale h c l sh rm => Sys2Proof.Machine.execTscale h c l sh rm s
  | .tew h c y sh rm => Sys2Proof.Machine.execTew h c y sh rm s
  | .tcopy h c l sh t rm => Sys2Proof.Machine.execTcopy h c l sh t rm s
  | .stash o => Sys2Proof.Machine.execStash o s
  | .restore o => Sys2Proof.Machine.execRestore o s
  | .nmload h c => Sys2Proof.Machine.execNmload h c s
  | .nmstrm h c rows cols => Sys2Proof.Machine.execNmstrm h c rows cols s
  | .nmdrain h c rows cols rm => Sys2Proof.Machine.execNmdrain h c rows cols rm s
  | .spawn a b => Sys2Proof.Machine.execSpawn a b s
  | .reap d a b => Sys2Proof.Machine.execReap d a b s
  | .launch d a => Sys2Proof.Machine.execLaunch d a s
  | .cancel lvl d a => Sys2Proof.Machine.execCancel lvl d a s
  | .sysrd d r => Sys2Proof.Machine.execSysrd d r s
  | .syswr r a => Sys2Proof.Machine.execSyswr r a s
  | .xret a => Sys2Proof.Machine.execXret a s
  | .svc n => Sys2Proof.Machine.execSvc n s
  | .keep n a => Sys2Proof.Machine.execKeep n a s
  | _ => .next s

end Sys2Proof.Machine
end

