-- ==== Sys2Proof/Machine/Reply.lean ====
section
/-! DEFINITION. Steps of the device that answer a parked slot or move a thread: replies, stamps, engine steps, messages, batons,
crews, hurdles, laps, cancels (R40, R41, R64, R119, R125-R130, R163, R172, R177-R185, R327, R335, R353, R382). -/
namespace Sys2Proof.Machine

/-! ## Resuming a slot -/

/-- A slot that is no longer PARKED has woken: its instructions are counted from here (R130, R162). -/
def State.wakeUp (s : State) (t : Nat) : State :=
  if (s.slot t).st = .parked then s else s.modSlot t fun x => { x with issued := 0 }

/-- The reply `k` reaches thread `t`: its instruction goes on with it. A slot that waits for something else is left alone. -/
def State.resume (s : State) (t : Nat) (k : WaitKind) : State :=
  if s.waitOf t = some k then
    match rerun (s.instrOf t) { s with cur := t, grant := some k } with
    | .next s' => ({ s' with cur := s.cur, grant := none } : State).wakeUp t
    | _ => s
  else s

/-- Changes what a slot waits for. -/
def State.setWait (s : State) (t : Nat) (k : WaitKind) : State :=
  s.modSlot t fun x => { x with wait := x.wait.map fun w => { w with kind := k } }

/-! ## Slot steps -/

/-- XPC_WRITE: what a SYSWR to XPC does (R372). -/
def execXpcWrite (x : Word) (s : State) : Out :=
  event (runDie s.cur) (fun s => if codeAddress x then s.writeXpc x else s) s

/-- The instruction that the slot issues next is a 4,096th, counted from the thread's start or from its last wake-up (R130). -/
def Slot.tickDue (x : Slot) : Bool := decide (x.issued % 4096 = 4095) || decide (x.total % 4096 = 4095)

/-- PTS_TICK: the slot's PTS rises by 1, once for the instruction that issues next (R130). -/
def State.tick (s : State) (t : Nat) : State :=
  s.modSlot t fun x => if x.ticked then x else { x with pts := x.pts + 1, ticked := true }

/-- PTS_TICK: before every 4,096th instruction of a slot (R130). -/
def execPtsTick (t : Nat) (s : State) : Out :=
  event (runDie t) (fun s => if (s.slot t).st = .running ∧ (s.slot t).tickDue then s.tick t else s) s

/-- The thread that slot `k` of a core holds: near cores 0-3 hold far slots, each of one compute core (R17, R165). -/
def threadAt (c k : Nat) : Nat :=
  let d := c / 128
  if Config.baseDie0 ≤ d ∧ d < Config.opticalDie0 ∧ c % 128 < 4 then
    let st := d - Config.baseDie0
    tidOf (st / 2 * 128 + 64 * (st % 2) + 16 * (c % 128) + k) 16
  else tidOf c k

/-- A slot number belongs to a crew that is arriving. -/
def Core.inCrew (x : Core) (k : Nat) : Bool := x.crews.any fun a => a.arrived.contains k || a.slots.contains k

/-- Units placed during the last lap become RUNNING (R163). -/
def State.startUnits (s : State) (c : Nat) : State :=
  (List.range 16).foldl (fun s k =>
    let t := threadAt c k
    if (s.slot t).st = .held ∧ ¬ (s.core c).inCrew k then s.modSlot t fun x => { x with st := .running } else s) s

/-- The batons on their way reach their destinations. -/
def State.arriveAll (s : State) : State :=
  s.batons.foldl (fun s b => s.arrive b) { s with batons := [] }

/-- The answers on their way reach their origins. -/
def State.hearAll (s : State) : State :=
  s.answers.foldl (fun s b => s.hear b) { s with answers := [] }

/-- A request of a far slot for a mailbox is performed, whether it is new or has waited for the mailbox (R120). -/
def State.serveMail (s : State) (t : Nat) : State :=
  let s := match s.waitOf t with
    | some (.syncRead _) | some (.syncWrite _) => s.setWait t .lapStart
    | _ => s
  s.resume t .lapStart

/-- A lap of a core begins: requests of its far slot for mailboxes are performed in order; crews that are whole start, batons are
placed, units placed in the last lap become RUNNING (R120, R163, R182, R383). Where replies come at once, batons and answers on
their way arrive first. -/
def State.lapStart (s : State) (c : Nat) : State :=
  let s := if s.prompt then s.arriveAll else s
  let s := (s.core c).mail.foldl (fun s t => s.serveMail t) s
  let s := s.startUnits c
  let s := (s.startCrews c).placeBatons c
  let s := if s.prompt then s.hearAll else s
  s.modCore c fun x => { x with begun := true }

/-- The core stands before the first turn of a lap that has not begun. -/
def State.atLap (s : State) (c : Nat) : Bool := decide ((s.core c).turn = 0) && !(s.core c).begun

/-- LAP_BOUNDARY: only before the first turn of a lap, and once (R163, R383). -/
def execLapBoundary (c : Nat) (s : State) : Out := event (c / 128) (fun s => if s.atLap c then s.lapStart c else s) s

/-! ## Translation (R40, R41, R43) -/

/-- The die whose translation cache serves a thread. -/
def walkDie (t : Nat) : Nat := runDie t

/-- TRANSLATION_REQUEST: a hit installs and wakes; a miss joins a walk or starts one (R40). -/
def execTranslationRequest (t : Nat) (s : State) : Out :=
  event (runDie t) (fun s =>
    match s.waitOf t with
    | some (.translate page) =>
      let j := s.jobOf t
      match (s.die (walkDie t)).tcache.find? fun l => l.covers j (page * 4096) with
      | some l => (s.installTlb (coreOf t) l).setWait t .ready
      | none => s.modDie (walkDie t) fun d =>
          if d.walks.any fun w => decide (w.job = j) && decide (w.page = page) then
            { d with walks := d.walks.map fun w =>
                if w.job = j ∧ w.page = page then { w with tids := joinEnd w.tids t } else w }
          else { d with walks := d.walks ++ [{ job := j, page := page, tids := [t] }] }
    | _ => s) s

/-- WALK_END: the translation is installed for every waiting slot, which issues again at its turn; a walk that stops, or that has no
route to one of its tables, makes each of them trap (R41, R423). -/
def execWalkEnd (die job page : Nat) (s : State) : Out :=
  event die (fun s =>
    match ((s.die die).walks.take 64).find? fun w => decide (w.job = job) && decide (w.page = page) with
    | none => s
    | some w =>
      let s := s.modDie die fun d => { d with walks := d.walks.filter fun q => ¬ (q.job = job ∧ q.page = page) }
      match s.walkOf job (page * 4096) with
      | .ok l =>
        let s := s.modDie die fun d => { d with tcache := l :: d.tcache }
        w.tids.foldl (fun s t =>
          if s.waitOf t ≠ some (.translate page) then s
          else if s.walkRouted (atCore t) job (page * 4096) then (s.installTlb (coreOf t) l).setWait t .ready
          else s.resume t (.translate page)) s
      | .error _ => w.tids.foldl (fun s t => s.resume t (.translate page)) s) s

/-- SHOOTDOWN: the die drops the range, and acknowledges once no access under way can have used it (R43). -/
def execShootdown (die job : Nat) (s : State) : Out := event die (fun s => s.ackShoot die job) s

/-- SHOOTDOWN_ACK: after the last acknowledgement the page-table entries change, once no access is under way that a walk of a die has
translated since that die acknowledged; from then on no die holds the old translation (R43). -/
def execShootdownAck (job : Nat) (s : State) : Out := event Config.infieldDie (fun s => s.endShoot job) s

/-! ## Memory replies (R125, R126, R273, R274) -/

/-- A die L2 evicts a line: it goes from every L1 of the die, and the dirty sectors of the die go with it to the home, which notes no
holder of the die any more (R85). -/
def State.evictL2 (s : State) (d line : Nat) : State := (s.writeBack d line).dropLine d line

/-- A die L2 that has been filled makes room: a retained line is displaced only by another one of its register (R91). -/
def State.makeRoom (s : State) (d line : Nat) : State :=
  let new := ((s.die d).l2.head?.map (·.kept)).getD 0
  if (s.die d).l2.any fun k => decide (k.line = line) && decide (k.kept ≠ 0) && decide (k.kept ≠ new) then s else s.evictL2 d line

/-- A sampled hit of the LLC at least-recently-used position `q` (R97). -/
def State.countHit (s : State) (q : Nat) : State :=
  { s with pkg := { s.pkg with hits := s.pkg.hits.set 0 q (s.pkg.hits.get 0 q + 1) } }

/-- LEASE_RENEWAL: the reply to a load reaches its slot; the die L2 may evict a line to make room, and the LLC may count a sampled
hit: both are free choices (R85, R91, R97, R125). -/
def execLeaseRenewal (t : Nat) (s : State) : Out :=
  event (runDie t) (fun s =>
    if s.waitOf t = some .load then
      let p := s.picks.headD 0
      let q := s.picks.tail.headD 0
      let s : State := { s with picks := s.picks.drop 2 }
      ((if q = 0 ∨ 64 < q then s else s.countHit q).resume t .load).makeRoom (runDie t) p
    else s) s

/-- A plain remote add. -/
def isRadd : Instr → Bool
  | .radd _ _ _ | .raddv _ => true
  | _ => false

/-- HOME_STORE: a store or an atomic is performed at its home (R126). -/
def execHomeStore (t : Nat) (s : State) : Out :=
  event (runDie t) (fun s => if isRadd (s.instrOf t) then s else s.resume t .store) s

/-- RADD_ARRIVAL: a plain contribution is added at its home (R273). -/
def execRaddArrival (t : Nat) (s : State) : Out :=
  event (runDie t) (fun s => if isRadd (s.instrOf t) then s.resume t .store else s) s

/-- RADD_ORD_STAGE: an ordered contribution is staged or held at its home (R274). -/
def execRaddOrdStage (t : Nat) (s : State) : Out := event (runDie t) (fun s => s.resume t .stage) s

/-! ## Handles and engines (R64, R143, R147, R327, R335, R353) -/

/-- HANDLE_STAMP: the ordering point checks, and gives the operation its stamp (R64, R69). -/
def execHandleStamp (t : Nat) (s : State) : Out := event (runDie t) (fun s => s.resume t .stamp) s

/-- A reduce-store into a handle. -/
def isReduceStore : Instr → Bool
  | .tstAdd _ => true
  | .aepi o => o.add
  | _ => false

/-- PUBLISH: a shadowed writer publishes; so do the collectives of the thread whose data is whole (R143, R340). -/
def execPublish (t : Nat) (s : State) : Out :=
  event (runDie t) (fun s =>
    let s := (s.colls.filter fun c => decide (c.tid = t)).foldl (fun s c => s.stepColl c) s
    if isReduceStore (s.instrOf t) then s else s.resume t .publish) s

/-- REDUCE_STORE_LINE_ADD: one line is added at its home (R147). -/
def execReduceStoreLineAdd (t : Nat) (s : State) : Out :=
  event (runDie t) (fun s => if isReduceStore (s.instrOf t) then s.resume t .publish else s) s

/-- Which engine runs an instruction: 0 the matrix engine, 1 an epilogue, 2 the tensor engines. -/
def engineOf : Instr → Nat
  | .mma _ | .mmat _ | .mmag _ | .mmas _ _ _ _ => 0
  | .aepi _ => 1
  | _ => 2

/-- The next step of an engine's instruction. -/
def State.engineStep (s : State) (t n : Nat) : State := if engineOf (s.instrOf t) = n then s.resume t .engine else s

/-- MATRIX_STEP (R327). -/
def execMatrixStep (t : Nat) (s : State) : Out := event (runDie t) (fun s => s.engineStep t 0) s
/-- EPILOGUE_STEP (R335). -/
def execEpilogueStep (t : Nat) (s : State) : Out := event (runDie t) (fun s => s.engineStep t 1) s
/-- TENSOR_STEP (R353). -/
def execTensorStep (t : Nat) (s : State) : Out := event (runDie t) (fun s => s.engineStep t 2) s

/-! ## The runtime, the host, the graph engine (R140, R367-R369, R373) -/

/-- REPLY_ARRIVAL: the reply of the runtime, of the host, of the time master or of another die's link (R162). -/
def execReplyArrival (t : Nat) (s : State) : Out :=
  event (runDie t) (fun s =>
    match s.waitOf t with
    | some .svc => s.resume t .svc
    | some .hostReply => s.resume t .hostReply
    | some .timeReply => s.resume t .timeReply
    | _ => s) s

/-- GRAPH_ENGINE_REQUEST: a LAUNCH or a CANCEL is decided whole (R367, R368). -/
def execGraphEngineRequest (t : Nat) (s : State) : Out := event (runDie t) (fun s => s.resume t .graph) s

/-! ## Messages (R119, R382) -/

/-- The list without its `n`-th entry. -/
def dropAt {α : Type} (n : Nat) (l : List α) : List α := l.take n ++ l.drop (n + 1)

/-- A message enters its port; the slot that sends it goes on at its next turn (R119, R285). -/
def State.enterPort (s : State) (n : Nat) (m : Msg) : State :=
  let s := ({ s with msgs := dropAt n s.msgs } : State).deliver m
  match m.src with
  | none => s
  | some t => s.modSlot t fun x => { x with wait := x.wait.map fun w => { w with kind := .ready, n := 1 } }

/-- QUEUE_MESSAGE_ARRIVAL: message `n` of those on their way enters its port whole, where the port has room (R119). -/
def execQueueMessageArrival (n : Nat) (s : State) : Out :=
  event Config.infieldDie (fun s =>
    match s.msgs[n]? with
    | none => s
    | some m => if s.hasRoom m then s.enterPort n m else s) s

/-- Is the ENDED message of a slot. -/
def isEnded (t : Nat) (m : Msg) : Bool :=
  decide (m.src = none) && decide (m.core = coreOf t) && decide (m.port = 0) &&
  decide (m.words = [BitVec.ofNat 64 (1 + slotNo t * 65536)])

/-- ASSIGN_ENDED: the ENDED message of a slot enters q0 of its core (R382). -/
def execAssignEnded (t : Nat) (s : State) : Out :=
  event (runDie t) (fun s =>
    match s.msgs.findIdx? (isEnded t) with
    | none => s
    | some n =>
      match s.msgs[n]? with
      | none => s
      | some m => if s.hasRoom m then s.enterPort n m else s) s

/-! ## Batons and crews (R177-R182, R280) -/

/-- A baton of a crew. -/
def Baton.isCrew (b : Baton) : Bool := b.xstat.getLsbD 2 && decide (b.crewN ≠ 0)

/-- Baton `n` on its way reaches its destination. -/
def State.batonIn (s : State) (n : Nat) (crew : Bool) : State :=
  match s.batons[n]? with
  | none => s
  | some b => if b.isCrew = crew then ({ s with batons := dropAt n s.batons } : State).arrive b else s

/-- BATON_ARRIVAL (R177). -/
def execBatonArrival (n : Nat) (s : State) : Out := event Config.infieldDie (fun s => s.batonIn n false) s
/-- CREW_BATON_ARRIVAL (R182). -/
def execCrewBatonArrival (n : Nat) (s : State) : Out := event Config.infieldDie (fun s => s.batonIn n true) s

/-- Answer `n` on its way reaches its origin. -/
def State.answerIn (s : State) (n : Nat) (refused : Bool) : State :=
  match s.answers[n]? with
  | none => s
  | some b => if b.verdict.isSome = refused then ({ s with answers := dropAt n s.answers } : State).hear b else s

/-- BATON_REFUSAL: the origin resumes and takes trap 0x0A (R178). -/
def execBatonRefusal (n : Nat) (s : State) : Out := event Config.infieldDie (fun s => s.answerIn n true) s
/-- BATON_ACCEPTED: the origin becomes FREE (R177). -/
def execBatonAccepted (n : Nat) (s : State) : Out := event Config.infieldDie (fun s => s.answerIn n false) s

/-- CREW_ADMISSION_TIMEOUT: a crew that is not whole is refused (R182, step 4). -/
def execCrewAdmissionTimeout (core job id : Nat) (s : State) : Out :=
  event (core / 128) (fun s =>
    match (s.core core).crews.find? fun a => decide (a.job = job) && decide (a.id = id) && !a.refused && decide (a.arrived.length < a.size) with
    | none => s
    | some a => s.refuseCrew core a) s

/-- CREW_REFUSAL_WINDOW_END: nothing of a refused crew is kept (R182). -/
def execCrewRefusalWindowEnd (core job id : Nat) (s : State) : Out :=
  event (core / 128) (fun s => s.modCore core fun x =>
    { x with crews := x.crews.filter fun a => ¬ (a.job = job ∧ a.id = id ∧ a.refused = true) }) s

/-- CREWJ_TIMEOUT: a join that is not complete traps every waiting member (R280). -/
def execCrewjTimeout (core job id : Nat) (s : State) : Out :=
  event (core / 128) (fun s =>
    match (s.core core).joins.find? fun k => isJoin job id k && !k.failed with
    | none => s
    | some k => s.failJoin core k) s

/-- CREWJ_REFUSAL_WINDOW_END: the core forgets a failed join (R280). -/
def execCrewjRefusalWindowEnd (core job id : Nat) (s : State) : Out :=
  event (core / 128) (fun s => s.modCore core fun x => { x with joins := x.joins.filter fun k => !(isJoin job id k && k.failed) }) s

/-! ## Hurdles (R184, R185) -/

/-- Signal `n` on its way reaches its core. -/
def State.signalIn (s : State) (n : Nat) (rel broken : Bool) : State :=
  match s.sigs[n]? with
  | none => s
  | some g => if g.rel = rel ∧ g.broken = broken then ({ s with sigs := dropAt n s.sigs } : State).hbDeliver g else s

/-- HURDLE_SIGNAL (R184). -/
def execHurdleSignal (n : Nat) (s : State) : Out := event Config.infieldDie (fun s => s.signalIn n false false) s
/-- HURDLE_RELEASE (R184). -/
def execHurdleRelease (n : Nat) (s : State) : Out := event Config.infieldDie (fun s => s.signalIn n true false) s
/-- BROKEN_SIGNAL (R185). -/
def execBrokenSignal (n : Nat) (s : State) : Out := event Config.infieldDie (fun s => s.signalIn n false true) s
/-- BROKEN_RELEASE (R185). -/
def execBrokenRelease (n : Nat) (s : State) : Out := event Config.infieldDie (fun s => s.signalIn n true true) s

/-! ## Cancelled units (R172) -/

/-- A slot parked on a reply finishes its access first; every other one takes the cancel at its next turn. -/
def awaitsReply : Option WaitKind → Bool
  | some .ready | some (.translate _) | some .load | some .store | some .stage | some .hostReply | some .svc | some .timeReply
  | some .graph | some .error | some .stamp | some .lapStart | some .baton => true
  | _ => false

/-- The slot can take its cancel now, and has not taken it. A row group of an AEPI of which some bank words are written is finished first
(R107, R336). -/
def State.cancelDue (s : State) (t : Nat) : Bool :=
  let x := s.slot t
  x.cancel.isSome && x.wait.all (fun w => decide (w.data.get 0 partKey = 0)) && (decide (x.st = .running) || decide (x.st = .parked)) && !awaitsReply (s.waitOf t) &&
  !(x.sp.xstat.getLsbD 0 && decide (x.sp.xcause = 0x13))

/-- A cancelled STASH or RESTORE sets ERR CANCELLED in the counter that it names (R358). -/
def State.failStash (s : State) (t : Nat) : State :=
  let f (o : StashArgs) : State := match o.n with
    | none => s
    | some c => s.failCtr (coreOf t) (s.bankNo t) c.toNat 3 0
  if (s.slot t).st = .parked then
    match s.instrOf t with
    | .stash o => f o
    | .restore o => f o
    | _ => s
  else s

/-- The unit's epilogues in flight stop (R158). -/
def State.stopEpis (s : State) (t : Nat) : State :=
  let x := s.slot t
  let j := s.jobOf t
  { s with clusters := s.clusters.map fun (e : Nat × Cluster) =>
      (e.1, { e.2 with acc := e.2.acc.mapV Acc.dflt fun _ a => if holds x j a && decide (a.st = .epilogue) then { a with fault := true } else a }) }

/-- Slot 0 of a core that has a starter (R164). -/
def isStarter (t : Nat) : Bool := decide (slotNo t = 0)

/-- A starter parked on REAP whose handler can run takes trap 0x13; it is no unit, and goes on (R364;
notes/assumptions/78.md). -/
def State.cancelStarter (s : State) (t : Nat) : State :=
  let x := s.slot t
  let v := cancelValue (x.cancel.getD 0)
  let s := s.modSlot t fun x => { x with cancel := none }
  if s.waitOf t = some .reap ∧ x.sp.xhandler ≠ 0 ∧ x.sp.xstat.getLsbD 0 = false ∧ s.handlerOk t = true then s.takeTrap t 0x13 v true
  else s

/-- A thread that fills a shadow starts it anew after a trap: PROGIDX is 0 (R270, R353). -/
def State.restartWriter (s : State) (t : Nat) : State :=
  let fills : Bool := match s.job (s.jobOf t) with
    | none => false
    | some j => j.tensors.any fun (e : Nat × Tensor) => e.2.ops.any fun o => decide (o.tid = t) && decide (o.kind = .writer)
  if fills then s.modSlot t fun x => { x with sp := { x.sp with progidx := 0 } } else s

/-- A TRED.row that stops keeps the results of the steps below PROGIDX (R107, R353): they are in local space. -/
def State.keepResults (s : State) (t : Nat) : State :=
  let x := s.slot t
  match x.wait, s.instrOf t with
  | some w, .tredRow o _ _ =>
    if w.data.get 0 shadowBase = 0 then s
    else
      match (do
          let l ← readSR 2 o.l
          tredWrite l.toNat (8 * (w.data.get 0 shadowBase - 1)) (8 * x.sp.progidx.toNat)
          engineDone : M Unit) { s with cur := t } with
      | .ok (_, s') => { s' with cur := s.cur }
      | .error _ => s
  | _, _ => s

/-- Trap 0x13: the handler runs, or the slot is stopped as CANCELLED (R172). -/
def State.takeCancel (s : State) (t : Nat) : State :=
  if isStarter t then s.cancelStarter t
  else (((((s.keepResults t).failStash t).stopEpis t).restartWriter t).dropOps t).takeTrap t 0x13 (cancelValue ((s.slot t).cancel.getD 0)) (s.handlerOk t)

/-- CANCEL_DELIVERY (R172). -/
def execCancelDelivery (t : Nat) (s : State) : Out :=
  event (runDie t) (fun s => if s.cancelDue t then s.takeCancel t else s) s

/-- CANCEL_HANDLER_TIMEOUT: a cancel handler that has used its 4,096 turns is stopped (R172). -/
def execCancelHandlerTimeout (t : Nat) (s : State) : Out :=
  event (runDie t) (fun s =>
    let x := s.slot t
    if x.cancel.isSome ∧ (x.st = .running ∨ x.st = .parked) ∧ x.sp.xstat.getLsbD 0 = true ∧ x.sp.xcause = 0x13 ∧ 4096 ≤ x.handTurns then
      s.endUnit t { code := 2, cause := 0, xpc := 0, tid := t }
    else s) s

end Sys2Proof.Machine
end

