-- ==== Sys2Proof/Machine/Side.lean ====
section
/-! DEFINITION. Steps of the memory side: squares and directory entries, the HBM controllers, soft errors, the representation
manager, the carve-out, re-representation (R62, R67, R87, R93-R104, R394, R395). -/
namespace Sys2Proof.Machine

/-! ## Lines (R87, R94, R95) -/

/-- CROSSING_INVALIDATION: an invalidation that the home has sent reaches a die, which drops its copies of what crosses the written
line of an oriented square (R94). -/
def execCrossingInvalidation (die line : Nat) (s : State) : Out :=
  event die (fun s =>
    let s := if s.invals.contains (die, line / 4) then
        ({ s with invals := s.invals.erase (die, line / 4) } : State).dropColumns die (line / 4) else s
    if s.squares.contains (line / 4) then s.evictL2 die line else s) s

/-- The lines of a square that rest dirty in the LLC are written to HBM, as rows (R88, R95). -/
def State.squareBack (s : State) (sq : Nat) : State :=
  (List.range 4).foldl (fun s i =>
    let pa := sq * 1024 + i * 256
    let p := s.pairOf pa
    if p.scope = 1 then s.setPair pa { p with scope := 0, who := 0 } else s) s

/-- A square leaves the LLC: its entry and its dirty sectors are back at the controller. -/
def State.llcDrop (s : State) (sq : Nat) : State :=
  let t := s.squareBack sq
  { t with llc := t.llc.erase sq }

/-- DIRECTORY_EVICTION: the entry and the dirty sectors of a line's square leave the LLC, and, at the next such step, have arrived at the
controller; in between, a request for it waits (R87, R88, R95). Where replies come at once, both happen at once. -/
def execDirectoryEviction (line : Nat) (s : State) : Out :=
  event Config.infieldDie (fun s =>
    match s.llc.get none (line / 4) with
    | none => s.squareBack (line / 4)
    | some q =>
      if q.moving ∨ s.prompt then s.llcDrop (line / 4)
      else { s with llc := s.llc.set none (line / 4) (some { q with moving := true }) }) s

/-- Squares for which the LLC has no room any more leave it. -/
def State.llcTrim (s : State) : State := (s.llc.drop s.llcRoom).foldl (fun s e => s.llcDrop e.1) s

/-! ## HBM (R99-R103) -/

/-- The stack of a sector of 32 bytes. -/
def stackOf (sector : Nat) : Nat := sector * 32 / stackBytes
/-- The die that holds a stack. -/
def stackDie (st : Nat) : Nat := Config.baseDie0 + st
/-- The key of a bank's RAA. -/
def raaKey (st bank : Nat) : Nat := st * 2 ^ 20 + bank

/-- The key of a die's count of all its corrected errors. -/
def dieTotal : Nat := 2 ^ 20

/-- A corrected error of array `a` of a die is counted for the array and for the die, and entered in the black box with the array (R104,
R394, R409). -/
def State.countArray (s : State) (d a : Nat) : State :=
  (s.modDie d fun x =>
    let e := if a = dieTotal then x.ecc else x.ecc.set 0 a (x.ecc.get 0 a + 1)
    { x with ecc := e.set 0 dieTotal (e.get 0 dieTotal + 1) }).log d 3 a 0

/-! The numbers of a die's arrays (the model's: notes/assumptions/28.md): the scratchpad, and the L1, of each core; the die L2; the LLC; infield
storage; each accumulator slot. -/
/-- The scratchpad of a core. -/
def arrPad (c : Nat) : Nat := c % 128
/-- The L1 of a core. -/
def arrL1 (c : Nat) : Nat := 128 + c % 128
/-- The die L2. -/
def arrL2 : Nat := 256
/-- The LLC. -/
def arrLlc : Nat := 257
/-- Infield storage. -/
def arrInfield : Nat := 258
/-- Accumulator slot `a` of a cluster. -/
def arrAcc (cl a : Nat) : Nat := 512 + cl % 32 * 16 + a

/-- The 4 KiB frame of a sector. -/
def frameOf (sector : Nat) : Nat := sector / 128

/-- A corrected error of HBM is counted for the stack and for its base die, and entered in the black box with the frame (R102, R394,
R409). -/
def State.countEcc (s : State) (st sector : Nat) : State :=
  ({ s with
     dies := (s.modDie (stackDie st) fun x => { x with ecc := x.ecc.set 0 dieTotal (x.ecc.get 0 dieTotal + 1) }).dies
     pkg := { s.pkg with eccHbm := s.pkg.eccHbm.set 0 st (s.pkg.eccHbm.get 0 st + 1) } } : State).log (stackDie st) 3 (frameOf sector) 0

/-- The check of a sector that is read: up to two bytes are corrected; more poison the sector, or, as the free choice says, are not
detected, and the bytes are then free values (R102, R103). -/
def State.checkSector (s : State) (sector errs : Nat) : State :=
  let st := stackOf sector
  if errs = 0 then s
  else if errs ≤ 2 then s.countEcc st sector
  else if s.picks.headD 0 ≠ 0 then
    { s with picks := s.picks.tail, frees := s.frees + 4,
             mem := writeN s.mem (sector * 32) 32 (packNat 64 ((List.range 4).map fun k => (Config.freeWord (s.frees + k)).toNat)) }
  else ({ s with badSect := if s.badSect.contains sector then s.badSect else sector :: s.badSect } : State).log (stackDie st) 4 (frameOf sector) 0

/-- RAA after an activate: LEVEL is taken off while RAA is not below it, then one is added (R100). -/
def raaAfter (level raa : Nat) : Nat := (if level = 0 then raa else raa % level) + 1

/-- HBM_REQUEST: an activate of a bank, then a read with its check, or a write of a whole sector (R99, R100, R102, R103). -/
def execHbmRequest (sector bank errs : Nat) (wr : Bool) (s : State) : Out :=
  event (stackDie (stackOf sector)) (fun s =>
    if ¬ inHbm (sector * 32) then s
    else
      let k := raaKey (stackOf sector) bank
      let s := { s with pkg := { s.pkg with raa := s.pkg.raa.set 0 k (raaAfter s.pkg.actlvl (s.pkg.raa.get 0 k)) } }
      if wr then { s with badSect := s.badSect.filter fun x => decide (x ≠ sector) } else s.checkSector sector errs) s

/-- PERIODIC_REFRESH: RAA falls by half of LEVEL (R100). -/
def execPeriodicRefresh (stack bank : Nat) (s : State) : Out :=
  event (stackDie stack) (fun s =>
    let k := raaKey stack bank
    { s with pkg := { s.pkg with raa := s.pkg.raa.set 0 k (s.pkg.raa.get 0 k - s.pkg.actlvl / 2) } }) s

/-- PATROL_SCRUB: a sector is read and corrected (R102). -/
def execPatrolScrub (sector errs : Nat) (s : State) : Out :=
  event (stackDie (stackOf sector)) (fun s => if inHbm (sector * 32) then s.checkSector sector errs else s) s

/-! ## The manager and lost data (R103, R104, R395, R396) -/

/-- The job and the leaf that map a physical address. -/
def State.mappedAt (s : State) (pa : Nat) : Option (Nat × Leaf) :=
  s.jobs.findSome? fun (e : Nat × Option Job) =>
    ((s.tabled e.1).filterMap fun t => match t with | .inl _ => none | .inr l => some l).findSome? fun l =>
      if l.pa ≤ pa ∧ pa < l.pa + l.size then some (e.1, l) else none

/-- Where a 64 KiB frame of tensor storage belongs: the representation that an entry has, the one in preparation, or another of the
entry's: an old one, or a place reserved. -/
inductive FrameUse where
  | own | rerep | other
  deriving DecidableEq, Repr

/-- The use of a frame by an entry, and its number in the list of its representation. -/
def Tensor.uses (t : Tensor) (f : Nat) : Option (FrameUse × Nat) :=
  let h := (t.rerep.map (·.home.frames)).getD []
  if t.frames.contains f then some (.own, t.frames.idxOf f)
  else if h.contains f then some (.rerep, h.idxOf f)
  else if t.allFrames.contains f then some (.other, 0) else none

/-- The job, the entry, the use and the number of the frame of tensor storage that holds a physical address. -/
def State.tensorAt (s : State) (pa : Nat) : Option (Nat × Nat × FrameUse × Nat) :=
  s.jobs.findSome? fun (e : Nat × Option Job) =>
    e.2.bind fun x => x.tensors.findSome? fun (t : Nat × Tensor) => (t.2.uses (pa / 65536)).map fun u => (e.1, t.1, u.1, u.2)

/-- The sectors of a range of sectors that hold an uncorrectable error: each with whether it was lost in a dirty sector of a cache, or in
infield storage (R103, R104). -/
def State.lostIn (s : State) (lo n : Nat) : List (Nat × Bool) :=
  (s.badSect.map fun x => (x, false)) ++ (s.badWords.map fun w => (w / 4, true)) |>.filter fun e => decide (lo ≤ e.1) && decide (e.1 < lo + n)

/-- A cached copy holds a lost sector with the line's current wts: in the L1 of a core or the L2 of a die; where the error was in a dirty sector,
that copy does not count (R395). -/
def State.cachedCopy (s : State) (x : Nat × Bool) : Bool :=
  let line := x.1 / 8
  let wts := (s.pairOf (line * 256)).wts
  let ok (k : LineCopy) : Bool := decide (k.line = line) && decide (k.wts = wts) && k.valid.getLsbD (x.1 % 8) && !(x.2 && k.dirty.getLsbD (x.1 % 8))
  s.dies.any (fun e => e.2.l2.any ok || e.2.tens.any fun k => decide (k.line = line) && decide (k.col = 0) && decide (k.wts = wts)) ||
    s.cores.any fun e => e.2.l1.any ok

/-- The lost bytes of a frame of paged memory are clean: the page was loaded from a host image and no store has reached it, or cached copies
hold them (R395). -/
def State.cleanFrame (s : State) (f : Nat) : Bool :=
  (s.loaded.contains f && !s.dirty.contains f) || (s.lostIn (f * 128) 128).all s.cachedCopy

/-- The lost bytes of a 64 KiB frame of tensor storage are clean: another copy of a REPL tensor holds the segment intact; the frame is one of
a re-representation in progress, and the old representation holds what it will hold; a frame in no use by operations yet or any more; or cached
copies hold them (R72, R395). -/
def State.cleanSegment (s : State) (t : Tensor) (u : FrameUse) (n : Nat) : Bool :=
  let m := max 1 (t.copySegs t.form)
  match u with
  | .own =>
    (decide (t.cls = 4) && (List.range 8).any fun d =>
      decide (d ≠ n / m) && (s.lostIn (t.frames.getD (d * m + n % m) 0 * 2048) 2048).isEmpty) ||
      (s.lostIn (t.frames.getD n 0 * 2048) 2048).all s.cachedCopy
  | _ => true

/-- Segment `g` of a tensor's storage is poisoned (R72, R395). -/
def State.poisonSegment (s : State) (j i g : Nat) : State :=
  s.modTensor j i fun t => if t.st = 0 ∨ t.poison.contains g then t else { t with poison := g :: t.poison }

/-- A frame takes the place of another in every list of an entry. -/
def Tensor.reframe (t : Tensor) (f g : Nat) : Tensor :=
  let sw (l : List Nat) : List Nat := l.map fun x => if x = f then g else x
  let home (h : Home) : Home := { h with frames := sw h.frames }
  { t with
    frames := sw t.frames
    rerep := t.rerep.map fun r => { r with home := home r.home }
    olds := t.olds.map fun o => { o with frames := sw o.frames }
    ops := t.ops.map fun o => { o with home := o.home.map home } }

/-- The frame of tensor storage that holds an error is replaced by a fresh one, where there is one: on the same stack, for what has to lie on
it (R63, R105, R106, R395). -/
def State.freshTensorFrame (s : State) (j i f hint : Nat) : State :=
  let t := s.tensor j i
  let st := f * 65536 / stackBytes
  let spot : Spot := if inHbm (f * 65536) ∧ 4 ≤ t.cls then .stacks st (st + 1) else .any
  match s.takeRun s.occupied (hint / 16) 1 spot with
  | some [g] => (s.modTensor j i fun t => t.reframe f g).remark t (t.reframe f g)
  | _ => s

/-- No error is known in a 64 KiB frame any more: it has been retired, or its segment poisoned. -/
def State.forgetErrors (s : State) (f : Nat) : State :=
  { s with badSect := s.badSect.filter (fun x => decide (x / 2048 ≠ f)), badWords := s.badWords.filter fun w => decide (w / 8192 ≠ f) }

/-- An error in a frame of tensor storage (R72, R395): clean bytes are whole in a fresh frame; lost ones poison the segment, of every copy that
the segment has. -/
def State.handleStorage (s : State) (f j i : Nat) (u : FrameUse) (n hint : Nat) : State :=
  let t := s.tensor j i
  let clean := s.cleanSegment t u n
  let s := s.forgetErrors (f / 16)
  let s := if clean then s else s.poisonSegment j i (n % max 1 (t.copySegs t.form))
  (s.freshTensorFrame j i (f / 16) hint).releaseErrors

/-- An error in a frame of paged memory: the page that maps it, of any size, moves to a fresh place under a shootdown; clean bytes are whole
there, lost bytes poison the 4 KiB range (R43, R395). Where no page maps it, or there is no room, it is poisoned where it is. -/
def State.handlePage (s : State) (f hint : Nat) : State :=
  let clean := s.cleanFrame f
  let mend (s : State) (g : Nat) : State :=
    { s with badSect := s.badSect.filter (fun x => decide (x / 128 ≠ g)), badWords := s.badWords.filter fun w => decide (w / 512 ≠ g) }
  let s := if clean then mend s f else s
  let here : State := if clean then s.releaseErrors else
    ({ mend s f with poison := if s.poison.contains f then s.poison else f :: s.poison } : State).releaseErrors
  match s.mappedAt (f * 4096) with
  | none => here
  | some (j, l) =>
    match s.entryOf j l.va, s.freeRun [hint * 4096] l.size l.size (fun a => decide (a + l.size ≤ hbmEnd)) with
    | some (a, _), some b =>
      s.changeMap j { va := l.va, size := l.size, ents := [(a, withFrame (readN s.mem a 8) b)], move := [(l.pa, b, l.size)],
                      lose := if clean then none else some ((f * 4096 - l.pa + b) / 4096), dies := [] }
    | _, _ => here

/-- The frame of an uncorrectable error is handled (R395): it is retired, and so on, by what it holds. A page waits while another change of
its job's mapping is under way. -/
def State.handleFrame (s : State) (f hint : Nat) : State :=
  let t : State := { s with retired := if s.retired.contains f then s.retired else f :: s.retired }
  match s.tensorAt (f * 4096) with
  | some (j, i, u, n) => t.handleStorage f j i u n hint
  | none => if (s.mappedAt (f * 4096)).any fun e => s.changing e.1 then s else t.handlePage f hint

/-! ### Errors of the other arrays (R104, R394, R396) -/

/-- A double-bit error in a word (8-byte number) of dirty data: the word is poisoned, in tensor storage its segment (R104). -/
def State.loseWord (s : State) (w : Nat) : State :=
  match s.tensorAt (8 * w) with
  | some (j, i, .own, n) => s.poisonSegment j i (n % max 1 ((s.tensor j i).copySegs (s.tensor j i).form))
  | _ => { s with badWords := if s.badWords.contains w then s.badWords else w :: s.badWords }

/-- A double-bit error in the L1 of a core: a clean copy is dropped, a dirty sector is poisoned. -/
def State.loseL1 (s : State) (c w : Nat) : State :=
  let p := s.pairOf (8 * w)
  match (s.core c).l1.find? fun k => decide (k.line = w / 32) with
  | none => s
  | some k =>
    if p.scope = 3 ∧ p.who = c ∧ k.dirty.getLsbD (w % 32 / 4) = true then s.loseWord w
    else s.modCore c fun x => { x with l1 := x.l1.filter fun q => decide (q.line ≠ w / 32) }

/-- The same in the L2 of a die; a clean copy goes from the die's L1s too (R85). -/
def State.loseL2 (s : State) (d w : Nat) : State :=
  let p := s.pairOf (8 * w)
  match (s.die d).l2.find? fun k => decide (k.line = w / 32) with
  | none => s
  | some k => if p.scope = 2 ∧ p.who / 128 = d ∧ k.dirty.getLsbD (w % 32 / 4) = true then s.loseWord w else s.evictL2 d (w / 32)

/-- The same in the LLC: what rests there dirty is a line of scope pkg, or tensor storage (R95, R133). -/
def State.loseLlc (s : State) (w : Nat) : State :=
  match s.llcOf (8 * w) with
  | none => s
  | some q =>
    if ((s.pairOf (8 * w)).scope = 1 ∨ (s.tensorAt (8 * w)).isSome) ∧ q.dirty &&& q.touched (8 * w) 8 ≠ 0 then s.loseWord w
    else s.llcDrop (w / 128)

/-- An error in another array (R104, R396), numbered above the sectors: 1 a scratchpad word, 2 an accumulator slot, 3 a segment of tensor
storage; 4 an error of a single bit, of array `k` mod 2^20 of die `k` / 2^20, which is corrected and counted; 5 the L1 of a core,
6 the L2 of a die, 7 the LLC, 8 infield storage, where `w` is the number of the word. The black box names the array, or the frame of the
segment (R409). -/
def State.arrayError (s : State) (n w : Nat) : State :=
  let k := n % 2 ^ 44
  match n / 2 ^ 44 with
  | 1 => (s.modCore (k / 2 ^ 20) fun x => { x with poison := x.poison.set false (k % 2 ^ 20) true }).log (k / 2 ^ 27) 4 (arrPad (k / 2 ^ 20)) 0
  | 2 => (s.modCluster (k / 16) fun x =>
      { x with acc := x.acc.set Acc.dflt (k % 16) { x.acc.get Acc.dflt (k % 16) with
          poison := decide ((x.acc.get Acc.dflt (k % 16)).st ≠ .free) } }).log (k / 512) 4 (arrAcc (k / 16) (k % 16)) 0
  | 3 =>
    let t := s.tensor (k / 2 ^ 40) (k / 2 ^ 22 % 2 ^ 16)
    let n := k % 2 ^ 22
    (if t.cls = 4 then s else s.poisonSegment (k / 2 ^ 40) (k / 2 ^ 22 % 2 ^ 16) n).log Config.infieldDie 4 (t.frames.getD n 0 * 16) 0
  | 4 => s.countArray (k / 2 ^ 20) (k % 2 ^ 20)
  | 5 => (s.loseL1 k w).log (k / 128) 4 (arrL1 k) 0
  | 6 => (s.loseL2 k w).log k 4 arrL2 0
  | 7 => (s.loseLlc w).log Config.infieldDie 4 arrLlc 0
  | 8 => if inInfield (8 * w) then (s.loseWord w).log Config.infieldDie 4 arrInfield 0 else s
  | _ => s

/-- MANAGER_ERROR_HANDLING: the manager handles an uncorrectable error reported to it: in a sector of HBM, in a dirty sector of a cache, or in
infield storage (R103, R104, R395); or an error of another array occurs (R104, R394): the number of the word in a cache or in infield storage
comes from `picks`. Whether the lost bytes are clean is what the state says (R72, R395): the last operand, what was reported of it, changes
nothing. -/
def execManagerErrorHandling (sector fresh : Nat) (_clean : Bool) (s : State) : Out :=
  event Config.infieldDie (fun s =>
    if 2 ^ 44 ≤ sector then ({ s with picks := s.picks.tail } : State).arrayError sector (s.picks.headD 0)
    else if (s.lostIn sector 1).isEmpty ∨ s.pkg.recovery then s
    else s.handleFrame (frameOf sector) fresh) s

/-! ## The carve-out (R96-R98) -/

/-- Hits that `k` ways would have served. -/
def Package.hitsOf (p : Package) (k : Nat) : Nat := p.hits.foldl (fun n e => if e.1 ≤ k then n + e.2 else n) 0

/-- The sum of the lower limits of the running jobs, in MiB. -/
def State.lowerSum (s : State) : Nat := s.jobs.foldl (fun n e => n + (match e.2 with | some x => x.carveLo | none => 0)) 0
/-- The upper limit of C, in MiB. -/
def State.upperSum (s : State) : Nat :=
  min 768 (s.jobs.foldl (fun n e => n + (match e.2 with | some x => x.carveHi | none => 0)) 0)

/-- No tensor has a frame in the top step of C, so the manager may mark it empty (R97, R98). -/
def State.topClear (s : State) : Bool :=
  let lo := infieldBase + (s.pkg.carve - 16) * 0x100000
  s.jobs.all fun (e : Nat × Option Job) => e.2.all fun x => x.tensors.all fun (t : Nat × Tensor) =>
    t.2.allFrames.all fun f => decide ((f + 1) * 65536 ≤ lo) || decide (lo + 0x1000000 ≤ f * 65536)

/-- C falls to its upper limit as far as the steps above it are empty (R96, R98; notes/assumptions/79.md). -/
def State.carveDown : Nat → State → State
  | 0, s => s
  | fuel + 1, s =>
    if s.upperSum < s.pkg.carve ∧ s.topClear then
      State.carveDown fuel { s with pkg := { s.pkg with carve := s.pkg.carve - 16, growing := s.pkg.growing - 1 } }
    else s

/-- C keeps its limits when a job begins or ends: it rises to the lower limit, in steps of 16 MiB, whose ways leave the LLC, and falls to
the upper one (R96). -/
def State.carveFit (s : State) : State :=
  let lo := (s.lowerSum + 15) / 16 * 16
  let s := if s.pkg.carve < lo then { s with pkg := { s.pkg with carve := lo, growing := 0 } } else s
  (s.carveDown 48).llcTrim

/-- C after a sampling interval, and how many of its top steps are not yet usable (R97, R98). -/
def carveNext (p : Package) (lo hi : Nat) : Nat × Nat :=
  let a := 64 - p.carve / 16
  if p.carve < hi ∧ p.waitPlace ∧ 64 * (p.hitsOf a - p.hitsOf (a - 1)) ≤ p.hitsOf a then (p.carve + 16, p.growing + 1)
  else if lo < p.carve ∧ p.topEmpty ∧ p.hitsOf a < 32 * (p.hitsOf (a + 1) - p.hitsOf a) then (p.carve - 16, p.growing - 1)
  else (p.carve, p.growing)

/-- CARVE_INTERVAL: C changes by at most one step, and the counts clear; what the manager has marked comes from `picks`: it marks the top
step only when it has moved every tensor out of it (R97, R98). -/
def execCarveInterval (s : State) : Out :=
  event Config.infieldDie (fun s =>
    let p := { s.pkg with waitPlace := decide (s.picks.headD 0 % 2 = 1), topEmpty := decide (s.picks.headD 0 / 2 % 2 = 1) && s.topClear }
    let (c, g) := carveNext p s.lowerSum s.upperSum
    { s with picks := s.picks.tail, pkg := { p with carve := c, growing := g, hits := [] } }) s

/-- CARVE_STEP_READY: the way of a growing step has been written back and invalidated in every slice, and the lowest one that grows becomes
usable (R98). -/
def execCarveStepReady (s : State) : Out :=
  event Config.infieldDie (fun s => ({ s with pkg := { s.pkg with growing := s.pkg.growing - 1 } } : State).llcTrim) s

/-! ## Re-representation (R62, R67) -/

/-- RE_REPRESENTATION: the manager stamps a change of class at Tc, with a place for the new form, for which its search begins where
`picks` says; `cls` holds the class, and above its 4 bits the form of the copies or parts of REPL and SLICE (R63, R67). -/
def execReRepresentation (job idx cls : Nat) (s : State) : Out :=
  service (fun s =>
    let t : State := { s with picks := s.picks.tail }
    (t.moveTensor job idx (cls % 16) (cls / 16) (s.picks.headD 0) none).getD t) s

/-- CONVERTER_SNAPSHOT (R67, step 2). -/
def execConverterSnapshot (job idx : Nat) (s : State) : Out :=
  service (fun s => s.modTensor job idx Tensor.snapshot) s

/-- RE_REPRESENTATION_PUBLISH (R67, steps 4 and 5): the squares of a tensor that becomes SQUARE are marked as oriented, and those of one
that leaves the class are not (R93). -/
def execReRepresentationPublish (job idx : Nat) (s : State) : Out := service (fun s => s.publishRerep job idx) s

/-- TENSOR_ENTRY_FREE (R62). -/
def execTensorEntryFree (job idx : Nat) (s : State) : Out :=
  service (fun s => s.settleTensor job idx) s

end Sys2Proof.Machine
end

