-- ==== Sys2Proof/Machine/Rebase.lean ====
section
/-! DEFINITION. The rebase of a job's timestamps, and when a job must stop for one (R131). -/
namespace Sys2Proof.Machine

/-- A core that a job holds, or a near core, with the bank of its state that is the job's. -/
def State.ownBank (s : State) (j c : Nat) : Option Nat :=
  if isNear c then some j else if isCompute c && decide ((s.cluster (clusterOf c)).job = some j) then some 0 else none

/-! ## Boundaries (R131, steps 1 and 2) -/

/-- A slot parked in the middle of an access: its reply is on its way. -/
def midAccess : WaitKind → Bool
  | .translate _ | .load | .store | .stage | .hostReply | .svc | .timeReply | .graph | .stamp => true
  | _ => false

/-- Every slot of the job stands at a boundary of an instruction, or of a step of its engine command (notes/assumptions/30.md). -/
def State.atBoundary (s : State) (j : Nat) : Bool :=
  s.slots.all fun (e : Nat × Slot) => decide (s.jobOf e.1 ≠ j) || !(e.2.wait.map fun w => midAccess w.kind).getD false

/-! ## What becomes of each timestamp

Every timestamp falls to 0. The handle operations under way keep their order: `m` is one less than the lowest of their stamps, and each
stamp falls by it (notes/assumptions/30.md). -/

/-- The handle stamps under way in a job: those of queued operations and of re-representations. -/
def Job.underWay (x : Job) : List Nat :=
  x.tensors.flatMap fun (e : Nat × Tensor) => e.2.ops.map (·.stamp) ++ (match e.2.rerep with | some r => [r.tc] | none => [])

/-- What the handle stamps of a job fall by; none where no operation is under way. -/
def Job.stampBase (x : Job) : Option Nat :=
  match x.underWay with
  | [] => none
  | a :: l => some (l.foldl min a - 1)

/-- The stamps of a bank at 0. -/
def Bank.rebased (b : Bank) : Bank :=
  { b with regs := b.regs.mapV SyncReg.dflt fun _ r => { r with stamp := 0 }
           ports := b.ports.mapV Port.dflt fun _ p => { p with words := p.words.map fun w => (w.1, 0) }
           ctrs := b.ctrs.mapV Counter.dflt fun _ c => { c with stamp := 0 }
           xferStamp := 0, spw := 0 }

/-- The timestamps of a parked instruction. -/
def Wait.rebased (m : Nat) (w : Wait) : Wait :=
  match w.kind with
  | .hurdle _ _ => { w with stamps := w.stamps.map fun _ => 0 }
  | .watch (some _) => { w with kind := .watch (some 0) }
  | _ => { w with stamps := w.stamps.map (· - m) }

/-- The timestamp of a value taken from a register or port. -/
def Latch.rebased (l : Latch) : Latch :=
  { l with how := match l.how with | .plain => .plain | .reg r _ => .reg r 0 | .word p _ => .word p 0 }

/-- The stamps of a thread at 0. -/
def Slot.rebased (m : Nat) (x : Slot) : Slot :=
  { x with pts := 0, copyPts := 0, latch := x.latch.map Latch.rebased, wait := x.wait.map (Wait.rebased m) }

/-- The stamps of a hurdle at 0. -/
def Hurdle.rebased (x : Hurdle) : Hurdle := { x with arrs := x.arrs.map (fun _ => 0), extra := x.extra.map (fun _ => 0), pts := 0 }

/-- The stamp of a baton of the job at 0. -/
def Baton.rebased (j : Nat) (q : Baton) : Baton := if q.job = j then { q with pts := 0 } else q

/-- The job that a message to the starter of a near core is about, from its first word and the one behind it: START names a launch, the others
the slot of a unit (R382). -/
def State.starterJob (s : State) (c : Nat) (w next : Word) : Nat :=
  if w.toNat % 65536 = 0 then fieldN next.toNat 60 4 else s.jobOf (tidOf c (w.toNat / 65536 % 65536))

/-- The words of a near core's q0 with the stamps of those at 0 that are about a job: `n` words are left of a message that is (`mine`), or is
not; a START has 8 words, the others 1 (R52, R382). -/
def State.rebaseWords (s : State) (c j : Nat) : Nat → Bool → List (Word × Nat) → List (Word × Nat)
  | _, _, [] => []
  | 0, _, w :: l =>
    let mine := decide (s.starterJob c w.1 ((l.map (·.1)).headD 0) = j)
    (w.1, if mine then 0 else w.2) :: s.rebaseWords c j (if w.1.toNat % 65536 = 0 then 7 else 0) mine l
  | n + 1, mine, w :: l => (w.1, if mine then 0 else w.2) :: s.rebaseWords c j n mine l

/-- The stamps of a core that job `j` holds at 0, or those of its job bank on a near core; no copy of its lines is left. -/
def Core.rebased (c : Core) (own : Option Nat) (j : Nat) (q0 : List (Word × Nat)) : Core :=
  let b : SMap Bank := match own with
    | some n => c.banks.set Bank.dflt n (c.banks.get Bank.dflt n).rebased
    | none => c.banks
  { c with banks := b, hb := if own.isSome then c.hb.mapV Hurdle.dflt fun _ x => x.rebased else c.hb
           port0 := { c.port0 with words := q0 }
           l1 := c.l1.filter (fun k => decide (k.job ≠ j))
           arrivals := c.arrivals.map (Baton.rebased j), landed := c.landed.map (Baton.rebased j) }

/-- The stamps of a copy at 0: those of its chunks, and of those not yet acknowledged. -/
def Copy.rebased (m : Nat) (k : Copy) : Copy :=
  let fall (e : Nat × Nat) : Nat × Nat :=
    if 2 ^ 50 ≤ e.1 ∧ e.1 < 2 ^ 51 then (e.1, min e.2 1)
    else if 2 ^ 52 ≤ e.1 ∧ e.1 < 2 ^ 53 then (e.1, 2 ^ 20 + e.2 % 2 ^ 20)
    else e
  { k with p0 := 0, pts := 0, stamp := k.stamp - m, data := k.data.map fall }

/-- The stamps of a job's levels, tensors and saved threads. HLAST of a tensor with nothing under way is 0. -/
def Job.rebased (x : Job) : Job :=
  let m := x.stampBase.getD 0
  let z (l : Lvl) : Lvl := { l with pts := 0 }
  let down (t : Tensor) : Tensor :=
    { t with hlast := if t.ops.isEmpty ∧ t.rerep.isNone then 0 else t.hlast - m
             log := t.log.map fun e => (e.1 - m, e.2)
             ops := t.ops.map fun o => { o with stamp := o.stamp - m }
             rerep := t.rerep.map fun r => { r with tc := r.tc - m } }
  { x with lvl := z x.lvl, phase := x.phase.map (fun g => { g with lvl := z g.lvl }), graph := x.graph.map (fun g => { g with lvl := z g.lvl })
           launches := x.launches.map (fun l => { l with lvl := z l.lvl, minPts := 0 })
           saved := x.saved.map (fun v => { v with copyPts := 0, latch := v.latch.map Latch.rebased, wait := v.wait.map (Wait.rebased m) })
           tensors := x.tensors.map (fun (e : Nat × Tensor) => (e.1, down e.2))
           rebasing := false }

/-- The PTS of the saved threads of a job at 0, in their records (R389). -/
def State.rebaseSaved (s : State) (j : Nat) (l : List Saved) : State :=
  l.foldl (fun s v =>
    match s.recordPlace j (s.saveArea j + 8192 * v.k + 0x10) with
    | .ok pa => { s with mem := writeN s.mem pa 8 0 }
    | .error _ => s) s

/-- The lease pairs of the ranges are at 0, and no copy of their lines is left in the LLC: dirty lines are at home. -/
def State.dropPairs (s : State) (rs : List (Nat × Nat)) : State :=
  let out (a n : Nat) : Bool := rs.all fun r => decide (a + n ≤ r.1) || decide (r.1 + r.2 ≤ a)
  { s with pairs := s.pairs.filter fun (e : Nat × Pair) => out (e.1 * 256) 256
           llc := s.llc.filter fun (e : Nat × Option LlcSq) => out (e.1 * 1024) 1024 }

/-- The stamps of what a job has on its way at 0: copies, messages, batons, signals, contributions, collectives. -/
def State.rebaseFlight (s : State) (j m : Nat) : State :=
  { s with
    copies := s.copies.map fun k => if k.job = j then k.rebased m else k
    msgs := s.msgs.map fun g =>
      let mine : Bool := if isNear g.core && decide (g.port = 0) then decide (s.starterJob g.core (g.words.headD 0) (g.words.getD 1 0) = j)
        else decide (s.ownBank j g.core = some g.bank)
      if mine then { g with stamp := 0 } else g
    batons := s.batons.map (Baton.rebased j)
    sigs := s.sigs.map fun g => if (s.ownBank j (coreXY g.die g.x g.y)).isSome then { g with pts := 0 } else g
    rounds := s.rounds.map fun r =>
      let z (c : Contrib) : Contrib := if c.job = j then { c with pts := 0 } else c
      { r with staged := r.staged.map z, held := r.held.map z }
    colls := s.colls.map fun k => if k.job = j then { k with pts := 0, stamps := k.stamps.map (· - m) } else k }

/-- Every timestamp of a job is rebased, its dirty lines are at home, and no copy of its lines is left (R131, steps 3 and 4). -/
def State.rebaseJob (s : State) (j : Nat) : State :=
  match s.job j with
  | none => s
  | some x =>
    let m := x.stampBase.getD 0
    let s := (((s.rebaseSaved j x.saved).dropPairs (s.rangesOf j x)).rebaseFlight j m)
    let s : State := { s with
      slots := s.slots.map fun (e : Nat × Slot) => (e.1, if s.jobOf e.1 = j then e.2.rebased m else e.2)
      cores := s.cores.map fun (e : Nat × Core) => (e.1, e.2.rebased (s.ownBank j e.1) j (s.rebaseWords e.1 j 0 false e.2.port0.words))
      dies := s.dies.map fun (e : Nat × Die) => (e.1, { e.2 with
        l2 := e.2.l2.filter (fun k => decide (k.job ≠ j)), tens := e.2.tens.filter fun k => decide (k.job ≠ j) }) }
    s.setJob j (some x.rebased)

/-! ## When a job is rebased -/

/-- The timestamp at which a job is rebased. -/
def rebaseLimit : Nat := 2 ^ 47

/-- A timestamp of the job has reached the limit. -/
def State.atLimit (s : State) (j : Nat) (x : Job) : Bool :=
  let hi (t : Nat) : Bool := decide (rebaseLimit ≤ t)
  s.slots.any (fun (e : Nat × Slot) => (hi e.2.pts || hi e.2.copyPts) && decide (s.jobOf e.1 = j)) ||
  x.tensors.any (fun (e : Nat × Tensor) => hi e.2.hlast) ||
  s.cores.any (fun (e : Nat × Core) => match s.ownBank j e.1 with
    | none => false
    | some n =>
      let b := e.2.banks.get Bank.dflt n
      hi b.spw || hi b.xferStamp || b.regs.any (fun (r : Nat × SyncReg) => hi r.2.stamp) ||
        b.ports.any (fun (p : Nat × Port) => p.2.words.any fun w => hi w.2) || b.ctrs.any (fun (c : Nat × Counter) => hi c.2.stamp)) ||
  s.pairs.any (fun (e : Nat × Pair) => hi e.2.rts &&
    (s.rangesOf j x).any fun r => decide (r.1 < e.1 * 256 + 256) && decide (e.1 * 256 < r.1 + r.2))

/-- The jobs of which a timestamp has reached the limit stop for a rebase. -/
def State.holdJobs (s : State) : State :=
  { s with jobs := s.jobs.map fun (e : Nat × Option Job) => (e.1, match e.2 with
      | some x => some (if s.atLimit e.1 x then { x with rebasing := true } else x)
      | none => none) }

/-- REBASE: a job that a timestamp near its limit has stopped is rebased, once every slot of it stands at a boundary; then its slots
resume (R131). -/
def execRebase (job : Nat) (s : State) : Out :=
  event Config.infieldDie (fun s =>
    if ((s.job job).map (·.rebasing)).getD false ∧ s.atBoundary job then s.rebaseJob job else s) s

end Sys2Proof.Machine
end

