-- ==== Sys2Proof/Machine/Record.lean ====
section
/-! DEFINITION. Completion records, the end of a level and what follows it, kill acknowledgement (R158, R159, R168-R171, R379,
R393, R426). -/
namespace Sys2Proof.Machine

/-! ## CRC-32C -/

/-- One bit of CRC-32C, least significant bit first. -/
def crcBit (c : Nat) : Nat := if c % 2 = 1 then (c / 2) ^^^ 0x82F63B78 else c / 2
/-- One byte of CRC-32C. -/
def crcByte (c b : Nat) : Nat := times 8 (fun _ => crcBit) (c ^^^ b)
/-- CRC-32C of the low `n` bytes of a number. -/
def crc32c (x n : Nat) : Nat :=
  ((List.range n).foldl (fun c i => crcByte c (fieldN x (8 * i) 8)) 0xFFFFFFFF) ^^^ 0xFFFFFFFF

/-! ## The record (R159, R168, R426) -/

/-- The bytes of a record: `start` is TSTART, `time` and `err` TIME and TIMEERR, `seq` the sequence number. -/
def recordBytes (l : Lvl) (id : Word) (status start time err seq : Nat) : Nat :=
  let w32 (x : Nat) : Nat := x % 2 ^ 32
  let body := packNat 32 [status % 256, w32 l.faults, w32 start, w32 (start / 2 ^ 32), w32 time, w32 (time / 2 ^ 32), w32 err, 0,
    w32 id.toNat, w32 (id.toNat / 2 ^ 32), w32 l.doneN, w32 l.failN, l.fcause % 256 + l.ftid % 2 ^ 24 * 256, w32 l.cancN]
  packNat 512 [body + w32 seq * 2 ^ 448 + crc32c body 56 * 2 ^ 480]

/-- Writes the record of a level with a status: the state, the timestamp, and the cause of a fault (R426). -/
def State.writeRecord (s : State) (j : Nat) (id : Word) (l : Lvl) (status : Nat) : State × Nat × Option Nat :=
  match s.recordPlace j l.record with
  | .error c => (s, l.pts, some c)
  | .ok pa =>
    let seq := match s.job j with | none => 1 | some x => x.seq + 1
    let d := s.die Config.infieldDie
    let start := match l.tstart with | some t => t | none => (Config.freeWord s.frees).toNat
    let s := { s with frees := if l.tstart.isNone then s.frees + 1 else s.frees }
    let s := s.modJob j fun x => { x with seq := seq }
    let (s, t) := s.storeAt pa 64 (recordBytes l id status start d.time d.timeErr seq) l.pts 0 0
    (s, t, none)

/-! ## When a record is written -/

/-- A stopped level has been kill-acknowledged (R158, R393); one that was never placed needs no acknowledgement. -/
def Lvl.settled (l : Lvl) : Bool := l.status.isNone || l.acked || decide (l.status = some 6)

/-- Nothing of a launch is left in a streamer or an engine (R159). -/
def State.launchIdle (s : State) (j : Nat) (id : Word) : Bool :=
  s.copies.all (fun k => !(decide (k.job = j) && decide (k.launch = id)) || k.over) &&
  s.colls.all fun c => !(decide (c.job = j) && decide (c.launch = id))

/-- Every unit of a launch is counted, and its commands are done. -/
def State.launchDone (s : State) (j : Nat) (l : Launch) : Bool :=
  !l.lvl.written && l.lvl.settled && (l.lvl.status.isSome || decide (l.st = 2)) && l.list.all (fun u => decide (u.st = 2)) &&
  s.launchIdle j l.id

/-- The level of an id, where its record is to be written now (R159, R379). -/
def State.recordDue (s : State) (x : Job) (j kind : Nat) (id : Word) : Option Lvl :=
  match kind with
  | 0 => (x.launches.find? fun l => decide (l.id = id) && s.launchDone j l).map (·.lvl)
  | 1 =>
    match x.graph with
    | some g => if x.graphId j = some id ∧ g.lvl.settled ∧ (x.mine j).all (·.lvl.written) then some g.lvl else none
    | none => none
  | 2 =>
    match x.phase with
    | some p =>
      if id = phaseIdOf j p.idx ∧ x.graph.isNone ∧ p.lvl.settled ∧ p.lvl.counted = p.n then some p.lvl else none
    | none => none
  | 3 => if id = jobIdOf j ∧ x.phase.isNone ∧ x.lvl.settled ∧ x.lvl.counted = x.nPhases then some x.lvl else none
  | _ => none

/-! ## What follows a record -/

/-- A launch that waits for `id` waits no longer (R379): with no predecessor left it is ready. -/
def Launch.ready (id : Word) (t : Nat) (l : Launch) : Launch :=
  if l.deps.contains id then
    let deps := l.deps.filter fun d => decide (d ≠ id)
    { l with deps := deps, minPts := max l.minPts t, st := if deps = [] ∧ l.st = 0 then 1 else l.st }
  else l

/-- The level is over: a launch keeps its entry, a graph or phase leaves its parent free for the next one. -/
def Job.over (x : Job) (kind : Nat) (id : Word) (t : Nat) : Job :=
  match kind with
  | 0 => { x with launches := x.launches.map fun l =>
      if l.id = id then { l with st := 4, lvl := { l.lvl with written := true, pts := t } } else l.ready id t }
  | 1 => { x with graph := none }
  | 2 => { x with phase := none }
  | _ => x

/-- A launch from its beginning, with one more try (R171). -/
def Launch.again (l : Launch) : Launch :=
  { l with lvl := newLvl l.lvl.policy l.lvl.retry l.lvl.record (l.lvl.tries + 1), list := [], deps := [], st := 1 }

/-- A level is run again whole (R171): launches that units had added are not. -/
def Job.rerun (x : Job) (kind : Nat) (id : Word) (tries : Nat) : Job :=
  match kind with
  | 0 => { x with launches := x.launches.map fun l => if l.id = id then l.again else l }
  | 1 => { x with launches := x.launches.filter (fun l => !inLevel 1 id l.id),
                  phase := x.phase.map fun p => { p with again := tries + 1 } }
  | _ => { x with launches := x.launches.filter (fun l => !inLevel 2 id l.id), again := tries + 1 }

/-- A level whose record is written, or whose record faulted, is counted by its parent, or passed to it as failed (R169-R171). -/
def State.toParent (s : State) (j kind : Nat) (id : Word) (l : Lvl) (status cause tid t : Nat) : State :=
  let up := parentId kind id
  let k := kind + 1
  let s := s.modJob j fun x => x.modLvl k up fun p => p.raise t
  let parentKilled : Bool := match (s.job j).bind fun x => x.lvlOf k up with | some p => decide (p.status = some 4) | none => false
  match status with
  | 5 => s.modJob j fun x => x.modLvl k up fun p => p.addCanc 1
  | 0 | 1 | 2 => s.modJob j fun x => x.modLvl k up fun p => p.addDone (decide (l.tries ≠ 0))
  | _ =>
    if l.policy = 3 ∧ l.status = some 3 ∧ parentKilled then s.modJob j fun x => x.modLvl k up Lvl.addFail
    else s.childFailed j k up cause tid l.tries fun s => s.modJob j fun x => x.rerun kind id l.tries

/-- A die forgets a job. -/
def Die.forget (d : Die) (j : Nat) : Die :=
  { d with l2 := d.l2.filter (fun k => decide (k.job ≠ j)), tens := d.tens.filter (fun k => decide (k.job ≠ j)), tcache := d.tcache.filter (fun l => decide (l.job ≠ j)),
           walks := d.walks.filter (fun w => decide (w.job ≠ j)),
           keep := d.keep.mapV Keep.dflt fun _ k => if k.owner = some j then Keep.dflt else k }

/-- A core forgets a job. -/
def Core.forget (c : Core) (j : Nat) : Core :=
  { c with l1 := c.l1.filter (fun k => decide (k.job ≠ j)), tlb := c.tlb.filter (fun l => decide (l.job ≠ j)) }

/-- A cluster that a job leaves. -/
def Cluster.leave (k : Cluster) (j : Nat) : Cluster := if k.job = some j then { k with job := none } else k

/-- The frames that a job maps are poisoned no longer (R395). -/
def State.unpoison (s : State) (rs : List (Nat × Nat)) : State :=
  { s with poison := s.poison.filter fun f => rs.all fun r => decide (f * 4096 + 4096 ≤ r.1) || decide (r.1 + r.2 ≤ f * 4096) }

/-- The job is over: its timestamps are rebased, its number returns to the pool, its clusters, KEEP registers, poisoned ranges and part
of C are free, its oriented squares, its ordered rounds and the acknowledgements on their way to its counters are gone, no translation and
no copy of its lines is left, and the driver is told (R49, R52, R90, R93, R96, R131, R274, R378, R395, R398). -/
def State.endJob (s : State) (j : Nat) (written : Bool) : State :=
  let rs := ((s.job j).map (s.rangesOf j)).getD []
  let ts : List Tensor := match s.job j with | none => [] | some x => x.tensors.map (·.2)
  let s := ts.foldl (fun (s : State) t => s.remark t Tensor.dflt) s
  let s := ((s.rebaseJob j).unpoison rs).setJob j none
  let s : State := { s with
    rounds := s.rounds.filter fun r => decide (r.job ≠ j)
    copies := s.copies.filter fun k => !(decide (k.job = j) && k.over)
    pkg := { s.pkg with msix := if written then s.pkg.msix ++ [1] else s.pkg.msix }
    clusters := s.clusters.map fun (e : Nat × Cluster) => (e.1, e.2.leave j)
    dies := s.dies.map fun (e : Nat × Die) => (e.1, e.2.forget j)
    cores := s.cores.map fun (e : Nat × Core) => (e.1, e.2.forget j) }
  s.carveFit

/-- COMPLETION_RECORD_WRITE (R159, R168-R171, R379, R426). A record on an alias page waits for the publish of a shadowed writer there (R146). -/
def execCompletionRecordWrite (id : Word) (s : State) : Out :=
  event Config.infieldDie (fun s =>
    let j := idJob id
    let kind := idKind id
    match s.job j with
    | none => s
    | some x =>
      match s.recordDue x j kind id with
      | none => s
      | some l =>
        if s.aliasBusy j l.record 64 then s
        else
        let (s, t, fault) := s.writeRecord j id l l.final
        let s := s.modJob j fun x => x.over kind id t
        if kind = 3 then
          let s := match fault with | some _ => s.log Config.infieldDie 6 j id.toNat | none => s
          s.endJob j fault.isNone
        else match fault with
          | some c => s.toParent j kind id l 3 c 0 t
          | none => s.toParent j kind id l l.final l.fcause l.ftid t) s

/-! ## KILL_ACK (R158, R172, R393) -/

/-- A thread or baton of a level. -/
def Baton.ofLevel (b : Baton) (j kind : Nat) (id : Word) : Bool := decide (b.job = j) && inLevel kind id b.launchid

/-- The START message of a launch of a level (R382). -/
def Msg.startsLevel (m : Msg) (kind : Nat) (id : Word) : Bool :=
  decide (m.words.length = 8) && decide ((m.words.headD 1).toNat % 65536 = 0) && inLevel kind id (m.words.getD 1 0)

/-- Some word of a port is the id of a launch of a level, behind the first word of a START (R382). -/
def startIn (kind : Nat) (id : Word) : List (Word × Nat) → Bool
  | a :: b :: l => (decide (a.1.toNat % 65536 = 0) && decide (a.1.toNat < 2 ^ 22) && decide (idKind b.1 = 0) && inLevel kind id b.1) || startIn kind id (b :: l)
  | _ => false

/-- A slot holds a thread of a level that has not ended. -/
def State.runsLevel (s : State) (j kind : Nat) (id : Word) (e : Nat × Slot) : Bool :=
  inLevel kind id e.2.sp.launchid && decide (s.jobOf e.1 = j) && decide (e.2.st ≠ .free) && decide (e.2.st ≠ .ended) &&
  (isFar e.1 || decide (slotNo e.1 ≠ 0))

/-- Nothing of the level remains in a slot, a baton, a streamer, an engine or a message. -/
def State.levelGone (s : State) (j kind : Nat) (id : Word) : Bool :=
  s.slots.all (fun e => !s.runsLevel j kind id e) && s.batons.all (fun b => !b.ofLevel j kind id) &&
  s.cores.all (fun e => (e.2.arrivals ++ e.2.landed).all (fun b => !b.ofLevel j kind id) &&
    !startIn kind id (e.2.banks.get Bank.dflt 0 |>.ports.get Port.dflt 0).words && !startIn kind id e.2.port0.words) &&
  s.copies.all (fun k => !(decide (k.job = j) && inLevel kind id k.launch)) &&
  s.colls.all (fun c => !(decide (c.job = j) && inLevel kind id c.launch)) && s.msgs.all fun m => !m.startsLevel kind id

/-- Some slot holds unit `i` of a launch, running or ended. -/
def State.unitHeld (s : State) (j : Nat) (id : Word) (i : Nat) : Bool :=
  s.slots.any (fun (e : Nat × Slot) => decide (e.2.sp.launchid = id) && decide (e.2.sp.unitid.toNat % 2 ^ 32 = i) &&
    decide (e.2.st ≠ .free) && decide (s.jobOf e.1 = j) && (isFar e.1 || decide (slotNo e.1 ≠ 0)))

/-- The units of a stopped launch that no starter has spawned count as cancelled, those that wait for another run by their last one (R168). -/
def Launch.dropUnheld (l : Launch) (held : Nat → Bool) : Launch :=
  let gone := l.list.filter fun u => decide (u.st = 1) && !held u.idx
  let f := (gone.filter fun u => decide (u.tries ≠ 0)).length
  { l with list := l.list.map (fun u => if u.st = 1 ∧ held u.idx = false then { u with st := 2 } else u),
           lvl := { l.lvl with failN := l.lvl.failN + f, cancN := l.lvl.cancN + (gone.length - f) } }

/-- A level is kill-acknowledged. -/
def State.ack (s : State) (j kind : Nat) (id : Word) : State :=
  s.modJob j fun x =>
    let x := if kind = 0 then
        { x with launches := x.launches.map fun l => if l.id = id then l.dropUnheld (s.unitHeld j id) else l }
      else x
    x.modLvl kind id fun l => { l with acked := true }

/-- KILL_ACK: every agent is told again of the cancel, and where nothing of the level remains in any of them the level is
kill-acknowledged (R158, step 4). -/
def execKillAck (id : Word) (s : State) : Out :=
  event Config.infieldDie (fun s =>
    let j := idJob id
    let kind := idKind id
    let live : Bool := match s.job j with
      | none => false
      | some x =>
        (decide (kind = 0) || decide (x.graphId j = some id) || decide ((x.phase.map fun p => phaseIdOf j p.idx) = some id) ||
          decide (id = jobIdOf j)) &&
        ((x.lvlOf kind id).map fun l => l.status.isSome && !l.acked && !l.written).getD false
    if live then
      let s := s.cancelUnits j kind id
      if s.levelGone j kind id then s.ack j kind id else s
    else s) s

end Sys2Proof.Machine
end

