-- ==== Sys2Proof/Machine/Graph.lean ====
section
/-! DEFINITION. The graph engine and the launch controllers: phases, graphs, placement, messages to starters, units of far slots
(R165, R366, R377-R382). -/
namespace Sys2Proof.Machine

/-! ## Starting phases and graphs (R377, R379) -/

/-- A level that names a malformed table (R377). -/
def Lvl.malformed (l : Lvl) : Lvl := { l with fcause := 1, ftid := 0 }

/-- A level is killed because its table is malformed. -/
def State.killTable (s : State) (j kind : Nat) (id : Word) : State :=
  (s.modJob j fun x => x.modLvl kind id Lvl.malformed).stopLevel j kind id 3

/-- A graph or a phase that starts: entry `e` at index `i`, run for the `again`-th time, at a PTS. -/
def startGrp (i : Nat) (e : TabEnt) (again pts : Nat) : Grp :=
  { idx := i, lvl := (newLvl e.policy e.retry e.record again).raise pts, tab := e.tab, n := e.n, again := 0 }

/-- A level that was cancelled before it started is cancelled now (R368). -/
def State.takeEarly (s : State) (j kind : Nat) (id : Word) : State :=
  match s.job j with
  | none => s
  | some x =>
    if x.early.contains id then
      (s.modJob j fun x => { x with early := x.early.filter fun i => decide (i ≠ id) }).stopLevel j kind id 5
    else s

/-- PHASE_START: the next phase of a job starts once no phase runs (R377, R379). -/
def execPhaseStart (job : Nat) (s : State) : Out :=
  event Config.infieldDie (fun s =>
    match s.job job with
    | none => s
    | some x =>
      if x.phase.isSome ∨ x.lvl.status.isSome ∨ x.nPhases ≤ x.lvl.counted then s
      else
        let i := x.lvl.counted
        match s.tabEntry job x.phaseTab i 65535 x.lvl.pts with
        | none => s.killTable job 3 (jobIdOf job)
        | some (s, t, e) =>
          let s := s.modJob job fun x => { x with phase := some (startGrp i e x.again t), again := 0, graph := none }
          s.takeEarly job 2 (phaseIdOf job i)) s

/-- One launch entry of a table of `n`: its record, and the indexes it waits for (R377). -/
def launchEnt (x j p g i n rec_ : Nat) : Option (List Nat) :=
  let deps := ((List.range 4).map fun k => fieldN x (64 + 16 * k) 16).filter fun d => decide (d ≠ 0)
  let after := recWord rec_ 5
  let a := after % 4096
  if launchRecOk rec_ = false ∨ recWord x 0 % 64 ≠ 0 ∨ deps.any (fun d => decide (n < d) || decide (d = i + 1)) then none
  else if after = 0 then some (deps.map (· - 1)).eraseDups
  else if BitVec.ofNat 64 after = launchIdOf j p g a ∧ a < n then some ((deps.map (· - 1)) ++ [a]).eraseDups
  else none

/-- What is left of a dependence table once every entry that waits for none of the rest is taken out, `fuel` times. -/
def pruneDeps : Nat → List (Nat × List Nat) → List (Nat × List Nat)
  | 0, l => l
  | fuel + 1, l => pruneDeps fuel (l.filter fun e => e.2.any fun d => l.any fun q => decide (q.1 = d))

/-- The launches of a graph from its table (R377): the state, the highest timestamp, each record with what it waits for. -/
def State.launchTable (s : State) (j p g tab n pts : Nat) : Nat → Option (State × Nat × List (Nat × List Nat))
  | 0 => some (s, pts, [])
  | i + 1 =>
    match s.launchTable j p g tab n pts i with
    | none => none
    | some (s, t, l) =>
      match s.tableRead j (tab + 16 * i) t 1 with
      | none => none
      | some (s, t, x) =>
        match s.tableRead j (recWord x 0) t 4 with
        | none => none
        | some (s, t, r) => (launchEnt x j p g i n r).map fun d => (s, t, l ++ [(r, d)])

/-- The launches of a checked table. -/
def launchesOf (j p g pts : Nat) (l : List (Nat × List Nat)) : List Launch :=
  (List.range l.length).filterMap fun i =>
    (l[i]?).map fun e => launchOf e.1 (launchIdOf j p g i) 0 pts false (e.2.map (launchIdOf j p g))

/-- The children of a graph that stops before it takes its launches count as cancelled (R168). -/
def State.unopened (s : State) (j : Nat) : State :=
  s.modJob j fun x => { x with graph := x.graph.map fun g => { g with lvl := g.lvl.addCanc g.n } }

/-- The graph that has started takes its launches, after its table is checked. -/
def State.openGraph (s : State) (j p g : Nat) (e : TabEnt) (pts : Nat) : State :=
  let id := graphIdOf j p g
  match s.launchTable j p g e.tab e.n pts e.n with
  | none => (s.unopened j).killTable j 1 id
  | some (s, t, l) =>
    if pruneDeps l.length ((List.range l.length).filterMap fun i => (l[i]?).map fun q => (i, q.2)) ≠ [] then
      (s.unopened j).killTable j 1 id
    else
      let ls := launchesOf j p g t l
      let s := s.modJob j fun x => { x with launches := x.launches ++ ls, nextX := e.n }
      ls.foldl (fun s l => s.takeEarly j 0 l.id) s

/-- GRAPH_START: the next graph of the running phase starts, and its launches without predecessors are ready (R377, R379). -/
def execGraphStart (job : Nat) (s : State) : Out :=
  event Config.infieldDie (fun s =>
    match s.job job with
    | none => s
    | some x =>
      match x.phase with
      | none => s
      | some ph =>
        if x.graph.isSome ∨ ph.lvl.status.isSome ∨ ph.n ≤ ph.lvl.counted then s
        else
          let i := ph.lvl.counted
          match s.tabEntry job ph.tab i 4096 ph.lvl.pts with
          | none => s.killTable job 2 (phaseIdOf job ph.idx)
          | some (s, t, e) =>
            let s := s.modJob job fun x =>
              { x with graph := some (startGrp i e ph.again t), phase := x.phase.map fun q => { q with again := 0 } }
            let id := graphIdOf job ph.idx i
            if x.early.contains id then (s.unopened job).takeEarly job 1 id else s.openGraph job ph.idx i e t) s

/-! ## Placement (R366, R380) -/

/-- Every launch of every job. -/
def State.allLaunches (s : State) : List (Nat × Launch) :=
  s.jobs.flatMap fun (e : Nat × Option Job) => match e.2 with | none => [] | some x => x.launches.map fun l => (e.1, l)

/-- A ready launch that is not placed: new, or pre-empted (R379, R381). -/
def Launch.unplaced (l : Launch) : Bool := l.lvl.status.isNone && !l.lvl.written && (decide (l.st = 1) || decide (l.st = 3))

/-- The order of placement: class, then pre-empted launches, then id (R380, R381). -/
def Launch.order (l : Launch) : Nat := (l.prio * 2 + (if l.st = 3 then 0 else 1)) * 2 ^ 64 + l.id.toNat

/-- Some earlier ready launch is not placed: it blocks every later one (R380, R381). -/
def State.overtakes (s : State) (l : Launch) : Bool :=
  s.allLaunches.any fun e => e.2.unplaced && decide (e.2.order < l.order)

/-- The units of placed launches of some kind that have been given to a core and of which no thread exists yet. -/
def State.pendingBy (s : State) (c : Nat) (p : Launch → Bool) : Nat :=
  (s.allLaunches.map fun e => if e.2.st ≠ 2 ∨ p e.2 = false then 0 else (e.2.list.filter fun u =>
    decide (u.core = c) && !u.far && (decide (u.st = 1) || (decide (u.st = 0) && decide (u.tries = 0))) &&
    !(s.unitHeld e.1 e.2.id u.idx || s.batons.any fun b => decide (b.launchid = e.2.id) && decide (b.unitid.toNat % 2 ^ 32 = u.idx))).length).foldl (· + ·) 0

/-- The units given to a core of which no thread exists yet. -/
def State.pendingOn (s : State) (c : Nat) : Nat := s.pendingBy c fun _ => true

/-- FREE slots among 1-15 of a core that no placed unit is to take. -/
def State.room (s : State) (c : Nat) : Nat := (s.freeSlots c).length - s.pendingOn c

/-- The far slot of a compute core is FREE, and no placed unit is to take it. -/
def State.farFree (s : State) (c : Nat) : Bool :=
  decide ((s.slot (tidOf c 16)).st = .free) &&
  s.allLaunches.all fun e => e.2.st ≠ 2 || e.2.list.all fun u => !(u.far && decide (u.core = c) && decide (u.st = 0))

/-- The launch fits on its eligible cores. -/
def State.fits (s : State) (l : Launch) (cs : List Nat) : Bool :=
  cs.all fun c => decide (l.units ≤ s.room c) && (!l.far || s.farFree c)

/-- The units of a launch on its ranked eligible cores (R366). -/
def unitsOf (l : Launch) (cs : List Nat) : List UnitRec :=
  let unit (i c : Nat) (far : Bool) : UnitRec := { idx := i, tries := 0, core := c, far := far, st := 0 }
  let n := l.units * cs.length
  (List.range n).map (fun i => unit i (cs.getD (i / l.units) 0) false) ++
  (if l.far then (List.range cs.length).map fun r => unit (n + r) (cs.getD r 0) true else [])

/-- One more than the highest order of placement. -/
def State.nextPlaced (s : State) : Nat := s.allLaunches.foldl (fun n e => max n (e.2.placed + 1)) 1

/-- The levels above a placed launch have begun. -/
def Job.begin (x : Job) (t : Nat) : Job :=
  { x with lvl := x.lvl.start t, phase := x.phase.map (fun p => { p with lvl := p.lvl.start t }),
           graph := x.graph.map fun g => { g with lvl := g.lvl.start t } }

/-- A launch of a job changes. -/
def State.modLaunch (s : State) (j : Nat) (id : Word) (f : Launch → Launch) : State :=
  s.modJob j fun x => { x with launches := x.launches.map fun l => if l.id = id then f l else l }

/-- The launch an id names. -/
def State.launchAt (s : State) (id : Word) : Option Launch :=
  (s.job (idJob id)).bind fun x => x.launches.find? fun l => decide (l.id = id)

/-- LAUNCH_PLACEMENT: a ready launch is placed whole, or has no eligible core (R366, R380). -/
def execLaunchPlacement (id : Word) (s : State) : Out :=
  event Config.infieldDie (fun s =>
    match s.launchAt id with
    | none => s
    | some l =>
      let j := idJob id
      let cs := s.eligible j l
      if l.unplaced = false ∨ l.st ≠ 1 then s
      else if cs = [] then s.modLaunch j id fun l => { l with st := 4, lvl := l.lvl.stopWith 6 }
      else if s.overtakes l ∨ s.fits l cs = false then s
      else
        let t := (s.die Config.infieldDie).time
        let n := s.nextPlaced
        (s.modLaunch j id fun l => { l with st := 2, placed := n, list := unitsOf l cs, lvl := l.lvl.start t }).modJob j
          fun x => x.begin t) s

/-! ## Messages to the starter (R382) -/

/-- A message of the controller to q0 of a core; with no room it stays with the controller. -/
def State.tellCore (s : State) (c : Nat) (words : List Word) (stamp : Nat) (f : State → State) : State :=
  let m : Msg := { src := none, core := c, bank := 0, port := 0, words := words, stamp := stamp }
  if s.hasRoom m then f (s.deliver m) else s

/-- The words of START (R382). -/
def startWords (l : Launch) (n i : Nat) : List Word :=
  [BitVec.ofNat 64 (n * 65536 + l.prio * 2 ^ 20), l.id, BitVec.ofNat 64 l.entry, l.args, BitVec.ofNat 64 i,
   BitVec.ofNat 64 l.total, l.handler, l.seedBase]

/-- The units i .. i+n-1 are to be placed by a START on a core: all units of the core at the first placement, else one that is
run again (R171, R366). -/
def State.startable (s : State) (l : Launch) (c n i : Nat) : Bool :=
  let us := l.list.filter fun u => decide (i ≤ u.idx) && decide (u.idx < i + n)
  decide (us.length = n) && us.all (fun u => decide (u.st = 0) && !u.far) && decide (n ≠ 0) &&
  (if us.all fun u => decide (u.tries = 0) then us.all (fun u => decide (u.core = c)) && decide (n = l.units) && decide (i % l.units = 0)
   else decide (n = 1) && (s.eligible (idJob l.id) l).contains c && decide (1 ≤ s.room c))

/-- ASSIGN_START: the START message of a placed launch, or of one unit that is run again, enters q0 of a core (R171, R382). -/
def execAssignStart (core : Nat) (id : Word) (n i : Nat) (s : State) : Out :=
  event Config.infieldDie (fun s =>
    match s.launchAt id with
    | none => s
    | some l =>
      if l.st = 2 ∧ l.lvl.status = none ∧ s.startable l core n i then
        s.tellCore core (startWords l n i) l.minPts fun s =>
          s.modLaunch (idJob id) id fun l => { l with list := l.list.map fun u =>
            if i ≤ u.idx ∧ u.idx < i + n then { u with st := 1, core := core } else u }
      else s) s

/-- ASSIGN_CANCEL: the CANCEL message of a stopped launch enters q0 of a core (R382). -/
def execAssignCancel (core : Nat) (id : Word) (s : State) : Out :=
  event Config.infieldDie (fun s =>
    match s.launchAt id with
    | none => s
    | some l =>
      if l.lvl.status.isSome ∧ l.list.any (fun u => decide (u.core = core) && !u.far) then
        s.tellCore core [2, id] l.minPts fun s => s
      else s) s

/-! ## Far slots (R165, R359) -/

/-- The unit of a far slot as it is placed (R363, R366). -/
def farUnit (l : Launch) (i : Nat) : Slot :=
  { Slot.dflt with
    st := .held
    pc := BitVec.ofNat 56 l.entry
    regs := ((Regs.zero.writeG 1 l.args).writeG 2 (BitVec.ofNat 64 i)).writeG 3 (BitVec.ofNat 64 l.total)
    sp := { Special.zero with unitid := BitVec.ofNat 64 i, launchid := l.id, xhandler := l.handler,
                              seed := l.seedBase + BitVec.ofNat 64 i, xstat := BitVec.ofNat 64 (l.prio * 64) }
    pts := l.minPts
    job := some (idJob l.id) }

/-- The unit of a launch that the far slot of a core is to take: its own, or one that is run again on any eligible core (R171). -/
def State.farNext (s : State) (l : Launch) (c : Nat) : Option UnitRec :=
  l.list.find? fun u => u.far && decide (u.st = 0) &&
    (if u.tries = 0 then decide (u.core = c) else (s.eligible (idJob l.id) l).contains c)

/-- FAR_UNIT_PLACE: a controller places a unit in the far slot of a compute core; it runs from the next lap boundary of the near
core (R163, R165). -/
def execFarUnitPlace (id : Word) (core : Nat) (s : State) : Out :=
  event Config.infieldDie (fun s =>
    match s.launchAt id with
    | none => s
    | some l =>
      match (if l.st = 2 ∧ l.lvl.status = none ∧ (s.slot (tidOf core 16)).st = .free then s.farNext l core else none) with
      | none => s
      | some u =>
        (s.setSlot (tidOf core 16) (farUnit l u.idx)).modLaunch (idJob id) id fun l => { l with list := l.list.map fun q =>
          if q.idx = u.idx then { q with st := 1, core := core } else q }) s

/-- FAR_UNIT_RETIRE: the near core reports the unit of a far slot that has ended, and the slot is FREE (R165, R166). -/
def execFarUnitRetire (t : Nat) (s : State) : Out :=
  event (runDie t) (fun s => if isFar t ∧ (s.slot t).st = .ended then s.reapSlot t else s) s

end Sys2Proof.Machine
end

