-- ==== Sys2Proof/Machine/Host.lean ====
section
/-! DEFINITION. The host link: BAR2 and BAR0, features, attestation, freeze and reset (R139, R397-R399, R403, R407-R409). -/
namespace Sys2Proof.Machine

/-! ## BAR2 (R139, R397) -/

/-- What a host read of `n` bytes returns: an unbacked address reads as all ones (R397). -/
def State.hostBytes (s : State) (pa : Nat) : Nat → Nat
  | 0 => 0
  | n + 1 => (if inHbm pa then (s.mem.get 0 pa).toNat else 255) + 256 * s.hostBytes (pa + 1) n

/-- A host read of a line: a scoped holder publishes, and the home's rts is at least its wts (R134, R139). -/
def Pair.hostRead (p : Pair) : Pair := { p with scope := 0, who := 0, rts := max p.rts p.wts }

/-- HOST_READ: each line is answered at its home (R139). -/
def execHostRead (pa n : Nat) (s : State) : Out :=
  event Config.infieldDie (fun s =>
    (linesOf pa n).foldl (fun s a => if inHbm a then s.setPair a (s.pairOf a).hostRead else s) s) s

/-- HOST_WRITE: each line is written at its home as by an agent with PTS 0; a write to an unbacked address is dropped
(R126, R139, R397). -/
def execHostWrite (pa n x : Nat) (s : State) : Out :=
  event Config.infieldDie (fun s =>
    (linesOf pa n).foldl (fun s a =>
      let lo := max pa a
      let hi := min (pa + n) (a + 256)
      if inHbm a then (s.storeAt lo (hi - lo) (fieldN x (8 * (lo - pa)) (8 * (hi - lo))) 0 0 0).1 else s) s) s

/-! ## BAR0 (R398) -/

/-- DEVID: in recovery bits 31:0 are all ones (R398, R407). -/
def State.devid (s : State) : Nat := 0x57420008 * 2 ^ 32 + (if s.pkg.recovery then 0xFFFFFFFF else Config.stepping.toNat)

/-- CLUMAP of a compute die: the clusters in service (R15, R398). -/
def State.clumap (s : State) (d : Nat) : Nat :=
  ((List.range 32).filter fun k => !(s.cluster (d * 32 + k)).harvested).foldl (fun m k => m + 2 ^ k) 0

/-- A 32-byte entry of a black box as a number (R409). -/
def BoxEnt.bytes (e : BoxEnt) : Nat :=
  e.time % 2 ^ 64 + e.terr % 2 ^ 32 * 2 ^ 64 + e.seq % 2 ^ 32 * 2 ^ 96 + (e.kind % 256 + e.who % 2 ^ 56 * 256) * 2 ^ 128 +
    e.data % 2 ^ 64 * 2 ^ 192

/-- The 64-bit word that a host read of a BAR0 register returns. -/
def State.bar0 (s : State) (off : Nat) : Nat :=
  if off = 0 then s.devid
  else if off = 0x8 then s.pkg.hwbase.toNat
  else if 0x10 ≤ off ∧ off < 0x50 then s.clumap ((off - 0x10) / 8)
  else if 0x1000 ≤ off ∧ off < 0x2000 then readN s.pkg.frames (off - 0x1000) 8
  else if off = 0x3000 then featcap
  else if off = 0x3008 then s.pkg.featsel
  else if off = 0x3100 then s.pkg.budget
  else if off = 0x3300 then s.pkg.actlvl
  else if off = 0x3400 then s.pkg.lnkcsel.toNat
  else if off = 0x3408 then (s.link s.pkg.lnkcsel.toNat).thr
  else if off = 0x3410 then s.pkg.portReq
  else if off = 0x3418 then s.pkg.replayBase
  else if off = 0x3420 then s.pkg.replayStride
  else if 0x4000 ≤ off ∧ off < 0x5000 then readN s.pkg.mailbox (off - 0x4000) 8
  else if 0x10000 ≤ off ∧ off < 0x10000 + 4096 * Config.dieCount then
    let o := (off - 0x10000) % 4096
    fieldN ((s.die ((off - 0x10000) / 4096)).box.get BoxEnt.dflt (o / 32)).bytes (8 * (o % 32)) 64
  else 0

/-- The package after a host write of 8 bytes to a register that has no behaviour of its own. -/
def Package.write (p : Package) (off : Nat) (x : Word) : Package :=
  let v := x.toNat
  if off = 0x8 then { p with hwbase := x &&& 0xFFFFC00000000000 }
  else if 0x1000 ≤ off ∧ off + 8 ≤ 0x2000 then { p with frames := writeN p.frames (off - 0x1000) 8 v }
  else if off = 0x3100 then (if 1000 ≤ v ∧ v ≤ 3600 then { p with budget := v } else p)
  else if off = 0x3400 then (if linkOk x then { p with lnkcsel := x } else p)
  else if off = 0x3418 then { p with replayBase := fieldN v 16 32 * 65536 }
  else if off = 0x3420 then { p with replayStride := v / 65536 * 65536 }
  else if 0x4000 ≤ off ∧ off + 8 ≤ 0x5000 ∧ off ≠ 0x4040 then { p with mailbox := writeN p.mailbox (off - 0x4000) 8 v }
  else p

/-- HOST_REGISTER_WRITE (R398). -/
def execHostRegisterWrite (off : Nat) (x : Word) (s : State) : Out :=
  event Config.infieldDie (fun s => { s with pkg := s.pkg.write off x }) s

/-- FEATSEL_WRITE: once after each reset; a bit that FEATCAP lacks is dropped (R399). -/
def execFeatselWrite (x : Word) (s : State) : Out :=
  event Config.infieldDie (fun s =>
    if s.pkg.featDone then s else { s with pkg := { s.pkg with featsel := x.toNat &&& featcap, featDone := true } }) s

/-- ACTLVLH_WRITE: LEVEL of every controller; a value outside 16-128 is ignored (R101, R398). -/
def execActlvlhWrite (x : Word) (s : State) : Out :=
  event Config.infieldDie (fun s =>
    if 16 ≤ x.toNat ∧ x.toNat ≤ 128 then { s with pkg := { s.pkg with actlvl := x.toNat } } else s) s

/-- LNKCTHR_WRITE: LNKTHR of the link that LNKCSEL selects (R398, R402). -/
def execLnkcthrWrite (x : Word) (s : State) : Out :=
  event Config.infieldDie (fun s =>
    let v := s.pkg.lnkcsel.toNat
    { s with links := s.links.set Link.dflt v { s.link v with thr := x.toNat % 2 ^ 32 } }) s

/-- PORTMODE_WRITE: a 1 is dropped unless LONGHAUL is selected (R398, R403). -/
def execPortmodeWrite (x : Word) (s : State) : Out :=
  event Config.infieldDie (fun s => { s with pkg := { s.pkg with portReq := if s.pkg.featsel.testBit 3 then x.toNat else 0 } }) s

/-- The groups of an external port, in the layout of LNKSEL (R402, R403). -/
def portGroups (p : Nat) : List Nat :=
  (List.range 16).map fun g => 65536 + (Config.opticalDie0 + p / 16) * 2048 + 16 * (p % 16) + g

/-- The bit of a port. -/
def setBit (m p : Nat) (on : Bool) : Nat := if m.testBit p = on then m else m ^^^ 2 ^ p

/-- PORTMODE_APPLY: the change takes effect once no frame of the port is unacknowledged (R403). -/
def execPortmodeApply (port : Nat) (s : State) : Out :=
  event (Config.opticalDie0 + port / 16) (fun s =>
    if 64 ≤ port ∨ (portGroups port).any (fun g => decide ((s.link g).unacked ≠ 0)) then s
    else
      let on := s.pkg.portReq.testBit port
      let s := (portGroups port).foldl (fun s g =>
        ({ s with links := s.links.set Link.dflt g { s.link g with long := on } } : State)) s
      { s with pkg := { s.pkg with portMode := setBit s.pkg.portMode port on } }) s

/-! ## Attestation (R407) -/

/-- The text of a report: DEVID, the die serials, the digests of the three images, FEATSEL and the nonce. -/
def State.reportText (s : State) : List Byte :=
  let bytes (n x : Nat) : List Byte := (List.range n).map fun i => BitVec.ofNat 8 (x >>> (8 * i))
  bytes 8 s.devid ++ (List.range Config.dieCount).flatMap (fun d => bytes 8 (Config.dieSerial d).toNat) ++
  (List.range 3).flatMap (fun i => bytes 32 (Config.imageDigest i).toNat) ++ bytes 8 s.pkg.featsel ++
  bytes 32 (readN s.pkg.mailbox 0 32)

/-- Writes bytes from an offset up. -/
def putBytes (m : SMap Byte) (o : Nat) : List Byte → SMap Byte
  | [] => m
  | b :: l => putBytes (m.set 0 o b) (o + 1) l

/-- ATTESTATION_REQUEST: 1 at mailbox offset 0x40 makes the device write a signed report at 0x80 and set 0x40 to 2; another
value is only stored (R407). -/
def execAttestationRequest (x : Word) (s : State) : Out :=
  event Config.infieldDie (fun s =>
    let m := writeN s.pkg.mailbox 0x40 8 x.toNat
    let m := if x = 1 then
        let t := s.reportText
        let sig : List Byte := (List.range 64).map fun i => BitVec.ofNat 8 ((Config.sm2Sign t).toNat >>> (8 * i))
        writeN (putBytes m 0x80 (t ++ sig)) 0x40 8 2
      else m
    { s with pkg := { s.pkg with mailbox := m } }) s

/-! ## Freeze and reset (R407-R409) -/

/-- FREEZE: the value of R398 sends a freeze token to every die. -/
def execFreeze (x : Word) (s : State) : Out :=
  event Config.infieldDie (fun s =>
    if x ≠ 0x46525A21 then s
    else (List.range Config.dieCount).foldl (fun s d => s.modDie d fun q => { q with token := true }) s) s

/-- FREEZE_TOKEN: the die enters the freeze in its black box and stops its clocks; with the last die the freeze is complete
(R398, R408, R409). -/
def execFreezeToken (die : Nat) (s : State) : Out :=
  event die (fun s =>
    if (s.die die).token then
      let s := (s.log die 8 die 0).modDie die fun q => { q with stopped := true, token := false }
      if (List.range Config.dieCount).all fun d => (s.die d).stopped then
        { s with pkg := { s.pkg with msix := s.pkg.msix ++ [3] } }
      else s
    else s) s

/-- The machine after a reset: what is wired into it, and the model's own fields, stay; `good` says that every boot image passes
its check (R407). -/
def State.restart (s : State) (good : Bool) : State :=
  { State.reset with
    agenda := s.agenda, prompt := s.prompt, picks := s.picks, frees := s.frees
    clusters := (s.clusters.filter fun (e : Nat × Cluster) => e.2.harvested).map fun (e : Nat × Cluster) =>
      (e.1, { Cluster.dflt with harvested := true })
    pkg := { Package.dflt with recovery := !good } }

/-- COLD_RESET: the only way to restart a frozen device (R407, R408). -/
def execColdReset (good : Bool) (s : State) : Out := .next (s.restart good)

/-- WARM_RESET: the black boxes survive, and FEATSEL must be written again (R399, R409); a stopped die stays stopped (R408). -/
def execWarmReset (s : State) : Out :=
  event Config.infieldDie (fun s =>
    { s.restart (!s.pkg.recovery) with
      dies := s.dies.map fun (e : Nat × Die) => (e.1, { Die.dflt with box := e.2.box, boxSeq := e.2.boxSeq, stopped := e.2.stopped }) }) s

end Sys2Proof.Machine
end

