-- ==== Sys2Proof/Machine/Preempt.lean ====
section
/-! DEFINITION. Pre-emption: how a slot stops, save records, the spill of accumulator slots, restore (R148, R336, R381,
R388-R392). -/
namespace Sys2Proof.Machine

/-! ## How a slot stops (R388) -/

/-- Abandoned, to issue again; stopped at a step boundary with what it has done; or not yet. -/
inductive StopHow where
  | again | keep | later
  deriving DecidableEq, Repr

/-- The vector memory instructions with PROGIDX (R269), and the long tensor instructions and stash commands (R353). -/
def isLong : Instr → Bool
  | .vlds _ | .vsts _ | .vgath _ | .vscat _ | .vgathT _ | .vscatT _ | .tredRow _ _ _ | .tscale _ _ _ _ _ | .tew _ _ _ _ _ | .tcopy _ _ _ _ _ _
  | .stash _ | .restore _ => true
  | _ => false

/-- How a PARKED slot stops; `sent` says that the core of a hurdle has signalled. -/
def stopHow (w : Wait) (sent : Nat → Bool) : StopHow :=
  match w.kind with
  | .syncRead _ | .syncWrite _ | .port _ _ | .lapStart | .board | .queueFull | .xfer _ | .fence | .quiet | .turns _ | .event _ _
  | .watch _ | .counter _ | .crewJoin _ | .reap | .acc _ | .view | .room _ _ _ | .doneWait => .again
  | .hurdle n none => if sent n then .later else .again
  | .engine =>
    if engineOf w.instr = 0 then (if w.n = 0 then .again else .keep)
    else if isLong w.instr then .keep else .later
  | .order => if engineOf w.instr = 0 then (if w.n = 0 then .again else .keep) else if isLong w.instr then .keep else .later
  | .load | .store | .hostReply => if isLong w.instr then .keep else .later
  | _ => .later

/-- The amount a CEXP has subtracted. -/
def cexpAmount (x : Slot) (b : Src) : Int :=
  match b with
  | .g r => (x.regs.readG r.toNat).toInt
  | _ => match x.latch.find? fun l => decide (l.field = 2) with | some l => l.val.toInt | none => 0

/-- What the parked instruction of a thread has done to its core is withdrawn: the subtraction of a CEXP, an arrival at a
hurdle (R388). -/
def State.withdraw (s : State) (t : Nat) (w : Wait) : State :=
  let c := coreOf t
  match w.kind, w.instr with
  | .counter n, .cexp _ b =>
    let x := s.ctr c (s.bankNo t) n
    s.setCtr c (s.bankNo t) n { x with val := x.val + cexpAmount (s.slot t) b }
  | .hurdle n none, _ =>
    if w.n = 0 then s.modHb c n fun h => { h with arrs := h.arrs.erase (s.slot t).pts }
    else
      let s := s.modHb c n fun h => { h with extra := dropAt (w.n - 1) h.extra }
      let move (q : Wait) : Wait := if q.kind = .hurdle n none ∧ w.n < q.n then { q with n := q.n - 1 } else q
      { s with slots := s.slots.map fun (e : Nat × Slot) =>
          (e.1, if coreOf e.1 = c then { e.2 with wait := e.2.wait.map move } else e.2) }
  | _, _ => s

/-- A join that no member waits for any more is gone. -/
def State.dropJoins (s : State) (c : Nat) : State :=
  s.modCore c fun x => { x with joins := x.joins.filter fun j => j.failed || decide (j.members ≠ []) }

/-- The slot of a thread stops at its next turn, where it can (R388). -/
def State.stopSlot (s : State) (t : Nat) : Option State :=
  let x := s.slot t
  match x.st, x.wait with
  | .running, _ => some s
  | .parked, some w =>
    if x.mailOut.isSome then none
    else match stopHow w fun n => (s.hb (coreOf t) n).sent with
    | .later => none
    | .keep => some ((s.unlist t).modSlot t fun x => { x with st := .running })
    | .again => some ((((s.withdraw t w).undo t).dropOps t).dropJoins (coreOf t))
  | _, _ => none

/-! ## Stores and loads of the controller -/

/-- `n` lines stored by a controller for a job at a PTS: the state, and the cause of a fault. -/
def State.storeFor (s : State) (j va x pts : Nat) : Nat → State × Option Nat
  | 0 => (s, none)
  | n + 1 =>
    match s.storeFor j va x pts n with
    | (s, some c) => (s, some c)
    | (s, none) =>
      match s.recordPlace j (va + 256 * n) with
      | .error c => (s, some c)
      | .ok pa => ((s.storeAt pa 256 (fieldN x (2048 * n) 2048) pts 0 0).1, none)

/-- `n` lines read for a job; a read that stops gives its cause. -/
def State.loadFor (s : State) (j va : Nat) : Nat → Except Nat (State × Nat)
  | 0 => .ok (s, 0)
  | n + 1 =>
    match s.loadFor j va n with
    | .error c => .error c
    | .ok (s, x) =>
      match s.agentLoad Config.infieldDie j (va + 256 * n) 256 0 false with
      | .error .poison => .error 0x0C
      | .error _ => .error 5
      | .ok (s', _, y) => .ok (s', x + y * 2 ^ (2048 * n))

/-- A save or a spill that faults kills the job (R389). -/
def State.killJob (s : State) (j cause : Nat) : State :=
  (s.modJob j fun x => { x with lvl := { x.lvl with fcause := if x.lvl.fcause = 0 then cause else x.lvl.fcause } }).stopLevel j 3 (jobIdOf j) 3

/-! ## The save record (R389) -/

/-- The number of the record of a slot (R389). -/
def saveNo (t : Nat) : Nat :=
  let c := coreOf t
  if isCompute c then c * 17 + slotNo t
  else 17408 + ((c / 128 - Config.baseDie0) * 4 + (c % 128 - 4)) * 16 + slotNo t

/-- The address of an image in the spill region (R392). -/
def spillAt (area cl a : Nat) : Nat := area + 144 * 2 ^ 20 + (cl * 16 + a) * imageBytes

/-- The accumulator slots that a unit holds in a cluster, as a mask. -/
def State.accMask (s : State) (x : Slot) (j cl : Nat) : Nat :=
  ((List.range 16).filter fun a => holds x j ((s.cluster cl).acc.get Acc.dflt a)).foldl (fun m a => m + 2 ^ a) 0

/-- The 8,192 bytes of a record: `mask` the accumulator slots held in cluster `cl`. -/
def saveBytes (x : Slot) (t mask cl : Nat) : Nat :=
  let head : List Nat :=
    [x.pc.toNat, x.sp.xstat.toNat, x.pts % 2 ^ 48, x.sp.unitid.toNat, x.sp.launchid.toNat, x.sp.seed.toNat, x.sp.xhandler.toNat,
     x.sp.xcause.toNat, x.sp.xvalue.toNat, x.sp.xpc.toNat, x.sp.progidx.toNat % 2 ^ 32,
     2 ^ 63 + (if x.sp.rmark then 2 ^ 62 else 0) + t % 2 ^ 17 * 2 ^ 33 + x.carried.toNat,
     (if mask = 0 then 0 else cl % 32 * 2 ^ 32 + cl / 32 * 2 ^ 24) + mask,
     (if x.crewN = 0 then 0 else x.crewN % 16 * 2 ^ 16 + fieldN x.sp.xstat.toNat 16 16), min 64 x.fails.length]
  packNat 64 head + packNat 64 ((List.range 32).map fun i => (x.regs.readG i).toNat) * 2 ^ (8 * 0x100) +
    packNat 2048 ((List.range 16).map fun i => (x.regs.readV i).toNat) * 2 ^ (8 * 0x200) +
    packNat 64 ((List.range 8).map fun i => (x.regs.readK i).toNat) * 2 ^ (8 * 0x1200) +
    packNat 64 ((x.fails.take 64).map fun e => e.2 % 256 * 2 ^ 32 + e.1 % 2 ^ 32) * 2 ^ (8 * 0x1240)

/-- The operations of a thread are those of another id from now on. -/
def State.renameOps (s : State) (a b : Nat) : State :=
  { s with jobs := s.jobs.map fun (e : Nat × Option Job) =>
      (e.1, e.2.map fun j => { j with tensors := j.tensors.map fun x =>
        (x.1, { x.2 with ops := x.2.ops.map fun o => if o.tid = a then { o with tid := b } else o }) }) }

/-- The accumulator slots of a stopped unit become PARKED (R336, R391). -/
def State.parkAccs (s : State) (x : Slot) (j cl : Nat) : State :=
  let f (a : Acc) : Acc := if holds x j a then { a with st := .parked, fault := false } else a
  s.modCluster cl fun k => { k with acc := k.acc.mapV Acc.dflt fun _ a => f a }

/-- Every copy the thread issued is done; so is every operation of a thread that keeps none (R157, R388). -/
def State.stoppedQuiet (s : State) (t : Nat) : Bool :=
  s.copies.all (fun c => decide (c.tid ≠ t) || c.over) && s.colls.all (fun c => decide (c.tid ≠ t)) && ((s.slot t).wait.isSome || s.quiet t)

/-- What is kept of a stopped instruction: a gather latch is filled again before its next step (R329), and a row group of which only some
bank words are written is written again. -/
def Wait.saved (w : Wait) : Wait := { w with data := (w.data.erase latchKey).erase partKey }

/-- A stopped thread is saved, and its slot is FREE (R389). -/
def State.saveThread (s : State) (j t : Nat) : State :=
  let x := s.slot t
  let cl := clusterOf (coreOf t)
  let mask := if isLocal t then s.accMask x j cl else 0
  let k := saveNo t
  match s.storeFor j (s.saveArea j + 8192 * k) (saveBytes x t mask cl) x.pts 32 with
  | (s, some c) => s.killJob j c
  | (s, none) =>
    let s := if mask = 0 then s else s.parkAccs x j cl
    let s := (s.renameOps t (savedTid k)).setSlot t Slot.dflt
    s.modJob j fun q => { q with
      stopping := q.stopping.filter (fun n => decide (n ≠ t))
      saved := q.saved ++ [{ k := k, launch := x.sp.launchid, unit := x.sp.unitid.toNat % 2 ^ 32, tid := t, total := x.total, wait := x.wait.map Wait.saved,
                             latch := x.latch, buf := x.buf, wts := x.wts, copyPts := x.copyPts }] }

/-- The record of a baton in an arrival buffer: that of the slot it came from, where it is free; else the lowest that is. -/
def State.batonRecord (s : State) (j : Nat) (b : Baton) : Nat :=
  let used (k : Nat) : Bool := match s.job j with | none => false | some x => x.saved.any fun v => decide (v.k = k)
  let k := saveNo b.origin
  if (s.slot b.origin).st = .free ∧ used k = false then k
  else (((List.range 1024).map fun c => saveNo (tidOf c 0)).find? fun k => !used k).getD k

/-- A baton in an arrival buffer is saved from the buffer (R388). -/
def State.saveBaton (s : State) (j : Nat) (b : Baton) : State :=
  let x := threadOf b .running
  let k := s.batonRecord j b
  match s.storeFor j (s.saveArea j + 8192 * k) (saveBytes x b.origin 0 0) x.pts 32 with
  | (s, some c) => s.killJob j c
  | (s, none) => s.modJob j fun q => { q with
      saved := q.saved ++ [{ k := k, launch := b.launchid, unit := b.unitid.toNat % 2 ^ 32, tid := tidOf b.dest 1, total := b.total, wait := none,
                             latch := [], buf := none, wts := none, copyPts := 0 }] }

/-! ## Restore (R390, R392) -/

/-- Field `n` of word `k` of a record. -/
def saveWord (x k : Nat) : Nat := fieldN x (64 * k) 64

/-- The registers of a record. -/
def savedRegs (x : Nat) : Regs :=
  let r := (List.range 32).foldl (fun r i => r.writeG i (BitVec.ofNat 64 (fieldN x (8 * 0x100 + 64 * i) 64))) Regs.zero
  let r := (List.range 16).foldl (fun r i => r.writeV i (BitVec.ofNat 2048 (fieldN x (8 * 0x200 + 2048 * i) 2048))) r
  (List.range 8).foldl (fun r i => r.writeK i (BitVec.ofNat 64 (fieldN x (8 * 0x1200 + 64 * i) 64))) r

/-- The thread of a record, for job `j`: an open span with the record's WMASK (R390, R424). -/
def savedSlot (x j : Nat) (v : Saved) (same : Bool) : Slot :=
  let w (k : Nat) : Word := BitVec.ofNat 64 (saveWord x k)
  let plain (l : Latch) : Latch := if same then l else { l with how := .plain }
  { Slot.dflt with
    st := .held
    wait := v.wait
    latch := v.latch.map plain
    regs := savedRegs x
    pc := BitVec.ofNat 56 (saveWord x 0)
    span := .open_
    wmask := BitVec.ofNat 33 (saveWord x 11)
    sp := { Special.zero with
              xstat := w 1, unitid := w 3, launchid := w 4, seed := w 5, xhandler := w 6, xcause := w 7, xvalue := w 8, xpc := w 9,
              progidx := BitVec.ofNat 64 (fieldN (saveWord x 10) 0 32), rmark := (saveWord x 11).testBit 62 }
    pts := saveWord x 2 % 2 ^ 48
    total := v.total
    fails := (List.range (fieldN (saveWord x 14) 0 7)).map fun i =>
      (fieldN x (8 * 0x1240 + 64 * i) 32, fieldN x (8 * 0x1240 + 64 * i + 32) 8)
    crewN := fieldN (saveWord x 13) 16 4
    job := some j
    buf := v.buf
    wts := v.wts
    copyPts := v.copyPts }

/-- The cluster that a record names. -/
def savedCluster (x : Nat) : Nat := fieldN (saveWord x 12) 24 5 * 32 + fieldN (saveWord x 12) 32 5
/-- The accumulator slots of a record. -/
def savedAccs (x : Nat) : List Nat := (List.range 16).filter fun a => (saveWord x 12).testBit a
/-- The slot has been written to its image. -/
def savedSpill (x a : Nat) : Bool := (saveWord x 13).testBit (32 + a)

/-- ASAVE of a PARKED slot of a cluster to its image, for the unit of record `k` of a job; its SPILL bit is set (R392). -/
def State.spill (s : State) (j k cl a : Nat) : State :=
  let area := s.saveArea j
  let q := (s.cluster cl).acc.get Acc.dflt a
  let img := packNat 2048 ((List.range 257).map q.line)
  match s.storeFor j (spillAt area cl a) img 0 257 with
  | (s, some c) => s.killJob j c
  | (s, none) =>
    let s := s.modCluster cl fun x => { x with acc := x.acc.set Acc.dflt a (freeAcc q) }
    match s.recordPlace j (area + 8192 * k + 0x68) with
    | .error c => s.killJob j c
    | .ok pa =>
      let w := readN s.mem pa 8
      (s.storeAt pa 8 (if w.testBit (32 + a) then w else w + 2 ^ (32 + a)) 0 0 0).1

/-- ALOAD of an image into a slot of a cluster, for a thread; or the cause of its trap (R337). -/
def State.unspill (s : State) (j : Nat) (x : Slot) (from_ to_ a : Nat) : State × Option Nat :=
  match s.loadFor j (spillAt (s.saveArea j) from_ a) 257 with
  | .error c => (s, some c)
  | .ok (s, img) =>
    match accOfImage x j fun n => fieldN img (2048 * n) 2048 with
    | none => (s, some 0x0D)
    | some q =>
      (s.modCluster to_ fun k => { k with acc := k.acc.set Acc.dflt a { q with waiters := (k.acc.get Acc.dflt a).waiters } }, none)

/-- ACLAIM of a slot of a cluster, for a thread; or the cause of its trap, where the slot is not parked for it (R332). -/
def State.reclaim (s : State) (j : Nat) (x : Slot) (cl a : Nat) : State × Option Nat :=
  let q := (s.cluster cl).acc.get Acc.dflt a
  if holds x j q then (s.modCluster cl fun k => { k with acc := k.acc.set Acc.dflt a { q with st := .owned } }, none)
  else (s, some 1)

/-- The restore stub in the slot of a thread: its accumulator slots come back on a cluster, by ACLAIM where they are still parked
there, else by ALOAD; a trap of the stub stops it, with its cause (R390, R392). -/
def State.restoreAccs (s : State) (j k x cl : Nat) (th : Slot) : State × Option Nat :=
  (savedAccs x).foldl (fun (p : State × Option Nat) a =>
    match p with
    | (s, some c) => (s, some c)
    | (s, none) =>
      if cl = savedCluster x ∧ ¬ savedSpill x a then s.reclaim j th cl a
      else
        let s := if savedSpill x a then s else s.spill j k (savedCluster x) a
        s.unspill j th (savedCluster x) cl a) (s, none)

/-- The accumulator slots of a record can come back on a cluster. -/
def State.accsFit (s : State) (x cl : Nat) : Bool :=
  (savedAccs x).all fun a =>
    (decide (cl = savedCluster x) && !savedSpill x a) || decide (((s.cluster cl).acc.get Acc.dflt a).st = .free)

/-- The crew of a saved thread; none where it is in no crew. -/
def savedCrew (x : Nat) : Option Nat := if fieldN (saveWord x 13) 16 4 = 0 then none else some (fieldN (saveWord x 13) 0 16)

/-- The saved threads of a launch with their records, read from the save area. -/
def State.savedOf (s : State) (j : Nat) (l : List Saved) : Option (State × List (Saved × Nat)) :=
  l.foldl (fun (p : Option (State × List (Saved × Nat))) v =>
    match p with
    | none => none
    | some (s, r) =>
      match s.loadFor j (s.saveArea j + 8192 * v.k) 32 with
      | .error _ => none
      | .ok q => some (q.1, r ++ [(v, q.2)])) (some (s, []))

/-- The cores a group of saved threads can go to, the best first: where it stopped, then the cluster of its slots, then the other
eligible cores (R381, R390). -/
def State.homesOf (s : State) (j : Nat) (l : Launch) (g : List (Saved × Nat)) : List Nat :=
  let cs := s.eligible j l
  match g with
  | [] => []
  | (v, x) :: _ =>
    let c := coreOf v.tid
    (if isNear c || cs.contains c then [c] else []) ++
    (if savedAccs x = [] then [] else cs.filter fun q => decide (clusterOf q = savedCluster x)) ++ cs

/-- The slots of a core for a group: its far slot for the thread of a far slot, else FREE slots among 1-15. -/
def State.slotsFor (s : State) (g : List (Saved × Nat)) (c : Nat) : List Nat :=
  match g with
  | [(v, _)] => if isFar v.tid then (if (s.slot (tidOf c 16)).st = .free then [16] else []) else s.freeSlots c
  | _ => s.freeSlots c

/-- One group of saved threads is placed on one core, HELD until the next lap boundary. A unit whose restore stub traps fails with
that cause, before its first instruction (DESIGN CHOICE, notes/assumptions/75.md). -/
def State.placeSaved (s : State) (j : Nat) (l : Launch) (g : List (Saved × Nat)) : Option State :=
  match (s.homesOf j l g).find? fun c => decide (g.length ≤ (s.slotsFor g c).length) && g.all fun e => s.accsFit e.2 (clusterOf c) with
  | none => none
  | some c =>
    some ((g.zip (s.slotsFor g c)).foldl (fun s e =>
      let v := e.1.1
      let t := tidOf c e.2
      let th := savedSlot e.1.2 j v (decide (coreOf v.tid = c))
      let s := (s.setSlot t th).renameOps (savedTid v.k) t
      match s.restoreAccs j v.k e.1.2 (clusterOf c) th with
      | (s, none) => s
      | (s, some cause) => s.failUnit t cause) s)

/-- The saved threads in groups: a crew whole, every other thread alone. -/
def crewGroups : List (Saved × Nat) → List (List (Saved × Nat)) → List (List (Saved × Nat))
  | [], gs => gs
  | e :: l, gs =>
    match savedCrew e.2 with
    | none => crewGroups l (gs ++ [[e]])
    | some n =>
      if gs.any fun g => g.any fun q => decide (savedCrew q.2 = some n) then
        crewGroups l (gs.map fun g => if g.any fun q => decide (savedCrew q.2 = some n) then g ++ [e] else g)
      else crewGroups l (gs ++ [[e]])

/-- A pre-empted launch is restored whole, where it fits. -/
def State.restore (s : State) (j : Nat) (l : Launch) : Option State :=
  match s.job j with
  | none => none
  | some x =>
    match s.savedOf j (x.saved.filter fun v => decide (v.launch = l.id)) with
    | none => some (s.killJob j 5)
    | some (s, vs) =>
      match (crewGroups vs []).foldl (fun (p : Option State) g => p.bind fun s => s.placeSaved j l g) (some s) with
      | none => none
      | some s =>
        let n := s.nextPlaced
        let s := (s.modJob j fun x => { x with saved := x.saved.filter fun v => decide (v.launch ≠ l.id) }).modLaunch j l.id
          fun l => { l with st := 2, placed := n }
        if (s.eligible j l).all fun c => decide (s.pendingOn c ≤ (s.freeSlots c).length) then some s else none

/-! ## Which launch is pre-empted (R381) -/

/-- Some unit of a launch is on a core. -/
def State.usesCore (s : State) (l : Launch) (core : Nat) : Bool :=
  (decide (l.st = 2) && l.list.any fun u => decide (u.core = core) && decide (u.st ≠ 2)) ||
  (List.range 17).any fun k => decide ((s.slot (tidOf core k)).st ≠ .free) && decide ((s.slot (tidOf core k)).sp.launchid = l.id)

/-- What would be left if every placed launch of a class above `c` were pre-empted: its slots FREE, its units still to come gone. -/
def State.vacated (s : State) (c : Nat) : State :=
  let above (t : Nat) (x : Slot) : Bool := match s.launchAt x.sp.launchid with
    | some l => decide (c < l.prio) && decide (idJob l.id = s.jobOf t) && decide (slotNo t ≠ 0 ∨ isFar t)
    | none => false
  { s with
    slots := s.slots.map fun (e : Nat × Slot) => (e.1, if above e.1 e.2 then Slot.dflt else e.2)
    jobs := s.jobs.map fun (e : Nat × Option Job) => (e.1, e.2.map fun x => { x with
      launches := x.launches.map fun l => if c < l.prio ∧ l.st = 2 then { l with list := [] } else l }) }

/-- An unplaced launch fits as things stand: a new one on every eligible core, a pre-empted one by its saved threads (R366, R390). -/
def State.fitsNow (s : State) (l : Launch) : Bool :=
  let j := idJob l.id
  if l.st = 3 then (s.restore j l).isSome else s.fits l (s.eligible j l)

/-- The cores a launch goes to: those it is eligible for, and the near cores where its threads stopped. -/
def State.goesTo (s : State) (l : Launch) : List Nat :=
  let j := idJob l.id
  s.eligible j l ++ (((s.job j).map fun x => (x.saved.filter fun v => decide (v.launch = l.id)).map fun v => coreOf v.tid).getD []).filter isNear

/-- A ready launch is blocked only by cores that launches of classes above its own hold: it would fit without them. The cores it
goes to. -/
def State.blockedAbove (s : State) (b : Launch) : Option (List Nat) :=
  if b.unplaced = false ∨ s.overtakes b ∨ s.fitsNow b then none
  else if (s.vacated b.prio).fitsNow b then
    some (if b.st = 3 then s.goesTo b
          else (s.eligible (idJob b.id) b).filter fun c => decide (s.room c < b.units) || (b.far && !s.farFree c))
  else none

/-- The launch is the most recently placed of those that hold cores from a blocked launch of a lower class. -/
def State.mustYield (s : State) (l : Launch) : Bool :=
  s.allLaunches.any fun e => decide (e.2.prio < l.prio) &&
    (match s.blockedAbove e.2 with
     | none => false
     | some cs => cs.any (fun c => s.usesCore l c) && s.allLaunches.all fun q =>
         q.2.st ≠ 2 || decide (q.2.prio ≤ e.2.prio) || decide (q.2.placed ≤ l.placed) || !cs.any fun c => s.usesCore q.2 c)

/-! ## Pre-emption and restore as steps -/

/-- The live threads of a launch, as ids. -/
def State.threadsOf (s : State) (j : Nat) (id : Word) : List Nat := (s.slots.filter fun e => s.runsLevel j 0 id e).map (·.1)

/-- A launch is being pre-empted. -/
def State.yielding (s : State) (x : Job) (id : Word) : Bool :=
  x.saved.any (fun v => decide (v.launch = id)) || x.stopping.any fun t => decide ((s.slot t).sp.launchid = id)

/-- The batons of a launch in arrival buffers, by core. -/
def State.buffered (s : State) (j : Nat) (id : Word) : List Baton :=
  s.cores.flatMap fun (e : Nat × Core) => e.2.arrivals.filter fun b => b.ofLevel j 0 id

/-- Nothing of the launch is left outside its save records. -/
def State.allSaved (s : State) (j : Nat) (l : Launch) : Bool :=
  (s.threadsOf j l.id).isEmpty && s.batons.all (fun b => !b.ofLevel j 0 l.id) &&
  s.cores.all (fun e => (e.2.landed ++ e.2.arrivals).all fun b => !b.ofLevel j 0 l.id) &&
  l.list.all fun u => decide (u.st ≠ 1) || s.unitHeld j l.id u.idx ||
    (match s.job j with | none => false | some x => x.saved.any fun v => decide (v.launch = l.id) && decide (v.unit = u.idx))

/-- One pass over a launch that is pre-empted: slots stop, stopped threads are saved, and with all saved it is pre-empted. -/
def State.preempt (s : State) (j : Nat) (id : Word) : State :=
  let s := (s.threadsOf j id).foldl (fun s t =>
    if ((s.job j).map fun x => x.stopping.contains t).getD false then s
    else match s.stopSlot t with
      | none => s
      | some s' => s'.modJob j fun x => { x with stopping := x.stopping ++ [t] }) s
  let s := (((s.job j).map (·.stopping)).getD []).foldl (fun s t =>
    if (s.slot t).sp.launchid = id ∧ s.stoppedQuiet t then s.saveThread j t else s) s
  let bs := s.buffered j id
  let s : State := { s with cores := s.cores.map fun (e : Nat × Core) =>
    (e.1, { e.2 with arrivals := e.2.arrivals.filter fun b => !b.ofLevel j 0 id }) }
  let s := bs.foldl (fun s b => s.saveBaton j b) s
  match s.launchAt id with
  | none => s
  | some l => if l.lvl.status.isNone ∧ s.allSaved j l then s.modLaunch j id fun l => { l with st := 3 } else s

/-- PREEMPTION: a controller stops and saves a launch; one that has begun to be pre-empted is pre-empted whole (R381, R388,
R389). -/
def execPreemption (id : Word) (s : State) : Out :=
  event Config.infieldDie (fun s =>
    let j := idJob id
    match s.job j, s.launchAt id with
    | some x, some l =>
      if l.st = 2 ∧ l.lvl.status.isNone ∧ (s.yielding x id ∨ s.mustYield l) then s.preempt j id else s
    | _, _ => s) s

/-- LAUNCH_RESTORE: a pre-empted launch is restored when it next fits (R381, R390, R392). -/
def execLaunchRestore (id : Word) (s : State) : Out :=
  event Config.infieldDie (fun s =>
    match s.launchAt id with
    | none => s
    | some l =>
      if l.st = 3 ∧ l.unplaced ∧ ¬ s.overtakes l then (s.restore (idJob id) l).getD s else s) s

end Sys2Proof.Machine
end

