-- ==== Sys2Proof/Machine/Intake.lean ====
section
/-! DEFINITION. Job intake, and clusters given to a job (R49-R52, R375, R376, R391). -/
namespace Sys2Proof.Machine

/-! ## Intake (R375, R376, R378) -/

/-- The first address of an intake frame among the bytes of all frames. -/
def frameAt (f : Nat) : Nat := 256 * f

/-- Word `k` of a job record. -/
def State.jobWord (s : State) (f k : Nat) : Nat := readN s.pkg.frames (frameAt f + 8 * k) 8

/-- The seal of a record: the SEQ expected, and a CRC that matches (R376). -/
def State.sealed (s : State) (f seq : Nat) : Bool :=
  let x := readN s.pkg.frames (frameAt f) 128
  decide (fieldN x (8 * 0x78) 32 = seq) && decide (fieldN x (8 * 0x7C) 32 = crc32c x 120)

/-- The intake status, as one write; vector 0 is raised (R376, R398). -/
def State.intakeStatus (s : State) (f seq j code : Nat) : State :=
  let v := seq * 2 ^ 32 + (if code = 0 then j * 256 else 0) + code
  { s with pkg := { s.pkg with frames := writeN s.pkg.frames (frameAt f + 0x80) 16 v, msix := s.pkg.msix ++ [0] } }

/-- The root table lies in HBM, or in infield storage below the job's lower limit, and keeps its alignment (R33, R34, R375). -/
def rootOk (root lo : Nat) : Bool :=
  decide (root % 0x80000 = 0) &&
  (decide (root + 0x80000 ≤ hbmEnd) || (decide (infieldBase ≤ root) && decide (root + 0x80000 ≤ infieldBase + lo * 0x100000)))

/-- The record keeps its layout and its limits (R375). -/
def State.recordOk (s : State) (f : Nat) : Bool :=
  let w := s.jobWord f
  let lo := fieldN (w 2) 0 16
  let hi := fieldN (w 2) 16 16
  decide (w 0 = 2 ^ 32) && rootOk (w 1) lo && decide (fieldN (w 2) 32 32 = 0) && decide (lo % 16 = 0) && decide (hi % 16 = 0) &&
  decide (lo ≤ hi) && decide (hi ≤ 768) && decide (w 3 % 65536 = 0) && decide (w 4 % 65536 = 0) && decide (w 5 % 4096 = 0) &&
  decide (w 6 % 64 = 0) && decide (fieldN (w 7) 22 42 = 0) && decide (fieldN (w 7) 0 16 ≠ 0) && decide (w 8 % 64 = 0) &&
  (List.range 6).all fun i => decide (w (9 + i) = 0)

/-- A running job has started from a frame. -/
def State.frameBusy (s : State) (f : Nat) : Bool :=
  s.jobs.any fun e => match e.2 with | some x => decide (x.frame = f) | none => false

/-- The job numbers that no running job holds, the lowest first (R378). -/
def State.freeJobs (s : State) : List Nat := (List.range 16).filter fun j => (s.job j).isNone

/-- The code of intake for a whole record (R376). -/
def State.intakeCode (s : State) (f : Nat) : Nat :=
  if s.frameBusy f then 2
  else if s.freeJobs = [] then 3
  else if s.recordOk f = false then 4
  else if 768 < s.lowerSum + fieldN (s.jobWord f 2) 0 16 then 5
  else 0

/-- The job of the record in a frame, before its first phase starts. -/
def State.jobOfFrame (s : State) (f : Nat) : Job :=
  let w := s.jobWord f
  { frame := f, root := w 1, carveHi := fieldN (w 2) 16 16, carveLo := fieldN (w 2) 0 16, shadowPool := w 3, stashPool := w 4,
    saveArea := w 5, phaseTab := w 6, nPhases := fieldN (w 7) 0 16, leaseLen := 256,
    lvl := newLvl (fieldN (w 7) 16 2) (fieldN (w 7) 18 4) (w 8) 0, phase := none, graph := none, launches := [], nextX := 0, seq := 0,
    tensors := [], shoot := none, again := 0, saved := [], stopping := [], rebasing := false, early := [] }

/-- The job banks of a job number on near cores are cleared; an acknowledgement that was on its way to their counters counts no more (R52). -/
def State.clearBanks (s : State) (j : Nat) : State :=
  { s with
    copies := s.copies.filter fun k => !(isNear k.core && decide (k.bank = j) && k.over)
    cores := s.cores.map fun (e : Nat × Core) =>
      (e.1, if isNear e.1 then { e.2 with banks := e.2.banks.erase j } else e.2) }

/-- A record that is sealed is checked, and accepted or refused (R376): with its job, timestamps begin at 0 and C keeps its limits (R96,
R131). -/
def State.accept (s : State) (f seq : Nat) : State :=
  match s.intakeCode f with
  | 0 =>
    let j := s.freeJobs.headD 0
    let x := s.jobOfFrame f
    let s := ((((s.clearBanks j).setJob j (some x)).rebaseJob j).carveFit).intakeStatus f seq j 0
    { s with pkg := { s.pkg with accepted := s.pkg.accepted.set 0 f (seq + 1) } }
  | code => s.intakeStatus f seq 0 code

/-- The notifies of a frame in order: the first is read once more; one that ends lets the next begin (R376). What is left is
answered. -/
def State.intake (s : State) (f : Nat) : List Notify → State × List Notify
  | [] => (s, [])
  | n :: l =>
    if n.tries = 0 ∧ s.pkg.accepted.get 0 f = n.seq + 1 then s.intake f l
    else if s.sealed f n.seq then (s.accept f n.seq).intake f l
    else if 65 ≤ n.tries + 1 then (s.intakeStatus f n.seq 0 1).intake f l
    else (s, { n with tries := n.tries + 1 } :: l)

/-- Intake goes on with the notifies of a frame. -/
def State.intakeFrame (s : State) (f : Nat) : State :=
  let (s, l) := s.intake f (s.pkg.notifies.filter fun n => decide (n.frame = f))
  { s with pkg := { s.pkg with notifies := (s.pkg.notifies.filter fun n => decide (n.frame ≠ f)) ++ l } }

/-- JOBNOTIFY (R376, R399): before the FEATSEL write a notify is MALFORMED. -/
def execJobnotify (x : Word) (s : State) : Out :=
  service (fun s =>
    let f := x.toNat % 16
    let seq := x.toNat / 2 ^ 32
    if fieldN x.toNat 4 28 ≠ 0 then s
    else if s.pkg.featDone = false then s.intakeStatus f seq 0 4
    else
      let first := s.pkg.notifies.all fun n => decide (n.frame ≠ f)
      let s := { s with pkg := { s.pkg with notifies := s.pkg.notifies ++ [{ frame := f, seq := seq, tries := 0 }] } }
      if first then s.intakeFrame f else s) s

/-- INTAKE_REREAD: the frame is read again after 1 µs (R376). -/
def execIntakeReread (frame : Nat) (s : State) : Out :=
  service (fun s => if s.pkg.notifies.any (fun n => decide (n.frame = frame)) then s.intakeFrame frame else s) s

/-! ## Clusters (R15, R49, R51, R391) -/

/-- A compute core after R51: its local state is cleared; its turns and its caches go on. -/
def Core.cleared (c : Core) : Core :=
  { Core.dflt with turn := c.turn, begun := c.begun, lap := c.lap, cycle := c.cycle, l1 := c.l1, tlb := c.tlb }

/-- No thread, baton or copy is on the cores of a cluster, nor in a far slot that uses their mailboxes, and no copy of another core still reaches one of their windows (R49-R51). -/
def State.clusterIdle (s : State) (cl : Nat) : Bool :=
  (List.range 4).all fun p =>
    let c := coreAt cl p
    (s.freeSlots c).length = 15 && decide ((s.slot (tidOf c 16)).st = .free) && (s.core c).arrivals.isEmpty && (s.core c).landed.isEmpty &&
    s.copies.all (fun k => decide (k.core ≠ c) && (k.over || decide (k.window ≠ some c))) && s.msgs.all fun m => decide (m.core ≠ c)

/-- The record of the saved thread that owns a PARKED accumulator slot. -/
def State.ownerRecord (s : State) (a : Acc) : Option Nat :=
  ((s.job a.job).bind fun x => x.saved.find? fun v => decide (v.launch = a.launchid) && decide (a.unitid.toNat % 2 ^ 32 = v.unit)).map (·.k)

/-- Every PARKED slot of a cluster is spilled (R391, R392). -/
def State.spillCluster (s : State) (cl : Nat) : State :=
  (List.range 16).foldl (fun s a =>
    let q := (s.cluster cl).acc.get Acc.dflt a
    match (if q.st = .parked then s.ownerRecord q else none) with
    | some k => s.spill q.job k cl a
    | none => s) s

/-- CLUSTER_ASSIGNMENT: a cluster in service is cleared and given to a job (R49, R51, R391). -/
def execClusterAssignment (cluster job : Nat) (s : State) : Out :=
  event (cluster / 32) (fun s =>
    let k := s.cluster cluster
    if 256 ≤ cluster ∨ k.harvested ∨ k.job = some job ∨ (s.job job).isNone ∨ s.clusterIdle cluster = false then s
    else
      let s := s.spillCluster cluster
      let s := (List.range 4).foldl (fun s p => s.modCore (coreAt cluster p) Core.cleared) s
      let s := (List.range 64).foldl (fun s n =>
        s.modSlot (tidOf (coreAt cluster (n / 16)) (n % 16)) fun x => { x with fails := [] }) s
      s.setCluster cluster { Cluster.dflt with job := some job }) s

end Sys2Proof.Machine
end

