-- ==== Sys2Proof/Machine/Link.lean ====
section
/-! DEFINITION. Links, external ports, time and the governor (R13, R400-R406, R409, R420). -/
namespace Sys2Proof.Machine

/-! ## Links (R400, R401, R420) -/

/-- The die that holds a link's receiving end (R402). -/
def linkDie (v : Nat) : Nat := fieldN v 11 5
/-- The link is a group of an external port. -/
def linkExt (v : Nat) : Bool := v.testBit 16

/-- Changes a link. -/
def State.modLink (s : State) (v : Nat) (f : Link → Link) : State := { s with links := s.links.set Link.dflt v (f (s.link v)) }

/-- The entry of a wavelength that retrains: itself, or 8 more once its retrain has ended and it waits to be handed back. -/
def backKey (w : Nat) : Nat := 8 + w

/-- At most two wavelengths of a link retrain at once: one that waits takes a free place (R401). -/
def Link.fill (l : Link) : Link :=
  match l.waiting with
  | [] => l
  | w :: rest => if l.training.length < 2 then { l with training := l.training ++ [w], waiting := rest } else l

/-- A wavelength's count has passed the threshold: it retrains, or waits for a place. -/
def Link.retrain (l : Link) (w : Nat) : Link :=
  if l.training.contains w ∨ l.training.contains (backKey w) ∨ l.waiting.contains w ∨ l.out.contains w then l
  else ({ l with waiting := l.waiting ++ [w] } : Link).fill

/-- The error reply of link `v` reaches thread `t`, which is parked on a reply that comes over it: a cancelled unit takes trap 0x13, every
other one trap 0x0C (R393, R423). Where no reply over `v` is on its way, and where the request goes to the runtime, the graph engine or
the master of time for a unit that is not cancelled, nothing changes: that request is sent again (notes/assumptions/74.md). -/
def State.errorReply (s : State) (v t : Nat) : State :=
  match s.waitOf t with
  | none => s
  | some k =>
    if (s.slot t).st = .parked ∧ awaitsReply (some k) then
      match rerun (s.instrOf t) { s with cur := t, grant := some k, broken := some v } with
      | .next s' =>
        if s'.broken.isSome then s
        else if (s.slot t).dying then s.takeCancel t
        else ({ s' with cur := s.cur, grant := none } : State).wakeUp t
      | _ => s
    else s

/-- The link is declared down: its replay buffer is discarded, and an event of kind 7 is entered (R400, R409). Every request in flight on
it ends (R393): a slot that waits for a reply over it receives an error reply; a copy stops with LINKDOWN, and what a stopped copy still had
in flight there is gone; a collective that cannot go on fails. -/
def State.linkDown (s : State) (v : Nat) : State :=
  if (s.link v).down then s
  else
    let ks := s.copies.filter (s.copyOn v)
    let s := (s.slots.map fun (x : Nat × Slot) => x.1).foldl (fun s t => s.errorReply v t) s
    let s := (s.modLink v fun l => { l with down := true, unacked := 0, resend := 0 }).log (linkDie v) 7 v 0
    let s := ks.foldl (fun s k => s.stopCopy k 2) s
    (s.drained v).dropColls (linkExt v)

/-- The modulus of the sequence numbers of a link (R400, R403). -/
def seqMod (v : Nat) : Nat := if linkExt v then 2 ^ 64 else 2 ^ 32

/-- The wavelengths whose count in the window exceeds the threshold, in order. -/
def Link.over (l : Link) : List Nat := (List.range 8).filter fun w => l.active.testBit w && decide (l.thr < l.win.get 0 w)

/-- Each wavelength whose count exceeds the threshold retrains (R401). -/
def Link.retrainOver (l : Link) : Link := l.over.foldl Link.retrain l

/-- A frame enters the current window: corrected symbols are counted by wavelength, for those that are striped (R401, R420). -/
def Link.count (l : Link) (corr : List (Nat × Nat)) : Link :=
  (corr.foldl (fun (l : Link) e =>
    if e.1 < 8 ∧ l.active.testBit e.1 then
      { l with corr := l.corr.set 0 e.1 ((l.corr.get 0 e.1 + e.2) % 2 ^ 32), win := l.win.set 0 e.1 (l.win.get 0 e.1 + e.2) }
    else l) { l with frames := l.frames + 1 }).retrainOver

/-- Frames of a window (R401). -/
def windowFrames : Nat := 65536
/-- Frames that a replay buffer holds (R400). -/
def bufferFrames : Nat := 64
/-- Bytes of a frame with its FEC (R400). -/
def frameBytes : Nat := 544

/-- A group of a LONG port under LINKCRYPT (R404). -/
def State.crypted (s : State) (v : Nat) : Bool := linkExt v && (s.link v).long && s.pkg.featsel.testBit 4

/-! ### What an external group sends in a frame time (R400, R403, R404) -/

/-- A frame time passes: 136 / n ns with n wavelengths (R400). -/
def Link.tick (l : Link) : Link :=
  let c := l.clock + 136000 / ones8 l.active
  { l with clock := c, sentUs := if c / 1000000 = l.clock / 1000000 then l.sentUs else 0 }

/-- The group may send a new frame: its replay buffer or window has room, the latest advertisement allows it, and the key has sent
fewer than 2^40 frames (R400, R403, R404). -/
def Link.maySend (l : Link) (stride : Nat) (crypt : Bool) : Bool :=
  (if l.long then decide ((l.unacked + 1) * frameBytes ≤ stride / 16) else decide (l.unacked < bufferFrames)) &&
  (!l.long || l.rate.all fun r => decide (l.sentUs < r)) && (!crypt || decide (l.keyed + 1 < 2 ^ 40))

/-- What an external group does in a frame time: `acks` frames are acknowledged; where the other end asks for a replay, it goes back to
the first frame not acknowledged; it sends one of those again, under the nonce it had, or a new one, or an idle frame. -/
def Link.send (l : Link) (acks : Nat) (back : Bool) (stride : Nat) (crypt : Bool) : Link :=
  let l := l.tick
  let u := l.unacked - min acks l.unacked
  let l : Link := { l with unacked := u, resend := if back then u else min l.resend u }
  let room : Bool := l.rate.all fun r => decide (l.sentUs < r)
  if l.resend ≠ 0 then
    if l.long && !room then l else { l with resend := l.resend - 1, sentUs := l.sentUs + 1 }
  else if l.maySend stride crypt then
    { l with unacked := l.unacked + 1, sentUs := l.sentUs + 1, keyed := if crypt then l.keyed + 1 else l.keyed }
  else l

/-! ### What a link receives -/

/-- How far a sequence number lies beyond the one expected. -/
def Link.ahead (l : Link) (v seq : Nat) : Nat := (seq + seqMod v - l.seq) % seqMod v

/-- A frame can arrive: its window is not full; on an in-package link it is one of those in the sender's replay buffer, or the next new
one, where the buffer has room (R400, R401). -/
def Link.mayCome (l : Link) (v seq : Nat) : Bool :=
  decide (l.frames < windowFrames) && (linkExt v || decide (l.ahead v seq < l.unacked) ||
    (decide (l.ahead v seq = l.unacked) && decide (l.unacked < bufferFrames)))

/-- A frame enters the replay buffer of an in-package link as it is sent the first time. -/
def Link.buffer (l : Link) (v seq : Nat) : Link :=
  if linkExt v = false ∧ l.ahead v seq = l.unacked then { l with unacked := l.unacked + 1 } else l

/-- The frame expected is delivered and acknowledged: it leaves the replay buffer of an in-package link. -/
def Link.deliver (l : Link) (v : Nat) : Link :=
  { l with seq := (l.seq + 1) % seqMod v, fails := 0, unacked := if linkExt v then l.unacked else l.unacked - 1 }

/-- FRAME_RECEIVE: a frame enters the current window; one that FEC cannot correct, or that fails its tag, is asked for again, and
where the frame expected fails for the sixteenth time in a row the link goes down; in order it is delivered and acknowledged, with all that
waited behind its failures (R393, R400, R401, R404). In the same frame time an external group sends a frame: `picks` says how many of its frames the other end has acknowledged,
whether it asks for a replay, and whether a bad frame failed its tag. -/
def execFrameReceive (link seq : Nat) (bad : Bool) (corr : List (Nat × Nat)) (s : State) : Out :=
  event (linkDie link) (fun s =>
    if (s.link link).down ∨ (s.link link).mayCome link seq = false then s
    else
      let crypt := s.crypted link
      let ext := linkExt link
      let (acks, back, tag) := (s.picks.headD 0, decide (s.picks.getD 1 0 ≠ 0), decide (s.picks.getD 2 0 ≠ 0))
      let s : State := { s with picks := if ext then s.picks.drop 3 else s.picks }
      let s := s.modLink link fun l => (l.buffer link seq).count corr
      let s := if ext then s.modLink link fun l =>
          { l.send acks back s.pkg.replayStride crypt with tagBad := if crypt && bad && tag then l.tagBad + 1 else l.tagBad }
        else s
      if (s.link link).seq = seq then
        if bad then
          let s := s.modLink link fun l => { l with fails := l.fails + 1 }
          if 16 ≤ (s.link link).fails then s.linkDown link else s
        else
          let s := if (s.link link).fails = 0 then s else s.drained link
          s.modLink link fun l => l.deliver link
      else s) s

/-- WINDOW_CLOSE: after 65,536 frames the counts begin again (R401). -/
def execWindowClose (link : Nat) (s : State) : Out :=
  event (linkDie link) (fun s =>
    if (s.link link).frames < windowFrames then s
    else s.modLink link fun l => { l.retrainOver with win := [], frames := 0 }) s

/-- DATA of a black-box entry of kind 2: the wavelength, and 1 for a wavelength handed back (R409). -/
def markerData (w : Nat) (back : Bool) : Nat := w + (if back then 256 else 0)

/-- LANE_MAP_MARKER: the marker that removes a wavelength that is to retrain, or the one that hands it back (R401, R420). Under
six wavelengths the link is down (R400). -/
def execLaneMapMarker (link w : Nat) (back : Bool) (s : State) : Out :=
  event (linkDie link) (fun s =>
    let l := s.link link
    if 8 ≤ w then s
    else if back then
      if l.training.contains (backKey w) then
        (s.modLink link fun l => ({ l with
            active := l.active ||| 2 ^ w, retr := (l.retr + 1) % 2 ^ 32, win := l.win.set 0 w 0, tries := l.tries.set 0 w 0,
            training := l.training.filter fun x => decide (x ≠ backKey w) } : Link).fill).log (linkDie link) 2 link (markerData w true)
      else s
    else if l.training.contains w ∧ l.active.testBit w then
      let s := (s.modLink link fun l => { l with active := l.active ^^^ 2 ^ w }).log (linkDie link) 2 link (markerData w false)
      if ones8 (s.link link).active < 6 then s.linkDown link else s
    else s) s

/-- RETRAIN_COMPLETE: a good retrain lets the second marker be inserted; the third that fails leaves the wavelength out until
reset (R401). -/
def execRetrainComplete (link w : Nat) (good : Bool) (s : State) : Out :=
  event (linkDie link) (fun s =>
    let l := s.link link
    if 8 ≤ w ∨ l.training.contains w = false ∨ l.active.testBit w then s
    else if good then s.modLink link fun l => { l with training := l.training.map fun x => if x = w then backKey w else x }
    else if l.tries.get 0 w < 2 then s.modLink link fun l => { l with tries := l.tries.set 0 w (l.tries.get 0 w + 1) }
    else s.modLink link fun l => ({ l with
        out := w :: l.out, tries := l.tries.set 0 w 0, training := l.training.filter fun x => decide (x ≠ w) } : Link).fill) s

/-! ## External ports (R403, R404) -/

/-- RATE_ADVERTISEMENT: a LONG receiver says what it will accept, in frames per microsecond (R403). -/
def execRateAdvertisement (link rate : Nat) (s : State) : Out :=
  event (linkDie link) (fun s => if linkExt link ∧ (s.link link).long then s.modLink link fun l => { l with rate := some rate } else s) s

/-- KEY_EXCHANGE: a new key is agreed, and the epoch advances (R404). -/
def execKeyExchange (link : Nat) (s : State) : Out :=
  event (linkDie link) (fun s =>
    if s.crypted link then s.modLink link fun l => { l with epoch := (l.epoch + 1) % 2 ^ 32, keyed := 0 } else s) s

/-! ## Time (R405) -/

/-- TIMEERR of a die whose master is disciplined by a source: 1 the host, with its bound; 2 a port. -/
def timeErrOf (src bound : Nat) : Nat := min 0xFFFFFFFF (25000 + (if src = 1 then bound else 0))

/-- A die's TIME follows the master, within 2 ns, and never decreases (R405). -/
def Die.follow (d : Die) (t err : Nat) : Die := { d with time := max d.time t, timeErr := err }

/-- TIME_DISCIPLINE: the master follows TAI, and the TIME of every die follows the master; `die` is one whose reading lies off by up to
2 ns, as `picks` says (R405). Over a port it requires PTP. How fast TIME slews is timing. -/
def execTimeDiscipline (src bound tai die : Nat) (s : State) : Out :=
  event Config.infieldDie (fun s =>
    if src = 1 ∨ (src = 2 ∧ s.pkg.featsel.testBit 5) then
      let m := max s.pkg.master tai
      let off := m + s.picks.headD 2 % 5 - 2
      let s : State := { s with picks := s.picks.tail
                                pkg := { s.pkg with master := m, timeSrc := src, timeBound := bound, lostUs := 0 } }
      (List.range Config.dieCount).foldl (fun s d =>
        s.modDie d fun q => q.follow (if d = die then off else m) (timeErrOf src bound)) s
    else s) s

/-- DISCIPLINE_LOST: the source is lost, or has been for some microseconds more: TIMEERR grows by 1 ps for each (R405). -/
def execDisciplineLost (us : Nat) (s : State) : Out :=
  event Config.infieldDie (fun s =>
    if s.pkg.timeSrc = 0 then s
    else
      let s := (List.range Config.dieCount).foldl (fun s d => s.modDie d fun q => { q with timeErr := min 0xFFFFFFFF (q.timeErr + us) }) s
      { s with pkg := { s.pkg with timeSrc := 3, lostUs := s.pkg.lostUs + us } }) s

/-! ## The governor (R406) -/

/-- The matrix divider after a step of the governor. -/
def nextDivider (n power budget floor : Nat) : Nat :=
  max (if budget < power then min (n + 1) 8 else if power + 100 < budget ∧ floor < n then n - 1 else n) floor

/-- A near array runs: some far slot waits for a near-memory command of its own (R359, R406). -/
def State.nearRuns (s : State) : Bool :=
  s.slots.any fun (e : Nat × Slot) => isFar e.1 && decide (e.2.st = .parked) && (match e.2.wait with
    | some w => (match w.instr with | .nmload _ _ | .nmstrm _ _ _ _ | .nmdrain _ _ _ _ _ => decide (w.kind = .engine) | _ => false)
    | none => false)

/-- GOVERNOR_TICK (R406): an array runs where a far slot's command is in progress, and where the tick falls inside a command that this
model performs in one step, which `near` says (notes/assumptions/72.md). -/
def execGovernorTick (power : Nat) (near : Bool) (s : State) : Out :=
  event Config.infieldDie (fun s =>
    let p := s.pkg
    let near := s.nearRuns || near
    let n := nextDivider p.mdiv power p.budget (if near then 4 else 0)
    let s := { s with pkg := { p with power := power, near := near, limit := decide (p.budget < power), mdiv := n } }
    if n = p.mdiv then s else s.log Config.infieldDie 5 0 n) s

end Sys2Proof.Machine
end

