-- ==== Sys2Proof/Machine/Loader.lean ====
section
/-! DEFINITION. The on-device loader: images, mapping, relocation, loader-time tensors (R233, R235-R238). -/
namespace Sys2Proof.Machine

/-! ## The image (R235) -/

/-- An image: its bytes as a number, and their count. -/
structure Image where
  x   : Nat
  len : Nat

namespace Image
/-- A field of `n` bytes at an offset. -/
def at_ (i : Image) (o n : Nat) : Nat := fieldN i.x (8 * o) (8 * n)
/-- Offset of the section table. -/
def secTab (i : Image) : Nat := i.at_ 0x08 8
/-- Offset of the symbol table. -/
def symTab (i : Image) : Nat := i.at_ 0x10 8
/-- Offset of the relocation table. -/
def relTab (i : Image) : Nat := i.at_ 0x18 8
/-- Offset of the record table. -/
def recTab (i : Image) : Nat := i.at_ 0x28 8
/-- Number of sections. -/
def secs (i : Image) : Nat := i.at_ 0x30 4
/-- Number of symbols. -/
def syms (i : Image) : Nat := i.at_ 0x34 4
/-- Number of relocations. -/
def rels (i : Image) : Nat := i.at_ 0x38 4
/-- Number of records. -/
def recs (i : Image) : Nat := i.at_ 0x3C 4
/-- A field of section `n`. -/
def sec (i : Image) (n o w : Nat) : Nat := i.at_ (i.secTab + 32 * n + o) w
/-- A field of symbol `n`. -/
def sym (i : Image) (n o w : Nat) : Nat := i.at_ (i.symTab + 24 * n + o) w
/-- A field of relocation `n`. -/
def rel (i : Image) (n o w : Nat) : Nat := i.at_ (i.relTab + 24 * n + o) w
/-- Size of section `n`. -/
def secSize (i : Image) (n : Nat) : Nat := i.sec n 16 8
/-- Kind of section `n`: 1 text, 2 rodata, 3 data. -/
def secKind (i : Image) (n : Nat) : Nat := i.sec n 4 4

/-- The offsets of the records in the record table, for `n` of them; none where a size is wrong. -/
def recOffs (i : Image) : Nat → Nat → Option (List Nat)
  | 0, _ => some []
  | n + 1, o =>
    let k := i.at_ (i.recTab + o) 4
    let size := i.at_ (i.recTab + o + 4) 4
    if i.len < i.recTab + o + 16 ∨ i.at_ (i.recTab + o + 12) 4 ≠ 0 ∨ ¬ ((k = 1 ∧ size = 80) ∨ (k = 2 ∧ size = 16)) ∨
        i.len < i.recTab + o + size ∨ i.syms ≤ i.at_ (i.recTab + o + 8) 4 then none
    else (i.recOffs n (o + size)).map (o :: ·)

/-- A power of two up to 4,096, as an alignment. -/
def alignOk (a : Nat) : Bool := (List.range 13).any fun k => decide (a = 2 ^ k)

/-- The bytes that a relocation changes. -/
def relWidth (kind : Nat) : Nat := if kind = 2 then 4 else if kind = 6 then 16 else 8

/-- Bytes of the record table. -/
def recBytes (i : Image) : Nat :=
  match i.recOffs i.recs 0 with
  | none => 0
  | some os => match os.getLast? with | none => 0 | some o => o + i.at_ (i.recTab + o + 4) 4

/-- The header, and the tables of fixed entries, lie in the image (R235). -/
def framed (i : Image) : Bool :=
  decide (64 ≤ i.len) && decide (i.at_ 0 4 = 0x014F4843) && decide (i.at_ 4 4 = 1) &&
  decide (i.secTab + 32 * i.secs ≤ i.len) && decide (i.symTab + 24 * i.syms ≤ i.len) && decide (i.relTab + 24 * i.rels ≤ i.len)

/-- The entries of the section and symbol tables keep their layout (R235). -/
def entriesOk (i : Image) : Bool :=
  ((List.range i.secs).all fun n => decide (1 ≤ i.secKind n) && decide (i.secKind n ≤ 3) && alignOk (i.sec n 8 8) &&
    decide (i.sec n 24 8 + i.secSize n ≤ i.len)) &&
  ((List.range i.syms).all fun n => decide (i.sym n 4 4 < i.secs) || decide (i.sym n 4 4 = 0xFFFFFFFF))

/-- Entry `n` of the relocation table keeps its layout (R235). -/
def relOk (i : Image) (n : Nat) : Bool :=
  let c := i.rel n 0 4
  let size := if c = 0xFFFFFFFE then i.recBytes else i.secSize c
  (decide (c < i.secs) || decide (c = 0xFFFFFFFE)) && decide (1 ≤ i.rel n 4 4) && decide (i.rel n 4 4 ≤ 7) &&
  decide (i.rel n 8 8 + relWidth (i.rel n 4 4) ≤ size) && decide (i.rel n 16 4 < i.syms)

/-- The first relocation that does not. -/
def badRel (i : Image) : Option Nat := (List.range i.rels).find? fun n => !i.relOk n

/-- The image keeps its layout (R235). -/
def ok (i : Image) : Bool := i.framed && (i.recOffs i.recs 0).isSome && i.entriesOk && i.badRel.isNone

/-- Bytes of a section's pages. -/
def secPages (i : Image) (n : Nat) : Nat := (i.secSize n + 4095) / 4096
/-- The address of section `n`: sections follow one another from `base`, each at the start of a page. -/
def secVa (i : Image) (base n : Nat) : Nat := base + 4096 * ((List.range n).map i.secPages).foldl (· + ·) 0

/-- A symbol is undefined: of no section, with no value, and global (absolute ones that are zero are local). -/
def undef (i : Image) (n : Nat) : Bool := decide (i.sym n 4 4 = 0xFFFFFFFF) && decide (i.sym n 8 8 = 0) && decide (i.sym n 16 8 % 2 = 1)
/-- The address, or the value, of a symbol; an absolute value is the unsigned number of its 8 bytes (DESIGN CHOICE: R235 does not give
it a sign, notes/assumptions/69.md). -/
def symVal (i : Image) (base n : Nat) : Nat :=
  if i.sym n 4 4 = 0xFFFFFFFF then i.sym n 8 8 else (i.secVa base (i.sym n 4 4) + i.sym n 8 8) % 2 ^ 64
end Image

/-! ## Mapping -/

/-- What stops the loader: the fields of its status record (R238); a field that has no meaning is none. -/
structure LoadStop where
  status  : Nat
  detail  : Nat
  section_ : Option Nat
  symbol  : Option Nat
  offset  : Option Nat
  value   : Nat

/-- A failure without a place. -/
def loadStop (st : Nat) : LoadStop := { status := st, detail := 0, section_ := none, symbol := none, offset := none, value := 0 }

/-- FORMAT raised by relocation `n`: its place is named (R238). -/
def relStop (i : Image) (n : Nat) : LoadStop :=
  { loadStop 4 with section_ := some (i.rel n 0 4), symbol := some (i.rel n 16 4), offset := some (i.rel n 8 8) }

/-- Maps the pages of a section, each CACHED and with the rights of its kind, and copies its bytes (R232). -/
def State.mapSection (s : State) (root base n : Nat) (i : Image) : Option State :=
  (List.range (i.secPages n)).foldl (fun (s : Option State) p => s.bind fun s =>
    (s.mapPage State.takeFrame root (i.secVa base n + 4096 * p) (decide (i.secKind n = 3)) (decide (i.secKind n = 1))).map fun r =>
      let m := min 4096 (i.secSize n - 4096 * p)
      { r.1 with mem := writeN r.1.mem (r.2 * 4096) m (i.at_ (i.sec n 24 8 + 4096 * p) m), loaded := r.2 :: r.1.loaded }) (some s)

/-! ## Relocation (R236) -/

/-- Writes `n` bytes at a virtual address that the loader has mapped. -/
def State.poke (s : State) (j va n x : Nat) : State :=
  (List.range n).foldl (fun s k => match s.walkOf j (va + k) with
    | .ok l => { s with mem := s.mem.set 0 (l.phys (va + k)) (BitVec.ofNat 8 (x >>> (8 * k))) }
    | .error _ => s) s

/-- `n` bytes at a virtual address; none where a byte is not mapped. -/
def State.peek (s : State) (j va : Nat) : Nat → Option Nat
  | 0 => some 0
  | n + 1 =>
    match s.walkOf j va with
    | .error _ => none
    | .ok l => (s.peek j (va + 1) n).map fun x => (s.mem.get 0 (l.phys va)).toNat + 256 * x

/-- The field of `w` bits from bit `lo` of `x` takes a value. -/
def setField (x lo w v : Nat) : Nat := x - fieldN x lo w * 2 ^ lo + v % 2 ^ w * 2 ^ lo

/-- The value of a relocation, whether it fits, and the new bytes from the old ones (R236): `sa` is S + A, `s_` S, `p` P. Where the
difference of WOFF35 or JOIN12 is no multiple of 8, the value that did not fit is the difference in bytes (DESIGN CHOICE: R238 does not
say, notes/assumptions/69.md). -/
def relocate (kind : Nat) (sa : Int) (s_ p : Nat) (block : Bool) (old : Nat) : Int × Bool × Nat :=
  let inS (v : Int) (n : Nat) : Bool := decide (-(2 : Int) ^ (n - 1) ≤ v) && decide (v < 2 ^ (n - 1))
  let d : Int := sa - p
  match kind with
  | 1 => (sa, true, (sa % 2 ^ 64).toNat)
  | 2 => (sa, decide (0 ≤ sa) && decide (sa < 2 ^ 32), (sa % 2 ^ 32).toNat)
  | 3 =>
    let v := if d % 8 = 0 then d / 8 else d
    (v, decide (d % 8 = 0) && inS v 35 && block, setField old 0 35 (v % 2 ^ 35).toNat)
  | 4 => (sa, inS sa 32, setField old 0 32 (sa % 2 ^ 32).toNat)
  | 5 => (sa, inS sa 32, setField old 0 32 (sa % 2 ^ 32).toNat)
  | 6 => (sa, true, setField (setField old 32 4 ((sa % 2 ^ 64).toNat / 2 ^ 60)) 64 60 (sa % 2 ^ 60).toNat)
  | _ =>
    let d : Int := s_ - (p : Int)
    let v := if d % 8 = 0 then d / 8 else d
    (v, decide (d % 8 = 0) && decide (1 ≤ v) && decide (v ≤ 4095) && block, setField old 4 12 (v % 2 ^ 12).toNat)

/-- Relocation `n` in the mapped sections, or in the record table, whose bytes are a number. -/
def State.applyRel (s : State) (j base : Nat) (i : Image) (recs n : Nat) : Except LoadStop (State × Nat) :=
  let c := i.rel n 0 4
  let kind := i.rel n 4 4
  let off := i.rel n 8 8
  let sym := i.rel n 16 4
  let stop (st v : Nat) : LoadStop := { status := st, detail := kind, section_ := some c, symbol := some sym, offset := some off, value := v }
  if i.undef sym then .error (stop 2 0)
  else
    let w := Image.relWidth kind
    let inRec := decide (c = 0xFFFFFFFE)
    let p := if inRec then off else i.secVa base c + off
    let old := if inRec then fieldN recs (8 * off) (8 * w) else (s.peek j p w).getD 0
    let sv := i.symVal base sym
    let r := relocate kind (sv + sintOf 32 (i.rel n 20 4)) sv p (i.sym sym 16 8 / 2 % 2 = 1) old
    if r.2.1 = false then .error (stop 1 (r.1 % 2 ^ 64).toNat)
    else if inRec then .ok (s, setField recs (8 * off) (8 * w) r.2.2)
    else .ok (s.poke j p w r.2.2, recs)

/-- Every relocation in order. -/
def State.applyRels (s : State) (j base : Nat) (i : Image) : Except LoadStop (State × Nat) :=
  (List.range i.rels).foldl (fun r n => match r with
    | .error e => .error e
    | .ok (s, recs) => s.applyRel j base i recs n) (.ok (s, i.at_ i.recTab i.recBytes))

/-! ## Loader-time tensors (R233) -/

/-- The status of a tensor record's arguments, in the order of R60; the contents are checked apart. -/
def recStatus (d : AllocDesc) : Nat :=
  if 2 ^ 18 ≤ d.caps then 2
  else match (if d.fmt < 256 then tagOf d.fmt else none) with
    | none => 3
    | some f =>
      if ¬ sclOk f d.scl then 3
      else if d.rows = 0 ∨ 2 ^ 24 < d.rows ∨ d.cols = 0 ∨ 2 ^ 24 < d.cols ∨ d.pages = 0 ∨ 2 ^ 16 < d.pages ∨
          ¬ geometryOk f d.rows d.cols d.pages then 4
      else if ¬ combineOk f d.caps then 5
      else if ¬ scaleOk d.scl d.base then 8
      else 0

/-- The bytes [a, a+n) lie within one section of the image. -/
def Image.inSection (i : Image) (base a n : Nat) : Bool :=
  (List.range i.secs).any fun k => decide (i.secVa base k ≤ a) && decide (a + n ≤ i.secVa base k + i.secSize k)

/-- FORMAT raised by a record (R238). -/
def recordStop : LoadStop := { loadStop 4 with section_ := some 0xFFFFFFFE }

/-- The record at an offset of the record table: its TALLOC, and the handle in its symbol. Contents outside the image's sections are
malformed before any TALLOC is made; PAGES omitted is 1 (R233). -/
def State.loadTensor (s : State) (j base : Nat) (i : Image) (recs o : Nat) : Except (LoadStop × State) (State × List Nat) :=
  let w (k : Nat) : Nat := fieldN recs (8 * (o + 16 + 8 * k)) 64
  let d : AllocDesc := { fmt := w 0, scl := w 5, caps := w 4, rows := w 1, cols := w 2, pages := if w 3 = 0 then 1 else w 3, base := w 6 }
  let name := fieldN recs (8 * (o + 8)) 32
  let stop (st : Nat) : LoadStop :=
    { status := 3, detail := st, section_ := some 0xFFFFFFFE, symbol := some name, offset := some o, value := 0 }
  if fieldN recs (8 * o) 32 ≠ 1 then .ok (s, [])
  else
    let bytes := match tagOf d.fmt with | some f => dataBytes f d.rows d.cols d.pages | none => 1
    if w 7 ≠ 0 ∧ i.inSection base (w 7) bytes = false then .error (recordStop, s)
    else match tagOf d.fmt, recStatus d with
      | some f, 0 =>
        let data := if w 7 = 0 then 0 else (s.peek j (w 7) bytes).getD 0
        let k : AllocPick := { full := s.picks.headD 0, at_ := s.picks.getD 1 0, cls := s.picks.getD 2 0, base := s.picks.getD 3 0 }
        let s : State := { s with picks := s.picks.drop 4 }
        let pts := match s.job j with | none => 0 | some x => x.lvl.pts
        match s.allocTensor j pts d f data k with
        | (s, h, 0, _) => .ok (s.poke j (i.symVal base name) 8 h, [h])
        | (s, _, st, _) => .error (stop st, s)
      | _, st => .error (stop (if st = 0 then 3 else st), s)

/-- Every record in order, with the handles allocated. -/
def State.loadTensors (s : State) (j base : Nat) (i : Image) (recs : Nat) (hs : List Nat) : List Nat → Except (LoadStop × State × List Nat) (State × List Nat)
  | [] => .ok (s, hs)
  | o :: l =>
    match s.loadTensor j base i recs o with
    | .error (e, s) => .error (e, s, hs)
    | .ok (s, h) => s.loadTensors j base i recs (hs ++ h) l

/-! ## The loader (R238) -/

/-- The 32 bytes of the status record; a field without a meaning is a free value. -/
def State.loadStatus (s : State) (pa : Nat) (e : LoadStop) : State :=
  let pickOr (o : Option Nat) (k w : Nat) : Nat := match o with
    | some x => x % 2 ^ w
    | none => (Config.freeWord (s.frees + k)).toNat % 2 ^ w
  let x := e.status % 2 ^ 32 + e.detail % 2 ^ 32 * 2 ^ 32 + pickOr e.section_ 0 32 * 2 ^ 64 + pickOr e.symbol 1 32 * 2 ^ 96 +
    pickOr e.offset 2 64 * 2 ^ 128 + e.value % 2 ^ 64 * 2 ^ 192
  { s with mem := writeN s.mem pa 32 x, frees := s.frees + 3 }

/-- A tensor that the loader allocated is freed: its entry as TFREE leaves it. -/
def State.unload (s : State) (j h : Nat) : State :=
  (s.modTensor j (h / 65536) Tensor.freed).settleTensor j (h / 65536)

/-- The state after a load that fails: what was mapped is unmapped, the tensors are freed. -/
def State.undoLoad (old new : State) (j : Nat) (hs : List Nat) : State :=
  let s := hs.foldl (fun s h => s.unload j h) new
  { s with mem := old.mem, loaded := old.loaded, dirty := old.dirty }

/-- Maps, relocates and allocates. -/
def State.load (s : State) (j root base : Nat) (i : Image) : Except (LoadStop × State × List Nat) (State × List Nat) :=
  if i.framed = false ∨ base % 4096 ≠ 0 then .error (loadStop 4, s, [])
  else if (i.recOffs i.recs 0).isNone then .error (recordStop, s, [])
  else if i.entriesOk = false then .error (loadStop 4, s, [])
  else match i.badRel with
  | some n => .error (relStop i n, s, [])
  | none => match (List.range i.secs).foldl (fun (s : Option State) n => s.bind fun s => s.mapSection root base n i) (some s) with
    | none => .error (loadStop 5, s, [])
    | some s1 =>
      match s1.applyRels j base i with
      | .error e => .error (e, s1, [])
      | .ok (s2, recs) => s2.loadTensors j base i recs [] ((i.recOffs i.recs 0).getD [])

/-- LOADER_LOAD: the image at a physical address is loaded for a job at `base`, and the status record is written (R238). -/
def execLoaderLoad (job image len base status : Nat) (s : State) : Out :=
  service (fun s =>
    match s.job job with
    | none => s
    | some x =>
      let i : Image := { x := readN s.mem image len, len := len }
      match s.load job x.root base i with
      | .error (e, s', hs) => (s.undoLoad s' job hs).loadStatus status e
      | .ok (s', _) => s'.loadStatus status (loadStop 0)) s

end Sys2Proof.Machine
end

