-- ==== Sys2Proof/Machine/Issue.lean ====
section
/-! DEFINITION. One turn of a core: the lap boundary, cancels, fetching and the block rules, the instruction that issues, and
parked slots that look at their instruction again (R130, R161-R163, R172, R209-R212, R256, R424). -/
namespace Sys2Proof.Machine

/-! ## Fetching (R31, R209-R212, R424) -/

/-- Reads the header at the PC: the written mask is cleared and its block is open (R209-R211). -/
def Slot.openBlock (x : Slot) (w : Word) : Slot :=
  { x with pc := x.pc + 8, wmask := 0,
           span := .block (Dec.bits w 49 11 : BitVec 11).toNat (Dec.bits w 33 16) (Dec.bits w 17 16) (Dec.bit w 16) }

/-- XVALUE of trap 0x02 (R211). -/
def blockValue (reason : Nat) (pc : BitVec 56) : Word := BitVec.ofNat 64 (reason * 2 ^ 60 + pc.toNat)

/-- The words of the span that follow the word at the PC. -/
def Span.hasNext : Span → Bool
  | .entry => false
  | .block left _ _ _ => decide (2 ≤ left)
  | .open_ => true

/-- The instruction whose first word is `w`, at the PC of thread `t`, which stands in a span (R219, R226). -/
def State.decodeAt (s : State) (t : Nat) (w : Word) : Except (Nat × Word) Instr :=
  let x := s.slot t
  let dec (next : Option Word) : Except (Nat × Word) Instr :=
    match Dec.decode (isFar t) w next with
    | .ok i => .ok i
    | .error e => .error (e.cause.toNat, e.xvalue)
  if Dec.isMovx w ∧ x.span.hasNext then
    match s.fetch t (x.pc + 8).toNat with
    | .ok n => dec (some n)
    | .error e => .error e
  else dec none

/-- The word at the PC, which is no header, in its span: only a word of a span is an instruction (R211, R212). -/
def State.inSpan (s : State) (t : Nat) (w : Word) : Except (Nat × Word) Instr :=
  let x := s.slot t
  match x.span with
  | .entry => .error (3, x.pc.setWidth 64)
  | .block 0 _ _ _ => .error (2, blockValue 0 x.pc)
  | _ => s.decodeAt t w

/-- The answer of a fetch, with the state in which its trap is taken. -/
def State.answer (s : State) (r : Except (Nat × Word) Instr) : Except (State × Nat × Word) (Instr × State) :=
  match r with
  | .ok i => .ok (i, s)
  | .error (c, v) => .error (s, c, v)

/-- The header `w` at the PC opens its block, and the word behind it is next, in the same turn (R209, R211). LENZERO does not arise where
the header ends an open span (R424): a header that follows an empty block opens its own. -/
def State.fetchHeader (s : State) (t : Nat) : Nat → Word → Except (State × Nat × Word) (Instr × State)
  | 0, _ => .error (s, 2, blockValue 2 (s.slot t).pc)
  | fuel + 1, w =>
    let x := s.slot t
    let empty : Bool := (Dec.bits w 49 11 : BitVec 11) == 0
    match x.span with
    | .block (_ + 1) _ _ _ => .error (s, 2, blockValue 2 x.pc)
    | k =>
      if empty && decide (k ≠ .open_) then .error (s, 2, blockValue 1 x.pc)
      else
        let s := s.modSlot t fun x => x.openBlock w
        match s.fetch t (s.slot t).pc.toNat with
        | .error e => s.answer (.error e)
        | .ok w => if Dec.isHeader w then s.fetchHeader t fuel w else s.answer (s.inSpan t w)

/-- Fetches the next instruction of thread `t`; headers at the PC open their blocks in the same turn. The state goes with the
answer: the trap of a word behind a header is that word's own. -/
def State.fetchIssue (s : State) (t : Nat) : Except (State × Nat × Word) (Instr × State) :=
  match s.fetch t (s.slot t).pc.toNat with
  | .error e => s.answer (.error e)
  | .ok w => if Dec.isHeader w then s.fetchHeader t 3 w else s.answer (s.inSpan t w)

/-! ## Issuing -/

/-- The instruction counts as issued; before every 4,096th since the start, and since the last wake-up, the PTS rises by 1 (R130,
notes/assumptions/17.md). -/
def State.count (s : State) (t : Nat) : State :=
  let s := if (s.slot t).tickDue then s.tick t else s
  s.modSlot t fun x => { x with issued := x.issued + 1, total := x.total + 1, ticked := false }

/-- A RUNNING slot issues the instruction at its PC, or takes the trap of its fetch. -/
def State.issue (s : State) (t : Nat) : Out :=
  match s.fetchIssue t with
  | .error (s, c, v) => .next ((s.logFetch t c v).trapMe c v)
  | .ok (i, s) => exec i (s.count t)

/-- The waits that a slot looks at again at its turn; the others end by a reply. -/
def looksAgain : WaitKind → Bool
  | .ready | .syncRead _ | .syncWrite _ | .port _ _ | .board | .queueFull | .counter _ | .xfer _ | .fence | .quiet
  | .event _ _ | .watch _ | .hurdle _ _ | .crewJoin _ | .reap | .acc _ | .view | .room _ _ _ | .order | .doneWait
  | .widen | .error => true
  | _ => false

/-- A turn lost to a parked slot (R370). -/
def State.parkedTurn (s : State) (c : Nat) : State := s.modCore c fun x => { x with parks := (x.parks + 1) % 2 ^ 48 }

/-- The turn of a PARKED slot: a PARK counts it (R256); a wait whose condition holds ends (R162). -/
def State.parkedTurnOf (s : State) (c t : Nat) (w : Wait) : Out :=
  match w.kind with
  | .turns n =>
    if 1 < n then .next ((s.parkedTurn c).setWait t (.turns (n - 1)))
    else .next (((s.parkedTurn c).advance w.instr).wakeUp t)
  | k =>
    if looksAgain k then
      match exec w.instr s with
      | .next s' => if (s'.slot t).st = .parked then .next (s'.parkedTurn c) else .next (s'.wakeUp t)
      | o => o
    else .next (s.parkedTurn c)

/-- A handler of trap 0x13 runs (R172). -/
def Slot.inCancel (x : Slot) : Bool := x.cancel.isSome && x.sp.xstat.getLsbD 0 && decide (x.sp.xcause = 0x13)

/-- A pre-emption has stopped the thread (R388), or its job waits for a rebase and it stands at a boundary (R131). -/
def State.stoppedFor (s : State) (t : Nat) : Bool :=
  ((s.job (s.jobOf t)).map fun j => j.stopping.contains t || j.rebasing).getD false

/-- The turn of a slot that holds a thread. -/
def State.slotTurn (s : State) (c t : Nat) : Out :=
  let x := s.slot t
  if s.cancelDue t then .next (s.takeCancel t)
  else if x.inCancel ∧ 4096 ≤ x.handTurns then .next (s.endUnit t { code := 2, cause := 0, xpc := 0, tid := t })
  else if s.stoppedFor t then .next s
  else
    let s := if x.inCancel then s.modSlot t fun x => { x with handTurns := x.handTurns + 1 } else s
    if x.st = .running then s.issue t
    else match x.st, x.wait with
      | .parked, some w => s.parkedTurnOf c t w
      | _, _ => .next s

/-- The next turn of a core; a lap ends after its sixteenth (R161). -/
def Core.pass (x : Core) : Core :=
  if x.turn = 15 then { x with turn := 0, begun := false, lap := x.lap + 1, cycle := x.cycle + 1 }
  else { x with turn := x.turn + 1, cycle := x.cycle + 1 }

/-- The turn ends: the core and its die's clock move on (R9, R161), and a job whose timestamps have come to their limit stops (R131). -/
def State.passTurn (s : State) (c : Nat) : State :=
  let s := s.holdJobs.settleRounds.modCore c Core.pass
  s.modDie (c / 128) fun d => { d with cycles := max d.cycles (s.core c).cycle }

/-- The boundary of a lap comes before its first turn. -/
def State.openTurn (s : State) (c : Nat) : State :=
  if s.atLap c then s.lapStart c else s

/-! ## Stopped dies (R408) -/

/-- The entries of `old` whose keys satisfy `p`, and those of `new` whose keys do not. -/
def keepWhere {α : Type} [DecidableEq α] (d : α) (p : Nat → Bool) (old new : SMap α) : SMap α :=
  (old.filter fun e => p e.1).foldl (fun (m : SMap α) e => m.set d e.1 e.2) (new.filter fun e => !p e.1)

/-- The die that stores the byte at a physical address: the base die of its stack, or the infield die. -/
def storeDie (pa : Nat) : Nat := if inHbm pa then Config.baseDie0 + pa / stackBytes else Config.infieldDie

/-- The die of the streamer with a number: that of a core, of a stack, or of the infield die. -/
def streamDie (v : Nat) : Nat :=
  if v < 4096 then v / 128 else if v < 4112 then Config.baseDie0 + (v - 4096) else Config.infieldDie

/-- What a step of another die may not change: everything that a stopped die holds is in `new` as it is in `old`. With no die stopped it is
`new` (R408). What is on its way between dies, the host's memory and the black boxes of running dies go on (notes/assumptions/100.md). -/
def State.keepStopped (old new : State) : State :=
  if (List.range Config.dieCount).all fun d => !(old.die d).stopped then new
  else
    let halt (d : Nat) : Bool := (old.die d).stopped
    let infield : Bool := halt Config.infieldDie
    { new with
      slots := keepWhere Slot.dflt (fun t => halt (runDie t)) old.slots new.slots
      cores := keepWhere Core.dflt (fun c => halt (c / 128)) old.cores new.cores
      clusters := keepWhere Cluster.dflt (fun k => halt (k / 32)) old.clusters new.clusters
      dies := keepWhere Die.dflt halt old.dies new.dies
      mem := keepWhere 0 (fun a => halt (storeDie a)) old.mem new.mem
      pairs := keepWhere Pair.dflt (fun u => halt (storeDie (256 * u))) old.pairs new.pairs
      streams := keepWhere [] (fun v => halt (streamDie v)) old.streams new.streams
      links := keepWhere Link.dflt (fun v => halt (linkDie v)) old.links new.links
      copies := (old.copies.filter fun k => halt (k.core / 128)) ++ new.copies.filter fun k => !halt (k.core / 128)
      squares := if infield then old.squares else new.squares
      llc := if infield then old.llc else new.llc
      badWords := if infield then old.badWords else new.badWords
      poison := if infield then old.poison else new.poison
      retired := if infield then old.retired else new.retired
      loaded := if infield then old.loaded else new.loaded
      dirty := if infield then old.dirty else new.dirty
      jobs := if infield then old.jobs else new.jobs
      pkg := if infield then old.pkg else new.pkg }

/-- What a move leaves of the dies that had stopped before it. -/
def State.kept (s : State) (o : Out) : Out :=
  match o with
  | .next s' => .next (s.keepStopped s')
  | o => o

/-- One turn of a core: only a slot that is RUNNING issues, and the rotation passes over every slot (R161). Nothing happens on a stopped die. -/
def takeTurn (c : Nat) (s : State) : Out :=
  if (s.die (c / 128)).stopped then .fault .clocksStopped
  else
    let s' := s.openTurn c
    let t := threadAt c (s'.core c).turn
    s.kept (match ({ s' with cur := t, grant := none } : State).slotTurn c t with
      | .next s' => .next (s'.passTurn c)
      | o => o)

/-! ## Moves -/

/-- A row of the table that has no word is a step of the device. -/
def isStep (i : Instr) : Bool := (Dec.encode i).isEmpty

/-- A cold reset: it alone restarts a stopped die (R408). -/
def isColdReset : Instr → Bool
  | .coldReset _ => true
  | _ => false

/-- A step of the device that the agenda names; its replies go to parked slots, so none comes at once. -/
def takeEvent (i : Instr) (s : State) : Out :=
  if isStep i then
    let o : Out := match exec i { s with prompt := false, grant := none } with
      | .next s' => .next { s'.holdJobs.settleRounds with prompt := s.prompt }
      | o => o
    if isColdReset i then o else s.kept o
  else .next s

/-! ## A program placed from outside (notes/assumptions/9.md) -/

/-- The page tables, the code page and the slot that a driver and a controller place for one thread: job 0 maps its first GiB to
physical 0x40000000 as CACHED and executable, and slot 1 of core 0 runs at 0x1000 in an open span. -/
def State.placeWords (s : State) (w0 w1 : Word) : State :=
  let m := writeN s.mem 0 8 0x80001
  let m := writeN m 0x80000 8 0x40000091
  let m := writeN m 0x40001000 8 w0.toNat
  let m := writeN m 0x40001008 8 w1.toNat
  let j : Job := (s.job 0).getD (s.jobOfFrame 0)
  let s : State := { s with mem := m, poison := s.poison.filter (· ≠ 0x40001), agenda := [], active := 0, prompt := true }
  let s := s.setJob 0 (some { j with root := 0, stopping := j.stopping.filter (· ≠ 1), rebasing := false })
  let s := s.modCluster 0 fun k => { k with job := some 0, harvested := false }
  let s := s.modDie 0 fun d => { d with stopped := false }
  let s := s.modCore 0 fun c => { c with turn := 1, begun := true }
  s.modSlot 1 fun x =>
    { x with st := .running, wait := none, latch := [], pc := 0x1000, span := .open_, job := some 0, cancel := none,
             mailOut := none }

end Sys2Proof.Machine
end

