-- ==== Sys2Proof/Machine/Step.lean ====
section
/-! DEFINITION. One step of the machine: the move that the agenda names, else a turn of the active core; and a state whose next
step fetches a given instruction. -/
namespace Sys2Proof.Machine

/-- One step: a turn of a core, or a step of the device. Which agent moves is data of the state (notes/assumptions/2.md). -/
def step (s : State) : Host.Outcome State Fault Refusal :=
  match s.agenda with
  | [] => takeTurn s.active s
  | .turn c p :: rest => takeTurn c { s with agenda := rest, active := c, prompt := p }
  | .event i :: rest => takeEvent i { s with agenda := rest }

/-- The instruction whose bits are `w` (bits at and above `nbits` are 0), stored where the next step fetches: a program is
loaded from outside the machine (notes/assumptions/9.md). -/
def State.withFetchWord (s : State) (nbits w : Nat) : State :=
  let x := w % 2 ^ nbits
  s.placeWords (BitVec.ofNat 64 x) (BitVec.ofNat 64 (x / 2 ^ 64))

end Sys2Proof.Machine
end

