-- ==== Sys2Proof/WellFormed.lean ====
section
/-! DEFINITION. Which instructions are well formed: the operands that R220-R224 and each instruction's rule allow.
A well-formed instruction is one that some word of the opcode map decodes to. -/
namespace Sys2Proof.WF

/-- A source that is not a q register. -/
def notQ : Src → Bool
  | .q _ => false
  | _ => true

/-- A source without a W bit. -/
def noW : Src → Bool
  | .s _ w => !w
  | .m _ w => !w
  | _ => true

/-- Two sources do not both take the same register (R118). -/
def noClash : Src → Src → Bool
  | .s x true, .s y true => x != y
  | .m x true, .m y true => x != y
  | _, _ => true

/-- log2 of the segment length of a permutation (R223). -/
def segLog (seg : BitVec 3) : Nat := if seg == 0 then 6 else seg.toNat

/-- A legal permutation (R223). -/
def perm : Perm → Bool
  | .none => true
  | .rot s d => s != 7 && decide (d.toNat < 2 ^ segLog s)
  | .bfly s d => s != 7 && decide (d.toNat < segLog s)
  | .bcast s d => s != 7 && decide (d.toNat < 2 ^ segLog s)

/-- A legal B operand of a vector instruction. -/
def vsrc : VSrc → Bool
  | .v _ p => perm p
  | .sc _ => true

/-- KEEPHINT needs global space (R260), and a base is a g, s or m register. -/
def maddr (p : MAddr) : Bool := notQ p.base && (p.glb || !p.keep)

/-- A scope other than sys needs global space (R260). -/
def scopeOk (sc : Scope) (p : MAddr) : Bool := sc == .sys || p.glb

/-- A size a store may have (R264). -/
def stSize : Size → Bool
  | .n8 | .n16 | .n32 | .n64 => true
  | _ => false

/-- A float type. -/
def isFloat : Ty → Bool
  | .f32 | .bf16 | .e4m3 | .e5m2 => true
  | _ => false

/-- Types of VADD (R296). -/
def arith : Ty → Bool
  | .i32 | .n32 | .f32 | .bf16 | .i16 | .i8 => true
  | _ => false

/-- Types of the shifts (R300) and of VIDX (R306). -/
def shiftTy : Ty → Bool
  | .i32 | .n32 | .i16 | .i8 => true
  | _ => false

/-- Types of VCMP and VRED. -/
def word32 : Ty → Bool
  | .i32 | .n32 | .f32 => true
  | _ => false

/-- RMX and SAT fit the type (R292). -/
def mods (t : Ty) (rm : Option RMode) (sat : Bool) : Bool :=
  (rm == none || isFloat t) && (!sat || !isFloat t)

/-- The width of an element (R289). -/
def width : Ty → Nat
  | .i32 | .n32 | .f32 => 32
  | .bf16 | .i16 => 16
  | .i8 | .e4m3 | .e5m2 => 8

/-- The pairs of VCVT, destination first (R308). -/
def cvt : Ty → Ty → Bool
  | .f32, .i32 | .f32, .n32 | .i32, .f32 | .n32, .f32 => true
  | .bf16, .i16 | .i16, .bf16 => true
  | .e4m3, .e5m2 | .e5m2, .e4m3 | .e4m3, .i8 | .e5m2, .i8 | .i8, .e4m3 | .i8, .e5m2 => true
  | _, _ => false

/-- The pairs of VPACK, destination first (R309). -/
def pack : Ty → Ty → Bool
  | .bf16, .f32 | .e4m3, .bf16 | .e5m2, .bf16 | .i16, .i32 | .i8, .i16 => true
  | _, _ => false

/-- The pairs of VUNPK, destination first (R310). -/
def unpk : Ty → Ty → Bool
  | .f32, .bf16 | .bf16, .e4m3 | .bf16, .e5m2 | .i32, .i16 | .i16, .i8 => true
  | _, _ => false

/-- The scale operand of VQUANT and VDEQ (R314). -/
def qfmt : QFmt → Bool
  | .i8 b => vsrc b
  | .i4 b => vsrc b
  | _ => true

/-- The synchronised reads of a scalar A beside a vector B cannot clash: A is a v register. -/
def v3 (o : V3) (tys : Ty → Bool) : Bool := tys o.ty && vsrc o.b

/-- An even register (R326, R352). -/
def even (n : BitVec 5) : Bool := !n.getLsbD 0

/-- Formats of untransposed scratchpad operands (R322). -/
def scratch : Tag → Bool
  | .f32 | .bf16 | .e4m3 | .e5m2 | .i8 | .i4 | .px9 | .px6 | .px4 | .mxfp4 => true
  | _ => false

/-- Formats of transposed scratchpad operands (R324). -/
def elem : Tag → Bool
  | .f32 | .bf16 | .e4m3 | .e5m2 | .i8 => true
  | _ => false

/-- Formats of classes H and L (R322). -/
def narrow : Tag → Bool
  | .bf16 | .e4m3 | .e5m2 | .px9 | .px6 | .px4 | .mxfp4 => true
  | _ => false

/-- The legal pairs of scratchpad operands (R322). -/
def pair : Tag → Tag → Bool
  | .f32, .f32 => true
  | .i8, .i8 | .i8, .i4 | .i4, .i8 | .i4, .i4 => true
  | a, b => narrow a && narrow b

/-- One operand of MMAT: a handle, or a scratchpad format. -/
def mmatFmt (f : Option Tag) (tr : Bool) : Bool :=
  match f with
  | none => true
  | some t => scratch t && (!tr || elem t)

/-- Destination formats of AEPI (R333). -/
def epi : Tag → Bool
  | .f32 | .bf16 | .e4m3 | .e5m2 | .i8 | .i32 => true
  | _ => false

/-- The operands of GATHER forms. -/
def gathered (o : Gathered) : Bool := notQ o.base && perm o.perm

/-- The operands of an atomic (R271). -/
def amo (o : Amo) : Bool := notQ o.a && noClash o.a o.b

/-- The operands of RADDV (R272). -/
def raddv (r : RaddV) : Bool := notQ r.a && perm r.perm

/-- A well-formed instruction. Steps of the device have no word and no check. -/
def instr : Instr → Bool
  | .add _ a b | .sub _ a b | .mul _ a b | .mulh _ a b | .mulhn _ a b | .div _ a b | .divn _ a b | .rem _ a b
  | .remn _ a b | .and _ a b | .or _ a b | .xor _ a b | .andn _ a b | .shl _ a b | .shr _ a b | .sar _ a b
  | .rol _ a b | .min _ a b | .max _ a b | .minn _ a b | .maxn _ a b | .slt _ a b | .sltn _ a b | .seq _ a b => noClash a b
  | .sext _ _ w | .zext _ _ w => decide (1 ≤ w.toNat ∧ w.toNat ≤ 64)
  | .bfx _ _ p l | .bfxS _ _ p l | .bfi _ _ p l => decide (p.toNat + l.toNat + 1 ≤ 64)
  | .sel _ a b _ => noClash a b
  | .lea _ a _ | .leaWin _ a _ => notQ a
  | .br _ _ b _ => noW b
  | .jmpi a | .calli a => notQ a
  | .loop n _ => n != 0
  | .btag _ t _ => notQ t
  | .parkEv mask => mask != 0
  | .ld _ _ p => maddr p
  | .lds n _ p => n != 0 && maddr p
  | .st v z sc p => noW v && stSize z && scopeOk sc p && maddr p
  | .vld _ p => maddr p
  | .vst _ sc p => scopeOk sc p && maddr p
  | .vlds o | .vsts o => notQ o.base
  | .vgath o | .vscat o => gathered o
  | .vgathT o | .vscatT o => notQ o.h && perm o.perm
  | .kld _ p => maddr p
  | .kst _ sc p => scopeOk sc p && maddr p
  | .amoadd o | .amoswp o | .amocas o _ | .amoand o | .amoor o | .amoxor o | .amomin o _ | .amomax o _ => amo o
  | .amofadd o => amo o && !o.w64
  | .radd _ a b => notQ a && noClash a b
  | .raddOrd _ a b _ => notQ a && noClash a b
  | .raddv r | .raddvOrd r _ => raddv r
  | .sfill d _ => match d with | .g _ => false | _ => true
  | .migr a _ | .migrCrew a _ => notQ a
  | .crewj a b => noClash a b
  | .get o | .put o => o.c != 0
  | .qsend _ _ b n => b != 0 && decide (b.toNat + n.toNat ≤ 31)
  | .cexp _ b | .cadd _ b | .caddClr _ b => notQ b
  | .xwait a => notQ a
  | .clineWb a _ | .clineEvict a _ | .clinePf a _ => notQ a
  | .vadd o rm sat | .vsub o rm sat | .vmul o rm sat | .vfma o rm sat => v3 o arith && mods o.ty rm sat
  | .vmin o | .vmax o => v3 o (fun _ => true)
  | .vabs o sat | .vneg o sat => o.ty != .n32 && (!sat || !isFloat o.ty)
  | .vand o | .vor o | .vxor o => v3 o (· == .i32)
  | .vshl o | .vshr o | .vsar o => v3 o shiftTy
  | .vcmp _ _ _ b _ ty => word32 ty && vsrc b
  | .vsel o _ => v3 o (· == .i32)
  | .vmov _ b _ _ => vsrc b
  | .vins _ a i _ => noClash a i
  | .vred _ _ _ _ ty rm => word32 ty && (rm == none || isFloat ty)
  | .vidx _ a b _ ty => noClash a b && shiftTy ty
  | .vrcp o _ | .vrsq o _ | .vexp2 o _ | .vlog2 o _ => o.ty == .f32 || o.ty == .bf16
  | .vcvt o s _ => cvt o.ty s
  | .vpack _ _ _ p _ d s rm => perm p && pack d s && (rm == none || isFloat d)
  | .vunpk o s _ => unpk o.ty s
  | .vshrr o => v3 o shiftTy
  | .vsat o n u => (o.ty == .i32 || o.ty == .i16 || o.ty == .i8) && decide (n.toNat + 1 + u.toNat ≤ width o.ty)
  | .vmulq o => v3 o (fun t => t == .i32 || t == .i16)
  | .vquant _ _ f _ | .vdeq _ _ f _ => qfmt f
  | .vdot _ _ b _ _ _ _ => vsrc b
  | .kmov d a => match d, a with | .r _, .r _ => false | _, _ => true
  | .mma o => pair o.af o.bf && (!o.ta || elem o.af) && (!o.tb || elem o.bf)
  | .mmat o => even o.c && (o.af == none || o.bf == none) && mmatFmt o.af o.ta && mmatFmt o.bf o.tb
  | .mmag o => (o.sh.m != .e128 || !o.vi.getLsbD 0) && scratch o.bf
  | .mmas _ c _ _ => even c
  | .aepi o => epi o.df && (o.act != .clamp || o.n != 0) && (!o.add || o.c != 0)
  | .tcopy _ c _ _ _ _ => even c
  | .spawn a b | .reap _ a b => noClash a b
  | .xret (some a) => notQ a
  | _ => true

end Sys2Proof.WF
end

