-- ==== Sys2Proof/Safety.lean ====
section
/-! DEFINITION. What counts as a safe state and a safe run, and the words that the statements use: the canonical form of a state,
and tables that give each instruction of a shape its operands and its result as the spec's rules word them. -/
namespace Sys2Proof.Machine

/-! ## States -/

/-- The keys of a map rise strictly. -/
def SMap.rising {α : Type} (m : SMap α) : Prop := (m.map Prod.fst).Pairwise (· < ·)

/-- The canonical form of a state's physical memory: it lists rising addresses, and no byte that an unlisted address reads as anyway, so
that equal memories are equal data (notes/assumptions/1.md). Every step keeps it. -/
def State.canon (s : State) : Prop := Memory.wf s.mem = true

/-- The issuing thread can run an instruction: its die has its clocks (R408), and no finished write of a mailbox waits for its core
(R120). -/
def State.live (s : State) : Prop := (s.die (runDie s.cur)).stopped = false ∧ s.me.mailOut = none

/-- A step that does not stop. -/
def goesOn (s : State) : Prop := ∃ t, step s = .next t

/-- One byte of physical memory. -/
def State.byte (s : State) (a : Nat) : Byte := s.mem.get 0 a

/-- One byte of a scratchpad, by its physical place. -/
def State.padByte (s : State) (c p : Nat) : Byte := (s.core c).spad.get 0 p

/-! ## What a step leaves alone -/

/-- No byte of memory, of the host's own memory, of a scratchpad or of a private region changes. -/
def bytesKept (s t : State) : Prop :=
  t.mem = s.mem ∧ t.hostMem = s.hostMem ∧ (∀ c p, t.padByte c p = s.padByte c p) ∧ ∀ k, (t.slot k).priv = (s.slot k).priv

/-- No slot but that of the issuing thread changes its registers, its special registers or its PC. -/
def othersKept (s t : State) : Prop :=
  ∀ k, k ≠ s.cur → (t.slot k).regs = (s.slot k).regs ∧ (t.slot k).sp = (s.slot k).sp ∧ (t.slot k).pc = (s.slot k).pc

/-- No slot changes its registers, its special registers or its PC. -/
def slotsKept (s t : State) : Prop :=
  t.cur = s.cur ∧ ∀ k, (t.slot k).regs = (s.slot k).regs ∧ (t.slot k).sp = (s.slot k).sp ∧ (t.slot k).pc = (s.slot k).pc

/-- Every byte that is not one of the `n` bytes of a target reads as before. -/
def outsideKept (x : Target) (n : Nat) (s t : State) : Prop :=
  match x with
  | .loc a =>
    t.mem = s.mem ∧ t.hostMem = s.hostMem ∧ (∀ c, c ≠ coreOf s.cur → ∀ p, t.padByte c p = s.padByte c p) ∧
      (∀ p, (∀ j, j < n → p ≠ (s.core (coreOf s.cur)).place (a + j)) →
        t.padByte (coreOf s.cur) p = s.padByte (coreOf s.cur) p) ∧
      (∀ k b, k ≠ s.cur ∨ b < a ∨ a + n ≤ b → (t.slot k).priv.get 0 b = (s.slot k).priv.get 0 b)
  | .cached pa _ | .home pa _ =>
    (∀ b, b < pa ∨ pa + n ≤ b → t.byte b = s.byte b) ∧ t.hostMem = s.hostMem ∧ (∀ c p, t.padByte c p = s.padByte c p) ∧
      ∀ k, (t.slot k).priv = (s.slot k).priv
  | .host pa _ =>
    t.mem = s.mem ∧ (∀ b, b < s.hostAt pa ∨ s.hostAt pa + n ≤ b → t.hostMem.get 0 b = s.hostMem.get 0 b) ∧
      (∀ c p, t.padByte c p = s.padByte c p) ∧ ∀ k, (t.slot k).priv = (s.slot k).priv

/-- The line that a target lies in (R273). -/
def lineTarget : Target → Target
  | .loc a => .loc (a / 256 * 256)
  | .cached pa va => .cached (pa / 256 * 256) va
  | .home pa va => .home (pa / 256 * 256) va
  | .host pa va => .host (pa / 256 * 256) va

/-- The parts of an instruction run one after another, each to its end. -/
def ran : List (M Unit) → State → State → Prop
  | [], s, t => t = s
  | m :: l, s, t => ∃ u, m s = .ok ((), u) ∧ ran l u t

/-- The lanes of a list, one after another, each from the state that the one before it leaves. -/
def chained (f : Nat → State → State → Prop) : List Nat → State → State → Prop
  | [], s, t => t = s
  | l :: ls, s, t => ∃ u, f l s u ∧ chained f ls u t

/-! ## Rows of the table -/

/-- Rows of the opcode table: scalar and address instructions, transfers, waiting and ending (R239-R258). -/
def scalarRow : Instr → Bool
  | .nop | .add .. | .addi .. | .sub .. | .mul .. | .mulh .. | .mulhn .. | .div .. | .divn .. | .rem .. | .remn .. | .and ..
  | .andi .. | .or .. | .ori .. | .xor .. | .xori .. | .andn .. | .shl .. | .shli .. | .shr .. | .shri .. | .sar ..
  | .sari .. | .rol .. | .roli .. | .clz .. | .ctz .. | .popc .. | .brev .. | .sext .. | .zext .. | .bfx .. | .bfxS ..
  | .bfi .. | .min .. | .max .. | .minn .. | .maxn .. | .slt .. | .sltn .. | .slti .. | .sltiN .. | .seq .. | .sel ..
  | .mov .. | .movi .. | .movx .. | .lea .. | .leaWin .. | .br .. | .jmp .. | .jmpi .. | .call .. | .calli .. | .loop ..
  | .btag .. | .bkany .. | .bkall .. | .park .. | .parkEv .. | .done | .trap .. | .brkp .. => true
  | _ => false

/-- Rows of the opcode table: memory, synchronisation and migration (R260-R288). -/
def memoryRow : Instr → Bool
  | .ld .. | .lds .. | .st .. | .vld .. | .vst .. | .vlds .. | .vsts .. | .vgath .. | .vscat .. | .vgathT .. | .vscatT ..
  | .kld .. | .kst .. | .amoadd .. | .amoswp .. | .amocas .. | .amoand .. | .amoor .. | .amoxor .. | .amomin .. | .amomax ..
  | .amofadd .. | .radd .. | .raddOrd .. | .raddv .. | .raddvOrd .. | .fence | .sfill .. | .fstat .. | .migr ..
  | .migrCrew .. | .mpin .. | .crewj .. | .get .. | .put .. | .gett .. | .putt .. | .qsend .. | .cexp .. | .cadd ..
  | .caddClr .. | .crd .. | .xwait .. | .hset .. | .hurdle .. | .view .. | .clineWb .. | .clineEvict .. | .clinePf .. => true
  | _ => false

/-- Rows of the opcode table: vector, conversion and mask instructions (R289-R317). -/
def vectorRow : Instr → Bool
  | .vadd .. | .vsub .. | .vmul .. | .vfma .. | .vmin .. | .vmax .. | .vabs .. | .vneg .. | .vand .. | .vor .. | .vxor ..
  | .vshl .. | .vshr .. | .vsar .. | .vcmp .. | .vsel .. | .vmov .. | .vbcast .. | .vext .. | .vins .. | .vred .. | .vidx ..
  | .vrcp .. | .vrsq .. | .vexp2 .. | .vlog2 .. | .vcvt .. | .vpack .. | .vunpk .. | .vshrr .. | .vsat .. | .vmulq ..
  | .vquant .. | .vdeq .. | .vdot .. | .kand .. | .kor .. | .kxor .. | .knot .. | .kpop .. | .kfirst .. | .kmov .. => true
  | _ => false

/-- Rows of the opcode table: matrix, collective, tensor, engine, system and launch instructions (R319-R374). -/
def engineRow : Instr → Bool
  | .mma .. | .mmat .. | .mmag .. | .mmas .. | .azero .. | .aepi .. | .arel .. | .aclaim .. | .asave .. | .aload ..
  | .collAr .. | .collRs .. | .collAg .. | .collA2a .. | .talloc .. | .tfree .. | .twiden .. | .tinfo .. | .tld .. | .tldt ..
  | .tst .. | .tstAdd .. | .tredRow .. | .tredCol .. | .tscale .. | .tew .. | .tcopy .. | .stash .. | .restore ..
  | .nmload .. | .nmstrm .. | .nmdrain .. | .spawn .. | .reap .. | .launch .. | .cancel .. | .sysrd .. | .syswr .. | .xret ..
  | .svc .. | .keep .. => true
  | _ => false

/-! ## Scalar results, as R240-R249 word them -/

/-- The quotient of R242, truncated toward zero; all ones for a zero divisor. -/
def quotS (x y : Word) : Word := if y = 0 then BitVec.allOnes 64 else BitVec.ofInt 64 (x.toInt.tdiv y.toInt)
/-- The remainder of R242, with the sign of A. -/
def remOf (x y : Word) : Word := if y = 0 then x else BitVec.ofInt 64 (x.toInt - x.toInt.tdiv y.toInt * y.toInt)
/-- 1 for true, 0 for false (R240). -/
def truth (p : Prop) [Decidable p] : Word := if p then 1 else 0
/-- The low `w` bits of a number as a signed number. -/
def lowSigned (x w : Nat) : Int := if x % 2 ^ w < 2 ^ (w - 1) then (x % 2 ^ w : Nat) else (x % 2 ^ w : Nat) - 2 ^ w

/-- The instructions `OP d, a, b`: their operands, and D as a function of A and B (R240-R242). -/
def twoSource : Instr → Option (SReg × Src × Src × (Word → Word → Word))
  | .add d a b => some (d, a, b, fun x y => BitVec.ofNat 64 (x.toNat + y.toNat))
  | .sub d a b => some (d, a, b, fun x y => BitVec.ofInt 64 (x.toInt - y.toInt))
  | .mul d a b => some (d, a, b, fun x y => BitVec.ofNat 64 (x.toNat * y.toNat))
  | .mulh d a b => some (d, a, b, fun x y => BitVec.ofInt 64 (x.toInt * y.toInt / 2 ^ 64))
  | .mulhn d a b => some (d, a, b, fun x y => BitVec.ofNat 64 (x.toNat * y.toNat / 2 ^ 64))
  | .div d a b => some (d, a, b, quotS)
  | .divn d a b => some (d, a, b, fun x y => if y = 0 then BitVec.allOnes 64 else BitVec.ofNat 64 (x.toNat / y.toNat))
  | .rem d a b => some (d, a, b, remOf)
  | .remn d a b => some (d, a, b, fun x y => if y = 0 then x else BitVec.ofNat 64 (x.toNat % y.toNat))
  | .and d a b => some (d, a, b, fun x y => x &&& y)
  | .or d a b => some (d, a, b, fun x y => x ||| y)
  | .xor d a b => some (d, a, b, fun x y => x ^^^ y)
  | .andn d a b => some (d, a, b, fun x y => x &&& ~~~y)
  | .shl d a b => some (d, a, b, fun x y => BitVec.ofNat 64 (x.toNat * 2 ^ (y.toNat % 64)))
  | .shr d a b => some (d, a, b, fun x y => BitVec.ofNat 64 (x.toNat / 2 ^ (y.toNat % 64)))
  | .sar d a b => some (d, a, b, fun x y => BitVec.ofInt 64 (x.toInt / 2 ^ (y.toNat % 64)))
  | .rol d a b => some (d, a, b, fun x y => (x <<< (y.toNat % 64)) ||| (x >>> (64 - y.toNat % 64)))
  | .min d a b => some (d, a, b, fun x y => if x.toInt ≤ y.toInt then x else y)
  | .max d a b => some (d, a, b, fun x y => if x.toInt ≤ y.toInt then y else x)
  | .minn d a b => some (d, a, b, fun x y => if x.toNat ≤ y.toNat then x else y)
  | .maxn d a b => some (d, a, b, fun x y => if x.toNat ≤ y.toNat then y else x)
  | .slt d a b => some (d, a, b, fun x y => truth (x.toInt < y.toInt))
  | .sltn d a b => some (d, a, b, fun x y => truth (x.toNat < y.toNat))
  | .seq d a b => some (d, a, b, fun x y => truth (x = y))
  | _ => none

/-- The instructions `OP d, a` and `OP d, a, imm`: their operands, and D as a function of A (R241, R243-R246, R248, R249). -/
def oneSource : Instr → Option (SReg × Src × (Word → Word))
  | .addi d a i => some (d, a, fun x => x + i.signExtend 64)
  | .andi d a i => some (d, a, fun x => x &&& i.signExtend 64)
  | .ori d a i => some (d, a, fun x => x ||| i.signExtend 64)
  | .xori d a i => some (d, a, fun x => x ^^^ i.signExtend 64)
  | .slti d a i => some (d, a, fun x => truth (x.toInt < i.toInt))
  | .sltiN d a i => some (d, a, fun x => truth (x.toNat < (i.signExtend 64).toNat))
  | .shli d a n => some (d, a, fun x => BitVec.ofNat 64 (x.toNat * 2 ^ n.toNat))
  | .shri d a n => some (d, a, fun x => BitVec.ofNat 64 (x.toNat / 2 ^ n.toNat))
  | .sari d a n => some (d, a, fun x => BitVec.ofInt 64 (x.toInt / 2 ^ n.toNat))
  | .roli d a n => some (d, a, fun x => (x <<< n.toNat) ||| (x >>> (64 - n.toNat)))
  | .clz d a => some (d, a, fun x => BitVec.ofNat 64 (((List.range 64).find? fun i => x.getLsbD (63 - i)).getD 64))
  | .ctz d a => some (d, a, fun x => BitVec.ofNat 64 (((List.range 64).find? fun i => x.getLsbD i).getD 64))
  | .popc d a => some (d, a, fun x => BitVec.ofNat 64 ((List.range 64).filter fun i => x.getLsbD i).length)
  | .brev d a => some (d, a, fun x => x.reverse)
  | .sext d a w => some (d, a, fun x => BitVec.ofInt 64 (lowSigned x.toNat w.toNat))
  | .zext d a w => some (d, a, fun x => BitVec.ofNat 64 (x.toNat % 2 ^ w.toNat))
  | .bfx d a p l => some (d, a, fun x => BitVec.ofNat 64 (x.toNat / 2 ^ p.toNat % 2 ^ (l.toNat + 1)))
  | .bfxS d a p l => some (d, a, fun x => BitVec.ofInt 64 (lowSigned (x.toNat / 2 ^ p.toNat) (l.toNat + 1)))
  | .mov d a => some (d, a, fun x => x)
  | .lea d a o => some (d, a, fun x => x + o.signExtend 64)
  | _ => none

/-- The destination of a scalar instruction that writes one register and nothing else (R239-R249). -/
def scalarDest (i : Instr) : Option SReg :=
  match twoSource i, oneSource i with
  | some (d, _, _, _), _ => some d
  | _, some (d, _, _) => some d
  | _, _ => match i with
    | .bfi d _ _ _ => some d
    | .sel d _ _ _ => some d
    | .movi d _ => some d
    | .movx d _ => some d
    | .leaWin d _ _ => some d
    | _ => none

/-- D after BFI: a field of D, of `n` bits from bit `p`, takes the low bits of A (R246). -/
def fieldPut (d a : Word) (p n : Nat) : Word :=
  BitVec.ofNat 64 (d.toNat % 2 ^ p + a.toNat % 2 ^ n * 2 ^ p + d.toNat / 2 ^ (p + n) * 2 ^ (p + n))

/-- The truth of a branch condition (R251). -/
def condTrue (c : Cond) (x y : Word) : Prop :=
  match c with
  | .eq => x = y
  | .ne => x ≠ y
  | .lt => x.toInt < y.toInt
  | .ge => y.toInt ≤ x.toInt
  | .ltn => x.toNat < y.toNat
  | .gen => y.toNat ≤ x.toNat
  | .any => x &&& y ≠ 0
  | .none => x &&& y = 0

/-- A value of `n` bytes as a load extends it (R216). -/
def loaded (z : Size) (v : Nat) : Word :=
  match z with
  | .i8 => BitVec.ofInt 64 (sintOf 8 v)
  | .i16 => BitVec.ofInt 64 (sintOf 16 v)
  | .i32 => BitVec.ofInt 64 (sintOf 32 v)
  | _ => BitVec.ofNat 64 v

/-- The lesser, or the greater, of two codes of `w` bits read as signed numbers. -/
def signedMin (w x y : Nat) : Nat := if sintOf w y < sintOf w x then y else x
/-- The greater of two codes of `w` bits read as signed numbers. -/
def signedMax (w x y : Nat) : Nat := if sintOf w x < sintOf w y then y else x

/-- The atomics but AMOCAS: the operands, and the new value as a function of the old one and B, before it is cut to its width
(R271). -/
def atomicOf : Instr → Option (Amo × (Nat → Nat → Nat))
  | .amoadd o => some (o, fun x y => x + y)
  | .amoswp o => some (o, fun _ y => y)
  | .amoand o => some (o, fun x y => x &&& y)
  | .amoor o => some (o, fun x y => x ||| y)
  | .amoxor o => some (o, fun x y => x ^^^ y)
  | .amomin o u => some (o, fun x y => if u then min x y else signedMin (if o.w64 then 64 else 32) x y)
  | .amomax o u => some (o, fun x y => if u then max x y else signedMax (if o.w64 then 64 else 32) x y)
  | .amofadd o => some (o, f32Add)
  | _ => none

/-! ## Vector results, as R296-R316 word them -/

/-- The vector instructions `OP d, a, b` without a third source: their operands, and an element of the result as a function of the
issuing slot (its rounding mode and SEED), the element's index, and the elements of A and B (R296, R299, R300, R311, R313). -/
def vecTwo : Instr → Option (V3 × (Slot → Nat → Nat → Nat → Nat))
  | .vadd o r sat => some (o, fun x e a b =>
      if tyFloat o.ty then fadd (tyFmt o.ty) ((x.rnd r).at e) a b else tyOut o.ty sat (tyInt o.ty a + tyInt o.ty b))
  | .vsub o r sat => some (o, fun x e a b =>
      if tyFloat o.ty then fsub (tyFmt o.ty) ((x.rnd r).at e) a b else tyOut o.ty sat (tyInt o.ty a - tyInt o.ty b))
  | .vmul o r sat => some (o, fun x e a b =>
      if tyFloat o.ty then fmul (tyFmt o.ty) ((x.rnd r).at e) a b else tyOut o.ty sat (tyInt o.ty a * tyInt o.ty b))
  | .vmin o => some (o, fun _ _ a b =>
      if tyFloat o.ty then fmin (tyFmt o.ty) a b else if tyInt o.ty b < tyInt o.ty a then b else a)
  | .vmax o => some (o, fun _ _ a b =>
      if tyFloat o.ty then fmax (tyFmt o.ty) a b else if tyInt o.ty a < tyInt o.ty b then b else a)
  | .vand o => some (o, fun _ _ a b => a &&& b)
  | .vor o => some (o, fun _ _ a b => a ||| b)
  | .vxor o => some (o, fun _ _ a b => a ^^^ b)
  | .vshl o => some (o, fun _ _ a b => a * 2 ^ (b % tyWidth o.ty) % 2 ^ tyWidth o.ty)
  | .vshr o => some (o, fun _ _ a b => a / 2 ^ (b % tyWidth o.ty))
  | .vsar o => some (o, fun _ _ a b => codeOf (tyWidth o.ty) (sintOf (tyWidth o.ty) a / 2 ^ (b % tyWidth o.ty)))
  | .vshrr o => some (o, fun _ _ a b =>
      if b % tyWidth o.ty = 0 then a
      else codeOf (tyWidth o.ty) ((tyInt o.ty a + 2 ^ (b % tyWidth o.ty - 1)) / 2 ^ (b % tyWidth o.ty)))
  | .vmulq o => some (o, fun _ _ a b =>
      tyOut o.ty true ((sintOf (tyWidth o.ty) a * sintOf (tyWidth o.ty) b + 2 ^ (tyWidth o.ty - 2)) / 2 ^ (tyWidth o.ty - 1)))
  | _ => none

/-- The vector instructions `OP d, a`: their operands, and an element of the result as a function of the issuing slot, the
element's index and the element of A (R298, R307, R308, R312). -/
def vecOne : Instr → Option (V2 × (Slot → Nat → Nat → Nat))
  | .vabs o sat => some (o, fun _ _ a =>
      if tyFloat o.ty then a % 2 ^ (tyWidth o.ty - 1) else tyOut o.ty sat (tyInt o.ty a).natAbs)
  | .vneg o sat => some (o, fun _ _ a =>
      if tyFloat o.ty then a ^^^ 2 ^ (tyWidth o.ty - 1) else tyOut o.ty sat (-tyInt o.ty a))
  | .vrcp o r => some (o, fun x e a => recip (tyFmt o.ty) ((x.rnd r).at e) a)
  | .vrsq o r => some (o, fun x e a => rsqrt (tyFmt o.ty) ((x.rnd r).at e) a)
  | .vexp2 o r => some (o, fun x e a => exp2 (tyFmt o.ty) ((x.rnd r).at e) a)
  | .vlog2 o r => some (o, fun x e a => log2F (tyFmt o.ty) ((x.rnd r).at e) a)
  | .vcvt o src r => some (o, fun x e a => convElem o.ty src ((x.rnd r).at e) a)
  | .vsat o n u => some (o, fun _ _ a =>
      codeOf (tyWidth o.ty) (if u then clampI 0 (2 ^ (n.toNat + 1) - 1) (sintOf (tyWidth o.ty) a)
        else clampI (-(2 ^ n.toNat)) (2 ^ n.toNat - 1) (sintOf (tyWidth o.ty) a)))
  | _ => none

/-- The destination of a vector or mask instruction that writes one v, k or scalar register (R289-R317). -/
inductive VDest where
  | v (n : BitVec 4)
  | k (n : BitVec 3)
  | r (d : SReg)
  deriving DecidableEq, Repr

/-- The destination of each vector, conversion and mask instruction. -/
def vectorDest (i : Instr) : Option VDest :=
  match vecTwo i, vecOne i with
  | some (o, _), _ => some (.v o.d)
  | _, some (o, _) => some (.v o.d)
  | _, _ => match i with
    | .vfma o _ _ | .vsel o _ => some (.v o.d)
    | .vunpk o _ _ => some (.v o.d)
    | .vmov d _ _ _ | .vbcast d _ _ _ _ | .vins d _ _ _ | .vidx d _ _ _ _ | .vpack d _ _ _ _ _ _ _ | .vquant d _ _ _
    | .vdeq d _ _ _ | .vdot d _ _ _ _ _ _ => some (.v d)
    | .vcmp d _ _ _ _ _ | .kand d _ _ | .kor d _ _ | .kxor d _ _ | .knot d _ => some (.k d)
    | .vext d _ _ _ | .vred d _ _ _ _ _ | .kpop d _ | .kfirst d _ => some (.r d)
    | .kmov (.k d) _ => some (.k d)
    | .kmov (.r d) _ => some (.r d)
    | _ => none

end Sys2Proof.Machine
end

