-- ==== Sys2Proof/Certificates/Slice0/Obligations.lean ====
section
/-! DEFINITION. The statements about the machine that the provers prove, in the order of OBLIGATIONS.json. -/
open Sys2Proof Sys2Proof.Machine

/-! ## Reset, steps, decoding -/

/-- Right after reset: every slot is FREE with its registers and special registers zero (R363, R370), no job runs, memory reads
as zero everywhere, every byte of every scratchpad is zero, HBn, VWn and every count of a core are zero, TIMEERR of every die is all
ones, the budget is 3600, and every link is up with all eight wavelengths.
The model's own readings and choices that it rests on, with their log entries (notes/assumptions): that memory reads as 0 and that a
slot has zeros before its first placement (1, 5), that a scratchpad holds zeros (6), TIME (7). -/
def Obligations.ResetLeaves : Prop :=
  (∀ t, State.reset.slot t = Slot.dflt ∧ (State.reset.slot t).st = .free ∧ (∀ n, (State.reset.slot t).regs.readG n = 0) ∧
    (State.reset.slot t).sp = Special.zero) ∧
  (∀ j, State.reset.job j = none) ∧ (∀ a, State.reset.byte a = 0) ∧
  (∀ c p n, State.reset.padByte c p = 0 ∧ (State.reset.core c).vw.get 0 n = 0 ∧ (State.reset.hb c n).word = 0 ∧
    (State.reset.core c).stalls = 0 ∧ (State.reset.core c).parks = 0 ∧ (State.reset.core c).migrs = 0) ∧
  (∀ d, (State.reset.die d).timeErr = 0xFFFFFFFF ∧ (State.reset.die d).stopped = false) ∧
  State.reset.pkg.budget = 3600 ∧ State.reset.pkg.featsel = 0 ∧ (∀ v, (State.reset.link v).stat = 0)

/-- Physical memory right after reset is in the model's canonical form: rising addresses, no byte listed that is zero.
The form is the model's own choice, no rule of the spec; its log entry (notes/assumptions) is 1. -/
def Obligations.ResetCanonical : Prop := State.reset.canon

/-- Every step of the machine, of a core or of the device, keeps the canonical form of physical memory, so that equal memories are equal
data. The premise leaves out states that no run reaches.
The form is the model's own choice, no rule of the spec; its log entry (notes/assumptions) is 1. -/
def Obligations.StepKeepsCanon : Prop := ∀ (s : State) t, s.canon → step s = .next t → t.canon

/-- No instruction and no step of the device is refused, and none faults but on a die whose clocks a freeze has stopped: every
one answers a next state on a package whose dies all have their clocks. -/
def Obligations.NothingRefused : Prop :=
  (∀ i s, (∀ d, (s.die d).stopped = false) → ∃ t, Sys2Proof.Machine.exec i s = .next t) ∧
  (∀ i s r, Sys2Proof.Machine.exec i s ≠ .refused r)

/-- One step of the machine is one turn of the active core, and the turn of a RUNNING slot runs the instruction whose bytes stand
at its PC: where the fetched word stands in a span and decodes to `i` (with the word after it, for MOVX), or a header stands
there and the word behind it decodes to `i`, the step is `exec i` at that state, counted as issued, and the core's turn passes.
The conditions are those of R161: the lap is open, the slot is RUNNING, and no cancel, pre-emption, rebase or freeze stops it. What a
die holds whose clocks a freeze has stopped stays as it was (R408); with no die stopped, that is nothing.
The model's own readings and choices that it rests on, with their log entries (notes/assumptions): which core moves (2), the walk at
a fetch (20). -/
def Obligations.StepRunsDecoded : Prop :=
  ∀ (s : State) c i, s.agenda = [] → s.active = c → (s.die (c / 128)).stopped = false →
    ((s.core c).turn ≠ 0 ∨ (s.core c).begun = true) →
    let t := threadAt c (s.core c).turn
    let u : State := { s with cur := t, grant := none }
    (s.slot t).st = .running → u.cancelDue t = false → (s.slot t).inCancel = false → u.stoppedFor t = false →
    (∀ v t', u.fetchIssue t = .ok (i, v) → Sys2Proof.Machine.exec i (v.count t) = .next t' →
      step s = .next (s.keepStopped (t'.passTurn c))) ∧
    ((∀ d, (s.die d).stopped = false) → ∀ x : State, s.keepStopped x = x) ∧
    (∀ w, u.fetch t (s.slot t).pc.toNat = .ok w → Dec.isHeader w = false → Dec.isMovx w = false → (s.slot t).span = .open_ →
      Dec.decode (isFar t) w none = .ok i → u.fetchIssue t = .ok (i, u)) ∧
    (∀ w n lg lv lk, u.fetch t (s.slot t).pc.toNat = .ok w → Dec.isHeader w = false → Dec.isMovx w = false →
      (s.slot t).span = .block (n + 1) lg lv lk → Dec.decode (isFar t) w none = .ok i → u.fetchIssue t = .ok (i, u)) ∧
    (∀ w x, u.fetch t (s.slot t).pc.toNat = .ok w → Dec.isMovx w = true → (s.slot t).span = .open_ →
      u.fetch t ((s.slot t).pc + 8).toNat = .ok x → Dec.decode (isFar t) w (some x) = .ok i → u.fetchIssue t = .ok (i, u)) ∧
    (∀ w x, u.fetch t (s.slot t).pc.toNat = .ok w → Dec.isHeader w = true → (Dec.bits w 49 11 : BitVec 11) ≠ 0 →
      ((s.slot t).span = .entry ∨ (s.slot t).span = .open_) →
      let v := u.modSlot t fun k => k.openBlock w
      v.fetch t (v.slot t).pc.toNat = .ok x → Dec.isHeader x = false → v.inSpan t x = .ok i → u.fetchIssue t = .ok (i, v))

/-- Words of the spec's own examples, and of its encoding tables, decode to the instructions they stand for; a word
that starts a literal is trap 0x01, SUB 0x06, and a header is no instruction. -/
def Obligations.SpecWordsDecode : Prop :=
  decodeTableWord 64 0x0100000000000000 = some .nop ∧
  decodeTableWord 64 0x0304040000000100 = some (.addi (.g 4) (.g 4) 256) ∧
  decodeTableWord 64 0x0202458000000000 = some (.add (.g 2) (.s 5 true) (.g 0)) ∧
  decodeTableWord 128 0xE00000000040001F2E05000D00000000 = some (.movx (.g 5) 0xD00000000040001F) ∧
  decodeTableWord 64 0x2F07040800000100 = some (.leaWin (.g 7) (.g 4) 0x100) ∧
  decodeTableWord 64 0x35030007FFFFFFFB = some (.loop 3 (BitVec.ofInt 35 (-5))) ∧
  (∀ far w next, (Dec.isLiteral w = true → Dec.decode far w next = .error (Dec.illegal 6 60)) ∧
    (Dec.isHeader w = true → ∃ e, Dec.decode far w next = .error e))

/-- Decoding an encoded instruction gives it back: scalar and address instructions, transfers, waiting and ending, memory,
synchronisation and migration (rows of R239-R288). -/
def Obligations.RoundTripScalarMemory : Prop :=
  ∀ i w rest, scalarRow i || memoryRow i → WF.instr i = true → Dec.encode i = w :: rest → Dec.decode false w rest.head? = .ok i

/-- Decoding an encoded instruction gives it back: vector, conversion and mask instructions (R289-R317). -/
def Obligations.RoundTripVector : Prop :=
  ∀ i w rest, vectorRow i → WF.instr i = true → Dec.encode i = w :: rest → Dec.decode false w rest.head? = .ok i

/-- Decoding an encoded instruction gives it back: matrix, collective, tensor, engine, system and launch instructions
(R319-R374). -/
def Obligations.RoundTripEngines : Prop :=
  ∀ i w rest, engineRow i → WF.instr i = true → Dec.encode i = w :: rest → Dec.decode false w rest.head? = .ok i

/-! ## Traps (R385, R387, R372, R258) -/

/-- Trap entry (R385): a trap that the issuing thread absorbs writes XCAUSE, XVALUE and XPC, sets HND and the return mark, and
moves the PC to the handler; no register changes, no other bit of XSTAT, no other special register, not the PTS, no byte of
memory, and no register of another slot.
The model's own readings and choices that it rests on, with their log entries (notes/assumptions): the return mark (60). -/
def Obligations.TrapEntry : Prop :=
  ∀ (s : State) c v, c < 256 → s.me.sp.xhandler ≠ 0 → s.me.sp.xstat.getLsbD 0 = false → s.handlerOk s.cur = true →
    let t := s.trapMe c v
    let x := s.me
    let y := t.slot s.cur
    y.sp = { x.sp with xcause := BitVec.ofNat 64 c, xvalue := v, xpc := x.pc.setWidth 64, xstat := x.sp.xstat ||| 1, rmark := true } ∧
      y.pc = x.sp.xhandler.setWidth 56 ∧ y.span = .entry ∧ y.st = .running ∧ y.regs = x.regs ∧ y.pts = x.pts ∧
      (∀ a, t.byte a = s.byte a) ∧ (∀ k, k ≠ s.cur → t.slot k = s.slot k)

/-- TRAP and BRKP raise causes 0x0F and 0x10 with their code in XVALUE, on every slot of a die that has its clocks (R258). -/
def Obligations.SoftwareTraps : Prop :=
  ∀ (s : State) code, s.live →
    Sys2Proof.Machine.exec (.trap code) s = .next (s.trapMe 0x0F (code.setWidth 64)) ∧
    Sys2Proof.Machine.exec (.brkp code) s = .next (s.trapMe 0x10 (code.setWidth 64))

/-- A trap that is not absorbed fails the unit (R387): its slot is ENDED, FAILED with the new cause and the PC; cause 0x13 ends it
as CANCELLED and never fails it; the unit holds no accumulator slot afterwards, and no byte of memory changes.
The model's own readings and choices that it rests on, with their log entries (notes/assumptions): causes in a handler and the end
code of a cancelled unit (51). -/
def Obligations.UnitFails : Prop :=
  ∀ (s : State) c v, (s.me.sp.xhandler = 0 ∨ s.me.sp.xstat.getLsbD 0 = true ∨ s.handlerOk s.cur = false) →
    let t := s.trapMe c v
    let y := t.slot s.cur
    y.st = .ended ∧
      (c ≠ 0x13 → y.fin = some { code := 1, cause := c, xpc := s.me.pc.setWidth 64, tid := s.cur }) ∧
      (c = 0x13 → y.fin = some { code := 2, cause := 0, xpc := 0, tid := s.cur }) ∧
      t.holdsAcc s.me (s.jobOf s.cur) = false ∧ (∀ a, t.byte a = s.byte a)

/-- XRET in a handler (R372) returns to XPC: HND is cleared and no other bit of XSTAT but, with an A, bits 10:6, which are A's; the
thread runs on, with its registers as they are. With HND = 0 it is trap 0x0E.
The model's own readings and choices that it rests on, with their log entries (notes/assumptions): the span after a return (60). -/
def Obligations.TrapReturns : Prop :=
  (∀ s : State, s.live → s.me.sp.xstat.getLsbD 0 = true → s.me.sp.xcause ≠ 0x13 →
    (s.me.sp.rmark = true ∨ s.targetFault s.cur s.me.sp.xpc.toNat = none) →
    ∃ t, Sys2Proof.Machine.exec (.xret none) s = .next t ∧
      (t.slot s.cur).pc = s.me.sp.xpc.setWidth 56 ∧ (t.slot s.cur).sp = { s.me.sp with xstat := s.me.sp.xstat &&& ~~~1 } ∧
      (t.slot s.cur).regs = s.me.regs ∧ (t.slot s.cur).st = .running ∧ (t.slot s.cur).pts = s.me.pts ∧ t.mem = s.mem) ∧
  (∀ (s : State) a v s1, s.live → readSrc 1 a s = .ok (v, s1) → s1.me.sp.xstat.getLsbD 0 = true → s1.me.sp.xcause ≠ 0x13 →
    xretBad v = false → (s1.me.sp.rmark = true ∨ s1.targetFault s1.cur s1.me.sp.xpc.toNat = none) →
    ∃ t, Sys2Proof.Machine.exec (.xret (some a)) s = .next t ∧
      (t.slot s1.cur).pc = s1.me.sp.xpc.setWidth 56 ∧
      (t.slot s1.cur).sp = { s1.me.sp with xstat := (s1.me.sp.xstat &&& ~~~(0x7C1 : Word)) ||| (v &&& 0x7C0) } ∧
      (t.slot s1.cur).regs = s1.me.regs ∧ (t.slot s1.cur).st = .running ∧ t.mem = s1.mem) ∧
  (∀ s : State, s.live → s.me.sp.xstat.getLsbD 0 = false → Sys2Proof.Machine.exec (.xret none) s = .next (s.trapMe 0x0E 1))

/-! ## Operands (R115-R119, R214, R221) -/

/-- g0 reads as zero and k0 reads all ones, whatever was written; a write to either is discarded, and a write of any other g, v or
k register is read back and leaves every other register alone (R214, R221). -/
def Obligations.HardWiredRegisters : Prop :=
  ∀ r : Regs,
    (r.readG 0 = 0 ∧ r.readK 0 = BitVec.allOnes 64) ∧
    (∀ x, r.writeG 0 x = r) ∧ (∀ x, r.writeK 0 x = r) ∧
    (∀ n x, n ≠ 0 → (r.writeG n x).readG n = x ∧ (∀ k, k ≠ n → (r.writeG n x).readG k = r.readG k) ∧
      (∀ k, (r.writeG n x).readV k = r.readV k ∧ (r.writeG n x).readK k = r.readK k)) ∧
    (∀ n x, (r.writeV n x).readV n = x ∧ (∀ k, k ≠ n → (r.writeV n x).readV k = r.readV k) ∧
      (∀ k, (r.writeV n x).readG k = r.readG k ∧ (r.writeV n x).readK k = r.readK k)) ∧
    (∀ n x, n ≠ 0 → (r.writeK n x).readK n = x ∧ (∀ k, k ≠ n → (r.writeK n x).readK k = r.readK k) ∧
      (∀ k, (r.writeK n x).readG k = r.readG k ∧ (r.writeK n x).readV k = r.readV k))

/-- What reading a scalar source of each class does, where the instruction has not taken it already: a g register changes nothing;
an ordinary read of an s register, or of an m register in a slot that is not far, gives its value whatever F is, merges the
stamp and leaves the register; a synchronised read takes the value of a full register that no other slot waits for, and clears
F; a far slot reads a mailbox at the start of a lap of its core, and asks for that before (R120); a read of a port takes its head
word. A synchronised read of an empty register, and a read of an empty port, park the slot at the
end of the line of readers, and no word is taken; MOV shows it (R115-R119). -/
def Obligations.SourceReads : Prop :=
  (∀ (s : State) f, s.me.latch.find? (fun l => decide (l.field = f)) = none →
      let c := coreOf s.cur
      let b := s.bankNo s.cur
      let keep (u : State) (v : Word) (how : Taken) : State :=
        u.modSlot s.cur fun x => { x with latch := x.latch ++ [{ field := f, val := v, how := how }] }
      let merge (u : State) (n : Nat) : State := u.modSlot s.cur fun x => { x with pts := max x.pts n }
      (∀ r, readSrc f (.g r) s = .ok (s.me.regs.readG r.toNat, s)) ∧
      (∀ r, readSrc f (.s r false) s =
        .ok ((s.myReg r.toNat).val, keep (merge s (s.myReg r.toNat).stamp) (s.myReg r.toNat).val .plain)) ∧
      (∀ r, isFar s.cur = false → readSrc f (.m r false) s =
        .ok ((s.myReg (64 + r.toNat)).val, keep (merge s (s.myReg (64 + r.toNat)).stamp) (s.myReg (64 + r.toNat)).val .plain)) ∧
      (∀ r, isFar s.cur = true → s.grant = some .lapStart → readSrc f (.m r false) s =
        .ok ((s.myReg (64 + r.toNat)).val, keep (merge (({ s with grant := none } : State).doneMail s.cur)
          (s.myReg (64 + r.toNat)).stamp) (s.myReg (64 + r.toNat)).val .plain)) ∧
      (∀ r sync, isFar s.cur = true → s.grant ≠ some .lapStart →
        readSrc f (.m r sync) s = .error (.park .lapStart (s.askMail s.cur))) ∧
      (∀ r, isFar s.cur = false → (s.myReg (64 + r.toNat)).full = true → (s.myReg (64 + r.toNat)).readers = [] →
        readSrc f (.m r true) s = .ok ((s.myReg (64 + r.toNat)).val,
          keep (merge (s.modReg c b (64 + r.toNat) fun x => { x with full := false, readers := x.readers.filter (· ≠ s.cur) })
            (s.myReg (64 + r.toNat)).stamp) (s.myReg (64 + r.toNat)).val
            (.reg (64 + r.toNat) (s.myReg (64 + r.toNat)).stamp))) ∧
      (∀ r, (s.myReg r.toNat).full = true → (s.myReg r.toNat).readers = [] → readSrc f (.s r true) s =
        .ok ((s.myReg r.toNat).val,
          keep (merge (s.modReg c b r.toNat fun x => { x with full := false, readers := x.readers.filter (· ≠ s.cur) })
            (s.myReg r.toNat).stamp) (s.myReg r.toNat).val (.reg r.toNat (s.myReg r.toNat).stamp))) ∧
      (∀ p w ws, (s.port c (s.portBank s.cur) p.toNat).words = w :: ws → (s.port c (s.portBank s.cur) p.toNat).readers = [] →
        readSrc f (.q p) s = .ok (w.1,
          keep (merge (s.modPort c (s.portBank s.cur) p.toNat fun x => { x with words := ws, readers := x.readers.filter (· ≠ s.cur) })
            w.2) w.1 (.word p.toNat w.2)))) ∧
  (∀ (s : State) d, s.live → s.me.latch = [] →
      (∀ r, (s.myReg r.toNat).full = false →
        Sys2Proof.Machine.exec (.mov d (.s r true)) s =
          .next ((s.modReg (coreOf s.cur) (s.bankNo s.cur) r.toNat fun x => { x with readers := joinEnd x.readers s.cur }).parkOn
            (.mov d (.s r true)) (.syncRead r.toNat))) ∧
      (∀ p, (s.port (coreOf s.cur) (s.portBank s.cur) p.toNat).words = [] →
        Sys2Proof.Machine.exec (.mov d (.q p)) s =
          .next ((s.modPort (coreOf s.cur) (s.portBank s.cur) p.toNat fun x => { x with readers := joinEnd x.readers s.cur }).parkOn
            (.mov d (.q p)) (.port p.toNat 1))))

/-- What writing a destination of each class does: a g register takes the value and its bit of the written mask is set (g0: the
value is discarded); an s register, or an m register in a slot that is not far, takes the value, F = 1, and the PTS as its stamp,
and keeps the slots that wait (R116, R175, R221). A far slot's write of an m register is sent to its core as the last effect of the
instruction, which completes when the core has performed it at the start of a lap, with nothing done twice (R107, R120). -/
def Obligations.DestinationWrites : Prop :=
  ∀ (s : State) v, (∀ r, writeSR (.g r) v s = .ok ((), s.modSlot s.cur fun x => x.putG r.toNat v)) ∧
    (∀ r, ∃ t, writeSR (.s r) v s = .ok ((), t) ∧ t.cur = s.cur ∧ t.mem = s.mem ∧ (t.myReg r.toNat).val = v ∧
      (t.myReg r.toNat).full = true ∧ (t.myReg r.toNat).stamp = s.me.pts ∧
      (t.myReg r.toNat).readers = (s.myReg r.toNat).readers ∧ (t.myReg r.toNat).writers = (s.myReg r.toNat).writers ∧
      (∀ k, (t.slot k).regs = (s.slot k).regs ∧ (t.slot k).sp = (s.slot k).sp ∧ (t.slot k).pts = (s.slot k).pts)) ∧
    (∀ r, isFar s.cur = false → ∃ t, writeSR (.m r) v s = .ok ((), t) ∧ t.cur = s.cur ∧ t.mem = s.mem ∧
      (t.myReg (64 + r.toNat)).val = v ∧ (t.myReg (64 + r.toNat)).full = true ∧ (t.myReg (64 + r.toNat)).stamp = s.me.pts ∧
      (∀ k, (t.slot k).regs = (s.slot k).regs ∧ (t.slot k).sp = (s.slot k).sp ∧ (t.slot k).pts = (s.slot k).pts)) ∧
    (∀ r, isFar s.cur = true → writeSR (.m r) v s =
      .error (.park .lapStart ((s.modSlot s.cur fun x => { x with mailOut := some (64 + r.toNat, v) }).askMail s.cur))) ∧
    (∀ i r, s.me.mailOut = some (r, v) → (s.die (runDie s.cur)).stopped = false → Dec.encode i ≠ [] →
      (s.grant = some .lapStart → ∃ t : State, Sys2Proof.Machine.exec i s = .next (t.advance i) ∧ t.cur = s.cur ∧ bytesKept s t ∧
        (t.myReg r).val = v ∧ (t.myReg r).full = true ∧ (t.myReg r).stamp = s.me.pts ∧
        (∀ k, (t.slot k).regs = (s.slot k).regs ∧ (t.slot k).sp = (s.slot k).sp ∧ (t.slot k).pts = (s.slot k).pts)) ∧
      (s.grant ≠ some .lapStart → Sys2Proof.Machine.exec i s = .next ((s.askMail s.cur).parkOn i .lapStart)))

/-! ## Scalar instructions (R239-R249) -/

/-- The instructions `OP d, a, b` (R240-R242): wherever A and B can be read and D written, the instruction completes, and D
receives the value of its rule. -/
def Obligations.TwoSourceResults : Prop :=
  ∀ i d a b f s x y s1 s2, twoSource i = some (d, a, b, f) → s.live → readAB a b s = .ok ((x, y), s1) →
    writeSR d (f x y) s1 = .ok ((), s2) → Sys2Proof.Machine.exec i s = .next (s2.advance i)

/-- The instructions `OP d, a` and `OP d, a, imm` (R241, R243-R246, R248, R249): wherever A can be read and D written, the
instruction completes, and D receives the value of its rule. -/
def Obligations.OneSourceResults : Prop :=
  ∀ i d a f s x s1 s2, oneSource i = some (d, a, f) → WF.instr i = true → s.live → readSrc 1 a s = .ok (x, s1) →
    writeSR d (f x) s1 = .ok ((), s2) → Sys2Proof.Machine.exec i s = .next (s2.advance i)

/-- SEXT and ZEXT (R245): D is A[w-1:0] sign-extended or zero-extended, and A itself for w = 64; a width outside 1-64 is trap 0x01,
SUB 0x05, FIELD 0. -/
def Obligations.SextZext : Prop :=
  (∀ d a w s x s1 s2, s.live → readSrc 1 a s = .ok (x, s1) → 1 ≤ w.toNat → w.toNat ≤ 64 →
    (writeSR d (BitVec.ofInt 64 (lowSigned x.toNat w.toNat)) s1 = .ok ((), s2) →
      Sys2Proof.Machine.exec (.sext d a w) s = .next (s2.advance (.sext d a w))) ∧
    (writeSR d (BitVec.ofNat 64 (x.toNat % 2 ^ w.toNat)) s1 = .ok ((), s2) →
      Sys2Proof.Machine.exec (.zext d a w) s = .next (s2.advance (.zext d a w)))) ∧
  (∀ x : Word, BitVec.ofInt 64 (lowSigned x.toNat 64) = x ∧ BitVec.ofNat 64 (x.toNat % 2 ^ 64) = x) ∧
  (∀ w : BitVec 32, (w.toNat = 0 ∨ 64 < w.toNat) → ∀ n,
    Dec.decode false (Dec.packI 0x1F { d := 1, a := 2, imm := w }) n = .error (Dec.illegal 5 0) ∧
    Dec.decode false (Dec.packI 0x20 { d := 1, a := 2, imm := w }) n = .error (Dec.illegal 5 0))

/-- NOP, BFI, SEL, MOVI, MOVX and LEA.win (R246-R249). BFI reads D after A; SEL reads A, B and c, whichever it chooses; MOVX moves
the PC past both its words; LEA.win names the core where the thread runs and is refused outside the local slots of compute
cores. -/
def Obligations.ScalarResults : Prop :=
  (∀ s : State, s.live → Sys2Proof.Machine.exec .nop s = .next (s.advance .nop)) ∧
  (∀ (s : State) d a p l x y s1 s2 s3, s.live → p.toNat + l.toNat + 1 ≤ 64 → readSrc 1 a s = .ok (x, s1) → readSR 3 d s1 = .ok (y, s2) →
    writeSR d (fieldPut y x p.toNat (l.toNat + 1)) s2 = .ok ((), s3) →
    Sys2Proof.Machine.exec (.bfi d a p l) s = .next (s3.advance (.bfi d a p l))) ∧
  (∀ (s : State) d a b c x y z s1 s2 s3, s.live → readAB a b s = .ok ((x, y), s1) → readSR 3 c s1 = .ok (z, s2) →
    writeSR d (if z = 0 then y else x) s2 = .ok ((), s3) →
    Sys2Proof.Machine.exec (.sel d a b c) s = .next (s3.advance (.sel d a b c))) ∧
  (∀ (s : State) d i s1, s.live → writeSR d (i.signExtend 64) s = .ok ((), s1) →
    Sys2Proof.Machine.exec (.movi d i) s = .next (s1.advance (.movi d i))) ∧
  (∀ (s : State) d x s1, s.live → writeSR d x s = .ok ((), s1) →
    Sys2Proof.Machine.exec (.movx d x) s = .next (s1.advance (.movx d x)) ∧
    ((s1.advance (.movx d x)).slot s1.cur).pc = s1.me.pc + 16) ∧
  (∀ (s : State) d a o x s1 s2, s.live → isLocal s.cur = true → readSrc 1 a s = .ok (x, s1) →
    writeSR d (BitVec.ofNat 64 (0x80000000000000 + coreOf s1.cur / 128 * 2 ^ 36 + coreOf s1.cur % 128 * 2 ^ 28 +
      (x + o.signExtend 64).toNat % 2 ^ 28)) s1 = .ok ((), s2) →
    Sys2Proof.Machine.exec (.leaWin d a o) s = .next (s2.advance (.leaWin d a o))) ∧
  (∀ (s : State) d a o, s.live → isLocal s.cur = false →
    Sys2Proof.Machine.exec (.leaWin d a o) s = .next (s.trapMe 1 (BitVec.ofNat 64 (56 * 256 + 8))))

/-- The frame of the scalar instructions with a destination: whatever they do next, complete or park, no byte of memory and no
byte of a scratchpad changes, no register but D of the issuing thread, no special register, and no register of another slot. -/
def Obligations.ScalarFrame : Prop :=
  ∀ i d s t, scalarDest i = some d → (isLocal s.cur = true ∨ ∀ a o, i ≠ .leaWin d a o) → Sys2Proof.Machine.exec i s = .next t →
    (∀ a, t.byte a = s.byte a) ∧ (∀ c p, t.padByte c p = s.padByte c p) ∧
    (∀ n : BitVec 5, d ≠ .g n → (t.slot s.cur).regs.readG n.toNat = s.me.regs.readG n.toNat) ∧
    (∀ n, (t.slot s.cur).regs.readV n = s.me.regs.readV n ∧ (t.slot s.cur).regs.readK n = s.me.regs.readK n) ∧
    (t.slot s.cur).sp = s.me.sp ∧
    (∀ k, k ≠ s.cur → (t.slot k).regs = (s.slot k).regs ∧ (t.slot k).sp = (s.slot k).sp ∧ (t.slot k).pc = (s.slot k).pc)

/-! ## Transfers, waiting and ending (R250-R257) -/

/-- BR, JMP and JMPI (R250-R252). The target of BR and JMP is PC + 8 * sext(OFF). A transfer that is taken moves the PC to a target
that passes its check, and takes the check's trap otherwise, with nothing performed; a branch not taken goes on. After a transfer
the PC is the target, and the next word must be the header of a block. -/
def Obligations.Branches : Prop :=
  (∀ (s : State) off e, s.live → s.me.pc + off.signExtend 56 * 8 = e →
    (s.targetFault s.cur e.toNat = none → Sys2Proof.Machine.exec (.jmp off) s = .next (s.jump e.toNat)) ∧
    (∀ c v, s.targetFault s.cur e.toNat = some (c, v) → Sys2Proof.Machine.exec (.jmp off) s = .next (s.trapMe c v))) ∧
  (∀ (s : State) k a b off x y s1 e, s.live → readAB a b s = .ok ((x, y), s1) → s1.me.pc + off.signExtend 56 * 8 = e →
    (condTrue k x y → s1.targetFault s1.cur e.toNat = none →
      Sys2Proof.Machine.exec (.br k a b off) s = .next (s1.jump e.toNat)) ∧
    (condTrue k x y → ∀ c v, s1.targetFault s1.cur e.toNat = some (c, v) →
      Sys2Proof.Machine.exec (.br k a b off) s = .next (s.trapMe c v)) ∧
    (¬ condTrue k x y → Sys2Proof.Machine.exec (.br k a b off) s = .next (s1.advance (.br k a b off)))) ∧
  (∀ (s : State) a x s1, s.live → readSrc 1 a s = .ok (x, s1) →
    (s1.targetFault s1.cur x.toNat = none → Sys2Proof.Machine.exec (.jmpi a) s = .next (s1.jump x.toNat)) ∧
    (∀ c v, s1.targetFault s1.cur x.toNat = some (c, v) → Sys2Proof.Machine.exec (.jmpi a) s = .next (s.trapMe c v))) ∧
  (∀ (s : State) a, let t := s.jump a
    (t.slot s.cur).pc = BitVec.ofNat 56 a ∧ (t.slot s.cur).span = .entry ∧ (t.slot s.cur).regs = s.me.regs ∧
      (t.slot s.cur).sp = s.me.sp ∧ (t.slot s.cur).pts = s.me.pts ∧ (t.slot s.cur).st = .running ∧ t.mem = s.mem)

/-- BKANY and BKALL (R255): BKANY is taken when (kA & kB) is not 0, BKALL when (kA & kB) = kB; with kB = k0, when any lane of kA is
set, and when all 64 are. Not taken, the next word follows. -/
def Obligations.MaskBranches : Prop :=
  ∀ (s : State) ka kb off e, s.live → s.me.pc + off.signExtend 56 * 8 = e →
    let x := s.me.regs.readK ka.toNat
    let y := s.me.regs.readK kb.toNat
    (x &&& y ≠ 0 → s.targetFault s.cur e.toNat = none →
      Sys2Proof.Machine.exec (.bkany ka kb off) s = .next (s.jump e.toNat)) ∧
    (x &&& y = 0 → Sys2Proof.Machine.exec (.bkany ka kb off) s = .next (s.advance (.bkany ka kb off))) ∧
    (x &&& y = y → s.targetFault s.cur e.toNat = none →
      Sys2Proof.Machine.exec (.bkall ka kb off) s = .next (s.jump e.toNat)) ∧
    (x &&& y ≠ y → Sys2Proof.Machine.exec (.bkall ka kb off) s = .next (s.advance (.bkall ka kb off))) ∧
    (kb = 0 → y = BitVec.allOnes 64 ∧ x &&& y = x)

/-- CALL, CALLI, LOOP and BTAG (R211, R252-R254). A call must be the last word of its span; it writes g31 = PC + 8 after its target
has passed the check, and CALLI reads its target before; LOOP decrements its register and branches unless that gives 0, and
leaves the register as it was where the target's check fails; BTAG captures the head word of the port, which stays there, and
goes where the table says. -/
def Obligations.CallsAndLoops : Prop :=
  (∀ (s : State) off e, s.live →
    ((∃ lg lv lk, s.me.span = .block 1 lg lv lk) ∨
      (s.me.span = .open_ ∧ ∃ w, s.fetch s.cur (s.me.pc + 8).toNat = .ok w ∧ Dec.isHeader w = true)) →
    let link : State → State := fun u => u.modSlot s.cur fun x => x.putG 31 ((s.me.pc + 8).setWidth 64)
    (s.me.pc + off.signExtend 56 * 8 = e → s.targetFault s.cur e.toNat = none →
      Sys2Proof.Machine.exec (.call off) s = .next ((link s).jump e.toNat)) ∧
    (∀ a x s1, readSrc 1 a s = .ok (x, s1) → s1.cur = s.cur → s1.targetFault s.cur x.toNat = none →
      Sys2Proof.Machine.exec (.calli a) s = .next ((link s1).jump x.toNat))) ∧
  (∀ (s : State) off a n lg lv lk, s.live → s.me.span = .block (n + 2) lg lv lk →
    let t := s.trapMe 2 (BitVec.ofNat 64 (3 * 2 ^ 60 + s.me.pc.toNat))
    Sys2Proof.Machine.exec (.call off) s = .next t ∧ Sys2Proof.Machine.exec (.calli a) s = .next t) ∧
  (∀ (s : State) n off e, s.live → s.me.pc + off.signExtend 56 * 8 = e →
    let v := s.me.regs.readG n.toNat - 1
    let t := s.modSlot s.cur fun x => x.putG n.toNat v
    (v ≠ 0 → s.targetFault s.cur e.toNat = none → Sys2Proof.Machine.exec (.loop n off) s = .next (t.jump e.toNat)) ∧
    (v ≠ 0 → ∀ c w, s.targetFault s.cur e.toNat = some (c, w) →
      Sys2Proof.Machine.exec (.loop n off) s = .next (s.trapMe c w)) ∧
    (v = 0 → Sys2Proof.Machine.exec (.loop n off) s = .next (t.advance (.loop n off)))) ∧
  (∀ (s : State) p tb mk w ws b s2 m s3 e s4, s.live → s.me.latch.find? (fun l => decide (l.field = 1)) = none →
    (s.port (coreOf s.cur) (s.portBank s.cur) p.toNat).words = w :: ws →
    let s1 := (s.modSlot s.cur fun x => { x with pts := max x.pts w.2 }).modSlot s.cur fun x =>
      { x with latch := x.latch ++ [{ field := 1, val := w.1, how := .plain }] }
    s1.cur = s.cur → readSrc 2 tb s1 = .ok (b, s2) → readSR 3 mk s2 = .ok (m, s3) → b.toNat % 8 = 0 →
    behalfLoad (b.toNat + 8 * ((w.1 &&& m).toNat % 2 ^ 16)) 8 s3 = .ok (e, s4) → s4.targetFault s4.cur e = none →
    Sys2Proof.Machine.exec (.btag p tb mk) s = .next (s4.jump e))

/-- PARK, PARK.ev and DONE (R256, R257). PARK 0 is a NOP; PARK n parks for n turns, and the turn of a slot with one turn left goes
on behind the PARK; PARK.ev goes on at once where a port of its mask holds a word or its event has come, and parks otherwise;
DONE, with nothing outstanding, no failure to report and no epilogue in flight, retires the unit: its slot is ENDED, with the end
code of a unit that is done, or cancelled where a cancel has reached it, and waits for nothing; its registers and PTS stay, the
accumulator slots it held are free, and no byte of memory, no register and no PC of another slot changes.
The model's own readings and choices that it rests on, with their log entries (notes/assumptions): what a PARK counts (15). -/
def Obligations.WaitingAndEnding : Prop :=
  (∀ s : State, s.live → Sys2Proof.Machine.exec (.park 0) s = .next (s.advance (.park 0))) ∧
  (∀ (s : State) n, s.live → n ≠ 0 → Sys2Proof.Machine.exec (.park n) s = .next (s.parkOn (.park n) (.turns n.toNat))) ∧
  (∀ (s : State) c t w, w.kind = .turns 1 → s.parkedTurnOf c t w = .next (((s.parkedTurn c).advance w.instr).wakeUp t)) ∧
  (∀ (s : State) c t w n, w.kind = .turns (n + 2) → s.parkedTurnOf c t w = .next ((s.parkedTurn c).setWait t (.turns (n + 1)))) ∧
  (∀ (s : State) m, s.live →
    ((∃ p, p < 8 ∧ m.getLsbD p = true ∧ (s.port (coreOf s.cur) (s.portBank s.cur) p).words ≠ []) ∨
      (∃ w k, s.me.wait = some w ∧ w.kind = .event k true) → Sys2Proof.Machine.exec (.parkEv m) s = .next (s.advance (.parkEv m))) ∧
    ((∀ p, p < 8 → m.getLsbD p = true → (s.port (coreOf s.cur) (s.portBank s.cur) p).words = []) → s.me.wait = none →
      Sys2Proof.Machine.exec (.parkEv m) s = .next (s.parkOn (.parkEv m) (.event m.toNat false)))) ∧
  (∀ s : State, s.live → (isFar s.cur = true ∨ slotNo s.cur ≠ 0) → s.quiet s.cur = true → s.me.fails = [] →
    s.epiBusy s.me (s.jobOf s.cur) = false →
    Sys2Proof.Machine.exec .done s = .next (s.retire s.cur)) ∧
  (∀ (s : State) k, let t := s.retire k
    (t.slot k).st = .ended ∧ (t.slot k).wait = none ∧ (t.slot k).cancel = none ∧
      (t.slot k).fin = some { code := if (s.slot k).cancel.isSome then 2 else 0, cause := 0, xpc := 0, tid := k } ∧
      (t.slot k).regs = (s.slot k).regs ∧ (t.slot k).pts = (s.slot k).pts ∧ t.holdsAcc (s.slot k) (s.jobOf k) = false ∧
      bytesKept s t ∧ slotsKept s t) ∧
  (∀ s : State, s.live → isFar s.cur = false → slotNo s.cur = 0 →
    Sys2Proof.Machine.exec .done s = .next (s.trapMe 1 (BitVec.ofNat 64 (56 * 256 + 8))))

/-! ## Memory (R20-R31, R112-R140, R260-R274, R288) -/

/-- LD, LDS, VLD, KLD, ST, VST and KST (R264-R267): wherever the operands can be read, the access passes its checks and is performed,
the instruction completes; a load writes the bytes read, extended as R216 states, and a store stores the low bytes of V. An
access that its checks refuse is a trap, and nothing of the instruction is performed. LDS goes on where the bytes read, extended, differ
from what the low bytes of D extend to, and parks until a store to a byte of the access where they do not.
The model's own readings and choices that it rests on, with their log entries (notes/assumptions): replies that come within the step
(2), parts of one step (55). -/
def Obligations.LoadsAndStores : Prop :=
  (∀ (s : State) d z p b s1 x s2 v s3 s4, s.live → readSrc 1 p.base s = .ok (b, s1) →
    access p.glb (b.toNat + p.off.toInt) (sizeBytes z) (sizeBytes z) false false s1 = .ok (x, s2) →
    loadT x (sizeBytes z) p.keep s2 = .ok (v, s3) → writeSR d (loaded z v) s3 = .ok ((), s4) →
    Sys2Proof.Machine.exec (.ld d z p) s = .next (s4.advance (.ld d z p))) ∧
  (∀ (s : State) v p b s1 x s2 y s3, s.live → readSrc 1 p.base s = .ok (b, s1) →
    access p.glb (b.toNat + p.off.toInt) 256 (if p.glb then 256 else 1) false false s1 = .ok (x, s2) →
    loadT x 256 p.keep s2 = .ok (y, s3) →
    Sys2Proof.Machine.exec (.vld v p) s =
      .next ((s3.modSlot s3.cur fun k => k.putV v.toNat (BitVec.ofNat 2048 y)).advance (.vld v p))) ∧
  (∀ (s : State) k p b s1 x s2 y s3, s.live → readSrc 1 p.base s = .ok (b, s1) →
    access p.glb (b.toNat + p.off.toInt) 8 8 false false s1 = .ok (x, s2) → loadT x 8 p.keep s2 = .ok (y, s3) →
    Sys2Proof.Machine.exec (.kld k p) s =
      .next ((s3.modSlot s3.cur fun m => m.putK k.toNat (BitVec.ofNat 64 y)).advance (.kld k p))) ∧
  (∀ (s : State) v z sc p y s1 b s2 x s3 s4, s.live → readSrcN 0 v (needA v p.base) s = .ok (y, s1) → readSrc 1 p.base s1 = .ok (b, s2) →
    access p.glb (b.toNat + p.off.toInt) (sizeBytes z) (sizeBytes z) true false s2 = .ok (x, s3) →
    storeT x (sizeBytes z) (y.toNat % 2 ^ (8 * sizeBytes z)) (scopeNo sc) p.keep s3 = .ok ((), s4) →
    Sys2Proof.Machine.exec (.st v z sc p) s = .next (s4.advance (.st v z sc p))) ∧
  (∀ (s : State) v sc p b s1 x s2 s3, s.live → readSrc 1 p.base s = .ok (b, s1) →
    access p.glb (b.toNat + p.off.toInt) 256 (if p.glb then 256 else 1) true false s1 = .ok (x, s2) →
    storeT x 256 (s2.me.regs.readV v.toNat).toNat (scopeNo sc) p.keep s2 = .ok ((), s3) →
    Sys2Proof.Machine.exec (.vst v sc p) s = .next (s3.advance (.vst v sc p))) ∧
  (∀ (s : State) k sc p b s1 x s2 s3, s.live → readSrc 1 p.base s = .ok (b, s1) →
    access p.glb (b.toNat + p.off.toInt) 8 8 true false s1 = .ok (x, s2) →
    storeT x 8 (s2.me.regs.readK k.toNat).toNat (scopeNo sc) p.keep s2 = .ok ((), s3) →
    Sys2Proof.Machine.exec (.kst k sc p) s = .next (s3.advance (.kst k sc p))) ∧
  (∀ (s : State) d z p b s1 c v, s.live → readSrc 1 p.base s = .ok (b, s1) →
    access p.glb (b.toNat + p.off.toInt) (sizeBytes z) (sizeBytes z) false false s1 = .error (.trap c v) →
    Sys2Proof.Machine.exec (.ld d z p) s = .next (s.trapMe c v)) ∧
  (∀ (s : State) v z sc p y s1 b s2 c w, s.live → readSrcN 0 v (needA v p.base) s = .ok (y, s1) → readSrc 1 p.base s1 = .ok (b, s2) →
    access p.glb (b.toNat + p.off.toInt) (sizeBytes z) (sizeBytes z) true false s2 = .error (.trap c w) →
    Sys2Proof.Machine.exec (.st v z sc p) s = .next (s.trapMe c w)) ∧
  (∀ (s : State) n z p b s1 x s2 v s3, s.live → readSrc 1 p.base s = .ok (b, s1) →
      access p.glb (b.toNat + p.off.toInt) (sizeBytes z) (sizeBytes z) false true s1 = .ok (x, s2) →
      loadT x (sizeBytes z) p.keep s2 = .ok (v, s3) → s.me.wait = none →
      (loaded z v ≠ loaded z ((s.me.regs.readG n.toNat).toNat % 2 ^ (8 * sizeBytes z)) →
        Sys2Proof.Machine.exec (.lds n z p) s =
          .next ((s3.modSlot s3.cur fun k => k.putG n.toNat (loaded z v)).advance (.lds n z p))) ∧
      (loaded z v = loaded z ((s.me.regs.readG n.toNat).toNat % 2 ^ (8 * sizeBytes z)) →
        ∃ t w, Sys2Proof.Machine.exec (.lds n z p) s = .next t ∧ (t.slot s3.cur).st = .parked ∧ (t.slot s3.cur).wait = some w ∧
          w.kind = .watch none ∧ w.n = sizeBytes z ∧ (w.data.get 0 0, w.data.get 0 1) = watchOf s3 x ∧ t.mem = s3.mem))

/-- The checks of a data access, in their order (R20-R30, R34-R38, R48, R261, R262). A misaligned one is trap 0x04 with the address. A
local one of a far slot is trap 0x06; one that reaches outside the space is trap 0x05, OUTSIDE, with its lowest byte outside; every
other is performed at its address. Local space ends at 0x400000 on a compute core and at 0x10000 on a near core. A global one is trap
0x05, OUTSIDE, below 0, in the invalid region and in an unpopulated part of a window, and NOTOWNED in the window of a core that is
harvested or of another job; a window of the thread's own core is its local space, that of another core sends the thread there; a
paged address is translated, by the TLB or by the walk, whose stop is trap 0x05 with its reason and level; then the page's W right, its
class and HOSTOP are checked, and the class says where the access is performed. The walk takes the four levels of R34 with the entries of
R35 and R36, and a 64 KiB page from the first entry of its group (R37).
The model's own readings and choices that it rests on, with their log entries (notes/assumptions): replies that come within the step (2),
an indexed entry with P = 0 in a group (88). -/
def Obligations.AccessChecks : Prop :=
  (∀ (s : State) glb a n al wr amo, a % (al : Nat) ≠ (0 : Int) →
    access glb a n al wr amo s = .error (.trap 4 (BitVec.ofNat 64 (a % 2 ^ 56).toNat))) ∧
  (∀ (s : State) a n al wr amo, 0 < n → a % (al : Nat) = (0 : Int) →
    (isFar s.cur = true → access false a n al wr amo s = .error (.trap 6 (faultValue 3 0 false wr a))) ∧
    (isFar s.cur = false →
      let lim : Int := if isCompute (coreOf s.cur) then 0x400000 else 0x10000
      (0 ≤ a → a + n ≤ lim → access false a n al wr amo s = .ok (.loc a.toNat, s)) ∧
      (a < 0 → access false a n al wr amo s = .error (.trap 5 (faultValue 2 0 false wr a))) ∧
      (0 ≤ a → lim < a + n → access false a n al wr amo s = .error (.trap 5 (faultValue 2 0 false wr (max a lim)))))) ∧
  (∀ a : Int, outsideGlobal a = true ↔ a < 0 ∨ 2 ^ 55 + 2 ^ 41 ≤ a ∨
    (2 ^ 55 ≤ a ∧ (a.toNat / 2 ^ 35 % 2 = 1 ∨ 8 ≤ a.toNat / 2 ^ 36 % 32 ∨ 0x400000 ≤ a.toNat % 2 ^ 28))) ∧
  (∀ x, windowCore x = x / 2 ^ 36 % 32 * 128 + x / 2 ^ 28 % 128) ∧
  (∀ (s : State) a n al wr amo, a % (al : Nat) = (0 : Int) →
    let go := access true a n al wr amo s
    let stop (c reason : Nat) : Prop := go = .error (.trap c (faultValue reason 0 false wr a))
    let x := a.toNat
    (outsideGlobal a = true → stop 5 2) ∧
    (outsideGlobal a = false → 2 ^ 55 ≤ a →
      (s.notOwned (windowCore x) (s.jobOf s.cur) = true → stop 5 3) ∧
      (s.notOwned (windowCore x) (s.jobOf s.cur) = false →
        (windowCore x = coreOf s.cur → isLocal s.cur = true → go = .ok (.loc (x % 2 ^ 28), s)) ∧
        ((windowCore x ≠ coreOf s.cur ∨ isLocal s.cur = false) → go = migrate (windowCore x) a false s))) ∧
    (0 ≤ a → a < 2 ^ 55 →
      (∀ c v, translate x wr false s = .error (.trap c v) → go = .error (.trap c v)) ∧
      (∀ l u, translate x wr false s = .ok (l, u) →
        let here := homeCore (l.phys x) l.home = coreOf u.cur
        let may := ¬ (wr = true ∧ l.w = false)
        (wr = true → l.w = false → stop 6 0) ∧
        (may → l.cls = 2 → stop 6 2) ∧
        (may → amo = true → l.cls = 3 → stop 6 4) ∧
        (may → amo = false → l.cls = 3 → go = .ok (.host (l.phys x) x, u)) ∧
        (may → l.cls = 1 → here → go = .ok (.home (l.phys x) x, u)) ∧
        (may → l.cls = 1 → ¬ here → go = migrate (homeCore (l.phys x) l.home) a false u) ∧
        (may → l.cls = 0 → go = .ok (.cached (l.phys x) x, u))))) ∧
  (∀ reason level fetch wr a, faultValue reason level fetch wr a = BitVec.ofNat 64 ((a % 2 ^ 56).toNat +
    (if wr then 2 ^ 56 else 0) + (if fetch then 2 ^ 57 else 0) + level * 2 ^ 58 + reason * 2 ^ 60)) ∧
  (∀ (s : State) va wr,
    let j := s.jobOf s.cur
    let hit := (s.core (coreOf s.cur)).tlb.find? fun l => l.covers j va
    (∀ l, hit = some l → translate va wr false s = .ok (l, s)) ∧
    (hit = none → (s.prompt = true ∨ s.grant = some (.translate (va / 4096))) → s.walkRouted (atCore s.cur) j va = true →
      (∀ e, s.walkOf j va = .error e → translate va wr false s = .error (.trap 5 (faultValue e.reason e.level false wr va))) ∧
      (∀ l, s.walkOf j va = .ok l → ∃ u, translate va wr false s = .ok (l, u) ∧ bytesKept s u ∧ slotsKept s u)) ∧
    (hit = none → s.prompt = false → s.grant ≠ some (.translate (va / 4096)) →
      translate va wr false s = .error (.park (.translate (va / 4096)) s))) ∧
  (∀ (s : State) j va x, s.job j = some x →
    let lo := x.carveLo * 2 ^ 20
    let ent (tab i : Nat) : Nat := readN s.mem (tab + 8 * i) 8
    let frame (e : Nat) : Nat := e / 2 ^ 12 % 2 ^ 36 * 2 ^ 12
    let ptr (e : Nat) : Prop := e % 4096 = 1 ∧ e / 2 ^ 48 % 2 ^ 16 = 0 ∧
      (inHbm (frame e) = true ∨ (inInfield (frame e) = true ∧ frame e + 4096 ≤ infieldBase + lo))
    let stop (reason level : Nat) : Prop := s.walkOf j va = .error { reason := reason, level := level }
    let e0 := ent x.root (va / 2 ^ 39 % 2 ^ 16)
    let e1 := ent (frame e0) (va / 2 ^ 30 % 512)
    let e2 := ent (frame e1) (va / 2 ^ 21 % 512)
    let i3 := va / 2 ^ 12 % 512
    let e3 := ent (frame e2) i3
    let g := ent (frame e2) (i3 / 16 * 16)
    (e0 % 2 = 0 → stop 0 0) ∧ (e0 % 2 = 1 → ¬ ptr e0 → stop 1 0) ∧
    (ptr e0 → (e1 % 2 = 0 → stop 0 1) ∧ (e1 % 2 = 1 → e1.testBit 7 = true → s.walkOf j va = leafOf j va 1 lo e1) ∧
      (e1 % 2 = 1 → e1.testBit 7 = false → ¬ ptr e1 → stop 1 1) ∧
      (ptr e1 → (e2 % 2 = 0 → stop 0 2) ∧ (e2 % 2 = 1 → e2.testBit 7 = true → s.walkOf j va = leafOf j va 2 lo e2) ∧
        (e2 % 2 = 1 → e2.testBit 7 = false → ¬ ptr e2 → stop 1 2) ∧
        (ptr e2 → (e3 % 2 = 0 → stop 0 3) ∧
          (e3 % 2 = 1 → e3.testBit 8 = false → s.walkOf j va = leafOf j va 3 lo e3) ∧
          (e3 % 2 = 1 → e3.testBit 8 = true → (g.testBit 8 = false → stop 1 3) ∧ (g.testBit 8 = true → g % 2 = 0 → stop 0 3) ∧
            (g.testBit 8 = true → g % 2 = 1 → s.walkOf j va = leafOf j va 3 lo g)))))) ∧
  (∀ (s : State) j va, s.job j = none → s.walkOf j va = .error { reason := 0, level := 0 }) ∧
  (∀ j va lvl lo e, lvl = 1 ∨ lvl = 2 ∨ lvl = 3 →
    let size := if lvl = 1 then 2 ^ 30 else if lvl = 2 then 2 ^ 21 else if e.testBit 8 then 2 ^ 16 else 2 ^ 12
    let pa := e / 2 ^ 12 % 2 ^ 36 * 2 ^ 12
    let cls := e / 2 ^ 5 % 4
    let good : Prop := e / 2 ^ 50 % 2 ^ 14 = 0 ∧ e / 2 ^ 9 % 8 = 0 ∧ e / 2 % 4 = 0 ∧ (lvl ≠ 3 → e.testBit 8 = false) ∧
      (cls ≠ 1 → e / 2 ^ 48 % 4 = 0) ∧ pa % size = 0 ∧ (inHbm pa = true ∨ inInfield pa = true ∨ inHost pa = true) ∧
      (inInfield pa = true → pa + size ≤ infieldBase + lo) ∧ (cls = 3 ↔ inHost pa = true) ∧ (cls = 1 → inHbm pa = true)
    (good → ∃ l, leafOf j va lvl lo e = .ok l ∧ l.job = j ∧ l.va = va - va % size ∧ l.size = size ∧ l.pa = pa ∧ l.cls = cls ∧
      l.x = e.testBit 4 ∧ l.w = e.testBit 3 ∧ l.home = e / 2 ^ 48 % 4) ∧
    (¬ good → leafOf j va lvl lo e = .error { reason := 1, level := lvl })) ∧
  (∀ (l : Leaf) va, l.phys va = l.pa + va % l.size)

/-- A local access that passes its checks (R3, R75, R82, R104, R127): the bytes of the scratchpad through the views; a load sets
PTS and SPW to the greater of the two, a store and an atomic PTS and SPW to the greater of PTS and SPW + 1; a byte that the
scoreboard holds parks the access, and a poisoned one that is read is trap 0x0C. -/
def Obligations.LocalAccesses : Prop :=
  ∀ (s : State) a n, isLocal s.cur = true →
    let c := coreOf s.cur
    let x := s.core c
    let at' (u : State) (p : Nat) : State := (u.modSlot s.cur fun k => { k with pts := p }).modBank c 0 fun k => { k with spw := p }
    let lo := max s.me.pts (s.bank c 0).spw
    let hi := max s.me.pts ((s.bank c 0).spw + 1)
    (x.boardHit a n = true → ∀ hint, loadT (.loc a) n hint s = .error (.park .board s) ∧
      ∀ v sc, storeT (.loc a) n v sc hint s = .error (.park .board s)) ∧
    (x.boardHit a n = false → (∀ b hint, x.poisoned a n = some b → loadT (.loc a) n hint s = dataLost 2 b s) ∧
      (∀ hint, x.poisoned a n = none → n ≠ 256 → loadT (.loc a) n hint s = .ok (x.read a n, at' s lo)) ∧
      (∀ v sc hint, ∃ t, storeT (.loc a) n v sc hint s = .ok ((), t) ∧ (t.core c).spad = x.writeSpad x.spad a n v ∧
        (t.slot s.cur).pts = hi ∧ (t.bank c 0).spw = hi ∧ t.mem = s.mem) ∧
      (x.poisoned a n = none → ∀ sc f, ∃ t, updateT (.loc a) n sc f s = .ok (x.read a n, t) ∧
        (t.core c).spad = x.writeSpad x.spad a n (f (x.read a n)) ∧ (t.slot s.cur).pts = hi ∧ (t.bank c 0).spw = hi ∧
        t.mem = s.mem))

/-- A store or an atomic at the authoritative pair of a line (R126): PTS = max(PTS, rts + 1) = wts = rts, the bytes are stored, and
an atomic answers the bytes that stood there. It is performed for a page of class CACHED and, at the home, for one of class
MIGRATE, once the reply is there, a route is up, and the line's directory entry is not in transfer (R87). A store needs the data of the sectors that
it does not cover whole (R103); an atomic, which reads, needs every sector and no word that is lost (R104). The die whose L2 the store
goes through is the line's owner (R87), and the line rests under the store's scope, where the slot has a cache of that scope (R88). A
local slot keeps its line of a CACHED page in its L1 with the new pair, so it reads no older value.
The model's own readings and choices that it rests on, with their log entries (notes/assumptions): one stamp for a store inside one
unit (55), that the L1 holds the line after a store of any scope, and where a near core's line rests (56). -/
def Obligations.StoreTimestamp : Prop :=
  ∀ (s : State) pa va n v sc, s.aliasBusy (s.jobOf s.cur) va n = false → s.poison.contains (pa / 4096) = false →
    (s.prompt = true ∨ s.grant = some .store) → s.routed (atCore s.cur) pa = true → s.moving pa = false →
    let p := max s.me.pts ((s.pairOf pa).rts + 1)
    let done (t : State) (b : Nat) : Prop :=
      t.mem = writeN s.mem pa n b ∧ (t.slot s.cur).pts = p ∧ (t.pairOf pa).wts = p ∧ (t.pairOf pa).rts = p ∧
        (t.pairOf pa).owner = l2Of s.cur ∧ (t.slot s.cur).regs = s.me.regs
    ∀ x, (x = .cached pa va ∨ x = .home pa va) →
      (s.badAt pa n true = false → ∀ hint, ∃ t, storeT x n v sc hint s = .ok ((), t) ∧ done t v ∧
        (x = .home pa va → (t.pairOf pa).scope = 0) ∧
        (x = .cached pa va → (t.pairOf pa).scope = if isLocal s.cur = true ∨ sc ≤ 1 then sc else 0) ∧
        (x = .cached pa va → isLocal s.cur = true →
          ∃ k ∈ (t.core (coreOf s.cur)).l1, k.job = s.jobOf s.cur ∧ k.line = pa / 256 ∧ k.wts = p ∧ k.rts = p ∧
            sectorsOf pa n &&& ~~~k.valid = 0 ∧ k.data = BitVec.ofNat 2048 (readN t.mem (pa - pa % 256) 256))) ∧
      (s.badAt pa n false = false → s.lostAt pa n = none →
        ∀ f, ∃ t, updateT x n sc f s = .ok (readN s.mem pa n, t) ∧ done t (f (readN s.mem pa n)))

/-- An access to a MIGRATE page at its home (R128): a load sets PTS = max(PTS, wts), then rts = max(rts, PTS), and answers the
bytes; no copy of the line is made, so there is no lease. A store follows R126. An access to a HOST page is performed over the host link:
the bytes are those of the host's memory behind the window, uncached, and no timestamp changes (R27, R140); an atomic or a remote add
never gets there (HOSTOP, AccessChecks).
The model's own readings and choices that it rests on, with their log entries (notes/assumptions): replies that come within the step (2),
host memory (84). -/
def Obligations.HomeAccesses : Prop :=
  (∀ (s : State) pa va n hint, s.poison.contains (pa / 4096) = false → s.routed (atCore s.cur) pa = true →
    (s.badAt pa n false = false → s.lostAt pa n = none → (s.prompt = true ∨ s.grant = some .load) → s.moving pa = false →
      ∃ t, loadT (.home pa va) n hint s = .ok (readN s.mem pa n, t) ∧
        (t.slot s.cur).pts = max s.me.pts (s.pairOf pa).wts ∧
        t.pairOf pa = { s.pairOf pa with rts := max (s.pairOf pa).rts (max s.me.pts (s.pairOf pa).wts) } ∧
        (∀ c, (t.core c).l1 = (s.core c).l1) ∧ (∀ d, (t.die d).l2 = (s.die d).l2) ∧ t.mem = s.mem) ∧
    (s.badAt pa n true = false → (s.prompt = true ∨ s.grant = some .store) → s.aliasBusy (s.jobOf s.cur) va n = false →
      s.moving pa = false →
      ∀ v sc, ∃ t, storeT (.home pa va) n v sc hint s = .ok ((), t) ∧ t.mem = writeN s.mem pa n v ∧
        (t.slot s.cur).pts = max s.me.pts ((s.pairOf pa).rts + 1) ∧ (t.pairOf pa).wts = (t.slot s.cur).pts ∧
        (t.pairOf pa).rts = (t.slot s.cur).pts ∧ (∀ c, (t.core c).l1 = (s.core c).l1) ∧ ∀ d, (t.die d).l2 = (s.die d).l2)) ∧
  (∀ (s : State) pa va n hint, (s.prompt = true ∨ s.grant = some .hostReply) → s.routed (atCore s.cur) pa = true →
    let there := (s.pkg.hwbase.toNat + (pa - hostBase)) % 2 ^ 64
    let still (t : State) : Prop := t.mem = s.mem ∧ t.pairs = s.pairs ∧ (∀ k, t.slot k = s.slot k) ∧
      (∀ c, (t.core c).l1 = (s.core c).l1) ∧ ∀ d, (t.die d).l2 = (s.die d).l2
    (∃ t, loadT (.host pa va) n hint s = .ok (readN s.hostMem there n, t) ∧ still t ∧ t.hostMem = s.hostMem) ∧
    ∀ v sc, ∃ t, storeT (.host pa va) n v sc hint s = .ok ((), t) ∧ still t ∧ t.hostMem = writeN s.hostMem there n v)

/-- A load of a CACHED page (R84, R86, R125): a copy in the L1 that serves the PTS is read, and PTS = max(PTS, wts of the copy), and no
pair changes; where the L1 has none and the L2 of the die has one inside the line's scope, that one is read and the L1 takes its bytes
with their lease; where
neither has one, and for a near core or a far slot always, the load is performed at the home: it answers the
bytes there, PTS = max(PTS, wts), and rts is no lower than PTS + LEASELEN.
The model's own readings and choices that it rests on, with their log entries (notes/assumptions): which copies a cache holds (56). -/
def Obligations.CachedLoads : Prop :=
  ∀ (s : State) pa va n hint, s.poison.contains (pa / 4096) = false → s.badAt pa n false = false → s.lostAt pa n = none →
    let j := s.jobOf s.cur
    let hit (k : LineCopy) : Bool := k.serves j pa n s.me.pts (s.lease j)
    let near (k : LineCopy) : Bool := hit k && insideScope (s.pairOf pa) s.cur
    let took (t : State) (k : LineCopy) : Prop :=
      (t.slot s.cur).pts = max s.me.pts k.wts ∧ t.mem = s.mem ∧ t.pairs = s.pairs ∧ slotsKept s t
    (∀ k, isLocal s.cur = true → (s.core (coreOf s.cur)).l1.find? hit = some k →
      ∃ t, loadT (.cached pa va) n hint s = .ok (rowBytes k.data pa n, t) ∧ took t k) ∧
    (∀ k, isLocal s.cur = true → (s.core (coreOf s.cur)).l1.find? hit = none → (s.die (dieOf s.cur)).l2.find? near = some k →
      (s.prompt = true ∨ s.grant = some .load) → s.moving pa = false →
      ∃ t, loadT (.cached pa va) n hint s = .ok (rowBytes k.data pa n, t) ∧ took t k ∧
        ∃ q ∈ (t.core (coreOf s.cur)).l1, q.job = k.job ∧ q.line = k.line ∧ q.data = k.data ∧ q.wts = k.wts ∧ q.rts = k.rts ∧
          q.valid = k.valid) ∧
    ((isLocal s.cur = true → (s.core (coreOf s.cur)).l1.find? hit = none ∧ (s.die (dieOf s.cur)).l2.find? near = none) →
      (s.prompt = true ∨ s.grant = some .load) → s.moving pa = false → (s.ownLine pa = true ∨ s.routed (atCore s.cur) pa = true) →
      ∃ t, loadT (.cached pa va) n hint s = .ok (readN s.mem pa n, t) ∧
        (t.slot s.cur).pts = max s.me.pts (s.pairOf pa).wts ∧ (t.pairOf pa).wts = (s.pairOf pa).wts ∧
        (t.pairOf pa).rts = max (s.pairOf pa).rts (max s.me.pts (s.pairOf pa).wts + s.lease j) ∧ t.mem = s.mem)

/-- What the loads leave alone, whatever happens: no byte of memory, of a scratchpad or of a private region changes, no register but
the destination, and no other slot's registers, special registers or PC; whether the load completes, parks, traps or leaves with
its thread. -/
def Obligations.LoadFrame : Prop :=
  ∀ i s t, Sys2Proof.Machine.exec i s = .next t →
    (∀ d z p, i = .ld d z p → bytesKept s t ∧ othersKept s t ∧
      (∀ n : BitVec 5, d ≠ .g n → (t.slot s.cur).regs.readG n.toNat = s.me.regs.readG n.toNat) ∧
      (∀ n, (t.slot s.cur).regs.readV n = s.me.regs.readV n ∧ (t.slot s.cur).regs.readK n = s.me.regs.readK n)) ∧
    (∀ d z p, i = .lds d z p → bytesKept s t ∧ othersKept s t ∧
      (∀ n : BitVec 5, d ≠ n → (t.slot s.cur).regs.readG n.toNat = s.me.regs.readG n.toNat) ∧
      (∀ n, (t.slot s.cur).regs.readV n = s.me.regs.readV n ∧ (t.slot s.cur).regs.readK n = s.me.regs.readK n)) ∧
    (∀ v p, i = .vld v p → bytesKept s t ∧ othersKept s t ∧
      (∀ n : BitVec 4, v ≠ n → (t.slot s.cur).regs.readV n.toNat = s.me.regs.readV n.toNat) ∧
      (∀ n, (t.slot s.cur).regs.readG n = s.me.regs.readG n ∧ (t.slot s.cur).regs.readK n = s.me.regs.readK n)) ∧
    (∀ k p, i = .kld k p → bytesKept s t ∧ othersKept s t ∧
      (∀ n : BitVec 3, k ≠ n → (t.slot s.cur).regs.readK n.toNat = s.me.regs.readK n.toNat) ∧
      (∀ n, (t.slot s.cur).regs.readG n = s.me.regs.readG n ∧ (t.slot s.cur).regs.readV n = s.me.regs.readV n))

/-- What ST, VST, KST, the atomics, RADD and RADDV leave alone: where the access gives `x` as the place stored to, every byte that is
not one of the bytes of `x` (for an ordered form, of its line, since the last contribution adds a round) reads as before; where it gives none, no byte changes. No register changes but an atomic's D, and no other
slot's registers, special registers or PC. -/
def Obligations.StoreFrame : Prop :=
  (∀ (s : State) v z sc p t, Sys2Proof.Machine.exec (.st v z sc p) s = .next t →
    let m : M Target := readSrcN 0 v (needA v p.base) >>= fun _ => readSrc 1 p.base >>= fun b =>
      access p.glb (b.toNat + p.off.toInt) (sizeBytes z) (sizeBytes z) true false
    (∀ x u, m s = .ok (x, u) → outsideKept x (sizeBytes z) s t) ∧ (∀ e, m s = .error e → bytesKept s t) ∧
      othersKept s t ∧ (t.slot s.cur).regs = s.me.regs) ∧
  (∀ (s : State) v sc p t, Sys2Proof.Machine.exec (.vst v sc p) s = .next t →
    let m : M Target := readSrc 1 p.base >>= fun b =>
      access p.glb (b.toNat + p.off.toInt) 256 (if p.glb then 256 else 1) true false
    (∀ x u, m s = .ok (x, u) → outsideKept x 256 s t) ∧ (∀ e, m s = .error e → bytesKept s t) ∧
      othersKept s t ∧ (t.slot s.cur).regs = s.me.regs) ∧
  (∀ (s : State) k sc p t, Sys2Proof.Machine.exec (.kst k sc p) s = .next t →
    let m : M Target := readSrc 1 p.base >>= fun b => access p.glb (b.toNat + p.off.toInt) 8 8 true false
    (∀ x u, m s = .ok (x, u) → outsideKept x 8 s t) ∧ (∀ e, m s = .error e → bytesKept s t) ∧
      othersKept s t ∧ (t.slot s.cur).regs = s.me.regs) ∧
  (∀ i o f s t, atomicOf i = some (o, f) → Sys2Proof.Machine.exec i s = .next t →
    let n := if o.w64 then 8 else 4
    let m : M Target := readAB o.a o.b >>= fun r => access o.glb r.1.toNat n n true true
    (∀ x u, m s = .ok (x, u) → outsideKept x n s t) ∧ (∀ e, m s = .error e → bytesKept s t) ∧
      othersKept s t ∧ (∀ r : BitVec 5, o.d ≠ .g r → (t.slot s.cur).regs.readG r.toNat = s.me.regs.readG r.toNat) ∧
      (∀ r, (t.slot s.cur).regs.readV r = s.me.regs.readV r ∧ (t.slot s.cur).regs.readK r = s.me.regs.readK r)) ∧
  (∀ (s : State) o c t, Sys2Proof.Machine.exec (.amocas o c) s = .next t →
    let n := if o.w64 then 8 else 4
    let m : M Target := readAB o.a o.b >>= fun r => readSR 3 c >>= fun _ => access o.glb r.1.toNat n n true true
    (∀ x u, m s = .ok (x, u) → outsideKept x n s t) ∧ (∀ e, m s = .error e → bytesKept s t) ∧
      othersKept s t ∧ (∀ r : BitVec 5, o.d ≠ .g r → (t.slot s.cur).regs.readG r.toNat = s.me.regs.readG r.toNat) ∧
      (∀ r, (t.slot s.cur).regs.readV r = s.me.regs.readV r ∧ (t.slot s.cur).regs.readK r = s.me.regs.readK r)) ∧
  (∀ (s : State) ty a b t, Sys2Proof.Machine.exec (.radd ty a b) s = .next t →
    let m : M Target := readAB a b >>= fun r => access true r.1.toNat (rtyBytes ty) (rtyBytes ty) true true
    (∀ x u, m s = .ok (x, u) → outsideKept x (rtyBytes ty) s t) ∧ (∀ e, m s = .error e → bytesKept s t) ∧
      othersKept s t ∧ (t.slot s.cur).regs = s.me.regs) ∧
  (∀ (s : State) r t, Sys2Proof.Machine.exec (.raddv r) s = .next t →
    let m : M Target := readSrc 1 r.a >>= fun x => access true x.toNat 256 256 true true
    (∀ x u, m s = .ok (x, u) → outsideKept x 256 s t) ∧ (∀ e, m s = .error e → bytesKept s t) ∧
      othersKept s t ∧ (t.slot s.cur).regs = s.me.regs) ∧
  (∀ (s : State) ty a b o t, Sys2Proof.Machine.exec (.raddOrd ty a b o) s = .next t →
    let m : M Target := readAB a b >>= fun r => readSR 3 o >>= fun _ => access true r.1.toNat (rtyBytes ty) (rtyBytes ty) true true
    (∀ x u, m s = .ok (x, u) → outsideKept (lineTarget x) 256 s t) ∧ (∀ e, m s = .error e → bytesKept s t) ∧
      othersKept s t ∧ (t.slot s.cur).regs = s.me.regs) ∧
  (∀ (s : State) r o t, Sys2Proof.Machine.exec (.raddvOrd r o) s = .next t →
    let m : M Target := readSrc 1 r.a >>= fun x => readSR 3 o >>= fun _ => access true x.toNat 256 256 true true
    (∀ x u, m s = .ok (x, u) → outsideKept (lineTarget x) 256 s t) ∧ (∀ e, m s = .error e → bytesKept s t) ∧
      othersKept s t ∧ (t.slot s.cur).regs = s.me.regs)

/-- The atomics, AMOCAS, RADD and RADDV, plain and ordered (R271-R274): wherever A and B can be read and the access passes its
checks, the instruction completes; D receives the old value, zero-extended, and the new one is the rule's, on 4 or 8 bytes; RADD
adds its element; an ordered form stages its contribution, and its index must lie below its count.
The model's own readings and choices that it rests on, with their log entries (notes/assumptions): one step for an atomic (55). -/
def Obligations.Atomics : Prop :=
  (∀ i o f s a b s1 x s2 old s3 s4, atomicOf i = some (o, f) → s.live → readAB o.a o.b s = .ok ((a, b), s1) →
    let n := if o.w64 then 8 else 4
    access o.glb a.toNat n n true true s1 = .ok (x, s2) →
    updateT x n (scopeNo o.scope) (fun y => f y (b.toNat % 2 ^ (8 * n)) % 2 ^ (8 * n)) s2 = .ok (old, s3) →
    writeSR o.d (BitVec.ofNat 64 old) s3 = .ok ((), s4) → Sys2Proof.Machine.exec i s = .next (s4.advance i)) ∧
  (∀ o c s a b s1 z s2 x s3 old s4 s5, s.live → readAB o.a o.b s = .ok ((a, b), s1) → readSR 3 c s1 = .ok (z, s2) →
    let n := if o.w64 then 8 else 4
    access o.glb a.toNat n n true true s2 = .ok (x, s3) →
    updateT x n (scopeNo o.scope) (fun y => if y = z.toNat % 2 ^ (8 * n) then b.toNat % 2 ^ (8 * n) else y) s3 =
      .ok (old, s4) → writeSR o.d (BitVec.ofNat 64 old) s4 = .ok ((), s5) →
    Sys2Proof.Machine.exec (.amocas o c) s = .next (s5.advance (.amocas o c))) ∧
  (∀ ty a b s x y s1 p s2 s3, s.live → readAB a b s = .ok ((x, y), s1) →
    access true x.toNat (rtyBytes ty) (rtyBytes ty) true true s1 = .ok (p, s2) →
    raddPlain p ty (rtyBytes ty) [(0, y.toNat % 2 ^ (8 * rtyBytes ty))] s2 = .ok ((), s3) →
    Sys2Proof.Machine.exec (.radd ty a b) s = .next (s3.advance (.radd ty a b))) ∧
  (∀ r s x s1 p s2 s3, s.live → readSrc 1 r.a s = .ok (x, s1) → access true x.toNat 256 256 true true s1 = .ok (p, s2) →
    raddPlain p (if r.isF then .f32 else .i32) 256
      (raddvLanes (s1.me.regs.readK r.k.toNat) (permRow r.perm (s1.me.regs.readV r.v.toNat))) s2 = .ok ((), s3) →
    Sys2Proof.Machine.exec (.raddv r) s = .next (s3.advance (.raddv r))) ∧
  (∀ ty a b o s x y s1 q s2 p s3 s4, s.live → readAB a b s = .ok ((x, y), s1) → readSR 3 o s1 = .ok (q, s2) →
    let k := q.toNat % 256
    let m := q.toNat / 256 % 256 + 1
    k < m → access true x.toNat (rtyBytes ty) (rtyBytes ty) true true s2 = .ok (p, s3) →
    raddStage p ty m k (rtyBytes ty) [(0, y.toNat % 2 ^ (8 * rtyBytes ty))] s3 = .ok ((), s4) →
    Sys2Proof.Machine.exec (.raddOrd ty a b o) s = .next (s4.advance (.raddOrd ty a b o))) ∧
  (∀ r o s x s1 q s2 p s3 s4, s.live → readSrc 1 r.a s = .ok (x, s1) → readSR 3 o s1 = .ok (q, s2) →
    let k := q.toNat % 256
    let m := q.toNat / 256 % 256 + 1
    k < m → access true x.toNat 256 256 true true s2 = .ok (p, s3) →
    raddStage p (if r.isF then .f32 else .i32) m k 256
      (raddvLanes (s2.me.regs.readK r.k.toNat) (permRow r.perm (s2.me.regs.readV r.v.toNat))) s3 = .ok ((), s4) →
    Sys2Proof.Machine.exec (.raddvOrd r o) s = .next (s4.advance (.raddvOrd r o))) ∧
  (∀ ty x v, x < 2 ^ (8 * rtyBytes ty) → addAt ty x 0 v =
    match ty with
    | .i32 => (x + v) % 2 ^ 32
    | .i64 => (x + v) % 2 ^ 64
    | .f32 => f32Add x v)

/-- VLDS, VSTS, VGATH and VSCAT (R268, R269): the address of lane l is base + off + l * stride, or base + off + 4 * Bp[l], and the
lanes of mask K take part. A local load of lanes that are aligned, inside, held by no entry of the scoreboard and not poisoned
puts each one's 4 bytes into its lane and keeps the others; a local store writes the lanes in ascending order. A global form
runs lane by lane from PROGIDX up, each lane one access of its own at its address that is over before the next begins, and ends with
PROGIDX at 0; a lane whose access traps leaves the lanes before it done and PROGIDX at its number, and a lane at a MIGRATE page whose
home is elsewhere is trap 0x0B, VECLANE.
The model's own readings and choices that it rests on, with their log entries (notes/assumptions): where PROGIDX begins (42), one
step a lane (55). -/
def Obligations.LaneAccesses : Prop :=
  (∀ o s b s1 g s2 t, s.live → readSrc 1 o.base s = .ok (b, s1) → readSR 2 o.stride s1 = .ok (g, s2) →
    let addr (l : Nat) : Int := b.toNat + o.off.toInt + l * g.toInt
    (gatherForm o.glb o.k o.v addr s2 = .ok ((), t) → Sys2Proof.Machine.exec (.vlds o) s = .next (t.advance (.vlds o))) ∧
    (scatterForm o.glb o.k (s2.me.regs.readV o.v.toNat) addr s2 = .ok ((), t) →
      Sys2Proof.Machine.exec (.vsts o) s = .next (t.advance (.vsts o)))) ∧
  (∀ o s b s1 x s2 t, s.live → readSrc 1 o.base s = .ok (b, s1) → keepRow 100 (readV o.vi) s1 = .ok (x, s2) →
    let addr (l : Nat) : Int := b.toNat + o.off.toInt + 4 * elemAt (permRow o.perm x) 32 l
    (gatherForm o.glb o.k o.v addr s2 = .ok ((), t) → Sys2Proof.Machine.exec (.vgath o) s = .next (t.advance (.vgath o))) ∧
    (scatterForm o.glb o.k (s2.me.regs.readV o.v.toNat) addr s2 = .ok ((), t) →
      Sys2Proof.Machine.exec (.vscat o) s = .next (t.advance (.vscat o)))) ∧
  (∀ (s : State) k d addr, isLocal s.cur = true →
    let m := s.me.regs.readK k.toNat
    let c := s.core (coreOf s.cur)
    (∀ l, l < 64 → m.getLsbD l = true → 0 ≤ addr l ∧ addr l + 4 ≤ 0x400000 ∧ addr l % 4 = 0 ∧
      c.boardHit (addr l).toNat 4 = false ∧ c.poisoned (addr l).toNat 4 = none) →
    (∃ u, gatherForm false k d addr s = .ok ((), u.modSlot s.cur fun y => y.putV d.toNat
        (rowOf 32 fun l => if m.getLsbD l then c.read (addr l).toNat 4 else elemAt (s.me.regs.readV d.toNat) 32 l)) ∧
      bytesKept s u ∧ slotsKept s u) ∧
    (∀ x, ∃ u, scatterForm false k x addr s = .ok ((), u) ∧ u.mem = s.mem ∧ slotsKept s u ∧
      (u.core (coreOf s.cur)).spad = (List.range 64).foldl (fun p l =>
        if m.getLsbD l then c.writeSpad p (addr l).toNat 4 (elemAt x 32 l) else p) c.spad)) ∧
  (∀ (s : State) k d addr t, (gatherForm true k d addr s = .ok ((), t) ∨ ∃ x, scatterForm true k x addr s = .ok ((), t)) →
    (t.slot t.cur).sp.progidx = 0) ∧
  (∀ (s : State) k d x (addr : Nat → Int),
    let at_ (l : Nat) (u : State) : State := u.modSlot u.cur fun y => { y with sp := { y.sp with progidx := BitVec.ofNat 64 l } }
    let loads (l : Nat) (u v : State) : Prop := ∃ p w e z, laneTarget (addr l) false (at_ l u) = .ok (p, w) ∧
      loadT p 4 false w = .ok (e, z) ∧ v = z.modSlot z.cur fun y => y.putV d.toNat
        (rowOf 32 fun i => if i = l then e else elemAt (z.me.regs.readV d.toNat) 32 i)
    let stores (l : Nat) (u v : State) : Prop := ∃ p w, laneTarget (addr l) true (at_ l u) = .ok (p, w) ∧
      storeT p 4 (elemAt x 32 l) 0 false w = .ok ((), v)
    let ls := (List.range 64).filter fun l => (s.me.regs.readK k.toNat).getLsbD l && decide (s.me.sp.progidx.toNat ≤ l)
    (∀ u, chained loads ls s u → gatherForm true k d addr s = .ok ((), at_ 0 u)) ∧
    (∀ u, chained stores ls s u → scatterForm true k x addr s = .ok ((), at_ 0 u)) ∧
    ∀ done l rest c v u, ls = done ++ l :: rest →
      (chained loads done s u → laneTarget (addr l) false (at_ l u) = .error (.trap c v) →
        gatherForm true k d addr s = .error (.trapAt c v (at_ l u))) ∧
      (chained stores done s u → laneTarget (addr l) true (at_ l u) = .error (.trap c v) →
        scatterForm true k x addr s = .error (.trapAt c v (at_ l u)))) ∧
  (∀ (s : State) (a : Int) wr c u, a % 4 = 0 → placeOf true a 4 wr false s = .ok (.inr c, u) →
    laneTarget a wr s = .error (.trap 0x0B (BitVec.ofNat 64 (2 * 2 ^ 60 + (a % 2 ^ 56).toNat))))

/-! ## Ordering, full bits, messages, counters (R109-R121, R150-R154, R183-R185, R275-R287) -/

/-- FENCE, SFILL, FSTAT and CLINE (R110, R116, R275-R277, R288). FENCE, with nothing of the thread outstanding and no failure to report,
completes, and the PTS takes the stamps of the copies that have ended; with something outstanding it parks. SFILL of an empty
register that no other slot waits to write fills it; of a full one, it parks; a far slot fills mailboxes only, at the start of a lap
(R120), and of s0-s63 it is trap 0x01, SUB 0x08 (R263). FSTAT reads the F bits of s0-s63, or of m0-m7, and
nothing else. CLINE.wb, CLINE.evict and CLINE.pf never park and never fault: wherever the base can be read they complete, and change no
byte, no register, no timestamp of a slot and no timestamp of a line.
The model's own readings and choices that it rests on, with their log entries (notes/assumptions): CLINE.pf without a renewal (38),
failures before stamps (40), XVALUE in a far slot (80). -/
def Obligations.FenceFullBitsAndLines : Prop :=
  (∀ s : State, s.live → s.quiet s.cur = true → s.me.fails = [] →
    Sys2Proof.Machine.exec .fence s =
      .next ((s.modSlot s.cur fun x => { x with pts := max x.pts x.copyPts }).advance .fence)) ∧
  (∀ s : State, s.live → s.quiet s.cur = false → s.prompt = false →
    Sys2Proof.Machine.exec .fence s = .next (s.parkOn .fence .fence)) ∧
  (∀ (s : State) d k a x s1, s.live → sharedNo d = some k → (isFar s.cur = true → 64 ≤ k ∧ s1.grant = some .lapStart) → readSrc 1 a s = .ok (x, s1) →
    ((s1.myReg k).full = false → (s1.myReg k).writers = [] →
      ∃ t : State, Sys2Proof.Machine.exec (.sfill d a) s = .next (t.advance (.sfill d a)) ∧ t.cur = s1.cur ∧ (t.myReg k).val = x ∧
        (t.myReg k).full = true ∧ (t.myReg k).stamp = s1.me.pts ∧ t.mem = s1.mem) ∧
    ((s1.myReg k).full = true →
      ∃ t : State, Sys2Proof.Machine.exec (.sfill d a) s = .next t ∧ (t.slot s1.cur).st = .parked ∧ t.mem = s1.mem)) ∧
  (∀ (s : State) n a, s.live → isFar s.cur = true →
    Sys2Proof.Machine.exec (.sfill (.s n) a) s = .next (s.trapMe 1 (BitVec.ofNat 64 (56 * 256 + 8))) ∧
    ∀ d, Sys2Proof.Machine.exec (.fstat d false) s = .next (s.trapMe 1 (BitVec.ofNat 64 (56 * 256 + 8)))) ∧
  (∀ (s : State) d s1, s.live → isFar s.cur = false →
    (∀ x : Word, (∀ n, x.getLsbD n = true ↔ n < 64 ∧ (s.myReg n).full = true) → writeSR d x s = .ok ((), s1) →
      Sys2Proof.Machine.exec (.fstat d false) s = .next (s1.advance (.fstat d false)))) ∧
  (∀ (s : State) d s1, s.live →
    (∀ x : Word, (∀ n, x.getLsbD n = true ↔ n < 8 ∧ (s.myReg (64 + n)).full = true) → writeSR d x s = .ok ((), s1) →
      Sys2Proof.Machine.exec (.fstat d true) s = .next (s1.advance (.fstat d true)))) ∧
  (∀ i a s b s1, s.live → readSrc 1 a s = .ok (b, s1) →
      ((∃ off, i = .clineWb a off) ∨ (∃ off, i = .clineEvict a off) ∨ (∃ off, i = .clinePf a off)) →
      ∃ t, Sys2Proof.Machine.exec i s = .next (t.advance i) ∧ bytesKept s1 t ∧ slotsKept s1 t ∧
        (∀ k, (t.slot k).pts = (s1.slot k).pts) ∧
        ∀ pa, (t.pairOf pa).wts = (s1.pairOf pa).wts ∧ (t.pairOf pa).rts = (s1.pairOf pa).rts)

/-- The counters and transfer ids (R150, R151, R154, R286). CADD adds a signed n to VALUE and the PTS to STAMP; CADD.clr sets VALUE
and clears ERR and FAILID; a VALUE outside its range is trap 0x12, and nothing is counted; CEXP subtracts n, and goes on once
VALUE is not negative, its PTS then no lower than STAMP; CRD reads ERR and VALUE; XWAIT goes on once its id is done, and traps on
an id not yet issued. None is of a far slot.
The model's own readings and choices that it rests on, with their log entries (notes/assumptions): what a CEXP that waits leaves
(39), failures before stamps (40). -/
def Obligations.Counters : Prop :=
  (∀ (s : State) c b n s1 u, s.live → isFar s.cur = false → readSrc 2 b s = .ok (n, s1) → s1.cur = s.cur →
    s1.ctr (coreOf s.cur) (s1.bankNo s.cur) c.toNat = u →
    let put (u : Counter) : State := s1.setCtr (coreOf s.cur) (s1.bankNo s.cur) c.toNat u
    (u.err ≠ 1 → -(2 : Int) ^ 47 ≤ u.val + n.toInt → u.val + n.toInt < 2 ^ 47 →
      Sys2Proof.Machine.exec (.cadd c b) s =
        .next ((put { u with val := u.val + n.toInt, stamp := max u.stamp s1.me.pts }).advance (.cadd c b))) ∧
    ((u.err = 1 ∨ u.val + n.toInt < -(2 : Int) ^ 47 ∨ (2 : Int) ^ 47 ≤ u.val + n.toInt) →
      Sys2Proof.Machine.exec (.cadd c b) s = .next (s.trapMe 0x12 (c.setWidth 64))) ∧
    (-(2 : Int) ^ 47 ≤ n.toInt → n.toInt < 2 ^ 47 →
      Sys2Proof.Machine.exec (.caddClr c b) s =
        .next ((put { val := n.toInt, err := 0, failId := 0, stamp := max u.stamp s1.me.pts }).advance (.caddClr c b))) ∧
    (u.err = 0 → s.me.wait = none → s.ctr (coreOf s.cur) (s.bankNo s.cur) c.toNat = u →
      -(2 : Int) ^ 47 ≤ u.val - n.toInt → u.val - n.toInt < 2 ^ 47 → 0 ≤ u.val - n.toInt →
      Sys2Proof.Machine.exec (.cexp c b) s =
        .next (((put { u with val := u.val - n.toInt }).modSlot s.cur fun x => { x with pts := max x.pts u.stamp }).advance
          (.cexp c b))) ∧
    (u.err = 0 → s.me.wait = none → s.ctr (coreOf s.cur) (s.bankNo s.cur) c.toNat = u →
      -(2 : Int) ^ 47 ≤ u.val - n.toInt → u.val - n.toInt < 0 →
      Sys2Proof.Machine.exec (.cexp c b) s =
        .next ((put { u with val := u.val - n.toInt }).parkOn (.cexp c b) (.counter c.toNat)))) ∧
  (∀ (s : State) d c u s2, s.live → isFar s.cur = false → s.ctr (coreOf s.cur) (s.bankNo s.cur) c.toNat = u →
    writeSR d (BitVec.ofNat 64 (u.err * 2 ^ 56 + (u.val % 2 ^ 48).toNat)) (s.modSlot s.cur fun x => { x with pts := max x.pts u.stamp }) =
      .ok ((), s2) →
    Sys2Proof.Machine.exec (.crd d c) s = .next (s2.advance (.crd d c))) ∧
  (∀ (s : State) a x s1, s.live → isFar s.cur = false → readSrc 1 a s = .ok (x, s1) →
    let b := s1.bank (coreOf s1.cur) (s1.bankNo s1.cur)
    let t : Nat := x.toNat % 2 ^ 32
    (((t : Int) - b.xferNext) % 2 ^ 32 < 2 ^ 31 →
      Sys2Proof.Machine.exec (.xwait a) s = .next (s.trapMe 0x0D (BitVec.ofNat 64 (6 * 2 ^ 32 + t)))) ∧
    (¬ ((t : Int) - b.xferNext) % 2 ^ 32 < 2 ^ 31 → t ∈ b.pending →
      Sys2Proof.Machine.exec (.xwait a) s = .next (s1.parkOn (.xwait a) (.xfer t))) ∧
    (¬ ((t : Int) - b.xferNext) % 2 ^ 32 < 2 ^ 31 → t ∉ b.pending → s1.me.fails = [] →
      Sys2Proof.Machine.exec (.xwait a) s =
        .next ((s1.modSlot s1.cur fun x => { x with pts := max x.pts b.xferStamp }).advance (.xwait a)))) ∧
  (∀ (s : State) c b d a n, s.live → isFar s.cur = true →
    let t := s.trapMe 1 (BitVec.ofNat 64 (56 * 256 + 8))
    Sys2Proof.Machine.exec (.cadd c b) s = .next t ∧ Sys2Proof.Machine.exec (.caddClr c b) s = .next t ∧
    Sys2Proof.Machine.exec (.cexp c b) s = .next t ∧ Sys2Proof.Machine.exec (.crd d n) s = .next t ∧
    Sys2Proof.Machine.exec (.xwait a) s = .next t)

/-- QSEND (R119, R285): a target that is a compute core of the job, or near core 4-7, takes the registers B to B + N - 1 as one
message with the sender's PTS. Where replies come at once and the port has room, the words are behind those that it holds, and the
slots that wait for an event of the port wait no longer; where replies do not come at once, or the port has no room, the message is on
its way and the slot parks. A message that enters its port says so to its sender, whose slot then goes on with nothing done twice.
A target that is no such core is trap 0x05, OUTSIDE; port 0, and a core of another job, are trap 0x05, NOTOWNED.
The model's own readings and choices that it rests on, with their log entries (notes/assumptions): replies that come within the step
(2). -/
def Obligations.Messages : Prop :=
  ∀ (s : State) p a b k x s1 c, s.live → s.me.wait = none → readSrc 1 a s = .ok (x, s1) →
    fieldN x.toNat 12 5 * 128 + fieldN x.toNat 5 7 = c →
    let m : Msg := { src := some s1.cur, core := c, bank := if isNear c then s1.jobOf s1.cur else 0, port := p.toNat,
                     words := (List.range (k.toNat + 1)).map fun j => s1.me.regs.readG (b.toNat + j), stamp := s1.me.pts }
    (x.toNat < 2 ^ 17 → p ≠ 0 → (isNear c = true ∨ (isCompute c = true ∧ s1.notOwned c (s1.jobOf s1.cur) = false)) →
      (s1.prompt = true → (∀ q ∈ s1.msgs, q.src ≠ some s1.cur) → (s1.port c m.bank p.toNat).words.length + (k.toNat + 1) ≤ 64 →
        ∃ t : State, Sys2Proof.Machine.exec (.qsend p a b k) s = .next (t.advance (.qsend p a b k)) ∧ t.msgs = s1.msgs ∧
          (t.port c m.bank p.toNat).words = (s1.port c m.bank p.toNat).words ++ m.words.map (fun w => (w, s1.me.pts)) ∧
          bytesKept s1 t ∧ slotsKept s1 t ∧ ∀ n w e, (s1.slot n).wait = some w → w.kind = .event e false → e.testBit p.toNat = true →
            coreOf n = c → isFar n = false → (isNear c = true → (s1.slot n).job = some m.bank) →
            (t.slot n).wait = some { w with kind := .event e true }) ∧
      ((s1.prompt = false ∨ 64 < (s1.port c m.bank p.toNat).words.length + (k.toNat + 1)) → (∀ q ∈ s1.msgs, q.src ≠ some s1.cur) →
        Sys2Proof.Machine.exec (.qsend p a b k) s =
          .next (({ s1 with msgs := s1.msgs ++ [m] } : State).parkOn (.qsend p a b k) (.room c p.toNat (k.toNat + 1))))) ∧
    ((2 ^ 17 ≤ x.toNat ∨ (isCompute c = false ∧ isNear c = false)) →
      Sys2Proof.Machine.exec (.qsend p a b k) s = .next (s.trapMe 5 (faultValue 2 0 false false x.toNat))) ∧
    (x.toNat < 2 ^ 17 → (isCompute c = true ∨ isNear c = true) →
      (p = 0 ∨ (isCompute c = true ∧ s1.notOwned c (s1.jobOf s1.cur) = true)) →
      Sys2Proof.Machine.exec (.qsend p a b k) s = .next (s.trapMe 5 (faultValue 3 0 false false x.toNat))) ∧
    (∀ (v : State) w, v.live → v.me.wait = some w → w.kind = .ready → w.n = 1 →
      Sys2Proof.Machine.exec (.qsend p a b k) v = .next (v.advance (.qsend p a b k)))

/-- HSET, HURDLE and VIEW (R79, R183-R185, R287) are of local slots of compute cores. HSET writes the fields of HBn that software
writes, and keeps PHASE; a value that R183 refuses is trap 0x01, SUB 0x07. HURDLE of a disabled hurdle is trap 0x01; of an enabled
one it arrives and waits; after its release it goes on with the PTS of the release. VIEW writes VWn once no entry of the
scoreboard and no transfer holds a byte of the old or the new range.
The model's own readings and choices that it rests on, with their log entries (notes/assumptions): what a view write waits for (41). -/
def Obligations.HurdlesAndViews : Prop :=
  (∀ (s : State) n a x s1, s.live → isLocal s.cur = true → readSrc 1 a s = .ok (x, s1) → s1.cur = s.cur →
    let c := coreOf s.cur
    (hbBad c (s1.hb c n.toNat) x = false →
      ∃ t : State, Sys2Proof.Machine.exec (.hset n a) s = .next (t.advance (.hset n a)) ∧
        (t.hb c n.toNat).val = (x &&& 0x8000F000001FFF80) ||| ((s1.hb c n.toNat).val &&& 0x4000000000000000) ∧
        (t.hb c n.toNat).arrs = (s1.hb c n.toNat).arrs ∧ (∀ k, k ≠ n.toNat → t.hb c k = s1.hb c k) ∧ bytesKept s1 t ∧ slotsKept s1 t) ∧
    (hbBad c (s1.hb c n.toNat) x = true →
      Sys2Proof.Machine.exec (.hset n a) s = .next (s.trapMe 1 (BitVec.ofNat 64 (40 * 256 + 7))))) ∧
  (∀ (s : State) n, s.live → isLocal s.cur = true →
    (s.me.wait = none → (s.hb (coreOf s.cur) n.toNat).val.getLsbD 63 = false →
      Sys2Proof.Machine.exec (.hurdle n) s = .next (s.trapMe 1 (BitVec.ofNat 64 (32 * 256 + 7)))) ∧
    (s.me.wait = none → (s.hb (coreOf s.cur) n.toNat).val.getLsbD 63 = true → s.prompt = false →
      ∃ t, Sys2Proof.Machine.exec (.hurdle n) s = .next t ∧ (t.slot s.cur).st = .parked ∧
        ∃ w, (t.slot s.cur).wait = some w ∧ w.kind = .hurdle n.toNat none) ∧
    (∀ w m p ps, s.me.wait = some w → w.kind = .hurdle m (some false) → w.stamps = p :: ps →
      Sys2Proof.Machine.exec (.hurdle n) s =
        .next ((s.modSlot s.cur fun x => { x with pts := max x.pts p }).advance (.hurdle n)))) ∧
  (∀ (s : State) n a x s1, s.live → isLocal s.cur = true → readSrc 1 a s = .ok (x, s1) → s1.cur = s.cur →
    let c := coreOf s.cur
    let held (r : Nat × Nat) : Bool :=
      (s1.core c).board.any (fun e => overlap (e.lo, e.hi) r) || s1.windowBusy c r || s1.partBusy c r
    viewBad (s1.core c) n.toNat x = false → held (viewRange ((s1.core c).vw.get 0 n.toNat)) = false → held (viewRange x) = false →
    Sys2Proof.Machine.exec (.view n a) s =
      .next ((s1.modCore c fun k => { k with vw := k.vw.set 0 n.toNat x }).advance (.view n a))) ∧
  (∀ (s : State) n m k a, s.live → isLocal s.cur = false →
    let t := s.trapMe 1 (BitVec.ofNat 64 (56 * 256 + 8))
    Sys2Proof.Machine.exec (.hset n a) s = .next t ∧ Sys2Proof.Machine.exec (.hurdle m) s = .next t ∧
    Sys2Proof.Machine.exec (.view k a) s = .next t)

/-! ## Migration (R173-R182, R278-R280) -/

/-- MPIN (R279): `MPIN 1` sets XSTAT.PIN and `MPIN 0` clears it, and no other bit of XSTAT changes; any other IMM32 is trap 0x01,
SUB 0x05, FIELD 0; a pinned thread that needs to migrate takes trap 0x0B, PINNED, also where another reason of R174 holds at once.
The model's own readings and choices that it rests on, with their log entries (notes/assumptions): reasons of a forbidden migration
that hold together (65). -/
def Obligations.Pinning : Prop :=
  (∀ s : State, s.live → Sys2Proof.Machine.exec (.mpin true) s =
      .next ((s.modSlot s.cur fun x => { x with sp := { x.sp with xstat := x.sp.xstat ||| 2 } }).advance (.mpin true)) ∧
    Sys2Proof.Machine.exec (.mpin false) s =
      .next ((s.modSlot s.cur fun x => { x with sp := { x.sp with xstat := x.sp.xstat &&& ~~~2 } }).advance (.mpin false))) ∧
  (∀ (v : BitVec 32) far n, v ≠ 0 → v ≠ 1 → Dec.decode far (Dec.packI 0x6A { imm := v }) n = .error (Dec.illegal 5 0)) ∧
  (∀ far n, Dec.decode far (Dec.packI 0x6A { imm := 1 }) n = .ok (.mpin true) ∧
    Dec.decode far (Dec.packI 0x6A { imm := 0 }) n = .ok (.mpin false)) ∧
  (∀ (s : State) (dest : Nat) (a : Int) crew, s.me.sp.xstat.getLsbD 1 = true →
    (migrate dest a crew : M Unit) s = .error (.trap 0x0B (BitVec.ofNat 64 (a % 2 ^ 56).toNat)))

/-- Migration (R26-R28, R173-R178, R278, R280). MIGR to a home where the thread runs, or of a page that is not MIGRATE, is a NOP;
to another home the baton leaves: it carries the registers that the block's live fields or the written mask name, and the origin
is RESERVED; the copies that have ended are merged into the PTS that it carries (log 73). A baton has 64 bytes and those of the registers
it carries, at most 4,464. MIGR.crew is of crew members only. CREWJ of a member with B = 0 leaves the crew; the last of the members of a join
that agree on the size completes it.
The model's own readings and choices that it rests on, with their log entries (notes/assumptions): reasons of a forbidden migration
(65), what a baton carries (73). -/
def Obligations.Migration : Prop :=
  (∀ (s : State) a off b s1 x s2, s.live → readSrc 1 a s = .ok (b, s1) →
    placeOf true (b.toNat + off.toInt) 1 false false s1 = .ok (x, s2) →
    (∀ y, x = .inl y →
      Sys2Proof.Machine.exec (.migr a off) s = .next (s2.advance (.migr a off)) ∧
      (s.me.sp.xstat.getLsbD 2 = true → Sys2Proof.Machine.exec (.migrCrew a off) s = .next (s2.advance (.migrCrew a off)))) ∧
    (∀ c, x = .inr c → s2.me.sp.xstat.getLsbD 1 = false → isFar s2.cur = false → s2.holdsAcc s2.me (s2.jobOf s2.cur) = false →
      s2.me.consumed = false → s2.quiet s2.cur = true → s2.me.fails = [] →
      let go := (s2.modSlot s2.cur fun m => { m with pts := max m.pts m.copyPts }).depart s2.cur c ((b.toNat + off.toInt) % 2 ^ 56).toNat
      (s2.me.sp.xstat.getLsbD 2 = false → Sys2Proof.Machine.exec (.migr a off) s = .next go) ∧
      (s.me.sp.xstat.getLsbD 2 = true → Sys2Proof.Machine.exec (.migrCrew a off) s = .next go) ∧
      (s2.me.sp.xstat.getLsbD 2 = true → Sys2Proof.Machine.exec (.migr a off) s =
        .next (s.trapMe 0x0B (BitVec.ofNat 64 (4 * 2 ^ 60 + ((b.toNat + off.toInt) % 2 ^ 56).toNat)))))) ∧
  (∀ (s : State) a off, s.live → s.me.sp.xstat.getLsbD 2 = false →
    Sys2Proof.Machine.exec (.migrCrew a off) s = .next (s.trapMe 1 9)) ∧
  (∀ (s : State) t dest a, ∃ b, (s.depart t dest a).batons = s.batons ++ [b] ∧ ((s.depart t dest a).slot t).st = .reserved ∧
    b.pc = (s.slot t).pc ∧ b.pts = (s.slot t).pts ∧ b.xstat = (s.slot t).sp.xstat ∧ b.unitid = (s.slot t).sp.unitid ∧
    b.carried = (match (s.slot t).span with | .block _ lg lv lk => BitVec.ofBool lk ++ lv ++ lg | _ => 0) ||| (s.slot t).wmask ∧
    (∀ n, n < 32 → b.regs.readG n = if b.carried.getLsbD (n / 2) then (s.slot t).regs.readG n else 0) ∧
    (∀ n, n < 16 → b.regs.readV n = if b.carried.getLsbD (16 + n) then (s.slot t).regs.readV n else 0)) ∧
  (∀ b : Baton, b.size ≤ 4464 ∧ (b.carried = BitVec.allOnes 33 → b.size = 4464) ∧ (b.carried = 0 → b.size = 64)) ∧
  (∀ (s : State) a b x y s1, s.live → readAB a b s = .ok ((x, y), s1) → s1.me.sp.xstat.getLsbD 2 = true → y = 0 →
    Sys2Proof.Machine.exec (.crewj a b) s = .next ((s1.modSlot s1.cur fun m =>
      { m with crewN := 0, sp := { m.sp with xstat := m.sp.xstat &&& ~~~0xFFFF0004 } }).advance (.crewj a b))) ∧
  (∀ (s : State) a b x y s1, s.live → readAB a b s = .ok ((x, y), s1) → s1.me.sp.xstat.getLsbD 2 = false → 2 ≤ y.toNat → y.toNat ≤ 15 →
    let stat (v : Word) : Word := (v &&& ~~~0xFFFF0004) ||| 4 ||| BitVec.ofNat 64 (x.toNat % 65536 * 65536)
    let joined (u : State) : State := u.modSlot u.cur fun m =>
      { m with crewN := y.toNat, sp := { m.sp with xstat := stat m.sp.xstat } }
    (∀ w, s1.me.wait = some w → w.kind = .ready → w.n = 1 →
      Sys2Proof.Machine.exec (.crewj a b) s = .next ((joined s1).advance (.crewj a b))) ∧
    (∀ u, s1.me.wait = none → s1.join s1.cur (coreOf s1.cur) (s1.jobOf s1.cur) (x.toNat % 65536) y.toNat = (u, 1) →
      Sys2Proof.Machine.exec (.crewj a b) s = .next ((joined u).advance (.crewj a b))) ∧
    (∀ u, s1.me.wait = none → s1.join s1.cur (coreOf s1.cur) (s1.jobOf s1.cur) (x.toNat % 65536) y.toNat = (u, 0) →
      Sys2Proof.Machine.exec (.crewj a b) s = .next (u.parkOn (.crewj a b) (.crewJoin (x.toNat % 65536))))) ∧
  (∀ (s : State) t c j id n k, (s.core c).joins.find? (fun q => decide (q.job = j) && decide (q.id = id)) = some k → k.failed = false →
    k.size = n → ((joinEnd k.members t).length = n → (s.join t c j id n).2 = 1) ∧
      ((joinEnd k.members t).length ≠ n → (s.join t c j id n).2 = 0))

/-! ## Copies (R149-R154, R281-R284) -/

/-- GET, PUT, GETT and PUTT (R281-R284): wherever the registers can be read and the checks pass, the copy issues. GET and PUT check the
length, local space, the range of global space and the receiving counter, and put the id into C; GETT and PUTT check the handle,
the columns and the tile, take their stamp, and put the id into ID where that is not g0. The copy takes the number XFERNEXT,
which rises by 1, and the ids that are not done gain it; a copy of 0 bytes is done at once: its id is not among those, and nothing
of it stays in the queue. The GETT or PUTT of a cancelled unit in its cancel handler issues with no stamp (R172).
The model's own readings and choices that it rests on, with their log entries (notes/assumptions): the order of the checks of a copy
(43), the scoreboard entry of a copy whose global side is the issuing core's own window (76). -/
def Obligations.CopiesIssue : Prop :=
  (∀ (s : State) o h s1 l s2 s3 s4 s5 k s6 s7 s8, s.live → readSR 0 o.h s = .ok (h, s1) → readSR 2 o.l s1 = .ok (l, s2) →
    let n := (s2.me.regs.readG o.c.toNat).toNat
    let prio (u : State) : Nat := match o.prio with | some q => q.toNat | none => fieldN u.me.sp.xstat.toNat 6 2
    n ≤ 0x400000 → copyRoom s4 = .ok ((), s5) →
    (checkLocal l.toNat n true s2 = .ok ((), s3) → checkGlobal h.toNat n false s3 = .ok ((), s4) →
      newCopy 0 h.toNat l.toNat n (prio s5) o.rc o.sc s5 = .ok (k, s6) → boardEnter k.id k.hull.1 k.hull.2 true s6 = .ok ((), s7) →
      launchCopy k (s7.modSlot s7.cur fun x => x.putG o.c.toNat (BitVec.ofNat 64 k.id)) = .ok ((), s8) →
      Sys2Proof.Machine.exec (.get o) s = .next (s8.advance (.get o))) ∧
    (checkLocal l.toNat n false s2 = .ok ((), s3) → checkGlobal h.toNat n true s3 = .ok ((), s4) →
      (o.rc = none ∨ 0x80000000000000 ≤ h.toNat) →
      newCopy 1 h.toNat l.toNat n (prio s5) o.rc o.sc s5 = .ok (k, s6) → boardEnter k.id k.hull.1 k.hull.2 (decide (k.window = some k.core)) s6 = .ok ((), s7) →
      launchCopy k (s7.modSlot s7.cur fun x => x.putG o.c.toNat (BitVec.ofNat 64 k.id)) = .ok ((), s8) →
      Sys2Proof.Machine.exec (.put o) s = .next (s8.advance (.put o)))) ∧
  (∀ (s : State) o put h s1 y s2 l s3 s4 T s5 s6 k s7 s8, s.live → readSR 0 o.t.h s = .ok (h, s1) → readSR 1 o.t.c s1 = .ok (y, s2) →
    readSR 2 o.t.l s2 = .ok (l, s3) →
    let hn := h.toNat % 2 ^ 32
    let q := regionOf y o.t.sh
    unstamped (tileCopyChecks o hn l.toNat (tileCopyNeed put) q put) s3 = .ok ((), s4) →
    (if s4.me.refusing then (T, s5) = (0, s4)
      else stampHandle 0 hn hn (tileCopyNeed put) (if put then .writer else .reader) q.ext s4 = .ok (T, s5)) →
    copyRoom s5 = .ok ((), s6) → tileCopyOf o hn l.toNat T q put s6 = .ok (k, s7) →
    launchCopy k (if o.id = 0 then s7 else s7.modSlot s7.cur fun x => x.putG o.id.toNat (BitVec.ofNat 64 k.id)) = .ok ((), s8) →
    Sys2Proof.Machine.exec (if put then .putt o else .gett o) s = .next (s8.advance (if put then .putt o else .gett o))) ∧
  (∀ (s : State) k, s.prompt = false → s.me.refusing = false → k.n ≠ 0 →
    ∃ t, launchCopy k s = .ok ((), t) ∧ t.copies = s.copies ++ [k] ∧
      (t.bank k.core k.bank).xferNext = ((s.bank k.core k.bank).xferNext + 1) % 2 ^ 32 ∧
      (t.bank k.core k.bank).pending = (s.bank k.core k.bank).pending ++ [k.id] ∧ bytesKept s t ∧ slotsKept s t) ∧
  (∀ (s : State) k, s.me.refusing = false → k.n = 0 → k.data = [] →
    ∃ t, launchCopy k s = .ok ((), t) ∧ t.copies = s.copies.filter (fun q => !q.isAt k.core k.bank k.id) ∧
      (t.bank k.core k.bank).xferNext = ((s.bank k.core k.bank).xferNext + 1) % 2 ^ 32 ∧
      (t.bank k.core k.bank).pending = (s.bank k.core k.bank).pending.filter (fun n => decide (n ≠ k.id)) ∧
      bytesKept s t ∧ slotsKept s t) ∧
  (∀ (s : State) kind g l n prio rc sc, ∃ k, newCopy kind g l n prio rc sc s = .ok (k, s) ∧ k.n = n ∧ k.glob = g ∧ k.loc = l ∧ k.prio = prio ∧
    (k.window ≠ some k.core → k.hull = (l, n)) ∧ k.data = [] ∧ k.pts = 0 ∧ k.tid = s.cur ∧ k.job = s.jobOf s.cur ∧ k.p0 = s.me.pts ∧
    k.id = (s.bank (coreOf s.cur) (s.bankNo s.cur)).xferNext)

/-! ## Vector, conversion and mask instructions (R289-R317) -/

/-- The elements of a result: the row of a function of the element index holds its low `w` bits, and under a mask a lane whose bit
is 0 keeps the old value, every element of it (R289, R291). A PERM takes each lane of B from the lane that R223 gives: in segments of
S lanes, lane l = sS + i takes, of rot, lane sS + (i + d) mod S, of bcast, lane sS + d, and of bfly, the lane whose number differs
in bit d. -/
def Obligations.LaneMerge : Prop :=
  (∀ w g e, (w = 8 ∨ w = 16 ∨ w = 32) → e < 2048 / w → elemAt (rowOf w g) w e = g e % 2 ^ w) ∧
  (∀ m new old w e, (w = 8 ∨ w = 16 ∨ w = 32) → e < 2048 / w →
    elemAt (mergeLanes m new old) w e = if m.getLsbD (e * w / 32) then elemAt new w e else elemAt old w e) ∧
  (∀ p x l, l < 64 → permLane p l < 64 → elemAt (permRow p x) 32 l = elemAt x 32 (permLane p l)) ∧
  (∀ (seg : BitVec 3) (d : BitVec 7) l, l < 64 → seg ≠ 7 → d.toNat < (if seg = 0 then 64 else 2 ^ seg.toNat) →
    permLane (.rot seg d) l < 64 ∧ permLane (.bcast seg d) l < 64) ∧
  (∀ (seg : BitVec 3) (d : BitVec 7) g i,
    let S := if seg = 0 then 64 else 2 ^ seg.toNat
    i < S → permLane (.rot seg d) (g * S + i) = g * S + (i + d.toNat) % S ∧ permLane (.bcast seg d) (g * S + i) = g * S + d.toNat) ∧
  (∀ (seg : BitVec 3) (d : BitVec 7) l, l < 64 → d.toNat < 6 → permLane (.bfly seg d) l < 64 ∧
    ∀ n, (permLane (.bfly seg d) l).testBit n = (l.testBit n != decide (n = d.toNat))) ∧
  (∀ (s : State) w n, ∀ x s1, readSrc 2 n s = .ok (x, s1) → (w = 8 ∨ w = 16 ∨ w = 32) →
    ∃ y, readVSrc w (.sc n) s = .ok (y, s1) ∧ ∀ e, e < 2048 / w → elemAt y w e = x.toNat % 2 ^ w)

/-- VADD to VMULQ (R296-R313): wherever B can be read the instruction completes, and D takes the elements of its rule in the lanes
of K. -/
def Obligations.VectorResults : Prop :=
  (∀ i o f s y s1, vecTwo i = some (o, f) → s.live → readVSrc (tyWidth o.ty) o.b s = .ok (y, s1) →
    let x := s.me.regs.readV o.a.toNat
    Sys2Proof.Machine.exec i s = .next ((s1.modSlot s1.cur fun m => m.putV o.d.toNat
      (mergeLanes (m.regs.readK o.k.toNat) (rowOf (tyWidth o.ty) fun e => f s.me e (elemAt x (tyWidth o.ty) e)
        (elemAt y (tyWidth o.ty) e)) (m.regs.readV o.d.toNat))).advance i)) ∧
  (∀ i o f s, vecOne i = some (o, f) → s.live →
    let x := s.me.regs.readV o.a.toNat
    Sys2Proof.Machine.exec i s = .next ((s.modSlot s.cur fun m => m.putV o.d.toNat
      (mergeLanes (m.regs.readK o.k.toNat) (rowOf (tyWidth o.ty) fun e => f s.me e (elemAt x (tyWidth o.ty) e))
        (m.regs.readV o.d.toNat))).advance i)) ∧
  (∀ (s : State) o r sat y s1, s.live → readVSrc (tyWidth o.ty) o.b s = .ok (y, s1) →
    let w := tyWidth o.ty
    let x := s.me.regs.readV o.a.toNat
    Sys2Proof.Machine.exec (.vfma o r sat) s = .next ((s1.modSlot s1.cur fun m => m.putV o.d.toNat
      (mergeLanes (m.regs.readK o.k.toNat) (rowOf w fun e =>
        if tyFloat o.ty then
          ffma (tyFmt o.ty) ((s.me.rnd r).at e) (elemAt x w e) (elemAt y w e) (elemAt (m.regs.readV o.d.toNat) w e)
        else tyOut o.ty sat (tyInt o.ty (elemAt (m.regs.readV o.d.toNat) w e) + tyInt o.ty (elemAt x w e) * tyInt o.ty (elemAt y w e)))
        (m.regs.readV o.d.toNat))).advance (.vfma o r sat))) ∧
  (∀ t x, tyOut t false x = (x % 2 ^ tyWidth t).toNat ∧
    tyOut t true x = (max (tyRange t).1 (min (tyRange t).2 x) % 2 ^ tyWidth t).toNat)

/-- Comparison, selection, movement, reduction, packing, quantisation, dot product (R301-R306, R309, R310, R315, R316) and the mask
instructions (R317): each completes wherever its sources can be read and its scalar destination written, with the value of its rule. -/
def Obligations.VectorAndMaskOthers : Prop :=
  (∀ (s : State) d c a b k ty y s1, s.live → readVSrc 32 b s = .ok (y, s1) →
    Sys2Proof.Machine.exec (.vcmp d c a b k ty) s = .next ((s1.modSlot s1.cur fun m => m.putK d.toNat
      (maskOf fun l => (m.regs.readK k.toNat).getLsbD l &&
        laneCond c ty (elemAt (s.me.regs.readV a.toNat) 32 l) (elemAt y 32 l))).advance (.vcmp d c a b k ty))) ∧
  (∀ (s : State) o km y s1, s.live → readVSrc 32 o.b s = .ok (y, s1) →
    Sys2Proof.Machine.exec (.vsel o km) s = .next ((s1.modSlot s1.cur fun m => m.putV o.d.toNat
      (mergeLanes (m.regs.readK o.k.toNat) (rowOf 32 fun l =>
        if (m.regs.readK km.toNat).getLsbD l then elemAt (s.me.regs.readV o.a.toNat) 32 l else elemAt y 32 l)
        (m.regs.readV o.d.toNat))).advance (.vsel o km))) ∧
  (∀ (s : State) d b k ty y s1, s.live → readVSrc (tyWidth ty) b s = .ok (y, s1) →
    Sys2Proof.Machine.exec (.vmov d b k ty) s = .next ((s1.modSlot s1.cur fun m => m.putV d.toNat
      (mergeLanes (m.regs.readK k.toNat) y (m.regs.readV d.toNat))).advance (.vmov d b k ty))) ∧
  (∀ (s : State) d a n k ty j s1, s.live → readSrc 2 n s = .ok (j, s1) →
    Sys2Proof.Machine.exec (.vbcast d a n k ty) s = .next ((s1.modSlot s1.cur fun m => m.putV d.toNat
      (mergeLanes (m.regs.readK k.toNat) (rowOf (tyWidth ty) fun _ =>
        elemAt (s.me.regs.readV a.toNat) (tyWidth ty) (j.toNat % (2048 / tyWidth ty))) (m.regs.readV d.toNat))).advance
      (.vbcast d a n k ty))) ∧
  (∀ (s : State) d a n ty j s1 s2, s.live → readSrc 2 n s = .ok (j, s1) →
    writeSR d (tyScalar ty (elemAt (s.me.regs.readV a.toNat) (tyWidth ty) (j.toNat % (2048 / tyWidth ty)))) s1 = .ok ((), s2) →
    Sys2Proof.Machine.exec (.vext d a n ty) s = .next (s2.advance (.vext d a n ty))) ∧
  (∀ (s : State) d a n ty x j s1, s.live → readAB a n s = .ok ((x, j), s1) →
    Sys2Proof.Machine.exec (.vins d a n ty) s = .next ((s1.modSlot s1.cur fun m => m.putV d.toNat
      (rowOf (tyWidth ty) fun e => if e = j.toNat % (2048 / tyWidth ty) then x.toNat % 2 ^ tyWidth ty
        else elemAt (m.regs.readV d.toNat) (tyWidth ty) e)).advance (.vins d a n ty))) ∧
  (∀ (s : State) d op a k ty r s1, s.live →
    writeSR d (tyScalar ty (tree (redCombine op ty (s.me.rnd r)) (redIdentity op ty) ((List.range 64).map fun l =>
      if (s.me.regs.readK k.toNat).getLsbD l then elemAt (s.me.regs.readV a.toNat) 32 l else redIdentity op ty))) s = .ok ((), s1) →
    Sys2Proof.Machine.exec (.vred d op a k ty r) s = .next (s1.advance (.vred d op a k ty r))) ∧
  (∀ (s : State) d a b k ty x y s1, s.live → readAB a b s = .ok ((x, y), s1) →
    Sys2Proof.Machine.exec (.vidx d a b k ty) s = .next ((s1.modSlot s1.cur fun m => m.putV d.toNat
      (mergeLanes (m.regs.readK k.toNat) (rowOf (tyWidth ty) fun e => (x.toNat + e * y.toNat) % 2 ^ tyWidth ty)
        (m.regs.readV d.toNat))).advance (.vidx d a b k ty))) ∧
  (∀ (s : State) d a b p k dst src r, s.live →
    let n := 2048 / tyWidth src
    let x := s.me.regs.readV a.toNat
    let y := permRow p (s.me.regs.readV b.toNat)
    Sys2Proof.Machine.exec (.vpack d a b p k dst src r) s = .next ((s.modSlot s.cur fun m => m.putV d.toNat
      (mergeLanes (m.regs.readK k.toNat) (rowOf (tyWidth dst) fun e => convElem dst src ((s.me.rnd r).at e)
        (if e < n then elemAt x (tyWidth src) e else elemAt y (tyWidth src) (e - n))) (m.regs.readV d.toNat))).advance
      (.vpack d a b p k dst src r))) ∧
  (∀ (s : State) o src hi, s.live →
    Sys2Proof.Machine.exec (.vunpk o src hi) s = .next ((s.modSlot s.cur fun m => m.putV o.d.toNat
      (mergeLanes (m.regs.readK o.k.toNat) (rowOf (tyWidth o.ty) fun e => convElem o.ty src rne
        (elemAt (s.me.regs.readV o.a.toNat) (tyWidth src) (e + if hi then 2048 / tyWidth o.ty else 0)))
        (m.regs.readV o.d.toNat))).advance (.vunpk o src hi))) ∧
  (∀ (s : State) d a f r b s1, s.live → quantScale f s = .ok (b, s1) →
    Sys2Proof.Machine.exec (.vquant d a f r) s = .next ((s1.modSlot s1.cur fun m => m.putV d.toNat
      (BitVec.ofNat 2048 (quantImage f (s.me.rnd r) (elems 32 (s.me.regs.readV a.toNat)) b))).advance (.vquant d a f r)) ∧
    Sys2Proof.Machine.exec (.vdeq d a f r) s = .next ((s1.modSlot s1.cur fun m => m.putV d.toNat
      (rowOf 32 fun e => dequantElem f ((s.me.rnd r).at e) (s.me.regs.readV a.toNat) b e)).advance (.vdeq d a f r))) ∧
  (∀ (s : State) d a b k au bu sat y s1, s.live → readVSrc 8 b s = .ok (y, s1) →
    let x := s.me.regs.readV a.toNat
    let int (u : Bool) (r : Row) (n : Nat) : Int := if u then elemAt r 8 n else sintOf 8 (elemAt r 8 n)
    Sys2Proof.Machine.exec (.vdot d a b k au bu sat) s = .next ((s1.modSlot s1.cur fun m => m.putV d.toNat
      (mergeLanes (m.regs.readK k.toNat) (rowOf 32 fun l => tyOut .i32 sat (sintOf 32 (elemAt (m.regs.readV d.toNat) 32 l) +
        ((List.range 4).map fun p => int au x (4 * l + p) * int bu y (4 * l + p)).sum)) (m.regs.readV d.toNat))).advance
      (.vdot d a b k au bu sat))) ∧
  (∀ (s : State) d a b, s.live →
    let x := s.me.regs.readK a.toNat
    let y := s.me.regs.readK b.toNat
    let put (v : Word) : State := s.modSlot s.cur fun m => m.putK d.toNat v
    Sys2Proof.Machine.exec (.kand d a b) s = .next ((put (x &&& y)).advance (.kand d a b)) ∧
    Sys2Proof.Machine.exec (.kor d a b) s = .next ((put (x ||| y)).advance (.kor d a b)) ∧
    Sys2Proof.Machine.exec (.kxor d a b) s = .next ((put (x ^^^ y)).advance (.kxor d a b)) ∧
    Sys2Proof.Machine.exec (.knot d a) s = .next ((put (~~~x)).advance (.knot d a)) ∧
    Sys2Proof.Machine.exec (.kmov (.k d) (.k a)) s = .next ((put x).advance (.kmov (.k d) (.k a)))) ∧
  (∀ (s : State) d a s1, s.live →
    let x := s.me.regs.readK a.toNat
    (writeSR d (BitVec.ofNat 64 ((List.range 64).filter fun j => x.getLsbD j).length) s = .ok ((), s1) →
      Sys2Proof.Machine.exec (.kpop d a) s = .next (s1.advance (.kpop d a))) ∧
    (writeSR d (BitVec.ofNat 64 (((List.range 64).find? fun j => x.getLsbD j).getD 64)) s = .ok ((), s1) →
      Sys2Proof.Machine.exec (.kfirst d a) s = .next (s1.advance (.kfirst d a))) ∧
    (writeSR d x s = .ok ((), s1) → Sys2Proof.Machine.exec (.kmov (.r d) (.k a)) s = .next (s1.advance (.kmov (.r d) (.k a))))) ∧
  (∀ (s : State) (d : BitVec 3) a x s1, s.live → readSrc 1 a s = .ok (x, s1) →
    Sys2Proof.Machine.exec (.kmov (.k d) (.r a)) s =
      .next ((s1.modSlot s1.cur fun m => m.putK d.toNat x).advance (.kmov (.k d) (.r a))))

/-- The frame of the vector and mask instructions: whatever they do next, complete or park, no byte of memory, of a scratchpad or of a
private region changes, no register but D, no special register, and no other slot. -/
def Obligations.VectorFrame : Prop :=
  ∀ i d s t, vectorDest i = some d → Sys2Proof.Machine.exec i s = .next t →
    bytesKept s t ∧ othersKept s t ∧ (t.slot s.cur).sp = s.me.sp ∧
    (∀ n : BitVec 5, (∀ r, d = .r r → r ≠ .g n) → (t.slot s.cur).regs.readG n.toNat = s.me.regs.readG n.toNat) ∧
    (∀ n : BitVec 4, (∀ r, d = .v r → r ≠ n) → (t.slot s.cur).regs.readV n.toNat = s.me.regs.readV n.toNat) ∧
    (∀ n : BitVec 3, (∀ r, d = .k r → r ≠ n) → (t.slot s.cur).regs.readK n.toNat = s.me.regs.readK n.toNat)

/-! ## The matrix engine (R201, R202, R319-R337) -/

/-- MMA, MMAT, MMAG and MMAS (R320, R326-R331): in a local slot 1-15 of a compute core, wherever the registers can be read and the
multiply passes its steps in their order, the instruction completes with PROGIDX at 0; elsewhere it is trap 0x01, SUB 0x08. A K
group adds to each element of the slot the sum of 32 products (R201, R202), for integers the exact one, wrapped; no element
outside M by N changes. The extents become the greater of the old ones and M, N.
The model's own readings and choices that it rests on, with their log entries (notes/assumptions): who holds a slot (44), the order
of the format checks (46), the free value of a DX group (16), PROGIDX (42). -/
def Obligations.MatrixMultiply : Prop :=
  (∀ s : State, s.live → isLocal s.cur = true → slotNo s.cur ≠ 0 →
    (∀ o h s1 c s2 sa sb s3 s4, readSR 0 o.h s = .ok (h, s1) → readSR 1 o.c s1 = .ok (c, s2) → strides o.n s2 = .ok ((sa, sb), s3) →
      multiply o.l.toNat o.sh (padOperand true o.ta o.af h.toNat sa) (padOperand false o.tb o.bf c.toNat sb) false s3 = .ok ((), s4) →
      Sys2Proof.Machine.exec (.mma o) s = .next (s4.advance (.mma o))) ∧
    (∀ o sa sb s4, strides o.n s = .ok ((sa, sb), s) →
      let h := (s.me.regs.readG o.h.toNat).toNat
      let a := match o.af with
        | none => handleOp true o.ta (fieldN h 0 32) (crdOf (s.me.regs.readG o.c.toNat))
        | some f => padOperand true o.ta f (fieldN h 0 27) sa
      let b := match o.bf with
        | none => handleOp false o.tb (fieldN h 32 32) (crdOf (s.me.regs.readG (o.c + 1).toNat))
        | some f => padOperand false o.tb f (fieldN h 32 27) sb
      multiply o.l.toNat o.sh a b false s = .ok ((), s4) →
      Sys2Proof.Machine.exec (.mmat o) s = .next (s4.advance (.mmat o))) ∧
    (∀ o x s1 y s2 s4, keepRow 100 (readV o.vi) s = .ok (x, s1) → keepRow 101 (readV (o.vi + 1)) s1 = .ok (y, s2) →
      let h := (s.me.regs.readG o.h.toNat).toNat
      multiply o.l.toNat o.sh
        { handleOp true false (fieldN h 0 32) (crdOf (s.me.regs.readG o.n.toNat)) with
          idx := some ((elems 32 x ++ elems 32 y).take (edgeOf o.sh.m)) }
        (padOperand false false o.bf (fieldN h 32 32) 0) false s2 = .ok ((), s4) →
      Sys2Proof.Machine.exec (.mmag o) s = .next (s4.advance (.mmag o))) ∧
    (∀ h c l sh s4, let x := (s.me.regs.readG h.toNat).toNat
      multiply l.toNat sh (handleOp true false (fieldN x 0 32) (crdOf (s.me.regs.readG c.toNat)))
        (handleOp false false (fieldN x 32 32) (crdOf (s.me.regs.readG (c + 1).toNat))) true s = .ok ((), s4) →
      Sys2Proof.Machine.exec (.mmas h c l sh) s = .next (s4.advance (.mmas h c l sh)))) ∧
  (∀ (s : State) l sh a b sp fresh s1 a' b' ints s2 s3 s4 Ta Tb s5 s6,
    let mm := edgeOf sh.m
    let nn := edgeOf sh.n
    let G := sh.kg.toNat + 1
    s.me.sp.progidx.toNat < G → openAcc l false s = .ok (fresh, s1) → mmPair mm (32 * G) a b sp s1 = .ok ((a', b', ints), s2) →
    mmKind l fresh ints s2 = .ok ((), s3) → mmPads mm nn (32 * G) a' b' s3 = .ok ((), s4) →
    mmStamps mm nn (32 * G) (needOfA a sp) (needOf b sp false) a' b' s4 = .ok ((Ta, Tb), s5) →
    mmGroups l mm nn G ints a' b' Ta Tb s5 = .ok ((), s6) →
    (s6.slot s6.cur).sp.progidx = 0 ∧
      ∃ t : State, multiply l sh a b sp s = .ok ((), t) ∧ (t.acc l).ext = some (grown (s6.acc l).ext sh.m sh.n)) ∧
  (∀ (s : State) l mm nn ints as bs, mm ≤ 128 → nn ≤ 128 →
    ∃ t : State, mmStep l mm nn ints as bs s = .ok ((), t) ∧ t.mem = s.mem ∧ slotsKept s t ∧
      ∀ i j, i < 128 → j < 128 → (t.acc l).elem i j =
        if i < mm ∧ j < nn then
          groupOut ints ((s.acc l).elem i j) (s.frees + 128 * i + j) (as.getD i ([], none)) (bs.getD j ([], none)) % 2 ^ 32
        else (s.acc l).elem i j) ∧
  (∀ old n (a b : OpRow), groupOut true old n a b =
    ((sintOf 32 old + ((a.1.zip b.1).map fun (e : FV × FV) => e.1.int * e.2.int).sum) % 2 ^ 32).toNat) ∧
  (∀ (s : State) o p q h c l sh, s.live → (isLocal s.cur = false ∨ slotNo s.cur = 0) →
    let t := s.trapMe 1 (BitVec.ofNat 64 (56 * 256 + 8))
    Sys2Proof.Machine.exec (.mma o) s = .next t ∧ Sys2Proof.Machine.exec (.mmat p) s = .next t ∧
    Sys2Proof.Machine.exec (.mmag q) s = .next t ∧ Sys2Proof.Machine.exec (.mmas h c l sh) s = .next t)

/-- AZERO, AREL, ACLAIM, AEPI, ASAVE and ALOAD (R320, R321, R332-R337), in a local slot 1-15 of a compute core. AZERO opens a FREE
slot for which nobody waits, or takes the unit's own, and clears it; AREL frees the unit's own; ACLAIM takes back the unit's
PARKED one; a slot that the unit does not hold is refused. AEPI applies row scale, column scale, bias and activation to each
element, and leaves the slot OWNED, or FREE with REL; a NaN that nothing is done to keeps its sign and the top of its payload. An
image that ASAVE writes is one that ALOAD of the same unit reads back,
kind, extents and every element.
The model's own readings and choices that it rests on, with their log entries (notes/assumptions): who holds a slot and who waits
(44), NaN bounds and reserved bits (45), the pages of an image (47). -/
def Obligations.AccumulatorSlots : Prop :=
  (∀ (s : State) l i32, s.live → isLocal s.cur = true → slotNo s.cur ≠ 0 → s.me.wait = none →
    (((s.acc l.toNat).st = .free ∧ (s.acc l.toNat).waiters = []) ∨ (s.mineAcc l.toNat = true ∧ (s.acc l.toNat).st = .owned)) →
    ∃ t : State, Sys2Proof.Machine.exec (.azero l i32) s = .next (t.advance (.azero l i32)) ∧ (t.acc l.toNat).st = .owned ∧
      t.mineAcc l.toNat = true ∧ (t.acc l.toNat).isInt = i32 ∧ (t.acc l.toNat).data = [] ∧ (t.acc l.toNat).ext = none ∧
      (t.acc l.toNat).poison = false ∧ bytesKept s t ∧ slotsKept s t) ∧
  (∀ (s : State) l, s.live → isLocal s.cur = true → slotNo s.cur ≠ 0 →
    (s.mineAcc l.toNat = true → (s.acc l.toNat).st = .owned →
      Sys2Proof.Machine.exec (.arel l) s = .next ((s.modCluster (clusterOf (coreOf s.cur)) fun k =>
        { k with acc := k.acc.set Acc.dflt l.toNat (freeAcc (s.acc l.toNat)) }).advance (.arel l))) ∧
    (s.mineAcc l.toNat = true → (s.acc l.toNat).st = .parked →
      Sys2Proof.Machine.exec (.aclaim l) s = .next ((s.modCluster (clusterOf (coreOf s.cur)) fun k =>
        { k with acc := k.acc.set Acc.dflt l.toNat { s.acc l.toNat with st := .owned } }).advance (.aclaim l))) ∧
    (s.mineAcc l.toNat = false → (s.acc l.toNat).st ≠ .parked →
      Sys2Proof.Machine.exec (.arel l) s = .next (s.trapMe 1 (BitVec.ofNat 64 (32 * 256 + 8))) ∧
      Sys2Proof.Machine.exec (.aclaim l) s = .next (s.trapMe 1 (BitVec.ofNat 64 (32 * 256 + 8))))) ∧
  (∀ (s : State) o h s1 a s2 em en s3, s.live → isLocal s.cur = true → slotNo s.cur ≠ 0 → readSR 0 o.h s = .ok (h, s1) →
    ownAcc o.l.toNat false s1 = .ok (a, s2) → (match o.xs with | some e => some e | none => a.ext) = some (em, en) →
    epiGuard o.l.toNat (if o.c = 0 then aepiPad o o.l.toNat h.toNat (edgeOf em) (edgeOf en) (s2.me.rnd o.rm)
      else aepiHandle o o.l.toNat (h.toNat % 2 ^ 32) (edgeOf em) (edgeOf en) (s2.me.rnd o.rm)) s2 = .ok ((), s3) →
    ∃ t : State, Sys2Proof.Machine.exec (.aepi o) s = .next (t.advance (.aepi o)) ∧ t.mem = s3.mem ∧ slotsKept s3 t ∧
      t.acc o.l.toNat = if o.rel then freeAcc (s3.acc o.l.toNat) else { s3.acc o.l.toNat with st := .owned, fault := false }) ∧
  (∀ (a : Acc) (d : EpiDesc) act rdn i j, d.use = 7 →
    let c : FV := if a.isInt then FV.ofInt (sintOf 32 (a.elem i j)) else fp32.value (a.elem i j)
    epiValue a d act rdn i j =
      activate d act (((c.mul (f32At d.rs i)).mul (f32At d.cs j)).add rdn (f32At d.bs j))) ∧
  (∀ (a : Acc) (d : EpiDesc) f g k i j, d.use = 0 → a.isInt = false → tagFloat f = some g → fp32.isNan (a.elem i j) = true →
    epiCode f k a d .none i j = fromFp32 g k (a.elem i j)) ∧
  (∀ (s : State) h l hv s1 a s2 s3 s4, s.live → isLocal s.cur = true → slotNo s.cur ≠ 0 → readSR 0 h s = .ok (hv, s1) →
    ownAcc l.toNat true s1 = .ok (a, s2) → (a.st = .parked → a.job = s2.jobOf s2.cur) → hv.toNat % 256 = 0 → a.st ≠ .epilogue →
    checkImage hv true s2 = .ok ((), s3) → (s3.acc l.toNat).poison = false → saveLines hv a s3 = .ok ((), s4) →
    Sys2Proof.Machine.exec (.asave h l) s = .next ((if a.st = .parked then s4.modCluster (clusterOf (coreOf s4.cur)) fun k =>
      { k with acc := k.acc.set Acc.dflt l.toNat (freeAcc (s4.acc l.toNat)) } else s4).advance (.asave h l))) ∧
  (∀ (s : State) h l hv s1 b s2 s3 s4 w q, s.live → isLocal s.cur = true → slotNo s.cur ≠ 0 → readSR 0 h s = .ok (hv, s1) →
    openAcc l.toNat true s1 = .ok (b, s2) → hv.toNat % 256 = 0 → checkImage hv false s2 = .ok ((), s3) →
    loadLines hv s3 = .ok ((), s4) → s4.me.wait = some w →
    accOfImage s4.me (s4.jobOf s4.cur) (fun n => w.data.get 0 (2 ^ 30 + n)) = some q →
    ∃ t : State, Sys2Proof.Machine.exec (.aload h l) s = .next (t.advance (.aload h l)) ∧ t.mem = s4.mem ∧ slotsKept s4 t ∧
      t.acc l.toNat = { q with waiters := (s4.acc l.toNat).waiters }) ∧
  (∀ (a : Acc) (x : Slot) j, a.unitid = x.sp.unitid → a.launchid = x.sp.launchid →
    ∃ q, accOfImage x j a.line = some q ∧ q.st = .owned ∧ q.unitid = a.unitid ∧ q.launchid = a.launchid ∧ q.job = j ∧
      q.isInt = a.isInt ∧ q.ext = a.ext ∧ ∀ i k, i < 128 → k < 128 → q.elem i k = a.elem i k) ∧
  (∀ s : State, s.live → (isLocal s.cur = false ∨ slotNo s.cur = 0) → ∀ i,
    ((∃ l z, i = .azero l z) ∨ (∃ l, i = .arel l) ∨ (∃ l, i = .aclaim l) ∨ (∃ o, i = .aepi o) ∨ (∃ h l, i = .asave h l) ∨
      ∃ h l, i = .aload h l) →
    Sys2Proof.Machine.exec i s = .next (s.trapMe 1 (BitVec.ofNat 64 (56 * 256 + 8))))

/-! ## Tensors (R44, R53-R72, R142-R148, R343-R353) -/

/-- Handles (R44, R64, R69, R143). A stale handle is trap 0x08 with the handle, a lacking capability trap 0x07 with the lowest lacking
bit; an operation takes the stamp max(PTS, HLAST + 1), which becomes HLAST and the PTS, and is queued behind the others. A publish
puts all units of a shadow in place at once and leaves every other unit, and every operation with a lower stamp sees the codes
of before. An operation stamped while the tensor is being converted is parked where R67 says so, and its segments are those of the
representation that it will use.
The model's own readings and choices that it rests on, with their log entries (notes/assumptions): segments (14). -/
def Obligations.HandleOperations : Prop :=
  (∀ (s : State) h need, let t? := s.liveTensor (s.jobOf s.cur) h
    (t? = none → checkHandle h need s = .error (.trap 8 (BitVec.ofNat 64 h))) ∧
    (∀ t, t? = some t →
      ((∀ b, b < 32 → need.testBit b = true → t.caps.testBit b = true) → checkHandle h need s = .ok (t, s)) ∧
      (∀ b, b < 32 → need.testBit b = true → t.caps.testBit b = false →
        (∀ c, c < b → need.testBit c = true → t.caps.testBit c = true) →
        checkHandle h need s = .error (.trap 7 (BitVec.ofNat 64 (b * 2 ^ 32 + h)))))) ∧
  (∀ (s : State) k h hH need kind exts t x, s.me.wait = none → (s.prompt = true ∨ s.grant = some .stamp) → s.routedIn (atCore s.cur) = true →
    s.job (s.jobOf s.cur) = some x → s.liveTensor (s.jobOf s.cur) h = some t →
    (∀ b, b < 32 → need.testBit b = true → t.caps.testBit b = true) →
    (kind ≠ .writer ∨ (t.newSegs kind need (exts t)).length ≤ s.poolSegs (s.jobOf s.cur)) →
    let T := max s.me.pts (t.hlast + 1)
    ∃ u : State, stampHandle k h hH need kind exts s = .ok (T, u) ∧ (u.slot s.cur).pts = T ∧
      (u.tensor (s.jobOf s.cur) (h / 65536)).hlast = T ∧
      (∃ o, (u.tensor (s.jobOf s.cur) (h / 65536)).ops = t.ops ++ [o] ∧ o.stamp = T ∧ o.tid = s.cur ∧ o.kind = kind ∧
        o.exts = exts t ∧ o.segs = t.newSegs kind need (exts t) ∧ o.parked = t.parksNew kind need) ∧
      (∀ i, i ≠ h / 65536 → u.tensor (s.jobOf s.cur) i = s.tensor (s.jobOf s.cur) i) ∧ bytesKept s u ∧ slotsKept s u) ∧
  (∀ (s : State) j i T tm es x, s.job j = some x → (es.map Prod.fst).Pairwise (· < ·) → (s.tensor j i).plain = false →
    ((s.tensor j i).form = 3 → 0 < (s.tensor j i).upr) →
    let t := s.tensor j i
    let u := (s.publishAt j i T tm es).1
    (s.publishAt j i T tm es).2 = tm ∧ u.mem = s.mem ∧ (u.tensor j i).opAt T = none ∧
    (∀ e ∈ es, u.codeNow j (u.tensor j i) e.1 = e.2) ∧
    (∀ k, k ∉ es.map Prod.fst → u.codeNow j (u.tensor j i) k = s.codeNow j t k) ∧
    (∀ o k, o ∈ t.ops → o.stamp < T → (∀ e ∈ t.log, e.1 ≤ T) →
      u.codeAt j (u.tensor j i) o.stamp k = s.codeAt j t o.stamp k))

/-- TALLOC, TFREE, TWIDEN and TINFO (R53, R60-R62, R70, R344-R347). A TALLOC whose descriptor fails a check of R60 returns the null
handle and the status of the check, and changes no table; one that passes takes an entry and returns its handle; its descriptor is read once. TFREE retires
the entry at its stamp and advances its generation. TWIDEN of nothing is NOCHANGE; of a bad mask, the status of the check; where no memory is left it is
NOMEM, with no stamp and no change; else its bits are in CAPS from its stamp on. TINFO
reads a word of the entry as it stands at its stamp; words 4 to 7 are read in service mode only.
The model's own readings and choices that it rests on, with their log entries (notes/assumptions): the choices of the manager (3),
the statuses of TWIDEN (59), the last generation (61), service mode (63). -/
def Obligations.TensorTable : Prop :=
  (∀ (s : State) h c l st x s1 s2, s.live → tensorSlot s = .ok ((), s) → s.me.wait = none →
    let a := (s.me.regs.readG c.toNat).toNat
    let init : Option Word := if l = 0 then none else some (s.me.regs.readG l.toNat)
    checkLocal a 64 false s = .ok ((), s) → a % 8 = 0 → loadLocal a 64 s = .ok (x, s1) → s1.me.regs = s.me.regs →
    descReserved x = false →
    let put (u : State) (r : BitVec 5) (v : Nat) : State := u.modSlot u.cur fun k => k.putG r.toNat (BitVec.ofNat 64 v)
    (∀ n s3, allocStatus s1.cur (allocDesc x) init = n → n ≠ 0 → keepAlloc x s1 = .ok ((), s2) → await .stamp s2 = .ok ((), s3) →
      Sys2Proof.Machine.exec (.talloc h c l st) s =
        .next ((if st = 0 then put s3 h 0 else put (put s3 h 0) st n).advance (.talloc h c l st))) ∧
    (∀ f s3 s4 hd n s5 s6, tagOf (allocDesc x).fmt = some f → allocStatus s1.cur (allocDesc x) init = 0 →
      (match init with
        | none => pure ()
        | some y => boardEnter boardOp y.toNat (dataBytes f (allocDesc x).rows (allocDesc x).cols (allocDesc x).pages) false : M Unit) s1
        = .ok ((), s2) → keepAlloc x s2 = .ok ((), s3) → await .stamp s3 = .ok ((), s4) →
      allocate (allocDesc x) f init s4 = .ok ((hd, n), s5) → boardDone s5 = .ok ((), s6) →
      Sys2Proof.Machine.exec (.talloc h c l st) s =
        .next ((if st = 0 then put s6 h hd else put (put s6 h hd) st n).advance (.talloc h c l st)))) ∧
  (∀ (s : State) a x w, s.me.wait = some w → w.data.get 0 1 = x + 1 → allocKept a s = .ok (x, s)) ∧
  (∀ (s : State) j pts d f data k x i h, s.job j = some x → freeEntry x.tensors k.at_ = some i → k.full = 0 →
    d.caps.testBit 17 = false →
    let old := s.tensor j i
    s.placePick j (newEntry old f d 0 0) k.cls k.base = some h →
    let T := max pts (old.hlast + 1)
    let u := (s.allocTensor j pts d f data k).1
    (s.allocTensor j pts d f data k).2 = (i * 65536 + (old.gen + 1), 0, T) ∧
      old.st = 0 ∧ old.gen < 0xFFFF ∧ (u.tensor j i).gen = old.gen + 1 ∧ (u.tensor j i).st = 1 ∧ (u.tensor j i).fmt = some f ∧
      (u.tensor j i).caps = d.caps ∧ (u.tensor j i).hlast = T ∧ (u.tensor j i).frames = h.frames ∧
      (u.tensor j i).cls = h.cls ∧ (u.tensor j i).segmap = h.map ∧ (u.tensor j i).ops = [] ∧
      (∀ k, k ≠ i → u.tensor j k = s.tensor j k) ∧
      (∀ k, u.codeNow j (u.tensor j i) k =
        if k < dataBytes f d.rows d.cols d.pages * 8 / unitBits f then fieldN data (k * unitBits f) (unitBits f) else 0)) ∧
  (∀ (s : State) j pts d f data k, (s.job j = none ∨ ∃ x, s.job j = some x ∧ freeEntry x.tensors k.at_ = none) →
    s.allocTensor j pts d f data k = (s, 0, 6, pts)) ∧
  (∀ (s : State) j pts d f data k x i, s.job j = some x → freeEntry x.tensors k.at_ = some i → k.full ≠ 0 →
    s.allocTensor j pts d f data k = (s, 0, 7, pts)) ∧
  (∀ (s : State) h x s1 t T s2, s.live → tensorSlot s = .ok ((), s) → readSR 0 h s = .ok (x, s1) → s1.me.wait = none →
    let n := x.toNat % 2 ^ 32
    s1.liveTensor (s1.jobOf s1.cur) n = some t → s1.me.refusing = false →
    stampHandle 0 n n 0 .free Tensor.allExt s1 = .ok (T, s2) →
    let u := s2.modTensor (s2.jobOf s2.cur) (n / 65536) fun t => { t with st := 3, gen := min 0xFFFF (t.gen + 1) }
    Sys2Proof.Machine.exec (.tfree h) s = .next ((u.settleIf (u.jobOf u.cur) (n / 65536)).advance (.tfree h))) ∧
  (∀ (s : State) h c st wait x s1 y s2 t, s.live → tensorSlot s = .ok ((), s) → readSR 0 h s = .ok (x, s1) → readSR 1 c s1 = .ok (y, s2) →
    s2.me.wait = none →
    let n := x.toNat % 2 ^ 32
    let m := y.toNat % 2 ^ 32
    let i : Instr := .twiden h c st wait
    let put (u : State) (v : Nat) : State := if st = 0 then u else u.modSlot u.cur fun k => k.putG st.toNat (BitVec.ofNat 64 v)
    s2.liveTensor (s2.jobOf s2.cur) n = some t → s2.me.refusing = false →
    (m = 0 → Sys2Proof.Machine.exec i s = .next ((put s2 1).advance i)) ∧
    (∀ s3, m ≠ 0 → await .stamp s2 = .ok ((), s3) → s3.routedIn (atCore s3.cur) = true →
      (2 ^ 18 ≤ m → Sys2Proof.Machine.exec i s = .next ((put s3 2).advance i)) ∧
      (m < 2 ^ 18 → (m.testBit 17 = true ∨ combineOk t.tag (t.caps ||| m) = false) →
        Sys2Proof.Machine.exec i s = .next ((put s3 5).advance i)) ∧
      (m < 2 ^ 18 → m.testBit 17 = false → combineOk t.tag (t.caps ||| m) = true →
        (∀ v s4, stampWiden n m s3 = .ok ((v, none), s4) → Sys2Proof.Machine.exec i s = .next ((put s4 v).advance i)) ∧
        (∀ v T s4 w s5, stampWiden n m s3 = .ok ((v, some T), s4) → widenRun n T wait s4 = .ok (w, s5) →
          Sys2Proof.Machine.exec i s = .next ((put s5 w).advance i))))) ∧
  (∀ (s : State) n m v t, stampWiden n m s = .ok ((v, none), t) →
    v = 7 ∧ (t.slot s.cur).pts = s.me.pts ∧ ∀ j i, t.tensor j i = s.tensor j i) ∧
  (∀ (s : State) n m v T t x, let j := s.jobOf s.cur
    s.job j = some x → stampWiden n m s = .ok ((v, some T), t) →
    v = 0 ∧ T = max s.me.pts ((s.tensor j (n / 65536)).hlast + 1) ∧ (t.tensor j (n / 65536)).hlast = T ∧
      (t.slot s.cur).pts = T ∧
      (∀ b, ((s.tensor j (n / 65536)).caps ||| m).testBit b = true → (t.tensor j (n / 65536)).caps.testBit b = true) ∧
      ((∀ o ∈ (s.tensor j (n / 65536)).ops, o.kind ≠ .widen) →
        (t.tensor j (n / 65536)).caps = (s.tensor j (n / 65536)).caps ||| m)) ∧
  (∀ (t : Tensor) T add h, (t.startRerep T add h).caps = t.caps ||| add ∧ (t.st = 1 → (t.startRerep T add h).st = 2) ∧
    (t.startRerep T add h).rerep = some { tc := T, add := add, home := h, ready := false } ∧
    (t.startRerep T add h).cells = t.cells ∧ (t.startRerep T add h).log = t.log) ∧
  (∀ (s : State) h l w x s1 t T s2 v s3 s4 s5 s6, s.live →
    (isService s.cur = true ∨ (tensorSlot s = .ok ((), s) ∧ w.toNat < 4)) → readSR 0 h s = .ok (x, s1) →
    let n := x.toNat % 2 ^ 32
    s1.liveTensor (s1.jobOf s1.cur) n = some t → s1.me.refusing = false →
    stampHandle 0 n n 0 .reader (fun _ => []) s1 = .ok (T, s2) → keptWord n w.toNat s2 = .ok (v, s3) → opTurn n T s3 = .ok ((), s4) →
    retireOp n T s4 = .ok ((), s5) → writeSR l v s5 = .ok ((), s6) →
    Sys2Proof.Machine.exec (.tinfo h l w) s = .next (s6.advance (.tinfo h l w))) ∧
  (∀ (s : State) n w k, s.me.wait = some k → k.data.get 0 2 = 0 →
    ∃ t, keptWord n w s = .ok ((s.tensor (s.jobOf s.cur) (n / 65536)).word w, t) ∧ bytesKept s t ∧ slotsKept s t) ∧
  (∀ (s : State) h l w, s.live → isService s.cur = false → tensorSlot s = .ok ((), s) → 4 ≤ w.toNat →
    Sys2Proof.Machine.exec (.tinfo h l w) s = .next (s.trapMe 1 8)) ∧
  (∀ (t : Tensor) f, t.fmt = some f →
    t.word 0 = BitVec.ofNat 64 (t.gen * 2 ^ 48 + tagCode f * 2 ^ 40 + t.scl * 2 ^ 37 + t.st * 2 ^ 35 + t.caps) ∧
    t.word 1 = BitVec.ofNat 64 (t.rowsM1 * 2 ^ 40 + t.colsM1 * 2 ^ 16 + t.pagesM1) ∧ t.word 2 = BitVec.ofNat 64 t.scaleBase ∧
    t.word 3 = BitVec.ofNat 64 t.aliasAt ∧ t.word 4 = BitVec.ofNat 64 t.hlast ∧ t.word 5 = BitVec.ofNat 64 t.pendw ∧
    t.word 6 = BitVec.ofNat 64 (t.cls * 2 ^ 60 + t.layout) ∧ t.word 7 = BitVec.ofNat 64 t.segmap)

/-- Tiles to and from local space (R270, R343, R348, R349, R352): TLD, TLDT, TST, TST.add, TCOPY, VGATH.t and VSCAT.t complete
wherever their registers can be read, their checks pass, their stamps are given, and their steps run. TLD writes the stored
codes of the tile as they stand at its stamp, row by row at the pitch, +0 outside the geometry; TLDT the transpose; the shadow of a
TST holds the codes of the rows in local space. Tensor instructions are of slots 1-15 of compute cores and of near cores.
The model's own readings and choices that it rests on, with their log entries (notes/assumptions): PROGIDX (42), slot 0 of near
cores (52), segments (14). -/
def Obligations.TileTransfers : Prop :=
  (∀ (s : State) o h q l s1 s2 T s3 t, s.live → tileRegs o s = .ok ((h, q, l), s1) →
    (unstamped (tldChecks o h l q) s1 = .ok ((), s2) → stampHandle 0 h h 1 .reader q.ext s2 = .ok (T, s3) →
      ran [opTurn h T, engineStep 0 (tldRows o h l T q), retireOp h T, boardDone, engineDone] s3 t →
      Sys2Proof.Machine.exec (.tld o) s = .next (t.advance (.tld o))) ∧
    (unstamped (tldtChecks o h l q) s1 = .ok ((), s2) → stampHandle 0 h h 2 .reader q.ext s2 = .ok (T, s3) →
      ran [opTurn h T, engineStep 0 (tldtRows o h l T q), retireOp h T, boardDone, engineDone] s3 t →
      Sys2Proof.Machine.exec (.tldt o) s = .next (t.advance (.tldt o))) ∧
    (unstamped (storeTileChecks o h l q 4 fun _ => true) s1 = .ok ((), s2) → stampHandle 0 h h 4 .writer q.ext s2 = .ok (T, s3) →
      ran [opTurn h T, engineStep 0 (tstRows o h l q >>= fun _ => boardDone), publishMine h T >>= fun _ => pure ()] s3 t →
      Sys2Proof.Machine.exec (.tst o) s = .next (t.advance (.tst o))) ∧
    (unstamped (storeTileChecks o h l q 1024 addFormat) s1 = .ok ((), s2) →
      stampHandle 0 h h 1024 .adder q.ext s2 = .ok (T, s3) →
      ran [opTurn h T, engineStep 0 (tstAddRows o h l T q >>= fun _ => boardDone), tstAddLines h T, retireOp h T,
        modMe fun x => { x with copyPts := max x.copyPts x.pts }] s3 t →
      Sys2Proof.Machine.exec (.tstAdd o) s = .next (t.advance (.tstAdd o)))) ∧
  (∀ (s : State) h c l sh tr rm x s1 s2 s3 Ts s4 Td s5 s6 t, s.live → tensorSlot s = .ok ((), s) → readSR 0 h s = .ok (x, s1) →
    let hd := x.toNat % 2 ^ 32
    let hs := (s1.me.regs.readG l.toNat).toNat % 2 ^ 32
    let d := regionOf (s1.me.regs.readG c.toNat) sh
    let q := copySource (s1.me.regs.readG (c + 1).toNat) sh tr
    checkProg (d.nr / 8) s1 = .ok ((), s2) → unstamped (tcopyChecks hd hs (if tr then 2 else 1) tr sh.view d q) s2 = .ok ((), s3) →
    stampHandle 0 hs hd (if tr then 2 else 1) .reader q.ext s3 = .ok (Ts, s4) →
    stampHandle 1 hd hd 4 .writer d.ext s4 = .ok (Td, s5) → ran [opTurn hs Ts, opTurn hd Td] s5 s6 →
    ran [writerSteps (d.nr / 8) (copyStep hd hs Ts (s6.me.rnd rm) tr d q), retireOp hs Ts, publishMine hd Td >>= fun _ => pure ()] s6 t →
    Sys2Proof.Machine.exec (.tcopy h c l sh tr rm) s = .next (t.advance (.tcopy h c l sh tr rm))) ∧
  (∀ (s : State) o h crd y s1 s2 T s3 t, s.live → gatherRegs o s = .ok ((h, crd, y), s1) →
    let ls := lanesOn (s1.me.regs.readK o.k.toNat)
    gatherChecks h 1 s1 = .ok ((), s2) → stampHandle 0 h h 1 .reader (laneExt crd y ls) s2 = .ok (T, s3) →
    ran [opTurn h T, laneSteps ls (gatherLane o.v h T crd y), retireOp h T] s3 t →
    Sys2Proof.Machine.exec (.vgathT o) s = .next (t.advance (.vgathT o))) ∧
  (∀ (s : State) o h crd y s1 v s2 s3 T s4 t, s.live → gatherRegs o s = .ok ((h, crd, y), s1) → keepRow 101 (readV o.v) s1 = .ok (v, s2) →
    let ls := lanesOn (s2.me.regs.readK o.k.toNat)
    gatherChecks h 4 s2 = .ok ((), s3) → stampHandle 0 h h 4 .writer (laneExt crd y ls) s3 = .ok (T, s4) →
    ran [opTurn h T, laneSteps ls (scatterLane h crd y v), publishMine h T >>= fun _ => pure ()] s4 t →
    Sys2Proof.Machine.exec (.vscatT o) s = .next (t.advance (.vscatT o))) ∧
  (∀ (s : State) o h l T q t, isLocal s.cur = true →
    let j := s.jobOf s.cur
    let e := s.tensor j (h / 65536)
    let c := coreOf s.cur
    let put (rb : Nat) (n : Nat) (row : Nat → List Nat) : Memory := (List.range n).foldl (fun p i =>
      (s.core c).writeSpad p (l + i * pitchOf o.sh.view rb) rb (packNat (unitBits e.tag) (row i))) (s.core c).spad
    (tldRows o h l T q s = .ok ((), t) → t.mem = s.mem ∧ slotsKept s t ∧
      (t.core c).spad = put (rowBytes8 e.tag q.nc) q.nr fun i => s.rowCodes j e T q.p (q.r + i) q.c q.nc) ∧
    (tldtRows o h l T q s = .ok ((), t) → elementTag e.tag = true → t.mem = s.mem ∧ slotsKept s t ∧
      (t.core c).spad = put (rowBytes8 e.tag q.nr) q.nc fun i =>
        (List.range q.nr).map fun r => s.unitAt j e T q.p (q.r + r) (q.c + i)) ∧
    (tstRows o h l q s = .ok ((), t) → 0 < q.nr → e.cols % unitCols e.tag = 0 → q.c % unitCols e.tag = 0 → bytesKept s t ∧ slotsKept s t ∧
      ∃ w, t.me.wait = some w ∧ ∀ i u, i < q.nr → u < q.nc / unitCols e.tag → e.inside q.p (q.r + i) (q.c + u * unitCols e.tag) = true →
        t.shadowed j w.data e T (e.key q.p (q.r + i) ((q.c + u * unitCols e.tag) / unitCols e.tag)) =
          fieldN ((s.core c).read (l + i * pitchOf o.sh.view (rowBytes8 e.tag q.nc)) (rowBytes8 e.tag q.nc))
            (u * unitBits e.tag) (unitBits e.tag))) ∧
  (∀ (s : State) o op rm h c l sh y n m g wt st w tr, s.live → (isFar s.cur = true ∨ (isNear (coreOf s.cur) = false ∧ slotNo s.cur = 0)) →
    ∀ i, i ∈ [.tld o, .tldt o, .tst o, .tstAdd o, .tredRow o op rm, .tredCol o op rm, .tscale h c l sh rm, .tew h c y sh rm,
        .tcopy h m l sh tr rm, .talloc g m l st, .tfree h, .twiden h c st wt, .tinfo h n w] →
      Sys2Proof.Machine.exec i s = .next (s.trapMe 1 (BitVec.ofNat 64 (56 * 256 + 8))))

/-- TRED, TSCALE and TEW (R350, R351, R353) complete wherever their registers can be read, their checks pass, their stamps are given
and their steps run. A TRED over integers gives the wrapped sum, the greatest, the least or the greatest magnitude of the elements
of each row or column that lie inside the geometry; TSCALE and TEW write for each element of a tile that
lies inside the geometry the code of their operation on its code and the second operand (ewCode).
The model's own readings and choices that it rests on, with their log entries (notes/assumptions): PROGIDX (42), the column rule of
TRED (53), an MXFP4 element beyond FP32 (81). -/
def Obligations.TileArithmetic : Prop :=
  (∀ (s : State) o op rm h q l s1 s2 s3 T s4 s5 s6 t, s.live → tileRegs o s = .ok ((h, q, l), s1) →
    (∀ k0, checkProg (q.nr / 8) s1 = .ok ((), s2) → unstamped (tredChecks h l q o.sh.view 8 q.nr) s2 = .ok ((), s3) →
      stampHandle 0 h h 8 .reader q.ext s3 = .ok (T, s4) → opTurn h T s4 = .ok ((), s5) → tredFirst s5 = .ok (k0, s6) →
      ran [tredRowRun h l T k0 q op (s5.me.rnd rm), retireOp h T, engineDone] s6 t →
      Sys2Proof.Machine.exec (.tredRow o op rm) s = .next (t.advance (.tredRow o op rm))) ∧
    (unstamped (tredChecks h l q o.sh.view 16 q.nc) s1 = .ok ((), s2) → stampHandle 0 h h 16 .reader q.ext s2 = .ok (T, s3) →
      opTurn h T s3 = .ok ((), s4) →
      ran [engineStep 0 (longTrap (setProg 0) (tredColStep h T q op (s4.me.rnd rm))), tredWrite l 0 q.nc, retireOp h T, engineDone] s4 t →
      Sys2Proof.Machine.exec (.tredCol o op rm) s = .next (t.advance (.tredCol o op rm)))) ∧
  (∀ (s : State) h c l sh rm x s1 y s2 s3 s4 T s5 s6 t, s.live → tensorSlot s = .ok ((), s) → readSR 0 h s = .ok (x, s1) →
    readSR 1 c s1 = .ok (y, s2) →
    let n := x.toNat % 2 ^ 32
    let q := regionOf y sh
    let z := (s2.me.regs.readG l.toNat).toNat % 2 ^ 32
    checkProg (q.nr / 8) s2 = .ok ((), s3) → unstamped (tscaleChecks n sh.view q) s3 = .ok ((), s4) →
    stampHandle 0 n n 32 .writer q.ext s4 = .ok (T, s5) → opTurn n T s5 = .ok ((), s6) →
    ran [tscaleRun n T z q (s6.me.rnd rm), publishMine n T >>= fun _ => pure ()] s6 t →
    Sys2Proof.Machine.exec (.tscale h c l sh rm) s = .next (t.advance (.tscale h c l sh rm))) ∧
  (∀ (s : State) h c a sh rm x s1 y s2 g tile sc s3 s4 s5 T s6 s7 t, s.live → tensorSlot s = .ok ((), s) → readSR 0 h s = .ok (x, s1) →
    readSR 1 c s1 = .ok (y, s2) → tewParts (s2.me.rnd rm).isRdn a s2 = .ok ((g, tile, sc), s3) →
    let n := x.toNat % 2 ^ 32
    let q := regionOf y sh
    checkProg (q.nr / 8) s3 = .ok ((), s4) → unstamped (tewChecks n tile sh.view q) s4 = .ok ((), s5) →
    stampHandle 0 n n 64 .writer q.ext s5 = .ok (T, s6) → opTurn n T s6 = .ok ((), s7) →
    ran [tewRun n T g tile (pitchOf sh.view (4 * q.nc)) sc q (s2.me.rnd rm), publishMine n T >>= fun _ => pure ()] s7 t →
    Sys2Proof.Machine.exec (.tew h c a sh rm) s = .next (t.advance (.tew h c a sh rm))) ∧
  (∀ (s : State) h T q op rnd t, let e := s.tensor (s.jobOf s.cur) (h / 65536)
    e.ints = true → 0 < q.nc → tredColStep h T q op rnd s = .ok ((), t) → bytesKept s t ∧ slotsKept s t ∧
      ∃ w, t.me.wait = some w ∧ ∀ j, j < q.nc → w.data.get 0 j =
        tredInt op ((((List.range q.nr).map fun i => (q.r + i, q.c + j)).filter fun (x : Nat × Nat) => e.inside q.p x.1 x.2).map
          fun (x : Nat × Nat) => sintOf ((tagInt e.tag).getD 32) (s.unitAt (s.jobOf s.cur) e T q.p x.1 x.2))) ∧
  (∀ xs : List Int, tredInt .add xs = (xs.sum % 2 ^ 32).toNat) ∧
  (∀ xs : List Int, xs ≠ [] → (∀ x ∈ xs, -2 ^ 31 ≤ x ∧ x < 2 ^ 31) →
    (∀ x ∈ xs, x ≤ sintOf 32 (tredInt .max xs) ∧ sintOf 32 (tredInt .min xs) ≤ x ∧ x.natAbs ≤ tredInt .amax xs) ∧
    sintOf 32 (tredInt .max xs) ∈ xs ∧ sintOf 32 (tredInt .min xs) ∈ xs ∧ ∃ x ∈ xs, x.natAbs = tredInt .amax xs) ∧
  (∀ (s : State) h T rnd g q k ys t f, let e := s.tensor (s.jobOf s.cur) (h / 65536)
    tagFloat e.tag = some f → 8 * k < q.nr → ewStep h T rnd g q k (fun _ => pure ys) s = .ok ((), t) → bytesKept s t ∧ slotsKept s t ∧
      ∃ w, t.me.wait = some w ∧ ∀ i j, i < min 8 (q.nr - 8 * k) → j < q.nc → e.inside q.p (q.r + 8 * k + i) (q.c + j) = true →
        let u := e.key q.p (q.r + 8 * k + i) (q.c + j)
        t.shadowed (s.jobOf s.cur) w.data e T u =
          ewCode f (rnd.at u) g (s.codeAt (s.jobOf s.cur) e T u) (ys.getD j 0))

/-- COLL.ar, COLL.rs, COLL.ag and COLL.a2a (R338-R340), STASH and RESTORE (R354-R358), NMLOAD, NMSTRM and NMDRAIN (R359, R360)
complete wherever their registers can be read, their checks pass and their steps run. A COLL goes on without its slot, once no segment
that it would read is poisoned; an all-reduce
whose member has heard every other writes the sum of all members. A COLL of a cancelled unit puts CANCELLED into the counter that it names,
and a STASH or a RESTORE ends with that status (R172). A STASH or a RESTORE whose target is too small, or whose peer
refuses, ends with its status. Near commands are of far slots where the feature is on; the tensor is on the far slot's stack, in class
NEARROW, or, a PLAIN one, in the frames of its alias, before they take their stamp (R63), and the weights of an NMLOAD are those of
every array of its stack.
The model's own readings and choices that it rests on, with their log entries (notes/assumptions): reasons of COLL (48), what a peer
answers (49), weights of a stack (50), PROGIDX (42), poisoned data (68), places (83). -/
def Obligations.EngineCommands : Prop :=
  (∀ (s : State) o h a r s1 x s2 s3 st s4 t, s.live → collRegs o s = .ok ((h, a, r), s1) → collDesc a s1 = .ok (x, s2) →
    ∀ n i, (n, i) ∈ [(0, .collAr o), (1, .collRs o), (2, .collAg o), (3, .collA2a o)] →
      unstamped (collGuard n h r x (decide (o.l ≠ 0))) s2 = .ok ((), s3) →
      (s3.me.refusing = false → collStamps h r (decide (o.l ≠ 0)) s3 = .ok (st, s4) →
        let c := s4.collOf o n h (if o.l = 0 then 0 else r) (groupOf x) st
        ran [collPoison c, collEnter c] s4 t → Sys2Proof.Machine.exec i s = .next (t.advance i)) ∧
      (∀ k, s3.me.refusing = true → o.n = some k →
        Sys2Proof.Machine.exec i s = .next ((s3.failCtr (coreOf s3.cur) (s3.bankNo s3.cur) k.toNat 3 0).advance i))) ∧
  (∀ (c : Coll) t k, c.op = 0 → c.mods = 1 → c.camp = 1 → t.tag = .f32 → k < t.pages * t.rows * t.cols →
    (collUnits c t)[k]? = some (k, tree (fun _ a b => f32Tree rne a b) 0 ((List.range c.pkg).map fun r => (c.dataOf r).get 0 k))) ∧
  (∀ (s : State) o h l d s1 t, s.live → stashBegin o s = .ok ((h, l, d), s1) → s1.me.refusing = true →
    stashFail o h 3 s1 = .ok ((), t) → Sys2Proof.Machine.exec (.stash o) s = .next (t.advance (.stash o)) ∧
      Sys2Proof.Machine.exec (.restore o) s = .next (t.advance (.restore o))) ∧
  (∀ (s : State) o h l d s1 s0 T s2 n s3, s.live → stashBegin o s = .ok ((h, l, d), s1) → s1.me.refusing = false →
    (match o.tgt with
      | .image => unstamped (entry (l.toNat % 2 ^ 32) >>= fun q => checkPool h (q.newSegs .writer 2048 q.allExt).length)
      | _ => pure ()) s1 = .ok ((), s0) → stampHandle 0 h h 2048 .reader Tensor.allExt s0 = .ok (T, s2) →
    let size := imageSize o.grade (s2.tensor (s2.jobOf s2.cur) (h / 65536))
    stashEarly o d size s2 = .ok (n, s3) →
    (∀ t, n ≠ 0 → stashFail o h n s3 = .ok ((), t) → Sys2Proof.Machine.exec (.stash o) s = .next (t.advance (.stash o))) ∧
    (∀ t, n = 0 → (match o.tgt with
        | .image => stashImage o h (l.toNat % 2 ^ 32) T size
        | .host => stashToHost o h T size d
        | .peer => stashToPeer o h T size) s3 = .ok ((), t) → Sys2Proof.Machine.exec (.stash o) s = .next (t.advance (.stash o)))) ∧
  (∀ (s : State) o h l d s1 n s3, s.live → stashBegin o s = .ok ((h, l, d), s1) → s1.me.refusing = false →
    let size := imageSize o.grade (s1.tensor (s1.jobOf s1.cur) (h / 65536))
    restoreEarly o d size s1 = .ok (n, s3) →
    (∀ t, n ≠ 0 → stashFail o h n s3 = .ok ((), t) → Sys2Proof.Machine.exec (.restore o) s = .next (t.advance (.restore o))) ∧
    (∀ t, n = 0 → (match o.tgt with
        | .image => restoreImage o h (l.toNat % 2 ^ 32)
        | .host => restoreFromHost o h size d
        | .peer => restoreFromPeer o h size) s3 = .ok ((), t) → Sys2Proof.Machine.exec (.restore o) s = .next (t.advance (.restore o)))) ∧
  (∀ (s : State) o d size, (o.tgt = .image → stashEarly o d size s = .ok (0, s) ∧ restoreEarly o d size s = .ok (0, s)) ∧
    (o.tgt = .host → stashEarly o d size s = .ok (if d.len < size then 0x13 else 0, s) ∧
      restoreEarly o d size s = .ok (if d.len = size then 0 else 0x13, s))) ∧
  (∀ (s : State) h c x s1 y s2 s3 s0 T s4 t, s.live → nearSlot s = .ok ((), s) → readSR 0 h s = .ok (x, s1) → readSR 1 c s1 = .ok (y, s2) →
    let n := x.toNat % 2 ^ 32
    nearChecks n (fun _ => pure ()) s2 = .ok ((), s3) → nearMove n s3 = .ok ((), s0) →
    stampHandle 0 n n 4096 .reader (weightRegion y).ext s0 = .ok (T, s4) →
    ran [opTurn n T, engineStep 0 (loadWeights n T (weightRegion y)), retireOp n T] s4 t →
    Sys2Proof.Machine.exec (.nmload h c) s = .next (t.advance (.nmload h c))) ∧
  (∀ (s : State) h c rows cols x s1 y s2 w s3 s0 T s4 t, s.live → nearSlot s = .ok ((), s) → readSR 0 h s = .ok (x, s1) →
    readSR 1 c s1 = .ok (y, s2) → s2.me.wts = some w →
    let n := x.toNat % 2 ^ 32
    let q := nearTile y rows cols
    nearChecks n (fun t => ensure (nearPair w t.tag) (badFormat 2)) s2 = .ok ((), s3) → nearMove n s3 = .ok ((), s0) →
    stampHandle 0 n n 4096 .reader q.ext s0 = .ok (T, s4) → ran [opTurn n T, engineStep 0 (streamTile n T q w), retireOp n T] s4 t →
    Sys2Proof.Machine.exec (.nmstrm h c rows cols) s = .next (t.advance (.nmstrm h c rows cols))) ∧
  (∀ (s : State) h c rows cols rm x s1 y s2 s3 s0 T s4 t, s.live → nearSlot s = .ok ((), s) → readSR 0 h s = .ok (x, s1) →
    readSR 1 c s1 = .ok (y, s2) →
    let n := x.toNat % 2 ^ 32
    let q := nearTile y rows cols
    let b := s2.me.nearBuf
    nearChecks n (fun _ => ensure (decide (b.rows = q.nr) && decide (b.cols = q.nc)) (badFormat 1)) s2 = .ok ((), s3) → nearMove n s3 = .ok ((), s0) →
    stampHandle 0 n n 4096 .writer q.ext s0 = .ok (T, s4) →
    ran [opTurn n T, engineStep 0 (drainTile n q b (s2.me.rnd rm)), publishMine n T >>= fun _ => pure ()] s4 t →
    Sys2Proof.Machine.exec (.nmdrain h c rows cols rm) s = .next (t.advance (.nmdrain h c rows cols rm))) ∧
  (∀ (s : State) st w t, isFar t = true → farStack t = st → (s.slot t).st ≠ .free → ((s.setWeights st w).slot t).wts = some w) ∧
  (∀ (s : State) n t, s.me.wait = none → s.tensor (s.jobOf s.cur) (n / 65536) = t →
    s.nearReady (s.jobOf s.cur) t (farStack s.cur) = true → nearMove n s = .ok ((), s)) ∧
  (∀ (s : State) j (t : Tensor) st, s.nearReady j t st = true ↔
    if t.plain then s.aliasOn j t.aliasAt t.bytes st = true else t.cls = 7 ∧ t.stack = some st ∧ t.rerep = none) ∧
  (∀ w (q : Region) xs i j, w.fmt = .i8 → i < q.nr → j < q.nc → q.nc % 8 = 0 → (nearResult w .i8 q xs).data.get 0 (i * q.nc + j) =
    (((List.range 8).map fun r => sintOf 8 (xs.get 0 (i * q.nc + j / 8 * 8 + r)) * sintOf 8 (w.data.get 0 (8 * r + j % 8))).sum % 2 ^ 32).toNat) ∧
  (∀ (s : State) h c rows cols rm, s.live → (isFar s.cur = false ∨ s.pkg.featsel.testBit 0 = false) →
    let t := s.trapMe 1 (BitVec.ofNat 64 (56 * 256 + 8))
    Sys2Proof.Machine.exec (.nmload h c) s = .next t ∧ Sys2Proof.Machine.exec (.nmstrm h c rows cols) s = .next t ∧
    Sys2Proof.Machine.exec (.nmdrain h c rows cols rm) s = .next t) ∧
  (∀ (s : State) o, s.live → (isLocal s.cur = false ∨ slotNo s.cur = 0) → ∀ i, i ∈ [.collAr o, .collRs o, .collAg o, .collA2a o] →
    Sys2Proof.Machine.exec i s = .next (s.trapMe 1 (BitVec.ofNat 64 (56 * 256 + 8))))

/-! ## System instructions (R362-R374) -/

/-- SPAWN, REAP, LAUNCH, CANCEL, SVC and KEEP. SPAWN of a FREE slot 1-15, with a record that keeps its layout, places the record's
unit: its PC, ids, handler, SEED and XSTAT, g1-g8 from the arguments, every other register zero, the starter's PTS, HELD. REAP writes
the record of the lowest ENDED slot, or of the slot that A names, frees it, and answers its number; with none it parks. LAUNCH and
CANCEL are decided whole by the graph engine. SVC parks until the reply, which writes g1 and g2 and no other register. KEEP is a
SYSWR to KEEPn. A cancelled unit to which no route of up links brings the reply has none of it (R393, replyRoute).
The model's own readings and choices that it rests on, with their log entries (notes/assumptions): HELD until the lap boundary (21),
the job of a SPAWN on a near core (11), KEEP (22), the free values of a service (4), which service is done, that it has no other
effect than those that the model names, and who chooses it (86, 3). -/
def Obligations.SystemCommands : Prop :=
  (∀ (s : State) a b n r s1 x s2, s.live → starterOnly s = .ok ((), s) → readAB a b s = .ok ((n, r), s1) → r.toNat % 8 = 0 →
    checkLocal r.toNat 128 false s1 = .ok ((), s1) → loadLocal r.toNat 128 s1 = .ok (x, s2) →
    let t := tidOf (coreOf s2.cur) n.toNat
    let job := if isNear (coreOf s2.cur) then some (idJob (BitVec.ofNat 64 (recWord x 2))) else none
    let ok : Prop := 1 ≤ n.toNat ∧ n.toNat < 16 ∧ (s2.slot t).st = .free
    (ok → spawnOk x = true → Sys2Proof.Machine.exec (.spawn a b) s = .next ((s2.setSlot t (spawned x s2.me.pts job)).advance (.spawn a b))) ∧
    (¬ ok → Sys2Proof.Machine.exec (.spawn a b) s = .next (s.trapMe 1 (BitVec.ofNat 64 (40 * 256 + 7)))) ∧
    (ok → spawnOk x = false → Sys2Proof.Machine.exec (.spawn a b) s = .next (s.trapMe 1 (BitVec.ofNat 64 (31 * 256 + 7))))) ∧
  (∀ x pts job, let y := spawned x pts job
    let w (k : Nat) : Word := BitVec.ofNat 64 (fieldN x (64 * k) 64)
    y.st = .held ∧ y.pc = BitVec.ofNat 56 (fieldN x 0 64) ∧ y.pts = pts ∧ y.span = .entry ∧
      y.sp = { Special.zero with unitid := w 1, launchid := w 2, xhandler := w 3, seed := w 4, xstat := w 5 } ∧
      (∀ n, 1 ≤ n → n ≤ 8 → y.regs.readG n = w (7 + n)) ∧ (∀ n, 8 < n → y.regs.readG n = 0) ∧ ∀ n, y.regs.readV n = 0) ∧
  (∀ (s : State) d a b n r s1, s.live → starterOnly s = .ok ((), s) → readAB a b s = .ok ((n, r), s1) → n.toNat < 16 → r.toNat % 8 = 0 →
    checkLocal r.toNat 32 true s1 = .ok ((), s1) →
    let st (k : Nat) : SlotSt := (s1.slot (tidOf (coreOf s1.cur) k)).st
    (∀ k s2 s3, ((n.toNat = 0 ∧ 1 ≤ k ∧ k < 16 ∧ st k = .ended ∧ ∀ m, 1 ≤ m → m < k → st m ≠ .ended) ∨
        (n.toNat = k ∧ 1 ≤ k ∧ st k = .ended)) →
      storeLocal r.toNat 32 (reapRecord (s1.slot (tidOf (coreOf s1.cur) k))) s1 = .ok ((), s2) →
      writeSR d (BitVec.ofNat 64 k) (s2.reapSlot (tidOf (coreOf s1.cur) k)) = .ok ((), s3) →
      Sys2Proof.Machine.exec (.reap d a b) s = .next (s3.advance (.reap d a b))) ∧
    (((n.toNat = 0 ∧ ∀ m, 1 ≤ m → m < 16 → st m ≠ .ended) ∨ (n.toNat ≠ 0 ∧ st n.toNat ≠ .free ∧ st n.toNat ≠ .ended)) →
      Sys2Proof.Machine.exec (.reap d a b) s = .next (s1.parkOn (.reap d a b) .reap)) ∧
    (n.toNat ≠ 0 → st n.toNat = .free →
      Sys2Proof.Machine.exec (.reap d a b) s = .next (s.trapMe 1 (BitVec.ofNat 64 (40 * 256 + 7))))) ∧
  (∀ (s : State) d a r s1 x s2, s.live → readSrc 1 a s = .ok (r, s1) → s1.me.wait = none → r.toNat % 64 = 0 →
    behalfLoad r.toNat 64 s1 = .ok (x, s2) →
    (launchRecOk x = false → Sys2Proof.Machine.exec (.launch d a) s = .next (s.trapMe 1 (BitVec.ofNat 64 (40 * 256 + 7)))) ∧
    (∀ s3 s4 s0 s5 id s6, launchRecOk x = true →
      (keepWait fun w => { w with data := w.data.set 0 launchKey (x + 1) }) s2 = .ok ((), s3) → await .graph s3 = .ok ((), s4) →
      replyRoute s4 = .ok ((), s0) → s0.submit s0.cur x = (s5, id) → writeSR d id s5 = .ok ((), s6) →
      Sys2Proof.Machine.exec (.launch d a) s = .next (s6.advance (.launch d a)))) ∧
  (∀ (s : State) lvl d a id s1 s0 s2 s3 n s4, s.live → readSrc 1 a s = .ok (id, s1) → await .graph s1 = .ok ((), s0) →
    replyRoute s0 = .ok ((), s2) → s2.cancelLevel (s2.jobOf s2.cur) (levelNo lvl) id = (s3, n) → writeSR d (BitVec.ofNat 64 n) s3 = .ok ((), s4) →
    Sys2Proof.Machine.exec (.cancel lvl d a) s = .next (s4.advance (.cancel lvl d a))) ∧
  (∀ s : State, (s.me.dying = false ∨ s.routedIn (atCore s.cur) = true) → replyRoute s = .ok ((), s)) ∧
  (∀ (s : State) n, s.live →
    (s.prompt = false → s.grant ≠ some .svc → Sys2Proof.Machine.exec (.svc n) s = .next (s.parkOn (.svc n) .svc)) ∧
    ((s.prompt = true ∨ s.grant = some .svc) → (s.me.dying = false ∨ s.routedIn (atCore s.cur) = true) →
      ∃ t : State, Sys2Proof.Machine.exec (.svc n) s = .next (t.advance (.svc n)) ∧ othersKept s t ∧ (t.slot s.cur).sp = s.me.sp ∧
        (t.slot s.cur).regs.readG 1 = (if s.picks.headD 0 = 0 then BitVec.allOnes 64 else Config.freeWord s.frees) ∧
        (t.slot s.cur).regs.readG 2 = Config.freeWord (s.frees + 1) ∧
        (∀ r, r ≠ 1 → r ≠ 2 → (t.slot s.cur).regs.readG r = s.me.regs.readG r) ∧
        ∀ r, (t.slot s.cur).regs.readV r = s.me.regs.readV r ∧ (t.slot s.cur).regs.readK r = s.me.regs.readK r)) ∧
  (∀ (s : State) n a v s1, s.live → isLocal s.cur = true → slotNo s.cur ≠ 0 → readSrc 1 a s = .ok (v, s1) →
    let d := runDie s1.cur
    let bad := keepBad (s1.die d) (s1.jobOf s1.cur) n.toNat v
    (bad = false → Sys2Proof.Machine.exec (.keep n a) s = .next ((s1.modDie d fun x =>
      x.setKeep n.toNat { x.keep.get Keep.dflt n.toNat with val := v }).advance (.keep n a))) ∧
    (bad = true → Sys2Proof.Machine.exec (.keep n a) s = .next (s.trapMe 1 (BitVec.ofNat 64 (40 * 256 + 7))))) ∧
  (∀ (s : State) a b d n, s.live → (isFar s.cur = true ∨ slotNo s.cur ≠ 0) →
    let t := s.trapMe 1 (BitVec.ofNat 64 (56 * 256 + 8))
    Sys2Proof.Machine.exec (.spawn a b) s = .next t ∧ Sys2Proof.Machine.exec (.reap d a b) s = .next t ∧
    (isLocal s.cur = false → Sys2Proof.Machine.exec (.keep n a) s = .next t))

/-- SYSRD and SYSWR (R369-R371, R427). A read writes D with the register's value, 0 for a KEEP register of another job; TIME and
TIMEERR are the die's, as the reply brings them; XFERDONE raises the PTS. A write of a value that the register's rule allows changes
that register and nothing else (HBn, VWn and KEEPn as HSET, VIEW and KEEP do); a refused value is trap 0x01, SUB 0x07, FIELD 40; bits 63:48 of STALLS are read-only, and a write of them is ignored (R4, R80); a read-only register is SUB 0x08, but that the
firmware's slots of the service cores write ACTLVL (R101); HBn and VWn are of local slots of compute cores.
The model's own readings and choices that it rests on, with their log entries (notes/assumptions): KEEP (22), registers of a far
slot (11), which slots are the firmware's and what they may write (63). -/
def Obligations.SpecialRegisters : Prop :=
  (∀ (s : State) d r v s1, s.live → let x := s.me
    let b := s.bank (runCore s.cur) (s.bankNo s.cur)
    let c := s.core (runCore s.cur)
    let own := s.core (coreOf s.cur)
    let n64 (n : Nat) : Word := BitVec.ofNat 64 n
    ((r, v) ∈ [(SpReg.slotid, n64 (physOf s.cur * 2 ^ 17 + s.cur)), (.unitid, x.sp.unitid), (.launchid, x.sp.launchid),
        (.dieid, n64 (runDie s.cur)), (.cycles, n64 (s.die (runDie s.cur)).cycles), (.pts, n64 (x.pts % 2 ^ 48)), (.xcause, x.sp.xcause),
        (.xvalue, x.sp.xvalue), (.xpc, x.sp.xpc), (.xstat, x.sp.xstat), (.xhandler, x.sp.xhandler), (.progidx, x.sp.progidx),
        (.seed, x.sp.seed), (.rmode, n64 (x.sp.xstat.toNat / 2 ^ 8 % 8)), (.xfernext, n64 b.xferNext), (.stalls, n64 c.stalls),
        (.parks, n64 c.parks), (.migrs, n64 c.migrs), (.lnksel, x.sp.lnksel), (.featsel, n64 s.pkg.featsel), (.featcap, 0x3F),
        (.leaselen, n64 (s.lease (s.jobOf s.cur))), (.actlvl, n64 s.pkg.actlvl), (.govstat, n64 s.pkg.govstat)] ∨
      (∃ n, r = .keep n ∧ v = s.keepOf (runDie s.cur) (s.jobOf s.cur) n.toNat) ∨
      (isLocal s.cur = true ∧ ((∃ n, r = .hb n ∧ v = (s.hb (coreOf s.cur) n.toNat).word) ∨ ∃ n, r = .vw n ∧ v = own.vw.get 0 n.toNat)) ∨
      (s.prompt = true ∧ s.grant = none ∧ (s.me.dying = false ∨ s.routedIn (atCore s.cur) = true) ∧
        ((r = .time ∧ v = n64 (s.die (runDie s.cur)).time) ∨ (r = .timeerr ∧ v = n64 ((s.die (runDie s.cur)).timeErr % 2 ^ 32)))) ∨
      ((s.prompt = true ∧ s.grant = none ∧ (s.me.dying = false ∨ s.routedIn (atCore s.cur) = true) ∨ x.sp.lnksel.toNat / 2 ^ 11 % 32 = runDie s.cur) ∧
        let l := s.link x.sp.lnksel.toNat
        ((r, v) ∈ [(SpReg.lnkstat, n64 l.stat), (.lnkmap, n64 l.active), (.lnkretr, n64 l.retr), (.lnkthr, n64 l.thr)] ∨
          ∃ n, r = .lnkcorr n ∧ v = n64 (l.corr.get 0 n.toNat)))) →
    writeSR d v s = .ok ((), s1) → Sys2Proof.Machine.exec (.sysrd d r) s = .next (s1.advance (.sysrd d r))) ∧
  (∀ (s : State) d s1, s.live → let b := s.bank (runCore s.cur) (s.bankNo s.cur)
    writeSR d (BitVec.ofNat 64 b.xferDone) (s.modSlot s.cur fun x => { x with pts := max x.pts b.xferStamp }) = .ok ((), s1) →
    Sys2Proof.Machine.exec (.sysrd d .xferdone) s = .next (s1.advance (.sysrd d .xferdone))) ∧
  (∀ (s : State) a v s1, s.live → readSrc 1 a s = .ok (v, s1) →
    let bad := s.trapMe 1 (BitVec.ofNat 64 (40 * 256 + 7))
    let sp (r : SpReg) (ok : Prop) (f : Special → Special) : Prop :=
      (ok → Sys2Proof.Machine.exec (.syswr r a) s = .next ((s1.modSlot s1.cur fun x => { x with sp := f x.sp }).advance (.syswr r a))) ∧
      (¬ ok → Sys2Proof.Machine.exec (.syswr r a) s = .next bad)
    let cnt (r : SpReg) (f : Core → Core) : Prop :=
      (v.toNat < 2 ^ 48 → Sys2Proof.Machine.exec (.syswr r a) s = .next ((s1.modCore (runCore s1.cur) f).advance (.syswr r a))) ∧
      (2 ^ 48 ≤ v.toNat → Sys2Proof.Machine.exec (.syswr r a) s = .next bad)
    let code : Prop := v.toNat < 2 ^ 56 ∧ v.toNat % 8 = 0
    sp .xcause (v.toNat < 256) (fun p => { p with xcause := v }) ∧ sp .xvalue True (fun p => { p with xvalue := v }) ∧
    sp .xpc code (fun p => { p with xpc := v, rmark := false }) ∧
    sp .xstat (xstatBad s1.me.sp.xstat v = false) (fun p => { p with xstat := v }) ∧
    sp .xhandler code (fun p => { p with xhandler := v }) ∧ sp .progidx (v.toNat < 2 ^ 32) (fun p => { p with progidx := v }) ∧
    sp .seed True (fun p => { p with seed := v }) ∧
    sp .rmode (v.toNat ≤ 4) (fun p => { p with xstat := (p.xstat &&& ~~~(0x700 : Word)) ||| (v <<< 8) }) ∧
    sp .lnksel (linkOk v = true) (fun p => { p with lnksel := v }) ∧
    Sys2Proof.Machine.exec (.syswr .stalls a) s = .next ((s1.modCore (runCore s1.cur) fun c =>
      { c with stalls := v.toNat % 2 ^ 48 }).advance (.syswr .stalls a)) ∧ cnt .parks (fun c => { c with parks := v.toNat }) ∧
    cnt .migrs (fun c => { c with migrs := v.toNat }) ∧
    (1 ≤ v.toNat → v.toNat < 2 ^ 16 → Sys2Proof.Machine.exec (.syswr .leaselen a) s =
      .next ((s1.modJob (s1.jobOf s1.cur) fun j => { j with leaseLen := v.toNat }).advance (.syswr .leaselen a))) ∧
    ((v.toNat = 0 ∨ 2 ^ 16 ≤ v.toNat) → Sys2Proof.Machine.exec (.syswr .leaselen a) s = .next bad) ∧
    (∀ n t, isLocal s.cur = true → writeHb n.toNat v s1 = .ok ((), t) →
      Sys2Proof.Machine.exec (.syswr (.hb n) a) s = .next (t.advance (.syswr (.hb n) a))) ∧
    (∀ n t, isLocal s.cur = true → writeView n.toNat v s1 = .ok ((), t) →
      Sys2Proof.Machine.exec (.syswr (.vw n) a) s = .next (t.advance (.syswr (.vw n) a))) ∧
    (∀ n t, writeKeep n.toNat v s1 = .ok ((), t) →
      Sys2Proof.Machine.exec (.syswr (.keep n) a) s = .next (t.advance (.syswr (.keep n) a)))) ∧
  (∀ (s : State) r a, s.live → readOnly r = true → (r ≠ .actlvl ∨ isService s.cur = false) →
    Sys2Proof.Machine.exec (.syswr r a) s = .next (s.trapMe 1 8)) ∧
  (∀ (s : State) a v s1, s.live → isService s.cur = true → readSrc 1 a s = .ok (v, s1) →
    (16 ≤ v.toNat → v.toNat ≤ 128 → Sys2Proof.Machine.exec (.syswr .actlvl a) s =
      .next (({ s1 with pkg := { s1.pkg with actlvl := v.toNat } } : State).advance (.syswr .actlvl a))) ∧
    ((v.toNat < 16 ∨ 128 < v.toNat) →
      Sys2Proof.Machine.exec (.syswr .actlvl a) s = .next (s.trapMe 1 (BitVec.ofNat 64 (40 * 256 + 7))))) ∧
  (∀ (s : State) d a r, s.live → isLocal s.cur = false → ((∃ n, r = .hb n) ∨ ∃ n, r = .vw n) →
    Sys2Proof.Machine.exec (.sysrd d r) s = .next (s.trapMe 1 8) ∧ Sys2Proof.Machine.exec (.syswr r a) s = .next (s.trapMe 1 8))

/-! ## Steps of the device -/

/-- A reply resumes the parked slot that waits for it: its instruction is run with the reply, and a slot that waits for something else
is left alone. Each of these steps, on a die that has its clocks, is that resumption: a stamp, a staged or added contribution, a
store at its home, a line of a reduce-store, a publish, a load's reply, a step of the matrix, epilogue or tensor engine, a reply of the
runtime, of the host or of the time master, a decision of the graph engine (R64, R125, R126, R143, R147, R162, R273, R274, R327,
R335, R353, R367, R368, R373).
The model's own readings and choices that it rests on, with their log entries (notes/assumptions): which reply comes when (2), the
count of R130 (17). -/
def Obligations.Replies : Prop :=
  (∀ (s : State) t k u, s.waitOf t = some k → Dec.encode (s.instrOf t) ≠ [] →
    Sys2Proof.Machine.exec (s.instrOf t) { s with cur := t, grant := some k } = .next u →
    s.resume t k = ({ u with cur := s.cur, grant := none } : State).wakeUp t) ∧
  (∀ (s : State) t k, s.waitOf t ≠ some k → s.resume t k = s) ∧
  (∀ (s : State) t, (s.wakeUp t).cur = s.cur ∧ ((s.slot t).st = .parked → s.wakeUp t = s) ∧
    ((s.slot t).st ≠ .parked → ((s.wakeUp t).slot t).issued = 0)) ∧
  (∀ (s : State) t, (s.die (runDie t)).stopped = false →
    let go (i : Instr) (k : WaitKind) : Prop := Sys2Proof.Machine.exec i s = .next (s.resume t k)
    go (.handleStamp t) .stamp ∧ go (.raddOrdStage t) .stage ∧ go (.graphEngineRequest t) .graph ∧
    (isRadd (s.instrOf t) = false → go (.homeStore t) .store) ∧ (isRadd (s.instrOf t) = true → go (.raddArrival t) .store) ∧
    (isReduceStore (s.instrOf t) = true → go (.reduceStoreLineAdd t) .publish) ∧
    ((∀ c ∈ s.colls, c.tid ≠ t) → isReduceStore (s.instrOf t) = false → go (.publish t) .publish) ∧
    (engineOf (s.instrOf t) = 0 → go (.matrixStep t) .engine) ∧ (engineOf (s.instrOf t) = 1 → go (.epilogueStep t) .engine) ∧
    (engineOf (s.instrOf t) = 2 → go (.tensorStep t) .engine) ∧
    (∀ k, (k = .svc ∨ k = .hostReply ∨ k = .timeReply) → s.waitOf t = some k → go (.replyArrival t) k) ∧
    (s.waitOf t = some .load →
      let u : State := { s with picks := s.picks.drop 2 }
      let q := s.picks.tail.headD 0
      Sys2Proof.Machine.exec (.leaseRenewal t) s =
        .next (((if q = 0 ∨ 64 < q then u else u.countHit q).resume t .load).makeRoom (runDie t) (s.picks.headD 0))))

/-- Slots, laps, translation, messages, batons, crews, hurdles and cancels (R40-R43, R119, R130, R163, R172, R177-R185, R280, R372,
R382): what each step of the device does on a die that has its clocks.
The model's own readings and choices that it rests on, with their log entries (notes/assumptions): turns of a cancel handler (18),
the count of R130 (17), the walk of a fetch and the caches (20, 56), which step comes when (2), the starter's cancel (78). -/
def Obligations.ThreadSteps : Prop :=
  (∀ (s : State) x, s.live → Sys2Proof.Machine.exec (.xpcWrite x) s = .next (if x.toNat < 2 ^ 56 ∧ x.toNat % 8 = 0 then
    s.modSlot s.cur fun y => { y with sp := { y.sp with xpc := x, rmark := false } } else s)) ∧
  (∀ (s : State) t, (s.die (runDie t)).stopped = false →
    ((s.slot t).st = .running → ((s.slot t).issued % 4096 = 4095 ∨ (s.slot t).total % 4096 = 4095) → (s.slot t).ticked = false →
      ∃ u : State, Sys2Proof.Machine.exec (.ptsTick t) s = .next u ∧ (u.slot t).pts = (s.slot t).pts + 1 ∧ (u.slot t).ticked = true) ∧
    ((s.slot t).st ≠ .running → Sys2Proof.Machine.exec (.ptsTick t) s = .next s) ∧
    (s.cancelDue t = true → slotNo t ≠ 0 → Sys2Proof.Machine.exec (.cancelDelivery t) s =
      .next ((((((s.keepResults t).failStash t).stopEpis t).restartWriter t).dropOps t).takeTrap t 0x13
        (cancelValue ((s.slot t).cancel.getD 0)) (s.handlerOk t))) ∧
    (s.cancelDue t = true → slotNo t = 0 → s.waitOf t = some .reap → (s.slot t).sp.xhandler ≠ 0 →
      (s.slot t).sp.xstat.getLsbD 0 = false →
      let u := s.modSlot t fun x => { x with cancel := none }
      u.handlerOk t = true →
      Sys2Proof.Machine.exec (.cancelDelivery t) s = .next (u.takeTrap t 0x13 (cancelValue ((s.slot t).cancel.getD 0)) true)) ∧
    ((s.slot t).inCancel = true → ((s.slot t).st = .running ∨ (s.slot t).st = .parked) → 4096 ≤ (s.slot t).handTurns →
      Sys2Proof.Machine.exec (.cancelHandlerTimeout t) s = .next (s.endUnit t { code := 2, cause := 0, xpc := 0, tid := t })) ∧
    (∀ n m, s.msgs.findIdx? (isEnded t) = some n → s.msgs[n]? = some m → s.hasRoom m = true →
      Sys2Proof.Machine.exec (.assignEnded t) s = .next (s.enterPort n m)) ∧
    (∀ p l, s.waitOf t = some (.translate p) → (s.die (runDie t)).tcache.find? (fun l => l.covers (s.jobOf t) (p * 4096)) = some l →
      Sys2Proof.Machine.exec (.translationRequest t) s = .next ((s.installTlb (coreOf t) l).setWait t .ready)) ∧
    (∀ p, s.waitOf t = some (.translate p) → (s.die (runDie t)).tcache.find? (fun l => l.covers (s.jobOf t) (p * 4096)) = none →
      (∀ w ∈ (s.die (runDie t)).walks, ¬ (w.job = s.jobOf t ∧ w.page = p)) →
      Sys2Proof.Machine.exec (.translationRequest t) s = .next (s.modDie (runDie t) fun d =>
        { d with walks := d.walks ++ [{ job := s.jobOf t, page := p, tids := [t] }] }))) ∧
  (∀ (s : State) c, (s.die (c / 128)).stopped = false → 
    ((s.core c).turn = 0 → (s.core c).begun = false → Sys2Proof.Machine.exec (.lapBoundary c) s = .next (s.lapStart c)) ∧
    (((s.core c).turn ≠ 0 ∨ (s.core c).begun = true) → Sys2Proof.Machine.exec (.lapBoundary c) s = .next s) ∧
    ((s.lapStart c).core c).begun = true) ∧
  (∀ (s : State) d j p w, (s.die d).stopped = false → ((s.die d).walks.take 64).find? (fun w => decide (w.job = j) && decide (w.page = p)) = some w →
    let u := s.modDie d fun x => { x with walks := x.walks.filter fun q => ¬ (q.job = j ∧ q.page = p) }
    (∀ l, u.walkOf j (p * 4096) = .ok l → Sys2Proof.Machine.exec (.walkEnd d j p) s = .next (w.tids.foldl (fun s t =>
      if s.waitOf t ≠ some (.translate p) then s
      else if s.walkRouted (atCore t) j (p * 4096) then (s.installTlb (coreOf t) l).setWait t .ready
      else s.resume t (.translate p))
      (u.modDie d fun x => { x with tcache := l :: x.tcache }))) ∧
    (∀ e, u.walkOf j (p * 4096) = .error e →
      Sys2Proof.Machine.exec (.walkEnd d j p) s = .next (w.tids.foldl (fun s t => s.resume t (.translate p)) u))) ∧
  (∀ (s : State) d j w, (s.die d).stopped = false → (s.job j).bind (·.shoot) = some w →
    Sys2Proof.Machine.exec (.shootdown d j) s = .next (if s.busyDie d j then s else
      (s.dropLeaves d j w.va w.size).modJob j fun x => { x with shoot := some { w with dies := w.dies.filter fun k => decide (k ≠ d) } })) ∧
  (∀ (s : State) j w, (s.die Config.infieldDie).stopped = false → (s.job j).bind (·.shoot) = some w →
    Sys2Proof.Machine.exec (.shootdownAck j) s =
      .next (if w.dies = [] ∧ (List.range Config.dieCount).all (fun d => !s.busyDie d j) = true then s.takeEffect j w else s)) ∧
  (∀ (s : State) j w, w.move = [] →
    (s.takeEffect j w).mem = w.ents.foldl (fun m e => writeN m e.1 8 e.2) s.mem ∧
    ∀ x, (s.takeEffect j w).job j = some x → x.shoot = none) ∧
  (∀ (s : State) n, (s.die Config.infieldDie).stopped = false →
    (∀ m, s.msgs[n]? = some m → Sys2Proof.Machine.exec (.queueMessageArrival n) s = .next (if s.hasRoom m then s.enterPort n m else s)) ∧
    (∀ b, s.batons[n]? = some b → let u := ({ s with batons := dropAt n s.batons } : State).arrive b
      (b.isCrew = false → Sys2Proof.Machine.exec (.batonArrival n) s = .next u) ∧
      (b.isCrew = true → Sys2Proof.Machine.exec (.crewBatonArrival n) s = .next u)) ∧
    (∀ b, s.answers[n]? = some b → let u : State := { s with answers := dropAt n s.answers }
      (b.verdict = none → Sys2Proof.Machine.exec (.batonAccepted n) s = .next (u.setSlot b.origin Slot.dflt)) ∧
      (∀ r, b.verdict = some r → Sys2Proof.Machine.exec (.batonRefusal n) s = .next (u.hear b))) ∧
    (∀ g, s.sigs[n]? = some g → let u := ({ s with sigs := dropAt n s.sigs } : State).hbDeliver g
      (g.rel = false → g.broken = false → Sys2Proof.Machine.exec (.hurdleSignal n) s = .next u) ∧
      (g.rel = true → g.broken = false → Sys2Proof.Machine.exec (.hurdleRelease n) s = .next u) ∧
      (g.rel = false → g.broken = true → Sys2Proof.Machine.exec (.brokenSignal n) s = .next u) ∧
      (g.rel = true → g.broken = true → Sys2Proof.Machine.exec (.brokenRelease n) s = .next u))) ∧
  (∀ (s : State) b c, b.dest = c → s.takes c b.job = true → s.routedTo (atCore b.origin) c = true → b.isCrew = false →
    let u := s.arrive b
    let full : Prop := ¬ (s.core c).landed.length + (s.core c).arrivals.length < (s.freeSlots c).length
    (¬ full → u = s.modCore c fun x => { x with landed := x.landed ++ [b] }) ∧
    (full → (s.core c).buffered < 8 → u.answers = s.answers ++ [{ b with verdict := none }] ∧
      (u.core c).landed = (s.core c).landed ++ [{ b with held := true }] ∧ (u.core c).migrs = ((s.core c).migrs + 1) % 2 ^ 48) ∧
    (full → 8 ≤ (s.core c).buffered → u = s.sendAnswer b (some 0))) ∧
  (∀ (s : State) b, s.routedTo (atCore b.origin) b.dest = true → s.takes b.dest b.job = false →
    s.arrive b = s.sendAnswer b (some 1)) ∧
  (∀ (s : State) b v, (s.sendAnswer b v).answers = s.answers ++ [{ b with verdict := v }]) ∧
  (∀ (s : State) b r, b.verdict = some r →
    let x := s.slot b.origin
    let y := (s.hear b).slot b.origin
    x.sp.xhandler ≠ 0 → x.sp.xstat.getLsbD 0 = false →
    (s.modSlot b.origin fun x => { x with st := .running, wait := none }).handlerOk b.origin = true →
    y.st = .running ∧ y.wait = none ∧ y.pc = x.sp.xhandler.setWidth 56 ∧ y.sp.xcause = 0x0A ∧
      y.sp.xvalue = migrationValue r b.addr ∧ y.sp.xpc = x.pc.setWidth 64) ∧
  (∀ (s : State) c a, let u := s.refuseCrew c a
    (∀ k, (k ∈ a.arrived ∨ k ∈ a.slots) → u.slot (tidOf c k) = Slot.dflt) ∧
    (∃ l, u.answers = s.answers ++ l ∧ l.length = a.arrived.length ∧ ∀ b ∈ l, b.verdict = some 2) ∧
    (∃ q ∈ (u.core c).crews, q.job = a.job ∧ q.id = a.id ∧ q.refused = true ∧ q.slots = [] ∧ q.arrived = []) ∧ u.mem = s.mem) ∧
  (∀ (s : State) c k, let u := s.failJoin c k
    (∀ t ∈ k.members, ∀ w, (s.slot t).wait = some w → (u.slot t).wait = some { w with kind := .ready, n := 2 }) ∧
    (∃ q ∈ (u.core c).joins, isJoin k.job k.id q = true ∧ q.members = [] ∧ q.failed = true) ∧ u.mem = s.mem) ∧
  (∀ (s : State) n m, let u := s.enterPort n m
    u.msgs = dropAt n s.msgs ∧
    (u.port m.core m.bank m.port).words = (s.port m.core m.bank m.port).words ++ m.words.map (fun w => (w, m.stamp)) ∧
    (∀ t w, m.src = some t → (s.slot t).wait = some w → ∃ v, (u.slot t).wait = some v ∧ v.kind = .ready ∧ v.n = 1)) ∧
  (∀ (s : State) g, let c := coreXY g.die g.x g.y
    let h := s.hb c g.n
    let u := s.hbDeliver g
    let y := u.hb c g.n
    let bad := g.broken || decide (g.val ≠ h.val &&& hbWritten)
    (g.rel = false → y.val = h.val ∧ y.arrs = h.arrs ∧ y.extra = h.extra ∧ y.row = (h.row || g.row) ∧ y.col = (h.col || !g.row) ∧
      y.pts = max h.pts g.pts ∧ y.broken = (h.broken || bad) ∧ u.slots = s.slots ∧
      ∃ l, u.sigs = s.sigs ++ l ∧ l.length ≤ 1) ∧
    (g.rel = true →
      let cnt := hbCount h.val
      y.val = h.val ^^^ 0x4000000000000000 ∧ y.arrs = h.extra.take cnt ∧ y.extra = h.extra.drop cnt ∧ y.row = false ∧ y.col = false ∧
      y.pts = 0 ∧ y.broken = false ∧
      (∀ t w, coreOf t = c → (s.slot t).wait = some w → w.kind = .hurdle g.n none →
        (u.slot t).wait = some (if w.n = 0 then { w with kind := .hurdle g.n (some g.broken), stamps := [g.pts] }
          else { w with n := w.n - cnt })) ∧
      ∃ l, l.length ≤ 1 ∧ u.sigs = s.sigs ++ (if g.x + 1 < hbX0 g.val + hbW g.val then [{ g with x := g.x + 1 }] else []) ++
        (if g.x = hbX0 g.val ∧ g.y + 1 < hbY0 g.val + hbH g.val then [{ g with y := g.y + 1 }] else []) ++ l)) ∧
  (∀ (s : State) c j id, (s.die (c / 128)).stopped = false →
    (∀ a, (s.core c).crews.find? (fun a => decide (a.job = j) && decide (a.id = id) && !a.refused && decide (a.arrived.length < a.size)) =
      some a → Sys2Proof.Machine.exec (.crewAdmissionTimeout c j id) s = .next (s.refuseCrew c a)) ∧
    Sys2Proof.Machine.exec (.crewRefusalWindowEnd c j id) s = .next (s.modCore c fun x =>
      { x with crews := x.crews.filter fun a => ¬ (a.job = j ∧ a.id = id ∧ a.refused = true) }) ∧
    (∀ k, (s.core c).joins.find? (fun k => isJoin j id k && !k.failed) = some k →
      Sys2Proof.Machine.exec (.crewjTimeout c j id) s = .next (s.failJoin c k)) ∧
    Sys2Proof.Machine.exec (.crewjRefusalWindowEnd c j id) s = .next (s.modCore c fun x =>
      { x with joins := x.joins.filter fun k => !(isJoin j id k && k.failed) }))

/-- The memory side, tensors and copies (R62, R67, R87, R94, R96-R103, R149-R154, R340, R356, R357, R384, R395): what each step of the
device does on a die that has its clocks.
The model's own readings and choices that it rests on, with their log entries (notes/assumptions): copies (43), frames and pages
(34), what a peer sends (49), choices of the manager (3), the streamers (77), errors and the manager (34, 68). -/
def Obligations.StorageSteps : Prop :=
  (∀ (s : State) d n, (s.die d).stopped = false →
    let u := if s.invals.contains (d, n / 4) then
      ({ s with invals := s.invals.erase (d, n / 4) } : State).dropColumns d (n / 4) else s
    Sys2Proof.Machine.exec (.crossingInvalidation d n) s = .next (if u.squares.contains (n / 4) then u.evictL2 d n else u)) ∧
  (∀ (s : State) d q, (∀ k ∈ ((s.dropColumns d q).die d).tens, ¬ (k.col ≠ 0 ∧ k.line / 4 = q)) ∧
    (∀ k ∈ (s.die d).tens, (k.col = 0 ∨ k.line / 4 ≠ q) → k ∈ ((s.dropColumns d q).die d).tens) ∧ (s.dropColumns d q).mem = s.mem) ∧
  (∀ (s : State) n, (s.die Config.infieldDie).stopped = false →
    (s.llc.get none (n / 4) = none → Sys2Proof.Machine.exec (.directoryEviction n) s = .next (s.squareBack (n / 4))) ∧
    (∀ q, s.llc.get none (n / 4) = some q →
      ((q.moving = true ∨ s.prompt = true) → Sys2Proof.Machine.exec (.directoryEviction n) s = .next (s.llcDrop (n / 4))) ∧
      (q.moving = false → s.prompt = false → Sys2Proof.Machine.exec (.directoryEviction n) s =
        .next { s with llc := s.llc.set none (n / 4) (some { q with moving := true }) }))) ∧
  (∀ (s : State) q, (s.squareBack q).mem = s.mem ∧
    ∀ pa, ((s.squareBack q).pairOf pa).wts = (s.pairOf pa).wts ∧ ((s.squareBack q).pairOf pa).rts = (s.pairOf pa).rts ∧
      (pa / 1024 = q → ((s.squareBack q).pairOf pa).scope ≠ 1)) ∧
  (∀ (s : State) n bank errs, (s.die (stackDie (stackOf n))).stopped = false → inHbm (n * 32) = true →
    let k := raaKey (stackOf n) bank
    let u : State := { s with pkg := { s.pkg with raa := s.pkg.raa.set 0 k (raaAfter s.pkg.actlvl (s.pkg.raa.get 0 k)) } }
    Sys2Proof.Machine.exec (.hbmRequest n bank errs true) s = .next { u with badSect := u.badSect.filter fun x => decide (x ≠ n) } ∧
    Sys2Proof.Machine.exec (.hbmRequest n bank errs false) s = .next (u.checkSector n errs) ∧
    Sys2Proof.Machine.exec (.patrolScrub n errs) s = .next (s.checkSector n errs)) ∧
  (∀ (s : State) n, s.checkSector n 0 = s ∧ (∀ e, 1 ≤ e → e ≤ 2 → (s.checkSector n e).badSect = s.badSect ∧
      (s.checkSector n e).pkg.eccHbm.get 0 (stackOf n) = s.pkg.eccHbm.get 0 (stackOf n) + 1 ∧
      ((s.checkSector n e).die (stackDie (stackOf n))).ecc.get 0 dieTotal = (s.die (stackDie (stackOf n))).ecc.get 0 dieTotal + 1) ∧
    ∀ e, 2 < e →
      (s.picks.headD 0 = 0 → n ∈ (s.checkSector n e).badSect ∧ (s.checkSector n e).mem = s.mem) ∧
      (s.picks.headD 0 ≠ 0 → (s.checkSector n e).badSect = s.badSect ∧ (s.checkSector n e).frees = s.frees + 4 ∧
        (s.checkSector n e).mem = writeN s.mem (n * 32) 32
          (packNat 64 ((List.range 4).map fun k => (Config.freeWord (s.frees + k)).toNat)))) ∧
  (∀ (s : State) st bank, (s.die (stackDie st)).stopped = false → Sys2Proof.Machine.exec (.periodicRefresh st bank) s =
    .next { s with pkg := { s.pkg with
      raa := s.pkg.raa.set 0 (raaKey st bank) (s.pkg.raa.get 0 (raaKey st bank) - s.pkg.actlvl / 2) } }) ∧
  (∀ s : State, (s.die Config.infieldDie).stopped = false →
    (∀ n g cl, n < 2 ^ 44 →
      ((n ∈ s.badSect ∨ ∃ w ∈ s.badWords, w / 4 = n) → s.pkg.recovery = false →
        Sys2Proof.Machine.exec (.managerErrorHandling n g cl) s = .next (s.handleFrame (n / 128) g)) ∧
      (((n ∉ s.badSect ∧ ∀ w ∈ s.badWords, w / 4 ≠ n) ∨ s.pkg.recovery = true) →
        Sys2Proof.Machine.exec (.managerErrorHandling n g cl) s = .next s)) ∧
    (∀ n g cl, 2 ^ 44 ≤ n → Sys2Proof.Machine.exec (.managerErrorHandling n g cl) s =
      .next (({ s with picks := s.picks.tail } : State).arrayError n (s.picks.headD 0))) ∧
    (∃ u, Sys2Proof.Machine.exec .carveInterval s = .next u ∧ u.pkg.hits = [] ∧
      (u.pkg.carve = s.pkg.carve ∨ (u.pkg.carve = s.pkg.carve + 16 ∧ s.pkg.carve < s.upperSum ∧ u.pkg.growing = s.pkg.growing + 1) ∨
        (u.pkg.carve = s.pkg.carve - 16 ∧ s.lowerSum < s.pkg.carve ∧ s.topClear = true))) ∧
    Sys2Proof.Machine.exec .carveStepReady s =
      .next ({ s with pkg := { s.pkg with growing := s.pkg.growing - 1 } } : State).llcTrim ∧
    (s.pkg.recovery = false →
      (∀ j i c h, let t := s.tensor j i
        t.st = 1 → t.rerep = none → (∀ o ∈ t.ops, o.kind ≠ .widen) → t.plain = false → classOk t.tag t.caps (c % 16) = true →
        (s.job j).isSome →
        ({ s with picks := s.picks.tail } : State).placeTensor j t (c % 16) (formFor t.caps (c % 16) (c / 16)) (s.picks.headD 0) none =
          some h →
        ∃ u, Sys2Proof.Machine.exec (.reRepresentation j i c) s = .next u ∧ (u.tensor j i).hlast = t.hlast + 1 ∧ (u.tensor j i).st = 2 ∧
          (u.tensor j i).caps = t.caps ∧ (u.tensor j i).cells = t.cells ∧
          (u.tensor j i).rerep = some { tc := t.hlast + 1, add := 0, home := h, ready := false }) ∧
      ∀ j i, Sys2Proof.Machine.exec (.converterSnapshot j i) s = .next (s.modTensor j i Tensor.snapshot) ∧
        Sys2Proof.Machine.exec (.tensorEntryFree j i) s = .next (s.settleTensor j i) ∧
        Sys2Proof.Machine.exec (.reRepresentationPublish j i) s = .next (s.publishRerep j i)) ∧
    (s.pkg.recovery = true → ∀ j i c, ∀ k ∈ [Instr.reRepresentation j i c, .converterSnapshot j i, .tensorEntryFree j i,
      .reRepresentationPublish j i], Sys2Proof.Machine.exec k s = .next s) ∧
    (∀ j h r c p g, let t := s.tensor j (h / 65536)
      s.liveTensor j h = some t → t.tag = gradeTag g → t.caps.testBit capStash = true → t.rows = r → t.cols = c → t.pages = p →
      t.rerep = none →
      Sys2Proof.Machine.exec (.peerStashRequest j h r c p g none) s =
        .next (s.modTensor j (h / 65536) fun t => { t with hlast := max 0 (t.hlast + 1) })) ∧
    (∀ j h r c p g d, s.liveTensor j h = none → Sys2Proof.Machine.exec (.peerStashRequest j h r c p g d) s = .next s)) ∧
  (∀ (s : State) f g, ((s.tensorAt (f * 4096)).isSome ∨ ∀ e, s.mappedAt (f * 4096) = some e → s.changing e.1 = false) →
    f ∈ (s.handleFrame f g).retired) ∧
  (∀ (s : State) f g e, s.tensorAt (f * 4096) = none → s.mappedAt (f * 4096) = some e → s.changing e.1 = true → s.handleFrame f g = s) ∧
  (∀ (s : State) c w x, c < 1024 → w < 2 ^ 20 →
    ((s.arrayError (1 * 2 ^ 44 + c * 2 ^ 20 + w) x).core c).poison.get false w = true) ∧
  (∀ (s : State) d a x, d < 2 ^ 20 → a < 2 ^ 20 →
    ((s.arrayError (4 * 2 ^ 44 + d * 2 ^ 20 + a) x).die d).ecc.get 0 a = (s.die d).ecc.get 0 a + 1) ∧
  (∀ (t : Tensor) r, t.rerep = some r → r.ready = true → t.publishRerep.hlast = t.hlast + 1 ∧
    t.publishRerep.cls = r.home.cls ∧ t.publishRerep.frames = r.home.frames ∧ t.publishRerep.cells = t.cells ∧
    ((∀ o ∈ t.ops, o.kind = .widen → o.stamp = r.tc) → t.publishRerep.rerep = none ∧ t.publishRerep.caps = t.caps ∧
      ∀ o ∈ t.publishRerep.ops, o.parked = false) ∧
    ∀ o ∈ t.ops, o.kind = .reader → o.parked = false →
      ∃ q ∈ t.publishRerep.olds, o.stamp ∈ q.users ∧ q.frames = t.ownFrames) ∧
  (∀ (t : Tensor), (∀ r, t.rerep = some r → r.ready = false) → t.publishRerep = t) ∧
  (∀ (s : State) t rank same data c, (s.die (runDie t)).stopped = false →
    s.colls.find? (fun c => decide (c.tid = t) && !c.heard rank) = some c →
    (same = false → Sys2Proof.Machine.exec (.collPeerData t rank same data) s = .next (s.failGroup c 5)) ∧
    (same = true → (c.size ≤ rank ∨ rank = c.rank) → Sys2Proof.Machine.exec (.collPeerData t rank same data) s = .next s) ∧
    (same = true → rank < c.size → rank ≠ c.rank → c.near rank = true →
      ((∀ q ∈ s.matesOf c, q.rank = rank → q.heard rank = false) →
        Sys2Proof.Machine.exec (.collPeerData t rank same data) s = .next s) ∧
      ∀ q, (s.matesOf c).find? (fun q => decide (q.rank = rank) && q.heard rank) = some q →
        Sys2Proof.Machine.exec (.collPeerData t rank same data) s =
          .next ((s.setColl c (some (c.hear [(rank, q.dataOf rank)]))).stepColls [c])) ∧
    (same = true → rank < c.size → rank ≠ c.rank → c.near rank = false →
      let d := data.foldl (fun (m : SMap Nat) e => m.set 0 e.1 e.2) []
      Sys2Proof.Machine.exec (.collPeerData t rank same data) s =
        .next (({ s with colls := s.colls.map fun q => if c.mate q then q.hear [(rank, d)] else q } : State).stepColls (s.matesOf c)))) ∧
  (∀ (s : State) c b id k, (s.die (c / 128)).stopped = false → s.copyAt c b id = some k →
    (∀ o u, s.choose k.coming = (some o, u) → Sys2Proof.Machine.exec (.chunkVisible c b id) s =
      .next (({ u with picks := u.picks.tail } : State).landChunk k o (u.picks.headD 0))) ∧
    (∀ o u, s.choose (k.marks 52) = (some o, u) → Sys2Proof.Machine.exec (.chunkAck c b id) s = .next (u.ackChunk k o)) ∧
    (k.complete = true → Sys2Proof.Machine.exec (.copyDone c b id) s = .next (s.finishCopy k)) ∧
    (k.complete = false → Sys2Proof.Machine.exec (.copyDone c b id) s = .next s) ∧
    (∀ n, (k.complete = true ∨ k.over = true) → Sys2Proof.Machine.exec (.copyStop c b id n) s = .next s) ∧
    (∀ n, k.complete = false → k.over = false → (n = 2 ∨ n = 3 ∨ n = 4) → Sys2Proof.Machine.exec (.copyStop c b id n) s = .next (s.stopCopy k n))) ∧
  (∀ (s : State) (k : Copy) n, let u := s.stopCopy k n
    (u.slot k.tid).fails = (s.slot k.tid).fails ++ [(k.id, n)] ∧ k.id ∉ (u.bank k.core k.bank).pending ∧
    (k.isTile = false → (u.slot k.tid).regs = (s.slot k.tid).regs) ∧
    ∀ c, k.sc = some c → (s.ctr k.core k.bank c).err = 0 → (u.ctr k.core k.bank c).err = n) ∧
  (∀ (s : State) (k : Copy), let u := s.finishCopy k
    k.id ∉ (u.bank k.core k.bank).pending ∧ (u.slot k.tid).fails = (s.slot k.tid).fails ∧
    ((k.kind = 2 ∨ k.kind = 3) → s.prompt = false → ∀ o ∈ (u.tensor k.job (k.handle / 65536)).ops, o.stamp ≠ k.stamp)) ∧
  (∀ (s : State) c, (s.die (c / 128)).stopped = false →
    let u : State := { s with picks := s.picks.tail }
    (s.picks.headD 0 = 0 → ∀ t, u.sendNext c = some t → Sys2Proof.Machine.exec (.copyChunk c) s = .next t) ∧
    ((s.picks.headD 0 ≠ 0 ∨ u.sendNext c = none) → Sys2Proof.Machine.exec (.copyChunk c) s = .next ((u.serveNext c).getD u))) ∧
  (∀ head b d n t, d.get 0 (b + 4) < 4 → d.get 0 (b + 5) = 0 → (head (d.get 0 (b + 4)) : Head) = some (some (n, t)) →
    n ≤ d.get 0 (b + d.get 0 (b + 4)) + quantum (d.get 0 (b + 4)) → ∃ e, drr head b 16 d = (e, some t) ∧
      e.get 0 (b + d.get 0 (b + 4)) = d.get 0 (b + d.get 0 (b + 4)) + quantum (d.get 0 (b + 4)) - n)

/-- Jobs and their levels of work (R49, R51, R131, R158-R171, R235-R238, R365-R368, R375-R393): what each step of the device does on a die
that has its clocks, and that it does nothing where its condition fails.
The model's own readings and choices that it rests on, with their log entries (notes/assumptions): counts of stopped levels (24),
tables and records (25), stamps of levels (26), placement (27), pre-emption (29), where a rebase and an assignment are done (30),
the loader (31), NOTIFY (32). -/
def Obligations.WorkSteps : Prop :=
  (∀ s : State, (s.die Config.infieldDie).stopped = false →
    (∀ id l c, s.launchAt id = some l →
      (∀ n i, l.st = 2 → l.lvl.status = none → s.startable l c n i = true →
        let m : Msg := { src := none, core := c, bank := 0, port := 0, words := startWords l n i, stamp := l.minPts }
        Sys2Proof.Machine.exec (.assignStart c id n i) s = .next (if s.hasRoom m then (s.deliver m).modLaunch (idJob id) id fun l =>
          { l with list := l.list.map fun u => if i ≤ u.idx ∧ u.idx < i + n then { u with st := 1, core := c } else u } else s)) ∧
      (l.lvl.status.isSome = true → (∃ u ∈ l.list, u.core = c ∧ u.far = false) →
        let m : Msg := { src := none, core := c, bank := 0, port := 0, words := [2, id], stamp := l.minPts }
        Sys2Proof.Machine.exec (.assignCancel c id) s = .next (if s.hasRoom m then s.deliver m else s)) ∧
      (l.unplaced = true → l.st = 1 →
        (s.eligible (idJob id) l = [] → Sys2Proof.Machine.exec (.launchPlacement id) s =
          .next (s.modLaunch (idJob id) id fun l => { l with st := 4, lvl := l.lvl.stopWith 6 })) ∧
        (s.eligible (idJob id) l ≠ [] → (s.overtakes l = true ∨ s.fits l (s.eligible (idJob id) l) = false) →
          Sys2Proof.Machine.exec (.launchPlacement id) s = .next s) ∧
        (s.eligible (idJob id) l ≠ [] → s.overtakes l = false → s.fits l (s.eligible (idJob id) l) = true →
          let t := (s.die Config.infieldDie).time
          Sys2Proof.Machine.exec (.launchPlacement id) s = .next ((s.modLaunch (idJob id) id fun l =>
            { l with st := 2, placed := s.nextPlaced, list := unitsOf l (s.eligible (idJob id) l), lvl := l.lvl.start t }).modJob
              (idJob id) fun x => x.begin t))) ∧
      (∀ u, l.st = 2 → l.lvl.status = none → (s.slot (tidOf c 16)).st = .free → s.farNext l c = some u →
        Sys2Proof.Machine.exec (.farUnitPlace id c) s = .next ((s.setSlot (tidOf c 16) (farUnit l u.idx)).modLaunch (idJob id) id fun l =>
          { l with list := l.list.map fun q => if q.idx = u.idx then { q with st := 1, core := c } else q })) ∧
      (∀ x, s.job (idJob id) = some x → l.st = 2 → l.lvl.status = none → (s.yielding x id = true ∨ s.mustYield l = true) →
        Sys2Proof.Machine.exec (.preemption id) s = .next (s.preempt (idJob id) id)) ∧
      (l.st = 3 → l.unplaced = true → s.overtakes l = false →
        Sys2Proof.Machine.exec (.launchRestore id) s = .next ((s.restore (idJob id) l).getD s))) ∧
    (∀ id c n i, s.launchAt id = none → ∀ k ∈ [Instr.assignStart c id n i, .assignCancel c id, .launchPlacement id,
      .farUnitPlace id c, .preemption id, .launchRestore id], Sys2Proof.Machine.exec k s = .next s) ∧
    (∀ j, s.job j = none → ∀ k ∈ [Instr.phaseStart j, .graphStart j, .rebase j], Sys2Proof.Machine.exec k s = .next s) ∧
    (∀ j x, s.job j = some x →
      ((x.phase.isSome = true ∨ x.lvl.status.isSome = true ∨ x.nPhases ≤ x.lvl.counted) →
        Sys2Proof.Machine.exec (.phaseStart j) s = .next s) ∧
      (x.phase = none → x.lvl.status = none → x.lvl.counted < x.nPhases →
        (s.tabEntry j x.phaseTab x.lvl.counted 65535 x.lvl.pts = none →
          Sys2Proof.Machine.exec (.phaseStart j) s = .next (s.killTable j 3 (jobIdOf j))) ∧
        (∀ u t e, s.tabEntry j x.phaseTab x.lvl.counted 65535 x.lvl.pts = some (u, t, e) →
          Sys2Proof.Machine.exec (.phaseStart j) s = .next ((u.modJob j fun y =>
            { y with phase := some (startGrp x.lvl.counted e y.again t), again := 0, graph := none }).takeEarly j 2
              (phaseIdOf j x.lvl.counted)))) ∧
      (∀ ph, x.phase = some ph → x.graph = none → ph.lvl.status = none → ph.lvl.counted < ph.n →
        (s.tabEntry j ph.tab ph.lvl.counted 4096 ph.lvl.pts = none →
          Sys2Proof.Machine.exec (.graphStart j) s = .next (s.killTable j 2 (phaseIdOf j ph.idx))) ∧
        (∀ u t e, s.tabEntry j ph.tab ph.lvl.counted 4096 ph.lvl.pts = some (u, t, e) →
          let v := u.modJob j fun y =>
            { y with graph := some (startGrp ph.lvl.counted e ph.again t), phase := y.phase.map fun q => { q with again := 0 } }
          let id := graphIdOf j ph.idx ph.lvl.counted
          Sys2Proof.Machine.exec (.graphStart j) s = .next (if x.early.contains id then (v.unopened j).takeEarly j 1 id
            else v.openGraph j ph.idx ph.lvl.counted e t)))) ∧
    (∀ id x l, s.job (idJob id) = some x → s.recordDue x (idJob id) (idKind id) id = some l →
      s.aliasBusy (idJob id) l.record 64 = false →
      ∀ u t, s.writeRecord (idJob id) id l l.final = (u, t, none) → idKind id < 3 →
      let v := u.modJob (idJob id) fun y => y.over (idKind id) id t
      Sys2Proof.Machine.exec (.completionRecordWrite id) s =
        .next (v.toParent (idJob id) (idKind id) id l l.final l.fcause l.ftid t)) ∧
    (∀ id x l, s.job (idJob id) = some x → s.recordDue x (idJob id) 3 id = some l → idKind id = 3 →
      s.aliasBusy (idJob id) l.record 64 = false →
      ∀ u t, s.writeRecord (idJob id) id l l.final = (u, t, none) →
      Sys2Proof.Machine.exec (.completionRecordWrite id) s =
        .next ((u.modJob (idJob id) fun y => y.over 3 id t).endJob (idJob id) true)) ∧
    (∀ id x l, s.job (idJob id) = some x → s.recordDue x (idJob id) (idKind id) id = some l →
      s.aliasBusy (idJob id) l.record 64 = true → Sys2Proof.Machine.exec (.completionRecordWrite id) s = .next s) ∧
    (∀ id x, s.job (idJob id) = some x → s.recordDue x (idJob id) (idKind id) id = none →
      Sys2Proof.Machine.exec (.completionRecordWrite id) s = .next s) ∧
    (∀ id x l, s.job (idJob id) = some x → idKind id = 0 → x.lvlOf 0 id = some l → l.status.isSome = true → l.acked = false →
      l.written = false → let u := s.cancelUnits (idJob id) 0 id
      Sys2Proof.Machine.exec (.killAck id) s = .next (if u.levelGone (idJob id) 0 id then u.ack (idJob id) 0 id else u)) ∧
    (∀ j x, s.job j = some x → (x.rebasing = false ∨ s.atBoundary j = false) → Sys2Proof.Machine.exec (.rebase j) s = .next s) ∧
    (∀ j x, s.job j = some x → x.rebasing = true → s.atBoundary j = true →
      ∃ u : State, Sys2Proof.Machine.exec (.rebase j) s = .next u ∧ u.job j = some x.rebased ∧ x.rebased.rebasing = false ∧
        (∀ t, s.jobOf t = j → (u.slot t).pts = 0 ∧ (u.slot t).regs = (s.slot t).regs ∧ (u.slot t).pc = (s.slot t).pc)) ∧
    (s.pkg.recovery = false → ∀ j x im n b st, s.job j = some x →
      (∀ u hs, s.load j x.root b { x := readN s.mem im n, len := n } = .ok (u, hs) →
        Sys2Proof.Machine.exec (.loaderLoad j im n b st) s = .next (u.loadStatus st (loadStop 0))) ∧
      (∀ e u hs, s.load j x.root b { x := readN s.mem im n, len := n } = .error (e, u, hs) →
        Sys2Proof.Machine.exec (.loaderLoad j im n b st) s = .next ((s.undoLoad u j hs).loadStatus st e))) ∧
    (s.pkg.recovery = true → ∀ j im n b st f x, ∀ k ∈ [Instr.loaderLoad j im n b st, .jobnotify x, .intakeReread f],
      Sys2Proof.Machine.exec k s = .next s) ∧
    (s.pkg.recovery = false → ∀ x, let f := x.toNat % 16
      let seq := x.toNat / 2 ^ 32
      (x.toNat / 16 % 2 ^ 28 ≠ 0 → Sys2Proof.Machine.exec (.jobnotify x) s = .next s) ∧
      (x.toNat / 16 % 2 ^ 28 = 0 → s.pkg.featDone = false →
        Sys2Proof.Machine.exec (.jobnotify x) s = .next (s.intakeStatus f seq 0 4)) ∧
      (x.toNat / 16 % 2 ^ 28 = 0 → s.pkg.featDone = true →
        let u : State := { s with pkg := { s.pkg with notifies := s.pkg.notifies ++ [{ frame := f, seq := seq, tries := 0 }] } }
        Sys2Proof.Machine.exec (.jobnotify x) s =
          .next (if s.pkg.notifies.all (fun n => decide (n.frame ≠ f)) then u.intakeFrame f else u))) ∧
    (s.pkg.recovery = false → ∀ f, Sys2Proof.Machine.exec (.intakeReread f) s =
      .next (if s.pkg.notifies.any (fun n => decide (n.frame = f)) then s.intakeFrame f else s))) ∧
  (∀ (s : State) j id l, j = idJob id → s.launchAt id = some l → l.st = 2 → ∀ l', (s.preempt j id).launchAt id = some l' → l'.st = 3 →
    (s.preempt j id).threadsOf j id = []) ∧
  (∀ (s : State) j t u, (s.job j).isSome = true →
    s.storeFor j (s.saveArea j + 8192 * saveNo t) (saveBytes (s.slot t) t
      (if isLocal t then s.accMask (s.slot t) j (clusterOf (coreOf t)) else 0) (clusterOf (coreOf t))) (s.slot t).pts 32 = (u, none) →
    (s.saveThread j t).slot t = Slot.dflt ∧ ∃ x, (s.saveThread j t).job j = some x ∧ t ∉ x.stopping ∧
      ∃ v ∈ x.saved, v.k = saveNo t ∧ v.tid = t ∧ v.launch = (s.slot t).sp.launchid ∧ v.total = (s.slot t).total) ∧
  (∀ (x : Slot) t mask cl j v same, mask < 2 ^ 16 → cl < 1024 →
    let y := savedSlot (saveBytes x t mask cl) j v same
    y.st = .held ∧ y.pc = x.pc ∧ y.pts = x.pts % 2 ^ 48 ∧ y.wmask = x.carried ∧ y.span = .open_ ∧ y.total = v.total ∧
    y.sp = { x.sp with lnksel := 0, progidx := BitVec.ofNat 64 (x.sp.progidx.toNat % 2 ^ 32) } ∧
    (∀ n, n < 32 → y.regs.readG n = x.regs.readG n) ∧ (∀ n, n < 16 → y.regs.readV n = x.regs.readV n) ∧
    ∀ n, n < 8 → y.regs.readK n = x.regs.readK n) ∧
  (∀ (s : State) j l v x u, savedAccs x = [] → s.placeSaved j l [(v, x)] = some u →
    ∃ c n, c ∈ s.homesOf j l [(v, x)] ∧ n ∈ s.slotsFor [(v, x)] c ∧ (s.slot (tidOf c n)).st = .free ∧
      u.slot (tidOf c n) = savedSlot x j v (decide (coreOf v.tid = c)) ∧ ∀ t, t ≠ tidOf c n → u.slot t = s.slot t) ∧
  (∀ (s : State) j l v x, savedAccs x = [] → (∃ c ∈ s.homesOf j l [(v, x)], s.slotsFor [(v, x)] c ≠ []) →
    (s.placeSaved j l [(v, x)]).isSome = true) ∧
  (∀ (s : State) j l x r u, s.job j = some x → j = idJob l.id → s.savedOf j (x.saved.filter fun v => decide (v.launch = l.id)) = some r →
    s.restore j l = some u → (∀ y, u.job j = some y → ∀ v ∈ y.saved, v.launch ≠ l.id) ∧ ∀ l', u.launchAt l.id = some l' → l'.st = 2) ∧
  (∀ (s : State) t, (s.die (runDie t)).stopped = false → Sys2Proof.Machine.exec (.farUnitRetire t) s =
    .next (if isFar t = true ∧ (s.slot t).st = .ended then s.reapSlot t else s)) ∧
  (∀ (s : State) k j, (s.die (k / 32)).stopped = false →
    ((256 ≤ k ∨ (s.cluster k).harvested = true ∨ (s.cluster k).job = some j ∨ s.job j = none ∨ s.clusterIdle k = false) →
      Sys2Proof.Machine.exec (.clusterAssignment k j) s = .next s) ∧
    (k < 256 → (s.cluster k).harvested = false → (s.cluster k).job ≠ some j → (s.job j).isSome = true → s.clusterIdle k = true →
      ∃ u : State, Sys2Proof.Machine.exec (.clusterAssignment k j) s = .next u ∧ (u.cluster k).job = some j ∧
        (∀ n, (u.cluster k).acc.get Acc.dflt n = Acc.dflt) ∧
        ∀ p, p < 4 → (∀ a, u.padByte (coreAt k p) a = 0) ∧ (u.slot (tidOf (coreAt k p) 0)).fails = [] ∧ ∀ n, (u.hb (coreAt k p) n).word = 0 ∧ (u.core (coreAt k p)).vw.get 0 n = 0))

/-- The host link, features, freeze, reset, links, time and the governor (R101, R134, R139, R397-R409, R420): what each step of the device
does on a die that has its clocks; a cold reset also restarts a die whose clocks a freeze has stopped.
The model's own readings and choices that it rests on, with their log entries (notes/assumptions): TIME (7), lanes (23), registers
of the host (32), the report (33), what a reset keeps (35), inputs from outside (57), frames (71), the governor's tick (72). -/
def Obligations.HostAndLinkSteps : Prop :=
  (∀ s : State, (s.die Config.infieldDie).stopped = false →
    (∀ pa n, Sys2Proof.Machine.exec (.hostRead pa n) s = .next ((linesOf pa n).foldl (fun s a =>
      if inHbm a then s.setPair a { s.pairOf a with scope := 0, who := 0, rts := max (s.pairOf a).rts (s.pairOf a).wts } else s) s)) ∧
    (∀ pa n x, Sys2Proof.Machine.exec (.hostWrite pa n x) s = .next ((linesOf pa n).foldl (fun s a =>
      let lo := max pa a
      let hi := min (pa + n) (a + 256)
      if inHbm a then (s.storeAt lo (hi - lo) (fieldN x (8 * (lo - pa)) (8 * (hi - lo))) 0 0 0).1 else s) s)) ∧
    (∀ off x, ∃ u, Sys2Proof.Machine.exec (.hostRegisterWrite off x) s = .next u ∧
      (off = 0x8 → u.pkg.hwbase = x &&& 0xFFFFC00000000000) ∧
      (off = 0x3100 → u.pkg.budget = if 1000 ≤ x.toNat ∧ x.toNat ≤ 3600 then x.toNat else s.pkg.budget) ∧
      (off = 0x3400 → u.pkg.lnkcsel = if linkOk x then x else s.pkg.lnkcsel) ∧
      (0x1000 ≤ off → off + 8 ≤ 0x2000 → u.pkg.frames = writeN s.pkg.frames (off - 0x1000) 8 x.toNat) ∧
      (off ≠ 0x8 → u.pkg.hwbase = s.pkg.hwbase) ∧ (off ≠ 0x3100 → u.pkg.budget = s.pkg.budget) ∧
      u.pkg.featsel = s.pkg.featsel ∧ u.mem = s.mem ∧ u.slots = s.slots) ∧
    (∀ x, Sys2Proof.Machine.exec (.featselWrite x) s = .next (if s.pkg.featDone then s else
      { s with pkg := { s.pkg with featsel := x.toNat &&& 0x3F, featDone := true } })) ∧
    (∀ x, Sys2Proof.Machine.exec (.actlvlhWrite x) s = .next (if 16 ≤ x.toNat ∧ x.toNat ≤ 128 then
      { s with pkg := { s.pkg with actlvl := x.toNat } } else s)) ∧
    (∀ x, let v := s.pkg.lnkcsel.toNat
      Sys2Proof.Machine.exec (.lnkcthrWrite x) s =
        .next { s with links := s.links.set Link.dflt v { s.link v with thr := x.toNat % 2 ^ 32 } }) ∧
    (∀ x, Sys2Proof.Machine.exec (.portmodeWrite x) s =
      .next { s with pkg := { s.pkg with portReq := if s.pkg.featsel.testBit 3 then x.toNat else 0 } }) ∧
    (∀ x, x ≠ 1 → Sys2Proof.Machine.exec (.attestationRequest x) s =
      .next { s with pkg := { s.pkg with mailbox := writeN s.pkg.mailbox 0x40 8 x.toNat } }) ∧
    (∃ u, Sys2Proof.Machine.exec (.attestationRequest 1) s = .next u ∧ readN u.pkg.mailbox 0x40 8 = 2 ∧
      ∀ i, i < (s.reportText).length → u.pkg.mailbox.get 0 (0x80 + i) = (s.reportText).getD i 0) ∧
    (∀ x, x ≠ 0x46525A21 → Sys2Proof.Machine.exec (.freeze x) s = .next s) ∧
    (∃ u : State, Sys2Proof.Machine.exec (.freeze 0x46525A21) s = .next u ∧ (∀ d, d < Config.dieCount → (u.die d).token = true) ∧
      (∀ d, (u.die d).stopped = (s.die d).stopped) ∧ u.mem = s.mem ∧ u.slots = s.slots) ∧
    (∃ u : State, Sys2Proof.Machine.exec .warmReset s = .next u ∧ u.pkg.featDone = false ∧ u.pkg.featsel = 0 ∧
      (∀ d, (u.die d).box = (s.die d).box ∧ (u.die d).boxSeq = (s.die d).boxSeq) ∧ (∀ t, u.slot t = Slot.dflt) ∧
      (∀ j, u.job j = none)) ∧
    (∀ us, ∃ u : State, Sys2Proof.Machine.exec (.disciplineLost us) s = .next u ∧
      (s.pkg.timeSrc = 0 → u = s) ∧ (s.pkg.timeSrc ≠ 0 → u.pkg.timeSrc = 3 ∧
        ∀ d, d < Config.dieCount → (u.die d).timeErr = min 0xFFFFFFFF ((s.die d).timeErr + us) ∧ (u.die d).time = (s.die d).time)) ∧
    (∀ p b, ∃ u : State, Sys2Proof.Machine.exec (.governorTick p b) s = .next u ∧ u.pkg.power = p ∧
      u.pkg.limit = decide (s.pkg.budget < p) ∧ u.pkg.near = (s.nearRuns || b) ∧
      u.pkg.mdiv = nextDivider s.pkg.mdiv p s.pkg.budget (if s.nearRuns || b then 4 else 0) ∧ u.mem = s.mem ∧ u.slots = s.slots)) ∧
  (∀ (s : State) p, (s.die (Config.opticalDie0 + p / 16)).stopped = false →
    ((64 ≤ p ∨ ∃ g ∈ portGroups p, (s.link g).unacked ≠ 0) → Sys2Proof.Machine.exec (.portmodeApply p) s = .next s) ∧
    (p < 64 → (∀ g ∈ portGroups p, (s.link g).unacked = 0) →
      ∃ u : State, Sys2Proof.Machine.exec (.portmodeApply p) s = .next u ∧
        (∀ g ∈ portGroups p, (u.link g).long = s.pkg.portReq.testBit p) ∧ u.pkg.portMode.testBit p = s.pkg.portReq.testBit p)) ∧
  (∀ (s : State) d, (s.die d).stopped = false →
    ((s.die d).token = false → Sys2Proof.Machine.exec (.freezeToken d) s = .next s) ∧
    ((s.die d).token = true → ∃ u : State, Sys2Proof.Machine.exec (.freezeToken d) s = .next u ∧ (u.die d).stopped = true ∧
      (u.die d).token = false ∧ (∀ k, k ≠ d → (u.die k).stopped = (s.die k).stopped) ∧ u.mem = s.mem ∧ u.slots = s.slots)) ∧
  (∀ (s : State) good, Sys2Proof.Machine.exec (.coldReset good) s = .next (s.restart good) ∧ (∀ d, ((s.restart good).die d).stopped = false) ∧
    (∀ t, (s.restart good).slot t = Slot.dflt) ∧ (s.restart good).pkg.recovery = !good ∧
    ∀ k, ((s.restart good).cluster k).job = none) ∧
  (∀ (s : State) v, (s.die (linkDie v)).stopped = false →
    ((s.link v).down = true → ∀ q b c, Sys2Proof.Machine.exec (.frameReceive v q b c) s = .next s) ∧
    (∀ q, (s.link v).mayCome v q = false → ∀ b c, Sys2Proof.Machine.exec (.frameReceive v q b c) s = .next s) ∧
    ((s.link v).down = false → linkExt v = false → let q := (s.link v).seq
      (s.link v).mayCome v q = true →
      (∃ u : State, Sys2Proof.Machine.exec (.frameReceive v q false []) s = .next u ∧
        (u.link v).seq = (q + 1) % 2 ^ 32 ∧ (u.link v).fails = 0 ∧ (u.link v).frames = (s.link v).frames + 1) ∧
      ((s.link v).fails + 1 < 16 → ∃ u : State, Sys2Proof.Machine.exec (.frameReceive v q true []) s = .next u ∧
        (u.link v).fails = (s.link v).fails + 1 ∧ (u.link v).seq = q ∧ (u.link v).down = false) ∧
      (16 ≤ (s.link v).fails + 1 → ∃ u : State, Sys2Proof.Machine.exec (.frameReceive v q true []) s = .next u ∧
        (u.link v).down = true) ∧
      ∀ q' b, q' ≠ q → (s.link v).mayCome v q' = true → ∃ u : State, Sys2Proof.Machine.exec (.frameReceive v q' b []) s = .next u ∧
        (u.link v).seq = q ∧ (u.link v).fails = (s.link v).fails ∧ (u.link v).frames = (s.link v).frames + 1) ∧
    ((s.link v).down = false → linkExt v = true → let q := (s.link v).seq
      (s.link v).frames < 65536 → ∃ u : State, Sys2Proof.Machine.exec (.frameReceive v q false []) s = .next u ∧
        (u.link v).seq = (q + 1) % 2 ^ 64 ∧ (u.link v).fails = 0 ∧ u.picks = s.picks.drop 3 ∧
        ((u.link v).unacked ≤ (s.link v).unacked + 1)) ∧
    ((s.link v).frames < 65536 → Sys2Proof.Machine.exec (.windowClose v) s = .next s) ∧
    (65536 ≤ (s.link v).frames → Sys2Proof.Machine.exec (.windowClose v) s =
      .next (s.modLink v fun l => { l.retrainOver with win := [], frames := 0 })) ∧
    (∀ w, w < 8 → (s.link v).training.contains w = true → (s.link v).active.testBit w = true →
      ∃ u : State, Sys2Proof.Machine.exec (.laneMapMarker v w false) s = .next u ∧ (u.link v).active = (s.link v).active ^^^ 2 ^ w ∧
        (u.link v).down = ((s.link v).down || decide (ones8 ((s.link v).active ^^^ 2 ^ w) < 6))) ∧
    (∀ w, w < 8 → (s.link v).training.contains (backKey w) = true →
      ∃ u : State, Sys2Proof.Machine.exec (.laneMapMarker v w true) s = .next u ∧ (u.link v).active = (s.link v).active ||| 2 ^ w ∧
        (u.link v).retr = ((s.link v).retr + 1) % 2 ^ 32) ∧
    (∀ w, 8 ≤ w → ∀ x, Sys2Proof.Machine.exec (.laneMapMarker v w x) s = .next s ∧
      Sys2Proof.Machine.exec (.retrainComplete v w x) s = .next s) ∧
    (∀ w, w < 8 → (s.link v).training.contains w = true → (s.link v).active.testBit w = false →
      Sys2Proof.Machine.exec (.retrainComplete v w true) s =
        .next (s.modLink v fun l => { l with training := l.training.map fun x => if x = w then backKey w else x }) ∧
      ((s.link v).tries.get 0 w < 2 → Sys2Proof.Machine.exec (.retrainComplete v w false) s =
        .next (s.modLink v fun l => { l with tries := l.tries.set 0 w (l.tries.get 0 w + 1) })) ∧
      (2 ≤ (s.link v).tries.get 0 w → ∃ u : State, Sys2Proof.Machine.exec (.retrainComplete v w false) s = .next u ∧
        w ∈ (u.link v).out)) ∧
    (∀ r, Sys2Proof.Machine.exec (.rateAdvertisement v r) s =
      .next (if linkExt v = true ∧ (s.link v).long = true then s.modLink v fun l => { l with rate := some r } else s)) ∧
    Sys2Proof.Machine.exec (.keyExchange v) s =
      .next (if s.crypted v then s.modLink v fun l => { l with epoch := (l.epoch + 1) % 2 ^ 32, keyed := 0 } else s)) ∧
  (∀ (s : State) src bound tai d, (s.die Config.infieldDie).stopped = false →
    ((src = 1 ∨ (src = 2 ∧ s.pkg.featsel.testBit 5 = true)) →
      ∃ u : State, Sys2Proof.Machine.exec (.timeDiscipline src bound tai d) s = .next u ∧ u.pkg.master = max s.pkg.master tai ∧
        u.pkg.timeSrc = src ∧ ∀ k, k < Config.dieCount → (s.die k).time ≤ (u.die k).time ∧
          (u.die k).time ≤ max (s.die k).time (max s.pkg.master tai + 2) ∧ max s.pkg.master tai - 2 ≤ (u.die k).time ∧
          (k ≠ d → (u.die k).time = max (s.die k).time (max s.pkg.master tai)) ∧
          (u.die k).timeErr = min 0xFFFFFFFF (25000 + (if src = 1 then bound else 0))) ∧
    (src ≠ 1 → (src ≠ 2 ∨ s.pkg.featsel.testBit 5 = false) → Sys2Proof.Machine.exec (.timeDiscipline src bound tai d) s = .next s)) ∧
  (∀ (s : State) v, (s.link v).down = false → ((s.linkDown v).link v).down = true ∧ ((s.linkDown v).link v).unacked = 0) ∧
  (∀ (s : State) v, (s.link v).down = true → s.linkDown v = s)
end

