-- ==== Sys2Proof/Laws/SMap.lean ====
section
/-! SUPPORT. Sparse maps: reading after a write, and that every operation keeps the canonical form. -/
namespace Sys2Proof.Machine

variable {α : Type}

/-! ## Reading after a write -/

theorem SMap.get_put_self (d : α) (m : SMap α) (i : Nat) (x : α) : SMap.get d (SMap.put m i x) i = x := by
  induction m with
  | nil => simp [SMap.put, SMap.get]
  | cons e m ih =>
    obtain ⟨k, v⟩ := e
    simp only [SMap.put]
    split
    · simp [SMap.get]
    · split
      · simp [SMap.get]
      · simp [SMap.get, *]

theorem SMap.get_put_ne (d : α) (m : SMap α) {i j : Nat} (x : α) (h : j ≠ i) :
    SMap.get d (SMap.put m i x) j = SMap.get d m j := by
  induction m with
  | nil => simp [SMap.put, SMap.get, h]
  | cons e m ih =>
    obtain ⟨k, v⟩ := e
    simp only [SMap.put]
    split
    · simp [SMap.get, h]
    · split
      · subst_vars; simp [SMap.get, h]
      · simp [SMap.get, ih]

theorem SMap.get_erase_ne (d : α) (m : SMap α) {i j : Nat} (h : j ≠ i) :
    SMap.get d (SMap.erase m i) j = SMap.get d m j := by
  induction m with
  | nil => rfl
  | cons e m ih =>
    obtain ⟨k, v⟩ := e
    simp only [SMap.erase]
    split
    · subst_vars; simp [SMap.get, h, ih]
    · simp [SMap.get, ih]

/-- A write leaves every other key alone, whatever the map. -/
@[simp] theorem SMap.get_set_ne [DecidableEq α] (d : α) (m : SMap α) {i j : Nat} (x : α) (h : j ≠ i) :
    SMap.get d (SMap.set d m i x) j = SMap.get d m j := by
  unfold SMap.set
  split
  · exact SMap.get_erase_ne d m h
  · exact SMap.get_put_ne d m x h

/-- No key of the list at or above which it begins is listed below. -/
theorem SMap.get_absent (d : α) (m : SMap α) (i : Nat) (h : ∀ e ∈ m, e.1 ≠ i) : SMap.get d m i = d := by
  induction m with
  | nil => rfl
  | cons e m ih =>
    obtain ⟨k, v⟩ := e
    have hk : i ≠ k := fun he => h (k, v) (by simp) he.symm
    simp only [SMap.get, hk, if_false]
    exact ih fun e he => h e (by simp [he])

theorem SMap.get_erase_self (d : α) (m : SMap α) (i : Nat) : SMap.get d (SMap.erase m i) i = d := by
  induction m with
  | nil => rfl
  | cons e m ih =>
    obtain ⟨k, v⟩ := e
    simp only [SMap.erase]
    split
    · exact ih
    · simp only [SMap.get, *, if_false]

/-- A read of what was written, whatever the map. -/
@[simp] theorem SMap.get_set_self [DecidableEq α] (d : α) (m : SMap α) (i : Nat) (x : α) :
    SMap.get d (SMap.set d m i x) i = x := by
  unfold SMap.set
  split
  · next e => rw [e]; exact SMap.get_erase_self d m i
  · exact SMap.get_put_self d m i x

/-- A change of every value, as a lookup sees it. -/
theorem SMap.get_map (d : α) (m : SMap α) (f : Nat → α → α) (i : Nat) (hd : ∀ i, f i d = d) :
    SMap.get d (m.map fun e => (e.1, f e.1 e.2)) i = f i (SMap.get d m i) := by
  induction m with
  | nil => simp [SMap.get, hd]
  | cons e m ih =>
    obtain ⟨k, v⟩ := e
    simp only [List.map_cons, SMap.get]
    split
    · subst_vars; rfl
    · exact ih

/-! ## Rising keys -/

theorem SMap.rising_nil : SMap.rising ([] : SMap α) := List.Pairwise.nil

theorem SMap.mem_erase {m : SMap α} {i : Nat} {e : Nat × α} (h : e ∈ SMap.erase m i) : e ∈ m := by
  induction m with
  | nil => simp [SMap.erase] at h
  | cons a m ih =>
    obtain ⟨k, v⟩ := a
    simp only [SMap.erase] at h
    split at h
    · simp [ih h]
    · rcases List.mem_cons.1 h with h | h
      · simp [h]
      · simp [ih h]

theorem SMap.mem_put {m : SMap α} {i : Nat} {x : α} {e : Nat × α} (h : e ∈ SMap.put m i x) : e = (i, x) ∨ e ∈ m := by
  induction m with
  | nil => simpa [SMap.put] using h
  | cons a m ih =>
    obtain ⟨k, v⟩ := a
    simp only [SMap.put] at h
    split at h
    · simpa using h
    · split at h
      · rcases List.mem_cons.1 h with h | h
        · exact .inl h
        · simp [h]
      · rcases List.mem_cons.1 h with h | h
        · simp [h]
        · rcases ih h with h | h <;> simp [h]

theorem SMap.rising_cons {k : Nat} {v : α} {m : SMap α} :
    SMap.rising ((k, v) :: m) ↔ (∀ e ∈ m, k < e.1) ∧ SMap.rising m := by
  simp [SMap.rising, List.pairwise_cons]

theorem SMap.rising_erase {m : SMap α} (i : Nat) (h : SMap.rising m) : SMap.rising (SMap.erase m i) := by
  induction m with
  | nil => exact h
  | cons e m ih =>
    obtain ⟨k, v⟩ := e
    obtain ⟨hk, hm⟩ := SMap.rising_cons.1 h
    simp only [SMap.erase]
    split
    · exact ih hm
    · exact SMap.rising_cons.2 ⟨fun e he => hk e (SMap.mem_erase he), ih hm⟩

theorem SMap.rising_put {m : SMap α} (i : Nat) (x : α) (h : SMap.rising m) : SMap.rising (SMap.put m i x) := by
  induction m with
  | nil => simp [SMap.put, SMap.rising]
  | cons e m ih =>
    obtain ⟨k, v⟩ := e
    obtain ⟨hk, hm⟩ := SMap.rising_cons.1 h
    simp only [SMap.put]
    split
    · refine SMap.rising_cons.2 ⟨fun e he => ?_, h⟩
      rcases List.mem_cons.1 he with rfl | he
      · assumption
      · have := hk e he; omega
    · split
      · subst_vars; exact SMap.rising_cons.2 ⟨hk, hm⟩
      · refine SMap.rising_cons.2 ⟨fun e he => ?_, ih hm⟩
        rcases SMap.mem_put he with rfl | he
        · simp only; omega
        · exact hk e he

theorem SMap.rising_set [DecidableEq α] (d : α) {m : SMap α} (i : Nat) (x : α) (h : SMap.rising m) :
    SMap.rising (SMap.set d m i x) := by
  unfold SMap.set
  split
  · exact SMap.rising_erase i h
  · exact SMap.rising_put i x h

theorem SMap.rising_map {m : SMap α} (f : Nat × α → α) (h : SMap.rising m) :
    SMap.rising (m.map fun e => (e.1, f e)) := by
  simpa [SMap.rising, List.map_map, Function.comp_def] using h

theorem SMap.rising_filter {m : SMap α} (p : Nat × α → Bool) (h : SMap.rising m) : SMap.rising (m.filter p) :=
  List.Pairwise.sublist (List.Sublist.map _ List.filter_sublist) h

theorem SMap.rising_mapV [DecidableEq α] (d : α) (f : Nat → α → α) {m : SMap α} (h : SMap.rising m) :
    SMap.rising (SMap.mapV d f m) :=
  SMap.rising_filter _ (SMap.rising_map (fun e => f e.1 e.2) h)

/-! ## The canonical form -/

/-- Canonical: rising keys, and no value is the default. -/
theorem SMap.wf_iff [DecidableEq α] (d : α) (m : SMap α) :
    SMap.wf d m = true ↔ SMap.rising m ∧ ∀ e ∈ m, e.2 ≠ d := by
  suffices h : ∀ lo, SMap.wfFrom d lo m = true ↔
      ((∀ b, lo = some b → ∀ e ∈ m, b < e.1) ∧ SMap.rising m ∧ ∀ e ∈ m, e.2 ≠ d) by
    have := h none; simpa [SMap.wf] using this
  induction m with
  | nil => intro lo; simp [SMap.wfFrom, SMap.rising]
  | cons e m ih =>
    obtain ⟨k, v⟩ := e
    intro lo
    rw [SMap.rising_cons]
    simp only [SMap.wfFrom, Bool.and_eq_true, ih (some k), decide_eq_true_eq]
    constructor
    · rintro ⟨⟨h1, h2⟩, h3, h4, h5⟩
      have h3 := h3 k rfl
      refine ⟨?_, ⟨h3, h4⟩, ?_⟩
      · rintro b rfl e he
        have hb : b < k := by simpa using h1
        rcases List.mem_cons.1 he with rfl | he
        · exact hb
        · exact Nat.lt_trans hb (h3 e he)
      · intro e he
        rcases List.mem_cons.1 he with rfl | he
        · exact h2
        · exact h5 e he
    · rintro ⟨h1, ⟨h3, h4⟩, h5⟩
      refine ⟨⟨?_, h5 (k, v) (by simp)⟩, ?_, h4, fun e he => h5 e (by simp [he])⟩
      · cases lo with
        | none => rfl
        | some b => simpa using h1 b rfl (k, v) (by simp)
      · rintro b hb e he; cases hb; exact h3 e he

theorem SMap.wf_nil [DecidableEq α] (d : α) : SMap.wf d ([] : SMap α) = true := rfl

theorem SMap.wf_set [DecidableEq α] (d : α) {m : SMap α} (i : Nat) (x : α) (h : SMap.wf d m = true) :
    SMap.wf d (SMap.set d m i x) = true := by
  rw [SMap.wf_iff] at *
  refine ⟨SMap.rising_set d i x h.1, fun e he => ?_⟩
  unfold SMap.set at he
  split at he
  · exact h.2 e (SMap.mem_erase he)
  · rcases SMap.mem_put he with rfl | he
    · assumption
    · exact h.2 e he

theorem SMap.wf_filter [DecidableEq α] (d : α) {m : SMap α} (p : Nat × α → Bool) (h : SMap.wf d m = true) :
    SMap.wf d (m.filter p) = true := by
  rw [SMap.wf_iff] at *
  exact ⟨SMap.rising_filter p h.1, fun e he => h.2 e (List.mem_filter.1 he).1⟩

theorem SMap.wf_mapV [DecidableEq α] (d : α) (f : Nat → α → α) {m : SMap α} (h : SMap.wf d m = true) :
    SMap.wf d (SMap.mapV d f m) = true := by
  rw [SMap.wf_iff] at *
  exact ⟨SMap.rising_mapV d f h.1, fun e he => by simpa using (List.mem_filter.1 he).2⟩

end Sys2Proof.Machine
end

