-- ==== Sys2Proof/Laws/State.lean ====
section
/-! SUPPORT. What one update of State changes: one lemma for each field and each of the five updates, and for the updates
through a function. All hold by definition; no later proof unfolds a record update. -/
namespace Sys2Proof.Machine

/-! ## setSlot and modSlot -/

@[simp] theorem State.setSlot_agenda (s : State) (t : Nat) (x : Slot) : (s.setSlot t x).agenda = s.agenda := rfl
@[simp] theorem State.setSlot_active (s : State) (t : Nat) (x : Slot) : (s.setSlot t x).active = s.active := rfl
@[simp] theorem State.setSlot_cur (s : State) (t : Nat) (x : Slot) : (s.setSlot t x).cur = s.cur := rfl
@[simp] theorem State.setSlot_prompt (s : State) (t : Nat) (x : Slot) : (s.setSlot t x).prompt = s.prompt := rfl
@[simp] theorem State.setSlot_grant (s : State) (t : Nat) (x : Slot) : (s.setSlot t x).grant = s.grant := rfl
@[simp] theorem State.setSlot_broken (s : State) (t : Nat) (x : Slot) : (s.setSlot t x).broken = s.broken := rfl
@[simp] theorem State.setSlot_picks (s : State) (t : Nat) (x : Slot) : (s.setSlot t x).picks = s.picks := rfl
@[simp] theorem State.setSlot_frees (s : State) (t : Nat) (x : Slot) : (s.setSlot t x).frees = s.frees := rfl
@[simp] theorem State.setSlot_cores (s : State) (t : Nat) (x : Slot) : (s.setSlot t x).cores = s.cores := rfl
@[simp] theorem State.setSlot_clusters (s : State) (t : Nat) (x : Slot) : (s.setSlot t x).clusters = s.clusters := rfl
@[simp] theorem State.setSlot_dies (s : State) (t : Nat) (x : Slot) : (s.setSlot t x).dies = s.dies := rfl
@[simp] theorem State.setSlot_mem (s : State) (t : Nat) (x : Slot) : (s.setSlot t x).mem = s.mem := rfl
@[simp] theorem State.setSlot_hostMem (s : State) (t : Nat) (x : Slot) : (s.setSlot t x).hostMem = s.hostMem := rfl
@[simp] theorem State.setSlot_pairs (s : State) (t : Nat) (x : Slot) : (s.setSlot t x).pairs = s.pairs := rfl
@[simp] theorem State.setSlot_squares (s : State) (t : Nat) (x : Slot) : (s.setSlot t x).squares = s.squares := rfl
@[simp] theorem State.setSlot_llc (s : State) (t : Nat) (x : Slot) : (s.setSlot t x).llc = s.llc := rfl
@[simp] theorem State.setSlot_invals (s : State) (t : Nat) (x : Slot) : (s.setSlot t x).invals = s.invals := rfl
@[simp] theorem State.setSlot_poison (s : State) (t : Nat) (x : Slot) : (s.setSlot t x).poison = s.poison := rfl
@[simp] theorem State.setSlot_badSect (s : State) (t : Nat) (x : Slot) : (s.setSlot t x).badSect = s.badSect := rfl
@[simp] theorem State.setSlot_badWords (s : State) (t : Nat) (x : Slot) : (s.setSlot t x).badWords = s.badWords := rfl
@[simp] theorem State.setSlot_retired (s : State) (t : Nat) (x : Slot) : (s.setSlot t x).retired = s.retired := rfl
@[simp] theorem State.setSlot_loaded (s : State) (t : Nat) (x : Slot) : (s.setSlot t x).loaded = s.loaded := rfl
@[simp] theorem State.setSlot_dirty (s : State) (t : Nat) (x : Slot) : (s.setSlot t x).dirty = s.dirty := rfl
@[simp] theorem State.setSlot_rounds (s : State) (t : Nat) (x : Slot) : (s.setSlot t x).rounds = s.rounds := rfl
@[simp] theorem State.setSlot_streams (s : State) (t : Nat) (x : Slot) : (s.setSlot t x).streams = s.streams := rfl
@[simp] theorem State.setSlot_jobs (s : State) (t : Nat) (x : Slot) : (s.setSlot t x).jobs = s.jobs := rfl
@[simp] theorem State.setSlot_copies (s : State) (t : Nat) (x : Slot) : (s.setSlot t x).copies = s.copies := rfl
@[simp] theorem State.setSlot_msgs (s : State) (t : Nat) (x : Slot) : (s.setSlot t x).msgs = s.msgs := rfl
@[simp] theorem State.setSlot_batons (s : State) (t : Nat) (x : Slot) : (s.setSlot t x).batons = s.batons := rfl
@[simp] theorem State.setSlot_answers (s : State) (t : Nat) (x : Slot) : (s.setSlot t x).answers = s.answers := rfl
@[simp] theorem State.setSlot_sigs (s : State) (t : Nat) (x : Slot) : (s.setSlot t x).sigs = s.sigs := rfl
@[simp] theorem State.setSlot_colls (s : State) (t : Nat) (x : Slot) : (s.setSlot t x).colls = s.colls := rfl
@[simp] theorem State.setSlot_links (s : State) (t : Nat) (x : Slot) : (s.setSlot t x).links = s.links := rfl
@[simp] theorem State.setSlot_pkg (s : State) (t : Nat) (x : Slot) : (s.setSlot t x).pkg = s.pkg := rfl
@[simp] theorem State.modSlot_agenda (s : State) (t : Nat) (f : Slot → Slot) : (s.modSlot t f).agenda = s.agenda := rfl
@[simp] theorem State.modSlot_active (s : State) (t : Nat) (f : Slot → Slot) : (s.modSlot t f).active = s.active := rfl
@[simp] theorem State.modSlot_cur (s : State) (t : Nat) (f : Slot → Slot) : (s.modSlot t f).cur = s.cur := rfl
@[simp] theorem State.modSlot_prompt (s : State) (t : Nat) (f : Slot → Slot) : (s.modSlot t f).prompt = s.prompt := rfl
@[simp] theorem State.modSlot_grant (s : State) (t : Nat) (f : Slot → Slot) : (s.modSlot t f).grant = s.grant := rfl
@[simp] theorem State.modSlot_broken (s : State) (t : Nat) (f : Slot → Slot) : (s.modSlot t f).broken = s.broken := rfl
@[simp] theorem State.modSlot_picks (s : State) (t : Nat) (f : Slot → Slot) : (s.modSlot t f).picks = s.picks := rfl
@[simp] theorem State.modSlot_frees (s : State) (t : Nat) (f : Slot → Slot) : (s.modSlot t f).frees = s.frees := rfl
@[simp] theorem State.modSlot_cores (s : State) (t : Nat) (f : Slot → Slot) : (s.modSlot t f).cores = s.cores := rfl
@[simp] theorem State.modSlot_clusters (s : State) (t : Nat) (f : Slot → Slot) : (s.modSlot t f).clusters = s.clusters := rfl
@[simp] theorem State.modSlot_dies (s : State) (t : Nat) (f : Slot → Slot) : (s.modSlot t f).dies = s.dies := rfl
@[simp] theorem State.modSlot_mem (s : State) (t : Nat) (f : Slot → Slot) : (s.modSlot t f).mem = s.mem := rfl
@[simp] theorem State.modSlot_hostMem (s : State) (t : Nat) (f : Slot → Slot) : (s.modSlot t f).hostMem = s.hostMem := rfl
@[simp] theorem State.modSlot_pairs (s : State) (t : Nat) (f : Slot → Slot) : (s.modSlot t f).pairs = s.pairs := rfl
@[simp] theorem State.modSlot_squares (s : State) (t : Nat) (f : Slot → Slot) : (s.modSlot t f).squares = s.squares := rfl
@[simp] theorem State.modSlot_llc (s : State) (t : Nat) (f : Slot → Slot) : (s.modSlot t f).llc = s.llc := rfl
@[simp] theorem State.modSlot_invals (s : State) (t : Nat) (f : Slot → Slot) : (s.modSlot t f).invals = s.invals := rfl
@[simp] theorem State.modSlot_poison (s : State) (t : Nat) (f : Slot → Slot) : (s.modSlot t f).poison = s.poison := rfl
@[simp] theorem State.modSlot_badSect (s : State) (t : Nat) (f : Slot → Slot) : (s.modSlot t f).badSect = s.badSect := rfl
@[simp] theorem State.modSlot_badWords (s : State) (t : Nat) (f : Slot → Slot) : (s.modSlot t f).badWords = s.badWords := rfl
@[simp] theorem State.modSlot_retired (s : State) (t : Nat) (f : Slot → Slot) : (s.modSlot t f).retired = s.retired := rfl
@[simp] theorem State.modSlot_loaded (s : State) (t : Nat) (f : Slot → Slot) : (s.modSlot t f).loaded = s.loaded := rfl
@[simp] theorem State.modSlot_dirty (s : State) (t : Nat) (f : Slot → Slot) : (s.modSlot t f).dirty = s.dirty := rfl
@[simp] theorem State.modSlot_rounds (s : State) (t : Nat) (f : Slot → Slot) : (s.modSlot t f).rounds = s.rounds := rfl
@[simp] theorem State.modSlot_streams (s : State) (t : Nat) (f : Slot → Slot) : (s.modSlot t f).streams = s.streams := rfl
@[simp] theorem State.modSlot_jobs (s : State) (t : Nat) (f : Slot → Slot) : (s.modSlot t f).jobs = s.jobs := rfl
@[simp] theorem State.modSlot_copies (s : State) (t : Nat) (f : Slot → Slot) : (s.modSlot t f).copies = s.copies := rfl
@[simp] theorem State.modSlot_msgs (s : State) (t : Nat) (f : Slot → Slot) : (s.modSlot t f).msgs = s.msgs := rfl
@[simp] theorem State.modSlot_batons (s : State) (t : Nat) (f : Slot → Slot) : (s.modSlot t f).batons = s.batons := rfl
@[simp] theorem State.modSlot_answers (s : State) (t : Nat) (f : Slot → Slot) : (s.modSlot t f).answers = s.answers := rfl
@[simp] theorem State.modSlot_sigs (s : State) (t : Nat) (f : Slot → Slot) : (s.modSlot t f).sigs = s.sigs := rfl
@[simp] theorem State.modSlot_colls (s : State) (t : Nat) (f : Slot → Slot) : (s.modSlot t f).colls = s.colls := rfl
@[simp] theorem State.modSlot_links (s : State) (t : Nat) (f : Slot → Slot) : (s.modSlot t f).links = s.links := rfl
@[simp] theorem State.modSlot_pkg (s : State) (t : Nat) (f : Slot → Slot) : (s.modSlot t f).pkg = s.pkg := rfl

/-! ## setCore and modCore -/

@[simp] theorem State.setCore_agenda (s : State) (c : Nat) (x : Core) : (s.setCore c x).agenda = s.agenda := rfl
@[simp] theorem State.setCore_active (s : State) (c : Nat) (x : Core) : (s.setCore c x).active = s.active := rfl
@[simp] theorem State.setCore_cur (s : State) (c : Nat) (x : Core) : (s.setCore c x).cur = s.cur := rfl
@[simp] theorem State.setCore_prompt (s : State) (c : Nat) (x : Core) : (s.setCore c x).prompt = s.prompt := rfl
@[simp] theorem State.setCore_grant (s : State) (c : Nat) (x : Core) : (s.setCore c x).grant = s.grant := rfl
@[simp] theorem State.setCore_broken (s : State) (c : Nat) (x : Core) : (s.setCore c x).broken = s.broken := rfl
@[simp] theorem State.setCore_picks (s : State) (c : Nat) (x : Core) : (s.setCore c x).picks = s.picks := rfl
@[simp] theorem State.setCore_frees (s : State) (c : Nat) (x : Core) : (s.setCore c x).frees = s.frees := rfl
@[simp] theorem State.setCore_slots (s : State) (c : Nat) (x : Core) : (s.setCore c x).slots = s.slots := rfl
@[simp] theorem State.setCore_clusters (s : State) (c : Nat) (x : Core) : (s.setCore c x).clusters = s.clusters := rfl
@[simp] theorem State.setCore_dies (s : State) (c : Nat) (x : Core) : (s.setCore c x).dies = s.dies := rfl
@[simp] theorem State.setCore_mem (s : State) (c : Nat) (x : Core) : (s.setCore c x).mem = s.mem := rfl
@[simp] theorem State.setCore_hostMem (s : State) (c : Nat) (x : Core) : (s.setCore c x).hostMem = s.hostMem := rfl
@[simp] theorem State.setCore_pairs (s : State) (c : Nat) (x : Core) : (s.setCore c x).pairs = s.pairs := rfl
@[simp] theorem State.setCore_squares (s : State) (c : Nat) (x : Core) : (s.setCore c x).squares = s.squares := rfl
@[simp] theorem State.setCore_llc (s : State) (c : Nat) (x : Core) : (s.setCore c x).llc = s.llc := rfl
@[simp] theorem State.setCore_invals (s : State) (c : Nat) (x : Core) : (s.setCore c x).invals = s.invals := rfl
@[simp] theorem State.setCore_poison (s : State) (c : Nat) (x : Core) : (s.setCore c x).poison = s.poison := rfl
@[simp] theorem State.setCore_badSect (s : State) (c : Nat) (x : Core) : (s.setCore c x).badSect = s.badSect := rfl
@[simp] theorem State.setCore_badWords (s : State) (c : Nat) (x : Core) : (s.setCore c x).badWords = s.badWords := rfl
@[simp] theorem State.setCore_retired (s : State) (c : Nat) (x : Core) : (s.setCore c x).retired = s.retired := rfl
@[simp] theorem State.setCore_loaded (s : State) (c : Nat) (x : Core) : (s.setCore c x).loaded = s.loaded := rfl
@[simp] theorem State.setCore_dirty (s : State) (c : Nat) (x : Core) : (s.setCore c x).dirty = s.dirty := rfl
@[simp] theorem State.setCore_rounds (s : State) (c : Nat) (x : Core) : (s.setCore c x).rounds = s.rounds := rfl
@[simp] theorem State.setCore_streams (s : State) (c : Nat) (x : Core) : (s.setCore c x).streams = s.streams := rfl
@[simp] theorem State.setCore_jobs (s : State) (c : Nat) (x : Core) : (s.setCore c x).jobs = s.jobs := rfl
@[simp] theorem State.setCore_copies (s : State) (c : Nat) (x : Core) : (s.setCore c x).copies = s.copies := rfl
@[simp] theorem State.setCore_msgs (s : State) (c : Nat) (x : Core) : (s.setCore c x).msgs = s.msgs := rfl
@[simp] theorem State.setCore_batons (s : State) (c : Nat) (x : Core) : (s.setCore c x).batons = s.batons := rfl
@[simp] theorem State.setCore_answers (s : State) (c : Nat) (x : Core) : (s.setCore c x).answers = s.answers := rfl
@[simp] theorem State.setCore_sigs (s : State) (c : Nat) (x : Core) : (s.setCore c x).sigs = s.sigs := rfl
@[simp] theorem State.setCore_colls (s : State) (c : Nat) (x : Core) : (s.setCore c x).colls = s.colls := rfl
@[simp] theorem State.setCore_links (s : State) (c : Nat) (x : Core) : (s.setCore c x).links = s.links := rfl
@[simp] theorem State.setCore_pkg (s : State) (c : Nat) (x : Core) : (s.setCore c x).pkg = s.pkg := rfl
@[simp] theorem State.modCore_agenda (s : State) (c : Nat) (f : Core → Core) : (s.modCore c f).agenda = s.agenda := rfl
@[simp] theorem State.modCore_active (s : State) (c : Nat) (f : Core → Core) : (s.modCore c f).active = s.active := rfl
@[simp] theorem State.modCore_cur (s : State) (c : Nat) (f : Core → Core) : (s.modCore c f).cur = s.cur := rfl
@[simp] theorem State.modCore_prompt (s : State) (c : Nat) (f : Core → Core) : (s.modCore c f).prompt = s.prompt := rfl
@[simp] theorem State.modCore_grant (s : State) (c : Nat) (f : Core → Core) : (s.modCore c f).grant = s.grant := rfl
@[simp] theorem State.modCore_broken (s : State) (c : Nat) (f : Core → Core) : (s.modCore c f).broken = s.broken := rfl
@[simp] theorem State.modCore_picks (s : State) (c : Nat) (f : Core → Core) : (s.modCore c f).picks = s.picks := rfl
@[simp] theorem State.modCore_frees (s : State) (c : Nat) (f : Core → Core) : (s.modCore c f).frees = s.frees := rfl
@[simp] theorem State.modCore_slots (s : State) (c : Nat) (f : Core → Core) : (s.modCore c f).slots = s.slots := rfl
@[simp] theorem State.modCore_clusters (s : State) (c : Nat) (f : Core → Core) : (s.modCore c f).clusters = s.clusters := rfl
@[simp] theorem State.modCore_dies (s : State) (c : Nat) (f : Core → Core) : (s.modCore c f).dies = s.dies := rfl
@[simp] theorem State.modCore_mem (s : State) (c : Nat) (f : Core → Core) : (s.modCore c f).mem = s.mem := rfl
@[simp] theorem State.modCore_hostMem (s : State) (c : Nat) (f : Core → Core) : (s.modCore c f).hostMem = s.hostMem := rfl
@[simp] theorem State.modCore_pairs (s : State) (c : Nat) (f : Core → Core) : (s.modCore c f).pairs = s.pairs := rfl
@[simp] theorem State.modCore_squares (s : State) (c : Nat) (f : Core → Core) : (s.modCore c f).squares = s.squares := rfl
@[simp] theorem State.modCore_llc (s : State) (c : Nat) (f : Core → Core) : (s.modCore c f).llc = s.llc := rfl
@[simp] theorem State.modCore_invals (s : State) (c : Nat) (f : Core → Core) : (s.modCore c f).invals = s.invals := rfl
@[simp] theorem State.modCore_poison (s : State) (c : Nat) (f : Core → Core) : (s.modCore c f).poison = s.poison := rfl
@[simp] theorem State.modCore_badSect (s : State) (c : Nat) (f : Core → Core) : (s.modCore c f).badSect = s.badSect := rfl
@[simp] theorem State.modCore_badWords (s : State) (c : Nat) (f : Core → Core) : (s.modCore c f).badWords = s.badWords := rfl
@[simp] theorem State.modCore_retired (s : State) (c : Nat) (f : Core → Core) : (s.modCore c f).retired = s.retired := rfl
@[simp] theorem State.modCore_loaded (s : State) (c : Nat) (f : Core → Core) : (s.modCore c f).loaded = s.loaded := rfl
@[simp] theorem State.modCore_dirty (s : State) (c : Nat) (f : Core → Core) : (s.modCore c f).dirty = s.dirty := rfl
@[simp] theorem State.modCore_rounds (s : State) (c : Nat) (f : Core → Core) : (s.modCore c f).rounds = s.rounds := rfl
@[simp] theorem State.modCore_streams (s : State) (c : Nat) (f : Core → Core) : (s.modCore c f).streams = s.streams := rfl
@[simp] theorem State.modCore_jobs (s : State) (c : Nat) (f : Core → Core) : (s.modCore c f).jobs = s.jobs := rfl
@[simp] theorem State.modCore_copies (s : State) (c : Nat) (f : Core → Core) : (s.modCore c f).copies = s.copies := rfl
@[simp] theorem State.modCore_msgs (s : State) (c : Nat) (f : Core → Core) : (s.modCore c f).msgs = s.msgs := rfl
@[simp] theorem State.modCore_batons (s : State) (c : Nat) (f : Core → Core) : (s.modCore c f).batons = s.batons := rfl
@[simp] theorem State.modCore_answers (s : State) (c : Nat) (f : Core → Core) : (s.modCore c f).answers = s.answers := rfl
@[simp] theorem State.modCore_sigs (s : State) (c : Nat) (f : Core → Core) : (s.modCore c f).sigs = s.sigs := rfl
@[simp] theorem State.modCore_colls (s : State) (c : Nat) (f : Core → Core) : (s.modCore c f).colls = s.colls := rfl
@[simp] theorem State.modCore_links (s : State) (c : Nat) (f : Core → Core) : (s.modCore c f).links = s.links := rfl
@[simp] theorem State.modCore_pkg (s : State) (c : Nat) (f : Core → Core) : (s.modCore c f).pkg = s.pkg := rfl

/-! ## setCluster and modCluster -/

@[simp] theorem State.setCluster_agenda (s : State) (k : Nat) (x : Cluster) : (s.setCluster k x).agenda = s.agenda := rfl
@[simp] theorem State.setCluster_active (s : State) (k : Nat) (x : Cluster) : (s.setCluster k x).active = s.active := rfl
@[simp] theorem State.setCluster_cur (s : State) (k : Nat) (x : Cluster) : (s.setCluster k x).cur = s.cur := rfl
@[simp] theorem State.setCluster_prompt (s : State) (k : Nat) (x : Cluster) : (s.setCluster k x).prompt = s.prompt := rfl
@[simp] theorem State.setCluster_grant (s : State) (k : Nat) (x : Cluster) : (s.setCluster k x).grant = s.grant := rfl
@[simp] theorem State.setCluster_broken (s : State) (k : Nat) (x : Cluster) : (s.setCluster k x).broken = s.broken := rfl
@[simp] theorem State.setCluster_picks (s : State) (k : Nat) (x : Cluster) : (s.setCluster k x).picks = s.picks := rfl
@[simp] theorem State.setCluster_frees (s : State) (k : Nat) (x : Cluster) : (s.setCluster k x).frees = s.frees := rfl
@[simp] theorem State.setCluster_slots (s : State) (k : Nat) (x : Cluster) : (s.setCluster k x).slots = s.slots := rfl
@[simp] theorem State.setCluster_cores (s : State) (k : Nat) (x : Cluster) : (s.setCluster k x).cores = s.cores := rfl
@[simp] theorem State.setCluster_dies (s : State) (k : Nat) (x : Cluster) : (s.setCluster k x).dies = s.dies := rfl
@[simp] theorem State.setCluster_mem (s : State) (k : Nat) (x : Cluster) : (s.setCluster k x).mem = s.mem := rfl
@[simp] theorem State.setCluster_hostMem (s : State) (k : Nat) (x : Cluster) : (s.setCluster k x).hostMem = s.hostMem := rfl
@[simp] theorem State.setCluster_pairs (s : State) (k : Nat) (x : Cluster) : (s.setCluster k x).pairs = s.pairs := rfl
@[simp] theorem State.setCluster_squares (s : State) (k : Nat) (x : Cluster) : (s.setCluster k x).squares = s.squares := rfl
@[simp] theorem State.setCluster_llc (s : State) (k : Nat) (x : Cluster) : (s.setCluster k x).llc = s.llc := rfl
@[simp] theorem State.setCluster_invals (s : State) (k : Nat) (x : Cluster) : (s.setCluster k x).invals = s.invals := rfl
@[simp] theorem State.setCluster_poison (s : State) (k : Nat) (x : Cluster) : (s.setCluster k x).poison = s.poison := rfl
@[simp] theorem State.setCluster_badSect (s : State) (k : Nat) (x : Cluster) : (s.setCluster k x).badSect = s.badSect := rfl
@[simp] theorem State.setCluster_badWords (s : State) (k : Nat) (x : Cluster) : (s.setCluster k x).badWords = s.badWords := rfl
@[simp] theorem State.setCluster_retired (s : State) (k : Nat) (x : Cluster) : (s.setCluster k x).retired = s.retired := rfl
@[simp] theorem State.setCluster_loaded (s : State) (k : Nat) (x : Cluster) : (s.setCluster k x).loaded = s.loaded := rfl
@[simp] theorem State.setCluster_dirty (s : State) (k : Nat) (x : Cluster) : (s.setCluster k x).dirty = s.dirty := rfl
@[simp] theorem State.setCluster_rounds (s : State) (k : Nat) (x : Cluster) : (s.setCluster k x).rounds = s.rounds := rfl
@[simp] theorem State.setCluster_streams (s : State) (k : Nat) (x : Cluster) : (s.setCluster k x).streams = s.streams := rfl
@[simp] theorem State.setCluster_jobs (s : State) (k : Nat) (x : Cluster) : (s.setCluster k x).jobs = s.jobs := rfl
@[simp] theorem State.setCluster_copies (s : State) (k : Nat) (x : Cluster) : (s.setCluster k x).copies = s.copies := rfl
@[simp] theorem State.setCluster_msgs (s : State) (k : Nat) (x : Cluster) : (s.setCluster k x).msgs = s.msgs := rfl
@[simp] theorem State.setCluster_batons (s : State) (k : Nat) (x : Cluster) : (s.setCluster k x).batons = s.batons := rfl
@[simp] theorem State.setCluster_answers (s : State) (k : Nat) (x : Cluster) : (s.setCluster k x).answers = s.answers := rfl
@[simp] theorem State.setCluster_sigs (s : State) (k : Nat) (x : Cluster) : (s.setCluster k x).sigs = s.sigs := rfl
@[simp] theorem State.setCluster_colls (s : State) (k : Nat) (x : Cluster) : (s.setCluster k x).colls = s.colls := rfl
@[simp] theorem State.setCluster_links (s : State) (k : Nat) (x : Cluster) : (s.setCluster k x).links = s.links := rfl
@[simp] theorem State.setCluster_pkg (s : State) (k : Nat) (x : Cluster) : (s.setCluster k x).pkg = s.pkg := rfl
@[simp] theorem State.modCluster_agenda (s : State) (k : Nat) (f : Cluster → Cluster) : (s.modCluster k f).agenda = s.agenda := rfl
@[simp] theorem State.modCluster_active (s : State) (k : Nat) (f : Cluster → Cluster) : (s.modCluster k f).active = s.active := rfl
@[simp] theorem State.modCluster_cur (s : State) (k : Nat) (f : Cluster → Cluster) : (s.modCluster k f).cur = s.cur := rfl
@[simp] theorem State.modCluster_prompt (s : State) (k : Nat) (f : Cluster → Cluster) : (s.modCluster k f).prompt = s.prompt := rfl
@[simp] theorem State.modCluster_grant (s : State) (k : Nat) (f : Cluster → Cluster) : (s.modCluster k f).grant = s.grant := rfl
@[simp] theorem State.modCluster_broken (s : State) (k : Nat) (f : Cluster → Cluster) : (s.modCluster k f).broken = s.broken := rfl
@[simp] theorem State.modCluster_picks (s : State) (k : Nat) (f : Cluster → Cluster) : (s.modCluster k f).picks = s.picks := rfl
@[simp] theorem State.modCluster_frees (s : State) (k : Nat) (f : Cluster → Cluster) : (s.modCluster k f).frees = s.frees := rfl
@[simp] theorem State.modCluster_slots (s : State) (k : Nat) (f : Cluster → Cluster) : (s.modCluster k f).slots = s.slots := rfl
@[simp] theorem State.modCluster_cores (s : State) (k : Nat) (f : Cluster → Cluster) : (s.modCluster k f).cores = s.cores := rfl
@[simp] theorem State.modCluster_dies (s : State) (k : Nat) (f : Cluster → Cluster) : (s.modCluster k f).dies = s.dies := rfl
@[simp] theorem State.modCluster_mem (s : State) (k : Nat) (f : Cluster → Cluster) : (s.modCluster k f).mem = s.mem := rfl
@[simp] theorem State.modCluster_hostMem (s : State) (k : Nat) (f : Cluster → Cluster) : (s.modCluster k f).hostMem = s.hostMem := rfl
@[simp] theorem State.modCluster_pairs (s : State) (k : Nat) (f : Cluster → Cluster) : (s.modCluster k f).pairs = s.pairs := rfl
@[simp] theorem State.modCluster_squares (s : State) (k : Nat) (f : Cluster → Cluster) : (s.modCluster k f).squares = s.squares := rfl
@[simp] theorem State.modCluster_llc (s : State) (k : Nat) (f : Cluster → Cluster) : (s.modCluster k f).llc = s.llc := rfl
@[simp] theorem State.modCluster_invals (s : State) (k : Nat) (f : Cluster → Cluster) : (s.modCluster k f).invals = s.invals := rfl
@[simp] theorem State.modCluster_poison (s : State) (k : Nat) (f : Cluster → Cluster) : (s.modCluster k f).poison = s.poison := rfl
@[simp] theorem State.modCluster_badSect (s : State) (k : Nat) (f : Cluster → Cluster) : (s.modCluster k f).badSect = s.badSect := rfl
@[simp] theorem State.modCluster_badWords (s : State) (k : Nat) (f : Cluster → Cluster) : (s.modCluster k f).badWords = s.badWords := rfl
@[simp] theorem State.modCluster_retired (s : State) (k : Nat) (f : Cluster → Cluster) : (s.modCluster k f).retired = s.retired := rfl
@[simp] theorem State.modCluster_loaded (s : State) (k : Nat) (f : Cluster → Cluster) : (s.modCluster k f).loaded = s.loaded := rfl
@[simp] theorem State.modCluster_dirty (s : State) (k : Nat) (f : Cluster → Cluster) : (s.modCluster k f).dirty = s.dirty := rfl
@[simp] theorem State.modCluster_rounds (s : State) (k : Nat) (f : Cluster → Cluster) : (s.modCluster k f).rounds = s.rounds := rfl
@[simp] theorem State.modCluster_streams (s : State) (k : Nat) (f : Cluster → Cluster) : (s.modCluster k f).streams = s.streams := rfl
@[simp] theorem State.modCluster_jobs (s : State) (k : Nat) (f : Cluster → Cluster) : (s.modCluster k f).jobs = s.jobs := rfl
@[simp] theorem State.modCluster_copies (s : State) (k : Nat) (f : Cluster → Cluster) : (s.modCluster k f).copies = s.copies := rfl
@[simp] theorem State.modCluster_msgs (s : State) (k : Nat) (f : Cluster → Cluster) : (s.modCluster k f).msgs = s.msgs := rfl
@[simp] theorem State.modCluster_batons (s : State) (k : Nat) (f : Cluster → Cluster) : (s.modCluster k f).batons = s.batons := rfl
@[simp] theorem State.modCluster_answers (s : State) (k : Nat) (f : Cluster → Cluster) : (s.modCluster k f).answers = s.answers := rfl
@[simp] theorem State.modCluster_sigs (s : State) (k : Nat) (f : Cluster → Cluster) : (s.modCluster k f).sigs = s.sigs := rfl
@[simp] theorem State.modCluster_colls (s : State) (k : Nat) (f : Cluster → Cluster) : (s.modCluster k f).colls = s.colls := rfl
@[simp] theorem State.modCluster_links (s : State) (k : Nat) (f : Cluster → Cluster) : (s.modCluster k f).links = s.links := rfl
@[simp] theorem State.modCluster_pkg (s : State) (k : Nat) (f : Cluster → Cluster) : (s.modCluster k f).pkg = s.pkg := rfl

/-! ## setDie and modDie -/

@[simp] theorem State.setDie_agenda (s : State) (d : Nat) (x : Die) : (s.setDie d x).agenda = s.agenda := rfl
@[simp] theorem State.setDie_active (s : State) (d : Nat) (x : Die) : (s.setDie d x).active = s.active := rfl
@[simp] theorem State.setDie_cur (s : State) (d : Nat) (x : Die) : (s.setDie d x).cur = s.cur := rfl
@[simp] theorem State.setDie_prompt (s : State) (d : Nat) (x : Die) : (s.setDie d x).prompt = s.prompt := rfl
@[simp] theorem State.setDie_grant (s : State) (d : Nat) (x : Die) : (s.setDie d x).grant = s.grant := rfl
@[simp] theorem State.setDie_broken (s : State) (d : Nat) (x : Die) : (s.setDie d x).broken = s.broken := rfl
@[simp] theorem State.setDie_picks (s : State) (d : Nat) (x : Die) : (s.setDie d x).picks = s.picks := rfl
@[simp] theorem State.setDie_frees (s : State) (d : Nat) (x : Die) : (s.setDie d x).frees = s.frees := rfl
@[simp] theorem State.setDie_slots (s : State) (d : Nat) (x : Die) : (s.setDie d x).slots = s.slots := rfl
@[simp] theorem State.setDie_cores (s : State) (d : Nat) (x : Die) : (s.setDie d x).cores = s.cores := rfl
@[simp] theorem State.setDie_clusters (s : State) (d : Nat) (x : Die) : (s.setDie d x).clusters = s.clusters := rfl
@[simp] theorem State.setDie_mem (s : State) (d : Nat) (x : Die) : (s.setDie d x).mem = s.mem := rfl
@[simp] theorem State.setDie_hostMem (s : State) (d : Nat) (x : Die) : (s.setDie d x).hostMem = s.hostMem := rfl
@[simp] theorem State.setDie_pairs (s : State) (d : Nat) (x : Die) : (s.setDie d x).pairs = s.pairs := rfl
@[simp] theorem State.setDie_squares (s : State) (d : Nat) (x : Die) : (s.setDie d x).squares = s.squares := rfl
@[simp] theorem State.setDie_llc (s : State) (d : Nat) (x : Die) : (s.setDie d x).llc = s.llc := rfl
@[simp] theorem State.setDie_invals (s : State) (d : Nat) (x : Die) : (s.setDie d x).invals = s.invals := rfl
@[simp] theorem State.setDie_poison (s : State) (d : Nat) (x : Die) : (s.setDie d x).poison = s.poison := rfl
@[simp] theorem State.setDie_badSect (s : State) (d : Nat) (x : Die) : (s.setDie d x).badSect = s.badSect := rfl
@[simp] theorem State.setDie_badWords (s : State) (d : Nat) (x : Die) : (s.setDie d x).badWords = s.badWords := rfl
@[simp] theorem State.setDie_retired (s : State) (d : Nat) (x : Die) : (s.setDie d x).retired = s.retired := rfl
@[simp] theorem State.setDie_loaded (s : State) (d : Nat) (x : Die) : (s.setDie d x).loaded = s.loaded := rfl
@[simp] theorem State.setDie_dirty (s : State) (d : Nat) (x : Die) : (s.setDie d x).dirty = s.dirty := rfl
@[simp] theorem State.setDie_rounds (s : State) (d : Nat) (x : Die) : (s.setDie d x).rounds = s.rounds := rfl
@[simp] theorem State.setDie_streams (s : State) (d : Nat) (x : Die) : (s.setDie d x).streams = s.streams := rfl
@[simp] theorem State.setDie_jobs (s : State) (d : Nat) (x : Die) : (s.setDie d x).jobs = s.jobs := rfl
@[simp] theorem State.setDie_copies (s : State) (d : Nat) (x : Die) : (s.setDie d x).copies = s.copies := rfl
@[simp] theorem State.setDie_msgs (s : State) (d : Nat) (x : Die) : (s.setDie d x).msgs = s.msgs := rfl
@[simp] theorem State.setDie_batons (s : State) (d : Nat) (x : Die) : (s.setDie d x).batons = s.batons := rfl
@[simp] theorem State.setDie_answers (s : State) (d : Nat) (x : Die) : (s.setDie d x).answers = s.answers := rfl
@[simp] theorem State.setDie_sigs (s : State) (d : Nat) (x : Die) : (s.setDie d x).sigs = s.sigs := rfl
@[simp] theorem State.setDie_colls (s : State) (d : Nat) (x : Die) : (s.setDie d x).colls = s.colls := rfl
@[simp] theorem State.setDie_links (s : State) (d : Nat) (x : Die) : (s.setDie d x).links = s.links := rfl
@[simp] theorem State.setDie_pkg (s : State) (d : Nat) (x : Die) : (s.setDie d x).pkg = s.pkg := rfl
@[simp] theorem State.modDie_agenda (s : State) (d : Nat) (f : Die → Die) : (s.modDie d f).agenda = s.agenda := rfl
@[simp] theorem State.modDie_active (s : State) (d : Nat) (f : Die → Die) : (s.modDie d f).active = s.active := rfl
@[simp] theorem State.modDie_cur (s : State) (d : Nat) (f : Die → Die) : (s.modDie d f).cur = s.cur := rfl
@[simp] theorem State.modDie_prompt (s : State) (d : Nat) (f : Die → Die) : (s.modDie d f).prompt = s.prompt := rfl
@[simp] theorem State.modDie_grant (s : State) (d : Nat) (f : Die → Die) : (s.modDie d f).grant = s.grant := rfl
@[simp] theorem State.modDie_broken (s : State) (d : Nat) (f : Die → Die) : (s.modDie d f).broken = s.broken := rfl
@[simp] theorem State.modDie_picks (s : State) (d : Nat) (f : Die → Die) : (s.modDie d f).picks = s.picks := rfl
@[simp] theorem State.modDie_frees (s : State) (d : Nat) (f : Die → Die) : (s.modDie d f).frees = s.frees := rfl
@[simp] theorem State.modDie_slots (s : State) (d : Nat) (f : Die → Die) : (s.modDie d f).slots = s.slots := rfl
@[simp] theorem State.modDie_cores (s : State) (d : Nat) (f : Die → Die) : (s.modDie d f).cores = s.cores := rfl
@[simp] theorem State.modDie_clusters (s : State) (d : Nat) (f : Die → Die) : (s.modDie d f).clusters = s.clusters := rfl
@[simp] theorem State.modDie_mem (s : State) (d : Nat) (f : Die → Die) : (s.modDie d f).mem = s.mem := rfl
@[simp] theorem State.modDie_hostMem (s : State) (d : Nat) (f : Die → Die) : (s.modDie d f).hostMem = s.hostMem := rfl
@[simp] theorem State.modDie_pairs (s : State) (d : Nat) (f : Die → Die) : (s.modDie d f).pairs = s.pairs := rfl
@[simp] theorem State.modDie_squares (s : State) (d : Nat) (f : Die → Die) : (s.modDie d f).squares = s.squares := rfl
@[simp] theorem State.modDie_llc (s : State) (d : Nat) (f : Die → Die) : (s.modDie d f).llc = s.llc := rfl
@[simp] theorem State.modDie_invals (s : State) (d : Nat) (f : Die → Die) : (s.modDie d f).invals = s.invals := rfl
@[simp] theorem State.modDie_poison (s : State) (d : Nat) (f : Die → Die) : (s.modDie d f).poison = s.poison := rfl
@[simp] theorem State.modDie_badSect (s : State) (d : Nat) (f : Die → Die) : (s.modDie d f).badSect = s.badSect := rfl
@[simp] theorem State.modDie_badWords (s : State) (d : Nat) (f : Die → Die) : (s.modDie d f).badWords = s.badWords := rfl
@[simp] theorem State.modDie_retired (s : State) (d : Nat) (f : Die → Die) : (s.modDie d f).retired = s.retired := rfl
@[simp] theorem State.modDie_loaded (s : State) (d : Nat) (f : Die → Die) : (s.modDie d f).loaded = s.loaded := rfl
@[simp] theorem State.modDie_dirty (s : State) (d : Nat) (f : Die → Die) : (s.modDie d f).dirty = s.dirty := rfl
@[simp] theorem State.modDie_rounds (s : State) (d : Nat) (f : Die → Die) : (s.modDie d f).rounds = s.rounds := rfl
@[simp] theorem State.modDie_streams (s : State) (d : Nat) (f : Die → Die) : (s.modDie d f).streams = s.streams := rfl
@[simp] theorem State.modDie_jobs (s : State) (d : Nat) (f : Die → Die) : (s.modDie d f).jobs = s.jobs := rfl
@[simp] theorem State.modDie_copies (s : State) (d : Nat) (f : Die → Die) : (s.modDie d f).copies = s.copies := rfl
@[simp] theorem State.modDie_msgs (s : State) (d : Nat) (f : Die → Die) : (s.modDie d f).msgs = s.msgs := rfl
@[simp] theorem State.modDie_batons (s : State) (d : Nat) (f : Die → Die) : (s.modDie d f).batons = s.batons := rfl
@[simp] theorem State.modDie_answers (s : State) (d : Nat) (f : Die → Die) : (s.modDie d f).answers = s.answers := rfl
@[simp] theorem State.modDie_sigs (s : State) (d : Nat) (f : Die → Die) : (s.modDie d f).sigs = s.sigs := rfl
@[simp] theorem State.modDie_colls (s : State) (d : Nat) (f : Die → Die) : (s.modDie d f).colls = s.colls := rfl
@[simp] theorem State.modDie_links (s : State) (d : Nat) (f : Die → Die) : (s.modDie d f).links = s.links := rfl
@[simp] theorem State.modDie_pkg (s : State) (d : Nat) (f : Die → Die) : (s.modDie d f).pkg = s.pkg := rfl

/-! ## setJob and modJob -/

@[simp] theorem State.setJob_agenda (s : State) (j : Nat) (x : Option Job) : (s.setJob j x).agenda = s.agenda := rfl
@[simp] theorem State.setJob_active (s : State) (j : Nat) (x : Option Job) : (s.setJob j x).active = s.active := rfl
@[simp] theorem State.setJob_cur (s : State) (j : Nat) (x : Option Job) : (s.setJob j x).cur = s.cur := rfl
@[simp] theorem State.setJob_prompt (s : State) (j : Nat) (x : Option Job) : (s.setJob j x).prompt = s.prompt := rfl
@[simp] theorem State.setJob_grant (s : State) (j : Nat) (x : Option Job) : (s.setJob j x).grant = s.grant := rfl
@[simp] theorem State.setJob_broken (s : State) (j : Nat) (x : Option Job) : (s.setJob j x).broken = s.broken := rfl
@[simp] theorem State.setJob_picks (s : State) (j : Nat) (x : Option Job) : (s.setJob j x).picks = s.picks := rfl
@[simp] theorem State.setJob_frees (s : State) (j : Nat) (x : Option Job) : (s.setJob j x).frees = s.frees := rfl
@[simp] theorem State.setJob_slots (s : State) (j : Nat) (x : Option Job) : (s.setJob j x).slots = s.slots := rfl
@[simp] theorem State.setJob_cores (s : State) (j : Nat) (x : Option Job) : (s.setJob j x).cores = s.cores := rfl
@[simp] theorem State.setJob_clusters (s : State) (j : Nat) (x : Option Job) : (s.setJob j x).clusters = s.clusters := rfl
@[simp] theorem State.setJob_dies (s : State) (j : Nat) (x : Option Job) : (s.setJob j x).dies = s.dies := rfl
@[simp] theorem State.setJob_mem (s : State) (j : Nat) (x : Option Job) : (s.setJob j x).mem = s.mem := rfl
@[simp] theorem State.setJob_hostMem (s : State) (j : Nat) (x : Option Job) : (s.setJob j x).hostMem = s.hostMem := rfl
@[simp] theorem State.setJob_pairs (s : State) (j : Nat) (x : Option Job) : (s.setJob j x).pairs = s.pairs := rfl
@[simp] theorem State.setJob_squares (s : State) (j : Nat) (x : Option Job) : (s.setJob j x).squares = s.squares := rfl
@[simp] theorem State.setJob_llc (s : State) (j : Nat) (x : Option Job) : (s.setJob j x).llc = s.llc := rfl
@[simp] theorem State.setJob_invals (s : State) (j : Nat) (x : Option Job) : (s.setJob j x).invals = s.invals := rfl
@[simp] theorem State.setJob_poison (s : State) (j : Nat) (x : Option Job) : (s.setJob j x).poison = s.poison := rfl
@[simp] theorem State.setJob_badSect (s : State) (j : Nat) (x : Option Job) : (s.setJob j x).badSect = s.badSect := rfl
@[simp] theorem State.setJob_badWords (s : State) (j : Nat) (x : Option Job) : (s.setJob j x).badWords = s.badWords := rfl
@[simp] theorem State.setJob_retired (s : State) (j : Nat) (x : Option Job) : (s.setJob j x).retired = s.retired := rfl
@[simp] theorem State.setJob_loaded (s : State) (j : Nat) (x : Option Job) : (s.setJob j x).loaded = s.loaded := rfl
@[simp] theorem State.setJob_dirty (s : State) (j : Nat) (x : Option Job) : (s.setJob j x).dirty = s.dirty := rfl
@[simp] theorem State.setJob_rounds (s : State) (j : Nat) (x : Option Job) : (s.setJob j x).rounds = s.rounds := rfl
@[simp] theorem State.setJob_streams (s : State) (j : Nat) (x : Option Job) : (s.setJob j x).streams = s.streams := rfl
@[simp] theorem State.setJob_copies (s : State) (j : Nat) (x : Option Job) : (s.setJob j x).copies = s.copies := rfl
@[simp] theorem State.setJob_msgs (s : State) (j : Nat) (x : Option Job) : (s.setJob j x).msgs = s.msgs := rfl
@[simp] theorem State.setJob_batons (s : State) (j : Nat) (x : Option Job) : (s.setJob j x).batons = s.batons := rfl
@[simp] theorem State.setJob_answers (s : State) (j : Nat) (x : Option Job) : (s.setJob j x).answers = s.answers := rfl
@[simp] theorem State.setJob_sigs (s : State) (j : Nat) (x : Option Job) : (s.setJob j x).sigs = s.sigs := rfl
@[simp] theorem State.setJob_colls (s : State) (j : Nat) (x : Option Job) : (s.setJob j x).colls = s.colls := rfl
@[simp] theorem State.setJob_links (s : State) (j : Nat) (x : Option Job) : (s.setJob j x).links = s.links := rfl
@[simp] theorem State.setJob_pkg (s : State) (j : Nat) (x : Option Job) : (s.setJob j x).pkg = s.pkg := rfl
@[simp] theorem State.modJob_agenda (s : State) (j : Nat) (f : Job → Job) : (s.modJob j f).agenda = s.agenda := by
  unfold State.modJob; split <;> rfl
@[simp] theorem State.modJob_active (s : State) (j : Nat) (f : Job → Job) : (s.modJob j f).active = s.active := by
  unfold State.modJob; split <;> rfl
@[simp] theorem State.modJob_cur (s : State) (j : Nat) (f : Job → Job) : (s.modJob j f).cur = s.cur := by
  unfold State.modJob; split <;> rfl
@[simp] theorem State.modJob_prompt (s : State) (j : Nat) (f : Job → Job) : (s.modJob j f).prompt = s.prompt := by
  unfold State.modJob; split <;> rfl
@[simp] theorem State.modJob_grant (s : State) (j : Nat) (f : Job → Job) : (s.modJob j f).grant = s.grant := by
  unfold State.modJob; split <;> rfl
@[simp] theorem State.modJob_broken (s : State) (j : Nat) (f : Job → Job) : (s.modJob j f).broken = s.broken := by
  unfold State.modJob; split <;> rfl
@[simp] theorem State.modJob_picks (s : State) (j : Nat) (f : Job → Job) : (s.modJob j f).picks = s.picks := by
  unfold State.modJob; split <;> rfl
@[simp] theorem State.modJob_frees (s : State) (j : Nat) (f : Job → Job) : (s.modJob j f).frees = s.frees := by
  unfold State.modJob; split <;> rfl
@[simp] theorem State.modJob_slots (s : State) (j : Nat) (f : Job → Job) : (s.modJob j f).slots = s.slots := by
  unfold State.modJob; split <;> rfl
@[simp] theorem State.modJob_cores (s : State) (j : Nat) (f : Job → Job) : (s.modJob j f).cores = s.cores := by
  unfold State.modJob; split <;> rfl
@[simp] theorem State.modJob_clusters (s : State) (j : Nat) (f : Job → Job) : (s.modJob j f).clusters = s.clusters := by
  unfold State.modJob; split <;> rfl
@[simp] theorem State.modJob_dies (s : State) (j : Nat) (f : Job → Job) : (s.modJob j f).dies = s.dies := by
  unfold State.modJob; split <;> rfl
@[simp] theorem State.modJob_mem (s : State) (j : Nat) (f : Job → Job) : (s.modJob j f).mem = s.mem := by
  unfold State.modJob; split <;> rfl
@[simp] theorem State.modJob_hostMem (s : State) (j : Nat) (f : Job → Job) : (s.modJob j f).hostMem = s.hostMem := by
  unfold State.modJob; split <;> rfl
@[simp] theorem State.modJob_pairs (s : State) (j : Nat) (f : Job → Job) : (s.modJob j f).pairs = s.pairs := by
  unfold State.modJob; split <;> rfl
@[simp] theorem State.modJob_squares (s : State) (j : Nat) (f : Job → Job) : (s.modJob j f).squares = s.squares := by
  unfold State.modJob; split <;> rfl
@[simp] theorem State.modJob_llc (s : State) (j : Nat) (f : Job → Job) : (s.modJob j f).llc = s.llc := by
  unfold State.modJob; split <;> rfl
@[simp] theorem State.modJob_invals (s : State) (j : Nat) (f : Job → Job) : (s.modJob j f).invals = s.invals := by
  unfold State.modJob; split <;> rfl
@[simp] theorem State.modJob_poison (s : State) (j : Nat) (f : Job → Job) : (s.modJob j f).poison = s.poison := by
  unfold State.modJob; split <;> rfl
@[simp] theorem State.modJob_badSect (s : State) (j : Nat) (f : Job → Job) : (s.modJob j f).badSect = s.badSect := by
  unfold State.modJob; split <;> rfl
@[simp] theorem State.modJob_badWords (s : State) (j : Nat) (f : Job → Job) : (s.modJob j f).badWords = s.badWords := by
  unfold State.modJob; split <;> rfl
@[simp] theorem State.modJob_retired (s : State) (j : Nat) (f : Job → Job) : (s.modJob j f).retired = s.retired := by
  unfold State.modJob; split <;> rfl
@[simp] theorem State.modJob_loaded (s : State) (j : Nat) (f : Job → Job) : (s.modJob j f).loaded = s.loaded := by
  unfold State.modJob; split <;> rfl
@[simp] theorem State.modJob_dirty (s : State) (j : Nat) (f : Job → Job) : (s.modJob j f).dirty = s.dirty := by
  unfold State.modJob; split <;> rfl
@[simp] theorem State.modJob_rounds (s : State) (j : Nat) (f : Job → Job) : (s.modJob j f).rounds = s.rounds := by
  unfold State.modJob; split <;> rfl
@[simp] theorem State.modJob_streams (s : State) (j : Nat) (f : Job → Job) : (s.modJob j f).streams = s.streams := by
  unfold State.modJob; split <;> rfl
@[simp] theorem State.modJob_copies (s : State) (j : Nat) (f : Job → Job) : (s.modJob j f).copies = s.copies := by
  unfold State.modJob; split <;> rfl
@[simp] theorem State.modJob_msgs (s : State) (j : Nat) (f : Job → Job) : (s.modJob j f).msgs = s.msgs := by
  unfold State.modJob; split <;> rfl
@[simp] theorem State.modJob_batons (s : State) (j : Nat) (f : Job → Job) : (s.modJob j f).batons = s.batons := by
  unfold State.modJob; split <;> rfl
@[simp] theorem State.modJob_answers (s : State) (j : Nat) (f : Job → Job) : (s.modJob j f).answers = s.answers := by
  unfold State.modJob; split <;> rfl
@[simp] theorem State.modJob_sigs (s : State) (j : Nat) (f : Job → Job) : (s.modJob j f).sigs = s.sigs := by
  unfold State.modJob; split <;> rfl
@[simp] theorem State.modJob_colls (s : State) (j : Nat) (f : Job → Job) : (s.modJob j f).colls = s.colls := by
  unfold State.modJob; split <;> rfl
@[simp] theorem State.modJob_links (s : State) (j : Nat) (f : Job → Job) : (s.modJob j f).links = s.links := by
  unfold State.modJob; split <;> rfl
@[simp] theorem State.modJob_pkg (s : State) (j : Nat) (f : Job → Job) : (s.modJob j f).pkg = s.pkg := by
  unfold State.modJob; split <;> rfl

/-! ## Lookups under an update of another kind -/

@[simp] theorem State.setCore_slot (s : State) (c : Nat) (x : Core) (i : Nat) : (s.setCore c x).slot i = s.slot i := rfl
@[simp] theorem State.modCore_slot (s : State) (c : Nat) (f : Core → Core) (i : Nat) : (s.modCore c f).slot i = s.slot i := rfl
@[simp] theorem State.setCluster_slot (s : State) (k : Nat) (x : Cluster) (i : Nat) : (s.setCluster k x).slot i = s.slot i := rfl
@[simp] theorem State.modCluster_slot (s : State) (k : Nat) (f : Cluster → Cluster) (i : Nat) : (s.modCluster k f).slot i = s.slot i := rfl
@[simp] theorem State.setDie_slot (s : State) (d : Nat) (x : Die) (i : Nat) : (s.setDie d x).slot i = s.slot i := rfl
@[simp] theorem State.modDie_slot (s : State) (d : Nat) (f : Die → Die) (i : Nat) : (s.modDie d f).slot i = s.slot i := rfl
@[simp] theorem State.setJob_slot (s : State) (j : Nat) (x : Option Job) (i : Nat) : (s.setJob j x).slot i = s.slot i := rfl
@[simp] theorem State.modJob_slot (s : State) (j : Nat) (f : Job → Job) (i : Nat) : (s.modJob j f).slot i = s.slot i := by
  unfold State.modJob; split <;> rfl
@[simp] theorem State.setSlot_core (s : State) (t : Nat) (x : Slot) (i : Nat) : (s.setSlot t x).core i = s.core i := rfl
@[simp] theorem State.modSlot_core (s : State) (t : Nat) (f : Slot → Slot) (i : Nat) : (s.modSlot t f).core i = s.core i := rfl
@[simp] theorem State.setCluster_core (s : State) (k : Nat) (x : Cluster) (i : Nat) : (s.setCluster k x).core i = s.core i := rfl
@[simp] theorem State.modCluster_core (s : State) (k : Nat) (f : Cluster → Cluster) (i : Nat) : (s.modCluster k f).core i = s.core i := rfl
@[simp] theorem State.setDie_core (s : State) (d : Nat) (x : Die) (i : Nat) : (s.setDie d x).core i = s.core i := rfl
@[simp] theorem State.modDie_core (s : State) (d : Nat) (f : Die → Die) (i : Nat) : (s.modDie d f).core i = s.core i := rfl
@[simp] theorem State.setJob_core (s : State) (j : Nat) (x : Option Job) (i : Nat) : (s.setJob j x).core i = s.core i := rfl
@[simp] theorem State.modJob_core (s : State) (j : Nat) (f : Job → Job) (i : Nat) : (s.modJob j f).core i = s.core i := by
  unfold State.modJob; split <;> rfl
@[simp] theorem State.setSlot_cluster (s : State) (t : Nat) (x : Slot) (i : Nat) : (s.setSlot t x).cluster i = s.cluster i := rfl
@[simp] theorem State.modSlot_cluster (s : State) (t : Nat) (f : Slot → Slot) (i : Nat) : (s.modSlot t f).cluster i = s.cluster i := rfl
@[simp] theorem State.setCore_cluster (s : State) (c : Nat) (x : Core) (i : Nat) : (s.setCore c x).cluster i = s.cluster i := rfl
@[simp] theorem State.modCore_cluster (s : State) (c : Nat) (f : Core → Core) (i : Nat) : (s.modCore c f).cluster i = s.cluster i := rfl
@[simp] theorem State.setDie_cluster (s : State) (d : Nat) (x : Die) (i : Nat) : (s.setDie d x).cluster i = s.cluster i := rfl
@[simp] theorem State.modDie_cluster (s : State) (d : Nat) (f : Die → Die) (i : Nat) : (s.modDie d f).cluster i = s.cluster i := rfl
@[simp] theorem State.setJob_cluster (s : State) (j : Nat) (x : Option Job) (i : Nat) : (s.setJob j x).cluster i = s.cluster i := rfl
@[simp] theorem State.modJob_cluster (s : State) (j : Nat) (f : Job → Job) (i : Nat) : (s.modJob j f).cluster i = s.cluster i := by
  unfold State.modJob; split <;> rfl
@[simp] theorem State.setSlot_die (s : State) (t : Nat) (x : Slot) (i : Nat) : (s.setSlot t x).die i = s.die i := rfl
@[simp] theorem State.modSlot_die (s : State) (t : Nat) (f : Slot → Slot) (i : Nat) : (s.modSlot t f).die i = s.die i := rfl
@[simp] theorem State.setCore_die (s : State) (c : Nat) (x : Core) (i : Nat) : (s.setCore c x).die i = s.die i := rfl
@[simp] theorem State.modCore_die (s : State) (c : Nat) (f : Core → Core) (i : Nat) : (s.modCore c f).die i = s.die i := rfl
@[simp] theorem State.setCluster_die (s : State) (k : Nat) (x : Cluster) (i : Nat) : (s.setCluster k x).die i = s.die i := rfl
@[simp] theorem State.modCluster_die (s : State) (k : Nat) (f : Cluster → Cluster) (i : Nat) : (s.modCluster k f).die i = s.die i := rfl
@[simp] theorem State.setJob_die (s : State) (j : Nat) (x : Option Job) (i : Nat) : (s.setJob j x).die i = s.die i := rfl
@[simp] theorem State.modJob_die (s : State) (j : Nat) (f : Job → Job) (i : Nat) : (s.modJob j f).die i = s.die i := by
  unfold State.modJob; split <;> rfl
@[simp] theorem State.setSlot_job (s : State) (t : Nat) (x : Slot) (i : Nat) : (s.setSlot t x).job i = s.job i := rfl
@[simp] theorem State.modSlot_job (s : State) (t : Nat) (f : Slot → Slot) (i : Nat) : (s.modSlot t f).job i = s.job i := rfl
@[simp] theorem State.setCore_job (s : State) (c : Nat) (x : Core) (i : Nat) : (s.setCore c x).job i = s.job i := rfl
@[simp] theorem State.modCore_job (s : State) (c : Nat) (f : Core → Core) (i : Nat) : (s.modCore c f).job i = s.job i := rfl
@[simp] theorem State.setCluster_job (s : State) (k : Nat) (x : Cluster) (i : Nat) : (s.setCluster k x).job i = s.job i := rfl
@[simp] theorem State.modCluster_job (s : State) (k : Nat) (f : Cluster → Cluster) (i : Nat) : (s.modCluster k f).job i = s.job i := rfl
@[simp] theorem State.setDie_job (s : State) (d : Nat) (x : Die) (i : Nat) : (s.setDie d x).job i = s.job i := rfl
@[simp] theorem State.modDie_job (s : State) (d : Nat) (f : Die → Die) (i : Nat) : (s.modDie d f).job i = s.job i := rfl

end Sys2Proof.Machine
end

