-- ==== Sys2Proof/Laws/Run.lean ====
section
/-! SUPPORT. The monad of one instruction, and `run` and `event` said once: what each answers. -/
namespace Sys2Proof.Machine

/-! ## Sequencing -/

@[simp] theorem M.pure_apply {α : Type} (x : α) (s : State) : (pure x : M α) s = .ok (x, s) := rfl
/-- A first part that succeeds. -/
theorem M.bind_ok {α β : Type} {m : M α} {f : α → M β} {s t : State} {x : α} (h : m s = .ok (x, t)) :
    (m >>= f) s = f x t := by
  simp [Bind.bind, StateT.bind, Except.bind, h]
/-- A first part that stops. -/
theorem M.bind_error {α β : Type} {m : M α} {f : α → M β} {s : State} {e : Stop} (h : m s = .error e) :
    (m >>= f) s = .error e := by
  simp [Bind.bind, StateT.bind, Except.bind, h]
/-- A sequence succeeds exactly where its parts do. -/
theorem M.bind_eq_ok {α β : Type} {m : M α} {f : α → M β} {s t : State} {y : β} :
    (m >>= f) s = .ok (y, t) ↔ ∃ x u, m s = .ok (x, u) ∧ f x u = .ok (y, t) := by
  cases h : m s with
  | error e => simp [M.bind_error h]
  | ok p => obtain ⟨x, u⟩ := p; simp [M.bind_ok h]

@[simp] theorem getS_apply (s : State) : getS s = .ok (s, s) := rfl
@[simp] theorem modS_apply (f : State → State) (s : State) : modS f s = .ok ((), f s) := rfl
@[simp] theorem myself_apply (s : State) : myself s = .ok (s.me, s) := rfl
@[simp] theorem modMe_apply (f : Slot → Slot) (s : State) : modMe f s = .ok ((), s.modSlot s.cur f) := rfl
@[simp] theorem modSp_apply (f : Special → Special) (s : State) :
    modSp f s = .ok ((), s.modSlot s.cur fun x => { x with sp := f x.sp }) := rfl
@[simp] theorem mergePts_apply (n : Nat) (s : State) :
    mergePts n s = .ok ((), s.modSlot s.cur fun x => { x with pts := max x.pts n }) := rfl
@[simp] theorem trap_apply {α : Type} (c : Nat) (x : Word) (s : State) : (trap c x : M α) s = .error (.trap c x) := rfl
@[simp] theorem park_apply {α : Type} (k : WaitKind) (s : State) : (park k : M α) s = .error (.park k s) := rfl
@[simp] theorem leave_apply {α : Type} (s : State) : (leave : M α) s = .error (.leave s) := rfl
@[simp] theorem ensure_true (t : M Unit) : ensure true t = pure () := rfl
@[simp] theorem ensure_false (t : M Unit) : ensure false t = t := rfl

/-! ## run -/

/-- An instruction that succeeds completes: its state, with the PC past it. -/
theorem run_ok {i : Instr} {m : M Unit} {s t : State} (hl : s.live) (h : m s = .ok ((), t)) : run i m s = .next (t.advance i) := by
  unfold State.live at hl
  simp [run, hl.1, hl.2, h]
/-- An instruction that raises a trap takes it. -/
theorem run_trap {i : Instr} {m : M Unit} {s : State} {c : Nat} {x : Word} (hl : s.live) (h : m s = .error (.trap c x)) :
    run i m s = .next (s.trapMe c x) := by
  unfold State.live at hl
  simp [run, hl.1, hl.2, h]
/-- An instruction that parks. -/
theorem run_park {i : Instr} {m : M Unit} {s t : State} {k : WaitKind} (hl : s.live) (h : m s = .error (.park k t)) :
    run i m s = .next (t.parkOn i k) := by
  unfold State.live at hl
  simp [run, hl.1, hl.2, h]
/-- An instruction that leaves: a transfer, a baton, an ended unit. -/
theorem run_leave {i : Instr} {m : M Unit} {s t : State} (hl : s.live) (h : m s = .error (.leave t)) : run i m s = .next t := by
  unfold State.live at hl
  simp [run, hl.1, hl.2, h]
/-- An instruction always answers a next state where the die has its clocks. -/
theorem run_next (i : Instr) (m : M Unit) {s : State} (hl : s.live) : ∃ t, run i m s = .next t := by
  unfold State.live at hl
  simp only [run, hl.1, hl.2, Bool.false_eq_true, if_false]
  split <;> exact ⟨_, rfl⟩
/-- On a stopped die nothing runs. -/
theorem run_stopped (i : Instr) (m : M Unit) {s : State} (h : (s.die (runDie s.cur)).stopped = true) : run i m s = .fault .clocksStopped := by
  simp [run, h]
/-- A finished write of a mailbox is all that an instruction still does (R120). -/
theorem run_mail (i : Instr) (m : M Unit) {s : State} {r : Nat} {v : Word} (hl : (s.die (runDie s.cur)).stopped = false)
    (h : s.me.mailOut = some (r, v)) : run i m s = .next (s.mailDone i r v) := by
  simp [run, hl, h]
/-- A step of the device on a die that has its clocks. -/
theorem event_next (d : Nat) (f : State → State) {s : State} (h : (s.die d).stopped = false) : event d f s = .next (f s) := by
  simp [event, h]

/-! ## The issuing slot -/

@[simp] theorem State.modSlot_slot_ne (s : State) {t k : Nat} (f : Slot → Slot) (h : k ≠ t) : (s.modSlot t f).slot k = s.slot k := by
  simp [State.modSlot, State.setSlot, State.slot, h]
@[simp] theorem State.modSlot_slot_self (s : State) (t : Nat) (f : Slot → Slot) : (s.modSlot t f).slot t = f (s.slot t) := by
  simp [State.modSlot, State.setSlot, State.slot]
theorem State.rising_modSlot (s : State) (t : Nat) (f : Slot → Slot) (h : SMap.rising s.slots) :
    SMap.rising (s.modSlot t f).slots := SMap.rising_set _ _ _ h

/-- The PC of an instruction that completes. -/
theorem State.advance_pc (s : State) (i : Instr) :
    ((s.advance i).slot s.cur).pc = (s.slot s.cur).pc + BitVec.ofNat 56 (8 * wordsOf i) := by
  simp [State.advance]
/-- An instruction that completes leaves the registers as its own effect left them. -/
theorem State.advance_regs (s : State) (i : Instr) :
    ((s.advance i).slot s.cur).regs = (s.slot s.cur).regs := by
  simp [State.advance]

end Sys2Proof.Machine
end

