-- ==== Sys2Proof/Laws/Frame.lean ====
section
/-! SUPPORT. What a part of an instruction can leave changed, whatever it does next: `keeps T R m` says that the state it completes,
parks, leaves or traps with is related by `R` to the one it began in, and that it traps only where `T`. -/
namespace Sys2Proof.Machine

/-- A reflexive and transitive relation of states. -/
def framing (R : State → State → Prop) : Prop := (∀ s, R s s) ∧ ∀ a b c, R a b → R b c → R a c

/-- What a stop leaves is related to the state it began in. -/
def Stop.keeps (T : Prop) (R : State → State → Prop) (s : State) : Stop → Prop
  | .trap _ _ => T
  | .trapDo _ _ f => T ∧ ∀ u, R u (f u)
  | .trapAt _ _ t => T ∧ R s t
  | .park _ t => R s t
  | .leave t => R s t

/-- A part of an instruction keeps a relation, whatever it does next. -/
def keeps {α : Type} (T : Prop) (R : State → State → Prop) (m : M α) : Prop :=
  ∀ s, match m s with
    | .ok p => R s p.2
    | .error e => e.keeps T R s

variable {T : Prop} {R : State → State → Prop} {α β : Type}

theorem keeps.ok (h : keeps T R m) {s t : State} {x : α} (e : m s = .ok (x, t)) : R s t := by have := h s; rw [e] at this; exact this

theorem keeps_pure (hR : framing R) (x : α) : keeps T R (pure x : M α) := fun s => hR.1 s
theorem keeps_trap (h : T) (c : Nat) (x : Word) : keeps T R (trap c x : M α) := fun _ => h
theorem keeps_park (hR : framing R) (k : WaitKind) : keeps T R (park k : M α) := fun s => hR.1 s
theorem keeps_leave (hR : framing R) : keeps T R (leave : M α) := fun s => hR.1 s
theorem keeps_getS (hR : framing R) : keeps T R getS := fun s => hR.1 s
theorem keeps_myself (hR : framing R) : keeps T R myself := fun s => hR.1 s
theorem keeps_modS {f : State → State} (h : ∀ s, R s (f s)) : keeps T R (modS f) := h
theorem keeps_bind (hR : framing R) {m : M α} {f : α → M β} (h : keeps T R m) (hf : ∀ x, keeps T R (f x)) : keeps T R (m >>= f) := by
  intro s
  have h1 := h s
  cases hm : m s with
  | error e => rw [M.bind_error hm]; rw [hm] at h1; exact h1
  | ok p =>
    obtain ⟨x, u⟩ := p
    rw [M.bind_ok hm]; rw [hm] at h1
    have h2 := hf x u
    cases hu : f x u with
    | ok q => rw [hu] at h2; exact hR.2 _ _ _ h1 h2
    | error e =>
      rw [hu] at h2
      cases e with
      | trap c x => exact h2
      | trapDo c x g => exact h2
      | trapAt c x t => exact ⟨h2.1, hR.2 _ _ _ h1 h2.2⟩
      | park k t => exact hR.2 _ _ _ h1 h2
      | leave t => exact hR.2 _ _ _ h1 h2
theorem keeps_ite {p : Prop} [Decidable p] {m n : M α} (h : keeps T R m) (h' : keeps T R n) : keeps T R (if p then m else n) := by
  split <;> assumption
theorem keeps_ensure (hR : framing R) (b : Bool) {m : M Unit} (h : keeps T R m) : keeps T R (ensure b m) := keeps_ite (keeps_pure hR ()) h
theorem keeps_await (hR : framing R) (hg : ∀ s : State, R s { s with grant := none }) (k : WaitKind) : keeps T R (await k) := by
  intro s
  unfold await
  split
  · next h => split at h <;> first | (cases h; exact hg s) | (split at h <;> cases h; exact hR.1 s)
  · next h => split at h <;> first | cases h | (split at h <;> first | (cases h; exact hR.1 s) | cases h)

/-- What an instruction that runs to a next state leaves, where its parts keep `R`: `R` holds up to completing, parking, or the trap
entry. It runs where no finished write of a mailbox waits (R120). -/
theorem run_keeps (hR : framing R) {i : Instr} {m : M Unit} {s t : State} (hm : s.me.mailOut = none) (h : keeps T R m)
    (e : run i m s = .next t) :
    (∃ u, R s u ∧ t = u.advance i) ∨ (T ∧ ∃ u c x, R s u ∧ t = u.trapMe c x) ∨ (∃ u k, R s u ∧ t = u.parkOn i k) ∨ R s t := by
  have h1 := h s
  unfold run at e
  split at e
  · cases e
  rw [hm] at e
  dsimp only at e
  split at e
  all_goals (rename_i hm; rw [hm] at h1; cases e)
  · exact .inl ⟨_, h1, rfl⟩
  · exact .inr (.inl ⟨h1, _, _, _, hR.1 s, rfl⟩)
  · exact .inr (.inl ⟨h1.1, _, _, _, h1.2 s, rfl⟩)
  · exact .inr (.inl ⟨h1.1, _, _, _, h1.2, rfl⟩)
  · exact .inr (.inr (.inl ⟨_, _, h1, rfl⟩))
  · exact .inr (.inr (.inr h1))

/-! ## Nothing that a program reads changes -/

/-- No byte changes, and no slot its registers, its special registers or its PC. -/
def still (s t : State) : Prop := bytesKept s t ∧ slotsKept s t

theorem framing_still : framing still := by
  refine ⟨fun s => ⟨⟨rfl, rfl, fun _ _ => rfl, fun _ => rfl⟩, rfl, fun _ => ⟨rfl, rfl, rfl⟩⟩, ?_⟩
  intro a b c ⟨⟨h1, h0, h2, h3⟩, h4, h5⟩ ⟨⟨k1, k0, k2, k3⟩, k4, k5⟩
  refine ⟨⟨k1.trans h1, k0.trans h0, fun x y => (k2 x y).trans (h2 x y), fun x => (k3 x).trans (h3 x)⟩, k4.trans h4, fun k => ?_⟩
  exact ⟨(k5 k).1.trans (h5 k).1, (k5 k).2.1.trans (h5 k).2.1, (k5 k).2.2.trans (h5 k).2.2⟩

/-- An update of other fields. -/
theorem still_of_eq {s t : State} (h1 : t.mem = s.mem) (h0 : t.hostMem = s.hostMem) (h2 : t.cores = s.cores) (h3 : t.slots = s.slots) (h4 : t.cur = s.cur) :
    still s t := by
  refine ⟨⟨h1, h0, fun c p => ?_, fun k => ?_⟩, h4, fun k => ?_⟩ <;> simp [State.padByte, State.core, State.slot, h2, h3]

theorem still_modSlot (s : State) (t : Nat) (f : Slot → Slot)
    (h : ∀ x, (f x).regs = x.regs ∧ (f x).sp = x.sp ∧ (f x).pc = x.pc ∧ (f x).priv = x.priv) : still s (s.modSlot t f) := by
  refine ⟨⟨rfl, rfl, fun _ _ => rfl, fun k => ?_⟩, rfl, fun k => ?_⟩ <;> by_cases e : k = t
  · subst e; simp [h]
  · simp [e]
  · subst e; simp [h]
  · simp [e]

theorem State.core_modCore (s : State) (c k : Nat) (f : Core → Core) :
    (s.modCore c f).core k = if k = c then f (s.core c) else s.core k := by
  by_cases e : k = c
  · subst e; simp [State.modCore, State.setCore, State.core]
  · simp [State.modCore, State.setCore, State.core, e]

theorem still_modCore (s : State) (c : Nat) (f : Core → Core) (h : ∀ x, (f x).spad = x.spad) : still s (s.modCore c f) := by
  refine ⟨⟨rfl, rfl, fun k p => ?_, fun k => rfl⟩, rfl, fun k => ⟨rfl, rfl, rfl⟩⟩
  simp only [State.padByte, State.core_modCore]
  split
  · next e => subst e; simp [h]
  · rfl
theorem still_modDie (s : State) (d : Nat) (f : Die → Die) : still s (s.modDie d f) := still_of_eq rfl rfl rfl rfl rfl
theorem still_modCluster (s : State) (d : Nat) (f : Cluster → Cluster) : still s (s.modCluster d f) := still_of_eq rfl rfl rfl rfl rfl
theorem still_modBank (s : State) (c b : Nat) (f : Bank → Bank) : still s (s.modBank c b f) := still_modCore s c _ fun _ => rfl
theorem still_modReg (s : State) (c b r : Nat) (f : SyncReg → SyncReg) : still s (s.modReg c b r f) := still_modBank s c b _
theorem still_modPort (s : State) (c b p : Nat) (f : Port → Port) : still s (s.modPort c b p f) := by
  unfold State.modPort; split
  · exact still_modCore s c _ fun _ => rfl
  · exact still_modBank s c b _

theorem SMap.get_mapEach (m : SMap Slot) (f : Nat × Slot → Slot) (k : Nat) (P : Slot → Slot → Prop) (hd : P Slot.dflt Slot.dflt)
    (h : ∀ e, P e.2 (f e)) : P (SMap.get Slot.dflt m k) (SMap.get Slot.dflt (m.map fun e => (e.1, f e)) k) := by
  induction m with
  | nil => exact hd
  | cons e m ih =>
    simp only [List.map_cons, SMap.get]
    split
    · exact h e
    · exact ih

/-- An update of the slots that leaves what a program reads. -/
theorem still_mapSlots (s : State) (f : Nat × Slot → Slot)
    (h : ∀ e, (f e).regs = e.2.regs ∧ (f e).sp = e.2.sp ∧ (f e).pc = e.2.pc ∧ (f e).priv = e.2.priv) :
    still s { s with slots := s.slots.map fun e => (e.1, f e) } := by
  have key : ∀ k, (({ s with slots := s.slots.map fun e => (e.1, f e) } : State).slot k).regs = (s.slot k).regs ∧
      (({ s with slots := s.slots.map fun e => (e.1, f e) } : State).slot k).sp = (s.slot k).sp ∧
      (({ s with slots := s.slots.map fun e => (e.1, f e) } : State).slot k).pc = (s.slot k).pc ∧
      (({ s with slots := s.slots.map fun e => (e.1, f e) } : State).slot k).priv = (s.slot k).priv := fun k =>
    SMap.get_mapEach s.slots f k (fun a b => b.regs = a.regs ∧ b.sp = a.sp ∧ b.pc = a.pc ∧ b.priv = a.priv) ⟨rfl, rfl, rfl, rfl⟩ h
  exact ⟨⟨rfl, rfl, fun _ _ => rfl, fun k => (key k).2.2.2⟩, rfl, fun k => ⟨(key k).1, (key k).2.1, (key k).2.2.1⟩⟩

theorem still_notify (s : State) (a b c d : Nat) : still s (s.notify a b c d) := by
  unfold State.notify
  split
  · exact framing_still.1 s
  · refine still_mapSlots s (fun e => match e.2.wait with
      | some w => if w.kind = .watch none ∧ w.data.get 0 0 = a ∧ w.data.get 0 1 < b + c ∧ b < w.data.get 0 1 + w.n then
          { e.2 with wait := some { w with kind := .watch (some d) } } else e.2
      | none => e.2) fun e => ?_
    dsimp only
    split
    · split <;> exact ⟨rfl, rfl, rfl, rfl⟩
    · exact ⟨rfl, rfl, rfl, rfl⟩

theorem still_signal (s : State) (c b m : Nat) : still s (s.signal c b m) := by
  unfold State.signal
  refine still_mapSlots s _ fun e => ?_
  dsimp only
  split
  · split
    · split <;> exact ⟨rfl, rfl, rfl, rfl⟩
    · exact ⟨rfl, rfl, rfl, rfl⟩
  · exact ⟨rfl, rfl, rfl, rfl⟩

end Sys2Proof.Machine
end

