-- ==== Sys2Proof/Laws/Memory.lean ====
section
/-! SUPPORT. Memory: reading after a write, what a write leaves alone, and that every memory operation keeps the canonical
form; the same for the bytes of a scratchpad. -/
namespace Sys2Proof.Machine

/-- A write of bytes leaves every address outside them alone. -/
theorem writeN_get_out (m : SMap Byte) (a n x b : Nat) (h : b < a ∨ a + n ≤ b) :
    SMap.get 0 (writeN m a n x) b = SMap.get 0 m b := by
  induction n generalizing m a x with
  | zero => rfl
  | succ n ih =>
    simp only [writeN]
    rw [ih _ _ _ (by omega), SMap.get_set_ne _ _ _ (by omega)]

/-- A byte that has been written. -/
theorem writeN_get_in (m : SMap Byte) (a n x i : Nat) (h : i < n) :
    SMap.get 0 (writeN m a n x) (a + i) = BitVec.ofNat 8 (x / 256 ^ i) := by
  induction n generalizing m a x i with
  | zero => omega
  | succ n ih =>
    simp only [writeN]
    cases i with
    | zero => rw [writeN_get_out _ _ _ _ _ (by omega)]; simp
    | succ i =>
      have := ih (m.set 0 a (BitVec.ofNat 8 x)) (a + 1) (x / 256) i (by omega)
      rw [show a + (i + 1) = a + 1 + i by omega, this, Nat.div_div_eq_div_mul, Nat.pow_succ, Nat.mul_comm 256]

theorem rising_writeN {m : SMap Byte} (a n x : Nat) (h : SMap.rising m) : SMap.rising (writeN m a n x) := by
  induction n generalizing m a x with
  | zero => exact h
  | succ n ih => exact ih _ _ (SMap.rising_set 0 a _ h)

/-- A write keeps the canonical form. -/
theorem wf_writeN {m : Memory} (a n x : Nat) (h : Memory.wf m = true) : Memory.wf (writeN m a n x) = true := by
  induction n generalizing m a x with
  | zero => exact h
  | succ n ih => exact ih _ _ (SMap.wf_set 0 a _ h)

theorem wf_set {m : Memory} (a : Nat) (x : Byte) (h : Memory.wf m = true) : Memory.wf (SMap.set 0 m a x) = true :=
  SMap.wf_set 0 a x h

theorem wf_filter {m : Memory} (p : Nat × Byte → Bool) (h : Memory.wf m = true) : Memory.wf (m.filter p) = true :=
  SMap.wf_filter 0 p h

theorem Memory.rising_of_wf {m : Memory} (h : Memory.wf m = true) : SMap.rising m := ((SMap.wf_iff 0 m).1 h).1

/-- A read depends only on the bytes that it reads. -/
theorem readN_congr {m m' : SMap Byte} (a n : Nat) (h : ∀ b, a ≤ b → b < a + n → SMap.get 0 m' b = SMap.get 0 m b) :
    readN m' a n = readN m a n := by
  induction n generalizing a with
  | zero => rfl
  | succ n ih =>
    simp only [readN]
    rw [h a (by omega) (by omega), ih (a + 1) fun b h1 h2 => h b (by omega) (by omega)]

/-- A read of bytes that a write has not touched. -/
theorem readN_writeN_out (m : SMap Byte) (a n x b k : Nat) (h : b + k ≤ a ∨ a + n ≤ b) :
    readN (writeN m a n x) b k = readN m b k :=
  readN_congr b k fun c h1 h2 => writeN_get_out m a n x c (by omega)

/-- A read after a write to the same place gives the value written. -/
theorem readN_writeN (m : SMap Byte) (a n x : Nat) : readN (writeN m a n x) a n = x % 256 ^ n := by
  induction n generalizing m a x with
  | zero => simp [readN, Nat.mod_one]
  | succ n ih =>
    simp only [writeN, readN]
    rw [writeN_get_out _ _ _ _ _ (by omega), SMap.get_set_self, ih]
    rw [BitVec.toNat_ofNat, show 256 ^ (n + 1) = 256 * 256 ^ n by ring, Nat.mod_mul]

/-- A byte of a write to a scratchpad that lies at none of the places written. -/
theorem Core.writeSpad_get_out (x : Core) (m : SMap Byte) (a n v p : Nat) (h : ∀ i, i < n → p ≠ x.place (a + i)) :
    SMap.get 0 (x.writeSpad m a n v) p = SMap.get 0 m p := by
  induction n generalizing m a v with
  | zero => rfl
  | succ n ih =>
    simp only [Core.writeSpad]
    rw [ih _ _ _ fun i hi => by have := h (i + 1) (by omega); rwa [show a + 1 + i = a + (i + 1) by omega],
      SMap.get_set_ne _ _ _ (by simpa using h 0 (by omega))]

/-- A write to a scratchpad changes only its bytes and its poisoned words. -/
theorem Core.write_vw (x : Core) (a n v : Nat) : (x.write a n v).vw = x.vw := rfl

/-- Reading bytes of a scratchpad that a write has not touched. -/
theorem Core.write_spad_out (x : Core) (a n v p : Nat) (h : ∀ i, i < n → p ≠ x.place (a + i)) :
    SMap.get 0 (x.write a n v).spad p = SMap.get 0 x.spad p :=
  x.writeSpad_get_out x.spad a n v p h

/-- Reset memory has the canonical form. -/
theorem reset_mem_wf : Memory.wf State.reset.mem = true := rfl

end Sys2Proof.Machine
end

