-- ==== Sys2Proof/Laws/Reads.lean ====
section
/-! SUPPORT. What reading an operand, waiting for a reply and writing a destination change: a read or a wait leaves every byte and
every slot's registers as they were (`still`); a write of a destination changes one general register of the issuing slot, or none
(`destBut`). -/
namespace Sys2Proof.Machine
variable {T : Prop}

theorem still_grant (s : State) : still s { s with grant := none } := still_of_eq rfl rfl rfl rfl rfl
theorem still_await (k : WaitKind) : keeps T still (await k) := keeps_await framing_still still_grant k
theorem still_mergePts (n : Nat) : keeps T still (mergePts n) := keeps_modS fun s => still_modSlot s _ _ fun _ => ⟨rfl, rfl, rfl, rfl⟩
theorem still_mailTrip : keeps T still mailTrip := by
  unfold mailTrip
  refine keeps_bind framing_still (keeps_getS framing_still) fun s => keeps_ite (keeps_ite ?_ ?_) (keeps_pure framing_still _)
  · exact keeps_modS fun s => framing_still.2 _ _ _ (still_grant s) (still_modCore _ _ _ fun _ => rfl)
  · exact keeps_bind framing_still (keeps_modS fun s => still_modCore s _ _ fun _ => rfl) fun _ => keeps_park framing_still _
theorem still_tripFor (r : Nat) : keeps T still (tripFor r) := keeps_ite still_mailTrip (keeps_pure framing_still _)
theorem still_modMyReg (r : Nat) (f : SyncReg → SyncReg) : keeps T still (modMyReg r f) := keeps_modS fun s => still_modReg s _ _ _ _
theorem still_staysAsked (r : Nat) : keeps T still (staysAsked r) := keeps_modS fun s => by
  split
  · exact still_modCore _ _ _ fun _ => rfl
  · exact framing_still.1 s
theorem still_readShared (r : Nat) : keeps T still (readShared r) := by
  unfold readShared
  repeat' first
    | with_reducible exact still_tripFor _
    | with_reducible exact still_mergePts _
    | with_reducible exact keeps_getS framing_still
    | with_reducible exact keeps_pure framing_still _
    | with_reducible refine keeps_bind framing_still ?_ (fun _ => ?_)
theorem still_takeShared (r : Nat) : keeps T still (takeShared r) := by
  unfold takeShared
  repeat' first
    | with_reducible exact still_tripFor _
    | with_reducible exact still_mergePts _
    | with_reducible exact still_modMyReg _ _
    | with_reducible exact still_staysAsked _
    | with_reducible exact keeps_park framing_still _
    | with_reducible exact keeps_getS framing_still
    | with_reducible exact keeps_pure framing_still _
    | with_reducible refine keeps_ite ?_ ?_
    | with_reducible refine keeps_bind framing_still ?_ (fun _ => ?_)
theorem still_fillShared (r : Nat) (v : Word) : keeps T still (fillShared r v) :=
  keeps_modS fun s => framing_still.2 _ _ _ (still_modReg s _ _ _ _) (still_signal _ _ _ _)
theorem still_writeShared (r : Nat) (v : Word) : keeps T still (writeShared r v) := by
  unfold writeShared
  refine keeps_bind framing_still (keeps_getS framing_still) fun s => keeps_ite ?_ (still_fillShared r v)
  refine keeps_bind framing_still (keeps_modS fun s => ?_) fun _ => keeps_park framing_still _
  exact framing_still.2 _ _ _ (still_modSlot s s.cur (fun x => { x with mailOut := some (r, v) }) fun _ => ⟨rfl, rfl, rfl, rfl⟩)
    (still_modCore _ _ _ fun _ => rfl)
theorem still_sfillShared (r : Nat) (v : Word) : keeps T still (sfillShared r v) := by
  unfold sfillShared
  repeat' first
    | with_reducible exact still_tripFor _
    | with_reducible exact still_fillShared _ _
    | with_reducible exact still_modMyReg _ _
    | with_reducible exact still_staysAsked _
    | with_reducible exact keeps_park framing_still _
    | with_reducible exact keeps_getS framing_still
    | with_reducible exact keeps_pure framing_still _
    | with_reducible refine keeps_ite ?_ ?_
    | with_reducible refine keeps_bind framing_still ?_ (fun _ => ?_)
theorem still_takePort (p n : Nat) : keeps T still (takePort p n) := by
  unfold takePort
  refine keeps_bind framing_still (keeps_getS framing_still) fun s => ?_
  refine keeps_ite ?_ (keeps_bind framing_still (keeps_modS fun s => still_modPort s _ _ _ _) fun _ => keeps_park framing_still _)
  split
  · exact keeps_park framing_still _
  · exact keeps_bind framing_still (keeps_modS fun s => still_modPort s _ _ _ _) fun _ =>
      keeps_bind framing_still (still_mergePts _) fun _ => keeps_pure framing_still _
theorem still_latchOp (f : Nat) (v : Word) (h : Taken) : keeps T still (latchOp f v h) :=
  keeps_modS fun s => still_modSlot s _ _ fun _ => ⟨rfl, rfl, rfl, rfl⟩
theorem still_readG (n : BitVec 5) : keeps T still (readG n) := fun s => framing_still.1 s
theorem still_readV (n : BitVec 4) : keeps T still (readV n) := fun s => framing_still.1 s
theorem still_readK (n : BitVec 3) : keeps T still (readK n) := fun s => framing_still.1 s
theorem still_readSrcN (f : Nat) (a : Src) (n : Nat) : keeps T still (readSrcN f a n) := by
  unfold readSrcN
  split
  · exact still_readG _
  · refine keeps_bind framing_still (keeps_myself framing_still) fun x => ?_
    split
    · exact keeps_pure framing_still _
    · split
      · exact still_readG _
      all_goals repeat' first
        | with_reducible exact still_readShared _
        | with_reducible exact still_takeShared _
        | with_reducible exact still_takePort _ _
        | with_reducible exact still_latchOp _ _ _
        | with_reducible exact keeps_pure framing_still _
        | with_reducible refine keeps_bind framing_still ?_ (fun _ => ?_)
theorem still_readSrc (f : Nat) (a : Src) : keeps T still (readSrc f a) := still_readSrcN f a 1
theorem still_readAB (a b : Src) : keeps T still (readAB a b) :=
  keeps_bind framing_still (still_readSrcN _ _ _) fun _ => keeps_bind framing_still (still_readSrc _ _) fun _ => keeps_pure framing_still _
theorem still_readSR (f : Nat) (a : SReg) : keeps T still (readSR f a) := by
  cases a <;> first | exact still_readG _ | exact still_readSrc _ _

/-- Only one general register of the issuing slot may change. -/
def stillBut (n : BitVec 5) (s t : State) : Prop :=
  bytesKept s t ∧ t.cur = s.cur ∧ (∀ k, (t.slot k).sp = (s.slot k).sp ∧ (t.slot k).pc = (s.slot k).pc) ∧
  (∀ k, k ≠ s.cur → (t.slot k).regs = (s.slot k).regs) ∧
  (∀ m : BitVec 5, m ≠ n → (t.slot s.cur).regs.readG m.toNat = (s.slot s.cur).regs.readG m.toNat) ∧
  (∀ m, (t.slot s.cur).regs.readV m = (s.slot s.cur).regs.readV m ∧ (t.slot s.cur).regs.readK m = (s.slot s.cur).regs.readK m)

theorem still_but {n : BitVec 5} {s t : State} (h : still s t) : stillBut n s t :=
  ⟨h.1, h.2.1, fun k => (h.2.2 k).2, fun k _ => (h.2.2 k).1, fun _ _ => by rw [(h.2.2 _).1], fun _ => by rw [(h.2.2 _).1]; exact ⟨rfl, rfl⟩⟩
theorem framing_stillBut (n : BitVec 5) : framing (stillBut n) := by
  refine ⟨fun s => still_but (framing_still.1 s), ?_⟩
  rintro a b c ⟨⟨h1, h0, h2, h3⟩, h4, h5, h6, h7, h8⟩ ⟨⟨k1, k0, k2, k3⟩, k4, k5, k6, k7, k8⟩
  rw [h4] at k6 k7 k8
  exact ⟨⟨k1.trans h1, k0.trans h0, fun x y => (k2 x y).trans (h2 x y), fun x => (k3 x).trans (h3 x)⟩, k4.trans h4,
    fun k => ⟨(k5 k).1.trans (h5 k).1, (k5 k).2.trans (h5 k).2⟩, fun k e => (k6 k e).trans (h6 k e),
    fun m e => (k7 m e).trans (h7 m e), fun m => ⟨(k8 m).1.trans (h8 m).1, (k8 m).2.trans (h8 m).2⟩⟩
theorem keeps_mono {R R' : State → State → Prop} {α : Type} {m : M α} (hRR : ∀ s t, R s t → R' s t) (h : keeps T R m) : keeps T R' m := by
  intro s
  have := h s
  split at this
  · exact hRR _ _ this
  · rename_i e he; cases e
    · exact this
    · exact ⟨this.1, fun u => hRR _ _ (this.2 u)⟩
    · exact ⟨this.1, hRR _ _ this.2⟩
    · exact hRR _ _ this
    · exact hRR _ _ this

/-- The register that a destination names, where it is a general one. -/
def destBut (d : SReg) (s t : State) : Prop := ∀ n, (∀ m : BitVec 5, d = .g m → m = n) → stillBut n s t
theorem framing_destBut (d : SReg) : framing (destBut d) :=
  ⟨fun s n _ => (framing_stillBut n).1 s, fun a b c h k n e => (framing_stillBut n).2 a b c (h n e) (k n e)⟩

theorem stillBut_putG (s : State) (n : BitVec 5) (v : Word) : stillBut n s (s.modSlot s.cur fun x => x.putG n.toNat v) := by
  refine ⟨⟨rfl, rfl, fun _ _ => rfl, fun k => ?_⟩, rfl, fun k => ?_, fun k e => ?_, fun m e => ?_, fun m => ?_⟩
  · by_cases e : k = s.cur
    · subst e; simp [Slot.putG]
    · simp [e]
  · by_cases e : k = s.cur
    · subst e; simp [Slot.putG]
    · simp [e]
  · simp [e]
  · have e' : m.toNat ≠ n.toNat := fun h => e (BitVec.eq_of_toNat_eq h)
    simp [Slot.putG, Regs.readG, Regs.writeG]
    split
    · rfl
    · split
      · rfl
      · simp [e']
  · simp [Slot.putG, Regs.readV, Regs.readK, Regs.writeG]; split <;> simp
theorem keeps_writeSR (d : SReg) (v : Word) : keeps T (destBut d) (writeSR d v) := by
  cases d with
  | g n => exact keeps_modS fun s m e => by rw [← e n rfl]; exact stillBut_putG s n v
  | s n => exact keeps_mono (fun _ _ h _ _ => still_but h) (still_writeShared _ _)
  | m n => exact keeps_mono (fun _ _ h _ _ => still_but h) (still_writeShared _ _)
theorem destBut_of {d : SReg} {α : Type} {m : M α} (h : keeps T still m) : keeps T (destBut d) m :=
  keeps_mono (fun _ _ h _ _ => still_but h) h
end Sys2Proof.Machine
end

