-- ==== Sys2Proof/Tests/Slice0.lean ====
section
/-! SUPPORT. The author's tests: well-formedness, decoding of words written out from the spec's encoding tables, one step of each
instruction on a small state, and a witness for the hypotheses of each statement. -/
namespace Sys2Proof.Tests
set_option Elab.async false
open Sys2Proof Sys2Proof.Machine

/-! ## Well-formedness: a term that each check refuses -/

/-- A word-pair address with a `q` base, and one with a hint in local space. -/
def badAddr : List MAddr := [{ base := .q 1, off := 0, glb := true, keep := false }, { base := .g 1, off := 0, glb := false, keep := true }]
/-- A well-formed global address. -/
def okAddr : MAddr := { base := .g 4, off := 8, glb := true, keep := false }
/-- A well-formed local address. -/
def locAddr : MAddr := { base := .g 4, off := 8, glb := false, keep := false }
/-- Operands of a vector instruction of a type. -/
def vty (t : Ty) : V3 := { d := 1, a := 2, b := .v 3 .none, k := 0, ty := t }
/-- The same without B. -/
def v2ty (t : Ty) : V2 := { d := 1, a := 2, k := 0, ty := t }
/-- Operands of an atomic on g4 and g6. -/
def amo0 : Amo := { d := .g 1, a := .g 4, b := .g 6, glb := false, scope := .sys, w64 := true }
/-- The least matrix shape. -/
def sh0 : MShape := { m := .e32, n := .e32, kg := 0 }
/-- A tile of 8 rows and 8 columns. -/
def tsh0 : TShape := { r := 0, c := 0, view := 0 }

theorem test_wf_scalar : ([.add (.g 1) (.s 5 true) (.s 5 true), .sext (.g 1) (.g 2) 0, .zext (.g 1) (.g 2) 65, .bfx (.g 1) (.g 2) 60 4,
    .bfxS (.g 1) (.g 2) 1 63, .bfi (.g 1) (.g 2) 63 1, .sel (.g 1) (.m 2 true) (.m 2 true) (.g 3), .lea (.g 1) (.q 1) 0,
    .leaWin (.g 1) (.q 1) 0, .br .eq (.g 1) (.s 3 true) 0, .jmpi (.q 1), .calli (.q 2), .loop 0 1, .btag 1 (.q 1) (.g 2),
    .parkEv 0] : List Instr).all (fun i => !WF.instr i) = true := by decide

theorem test_wf_memory : ((badAddr.flatMap fun p => ([.ld (.g 1) .n8 p, .lds 1 .n8 p, .st (.g 1) .n8 .sys p, .vld 1 p, .vst 1 .sys p,
      .kld 1 p, .kst 1 .sys p] : List Instr)) ++
    ([.lds 0 .n8 okAddr, .st (.s 1 true) .n8 .sys okAddr, .st (.g 1) .i8 .sys okAddr, .st (.g 1) .n8 .die locAddr,
      .vst 1 .core locAddr, .kst 1 .pkg locAddr, .vlds { v := 1, base := .q 1, stride := .g 2, k := 0, glb := false, off := 0 },
      .vsts { v := 1, base := .q 1, stride := .g 2, k := 0, glb := false, off := 0 },
      .vgath { v := 1, base := .q 1, vi := 2, perm := .none, k := 0, glb := false, off := 0 },
      .vscat { v := 1, base := .g 1, vi := 2, perm := .rot 7 0, k := 0, glb := false, off := 0 },
      .vgathT { v := 1, h := .q 1, c := 2, vi := 3, perm := .none, k := 0 },
      .vscatT { v := 1, h := .g 1, c := 2, vi := 3, perm := .bfly 1 1, k := 0 },
      .amoadd { amo0 with a := .q 1 }, .amoswp { amo0 with a := .s 1 true, b := .s 1 true }, .amofadd amo0, .radd .i32 (.q 1) (.g 2),
      .raddOrd .i32 (.s 1 true) (.s 1 true) (.g 2), .raddv { isF := false, a := .q 1, v := 1, perm := .none, k := 0 },
      .raddvOrd { isF := false, a := .g 1, v := 1, perm := .bcast 2 4, k := 0 } (.g 2), .sfill (.g 1) (.g 2), .migr (.q 1) 0,
      .migrCrew (.q 1) 0, .crewj (.s 1 true) (.s 1 true),
      .get { h := .g 4, c := 0, l := .g 5, rc := none, sc := none, prio := none },
      .put { h := .g 4, c := 0, l := .g 5, rc := none, sc := none, prio := none }, .qsend 1 (.g 1) 0 0, .qsend 1 (.g 1) 31 1,
      .cexp 1 (.q 1), .cadd 1 (.q 1), .caddClr 1 (.q 1), .xwait (.q 1), .clineWb (.q 1) 0, .clineEvict (.q 1) 0,
      .clinePf (.q 1) 0] : List Instr)).all (fun i => !WF.instr i) = true := by decide

theorem test_wf_vector : ([.vadd (vty .e4m3) none false, .vadd (vty .i32) (some .rne) false, .vsub (vty .f32) none true,
    .vfma { vty .f32 with b := .v 3 (.rot 1 2) } none false, .vmin { vty .f32 with b := .v 3 (.bfly 0 6) }, .vabs (v2ty .n32) false,
    .vneg (v2ty .f32) true, .vand (vty .f32), .vshl (vty .f32), .vcmp 1 .eq 2 (.v 3 .none) 0 .bf16, .vsel (vty .n32) 1,
    .vmov 1 (.v 2 (.bcast 7 0)) 0 .i32, .vins 1 (.s 1 true) (.s 1 true) .i32, .vred (.g 1) .add 2 0 .i16 none,
    .vred (.g 1) .add 2 0 .i32 (some .rtz), .vidx 1 (.g 1) (.g 2) 0 .f32, .vidx 1 (.m 1 true) (.m 1 true) 0 .i32, .vrcp (v2ty .e4m3) none,
    .vcvt (v2ty .f32) .bf16 none, .vpack 1 2 3 .none 0 .bf16 .i32 none, .vpack 1 2 3 .none 0 .i16 .i32 (some .rne),
    .vunpk (v2ty .f32) .e4m3 false, .vshrr (vty .bf16), .vsat (v2ty .n32) 3 false, .vsat (v2ty .i8) 7 true, .vmulq (vty .i8),
    .vquant 1 2 (.i8 (.v 3 (.rot 7 0))) none, .vdeq 1 2 (.i4 (.v 3 (.rot 7 0))) none, .vdot 1 2 (.v 3 (.bfly 2 2)) 0 false false false,
    .kmov (.r (.g 1)) (.r (.g 2))] : List Instr).all (fun i => !WF.instr i) = true := by decide

theorem test_wf_engines : ([.mma { h := .g 1, c := .g 2, l := 0, n := 0, sh := sh0, af := .i8, bf := .bf16, ta := false, tb := false },
    .mma { h := .g 1, c := .g 2, l := 0, n := 0, sh := sh0, af := .px9, bf := .px9, ta := true, tb := false },
    .mmat { h := 1, c := 3, l := 0, n := 0, sh := sh0, af := none, bf := none, ta := false, tb := false },
    .mmat { h := 1, c := 2, l := 0, n := 0, sh := sh0, af := some .f32, bf := some .f32, ta := false, tb := false },
    .mmat { h := 1, c := 2, l := 0, n := 0, sh := sh0, af := some .i32, bf := none, ta := false, tb := false },
    .mmag { h := 1, vi := 3, l := 0, n := 2, sh := { m := .e128, n := .e32, kg := 0 }, bf := .i8 },
    .mmag { h := 1, vi := 3, l := 0, n := 2, sh := sh0, bf := .i32 }, .mmas 1 3 0 sh0,
    .aepi { h := .g 1, c := 0, l := 0, n := 0, xs := none, df := .i4, act := .none, add := false, rel := false, rm := none },
    .aepi { h := .g 1, c := 0, l := 0, n := 0, xs := none, df := .f32, act := .clamp, add := false, rel := false, rm := none },
    .aepi { h := .g 1, c := 0, l := 0, n := 0, xs := none, df := .f32, act := .none, add := true, rel := false, rm := none },
    .tcopy (.g 1) 3 2 tsh0 false none, .spawn (.s 1 true) (.s 1 true), .reap (.g 1) (.m 2 true) (.m 2 true),
    .xret (some (.q 1))] : List Instr).all (fun i => !WF.instr i) = true := by decide

/-! ## Decoding: words written out field by field -/

/-- Format A (R214): OP, D, A, WA, B, WB, PERM, K, TY, FN. -/
def fA (op d a wa b wb perm k ty fn : Nat) : Nat :=
  ((((((((op * 2 ^ 8 + d) * 2 ^ 8 + a) * 2 + wa) * 2 ^ 8 + b) * 2 + wb) * 2 ^ 12 + perm) * 2 ^ 3 + k) * 2 ^ 3 + ty) * 2 ^ 12 + fn
/-- Format I (R215): OP, D, A, WA, TY, SUB, IMM32. -/
def fI (op d a wa ty sub imm : Nat) : Nat := (((((op * 2 ^ 8 + d) * 2 ^ 8 + a) * 2 + wa) * 2 ^ 3 + ty) * 2 ^ 4 + sub) * 2 ^ 32 + imm
/-- Format M (R216): OP, V, A, WA, SZ, SP, SCOPE, KEEPHINT, OFF. -/
def fM (op v a wa sz sp sc kh off : Nat) : Nat :=
  (((((((op * 2 ^ 8 + v) * 2 ^ 8 + a) * 2 + wa) * 2 ^ 3 + sz) * 2 + sp) * 2 ^ 2 + sc) * 2 + kh) * 2 ^ 32 + off
/-- Format B (R217): OP, A, B, WA, COND, OFF. -/
def fB (op a b wa cond off : Nat) : Nat := ((((op * 2 ^ 8 + a) * 2 ^ 8 + b) * 2 + wa) * 2 ^ 4 + cond) * 2 ^ 35 + off
/-- Format T (R218): OP, H, C, L, N, SHAPE, FN. -/
def fT (op h c l n shape fn : Nat) : Nat := (((((op * 2 ^ 8 + h) * 2 ^ 8 + c) * 2 ^ 8 + l) * 2 ^ 8 + n) * 2 ^ 12 + shape) * 2 ^ 12 + fn

/-- Every word of a list decodes to the instruction beside it, and the encoder gives the word back. -/
def decodes (l : List (Nat × Instr)) : Bool :=
  l.all fun e => decodeTableWord 64 e.1 == some e.2 && Dec.encode e.2 == [BitVec.ofNat 64 e.1]

theorem test_decode_scalar : decodes [(0x0100000000000000, .nop), (fA 0x02 1 2 0 3 0 0 0 0 0, .add (.g 1) (.g 2) (.g 3)),
    (fI 0x03 1 2 0 0 0 0xFFFFFFFF, .addi (.g 1) (.g 2) 0xFFFFFFFF), (fA 0x04 0x45 0x46 1 0x39 0 0 0 0 0, .sub (.s 5) (.s 6 true) (.q 1)),
    (fA 0x05 0x81 0x82 1 0x83 1 0 0 0 0, .mul (.m 1) (.m 2 true) (.m 3 true)), (fA 0x06 1 2 0 3 0 0 0 0 0, .mulh (.g 1) (.g 2) (.g 3)),
    (fA 0x07 1 2 0 3 0 0 0 0 0, .mulhn (.g 1) (.g 2) (.g 3)), (fA 0x08 1 2 0 3 0 0 0 0 0, .div (.g 1) (.g 2) (.g 3)),
    (fA 0x09 1 2 0 3 0 0 0 0 0, .divn (.g 1) (.g 2) (.g 3)), (fA 0x0A 1 2 0 3 0 0 0 0 0, .rem (.g 1) (.g 2) (.g 3)),
    (fA 0x0B 1 2 0 3 0 0 0 0 0, .remn (.g 1) (.g 2) (.g 3)), (fA 0x0C 1 2 0 3 0 0 0 0 0, .and (.g 1) (.g 2) (.g 3)),
    (fI 0x0D 1 2 0 0 0 5, .andi (.g 1) (.g 2) 5), (fA 0x0E 1 2 0 3 0 0 0 0 0, .or (.g 1) (.g 2) (.g 3)),
    (fI 0x0F 1 2 0 0 0 5, .ori (.g 1) (.g 2) 5), (fA 0x10 1 2 0 3 0 0 0 0 0, .xor (.g 1) (.g 2) (.g 3)),
    (fI 0x11 1 2 0 0 0 5, .xori (.g 1) (.g 2) 5), (fA 0x12 1 2 0 3 0 0 0 0 0, .andn (.g 1) (.g 2) (.g 3)),
    (fA 0x13 1 2 0 3 0 0 0 0 0, .shl (.g 1) (.g 2) (.g 3)), (fI 0x14 1 2 0 0 0 63, .shli (.g 1) (.g 2) 63),
    (fA 0x15 1 2 0 3 0 0 0 0 0, .shr (.g 1) (.g 2) (.g 3)), (fI 0x16 1 2 0 0 0 7, .shri (.g 1) (.g 2) 7),
    (fA 0x17 1 2 0 3 0 0 0 0 0, .sar (.g 1) (.g 2) (.g 3)), (fI 0x18 1 2 0 0 0 7, .sari (.g 1) (.g 2) 7),
    (fA 0x19 1 2 0 3 0 0 0 0 0, .rol (.g 1) (.g 2) (.g 3)), (fI 0x1A 1 2 0 0 0 7, .roli (.g 1) (.g 2) 7),
    (fA 0x1B 1 2 0 0 0 0 0 0 0, .clz (.g 1) (.g 2)), (fA 0x1C 1 2 0 0 0 0 0 0 0, .ctz (.g 1) (.g 2)),
    (fA 0x1D 1 2 0 0 0 0 0 0 0, .popc (.g 1) (.g 2)), (fA 0x1E 1 2 0 0 0 0 0 0 0, .brev (.g 1) (.g 2))] = true := by decide

theorem test_decode_scalar_more : decodes [(fI 0x1F 1 2 0 0 0 8, .sext (.g 1) (.g 2) 8), (fI 0x20 1 2 0 0 0 64, .zext (.g 1) (.g 2) 64),
    (fI 0x21 1 2 0 0 0 (7 * 256 + 4), .bfx (.g 1) (.g 2) 4 7), (fI 0x21 1 2 0 0 1 (7 * 256 + 4), .bfxS (.g 1) (.g 2) 4 7),
    (fI 0x22 1 2 0 0 0 (7 * 256 + 4), .bfi (.g 1) (.g 2) 4 7), (fA 0x23 1 2 0 3 0 0 0 0 0, .min (.g 1) (.g 2) (.g 3)),
    (fA 0x24 1 2 0 3 0 0 0 0 0, .max (.g 1) (.g 2) (.g 3)), (fA 0x25 1 2 0 3 0 0 0 0 0, .minn (.g 1) (.g 2) (.g 3)),
    (fA 0x26 1 2 0 3 0 0 0 0 0, .maxn (.g 1) (.g 2) (.g 3)), (fA 0x27 1 2 0 3 0 0 0 0 0, .slt (.g 1) (.g 2) (.g 3)),
    (fA 0x28 1 2 0 3 0 0 0 0 0, .sltn (.g 1) (.g 2) (.g 3)), (fI 0x29 1 2 0 0 0 9, .slti (.g 1) (.g 2) 9),
    (fI 0x29 1 2 0 0 1 9, .sltiN (.g 1) (.g 2) 9), (fA 0x2A 1 2 0 3 0 0 0 0 0, .seq (.g 1) (.g 2) (.g 3)),
    (fA 0x2B 1 2 0 3 0 0 0 0 0x44, .sel (.g 1) (.g 2) (.g 3) (.s 4)), (fA 0x2C 2 0x45 1 0 0 0 0 0 0, .mov (.g 2) (.s 5 true)),
    (fI 0x2D 4 0 0 0 0 10, .movi (.g 4) 10), (fM 0x2F 1 2 0 0 0 0 0 16, .lea (.g 1) (.g 2) 16),
    (fM 0x2F 1 2 0 0 1 0 0 16, .leaWin (.g 1) (.g 2) 16), (fB 0x30 4 0 0 0 4, .br .eq (.g 4) (.g 0) 4),
    (fB 0x30 4 5 0 7 4, .br .none (.g 4) (.g 5) 4), (fB 0x31 0 0 0 0 0x7FFFFFFFF, .jmp 0x7FFFFFFFF), (fA 0x32 0 31 0 0 0 0 0 0 0, .jmpi (.g 31)),
    (0x3300000000000003, .call 3), (fA 0x34 0 9 0 0 0 0 0 0 0, .calli (.g 9)), (0x35040007FFFFFFFE, .loop 4 0x7FFFFFFFE),
    (fA 0x36 0 0x3A 0 5 0 0 0 0 6, .btag 2 (.g 5) (.g 6)), (fB 0x37 0x31 0x32 0 0 8, .bkany 1 2 8), (fB 0x38 0x31 0x30 0 0 8, .bkall 1 0 8),
    (fI 0x39 0 0 0 0 0 7, .park 7), (fI 0x39 0 0 0 0 1 0x801, .parkEv 0x801), (0x3A00000000000000, .done),
    (fI 0x3B 0 0 0 0 0 99, .trap 99), (fI 0x3C 0 0 0 0 0 98, .brkp 98)] = true := by decide

theorem test_decode_movx : decodeTableWord 128 (0xE00000000040001F * 2 ^ 64 + fI 0x2E 5 0 0 0 0xD 0) = some (.movx (.g 5) 0xD00000000040001F) ∧
    Dec.encode (.movx (.g 5) 0xD00000000040001F) = [0x2E05000D00000000, 0xE00000000040001F] := by decide

theorem test_decode_memory : decodes [(fM 0x50 1 4 0 3 1 0 1 8, .ld (.g 1) .n64 { base := .g 4, off := 8, glb := true, keep := true }),
    (fM 0x51 1 4 0 6 0 0 0 8, .lds 1 .i32 locAddr), (fM 0x52 0x39 0x45 1 2 1 3 0 8, .st (.q 1) .n32 .core { okAddr with base := .s 5 true }),
    (fM 0x53 0x21 4 0 7 1 0 0 8, .vld 1 okAddr), (fM 0x54 0x21 4 0 7 1 2 0 8, .vst 1 .die okAddr),
    (fA 0x55 0x21 4 0 5 0 0 2 0 0x7FF, .vlds { v := 1, base := .g 4, stride := .g 5, k := 2, glb := false, off := 0x7FF }),
    (fA 0x56 0x21 4 0 5 0 0 2 0 0x808, .vsts { v := 1, base := .g 4, stride := .g 5, k := 2, glb := true, off := 8 }),
    (fA 0x57 0x21 4 0 0x22 0 0x603 2 0 8, .vgath { v := 1, base := .g 4, vi := 2, perm := .rot 4 3, k := 2, glb := false, off := 8 }),
    (fA 0x58 0x21 4 0 0x22 0 0 2 0 0x808, .vscat { v := 1, base := .g 4, vi := 2, perm := .none, k := 2, glb := true, off := 8 }),
    (fA 0x57 0x21 4 0 0x22 0 0 2 0 0x407, .vgathT { v := 1, h := .g 4, c := 7, vi := 2, perm := .none, k := 2 }),
    (fA 0x58 0x21 4 0 0x22 0 0 2 0 0x407, .vscatT { v := 1, h := .g 4, c := 7, vi := 2, perm := .none, k := 2 }),
    (fM 0x59 0x31 4 0 3 1 0 0 8, .kld 1 okAddr), (fM 0x5A 0x31 4 0 3 1 1 0 8, .kst 1 .pkg okAddr), (0x5B01040300000900, .amoadd { amo0 with glb := true }),
    (fA 0x5C 1 4 0 6 0 0 0 0 0x100, .amoswp amo0), (fA 0x5D 1 4 0 6 0 0 0 0 0x107, .amocas amo0 (.g 7)),
    (fA 0x5E 1 4 0 6 0 0 0 0 0xD00, .amoand { amo0 with glb := true, scope := .die }), (fA 0x5F 1 4 0 6 0 0 0 0 0x100, .amoor amo0),
    (fA 0x60 1 4 0 6 0 0 0 0 0x100, .amoxor amo0), (fA 0x61 1 4 0 6 0 0 0 0 0x100, .amomin amo0 false),
    (fA 0x62 1 4 0 6 0 0 0 1 0x100, .amomax amo0 true), (fA 0x63 1 4 0 6 0 0 0 2 0, .amofadd { amo0 with w64 := false }),
    (fA 0x64 0 4 0 6 0 0 0 0 0x100, .radd .i64 (.g 4) (.g 6)), (fA 0x64 0 4 0 6 0 0 0 2 0x805, .raddOrd .f32 (.g 4) (.g 6) (.g 5)),
    (fA 0x65 0 4 0 0x21 0 0 3 0 0, .raddv { isF := false, a := .g 4, v := 1, perm := .none, k := 3 }),
    (fA 0x65 0 4 0 0x21 0 0 3 2 0x805, .raddvOrd { isF := true, a := .g 4, v := 1, perm := .none, k := 3 } (.g 5))] = true := by decide

theorem test_decode_sync : decodes [(fA 0x66 0 0 0 0 0 0 0 0 0, .fence), (0x6745040000000000, .sfill (.s 5) (.g 4)),
    (fA 0x68 1 0x40 0 0 0 0 0 0 0, .fstat (.g 1) false), (fA 0x68 1 0x80 0 0 0 0 0 0 0, .fstat (.g 1) true),
    (fM 0x69 0 4 0 0 1 0 0 8, .migr (.g 4) 8), (0x69000C1800000000, .migrCrew (.g 12) 0), (fI 0x6A 0 0 0 0 0 1, .mpin true),
    (fI 0x6A 0 0 0 0 0 0, .mpin false), (fA 0x6B 0 4 0 5 0 0 0 0 0, .crewj (.g 4) (.g 5)),
    (0x6C0508049B000000, .get { h := .g 5, c := 8, l := .g 4, rc := some 3, sc := none, prio := none }),
    (fT 0x6D 5 8 4 0x9B 0 0xE99, .put { h := .g 5, c := 8, l := .g 4, rc := some 3, sc := some 1, prio := some 3 }),
    (fT 0x6E 5 8 4 0x9B 0x170 2, .gett { t := { h := .g 5, c := .g 8, l := .g 4, sh := { r := 1, c := 7, view := 0 } }, n := some 3, id := 2, prio := none }),
    (fT 0x6F 5 8 4 0 0x001 0x802, .putt { t := { h := .g 5, c := .g 8, l := .g 4, sh := { r := 0, c := 0, view := 1 } }, n := none, id := 2, prio := some 0 }),
    (0x70000D0700000001, .qsend 1 (.g 13) 14 0), (fA 0x70 0 13 0 14 0 0 0 0 0x3A, .qsend 2 (.g 13) 14 7), (0x71009B0380000000, .cexp 3 (.g 7)),
    (fA 0x72 0 0x9B 0 7 0 0 0 0 0, .cadd 3 (.g 7)), (fA 0x72 0 0x9B 0 7 0 0 0 0 1, .caddClr 3 (.g 7)), (fA 0x73 1 0x9B 0 0 0 0 0 0 0, .crd (.g 1) 3),
    (0x74000C0000000000, .xwait (.g 12)), (0x7500000000000000, .hurdle 0), (0x7600050000000000, .hset 0 (.g 5)),
    (fI 0x77 0 5 0 0 7 0, .view 7 (.g 5)), (fM 0x78 0 4 0 0 1 0 0 8, .clineWb (.g 4) 8), (fM 0x78 0 4 0 1 1 0 0 8, .clineEvict (.g 4) 8),
    (fM 0x78 0 4 0 2 1 0 0 8, .clinePf (.g 4) 8)] = true := by decide

theorem test_decode_vector : decodes [(fA 0x80 0x21 0x22 0 0x23 0 0x603 1 2 9, .vadd { d := 1, a := 2, b := .v 3 (.rot 4 3), k := 1, ty := .f32 } (some .rtz) false),
    (fA 0x81 0x21 0x22 0 0x23 0 0 0 4 16, .vsub (vty .i16) none true), (fA 0x82 0x21 0x22 0 5 0 0 0 5 0, .vmul { vty .i8 with b := .sc (.g 5) } none false),
    (fA 0x83 0x21 0x22 0 0x23 0 0 0 3 0, .vfma (vty .bf16) none false), (fA 0x84 0x21 0x22 0 0x23 0 0 0 6 0, .vmin (vty .e4m3)),
    (fA 0x85 0x21 0x22 0 0x23 0 0 0 7 0, .vmax (vty .e5m2)), (fA 0x86 0x21 0x22 0 0 0 0 0 0 16, .vabs (v2ty .i32) true),
    (fA 0x87 0x21 0x22 0 0 0 0 0 2 0, .vneg (v2ty .f32) false), (fA 0x88 0x21 0x22 0 0x23 0 0 0 0 0, .vand (vty .i32)),
    (fA 0x89 0x21 0x22 0 0x23 0 0 0 0 0, .vor (vty .i32)), (fA 0x8A 0x21 0x22 0 0x23 0 0 0 0 0, .vxor (vty .i32)),
    (fA 0x8B 0x21 0x22 0 0x23 0 0 0 1 0, .vshl (vty .n32)), (fA 0x8C 0x21 0x22 0 0x23 0 0 0 0 0, .vshr (vty .i32)),
    (fA 0x8D 0x21 0x22 0 0x23 0 0 0 5 0, .vsar (vty .i8)), (fA 0x8E 0x31 0x22 0 0x23 0 0 0 1 0x40, .vcmp 1 .lt 2 (.v 3 .none) 0 .n32),
    (fA 0x8F 0x21 0x22 0 0x23 0 0 0 0 0xE0, .vsel (vty .i32) 7), (fA 0x90 0x21 0 0 0x23 0 0x802 0 3 0, .vmov 1 (.v 3 (.bfly 0 2)) 0 .bf16),
    (fA 0x91 0x21 0x22 0 5 0 0 0 5 0, .vbcast 1 2 (.g 5) 0 .i8), (fA 0x92 5 0x22 0 0x39 0 0 0 4 0, .vext (.g 5) 2 (.q 1) .i16),
    (fA 0x93 0x21 6 0 5 0 0 0 2 0, .vins 1 (.g 6) (.g 5) .f32), (0x9405260000002000, .vred (.g 5) .add 6 0 .f32 none),
    (fA 0x95 0x21 6 0 5 0 0 0 0 0, .vidx 1 (.g 6) (.g 5) 0 .i32), (fA 0x96 0x21 0x22 0 0 0 0 0 2 0xC, .vrcp (v2ty .f32) (some .srh)),
    (fA 0x97 0x21 0x22 0 0 0 0 0 3 0, .vrsq (v2ty .bf16) none), (fA 0x98 0x21 0x22 0 0 0 0 0 2 0, .vexp2 (v2ty .f32) none),
    (fA 0x99 0x21 0x22 0 0 0 0 0 2 0, .vlog2 (v2ty .f32) none)] = true := by decide

theorem test_decode_mask : decodes [(fA 0xA3 0x31 0x32 0 0x33 0 0 0 0 0, .kand 1 2 3), (fA 0xA4 0x31 0x32 0 0x33 0 0 0 0 0, .kor 1 2 3),
    (fA 0xA5 0x31 0x32 0 0x33 0 0 0 0 0, .kxor 1 2 3), (fA 0xA6 0x31 0x32 0 0 0 0 0 0 0, .knot 1 2), (0xA703310000000000, .kpop (.g 3) 1),
    (fA 0xA8 3 0x31 0 0 0 0 0 0 0, .kfirst (.g 3) 1), (fA 0xA9 0x31 0x45 1 0 0 0 0 0 0, .kmov (.k 1) (.r (.s 5 true))),
    (fA 0xA9 5 0x31 0 0 0 0 0 0 0, .kmov (.r (.g 5)) (.k 1))] = true := by decide

theorem test_decode_convert : decodes [(fA 0x9A 0x21 0x22 0 0 0 0 0 2 0x20, .vcvt (v2ty .f32) .n32 none),
    (fA 0x9B 0x21 0x22 0 0x23 0 0 0 3 0x40, .vpack 1 2 3 .none 0 .bf16 .f32 none), (fA 0x9C 0x21 0x22 0 0 0 0 0 2 0x160, .vunpk (v2ty .f32) .bf16 true),
    (fA 0x9D 0x21 0x22 0 0x23 0 0 0 0 0, .vshrr (vty .i32)), (fA 0x9E 0x21 0x22 0 0 0 0 0 0 0x8E0, .vsat (v2ty .i32) 7 true),
    (fA 0x9F 0x21 0x22 0 0x23 0 0 0 4 0, .vmulq (vty .i16)), (fA 0xA0 0x21 0x22 0 0 0 0 0 2 0x60, .vquant 1 2 .mxfp4 none),
    (fA 0xA1 0x21 0x22 0 5 0 0 0 2 0x8A, .vdeq 1 2 (.i8 (.sc (.g 5))) (some .rdn)),
    (fA 0xA2 0x21 0x22 0 0x23 0 0 0 5 0x50, .vdot 1 2 (.v 3 .none) 0 false true true)] = true := by decide

theorem test_decode_matrix : decodes [(fT 0xB0 1 2 0x88 3 0x101 0x155, .mma { h := .g 1, c := .g 2, l := 0, n := 3, sh := { m := .e32, n := .e64, kg := 1 }, af := .i8, bf := .i8, ta := true, tb := false }),
    (fT 0xB1 1 2 0x89 0 0x500 0x120, .mmat { h := 1, c := 2, l := 1, n := 0, sh := { m := .e64, n := .e64, kg := 0 }, af := none, bf := some .bf16, ta := false, tb := false }),
    (fT 0xB2 1 0x22 0x8A 5 0x800 0x050, .mmag { h := 1, vi := 2, l := 2, n := 5, sh := { m := .e128, n := .e32, kg := 0 }, bf := .i8 }),
    (fT 0xB3 1 2 0x97 0 0x002 0, .mmas 1 2 15 { m := .e32, n := .e32, kg := 2 }), (fT 0xB4 0 0 0x88 0 0 1, .azero 0 true),
    (fT 0xB5 1 0 0x88 5 0x901 0xBB2, .aepi { h := .g 1, c := 0, l := 0, n := 5, xs := some (.e128, .e64), df := .bf16, act := .clamp, add := false, rel := true, rm := some .rup }),
    (fT 0xB6 0 0 0x8F 0 0 0, .arel 7), (fT 0xB7 0 0 0x88 0 0 0, .aclaim 0), (fT 0xB8 1 0 0x88 0 0 0, .asave (.g 1) 0),
    (fT 0xB9 1 0 0x88 0 0 0, .aload (.g 1) 0), (fT 0xBA 1 2 3 0x98 0 0, .collAr { h := 1, c := 2, l := 3, n := some 0 }),
    (fT 0xBA 1 2 0 0 0 1, .collRs { h := 1, c := 2, l := 0, n := none }), (fT 0xBA 1 2 0 0 0 2, .collAg { h := 1, c := 2, l := 0, n := none }),
    (fT 0xBA 1 2 0 0 0 3, .collA2a { h := 1, c := 2, l := 0, n := none })] = true := by decide

theorem test_decode_tensor : decodes [(0xC002030400000005, .talloc 2 3 4 5), (fT 0xC1 1 0 0 0 0 0, .tfree (.g 1)),
    (fT 0xC2 1 2 0 0 0 0x105, .twiden (.g 1) (.g 2) 5 true), (fT 0xC3 1 0 0x45 0 0 3, .tinfo (.g 1) (.s 5) 3),
    (0xC404050600170000, .tld { h := .g 4, c := .g 5, l := .g 6, sh := { r := 1, c := 7, view := 0 } }),
    (fT 0xC5 1 2 3 0 0 0, .tldt { h := .g 1, c := .g 2, l := .g 3, sh := tsh0 }), (fT 0xC6 1 2 3 0 0x00F 0, .tst { h := .g 1, c := .g 2, l := .g 3, sh := { tsh0 with view := 15 } }),
    (fT 0xC6 1 2 3 0 0 1, .tstAdd { h := .g 1, c := .g 2, l := .g 3, sh := tsh0 }), (0xC702070600000000, .tredRow { h := .g 2, c := .g 7, l := .g 6, sh := tsh0 } .add none),
    (fT 0xC7 1 2 3 0 0 0x907, .tredCol { h := .g 1, c := .g 2, l := .g 3, sh := tsh0 } .amax (some .rtz)), (0xC802070800000000, .tscale (.g 2) (.g 7) 8 tsh0 none),
    (fT 0xC9 1 2 3 0 0 1, .tew (.g 1) (.g 2) (.tile .mul (.g 3)) tsh0 none), (fT 0xC9 1 2 3 0 0 0xB, .tew (.g 1) (.g 2) (.scalar .min 3) tsh0 none),
    (fT 0xC9 1 2 0 0 0 4, .tew (.g 1) (.g 2) .relu tsh0 none), (fT 0xCA 1 2 3 0 0x120 1, .tcopy (.g 1) 2 3 { r := 1, c := 2, view := 0 } true none),
    (fT 0xCB 1 0 3 0x99 0 0x205, .stash { h := .g 1, l := 3, n := some 1, st := 5, grade := .s7, tgt := .image }),
    (fT 0xCC 1 0 3 0 0 0x900, .restore { h := .g 1, l := 3, n := none, st := 0, grade := .s5, tgt := .peer }), (fT 0xCD 1 2 0 0 0 0, .nmload (.g 1) (.g 2)),
    (fT 0xCE 1 2 0 0 0x230 0, .nmstrm (.g 1) (.g 2) 2 3), (fT 0xCF 1 2 0 0 0x230 0x800, .nmdrain (.g 1) (.g 2) 2 3 (some .rne))] = true := by decide

theorem test_decode_system : decodes [(fA 0xD0 0 3 0 4 0 0 0 0 0, .spawn (.g 3) (.g 4)), (fA 0xD1 1 3 0 4 0 0 0 0 0, .reap (.g 1) (.g 3) (.g 4)),
    (fA 0xD2 1 3 0 0 0 0 0 0 0, .launch (.g 1) (.g 3)), (fA 0xD3 1 3 0 0 0 0 0 0 2, .cancel .phase (.g 1) (.g 3)), (fI 0xD4 1 0 0 0 0 7, .sysrd (.g 1) .pts),
    (fI 0xD5 0 0x38 0 0 0 0x16, .syswr .seed (.q 0)), (fA 0xD6 0 0 0 0 0 0 0 0 0, .xret none), (fA 0xD6 0 0x45 1 0 0 0 0 0 1, .xret (some (.s 5 true))),
    (0xD700000000000020, .svc 0x20), (0xD800050200000000, .keep 2 (.g 5))] = true := by decide

/-- The trap value of a word that is refused. -/
def refused (w : Word) : Option Word :=
  match Dec.decode false w none with
  | .ok _ => none
  | .error e => if e.cause = 1 then some e.xvalue else none

theorem test_decode_refused : refused 0x3D00000000000000 = some 0x3802 ∧ refused 0 = some 0x3802 ∧
    refused (BitVec.ofNat 64 (fA 0x02 1 0x21 0 3 0 0 0 0 0)) = some (40 * 256 + 4) ∧ refused (BitVec.ofNat 64 (fI 0x14 1 2 0 0 0 64)) = some (6 * 256 + 3) ∧
    refused (BitVec.ofNat 64 (fI 0x29 1 2 0 0 2 0)) = some (32 * 256 + 5) ∧ refused (BitVec.ofNat 64 (fB 0x35 0 0 0 0 1)) = some (48 * 256 + 4) ∧
    refused 0xE000000000000001 = some (60 * 256 + 6) ∧ Dec.decode true (BitVec.ofNat 64 (fA 0x2C 2 0x45 0 0 0 0 0 0 0)) none ≠ .ok (.mov (.g 2) (.s 5 false)) := by
  decide

/-! ## A small state -/

/-- Page tables of job 0: 1 GiB leaves for a CACHED code and data page (virtual 0), a MIGRATE page with home 0 (virtual 2^30), a page
of the host window (2^31), and a CACHED page without rights (3 * 2^30). -/
def tables : Memory :=
  let m := writeN [] 0 8 0x80001
  let m := writeN m 0x80000 8 0x40000099
  let m := writeN m 0x80008 8 0x800000A9
  let m := writeN m 0x80010 8 0xC000000000E9
  writeN m 0x80018 8 0xC0000081

/-- Job 0 with its tensors. -/
def job0 (ts : SMap Tensor) : Job := { State.reset.jobOfFrame 0 with tensors := ts, shadowPool := 0x1000000 }

/-- A RUNNING slot of job 0 at 0x1000 in an open span, with the given general registers. -/
def slot0 (gs : SMap Word) : Slot :=
  { Slot.dflt with st := .running, pc := 0x1000, span := .open_, job := some 0, regs := { Regs.zero with g := gs } }

/-- Thread `k` runs job 0 as `slot0`. -/
def small (k : Nat) (gs : SMap Word) : State :=
  { State.reset with
    cur := k, mem := tables, jobs := [(0, some (job0 []))], clusters := [(0, { Cluster.dflt with job := some 0 })], slots := [(k, slot0 gs)] }

/-- What holds of the next state, if there is one. -/
def next (i : Instr) (s : State) (p : State → Bool) : Bool :=
  match exec i s with
  | .next t => p t
  | _ => false

/-- What holds of the answer of an operation, if it answers. -/
def okM {α : Type} (m : M α) (s : State) (p : α → State → Bool) : Bool :=
  match m s with
  | .ok (x, t) => p x t
  | .error _ => false

/-- An operation answers. -/
def okay {α : Type} (m : M α) (s : State) : Bool := okM m s fun _ _ => true

/-- An instruction of a small state takes trap `c` with XVALUE `v`: the slot ends as failed with the cause, and what it would
have absorbed holds the value. -/
def traps (i : Instr) (s : State) (c : Nat) (v : Word) : Bool :=
  next i s fun t => decide (t = s.trapMe c v)

/-- g3 of slot 1 after an instruction that goes on, with g1 and g2 as given. -/
def g3 (x y : Word) (i : Instr) : Option Word :=
  match exec i (small 1 [(1, x), (2, y)]) with
  | .next t => if (t.slot 1).pc = 0x1008 ∧ (t.slot 1).st = .running then some ((t.slot 1).regs.readG 3) else none
  | _ => none

/-! ## Scalar instructions: the rows of R242, and results worked by hand from R240-R249 -/

theorem test_add : g3 0xFFFFFFFFFFFFFFFF 2 (.add (.g 3) (.g 1) (.g 2)) = some 1 := by decide
theorem test_addi : g3 5 0 (.addi (.g 3) (.g 1) 0xFFFFFFFF) = some 4 := by decide
theorem test_sub : g3 0 1 (.sub (.g 3) (.g 1) (.g 2)) = some 0xFFFFFFFFFFFFFFFF := by decide
theorem test_mul : g3 0x8000000000000001 2 (.mul (.g 3) (.g 1) (.g 2)) = some 2 := by decide
theorem test_mulh : g3 (-1) 1 (.mulh (.g 3) (.g 1) (.g 2)) = some (-1) := by decide
theorem test_mulhn : g3 (-1) 2 (.mulhn (.g 3) (.g 1) (.g 2)) = some 1 := by decide
theorem test_div : g3 7 (-2) (.div (.g 3) (.g 1) (.g 2)) = some (-3) ∧ g3 5 0 (.div (.g 3) (.g 1) (.g 2)) = some (-1) := by decide
theorem test_div_least : g3 0x8000000000000000 (-1) (.div (.g 3) (.g 1) (.g 2)) = some 0x8000000000000000 := by decide
theorem test_divn : g3 (-1) 2 (.divn (.g 3) (.g 1) (.g 2)) = some 0x7FFFFFFFFFFFFFFF := by decide
theorem test_rem : g3 7 (-2) (.rem (.g 3) (.g 1) (.g 2)) = some 1 ∧ g3 (-7) 2 (.rem (.g 3) (.g 1) (.g 2)) = some (-1) := by decide
theorem test_remn : g3 0xFFFFFFFFFFFFFFF9 0 (.remn (.g 3) (.g 1) (.g 2)) = some 0xFFFFFFFFFFFFFFF9 := by decide
theorem test_and : g3 0xC 0xA (.and (.g 3) (.g 1) (.g 2)) = some 8 := by decide
theorem test_andi : g3 (-1) 0 (.andi (.g 3) (.g 1) 0x80000000) = some 0xFFFFFFFF80000000 := by decide
theorem test_or : g3 0xC 0xA (.or (.g 3) (.g 1) (.g 2)) = some 0xE := by decide
theorem test_ori : g3 0 0 (.ori (.g 3) (.g 1) 0x80000000) = some 0xFFFFFFFF80000000 := by decide
theorem test_xor : g3 0xC 0xA (.xor (.g 3) (.g 1) (.g 2)) = some 6 := by decide
theorem test_xori : g3 0xC 0 (.xori (.g 3) (.g 1) 0xFFFFFFFF) = some 0xFFFFFFFFFFFFFFF3 := by decide
theorem test_andn : g3 0xC 0xA (.andn (.g 3) (.g 1) (.g 2)) = some 4 := by decide
theorem test_shl : g3 1 0x43 (.shl (.g 3) (.g 1) (.g 2)) = some 8 := by decide
theorem test_shli : g3 3 0 (.shli (.g 3) (.g 1) 63) = some 0x8000000000000000 := by decide
theorem test_shr : g3 0x8000000000000000 63 (.shr (.g 3) (.g 1) (.g 2)) = some 1 := by decide
theorem test_shri : g3 0x8000000000000000 0 (.shri (.g 3) (.g 1) 62) = some 2 := by decide
theorem test_sar : g3 0x8000000000000000 63 (.sar (.g 3) (.g 1) (.g 2)) = some (-1) := by decide
theorem test_sari : g3 0x8000000000000000 0 (.sari (.g 3) (.g 1) 62) = some (-2) := by decide
theorem test_rol : g3 0x8000000000000001 1 (.rol (.g 3) (.g 1) (.g 2)) = some 3 := by decide
theorem test_roli : g3 0x8000000000000001 0 (.roli (.g 3) (.g 1) 0) = some 0x8000000000000001 := by decide
theorem test_clz : g3 0 0 (.clz (.g 3) (.g 1)) = some 64 ∧ g3 1 0 (.clz (.g 3) (.g 1)) = some 63 := by decide
theorem test_ctz : g3 0 0 (.ctz (.g 3) (.g 1)) = some 64 ∧ g3 8 0 (.ctz (.g 3) (.g 1)) = some 3 := by decide
theorem test_popc : g3 0xF00000000000000F 0 (.popc (.g 3) (.g 1)) = some 8 := by decide
theorem test_brev : g3 0xD 0 (.brev (.g 3) (.g 1)) = some 0xB000000000000000 := by decide +kernel
theorem test_sext : g3 0x180 0 (.sext (.g 3) (.g 1) 8) = some (-128) ∧ g3 0x8000000000000001 0 (.sext (.g 3) (.g 1) 64) = some 0x8000000000000001 := by decide
theorem test_zext : g3 0x180 0 (.zext (.g 3) (.g 1) 8) = some 0x80 := by decide
theorem test_bfx : g3 0xABCD 0 (.bfx (.g 3) (.g 1) 4 7) = some 0xBC := by decide
theorem test_bfxS : g3 0xABCD 0 (.bfxS (.g 3) (.g 1) 4 7) = some 0xFFFFFFFFFFFFFFBC := by decide
theorem test_bfi : (next (.bfi (.g 3) (.g 1) 4 7) (small 1 [(1, 0xABC), (3, -1)]) fun t => decide ((t.slot 1).regs.readG 3 = 0xFFFFFFFFFFFFFBCF)) = true := by decide
theorem test_min : g3 (-1) 1 (.min (.g 3) (.g 1) (.g 2)) = some (-1) := by decide
theorem test_max : g3 (-1) 1 (.max (.g 3) (.g 1) (.g 2)) = some 1 := by decide
theorem test_minn : g3 (-1) 1 (.minn (.g 3) (.g 1) (.g 2)) = some 1 := by decide
theorem test_maxn : g3 (-1) 1 (.maxn (.g 3) (.g 1) (.g 2)) = some (-1) := by decide
theorem test_slt : g3 (-1) 1 (.slt (.g 3) (.g 1) (.g 2)) = some 1 := by decide
theorem test_sltn : g3 (-1) 1 (.sltn (.g 3) (.g 1) (.g 2)) = some 0 := by decide
theorem test_slti : g3 (-2) 0 (.slti (.g 3) (.g 1) 0xFFFFFFFF) = some 1 := by decide
theorem test_sltiN : g3 5 0 (.sltiN (.g 3) (.g 1) 0xFFFFFFFF) = some 1 := by decide
theorem test_seq : g3 5 5 (.seq (.g 3) (.g 1) (.g 2)) = some 1 := by decide
theorem test_sel : g3 5 6 (.sel (.g 3) (.g 1) (.g 2) (.g 0)) = some 6 ∧ g3 5 6 (.sel (.g 3) (.g 1) (.g 2) (.g 1)) = some 5 := by decide
theorem test_mov : g3 5 0 (.mov (.g 3) (.g 1)) = some 5 := by decide
theorem test_movi : g3 0 0 (.movi (.g 3) 0x80000000) = some 0xFFFFFFFF80000000 := by decide
theorem test_movx : (next (.movx (.g 3) 0xD00000000040001F) (small 1 []) fun t => (t.slot 1).regs.readG 3 == 0xD00000000040001F && (t.slot 1).pc == 0x1010) = true := by decide
theorem test_lea : g3 8 0 (.lea (.g 3) (.g 1) 0xFFFFFFFC) = some 4 := by decide
theorem test_nop : g3 0 0 .nop = some 0 := by decide
theorem test_g0 : (next (.movi (.g 0) 7) (small 1 []) fun t => decide ((t.slot 1).regs.readG 0 = 0 ∧ (t.slot 1).pc = 0x1008)) = true := by decide

/-- The example of R249: on core 0.017 with g4 = 0 LEA.win with offset 0x100. -/
theorem test_leaWin : (next (.leaWin (.g 7) (.g 4) 0x100) (small (0x11 * 32 + 1) []) fun t =>
    decide ((t.slot (0x11 * 32 + 1)).regs.readG 7 = 0x80000110000100)) = true := by decide

/-! ## Witnesses: for each statement with hypotheses, a state and operands that meet them -/

/-- The answer is a next state. -/
def goes (o : Out) : Bool := match o with | .next _ => true | _ => false

/-- A program of two words placed from outside, before its turn. -/
def placed (w0 w1 : Nat) : State := { State.reset.placeWords (BitVec.ofNat 64 w0) (BitVec.ofNat 64 w1) with cur := 1 }

theorem wit_StepKeepsCanon : Memory.wf (placed 0x0100000000000000 0).mem = true ∧ goes (step (placed 0x0100000000000000 0)) = true := by decide

theorem wit_NothingRefused : ∀ d, (State.reset.die d).stopped = false := fun _ => rfl

/-- The conditions of `StepRunsDecoded` on a state, but for the word. -/
def ready (s : State) : Bool :=
  s.agenda == [] && s.active == 0 && !(s.die 0).stopped && (s.core 0).turn == 1 && threadAt 0 1 == 1 && (s.slot 1).st == .running &&
    !s.cancelDue 1 && !(s.slot 1).inCancel && !s.stoppedFor 1

/-- The word at the PC of thread 1, and what stands there. -/
def fetched (s : State) (p : Word → Bool) : Bool := match s.fetch 1 (s.slot 1).pc.toNat with | .ok w => p w | .error _ => false

theorem wit_StepRunsDecoded_open : (let s := { placed 0x0100000000000000 0 with cur := 1, grant := none }
    ready s && fetched s (fun w => !Dec.isHeader w && !Dec.isMovx w && Dec.decode false w none == .ok .nop) && (s.slot 1).span == .open_ &&
      (match s.fetchIssue 1 with | .ok (i, v) => i == .nop && goes (exec i (v.count 1)) | .error _ => false)) = true := by decide

theorem wit_StepRunsDecoded_block : (let s := (placed 0x0100000000000000 0).modSlot 1 fun x => { x with span := .block 1 0 0 false }
    ready s && fetched s (fun w => !Dec.isHeader w && !Dec.isMovx w && Dec.decode false w none == .ok .nop)) = true := by decide

theorem wit_StepRunsDecoded_movx : (let s := placed 0x2E05000D00000000 0xE00000000040001F
    ready s && fetched s (fun w => Dec.isMovx w) && (s.slot 1).span == .open_ &&
      (match s.fetch 1 0x1008 with | .ok x => Dec.decode false 0x2E05000D00000000 (some x) == .ok (.movx (.g 5) 0xD00000000040001F) | .error _ => false)) =
    true := by decide

theorem wit_StepRunsDecoded_header : (let s := placed 0xF004000800000000 0x0100000000000000
    let v := s.modSlot 1 fun k => k.openBlock 0xF004000800000000
    ready s && fetched s (fun w => w == 0xF004000800000000 && Dec.isHeader w) && (s.slot 1).span == .open_ &&
      fetched v (fun x => !Dec.isHeader x && (match v.inSpan 1 x with | .ok i => i == .nop | .error _ => false))) = true := by decide

theorem wit_SpecWordsDecode : Dec.isLiteral 0xE000000000000005 = true ∧ Dec.isHeader 0xF004000800000000 = true := by decide

theorem wit_RoundTripScalarMemory : (scalarRow .nop || memoryRow .nop) = true ∧ WF.instr .nop = true ∧ Dec.encode .nop = [0x0100000000000000] := by decide

theorem wit_RoundTripVector : vectorRow (.vabs (v2ty .f32) false) = true ∧ WF.instr (.vabs (v2ty .f32) false) = true ∧
    (Dec.encode (.vabs (v2ty .f32) false)).length = 1 := by decide

theorem wit_RoundTripEngines : engineRow (.arel 1) = true ∧ WF.instr (.arel 1) = true ∧ (Dec.encode (.arel 1)).length = 1 := by decide

/-- Thread 1 with a handler at 0x2000, whose first word is a header. -/
def handled : State :=
  { small 1 [(1, 7)] with mem := writeN tables 0x40002000 8 0xF004000800000000 }.modSlot 1 fun x => { x with sp := { x.sp with xhandler := 0x2000 } }

/-- The same inside its handler, with 0x1008 in XPC and the return mark set. -/
def inHandler : State := handled.modSlot 1 fun x => { x with pc := 0x2008, sp := { x.sp with xstat := 1, xcause := 0x0F, xpc := 0x1008, rmark := true } }

theorem wit_TrapEntry : handled.me.sp.xhandler ≠ 0 ∧ handled.me.sp.xstat.getLsbD 0 = false ∧ handled.handlerOk handled.cur = true := by decide

theorem test_trap_entry : (next (.trap 99) handled fun t => (t.slot 1).pc == 0x2000 && (t.slot 1).sp.xcause == 0x0F && (t.slot 1).sp.xvalue == 99 &&
    (t.slot 1).sp.xpc == 0x1000 && (t.slot 1).sp.xstat == 1 && (t.slot 1).regs.readG 1 == 7) = true := by decide
theorem test_brkp : (next (.brkp 98) handled fun t => (t.slot 1).pc == 0x2000 && (t.slot 1).sp.xcause == 0x10 && (t.slot 1).sp.xvalue == 98) = true := by decide

theorem wit_SoftwareTraps : (State.reset.die (runDie State.reset.cur)).stopped = false := rfl

theorem wit_UnitFails : (small 1 []).me.sp.xhandler = 0 ∧ inHandler.me.sp.xstat.getLsbD 0 = true ∧
    ((small 1 []).modSlot 1 fun x => { x with sp := { x.sp with xhandler := 0x3000 } }).handlerOk 1 = false := by decide

theorem test_unit_fails : (next (.trap 99) (small 1 []) fun t => (t.slot 1).st == .ended &&
    (t.slot 1).fin == some { code := 1, cause := 0x0F, xpc := 0x1000, tid := 1 }) = true := by decide

theorem wit_TrapReturns : (inHandler.die (runDie inHandler.cur)).stopped = false ∧ inHandler.me.sp.xstat.getLsbD 0 = true ∧ inHandler.me.sp.xcause ≠ 0x13 ∧
    inHandler.me.sp.rmark = true ∧ (small 1 []).me.sp.xstat.getLsbD 0 = false := by decide

theorem wit_TrapReturns_st : okM (readSrc 1 (.g 1)) (inHandler.modSlot 1 fun x => x.putG 1 0x40) (fun v s1 => s1.me.sp.xstat.getLsbD 0 &&
    s1.me.sp.xcause != 0x13 && !xretBad v && s1.me.sp.rmark) = true := by decide

theorem wit_TrapReturns_unmarked : (let s := handled.modSlot 1 fun x => { x with sp := { x.sp with xstat := 1, xcause := 0x0F, xpc := 0x2000 } }
    s.me.sp.xstat.getLsbD 0 && s.me.sp.xcause != 0x13 && (s.targetFault s.cur s.me.sp.xpc.toNat).isNone) = true := by decide

theorem test_xret : (next (.xret none) inHandler fun t => (t.slot 1).pc == 0x1008 && (t.slot 1).sp.xstat == 0 && (t.slot 1).regs.readG 1 == 7) = true := by decide

/-- Core 0 with s5 full of 42 at stamp 9, s6 empty, and two words in port 1. -/
def shared : State := (small 1 [(1, 5)]).modBank 0 0 fun b =>
  { b with regs := [(5, { SyncReg.dflt with val := 42, full := true, stamp := 9 })], ports := [(1, { Port.dflt with words := [(77, 3), (78, 4)] })] }

theorem wit_SourceReads : shared.me.latch.find? (fun l => decide (l.field = 1)) = none ∧ isFar shared.cur = false ∧ (shared.myReg 5).full = true ∧
    (shared.myReg 5).readers = [] ∧ (shared.port (coreOf shared.cur) (shared.portBank shared.cur) 1).words = (77, 3) :: [(78, 4)] ∧
    (shared.port (coreOf shared.cur) (shared.portBank shared.cur) 1).readers = [] := by decide

theorem wit_SourceReads_park : (shared.die (runDie shared.cur)).stopped = false ∧ shared.me.latch = [] ∧ (shared.myReg 6).full = false ∧
    (shared.port (coreOf shared.cur) (shared.portBank shared.cur) 2).words = [] := by decide

theorem test_sync_read : (next (.mov (.g 3) (.s 5 true)) shared fun t => (t.slot 1).regs.readG 3 == 42 && !(t.myReg 5).full && (t.slot 1).pts == 9) = true := by decide
theorem test_port_read : (next (.add (.g 3) (.q 1) (.q 1)) shared fun t => (t.slot 1).regs.readG 3 == 155 && (t.slot 1).pts == 4 && (t.port 0 0 1).words == []) = true := by decide

theorem wit_DestinationWrites : isFar (small 1 []).cur = false := by decide
theorem test_write_shared : (next (.mov (.s 7) (.g 1)) shared fun t => (t.myReg 7).val == 5 && (t.myReg 7).full && (t.myReg 7).stamp == 0) = true := by decide

theorem wit_TwoSourceResults : (twoSource (.add (.s 5) (.s 5 true) (.g 1))).isSome = true ∧
    okM (readAB (.s 5 true) (.g 1)) shared (fun r s1 => r.1 == 42 && r.2 == 5 && okay (writeSR (.s 5) 47) s1) = true := by decide

theorem wit_OneSourceResults : (oneSource (.sext (.g 3) (.q 1) 8)).isSome = true ∧ WF.instr (.sext (.g 3) (.q 1) 8) = true ∧
    okM (readSrc 1 (.q 1)) shared (fun x s1 => x == 77 && okay (writeSR (.g 3) 77) s1) = true := by decide

theorem wit_SextZext : okM (readSrc 1 (.g 1)) shared (fun _ s1 => okay (writeSR (.g 3) 1) s1 && okay (writeSR (.g 3) 5) s1) = true ∧
    (1 ≤ (1 : BitVec 7).toNat ∧ (64 : BitVec 7).toNat ≤ 64) ∧ ((0 : BitVec 32).toNat = 0 ∧ 64 < (65 : BitVec 32).toNat) := by decide

theorem wit_ScalarResults : (63 : BitVec 6).toNat + (0 : BitVec 6).toNat + 1 ≤ 64 ∧
    okM (readSrc 1 (.g 1)) shared (fun _ s1 => okM (readSR 3 (.s 5)) s1 fun y s2 => y == 42 && okay (writeSR (.s 5) 1) s2) = true ∧
    okM (readAB (.g 1) (.q 1)) shared (fun _ s1 => okM (readSR 3 (.s 5)) s1 fun _ s2 => okay (writeSR (.g 3) 5) s2) = true ∧
    okay (writeSR (.s 6) 5) shared = true ∧ isLocal shared.cur = true ∧ isLocal 16 = false := by decide

theorem wit_ScalarFrame : scalarDest (.movi (.g 3) 1) = some (.g 3) ∧ scalarDest (.leaWin (.g 3) (.g 1) 0) = some (.g 3) ∧ goes (exec (.movi (.g 3) 1) shared) = true ∧
    goes (exec (.leaWin (.g 3) (.g 1) 0) shared) = true := by decide

/-! ## Transfers, waiting and ending -/

/-- Thread 1 with headers at 0x2000 and at 0x1008. -/
def blocks (gs : SMap Word) : State :=
  { small 1 gs with mem := writeN (writeN tables 0x40001008 8 0xF004000800000000) 0x40002000 8 0xF004000800000000 }

/-- PC of thread 1 after an instruction, where the next word must be a header. -/
def landed (i : Instr) (s : State) : Option (BitVec 56) :=
  match exec i s with
  | .next t => if (t.slot 1).span = .entry ∧ (t.slot 1).st = .running then some (t.slot 1).pc else none
  | _ => none

theorem test_jmp : landed (.jmp 0x200) (blocks []) = some 0x2000 ∧ landed (.jmpi (.g 1)) (blocks [(1, 0x2000)]) = some 0x2000 := by decide
theorem test_br : landed (.br .lt (.g 1) (.g 2) 0x200) (blocks [(1, -1), (2, 1)]) = some 0x2000 ∧
    (next (.br .ltn (.g 1) (.g 2) 0x200) (blocks [(1, -1), (2, 1)]) fun t => (t.slot 1).pc == 0x1008 && (t.slot 1).span == .open_) = true := by decide
theorem test_jmp_misaligned : traps (.jmpi (.g 1)) (blocks [(1, 0x2004)]) 3 0x2004 = true := by decide
theorem test_jmp_no_header : traps (.jmp 1) (small 1 []) 3 0x1008 = true := by decide

theorem wit_Branches : ((blocks []).me.pc + (0x200 : BitVec 35).signExtend 56 * 8 = 0x2000 ∧ (blocks []).targetFault 1 0x2000 = none) ∧
    (blocks []).targetFault 1 0x2008 = some (3, 0x2008) ∧
    okM (readAB (.g 1) (.g 2)) (blocks [(1, 5)]) (fun r s1 => r.1 == 5 && r.2 == 0 && (s1.targetFault s1.cur 0x2000).isNone) = true ∧
    condTrue .ne 5 0 ∧ ¬ condTrue .eq 5 0 := by
  refine ⟨by decide, by decide, by decide, ?_, ?_⟩ <;> simp [condTrue]

theorem wit_MaskBranches : (let s := (blocks []).modSlot 1 fun x => (x.putK 1 6).putK 2 4
    s.me.regs.readK 1 &&& s.me.regs.readK 2 != 0 && s.me.regs.readK 1 &&& s.me.regs.readK 2 == s.me.regs.readK 2 && s.me.regs.readK 2 &&& s.me.regs.readK 3 == 0 &&
      s.me.regs.readK 2 &&& s.me.regs.readK 1 != s.me.regs.readK 1 && (s.targetFault s.cur 0x2000).isNone) = true := by decide
theorem test_bkany : landed (.bkany 1 0 0x200) ((blocks []).modSlot 1 fun x => x.putK 1 1) = some 0x2000 ∧ landed (.bkany 1 0 0x200) (blocks []) = none := by decide
theorem test_bkall : landed (.bkall 1 0 0x200) ((blocks []).modSlot 1 fun x => x.putK 1 (-1)) = some 0x2000 ∧
    landed (.bkall 1 0 0x200) ((blocks []).modSlot 1 fun x => x.putK 1 1) = none := by decide

theorem test_call : (next (.call 0x200) (blocks []) fun t => (t.slot 1).pc == 0x2000 && (t.slot 1).regs.readG 31 == 0x1008) = true ∧
    (next (.calli (.g 31)) (blocks [(31, 0x2000)]) fun t => (t.slot 1).pc == 0x2000 && (t.slot 1).regs.readG 31 == 0x1008) = true := by decide
theorem test_call_not_last : traps (.call 1) ((small 1 []).modSlot 1 fun x => { x with span := .block 3 0 0 false }) 2 0x3000000000001000 = true := by decide
theorem test_loop : landed (.loop 1 0x200) (blocks [(1, 2)]) = some 0x2000 ∧
    (next (.loop 1 0x200) (blocks [(1, 1)]) fun t => (t.slot 1).pc == 0x1008 && (t.slot 1).regs.readG 1 == 0) = true := by decide

/-- Port 1 holds a tag 3, and entry 3 of a table at 0x3000 names the block at 0x2000. -/
def tagged : State :=
  let s := (blocks [(5, 0x3000), (6, -1)]).modBank 0 0 fun b => { b with ports := [(1, { Port.dflt with words := [(3, 2)] })] }
  { s with mem := writeN s.mem 0x40003018 8 0x2000 }
theorem test_btag : (next (.btag 1 (.g 5) (.g 6)) tagged fun t => (t.slot 1).pc == 0x2000 && (t.port 0 0 1).words == [(3, 2)] && decide (2 ≤ (t.slot 1).pts)) =
    true := by decide

theorem wit_CallsAndLoops : ((blocks []).me.span = .open_ ∧ (match (blocks []).fetch 1 0x1008 with | .ok w => Dec.isHeader w | .error _ => false) = true) ∧
    (blocks []).targetFault 1 0x2000 = none ∧
    (okM (readSrc 1 (.g 1)) (blocks [(1, 0x2000)]) fun x s1 => s1.cur == 1 && (s1.targetFault 1 x.toNat).isNone) = true ∧
    ((blocks []).modSlot 1 fun x => { x with span := .block 2 0 0 false }).me.span = .block (0 + 2) 0 0 false ∧
    (blocks [(1, 2)]).me.regs.readG 1 - 1 ≠ 0 ∧ (blocks [(1, 1)]).me.regs.readG 1 - 1 = 0 ∧ (blocks []).targetFault 1 0x2008 = some (3, 0x2008) := by decide

theorem wit_CallsAndLoops_block : ((blocks []).modSlot 1 fun x => { x with span := .block 1 0 0 false }).me.span = .block 1 0 0 false := by decide

theorem wit_CallsAndLoops_btag : (tagged.me.latch == [] && (tagged.port 0 (tagged.portBank 1) 1).words == [(3, 2)] &&
    (let s1 := (tagged.modSlot 1 fun x => { x with pts := max x.pts 2 }).modSlot 1 fun x => { x with latch := x.latch ++ [{ field := 1, val := 3, how := .plain }] }
     okM (readSrc 2 (.g 5)) s1 fun b s2 => b.toNat % 8 == 0 && okM (readSR 3 (.g 6)) s2 fun _ s3 => okM (behalfLoad (b.toNat + 24) 8) s3 fun e s4 =>
       e == 0x2000 && (s4.targetFault s4.cur e).isNone)) = true := by decide

theorem test_park : (next (.park 2) (small 1 []) fun t => (t.slot 1).st == .parked && (t.slot 1).pc == 0x1000) = true ∧
    (next (.park 0) (small 1 []) fun t => (t.slot 1).st == .running && (t.slot 1).pc == 0x1008) = true := by decide
theorem test_parkEv : (next (.parkEv 2) shared fun t => (t.slot 1).st == .running && (t.slot 1).pc == 0x1008) = true ∧
    (next (.parkEv 4) shared fun t => (t.slot 1).st == .parked) = true := by decide
theorem test_done : (next .done (small 1 []) fun t => (t.slot 1).st == .ended && (t.slot 1).fin == some { code := 0, cause := 0, xpc := 0, tid := 1 }) = true ∧
    traps .done (small 0 []) 1 0x3808 = true := by decide

theorem wit_WaitingAndEnding : (∃ p, p < 8 ∧ (2 : BitVec 12).getLsbD p = true ∧ (shared.port (coreOf shared.cur) (shared.portBank shared.cur) p).words ≠ []) ∧
    (∀ p, p < 8 → (0x804 : BitVec 12).getLsbD p = true → (shared.port (coreOf shared.cur) (shared.portBank shared.cur) p).words = []) ∧ shared.me.wait = none := by
  refine ⟨⟨1, by decide⟩, by decide, by decide⟩

theorem wit_WaitingAndEnding_event : ∃ w k, ((small 1 []).modSlot 1 fun x => { x with wait := some { kind := .event 0x200 true, instr := .parkEv 0x200, stamps := [], data := [], n := 0 } }).me.wait = some w ∧ w.kind = .event k true := ⟨_, 0x200, rfl, rfl⟩

theorem wit_WaitingAndEnding_done : (small 1 []).quiet 1 = true ∧ (small 1 []).me.fails = [] ∧ (small 1 []).epiBusy (small 1 []).me ((small 1 []).jobOf 1) = false ∧
    slotNo (small 1 []).cur ≠ 0 ∧ isFar (small 0 []).cur = false ∧ slotNo (small 0 []).cur = 0 := by decide

theorem wit_WaitingAndEnding_turns : (∃ w : Wait, w.kind = .turns 1) ∧ ∃ w : Wait, w.kind = .turns (0 + 2) :=
  ⟨⟨{ kind := .turns 1, instr := .park 1, stamps := [], data := [], n := 0 }, rfl⟩, ⟨{ kind := .turns 2, instr := .park 2, stamps := [], data := [], n := 0 }, rfl⟩⟩

/-! ## Memory -/

/-- Thread 1 with g4 = 0x4000, g5 = 0x100, g6 = 0x1122334455667788, eight bytes in memory at virtual 0x4000 and in local space at 0x100. -/
def data : State :=
  let s := small 1 [(4, 0x4000), (5, 0x100), (6, 0x1122334455667788), (7, 0x40000000), (8, 0x80000000), (9, 0xC0000000)]
  ({ s with mem := writeN s.mem 0x40004000 8 0x8081828384858687 } : State).modCore 0 fun c => { c with spad := writeN [] 0x100 8 0xFFFEFDFCFBFAF9F8 }
/-- An address with base `g n`, offset `o`, in global (true) or local space. -/
def at_ (n : BitVec 5) (o : BitVec 32) (g : Bool) : MAddr := { base := .g n, off := o, glb := g, keep := false }

theorem test_ld : (next (.ld (.g 3) .i16 (at_ 4 2 true)) data fun t => (t.slot 1).regs.readG 3 == 0xFFFFFFFFFFFF8485) = true ∧
    (next (.ld (.g 3) .n32 (at_ 5 4 false)) data fun t => (t.slot 1).regs.readG 3 == 0xFFFEFDFC) = true := by decide +kernel
theorem test_ld_misaligned : traps (.ld (.g 3) .n32 (at_ 4 2 true)) data 4 0x4002 = true ∧ traps (.ld (.g 3) .n8 (at_ 5 (-0x101) false)) data 5 0x20FFFFFFFFFFFFFF = true := by decide +kernel
theorem test_st : (next (.st (.g 6) .n16 .sys (at_ 4 0 true)) data fun t => readN t.mem 0x40004000 8 == 0x8081828384857788 && decide (1 ≤ (t.slot 1).pts)) = true := by decide +kernel
theorem test_st_rights : traps (.st (.g 6) .n16 .sys (at_ 9 0 true)) data 6 0x01000000C0000000 = true := by decide +kernel
theorem test_lds : (next (.lds 3 .n8 (at_ 5 0 false)) data fun t => (t.slot 1).regs.readG 3 == 0xF8) = true ∧
    (next (.lds 3 .n8 (at_ 5 16 false)) data fun t => (t.slot 1).st == .parked) = true := by decide +kernel
theorem test_vld : (next (.vld 2 (at_ 5 0 false)) data fun t => (t.slot 1).regs.readV 2 == 0xFFFEFDFCFBFAF9F8) = true := by decide +kernel
theorem test_vst : (next (.vst 2 .sys (at_ 4 0 true)) (data.modSlot 1 fun x => x.putV 2 0x55) fun t => readN t.mem 0x40004000 8 == 0x55) = true := by decide +kernel
theorem test_kld : (next (.kld 2 (at_ 4 0 true)) data fun t => (t.slot 1).regs.readK 2 == 0x8081828384858687) = true := by decide +kernel
theorem test_kst : (next (.kst 0 .sys (at_ 4 0 true)) data fun t => readN t.mem 0x40004000 8 == 0xFFFFFFFFFFFFFFFF) = true := by decide +kernel

/-- The access of `p` passes its checks in `data` and is read. -/
def reads (p : MAddr) (n al : Nat) (q : Target → Nat → State → Bool) : Bool :=
  okM (readSrc 1 p.base) data fun b s1 => okM (access p.glb (b.toNat + p.off.toInt) n al false false) s1 fun x s2 => okM (loadT x n) s2 fun v s3 => q x v s3
/-- The access of `p` passes its checks in `data` and is stored to. -/
def writes (p : MAddr) (n al v : Nat) : Bool :=
  okM (readSrc 1 p.base) data fun b s1 => okM (access p.glb (b.toNat + p.off.toInt) n al true false) s1 fun x s2 => okay (storeT x n v 0) s2

theorem wit_LoadsAndStores_loads : (reads (at_ 4 0 true) 8 8 fun _ v s3 => okay (writeSR (.s 3) (loaded .n64 v)) s3) = true ∧
    (reads (at_ 5 1 false) 256 1 fun _ _ _ => true) = true ∧ (reads (at_ 5 0 false) 8 8 fun _ _ _ => true) = true := by decide +kernel
theorem wit_LoadsAndStores_stores : writes (at_ 4 0 true) 8 8 5 = true ∧ writes (at_ 4 0 true) 256 256 5 = true ∧ writes (at_ 5 0 false) 8 8 5 = true ∧
    okay (readSrcN 0 (.g 6) (needA (.g 6) (.g 4))) data = true := by decide +kernel

/-- The access of `p` is refused with a trap. -/
def refuses (p : MAddr) (n al : Nat) (wr : Bool) : Bool :=
  okM (readSrc 1 p.base) data fun b s1 => match access p.glb (b.toNat + p.off.toInt) n al wr false s1 with | .error (.trap _ _) => true | _ => false
theorem wit_LoadsAndStores_traps : refuses (at_ 4 2 true) 4 4 false = true ∧ refuses (at_ 9 0 true) 8 8 true = true := by decide +kernel
theorem wit_LoadsAndStores_watch : (okM (readSrc 1 (.g 5)) data fun b s1 => okM (access false (b.toNat + (16 : Int)) 1 1 false true) s1 fun x s2 => okM (loadT x 1) s2 fun v _ =>
      loaded .n8 v == loaded .n8 ((data.me.regs.readG 3).toNat % 2 ^ 8)) = true ∧
    (okM (readSrc 1 (.g 5)) data fun b s1 => okM (access false b.toNat 1 1 false true) s1 fun x s2 => okM (loadT x 1) s2 fun v _ =>
      loaded .n8 v != loaded .n8 ((data.me.regs.readG 3).toNat % 2 ^ 8)) = true ∧ data.me.wait = none := by decide +kernel

theorem wit_AccessChecks_local : ((2 : Int) % (4 : Nat) ≠ 0) ∧ ((0x3FFFFC : Int) % (4 : Nat) = 0 ∧ (0 : Int) ≤ 0x3FFFFC ∧ (0x3FFFFC : Int) + 4 ≤ 0x400000) ∧ ((-4 : Int) % (4 : Nat) = 0 ∧ (-4 : Int) < 0) ∧
    ((0x400000 : Int) % (4 : Nat) = 0 ∧ (0x400000 : Int) < 0x400000 + 4) ∧ isFar 16 = true ∧ isFar 1 = false ∧ isCompute (coreOf 1) = true ∧
    isCompute (coreOf ((9 * 128 + 4) * 32 + 1)) = false := by decide +kernel

theorem wit_LocalAccesses : isLocal data.cur = true ∧ (data.core 0).boardHit 0x100 8 = false ∧ (data.core 0).poisoned 0x100 8 = none ∧
    ((data.modCore 0 fun c => { c with board := [{ tid := 2, id := 0, lo := 0x100, hi := 0x101, wr := true }] }).core 0).boardHit 0x100 8 = true ∧
    ((data.modCore 0 fun c => { c with poison := [(0x20, true)] }).core 0).poisoned 0x100 8 = some 0x100 := by decide +kernel

theorem wit_StoreTimestamp : data.aliasBusy (data.jobOf data.cur) 0x4000 8 = false ∧ data.poison.contains (0x40004000 / 4096) = false ∧
    data.badAt 0x40004000 8 true = false ∧ data.badAt 0x40004000 8 false = false ∧ data.lostAt 0x40004000 8 = none ∧ data.moving 0x40004000 = false ∧
    isLocal data.cur = true ∧ data.prompt = true ∧ data.routed (atCore data.cur) 0x40004000 = true := by decide +kernel

theorem wit_HomeAccesses : data.poison.contains (0x80000000 / 4096) = false ∧ data.badAt 0x80000000 8 false = false ∧ data.badAt 0x80000000 8 true = false ∧
    data.lostAt 0x80000000 8 = none ∧ data.moving 0x80000000 = false ∧ data.routed (atCore data.cur) 0x80000000 = true ∧ data.prompt = true ∧
    ({ data with prompt := false, grant := some .load } : State).grant = some .load ∧ data.aliasBusy (data.jobOf data.cur) 0x40000000 8 = false := by decide +kernel

/-- A copy of the whole line at physical 0x40004000 that serves timestamps up to 200. -/
def copy0 : LineCopy := { job := 0, line := 0x400040, data := 0x99, wts := 7, rts := 200, valid := 0xFF, dirty := 0, kept := 0 }
/-- `copy0` serves byte 0x40004000 at a PTS of `data`. -/
def hits (k : LineCopy) : Bool := k.serves 0 0x40004000 1 data.me.pts (data.lease 0)
theorem wit_CachedLoads_hit : ((data.modCore 0 fun c => { c with l1 := [copy0] }).core 0).l1.find? hits = some copy0 ∧ isLocal data.cur = true ∧
    data.poison.contains (0x40004000 / 4096) = false ∧ data.badAt 0x40004000 1 false = false ∧ data.lostAt 0x40004000 1 = none := by decide +kernel
theorem wit_CachedLoads_near : (data.core 0).l1.find? hits = none ∧ insideScope (data.pairOf 0x40004000) data.cur = true ∧ data.moving 0x40004000 = false ∧
    ((data.modDie 0 fun d => { d with l2 := [copy0] }).die 0).l2.find? (fun k => hits k && insideScope (data.pairOf 0x40004000) data.cur) = some copy0 := by decide +kernel
theorem wit_CachedLoads_home : (data.core 0).l1.find? hits = none ∧ (data.die (dieOf data.cur)).l2.find? (fun k => hits k && insideScope (data.pairOf 0x40004000) data.cur) = none ∧
    data.prompt = true ∧ data.routed (atCore data.cur) 0x40004000 = true := by decide +kernel
theorem test_cached_hit : (next (.ld (.g 3) .n8 (at_ 4 0 true)) (data.modCore 0 fun c => { c with l1 := [copy0] }) fun t =>
    (t.slot 1).regs.readG 3 == 0x99 && (t.slot 1).pts == 7) = true := by decide +kernel

theorem wit_LoadFrame : goes (exec (.ld (.g 3) .n8 (at_ 4 0 true)) data) = true ∧ goes (exec (.lds 3 .n8 (at_ 5 0 false)) data) = true ∧
    goes (exec (.vld 3 (at_ 5 0 false)) data) = true ∧ goes (exec (.kld 3 (at_ 5 0 false)) data) = true := by decide +kernel

/-- Operands of an atomic of 8 bytes at g4 with g6, in global space. -/
def am (w : Bool) : Amo := { d := .g 3, a := .g 4, b := .g 6, glb := true, scope := .sys, w64 := w }
/-- Operands of RADDV with v2 at the line g4 points at, lanes of k1. -/
def rv (f : Bool) : RaddV := { isF := f, a := .g 4, v := 2, perm := .none, k := 1 }
/-- `data` with lanes 0 and 1 of v2 set to 1, and lane 0 in k1; g10 names contributor 0 of 1, g11 contributor 2 of 2. -/
def adds : State := data.modSlot 1 fun x => (((x.putV 2 0x100000001).putK 1 1).putG 10 0).putG 11 0x102

theorem wit_StoreFrame : goes (exec (.st (.g 6) .n8 .sys (at_ 4 0 true)) data) = true ∧ goes (exec (.vst 2 .sys (at_ 4 0 true)) data) = true ∧ goes (exec (.kst 2 .sys (at_ 4 0 true)) data) = true ∧
    (atomicOf (.amoadd (am true))).isSome = true ∧ goes (exec (.amoadd (am true)) data) = true ∧ goes (exec (.amocas (am true) (.g 1)) data) = true := by decide +kernel
theorem wit_StoreFrame_adds : goes (exec (.radd .i64 (.g 4) (.g 6)) adds) = true ∧ goes (exec (.raddv (rv false)) adds) = true ∧ goes (exec (.raddOrd .i64 (.g 4) (.g 6) (.g 10)) adds) = true ∧
    goes (exec (.raddvOrd (rv false) (.g 10)) adds) = true := by decide +kernel
theorem wit_StoreFrame_places : (okM (readSrc 1 (.g 4)) data fun b s1 => okM (access true b.toNat 8 8 true true) s1 fun x _ => match x with | .cached pa va => pa == 0x40004000 && va == 0x4000 | _ => false) = true ∧
    (match (readSrc 1 (.g 9) >>= fun b => access true b.toNat 8 8 true true : M Target) data with | .error _ => true | _ => false) = true := by decide +kernel

/-- g3 and the 8 bytes at 0x4000 after an atomic on `data`. -/
def amoRes (i : Instr) : Option (Word × Nat) :=
  match exec i data with
  | .next t => some ((t.slot 1).regs.readG 3, readN t.mem 0x40004000 8)
  | _ => none
theorem test_amoadd : amoRes (.amoadd (am false)) = some (0x84858687, 0x80818283D9EBFE0F) := by decide +kernel
theorem test_amoswp : amoRes (.amoswp (am true)) = some (0x8081828384858687, 0x1122334455667788) := by decide +kernel
theorem test_amocas : amoRes (.amocas (am true) (.g 1)) = some (0x8081828384858687, 0x8081828384858687) ∧
    (next (.amocas (am true) (.g 1)) (data.modSlot 1 fun x => x.putG 1 0x8081828384858687) fun t => readN t.mem 0x40004000 8 == 0x1122334455667788) = true := by decide +kernel
theorem test_amoand : amoRes (.amoand (am true)) = some (0x8081828384858687, 0x8081828384858687 &&& 0x1122334455667788) := by decide +kernel
theorem test_amoor : amoRes (.amoor (am true)) = some (0x8081828384858687, 0x8081828384858687 ||| 0x1122334455667788) := by decide +kernel
theorem test_amoxor : amoRes (.amoxor (am true)) = some (0x8081828384858687, 0x8081828384858687 ^^^ 0x1122334455667788) := by decide +kernel
theorem test_amomin : amoRes (.amomin (am true) false) = some (0x8081828384858687, 0x8081828384858687) ∧ amoRes (.amomin (am true) true) = some (0x8081828384858687, 0x1122334455667788) := by decide +kernel
theorem test_amomax : amoRes (.amomax (am true) false) = some (0x8081828384858687, 0x1122334455667788) ∧ amoRes (.amomax (am true) true) = some (0x8081828384858687, 0x8081828384858687) := by decide +kernel
theorem test_amofadd : (next (.amofadd (am false)) ({ data with mem := writeN data.mem 0x40004000 4 0x3F800000 }.modSlot 1 fun x => x.putG 6 0x40000000) fun t =>
    (t.slot 1).regs.readG 3 == 0x3F800000 && readN t.mem 0x40004000 4 == 0x40400000) = true := by decide +kernel
theorem test_radd : (next (.radd .i32 (.g 4) (.g 6)) data fun t => readN t.mem 0x40004000 8 == 0x80818283D9EBFE0F) = true := by decide +kernel
theorem test_raddOrd : (next (.raddOrd .i32 (.g 4) (.g 6) (.g 10)) adds fun t => readN t.mem 0x40004000 8 == 0x80818283D9EBFE0F) = true ∧
    traps (.raddOrd .i32 (.g 4) (.g 6) (.g 11)) adds 1 7 = true := by decide +kernel
theorem test_raddv : (next (.raddv (rv false)) adds fun t => readN t.mem 0x40004000 8 == 0x8081828384858688) = true := by decide +kernel
theorem test_raddvOrd : (next (.raddvOrd (rv false) (.g 10)) adds fun t => readN t.mem 0x40004000 8 == 0x8081828384858688) = true := by decide +kernel

theorem wit_Atomics : (okM (readAB (.g 4) (.g 6)) data fun r s1 => okM (access true r.1.toNat 8 8 true true) s1 fun x s2 => okM (updateT x 8 0 fun y => (y + r.2.toNat) % 2 ^ 64) s2 fun old s3 =>
      okay (writeSR (.g 3) (BitVec.ofNat 64 old)) s3) = true ∧
    (okM (readAB (.g 4) (.g 6)) data fun r s1 => okM (readSR 3 (.g 1)) s1 fun z s2 => okM (access true r.1.toNat 8 8 true true) s2 fun x s3 =>
      okM (updateT x 8 0 fun y => if y = z.toNat % 2 ^ 64 then r.2.toNat % 2 ^ 64 else y) s3 fun old s4 => okay (writeSR (.g 3) (BitVec.ofNat 64 old)) s4) = true := by decide +kernel
theorem wit_Atomics_adds : (okM (readAB (.g 4) (.g 6)) adds fun r s1 => okM (access true r.1.toNat 4 4 true true) s1 fun p s2 =>
      okay (raddPlain p .i32 4 [(0, r.2.toNat % 2 ^ 32)]) s2) = true ∧
    (okM (readSrc 1 (.g 4)) adds fun x s1 => okM (access true x.toNat 256 256 true true) s1 fun p s2 =>
      okay (raddPlain p .i32 256 (raddvLanes (s1.me.regs.readK 1) (permRow .none (s1.me.regs.readV 2)))) s2) = true := by decide +kernel
theorem wit_Atomics_ordered : (okM (readAB (.g 4) (.g 6)) adds fun r s1 => okM (readSR 3 (.g 10)) s1 fun q s2 => decide (q.toNat % 256 < q.toNat / 256 % 256 + 1) &&
      okM (access true r.1.toNat 4 4 true true) s2 fun p s3 => okay (raddStage p .i32 1 0 4 [(0, r.2.toNat % 2 ^ 32)]) s3) = true ∧
    (okM (readSrc 1 (.g 4)) adds fun x s1 => okM (readSR 3 (.g 10)) s1 fun _ s2 => okM (access true x.toNat 256 256 true true) s2 fun p s3 =>
      okay (raddStage p .i32 1 0 256 (raddvLanes (s2.me.regs.readK 1) (permRow .none (s2.me.regs.readV 2)))) s3) = true ∧ (5 < 2 ^ (8 * rtyBytes .f32)) := by decide +kernel

/-! ## Lanes, ordering, counters, messages, hurdles, migration, copies -/

/-- `data` with k1 = lanes 0 and 1, v2 = lanes 0x11 and 0x22, v3 = lanes 2 and 0, g10 = 8. -/
def lanes : State := data.modSlot 1 fun x => (((x.putK 1 3).putV 2 0x2200000011).putV 3 0x2).putG 10 8
/-- A strided access at g5 (local) or g4 (global), stride g10, lanes k1. -/
def strided (g : Bool) : Strided := { v := 2, base := .g (if g then 4 else 5), stride := .g 10, k := 1, glb := g, off := 0 }
/-- A gathered access by v3. -/
def gath (g : Bool) : Gathered := { v := 2, base := .g (if g then 4 else 5), vi := 3, perm := .none, k := 1, glb := g, off := 0 }

theorem wit_LaneAccesses_strided : (okM (readSrc 1 (.g 5)) lanes fun _ s1 => okM (readSR 2 (.g 10)) s1 fun _ s2 =>
    okay (gatherForm false 1 2 fun l => 0x100 + l * 8) s2 && okay (scatterForm false 1 (s2.me.regs.readV 2) fun l => 0x100 + l * 8) s2) = true := by decide +kernel
theorem wit_LaneAccesses_gathered : (okM (readSrc 1 (.g 4)) lanes fun _ s1 => okM (keepRow 100 (readV 3)) s1 fun x s2 => elemAt x 32 0 == 2 &&
    okay (gatherForm true 1 2 fun l => 0x4000 + 4 * elemAt x 32 l) s2 && okay (scatterForm true 1 (s2.me.regs.readV 2) fun l => 0x4000 + 4 * elemAt x 32 l) s2) = true := by
  decide +kernel
theorem wit_LaneAccesses_local : isLocal lanes.cur = true ∧ ∀ l, l < 64 → (lanes.me.regs.readK 1).getLsbD l = true → (0 ≤ (0x100 + l * 8 : Int) ∧ (0x100 + l * 8 : Int) + 4 ≤ 0x400000 ∧
    (0x100 + l * 8 : Int) % 4 = 0 ∧ (lanes.core (coreOf lanes.cur)).boardHit (0x100 + l * 8 : Int).toNat 4 = false ∧
    (lanes.core (coreOf lanes.cur)).poisoned (0x100 + l * 8 : Int).toNat 4 = none) := by decide +kernel
theorem test_vlds : (next (.vlds (strided false)) lanes fun t => (t.slot 1).regs.readV 2 == 0xFBFAF9F8) = true := by decide +kernel
theorem test_vsts : (next (.vsts (strided true)) lanes fun t => readN t.mem 0x40004000 12 == 0x228081828300000011) = true := by decide +kernel
theorem test_vgath : (next (.vgath (gath false)) lanes fun t => (t.slot 1).regs.readV 2 == 0xFBFAF9F800000000) = true := by decide +kernel
theorem test_vscat : (next (.vscat (gath true)) lanes fun t => readN t.mem 0x40004000 12 == 0x110000000000000022 + 0x8081828300000000 % 2 ^ 64) = true := by decide +kernel

theorem test_fence : (next .fence data fun t => (t.slot 1).st == .running) = true := by decide
theorem test_sfill : (next (.sfill (.s 5) (.g 6)) data fun t => (t.myReg 5).full && (t.myReg 5).val == 0x1122334455667788) = true ∧
    (next (.sfill (.s 5) (.g 1)) shared fun t => (t.slot 1).st == .parked) = true := by decide
theorem test_fstat : (next (.fstat (.g 3) false) shared fun t => (t.slot 1).regs.readG 3 == 0x20) = true ∧ (next (.fstat (.g 3) true) shared fun t => (t.slot 1).regs.readG 3 == 0) = true := by decide +kernel
theorem test_cline : (next (.clinePf (.g 4) 0) data fun t => (t.slot 1).pc == 0x1008 && ((t.core 0).l1.length == 1)) = true ∧ (next (.clineEvict (.g 1) 1) data fun t => (t.slot 1).pc == 0x1008) = true ∧
    (next (.clineWb (.g 4) 0) data fun t => (t.slot 1).pc == 0x1008) = true := by decide +kernel

/-- `small` with an outstanding copy of thread 1. -/
def copying : State := { (small 1 []) with copies := [{ id := 0, core := 0, bank := 0, tid := 1, job := 0, kind := 0, glob := 0x4000, loc := 0x100, n := 8, done := 0, vis := 0, acked := 0, prio := 0, rc := none, sc := none, p0 := 0, pts := 0, stamp := 0, handle := 0, row0 := 0, col0 := 0, page := 0, rows := 0, cols := 0, pitch := 0, data := [], launch := 0 }] }
theorem wit_FenceFullBitsAndLines : data.quiet 1 = true ∧ data.me.fails = [] ∧ copying.quiet 1 = false ∧ sharedNo (.s 5) = some 5 ∧
    (okM (readSrc 1 (.g 6)) data fun _ s1 => !(s1.myReg 5).full && (s1.myReg 5).writers == []) = true ∧ (okM (readSrc 1 (.g 1)) shared fun _ s1 => (s1.myReg 5).full) = true ∧
    sharedNo (.m 7) = some 71 ∧ isFar data.cur = false := by decide
theorem wit_FenceFullBitsAndLines_fstat : okay (writeSR (.g 3) 0x20) shared = true ∧ (∀ n, n < 64 → ((0x20 : Word).getLsbD n = true ↔ (shared.myReg n).full = true)) ∧
    ∀ n, n < 8 → ((0 : Word).getLsbD n = true ↔ (shared.myReg (64 + n)).full = true) := by decide +kernel

/-- Core 0 with counter c3 at 10, stamp 6. -/
def counted (v : Int) (e : Nat) : State := (small 1 [(7, 4)]).setCtr 0 0 3 { Counter.dflt with val := v, err := e, stamp := 6 }
theorem test_cadd : (next (.cadd 3 (.g 7)) (counted 10 0) fun t => (t.ctr 0 0 3).val == 14) = true ∧ (next (.caddClr 3 (.g 7)) (counted 10 1) fun t => (t.ctr 0 0 3).val == 4 && (t.ctr 0 0 3).err == 0) = true ∧
    traps (.cadd 3 (.g 7)) (counted (2 ^ 47 - 1) 0) 0x12 3 = true := by decide
theorem test_cexp : (next (.cexp 3 (.g 7)) (counted 10 0) fun t => (t.ctr 0 0 3).val == 6 && (t.slot 1).pts == 6) = true ∧
    (next (.cexp 3 (.g 7)) (counted 3 0) fun t => (t.ctr 0 0 3).val == -1 && (t.slot 1).st == .parked) = true := by decide
theorem test_crd : (next (.crd (.g 3) 3) (counted (-1) 2) fun t => (t.slot 1).regs.readG 3 == 0x0200FFFFFFFFFFFF) = true := by decide
theorem test_xwait : traps (.xwait (.g 7)) (counted 0 0) 0x0D 0x600000004 = true ∧ (next (.xwait (.g 1)) ((counted 0 0).modBank 0 0 fun b => { b with xferNext := 1 }) fun t => (t.slot 1).pc == 0x1008) = true := by
  decide
theorem wit_Counters : (okM (readSrc 2 (.g 7)) (counted 10 0) fun n s1 => s1.cur == 1 && n == 4 && decide (-(2 : Int) ^ 47 ≤ 10 + n.toInt ∧ 10 + n.toInt < 2 ^ 47 ∧ 0 ≤ 10 - n.toInt)) = true ∧
    (counted 10 0).me.wait = none ∧ (counted 10 0).ctr 0 0 3 = { Counter.dflt with val := 10, stamp := 6 } ∧ isFar (counted 10 0).cur = false ∧
    (okM (readSrc 2 (.g 7)) (counted 3 0) fun n _ => decide (-(2 : Int) ^ 47 ≤ 3 - n.toInt ∧ 3 - n.toInt < 0)) = true ∧
    ((counted (2 ^ 47 - 1) 0).ctr 0 0 3).val + 4 ≥ 2 ^ 47 ∧ ((counted 0 1).ctr 0 0 3).err = 1 := by decide
theorem wit_Counters_more : okay (writeSR (.g 3) 0) ((counted 10 0).modSlot 1 fun x => { x with pts := max x.pts 6 }) = true ∧ ((4 : Int) - 0) % 2 ^ 32 < 2 ^ 31 ∧
    ¬ ((0 : Int) - 1) % 2 ^ 32 < 2 ^ 31 ∧ (0 ∈ (((counted 0 0).modBank 0 0 fun b => { b with xferNext := 1, pending := [0] }).bank 0 0).pending) ∧ isFar 16 = true := by decide

theorem test_qsend : (next (.qsend 1 (.g 1) 6 1) (small 1 [(1, 0x20), (6, 0xAA), (7, 0xBB)]) fun t => (t.port 1 0 1).words == [(0xAA, 0), (0xBB, 0)]) = true ∧
    traps (.qsend 1 (.g 1) 6 1) (small 1 [(1, 0x20000)]) 5 0x2000000000020000 = true := by decide
theorem wit_Messages : (okM (readSrc 1 (.g 1)) (small 1 [(1, 0x20)]) fun x s1 => decide (x.toNat < 2 ^ 17) && fieldN x.toNat 12 5 * 128 + fieldN x.toNat 5 7 == 1 && isCompute 1 && !s1.notOwned 1 (s1.jobOf s1.cur) &&
      s1.prompt && s1.msgs == [] && (s1.port 1 0 1).words == []) = true ∧ (small 1 []).me.wait = none ∧ ({ small 1 [] with prompt := false } : State).prompt = false ∧
    (2 ^ 17 ≤ (0x20000 : Word).toNat ∧ isCompute (9 * 128 + 2) = false ∧ isNear (9 * 128 + 2) = false ∧ isNear (9 * 128 + 4) = true) := by decide

/-- Core 0 with hurdle 0 set for its own core and two participants, and hurdle value `v` in g1. -/
def hurdled (v : Word) : State := (small 1 [(1, v)]).modCore 0 fun c => { c with hb := [(0, { Hurdle.dflt with val := 0x8000100000000000 })] }
theorem test_hset : (next (.hset 0 (.g 1)) (hurdled 0x8000000000000000) fun t => (t.hb 0 0).word == 0x8000000000000000) = true ∧
    traps (.hset 0 (.g 1)) (hurdled 0x8000000000000400) 1 0x2807 = true := by decide +kernel
theorem test_hurdle : (next (.hurdle 0) (hurdled 0) fun t => (t.slot 1).st == .parked && (t.hb 0 0).word == 0x8001100000000000) = true ∧ traps (.hurdle 1) (hurdled 0) 1 0x2007 = true := by decide +kernel
theorem test_view : (next (.view 2 (.g 1)) (hurdled 0xA000000000000003) fun t => (t.core 0).vw.get 0 2 == 0xA000000000000003) = true ∧ traps (.view 2 (.g 1)) (hurdled 0xE000000000000003) 1 0x2807 = true := by decide +kernel
theorem wit_HurdlesAndViews : (okM (readSrc 1 (.g 1)) (hurdled 0x8000000000000000) fun x s1 => s1.cur == 1 && !hbBad 0 (s1.hb 0 0) x) = true ∧ (okM (readSrc 1 (.g 1)) (hurdled 0x8000000000000400) fun x s1 => hbBad 0 (s1.hb 0 0) x) = true ∧
    isLocal 1 = true ∧ ((hurdled 0).hb 0 1).val.getLsbD 63 = false ∧ ((hurdled 0).hb 0 0).val.getLsbD 63 = true ∧ (hurdled 0).me.wait = none ∧ isLocal 16 = false := by decide +kernel
theorem wit_HurdlesAndViews_released : ∃ w m p ps, ((hurdled 0).modSlot 1 fun x => { x with wait := some { kind := .hurdle 0 (some false), instr := .hurdle 0, stamps := [7], data := [], n := 0 } }).me.wait =
    some w ∧ w.kind = .hurdle m (some false) ∧ w.stamps = p :: ps := ⟨_, 0, 7, [], rfl, rfl, rfl⟩
theorem wit_HurdlesAndViews_view : (okM (readSrc 1 (.g 1)) (hurdled 0xA000000000000003) fun x s1 => let held (r : Nat × Nat) : Bool := (s1.core 0).board.any (fun e => overlap (e.lo, e.hi) r) || s1.windowBusy 0 r
    !viewBad (s1.core 0) 2 x && !held (viewRange ((s1.core 0).vw.get 0 2)) && !held (viewRange x)) = true := by decide +kernel

theorem test_mpin : (next (.mpin true) (small 1 []) fun t => (t.slot 1).sp.xstat == 2) = true ∧ (next (.mpin false) ((small 1 []).modSlot 1 fun x => { x with sp := { x.sp with xstat := 0xC2 } }) fun t =>
    (t.slot 1).sp.xstat == 0xC0) = true := by decide
theorem wit_Pinning : (2 : BitVec 32) ≠ 0 ∧ (2 : BitVec 32) ≠ 1 ∧ ((small 1 []).modSlot 1 fun x => { x with sp := { x.sp with xstat := 2 } }).me.sp.xstat.getLsbD 1 = true := by decide

theorem test_migr : (next (.migr (.g 7) 0) data fun t => (t.slot 1).st == .reserved && t.batons.map (fun b => (b.dest, b.addr)) == [(homeCore 0x80000000 0, 0x40000000)]) = true ∧
    (next (.migr (.g 4) 0) data fun t => (t.slot 1).pc == 0x1008 && t.batons == []) = true := by decide +kernel
theorem test_migrCrew : traps (.migrCrew (.g 7) 0) data 1 9 = true ∧ (next (.migrCrew (.g 7) 0) (data.modSlot 1 fun x => { x with sp := { x.sp with xstat := 4 } }) fun t => (t.slot 1).st == .reserved) = true := by
  decide +kernel
theorem wit_Migration : (okM (readSrc 1 (.g 4)) data fun b s1 => okM (placeOf true (b.toNat : Int) 1 false false) s1 fun x _ => x.isLeft) = true ∧
    (okM (readSrc 1 (.g 7)) data fun b s1 => okM (placeOf true (b.toNat : Int) 1 false false) s1 fun x s2 => x.isRight && !s2.me.sp.xstat.getLsbD 1 && !isFar s2.cur &&
      !s2.holdsAcc s2.me (s2.jobOf s2.cur) && !s2.me.consumed && s2.quiet s2.cur && s2.me.fails == [] && !s2.me.sp.xstat.getLsbD 2) = true ∧
    (okM (readSrc 1 (.g 7)) (data.modSlot 1 fun x => { x with sp := { x.sp with xstat := 4 } }) fun b s1 => okM (placeOf true (b.toNat : Int) 1 false false) s1 fun x s2 => x.isRight && s2.me.sp.xstat.getLsbD 2) = true := by
  decide +kernel
theorem test_crewj : (next (.crewj (.g 1) (.g 2)) ((small 1 []).modSlot 1 fun x => { x with sp := { x.sp with xstat := 0x50004 } }) fun t => (t.slot 1).sp.xstat == 0) = true ∧
    (next (.crewj (.g 1) (.g 2)) (small 1 [(1, 5), (2, 2)]) fun t => (t.slot 1).st == .parked && (t.core 0).joins.map (fun j => (j.id, j.members)) == [(5, [1])]) = true := by decide +kernel
theorem wit_Migration_crew : (okM (readAB (.g 1) (.g 2)) ((small 1 []).modSlot 1 fun x => { x with sp := { x.sp with xstat := 4 } }) fun r s1 => s1.me.sp.xstat.getLsbD 2 && r.2 == 0) = true ∧
    (okM (readAB (.g 1) (.g 2)) (small 1 [(1, 5), (2, 2)]) fun r s1 => !s1.me.sp.xstat.getLsbD 2 && decide (2 ≤ r.2.toNat ∧ r.2.toNat ≤ 15) && s1.me.wait == none &&
      (s1.join s1.cur 0 (s1.jobOf s1.cur) 5 2).2 == 0) = true ∧
    (okM (readAB (.g 1) (.g 2)) ((small 1 [(1, 5), (2, 2)]).modCore 0 fun c => { c with joins := [{ job := 0, id := 5, size := 2, members := [2], failed := false }] }) fun _ s1 =>
      (s1.join s1.cur 0 (s1.jobOf s1.cur) 5 2).2 == 1) = true := by decide +kernel
theorem wit_Migration_joined : ∃ w, ((small 1 [(1, 5), (2, 2)]).modSlot 1 fun x => { x with wait := some { kind := .ready, instr := .crewj (.g 1) (.g 2), stamps := [], data := [], n := 1 } }).me.wait = some w ∧
    w.kind = .ready ∧ w.n = 1 := ⟨_, rfl, rfl, rfl⟩
theorem wit_Migration_join : (let k : CrewJoin := { job := 0, id := 5, size := 2, members := [2], failed := false }
    let s := (small 1 []).modCore 0 fun c => { c with joins := [k] }
    (s.core 0).joins.find? (fun q => decide (q.job = 0) && decide (q.id = 5)) == some k && (joinEnd k.members 1).length == 2 && (joinEnd k.members 2).length != 2) = true := by decide +kernel

/-- Operands of GET and PUT: global g4, local g5, size and id in g10, no counter. -/
def cp : CopyArgs := { h := .g 4, c := 10, l := .g 5, rc := none, sc := none, prio := none }
theorem test_get : (next (.get cp) lanes fun t => (t.slot 1).regs.readG 10 == 0 && (t.bank 0 0).xferNext == 1 && (t.core 0).read 0x100 8 == 0x8081828384858687) = true := by decide +kernel
theorem test_put : (next (.put { cp with sc := some 2 }) lanes fun t => readN t.mem 0x40004000 8 == 0xFFFEFDFCFBFAF9F8 && (t.ctr 0 0 2).val == 8) = true := by decide +kernel
theorem test_get_outside : traps (.get cp) (lanes.modSlot 1 fun x => x.putG 5 0x3FFFFC) 5 0x2100000000400000 = true ∧ traps (.get cp) (lanes.modSlot 1 fun x => x.putG 10 0x400001) 1 0x2807 = true := by decide +kernel

theorem wit_CopiesIssue_get : (okM (readSR 0 (.g 4)) lanes fun h s1 => okM (readSR 2 (.g 5)) s1 fun l s2 => okM (checkLocal l.toNat 8 true) s2 fun _ s3 => okM (checkGlobal h.toNat 8 false) s3 fun _ s4 =>
    okM copyRoom s4 fun _ s5 => okM (newCopy 0 h.toNat l.toNat 8 0 none none) s5 fun k s6 => okM (boardEnter k.id k.hull.1 k.hull.2 true) s6 fun _ s7 =>
      okay (launchCopy k) (s7.modSlot s7.cur fun x => x.putG 10 (BitVec.ofNat 64 k.id))) = true := by decide +kernel
theorem wit_CopiesIssue_put : (okM (readSR 0 (.g 4)) lanes fun h s1 => okM (readSR 2 (.g 5)) s1 fun l s2 => okM (checkLocal l.toNat 8 false) s2 fun _ s3 => okM (checkGlobal h.toNat 8 true) s3 fun _ s4 =>
    okM copyRoom s4 fun _ s5 => okM (newCopy 1 h.toNat l.toNat 8 0 none none) s5 fun k s6 => okM (boardEnter k.id k.hull.1 k.hull.2 (decide (k.window = some k.core))) s6 fun _ s7 =>
      okay (launchCopy k) (s7.modSlot s7.cur fun x => x.putG 10 (BitVec.ofNat 64 k.id))) = true := by decide +kernel
theorem wit_CopiesIssue_later : ({ small 1 [] with prompt := false } : State).prompt = false ∧ (small 1 []).me.refusing = false := by decide

/-- An F32 tensor of 8 by 8 with every capability but SHAPEONLY, entry 1, generation 1; its code at row 0, column 1 is 1.0. -/
def tens (f : Tag) : Tensor := { Tensor.dflt with gen := 1, fmt := some f, st := 1, caps := 0x1FFFF, rowsM1 := 7, colsM1 := 7, cells := [(1, 0x3F800000)] }
/-- Thread 1 with its tensor: g1 the handle, g2 the coordinate (0, 0), g3 = 0x200. -/
def tensored (f : Tag) : State := { small 1 [(1, 0x10001), (3, 0x200), (4, 2)] with jobs := [(0, some (job0 [(1, tens f)]))] }
/-- The tile of 8 by 8 at g2 of the handle g1, at local g3. -/
def tile : TileArgs := { h := .g 1, c := .g 2, l := .g 3, sh := tsh0 }
/-- The same as a copy. -/
def tcp : TCopyArgs := { t := tile, n := none, id := 5, prio := none }

/-- GETT or PUTT passes its checks and issues. -/
def tileIssues (put : Bool) : Bool :=
  okM (readSR 0 (.g 1)) (tensored .f32) fun h s1 => okM (readSR 1 (.g 2)) s1 fun y s2 => okM (readSR 2 (.g 3)) s2 fun l s3 =>
    okM (unstamped (tileCopyChecks tcp (h.toNat % 2 ^ 32) l.toNat (tileCopyNeed put) (regionOf y tsh0) put)) s3 fun _ s4 =>
    okM (stampHandle 0 0x10001 0x10001 (tileCopyNeed put) (if put then .writer else .reader) (regionOf y tsh0).ext) s4 fun T s5 =>
    okM copyRoom s5 fun _ s6 => okM (tileCopyOf tcp 0x10001 l.toNat T (regionOf y tsh0) put) s6 fun k s7 =>
      okay (launchCopy k) (s7.modSlot s7.cur fun x => x.putG 5 (BitVec.ofNat 64 k.id))
theorem wit_CopiesIssue_tiles : tileIssues false = true ∧ tileIssues true = true := by decide +kernel
theorem test_gett : (next (.gett tcp) (tensored .f32) fun t => (t.core 0).read 0x204 4 == 0x3F800000 && (t.slot 1).regs.readG 5 == 0) = true := by decide +kernel
theorem test_putt : (next (.putt tcp) ((tensored .f32).modCore 0 fun c => { c with spad := writeN [] 0x200 4 0x40000000 }) fun t => t.codeNow 0 (t.tensor 0 1) 0 == 0x40000000 && t.codeNow 0 (t.tensor 0 1) 1 == 0) = true := by
  decide +kernel

/-! ## Vector, conversion and mask instructions -/

/-- Thread 1 with v2 and v3 as given, k1 = lane 0, g5 = 1. -/
def vecs (x y : Row) : State := (small 1 [(5, 1), (6, 7)]).modSlot 1 fun s => ((s.putV 2 x).putV 3 y).putK 1 1
/-- v1 after an instruction. -/
def v1 (x y : Row) (i : Instr) : Option Row := match exec i (vecs x y) with | .next t => if (t.slot 1).pc = 0x1008 then some ((t.slot 1).regs.readV 1) else none | _ => none

theorem test_vadd : v1 0x000000FF3F800000 0x0000000140000000 (.vadd { vty .f32 with k := 1 } none false) = some 0x40400000 ∧
    v1 0x7F 0x01 (.vadd (vty .i8) none true) = some 0x7F ∧ v1 0x7F 0x01 (.vadd (vty .i8) none false) = some 0x80 := by decide +kernel
theorem test_vsub : v1 0x8000 1 (.vsub (vty .i16) none true) = some 0x8000 ∧ v1 0x40400000 0x3F800000 (.vsub (vty .f32) none false) = some 0x40000000 := by decide +kernel
theorem test_vmul : v1 0x40400000 0x40000000 (.vmul (vty .f32) none false) = some 0x40C00000 ∧ v1 0x10000 0x10000 (.vmul (vty .i32) none false) = some 0 := by decide +kernel
theorem test_vfma : (next (.vfma (vty .f32) none false) ((vecs 0x40400000 0x40000000).modSlot 1 fun s => s.putV 1 0x3F800000) fun t => (t.slot 1).regs.readV 1 == 0x40E00000) = true := by decide +kernel
theorem test_vmin : v1 0xFFFFFFFF 1 (.vmin (vty .i32)) = some 0xFFFFFFFF ∧ v1 0x80000000 0 (.vmin (vty .f32)) = some 0x80000000 := by decide +kernel
theorem test_vmax : v1 0xFFFFFFFF 1 (.vmax (vty .n32)) = some 0xFFFFFFFF ∧ v1 0x80000000 0 (.vmax (vty .f32)) = some 0 := by decide +kernel
theorem test_vabs : v1 0xFFFFFFFE 0 (.vabs (v2ty .i32) false) = some 2 ∧ v1 0x80000000 0 (.vabs (v2ty .i32) true) = some 0x7FFFFFFF := by decide +kernel
theorem test_vneg : v1 0x3F800000 0 (.vneg { v2ty .f32 with k := 1 } false) = some 0xBF800000 := by decide +kernel
theorem test_vand : v1 0xC 0xA (.vand (vty .i32)) = some 8 := by decide +kernel
theorem test_vor : v1 0xC 0xA (.vor (vty .i32)) = some 0xE := by decide +kernel
theorem test_vxor : v1 0xC 0xA (.vxor { vty .i32 with b := .v 3 (.rot 0 1) }) = some (0xC + 0xA * 2 ^ (32 * 63)) := by decide +kernel
theorem test_vshl : v1 3 33 (.vshl (vty .i32)) = some 6 := by decide +kernel
theorem test_vshr : v1 0x80000000 4 (.vshr (vty .i32)) = some 0x08000000 := by decide +kernel
theorem test_vsar : v1 0x80000000 4 (.vsar (vty .i32)) = some 0xF8000000 := by decide +kernel
theorem test_vcmp : (next (.vcmp 2 .lt 2 (.v 3 .none) 1 .i32) (vecs 0xFFFFFFFFFFFFFFFF 1) fun t => (t.slot 1).regs.readK 2 == 1) = true := by decide +kernel
theorem test_vsel : (next (.vsel (vty .i32) 1) (vecs 0x0000000500000006 0x0000000700000008) fun t => (t.slot 1).regs.readV 1 == 0x0000000700000006) = true := by decide +kernel
theorem test_vmov : v1 0 0x0000000500000006 (.vmov 1 (.v 3 (.bfly 1 0)) 0 .i32) = some 0x0000000600000005 := by decide +kernel
theorem test_vbcast : v1 0x0000000500000006 0 (.vbcast 1 2 (.g 5) 1 .i32) = some 5 := by decide +kernel
theorem test_vext : (next (.vext (.g 3) 2 (.g 5) .i8) (vecs 0x8000 0) fun t => (t.slot 1).regs.readG 3 == 0xFFFFFFFFFFFFFF80) = true := by decide +kernel
theorem test_vins : v1 0 0 (.vins 1 (.g 6) (.g 5) .i16) = some 0x70000 := by decide +kernel
theorem test_vred : (next (.vred (.g 3) .add 2 0 .i32 none) (vecs 0x00000005FFFFFFFA 0) fun t => (t.slot 1).regs.readG 3 == 0xFFFFFFFFFFFFFFFF) = true ∧
    (next (.vred (.g 3) .max 2 1 .f32 none) (vecs 0x40000000BF800000 0) fun t => (t.slot 1).regs.readG 3 == 0xBF800000) = true := by decide +kernel
theorem test_vidx : (next (.vidx 1 (.g 6) (.g 5) 0 .i32) (vecs 0 0) fun t => elemAt ((t.slot 1).regs.readV 1) 32 63 == 70) = true := by decide +kernel
theorem test_vrcp : v1 0x40000000 0 (.vrcp { v2ty .f32 with k := 1 } none) = some 0x3F000000 := by decide +kernel
theorem test_vrsq : v1 0x40800000 0 (.vrsq { v2ty .f32 with k := 1 } none) = some 0x3F000000 := by decide +kernel
theorem test_vexp2 : v1 0x40400000 0 (.vexp2 { v2ty .f32 with k := 1 } none) = some 0x41000000 := by decide +kernel
theorem test_vlog2 : v1 0x41000000 0 (.vlog2 { v2ty .f32 with k := 1 } none) = some 0x40400000 := by decide +kernel
theorem test_vcvt : v1 0xFFFFFFFD 0 (.vcvt { v2ty .f32 with k := 1 } .i32 none) = some 0xC0400000 ∧ v1 0x7FC00000 0 (.vcvt { v2ty .i32 with k := 1 } .f32 none) = some 0 := by decide +kernel
theorem test_vpack : v1 0x3F800000 0x40000000 (.vpack 1 2 3 .none 0 .bf16 .f32 none) = some (0x3F80 + 0x4000 * 2 ^ 1024) ∧ v1 0x0000FFFF00010000 0 (.vpack 1 2 3 .none 0 .i16 .i32 none) = some 0x7FFF7FFF := by decide +kernel
theorem test_vunpk : v1 (0x3F80 + 0x4000 * 2 ^ 1024) 0 (.vunpk (v2ty .f32) .bf16 true) = some 0x40000000 := by decide +kernel
theorem test_vshrr : v1 5 1 (.vshrr (vty .i32)) = some 3 ∧ v1 0xFFFFFFFB 1 (.vshrr (vty .i32)) = some 0xFFFFFFFE := by decide +kernel
theorem test_vsat : v1 0x000000FF00000100 0 (.vsat (v2ty .i32) 7 false) = some 0x0000007F0000007F ∧ v1 0xFFFFFFFF 0 (.vsat (v2ty .i32) 7 true) = some 0 := by decide +kernel
theorem test_vmulq : v1 0x80004000 0x80004000 (.vmulq (vty .i16)) = some 0x7FFF2000 := by decide +kernel
theorem test_vquant : v1 0x0000000040A0000041300000 0x0000000040000000 (.vquant 1 2 (.i8 (.v 3 .none)) none) = some 0x7F06 := by decide +kernel
theorem test_vdeq : v1 0xFE 0x40000000 (.vdeq 1 2 (.i8 (.v 3 .none)) none) = some 0xC0800000 := by decide +kernel
theorem test_vdot : (next (.vdot 1 2 (.v 3 .none) 1 false true false) ((vecs 0xFF020304 0x01010180).modSlot 1 fun s => s.putV 1 10) fun t => (t.slot 1).regs.readV 1 == 10 - 1 + 2 + 3 + 4 * 128) = true := by decide +kernel

/-- k3 after a mask instruction, with k1 = 0xC and k2 = 0xA. -/
def k3 (i : Instr) : Option Word := match exec i ((small 1 [(5, 9)]).modSlot 1 fun s => (s.putK 1 0xC).putK 2 0xA) with | .next t => some ((t.slot 1).regs.readK 3) | _ => none
theorem test_masks : k3 (.kand 3 1 2) = some 8 ∧ k3 (.kor 3 1 2) = some 0xE ∧ k3 (.kxor 3 1 2) = some 6 ∧ k3 (.knot 3 1) = some 0xFFFFFFFFFFFFFFF3 ∧ k3 (.kmov (.k 3) (.r (.g 5))) = some 9 ∧
    k3 (.kmov (.k 3) (.k 0)) = some 0xFFFFFFFFFFFFFFFF := by decide +kernel
theorem test_mask_counts : (next (.kpop (.g 3) 1) (vecs 0 0) fun t => (t.slot 1).regs.readG 3 == 1) = true ∧ (next (.kfirst (.g 3) 2) (vecs 0 0) fun t => (t.slot 1).regs.readG 3 == 64) = true := by decide +kernel

theorem wit_LaneMerge : permLane (.rot 4 3) 15 < 64 ∧ (4 : BitVec 3) ≠ 7 ∧ (3 : BitVec 7).toNat < 2 ^ (4 : BitVec 3).toNat ∧ (63 : BitVec 7).toNat < 64 ∧ okay (readSrc 2 (.g 5)) (vecs 0 0) = true ∧
    2047 < 2048 := by decide +kernel
theorem wit_VectorResults : (vecTwo (.vshrr (vty .i32))).isSome = true ∧ (vecOne (.vabs (v2ty .i32) false)).isSome = true ∧ okay (readVSrc 32 (.sc (.g 5))) (vecs 0 0) = true ∧
    okay (readVSrc 8 (.v 3 .none)) (vecs 0 0) = true := by decide +kernel
theorem wit_VectorAndMaskOthers : okay (readVSrc 32 (.sc (.g 5))) (vecs 0 0) = true ∧ (okM (readSrc 2 (.g 5)) (vecs 0 0) fun _ s1 => okay (writeSR (.g 3) 1) s1) = true ∧ okay (readAB (.g 6) (.g 5)) (vecs 0 0) = true ∧
    okay (writeSR (.s 3) 1) (vecs 0 0) = true ∧ okay (quantScale (.i8 (.sc (.g 5)))) (vecs 0 0) = true ∧ okay (quantScale .px9) (vecs 0 0) = true := by decide +kernel
theorem wit_VectorFrame : vectorDest (.vred (.g 3) .add 2 0 .i32 none) = some (.r (.g 3)) ∧ goes (exec (.vred (.g 3) .add 2 0 .i32 none) (vecs 1 0)) = true ∧ vectorDest (.kand 1 2 3) = some (.k 1) ∧
    vectorDest (.vmov 1 (.v 3 .none) 0 .i32) = some (.v 1) ∧ goes (exec (.vmov 1 (.v 3 .none) 0 .i32) (vecs 1 0)) = true := by decide +kernel

/-! ## The matrix engine -/

/-- Core 0 with an I8 operand A at 0x1000 whose element (0, 0) is 2, and B at 0x8000 whose element (0, 0) is 3. -/
def mats : State := (tensored .i8).modCore 0 fun c => { c with spad := writeN (writeN [] 0x1000 1 2) 0x8000 1 3 }
/-- `mats` with g6 = 0x1000 and g7 = 0x8000; g8 holds handle and B address, g9 both handles. -/
def mats' : State := mats.modSlot 1 fun x => (((x.putG 6 0x1000).putG 7 0x8000).putG 8 0x800000010001).putG 9 0x1000100010001
/-- The tensor's codes. -/
def State.cells1 (s : State) (cs : SMap Nat) : State := s.modTensor 0 1 fun t => { t with cells := cs }
/-- An E4M3 tensor whose element (1, 0) is 1.0; element (0, 0) of B at 0x8000 is 3.0; v2 names rows 0 and 1. -/
def gmats : State := ((((tensored .e4m3).modCore 0 fun c => { c with spad := writeN [] 0x8000 1 0x44 }).modSlot 1 fun x =>
  (x.putG 8 0x800000010001).putV 2 0x100000000)).modTensor 0 1 fun t => { t with cells := [(8, 0x38)] }
/-- Operands of MMA. -/
def mma0 : MmaArgs := { h := .g 6, c := .g 7, l := 4, n := 0, sh := sh0, af := .i8, bf := .i8, ta := false, tb := false }
/-- A is the tensor's tile, B in scratchpad. -/
def mmat0 : MmatArgs := { h := 8, c := 10, l := 4, n := 0, sh := sh0, af := none, bf := some .i8, ta := false, tb := false }
/-- Gathered rows of the tensor, by v2. -/
def mmag0 : MmagArgs := { h := 8, vi := 2, l := 4, n := 10, sh := sh0, bf := .e4m3 }

theorem test_mma : (next (.mma mma0) mats' fun t => (t.acc 4).elem 0 0 == 6 && (t.acc 4).elem 0 1 == 0 && (t.acc 4).ext == some (.e32, .e32) && (t.acc 4).isInt && (t.slot 1).pc == 0x1008) = true := by decide +kernel
theorem test_mmat : (next (.mmat mmat0) (mats'.modTensor 0 1 fun t => { t with cells := [(0, 5)] }) fun t => (t.acc 4).elem 0 0 == 15) = true := by decide +kernel
theorem test_mmag : (next (.mmag mmag0) gmats fun t => (t.acc 4).elem 0 0 == 0 && (t.acc 4).elem 1 0 == 0x40400000 && !(t.acc 4).isInt) = true := by decide +kernel
theorem test_mmas : (next (.mmas 9 10 4 sh0) (mats'.modTensor 0 1 fun t => { t with cells := [(0, 5)] }) fun t => (t.acc 4).elem 0 0 == 25) = true := by decide +kernel

theorem wit_MatrixMultiply : isLocal mats'.cur = true ∧ slotNo mats'.cur ≠ 0 ∧
    (okM (readSR 0 (.g 6)) mats' fun h s1 => okM (readSR 1 (.g 7)) s1 fun c s2 => okM (strides 0) s2 fun r s3 =>
      okay (multiply 4 sh0 (padOperand true false .i8 h.toNat r.1) (padOperand false false .i8 c.toNat r.2) false) s3) = true := by decide +kernel
theorem wit_MatrixMultiply_mmat : okay (strides 0) mats' = true ∧ (let h := (mats'.me.regs.readG 8).toNat
    okay (multiply 4 sh0 (handleOp true false (fieldN h 0 32) (crdOf (mats'.me.regs.readG 10))) (padOperand false false .i8 (fieldN h 32 27) 0) false) mats') = true := by decide +kernel
theorem wit_MatrixMultiply_mmag : (okM (keepRow 100 (readV 2)) gmats fun x s1 => okM (keepRow 101 (readV 3)) s1 fun y s2 => let h := (gmats.me.regs.readG 8).toNat
    okay (multiply 4 sh0 { handleOp true false (fieldN h 0 32) (crdOf 0) with idx := some ((elems 32 x ++ elems 32 y).take 32) } (padOperand false false .e4m3 (fieldN h 32 32) 0) false) s2) = true := by
  decide +kernel
theorem wit_MatrixMultiply_mmas : (let x := (mats'.me.regs.readG 9).toNat
    okay (multiply 4 sh0 (handleOp true false (fieldN x 0 32) (crdOf 0)) (handleOp false false (fieldN x 32 32) (crdOf 0)) true) mats') = true := by decide +kernel
theorem wit_MatrixMultiply_steps : (let a := padOperand true false .i8 0x1000 0
    let b := padOperand false false .i8 0x8000 0
    mats'.me.sp.progidx.toNat == 0 && okM (openAcc 4 false) mats' fun fresh s1 => okM (mmPair 32 32 a b false) s1 fun r s2 => okM (mmKind 4 fresh r.2.2) s2 fun _ s3 =>
      okM (mmPads 32 32 32 r.1 r.2.1) s3 fun _ s4 => okM (mmStamps 32 32 32 (needOfA a false) (needOf b false false) r.1 r.2.1) s4 fun T s5 =>
        okay (mmGroups 4 32 32 1 r.2.2 r.1 r.2.1 T.1 T.2) s5) = true := by decide +kernel
theorem wit_MatrixMultiply_refused : isLocal 16 = false ∧ slotNo 0 = 0 ∧ isLocal 0 = true := by decide

/-- Core 0's cluster has accumulator slot 4 in a state, of the unit of thread 1 in job 0: F32, extents 32 by 32, element (0, 0) 2.0. -/
def accd (st : AccSt) : State := (tensored .f32).modCluster 0 fun k =>
  { k with acc := [(4, { Acc.dflt with st := st, ext := some (.e32, .e32), data := [(0, 0x40000000)] })] }
/-- An epilogue into local space at g3, with no descriptor. -/
def aepi0 (rel : Bool) : AepiArgs := { h := .g 3, c := 0, l := 4, n := 0, xs := none, df := .i8, act := .none, add := false, rel := rel, rm := none }
/-- An epilogue into the tensor of g1, at the coordinate g2. -/
def aepi1 (add : Bool) : AepiArgs := { h := .g 1, c := 2, l := 4, n := 0, xs := none, df := .f32, act := .relu, add := add, rel := true, rm := none }
/-- As `accd`, where g3 is a page of memory. -/
def accm (st : AccSt) : State := (accd st).modSlot 1 fun x => x.putG 3 0x1000000

theorem test_azero : (next (.azero 4 true) (accd .free) fun t => (t.acc 4).st == .owned && (t.acc 4).isInt && (t.acc 4).data == [] && (t.acc 4).ext == none) = true ∧
    traps (.azero 4 true) (accd .epilogue) 1 0x2008 = true := by decide +kernel
theorem test_arel : (next (.arel 4) (accd .owned) fun t => (t.acc 4).st == .free) = true ∧ traps (.arel 4) (accd .free) 1 0x2008 = true := by decide +kernel
theorem test_aclaim : (next (.aclaim 4) (accd .parked) fun t => (t.acc 4).st == .owned) = true := by decide +kernel
theorem test_aepi : (next (.aepi (aepi0 true)) (accd .owned) fun t => (t.core 0).read 0x200 2 == 2 && (t.acc 4).st == .free && (t.slot 1).pc == 0x1008) = true := by decide +kernel
theorem test_aepi_handle : (next (.aepi (aepi1 true)) (accd .owned) fun t => t.codeNow 0 (t.tensor 0 1) 0 == 0x40000000 && t.codeNow 0 (t.tensor 0 1) 1 == 0x3F800000) = true := by decide +kernel
/-- The wait of a transfer of an image whose lines below `n` are done; line 0 of its data is that of an I32 image with extents 32 by 64. -/
def imaged (i : Instr) (n : Nat) : Wait := { kind := .ready, instr := i, stamps := [], n := n, data := [(2 ^ 30, (16 + 2 + 1) * 2 ^ 128)] }
/-- `accm` in such a transfer. -/
def accl (i : Instr) (st : AccSt) (n : Nat) : State := ((accm st).modSlot 1 fun x => { x with wait := some (imaged i n) }).modCluster 0 fun k =>
  { k with acc := [(4, { Acc.dflt with st := st, ext := some (.e32, .e32), data := [(16383, 0x40000000)] })] }
theorem test_asave : (next (.asave (.g 3) 4) (accl (.asave (.g 3) 4) .parked 256) fun t => (t.acc 4).st == .free) = true ∧
    ({ Acc.dflt with data := [(16383, 0x40000000)] } : Acc).line 256 = 0x40000000 * 2 ^ 2016 := by decide +kernel
theorem test_aload : (next (.aload (.g 3) 4) (accl (.aload (.g 3) 4) .free 257) fun t => (t.acc 4).st == .owned && (t.acc 4).isInt && (t.acc 4).ext == some (.e32, .e64)) = true := by decide +kernel

theorem wit_AccumulatorSlots : isLocal (accd .free).cur = true ∧ slotNo (accd .free).cur ≠ 0 ∧ (accd .free).me.wait = none ∧ ((accd .free).acc 4).st = .free ∧ ((accd .free).acc 4).waiters = [] ∧
    (accd .owned).mineAcc 4 = true ∧ ((accd .owned).acc 4).st = .owned ∧ (accd .parked).mineAcc 4 = true ∧ ((accd .parked).acc 4).st = .parked ∧ (accd .free).mineAcc 4 = false := by decide +kernel
theorem wit_AccumulatorSlots_aepi : (okM (readSR 0 (.g 3)) (accd .owned) fun h s1 => okM (ownAcc 4 false) s1 fun a s2 => a.ext == some (.e32, .e32) &&
      okay (epiGuard 4 (aepiPad (aepi0 true) 4 h.toNat 32 32 (s2.me.rnd none))) s2) = true ∧
    (okM (readSR 0 (.g 1)) (accd .owned) fun h s1 => okM (ownAcc 4 false) s1 fun a s2 => a.ext == some (.e32, .e32) &&
      okay (epiGuard 4 (aepiHandle (aepi1 true) 4 (h.toNat % 2 ^ 32) 32 32 (s2.me.rnd none))) s2) = true := by decide +kernel
theorem wit_AccumulatorSlots_value : ({ EpiDesc.none with use := 7 } : EpiDesc).use = 7 := rfl
theorem wit_AccumulatorSlots_asave : (okM (readSR 0 (.g 3)) (accl .nop .parked 256) fun hv s1 => okM (ownAcc 4 true) s1 fun a s2 => a.st == .parked && a.job == s2.jobOf s2.cur && hv.toNat % 256 == 0 &&
    okM (checkImage hv true) s2 fun _ s3 => !(s3.acc 4).poison && okay (saveLines hv a) s3) = true := by decide +kernel
theorem wit_AccumulatorSlots_aload : (okM (readSR 0 (.g 3)) (accl .nop .free 257) fun hv s1 => okM (openAcc 4 true) s1 fun _ s2 => hv.toNat % 256 == 0 && okM (checkImage hv false) s2 fun _ s3 =>
    okM (loadLines hv) s3 fun _ s4 => match s4.me.wait with | none => false | some w => (accOfImage s4.me (s4.jobOf s4.cur) fun n => w.data.get 0 (2 ^ 30 + n)).isSome) = true := by decide +kernel
theorem wit_AccumulatorSlots_image : Acc.dflt.unitid = Slot.dflt.sp.unitid ∧ Acc.dflt.launchid = Slot.dflt.sp.launchid ∧ (127 < 128) := by decide

/-! ## Tensors -/

/-- Operations run one after another, each answering. -/
def runs : List (M Unit) → State → (State → Bool) → Bool
  | [], s, p => p s
  | m :: l, s, p => okM m s fun _ t => runs l t p

/-- Thread 1 with what it keeps for an instruction. -/
def parkedFor (i : Instr) : State := (small 1 []).modSlot 1 fun x => { x with wait := some { kind := .ready, instr := i, stamps := [], data := [], n := 0 } }
/-- An allocation descriptor at local 0x200: F32, 8 by 8, with a capability mask. -/
def descd (caps : Nat) : State := (tensored .f32).modCore 0 fun c => { c with spad := writeN (writeN [] 0x200 8 (caps + 2 ^ 40)) 0x208 8 (7 * 2 ^ 40 + 7 * 2 ^ 16) }
theorem test_talloc : (next (.talloc 5 3 0 6) (descd 7) fun t => (t.slot 1).regs.readG 5 == 0x1 && (t.slot 1).regs.readG 6 == 0 && (t.tensor 0 0).caps == 7 && (t.tensor 0 0).gen == 1) = true ∧
    (next (.talloc 5 3 0 6) (descd 0x40000) fun t => (t.slot 1).regs.readG 5 == 0 && (t.slot 1).regs.readG 6 == 2) = true := by decide +kernel
theorem test_tfree : (next (.tfree (.g 1)) (tensored .f32) fun t => (t.tensor 0 1).gen == 2 && (t.tensor 0 1).st == 0) = true ∧ traps (.tfree (.g 3)) (tensored .f32) 8 0x200 = true := by decide +kernel
theorem test_twiden : (next (.twiden (.g 1) (.g 4) 6 true) ((tensored .f32).modTensor 0 1 fun t => { t with caps := 1 }) fun t => (t.tensor 0 1).caps == 3 && (t.slot 1).regs.readG 6 == 0) = true ∧
    (next (.twiden (.g 1) (.g 2) 6 false) (tensored .f32) fun t => (t.slot 1).regs.readG 6 == 1) = true := by decide +kernel
theorem test_tinfo : (next (.tinfo (.g 1) (.g 5) 0) (tensored .f32) fun t => (t.slot 1).regs.readG 5 == 2 ^ 48 + 2 ^ 40 + 2 ^ 35 + 0x1FFFF) = true ∧
    (next (.tinfo (.g 1) (.g 5) 1) (tensored .f32) fun t => (t.slot 1).regs.readG 5 == 0x70000070000) = true := by decide +kernel

theorem wit_HandleOperations : (tensored .f32).liveTensor 0 0x10002 = none ∧ ((tensored .f32).liveTensor 0 0x10001).isSome = true ∧ (tens .f32).caps.testBit 17 = false ∧
    (∀ b, b < 32 → (0x10001 : Nat).testBit b = true → (tens .f32).caps.testBit b = true) ∧ (tensored .f32).me.wait = none ∧ (tensored .f32).prompt = true ∧ (tensored .f32).routedIn (atCore 1) = true ∧
    ((tensored .f32).job 0).isSome = true ∧ ((tens .f32).newSegs .writer 4 (tens .f32).allExt).length ≤ (tensored .f32).poolSegs 0 := by decide +kernel
theorem wit_HandleOperations_lacking : (2 ^ 17 + 1 : Nat).testBit 17 = true ∧ (tens .f32).caps.testBit 17 = false ∧ ∀ c, c < 17 → (2 ^ 17 + 1 : Nat).testBit c = true → (tens .f32).caps.testBit c = true := by decide
theorem wit_HandleOperations_publish : ([(0, 1), (1, 2)] : List (Nat × Nat)).map Prod.fst = [0, 1] ∧ ([0, 1] : List Nat).Pairwise (· < ·) ∧ ((tensored .f32).tensor 0 1).plain = false ∧
    (let t := { tens .f32 with ops := [{ stamp := 3, tid := 1, kind := .reader, exts := [], segs := [], caps := 0, parked := false, shadow := 0, home := none }] }
      ∃ o ∈ t.ops, o.stamp < 5 ∧ ∀ e ∈ t.log, e.1 ≤ 5) := by decide +kernel

theorem wit_TensorTable_talloc : okay tensorSlot (descd 7) = true ∧ okay (checkLocal 0x200 64 false) (descd 7) = true ∧ (okM (loadLocal 0x200 64) (descd 7) fun x s1 => s1.me.regs == (descd 7).me.regs &&
      !descReserved x && tagOf (allocDesc x).fmt == some .f32 && allocStatus 1 (allocDesc x) none == 0 && okM (keepAlloc x) s1 fun _ s3 => okM (await .stamp) s3 fun _ s4 =>
        okM (allocate (allocDesc x) .f32 none) s4 fun r s5 => r.1 == 1 && okay boardDone s5) = true ∧
    (okM (loadLocal 0x200 64) (descd 0x40000) fun x s1 => !descReserved x && allocStatus 1 (allocDesc x) none == 2 && okM (keepAlloc x) s1 fun _ s2 => okay (await .stamp) s2) = true := by decide +kernel
theorem wit_TensorTable_init : (okM (loadLocal 0x200 64) (descd 7) fun x s1 => allocStatus 1 (allocDesc x) (some 0x400) == 0 && okM (boardEnter boardOp 0x400 256 false) s1 fun _ s2 => okM (keepAlloc x) s2 fun _ s3 =>
    okM (await .stamp) s3 fun _ s4 => okM (allocate (allocDesc x) .f32 (some 0x400)) s4 fun _ s5 => okay boardDone s5) = true := by decide +kernel
theorem wit_TensorTable_kept : ∃ w, ((descd 7).modSlot 1 fun x => { x with wait := some { kind := .ready, instr := .talloc 5 3 0 6, stamps := [], data := [(1, 8)], n := 0 } }).me.wait = some w ∧ w.data.get 0 1 = 7 + 1 :=
  ⟨_, rfl, rfl⟩
theorem wit_TensorTable_alloc : (allocDesc 7).caps.testBit 17 = false ∧ freeEntry ((((tensored .f32).job 0).map (·.tensors)).getD []) 1 = some 2 ∧ ((tensored .f32).job 0).isSome = true ∧ (small 1 []).job 1 = none ∧
    ((tensored .f32).placePick 0 (newEntry ((tensored .f32).tensor 0 2) .f32 (allocDesc 7) 0 0) 0 0).isSome = true := by decide +kernel
theorem wit_TensorTable_tfree : (okM (readSR 0 (.g 1)) (tensored .f32) fun x s1 => s1.me.wait == none && (s1.liveTensor 0 (x.toNat % 2 ^ 32)).isSome && !s1.me.refusing &&
    okay (stampHandle 0 0x10001 0x10001 0 .free Tensor.allExt) s1) = true := by decide +kernel
/-- `tensored` where the tensor of entry 1 has capability 0 alone. -/
def narrowed : State := (tensored .f32).modTensor 0 1 fun t => { t with caps := 1 }
theorem wit_TensorTable_twiden : (okM (readSR 0 (.g 1)) (tensored .f32) fun _ s1 => okM (readSR 1 (.g 4)) s1 fun y s2 => s2.me.wait == none && y == 2 && (2 : Nat).testBit 17 == false && okM (await .stamp) s2 fun _ s3 =>
      s3.routedIn (atCore s3.cur) && combineOk .f32 ((tens .f32).caps ||| 2) == false && decide (2 ^ 18 ≤ 2 ^ 18)) = true ∧
    (okM (readSR 1 (.g 4)) narrowed fun _ s2 => combineOk .f32 3 && okM (stampWiden 0x10001 2) s2 fun r s3 => r.1 == 0 && r.2 == some 1 && okay (widenRun 0x10001 1 true) s3) = true ∧
    (okM (readSR 1 (.g 4)) { narrowed with picks := [1] } fun _ s2 => okM (stampWiden 0x10001 2) s2 fun r _ => r == (7, none)) = true := by decide +kernel
theorem wit_TensorTable_tinfo : (3 : BitVec 3).toNat < 4 ∧ (okM (readSR 0 (.g 1)) (tensored .f32) fun _ s1 => okM (stampHandle 0 0x10001 0x10001 0 .reader fun _ => []) s1 fun T s2 => okM (keptWord 0x10001 0) s2 fun _ s3 =>
    okM (opTurn 0x10001 T) s3 fun _ s4 => okM (retireOp 0x10001 T) s4 fun _ s5 => okay (writeSR (.g 5) 0) s5) = true ∧ (tens .f32).fmt = some .f32 ∧ (tens .f32).st = 1 := by decide +kernel
theorem wit_TensorTable_service : isService ((Config.infieldDie * 128 + 15) * 32) = true ∧ isService 1 = false ∧ 4 ≤ (4 : BitVec 3).toNat ∧
    (∃ k, (parkedFor (.tinfo (.g 1) (.g 5) 0)).me.wait = some k ∧ k.data.get 0 2 = 0) := ⟨by decide, by decide, by decide, _, rfl, rfl⟩

/-- `tensored` with the tile of F32 2.0 at row 0, column 0 in local space at 0x200. -/
def padded : State := (tensored .f32).modCore 0 fun c => { c with spad := writeN [] 0x200 4 0x40000000 }
theorem test_tld : (next (.tld tile) (tensored .f32) fun t => (t.core 0).read 0x200 8 == 0x3F80000000000000) = true := by decide +kernel
theorem test_tldt : (next (.tldt tile) (tensored .f32) fun t => (t.core 0).read 0x220 4 == 0x3F800000 && (t.core 0).read 0x200 8 == 0) = true := by decide +kernel
theorem test_tst : (next (.tst tile) padded fun t => t.codeNow 0 (t.tensor 0 1) 0 == 0x40000000 && t.codeNow 0 (t.tensor 0 1) 1 == 0) = true := by decide +kernel
theorem test_tstAdd : (next (.tstAdd tile) padded fun t => t.codeNow 0 (t.tensor 0 1) 0 == 0x40000000 && t.codeNow 0 (t.tensor 0 1) 1 == 0x3F800000) = true := by decide +kernel
theorem test_tredRow : (next (.tredRow tile .max none) (tensored .f32) fun t => (t.core 0).read 0x200 8 == 0x3F800000) = true := by decide +kernel
theorem test_tredCol : (next (.tredCol tile .add none) (tensored .f32) fun t => (t.core 0).read 0x200 8 == 0x3F80000000000000) = true := by decide +kernel
theorem test_tscale : (next (.tscale (.g 1) (.g 2) 6 tsh0 none) ((tensored .f32).modSlot 1 fun x => x.putG 6 0x40000000) fun t => t.codeNow 0 (t.tensor 0 1) 1 == 0x40000000) = true := by decide +kernel
theorem test_tew : (next (.tew (.g 1) (.g 2) (.tile .add (.g 3)) tsh0 none) padded fun t => t.codeNow 0 (t.tensor 0 1) 0 == 0x40000000 && t.codeNow 0 (t.tensor 0 1) 1 == 0x3F800000) = true ∧
    (next (.tew (.g 1) (.g 2) (.scalar .max 6) tsh0 none) (tensored .f32 |>.modSlot 1 fun x => x.putG 6 0x40000000) fun t => t.codeNow 0 (t.tensor 0 1) 1 == 0x40000000) = true := by decide +kernel
/-- Tensors 1 and 2, both of `tens`; entry 2 is all 0. g1 is the handle of 2, g6 that of 1. -/
def pair2 : State := ((tensored .f32).modTensor 0 2 fun _ => { tens .f32 with cells := [] }).modSlot 1 fun x => (x.putG 1 0x20001).putG 6 0x10001
theorem test_tcopy : (next (.tcopy (.g 1) 8 6 tsh0 false none) pair2 fun t => t.codeNow 0 (t.tensor 0 2) 1 == 0x3F800000) = true ∧
    (next (.tcopy (.g 1) 8 6 tsh0 true none) pair2 fun t => t.codeNow 0 (t.tensor 0 2) 8 == 0x3F800000 && t.codeNow 0 (t.tensor 0 2) 1 == 0) = true := by decide +kernel
/-- Lanes 0 and 1 of v3 name elements (0, 1) and (0, 0); v2 holds 5 and 6; k1 is both. -/
def gathered : State := (tensored .f32).modSlot 1 fun x => ((x.putK 1 3).putV 2 0x600000005).putV 3 1
/-- Operands of VGATH.t. -/
def tg : TGathered := { v := 2, h := .g 1, c := 2, vi := 3, perm := .none, k := 1 }
theorem test_vgathT : (next (.vgathT tg) gathered fun t => (t.slot 1).regs.readV 2 == 0x3F800000) = true := by decide +kernel
theorem test_vscatT : (next (.vscatT tg) gathered fun t => t.codeNow 0 (t.tensor 0 1) 0 == 6 && t.codeNow 0 (t.tensor 0 1) 1 == 5) = true := by decide +kernel

theorem wit_TileTransfers : (okM (tileRegs tile) (tensored .f32) fun r s1 => let h := r.1
    let q := r.2.1
    let l := r.2.2
    (okM (unstamped (tldChecks tile h l q)) s1 fun _ s2 => okM (stampHandle 0 h h 1 .reader q.ext) s2 fun T s3 =>
      runs [opTurn h T, engineStep 0 (tldRows tile h l T q), retireOp h T, boardDone, engineDone] s3 fun _ => true) &&
    (okM (unstamped (tldtChecks tile h l q)) s1 fun _ s2 => okM (stampHandle 0 h h 2 .reader q.ext) s2 fun T s3 =>
      runs [opTurn h T, engineStep 0 (tldtRows tile h l T q), retireOp h T, boardDone, engineDone] s3 fun _ => true) &&
    (okM (unstamped (storeTileChecks tile h l q 4 fun _ => true)) s1 fun _ s2 => okM (stampHandle 0 h h 4 .writer q.ext) s2 fun T s3 =>
      runs [opTurn h T, engineStep 0 (tstRows tile h l q >>= fun _ => boardDone), publishMine h T >>= fun _ => pure ()] s3 fun _ => true) &&
    (okM (unstamped (storeTileChecks tile h l q 1024 addFormat)) s1 fun _ s2 => okM (stampHandle 0 h h 1024 .adder q.ext) s2 fun T s3 =>
      runs [opTurn h T, engineStep 0 (tstAddRows tile h l T q >>= fun _ => boardDone), tstAddLines h T, retireOp h T, modMe fun x => { x with copyPts := max x.copyPts x.pts }] s3 fun _ => true)) = true := by
  decide +kernel
/-- A TCOPY of `pair2` runs. -/
def copies (tr : Bool) : Bool := okay tensorSlot pair2 && okM (readSR 0 (.g 1)) pair2 fun x s1 =>
  let hd := x.toNat % 2 ^ 32
  let hs := (s1.me.regs.readG 6).toNat % 2 ^ 32
  let d := regionOf (s1.me.regs.readG 8) tsh0
  let q := copySource (s1.me.regs.readG 9) tsh0 tr
  okM (checkProg (d.nr / 8)) s1 fun _ s2 => okM (unstamped (tcopyChecks hd hs (if tr then 2 else 1) tr 0 d q)) s2 fun _ s3 =>
    okM (stampHandle 0 hs hd (if tr then 2 else 1) .reader q.ext) s3 fun Ts s4 => okM (stampHandle 1 hd hd 4 .writer d.ext) s4 fun Td s5 =>
      runs [opTurn hs Ts, opTurn hd Td] s5 fun s6 =>
        runs [writerSteps (d.nr / 8) (copyStep hd hs Ts (s6.me.rnd none) tr d q), retireOp hs Ts, publishMine hd Td >>= fun _ => pure ()] s6 fun _ => true
theorem wit_TileTransfers_copy : copies false = true ∧ copies true = true := by decide +kernel
theorem wit_TileTransfers_gather : (okM (gatherRegs tg) gathered fun r s1 => let ls := lanesOn (s1.me.regs.readK 1)
    (okM (gatherChecks r.1 1) s1 fun _ s2 => okM (stampHandle 0 r.1 r.1 1 .reader (laneExt r.2.1 r.2.2 ls)) s2 fun T s3 =>
      runs [opTurn r.1 T, laneSteps ls (gatherLane 2 r.1 T r.2.1 r.2.2), retireOp r.1 T] s3 fun _ => true) &&
    okM (keepRow 101 (readV 2)) s1 fun v s2 => okM (gatherChecks r.1 4) s2 fun _ s3 => okM (stampHandle 0 r.1 r.1 4 .writer (laneExt r.2.1 r.2.2 ls)) s3 fun T s4 =>
      runs [opTurn r.1 T, laneSteps ls (scatterLane r.1 r.2.1 r.2.2 v), publishMine r.1 T >>= fun _ => pure ()] s4 fun _ => true) = true := by decide +kernel
theorem wit_TileTransfers_rows : isLocal (tensored .f32).cur = true ∧ okay (tldRows tile 0x10001 0x200 1 (regionOf 0 tsh0)) (tensored .f32) = true ∧ okay (tldtRows tile 0x10001 0x200 1 (regionOf 0 tsh0)) (tensored .f32) = true ∧
    okay (tstRows tile 0x10001 0x200 (regionOf 0 tsh0)) padded = true ∧ (tens .f32).cols % unitCols .f32 = 0 ∧ isFar 16 = true ∧ isNear (coreOf 0) = false ∧ slotNo 0 = 0 := by decide +kernel

theorem wit_TileArithmetic_tred : (okM (tileRegs tile) (tensored .f32) fun r s1 => let h := r.1
    let q := r.2.1
    let l := r.2.2
    (okM (checkProg (q.nr / 8)) s1 fun _ s2 => okM (unstamped (tredChecks h l q 0 8 q.nr)) s2 fun _ s3 => okM (stampHandle 0 h h 8 .reader q.ext) s3 fun T s4 => okM (opTurn h T) s4 fun _ s5 =>
      okM tredFirst s5 fun k0 s6 => runs [tredRowRun h l T k0 q .max (s5.me.rnd none), retireOp h T, engineDone] s6 fun _ => true) &&
    (okM (unstamped (tredChecks h l q 0 16 q.nc)) s1 fun _ s2 => okM (stampHandle 0 h h 16 .reader q.ext) s2 fun T s3 => okM (opTurn h T) s3 fun _ s4 =>
      runs [engineStep 0 (longTrap (setProg 0) (tredColStep h T q .add (s4.me.rnd none))), tredWrite l 0 q.nc, retireOp h T, engineDone] s4 fun _ => true)) = true := by decide +kernel
theorem wit_TileArithmetic_tscale : (okM (readSR 0 (.g 1)) (tensored .f32) fun x s1 => okM (readSR 1 (.g 2)) s1 fun y s2 => let n := x.toNat % 2 ^ 32
    let q := regionOf y tsh0
    okM (checkProg (q.nr / 8)) s2 fun _ s3 => okM (unstamped (tscaleChecks n 0 q)) s3 fun _ s4 => okM (stampHandle 0 n n 32 .writer q.ext) s4 fun T s5 => okM (opTurn n T) s5 fun _ s6 =>
      runs [tscaleRun n T 0 q (s6.me.rnd none), publishMine n T >>= fun _ => pure ()] s6 fun _ => true) = true := by decide +kernel
/-- A TEW of `padded` runs. -/
def ewises (a : TewArg) : Bool := okM (readSR 0 (.g 1)) padded fun x s1 => okM (readSR 1 (.g 2)) s1 fun y s2 => okM (tewParts (s2.me.rnd none).isRdn a) s2 fun r s3 =>
  let n := x.toNat % 2 ^ 32
  let q := regionOf y tsh0
  okM (checkProg (q.nr / 8)) s3 fun _ s4 => okM (unstamped (tewChecks n r.2.1 0 q)) s4 fun _ s5 => okM (stampHandle 0 n n 64 .writer q.ext) s5 fun T s6 => okM (opTurn n T) s6 fun _ s7 =>
    runs [tewRun n T r.1 r.2.1 32 r.2.2 q (s2.me.rnd none), publishMine n T >>= fun _ => pure ()] s7 fun _ => true
theorem wit_TileArithmetic_tew : ewises (.tile .add (.g 3)) = true ∧ ewises (.scalar .mul 3) = true ∧ ewises .relu = true ∧ pitchOf 0 (4 * 8) = 32 := by decide +kernel
theorem wit_TileArithmetic_steps : ((tensored .i8).tensor 0 1).ints = true ∧ 0 < (regionOf 0 tsh0).nc ∧ 8 * 0 < (regionOf 0 tsh0).nr ∧ okay (tredColStep 0x10001 1 (regionOf 0 tsh0) .add ((tensored .i8).me.rnd none)) (tensored .i8) = true := by decide +kernel
theorem wit_TileArithmetic_ints : ([-2 ^ 31, 2 ^ 31 - 1] : List Int) ≠ [] ∧ ∀ x ∈ ([-2 ^ 31, 2 ^ 31 - 1] : List Int), -2 ^ 31 ≤ x ∧ x < 2 ^ 31 := by decide
theorem wit_TileArithmetic_float : (tagFloat .f32).isSome = true ∧ okay (ewStep 0x10001 1 ((tensored .f32).me.rnd none) FV.maxV (regionOf 0 tsh0) 0 fun _ => pure []) (tensored .f32) = true ∧ 7 < min 8 (8 - 8 * 0) := by decide +kernel

/-! ## Collectives, stashes, near-memory commands -/

/-- `tensored` with the tensor's geometry 8 by 8 and a group descriptor of one member at 0x40000000 + g4 = 0x4040; g4 its address. -/
def grouped : State := (({ tensored .f32 with mem := writeN (writeN (writeN tables 0x40004040 8 1) 0x40004048 8 0x100010001) 0x40004050 1 0x11 }).modSlot 1 fun x => x.putG 4 0x4040)
/-- Operands of COLL: one counter. -/
def coll : CollArgs := { h := 1, c := 4, l := 0, n := some 2 }
theorem test_collAr : (next (.collAr coll) grouped fun t => (t.slot 1).pc == 0x1008 && t.colls.length == 0 && (t.ctr 0 0 2).val == 256 && t.codeNow 0 (t.tensor 0 1) 1 == 0x3F800000) = true := by decide +kernel
theorem test_collRs : (next (.collRs coll) grouped fun t => (t.ctr 0 0 2).val == 256 && t.codeNow 0 (t.tensor 0 1) 1 == 0x3F800000) = true := by decide +kernel
theorem test_collAg : (next (.collAg coll) grouped fun t => (t.ctr 0 0 2).val == 256 && t.codeNow 0 (t.tensor 0 1) 1 == 0x3F800000) = true := by decide +kernel
theorem test_collA2a : (next (.collA2a coll) grouped fun t => (t.ctr 0 0 2).val == 256 && t.codeNow 0 (t.tensor 0 1) 1 == 0x3F800000) = true := by decide +kernel

/-- Entry 2 is an SG7 image of the geometry of entry 1; g6 its handle, g7 a target descriptor of 512 bytes at the host's base. -/
def stashed (len : Nat) : State := { (((tensored .f32).modTensor 0 2 fun _ => { tens .sg7 with caps := 0x800, cells := [] }).modSlot 1 fun x => (x.putG 6 0x20001).putG 7 0x300).modCore 0 fun c =>
    { c with spad := writeN (writeN [] 0x300 8 0x80000000) 0x308 8 len } with pkg := { State.reset.pkg with featsel := 0x3F } }
/-- Operands of STASH and RESTORE. -/
def sta (t : Tgt) : StashArgs := { h := .g 1, l := if t = .image then 6 else 7, n := none, st := 8, grade := .s7, tgt := t }
theorem test_stash : (next (.stash (sta .image)) (stashed 0) fun t => (t.slot 1).regs.readG 8 == 0 && (t.tensor 0 2).hlast == 1 && (t.slot 1).pc == 0x1008) = true ∧
    (next (.stash (sta .host)) (stashed 4) fun t => (t.slot 1).regs.readG 8 == 0x13) = true := by decide +kernel
theorem test_restore : (next (.restore (sta .image)) (stashed 0) fun t => (t.slot 1).regs.readG 8 == 0 && t.codeNow 0 (t.tensor 0 1) 1 == 0) = true ∧
    (next (.restore (sta .host)) (stashed 4) fun t => (t.slot 1).regs.readG 8 == 0x13) = true := by decide +kernel

/-- The far slot of core 0 with an I8 tensor whose elements (0, 0) and (0, 1) are 2 and 3, and near-memory arrays on; g1 its handle. -/
def far : State := { small 16 [(1, 0x10001)] with jobs := [(0, some (job0 [(1, { tens .i8 with cells := [(0, 2), (1, 3)] })]))], pkg := { State.reset.pkg with featsel := 1 } }
/-- `far` with weights that are 5 at row 0, column 1, and a result buffer that is 300 at (0, 0). -/
def far' : State := far.modSlot 16 fun x => { x with wts := some { fmt := .i8, data := [(1, 5)] }, buf := some { rows := 8, cols := 8, isInt := true, data := [(0, 300)] } }
theorem test_nmload : (next (.nmload (.g 1) (.g 2)) far fun t => (t.slot 16).wts == some { fmt := .i8, data := [(0, 2), (1, 3)] }) = true ∧ traps (.nmload (.g 1) (.g 2)) (tensored .i8) 1 0x3808 = true := by decide +kernel
theorem test_nmstrm : (next (.nmstrm (.g 1) (.g 2) 0 0) far' fun t => (t.slot 16).buf == some { rows := 8, cols := 8, isInt := true, data := [(1, 10)] }) = true := by decide +kernel
theorem test_nmdrain : (next (.nmdrain (.g 1) (.g 2) 0 0 none) far' fun t => t.codeNow 0 (t.tensor 0 1) 0 == 127 && t.codeNow 0 (t.tensor 0 1) 1 == 0) = true := by decide +kernel

/-- A COLL of `grouped` passes its steps. -/
def gathers (n : Nat) : Bool := okM (collRegs coll) grouped fun r s1 => okM (collDesc r.2.1) s1 fun x s2 => okM (unstamped (collGuard n r.1 r.2.2 x false)) s2 fun _ s3 =>
  okM (collStamps r.1 r.2.2 false) s3 fun st s4 => okay (collEnter (s4.collOf coll n r.1 0 (groupOf x) st)) s4
theorem wit_EngineCommands_coll : gathers 0 = true ∧ gathers 1 = true ∧ gathers 2 = true ∧ gathers 3 = true := by decide +kernel
theorem wit_EngineCommands_units : (tens .f32).tag = .f32 ∧ 63 < (tens .f32).pages * (tens .f32).rows * (tens .f32).cols ∧ isLocal 16 = false := by decide
theorem wit_EngineCommands_stash : (okM (stashBegin (sta .image)) (stashed 0) fun r s1 => okM (stampHandle 0 r.1 r.1 2048 .reader Tensor.allExt) s1 fun T s2 => let size := imageSize .s7 (s2.tensor 0 (r.1 / 65536))
      okM (stashEarly (sta .image) r.2.2 size) s2 fun n s3 => n == 0 && okay (stashImage (sta .image) r.1 (r.2.1.toNat % 2 ^ 32) T size) s3) = true ∧
    (okM (stashBegin (sta .host)) (stashed 4) fun r s1 => okM (stampHandle 0 r.1 r.1 2048 .reader Tensor.allExt) s1 fun _ s2 =>
      okM (stashEarly (sta .host) r.2.2 (imageSize .s7 (s2.tensor 0 1))) s2 fun n s3 => n == 0x13 && okay (stashFail (sta .host) r.1 n) s3) = true ∧
    (okM (stashBegin (sta .host)) (stashed 64) fun r s1 => okM (stampHandle 0 r.1 r.1 2048 .reader Tensor.allExt) s1 fun T s2 => let size := imageSize .s7 (s2.tensor 0 1)
      okM (stashEarly (sta .host) r.2.2 size) s2 fun n s3 => n == 0 && okay (stashToHost (sta .host) r.1 T size r.2.2) s3) = true := by decide +kernel
theorem wit_EngineCommands_peer : (okM (stashBegin (sta .peer)) ((stashed 0).modCore 0 fun c => { c with spad := [] }) fun r s1 => (okM (stampHandle 0 r.1 r.1 2048 .reader Tensor.allExt) s1 fun T s2 =>
      let size := imageSize .s7 (s2.tensor 0 1)
      okM (stashEarly (sta .peer) r.2.2 size) s2 fun n s3 => n == 0 && okay (stashToPeer (sta .peer) r.1 T size) s3) &&
    okM (restoreEarly (sta .peer) r.2.2 (imageSize .s7 (s1.tensor 0 1))) s1 fun n s3 => n == 0 && okay (restoreFromPeer (sta .peer) r.1 (imageSize .s7 (s1.tensor 0 1))) s3) = true := by decide +kernel
theorem wit_EngineCommands_restore : (okM (stashBegin (sta .image)) (stashed 0) fun r s1 => okM (restoreEarly (sta .image) r.2.2 (imageSize .s7 (s1.tensor 0 1))) s1 fun n s3 => n == 0 &&
      okay (restoreImage (sta .image) r.1 (r.2.1.toNat % 2 ^ 32)) s3) = true ∧
    (okM (stashBegin (sta .host)) (stashed 4) fun r s1 => okM (restoreEarly (sta .host) r.2.2 (imageSize .s7 (s1.tensor 0 1))) s1 fun n s3 => n == 0x13 && okay (stashFail (sta .host) r.1 n) s3) = true ∧
    (okM (stashBegin (sta .host)) (stashed 64) fun r s1 => let size := imageSize .s7 (s1.tensor 0 1)
      okM (restoreEarly (sta .host) r.2.2 size) s1 fun n s3 => n == 0 && okay (restoreFromHost (sta .host) r.1 size r.2.2) s3) = true := by decide +kernel
theorem wit_EngineCommands_near : okay nearSlot far' = true ∧ (okM (readSR 0 (.g 1)) far' fun x s1 => okM (readSR 1 (.g 2)) s1 fun y s2 => let n := x.toNat % 2 ^ 32
    let q := nearTile y 0 0
    (okM (nearChecks n fun _ => pure ()) s2 fun _ s3 => okM (stampHandle 0 n n 4096 .reader (weightRegion y).ext) s3 fun T s4 =>
      runs [opTurn n T, engineStep 0 (loadWeights n T (weightRegion y)), retireOp n T] s4 fun _ => true) &&
    (match s2.me.wts with
      | none => false
      | some w => okM (nearChecks n fun t => ensure (nearPair w t.tag) (badFormat 2)) s2 fun _ s3 => okM (stampHandle 0 n n 4096 .reader q.ext) s3 fun T s4 =>
          runs [opTurn n T, engineStep 0 (streamTile n T q w), retireOp n T] s4 fun _ => true) &&
    (okM (nearChecks n fun _ => ensure (decide (s2.me.nearBuf.rows = q.nr) && decide (s2.me.nearBuf.cols = q.nc)) (badFormat 1)) s2 fun _ s3 =>
      okM (stampHandle 0 n n 4096 .writer q.ext) s3 fun T s4 => runs [opTurn n T, engineStep 0 (drainTile n q s2.me.nearBuf (s2.me.rnd none)), publishMine n T >>= fun _ => pure ()] s4 fun _ => true)) = true := by
  decide +kernel
theorem wit_EngineCommands_refused : isFar (tensored .i8).cur = false ∧ ({ far with pkg := { far.pkg with featsel := 0 } } : State).pkg.featsel.testBit 0 = false ∧ (nearTile 0 0 15).nc % 8 = 0 := by decide +kernel

/-! ## System instructions -/

/-- Slot 0 of core 0: g1 = 5, g2 = 0x200, a spawn record there: PC 0x3000, UNITID 7, ids, g1 = 0xAB. -/
def starter : State := (small 0 [(1, 5), (2, 0x200)]).modCore 0 fun c => { c with spad := writeN (writeN (writeN [] 0x200 8 0x3000) 0x208 8 7) 0x240 8 0xAB }
/-- `starter` where slot 5 is ENDED as failed by trap 4. -/
def ender : State := starter.setSlot 5 { Slot.dflt with st := .ended, fin := some { code := 2, cause := 4, xpc := 0x1000, tid := 5 } }
theorem test_spawn : (next (.spawn (.g 1) (.g 2)) starter fun t => (t.slot 5).st == .held && (t.slot 5).pc == 0x3000 && (t.slot 5).sp.unitid == 7 && (t.slot 5).regs.readG 1 == 0xAB && (t.slot 0).pc == 0x1008) = true ∧
    traps (.spawn (.g 1) (.g 2)) (small 1 []) 1 0x3808 = true := by decide +kernel
theorem test_reap : (next (.reap (.g 3) (.g 31) (.g 2)) ender fun t => (t.slot 0).regs.readG 3 == 5 && (t.slot 5).st == .free && (t.core 0).read 0x210 8 == 0x50402 && (t.core 0).read 0x218 8 == 0x1000) = true ∧
    (next (.reap (.g 3) (.g 31) (.g 2)) starter fun t => (t.slot 0).st == .parked) = true := by decide +kernel
theorem wit_SystemCommands_spawn : okay starterOnly starter = true ∧ (okM (readAB (.g 1) (.g 2)) starter fun r s1 => r.2.toNat % 8 == 0 && okay (checkLocal 0x200 128 false) s1 && okM (loadLocal 0x200 128) s1 fun x s2 =>
    r.1.toNat == 5 && (s2.slot 5).st == .free && spawnOk x) = true ∧ (okM (loadLocal 0x200 128) (starter.modCore 0 fun c => { c with spad := writeN [] 0x200 8 1 }) fun x s2 => !spawnOk x && (s2.slot 15).st == .free) = true ∧
    (ender.slot 5).st ≠ .free := by decide +kernel
theorem wit_SystemCommands_reap : (okM (readAB (.g 31) (.g 2)) ender fun r s1 => r.1 == 0 && okay (checkLocal 0x200 32 true) s1 && (s1.slot 5).st == .ended && okM (storeLocal 0x200 32 (reapRecord (s1.slot 5))) s1 fun _ s2 =>
      okay (writeSR (.g 3) 5) (s2.reapSlot 5)) = true ∧ (∀ m, m < 5 → (ender.slot m).st ≠ .ended) ∧ (∀ m, m < 16 → (starter.slot m).st ≠ .ended) ∧ (starter.slot 15).st = .free ∧
    ((starter.setSlot 5 { Slot.dflt with st := .held }).slot 5).st ≠ .free := by decide +kernel

/-- A launch record at the address g4: entry 0x3000, one core of die 0, one unit, record 0x4100. -/
def launching : State := { data with mem := writeN (writeN (writeN (writeN data.mem 0x40004000 64 0x3000) 0x40004008 8 0x10000) 0x40004010 8 1) 0x40004020 8 0x4100 }
theorem test_launch : (next (.launch (.g 3) (.g 4)) launching fun t => (t.slot 1).pc == 0x1008) = true ∧ traps (.launch (.g 3) (.g 4)) data 1 0x2807 = true := by decide +kernel
theorem test_cancel : (next (.cancel .job (.g 3) (.g 1)) (small 1 [(1, 0x4000)]) fun t => (t.slot 1).pc == 0x1008 && ((t.job 0).map fun x => x.lvl.status) == some (some 5) && (t.slot 1).regs.readG 3 == 0) = true := by decide +kernel
theorem test_svc : (next (.svc 7) (small 1 [(3, 9)]) fun t => (t.slot 1).pc == 0x1008) = true ∧ (next (.svc 7) { small 1 [] with prompt := false } fun t => (t.slot 1).st == .parked) = true := by decide +kernel
/-- `small` where KEEP2 of die 0 is of job 0. -/
def kept (v : Word) : State := (small 1 [(1, v)]).modDie 0 fun d => { d with keep := [(2, { Keep.dflt with owner := some 0 })] }
theorem test_keep : (next (.keep 2 (.g 1)) (kept 0x10000000000100) fun t => ((t.die 0).keep.get Keep.dflt 2).val == 0x10000000000100) = true ∧ traps (.keep 2 (.g 1)) (small 1 [(1, 0)]) 1 0x2807 = true := by decide +kernel
theorem wit_SystemCommands_launch : (okM (readSrc 1 (.g 4)) launching fun r s1 => s1.me.wait == none && r.toNat % 64 == 0 && okM (behalfLoad r.toNat 64) s1 fun x s2 => launchRecOk x &&
      okM (keepWait fun w => { w with data := w.data.set 0 launchKey (x + 1) }) s2 fun _ s3 => okM (await .graph) s3 fun _ s4 => okay (writeSR (.g 3) (s4.submit s4.cur x).2) (s4.submit s4.cur x).1) = true ∧
    (okM (readSrc 1 (.g 4)) data fun r s1 => okM (behalfLoad r.toNat 64) s1 fun x _ => !launchRecOk x) = true := by decide +kernel
theorem wit_SystemCommands_cancel : (okM (readSrc 1 (.g 1)) (small 1 [(1, 0)]) fun id s1 => okM (await .graph) s1 fun _ s2 =>
    okay (writeSR (.g 3) (BitVec.ofNat 64 (s2.cancelLevel 0 3 id).2)) (s2.cancelLevel 0 3 id).1) = true := by decide +kernel
theorem wit_SystemCommands_svc : ({ small 1 [] with prompt := false } : State).prompt = false ∧ ({ small 1 [] with prompt := false } : State).grant ≠ some .svc ∧ (small 1 []).prompt = true ∧ isFar 16 = true ∧ slotNo 1 ≠ 0 := by decide
theorem wit_SystemCommands_keep : (okM (readSrc 1 (.g 1)) (kept 0x10000000000100) fun v s1 => !keepBad (s1.die (runDie s1.cur)) (s1.jobOf s1.cur) 2 v) = true ∧
    (okM (readSrc 1 (.g 1)) (small 1 [(1, 0xFFFFFFFFFFFFFFFF)]) fun v s1 => keepBad (s1.die (runDie s1.cur)) (s1.jobOf s1.cur) 2 v) = true := by decide +kernel

theorem test_sysrd : (next (.sysrd (.g 3) .slotid) (small 1 []) fun t => (t.slot 1).regs.readG 3 == 0x20001) = true ∧ (next (.sysrd (.g 3) .featcap) (small 1 []) fun t => (t.slot 1).regs.readG 3 == 0x3F) = true := by decide +kernel
theorem test_syswr : (next (.syswr .xhandler (.g 1)) (small 1 [(1, 0x2000)]) fun t => (t.slot 1).sp.xhandler == 0x2000) = true ∧ traps (.syswr .slotid (.g 1)) (small 1 []) 1 8 = true := by decide +kernel
theorem wit_SpecialRegisters : (small 1 []).prompt = true ∧ (small 1 []).grant = none ∧ isLocal (small 1 []).cur = true ∧ (okM (readSrc 1 (.g 1)) (kept 0) fun v s1 => v == 0 && okay (writeHb 0 v) s1 && okay (writeView 3 v) s1 &&
      okay (writeKeep 2 v) s1 && !xstatBad s1.me.sp.xstat v && linkOk v) = true ∧ okay (writeSR (.g 3) 0) ((small 1 []).modSlot 1 fun x => { x with pts := max x.pts 0 }) = true ∧
    (SpReg.slotid, BitVec.ofNat 64 (physOf 1 * 2 ^ 17 + 1)) ∈ [(SpReg.slotid, BitVec.ofNat 64 (physOf (small 1 []).cur * 2 ^ 17 + 1))] ∧ readOnly .pts = true ∧ isLocal 16 = false := by decide +kernel
theorem wit_SpecialRegisters_bounds : (0xFFFFFFFFFFFF : Word).toNat < 2 ^ 48 ∧ 2 ^ 48 ≤ (0x1000000000000 : Word).toNat ∧ (4 : Word).toNat ≤ 4 ∧ ¬ (5 : Word).toNat ≤ 4 ∧ (255 : Word).toNat < 256 ∧ (1 : Word).toNat ≥ 1 ∧
    2 ^ 16 ≤ (0x10000 : Word).toNat := by decide

/-! ## Steps of the device -/

/-- Thread 1 parked on a reply of kind `k` to the instruction `i`. -/
def parkedOn (i : Instr) (k : WaitKind) : State := (small 1 []).modSlot 1 fun x => { x with st := .parked, wait := some { kind := k, instr := i, stamps := [], data := [], n := 0 } }
/-- What a step of the device leaves. -/
def after (i : Instr) (s : State) (p : State → Bool) : Bool := next i s p
theorem test_replyArrival : after (.replyArrival 1) (parkedOn (.svc 0) .svc) (fun t => (t.slot 1).st == .running && (t.slot 1).pc == 0x1008) = true ∧
    after (.replyArrival 1) (parkedOn (.svc 0) .graph) (fun t => (t.slot 1).st == .parked) = true := by decide +kernel
theorem wit_Replies : (parkedOn (.svc 0) .svc).waitOf 1 = some .svc ∧ Dec.encode ((parkedOn (.svc 0) .svc).instrOf 1) ≠ [] ∧
    goes (exec ((parkedOn (.svc 0) .svc).instrOf 1) { parkedOn (.svc 0) .svc with cur := 1, grant := some .svc }) = true ∧ (parkedOn (.svc 0) .svc).waitOf 1 ≠ some .graph ∧
    ((parkedOn (.svc 0) .svc).slot 1).st = .parked ∧ ((small 1 []).slot 1).st ≠ .parked ∧ ((parkedOn (.svc 0) .svc).die (runDie 1)).stopped = false := by decide +kernel
theorem wit_Replies_kinds : isRadd ((parkedOn (.st (.g 1) .n64 .sys (at_ 1 0 false)) .store).instrOf 1) = false ∧ isRadd ((parkedOn (.radd .i32 (.g 1) (.g 2)) .store).instrOf 1) = true ∧
    isReduceStore ((parkedOn (.tstAdd tile) .publish).instrOf 1) = true ∧ (∀ c ∈ (small 1 []).colls, c.tid ≠ 1) ∧ isReduceStore ((parkedOn (.tst tile) .publish).instrOf 1) = false ∧
    engineOf ((parkedOn (.mma mma0) .engine).instrOf 1) = 0 ∧ engineOf ((parkedOn (.aepi (aepi0 true)) .engine).instrOf 1) = 1 ∧ engineOf ((parkedOn (.tld tile) .engine).instrOf 1) = 2 ∧
    (parkedOn (.ld (.g 1) .n64 (at_ 1 0 false)) .load).waitOf 1 = some .load := by decide +kernel

/-- Thread 1 that is to be counted a 4,096th instruction. -/
def ticking : State := (small 1 []).modSlot 1 fun x => { x with issued := 4095 }
theorem test_ptsTick : after (.ptsTick 1) ticking (fun t => (t.slot 1).pts == 1) = true ∧ after (.ptsTick 1) (small 1 []) (fun t => (t.slot 1).pts == 0) = true := by decide +kernel
/-- A baton for core 0, accepted or refused on its way back. -/
def baton (crew : Bool) (v : Option Nat) : Baton := { hops := 1, pc := 0x2000, xstat := if crew then 4 else 0, pts := 9, unitid := 0, launchid := 0, seed := 0, xhandler := 0, crewN := if crew then 2 else 0, job := 0, origin := 1, total := 0, carried := 0, regs := Regs.zero, addr := 0, dest := 0, held := false, verdict := v, cancel := none }
theorem test_batonArrival : after (.batonArrival 0) { small 1 [] with batons := [baton false none] } (fun t => t.batons == [] && (t.core 0).landed.length == 1) = true ∧
    after (.crewBatonArrival 0) { small 1 [] with batons := [baton true none] } (fun t => t.batons == [] && (t.core 0).crews.length == 1) = true := by decide +kernel
/-- The sizes of batons: no register, every register, and the baton that 07_execution.md works through (R176). -/
theorem test_batonSize : (baton false none).size = 64 ∧ { baton false none with carried := 0x00280015 }.size = 616 ∧ { baton false none with carried := BitVec.allOnes 33 }.size = 4464 := by decide +kernel
/-- Threads with a cancel pending, with a handler that has used its turns, with a message for q0, a hurdle signal. -/
def cancelled : State := (small 1 []).modSlot 1 fun x => { x with cancel := some 0 }
/-- A cancel handler at its last turn. -/
def handling : State := (small 1 []).modSlot 1 fun x => { x with handTurns := 4096, sp := { x.sp with xstat := 1, xcause := 0x13, xhandler := 0x2000 } }
theorem test_cancelDelivery : after (.cancelDelivery 1) cancelled (fun t => (t.slot 1).st == .ended) = true ∧ after (.cancelHandlerTimeout 1) (handling.modSlot 1 fun x => { x with cancel := some 0 }) (fun t => (t.slot 1).fin.map (·.code) == some 2) = true := by
  decide +kernel
theorem wit_ThreadSteps : ((small 1 []).die (runDie 1)).stopped = false ∧ (0xFFFFFFFFFFFFF8 : Word).toNat < 2 ^ 56 ∧ (ticking.die (runDie 1)).stopped = false ∧ (ticking.slot 1).st = .running ∧ (ticking.slot 1).issued % 4096 = 4095 ∧
    (ticking.slot 1).ticked = false ∧ cancelled.cancelDue 1 = true ∧ (cancelled.slot 1).inCancel = false := by decide +kernel
theorem wit_ThreadSteps_handler : ((handling.modSlot 1 fun x => { x with cancel := some 0 }).slot 1).inCancel = true ∧ (handling.slot 1).st = .running ∧ 4096 ≤ (handling.slot 1).handTurns := by decide +kernel
theorem wit_ThreadSteps_ended : (let s : State := { small 1 [] with msgs := [(small 1 []).endedMsg 1] }
    s.msgs.findIdx? (isEnded 1) == some 0 && s.hasRoom (s.endedMsg 1)) = true := by decide +kernel
/-- Thread 1 waits for the translation of page 1; die 0 walks for it. -/
def walking (cached : Bool) : State := (parkedOn (.ld (.g 1) .n64 (at_ 1 0 false)) (.translate 1)).modDie 0 fun d =>
  { d with walks := [{ job := 0, page := 1, tids := [1] }], tcache := if cached then [{ job := 0, va := 0, size := 0x40000000, pa := 0x40000000, cls := 0, x := true, w := true, home := 0 }] else [] }
theorem wit_ThreadSteps_walks : (walking true).waitOf 1 = some (.translate 1) ∧ (((walking true).die 0).tcache.find? (fun l => l.covers 0 4096)).isSome = true ∧ ((walking false).die 0).tcache.find? (fun l => l.covers 0 4096) = none ∧
    (∀ w ∈ ((parkedOn .nop (.translate 1)).die 0).walks, ¬ (w.job = 0 ∧ w.page = 1)) ∧ (((walking false).die 0).walks.take 64).find? (fun w => decide (w.job = 0) && decide (w.page = 1)) = some { job := 0, page := 1, tids := [1] } ∧
    ((walking false).walkOf 0 4096).isOk = true ∧ ((walking false).walkOf 0 (2 ^ 50)).isOk = false := by decide +kernel
theorem wit_ThreadSteps_shootdown : (({ small 1 [] with jobs := [(0, some { job0 [] with shoot := some { va := 0, size := 4096, ents := [(0x80000, 0)], move := [], lose := none, dies := [] } })] } : State).job 0).bind (·.shoot) =
    some { va := 0, size := 4096, ents := [(0x80000, 0)], move := [], lose := none, dies := [] } := by decide +kernel
theorem wit_ThreadSteps_queues : (∃ m, ({ small 1 [] with msgs := [(small 1 []).endedMsg 1] } : State).msgs[0]? = some m) ∧ (baton false none).isCrew = false ∧ (baton true none).isCrew = true ∧
    ({ small 1 [] with batons := [baton true none] } : State).batons[0]? = some (baton true none) ∧ ({ small 1 [] with answers := [baton false (some 3)] } : State).answers[0]? = some (baton false (some 3)) :=
  ⟨⟨_, rfl⟩, rfl, rfl, rfl, rfl⟩
theorem wit_ThreadSteps_signal : ∀ r b, ∃ g : HSig, ({ small 1 [] with sigs := [{ die := 0, x := 0, y := 0, n := 0, val := 0, row := true, rel := r, broken := b, pts := 0 }] } : State).sigs[0]? = some g ∧ g.rel = r ∧ g.broken = b :=
  fun _ _ => ⟨_, rfl, rfl, rfl⟩
theorem wit_ThreadSteps_landing : (baton false none).dest = 0 ∧ (small 1 []).takes 0 0 = true ∧ (small 1 []).routedTo (atCore 1) 0 = true ∧
    ((small 1 []).core 0).landed.length + ((small 1 []).core 0).arrivals.length < ((small 1 []).freeSlots 0).length := by decide +kernel
theorem wit_ThreadSteps_crews : (((small 1 []).modCore 0 fun c => { c with crews := [{ job := 0, id := 5, size := 2, arrived := [2], slots := [3], refused := false }], joins := [{ job := 0, id := 5, size := 2, members := [2], failed := false }] }).core 0).crews.find?
      (fun a => decide (a.job = 0) && decide (a.id = 5) && !a.refused && decide (a.arrived.length < a.size)) = some { job := 0, id := 5, size := 2, arrived := [2], slots := [3], refused := false } ∧
    (isJoin 0 5 { job := 0, id := 5, size := 2, members := [2], failed := false }) = true := by decide +kernel

theorem test_hbmRequest : after (.hbmRequest 5 3 2 false) (small 1 []) (fun t => t.badSect == [] && t.pkg.eccHbm.get 0 (stackOf 5) == 1) = true ∧ after (.hbmRequest 5 3 3 false) (small 1 []) (fun t => t.badSect == [5]) = true := by decide +kernel
theorem test_patrolScrub : after (.patrolScrub 5 1) (small 1 []) (fun t => t.pkg.eccHbm.get 0 (stackOf 5) == 1) = true := by decide +kernel
/-- `tensored` while its tensor is being re-represented, the snapshot taken. -/
def rereped : State := (tensored .f32).modTensor 0 1 fun t => { t with st := 2, rerep := some { tc := 1, add := 0, home := { cls := 1, form := 1, frames := [7], map := 0 }, ready := true } }
theorem test_reRepresentation : after (.reRepresentation 0 1 1) (tensored .f32) (fun t => (t.tensor 0 1).st == 2 && (t.tensor 0 1).hlast == 1) = true ∧
    after (.reRepresentationPublish 0 1) rereped (fun t => (t.tensor 0 1).cls == 1 && (t.tensor 0 1).rerep == none && (t.tensor 0 1).hlast == 1) = true := by decide +kernel
theorem wit_StorageSteps : ((small 1 []).die 0).stopped = false ∧ ((small 1 []).die Config.infieldDie).stopped = false ∧ ((small 1 []).die (stackDie (stackOf 5))).stopped = false ∧ inHbm (5 * 32) = true ∧
    5 ∈ ({ small 1 [] with badSect := [5] } : State).badSect ∧ 5 ∉ (small 1 []).badSect ∧ (2 ^ 44 - 1 < 2 ^ 44) ∧ ((tensored .f32).tensor 0 1).st = 1 ∧ ((tensored .f32).tensor 0 1).rerep = none ∧
    classOk .f32 ((tensored .f32).tensor 0 1).caps 1 = true ∧ (∀ o ∈ ((tensored .f32).tensor 0 1).ops, o.kind ≠ .widen) ∧ (small 1 []).pkg.recovery = false ∧
    ((tensored .f32).placeTensor 0 ((tensored .f32).tensor 0 1) 1 1 0 none).isSome = true ∧ (∀ o ∈ (rereped.tensor 0 1).ops, o.kind = .widen → o.stamp = 1) ∧ ((tensored .f32).job 0).isSome = true := by decide +kernel
theorem wit_StorageSteps_peer : ((stashed 0).liveTensor 0 0x20001).map (fun t => (t.tag == gradeTag .s7, t.caps.testBit capStash, t.rows, t.cols, t.pages, t.rerep.isNone)) = some (true, true, 8, 8, 1, true) ∧
    (stashed 0).liveTensor 0 0x20002 = none ∧ (rereped.tensor 0 1).rerep = some { tc := 1, add := 0, home := { cls := 1, form := 1, frames := [7], map := 0 }, ready := true } := by decide +kernel
/-- A member of a group of two waits for the other. -/
def member : Coll := { job := 0, launch := 0, tid := 1, op := 0, handle := 0x10001, res := 0, ctr := none, core := 0, bank := 0, rank := 0, pkg := 2, mods := 1, camp := 1, cfmt := 1, mfmt := 1, peers := 0x4000, inst := 0, stamps := [1], got := [], pts := 0 }
theorem wit_StorageSteps_coll : (let s : State := { tensored .f32 with colls := [member] }
    s.colls.find? (fun c => decide (c.tid = 1) && !c.heard 1) == some member && decide (1 < member.size) && decide (1 ≠ member.rank) && member.near 1 &&
      (s.matesOf member).all fun q => decide (q.rank ≠ 1) || !q.heard 1) = true := by decide +kernel
/-- A copy of a kind, of 8 bytes, that has sent its chunk and has an acknowledgement to come; and one whose bytes are all done. -/
def copyWith (kind vis : Nat) (marks : SMap Nat) : State := { data with copies := [{ id := 0, core := 0, bank := 0, tid := 1, job := 0, kind := kind, glob := 0x4000, loc := 0x100, n := 8, done := 8, vis := vis, acked := 0, prio := 0, rc := none, sc := none, p0 := 0, pts := 0, stamp := 0, handle := 0, row0 := 0, col0 := 0, page := 0, rows := 1, cols := 0, pitch := 0, data := marks, launch := 0 }] }
theorem wit_StorageSteps_copies : ((copyWith 1 0 [(2 ^ 50, 1), (2 ^ 52, 1)]).copyAt 0 0 0).map (fun k => (((copyWith 1 0 []).choose (k.marks 50)).1, ((copyWith 1 0 []).choose (k.marks 52)).1)) = some (some 0, some 0) ∧
    ((copyWith 3 8 []).copyAt 0 0 0).map Copy.complete = some true ∧ ((copyWith 1 0 []).copyAt 0 0 0).map (fun k => (k.complete, k.over)) = some (false, false) ∧
    ((copyWith 1 8 []).copyAt 0 0 0).map Copy.over = some true := by decide +kernel
theorem wit_StorageSteps_chunk : ((small 1 []).sendNext 0).isNone = true ∧ (small 1 []).picks.headD 0 = 0 ∧ (copying.sendNext 0).isSome = true := by decide +kernel
theorem test_drr : ((drr (fun c => if c = 2 then some (some (2048, small 1 [])) else none) 0 16 []).2.isSome = true) ∧
    (drr (fun c => if c = 2 then some (some (2048, small 1 [])) else none) 0 16 []).1.get 0 2 = 0 ∧ (drr (fun _ => some (some (4096, small 1 []))) 0 16 []).1.get 0 0 = 4096 := by decide +kernel
theorem wit_StorageSteps_drr : SMap.get 0 ([] : SMap Nat) (0 + 4) < 4 ∧ SMap.get 0 ([] : SMap Nat) (0 + 5) = 0 ∧ 4096 ≤ SMap.get 0 ([] : SMap Nat) (0 + 0) + quantum 0 := by decide
/-- An oriented square with a column line in the L2 of die 0, an invalidation on its way to it, and the square in the LLC. -/
def oriented (moving : Bool) : State := ({ small 1 [] with squares := [5], invals := [(0, 5)], llc := [(5, some { cols := true, dirty := 1, moving := moving })], prompt := false } : State).modDie 0 fun d =>
  { d with tens := [{ job := 0, line := 20, col := 4, kept := 0 }] }
theorem test_crossing : after (.crossingInvalidation 0 21) (oriented false) (fun t => (t.die 0).tens == [] && t.invals == []) = true := by decide +kernel
theorem test_directoryEviction : after (.directoryEviction 21) (oriented false) (fun t => (t.llc.get none 5).map (·.moving) == some true) = true ∧
    after (.directoryEviction 21) (oriented true) (fun t => t.llc.get none 5 == none) = true := by decide +kernel
theorem wit_StorageSteps_lines : (oriented false).invals.contains (0, 21 / 4) = true ∧ (oriented false).llc.get none (21 / 4) = some { cols := true, dirty := 1, moving := false } ∧ (small 1 []).llc.get none 5 = none := by decide +kernel

/-- A launch of one unit on core 0, entry 0x3000, its record at 0x4100. -/
def launch1 (st : Nat) (list : List UnitRec) : Launch := { launchOf (0x3000 + 0x10000 * 2 ^ 64 + 1 * 2 ^ 128 + 0x4100 * 2 ^ 256) 0x1000 0 0 false [] with st := st, list := list }
/-- Job 0 with that launch; with it, its graph and phase are in progress. -/
def worked (l : Launch) : State := { small 1 [] with jobs := [(0, some { job0 [] with launches := [l], nPhases := 1, phase := some { idx := 0, lvl := newLvl 0 0 0x4100 0, tab := 0x5000, n := 1, again := 0 }, graph := some { idx := 0, lvl := newLvl 0 0 0x4100 0, tab := 0x6000, n := 1, again := 0 } })] }
/-- The unit of `launch1`. -/
def unit1 (far : Bool) (st : Nat) : UnitRec := { idx := 0, tries := 0, core := 0, far := far, st := st }
theorem test_launchPlacement : after (.launchPlacement 0x1000) (worked (launch1 1 [])) (fun t => (t.launchAt 0x1000).map (fun l => (l.st, l.list)) == some (2, [unit1 false 0])) = true := by decide +kernel
theorem test_assignStart : after (.assignStart 0 0x1000 1 0) (worked (launch1 2 [unit1 false 0])) (fun t => (t.port 0 0 0).words.length == 8 && (t.launchAt 0x1000).map (·.list) == some [unit1 false 1]) = true := by decide +kernel
theorem test_farUnitPlace : after (.farUnitPlace 0x1000 0) (worked (launch1 2 [unit1 true 0])) (fun t => (t.slot 16).st == .held && (t.slot 16).pc == 0x3000) = true := by decide +kernel
theorem test_phaseStart : after (.phaseStart 0) { small 1 [] with jobs := [(0, some { job0 [] with nPhases := 1, phaseTab := 0x5000 })], mem := writeN (writeN (writeN tables 0x40005000 8 0x4100) 0x40005008 8 0x6000) 0x40005010 8 1 } (fun t =>
    ((t.job 0).bind (·.phase)).map (fun g => (g.idx, g.n)) == some (0, 1)) = true := by decide +kernel
theorem test_jobnotify : after (.jobnotify 0x100000000) (small 1 []) (fun t => t.pkg.notifies == []) = true := by decide +kernel
/-- `worked` with its record due: its one unit is done. -/
def finished : State := worked { launch1 2 [unit1 false 2] with lvl := { newLvl 0 0 0x4100 0 with doneN := 1, tstart := some 3, pts := 8 } }
theorem test_completionRecordWrite : after (.completionRecordWrite 0x1000) finished (fun t => readN t.mem 0x40004120 8 == 0x1000) = true := by decide +kernel
theorem test_clusterAssignment : after (.clusterAssignment 1 0) (small 1 []) (fun t => (t.cluster 1).job == some 0) = true := by decide +kernel
theorem test_rebase : after (.rebase 0) (((small 1 []).modJob 0 fun j => { j with rebasing := true }).modSlot 1 fun x => { x with pts := 7 }) (fun t => (t.slot 1).pts == 0 && (t.slot 1).pc == 0x1000) = true := by decide +kernel

theorem wit_WorkSteps_start : (let s := worked (launch1 2 [unit1 false 0])
    (s.launchAt 0x1000).map (fun l => s.startable l 0 1 0) == some true && (s.launchAt 0x1000).map (fun l => (l.st, l.lvl.status)) == some (2, none)) = true := by decide +kernel
theorem wit_WorkSteps :
    (({ launch1 2 [unit1 false 1] with lvl := { newLvl 0 0 0 0 with status := some 5 } } : Launch).lvl.status.isSome = true ∧ ∃ u ∈ (launch1 2 [unit1 false 1]).list, u.core = 0 ∧ u.far = false) ∧
    (worked (launch1 1 [])).eligible 0 (launch1 1 []) = [0] ∧ (launch1 1 []).unplaced = true ∧ (worked (launch1 1 [])).overtakes (launch1 1 []) = false ∧ (worked (launch1 1 [])).fits (launch1 1 []) [0] = true ∧
    (worked { launch1 1 [] with dies := 2 }).eligible 0 { launch1 1 [] with dies := 2 } = [] ∧ ((worked { launch1 1 [] with units := 16 }).fits { launch1 1 [] with units := 16 } [0]) = false ∧ (small 1 []).launchAt 0x1000 = none ∧
    (small 1 []).job 1 = none := by decide +kernel
theorem wit_WorkSteps_far : ((worked (launch1 2 [unit1 true 0])).slot (tidOf 0 16)).st = .free ∧ (worked (launch1 2 [unit1 true 0])).farNext (launch1 2 [unit1 true 0]) 0 = some (unit1 true 0) ∧
    (worked (launch1 3 [unit1 false 0])).overtakes (launch1 3 [unit1 false 0]) = false ∧ (launch1 3 []).unplaced = true := by decide +kernel
theorem wit_WorkSteps_preempt : (let s := (worked (launch1 2 [unit1 false 1])).modJob 0 fun x => { x with stopping := [1] }
    (s.job 0).map (fun x => (s.modSlot 1 fun y => { y with sp := { y.sp with launchid := 0x1000 } }).yielding x 0x1000) == some true) = true := by decide +kernel
theorem wit_WorkSteps_tables : (let s : State := { small 1 [] with jobs := [(0, some { job0 [] with nPhases := 1, phaseTab := 0x5000 })], mem := writeN (writeN tables 0x40005000 8 0x4100) 0x40005010 8 1 }
      (s.tabEntry 0 0x5000 0 65535 0).isSome && (s.job 0).map (fun x => (x.phase.isNone, x.lvl.status, x.lvl.counted)) == some (true, none, 0)) = true ∧ (small 1 []).tabEntry 0 (2 ^ 50) 0 65535 0 = none ∧
    ((worked (launch1 1 [])).job 0).map (fun x => x.phase.isSome) = some true ∧ (newLvl 0 0 0x4100 0).counted < 1 := by decide +kernel
theorem wit_WorkSteps_record : (finished.job (idJob 0x1000)).map (fun x => (finished.recordDue x 0 (idKind 0x1000) 0x1000).map fun l => (finished.writeRecord 0 0x1000 l l.final).2.2) = some (some none) ∧ idKind 0x1000 < 3 ∧
    ((worked (launch1 1 [])).job 0).map (fun x => (worked (launch1 1 [])).recordDue x 0 0 0x1000) = some none := by decide +kernel
theorem wit_WorkSteps_job : (let s : State := { small 1 [] with jobs := [(0, some { job0 [] with lvl := newLvl 0 0 0x4100 0 })] }
    (s.job 0).map (fun x => (s.recordDue x 0 3 0x4000).map fun l => (s.writeRecord 0 0x4000 l l.final).2.2) == some (some none)) = true ∧ idKind 0x4000 = 3 ∧ idJob 0x4000 = 0 := by decide +kernel
theorem wit_WorkSteps_kill : (let l : Launch := { launch1 2 [unit1 false 1] with lvl := { newLvl 0 0 0 0 with status := some 5 } }
    ((worked l).job 0).map (fun x => (x.lvlOf 0 0x1000).map fun l => (l.status.isSome, l.acked, l.written)) == some (some (true, false, false))) = true := by decide +kernel
theorem wit_WorkSteps_rebase : (small 1 []).atBoundary 0 = true ∧ (parkedOn (.ld (.g 1) .n64 (at_ 1 0 true)) .load).atBoundary 0 = false ∧ (((small 1 []).job 0).map (·.rebasing)) = some false ∧
    ((((small 1 []).modJob 0 fun j => { j with rebasing := true }).job 0).map (·.rebasing)) = some true := by decide +kernel
theorem wit_WorkSteps_load : ∀ j root b i, (∃ u hs, (small 1 []).load j root b i = .ok (u, hs)) ∨ ∃ e u hs, (small 1 []).load j root b i = .error (e, u, hs) := by
  intro j root b i; rcases (small 1 []).load j root b i with ⟨e, u, hs⟩ | ⟨u, hs⟩
  · exact .inr ⟨e, u, hs, rfl⟩
  · exact .inl ⟨u, hs, rfl⟩
theorem wit_WorkSteps_intake : (0x10000000F : Word).toNat / 16 % 2 ^ 28 = 0 ∧ (0x100000010 : Word).toNat / 16 % 2 ^ 28 ≠ 0 ∧ (small 1 []).pkg.featDone = false ∧ ({ State.reset.pkg with featDone := true } : Package).featDone = true := by decide
theorem wit_WorkSteps_clusters : ((small 1 []).die (255 / 32)).stopped = false ∧ (1 < 256) ∧ ((small 1 []).cluster 1).harvested = false ∧ ((small 1 []).cluster 1).job ≠ some 0 ∧ ((small 1 []).job 0).isSome = true ∧ (small 1 []).clusterIdle 1 = true ∧
    ((small 1 []).cluster 0).job = some 0 ∧ (small 1 []).clusterIdle 0 = false := by decide +kernel

theorem test_freeze : after (.freeze 0x46525A21) (small 1 []) (fun t => (t.die 0).token && (t.die 5).token && !(t.die 0).stopped) = true ∧ after (.freeze 1) (small 1 []) (fun t => !(t.die 0).token) = true := by decide +kernel
theorem test_freezeToken : after (.freezeToken 0) ((small 1 []).modDie 0 fun d => { d with token := true }) (fun t => (t.die 0).stopped) = true ∧ (exec .nop ((small 1 []).modDie 0 fun d => { d with stopped := true }) matches .fault .clocksStopped) = true := by decide +kernel
theorem test_featselWrite : after (.featselWrite 0xFF) (small 1 []) (fun t => t.pkg.featsel == 0x3F) = true := by decide +kernel
theorem test_timeDiscipline : after (.timeDiscipline 1 100 5000 0) { small 1 [] with picks := [0] } (fun t => (t.die 0).time == 4998 && (t.die 3).time == 5000 && (t.die 0).timeErr == 25100) = true := by decide +kernel
theorem test_frameReceive : after (.frameReceive 0 7 false []) { small 1 [] with links := [(0, { Link.dflt with seq := 7 })] } (fun t => (t.link 0).seq == 8) = true ∧
    after (.frameReceive 0 0 true []) { small 1 [] with links := [(0, { Link.dflt with fails := 15 })] } (fun t => (t.link 0).down) = true := by decide +kernel
theorem wit_HostAndLinkSteps_frames : Link.dflt.mayCome 0 0 = true ∧ Link.dflt.mayCome 0 64 = false ∧ ({ Link.dflt with unacked := 3 } : Link).mayCome 0 2 = true := by decide +kernel
theorem wit_HostAndLinkSteps : ((small 1 []).die Config.infieldDie).stopped = false ∧ ((small 1 []).die (Config.opticalDie0 + 63 / 16)).stopped = false ∧ (0 : Word) ≠ 1 ∧ (0 : Word) ≠ 0x46525A21 ∧ Config.infieldDie < Config.dieCount ∧
    ((small 1 []).pkg.timeSrc = 0) ∧ (∃ g ∈ portGroups 63, ({ Link.dflt with unacked := 1 } : Link).unacked ≠ 0 ∧ ((small 1 []).link g).unacked = 0) ∧ (0x1000 ≤ 0x1FF8 ∧ 0x1FF8 + 8 ≤ 0x2000) := by decide +kernel
theorem wit_HostAndLinkSteps_freeze : (((small 1 []).modDie 5 fun d => { d with token := true }).die 5).token = true ∧ (((small 1 []).modDie 5 fun d => { d with token := true }).die 5).stopped = false := by decide +kernel
theorem wit_HostAndLinkSteps_links : ({ Link.dflt with down := true } : Link).down = true ∧ Link.dflt.down = false ∧ linkExt 0 = false ∧ linkExt 0x10000 = true ∧ Link.dflt.seq = Link.dflt.seq ∧ Link.dflt.fails + 1 < 16 ∧
    16 ≤ ({ Link.dflt with fails := 15 } : Link).fails + 1 ∧ Link.dflt.frames < 65536 ∧ 65536 ≤ ({ Link.dflt with frames := 65536 } : Link).frames ∧ ({ Link.dflt with training := [7] } : Link).training.contains 7 = true ∧
    Link.dflt.active.testBit 7 = true ∧ ({ Link.dflt with training := [15] } : Link).training.contains (backKey 7) = true ∧ ({ Link.dflt with active := 0x7F } : Link).active.testBit 7 = false ∧ Link.dflt.tries.get 0 7 < 2 ∧
    2 ≤ ({ Link.dflt with tries := [(7, 2)] } : Link).tries.get 0 7 := by decide +kernel
theorem wit_HostAndLinkSteps_time : ((1 = 1) ∨ ((2 : Nat) = 2 ∧ ({ State.reset.pkg with featsel := 0x20 } : Package).featsel.testBit 5 = true)) ∧ 0 < Config.dieCount ∧ (3 ≠ 1) ∧ (3 ≠ 2) ∧ State.reset.pkg.featsel.testBit 5 = false := by decide

/-! ## Further witnesses, one for each clause on a far slot, a starter or a clock -/

/-- `far` at the start of a lap of its core. -/
def farNow : State := { far with grant := some .lapStart }
theorem wit_SourceReads_far : isFar farNow.cur = true ∧ farNow.grant = some .lapStart ∧ isFar far.cur = true ∧ far.grant ≠ some .lapStart ∧
    (shared.modReg 0 0 70 fun x => { x with full := true }).me.latch = [] ∧ ((shared.modReg 0 0 70 fun x => { x with full := true }).myReg (64 + 6)).full = true ∧
    ((shared.modReg 0 0 70 fun x => { x with full := true }).myReg (64 + 6)).readers = [] := by decide +kernel
theorem wit_DestinationWrites_far : (let s := farNow.modSlot 16 fun x => { x with mailOut := some (70, 5) }
    s.me.mailOut == some (70, 5) && !(s.die (runDie s.cur)).stopped && s.grant == some .lapStart && goes (exec (.mov (.m 6) (.g 1)) s)) = true ∧ Dec.encode (.mov (.m 6) (.g 1)) ≠ [] ∧
    (let s := far.modSlot 16 fun x => { x with mailOut := some (70, 5) }
    s.me.mailOut == some (70, 5) && s.grant != some .lapStart && goes (exec (.mov (.m 6) (.g 1)) s)) = true := by decide +kernel
theorem wit_FenceFullBitsAndLines_far : isFar farNow.cur = true ∧ 64 ≤ 70 ∧ sharedNo (.m 6) = some 70 ∧ (okM (readSrc 1 (.g 1)) farNow fun _ s1 => s1.grant == some .lapStart && !(s1.myReg 70).full && (s1.myReg 70).writers == []) = true := by
  decide +kernel
/-- Slot 0 of core 0 parked on REAP with a cancel pending; its handler is at 0x2000, or it has none. -/
def reaping (handler : Word) : State := ({ small 0 [(31, 0), (2, 0x200)] with mem := writeN tables 0x40002000 8 0xF004000800000000 } : State).modSlot 0 fun x =>
  { x with st := .parked, cancel := some 0, wait := some { kind := .reap, instr := .reap (.g 3) (.g 31) (.g 2), stamps := [], data := [], n := 0 }, sp := { x.sp with xhandler := handler } }
theorem wit_ThreadSteps_starter : (reaping 0x2000).cancelDue 0 = true ∧ slotNo 0 = 0 ∧ (reaping 0x2000).waitOf 0 = some .reap ∧ ((reaping 0x2000).slot 0).sp.xhandler ≠ 0 ∧
    ((reaping 0x2000).slot 0).sp.xstat.getLsbD 0 = false ∧ ((reaping 0x2000).modSlot 0 fun x => { x with cancel := none }).handlerOk 0 = true := by decide +kernel
theorem test_starterCancel : after (.cancelDelivery 0) (reaping 0x2000) (fun t => (t.slot 0).sp.xcause == 0x13 && (t.slot 0).pc == 0x2000 && (t.slot 0).st == .running) = true := by decide +kernel
theorem wit_ThreadSteps_laps : ((small 1 []).core 0).turn = 0 ∧ ((small 1 []).core 0).begun = false ∧ (((small 1 []).lapStart 0).core 0).begun = true ∧
    (((small 1 []).modCore 0 fun c => { c with turn := 3 }).core 0).turn ≠ 0 := by decide +kernel
theorem wit_ThreadSteps_total : (((small 1 []).modSlot 1 fun x => { x with total := 4095 }).slot 1).total % 4096 = 4095 ∧ (((small 1 []).modSlot 1 fun x => { x with total := 4095 }).slot 1).issued % 4096 ≠ 4095 ∧
    ((small 1 []).slot 1).ticked = false := by decide +kernel
/-- `far` with its tensor in class NEARROW on the stack of the slot. -/
def nearby : State := { far with jobs := [(0, some (job0 [(1, { tens .i8 with cls := 7, frames := [0x100] })]))] }
theorem wit_EngineCommands_ready : nearby.me.wait = none ∧ nearby.nearReady 0 (nearby.tensor (nearby.jobOf nearby.cur) 1) (farStack nearby.cur) = true ∧ far.nearReady 0 (far.tensor 0 1) (farStack far.cur) = false ∧ isFar 16 = true ∧ (far'.slot 16).st ≠ .free ∧
    okay (nearMove 0x10001) far' = true ∧ (okM (stashBegin (sta .image)) (stashed 0) fun r s1 => okay (unstamped (entry (r.2.1.toNat % 2 ^ 32) >>= fun q => checkPool r.1 (q.newSegs .writer 2048 q.allExt).length)) s1) = true := by decide +kernel
theorem wit_WorkSteps_recovery : ({ State.reset.pkg with recovery := true } : Package).recovery = true ∧ State.reset.pkg.recovery = false := by decide
theorem wit_HostAndLinkSteps_external : linkExt 0x10000 = true ∧ ((small 1 []).link 0x10000).frames < 65536 ∧ ((small 1 []).link 0x10000).down = false ∧ (5 : Nat) < 8 := by decide +kernel

/-! ## Witnesses for the global accesses, the long lane forms, waits, steps of the device, and worked examples -/

/-- Entries of page tables below `tables`: at 2^32, a leaf of 2 MiB; from 2^32 + 2^21 on, a leaf of 4 KiB, one of 64 KiB, an absent group and
malformed entries. -/
def deepEntries : List (Nat × Nat) := [(0x80020, 0x82001), (0x82000, 0x40000099), (0x82008, 0x83001), (0x82010, 0x1003), (0x83000, 0x40000019),
  (0x83080, 0x40000119), (0x83088, 0x40000119), (0x83108, 0x40000119), (0x83180, 0x40000118), (0x83188, 0x119), (0x80028, 0x3), (8, 0x3)]
/-- `data` with those entries. -/
def deep : State := { data with mem := deepEntries.foldl (fun m e => writeN m e.1 8 e.2) data.mem }
/-- A walk of `deep` answers a leaf of this level's size, or stops with a reason and level. -/
def walks (va size : Nat) : Bool := match deep.walkOf 0 va with | .ok l => l.size == size | .error _ => false
/-- A walk of `deep` stops with this reason and level. -/
def walkStops (va reason level : Nat) : Bool := match deep.walkOf 0 va with | .ok _ => false | .error e => e.reason == reason && e.level == level
theorem test_walk_leaves : walks 0x1000 (2 ^ 30) = true ∧ walks (2 ^ 32) (2 ^ 21) = true ∧ walks (2 ^ 32 + 2 ^ 21) (2 ^ 12) = true ∧
    walks (2 ^ 32 + 2 ^ 21 + 0x11000) (2 ^ 16) = true := by decide +kernel
theorem test_walk_stops : walkStops (2 ^ 40) 0 0 = true ∧ walkStops (2 ^ 39) 1 0 = true ∧ walkStops (2 ^ 30 * 6) 0 1 = true ∧ walkStops (2 ^ 30 * 5) 1 1 = true ∧
    walkStops (2 ^ 32 + 3 * 2 ^ 21) 0 2 = true ∧ walkStops (2 ^ 32 + 2 * 2 ^ 21) 1 2 = true ∧ walkStops (2 ^ 32 + 2 ^ 21 + 0x1000) 0 3 = true ∧
    walkStops (2 ^ 32 + 2 ^ 21 + 0x21000) 1 3 = true ∧ walkStops (2 ^ 32 + 2 ^ 21 + 0x31000) 0 3 = true := by decide +kernel
theorem wit_AccessChecks_walk : (data.job 0).isSome = true ∧ data.job 1 = none ∧ (1 = 1 ∨ 1 = 2 ∨ 1 = 3) ∧ ((0x40000099 : Nat) / 2 ^ 50 % 2 ^ 14 = 0) ∧ inHbm 0x40000000 = true := by decide +kernel
theorem wit_AccessChecks_outside : outsideGlobal (-1) = true ∧ outsideGlobal 0 = false ∧ outsideGlobal (2 ^ 55 - 1) = false ∧ outsideGlobal (2 ^ 55) = false ∧ outsideGlobal (2 ^ 55 + 0x400000) = true ∧
    outsideGlobal (2 ^ 55 + 0x3FFFFF) = false ∧ outsideGlobal (2 ^ 55 + 2 ^ 35) = true ∧ outsideGlobal (2 ^ 55 + 2 ^ 41) = true := by decide +kernel
theorem wit_AccessChecks_windows : data.notOwned (windowCore (2 ^ 55)) (data.jobOf data.cur) = false ∧ windowCore (2 ^ 55) = coreOf data.cur ∧ isLocal data.cur = true ∧
    data.notOwned (windowCore (2 ^ 55 + 2 ^ 28)) (data.jobOf data.cur) = false ∧ windowCore (2 ^ 55 + 2 ^ 28) ≠ coreOf data.cur ∧
    data.notOwned (windowCore (2 ^ 55 + 127 * 2 ^ 28)) (data.jobOf data.cur) = true := by decide +kernel
/-- What an access of `data` translates to: its class, its W right, and whether its home is this core. -/
def translated (va : Nat) (wr : Bool) : Option (Nat × Bool × Bool) :=
  match translate va wr false data with
  | .ok (l, u) => some (l.cls, l.w, decide (homeCore (l.phys va) l.home = coreOf u.cur))
  | .error _ => none
theorem wit_AccessChecks_pages : translated 0x4000 true = some (0, true, false) ∧ translated (2 ^ 30) true = some (1, true, false) ∧ translated (2 ^ 31) true = some (3, true, false) ∧
    translated (3 * 2 ^ 30) true = some (0, false, false) ∧ translated (2 ^ 32) true = none := by decide +kernel
/-- The home of the page at 2^30 runs the thread: a slot of near core 0 of that stack. -/
def homed : State := small (homeCore 0x80000000 0 * 32 + 1) [(7, 0x40000000)]
theorem wit_AccessChecks_home : (match translate 0x40000000 true false homed with | .ok (l, u) => decide (l.cls = 1) && decide (homeCore (l.phys 0x40000000) l.home = coreOf u.cur) | .error _ => false) = true ∧
    (match translate 0x4000 true false { data with mem := writeN data.mem 0x80000 8 0x400000D9 } with | .ok (l, _) => decide (l.cls = 2) | .error _ => false) = true := by decide +kernel
theorem wit_AccessChecks_tlb : ((data.core (coreOf data.cur)).tlb.find? fun l => l.covers 0 0x4000) = none ∧ data.walkRouted (atCore data.cur) 0 0x4000 = true ∧ data.prompt = true ∧
    (∃ l, (((data.installTlb 0 { job := 0, va := 0, size := 0x40000000, pa := 0x40000000, cls := 0, x := true, w := true, home := 0 }).core (coreOf data.cur)).tlb.find? fun l => l.covers 0 0x4000) = some l) := by
  refine ⟨by decide +kernel, by decide +kernel, rfl, _, rfl⟩
theorem test_access_traps : traps (.ld (.g 3) .n8 (at_ 4 0 true)) (data.modSlot 1 fun x => x.putG 4 0xFFFFFFFFFFFFFF) 5 0x20FFFFFFFFFFFFFF = true ∧
    traps (.st (.g 6) .n8 .sys (at_ 9 0 true)) data 6 0x01000000C0000000 = true ∧ traps (.amoadd { d := .g 3, a := .g 4, b := .g 6, glb := true, scope := .sys, w64 := true })
      (data.modSlot 1 fun x => x.putG 4 0x80000000) 6 0x4100000080000000 = true := by decide +kernel
theorem test_host_page : (next (.ld (.g 3) .n8 (at_ 8 0 true)) { data with hostMem := [(0x400000000000, 0x5A)], pkg := { data.pkg with hwbase := 0x400000000000 } } fun t =>
    (t.slot 1).regs.readG 3 == 0x5A && (t.slot 1).pts == 0) = true ∧ (next (.st (.g 6) .n8 .sys (at_ 8 0 true)) data fun t => t.hostMem == [(0, 0x88)] && t.mem == data.mem) = true := by decide +kernel
theorem wit_HomeAccesses_host : data.prompt = true ∧ data.routed (atCore data.cur) hostBase = true ∧ ({ data with prompt := false, grant := some .hostReply } : State).grant = some .hostReply := by decide +kernel

/-- `lanes` at lane `l` of a long form. -/
def atLane (l : Nat) : State := lanes.modSlot 1 fun y => { y with sp := { y.sp with progidx := BitVec.ofNat 64 l } }
theorem wit_LaneAccesses_long : (gatherForm true 1 2 (fun l => 0x4000 + 8 * l) lanes).toOption.isSome = true ∧
    (okM (laneTarget 0x4000 false) (atLane 0) fun p w => okay (loadT p 4 false) w) = true ∧ (okM (laneTarget 0x4000 true) (atLane 0) fun p w => okay (storeT p 4 0x11 0 false) w) = true ∧
    (match laneTarget 0x4001 false (atLane 1) with | .error (.trap 4 _) => true | _ => false) = true ∧
    ((List.range 64).filter fun l => (lanes.me.regs.readK 1).getLsbD l && decide (lanes.me.sp.progidx.toNat ≤ l)) = [0] ++ 1 :: [] ∧
    (match placeOf true (2 ^ 30) 4 false false lanes with | .ok (.inr _, _) => true | _ => false) = true := by decide +kernel

theorem wit_FenceFullBitsAndLines_waits : copying.quiet 1 = false ∧ ({ copying with prompt := false } : State).prompt = false := by decide
theorem wit_Messages_room : ({ small 1 [(1, 0x20)] with prompt := false } : State).prompt = false ∧ (∀ q ∈ (small 1 []).msgs, q.src ≠ some 1) ∧
    (64 < ((((small 1 []).modPort 1 0 1 fun p => { p with words := List.replicate 64 (0, 0) }).port 1 0 1).words.length + (0 + 1))) ∧ isCompute 1 = true ∧
    (small 1 []).notOwned 4 0 = true ∧ isCompute 4 = true := by decide +kernel
theorem wit_Messages_ready : ∃ w, ((small 1 []).modSlot 1 fun x => { x with wait := some { kind := .ready, instr := .qsend 1 (.g 1) 6 1, stamps := [], data := [], n := 1 } }).me.wait = some w ∧
    w.kind = .ready ∧ w.n = 1 := ⟨_, rfl, rfl, rfl⟩
theorem test_qsend_waits : (next (.qsend 1 (.g 1) 6 0) { small 1 [(1, 0x20), (6, 0xAA)] with prompt := false } fun t => (t.slot 1).st == .parked && t.msgs.length == 1) = true ∧
    traps (.qsend 0 (.g 1) 6 0) (small 1 [(1, 0x20)]) 5 0x3000000000000020 = true := by decide +kernel
theorem test_done_cancelled : (next .done ((small 1 []).modSlot 1 fun x => { x with cancel := some 0 }) fun t => ((t.slot 1).fin.map (·.code)) == some 2) = true := by decide +kernel
theorem wit_CopiesIssue_empty : (small 1 []).me.refusing = false ∧ copying.copies.map (fun k => ({ k with n := 0 } : Copy).n) = [0] ∧ copying.copies.map (·.data) = [[]] := by decide
/-- A thread in its cancel handler. -/
def refusing : State := (tensored .f32).modSlot 1 fun x => { x with cancel := some 0, sp := { x.sp with xstat := 1, xcause := 0x13, xhandler := 0x2000 } }
theorem wit_refusing : refusing.me.refusing = true ∧ (okM (readSR 0 (.g 1)) refusing fun h s1 => okM (readSR 1 (.g 2)) s1 fun y s2 => okM (readSR 2 (.g 3)) s2 fun l s3 =>
    okM (unstamped (tileCopyChecks tcp (h.toNat % 2 ^ 32) l.toNat (tileCopyNeed false) (regionOf y tsh0) false)) s3 fun _ s4 => s4.me.refusing && okM copyRoom s4 fun _ s6 =>
      okM (tileCopyOf tcp 0x10001 l.toNat 0 (regionOf y tsh0) false) s6 fun k s7 => okay (launchCopy k) (s7.modSlot s7.cur fun x => x.putG 5 (BitVec.ofNat 64 k.id))) = true := by decide +kernel

/-- Bytes 0, 5 and 9 of 64 codes: the bitmap and the packed codes that R72's example gives, and the dense image again. -/
def sparseRow : List Nat := (List.range 64).map fun i => if i = 0 then 0x3F80 else if i = 5 then 0x8000 else if i = 9 then 0x7FC1 else 0
theorem test_sparse : sparseBitmap sparseRow = 0x221 ∧ sparsePacked sparseRow = [0x3F80, 0x8000, 0x7FC1] ∧ sparseExpand 64 0x221 [0x3F80, 0x8000, 0x7FC1] = sparseRow := by decide +kernel
/-- The column line of the example of R95: BF16 element column 8, rows 0 to 31, is the first 64 bytes of column line 2; element column 9 follows. -/
theorem test_columnPlace : (List.range 32).map (fun i => columnPlace 2 i 16) = (List.range 32).map (2 * ·) ∧ columnPlace 2 0 18 = 64 ∧ columnPlace 2 31 23 = 255 ∧
    columnPlace 1 3 8 = 3 ∧ columnPlace 8 31 31 = 255 ∧ columnOwner 2 2 64 = (0, 18) := by decide +kernel

theorem wit_HandleOperations_form : ((tensored .f32).tensor 0 1).form ≠ 3 ∧ ((tensored .f32).job 0).isSome = true ∧ 0 < ((tensored .f32).tensor 0 1).upr := by decide +kernel
/-- A slot of the firmware: slot 1 of the service core, with ACTLVL values in g1. -/
def service (v : Word) : State := small ((Config.infieldDie * 128 + 15) * 32 + 1) [(1, v)]
theorem test_syswr_actlvl : (next (.syswr .actlvl (.g 1)) (service 128) fun t => t.pkg.actlvl == 128) = true ∧ traps (.syswr .actlvl (.g 1)) (small 1 [(1, 128)]) 1 8 = true := by decide +kernel
theorem wit_SpecialRegisters_service : isService (service 0).cur = true ∧ isService (small 1 []).cur = false ∧ readOnly .actlvl = true ∧ okay (readSrc 1 (.g 1)) (service 16) = true ∧
    (16 ≤ (16 : Word).toNat ∧ (128 : Word).toNat ≤ 128 ∧ (15 : Word).toNat < 16 ∧ 128 < (129 : Word).toNat) := by decide +kernel
/-- `grouped` in its cancel handler; and with segment 0 of its tensor poisoned. -/
def groupedCancel : State := grouped.modSlot 1 fun x => { x with cancel := some 0, sp := { x.sp with xstat := 1, xcause := 0x13, xhandler := 0x2000 } }
theorem test_coll_cancelled : (next (.collAr coll) groupedCancel fun t => (t.ctr 0 0 2).err == 3 && t.colls == []) = true ∧
    traps (.collAr coll) (grouped.modTensor 0 1 fun t => { t with poison := [0] }) 0x0C 0x1000000000010001 = true := by decide +kernel
theorem wit_EngineCommands_refusing : (okM (collRegs coll) groupedCancel fun r s1 => okM (collDesc r.2.1) s1 fun x s2 => okM (unstamped (collGuard 0 r.1 r.2.2 x false)) s2 fun _ s3 => s3.me.refusing) = true ∧
    (okM (stashBegin (sta .image)) ((stashed 0).modSlot 1 fun x => { x with cancel := some 0, sp := { x.sp with xstat := 1, xcause := 0x13, xhandler := 0x2000 } }) fun r s1 =>
      s1.me.refusing && okay (stashFail (sta .image) r.1 3) s1) = true := by decide +kernel

/-! Steps of threads. -/

theorem wit_ThreadSteps_full : (let s := (small 1 []).modCore 0 fun c => { c with landed := List.replicate 15 (baton false none) }
    decide (¬ (s.core 0).landed.length + (s.core 0).arrivals.length < (s.freeSlots 0).length) && decide ((s.core 0).buffered < 8)) = true ∧
    (let s := (small 1 []).modCore 0 fun c => { c with arrivals := List.replicate 8 (baton false none), landed := List.replicate 15 (baton false none) }
    decide (8 ≤ (s.core 0).buffered)) = true ∧ (small 1 []).takes 4 0 = false ∧ (small 1 []).routedTo (atCore 1) 4 = true := by decide +kernel
theorem test_batonFull : after (.batonArrival 0) { (small 1 []).modCore 0 (fun c => { c with landed := List.replicate 15 (baton false none) }) with batons := [baton false none] } (fun t =>
    t.answers.map (·.verdict) == [none] && (t.core 0).migrs == 1) = true ∧
    after (.batonArrival 0) { small 1 [] with batons := [{ baton false none with dest := 4 }] } (fun t => t.answers.map (·.verdict) == [some 1]) = true := by decide +kernel
/-- `data` as the origin of a baton, with a handler at 0x2000. -/
def origin : State := ({ data with mem := writeN data.mem 0x40002000 8 0xF004000800000000 } : State).modSlot 1 fun x => { x with st := .reserved, sp := { x.sp with xhandler := 0x2000 } }
theorem wit_ThreadSteps_refused : (origin.slot 1).sp.xhandler ≠ 0 ∧ (origin.slot 1).sp.xstat.getLsbD 0 = false ∧ (baton false (some 3)).verdict = some 3 ∧
    ((origin.modSlot 1 fun x => { x with st := .running, wait := none }).handlerOk 1) = true := by decide +kernel
theorem test_batonRefusal : after (.batonRefusal 0) { origin with answers := [{ baton false (some 1) with addr := 0x40000000 }] } (fun t =>
    (t.slot 1).st == .running && (t.slot 1).pc == 0x2000 && (t.slot 1).sp.xcause == 0x0A && (t.slot 1).sp.xvalue == 0x1000000040000000) = true := by decide +kernel
/-- A crew of two with one member arrived, and a join of two with one member. -/
def crewed : State := ((small 1 []).setSlot 2 { Slot.dflt with st := .parked, wait := some { kind := .crewJoin 5, instr := .nop, stamps := [], data := [], n := 0 } }).modCore 0 fun c =>
  { c with crews := [{ job := 0, id := 5, size := 2, arrived := [4], slots := [3], refused := false }], joins := [{ job := 0, id := 5, size := 2, members := [2], failed := false }] }
theorem test_crewTimeouts : after (.crewAdmissionTimeout 0 0 5) crewed (fun t => t.answers.map (·.verdict) == [some 2] && (t.core 0).crews.map (fun q => (q.refused, q.slots)) == [(true, [])] && (t.slot 3).st == .free) = true ∧
    after (.crewjTimeout 0 0 5) crewed (fun t => (t.core 0).joins.map (fun q => (q.failed, q.members)) == [(true, [])] && ((t.slot 2).wait.map fun w => (w.kind, w.n)) == some (.ready, 2)) = true := by decide +kernel
/-- Core 0 has hurdle 0 of a rectangle of 2 by 2, its own arrival made; it is the corner. -/
def corner : State := (small 1 []).modCore 0 fun c => { c with hb := [(0, { Hurdle.dflt with val := 0x8000000000024000, arrs := [5] })] }
/-- A signal to hurdle 0 of core 0. -/
def signal (row rel broken : Bool) : HSig := { die := 0, x := 0, y := 0, n := 0, val := 0x8000000000024000, row := row, rel := rel, broken := broken, pts := 9 }
theorem test_hurdleSignal : after (.hurdleSignal 0) { corner with sigs := [signal true false false] } (fun t => (t.hb 0 0).row && !(t.hb 0 0).col && (t.hb 0 0).pts == 9 && t.sigs == []) = true ∧
    after (.hurdleRelease 0) { corner with sigs := [signal false true false] } (fun t => (t.hb 0 0).val == 0xC000000000024000 && (t.hb 0 0).arrs == [] && t.sigs.map (fun g => (g.x, g.y)) == [(1, 0), (0, 1)]) = true := by
  decide +kernel
theorem test_brokenRelease : after (.brokenRelease 0) { corner.modSlot 1 (fun x => { x with wait := some { kind := .hurdle 0 none, instr := .hurdle 0, stamps := [], data := [], n := 0 } }) with sigs := [signal false true true] } (fun t =>
    ((t.slot 1).wait.map fun w => (w.kind, w.stamps)) == some (.hurdle 0 (some true), [9])) = true := by decide +kernel
theorem test_queueMessage : after (.queueMessageArrival 0) { parkedOn (.qsend 1 (.g 1) 6 0) (.room 0 1 1) with msgs := [{ src := some 1, core := 0, bank := 0, port := 1, words := [7], stamp := 3 }] } (fun t =>
    (t.port 0 0 1).words == [(7, 3)] && t.msgs == [] && ((t.slot 1).wait.map fun w => (w.kind, w.n)) == some (.ready, 1)) = true := by decide +kernel
theorem test_shootdownAck : after (.shootdownAck 0) { small 1 [] with jobs := [(0, some { job0 [] with shoot := some { va := 0, size := 4096, ents := [(0x90000, 0xABCD)], move := [], lose := none, dies := [] } })] } (fun t =>
    readN t.mem 0x90000 8 == 0xABCD && ((t.job 0).map fun x => x.shoot.isNone) == some true) = true := by decide +kernel

/-! Steps of the memory side. -/

theorem wit_StorageSteps_errors : (({ small 1 [] with badWords := [21] } : State).badWords.any fun w => decide (w / 4 = 5)) = true ∧ ((small 1 []).tensorAt (5 * 4096)) = none ∧
    ((small 1 []).mappedAt (0x40000 * 4096)).isSome = true ∧ (small 1 []).changing 0 = false ∧
    ({ small 1 [] with jobs := [(0, some { job0 [] with shoot := some { va := 0, size := 4096, ents := [], move := [], lose := none, dies := [3] } })] } : State).changing 0 = true := by decide +kernel
theorem wit_StorageSteps_coll_far : (let s : State := { tensored .f32 with colls := [{ member with pkg := 1 }] }
    ({ member with pkg := 1 } : Coll).near 1 = false ∧ (s.colls.find? fun c => decide (c.tid = 1) && !c.heard 1) = some { member with pkg := 1 }) ∧ member.near 1 = true ∧ 1 < member.size ∧ 1 ≠ member.rank ∧ member.size ≤ 2 ∧
    (({ tensored .f32 with colls := [member, { member with tid := 2, rank := 1, got := [(1, [])] }] } : State).matesOf member).find? (fun q => decide (q.rank = 1) && q.heard 1) =
      some { member with tid := 2, rank := 1, got := [(1, [])] } := by decide +kernel
theorem wit_StorageSteps_rerep : ∃ r, (rereped.tensor 0 1).rerep = some r ∧ r.ready = true := ⟨_, rfl, rfl⟩
theorem test_publishRerep_readers : (let t := ({ rereped.tensor 0 1 with ops := [{ stamp := 1, tid := 1, kind := .reader, exts := [], segs := [], caps := 0, parked := false, shadow := 0, home := none }] } : Tensor).publishRerep
    t.rerep.isNone && t.cls == 1 && t.frames == [7] && t.olds.map (·.users) == [[1]]) = true := by decide +kernel
theorem test_copyStop : after (.copyStop 0 0 0 2) (copyWith 1 0 []) (fun t => (t.slot 1).fails == [(0, 2)] && t.copies == []) = true ∧
    after (.copyStop 0 0 0 2) ((copyWith 1 0 []).modSlot 1 fun x => { x with fails := [(9, 3)] }) (fun t => (t.slot 1).fails == [(9, 3), (0, 2)]) = true := by decide +kernel
theorem wit_StorageSteps_stop : ((copyWith 1 0 []).copyAt 0 0 0).map (fun k => (k.isTile, k.kind)) = some (false, 1) ∧ ((copyWith 2 0 []).copyAt 0 0 0).map (fun k => k.kind) = some 2 ∧
    ({ small 1 [] with prompt := false } : State).prompt = false ∧ ((small 1 []).ctr 0 0 2).err = 0 := by decide +kernel

/-! Steps of jobs. -/

/-- Job 0's launch runs on thread 1; its save area is at 0x100000. -/
def running1 : State := ((worked (launch1 2 [unit1 false 1])).modJob 0 fun x => { x with saveArea := 0x100000 }).modSlot 1 fun x =>
  { x with sp := { x.sp with launchid := 0x1000 }, regs := (x.regs.writeG 5 0x77).writeV 3 0x99 }
theorem wit_WorkSteps_preempted : (running1.launchAt 0x1000).map (·.st) = some 2 ∧ idJob 0x1000 = 0 ∧ (running1.job 0).isSome = true ∧
    (running1.storeFor 0 (running1.saveArea 0 + 8192 * saveNo 1) (saveBytes (running1.slot 1) 1 (if isLocal 1 then running1.accMask (running1.slot 1) 0 (clusterOf (coreOf 1)) else 0) (clusterOf (coreOf 1)))
      (running1.slot 1).pts 32).2 = none ∧ (0xFFFF < 2 ^ 16) ∧ (1023 < 1024) := by decide +kernel
/-- The save record of thread 1 of `running1`, with its bytes. -/
def saved1 : Saved × Nat := ({ k := 0, launch := 0x1000, unit := 0, tid := 1, total := 0, wait := none, latch := [], buf := none, wts := none, copyPts := 0 }, saveBytes (running1.slot 1) 1 0 0)
theorem wit_WorkSteps_placed : savedAccs saved1.2 = [] ∧ (running1.placeSaved 0 (launch1 3 []) [saved1]).isSome = true ∧ (∃ c ∈ running1.homesOf 0 (launch1 3 []) [saved1], running1.slotsFor [saved1] c ≠ []) ∧
    idJob (launch1 3 []).id = 0 := by decide +kernel
theorem test_placeSaved : (running1.placeSaved 0 (launch1 3 []) [saved1]).map (fun t => ((t.slot 2).st, (t.slot 2).pc, (t.slot 2).regs.readG 5, (t.slot 2).regs.readV 3)) = some (.held, 0x1000, 0x77, 0x99) := by
  decide +kernel
theorem wit_WorkSteps_restored : (let s := worked (launch1 3 [])
    (s.job 0).map (fun x => (s.savedOf 0 (x.saved.filter fun v => decide (v.launch = 0x1000))).isSome) == some true && (s.restore 0 (launch1 3 [])).isSome) = true := by decide +kernel
/-- `finished` where a writer of a PLAIN tensor holds the segment of the record. -/
def aliasHeld : State := finished.modTensor 0 1 fun _ => { tens .f32 with caps := 0x21FFF, st := 1, aliasAt := 0x0, ops := [{ stamp := 1, tid := 1, kind := .writer, exts := [], segs := [0], caps := 0, parked := false, shadow := 0, home := none }] }
theorem test_recordBusy : after (.completionRecordWrite 0x1000) aliasHeld (fun t => readN t.mem 0x40004120 8 == 0) = true ∧ finished.aliasBusy 0 0x4100 64 = false ∧ aliasHeld.aliasBusy 0 0x4100 64 = true := by decide +kernel

end Sys2Proof.Tests
end

section
/-! SUPPORT and CERTIFICATE. Local accesses of the slots of a compute core (R3, R75, R82, R104, R127): what the scoreboard check, the
poison check, the timestamp and the write of the bytes each do, and the three accesses assembled from them. -/
namespace Sys2Proof.Machine

/-! ## The bytes of a scratchpad depend on its views and its contents alone -/

theorem Core.place_congr {x y : Core} (hvw : y.vw = x.vw) (a : Nat) : y.place a = x.place a := by
  simp only [Core.place, hvw]

theorem Core.read_congr {x y : Core} (hvw : y.vw = x.vw) (hspad : y.spad = x.spad) (a n : Nat) : y.read a n = x.read a n := by
  induction n generalizing a with
  | zero => rfl
  | succ n ih => simp only [Core.read, Core.place_congr hvw, hspad, ih]

theorem Core.writeSpad_congr {x y : Core} (hvw : y.vw = x.vw) (m : SMap Byte) (a n v : Nat) :
    y.writeSpad m a n v = x.writeSpad m a n v := by
  induction n generalizing m a v with
  | zero => rfl
  | succ n ih => simp only [Core.writeSpad, Core.place_congr hvw, ih]

/-! ## A local slot -/

theorem isCompute_of_isLocal {t : Nat} (h : isLocal t = true) : isCompute (coreOf t) = true := by
  simp only [isLocal, Bool.and_eq_true] at h
  exact h.1

/-- A core of a compute die is not one of a base die. -/
theorem isNear_of_isCompute {c : Nat} (h : isCompute c = true) : isNear c = false := by
  have hc : c < 1024 := by simpa [isCompute] using h
  have : ¬ Config.baseDie0 ≤ c / 128 := by unfold Config.baseDie0; omega
  simp [isNear, this]

/-- The slots of a compute core share its one bank (R52). -/
theorem State.bankNo_of_isLocal (s : State) {t : Nat} (h : isLocal t = true) : s.bankNo t = 0 := by
  simp [State.bankNo, isNear_of_isCompute (isCompute_of_isLocal h)]

theorem boardBase_of_isLocal {t : Nat} (h : isLocal t = true) : boardBase t = 0 := by
  simp [boardBase, isCompute_of_isLocal h]

/-! ## Banks, bank cycles and watches -/

@[simp] theorem State.modSlot_bank (s : State) (t c b : Nat) (f : Slot → Slot) : (s.modSlot t f).bank c b = s.bank c b := rfl

theorem State.bank_modBank_self (s : State) (c b : Nat) (f : Bank → Bank) : (s.modBank c b f).bank c b = f (s.bank c b) := by
  simp [State.modBank, State.bank, State.core_modCore]

/-- Bank cycles are counted in a core's STALLS and clock only. -/
theorem State.stall_core (s : State) (c k : Nat) :
    ((s.stall c k).core c).spad = (s.core c).spad ∧ ((s.stall c k).core c).vw = (s.core c).vw ∧
      ((s.stall c k).core c).banks = (s.core c).banks := by
  unfold State.stall
  split
  · exact ⟨rfl, rfl, rfl⟩
  · simp [State.core_modCore]

theorem State.stall_slot (s : State) (c k t : Nat) : (s.stall c k).slot t = s.slot t := by
  unfold State.stall
  split <;> rfl

theorem State.stall_mem (s : State) (c k : Nat) : (s.stall c k).mem = s.mem := by
  unfold State.stall
  split <;> rfl

theorem State.stall_cur (s : State) (c k : Nat) : (s.stall c k).cur = s.cur := by
  unfold State.stall
  split <;> rfl

/-- A store tells watches of it; it changes no core by that. -/
theorem State.notify_core (s : State) (space a n wts c : Nat) : (s.notify space a n wts).core c = s.core c := by
  unfold State.notify
  split <;> rfl

theorem State.notify_mem (s : State) (space a n wts : Nat) : (s.notify space a n wts).mem = s.mem := by
  unfold State.notify
  split <;> rfl

theorem State.notify_slot_pts (s : State) (space a n wts t : Nat) : ((s.notify space a n wts).slot t).pts = (s.slot t).pts := by
  unfold State.notify
  split
  · rfl
  · refine SMap.get_mapEach s.slots _ t (fun x y => y.pts = x.pts) rfl fun e => ?_
    dsimp only
    split
    · split <;> rfl
    · rfl

/-! ## The checks of a local access -/

variable {s : State} {a n : Nat}

theorem boardPark_of_hit (h : isLocal s.cur = true) (hb : (s.core (coreOf s.cur)).boardHit a n = true) :
    boardPark a n s = .error (.park .board s) := by
  unfold boardPark
  simp [M.bind_ok (getS_apply s), boardBase_of_isLocal h, hb]

theorem boardPark_of_free (h : isLocal s.cur = true) (hb : (s.core (coreOf s.cur)).boardHit a n = false) :
    boardPark a n s = .ok ((), s) := by
  unfold boardPark
  simp [M.bind_ok (getS_apply s), boardBase_of_isLocal h, hb]

theorem checkSpadPoison_of_some (h : isLocal s.cur = true) {b : Nat} (hp : (s.core (coreOf s.cur)).poisoned a n = some b) :
    checkSpadPoison a n s = dataLost 2 b s := by
  unfold checkSpadPoison
  simp [M.bind_ok (getS_apply s), isCompute_of_isLocal h, hp]

theorem checkSpadPoison_of_none (h : isLocal s.cur = true) (hp : (s.core (coreOf s.cur)).poisoned a n = none) :
    checkSpadPoison a n s = .ok ((), s) := by
  unfold checkSpadPoison
  simp [M.bind_ok (getS_apply s), isCompute_of_isLocal h, hp]

/-! ## The timestamp of a local access (R127) -/

/-- PTS of the issuing slot and SPW of its core become `p`. -/
def State.stampLocal (s : State) (p : Nat) : State :=
  (s.modSlot s.cur fun k => { k with pts := p }).modBank (coreOf s.cur) 0 fun k => { k with spw := p }

theorem spwLoad_apply (h : isLocal s.cur = true) :
    spwLoad s = .ok ((), s.stampLocal (max s.me.pts (s.bank (coreOf s.cur) 0).spw)) := by
  simp [spwLoad, State.stampLocal, State.bankNo_of_isLocal s h]

theorem spwStore_apply (h : isLocal s.cur = true) :
    spwStore s = .ok ((), s.stampLocal (max s.me.pts ((s.bank (coreOf s.cur) 0).spw + 1))) := by
  simp [spwStore, State.stampLocal, State.bankNo_of_isLocal s h]

/-- `u` is `s` after the timestamp of a local access at `p`, as far as its bytes and timestamps go. -/
structure State.StampedAt (s : State) (p : Nat) (u : State) : Prop where
  cur : u.cur = s.cur
  mem : u.mem = s.mem
  spad : (u.core (coreOf s.cur)).spad = (s.core (coreOf s.cur)).spad
  vw : (u.core (coreOf s.cur)).vw = (s.core (coreOf s.cur)).vw
  pts : (u.slot s.cur).pts = p
  spw : (u.bank (coreOf s.cur) 0).spw = p

theorem State.stampedAt_stampLocal (s : State) (p : Nat) : s.StampedAt p (s.stampLocal p) where
  cur := rfl
  mem := rfl
  spad := by simp [State.stampLocal, State.modBank, State.core_modCore]
  vw := by simp [State.stampLocal, State.modBank, State.core_modCore]
  pts := by simp [State.stampLocal, State.modBank]
  spw := by simp [State.stampLocal, State.bank_modBank_self]

theorem State.StampedAt.stall {p : Nat} {u : State} (h : s.StampedAt p u) (k : Nat) :
    s.StampedAt p (u.stall (coreOf s.cur) k) := by
  obtain ⟨hspad, hvw, hbanks⟩ := u.stall_core (coreOf s.cur) k
  exact {
    cur := (u.stall_cur _ _).trans h.cur
    mem := (u.stall_mem _ _).trans h.mem
    spad := hspad.trans h.spad
    vw := hvw.trans h.vw
    pts := by rw [State.stall_slot]; exact h.pts
    spw := by unfold State.bank; rw [hbanks]; exact h.spw }

/-- Through the stamp the issuing slot reads the bytes that it would read before. -/
theorem State.StampedAt.readLocal {p : Nat} {u : State} (h : s.StampedAt p u) (hl : isLocal s.cur = true) (a n : Nat) :
    u.readLocal u.cur a n = (s.core (coreOf s.cur)).read a n := by
  rw [h.cur]
  simp only [State.readLocal, isCompute_of_isLocal hl, if_true]
  exact Core.read_congr h.vw h.spad a n

/-! ## The bytes of a local store -/

/-- `t` is `s` after a local store of `v` to [a, a+n) at timestamp `p`. -/
def State.storedAt (s : State) (a n v p : Nat) (t : State) : Prop :=
  (t.core (coreOf s.cur)).spad = (s.core (coreOf s.cur)).writeSpad (s.core (coreOf s.cur)).spad a n v ∧
    (t.slot s.cur).pts = p ∧ (t.bank (coreOf s.cur) 0).spw = p ∧ t.mem = s.mem

theorem State.StampedAt.stored {p : Nat} {u : State} (h : s.StampedAt p u) (hl : isLocal s.cur = true) (a n v space wts : Nat) :
    s.storedAt a n v p ((u.writeLocal u.cur a n v).notify space a n wts) := by
  have hw : u.writeLocal u.cur a n v = u.modCore (coreOf s.cur) fun x => x.write a n v := by
    simp [State.writeLocal, h.cur, isCompute_of_isLocal hl]
  rw [hw]
  refine ⟨?_, ?_, ?_, ?_⟩
  · rw [State.notify_core, State.core_modCore, if_pos rfl]
    simp only [Core.write, h.spad, Core.writeSpad_congr h.vw]
  · rw [State.notify_slot_pts]
    exact h.pts
  · unfold State.bank
    rw [State.notify_core, State.core_modCore, if_pos rfl]
    exact h.spw
  · rw [State.notify_mem]
    exact h.mem

/-! ## The three accesses -/

theorem loadLocal_ok (hl : isLocal s.cur = true) (hb : (s.core (coreOf s.cur)).boardHit a n = false)
    (hp : (s.core (coreOf s.cur)).poisoned a n = none) (hn : n ≠ 256) :
    loadLocal a n s = .ok ((s.core (coreOf s.cur)).read a n, s.stampLocal (max s.me.pts (s.bank (coreOf s.cur) 0).spw)) := by
  unfold loadLocal
  rw [M.bind_ok (boardPark_of_free hl hb), M.bind_ok (checkSpadPoison_of_none hl hp), M.bind_ok (spwLoad_apply hl),
    M.bind_ok (getS_apply _), if_neg fun h => hn h.1]
  dsimp only
  rw [M.pure_apply, (s.stampedAt_stampLocal _).readLocal hl]

theorem loadLocal_poisoned (hl : isLocal s.cur = true) (hb : (s.core (coreOf s.cur)).boardHit a n = false) {b : Nat}
    (hp : (s.core (coreOf s.cur)).poisoned a n = some b) : loadLocal a n s = dataLost 2 b s := by
  unfold loadLocal
  rw [M.bind_ok (boardPark_of_free hl hb), M.bind_error (checkSpadPoison_of_some hl hp)]
  rfl

/-- A store of a row first counts its bank cycles (R76); one of fewer bytes does not. -/
theorem storeLocal_ok (hl : isLocal s.cur = true) (hb : (s.core (coreOf s.cur)).boardHit a n = false) (v : Nat) :
    ∃ t, storeLocal a n v s = .ok ((), t) ∧ s.storedAt a n v (max s.me.pts ((s.bank (coreOf s.cur) 0).spw + 1)) t := by
  have hu := s.stampedAt_stampLocal (max s.me.pts ((s.bank (coreOf s.cur) 0).spw + 1))
  unfold storeLocal
  rw [M.bind_ok (boardPark_of_free hl hb), M.bind_ok (spwStore_apply hl), modS_apply]
  refine ⟨_, rfl, ?_⟩
  dsimp only
  split
  · rw [hu.cur]
    exact (hu.stall _).stored hl a n v _ _
  · exact hu.stored hl a n v _ _

theorem updateT_loc_ok (hl : isLocal s.cur = true) (hb : (s.core (coreOf s.cur)).boardHit a n = false)
    (hp : (s.core (coreOf s.cur)).poisoned a n = none) (sc : Nat) (f : Nat → Nat) :
    ∃ t, updateT (.loc a) n sc f s = .ok ((s.core (coreOf s.cur)).read a n, t) ∧
      s.storedAt a n (f ((s.core (coreOf s.cur)).read a n)) (max s.me.pts ((s.bank (coreOf s.cur) 0).spw + 1)) t := by
  have hu := s.stampedAt_stampLocal (max s.me.pts ((s.bank (coreOf s.cur) 0).spw + 1))
  unfold updateT
  dsimp only
  rw [M.bind_ok (boardPark_of_free hl hb), M.bind_ok (checkSpadPoison_of_none hl hp), M.bind_ok (spwStore_apply hl),
    M.bind_ok (getS_apply _), M.bind_ok (modS_apply _ _), M.pure_apply, hu.readLocal hl]
  exact ⟨_, rfl, hu.stored hl a n _ _ _⟩

/-- Settles O28: an access that the scoreboard holds parks; otherwise the three accesses do what `loadLocal_ok`, `storeLocal_ok`
and `updateT_loc_ok` say, and a poisoned byte that is read is trap 0x0C. -/
theorem localAccesses : Obligations.LocalAccesses := by
  unfold Obligations.LocalAccesses
  intro s a n hl
  refine ⟨fun hb hint => ⟨?load, fun v sc => ?store⟩, fun hb => ⟨fun b hint hp => ?poisoned, fun hint hp hn => ?loads, fun v sc hint => ?stores,
    fun hp sc f => ?updates⟩⟩
  case load => exact M.bind_error (boardPark_of_hit hl hb)
  case store => exact M.bind_error (boardPark_of_hit hl hb)
  case poisoned => exact loadLocal_poisoned hl hb hp
  case loads => exact loadLocal_ok hl hb hp hn
  case stores => exact storeLocal_ok hl hb v
  case updates => exact updateT_loc_ok hl hb hp sc f

end Sys2Proof.Machine
end

section
/-! CERTIFICATE. Reset, and the turn of a RUNNING slot (R161, R209-R212). -/
namespace Sys2Proof.Machine

/-! ## Reset -/

/-- A link that is up with all eight wavelengths reads as 0 (R402). -/
theorem link_dflt_stat : Link.dflt.stat = 0 := by decide

/-- A hurdle that is not set reads as 0. -/
theorem hurdle_dflt_word : Hurdle.dflt.word = 0 := by decide

/-- Settles O1: nothing is listed, so that every lookup gives the default of its kind. -/
theorem resetLeaves : Obligations.ResetLeaves := by
  unfold Obligations.ResetLeaves
  exact ⟨fun _ => ⟨rfl, rfl, fun n => by simp [State.slot, State.reset, SMap.get, Slot.dflt, Regs.zero, Regs.readG], rfl⟩, fun _ => rfl, fun _ => rfl,
    fun _ _ _ => ⟨rfl, rfl, hurdle_dflt_word, rfl, rfl, rfl⟩, fun _ => ⟨rfl, rfl⟩, rfl, rfl, fun _ => link_dflt_stat⟩

/-- Settles O2: memory right after reset lists nothing. -/
theorem resetCanonical : Obligations.ResetCanonical := reset_mem_wf

/-! ## The turn of a RUNNING slot -/

/-- A lap that is open has no boundary before its next turn. -/
theorem State.openTurn_of_begun {s : State} {c : Nat} (h : (s.core c).turn ≠ 0 ∨ (s.core c).begun = true) :
    s.openTurn c = s := by
  unfold State.openTurn State.atLap
  rcases h with h | h <;> simp [h]

/-- With no die stopped, a step of another die may change everything (R408). -/
theorem State.keepStopped_of_running {s : State} (h : ∀ d, (s.die d).stopped = false) (x : State) : s.keepStopped x = x := by
  unfold State.keepStopped
  rw [if_pos (by simp [h])]

/-- A turn of a core whose lap is open and whose die has its clocks. -/
theorem takeTurn_next {s u : State} {c : Nat} (hd : (s.die (c / 128)).stopped = false)
    (hb : (s.core c).turn ≠ 0 ∨ (s.core c).begun = true)
    (h : ({ s with cur := threadAt c (s.core c).turn, grant := none } : State).slotTurn c (threadAt c (s.core c).turn) = .next u) :
    takeTurn c s = .next (s.keepStopped (u.passTurn c)) := by
  unfold takeTurn
  rw [if_neg (by simp [hd])]
  dsimp only
  rw [State.openTurn_of_begun hb, h]
  rfl

/-- The turn of a RUNNING slot that nothing stops is the issue of an instruction. -/
theorem State.slotTurn_of_running {s : State} {c t : Nat} (hr : (s.slot t).st = .running) (hc : s.cancelDue t = false)
    (hi : (s.slot t).inCancel = false) (hs : s.stoppedFor t = false) : s.slotTurn c t = s.issue t := by
  simp [State.slotTurn, hr, hc, hi, hs]

/-- The issue of an instruction that is fetched. -/
theorem State.issue_of_fetched {s v : State} {t : Nat} {i : Instr} (h : s.fetchIssue t = .ok (i, v)) :
    s.issue t = exec i (v.count t) := by
  simp [State.issue, h]

/-! ## Fetching -/

theorem State.answer_ok (s : State) (i : Instr) : s.answer (.ok i) = .ok (i, s) := rfl

/-- A word that is no header is looked at in its span. -/
theorem State.fetchIssue_of_word {s : State} {t : Nat} {w : Word} (hf : s.fetch t (s.slot t).pc.toNat = .ok w)
    (hh : Dec.isHeader w = false) : s.fetchIssue t = s.answer (s.inSpan t w) := by
  simp [State.fetchIssue, hf, hh]

/-- A header opens its block, and the word behind it is looked at in that block. -/
theorem State.fetchIssue_of_header {s : State} {t : Nat} {w x : Word} (hf : s.fetch t (s.slot t).pc.toNat = .ok w)
    (hh : Dec.isHeader w = true) (hn : (Dec.bits w 49 11 : BitVec 11) ≠ 0) (hk : (s.slot t).span = .entry ∨ (s.slot t).span = .open_) :
    let v := s.modSlot t fun k => k.openBlock w
    v.fetch t (v.slot t).pc.toNat = .ok x → Dec.isHeader x = false → s.fetchIssue t = v.answer (v.inSpan t x) := by
  intro v hx hxh
  have hfetch : s.fetchIssue t = s.fetchHeader t 3 w := by simp [State.fetchIssue, hf, hh]
  rw [hfetch]
  unfold State.fetchHeader
  have hne : ((Dec.bits w 49 11 : BitVec 11) == 0) = false := beq_false_of_ne hn
  dsimp only
  rcases hk with hk | hk <;> rw [hk] <;> dsimp only
  all_goals
    rw [hne, if_neg (by simp), hx]
    dsimp only
    rw [if_neg (by simp [hxh])]

/-- A word of an open span is decoded. -/
theorem State.inSpan_of_open {s : State} {t : Nat} (w : Word) (h : (s.slot t).span = .open_) : s.inSpan t w = s.decodeAt t w := by
  simp [State.inSpan, h]

/-- A word of a block that has words left is decoded. -/
theorem State.inSpan_of_block {s : State} {t n : Nat} {lg lv : BitVec 16} {lk : Bool} (w : Word) (h : (s.slot t).span = .block (n + 1) lg lv lk) :
    s.inSpan t w = s.decodeAt t w := by
  simp [State.inSpan, h]

theorem State.decodeAt_of_word {s : State} {t : Nat} {w : Word} {i : Instr} (hm : Dec.isMovx w = false)
    (hd : Dec.decode (isFar t) w none = .ok i) : s.decodeAt t w = .ok i := by
  simp [State.decodeAt, hm, hd]

theorem State.decodeAt_of_movx {s : State} {t : Nat} {w x : Word} {i : Instr} (hm : Dec.isMovx w = true) (hk : (s.slot t).span = .open_)
    (hx : s.fetch t ((s.slot t).pc + 8).toNat = .ok x) (hd : Dec.decode (isFar t) w (some x) = .ok i) : s.decodeAt t w = .ok i := by
  unfold State.decodeAt
  dsimp only
  rw [if_pos ⟨hm, by rw [hk]; rfl⟩, hx]
  dsimp only
  rw [hd]

/-- The first word of a MOVX is no header: their opcodes differ (R209, R219). -/
theorem isHeader_of_isMovx {w : Word} (h : Dec.isMovx w = true) : Dec.isHeader w = false := by
  have hop : (Dec.bits w 56 8 : BitVec 8) = 0x2E := eq_of_beq h
  have hhi : (Dec.bits w 60 4 : BitVec 4) = (Dec.bits w 56 8 : BitVec 8).extractLsb' 4 4 := by
    ext k hk
    have h8 : 4 + k < 8 := by omega
    simp [Dec.bits, h8, show 60 + k = 56 + (4 + k) by omega]
  unfold Dec.isHeader
  rw [hhi, hop]
  decide

/-- Settles O5: the turn of a RUNNING slot issues what `fetchIssue` answers, and `fetchIssue` answers the instruction at the PC. -/
theorem stepRunsDecoded : Obligations.StepRunsDecoded := by
  unfold Obligations.StepRunsDecoded
  rintro s c i ha rfl hd hb
  intro t u hr hc hi hst
  refine ⟨fun v t' hv he => ?step, fun hall x => State.keepStopped_of_running hall x, fun w hf hh hm hk hdec => ?open_,
    fun w n lg lv lk hf hh hm hk hdec => ?block, fun w x hf hm hk hx hdec => ?movx, fun w x hf hh hn hk => ?header⟩
  case step =>
    have hstep : step s = takeTurn s.active s := by simp [step, ha]
    rw [hstep]
    refine takeTurn_next hd hb ?_
    rw [State.slotTurn_of_running (s := u) hr hc hi hst, State.issue_of_fetched hv, he]
  case open_ =>
    rw [State.fetchIssue_of_word (s := u) hf hh, State.inSpan_of_open (s := u) w hk, State.decodeAt_of_word hm hdec, State.answer_ok]
  case block =>
    rw [State.fetchIssue_of_word (s := u) hf hh, State.inSpan_of_block (s := u) w hk, State.decodeAt_of_word hm hdec, State.answer_ok]
  case movx =>
    rw [State.fetchIssue_of_word (s := u) hf (isHeader_of_isMovx hm), State.inSpan_of_open (s := u) w hk,
      State.decodeAt_of_movx (s := u) hm hk hx hdec, State.answer_ok]
  case header =>
    intro v hx hxh hin
    rw [State.fetchIssue_of_header (s := u) hf hh hn hk hx hxh, hin, State.answer_ok]

end Sys2Proof.Machine
end

section
/-! CERTIFICATE. The checks of a local and of a global access, translation, and the page-table walk (R20-R30, R34-R38, R48, R261, R262). -/
namespace Sys2Proof.Machine

/-! ## The order of the checks (R261, R262) -/

theorem fieldN_eq (x lo n : Nat) : fieldN x lo n = x / 2 ^ lo % 2 ^ n := by
  rw [fieldN, Nat.shiftRight_eq_div_pow]

section
variable {s : State} {a : Int} {n al : Nat} {wr amo glb : Bool}

theorem access_misaligned (h : a % (al : Nat) ≠ (0 : Int)) :
    access glb a n al wr amo s = .error (.trap 4 (BitVec.ofNat 64 (a % 2 ^ 56).toNat)) := by
  unfold access aligned
  rw [if_neg h]
  exact M.bind_error rfl

/-- What becomes of the place that an aligned access finds. -/
theorem access_of_place (h : a % (al : Nat) = (0 : Int)) {p : Target ⊕ Nat} {u : State} (hp : placeOf glb a n wr amo s = .ok (p, u)) :
    access glb a n al wr amo s = p.elim (fun t => .ok (t, u)) fun c => migrate c a false u := by
  unfold access aligned
  rw [if_pos h, M.bind_ok (M.pure_apply _ _), M.bind_ok hp]
  cases p <;> rfl

theorem access_of_stop (h : a % (al : Nat) = (0 : Int)) {e : Stop} (hp : placeOf glb a n wr amo s = .error e) :
    access glb a n al wr amo s = .error e := by
  unfold access aligned
  rw [if_pos h, M.bind_ok (M.pure_apply _ _), M.bind_error hp]

/-! ## Local accesses (R20-R22) -/

theorem placeOf_local_of_check (h : checkLocal a n wr s = .ok ((), s)) :
    placeOf false a n wr amo s = .ok (.inl (.loc a.toNat), s) := by
  unfold placeOf
  rw [if_neg (by simp), M.bind_ok h, M.pure_apply]

theorem placeOf_local_of_stop {e : Stop} (h : checkLocal a n wr s = .error e) : placeOf false a n wr amo s = .error e := by
  unfold placeOf
  rw [if_neg (by simp), M.bind_error h]

theorem checkLocal_far (h : isFar s.cur = true) : checkLocal a n wr s = .error (.trap 6 (faultValue 3 0 false wr a)) := by
  unfold checkLocal
  rw [M.bind_ok (getS_apply _), if_pos h, trap_apply]

theorem checkLocal_inside (h : isFar s.cur = false) (hb : firstOutside a n (localEnd s.cur) = none) :
    checkLocal a n wr s = .ok ((), s) := by
  unfold checkLocal
  rw [M.bind_ok (getS_apply _), if_neg (by simp [h]), hb]
  rfl

theorem checkLocal_outside (h : isFar s.cur = false) {b : Int} (hb : firstOutside a n (localEnd s.cur) = some b) :
    checkLocal a n wr s = .error (.trap 5 (faultValue 2 0 false wr b)) := by
  unfold checkLocal
  rw [M.bind_ok (getS_apply _), if_neg (by simp [h]), hb]
  rfl

theorem firstOutside_inside {lim : Nat} (h0 : 0 ≤ a) (h : a + n ≤ lim) : firstOutside a n lim = none := by
  simp [firstOutside, h, not_lt.2 h0]

theorem firstOutside_below {lim : Nat} (hn : 0 < n) (h : a < 0) : firstOutside a n lim = some a := by
  simp [firstOutside, h, hn.ne']

theorem firstOutside_above {lim : Nat} (hn : 0 < n) (h0 : 0 ≤ a) (h : (lim : Int) < a + n) :
    firstOutside a n lim = some (max a lim) := by
  simp [firstOutside, hn.ne', not_lt.2 h0, not_le.2 h]

/-- Local space ends where the statement says. -/
theorem localEnd_cast (t : Nat) : (localEnd t : Int) = if isCompute (coreOf t) then 0x400000 else 0x10000 := by
  unfold localEnd
  split <;> rfl

/-! ## Global addresses (R24, R25) -/

theorem outsideGlobal_iff (a : Int) : outsideGlobal a = true ↔ a < 0 ∨ 2 ^ 55 + 2 ^ 41 ≤ a ∨
    (2 ^ 55 ≤ a ∧ (a.toNat / 2 ^ 35 % 2 = 1 ∨ 8 ≤ a.toNat / 2 ^ 36 % 32 ∨ 0x400000 ≤ a.toNat % 2 ^ 28)) := by
  unfold outsideGlobal windowBase
  by_cases h0 : a < 0
  · simp [h0]
  · by_cases h1 : a.toNat < 0x80000000000000
    · simp only [h0, h1, if_true, if_false, Bool.false_eq_true, false_or, false_iff]
      omega
    · simp only [h0, h1, if_false, false_or, Bool.or_eq_true, decide_eq_true_eq, fieldN_eq, Nat.testBit_eq_decide_div_mod_eq,
        Nat.pow_zero, Nat.div_one]
      omega

theorem windowCore_eq (x : Nat) : windowCore x = x / 2 ^ 36 % 32 * 128 + x / 2 ^ 28 % 128 := by
  simp [windowCore, fieldN_eq]

/-- An address that is not outside is not negative. -/
theorem nonneg_of_not_outside (h : outsideGlobal a = false) : 0 ≤ a := by
  by_contra hn
  rw [(outsideGlobal_iff a).2 (.inl (not_le.1 hn))] at h
  exact absurd h (by simp)

/-- Paged memory lies below the windows, and none of it is outside. -/
theorem not_outside_of_paged (h0 : 0 ≤ a) (h : a < 2 ^ 55) : outsideGlobal a = false := by
  rw [← Bool.not_eq_true, outsideGlobal_iff]
  omega

theorem placeOf_global_of_resolve {p : Place} {u : State} (h : resolve a wr amo s = .ok (p, u)) :
    placeOf true a n wr amo s = .ok ((match p with
      | .loc off => .inl (.loc off)
      | .win c _ => .inr c
      | .page pa l =>
        if l.cls = 3 then .inl (.host pa a.toNat)
        else if l.cls = 1 then (if homeCore pa l.home = coreOf u.cur then .inl (.home pa a.toNat) else .inr (homeCore pa l.home))
        else .inl (.cached pa a.toNat)), u) := by
  unfold placeOf
  rw [if_pos rfl, M.bind_ok h, M.bind_ok (getS_apply _)]
  cases p with
  | loc off => rfl
  | win c off => rfl
  | page pa l => dsimp only; split_ifs <;> rfl

theorem placeOf_global_of_stop {e : Stop} (h : resolve a wr amo s = .error e) : placeOf true a n wr amo s = .error e := by
  unfold placeOf
  rw [if_pos rfl, M.bind_error h]

theorem resolve_outside (h : outsideGlobal a = true) : resolve a wr amo s = .error (.trap 5 (faultValue 2 0 false wr a)) := by
  unfold resolve
  rw [M.bind_ok (getS_apply _), if_pos h, trap_apply]

theorem resolve_window (h : outsideGlobal a = false) (hw : 2 ^ 55 ≤ a) :
    resolve a wr amo s = if s.notOwned (windowCore a.toNat) (s.jobOf s.cur) then .error (.trap 5 (faultValue 3 0 false wr a))
      else if windowCore a.toNat = coreOf s.cur ∧ isLocal s.cur then .ok (.loc (a.toNat % 2 ^ 28), s)
      else .ok (.win (windowCore a.toNat) (a.toNat % 2 ^ 28), s) := by
  have hx : windowBase ≤ a.toNat := by unfold windowBase; omega
  have hoff : fieldN a.toNat 0 28 = a.toNat % 2 ^ 28 := by simp [fieldN_eq]
  unfold resolve
  rw [M.bind_ok (getS_apply _), if_neg (by simp [h])]
  dsimp only
  rw [if_pos hx, hoff]
  split_ifs <;> rfl

/-- A paged access is what its translation answers, checked for the right to write, the class and HOSTOP. -/
theorem resolve_paged (h0 : 0 ≤ a) (h : a < 2 ^ 55) :
    resolve a wr amo s = (translate a.toNat wr false >>= fun l =>
      if wr ∧ ¬ l.w then trap 6 (faultValue 0 0 false wr a)
      else if l.cls = 2 then trap 6 (faultValue 2 0 false wr a)
      else if amo ∧ l.cls = 3 then trap 6 (faultValue 4 0 false wr a)
      else pure (.page (l.phys a.toNat) l)) s := by
  have hx : ¬ windowBase ≤ a.toNat := by unfold windowBase; omega
  unfold resolve
  rw [M.bind_ok (getS_apply _), if_neg (by simp [not_outside_of_paged h0 h])]
  dsimp only
  rw [if_neg hx]

end

/-! ## Translation (R39-R41) -/

/-- A wait for a reply that comes at once, or that has come. -/
theorem await_ready {s : State} {k : WaitKind} (h : s.prompt = true ∨ s.grant = some k) :
    await k s = .ok ((), s) ∨ await k s = .ok ((), { s with grant := none }) := by
  unfold await
  by_cases hg : s.grant = some k
  · exact .inr (if_pos hg)
  · refine .inl ?_
    rw [if_neg hg, if_pos (h.resolve_right hg)]

theorem await_parks {s : State} {k : WaitKind} (h : s.prompt = false) (hg : s.grant ≠ some k) : await k s = .error (.park k s) := by
  unfold await
  rw [if_neg hg, if_neg (by simp [h])]

section
variable {s : State} {va : Nat} {wr : Bool}

theorem translate_hit {l : Leaf} (h : ((s.core (coreOf s.cur)).tlb.find? fun l => l.covers (s.jobOf s.cur) va) = some l) :
    translate va wr false s = .ok (l, s) := by
  unfold translate
  rw [M.bind_ok (getS_apply _)]
  dsimp only
  rw [h]
  rfl

variable (h : ((s.core (coreOf s.cur)).tlb.find? fun l => l.covers (s.jobOf s.cur) va) = none)
include h

theorem translate_parks (hp : s.prompt = false) (hg : s.grant ≠ some (.translate (va / 4096))) :
    translate va wr false s = .error (.park (.translate (va / 4096)) s) := by
  unfold translate
  rw [M.bind_ok (getS_apply _)]
  dsimp only
  rw [h]
  exact M.bind_error (await_parks hp hg)

/-- The state in which a walk is done: the one before it, whose reply has come. -/
theorem translate_walks (hp : s.prompt = true ∨ s.grant = some (.translate (va / 4096)))
    (hr : s.walkRouted (atCore s.cur) (s.jobOf s.cur) va = true) :
    ∃ u : State, (u = s ∨ u = { s with grant := none }) ∧ translate va wr false s = match s.walkOf (s.jobOf s.cur) va with
      | .error x => .error (.trap 5 (faultValue x.reason x.level false wr va))
      | .ok l => .ok (l, (u.installTlb (coreOf u.cur) l).modDie (runDie u.cur) fun d => { d with tcache := l :: d.tcache }) := by
  have key : ∀ u : State, (u = s ∨ u = { s with grant := none }) → await (.translate (va / 4096)) s = .ok ((), u) →
      translate va wr false s = match s.walkOf (s.jobOf s.cur) va with
        | .error x => .error (.trap 5 (faultValue x.reason x.level false wr va))
        | .ok l => .ok (l, (u.installTlb (coreOf u.cur) l).modDie (runDie u.cur) fun d => { d with tcache := l :: d.tcache }) := by
    intro u hu ha
    have hur : u.walkRouted (atCore u.cur) (s.jobOf s.cur) va = true := by rcases hu with rfl | rfl <;> exact hr
    have huw : u.walkOf (s.jobOf s.cur) va = s.walkOf (s.jobOf s.cur) va := by rcases hu with rfl | rfl <;> rfl
    unfold translate
    rw [M.bind_ok (getS_apply _)]
    dsimp only
    rw [h]
    dsimp only
    rw [M.bind_ok ha, M.bind_ok (getS_apply _), if_pos hur, huw]
    cases s.walkOf (s.jobOf s.cur) va with
    | error x => rfl
    | ok l => rfl
  rcases await_ready hp with ha | ha
  · exact ⟨s, .inl rfl, key s (.inl rfl) ha⟩
  · exact ⟨_, .inr rfl, key _ (.inr rfl) ha⟩

end

/-- A translation that is installed changes nothing that a program reads. -/
theorem still_installed {s u : State} (hu : u = s ∨ u = { s with grant := none }) (l : Leaf) :
    still s ((u.installTlb (coreOf u.cur) l).modDie (runDie u.cur) fun d => { d with tcache := l :: d.tcache }) := by
  have hsu : still s u := by
    rcases hu with rfl | rfl
    · exact framing_still.1 _
    · exact still_grant s
  exact framing_still.2 _ _ _ hsu (framing_still.2 _ (u.installTlb (coreOf u.cur) l) _ (still_modCore u _ _ fun _ => rfl)
    (still_modDie _ _ _))

/-! ## The walk (R34-R37) -/

/-- The place that an entry names (R35, R36). -/
def entryFrame (e : Nat) : Nat := e / 2 ^ 12 % 2 ^ 36 * 2 ^ 12

/-- A pointer entry that R36 accepts, under a lower carve-out limit. -/
def isPointer (lo e : Nat) : Prop :=
  e % 4096 = 1 ∧ e / 2 ^ 48 % 2 ^ 16 = 0 ∧
    (inHbm (entryFrame e) = true ∨ (inInfield (entryFrame e) = true ∧ entryFrame e + 4096 ≤ infieldBase + lo))

theorem isPointer.present {lo e : Nat} (h : isPointer lo e) : ¬ e % 2 = 0 := by
  obtain ⟨h1, -⟩ := h
  omega

theorem isPointer.notLeaf {lo e : Nat} (h : isPointer lo e) : e.testBit 7 = false := by
  obtain ⟨h1, -⟩ := h
  rw [Nat.testBit_eq_decide_div_mod_eq, decide_eq_false_iff_not]
  omega

theorem pointerOf_eq (lvl lo e : Nat) : pointerOf lvl lo e =
    if e % 4096 ≠ 1 ∨ e / 2 ^ 48 % 2 ^ 16 ≠ 0 then .error { reason := 1, level := lvl }
    else if inHbm (entryFrame e) then .ok (entryFrame e)
    else if inInfield (entryFrame e) ∧ entryFrame e + 4096 ≤ infieldBase + lo then .ok (entryFrame e)
    else .error { reason := 1, level := lvl } := by
  simp only [pointerOf, fieldN_eq, entryFrame, show (4096 : Nat) = 2 ^ 12 by norm_num]

theorem pointerOf_ok {lo e : Nat} (lvl : Nat) (h : isPointer lo e) : pointerOf lvl lo e = .ok (entryFrame e) := by
  obtain ⟨h1, h2, h3⟩ := h
  rw [pointerOf_eq, if_neg (not_or.2 ⟨not_not.2 h1, not_not.2 h2⟩)]
  rcases h3 with h3 | h3
  · rw [if_pos h3]
  · rw [if_pos h3, ite_self]

theorem pointerOf_bad {lo e : Nat} (lvl : Nat) (h : ¬ isPointer lo e) : pointerOf lvl lo e = .error { reason := 1, level := lvl } := by
  rw [pointerOf_eq]
  by_cases h1 : e % 4096 ≠ 1 ∨ e / 2 ^ 48 % 2 ^ 16 ≠ 0
  · rw [if_pos h1]
  · obtain ⟨h1, h2⟩ := not_or.1 h1
    have h3 := fun h3 => h ⟨not_not.1 h1, not_not.1 h2, h3⟩
    rw [if_neg (by simp_all), if_neg fun hh => h3 (.inl hh), if_neg fun hh => h3 (.inr hh)]

section
variable {m : SMap Byte} {j lo va fuel tab e : Nat}

/-- The entry that the walk indexes at a level above the last. -/
theorem walkFrom_absent {lvl : Nat} (he : readN m (tab + 8 * fieldN va (12 + 9 * (3 - lvl)) 9) 8 = e) (h : e % 2 = 0) :
    walkFrom m j lo va (fuel + 1) lvl tab = .error { reason := 0, level := lvl } := by
  rw [walkFrom]
  dsimp only
  rw [he, if_pos h]

theorem walkFrom_leaf {lvl : Nat} (he : readN m (tab + 8 * fieldN va (12 + 9 * (3 - lvl)) 9) 8 = e) (hl : lvl ≠ 3) (h : e % 2 = 1)
    (hb : e.testBit 7 = true) : walkFrom m j lo va (fuel + 1) lvl tab = leafOf j va lvl lo e := by
  rw [walkFrom]
  dsimp only
  rw [he, if_neg (by omega), if_neg hl, if_pos hb]

theorem walkFrom_malformed {lvl : Nat} (he : readN m (tab + 8 * fieldN va (12 + 9 * (3 - lvl)) 9) 8 = e) (hl : lvl ≠ 3) (h : e % 2 = 1)
    (hb : e.testBit 7 = false) (hp : ¬ isPointer lo e) :
    walkFrom m j lo va (fuel + 1) lvl tab = .error { reason := 1, level := lvl } := by
  rw [walkFrom]
  dsimp only
  rw [he, if_neg (by omega), if_neg hl, if_neg (by simp [hb]), pointerOf_bad lvl hp]

theorem walkFrom_pointer {lvl : Nat} (he : readN m (tab + 8 * fieldN va (12 + 9 * (3 - lvl)) 9) 8 = e) (hl : lvl ≠ 3) (hp : isPointer lo e) :
    walkFrom m j lo va (fuel + 1) lvl tab = walkFrom m j lo va fuel (lvl + 1) (entryFrame e) := by
  rw [walkFrom]
  dsimp only
  rw [he, if_neg hp.present, if_neg hl, if_neg (by simp [hp.notLeaf]), pointerOf_ok lvl hp]

theorem walkFrom_page (he : readN m (tab + 8 * fieldN va 12 9) 8 = e) (h : e % 2 = 1) (hb : e.testBit 8 = false) :
    walkFrom m j lo va (fuel + 1) 3 tab = leafOf j va 3 lo e := by
  rw [walkFrom]
  dsimp only [Nat.sub_self, Nat.mul_zero, Nat.add_zero]
  rw [he, if_neg (by omega), if_pos rfl, if_neg (by simp [hb])]

/-- An indexed entry with S64 = 1 hands over to the first entry of its group (R37). -/
theorem walkFrom_group (he : readN m (tab + 8 * fieldN va 12 9) 8 = e) (h : e % 2 = 1) (hb : e.testBit 8 = true) {g : Nat}
    (hg : readN m (tab + 8 * (fieldN va 12 9 - fieldN va 12 9 % 16)) 8 = g) :
    walkFrom m j lo va (fuel + 1) 3 tab = if g.testBit 8 = false then .error { reason := 1, level := 3 }
      else if g % 2 = 0 then .error { reason := 0, level := 3 } else leafOf j va 3 lo g := by
  rw [walkFrom]
  dsimp only [Nat.sub_self, Nat.mul_zero, Nat.add_zero]
  rw [he, hg, if_neg (by omega), if_pos rfl, if_pos hb]

end

theorem State.walkOf_of_job {s : State} {j va : Nat} {x : Job} (h : s.job j = some x) :
    s.walkOf j va = walk s.mem j x.root (x.carveLo * 2 ^ 20) va := by
  simp [State.walkOf, h]

section
variable {m : SMap Byte} {j root lo va e : Nat} (he : readN m (root + 8 * (va / 2 ^ 39 % 2 ^ 16)) 8 = e)
include he

theorem walk_absent (h : e % 2 = 0) : walk m j root lo va = .error { reason := 0, level := 0 } := by
  unfold walk
  rw [fieldN_eq]
  dsimp only
  rw [he, if_pos h]

theorem walk_malformed (h : e % 2 = 1) (hp : ¬ isPointer lo e) : walk m j root lo va = .error { reason := 1, level := 0 } := by
  unfold walk
  rw [fieldN_eq]
  dsimp only
  rw [he, if_neg (by omega), pointerOf_bad 0 hp]

theorem walk_pointer (hp : isPointer lo e) : walk m j root lo va = walkFrom m j lo va 4 1 (entryFrame e) := by
  unfold walk
  rw [fieldN_eq]
  dsimp only
  rw [he, if_neg hp.present, pointerOf_ok 0 hp]

end

/-! ## Leaves (R36, R37) -/

/-- The size of a leaf (R34, R37). -/
def leafBytes (lvl e : Nat) : Nat :=
  if lvl = 1 then 2 ^ 30 else if lvl = 2 then 2 ^ 21 else if e.testBit 8 then 2 ^ 16 else 2 ^ 12

/-- What R36 asks of a leaf entry. -/
def goodLeaf (lvl lo e : Nat) : Prop :=
  e / 2 ^ 50 % 2 ^ 14 = 0 ∧ e / 2 ^ 9 % 8 = 0 ∧ e / 2 % 4 = 0 ∧ (lvl ≠ 3 → e.testBit 8 = false) ∧
    (e / 2 ^ 5 % 4 ≠ 1 → e / 2 ^ 48 % 4 = 0) ∧ entryFrame e % leafBytes lvl e = 0 ∧
    (inHbm (entryFrame e) = true ∨ inInfield (entryFrame e) = true ∨ inHost (entryFrame e) = true) ∧
    (inInfield (entryFrame e) = true → entryFrame e + leafBytes lvl e ≤ infieldBase + lo) ∧
    (e / 2 ^ 5 % 4 = 3 ↔ inHost (entryFrame e) = true) ∧ (e / 2 ^ 5 % 4 = 1 → inHbm (entryFrame e) = true)

theorem leafOf_eq (j va lvl lo e : Nat) : leafOf j va lvl lo e =
    if e / 2 ^ 50 % 2 ^ 14 ≠ 0 ∨ e / 2 ^ 9 % 8 ≠ 0 ∨ e / 2 % 4 ≠ 0 then .error { reason := 1, level := lvl }
    else if lvl ≠ 3 ∧ e.testBit 8 then .error { reason := 1, level := lvl }
    else if e / 2 ^ 48 % 4 ≠ 0 ∧ e / 2 ^ 5 % 4 ≠ 1 then .error { reason := 1, level := lvl }
    else if entryFrame e % leafBytes lvl e ≠ 0 then .error { reason := 1, level := lvl }
    else if ¬ (inHbm (entryFrame e) ∨ inInfield (entryFrame e) ∨ inHost (entryFrame e)) then .error { reason := 1, level := lvl }
    else if inInfield (entryFrame e) ∧ infieldBase + lo < entryFrame e + leafBytes lvl e then .error { reason := 1, level := lvl }
    else if (e / 2 ^ 5 % 4 = 3) ≠ (inHost (entryFrame e) = true) then .error { reason := 1, level := lvl }
    else if e / 2 ^ 5 % 4 = 1 ∧ ¬ inHbm (entryFrame e) then .error { reason := 1, level := lvl }
    else .ok { job := j, va := va - va % leafBytes lvl e, size := leafBytes lvl e, pa := entryFrame e, cls := e / 2 ^ 5 % 4,
               x := e.testBit 4, w := e.testBit 3, home := e / 2 ^ 48 % 4 } := by
  simp [leafOf, fieldN_eq, entryFrame, leafBytes, leafSize]

theorem leafOf_ok {lvl lo e : Nat} (j va : Nat) (h : goodLeaf lvl lo e) : leafOf j va lvl lo e =
    .ok { job := j, va := va - va % leafBytes lvl e, size := leafBytes lvl e, pa := entryFrame e, cls := e / 2 ^ 5 % 4,
          x := e.testBit 4, w := e.testBit 3, home := e / 2 ^ 48 % 4 } := by
  obtain ⟨h1, h2, h3, h4, h5, h6, h7, h8, h9, h10⟩ := h
  rw [leafOf_eq, if_neg (not_or.2 ⟨not_not.2 h1, not_or.2 ⟨not_not.2 h2, not_not.2 h3⟩⟩), if_neg (by simpa using h4), if_neg (fun hh => hh.1 (h5 hh.2)), if_neg (not_not.2 h6),
    if_neg (not_not.2 h7), if_neg (fun hh => absurd (h8 hh.1) (by omega)), if_neg (not_not.2 (propext h9)),
    if_neg (fun hh => hh.2 (h10 hh.1))]

theorem leafOf_bad {lvl lo e : Nat} (j va : Nat) (h : ¬ goodLeaf lvl lo e) :
    leafOf j va lvl lo e = .error { reason := 1, level := lvl } := by
  rw [leafOf_eq]
  split_ifs with h1 h2 h3 h4 h5 h6 h7 h8 <;> try rfl
  refine absurd ?_ h
  push Not at h1 h3 h4 h7
  refine ⟨h1.1, h1.2.1, h1.2.2, fun hl => ?_, fun hc => ?_, h4, h5, fun hi => ?_, Iff.of_eq h7, fun hc => ?_⟩
  · simpa [hl] using h2
  · by_contra hh
    exact hc (h3 hh)
  · by_contra hh
    exact h6 ⟨hi, by omega⟩
  · by_contra hh
    exact h8 ⟨hc, hh⟩

/-! ## The statement -/

theorem access_outside {s : State} {a : Int} {n al : Nat} {wr amo : Bool} (h : a % (al : Nat) = (0 : Int)) (ho : outsideGlobal a = true) :
    access true a n al wr amo s = .error (.trap 5 (faultValue 2 0 false wr a)) :=
  access_of_stop h (placeOf_global_of_stop (resolve_outside ho))

/-- A window of the own core is local space, another's sends the thread there, one that is not owned faults (R24, R25, R28). -/
theorem access_window {s : State} {a : Int} {n al : Nat} {wr amo : Bool} (h : a % (al : Nat) = (0 : Int)) (ho : outsideGlobal a = false)
    (hw : 2 ^ 55 ≤ a) : access true a n al wr amo s =
      if s.notOwned (windowCore a.toNat) (s.jobOf s.cur) then .error (.trap 5 (faultValue 3 0 false wr a))
      else if windowCore a.toNat = coreOf s.cur ∧ isLocal s.cur then .ok (.loc (a.toNat % 2 ^ 28), s)
      else migrate (windowCore a.toNat) a false s := by
  have hr := resolve_window (s := s) (wr := wr) (amo := amo) ho hw
  split_ifs at hr ⊢
  · exact access_of_stop h (placeOf_global_of_stop hr)
  · exact access_of_place h (placeOf_global_of_resolve hr)
  · exact access_of_place h (placeOf_global_of_resolve hr)

section
variable {s : State} {a : Int} {n al : Nat} {wr amo : Bool} (h : a % (al : Nat) = (0 : Int)) (h0 : 0 ≤ a) (h1 : a < 2 ^ 55)
include h h0 h1

theorem access_of_translate_stop {e : Stop} (ht : translate a.toNat wr false s = .error e) : access true a n al wr amo s = .error e :=
  access_of_stop h (placeOf_global_of_stop (by rw [resolve_paged h0 h1, M.bind_error ht]))

/-- The checks behind the translation, in their order, and where the class has the access performed (R29, R30). -/
theorem access_of_translated {l : Leaf} {u : State} (ht : translate a.toNat wr false s = .ok (l, u)) : access true a n al wr amo s =
    if wr ∧ ¬ l.w then .error (.trap 6 (faultValue 0 0 false wr a))
    else if l.cls = 2 then .error (.trap 6 (faultValue 2 0 false wr a))
    else if amo ∧ l.cls = 3 then .error (.trap 6 (faultValue 4 0 false wr a))
    else if l.cls = 3 then .ok (.host (l.phys a.toNat) a.toNat, u)
    else if l.cls = 1 then (if homeCore (l.phys a.toNat) l.home = coreOf u.cur then .ok (.home (l.phys a.toNat) a.toNat, u)
      else migrate (homeCore (l.phys a.toNat) l.home) a false u)
    else .ok (.cached (l.phys a.toNat) a.toNat, u) := by
  have hr := resolve_paged (s := s) (wr := wr) (amo := amo) h0 h1
  rw [M.bind_ok ht] at hr
  by_cases hw : wr ∧ ¬ l.w
  · rw [if_pos hw] at hr ⊢
    exact access_of_stop h (placeOf_global_of_stop hr)
  by_cases h2 : l.cls = 2
  · rw [if_neg hw, if_pos h2] at hr ⊢
    exact access_of_stop h (placeOf_global_of_stop hr)
  by_cases h3 : amo ∧ l.cls = 3
  · rw [if_neg hw, if_neg h2, if_pos h3] at hr ⊢
    exact access_of_stop h (placeOf_global_of_stop hr)
  rw [if_neg hw, if_neg h2, if_neg h3] at hr ⊢
  refine (access_of_place h (placeOf_global_of_resolve hr)).trans ?_
  dsimp only
  split_ifs <;> rfl

end

/-- Settles O27: the order of the checks is `access_of_place` and `access_of_translated`; the walk and its entries are `walk_pointer`,
`walkFrom_pointer` and `leafOf_eq`. -/
theorem accessChecks : Obligations.AccessChecks := by
  unfold Obligations.AccessChecks
  refine ⟨fun s glb a n al wr amo h => access_misaligned h, fun s a n al wr amo hn h => ⟨fun hf => ?far, fun hf => ⟨fun h0 h1 => ?inside, fun h0 => ?below, fun h0 h1 => ?above⟩⟩,
    outsideGlobal_iff, windowCore_eq, fun s a n al wr amo h => ?glob, fun _ _ _ _ _ => rfl,
    fun s va wr => ⟨fun l hl => translate_hit hl, fun hl hp hr => ?walked, fun hl hp hg => translate_parks hl hp hg⟩,
    fun s j va x hx => ?walk, fun s j va h => by simp [State.walkOf, h], fun j va lvl lo e _ => ?leaf, fun _ _ => rfl⟩
  case far => exact access_of_stop h (placeOf_local_of_stop (checkLocal_far hf))
  case inside =>
    rw [← localEnd_cast] at h1
    exact access_of_place h (placeOf_local_of_check (checkLocal_inside hf (firstOutside_inside h0 h1)))
  case below => exact access_of_stop h (placeOf_local_of_stop (checkLocal_outside hf (firstOutside_below hn h0)))
  case above =>
    rw [← localEnd_cast] at h1 ⊢
    exact access_of_stop h (placeOf_local_of_stop (checkLocal_outside hf (firstOutside_above hn h0 h1)))
  case glob =>
    intro go stop x
    refine ⟨access_outside h, fun ho hw => ⟨fun hn => ?_, fun hn => ⟨fun hc hl => ?_, fun hne => ?_⟩⟩,
      fun h0 h1 => ⟨fun c v => access_of_translate_stop h h0 h1, fun l u ht => ?_⟩⟩
    · exact (access_window h ho hw).trans (if_pos hn)
    · refine (access_window h ho hw).trans ?_
      rw [if_neg (ne_true_of_eq_false hn), if_pos ⟨hc, hl⟩]
    · refine (access_window h ho hw).trans ?_
      rw [if_neg (ne_true_of_eq_false hn), if_neg (fun hh => hne.elim (fun k => k hh.1) fun k => by simp [k] at hh)]
    · have hgo : go = _ := access_of_translated (n := n) (amo := amo) h h0 h1 ht
      refine ⟨fun hwr hl => ?_, fun hm hc => ?_, fun hm ha hc => ?_, fun hm ha hc => ?_, fun hm hc hh => ?_, fun hm hc hh => ?_,
        fun hm hc => ?_⟩
      · exact hgo.trans (if_pos ⟨hwr, by simp [hl]⟩)
      all_goals
        have hm' : ¬ (wr = true ∧ ¬ l.w = true) := fun k => hm ⟨k.1, by simpa using k.2⟩
        refine hgo.trans ?_
        rw [if_neg hm']
      · rw [if_pos hc]
      · rw [if_neg (by omega), if_pos ⟨ha, hc⟩]
      · rw [if_neg (by omega), if_neg (by simp [ha]), if_pos hc]
      · rw [if_neg (by omega), if_neg (by omega), if_neg (by omega), if_pos hc, if_pos hh]
      · rw [if_neg (by omega), if_neg (by omega), if_neg (by omega), if_pos hc, if_neg hh]
      · rw [if_neg (by omega), if_neg (by omega), if_neg (by omega), if_neg (by omega)]
  case walked =>
    obtain ⟨u, hu, ht⟩ := translate_walks (wr := wr) hl hp hr
    refine ⟨fun e he => by rw [ht, he], fun l he => ⟨_, by rw [ht, he], (still_installed hu l).1, (still_installed hu l).2⟩⟩
  case walk =>
    intro lo ent frame ptr stop e0 e1 e2 i3 e3 g
    have h0 : stop = fun r l => walk s.mem j x.root lo va = .error { reason := r, level := l } := by
      funext r l
      exact congrArg (· = _) (State.walkOf_of_job hx)
    have i1 : fieldN va (12 + 9 * (3 - 1)) 9 = va / 2 ^ 30 % 512 := fieldN_eq _ _ _
    have i2 : fieldN va (12 + 9 * (3 - 2)) 9 = va / 2 ^ 21 % 512 := fieldN_eq _ _ _
    have hi3 : fieldN va 12 9 = i3 := fieldN_eq _ _ _
    have hg : i3 - i3 % 16 = i3 / 16 * 16 := by omega
    have he1 : readN s.mem (entryFrame e0 + 8 * fieldN va (12 + 9 * (3 - 1)) 9) 8 = e1 := by rw [i1]; rfl
    have he2 : readN s.mem (entryFrame e1 + 8 * fieldN va (12 + 9 * (3 - 2)) 9) 8 = e2 := by rw [i2]; rfl
    have he3 : readN s.mem (entryFrame e2 + 8 * fieldN va 12 9) 8 = e3 := by rw [hi3]; rfl
    have heg : readN s.mem (entryFrame e2 + 8 * (fieldN va 12 9 - fieldN va 12 9 % 16)) 8 = g := by rw [hi3, hg]; rfl
    rw [State.walkOf_of_job hx, h0]
    refine ⟨walk_absent rfl, walk_malformed rfl, fun p0 => ?_⟩
    have w0 : walk s.mem j x.root lo va = walkFrom s.mem j lo va 4 1 (entryFrame e0) := walk_pointer rfl p0
    rw [w0]
    refine ⟨walkFrom_absent he1, walkFrom_leaf he1 (by decide), walkFrom_malformed he1 (by decide), fun p1 => ?_⟩
    rw [walkFrom_pointer he1 (by decide) p1]
    refine ⟨walkFrom_absent he2, walkFrom_leaf he2 (by decide), walkFrom_malformed he2 (by decide), fun p2 => ?_⟩
    rw [walkFrom_pointer he2 (by decide) p2]
    refine ⟨walkFrom_absent he3, walkFrom_page he3, fun h3 hb => ?_⟩
    rw [walkFrom_group he3 h3 hb heg]
    exact ⟨fun hgb => by rw [if_pos hgb], fun hgb hgp => by rw [if_neg (by simp [hgb]), if_pos hgp],
      fun hgb hgp => by rw [if_neg (by simp [hgb]), if_neg (by omega)]⟩
  case leaf =>
    refine ⟨fun hgood => ?_, fun hbad => leafOf_bad j va hbad⟩
    exact ⟨_, leafOf_ok j va hgood, rfl, rfl, rfl, rfl, rfl, rfl, rfl, rfl⟩

end Sys2Proof.Machine
end

section
/-! CERTIFICATE. Accesses to a MIGRATE page at its home, and to a HOST page (R27, R128, R140). -/
namespace Sys2Proof.Machine

/-! ## What stands before an access: its checks, its reply and its count -/

section
variable {s : State} {pa va n : Nat}

theorem checkPoison_readable (hp : s.poison.contains (pa / 4096) = false) (hb : s.badAt pa n false = false) (hl : s.lostAt pa n = none) :
    checkPoison pa va n false s = .ok ((), s) := by
  unfold checkPoison
  rw [M.bind_ok (getS_apply _), if_neg (ne_true_of_eq_false hp), if_neg (ne_true_of_eq_false hb), if_neg (by simp), hl]
  rfl

theorem checkPoison_writable (hp : s.poison.contains (pa / 4096) = false) (hb : s.badAt pa n true = false) :
    checkPoison pa va n true s = .ok ((), s) := by
  unfold checkPoison
  rw [M.bind_ok (getS_apply _), if_neg (ne_true_of_eq_false hp), if_neg (ne_true_of_eq_false hb), if_pos rfl, M.pure_apply]

theorem entryReady_ok (k : WaitKind) (h : s.moving pa = false) : entryReady k pa s = .ok ((), s) := by
  unfold entryReady
  rw [M.bind_ok (getS_apply _), if_neg (ne_true_of_eq_false h), M.pure_apply]

theorem checkRoute_ok (h : s.routed (atCore s.cur) pa = true) : checkRoute pa va s = .ok ((), s) := by
  unfold checkRoute
  rw [M.bind_ok (getS_apply _), if_pos h, M.pure_apply]

end

/-- `u` is `s` but for the reply that has come and for what the dies count; their L2s are the same. -/
def State.CountedTo (s u : State) : Prop :=
  ∃ g ds, u = { s with grant := g, dies := ds } ∧ ∀ d, (u.die d).l2 = (s.die d).l2

theorem State.CountedTo.refl (s : State) : s.CountedTo s := ⟨s.grant, s.dies, rfl, fun _ => rfl⟩

theorem State.die_modDie (s : State) (d k : Nat) (f : Die → Die) :
    (s.modDie d f).die k = if k = d then f (s.die d) else s.die k := by
  by_cases e : k = d
  · subst e; simp [State.modDie, State.setDie, State.die]
  · simp [State.modDie, State.setDie, State.die, e]

/-- A wait whose reply is there goes on. -/
theorem await_counted {s : State} {k : WaitKind} (h : s.prompt = true ∨ s.grant = some k) :
    ∃ u, await k s = .ok ((), u) ∧ s.CountedTo u := by
  rcases await_ready h with ha | ha
  · exact ⟨s, ha, .refl s⟩
  · exact ⟨_, ha, none, s.dies, rfl, fun _ => rfl⟩

/-- The count of an access changes no cache and no pair (R91). -/
theorem sampled_counted {s u : State} (h : s.CountedTo u) (va : Nat) (hint : Bool) :
    ∃ k w, sampled va hint u = .ok (k, w) ∧ s.CountedTo w := by
  obtain ⟨g, ds, rfl, hl⟩ := h
  refine ⟨_, _, rfl, ?_⟩
  unfold State.sample
  split
  · exact ⟨g, ds, rfl, hl⟩
  · refine ⟨g, _, rfl, fun d => ?_⟩
    rw [State.die_modDie]
    split
    · next e => subst e; exact hl _
    · exact hl d

section
variable {s : State} {pa va n : Nat}

/-- What a load that goes to the home of its line passes first. -/
theorem homeLoad_gate (hp : s.poison.contains (pa / 4096) = false) (hb : s.badAt pa n false = false) (hl : s.lostAt pa n = none)
    (hg : s.prompt = true ∨ s.grant = some .load) (hm : s.moving pa = false) (hr : s.routed (atCore s.cur) pa = true) (hint : Bool) :
    ∃ u, s.CountedTo u ∧ loadT (.home pa va) n hint s = loadHome pa n u := by
  obtain ⟨u, ha, hu⟩ := await_counted hg
  obtain ⟨k, w, hk, hw⟩ := sampled_counted hu va hint
  have hru : u.routed (atCore u.cur) pa = true := by
    obtain ⟨g, ds, rfl, -⟩ := hu
    exact hr
  refine ⟨w, hw, ?_⟩
  unfold loadT
  dsimp only
  rw [M.bind_ok (checkPoison_readable hp hb hl), M.bind_ok (entryReady_ok _ hm), M.bind_ok ha, M.bind_ok (checkRoute_ok hru), M.bind_ok hk]

/-- What a store that goes to the home of its line passes first. -/
theorem storeGate_ok (hp : s.poison.contains (pa / 4096) = false) (hb : s.badAt pa n true = false)
    (hg : s.prompt = true ∨ s.grant = some .store) (ha : s.aliasBusy (s.jobOf s.cur) va n = false) (hm : s.moving pa = false)
    (hr : s.routed (atCore s.cur) pa = true) : ∃ u, s.CountedTo u ∧ storeGate pa va n true s = .ok ((), u) := by
  obtain ⟨u, hw, hu⟩ := await_counted hg
  have hru : u.routed (atCore u.cur) pa = true := by
    obtain ⟨g, ds, rfl, -⟩ := hu
    exact hr
  refine ⟨u, hu, ?_⟩
  unfold storeGate
  rw [M.bind_ok (getS_apply _), if_neg (ne_true_of_eq_false ha), M.bind_ok (checkPoison_writable hp hb), M.bind_ok (entryReady_ok _ hm),
    M.bind_ok hw, checkRoute_ok hru]

end

/-! ## Loads and stores at the home (R126, R128) -/

/-- Writing the pair of an address. -/
theorem State.pairOf_setPair (s : State) (pa : Nat) (p : Pair) : (s.setPair pa p).pairOf pa = p :=
  SMap.get_set_self _ _ _ _

theorem loadHome_counted {s u : State} {pa : Nat} (n : Nat) (h : s.CountedTo u) :
    ∃ t, loadHome pa n u = .ok (readN s.mem pa n, t) ∧
      (t.slot s.cur).pts = max s.me.pts (s.pairOf pa).wts ∧
      t.pairOf pa = { s.pairOf pa with rts := max (s.pairOf pa).rts (max s.me.pts (s.pairOf pa).wts) } ∧
      (∀ c, (t.core c).l1 = (s.core c).l1) ∧ (∀ d, (t.die d).l2 = (s.die d).l2) ∧ t.mem = s.mem := by
  obtain ⟨g, ds, rfl, hl⟩ := h
  refine ⟨_, rfl, ?_, ?_, fun _ => rfl, hl, rfl⟩
  · exact congrArg Slot.pts (State.modSlot_slot_self _ _ _)
  · exact State.pairOf_setPair _ _ _

/-- Changes of dies, slots and memory leave every pair. -/
theorem State.pairOf_congr {s u : State} (hp : u.pairs = s.pairs) (hq : u.squares = s.squares) (pa : Nat) : u.pairOf pa = s.pairOf pa := by
  simp [State.pairOf, State.unitOf, hp, hq]

/-- What a write tells the other agents of is an invalidation for each die that holds a crossing line, and the watches (R94, R265). -/
theorem State.told (s : State) (pa n wts : Nat) :
    let u := (s.sendCrossing pa).notify 0 pa n wts
    u.cur = s.cur ∧ u.mem = s.mem ∧ u.cores = s.cores ∧ u.dies = s.dies ∧ u.pairs = s.pairs ∧ u.squares = s.squares := by
  unfold State.sendCrossing State.notify
  dsimp only
  split_ifs <;> exact ⟨rfl, rfl, rfl, rfl, rfl, rfl⟩

/-- A store leaves the caches to its caller: it stores the bytes and sets the pair. -/
theorem State.storeAt_spec (s : State) (pa n v pts scope who owner : Nat) :
    let u := (s.storeAt pa n v pts scope who owner).1
    let p := max pts ((s.pairOf pa).rts + 1)
    (s.storeAt pa n v pts scope who owner).2 = p ∧ u.cur = s.cur ∧ u.mem = writeN s.mem pa n v ∧ u.cores = s.cores ∧ u.dies = s.dies ∧
      u.pairOf pa = { wts := p, rts := p, scope := scope, who := who, owner := owner } := by
  intro u p
  obtain ⟨hcur, hmem, hcores, hdies, hpairs, hsq⟩ := State.told { s.setPair pa { wts := p, rts := p, scope := scope, who := who, owner := owner } with
    mem := writeN s.mem pa n v, badSect := s.badSect.filter fun x => ¬ (pa ≤ 32 * x ∧ 32 * x + 32 ≤ pa + n),
    badWords := s.badWords.filter fun x => ¬ (pa ≤ 8 * x ∧ 8 * x + 8 ≤ pa + n),
    dirty := if s.dirty.contains (pa / 4096) then s.dirty else pa / 4096 :: s.dirty } pa n p
  exact ⟨rfl, hcur, hmem, hcores, hdies, (State.pairOf_congr hpairs hsq pa).trans (State.pairOf_setPair s pa _)⟩

theorem State.dropColumns_l2 (s : State) (d sq k : Nat) : ((s.dropColumns d sq).die k).l2 = (s.die k).l2 := by
  unfold State.dropColumns
  rw [State.die_modDie]
  split
  · next e => rw [e]
  · rfl

/-- The store of the issuing slot with system scope: the line rests in no cache, and the PTS is the pair's (R88, R126). -/
theorem storePair_eq (s : State) (pa n v : Nat) : ∃ w : State,
    storePair pa n v 0 s = .ok ((), w.modSlot s.cur fun x => { x with pts := max s.me.pts ((s.pairOf pa).rts + 1) }) ∧
      w.mem = writeN s.mem pa n v ∧ w.cores = s.cores ∧ (∀ d, (w.die d).l2 = (s.die d).l2) ∧
      (w.pairOf pa).wts = max s.me.pts ((s.pairOf pa).rts + 1) ∧ (w.pairOf pa).rts = max s.me.pts ((s.pairOf pa).rts + 1) := by
  have hrest : s.restScope 0 = 0 := by simp [State.restScope]
  obtain ⟨ht, hcur, hmem, hcores, hdies, hpair⟩ := s.storeAt_spec pa n v s.me.pts 0 0 (l2Of s.cur)
  unfold storePair
  rw [modS_apply, hrest]
  dsimp only
  rw [if_pos rfl]
  generalize s.storeAt pa n v s.me.pts 0 0 (l2Of s.cur) = r at *
  obtain ⟨u, p⟩ := r
  subst ht
  dsimp only at *
  have hl2 : ∀ d, (u.die d).l2 = (s.die d).l2 := fun d => by simp [State.die, hdies]
  split
  · refine ⟨u.dropColumns (dieOf s.cur) (pa / 1024), rfl, hmem, hcores, fun d => (u.dropColumns_l2 _ _ _).trans (hl2 d), ?_⟩
    have hp : (u.dropColumns (dieOf s.cur) (pa / 1024)).pairOf pa = u.pairOf pa := rfl
    rw [hp, hpair]
    exact ⟨rfl, rfl⟩
  · exact ⟨u, rfl, hmem, hcores, hl2, by rw [hpair], by rw [hpair]⟩

/-- A store at the pair with system scope (R126). -/
theorem storePair_counted {s u : State} {pa : Nat} (n v : Nat) (h : s.CountedTo u) :
    ∃ t, storePair pa n v 0 u = .ok ((), t) ∧ t.mem = writeN s.mem pa n v ∧
      (t.slot s.cur).pts = max s.me.pts ((s.pairOf pa).rts + 1) ∧ (t.pairOf pa).wts = (t.slot s.cur).pts ∧
      (t.pairOf pa).rts = (t.slot s.cur).pts ∧ (∀ c, (t.core c).l1 = (s.core c).l1) ∧ ∀ d, (t.die d).l2 = (s.die d).l2 := by
  obtain ⟨w, hw, hmem, hcores, hl2, hwts, hrts⟩ := storePair_eq u pa n v
  obtain ⟨g, ds, rfl, hl⟩ := h
  have hpts : (w.modSlot s.cur fun x => { x with pts := max s.me.pts ((s.pairOf pa).rts + 1) }).slot s.cur =
    { w.slot s.cur with pts := max s.me.pts ((s.pairOf pa).rts + 1) } := State.modSlot_slot_self _ _ _
  refine ⟨_, hw, hmem, ?_, ?_, ?_, fun c => congrArg (fun m => (SMap.get Core.dflt m c).l1) hcores, fun d => (hl2 d).trans (hl d)⟩
  · exact congrArg Slot.pts hpts
  · exact hwts.trans (congrArg Slot.pts hpts).symm
  · exact hrts.trans (congrArg Slot.pts hpts).symm

/-! ## The host window (R27, R140) -/

section
variable {s : State} {pa : Nat} (va n : Nat) (hg : s.prompt = true ∨ s.grant = some .hostReply) (hr : s.routed (atCore s.cur) pa = true)
include hg hr

/-- What a load and a store over the host link pass first. -/
theorem host_gate : ∃ u k w, s.CountedTo w ∧ await .hostReply s = .ok ((), u) ∧ checkRoute pa va u = .ok ((), u) ∧
    sampled va false u = .ok (k, w) := by
  obtain ⟨u, ha, hu⟩ := await_counted hg
  obtain ⟨k, w, hk, hw⟩ := sampled_counted hu va false
  refine ⟨u, k, w, hw, ha, checkRoute_ok ?_, hk⟩
  obtain ⟨g, ds, rfl, -⟩ := hu
  exact hr

theorem hostLoad_counted : ∃ t, hostLoad pa va n s = .ok (s.hostGet pa n, t) ∧ s.CountedTo t := by
  obtain ⟨u, k, w, hw, ha, hc, hk⟩ := host_gate va hg hr
  refine ⟨w, ?_, hw⟩
  unfold hostLoad
  rw [M.bind_ok ha, M.bind_ok hc, M.bind_ok hk, M.bind_ok (getS_apply _), M.pure_apply]
  obtain ⟨g, ds, rfl, -⟩ := hw
  rfl

theorem hostStore_counted (v : Nat) : ∃ t, hostStore pa va n v s = .ok ((), t.hostPut pa n v) ∧ s.CountedTo t := by
  obtain ⟨u, k, w, hw, ha, hc, hk⟩ := host_gate va hg hr
  refine ⟨w, ?_, hw⟩
  unfold hostStore
  rw [M.bind_ok ha, M.bind_ok hc, M.bind_ok hk, modS_apply]

end

/-- Settles O30: behind `homeLoad_gate` and `storeGate_ok` stand `loadHome` and `storePair`; over the host link nothing but host memory
and a count changes. -/
theorem homeAccesses : Obligations.HomeAccesses := by
  unfold Obligations.HomeAccesses
  refine ⟨fun s pa va n hint hp hr => ⟨fun hb hl hg hm => ?load, fun hb hg ha hm v sc => ?store⟩,
    fun s pa va n hint hg hr => ⟨?hostLoad, fun v sc => ?hostStore⟩⟩
  case load =>
    obtain ⟨u, hu, he⟩ := homeLoad_gate (va := va) hp hb hl hg hm hr hint
    rw [he]
    exact loadHome_counted n hu
  case store =>
    obtain ⟨u, hu, he⟩ := storeGate_ok hp hb hg ha hm hr
    obtain ⟨k, w, hk, hw⟩ := sampled_counted hu va hint
    have hst : storeT (.home pa va) n v sc hint s = storePair pa n v 0 w := by
      unfold storeT
      dsimp only
      rw [M.bind_ok he, M.bind_ok hk]
    rw [hst]
    exact storePair_counted n v hw
  case hostLoad =>
    obtain ⟨t, ht, g, ds, rfl, hl⟩ := hostLoad_counted va n hg hr
    exact ⟨_, ht, ⟨rfl, rfl, fun _ => rfl, fun _ => rfl, hl⟩, rfl⟩
  case hostStore =>
    obtain ⟨t, ht, g, ds, rfl, hl⟩ := hostStore_counted va n hg hr v
    exact ⟨_, ht, ⟨rfl, rfl, fun _ => rfl, fun _ => rfl, hl⟩, rfl⟩

end Sys2Proof.Machine
end

section
/-! CERTIFICATE. MIGR, MIGR.crew and CREWJ: when a baton leaves, what it carries, and how a join completes (R173-R182, R278, R280). -/
namespace Sys2Proof.Machine

/-! ## The departure (R157, R173-R177) -/

section
variable {s : State} {dest : Nat} {a : Int} {crew : Bool}

/-- A thread that has nothing outstanding, and no failure to report, does not wait. -/
theorem waitQuiet_ok (k : WaitKind) (hq : s.quiet s.cur = true) (hf : s.me.fails = []) : waitQuiet k s = .ok ((), s) := by
  unfold waitQuiet
  rw [M.bind_ok (modS_apply _ _)]
  rw [if_neg (by simp [hq]), M.bind_ok (getS_apply _), if_pos hq, hf]
  rfl

/-- Nothing that R174 forbids, but for what concerns a crew. -/
structure State.MayLeave (s : State) : Prop where
  unpinned : s.me.sp.xstat.getLsbD 1 = false
  near     : isFar s.cur = false
  noAcc    : s.holdsAcc s.me (s.jobOf s.cur) = false

theorem migrate_leaves {α : Type} (h : s.MayLeave) (hc : ¬ (s.me.sp.xstat.getLsbD 2 ∧ ¬ crew)) (hcon : s.me.consumed = false)
    (hq : s.quiet s.cur = true) (hf : s.me.fails = []) :
    (migrate dest a crew : M α) s =
      .error (.leave ((s.modSlot s.cur fun m => { m with pts := max m.pts m.copyPts }).depart s.cur dest (a % 2 ^ 56).toNat)) := by
  unfold migrate
  rw [M.bind_ok (getS_apply _)]
  rw [if_neg (ne_true_of_eq_false h.unpinned), if_neg (ne_true_of_eq_false h.near), if_neg (ne_true_of_eq_false h.noAcc), if_neg hc,
    if_neg (ne_true_of_eq_false hcon), M.bind_ok (waitQuiet_ok _ hq hf), M.bind_ok (modMe_apply _ _), M.bind_ok (modS_apply _ _), leave_apply]
  rfl

theorem migrate_crewMember {α : Type} (h : s.MayLeave) (hc : s.me.sp.xstat.getLsbD 2 = true) :
    (migrate dest a false : M α) s = .error (.trap 0x0B (migrationValue 4 a)) := by
  unfold migrate
  rw [M.bind_ok (getS_apply _)]
  rw [if_neg (ne_true_of_eq_false h.unpinned), if_neg (ne_true_of_eq_false h.near), if_neg (ne_true_of_eq_false h.noAcc),
    if_pos ⟨hc, by simp⟩, trap_apply]

end

/-! ## MIGR (R278) -/

section
variable {s s1 s2 : State} {a : Src} {off : BitVec 32} {crew : Bool} {b : Word} (hr : readSrc 1 a s = .ok (b, s1))
include hr

theorem migrTo_stays {y : Target} (hp : placeOf true (addrOf b off) 1 false false s1 = .ok (.inl y, s2)) :
    migrTo a off crew s = .ok ((), s2) := by
  unfold migrTo
  rw [M.bind_ok hr, M.bind_ok hp]
  rfl

theorem migrTo_goes {c : Nat} (hp : placeOf true (addrOf b off) 1 false false s1 = .ok (.inr c, s2)) :
    migrTo a off crew s = migrate c (addrOf b off) crew s2 := by
  unfold migrTo
  rw [M.bind_ok hr, M.bind_ok hp]

end

/-- What runs is what the instruction does in the state at hand. -/
theorem run_congr (i : Instr) {m m' : M Unit} {s : State} (h : m s = m' s) : run i m s = run i m' s := by
  unfold run
  rw [h]

/-- MIGR.crew of a member is MIGR with the crew's right. -/
theorem execMigrCrew_member {s : State} (a : Src) (off : BitVec 32) (h : s.me.sp.xstat.getLsbD 2 = true) :
    execMigrCrew a off s = run (.migrCrew a off) (migrTo a off true) s := by
  refine run_congr _ ?_
  rw [M.bind_ok (myself_apply s), h, ensure_true, M.bind_ok (M.pure_apply _ _)]

theorem execMigrCrew_single {s : State} (a : Src) (off : BitVec 32) (hl : s.live) (h : s.me.sp.xstat.getLsbD 2 = false) :
    execMigrCrew a off s = .next (s.trapMe 1 9) := by
  refine run_trap hl ?_
  rw [M.bind_ok (myself_apply s), h, ensure_false]
  rfl

/-! ## The baton (R175, R176) -/

/-- Reading a map of which some keys are kept. -/
theorem SMap.get_filter {α : Type} (d : α) (p : Nat → Bool) (m : SMap α) (i : Nat) :
    SMap.get d (m.filter fun e => p e.1) i = if p i then SMap.get d m i else d := by
  induction m with
  | nil => simp [SMap.get]
  | cons e m ih =>
    obtain ⟨k, v⟩ := e
    by_cases hk : p k <;> by_cases hi : i = k
    · subst hi; simp [SMap.get, hk]
    · simp [SMap.get, hk, hi, ih]
    · subst hi; simp [hk, ih]
    · simp [SMap.get, hk, hi, ih]

theorem Regs.readG_carry (r : Regs) (m : BitVec 33) (n : Nat) :
    (r.carry m).readG n = if m.getLsbD (n / 2) then r.readG n else 0 := by
  unfold Regs.readG Regs.carry
  rw [SMap.get_filter 0 fun k => m.getLsbD (k / 2)]
  split <;> split <;> rfl

theorem Regs.readV_carry (r : Regs) (m : BitVec 33) (n : Nat) :
    (r.carry m).readV n = if m.getLsbD (16 + n) then r.readV n else 0 :=
  SMap.get_filter 0 (fun k => m.getLsbD (16 + k)) r.v n

/-- A full set names g1 to g31, every v register and k1 to k7; an empty one names none. -/
theorem carried_lengths (m : BitVec 33) :
    (carriedG m).length ≤ 31 ∧ (carriedV m).length ≤ 16 ∧ (carriedK m).length ≤ 7 := by
  refine ⟨?_, (List.length_filter_le _ _).trans (by simp), ?_⟩
  · have hsplit : carriedG m = ((List.range 31).map (· + 1)).filter fun i => decide (i ≠ 0) && m.getLsbD (i / 2) := by
      unfold carriedG
      rw [List.range_succ_eq_map]
      simp
    rw [hsplit]
    exact (List.length_filter_le _ _).trans (by simp)
  · unfold carriedK
    split <;> simp

theorem Baton.size_le (b : Baton) : b.size ≤ 4464 := by
  obtain ⟨hg, hv, hk⟩ := carried_lengths b.carried
  unfold Baton.size
  omega

theorem Baton.size_full {b : Baton} (h : b.carried = BitVec.allOnes 33) : b.size = 4464 := by
  unfold Baton.size
  rw [h]
  decide

theorem Baton.size_empty {b : Baton} (h : b.carried = 0) : b.size = 64 := by
  unfold Baton.size
  rw [h]
  decide

/-! ## CREWJ (R180, R280) -/

theorem joinedStat_eq (v : Word) (n : Nat) :
    joinedStat v (n % 65536) = (v &&& ~~~0xFFFF0004) ||| 4 ||| BitVec.ofNat 64 (n % 65536 * 65536) := by
  rw [joinedStat, Nat.mod_mod]
  rfl

/-- The XSTAT and the crew size of a thread that has joined. -/
def Slot.joined (m : Slot) (id size : Nat) : Slot := { m with crewN := size, sp := { m.sp with xstat := joinedStat m.sp.xstat id } }

/-- What a thread that joins crew `id` finds: what it has been told while it waited, else what the join answers. -/
def crewFinds (id size : Nat) (w : Wait) : M Nat := do
  let s ← getS
  if w.kind = .ready ∧ w.n ≠ 0 then pure w.n
  else if w.kind = .crewJoin id then pure 0
  else do
    let (s', n) := s.join s.cur (coreOf s.cur) (s.jobOf s.cur) id size
    modS fun _ => s'
    pure n

/-- What it does with what it finds: 0 it waits, 1 it has joined. -/
def crewEnds (id size n : Nat) : M Unit :=
  if n = 0 then park (.crewJoin id) else if n = 1 then modMe fun m => m.joined id size else trapAt 1 9

/-- What a slot has kept while it was parked; one that has not parked has kept nothing. -/
theorem myWait_apply (s : State) : myWait s = .ok (s.me.wait.getD { kind := .ready, instr := .nop, stamps := [], data := [], n := 0 }, s) := rfl

section
variable {s s1 : State} {a b : Src} {x y : Word} (hr : readAB a b s = .ok ((x, y), s1))
include hr

theorem execCrewj_leaves (hl : s.live) (hc : s1.me.sp.xstat.getLsbD 2 = true) (hy : y = 0) : execCrewj a b s =
    .next ((s1.modSlot s1.cur fun m => { m with crewN := 0, sp := { m.sp with xstat := leftStat m.sp.xstat } }).advance (.crewj a b)) := by
  refine run_ok hl ?_
  rw [M.bind_ok hr]
  dsimp only
  rw [M.bind_ok (myself_apply _), M.bind_ok (myWait_apply _), M.bind_ok (getS_apply _), if_pos hc, decide_eq_true hy, ensure_true,
    M.bind_ok (M.pure_apply _ _), modMe_apply]

/-- CREWJ of a thread that is in no crew, with a size that R280 allows. -/
theorem execCrewj_found (hc : s1.me.sp.xstat.getLsbD 2 = false) (h2 : 2 ≤ y.toNat) (h15 : y.toNat ≤ 15) {w : Wait}
    (hw : s1.me.wait.getD { kind := .ready, instr := .nop, stamps := [], data := [], n := 0 } = w) {n : Nat} {u : State}
    (hf : crewFinds (x.toNat % 65536) y.toNat w s1 = .ok (n, u)) :
    execCrewj a b s = run (.crewj a b) (fun _ => crewEnds (x.toNat % 65536) y.toNat n u) s := by
  refine run_congr _ ?_
  rw [M.bind_ok hr]
  dsimp only
  rw [M.bind_ok (myself_apply _), M.bind_ok (myWait_apply _), M.bind_ok (getS_apply _), if_neg (ne_true_of_eq_false hc), decide_eq_true h2,
    decide_eq_true h15, Bool.and_self, ensure_true, M.bind_ok (M.pure_apply _ _), hw]
  exact M.bind_ok hf

end

theorem crewFinds_told {id size : Nat} {w : Wait} (s : State) (hk : w.kind = .ready) (hn : w.n = 1) : crewFinds id size w s = .ok (1, s) := by
  unfold crewFinds
  rw [M.bind_ok (getS_apply _), if_pos ⟨hk, by omega⟩, hn, M.pure_apply]

/-- A thread that has not asked before joins now. -/
theorem crewFinds_joins {id size n : Nat} {s u : State} (hj : s.join s.cur (coreOf s.cur) (s.jobOf s.cur) id size = (u, n)) :
    crewFinds id size { kind := .ready, instr := .nop, stamps := [], data := [], n := 0 } s = .ok (n, u) := by
  unfold crewFinds
  rw [M.bind_ok (getS_apply _), if_neg (by simp), if_neg (by simp), hj]
  rfl

/-- A member that agrees on the size, and comes last, completes the join; one that does not waits. -/
theorem State.join_found {s : State} {t c j id n : Nat} {k : CrewJoin}
    (hk : (s.core c).joins.find? (fun q => decide (q.job = j) && decide (q.id = id)) = some k) (hf : k.failed = false) (hs : k.size = n) :
    (s.join t c j id n).2 = if (joinEnd k.members t).length = n then 1 else 0 := by
  have hk' : (s.core c).joins.find? (isJoin j id) = some k := hk
  unfold State.join
  rw [hk']
  dsimp only
  rw [if_neg (ne_true_of_eq_false hf), if_neg (not_not.2 hs)]
  split <;> rfl

/-- The baton that leaves, and the slot that stays behind (R175-R177). -/
theorem State.depart_spec (s : State) (t dest a : Nat) :
    (s.depart t dest a).batons = s.batons ++ [s.batonOf t dest a] ∧ ((s.depart t dest a).slot t).st = .reserved :=
  ⟨rfl, congrArg Slot.st (SMap.get_set_self Slot.dflt s.slots t { s.slot t with
    st := .reserved, latch := [], wait := some { kind := .baton, instr := .nop, stamps := [], data := [], n := a } })⟩

theorem spanLive_eq (k : Span) : spanLive k = match k with | .block _ lg lv lk => BitVec.ofBool lk ++ lv ++ lg | _ => 0 := by
  cases k <;> rfl

/-- Settles O41: where a baton leaves is `migrate_leaves`, what it carries `State.batonOf`, and what CREWJ finds `execCrewj_found`. -/
theorem migration : Obligations.Migration := by
  unfold Obligations.Migration
  refine ⟨fun s a off b s1 x s2 hl hr hp => ⟨?nop, ?goes⟩, fun s a off hl hc => execMigrCrew_single a off hl hc, ?baton,
    fun b => ⟨b.size_le, Baton.size_full, Baton.size_empty⟩, fun s a b x y s1 hl hr hc hy => execCrewj_leaves hr hl hc hy, ?joins, ?last⟩
  case nop =>
    rintro y rfl
    exact ⟨run_ok hl (migrTo_stays hr hp), fun hc => (execMigrCrew_member a off hc).trans (run_ok hl (migrTo_stays hr hp))⟩
  case goes =>
    rintro c rfl hpin hfar hacc hcon hq hf go
    have hm : s2.MayLeave := ⟨hpin, hfar, hacc⟩
    refine ⟨fun hc => run_leave hl ((migrTo_goes hr hp).trans (migrate_leaves hm (fun h => ne_true_of_eq_false hc h.1) hcon hq hf)),
      fun hc => (execMigrCrew_member a off hc).trans (run_leave hl ((migrTo_goes hr hp).trans (migrate_leaves hm (by simp) hcon hq hf))),
      fun hc => run_trap hl ((migrTo_goes hr hp).trans (migrate_crewMember hm hc))⟩
  case baton =>
    intro s t dest a
    obtain ⟨hb, hst⟩ := s.depart_spec t dest a
    refine ⟨s.batonOf t dest a, hb, hst, rfl, rfl, rfl, rfl, ?_, fun n _ => Regs.readG_carry _ _ n, fun n _ => Regs.readV_carry _ _ n⟩
    exact congrArg (· ||| (s.slot t).wmask) (spanLive_eq _)
  case joins =>
    intro s a b x y s1 hl hr hc h2 h15 stat joined
    have hjoined : ∀ u : State, joined u = u.modSlot u.cur fun m => m.joined (x.toNat % 65536) y.toNat := fun u => by
      simp only [joined, stat, Slot.joined, joinedStat_eq]
    refine ⟨fun w hw hk hn => ?_, fun u hw hj => ?_, fun u hw hj => ?_⟩
    · rw [hjoined]
      exact (execCrewj_found hr hc h2 h15 (by rw [hw]; rfl) (crewFinds_told s1 hk hn)).trans (run_ok hl rfl)
    · rw [hjoined]
      exact (execCrewj_found hr hc h2 h15 (by rw [hw]; rfl) (crewFinds_joins hj)).trans (run_ok hl rfl)
    · exact (execCrewj_found hr hc h2 h15 (by rw [hw]; rfl) (crewFinds_joins hj)).trans (run_park hl rfl)
  case last =>
    intro s t c j id n k hk hf hs
    rw [State.join_found hk hf hs]
    exact ⟨fun h => if_pos h, fun h => if_neg h⟩

end Sys2Proof.Machine
end

section
/-! The canonical form of memory (O3, log 1): what a step of the model has to show to keep it. A function on states keeps it where its
result is canonical; an instruction in progress keeps it where the state of every end that it can have is. -/
namespace Sys2Proof.Machine

/-! ## Choices and loops on states -/

theorem State.canon.ite {c : Prop} [Decidable c] {s t : State} (hs : s.canon) (ht : t.canon) : (if c then s else t).canon := by
  split
  · exact hs
  · exact ht

theorem State.canon.dite {c : Prop} [Decidable c] {f : c → State} {g : ¬ c → State} (hf : ∀ h, (f h).canon) (hg : ∀ h, (g h).canon) :
    (if h : c then f h else g h).canon := by
  split
  · exact hf _
  · exact hg _

theorem State.canon.iteFst {α : Type} {c : Prop} [Decidable c] {p q : State × α} (hp : p.1.canon) (hq : q.1.canon) :
    (if c then p else q).1.canon := by
  split
  · exact hp
  · exact hq

theorem State.canon.foldl {α : Type} {f : State → α → State} {l : List α} {s : State} (h : s.canon)
    (hf : ∀ s x, s.canon → (f s x).canon) : (l.foldl f s).canon :=
  List.foldlRecOn l f h fun s hs x _ => hf s x hs

theorem State.canon.foldlFst {α β : Type} {f : State × β → α → State × β} {l : List α} {p : State × β} (h : p.1.canon)
    (hf : ∀ p x, p.1.canon → (f p x).1.canon) : (l.foldl f p).1.canon :=
  List.foldlRecOn (motive := fun p : State × β => p.1.canon) l f h fun p hp x _ => hf p x hp

theorem State.canon.foldr {α : Type} {f : α → State → State} {l : List α} {s : State} (h : s.canon)
    (hf : ∀ x s, s.canon → (f x s).canon) : (l.foldr f s).canon :=
  List.foldrRecOn l f h fun s hs x _ => hf x s hs

theorem State.canon.times {n : Nat} {f : Nat → State → State} {s : State} (h : s.canon) (hf : ∀ i s, s.canon → (f i s).canon) :
    (Machine.times n f s).canon :=
  h.foldl fun s i hs => hf i s hs

theorem State.canon.getD {o : Option State} {s : State} (h : s.canon) (ho : ∀ t, o = some t → t.canon) : (o.getD s).canon := by
  cases o with
  | none => exact h
  | some t => exact ho t rfl

/-- A loop over states that can stop keeps the form where each of its steps does. -/
theorem foldl_some {α β : Type} {P : β → Prop} {f : Option β → α → Option β} {l : List α} {b : β} (h : P b)
    (hf : ∀ o x r, (∀ b, o = some b → P b) → f o x = some r → P r) {r : β} (e : l.foldl f (some b) = some r) : P r :=
  List.foldlRecOn (motive := fun o : Option β => ∀ b, o = some b → P b) l f (fun _ h' => Option.some.inj h' ▸ h)
    (fun o ho x _ r hr => hf o x r ho hr) r e

/-- The same for a loop that can fail with an error. -/
theorem foldl_ok {α β ε : Type} {P : β → Prop} {f : Except ε β → α → Except ε β} {l : List α} {b : β} (h : P b)
    (hf : ∀ o x r, (∀ b, o = .ok b → P b) → f o x = .ok r → P r) {r : β} (e : l.foldl f (.ok b) = .ok r) : P r :=
  List.foldlRecOn (motive := fun o : Except ε β => ∀ b, o = .ok b → P b) l f (fun _ h' => Except.ok.inj h' ▸ h)
    (fun o ho x _ r hr => hf o x r ho hr) r e

/-- A change of other fields than memory keeps the form. -/
theorem State.canon.upd {s : State} {a b c d e f g i j k l m a' b' c' d' e' f' g' i' j' k' l' m' n o p q r t u v w x} (h : s.canon) :
    (State.mk a b c d e f g i j k l m s.mem a' b' c' d' e' f' g' i' j' k' l' m' n o p q r t u v w x).canon := h

/-- So does a change of memory to a canonical one, whatever becomes of the other fields. -/
theorem State.canon.withMem {m : Memory} {a b c d e f g i j k l n a' b' c' d' e' f' g' i' j' k' l' m' n' o p q r t u v w x}
    (hm : Memory.wf m = true) :
    (State.mk a b c d e f g i j k l n m a' b' c' d' e' f' g' i' j' k' l' m' n' o p q r t u v w x).canon := hm

/-- So does a write of bytes to memory, whatever becomes of the other fields. -/
theorem State.canon.written {s : State} {y n z a b c d e f g i j k l m a' b' c' d' e' f' g' i' j' k' l' m' n' o p q r t u v w x}
    (h : s.canon) : (State.mk a b c d e f g i j k l m (writeN s.mem y n z) a' b' c' d' e' f' g' i' j' k' l' m' n' o p q r t u v w x).canon :=
  wf_writeN _ _ _ h

/-! ## Instructions in progress -/

/-- The state that an instruction stops with is canonical; a trap that performs something keeps the form of the state it starts from. -/
def Stop.Canon : Stop → Prop
  | .trap _ _ => True
  | .trapDo _ _ f => ∀ s : State, s.canon → (f s).canon
  | .trapAt _ _ s => s.canon
  | .park _ s => s.canon
  | .leave s => s.canon

/-- The state of an end of an instruction is canonical. -/
def CanonEnd {α : Type} : Except Stop (α × State) → Prop
  | .ok p => p.2.canon
  | .error e => e.Canon

/-- An instruction in progress keeps the canonical form, whichever way it ends. -/
def CanonM {α : Type} (m : M α) : Prop := ∀ s : State, s.canon → CanonEnd (m s)

namespace CanonM
variable {α β : Type}

theorem ok {m : M α} (hm : CanonM m) {s t : State} {x : α} (hs : s.canon) (e : m s = .ok (x, t)) : t.canon := by
  have h := hm s hs
  rwa [e] at h

theorem error {m : M α} (hm : CanonM m) {s : State} {e : Stop} (hs : s.canon) (h : m s = .error e) : e.Canon := by
  have h' := hm s hs
  rwa [h] at h'

theorem pure {x : α} : CanonM (Pure.pure x : M α) := fun _ h => h

theorem getS : CanonM Machine.getS := fun _ h => h

theorem modS {f : State → State} (hf : ∀ s, s.canon → (f s).canon) : CanonM (Machine.modS f) := hf

theorem bind {m : M α} {f : α → M β} (hm : CanonM m) (hf : ∀ x, CanonM (f x)) : CanonM (m >>= f) := by
  intro s hs
  cases e : m s with
  | error x =>
    rw [M.bind_error e]
    exact hm.error hs e
  | ok p =>
    rw [M.bind_ok e]
    exact hf p.1 p.2 (hm.ok hs e)

/-- What follows a read of the state may use the state read: it is canonical. -/
theorem bindS {f : State → M α} (hf : ∀ s : State, s.canon → CanonM (f s)) : CanonM (Machine.getS >>= f) :=
  fun s hs => hf s hs s hs

theorem ite {c : Prop} [Decidable c] {m n : M α} (hm : CanonM m) (hn : CanonM n) : CanonM (if c then m else n) := by
  split
  · exact hm
  · exact hn

theorem dite {c : Prop} [Decidable c] {f : c → M α} {g : ¬ c → M α} (hf : ∀ h, CanonM (f h)) (hg : ∀ h, CanonM (g h)) :
    CanonM (if h : c then f h else g h) := by
  split
  · exact hf _
  · exact hg _

end CanonM

/-! ## What an instruction or an event answers -/

/-- An instruction or an event keeps the canonical form. -/
def CanonOut (f : State → Out) : Prop := ∀ s t : State, s.canon → f s = .next t → t.canon

namespace CanonOut

theorem event {d : State → Nat} {f : State → State} (hf : ∀ s, s.canon → (f s).canon) :
    CanonOut (fun s => Machine.event (d s) f s) := by
  intro s t hs e
  dsimp only at e
  unfold Machine.event at e
  split at e
  · cases e
  · cases e
    exact hf s hs

theorem service {f : State → State} (hf : ∀ s, s.canon → (f s).canon) : CanonOut (Machine.service f) :=
  event (d := fun _ => Config.infieldDie) fun s hs => hs.ite (hf s hs)

theorem fault {x : Fault} : CanonOut (fun _ => .fault x) := fun _ _ _ e => by cases e

theorem refused {x : Refusal} : CanonOut (fun _ => .refused x) := fun _ _ _ e => by cases e

theorem next {f : State → State} (hf : ∀ s, s.canon → (f s).canon) : CanonOut (fun s => .next (f s)) := by
  intro s t hs e
  cases e
  exact hf s hs

theorem same : CanonOut (fun s => .next s) := next fun _ h => h

end CanonOut

end Sys2Proof.Machine
end

section
/-! What each operation of the model does to the canonical form of memory: it keeps it (O3). A lemma has the name of the operation, and they
stand in the order of the model. -/
namespace Sys2Proof.Machine

/-! ## Reset -/

theorem State.canon.reset : State.reset.canon := reset_mem_wf

/-! ## Threads and places, waits, traps and ends of units -/

theorem CanonM.stop {α : Type} {x : Stop} (hx : x.Canon) : CanonM (Machine.stop x : M α) := fun _ _ => hx

theorem CanonM.trap {α : Type} {cause : Nat} {xvalue : Word} : CanonM (Machine.trap cause xvalue : M α) := fun _ _ => trivial

theorem CanonM.trapAt {α : Type} {cause : Nat} {xvalue : Word} : CanonM (Machine.trapAt cause xvalue : M α) := fun _ h => h

theorem CanonM.illegalOp {α : Type} {sub field : Nat} : CanonM (Machine.illegalOp sub field : M α) := .trap

theorem CanonM.badFormat {α : Type} {reason : Nat} : CanonM (Machine.badFormat reason : M α) := .trap

theorem CanonM.park {α : Type} {k : WaitKind} : CanonM (Machine.park k : M α) := fun _ h => h

theorem CanonM.leave {α : Type} : CanonM (Machine.leave : M α) := fun _ h => h

theorem CanonM.ensure {ok : Bool} {t : M Unit} (ht : CanonM t) : CanonM (Machine.ensure ok t) := .ite .pure ht

theorem CanonM.loopM {f : Nat → M Unit} (hf : ∀ i, CanonM (f i)) : ∀ {l : List Nat}, CanonM (Machine.loopM l f)
  | [] => .pure
  | i :: _ => .bind (hf i) fun _ => .loopM hf

theorem State.canon.setSlot {s : State} {t : Nat} {x : Slot} (h : s.canon) : (s.setSlot t x).canon := h.upd

theorem State.canon.setCore {s : State} {c : Nat} {x : Core} (h : s.canon) : (s.setCore c x).canon := h.upd

theorem State.canon.setCluster {s : State} {k : Nat} {x : Cluster} (h : s.canon) : (s.setCluster k x).canon := h.upd

theorem State.canon.setDie {s : State} {d : Nat} {x : Die} (h : s.canon) : (s.setDie d x).canon := h.upd

theorem State.canon.setJob {s : State} {j : Nat} {x : Option Job} (h : s.canon) : (s.setJob j x).canon := h.upd

theorem State.canon.modSlot {s : State} {t : Nat} {f : Slot → Slot} (h : s.canon) : (s.modSlot t f).canon := h.setSlot

theorem State.canon.modCore {s : State} {c : Nat} {f : Core → Core} (h : s.canon) : (s.modCore c f).canon := h.setCore

theorem State.canon.modCluster {s : State} {k : Nat} {f : Cluster → Cluster} (h : s.canon) : (s.modCluster k f).canon :=
  h.setCluster

theorem State.canon.modDie {s : State} {d : Nat} {f : Die → Die} (h : s.canon) : (s.modDie d f).canon := h.setDie

theorem State.canon.modJob {s : State} {j : Nat} {f : Job → Job} (h : s.canon) : (s.modJob j f).canon := by
  unfold State.modJob
  split
  · exact h
  · exact h.setJob

theorem State.canon.modBank {s : State} {c b : Nat} {f : Bank → Bank} (h : s.canon) : (s.modBank c b f).canon := h.modCore

theorem CanonM.myself : CanonM Machine.myself := fun _ h => h

theorem CanonM.modMe {f : Slot → Slot} : CanonM (Machine.modMe f) := .modS fun _ h => h.modSlot

theorem CanonM.modSp {f : Special → Special} : CanonM (Machine.modSp f) := .modMe

theorem CanonM.mergePts {n : Nat} : CanonM (Machine.mergePts n) := .modMe

theorem CanonM.pick : CanonM Machine.pick := fun _ h => h

theorem CanonM.await {k : WaitKind} : CanonM (Machine.await k) := by
  intro s h
  unfold Machine.await
  split
  · exact h
  · split
    · exact h
    · exact h

theorem CanonM.myWait : CanonM Machine.myWait := fun _ h => h

theorem CanonM.keepWait {f : Wait → Wait} : CanonM (Machine.keepWait f) := .modMe

theorem State.canon.modReg {s : State} {c b r : Nat} {f : SyncReg → SyncReg} (h : s.canon) : (s.modReg c b r f).canon :=
  h.modBank

theorem State.canon.modPort {s : State} {c b p : Nat} {f : Port → Port} (h : s.canon) : (s.modPort c b p f).canon :=
  .ite h.modCore h.modBank

theorem State.canon.putBack {s : State} {t : Nat} {l : Latch} (h : s.canon) : (s.putBack t l).canon := by
  unfold State.putBack
  split
  · exact h
  · exact h.modReg
  · exact h.modPort

theorem State.canon.unlist {s : State} {t : Nat} (h : s.canon) : (s.unlist t).canon :=
  .ite h.modBank.modCore.upd.modCluster h.modBank.modCore.upd

theorem State.canon.unopen {s : State} {t : Nat} (h : s.canon) : (s.unopen t).canon := by
  unfold State.unopen
  split
  · exact h
  · exact h.modCluster

theorem State.canon.undo {s : State} {t : Nat} (h : s.canon) : (s.undo t).canon :=
  .modSlot (.unlist (.unopen (.foldr h fun _ _ h => h.putBack)))

theorem State.canon.signal {s : State} {c b mask : Nat} {any : Bool} (h : s.canon) : (s.signal c b mask any).canon := h.upd

theorem State.canon.fillReg {s : State} {c b r : Nat} {v : Word} {stamp : Nat} (h : s.canon) : (s.fillReg c b r v stamp).canon :=
  h.modReg.signal

theorem State.canon.askMail {s : State} {t : Nat} (h : s.canon) : (s.askMail t).canon := h.modCore

theorem State.canon.doneMail {s : State} {t : Nat} (h : s.canon) : (s.doneMail t).canon := h.modCore

theorem State.canon.freeHeld {s : State} {x : Slot} {j : Nat} (h : s.canon) : (s.freeHeld x j).canon := h.upd

theorem State.canon.log {s : State} {d kind who data : Nat} (h : s.canon) : (s.log d kind who data).canon :=
  .ite h.modDie.upd h.modDie

theorem State.canon.dropOps {s : State} {t : Nat} (h : s.canon) : (s.dropOps t).canon := h.upd

theorem State.canon.deliver {s : State} {m : Msg} (h : s.canon) : (s.deliver m).canon := h.modPort.signal

theorem State.canon.tellStarter {s : State} {t : Nat} (h : s.canon) : (s.tellStarter t).canon := .ite h (.ite h.deliver h.upd)

theorem State.canon.endUnit {s : State} {t : Nat} {e : EndRec} (h : s.canon) : (s.endUnit t e).canon :=
  h.undo.dropOps.freeHeld.modSlot.tellStarter

theorem State.canon.failUnit {s : State} {t cause : Nat} (h : s.canon) : (s.failUnit t cause).canon :=
  .ite h.endUnit h.log.endUnit

theorem State.canon.enter {s : State} {t cause : Nat} {xvalue : Word} (h : s.canon) : (s.enter t cause xvalue).canon :=
  h.modSlot

theorem State.canon.takeTrap {s : State} {t cause : Nat} {xvalue : Word} {ok : Bool} (h : s.canon) :
    (s.takeTrap t cause xvalue ok).canon := .ite h.undo.enter h.undo.failUnit

theorem State.canon.trapReturn {s : State} {t : Nat} {x : Word} (h : s.canon) : (s.trapReturn t x).canon := h.modSlot

theorem State.canon.advance {s : State} {i : Instr} (h : s.canon) : (s.advance i).canon := h.modSlot

theorem State.canon.parkOn {s : State} {i : Instr} {k : WaitKind} (h : s.canon) : (s.parkOn i k).canon := h.modSlot

/-! ## Memory: translation, scratchpads, timestamps and caches -/

theorem CanonM.checkLocal {a : Int} {n : Nat} {wr : Bool} : CanonM (Machine.checkLocal a n wr) :=
  .bind .getS fun _ =>
  .ite .trap
    (by
      split
      · exact .pure
      · exact .trap)

theorem State.canon.installTlb {s : State} {c : Nat} {l : Leaf} (h : s.canon) : (s.installTlb c l).canon := h.modCore

theorem State.canon.noteRoute {s : State} {t : Nat} (h : s.canon) : (s.noteRoute t).canon := .ite h.upd h.log

theorem CanonM.noRoute {α : Type} {kind place : Nat} : CanonM (Machine.noRoute kind place : M α) :=
  .bind .myself fun _ => .ite (.stop fun _ h => h.noteRoute) (.stop fun _ h => h.noteRoute)

theorem CanonM.checkRoute {pa va : Nat} : CanonM (Machine.checkRoute pa va) := .bind .getS fun _ => .ite .pure .noRoute

theorem CanonM.replyRoute : CanonM Machine.replyRoute := .bind .getS fun _ => .ite .noRoute .pure

theorem CanonM.translate {va : Nat} {wr fetch : Bool} : CanonM (Machine.translate va wr fetch) :=
  .bind .getS fun _ => by
    dsimp only
    split
    · exact .pure
    · exact .bind .await fun _ =>
        .bind .getS fun _ =>
        .ite
          (by
            split
            · exact .trap
            · exact .bind (.modS fun _ h => h.installTlb.modDie) fun _ => .pure)
          (.bind .noRoute fun _ => by
              split
              · exact .trap
              · exact .bind (.modS fun _ h => h.installTlb.modDie) fun _ => .pure)

theorem State.canon.sample {s : State} {d j va : Nat} {hint : Bool} (h : s.canon) : (s.sample d j va hint).1.canon := by
  unfold State.sample
  split
  · exact h
  · exact h.modDie

theorem CanonM.sampled {va : Nat} {hint : Bool} : CanonM (Machine.sampled va hint) := fun _ h => h.sample

theorem CanonM.resolve {a : Int} {wr amo : Bool} : CanonM (Machine.resolve a wr amo) :=
  .bind .getS fun _ =>
  .ite .trap (.ite (.ite .trap (.ite .pure .pure)) (.bind .translate fun _ => .ite .trap (.ite .trap (.ite .trap .pure))))

theorem State.canon.stall {s : State} {c k : Nat} (h : s.canon) : (s.stall c k).canon := .ite h h.modCore

theorem State.canon.stallEngine {s : State} {c a n : Nat} (h : s.canon) : (s.stallEngine c a n).canon := .ite h.modCore h

theorem State.canon.notify {s : State} {space a n wts : Nat} (h : s.canon) : (s.notify space a n wts).canon := .ite h h.upd

theorem CanonM.boardPark {a n : Nat} : CanonM (Machine.boardPark a n) := .bind .getS fun _ => .ite .park .pure

theorem CanonM.spwLoad : CanonM Machine.spwLoad := .modS fun _ h => h.modSlot.modBank

theorem CanonM.spwStore : CanonM Machine.spwStore := .modS fun _ h => h.modSlot.modBank

theorem State.canon.raiseSpw {s : State} {c b n : Nat} (h : s.canon) : (s.raiseSpw c b n).canon := h.modBank

theorem State.canon.writeLocal {s : State} {t a n v : Nat} (h : s.canon) : (s.writeLocal t a n v).canon :=
  .ite h.modCore h.modSlot

theorem CanonM.dataLost {α : Type} {kind place : Nat} : CanonM (Machine.dataLost kind place : M α) := .trap

theorem CanonM.checkSpadPoison {a n : Nat} : CanonM (Machine.checkSpadPoison a n) :=
  .bind .getS fun _ =>
  .ite
    (by
      split
      · exact .dataLost
      · exact .pure)
    .pure

theorem CanonM.loadLocal {a n : Nat} : CanonM (Machine.loadLocal a n) :=
  .bind .boardPark fun _ =>
  .bind .checkSpadPoison fun _ =>
  .bind .spwLoad fun _ => .bind .getS fun _ => .ite (.bind (.modS fun _ h => h.stall) fun _ => .pure) .pure

theorem CanonM.storeLocal {a n v : Nat} : CanonM (Machine.storeLocal a n v) :=
  .bind .boardPark fun _ => .bind .spwStore fun _ => .modS fun _ h => .notify (.writeLocal (.ite h.stall h))

theorem State.canon.setPair {s : State} {pa : Nat} {p : Pair} (h : s.canon) : (s.setPair pa p).canon := h.upd

theorem State.canon.renew {s : State} {j pa kept : Nat} (h : s.canon) : (s.renew j pa kept).1.canon := h.setPair

theorem CanonM.checkPoison {pa va n : Nat} {wr : Bool} : CanonM (Machine.checkPoison pa va n wr) :=
  .bind .getS fun _ =>
  .ite .dataLost
    (.ite .park
        (.ite .pure
            (by
              split
              · exact .dataLost
              · exact .pure)))

theorem CanonM.entryReady {k : WaitKind} {pa : Nat} : CanonM (Machine.entryReady k pa) := .bind .getS fun _ => .ite .park .pure

theorem State.canon.fillBoth {s : State} {c : Nat} {k : LineCopy} (h : s.canon) : (s.fillBoth c k).canon := h.modCore.modDie

theorem State.canon.llcFill {s : State} {pa : Nat} {cols : Bool} (h : s.canon) : (s.llcFill pa cols).canon := by
  unfold State.llcFill
  split
  · exact h
  · exact .ite h.upd h

theorem State.canon.llcDirty {s : State} {pa n : Nat} (h : s.canon) : (s.llcDirty pa n).canon := by
  unfold State.llcDirty
  dsimp only
  split
  · exact h.llcFill
  · exact h.llcFill.upd

theorem State.canon.sendCrossing {s : State} {pa : Nat} (h : s.canon) : (s.sendCrossing pa).canon := .ite h.upd h

theorem CanonM.loadCached {pa va n : Nat} {hint : Bool} : CanonM (Machine.loadCached pa va n hint) := by
  have hr : ∀ {s : State} {j c kept : Nat} {b : Bool}, s.canon → State.canon (
      let (s', t, k) := s.renew j pa kept
      let s' := (s'.modSlot s.cur fun x => { x with pts := t }).fillBoth c k
      if b then s' else s'.llcFill pa false) := fun {s j c kept b} h =>
    .ite (.fillBoth (.modSlot (h.renew (kept := kept)))) (.llcFill (.fillBoth (.modSlot (h.renew (kept := kept)))))
  refine .bind .getS fun s => .ite ?_ (.bind .entryReady fun _ => .bind .await fun _ => .bind .checkRoute fun _ =>
    .bind .sampled fun _ => .bind (.modS fun _ h => .llcFill (.modSlot (h.renew (kept := 0)))) fun _ => .pure)
  split
  · exact .bind .sampled fun _ => .bind .mergePts fun _ => .pure
  · refine .bind .entryReady fun _ => .bind .await fun _ => ?_
    split
    · exact .bind .sampled fun _ => .bind .mergePts fun _ => .bind (.modS fun _ h => h.modCore) fun _ => .pure
    · exact .ite (.bind .sampled fun _ => .bind (.modS fun _ h => hr h) fun _ => .pure)
        (.bind .checkRoute fun _ => .bind .sampled fun _ => .bind (.modS fun _ h => hr h) fun _ => .pure)

theorem State.canon.storeAt {s : State} {pa n v pts scope who owner : Nat} (h : s.canon) :
    (s.storeAt pa n v pts scope who owner).1.canon := h.setPair.written.sendCrossing.notify

theorem State.canon.dropColumns {s : State} {d sq : Nat} (h : s.canon) : (s.dropColumns d sq).canon := h.modDie

theorem CanonM.storePair {pa n v scope : Nat} : CanonM (Machine.storePair pa n v scope) :=
  .modS fun _ h => .modSlot (.ite h.storeAt.dropColumns h.storeAt)

theorem State.canon.keepOwn {s : State} {old : Pair} {j pa n t scope kept : Nat} (h : s.canon) :
    (s.keepOwn old j pa n t scope kept).canon := .ite (.llcDirty (.ite h.modCore.modDie h)) (.ite h.modCore.modDie h)

theorem CanonM.storeCached {pa va n v scope : Nat} {hint : Bool} : CanonM (Machine.storeCached pa va n v scope hint) :=
  .bind .sampled fun _ => .bind .getS fun _ => .bind .storePair fun _ => .modS fun _ h => h.keepOwn

theorem CanonM.loadHome {pa n : Nat} : CanonM (Machine.loadHome pa n) :=
  .bind .getS fun _ => .bind (.modS fun _ h => h.setPair.modSlot) fun _ => .pure

theorem State.canon.hostPut {s : State} {pa n v : Nat} (h : s.canon) : (s.hostPut pa n v).canon := h.upd

theorem CanonM.hostLoad {pa va n : Nat} : CanonM (Machine.hostLoad pa va n) :=
  .bind .await fun _ => .bind .checkRoute fun _ => .bind .sampled fun _ => .bind .getS fun _ => .pure

theorem CanonM.hostStore {pa va n v : Nat} : CanonM (Machine.hostStore pa va n v) :=
  .bind .await fun _ => .bind .checkRoute fun _ => .bind .sampled fun _ => .modS fun _ h => h.hostPut

/-! ## Operands -/

theorem CanonM.readG {n : BitVec 5} : CanonM (Machine.readG n) := fun _ h => h

theorem CanonM.writeG {n : BitVec 5} {v : Word} : CanonM (Machine.writeG n v) := .modMe

theorem CanonM.readV {n : BitVec 4} : CanonM (Machine.readV n) := fun _ h => h

theorem CanonM.writeV {n : BitVec 4} {v : Row} : CanonM (Machine.writeV n v) := .modMe

theorem CanonM.readK {n : BitVec 3} : CanonM (Machine.readK n) := fun _ h => h

theorem CanonM.writeK {n : BitVec 3} {v : Word} : CanonM (Machine.writeK n v) := .modMe

theorem CanonM.mailTrip : CanonM Machine.mailTrip :=
  .bind .getS fun _ => .ite (.ite (.modS fun _ h => h.upd.doneMail) (.bind (.modS fun _ h => h.askMail) fun _ => .park)) .pure

theorem CanonM.modMyReg {r : Nat} {f : SyncReg → SyncReg} : CanonM (Machine.modMyReg r f) := .modS fun _ h => h.modReg

theorem CanonM.tripFor {r : Nat} : CanonM (Machine.tripFor r) := .ite .mailTrip .pure

theorem CanonM.staysAsked {r : Nat} : CanonM (Machine.staysAsked r) := .modS fun _ h => .ite h.askMail h

theorem CanonM.readShared {r : Nat} : CanonM (Machine.readShared r) :=
  .bind .tripFor fun _ => .bind .getS fun _ => .bind .mergePts fun _ => .pure

theorem CanonM.takeShared {r : Nat} : CanonM (Machine.takeShared r) :=
  .bind .tripFor fun _ =>
  .bind .getS fun _ =>
  .ite (.bind .modMyReg fun _ => .bind .mergePts fun _ => .pure) (.bind .modMyReg fun _ => .bind .staysAsked fun _ => .park)

theorem CanonM.fillShared {r : Nat} {v : Word} : CanonM (Machine.fillShared r v) := .modS fun _ h => h.fillReg

theorem CanonM.writeShared {r : Nat} {v : Word} : CanonM (Machine.writeShared r v) :=
  .bind .getS fun _ => .ite (.bind (.modS fun _ h => h.modSlot.askMail) fun _ => .park) .fillShared

theorem CanonM.sfillShared {r : Nat} {v : Word} : CanonM (Machine.sfillShared r v) :=
  .bind .tripFor fun _ =>
  .bind .getS fun _ => .ite (.bind .modMyReg fun _ => .fillShared) (.bind .modMyReg fun _ => .bind .staysAsked fun _ => .park)

theorem CanonM.takePort {p n : Nat} : CanonM (Machine.takePort p n) :=
  .bind .getS fun _ =>
  .ite
    (by
      split
      · exact .park
      · exact .bind (.modS fun _ h => h.modPort) fun _ => .bind .mergePts fun _ => .pure)
    (.bind (.modS fun _ h => h.modPort) fun _ => .park)

theorem CanonM.latchOp {f : Nat} {v : Word} {how : Taken} : CanonM (Machine.latchOp f v how) := .modMe

theorem CanonM.readSrcN {f : Nat} {a : Src} {n : Nat} : CanonM (Machine.readSrcN f a n) := by
  unfold Machine.readSrcN
  split
  · exact .readG
  · exact .bind .myself fun _ => by
        split
        · exact .pure
        · split
          · exact .readG
          · exact .bind .readShared fun _ => .bind .latchOp fun _ => .pure
          · exact .bind .readShared fun _ => .bind .latchOp fun _ => .pure
          · exact .bind .takeShared fun _ => .bind .latchOp fun _ => .pure
          · exact .bind .takeShared fun _ => .bind .latchOp fun _ => .pure
          · exact .bind .takePort fun _ => .bind .latchOp fun _ => .pure

theorem CanonM.readSrc {f : Nat} {a : Src} : CanonM (Machine.readSrc f a) := .readSrcN

theorem CanonM.readAB {a b : Src} : CanonM (Machine.readAB a b) := .bind .readSrcN fun _ => .bind .readSrc fun _ => .pure

theorem CanonM.readSR {f : Nat} {x : SReg} : CanonM (Machine.readSR f x) := by
  unfold Machine.readSR
  split
  · exact .readG
  · exact .readSrc
  · exact .readSrc

theorem CanonM.writeSR {x : SReg} {y : Word} : CanonM (Machine.writeSR x y) := by
  unfold Machine.writeSR
  split
  · exact .writeG
  · exact .writeShared
  · exact .writeShared

theorem CanonM.readVSrc {w : Nat} {x : VSrc} : CanonM (Machine.readVSrc w x) := by
  unfold Machine.readVSrc
  split
  · exact .bind .readV fun _ => .pure
  · exact .bind .readSrc fun _ => .pure

theorem CanonM.writeMasked {d : BitVec 4} {k : BitVec 3} {new : Row} : CanonM (Machine.writeMasked d k new) :=
  .bind .readK fun _ => .bind .readV fun _ => .writeV

/-! ## Frames, pages and aliases -/

theorem State.canon.freshFrame {s : State} {f : Nat} (h : s.canon) {p : State × Nat} (e : s.freshFrame f = some p) : p.1.canon := by
  unfold State.freshFrame at e
  split at e
  · cases e
  · cases e
    exact wf_filter _ h

theorem State.canon.takeFrame {s : State} (h : s.canon) {p : State × Nat} (e : s.takeFrame = some p) : p.1.canon := by
  unfold State.takeFrame at e
  dsimp only at e
  split at e
  · cases e
  · exact State.canon.freshFrame (s := { s with picks := s.picks.tail }) h e

theorem State.canon.nextFrame {s : State} (h : s.canon) {p : State × Nat} (e : s.nextFrame = some p) : p.1.canon := h.freshFrame e

theorem State.canon.tableFor {take : State → Option (State × Nat)} (ht : ∀ s p, s.canon → take s = some p → p.1.canon)
    {va fuel : Nat} : ∀ {s : State} {lvl tab : Nat}, s.canon →
      ∀ {p : State × Nat}, s.tableFor take va fuel lvl tab = some p → p.1.canon := by
  induction fuel with
  | zero =>
    intro s lvl tab h p e
    cases e
    exact h
  | succ fuel ih =>
    intro s lvl tab h p e
    unfold State.tableFor at e
    dsimp only at e
    generalize tab + 8 * (if lvl = 0 then fieldN va 39 16 else fieldN va (12 + 9 * (3 - lvl)) 9) = a at e
    split at e
    · split at e
      · cases e
      · exact ih h e
    · split at e
      · cases e
      · next e1 => exact ih (.withMem (wf_writeN _ _ _ (ht _ _ h e1))) e

theorem State.canon.mapPage {s : State} {take : State → Option (State × Nat)} {root va : Nat} {w x : Bool} (h : s.canon)
    (ht : ∀ s p, s.canon → take s = some p → p.1.canon) {p : State × Nat} (e : s.mapPage take root va w x = some p) : p.1.canon := by
  unfold State.mapPage at e
  split at e
  · cases e
  · next e1 =>
    have h1 := State.canon.tableFor ht h e1
    dsimp only at e
    split at e
    · cases e
    · split at e
      · cases e
      · next e2 =>
        cases e
        exact wf_writeN _ _ _ (ht _ _ h1 e2)

theorem State.canon.dropLeaves {s : State} {d j va n : Nat} (h : s.canon) : (s.dropLeaves d j va n).canon := h.modDie.upd

theorem State.canon.dropAll {s : State} {j va n : Nat} (h : s.canon) : (s.dropAll j va n).canon :=
  .foldl h fun _ _ h => h.dropLeaves

theorem State.canon.moveBytes {s : State} {a b n : Nat} (h : s.canon) : (s.moveBytes a b n).canon :=
  List.foldlRecOn (motive := fun m : SMap Byte => Memory.wf m = true) _ _ (wf_filter _ h) fun _ hm _ _ => wf_set _ _ hm

theorem State.canon.releaseErrors {s : State} (h : s.canon) : (s.releaseErrors).canon := h.upd

theorem State.canon.takeEffect {s : State} {j : Nat} {w : Shoot} (h : s.canon) : (s.takeEffect j w).canon := by
  have hm : (w.move.foldl (fun (s : State) m => s.moveBytes m.1 m.2.1 m.2.2) s).canon := h.foldl fun _ _ h => h.moveBytes
  have he : Memory.wf (w.ents.foldl (fun m e => writeN m e.1 8 e.2)
      (w.move.foldl (fun (s : State) m => s.moveBytes m.1 m.2.1 m.2.2) s).mem) = true :=
    List.foldlRecOn (motive := fun m : SMap Byte => Memory.wf m = true) _ _ hm fun _ hm _ _ => wf_writeN _ _ _ hm
  unfold State.takeEffect
  dsimp only
  split
  · exact .releaseErrors (.modJob (.dropAll (.withMem he)))
  · exact .releaseErrors (.upd (.modJob (.dropAll (.withMem he))))

theorem State.canon.endShoot {s : State} {j : Nat} (h : s.canon) : (s.endShoot j).canon := by
  unfold State.endShoot
  split
  · exact h
  · exact .ite h.takeEffect h

theorem State.canon.ackShoot {s : State} {d j : Nat} (h : s.canon) : (s.ackShoot d j).canon := by
  unfold State.ackShoot
  split
  · exact h
  · exact .ite h h.dropLeaves.modJob

theorem State.canon.changeMap {s : State} {j : Nat} {w : Shoot} (h : s.canon) : (s.changeMap j w).canon :=
  .ite (.endShoot (.foldl h.modJob fun _ _ h => h.ackShoot)) h.modJob

theorem State.canon.mapAlias {s : State} {j va n : Nat} (h : s.canon) {u : State} (e : s.mapAlias j va n = some u) : u.canon := by
  unfold State.mapAlias at e
  split at e
  · cases e
  · refine foldl_some h (fun o i r ho hr => ?_) e
    cases o with
    | none => cases hr
    | some t =>
      simp only [Option.bind_some, Option.map_eq_some_iff] at hr
      obtain ⟨p, hp, rfl⟩ := hr
      exact (ho t rfl).mapPage (fun _ _ h e => h.nextFrame e) hp

theorem State.canon.unmapAlias {s : State} {j va n : Nat} (h : s.canon) : (s.unmapAlias j va n).canon := h.changeMap

theorem State.canon.moveAlias {s : State} {j va n stack : Nat} (h : s.canon) {u : State} (e : s.moveAlias j va n stack = some u) :
    u.canon := by
  obtain ⟨b, -, rfl⟩ := Option.map_eq_some_iff.mp e
  exact h.changeMap

theorem State.canon.orient {s : State} {q : Nat} (h : s.canon) : (s.orient q).canon := .ite h h.upd

theorem State.canon.disorient {s : State} {q : Nat} (h : s.canon) : (s.disorient q).canon := .ite h.upd h

theorem State.canon.remark {s : State} {old new : Tensor} (h : s.canon) : (s.remark old new).canon :=
  .foldl (.foldl h fun _ _ h => h.disorient) fun _ _ h => h.orient

theorem State.canon.tensFill {s : State} {d T : Nat} {k : TensLine} (h : s.canon) : (s.tensFill d T k).canon :=
  h.setPair.modDie.llcFill

theorem State.canon.tensRead {s : State} {d T : Nat} {ks : List TensLine} (h : s.canon) : (s.tensRead d T ks).canon :=
  .ite (.foldl h fun _ _ h => h.tensFill) h

theorem State.canon.llcMerge {s : State} {pa n : Nat} (h : s.canon) : (s.llcMerge pa n).canon := by
  unfold State.llcMerge
  split
  · exact h
  · exact h.upd

theorem State.canon.tensWritten {s : State} {rs : List (Nat × Nat)} (h : s.canon) : (s.tensWritten rs).canon :=
  .upd (.upd (.foldl (.ite h (.foldl h fun _ _ h => h.llcMerge)) fun _ _ h => h.upd))

/-! ## Tensors: placement and re-representation -/

theorem State.canon.modTensor {s : State} {j i : Nat} {f : Tensor → Tensor} (h : s.canon) : (s.modTensor j i f).canon :=
  h.modJob

theorem State.canon.settleTensor {s : State} {j i : Nat} (h : s.canon) : (s.settleTensor j i).canon :=
  .ite h (.ite h.modTensor.remark.unmapAlias h.modTensor.remark)

theorem State.canon.settleIf {s : State} {j i : Nat} (h : s.canon) : (s.settleIf j i).canon := .ite h.settleTensor h

theorem State.canon.publishRerep {s : State} {j i : Nat} (h : s.canon) : (s.publishRerep j i).canon := h.modTensor.remark

theorem State.canon.convert {j i n : Nat} : ∀ {s : State}, s.canon → (s.convert j i n).canon := by
  induction n with
  | zero => exact fun h => h
  | succ n ih =>
    intro s h
    unfold State.convert
    split
    · exact ih h.modTensor.publishRerep.settleTensor
    · exact h

theorem State.canon.convertOwn {s : State} {t : Nat} (h : s.canon) : (s.convertOwn t).canon := by
  unfold State.convertOwn
  split
  · exact h
  · exact .foldl h fun _ _ h => h.convert

theorem State.canon.moveTensor {s : State} {j i cls form hint : Nat} {stack : Option Nat} (h : s.canon) {u : State}
    (e : s.moveTensor j i cls form hint stack = some u) : u.canon := by
  unfold State.moveTensor at e
  dsimp only at e
  split at e
  · obtain ⟨b, -, rfl⟩ := Option.map_eq_some_iff.mp e
    exact h.modTensor
  · cases e

/-! ## Targets of transfers; running one instruction -/

theorem State.canon.logFetch {s : State} {t c : Nat} {x : Word} (h : s.canon) : (s.logFetch t c x).canon := .ite h.noteRoute h

theorem CanonM.checkTarget {a : Nat} : CanonM (Machine.checkTarget a) :=
  .bind .getS fun _ => by
    split
    · exact .pure
    · exact .stop fun _ h => h.logFetch

theorem State.canon.jump {s : State} {a : Nat} (h : s.canon) : (s.jump a).canon := h.modSlot

theorem CanonM.transfer {a : Nat} : CanonM (Machine.transfer a) :=
  .bind .checkTarget fun _ => .bind (.modS fun _ h => h.jump) fun _ => .leave

theorem State.canon.trapMe {s : State} {c : Nat} {x : Word} (h : s.canon) : (s.trapMe c x).canon := h.upd.dropOps.takeTrap

theorem State.canon.mailDone {s : State} {i : Instr} {r : Nat} {v : Word} (h : s.canon) : (s.mailDone i r v).canon :=
  .ite h.upd.doneMail.fillReg.advance h.askMail.parkOn

/-- The same where the instruction looks at the state that it starts from. -/
theorem CanonOut.runS {i : Instr} {m : State → M Unit} (hm : ∀ s, s.canon → CanonM (m s)) :
    CanonOut (fun s => Machine.run i (m s) s) := by
  intro s t h e
  dsimp only at e
  unfold Machine.run at e
  split at e
  · cases e
  · split at e
    · cases e
      exact h.mailDone
    · split at e <;> cases e
      · next e1 => exact ((hm s h).ok h e1).advance
      · exact h.trapMe
      · next e1 => exact State.canon.trapMe ((hm s h).error h e1 _ h)
      · next e1 => exact State.canon.trapMe ((hm s h).error h e1)
      · next e1 => exact State.canon.parkOn ((hm s h).error h e1)
      · next e1 => exact (hm s h).error h e1

theorem CanonOut.run {i : Instr} {m : M Unit} (hm : CanonM m) : CanonOut (Machine.run i m) := .runS fun _ _ => hm

/-! ## Batons and crews -/

theorem CanonM.reportFail {l : List (Nat × Nat)} : CanonM (Machine.reportFail l) := by
  unfold Machine.reportFail
  split
  · exact .pure
  · exact .stop fun _ h => h.modSlot

theorem CanonM.waitQuiet {k : WaitKind} : CanonM (Machine.waitQuiet k) :=
  .bind (.modS fun _ h => .ite h.convertOwn h) fun _ => .bind .getS fun _ => .ite .reportFail .park

theorem State.canon.depart {s : State} {t dest addr : Nat} (h : s.canon) : (s.depart t dest addr).canon := h.modSlot.upd

theorem CanonM.migrate {α : Type} {dest : Nat} {a : Int} {crew : Bool} : CanonM (Machine.migrate dest a crew : M α) :=
  .bind .getS fun _ =>
  .ite .trap
    (.ite .trap
        (.ite .trap
            (.ite .trap
                (.ite .trap (.bind .waitQuiet fun _ => .bind .modMe fun _ => .bind (.modS fun _ h => h.depart) fun _ => .leave)))))

theorem State.canon.sendAnswer {s : State} {b : Baton} {v : Option Nat} (h : s.canon) : (s.sendAnswer b v).canon := h.upd

theorem State.canon.countMigr {s : State} {c : Nat} (h : s.canon) : (s.countMigr c).canon := h.modCore

theorem State.canon.land {s : State} {b : Baton} (h : s.canon) : (s.land b).canon :=
  .ite h.sendAnswer (.ite h.modCore (.ite h.modCore.countMigr.sendAnswer h.sendAnswer))

theorem State.canon.accepts {s : State} {c : Nat} {b : Baton} (h : s.canon) : (s.accepts c b).canon :=
  .ite h h.countMigr.sendAnswer

theorem State.canon.placeAll {c : Nat} {l : List Baton} : ∀ {s : State}, s.canon → (s.placeAll c l).1.canon := by
  induction l with
  | nil => exact fun h => h
  | cons b l ih =>
    intro s h
    unfold State.placeAll
    split
    · exact ih h
    · exact ih h.setSlot.accepts

theorem State.canon.bufferAll {c : Nat} {l : List Baton} : ∀ {s : State} {room : Nat}, s.canon → (s.bufferAll c room l).1.canon := by
  induction l with
  | nil =>
    intro s room h
    unfold State.bufferAll
    exact h
  | cons b l ih =>
    intro s room h
    unfold State.bufferAll
    split
    · exact ih h
    · split
      · exact ih h.sendAnswer
      · exact ih h.accepts

theorem State.canon.placeBatons {s : State} {c : Nat} (h : s.canon) : (s.placeBatons c).canon := h.placeAll.bufferAll.modCore

theorem State.canon.hear {s : State} {b : Baton} (h : s.canon) : (s.hear b).canon := by
  unfold State.hear
  split
  · exact h.setSlot
  · exact h.modSlot.takeTrap

theorem State.canon.crewLand {s : State} {b : Baton} (h : s.canon) : (s.crewLand b).canon :=
  .ite h.sendAnswer
    (by
      dsimp only
      split
      · exact .ite h.sendAnswer
            (by
              split
              · exact h.sendAnswer
              · exact h.setSlot.modCore)
      · exact .ite h.modCore.sendAnswer
            (by
              split
              · exact .sendAnswer (.foldl h fun _ _ h => h.setSlot)
              · exact .modCore (.setSlot (.foldl h fun _ _ h => h.setSlot))))

theorem State.canon.startCrews {s : State} {c : Nat} (h : s.canon) : (s.startCrews c).canon :=
  .modCore (.foldl h fun _ _ h => .foldl h fun _ _ h => .ite h.modSlot.countMigr h.modSlot.countMigr.setSlot)

theorem State.canon.arrive {s : State} {b : Baton} (h : s.canon) : (s.arrive b).canon :=
  .ite h.log.sendAnswer (.ite h.crewLand h.land)

theorem State.canon.refuseCrew {s : State} {c : Nat} {a : CrewAdm} (h : s.canon) : (s.refuseCrew c a).canon :=
  .modCore (.foldl (.foldl h fun _ _ h => h.setSlot.sendAnswer) fun _ _ h => h.setSlot)

/-! ## Data accesses -/

theorem CanonM.aligned {a : Int} {n : Nat} : CanonM (Machine.aligned a n) := .ite .pure .trap

theorem CanonM.placeOf {glb : Bool} {a : Int} {n : Nat} {wr amo : Bool} : CanonM (Machine.placeOf glb a n wr amo) :=
  .ite
    (.bind .resolve fun _ =>
      .bind .getS fun _ => by
        split
        · exact .pure
        · exact .pure
        · exact .ite .pure (.ite (.ite .pure .pure) .pure))
    (.bind .checkLocal fun _ => .pure)

theorem CanonM.access {glb : Bool} {a : Int} {n align : Nat} {wr amo : Bool} : CanonM (Machine.access glb a n align wr amo) :=
  .bind .aligned fun _ =>
  .bind .placeOf fun _ => by
    split
    · exact .pure
    · exact .migrate

theorem CanonM.loadT {t : Target} {n : Nat} {hint : Bool} : CanonM (Machine.loadT t n hint) := by
  unfold Machine.loadT
  split
  · exact .loadLocal
  · exact .bind .checkPoison fun _ => .loadCached
  · exact .bind .checkPoison fun _ =>
      .bind .entryReady fun _ => .bind .await fun _ => .bind .checkRoute fun _ => .bind .sampled fun _ => .loadHome
  · exact .hostLoad

theorem CanonM.storeGate {pa va n : Nat} {wr : Bool} : CanonM (Machine.storeGate pa va n wr) :=
  .bind .getS fun _ => .ite .park (.bind .checkPoison fun _ => .bind .entryReady fun _ => .bind .await fun _ => .checkRoute)

theorem CanonM.storeT {t : Target} {n v scope : Nat} {hint : Bool} : CanonM (Machine.storeT t n v scope hint) := by
  unfold Machine.storeT
  split
  · exact .storeLocal
  · exact .bind .storeGate fun _ => .storeCached
  · exact .bind .storeGate fun _ => .bind .sampled fun _ => .storePair
  · exact .hostStore

theorem CanonM.updateT {t : Target} {n scope : Nat} {f : Nat → Nat} : CanonM (Machine.updateT t n scope f) := by
  unfold Machine.updateT
  split
  · exact .bind .boardPark fun _ =>
      .bind .checkSpadPoison fun _ =>
      .bind .spwStore fun _ => .bind .getS fun _ => .bind (.modS fun _ h => h.writeLocal.notify) fun _ => .pure
  · exact .bind .storeGate fun _ => .bind .getS fun _ => .bind .storeCached fun _ => .pure
  · exact .bind .storeGate fun _ => .bind .sampled fun _ => .bind .getS fun _ => .bind .storePair fun _ => .pure
  · exact .bind .getS fun _ => .bind .hostStore fun _ => .pure

theorem CanonM.behalf {a : Int} {wr : Bool} : CanonM (Machine.behalf a wr) :=
  .bind .resolve fun _ => by
    split
    · exact .pure
    · exact .pure
    · exact .ite .pure (.ite .pure .pure)

theorem CanonM.behalfLoad {a : Int} {n : Nat} : CanonM (Machine.behalfLoad a n) :=
  .bind .behalf fun _ => by
    split
    · exact .loadT
    · exact .bind .getS fun _ =>
        .ite
          (.bind .park fun _ =>
            .bind .await fun _ =>
            .bind .getS fun _ =>
            .bind (.ensure .noRoute) fun _ => by
              split
              · exact .dataLost
              · exact .bind (.modS fun _ h => h.modSlot.raiseSpw) fun _ => .pure)
          (.bind .await fun _ =>
            .bind .getS fun _ =>
            .bind (.ensure .noRoute) fun _ => by
              split
              · exact .dataLost
              · exact .bind (.modS fun _ h => h.modSlot.raiseSpw) fun _ => .pure)

theorem State.canon.windowPut {s : State} {c off n v : Nat} (h : s.canon) : (s.windowPut c off n v).canon :=
  h.modSlot.raiseSpw.modCore.notify

theorem CanonM.behalfGate {p : Target ⊕ (Nat × Nat)} {a n : Nat} : CanonM (Machine.behalfGate p a n) :=
  .bind .getS fun _ => by
    split
    · exact .boardPark
    · exact .ite (.bind .park fun _ => .bind .checkPoison fun _ => .bind .entryReady fun _ => .checkRoute)
          (.bind .checkPoison fun _ => .bind .entryReady fun _ => .checkRoute)
    · exact .ite (.bind .park fun _ => .bind .checkPoison fun _ => .bind .entryReady fun _ => .checkRoute)
          (.bind .checkPoison fun _ => .bind .entryReady fun _ => .checkRoute)
    · exact .checkRoute
    · exact .ensure .noRoute

theorem CanonM.behalfPut {p : Target ⊕ (Nat × Nat)} {n v : Nat} : CanonM (Machine.behalfPut p n v) := by
  unfold Machine.behalfPut
  split
  · exact .storeLocal
  · exact .storeCached
  · exact .bind .sampled fun _ => .storePair
  · exact .bind .sampled fun _ => .modS fun _ h => h.hostPut
  · exact .modS fun _ h => h.windowPut

theorem CanonM.behalfStore {a : Int} {n v : Nat} : CanonM (Machine.behalfStore a n v) :=
  .bind .behalf fun _ => by
    split
    · exact .storeT
    · exact .bind .await fun _ => .bind .getS fun _ => .bind (.ensure .noRoute) fun _ => .modS fun _ h => h.windowPut

theorem CanonM.keepDone {α : Type} {m : M α} (hm : CanonM m) : CanonM (Machine.keepDone m) := by
  intro s h
  unfold Machine.keepDone
  split
  · exact h
  · exact hm s h

/-! ## Vector and conversion instructions -/

theorem CanonM.vec2 {o : V3} {f : Nat → Nat → Nat → Nat} : CanonM (Machine.vec2 o f) :=
  .bind .readV fun _ => .bind .readVSrc fun _ => .writeMasked

theorem CanonM.vec3 {o : V3} {f : Nat → Nat → Nat → Nat → Nat} : CanonM (Machine.vec3 o f) :=
  .bind .readV fun _ => .bind .readVSrc fun _ => .bind .readV fun _ => .writeMasked

theorem CanonM.vec1 {o : V2} {f : Nat → Nat → Nat} : CanonM (Machine.vec1 o f) := .bind .readV fun _ => .writeMasked

theorem CanonM.myRnd {rm : Option RMode} : CanonM (Machine.myRnd rm) := .bind .myself fun _ => .pure

theorem CanonOut.execVadd {o : V3} {rm : Option RMode} {sat : Bool} : CanonOut (Machine.execVadd o rm sat) :=
  .run (.bind .myRnd fun _ => .vec2)

theorem CanonOut.execVsub {o : V3} {rm : Option RMode} {sat : Bool} : CanonOut (Machine.execVsub o rm sat) :=
  .run (.bind .myRnd fun _ => .vec2)

theorem CanonOut.execVmul {o : V3} {rm : Option RMode} {sat : Bool} : CanonOut (Machine.execVmul o rm sat) :=
  .run (.bind .myRnd fun _ => .vec2)

theorem CanonOut.execVfma {o : V3} {rm : Option RMode} {sat : Bool} : CanonOut (Machine.execVfma o rm sat) :=
  .run (.bind .myRnd fun _ => .vec3)

theorem CanonOut.execVmin {o : V3} : CanonOut (Machine.execVmin o) := .run .vec2

theorem CanonOut.execVmax {o : V3} : CanonOut (Machine.execVmax o) := .run .vec2

theorem CanonOut.execVabs {o : V2} {sat : Bool} : CanonOut (Machine.execVabs o sat) := .run .vec1

theorem CanonOut.execVneg {o : V2} {sat : Bool} : CanonOut (Machine.execVneg o sat) := .run .vec1

theorem CanonOut.execVand {o : V3} : CanonOut (Machine.execVand o) := .run .vec2

theorem CanonOut.execVor {o : V3} : CanonOut (Machine.execVor o) := .run .vec2

theorem CanonOut.execVxor {o : V3} : CanonOut (Machine.execVxor o) := .run .vec2

theorem CanonOut.execVshl {o : V3} : CanonOut (Machine.execVshl o) := .run .vec2

theorem CanonOut.execVshr {o : V3} : CanonOut (Machine.execVshr o) := .run .vec2

theorem CanonOut.execVsar {o : V3} : CanonOut (Machine.execVsar o) := .run .vec2

theorem CanonOut.execVcmp {d : BitVec 3} {c : VCond} {a : BitVec 4} {b : VSrc} {k : BitVec 3}
    {ty : Ty} : CanonOut (Machine.execVcmp d c a b k ty) :=
  .run (.bind .readV fun _ => .bind .readVSrc fun _ => .bind .readK fun _ => .writeK)

theorem CanonOut.execVsel {o : V3} {km : BitVec 3} : CanonOut (Machine.execVsel o km) :=
  .run (.bind .readV fun _ => .bind .readVSrc fun _ => .bind .readK fun _ => .writeMasked)

theorem CanonOut.execVmov {d : BitVec 4} {b : VSrc} {k : BitVec 3} {ty : Ty} : CanonOut (Machine.execVmov d b k ty) :=
  .run (.bind .readVSrc fun _ => .writeMasked)

theorem CanonOut.execVbcast {d a : BitVec 4} {i : Src} {k : BitVec 3} {ty : Ty} : CanonOut (Machine.execVbcast d a i k ty) :=
  .run (.bind .readV fun _ => .bind .readSrc fun _ => .writeMasked)

theorem CanonOut.execVext {d : SReg} {a : BitVec 4} {i : Src} {ty : Ty} : CanonOut (Machine.execVext d a i ty) :=
  .run (.bind .readV fun _ => .bind .readSrc fun _ => .writeSR)

theorem CanonOut.execVins {d : BitVec 4} {a i : Src} {ty : Ty} : CanonOut (Machine.execVins d a i ty) :=
  .run (.bind .readAB fun _ => .bind .readV fun _ => .writeV)

theorem CanonOut.execVred {d : SReg} {op : RedOp} {a : BitVec 4} {k : BitVec 3} {ty : Ty}
    {rm : Option RMode} : CanonOut (Machine.execVred d op a k ty rm) :=
  .run (.bind .myRnd fun _ => .bind .readV fun _ => .bind .readK fun _ => .writeSR)

theorem CanonOut.execVidx {d : BitVec 4} {a b : Src} {k : BitVec 3} {ty : Ty} : CanonOut (Machine.execVidx d a b k ty) :=
  .run (.bind .readAB fun _ => .writeMasked)

theorem CanonOut.execVrcp {o : V2} {rm : Option RMode} : CanonOut (Machine.execVrcp o rm) := .run (.bind .myRnd fun _ => .vec1)

theorem CanonOut.execVrsq {o : V2} {rm : Option RMode} : CanonOut (Machine.execVrsq o rm) := .run (.bind .myRnd fun _ => .vec1)

theorem CanonOut.execVexp2 {o : V2} {rm : Option RMode} : CanonOut (Machine.execVexp2 o rm) :=
  .run (.bind .myRnd fun _ => .vec1)

theorem CanonOut.execVlog2 {o : V2} {rm : Option RMode} : CanonOut (Machine.execVlog2 o rm) :=
  .run (.bind .myRnd fun _ => .vec1)

theorem CanonOut.execVcvt {o : V2} {src : Ty} {rm : Option RMode} : CanonOut (Machine.execVcvt o src rm) :=
  .run (.bind .myRnd fun _ => .vec1)

theorem CanonOut.execVpack {d a b : BitVec 4} {p : Perm} {k : BitVec 3} {dst src : Ty}
    {rm : Option RMode} : CanonOut (Machine.execVpack d a b p k dst src rm) :=
  .run (.bind .myRnd fun _ => .bind .readV fun _ => .bind .readV fun _ => .writeMasked)

theorem CanonOut.execVunpk {o : V2} {src : Ty} {hi : Bool} : CanonOut (Machine.execVunpk o src hi) :=
  .run (.bind .readV fun _ => .writeMasked)

theorem CanonOut.execVshrr {o : V3} : CanonOut (Machine.execVshrr o) := .run .vec2

theorem CanonOut.execVsat {o : V2} {nM1 : BitVec 6} {u : Bool} : CanonOut (Machine.execVsat o nM1 u) := .run .vec1

theorem CanonOut.execVmulq {o : V3} : CanonOut (Machine.execVmulq o) := .run .vec2

theorem CanonM.quantScale {x : QFmt} : CanonM (Machine.quantScale x) := by
  unfold Machine.quantScale
  split
  · exact .readVSrc
  · exact .readVSrc
  · exact .pure

theorem CanonOut.execVquant {d a : BitVec 4} {f : QFmt} {rm : Option RMode} : CanonOut (Machine.execVquant d a f rm) :=
  .run (.bind .myRnd fun _ => .bind .readV fun _ => .bind .quantScale fun _ => .writeV)

theorem CanonOut.execVdeq {d a : BitVec 4} {f : QFmt} {rm : Option RMode} : CanonOut (Machine.execVdeq d a f rm) :=
  .run (.bind .myRnd fun _ => .bind .readV fun _ => .bind .quantScale fun _ => .writeV)

theorem CanonOut.execVdot {d a : BitVec 4} {b : VSrc} {k : BitVec 3}
    {au bu sat : Bool} : CanonOut (Machine.execVdot d a b k au bu sat) :=
  .run (.bind .readV fun _ => .bind .readVSrc fun _ => .bind .readV fun _ => .writeMasked)

/-! ## Loads, stores, atomics, remote adds and line operations -/

theorem CanonOut.execLd {d : SReg} {sz : Size} {p : MAddr} : CanonOut (Machine.execLd d sz p) :=
  .run (.bind .readSrc fun _ => .bind .access fun _ => .bind .loadT fun _ => .writeSR)

theorem CanonOut.execSt {v : Src} {sz : Size} {sc : Scope} {p : MAddr} : CanonOut (Machine.execSt v sz sc p) :=
  .run (.bind .readSrcN fun _ => .bind .readSrc fun _ => .bind .access fun _ => .storeT)

theorem CanonOut.execLds {n : BitVec 5} {sz : Size} {p : MAddr} : CanonOut (Machine.execLds n sz p) :=
  .run
    (.bind .myWait fun _ => by
        dsimp only
        split
        · exact .bind .park fun _ =>
            .bind .readG fun _ =>
            .bind .readSrc fun _ =>
            .bind .access fun _ => .bind .loadT fun _ => .ite .writeG (.bind .getS fun _ => .bind .keepWait fun _ => .park)
        · exact .bind .mergePts fun _ =>
            .bind .readG fun _ =>
            .bind .readSrc fun _ =>
            .bind .access fun _ => .bind .loadT fun _ => .ite .writeG (.bind .getS fun _ => .bind .keepWait fun _ => .park)
        · exact .bind .readG fun _ =>
            .bind .readSrc fun _ =>
            .bind .access fun _ => .bind .loadT fun _ => .ite .writeG (.bind .getS fun _ => .bind .keepWait fun _ => .park))

theorem CanonOut.execVld {v : BitVec 4} {p : MAddr} : CanonOut (Machine.execVld v p) :=
  .run (.bind .readSrc fun _ => .bind .access fun _ => .bind .loadT fun _ => .writeV)

theorem CanonOut.execVst {v : BitVec 4} {sc : Scope} {p : MAddr} : CanonOut (Machine.execVst v sc p) :=
  .run (.bind .readSrc fun _ => .bind .access fun _ => .bind .readV fun _ => .storeT)

theorem CanonOut.execKld {k : BitVec 3} {p : MAddr} : CanonOut (Machine.execKld k p) :=
  .run (.bind .readSrc fun _ => .bind .access fun _ => .bind .loadT fun _ => .writeK)

theorem CanonOut.execKst {k : BitVec 3} {sc : Scope} {p : MAddr} : CanonOut (Machine.execKst k sc p) :=
  .run (.bind .readSrc fun _ => .bind .access fun _ => .bind .readK fun _ => .storeT)

theorem CanonM.checkLanes {ls : List Nat} {addr : Nat → Int} {wr : Bool} : CanonM (Machine.checkLanes ls addr wr) :=
  .bind (.loopM fun _ => .aligned) fun _ => .loopM fun _ => .checkLocal

theorem CanonM.boardLanes {ls : List Nat} {addr : Nat → Int} : CanonM (Machine.boardLanes ls addr) := .loopM fun _ => .boardPark

theorem CanonM.stallLanes {ls : List Nat} {addr : Nat → Int} : CanonM (Machine.stallLanes ls addr) :=
  .modS fun _ h => .ite h.stall h

theorem CanonM.gatherLocal {ls : List Nat} {addr : Nat → Int} {d : BitVec 4} : CanonM (Machine.gatherLocal ls addr d) :=
  .bind .checkLanes fun _ =>
  .bind .boardLanes fun _ =>
  .bind (.loopM fun _ => .checkSpadPoison) fun _ =>
  .bind .spwLoad fun _ => .bind .stallLanes fun _ => .bind .getS fun _ => .bind .readV fun _ => .writeV

theorem CanonM.scatterLocal {ls : List Nat} {addr : Nat → Int} {x : Row} : CanonM (Machine.scatterLocal ls addr x) :=
  .bind .checkLanes fun _ =>
  .bind .boardLanes fun _ =>
  .bind .spwStore fun _ => .bind .stallLanes fun _ => .modS fun _ h => .foldl h fun _ _ h => h.writeLocal.notify

theorem CanonM.laneTarget {a : Int} {wr : Bool} : CanonM (Machine.laneTarget a wr) :=
  .bind .aligned fun _ =>
  .bind .placeOf fun _ => by
    split
    · exact .pure
    · exact .trap

theorem CanonM.longLanes {ls : List Nat} {f : Nat → M Unit} (hf : ∀ l, CanonM (f l)) : CanonM (Machine.longLanes ls f) :=
  .bind .myself fun _ => .bind (.loopM fun l => .bind .modSp fun _ => .keepDone (hf l)) fun _ => .modSp

theorem CanonM.keepRow {key : Nat} {m : M Row} (hm : CanonM m) : CanonM (Machine.keepRow key m) :=
  .bind .myWait fun _ => .ite (.bind hm fun _ => .bind .keepWait fun _ => .pure) .pure

theorem CanonM.gatherForm {glb : Bool} {k : BitVec 3} {d : BitVec 4}
    {addr : Nat → Int} : CanonM (Machine.gatherForm glb k d addr) :=
  .bind .readK fun _ =>
  .ite (.longLanes (fun _ => .bind .laneTarget fun _ => .bind .loadT fun _ => .bind .readV fun _ => .writeV)) .gatherLocal

theorem CanonM.scatterForm {glb : Bool} {k : BitVec 3} {x : Row} {addr : Nat → Int} : CanonM (Machine.scatterForm glb k x addr) :=
  .bind .readK fun _ => .ite (.longLanes (fun _ => .bind .laneTarget fun _ => .storeT)) .scatterLocal

theorem CanonM.stridedAddr {o : Strided} : CanonM (Machine.stridedAddr o) :=
  .bind .readSrc fun _ => .bind .readSR fun _ => .pure

theorem CanonM.gatheredAddr {o : Gathered} : CanonM (Machine.gatheredAddr o) :=
  .bind .readSrc fun _ => .bind (.keepRow .readV) fun _ => .pure

theorem CanonOut.execVlds {o : Strided} : CanonOut (Machine.execVlds o) := .run (.bind .stridedAddr fun _ => .gatherForm)

theorem CanonOut.execVsts {o : Strided} : CanonOut (Machine.execVsts o) :=
  .run (.bind .stridedAddr fun _ => .bind .readV fun _ => .scatterForm)

theorem CanonOut.execVgath {o : Gathered} : CanonOut (Machine.execVgath o) := .run (.bind .gatheredAddr fun _ => .gatherForm)

theorem CanonOut.execVscat {o : Gathered} : CanonOut (Machine.execVscat o) :=
  .run (.bind .gatheredAddr fun _ => .bind .readV fun _ => .scatterForm)

theorem CanonM.atomic {o : Amo} {op : Nat → Nat → Nat} : CanonM (Machine.atomic o op) :=
  .bind .readAB fun _ => .bind .access fun _ => .bind .updateT fun _ => .writeSR

theorem CanonOut.execAmoadd {o : Amo} : CanonOut (Machine.execAmoadd o) := .run .atomic

theorem CanonOut.execAmoswp {o : Amo} : CanonOut (Machine.execAmoswp o) := .run .atomic

theorem CanonOut.execAmocas {o : Amo} {c : SReg} : CanonOut (Machine.execAmocas o c) :=
  .run (.bind .readAB fun _ => .bind .readSR fun _ => .bind .access fun _ => .bind .updateT fun _ => .writeSR)

theorem CanonOut.execAmoand {o : Amo} : CanonOut (Machine.execAmoand o) := .run .atomic

theorem CanonOut.execAmoor {o : Amo} : CanonOut (Machine.execAmoor o) := .run .atomic

theorem CanonOut.execAmoxor {o : Amo} : CanonOut (Machine.execAmoxor o) := .run .atomic

theorem CanonOut.execAmomin {o : Amo} {uns : Bool} : CanonOut (Machine.execAmomin o uns) := .run .atomic

theorem CanonOut.execAmomax {o : Amo} {uns : Bool} : CanonOut (Machine.execAmomax o uns) := .run .atomic

theorem CanonOut.execAmofadd {o : Amo} : CanonOut (Machine.execAmofadd o) := .run .atomic

theorem CanonM.raddPlain {t : Target} {ty : RTy} {n : Nat} {es : List (Nat × Nat)} : CanonM (Machine.raddPlain t ty n es) :=
  .bind .updateT fun _ => .pure

theorem CanonOut.execRadd {t : RTy} {a b : Src} : CanonOut (Machine.execRadd t a b) :=
  .run (.bind .readAB fun _ => .bind .access fun _ => .raddPlain)

theorem CanonOut.execRaddv {r : RaddV} : CanonOut (Machine.execRaddv r) :=
  .run (.bind .readSrc fun _ => .bind .readV fun _ => .bind .readK fun _ => .bind .access fun _ => .raddPlain)

theorem State.canon.closeRound {s : State} {r : Round} (h : s.canon) : (s.closeRound r).canon :=
  .ite h.storeAt h.raiseSpw.modCore.notify

theorem State.canon.closeAll {n : Nat} : ∀ {s : State} {r : Round}, s.canon → (Machine.closeAll n s r).canon := by
  induction n with
  | zero => exact fun h => h
  | succ n ih =>
    intro s r h
    unfold Machine.closeAll
    split
    · dsimp only
      split
      · exact h.closeRound
      · exact ih h.closeRound
    · exact h

theorem State.canon.settleRounds {s : State} (h : s.canon) : (s.settleRounds).canon := .foldr h.upd fun _ _ h => h.closeAll

theorem State.canon.contribute {s : State} {line : Nat} {c : Contrib} (h : s.canon) : (s.contribute line c).canon :=
  h.upd.closeAll

theorem CanonM.stagePage {pa va w : Nat} {ty : RTy} {n idx : Nat}
    {es : List (Nat × Nat)} : CanonM (Machine.stagePage pa va w ty n idx es) :=
  .bind .getS fun _ =>
  .ite
    (.bind .park fun _ =>
      .bind .checkPoison fun _ =>
      .bind .entryReady fun _ =>
      .bind .await fun _ =>
      .bind .checkRoute fun _ =>
      .bind .sampled fun _ => .bind (.modS fun _ h => h.modSlot) fun _ => .modS fun _ h => h.contribute)
    (.bind .checkPoison fun _ =>
      .bind .entryReady fun _ =>
      .bind .await fun _ =>
      .bind .checkRoute fun _ =>
      .bind .sampled fun _ => .bind (.modS fun _ h => h.modSlot) fun _ => .modS fun _ h => h.contribute)

theorem CanonM.raddStage {t : Target} {ty : RTy} {n idx w : Nat}
    {es : List (Nat × Nat)} : CanonM (Machine.raddStage t ty n idx w es) := by
  unfold Machine.raddStage
  split
  · exact .bind .boardPark fun _ => .bind .checkSpadPoison fun _ => .bind .spwStore fun _ => .modS fun _ h => h.contribute
  · exact .stagePage
  · exact .stagePage
  · exact .pure

theorem CanonM.orderOf {o : Word} : CanonM (Machine.orderOf o) := .bind (.ensure .illegalOp) fun _ => .pure

theorem CanonOut.execRaddOrd {t : RTy} {a b : Src} {o : SReg} : CanonOut (Machine.execRaddOrd t a b o) :=
  .run (.bind .readAB fun _ => .bind .readSR fun _ => .bind .orderOf fun _ => .bind .access fun _ => .raddStage)

theorem CanonOut.execRaddvOrd {r : RaddV} {o : SReg} : CanonOut (Machine.execRaddvOrd r o) :=
  .run
    (.bind .readSrc fun _ =>
      .bind .readSR fun _ =>
      .bind .orderOf fun _ => .bind .readV fun _ => .bind .readK fun _ => .bind .access fun _ => .raddStage)

theorem State.canon.dropLine {s : State} {d line : Nat} (h : s.canon) : (s.dropLine d line).canon := h.upd.modDie

theorem State.canon.writeBack {s : State} {d line : Nat} (h : s.canon) : (s.writeBack d line).canon := .ite h.setPair h

theorem CanonOut.execClineWb {a : Src} {off : BitVec 32} : CanonOut (Machine.execClineWb a off) :=
  .run
    (.bind .readSrc fun _ =>
      .modS fun _ h => by
        split
        · exact h
        · exact h.writeBack)

theorem CanonOut.execClineEvict {a : Src} {off : BitVec 32} : CanonOut (Machine.execClineEvict a off) :=
  .run
    (.bind .readSrc fun _ =>
      .modS fun _ h => by
        split
        · exact h
        · exact h.writeBack.dropLine)

theorem State.canon.prefetch {s : State} {j line pts : Nat} (h : s.canon) : (s.prefetch j line pts).canon :=
  .ite h h.setPair.fillBoth

theorem CanonOut.execClinePf {a : Src} {off : BitVec 32} : CanonOut (Machine.execClinePf a off) :=
  .run
    (.bind .readSrc fun _ =>
      .modS fun _ h => by
        split
        · exact h
        · exact .ite h.prefetch h)

/-! ## Fences, full bits, messages, counters, hurdles and views -/

theorem CanonOut.execFence : CanonOut Machine.execFence := .run (.bind .waitQuiet fun _ => .modMe)

theorem CanonOut.execSfill {d : SReg} {a : Src} : CanonOut (Machine.execSfill d a) :=
  .run
    (.bind .getS fun _ =>
      .bind (.ensure .illegalOp) fun _ =>
      .bind .readSrc fun _ => by
        split
        · exact .pure
        · exact .sfillShared)

theorem CanonOut.execFstat {d : SReg} {mail : Bool} : CanonOut (Machine.execFstat d mail) :=
  .run (.bind .getS fun _ => .bind (.ensure .illegalOp) fun _ => .writeSR)

theorem CanonM.sendTarget {a : Word} {port : BitVec 3} : CanonM (Machine.sendTarget a port) :=
  .bind .getS fun _ => .ite .trap (.ite .trap .pure)

theorem CanonOut.execQsend {p : BitVec 3} {a : Src} {b : BitVec 5} {nM1 : BitVec 3} : CanonOut (Machine.execQsend p a b nM1) :=
  .run
    (.bind .myWait fun _ =>
      .ite .pure
        (.bind .readSrc fun _ =>
          .bind .sendTarget fun _ =>
          .bind .myself fun _ =>
          .bind .getS fun _ => .ite (.modS fun _ h => h.upd.deliver) (.bind (.modS fun _ h => h.upd) fun _ => .park)))

theorem State.canon.setCtr {s : State} {c b n : Nat} {x : Counter} (h : s.canon) : (s.setCtr c b n x).canon :=
  .ite h.modBank h.modBank.signal

theorem State.canon.countChunk {s : State} {c b n bytes stamp id : Nat} (h : s.canon) :
    (s.countChunk c b n bytes stamp id).canon := .ite h.setCtr h.setCtr

theorem State.canon.failCtr {s : State} {c b n err id : Nat} (h : s.canon) : (s.failCtr c b n err id).canon := .ite h.setCtr h

theorem CanonM.myCtr {n : BitVec 5} : CanonM (Machine.myCtr n) := fun _ h => h

theorem CanonM.setMyCtr {n : BitVec 5} {x : Counter} : CanonM (Machine.setMyCtr n x) := .modS fun _ h => h.setCtr

theorem CanonM.notFar : CanonM Machine.notFar := .bind .getS fun _ => .ensure .illegalOp

theorem CanonM.overflowTrap {α : Type} {n : BitVec 5} : CanonM (Machine.overflowTrap n : M α) := .trap

theorem CanonM.checkErr {n : BitVec 5} {x : Counter} : CanonM (Machine.checkErr n x) := .ite .pure (.ite .overflowTrap .trap)

theorem CanonOut.execCexp {c : BitVec 5} {b : Src} : CanonOut (Machine.execCexp c b) :=
  .run
    (.bind .notFar fun _ =>
      .bind .myWait fun _ =>
      .bind .myCtr fun _ =>
      .ite (.bind .checkErr fun _ => .bind .myCtr fun _ => .ite .park .mergePts)
        (.bind .readSrc fun _ =>
          .bind .checkErr fun _ =>
          .bind (.ensure .overflowTrap) fun _ => .bind .setMyCtr fun _ => .bind .myCtr fun _ => .ite .park .mergePts))

theorem CanonOut.execCadd {c : BitVec 5} {b : Src} : CanonOut (Machine.execCadd c b) :=
  .run
    (.bind .notFar fun _ =>
      .bind .readSrc fun _ =>
      .bind .myCtr fun _ =>
      .bind (.ensure .overflowTrap) fun _ => .bind (.ensure .overflowTrap) fun _ => .bind .myself fun _ => .setMyCtr)

theorem CanonOut.execCaddClr {c : BitVec 5} {b : Src} : CanonOut (Machine.execCaddClr c b) :=
  .run
    (.bind .notFar fun _ =>
      .bind .readSrc fun _ => .bind .myCtr fun _ => .bind (.ensure .overflowTrap) fun _ => .bind .myself fun _ => .setMyCtr)

theorem CanonOut.execCrd {d : SReg} {c : BitVec 5} : CanonOut (Machine.execCrd d c) :=
  .run (.bind .notFar fun _ => .bind .myCtr fun _ => .bind .mergePts fun _ => .writeSR)

theorem CanonOut.execXwait {a : Src} : CanonOut (Machine.execXwait a) :=
  .run
    (.bind .notFar fun _ =>
      .bind .readSrc fun _ =>
      .bind .getS fun _ => .ite .trap (.ite .park (.bind .myself fun _ => .bind .reportFail fun _ => .mergePts)))

theorem State.canon.modHb {s : State} {c n : Nat} {f : Hurdle → Hurdle} (h : s.canon) : (s.modHb c n f).canon := h.modCore

theorem CanonM.localOnly : CanonM Machine.localOnly := .bind .getS fun _ => .ensure .illegalOp

theorem CanonM.writeHb {n : Nat} {v : Word} : CanonM (Machine.writeHb n v) :=
  .bind .getS fun _ => .bind (.ensure .illegalOp) fun _ => .modS fun _ h => h.modHb

theorem CanonOut.execHset {n : BitVec 2} {a : Src} : CanonOut (Machine.execHset n a) :=
  .run (.bind .localOnly fun _ => .bind .readSrc fun _ => .writeHb)

theorem State.canon.hbSend {s : State} {c n : Nat} (h : s.canon) : (s.hbSend c n).canon := .ite h h.upd.modHb

theorem State.canon.hbReceive {s : State} {g : HSig} (h : s.canon) : (s.hbReceive g).canon := h.modHb.hbSend

theorem State.canon.hbRelease {s : State} {g : HSig} (h : s.canon) : (s.hbRelease g).canon := h.upd.modHb.upd.hbSend

theorem State.canon.hbDeliver {s : State} {g : HSig} (h : s.canon) : (s.hbDeliver g).canon := .ite h.hbRelease h.hbReceive

theorem State.canon.hbRun {n : Nat} : ∀ {s : State}, s.canon → (State.hbRun n s).canon := by
  induction n with
  | zero => exact fun h => h
  | succ n ih =>
    intro s h
    unfold State.hbRun
    split
    · exact h
    · exact ih (State.canon.hbDeliver h)

theorem CanonM.hbArrive {n : Nat} : CanonM (Machine.hbArrive n) :=
  .bind .getS fun _ => .bind (.modS fun _ h => h.modHb) fun _ => .bind (.modS fun _ h => h.hbSend) fun _ => .pure

theorem CanonM.hbLeave {broken : Bool} {pts : Nat} : CanonM (Machine.hbLeave broken pts) :=
  .bind .mergePts fun _ => .ite .trapAt .pure

theorem CanonOut.execHurdle {n : BitVec 2} : CanonOut (Machine.execHurdle n) :=
  .run
    (.bind .localOnly fun _ =>
      .bind .myWait fun _ => by
        split
        · exact .hbLeave
        · exact .park
        · exact .bind .getS fun _ =>
            .bind (.ensure .illegalOp) fun _ =>
            .bind .hbArrive fun _ =>
            .bind .keepWait fun _ =>
            .ite
              (.bind (.modS fun _ h => h.hbRun) fun _ =>
                .bind .myWait fun _ => by
                  split
                  · exact .hbLeave
                  · exact .park)
              (.bind .myWait fun _ => by
                  split
                  · exact .hbLeave
                  · exact .park))

theorem CanonM.writeView {n : Nat} {v : Word} : CanonM (Machine.writeView n v) :=
  .bind .getS fun _ => .bind (.ensure .illegalOp) fun _ => .ite .park (.modS fun _ h => h.modCore)

theorem CanonOut.execView {n : BitVec 3} {a : Src} : CanonOut (Machine.execView n a) :=
  .run (.bind .localOnly fun _ => .bind .readSrc fun _ => .writeView)

/-! ## Handles, stamps, shadows and publishes -/

theorem State.canon.lineLoad {s : State} {j cls pa ts : Nat} (h : s.canon) : (s.lineLoad j cls pa ts).1.canon :=
  .iteFst h (.ite h.setPair.llcFill h.setPair)

theorem State.canon.agentLoad {s : State} {d j va n ts : Nat} {queue : Bool} (h : s.canon) {p : State × Nat × Nat}
    (e : s.agentLoad d j va n ts queue = .ok p) : p.1.canon := by
  unfold State.agentLoad at e
  split at e
  · cases e
  · split at e
    · cases e
    · dsimp only at e
      split at e
      · cases e
      · split at e
        · cases e
        · cases e
          exact State.canon.foldlFst h.sample fun _ _ h => h.lineLoad

theorem CanonM.checkTensorPoison {h : Nat} {t : Tensor} {segs : List Nat} : CanonM (Machine.checkTensorPoison h t segs) :=
  .ensure .dataLost

theorem State.canon.readAlias {s : State} {d j : Nat} {t : Tensor} {T p r nr c nc : Nat} (h : s.canon) {q : State × Nat}
    (e : s.readAlias d j t T p r nr c nc = .ok q) : q.1.canon := by
  unfold State.readAlias at e
  dsimp only at e
  split at e
  · cases e
    exact h
  · refine foldl_ok (P := fun q : State × Nat => q.1.canon) h (fun o v r ho hr => ?_) e
    cases o with
    | error x => cases hr
    | ok q =>
      dsimp only at hr
      split at hr
      · next e1 =>
        cases hr
        exact (ho q rfl).agentLoad e1
      · cases hr
        exact ho q rfl
      · cases hr

theorem CanonM.lostStop {α : Type} {fault : M α} {kind place : Nat} {e : Lost} (hf : CanonM fault) :
    CanonM (Machine.lostStop fault kind place e) := by
  cases e with
  | fault => exact hf
  | poison => exact .dataLost
  | error => exact .park
  | moving => exact .park

theorem CanonM.touchAlias {h : Nat} {t : Tensor} {T p r nr c nc : Nat} : CanonM (Machine.touchAlias h t T p r nr c nc) :=
  .bindS fun _ h0 => by
    split
    · next e1 =>
        exact .bind (.modS fun _ _ => h0.readAlias e1) fun _ => .mergePts
    · exact .lostStop .dataLost

theorem CanonM.planeLoad {hH T va n : Nat} : CanonM (Machine.planeLoad hH T va n) :=
  .bindS fun _ h0 => by
    split
    · next e1 =>
        exact .bind (.modS fun _ _ => h0.agentLoad e1) fun _ => .bind .mergePts fun _ => .pure
    · exact .lostStop .trap

theorem CanonM.elemValue {hH : Nat} {t : Tensor} {T p i j : Nat} : CanonM (Machine.elemValue hH t T p i j) :=
  .bind .getS fun _ =>
  .ite .pure
    (by
      dsimp only
      split
      · exact .pure
      · exact .pure
      · exact .pure
      · exact .bind .planeLoad fun _ => .pure
      · exact .bind .planeLoad fun _ => .bind .planeLoad fun _ => .bind .planeLoad fun _ => .pure
      · exact .bind .planeLoad fun _ => .bind .planeLoad fun _ => .bind .planeLoad fun _ => .pure
      · split
        · exact .ite .pure (.bind .planeLoad fun _ => .pure)
        · exact .pure
        · exact .pure)

theorem CanonM.checkStale {h : Nat} : CanonM (Machine.checkStale h) :=
  .bind .getS fun _ => by
    split
    · exact .pure
    · exact .trap

theorem CanonM.checkCaps {h need : Nat} {t : Tensor} : CanonM (Machine.checkCaps h need t) := by
  unfold Machine.checkCaps
  split
  · exact .trap
  · exact .pure

theorem CanonM.checkHandle {h need : Nat} : CanonM (Machine.checkHandle h need) :=
  .bind .checkStale fun _ => .bind .checkCaps fun _ => .pure

theorem CanonM.entry {h : Nat} : CanonM (Machine.entry h) := fun _ hs => hs

theorem CanonM.modEntry {h : Nat} {f : Tensor → Tensor} : CanonM (Machine.modEntry h f) := .modS fun _ h => h.modTensor

theorem CanonM.notRefused {h : Nat} : CanonM (Machine.notRefused h) := .bind .myself fun _ => .ensure .trap

theorem CanonM.checkPool {h n : Nat} : CanonM (Machine.checkPool h n) := .bind .getS fun _ => .ensure .trap

theorem CanonM.stampHandle {k h hH need : Nat} {kind : OpKind}
    {exts : Tensor → List Ext} : CanonM (Machine.stampHandle k h hH need kind exts) :=
  .bind .myWait fun _ => by
    split
    · exact .pure
    · exact .bind .await fun _ =>
        .bind .getS fun _ =>
        .bind (.ensure .noRoute) fun _ =>
        .bind .checkHandle fun _ =>
        .ite (.bind .checkPool fun _ => .bind .modEntry fun _ => .bind .mergePts fun _ => .bind .keepWait fun _ => .pure)
          (.bind .modEntry fun _ => .bind .mergePts fun _ => .bind .keepWait fun _ => .pure)

theorem CanonM.convertFor {h T : Nat} : CanonM (Machine.convertFor h T) := .modS fun _ h => .ite h.convert h

theorem CanonM.opTurn {h T : Nat} : CanonM (Machine.opTurn h T) :=
  .bind .convertFor fun _ =>
  .bind .entry fun _ => by
    split
    · exact .pure
    · exact .ite .park (.ite (.bind .getS fun _ => .bind .checkTensorPoison fun _ => .ite .park (.ite .modEntry .park)) .pure)

theorem CanonM.retireOp {h T : Nat} : CanonM (Machine.retireOp h T) := .bind .modEntry fun _ => .modS fun _ h => h.settleIf

theorem CanonM.keepShadow {es : List (Nat × Nat)} : CanonM (Machine.keepShadow es) := .keepWait

theorem State.canon.writeAlias {s : State} {j : Nat} {t : Tensor} {es : List (Nat × Nat)} (h : s.canon) :
    (s.writeAlias j t es).canon :=
  .foldl h fun _ _ h => by
    dsimp only
    split
    · exact h
    · exact h.written

theorem State.canon.install {s : State} {j i T : Nat} {es : List (Nat × Nat)} (h : s.canon) : (s.install j i T es).canon :=
  .ite (.modTensor (.ite h.writeAlias h.modTensor.tensWritten)) (.ite h.writeAlias h.modTensor.tensWritten)

theorem State.canon.publishAs {s : State} {j i T tm : Nat} {es : List (Nat × Nat)} (h : s.canon) :
    (s.publishAs j i T tm es).canon :=
  .modTensor (.ite (.foldl (.ite h.install h.install.upd) fun _ _ h => h.setPair.notify) (.ite h.install h.install.upd))

theorem State.canon.publishAt {s : State} {j i T tm : Nat} {es : List (Nat × Nat)} (h : s.canon) :
    (s.publishAt j i T tm es).1.canon := h.publishAs

theorem CanonM.publishMine {h T : Nat} : CanonM (Machine.publishMine h T) :=
  .bind .await fun _ =>
  .bind .myWait fun _ =>
  .bindS fun _ h0 =>
  .bind (.modS fun _ _ => h0.publishAt) fun _ => .bind .modMe fun _ => .bind (.modS fun _ h => h.settleIf) fun _ => .pure

theorem CanonM.addLine {h T : Nat} {es : List (Nat × Nat)} : CanonM (Machine.addLine h T es) :=
  .bind .await fun _ =>
  .bind .getS fun _ =>
  .bind (.modS fun _ h => h.install) fun _ =>
  .ite
    (.loopM fun _ =>
      .bind .getS fun _ => by
        split
        · exact .pure
        · exact .bind (.modS fun _ h => h.setPair.notify) fun _ => .mergePts)
    .pure

theorem CanonM.checkTile {l rows rb pitch al : Nat} {wr : Bool} : CanonM (Machine.checkTile l rows rb pitch al wr) :=
  .bind (.ensure .badFormat) fun _ => .bind .checkLocal fun _ => .aligned

theorem CanonM.boardEnter {id lo n : Nat} {wr : Bool} : CanonM (Machine.boardEnter id lo n wr) :=
  .bind .getS fun _ => .ite .pure (.ite .park (.modS fun _ h => h.modCore))

theorem State.canon.boardLeave {s : State} {t id : Nat} (h : s.canon) : (s.boardLeave t id).canon := h.modCore

theorem CanonM.boardDone : CanonM Machine.boardDone := .modS fun _ h => h.boardLeave

theorem CanonM.engineRead {a n : Nat} : CanonM (Machine.engineRead a n) :=
  .bind .checkSpadPoison fun _ => .bind .getS fun _ => .bind (.modS fun _ h => h.stallEngine) fun _ => .pure

theorem State.canon.padWords {s : State} {c : Nat} {ws : List Nat} {a n v ts : Nat} (h : s.canon) :
    (s.padWords c ws a n v ts).canon := .ite h.modCore.notify (.foldl h.modCore fun _ _ h => h.notify)

theorem CanonM.engineWrite {a n v : Nat} : CanonM (Machine.engineWrite a n v) :=
  .modS fun _ h => h.stallEngine.writeLocal.notify

theorem CanonM.engineDone : CanonM Machine.engineDone := .modS fun _ h => h.raiseSpw

theorem CanonM.tensorSlot : CanonM Machine.tensorSlot := .bind .getS fun _ => .ensure .illegalOp

theorem CanonM.engineStep {k : Nat} {m : M Unit} (hm : CanonM m) : CanonM (Machine.engineStep k m) :=
  .bind .myWait fun _ => .ite .pure (.bind .await fun _ => .bind hm fun _ => .keepWait)

theorem CanonM.setProg {k : Nat} : CanonM (Machine.setProg k) := .modSp

theorem CanonM.longTrap {onLoss m : M Unit} (ho : CanonM onLoss) (hm : CanonM m) : CanonM (Machine.longTrap onLoss m) := by
  intro s h
  unfold Machine.longTrap
  split
  · split
    · split
      · next e => exact ho.ok h e
      · exact h
    · split
      · next e => exact CanonM.setProg.ok h e
      · exact h
  · exact hm s h

theorem CanonM.longStep {k : Nat} {onLoss m : M Unit} (ho : CanonM onLoss) (hm : CanonM m) : CanonM (Machine.longStep k onLoss m) :=
  .bind .setProg fun _ => .engineStep (.longTrap ho hm)

/-! ## Tile and element instructions -/

theorem CanonM.checkPitch {f : Tag} {view : BitVec 4} {n : Nat} : CanonM (Machine.checkPitch f view n) := .ensure .badFormat

theorem CanonM.checkColumns {f : Tag} {q : Region} : CanonM (Machine.checkColumns f q) := .ensure .badFormat

theorem CanonM.readStorage {h : Nat} {t : Tensor} {T : Nat} {es : List Ext}
    {cols : Bool} : CanonM (Machine.readStorage h t T es cols) :=
  .bind .checkTensorPoison fun _ => .bind .getS fun _ => .ite .park (.modS fun _ h => h.tensRead)

theorem CanonM.readRegion {h : Nat} {t : Tensor} {T : Nat} {q : Region} {cols : Bool} : CanonM (Machine.readRegion h t T q cols) :=
  .bind .readStorage fun _ => .touchAlias

theorem CanonM.stamped : CanonM Machine.stamped := .bind .myWait fun _ => .pure

theorem CanonM.mapL {α β : Type} {f : α → M β} (hf : ∀ x, CanonM (f x)) : ∀ {l : List α}, CanonM (Machine.mapL f l)
  | [] => .pure
  | x :: _ => .bind (hf x) fun _ => .bind (.mapL hf) fun _ => .pure

theorem CanonM.checkProg {steps : Nat} : CanonM (Machine.checkProg steps) := .bind .myself fun _ => .ensure .illegalOp

theorem CanonM.tileRegs {o : TileArgs} : CanonM (Machine.tileRegs o) :=
  .bind .tensorSlot fun _ => .bind .readSR fun _ => .bind .readSR fun _ => .bind .readSR fun _ => .pure

theorem CanonM.unstamped {m : M Unit} (hm : CanonM m) : CanonM (Machine.unstamped m) := .bind .stamped fun _ => .ite .pure hm

theorem CanonM.tldChecks {o : TileArgs} {h l : Nat} {q : Region} : CanonM (Machine.tldChecks o h l q) :=
  .bind .checkHandle fun _ => .bind .checkColumns fun _ => .bind .checkTile fun _ => .bind .notRefused fun _ => .boardEnter

theorem CanonM.tldRows {o : TileArgs} {h l T : Nat} {q : Region} : CanonM (Machine.tldRows o h l T q) :=
  .bind .entry fun _ => .bind .readRegion fun _ => .loopM fun _ => .bind .getS fun _ => .engineWrite

theorem CanonOut.execTld {o : TileArgs} : CanonOut (Machine.execTld o) :=
  .run
    (.bind .tileRegs fun _ =>
      .bind (.unstamped .tldChecks) fun _ =>
      .bind .stampHandle fun _ =>
      .bind .opTurn fun _ =>
      .bind (.engineStep .tldRows) fun _ => .bind .retireOp fun _ => .bind .boardDone fun _ => .engineDone)

theorem CanonM.tldtChecks {o : TileArgs} {h l : Nat} {q : Region} : CanonM (Machine.tldtChecks o h l q) :=
  .bind .checkHandle fun _ =>
  .bind (.ensure .badFormat) fun _ => .bind .checkTile fun _ => .bind .notRefused fun _ => .boardEnter

theorem CanonM.tldtRows {o : TileArgs} {h l T : Nat} {q : Region} : CanonM (Machine.tldtRows o h l T q) :=
  .bind .entry fun _ => .bind .readRegion fun _ => .loopM fun _ => .bind .getS fun _ => .engineWrite

theorem CanonOut.execTldt {o : TileArgs} : CanonOut (Machine.execTldt o) :=
  .run
    (.bind .tileRegs fun _ =>
      .bind (.unstamped .tldtChecks) fun _ =>
      .bind .stampHandle fun _ =>
      .bind .opTurn fun _ =>
      .bind (.engineStep .tldtRows) fun _ => .bind .retireOp fun _ => .bind .boardDone fun _ => .engineDone)

theorem CanonM.storeTileChecks {o : TileArgs} {h l : Nat} {q : Region} {need : Nat}
    {ok : Tag → Bool} : CanonM (Machine.storeTileChecks o h l q need ok) :=
  .bind .checkHandle fun _ =>
  .bind (.ensure .badFormat) fun _ =>
  .bind .checkColumns fun _ => .bind .checkTile fun _ => .bind .notRefused fun _ => .boardEnter

theorem CanonM.tstRows {o : TileArgs} {h l : Nat} {q : Region} : CanonM (Machine.tstRows o h l q) :=
  .bind .entry fun _ => .loopM fun _ => .bind .engineRead fun _ => .keepShadow

theorem CanonOut.execTst {o : TileArgs} : CanonOut (Machine.execTst o) :=
  .run
    (.bind .tileRegs fun _ =>
      .bind (.unstamped .storeTileChecks) fun _ =>
      .bind .stampHandle fun _ =>
      .bind .opTurn fun _ => .bind (.engineStep (.bind .tstRows fun _ => .boardDone)) fun _ => .bind .publishMine fun _ => .pure)

theorem CanonM.addLines {h T : Nat} {t : Tensor} {es : List (Nat × Nat)} {add : Nat → Nat → Nat} :
    ∀ {l : List Nat} {k : Nat}, CanonM (Machine.addLines h T t es add l k)
  | [], _ => .pure
  | _ :: _, _ => .bind .myWait fun _ => .ite (.bind .pure fun _ => .addLines) (.bind .getS fun _ => .bind .entry fun _ =>
      .bind .addLine fun _ => .bind .keepWait fun _ => .addLines)

theorem CanonM.tstAddRows {o : TileArgs} {h l T : Nat} {q : Region} : CanonM (Machine.tstAddRows o h l T q) :=
  .bind .entry fun _ => .bind .readRegion fun _ => .tstRows

theorem CanonM.tstAddLines {h T : Nat} : CanonM (Machine.tstAddLines h T) :=
  .bind .entry fun _ => .bind .myWait fun _ => .addLines

theorem CanonOut.execTstAdd {o : TileArgs} : CanonOut (Machine.execTstAdd o) :=
  .run
    (.bind .tileRegs fun _ =>
      .bind (.unstamped .storeTileChecks) fun _ =>
      .bind .stampHandle fun _ =>
      .bind .opTurn fun _ =>
      .bind (.engineStep (.bind .tstAddRows fun _ => .boardDone)) fun _ =>
      .bind .tstAddLines fun _ => .bind .retireOp fun _ => .modMe)

theorem CanonM.tredOf {hH : Nat} {t : Tensor} {T p : Nat} {op : TRedOp} {k : Rnd}
    {es : List (Nat × Nat)} : CanonM (Machine.tredOf hH t T p op k es) :=
  .ite (.bind .getS fun _ => .pure) (.bind (.mapL (fun _ => .elemValue)) fun _ => .pure)

theorem CanonM.tredWrite {l lo hi : Nat} : CanonM (Machine.tredWrite l lo hi) :=
  .ite (.bind .myWait fun _ => .engineWrite) .pure

theorem CanonM.tredChecks {h l : Nat} {q : Region} {view : BitVec 4}
    {need n : Nat} : CanonM (Machine.tredChecks h l q view need n) :=
  .bind .checkHandle fun _ =>
  .bind .checkColumns fun _ =>
  .bind .checkPitch fun _ => .bind .checkLocal fun _ => .bind .aligned fun _ => .bind .notRefused fun _ => .boardPark

theorem CanonM.tredFirst : CanonM Machine.tredFirst :=
  .bind .myself fun _ => .bind .myWait fun _ => .bind .keepWait fun _ => .pure

theorem CanonM.tredRowStep {h T : Nat} {q : Region} {op : TRedOp} {rnd : Rnd}
    {k : Nat} : CanonM (Machine.tredRowStep h T q op rnd k) :=
  .bind .entry fun _ => .bind .readRegion fun _ => .loopM fun _ => .bind .tredOf fun _ => .keepWait

theorem CanonM.tredRowRun {h l T k0 : Nat} {q : Region} {op : TRedOp}
    {rnd : Rnd} : CanonM (Machine.tredRowRun h l T k0 q op rnd) :=
  .bind (.loopM fun _ => .longStep (.bind .tredWrite fun _ => .engineDone) .tredRowStep) fun _ =>
  .bind .tredWrite fun _ => .setProg

theorem CanonOut.execTredRow {o : TileArgs} {op : TRedOp} {rm : Option RMode} : CanonOut (Machine.execTredRow o op rm) :=
  .run
    (.bind .tileRegs fun _ =>
      .bind .checkProg fun _ =>
      .bind (.unstamped .tredChecks) fun _ =>
      .bind .stampHandle fun _ =>
      .bind .opTurn fun _ =>
      .bind .myself fun _ => .bind .tredFirst fun _ => .bind .tredRowRun fun _ => .bind .retireOp fun _ => .engineDone)

theorem CanonM.tredColStep {h T : Nat} {q : Region} {op : TRedOp} {rnd : Rnd} : CanonM (Machine.tredColStep h T q op rnd) :=
  .bind .entry fun _ => .bind .readRegion fun _ => .loopM fun _ => .bind .tredOf fun _ => .keepWait

theorem CanonOut.execTredCol {o : TileArgs} {op : TRedOp} {rm : Option RMode} : CanonOut (Machine.execTredCol o op rm) :=
  .run
    (.bind .tileRegs fun _ =>
      .bind (.unstamped .tredChecks) fun _ =>
      .bind .stampHandle fun _ =>
      .bind .opTurn fun _ =>
      .bind .myself fun _ =>
      .bind (.engineStep (.longTrap .setProg .tredColStep)) fun _ =>
      .bind .tredWrite fun _ => .bind .retireOp fun _ => .engineDone)

theorem CanonM.ewStep {h T : Nat} {rnd : Rnd} {g : FV → FV → FV} {q : Region} {k : Nat} {ys : Nat → M (List Nat)}
    (hy : ∀ i, CanonM (ys i)) : CanonM (Machine.ewStep h T rnd g q k ys) :=
  .bind .entry fun _ => .bind .readRegion fun _ => .loopM fun i => .bind (hy _) fun _ => .bind .getS fun _ => by
    split
    · exact .pure
    · exact .keepShadow

theorem CanonM.writerSteps {n : Nat} {f : Nat → M Unit} (hf : ∀ k, CanonM (f k)) : CanonM (Machine.writerSteps n f) :=
  .bind .myself fun _ => .bind (.loopM fun k => .longStep .setProg (hf k)) fun _ => .setProg

theorem CanonM.tscaleChecks {h : Nat} {view : BitVec 4} {q : Region} : CanonM (Machine.tscaleChecks h view q) :=
  .bind .checkHandle fun _ => .bind (.ensure .badFormat) fun _ => .bind .checkPitch fun _ => .notRefused

theorem CanonM.tscaleRun {h T z : Nat} {q : Region} {rnd : Rnd} : CanonM (Machine.tscaleRun h T z q rnd) :=
  .writerSteps (fun _ => .ewStep (fun _ => .pure))

theorem CanonOut.execTscale {h c : SReg} {l : BitVec 5} {sh : TShape}
    {rm : Option RMode} : CanonOut (Machine.execTscale h c l sh rm) :=
  .run
    (.bind .tensorSlot fun _ =>
      .bind .readSR fun _ =>
      .bind .readSR fun _ =>
      .bind .readG fun _ =>
      .bind .checkProg fun _ =>
      .bind (.unstamped .tscaleChecks) fun _ =>
      .bind .stampHandle fun _ =>
      .bind .opTurn fun _ => .bind .myself fun _ => .bind .tscaleRun fun _ => .bind .publishMine fun _ => .pure)

theorem CanonM.tewParts {rdn : Bool} {x : TewArg} : CanonM (Machine.tewParts rdn x) := by
  unfold Machine.tewParts
  split
  · exact .bind .readSR fun _ => .pure
  · exact .bind .readG fun _ => .pure
  · exact .pure

theorem CanonM.tewChecks {h : Nat} {tile : Option Nat} {view : BitVec 4} {q : Region} : CanonM (Machine.tewChecks h tile view q) :=
  .bind .checkHandle fun _ =>
  .bind (.ensure .badFormat) fun _ => by
    split
    · exact .bind .checkPitch fun _ => .notRefused
    · exact .bind .checkTile fun _ => .bind .notRefused fun _ => .boardPark

theorem CanonM.tewRow {tile : Option Nat} {pitch sc : Nat} {q : Region} {i : Nat} : CanonM (Machine.tewRow tile pitch sc q i) := by
  unfold Machine.tewRow
  split
  · exact .pure
  · exact .bind .engineRead fun _ => .pure

theorem CanonM.tewRun {h T : Nat} {g : FV → FV → FV} {tile : Option Nat} {pitch sc : Nat} {q : Region}
    {rnd : Rnd} : CanonM (Machine.tewRun h T g tile pitch sc q rnd) := .writerSteps (fun _ => .ewStep (fun _ => .tewRow))

theorem CanonOut.execTew {h c : SReg} {y : TewArg} {sh : TShape} {rm : Option RMode} : CanonOut (Machine.execTew h c y sh rm) :=
  .run
    (.bind .tensorSlot fun _ =>
      .bind .readSR fun _ =>
      .bind .readSR fun _ =>
      .bind .myself fun _ =>
      .bind .tewParts fun _ =>
      .bind .checkProg fun _ =>
      .bind (.unstamped .tewChecks) fun _ =>
      .bind .stampHandle fun _ => .bind .opTurn fun _ => .bind .tewRun fun _ => .bind .publishMine fun _ => .pure)

theorem CanonM.copyStep {hd hs Ts : Nat} {rnd : Rnd} {tr : Bool} {d q : Region}
    {k : Nat} : CanonM (Machine.copyStep hd hs Ts rnd tr d q k) :=
  .bind .entry fun _ => .bind .entry fun _ => .bind .readRegion fun _ => .loopM fun _ => .bind .getS fun _ => .keepShadow

theorem CanonM.checkTwo {h hneed k kneed : Nat} : CanonM (Machine.checkTwo h hneed k kneed) :=
  .bind .checkStale fun _ => .bind .checkStale fun _ => .bind .checkCaps fun _ => .bind .checkCaps fun _ => .pure

theorem CanonM.tcopyChecks {hd hs need : Nat} {tr : Bool} {view : BitVec 4}
    {d q : Region} : CanonM (Machine.tcopyChecks hd hs need tr view d q) :=
  .bind .checkTwo fun _ =>
  .bind (.ensure .badFormat) fun _ =>
  .bind (.ensure .badFormat) fun _ =>
  .bind .checkColumns fun _ => .bind .checkColumns fun _ => .bind .checkPitch fun _ => .bind .notRefused fun _ => .checkPool

theorem CanonOut.execTcopy {h : SReg} {c l : BitVec 5} {sh : TShape} {t : Bool}
    {rm : Option RMode} : CanonOut (Machine.execTcopy h c l sh t rm) :=
  .run
    (.bind .tensorSlot fun _ =>
      .bind .readSR fun _ =>
      .bind .readG fun _ =>
      .bind .readG fun _ =>
      .bind .readG fun _ =>
      .bind .checkProg fun _ =>
      .bind (.unstamped .tcopyChecks) fun _ =>
      .bind .stampHandle fun _ =>
      .bind .stampHandle fun _ =>
      .bind .opTurn fun _ =>
      .bind .opTurn fun _ =>
      .bind .myself fun _ =>
      .bind (.writerSteps (fun _ => .copyStep)) fun _ => .bind .retireOp fun _ => .bind .publishMine fun _ => .pure)

theorem CanonM.gatherChecks {h need : Nat} : CanonM (Machine.gatherChecks h need) :=
  .bind .stamped fun _ => .ite .pure (.bind .checkHandle fun _ => .bind (.ensure .badFormat) fun _ => .notRefused)

theorem CanonM.gatherRegs {o : TGathered} : CanonM (Machine.gatherRegs o) :=
  .bind .readSrc fun _ => .bind .readG fun _ => .bind (.keepRow .readV) fun _ => .pure

theorem CanonM.laneSteps {ls : List Nat} {f : Nat → M Unit} (hf : ∀ l, CanonM (f l)) : CanonM (Machine.laneSteps ls f) :=
  .bind .myself fun _ => .bind (.loopM fun l => .bind .setProg fun _ => .engineStep (hf l)) fun _ => .setProg

theorem CanonM.gatherLane {v : BitVec 4} {h T : Nat} {crd : Crd} {y : Row} {l : Nat} : CanonM (Machine.gatherLane v h T crd y l) :=
  .keepDone (.bind .entry fun _ => .bind .readRegion fun _ => .bind .getS fun _ => .bind .readV fun _ => .writeV)

theorem CanonM.scatterLane {h : Nat} {crd : Crd} {y v : Row} {l : Nat} : CanonM (Machine.scatterLane h crd y v l) :=
  .bind .entry fun _ => .ite .keepShadow .pure

theorem CanonOut.execVgathT {o : TGathered} : CanonOut (Machine.execVgathT o) :=
  .run
    (.bind .gatherRegs fun _ =>
      .bind .readK fun _ =>
      .bind .gatherChecks fun _ =>
      .bind .stampHandle fun _ => .bind .opTurn fun _ => .bind (.laneSteps (fun _ => .gatherLane)) fun _ => .retireOp)

theorem CanonOut.execVscatT {o : TGathered} : CanonOut (Machine.execVscatT o) :=
  .run
    (.bind .gatherRegs fun _ =>
      .bind (.keepRow .readV) fun _ =>
      .bind .readK fun _ =>
      .bind .gatherChecks fun _ =>
      .bind .stampHandle fun _ =>
      .bind .opTurn fun _ =>
      .longTrap .setProg (.bind (.laneSteps (fun _ => .scatterLane)) fun _ => .bind .publishMine fun _ => .pure))

/-! ## Copies and streamers -/

theorem State.canon.setCopy {s : State} {k : Copy} (h : s.canon) : (s.setCopy k).canon := h.upd

theorem State.canon.copyStalls {s : State} {k : Copy} (h : s.canon) : (s.copyStalls k).canon := by
  unfold State.copyStalls
  dsimp only
  split
  · exact .foldl h fun _ _ h => h.stallEngine
  · exact .foldl (.foldl h fun _ _ h => h.stallEngine) fun _ _ h => h.stallEngine

theorem State.canon.raiseLaunch {s : State} {j : Nat} {id : Word} {tm : Nat} (h : s.canon) : (s.raiseLaunch j id tm).canon :=
  h.modJob

theorem State.canon.retireCopy {s : State} {k : Copy} {tm : Nat} (h : s.canon) : (s.retireCopy k tm).canon :=
  .ite (.boardLeave (.modSlot (.raiseLaunch (.modBank (.ite h.upd h.setCopy)))))
    (.signal (.boardLeave (.modSlot (.raiseLaunch (.modBank (.ite h.upd h.setCopy))))))

theorem State.canon.finishCopy {s : State} {k : Copy} (h : s.canon) : (s.finishCopy k).canon := by
  unfold State.finishCopy
  dsimp only
  split
  · exact h.copyStalls.modTensor.settleIf.retireCopy
  · exact .retireCopy
        (.settleIf
            (by
              split
              · exact h.copyStalls.publishAt.countChunk
              · exact h.copyStalls.publishAt))
  · exact h.copyStalls.retireCopy

theorem State.canon.stopCopy {s : State} {k : Copy} {status : Nat} (h : s.canon) : (s.stopCopy k status).canon := by
  unfold State.stopCopy
  extract_lets i s1 s2 s3 s4 k'
  have h1 : s1.canon := by
    unfold s1
    split
    · exact h.failCtr
    · exact h
  have h2 : s2.canon := by
    unfold s2
    split
    · exact h1.failCtr
    · exact h1
  have h3 : s3.canon := h2.modSlot
  exact .retireCopy (.copyStalls (.ite (.settleIf (.modTensor h3)) h3))

theorem State.canon.drained {s : State} {v : Nat} (h : s.canon) : (s.drained v).canon := h.upd

theorem State.canon.setDues {s : State} {v : Nat} {d : SMap Nat} (h : s.canon) : (s.setDues v d).canon := .ite h.modCore h.upd

/-- What a streamer finds leaves a canonical state. -/
def Served.Canon : Served → Prop
  | .got s _ _ => s.canon
  | _ => True

theorem Served.Canon.of_got {r : Served} (h : r.Canon) {s : State} {ts x : Nat} (e : r = .got s ts x) : s.canon := by
  subst e
  exact h

theorem Lost.served_canon (e : Lost) : e.served.Canon := by
  cases e <;> exact trivial

theorem State.canon.serveSpad {s : State} {c b off m ts : Nat} (h : s.canon) : (s.serveSpad c b off m ts).Canon := by
  unfold State.serveSpad
  split
  · exact trivial
  · exact h.raiseSpw

theorem State.canon.serveLocal {s : State} {k : Copy} {a m ts : Nat} (h : s.canon) : (s.serveLocal k a m ts).Canon := by
  unfold State.serveLocal
  split
  · exact h.serveSpad
  · exact h.raiseSpw

theorem State.canon.servePieces {k : Copy} {l : List (Nat × Nat × Nat)} :
    ∀ {s : State} {ts : Nat}, s.canon → (s.servePieces k ts l).Canon := by
  induction l with
  | nil => exact fun h => h
  | cons p l ih =>
    intro s ts h
    have h1 := State.canon.serveLocal (k := k) (a := p.1) (m := p.2.1) (ts := ts) h
    unfold State.servePieces
    split
    · next e1 =>
      have h2 := fun ts => ih (ts := ts) (h1.of_got e1)
      split
      · next e2 => exact (h2 _).of_got e2
      · exact h2 _
    · exact h1

theorem State.canon.copyTurn {s : State} {k : Copy} (h : s.canon) : (s.copyTurn k).Canon := by
  unfold State.copyTurn
  dsimp only
  split
  · exact h
  · split
    · exact trivial
    · split
      · split
        · exact trivial
        · split
          · exact trivial
          · split
            · exact h.modTensor
            · exact trivial
      · exact h

theorem State.canon.serve {s : State} {k : Copy} {o m : Nat} (h : s.canon) : (s.serve k o m).Canon := by
  have ht := State.canon.copyTurn (k := k) h
  unfold State.serve
  dsimp only
  split
  · split
    · split
      · exact trivial
      · split
        · exact trivial
        · exact h.serveSpad
    · split
      · next e => exact h.agentLoad e
      · exact Lost.served_canon _
  · exact h.servePieces
  · split
    · next e =>
      split
      · exact trivial
      · split
        · exact trivial
        · split
          · exact Lost.served_canon _
          · next e1 => exact (State.canon.tensRead (ht.of_got e)).readAlias e1
    · exact ht
  · split
    · next e => exact State.canon.servePieces (ht.of_got e)
    · exact ht

theorem State.canon.readChunk {s : State} {k : Copy} {o : Nat} (h : s.canon) {u : State} (e : s.readChunk k o = some u) : u.canon := by
  unfold State.readChunk at e
  dsimp only at e
  split at e
  · cases e
  · rw [← Option.some.inj e]
    exact h.stopCopy
  · next e1 =>
    have h1 : State.canon _ := h.serve.of_got e1
    rw [← Option.some.inj e]
    exact .ite (.boardLeave (.setCopy h1)) (.setCopy h1)

theorem State.canon.sendChunk {s : State} {k : Copy} (h : s.canon) {u : State} (e : s.sendChunk k = some u) : u.canon := by
  have hc : Served.Canon (if k.isTile then s.copyTurn k else .got s 0 0) := by
    split
    · exact h.copyTurn
    · exact h
  unfold State.sendChunk at e
  dsimp only at e
  split at e
  · rw [← Option.some.inj e]
    exact .stopCopy h.log
  · split at e
    · cases e
    · rw [← Option.some.inj e]
      exact h.stopCopy
    · next e1 =>
      have h1 := hc.of_got e1
      split at e
      · exact h1.readChunk e
      · obtain ⟨t, ht, rfl⟩ := Option.map_eq_some_iff.mp e
        refine State.canon.setDues ?_
        split at ht
        · exact h1.readChunk ht
        · rw [← Option.some.inj ht]
          exact .setCopy h1

theorem State.canon.serveChunk {s : State} {k : Copy} {o : Nat} (h : s.canon) {u : State} (e : s.serveChunk k o = some u) : u.canon := by
  unfold State.serveChunk at e
  dsimp only at e
  split at e
  · cases e
    exact h.setCopy
  · exact h.readChunk e

theorem State.canon.privWords {s : State} {t : Nat} {ws : List Nat} {a n v ts : Nat} (h : s.canon) :
    (s.privWords t ws a n v ts).canon := .foldl h fun _ _ h => h.writeLocal.notify

theorem State.canon.writeChunk {s : State} {k : Copy} {o m x ts : Nat} {ws : List Nat} (h : s.canon) :
    (s.writeChunk k o m x ts ws).Canon := by
  unfold State.writeChunk
  dsimp only
  split
  · split
    · split
      · exact trivial
      · exact h.padWords
    · split
      · exact trivial
      · split
        · exact trivial
        · split
          · exact trivial
          · exact State.canon.foldlFst h fun p v h => .iteFst (State.canon.hostPut h.sample) (State.canon.storeAt h.sample)
  · exact h
  · exact h.foldl fun _ _ h => .ite h.padWords h.privWords

theorem State.canon.landChunk {s : State} {k : Copy} {o mask : Nat} (h : s.canon) : (s.landChunk k o mask).canon := by
  unfold State.landChunk
  dsimp only
  split
  · exact h
  · exact h.stopCopy
  · next s1 ts1 _ e =>
    have h1 : s1.canon := h.writeChunk.of_got e
    have h2 : (match k.padOf with | some p => s1.raiseSpw p.1 p.2 ts1 | none => s1).canon := by
      split
      · exact h1.raiseSpw
      · exact h1
    split
    · exact h1.setCopy
    · refine .ite (State.canon.finishCopy ?_) ?_ <;>
      · split
        · exact State.canon.countChunk (State.canon.setCopy h2)
        · exact State.canon.setCopy h2

theorem State.canon.ackChunk {s : State} {k : Copy} {o : Nat} (h : s.canon) : (s.ackChunk k o).canon := by
  unfold State.ackChunk
  dsimp only
  split
  · exact .countChunk (.ite h.upd h.setCopy)
  · exact .ite h.upd h.setCopy

/-- What a streamer's class holds leaves a canonical state. -/
def CanonHead (f : Nat → Head) : Prop := ∀ cls n t, f cls = some (some (n, t)) → t.canon

theorem drr_canon {head : Nat → Head} (hh : CanonHead head) {b fuel : Nat} :
    ∀ {d : SMap Nat} {t : State}, (drr head b fuel d).2 = some t → t.canon := by
  induction fuel with
  | zero => exact fun e => nomatch e
  | succ fuel ih =>
    intro d t e
    unfold drr at e
    dsimp only at e
    split at e
    · exact ih e
    · exact ih e
    · next e1 =>
      have h1 := hh _ _ _ e1
      split at e
      · split at e
        · exact Option.some.inj e ▸ h1
        · exact ih e
      · split at e
        · exact Option.some.inj e ▸ h1
        · exact ih e

theorem State.drrStep_canon {s : State} {v b : Nat} {head : Nat → Head} (hh : CanonHead head) {u : State}
    (e : s.drrStep v b head = some u) : u.canon := by
  obtain ⟨t, ht, rfl⟩ := Option.map_eq_some_iff.mp e
  exact State.canon.setDues (drr_canon hh ht)

theorem State.canon.nextSend {s : State} {c : Nat} (h : s.canon) : CanonHead fun cls => s.nextSend c cls := by
  intro cls n t e
  dsimp only at e
  unfold State.nextSend at e
  split at e
  · cases e
  · obtain ⟨u, hu, hp⟩ := Option.map_eq_some_iff.mp (Option.some.inj e)
    cases hp
    exact h.sendChunk hu

theorem State.canon.sendNext {s : State} {c : Nat} (h : s.canon) {u : State} (e : s.sendNext c = some u) : u.canon :=
  State.drrStep_canon h.nextSend e

theorem State.canon.nextServe {s : State} {v : Nat} (h : s.canon) : CanonHead fun cls => s.nextServe v cls := by
  intro cls n t e
  obtain ⟨q, -, hq⟩ := Option.map_eq_some_iff.mp e
  obtain ⟨u, hu, hp⟩ := Option.map_eq_some_iff.mp hq
  cases hp
  exact h.serveChunk hu

theorem State.canon.serveNext {s : State} {v : Nat} (h : s.canon) {u : State} (e : s.serveNext v = some u) : u.canon :=
  State.drrStep_canon h.nextServe e

theorem State.canon.serveUntil {n v c b id o : Nat} : ∀ {s : State}, s.canon → (State.serveUntil n s v c b id o).canon := by
  induction n with
  | zero => exact fun h => h
  | succ n ih =>
    intro s h
    unfold State.serveUntil
    split
    · split
      · exact h
      · next e => exact ih (h.serveNext e)
    · exact h

theorem State.canon.eachMark {s : State} {c b id : Nat} {l : Copy → List Nat} {f : State → Copy → Nat → State} (h : s.canon)
    (hf : ∀ s k o, s.canon → (f s k o).canon) : (s.eachMark c b id l f).canon := by
  unfold State.eachMark
  split
  · exact h
  · refine h.foldl fun s o h => ?_
    split
    · exact h
    · exact hf _ _ _ h

theorem State.canon.promptCopy {s : State} {c b id : Nat} (h : s.canon) : (s.promptCopy c b id).canon := by
  have h1 : ∀ (s : State) (k : Copy) (o : Nat), s.canon →
      (match s.server k o with | none => s | some v => s.serveUntil (s.askedCount + 1) v c b id o : State).canon := by
    intro s k o h
    split
    · exact h
    · exact h.serveUntil
  have h2 := ((h.eachMark (c := c) (b := b) (id := id) (l := fun k => k.marks 54) h1).eachMark (c := c) (b := b) (id := id)
    (l := Copy.coming) fun _ k o h => h.landChunk (k := k) (o := o) (mask := 0)).eachMark (c := c) (b := b) (id := id)
    (l := fun k => k.marks 52) fun _ k o h => h.ackChunk (k := k) (o := o)
  unfold State.promptCopy
  dsimp only
  split
  · exact h2
  · exact .ite (State.canon.finishCopy h2) h2

theorem State.canon.runQueue {n c : Nat} : ∀ {s : State}, s.canon → (State.runQueue n s c).canon := by
  induction n with
  | zero => exact fun h => h
  | succ n ih =>
    intro s h
    unfold State.runQueue
    split
    · exact h
    · next e => exact ih ((h.sendNext e).foldl fun _ _ h => h.promptCopy)

theorem CanonM.copyPrio {p : Option (BitVec 2)} : CanonM (Machine.copyPrio p) := .bind .myself fun _ => .pure

theorem CanonM.checkGlobal {a : Int} {n : Nat} {wr : Bool} : CanonM (Machine.checkGlobal a n wr) :=
  .bind .getS fun _ => by
    dsimp only
    split
    · exact .pure
    · exact .trap

theorem CanonM.copyRoom : CanonM Machine.copyRoom := .bind .getS fun _ => .ite .park .pure

theorem CanonM.newCopy {kind glob loc n prio : Nat}
    {rc sc : Option (BitVec 5)} : CanonM (Machine.newCopy kind glob loc n prio rc sc) := .bind .getS fun _ => .pure

theorem CanonM.launchCopy {k : Copy} : CanonM (Machine.launchCopy k) :=
  .bind (.modS fun _ h => h.modBank) fun _ =>
  .bind (.modS fun _ h => h.upd) fun _ =>
  .bind .getS fun _ =>
  .ite (.modS fun _ h => h.stopCopy) (.ite (.modS fun _ h => h.retireCopy) (.ite (.modS fun _ h => h.runQueue) .pure))

theorem CanonM.copyOp {o : CopyArgs} {put : Bool} : CanonM (Machine.copyOp o put) :=
  .bind .readSR fun _ =>
  .bind .readSR fun _ =>
  .bind .readG fun _ =>
  .bind (.ensure .illegalOp) fun _ =>
  .bind .checkLocal fun _ =>
  .bind .checkGlobal fun _ =>
  .bind (.ensure .illegalOp) fun _ =>
  .bind .copyRoom fun _ =>
  .bind .copyPrio fun _ => .bind .newCopy fun _ => .bind .boardEnter fun _ => .bind .writeG fun _ => .launchCopy

theorem CanonOut.execGet {o : CopyArgs} : CanonOut (Machine.execGet o) := .run .copyOp

theorem CanonOut.execPut {o : CopyArgs} : CanonOut (Machine.execPut o) := .run .copyOp

theorem State.canon.adopt {s : State} {k : Copy} (h : s.canon) : (s.adopt k).canon := h.modCore.modTensor

theorem CanonM.tileCopyChecks {o : TCopyArgs} {h l need : Nat} {q : Region}
    {put : Bool} : CanonM (Machine.tileCopyChecks o h l need q put) :=
  .bind .checkHandle fun _ => .bind .checkColumns fun _ => .bind .checkTile fun _ => .bind .copyRoom fun _ => .boardEnter

theorem CanonM.tileCopyOf {o : TCopyArgs} {h l T : Nat} {q : Region} {put : Bool} : CanonM (Machine.tileCopyOf o h l T q put) :=
  .bind .entry fun _ => .bind .copyPrio fun _ => .bind .newCopy fun _ => .bind (.modS fun _ h => h.adopt) fun _ => .pure

theorem CanonM.tileCopy {o : TCopyArgs} {put : Bool} : CanonM (Machine.tileCopy o put) :=
  .bind .readSR fun _ =>
  .bind .readSR fun _ =>
  .bind .readSR fun _ =>
  .bind (.unstamped .tileCopyChecks) fun _ =>
  .bind .myself fun _ =>
  .ite
    (.bind .pure fun _ =>
      .bind .copyRoom fun _ => .bind .tileCopyOf fun _ => .ite .launchCopy (.bind .writeG fun _ => .launchCopy))
    (.bind .stampHandle fun _ =>
      .bind .copyRoom fun _ => .bind .tileCopyOf fun _ => .ite .launchCopy (.bind .writeG fun _ => .launchCopy))

theorem CanonOut.execGett {o : TCopyArgs} : CanonOut (Machine.execGett o) := .run .tileCopy

theorem CanonOut.execPutt {o : TCopyArgs} : CanonOut (Machine.execPutt o) := .run .tileCopy

theorem CanonOut.execCopyChunk {core : Nat} : CanonOut (Machine.execCopyChunk core) :=
  .event fun s h => State.canon.getD (s := { s with picks := s.picks.tail }) h fun t e => by
    unfold Option.orElse at e
    split at e
    · next e1 =>
      split at e1
      · cases e
        exact State.canon.sendNext (s := { s with picks := s.picks.tail }) h e1
      · cases e1
    · exact State.canon.serveNext (s := { s with picks := s.picks.tail }) h e

theorem State.canon.choose {s : State} {l : List Nat} (h : s.canon) : (s.choose l).2.canon := by
  unfold State.choose
  split
  · exact h
  · exact h

theorem CanonOut.execChunkVisible {core bank id : Nat} : CanonOut (Machine.execChunkVisible core bank id) :=
  .event fun s h => by
    split
    · exact h
    · next k _ =>
      have h1 := h.choose (l := k.coming)
      split
      · next e => rwa [e] at h1
      · next e =>
        rw [e] at h1
        exact State.canon.landChunk h1

theorem CanonOut.execChunkAck {core bank id : Nat} : CanonOut (Machine.execChunkAck core bank id) :=
  .event fun s h => by
    split
    · exact h
    · next k _ =>
      have h1 := h.choose (l := k.marks 52)
      split
      · next e => rwa [e] at h1
      · next e =>
        rw [e] at h1
        exact State.canon.ackChunk h1

theorem CanonOut.execCopyDone {core bank id : Nat} : CanonOut (Machine.execCopyDone core bank id) :=
  .event fun _ h => by
    split
    · exact h
    · exact .ite h.finishCopy h

theorem CanonOut.execCopyStop {core bank id status : Nat} : CanonOut (Machine.execCopyStop core bank id status) :=
  .event fun _ h => by
    split
    · exact h
    · exact .ite h h.stopCopy

/-! ## The matrix engine -/

theorem CanonM.matrixSlot : CanonM Machine.matrixSlot := .bind .getS fun _ => .ensure .illegalOp

theorem CanonM.modAcc {l : Nat} {f : Acc → Acc} : CanonM (Machine.modAcc l f) := .modS fun _ h => h.modCluster

theorem CanonM.accRefused {α : Type} : CanonM (Machine.accRefused : M α) := .illegalOp

theorem CanonM.waitAcc {α : Type} {l : Nat} : CanonM (Machine.waitAcc l : M α) :=
  .bind .getS fun _ => .bind .modAcc fun _ => .park

theorem CanonM.openAcc {l : Nat} {free : Bool} : CanonM (Machine.openAcc l free) :=
  .bind .myWait fun _ =>
  .ite .pure
    (.bind .getS fun _ => .ite .accRefused (.ite .pure (.ite (.bind .modAcc fun _ => .bind .keepWait fun _ => .pure) .waitAcc)))

theorem CanonM.accKept : CanonM Machine.accKept := .keepWait

theorem CanonM.ownAcc {l : Nat} {parked : Bool} : CanonM (Machine.ownAcc l parked) :=
  .bind .getS fun _ => .ite (.ite .pure .waitAcc) (.ite .accRefused .pure)

theorem CanonM.checkAccPoison {l : Nat} : CanonM (Machine.checkAccPoison l) := .bind .getS fun _ => .ensure .dataLost

theorem CanonM.checkCluster {v n : Nat} {wr : Bool} : CanonM (Machine.checkCluster v n wr) := .ensure .trap

theorem CanonM.padRead {c a n : Nat} : CanonM (Machine.padRead c a n) :=
  .bind .getS fun _ => by
    split
    · exact .dataLost
    · exact .bind (.modS fun _ h => h.stallEngine) fun _ => .pure

theorem CanonM.padRow {c a : Nat} {f : Tag} {c0 n len : Nat} : CanonM (Machine.padRow c a f c0 n len) := by
  unfold Machine.padRow
  split
  · exact .bind .padRead fun _ => .pure
  · exact .bind .padRead fun _ => .pure
  · exact .bind .padRead fun _ => .pure
  · exact .bind .padRead fun _ => .bind .padRead fun _ => .pure
  · exact .bind .padRead fun _ => .pure

theorem CanonM.dxRow {h : Nat} {t : Tensor} {T : Nat} {o : Operand} {i : Nat}
    {ks : List Nat} : CanonM (Machine.dxRow h t T o i ks) :=
  .bind
      (.mapL
          (fun _ =>
            .ite (.bind .planeLoad fun _ => .bind .planeLoad fun _ => .bind .planeLoad fun _ => .bind .getS fun _ => .pure)
              .pure)) fun _ =>
  .pure

theorem CanonM.handleRow {h : Nat} {t : Tensor} {T : Nat} {o : Operand} {i : Nat}
    {ks : List Nat} : CanonM (Machine.handleRow h t T o i ks) := by
  unfold Machine.handleRow
  split
  · exact .dxRow
  · exact .dxRow
  · exact .bind (.mapL (fun _ => .elemValue)) fun _ => .pure

theorem CanonM.readRegions {h : Nat} {t : Tensor} {T : Nat} {qs : List Region}
    {cols : Bool} : CanonM (Machine.readRegions h t T qs cols) :=
  .loopM fun _ => by
    split
    · exact .readRegion
    · exact .pure

theorem CanonM.opRows {o : Operand} {T p k g : Nat} : CanonM (Machine.opRows o T p k g) := by
  unfold Machine.opRows
  split
  · exact .bind .entry fun _ => .ite (.mapL (fun _ => .handleRow)) (.bind .readRegions fun _ => .mapL (fun _ => .handleRow))
  · exact .bind .getS fun _ =>
      .ite (.bind (.mapL (fun _ => .padRow)) fun _ => .pure) (.bind (.mapL (fun _ => .padRow)) fun _ => .pure)

theorem CanonM.mmStep {l mm nn : Nat} {ints : Bool} {as bs : List OpRow} : CanonM (Machine.mmStep l mm nn ints as bs) :=
  .bind .getS fun _ => .bind .modAcc fun _ => .ite .pure (.modS fun _ h => h.upd)

theorem CanonM.operandStale {o : Operand} : CanonM (Machine.operandStale o) := by
  unfold Machine.operandStale
  split
  · exact .pure
  · exact .bind .checkStale fun _ => .pure

theorem CanonM.operandCaps {o : Operand} {need : Nat} : CanonM (Machine.operandCaps o need) := by
  unfold Machine.operandCaps
  split
  · exact .pure
  · exact .bind .checkHandle fun _ => .pure

theorem CanonM.handleOperand {o : Operand} : CanonM (Machine.handleOperand o) := by
  unfold Machine.handleOperand
  split
  · exact .pure
  · exact .bind .checkStale fun _ => .bind (.ensure .badFormat) fun _ => .pure

theorem CanonM.padAddress {o : Operand} {p k : Nat} : CanonM (Machine.padAddress o p k) := by
  unfold Machine.padAddress
  split
  · exact .pure
  · exact .checkCluster

theorem CanonM.padAlign {o : Operand} {p k : Nat} : CanonM (Machine.padAlign o p k) := by
  unfold Machine.padAlign
  split
  · exact .pure
  · exact .ensure .trap

theorem CanonM.padPark {c a n rows stride : Nat} : CanonM (Machine.padPark c a n rows stride) :=
  .bind .getS fun _ => .ite .park .pure

theorem CanonM.padBoard {o : Operand} {p k : Nat} : CanonM (Machine.padBoard o p k) := by
  unfold Machine.padBoard
  split
  · exact .pure
  · exact .bind .getS fun _ => .padPark

theorem CanonM.planePass {o : Operand} {T p k : Nat} : CanonM (Machine.planePass o T p k) := by
  unfold Machine.planePass
  split
  · exact .pure
  · exact .bind .entry fun _ =>
      .ite .pure
        (.loopM fun _ => by
            split
            · exact .bind .planeLoad fun _ => .pure
            · exact .pure)

theorem CanonM.stampOperand {n hH : Nat} {o : Operand} {need k p : Nat} : CanonM (Machine.stampOperand n hH o need k p) := by
  unfold Machine.stampOperand
  split
  · exact .pure
  · exact .stampHandle

theorem CanonM.operandTurn {o : Operand} {T : Nat} : CanonM (Machine.operandTurn o T) := by
  unfold Machine.operandTurn
  split
  · exact .pure
  · exact .opTurn

theorem CanonM.operandRetire {o : Operand} {T : Nat} : CanonM (Machine.operandRetire o T) := by
  unfold Machine.operandRetire
  split
  · exact .pure
  · exact .retireOp

theorem CanonM.padStamps {os : List Operand} : CanonM (Machine.padStamps os) :=
  .modS fun _ h => .foldl h.modSlot fun _ _ h => h.raiseSpw

theorem CanonM.fillLatch {o : Operand} {T mm K : Nat} : CanonM (Machine.fillLatch o T mm K) :=
  .bind .myWait fun _ => by
    split
    · exact .bind .entry fun _ =>
        .bind .readRegions fun _ => .bind .keepWait fun _ => .bind .pick fun _ => .modS fun _ h => h.modCluster
    · exact .pure

theorem CanonM.mmFirst {m : M Unit} (hm : CanonM m) : CanonM (Machine.mmFirst m) := .bind .myWait fun _ => .ite hm .pure

theorem CanonM.mmPair {mm K : Nat} {a b : Operand} {sparse : Bool} : CanonM (Machine.mmPair mm K a b sparse) :=
  .bind .operandStale fun _ =>
  .bind .operandStale fun _ =>
  .bind .operandCaps fun _ =>
  .bind .operandCaps fun _ =>
  .bind .handleOperand fun _ =>
  .bind .handleOperand fun _ =>
  .bind (.ensure .badFormat) fun _ =>
  .bind (.ensure .badFormat) fun _ => by
    dsimp only
    split
    · exact .bind .notRefused fun _ => by
          split
          · exact .bind (.ensure .badFormat) fun _ =>
              .bind (.ensure .badFormat) fun _ => by
                split
                · exact .badFormat
                · exact .pure
          · split
            · exact .badFormat
            · exact .pure
    · exact .bind .notRefused fun _ => by
          split
          · exact .bind (.ensure .badFormat) fun _ =>
              .bind (.ensure .badFormat) fun _ => by
                split
                · exact .badFormat
                · exact .pure
          · split
            · exact .badFormat
            · exact .pure
    · split
      · exact .bind (.ensure .badFormat) fun _ =>
          .bind (.ensure .badFormat) fun _ => by
            split
            · exact .badFormat
            · exact .pure
      · split
        · exact .badFormat
        · exact .pure

theorem CanonM.mmKind {l : Nat} {fresh ints : Bool} : CanonM (Machine.mmKind l fresh ints) :=
  .bind .getS fun _ => .ite .modAcc (.ensure .badFormat)

theorem CanonM.mmPads {mm nn K : Nat} {a b : Operand} : CanonM (Machine.mmPads mm nn K a b) :=
  .bind .padAddress fun _ =>
  .bind .padAddress fun _ => .bind .padAlign fun _ => .bind .padAlign fun _ => .mmFirst (.bind .padBoard fun _ => .padBoard)

theorem CanonM.mmStamps {mm nn K na nb : Nat} {a b : Operand} : CanonM (Machine.mmStamps mm nn K na nb a b) :=
  .bind .stampOperand fun _ =>
  .bind .stampOperand fun _ =>
  .bind .operandTurn fun _ =>
  .bind .operandTurn fun _ => .bind (.mmFirst (.bind .planePass fun _ => .planePass)) fun _ => .bind .fillLatch fun _ => .pure

theorem CanonM.mmGroups {l mm nn G : Nat} {ints : Bool} {a b : Operand}
    {Ta Tb : Nat} : CanonM (Machine.mmGroups l mm nn G ints a b Ta Tb) :=
  .bind .myself fun _ =>
  .bind
      (.loopM fun _ =>
        .longStep .pure
          (.bind .accKept fun _ => .bind .checkAccPoison fun _ => .bind .opRows fun _ => .bind .opRows fun _ => .mmStep)) fun _ =>
  .setProg

theorem CanonM.mmClose {l : Nat} {sh : MShape} {a b : Operand} {Ta Tb : Nat} : CanonM (Machine.mmClose l sh a b Ta Tb) :=
  .bind .modAcc fun _ => .bind .operandRetire fun _ => .bind .operandRetire fun _ => .padStamps

theorem CanonM.multiply {l : Nat} {sh : MShape} {a b : Operand} {sparse : Bool} : CanonM (Machine.multiply l sh a b sparse) :=
  .bind .checkProg fun _ =>
  .bind .openAcc fun _ =>
  .bind .mmPair fun _ =>
  .bind .mmKind fun _ => .bind .mmPads fun _ => .bind .mmStamps fun _ => .bind .mmGroups fun _ => .mmClose

theorem CanonM.strides {n : BitVec 5} : CanonM (Machine.strides n) := .ite .pure (.bind .readG fun _ => .pure)

theorem CanonOut.execMma {o : MmaArgs} : CanonOut (Machine.execMma o) :=
  .run (.bind .matrixSlot fun _ => .bind .readSR fun _ => .bind .readSR fun _ => .bind .strides fun _ => .multiply)

theorem CanonOut.execMmat {o : MmatArgs} : CanonOut (Machine.execMmat o) :=
  .run
    (.bind .matrixSlot fun _ =>
      .bind .readG fun _ => .bind .readG fun _ => .bind .readG fun _ => .bind .strides fun _ => .multiply)

theorem CanonOut.execMmag {o : MmagArgs} : CanonOut (Machine.execMmag o) :=
  .run
    (.bind .matrixSlot fun _ =>
      .bind .readG fun _ => .bind .readG fun _ => .bind (.keepRow .readV) fun _ => .bind (.keepRow .readV) fun _ => .multiply)

theorem CanonOut.execMmas {h c : BitVec 5} {l : BitVec 4} {sh : MShape} : CanonOut (Machine.execMmas h c l sh) :=
  .run (.bind .matrixSlot fun _ => .bind .readG fun _ => .bind .readG fun _ => .bind .readG fun _ => .multiply)

theorem CanonOut.execAzero {l : BitVec 4} {i32 : Bool} : CanonOut (Machine.execAzero l i32) :=
  .run (.bind .matrixSlot fun _ => .bind .openAcc fun _ => .modAcc)

theorem CanonOut.execArel {l : BitVec 4} : CanonOut (Machine.execArel l) :=
  .run (.bind .matrixSlot fun _ => .bind .ownAcc fun _ => .ite .park .modAcc)

theorem CanonOut.execAclaim {l : BitVec 4} : CanonOut (Machine.execAclaim l) :=
  .run (.bind .matrixSlot fun _ => .bind .getS fun _ => .ite .accRefused (.ite .park .modAcc))

theorem CanonM.epiArray {used : Bool} {a n : Nat} : CanonM (Machine.epiArray used a n) :=
  .ite (.bind .checkLocal fun _ => .bind .boardPark fun _ => .engineRead) .pure

theorem CanonM.epiDesc {a : Word} {mm nn : Nat} : CanonM (Machine.epiDesc a mm nn) :=
  .bind .checkLocal fun _ =>
  .bind .aligned fun _ =>
  .bind .boardPark fun _ =>
  .bind .engineRead fun _ =>
  .bind (.ensure .illegalOp) fun _ => .bind .epiArray fun _ => .bind .epiArray fun _ => .bind .epiArray fun _ => .pure

theorem CanonM.keptDesc {n : BitVec 5} {mm nn : Nat} : CanonM (Machine.keptDesc n mm nn) :=
  .bind .myWait fun _ =>
  .ite .pure (.bind (.ite .pure (.bind .readG fun _ => .epiDesc)) fun _ => .bind .keepWait fun _ => .pure)

theorem CanonM.epiStep {l : Nat} {hnd : Bool} {m : M Unit} (hm : CanonM m) : CanonM (Machine.epiStep l hnd m) := by
  intro s h
  unfold Machine.epiStep
  split
  · split
    · next e => exact CanonM.ok (.bind .modAcc fun _ => .ite .setProg .pure) h e
    · next e => exact CanonM.error (.bind .modAcc fun _ => .ite .setProg .pure) h e
  · exact hm s h

theorem CanonM.epiBegin {l : Nat} : CanonM (Machine.epiBegin l) :=
  .bind .getS fun _ => .bind .myWait fun _ => .ite (.bind .keepWait fun _ => .modAcc) .pure

theorem CanonM.epiGuard {l : Nat} {m : M Unit} (hm : CanonM m) : CanonM (Machine.epiGuard l m) := by
  intro s h
  unfold Machine.epiGuard
  split
  · dsimp only
    split
    · next e => exact CanonM.ok (.bind .modAcc fun _ => .ite .setProg .pure) h e
    · next e => exact CanonM.error (.bind .modAcc fun _ => .ite .setProg .pure) h e
  · exact hm s h

theorem CanonM.epiEnd {l : Nat} {rel : Bool} : CanonM (Machine.epiEnd l rel) := .modAcc

theorem CanonM.writeRows {c : Nat} {rs : List (Nat × Nat × Nat)} : CanonM (Machine.writeRows c rs) :=
  .bind .getS fun _ =>
  .bind .myWait fun _ =>
  .bind (.modS fun _ h => h.upd) fun _ =>
  .bind (.loopM fun _ => .modS fun _ h => h.padWords) fun _ => .bind .keepWait fun _ => .ite .pure .park

theorem CanonM.epiPoison {l : Nat} : CanonM (Machine.epiPoison l) := .bind .myWait fun _ => .ite .checkAccPoison .pure

theorem CanonM.epiPad {l c base stride mm nn : Nat} {df : Tag} {d : EpiDesc} {act : Act}
    {k : Rnd} : CanonM (Machine.epiPad l c base stride mm nn df d act k) :=
  .bind .myself fun _ =>
  .bind
      (.loopM fun _ =>
        .bind .setProg fun _ =>
        .engineStep
          (.epiStep
              (.bind .epiPoison fun _ =>
                .bind .getS fun _ => .bind .writeRows fun _ => .loopM fun _ => .modS fun _ h => h.stallEngine))) fun _ =>
  .bind .setProg fun _ => .modS fun _ h => h.modSlot.raiseSpw

theorem CanonM.epiShadow {l h T : Nat} {q : Region} {df : Tag} {d : EpiDesc} {act : Act}
    {k : Rnd} : CanonM (Machine.epiShadow l h T q df d act k) :=
  .bind .myself fun _ =>
  .bind
      (.loopM fun _ =>
        .bind .setProg fun _ =>
        .engineStep (.epiStep (.bind .checkAccPoison fun _ => .bind .entry fun _ => .bind .getS fun _ => .keepShadow))) fun _ =>
  .bind .setProg fun _ => .bind .publishMine fun _ => .pure

theorem CanonM.epiAdd {l h T : Nat} {q : Region} {df : Tag} {d : EpiDesc} {act : Act}
    {k : Rnd} : CanonM (Machine.epiAdd l h T q df d act k) :=
  .bind .entry fun _ =>
  .bind (.engineStep (.epiStep (.bind .checkAccPoison fun _ => .readRegion))) fun _ =>
  .bind .getS fun _ => .bind .addLines fun _ => .bind .retireOp fun _ => .modMe

theorem CanonM.aepiPad {o : AepiArgs} {l v mm nn : Nat} {k : Rnd} : CanonM (Machine.aepiPad o l v mm nn k) :=
  .bind .keptDesc fun _ =>
  .bind .checkCluster fun _ =>
  .bind .getS fun _ =>
  .bind .myWait fun _ => .ite (.bind .padPark fun _ => .bind .epiBegin fun _ => .epiPad) (.bind .epiBegin fun _ => .epiPad)

theorem CanonM.aepiHandle {o : AepiArgs} {l h mm nn : Nat} {k : Rnd} : CanonM (Machine.aepiHandle o l h mm nn k) :=
  .bind .readG fun _ =>
  .bind .stamped fun _ =>
  .ite
    (.bind .keptDesc fun _ =>
      .bind .epiBegin fun _ => .bind .stampHandle fun _ => .bind (.epiStep .opTurn) fun _ => .ite .epiAdd .epiShadow)
    (.bind .checkHandle fun _ =>
      .bind (.ensure .badFormat) fun _ =>
      .bind .notRefused fun _ =>
      .bind .keptDesc fun _ =>
      .bind .epiBegin fun _ => .bind .stampHandle fun _ => .bind (.epiStep .opTurn) fun _ => .ite .epiAdd .epiShadow)

theorem CanonOut.execAepi {o : AepiArgs} : CanonOut (Machine.execAepi o) :=
  .run
    (.bind .matrixSlot fun _ =>
      .bind .readSR fun _ =>
      .bind .ownAcc fun _ =>
      .bind .myself fun _ => by
        split
        · exact .badFormat
        · exact .bind (.epiGuard (.ite .aepiPad .aepiHandle)) fun _ => .epiEnd)

theorem CanonM.checkImage {h : Word} {wr : Bool} : CanonM (Machine.checkImage h wr) :=
  .loopM fun _ => .bind .behalf fun _ => .pure

theorem CanonM.saveLines {hv : Word} {a : Acc} : CanonM (Machine.saveLines hv a) :=
  .bind (.loopM fun _ => .bind .behalf fun _ => .behalfGate) fun _ =>
  .bind .await fun _ => .loopM fun _ => .bind .behalf fun _ => .behalfPut

theorem CanonM.loadLines {hv : Word} : CanonM (Machine.loadLines hv) :=
  .loopM fun _ => .bind .myWait fun _ => .ite .pure (.bind .behalfLoad fun _ => .keepWait)

theorem CanonOut.execAsave {h : SReg} {l : BitVec 4} : CanonOut (Machine.execAsave h l) :=
  .run
    (.bind .matrixSlot fun _ =>
      .bind .readSR fun _ =>
      .bind .ownAcc fun _ =>
      .bind .getS fun _ =>
      .ite .accRefused
        (.bind .aligned fun _ =>
          .ite .park (.bind .checkImage fun _ => .bind .checkAccPoison fun _ => .bind .saveLines fun _ => .ite .modAcc .pure)))

theorem CanonOut.execAload {h : SReg} {l : BitVec 4} : CanonOut (Machine.execAload h l) :=
  .run
    (.bind .matrixSlot fun _ =>
      .bind .readSR fun _ =>
      .bind .openAcc fun _ =>
      .bind .aligned fun _ =>
      .bind .checkImage fun _ =>
      .bind .loadLines fun _ =>
      .bind .myWait fun _ =>
      .bind .getS fun _ => by
        split
        · exact .trap
        · exact .modAcc)

/-! ## Collectives -/

theorem State.canon.collTurn {s : State} {c : Coll} (h : s.canon) {u : State} (e : s.collTurn c = some u) : u.canon := by
  refine foldl_some h (fun o p r ho hr => ?_) e
  cases o with
  | none => cases hr
  | some t =>
    have ht := ho t rfl
    dsimp only [Option.bind] at hr
    split at hr
    · cases hr
      exact ht
    · split at hr
      · cases hr
      · split at hr
        · cases hr
          exact ht
        · split at hr
          · cases hr
            exact ht.modTensor
          · cases hr

theorem State.canon.collRead {s : State} {c : Coll} (h : s.canon) {p : State × Nat} (e : s.collRead c = .ok p) : p.1.canon := by
  refine foldl_ok (P := fun q : State × Nat => q.1.canon) h (fun o x r ho hr => ?_) e
  cases o with
  | error x => cases hr
  | ok q =>
    refine foldl_ok (P := fun q : State × Nat => q.1.canon) (ho q rfl) (fun o x r ho hr => ?_) hr
    cases o with
    | error x => cases hr
    | ok q =>
      dsimp only [Except.bind, bind, Except.map] at hr
      split at hr
      · cases hr
      · next e1 =>
        have h1 := (ho q rfl).readAlias e1
        cases hr
        exact h1

theorem State.canon.setColl {s : State} {c : Coll} {x : Option Coll} (h : s.canon) : (s.setColl c x).canon := h.upd

theorem State.canon.failColl {s : State} {c : Coll} {err : Nat} (h : s.canon) : (s.failColl c err).canon :=
  .setColl
    (by
      split
      · exact .failCtr (.foldl h fun _ _ h => h.modTensor.settleIf)
      · exact .foldl h fun _ _ h => h.modTensor.settleIf)

theorem State.canon.failGroup {s : State} {c : Coll} {err : Nat} (h : s.canon) : (s.failGroup c err).canon :=
  .foldl h fun _ _ h => h.failColl

theorem State.canon.publishColl {s : State} {c : Coll} (h : s.canon) : (s.publishColl c).canon :=
  .setColl
    (.upd
        (.modSlot
            (.raiseLaunch
                (by
                  split
                  · exact .countChunk (.settleIf (.ite h.publishAs h.publishAs.publishAs.settleIf))
                  · exact .settleIf (.ite h.publishAs h.publishAs.publishAs.settleIf)))))

theorem State.canon.stepColl {s : State} {c : Coll} (h : s.canon) : (s.stepColl c).canon := by
  unfold State.stepColl
  split
  · exact h
  · next e1 =>
      exact .ite (h.collTurn e1).failColl
          (.ite (.ite (h.collTurn e1).publishColl (h.collTurn e1))
              (by
                split
                · exact h.collTurn e1
                · exact h.collTurn e1
                · exact (h.collTurn e1).failColl
                · next e2 =>
                    exact .ite ((h.collTurn e1).collRead e2).setColl.publishColl ((h.collTurn e1).collRead e2).setColl))

theorem State.canon.stepColls {s : State} {l : List Coll} (h : s.canon) : (s.stepColls l).canon :=
  .foldl h fun _ _ h => by
    split
    · exact h
    · exact h.stepColl

theorem CanonM.collChecks {op : Nat} {g : Group} {t : Tensor} {r : Option Tensor} : CanonM (Machine.collChecks op g t r) :=
  .bind (.ensure .badFormat) fun _ =>
  .bind (.ensure .badFormat) fun _ => by
    split
    · exact .pure
    · exact .ensure .badFormat

theorem CanonM.collDesc {a : Nat} : CanonM (Machine.collDesc a) :=
  .bind .myWait fun _ => .ite .pure (.bind .aligned fun _ => .bind .behalfLoad fun _ => .bind .keepWait fun _ => .pure)

theorem CanonM.collRegs {o : CollArgs} : CanonM (Machine.collRegs o) :=
  .bind .matrixSlot fun _ => .bind .readG fun _ => .bind .readG fun _ => .bind (.ite .pure .readG) fun _ => .pure

theorem CanonM.collGuard {op h r x : Nat} {res : Bool} : CanonM (Machine.collGuard op h r x res) :=
  .bind (.ite (.bind .checkTwo fun _ => .pure) (.bind .checkHandle fun _ => .pure)) fun _ =>
  .bind (.ensure .badFormat) fun _ =>
  .bind (.ensure .badFormat) fun _ => .bind .getS fun _ => .bind (.ensure .badFormat) fun _ => .collChecks

theorem CanonM.collPool {h r : Nat} {first : Tensor → Nat} : CanonM (Machine.collPool h r first) :=
  .bind .entry fun _ => .bind .entry fun _ => .checkPool

theorem CanonM.collStamps {h r : Nat} {res : Bool} : CanonM (Machine.collStamps h r res) :=
  .ite
    (.bind (.unstamped .collPool) fun _ =>
      .bind .stampHandle fun _ => .ite (.bind .collPool fun _ => .bind .stampHandle fun _ => .pure) .pure)
    (.bind .stampHandle fun _ => .ite (.bind .collPool fun _ => .bind .stampHandle fun _ => .pure) .pure)

theorem State.canon.joinColl {s : State} {c : Coll} (h : s.canon) : (s.joinColl c).canon :=
  .ite h.upd.failGroup (.ite h.upd.stepColl h.upd)

theorem CanonM.collPoison {c : Coll} : CanonM (Machine.collPoison c) :=
  .loopM fun _ => by
    split
    · exact .bind .entry fun _ => .checkTensorPoison
    · exact .pure

theorem CanonM.collEnter {c : Coll} : CanonM (Machine.collEnter c) :=
  .bind .getS fun _ =>
  .bind
      (.loopM fun _ => by
          split
          · exact .modEntry
          · exact .pure) fun _ =>
  .modS fun _ h => h.joinColl

theorem CanonM.collRefused {o : CollArgs} {h : Nat} : CanonM (Machine.collRefused o h) := by
  unfold Machine.collRefused
  split
  · exact .notRefused
  · exact .modS fun _ h => h.failCtr

theorem CanonM.collOp {o : CollArgs} {op : Nat} : CanonM (Machine.collOp o op) :=
  .bind .collRegs fun _ =>
  .bind .collDesc fun _ =>
  .bind (.unstamped .collGuard) fun _ =>
  .bind .myself fun _ =>
  .ite .collRefused (.bind .collStamps fun _ => .bind .getS fun _ => .bind .collPoison fun _ => .collEnter)

theorem CanonOut.execCollAr {o : CollArgs} : CanonOut (Machine.execCollAr o) := .run .collOp

theorem CanonOut.execCollRs {o : CollArgs} : CanonOut (Machine.execCollRs o) := .run .collOp

theorem CanonOut.execCollAg {o : CollArgs} : CanonOut (Machine.execCollAg o) := .run .collOp

theorem CanonOut.execCollA2a {o : CollArgs} : CanonOut (Machine.execCollA2a o) := .run .collOp

theorem CanonOut.execCollPeerData {t rank : Nat} {same : Bool}
    {data : List (Nat × Nat)} : CanonOut (Machine.execCollPeerData t rank same data) :=
  .event fun _ h => by
    dsimp only
    split
    · exact h
    · exact .ite h.failGroup
          (.ite h
              (.ite
                  (by
                    split
                    · exact h
                    · exact h.setColl.stepColls)
                  h.upd.stepColls))

theorem State.canon.dropColls {s : State} {ext : Bool} (h : s.canon) : (s.dropColls ext).canon :=
  .foldl h fun _ _ h => h.failColl

/-! ## Transfers of control, waiting and ends -/

theorem CanonM.branchIf {c : Bool} {off : BitVec 35} : CanonM (Machine.branchIf c off) :=
  .bind .myself fun _ => .ite .transfer .pure

theorem CanonOut.execBr {c : Cond} {a b : Src} {off : BitVec 35} : CanonOut (Machine.execBr c a b off) :=
  .run (.bind .readAB fun _ => .branchIf)

theorem CanonOut.execJmp {off : BitVec 35} : CanonOut (Machine.execJmp off) := .run .branchIf

theorem CanonOut.execJmpi {a : Src} : CanonOut (Machine.execJmpi a) := .run (.bind .readSrc fun _ => .transfer)

theorem CanonM.checkCallPos : CanonM Machine.checkCallPos := .bind .getS fun _ => .ensure .trap

theorem CanonOut.execCall {off : BitVec 35} : CanonOut (Machine.execCall off) :=
  .run (.bind .checkCallPos fun _ => .bind .myself fun _ => .bind .checkTarget fun _ => .bind .writeG fun _ => .transfer)

theorem CanonOut.execCalli {a : Src} : CanonOut (Machine.execCalli a) :=
  .run
    (.bind .checkCallPos fun _ =>
      .bind .myself fun _ => .bind .readSrc fun _ => .bind .checkTarget fun _ => .bind .writeG fun _ => .transfer)

theorem CanonOut.execLoop {n : BitVec 5} {off : BitVec 35} : CanonOut (Machine.execLoop n off) :=
  .run (.bind .readG fun _ => .bind .writeG fun _ => .branchIf)

theorem CanonOut.execBtag {port : BitVec 3} {table : Src} {mask : SReg} : CanonOut (Machine.execBtag port table mask) :=
  .run
    (.bind .myself fun _ =>
      .bind
          (by
            split
            · exact .pure
            · exact .bind .getS fun _ => by
                  split
                  · exact .park
                  · exact .bind .mergePts fun _ => .bind .latchOp fun _ => .pure) fun _ =>
      .bind .readSrc fun _ => .bind .readSR fun _ => .bind .aligned fun _ => .bind .behalfLoad fun _ => .transfer)

theorem CanonOut.execBkany {ka kb : BitVec 3} {off : BitVec 35} : CanonOut (Machine.execBkany ka kb off) :=
  .run (.bind .readK fun _ => .bind .readK fun _ => .branchIf)

theorem CanonOut.execBkall {ka kb : BitVec 3} {off : BitVec 35} : CanonOut (Machine.execBkall ka kb off) :=
  .run (.bind .readK fun _ => .bind .readK fun _ => .branchIf)

theorem CanonOut.execPark {n : BitVec 32} : CanonOut (Machine.execPark n) := .run (.ite .pure .park)

theorem CanonOut.execParkEv {mask : BitVec 12} : CanonOut (Machine.execParkEv mask) :=
  .run (.bind .getS fun _ => .bind .myWait fun _ => .ite .pure .park)

theorem State.canon.retire {s : State} {t : Nat} (h : s.canon) : (s.retire t).canon := h.endUnit

theorem CanonM.doneOp : CanonM Machine.doneOp :=
  .bind .getS fun _ =>
  .bind (.ensure .illegalOp) fun _ => .bind .waitQuiet fun _ => .ite .park (.bind (.modS fun _ h => h.retire) fun _ => .leave)

theorem CanonOut.execDone : CanonOut Machine.execDone := .run .doneOp

theorem CanonOut.execTrap {code : BitVec 32} : CanonOut (Machine.execTrap code) := .run .trap

theorem CanonOut.execBrkp {code : BitVec 32} : CanonOut (Machine.execBrkp code) := .run .trap

/-! ## TALLOC, TFREE, TWIDEN and TINFO -/

theorem State.canon.allocPlace {s : State} {j : Nat} {d : AllocDesc} {f : Tag} {k : AllocPick} (h : s.canon)
    {p : State × Nat × Nat × Home} (e : s.allocPlace j d f k = .ok p) : p.1.canon := by
  unfold State.allocPlace at e
  split at e
  · cases e
  · split at e
    · cases e
    · dsimp only at e
      split at e
      · cases e
      · split at e
        · split at e
          · cases e
          · split at e
            · cases e
            · next e1 =>
              split at e <;> cases e
              exact h.mapAlias e1
        · split at e <;> cases e
          exact h

theorem State.canon.allocTensor {s : State} {j pts : Nat} {d : AllocDesc} {f : Tag} {data : Nat} {k : AllocPick}
    (h : s.canon) : (s.allocTensor j pts d f data k).1.canon := by
  unfold State.allocTensor
  split
  · exact h
  · next e1 =>
      exact .ite (.foldl (h.allocPlace e1).modTensor.remark.install fun _ _ h => h.setPair)
          (h.allocPlace e1).modTensor.remark.install

theorem CanonM.allocate {d : AllocDesc} {f : Tag} {init : Option Word} : CanonM (Machine.allocate d f init) :=
  .bind .pick fun _ => .bind .pick fun _ => .bind .pick fun _ => .bind .pick fun _ => .bind .getS fun _ =>
    .bind (by
      split
      · exact .engineRead
      · exact .pure) fun _ => .bindS fun _ h => .bind (.modS fun _ _ => h.allocTensor) fun _ => .bind .mergePts fun _ => .pure

theorem CanonM.writeStatus {st : BitVec 5} {x : Nat} : CanonM (Machine.writeStatus st x) := .ite .pure .writeG

theorem CanonM.allocKept {a : Word} : CanonM (Machine.allocKept a) :=
  .bind .myWait fun _ => by
    split
    · exact .pure
    · exact .bind .checkLocal fun _ =>
        .bind .aligned fun _ => .bind .loadLocal fun _ => .bind (.ensure .illegalOp) fun _ => .pure

theorem CanonM.keepAlloc {x : Nat} : CanonM (Machine.keepAlloc x) := .keepWait

theorem CanonOut.execTalloc {h c l st : BitVec 5} : CanonOut (Machine.execTalloc h c l st) :=
  .run
    (.bind .tensorSlot fun _ =>
      .bind .readG fun _ =>
      .bind .allocKept fun _ =>
      .bind (.ite .pure (.bind .readG fun _ => .pure)) fun _ =>
      .bind .getS fun _ => by
        dsimp only
        split
        · exact .bind
                (by
                  split
                  · exact .pure
                  · exact .boardEnter) fun _ =>
            .bind .keepAlloc fun _ =>
            .bind .await fun _ => .bind .allocate fun _ => .bind .boardDone fun _ => .bind .writeG fun _ => .writeStatus
        · exact .bind .keepAlloc fun _ => .bind .await fun _ => .bind .writeG fun _ => .writeStatus)

theorem CanonOut.execTfree {h : SReg} : CanonOut (Machine.execTfree h) :=
  .run
    (.bind .tensorSlot fun _ =>
      .bind .readSR fun _ =>
      .bind .checkStale fun _ =>
      .bind .notRefused fun _ => .bind .stampHandle fun _ => .bind .modEntry fun _ => .modS fun _ h => h.settleIf)

theorem CanonM.widenRun {hn T : Nat} {wait : Bool} : CanonM (Machine.widenRun hn T wait) :=
  .bind .convertFor fun _ =>
  .bind .entry fun _ => by
    split
    · exact .pure
    · exact .ite .park
          (.ite (.bind .retireOp fun _ => .pure)
              (.ite (.bind (.modS fun _ h => .ite h.convert h) fun _ => .bind .entry fun _ => .ite .park .pure) .pure))

theorem CanonM.stampWiden {hn mask : Nat} : CanonM (Machine.stampWiden hn mask) :=
  .bind .getS fun _ =>
  .bind .entry fun _ =>
  .bind (.ite .pure .pick) fun _ =>
  .bind (.ite .pure .pick) fun _ =>
  .bind (.ite .pure .pick) fun _ =>
  .ite .pure (.bind .modEntry fun _ => .bind .mergePts fun _ => .bind .keepWait fun _ => .pure)

theorem CanonOut.execTwiden {h c : SReg} {st : BitVec 5} {wait : Bool} : CanonOut (Machine.execTwiden h c st wait) :=
  .run
    (.bind .tensorSlot fun _ =>
      .bind .readSR fun _ =>
      .bind .readSR fun _ =>
      .bind .myWait fun _ => by
        split
        · exact .bind .widenRun fun _ => .writeStatus
        · exact .bind .checkStale fun _ =>
            .bind .notRefused fun _ =>
            .ite .writeStatus
              (.bind .await fun _ =>
                .bind .getS fun _ =>
                .bind (.ensure .noRoute) fun _ =>
                .bind .checkStale fun _ => by
                  split
                  · exact .bind .stampWiden fun _ => by
                        split
                        split
                        · exact .writeStatus
                        · exact .bind .widenRun fun _ => .writeStatus
                  · exact .writeStatus))

theorem CanonM.keptWord {hn w : Nat} : CanonM (Machine.keptWord hn w) :=
  .bind .myWait fun _ => by
    split
    · exact .pure
    · exact .bind .entry fun _ => .bind .keepWait fun _ => .pure

theorem CanonOut.execTinfo {h l : SReg} {w : BitVec 3} : CanonOut (Machine.execTinfo h l w) :=
  .run
    (.bind .getS fun _ =>
      .bind (.ensure .illegalOp) fun _ =>
      .ite
        (.bind .readSR fun _ =>
          .bind .checkStale fun _ =>
          .bind .notRefused fun _ =>
          .bind .stampHandle fun _ => .bind .keptWord fun _ => .bind .opTurn fun _ => .bind .retireOp fun _ => .writeSR)
        (.bind .tensorSlot fun _ =>
          .bind .readSR fun _ =>
          .bind .checkStale fun _ =>
          .bind .notRefused fun _ =>
          .bind .stampHandle fun _ => .bind .keptWord fun _ => .bind .opTurn fun _ => .bind .retireOp fun _ => .writeSR))

/-! ## Scalar and address instructions -/

theorem CanonM.alu2 {d : SReg} {a b : Src} {f : Word → Word → Word} : CanonM (Machine.alu2 d a b f) :=
  .bind .readAB fun _ => .writeSR

theorem CanonM.alu1 {d : SReg} {a : Src} {f : Word → Word} : CanonM (Machine.alu1 d a f) := .bind .readSrc fun _ => .writeSR

theorem CanonOut.execNop : CanonOut Machine.execNop := .run .pure

theorem CanonOut.execAdd {d : SReg} {a b : Src} : CanonOut (Machine.execAdd d a b) := .run .alu2

theorem CanonOut.execSub {d : SReg} {a b : Src} : CanonOut (Machine.execSub d a b) := .run .alu2

theorem CanonOut.execMul {d : SReg} {a b : Src} : CanonOut (Machine.execMul d a b) := .run .alu2

theorem CanonOut.execMulh {d : SReg} {a b : Src} : CanonOut (Machine.execMulh d a b) := .run .alu2

theorem CanonOut.execMulhn {d : SReg} {a b : Src} : CanonOut (Machine.execMulhn d a b) := .run .alu2

theorem CanonOut.execDiv {d : SReg} {a b : Src} : CanonOut (Machine.execDiv d a b) := .run .alu2

theorem CanonOut.execDivn {d : SReg} {a b : Src} : CanonOut (Machine.execDivn d a b) := .run .alu2

theorem CanonOut.execRem {d : SReg} {a b : Src} : CanonOut (Machine.execRem d a b) := .run .alu2

theorem CanonOut.execRemn {d : SReg} {a b : Src} : CanonOut (Machine.execRemn d a b) := .run .alu2

theorem CanonOut.execAnd {d : SReg} {a b : Src} : CanonOut (Machine.execAnd d a b) := .run .alu2

theorem CanonOut.execOr {d : SReg} {a b : Src} : CanonOut (Machine.execOr d a b) := .run .alu2

theorem CanonOut.execXor {d : SReg} {a b : Src} : CanonOut (Machine.execXor d a b) := .run .alu2

theorem CanonOut.execAndn {d : SReg} {a b : Src} : CanonOut (Machine.execAndn d a b) := .run .alu2

theorem CanonOut.execShl {d : SReg} {a b : Src} : CanonOut (Machine.execShl d a b) := .run .alu2

theorem CanonOut.execShr {d : SReg} {a b : Src} : CanonOut (Machine.execShr d a b) := .run .alu2

theorem CanonOut.execSar {d : SReg} {a b : Src} : CanonOut (Machine.execSar d a b) := .run .alu2

theorem CanonOut.execRol {d : SReg} {a b : Src} : CanonOut (Machine.execRol d a b) := .run .alu2

theorem CanonOut.execMin {d : SReg} {a b : Src} : CanonOut (Machine.execMin d a b) := .run .alu2

theorem CanonOut.execMax {d : SReg} {a b : Src} : CanonOut (Machine.execMax d a b) := .run .alu2

theorem CanonOut.execMinn {d : SReg} {a b : Src} : CanonOut (Machine.execMinn d a b) := .run .alu2

theorem CanonOut.execMaxn {d : SReg} {a b : Src} : CanonOut (Machine.execMaxn d a b) := .run .alu2

theorem CanonOut.execSlt {d : SReg} {a b : Src} : CanonOut (Machine.execSlt d a b) := .run .alu2

theorem CanonOut.execSltn {d : SReg} {a b : Src} : CanonOut (Machine.execSltn d a b) := .run .alu2

theorem CanonOut.execSeq {d : SReg} {a b : Src} : CanonOut (Machine.execSeq d a b) := .run .alu2

theorem CanonOut.execAddi {d : SReg} {a : Src} {imm : BitVec 32} : CanonOut (Machine.execAddi d a imm) := .run .alu1

theorem CanonOut.execAndi {d : SReg} {a : Src} {imm : BitVec 32} : CanonOut (Machine.execAndi d a imm) := .run .alu1

theorem CanonOut.execOri {d : SReg} {a : Src} {imm : BitVec 32} : CanonOut (Machine.execOri d a imm) := .run .alu1

theorem CanonOut.execXori {d : SReg} {a : Src} {imm : BitVec 32} : CanonOut (Machine.execXori d a imm) := .run .alu1

theorem CanonOut.execSlti {d : SReg} {a : Src} {imm : BitVec 32} : CanonOut (Machine.execSlti d a imm) := .run .alu1

theorem CanonOut.execSltiN {d : SReg} {a : Src} {imm : BitVec 32} : CanonOut (Machine.execSltiN d a imm) := .run .alu1

theorem CanonOut.execShli {d : SReg} {a : Src} {n : BitVec 6} : CanonOut (Machine.execShli d a n) := .run .alu1

theorem CanonOut.execShri {d : SReg} {a : Src} {n : BitVec 6} : CanonOut (Machine.execShri d a n) := .run .alu1

theorem CanonOut.execSari {d : SReg} {a : Src} {n : BitVec 6} : CanonOut (Machine.execSari d a n) := .run .alu1

theorem CanonOut.execRoli {d : SReg} {a : Src} {n : BitVec 6} : CanonOut (Machine.execRoli d a n) := .run .alu1

theorem CanonOut.execClz {d : SReg} {a : Src} : CanonOut (Machine.execClz d a) := .run .alu1

theorem CanonOut.execCtz {d : SReg} {a : Src} : CanonOut (Machine.execCtz d a) := .run .alu1

theorem CanonOut.execPopc {d : SReg} {a : Src} : CanonOut (Machine.execPopc d a) := .run .alu1

theorem CanonOut.execBrev {d : SReg} {a : Src} : CanonOut (Machine.execBrev d a) := .run .alu1

theorem CanonOut.execSext {d : SReg} {a : Src} {w : BitVec 7} : CanonOut (Machine.execSext d a w) := .run .alu1

theorem CanonOut.execZext {d : SReg} {a : Src} {w : BitVec 7} : CanonOut (Machine.execZext d a w) := .run .alu1

theorem CanonOut.execBfx {d : SReg} {a : Src} {pos lenM1 : BitVec 6} : CanonOut (Machine.execBfx d a pos lenM1) := .run .alu1

theorem CanonOut.execBfxS {d : SReg} {a : Src} {pos lenM1 : BitVec 6} : CanonOut (Machine.execBfxS d a pos lenM1) := .run .alu1

theorem CanonOut.execBfi {d : SReg} {a : Src} {pos lenM1 : BitVec 6} : CanonOut (Machine.execBfi d a pos lenM1) :=
  .run (.bind .readSrc fun _ => .bind .readSR fun _ => .writeSR)

theorem CanonOut.execSel {d : SReg} {a b : Src} {c : SReg} : CanonOut (Machine.execSel d a b c) :=
  .run (.bind .readAB fun _ => .bind .readSR fun _ => .writeSR)

theorem CanonOut.execMov {d : SReg} {a : Src} : CanonOut (Machine.execMov d a) := .run .alu1

theorem CanonOut.execMovi {d : SReg} {imm : BitVec 32} : CanonOut (Machine.execMovi d imm) := .run .writeSR

theorem CanonOut.execMovx {d : SReg} {x : Word} : CanonOut (Machine.execMovx d x) := .run .writeSR

theorem CanonOut.execLea {d : SReg} {a : Src} {off : BitVec 32} : CanonOut (Machine.execLea d a off) := .run .alu1

theorem CanonOut.execLeaWin {d : SReg} {a : Src} {off : BitVec 32} : CanonOut (Machine.execLeaWin d a off) :=
  .runS fun _ _ => .bind (.ensure .illegalOp) fun _ => .alu1

/-! ## Mask instructions -/

theorem CanonM.mask2 {d a b : BitVec 3} {f : Word → Word → Word} : CanonM (Machine.mask2 d a b f) :=
  .bind .readK fun _ => .bind .readK fun _ => .writeK

theorem CanonOut.execKand {d a b : BitVec 3} : CanonOut (Machine.execKand d a b) := .run .mask2

theorem CanonOut.execKor {d a b : BitVec 3} : CanonOut (Machine.execKor d a b) := .run .mask2

theorem CanonOut.execKxor {d a b : BitVec 3} : CanonOut (Machine.execKxor d a b) := .run .mask2

theorem CanonOut.execKnot {d a : BitVec 3} : CanonOut (Machine.execKnot d a) := .run .mask2

theorem CanonOut.execKpop {d : SReg} {a : BitVec 3} : CanonOut (Machine.execKpop d a) := .run (.bind .readK fun _ => .writeSR)

theorem CanonOut.execKfirst {d : SReg} {a : BitVec 3} : CanonOut (Machine.execKfirst d a) :=
  .run (.bind .readK fun _ => .writeSR)

theorem CanonM.readKSrc {x : KSrc} : CanonM (Machine.readKSrc x) := by
  unfold Machine.readKSrc
  split
  · exact .readK
  · exact .readSrc

theorem CanonOut.execKmov {d : KDst} {a : KSrc} : CanonOut (Machine.execKmov d a) :=
  .run
    (.bind .readKSrc fun _ => by
        split
        · exact .writeK
        · exact .writeSR)

/-! ## Migration by instruction -/

theorem CanonM.migrTo {a : Src} {off : BitVec 32} {crew : Bool} : CanonM (Machine.migrTo a off crew) :=
  .bind .readSrc fun _ =>
  .bind .placeOf fun _ => by
    split
    · exact .pure
    · exact .migrate

theorem CanonOut.execMigr {a : Src} {off : BitVec 32} : CanonOut (Machine.execMigr a off) := .run .migrTo

theorem CanonOut.execMigrCrew {a : Src} {off : BitVec 32} : CanonOut (Machine.execMigrCrew a off) :=
  .run (.bind .myself fun _ => .bind (.ensure .illegalOp) fun _ => .migrTo)

theorem CanonOut.execMpin {on : Bool} : CanonOut (Machine.execMpin on) := .run .modSp

theorem State.canon.tellJoin {s : State} {ms : List Nat} {n : Nat} (h : s.canon) : (s.tellJoin ms n).canon :=
  .foldl h fun _ _ h => h.modSlot

theorem State.canon.setJoin {s : State} {c j id : Nat} {k : Option CrewJoin} (h : s.canon) : (s.setJoin c j id k).canon :=
  h.modCore

theorem State.canon.failJoin {s : State} {c : Nat} {k : CrewJoin} (h : s.canon) : (s.failJoin c k).canon := h.tellJoin.setJoin

theorem State.canon.join {s : State} {t c j id size : Nat} (h : s.canon) : (s.join t c j id size).1.canon := by
  unfold State.join
  split
  · exact h.setJoin
  · exact .iteFst h (.iteFst h.failJoin (.iteFst h.tellJoin.setJoin h.setJoin))

theorem CanonOut.execCrewj {a b : Src} : CanonOut (Machine.execCrewj a b) :=
  .run
    (.bind .readAB fun _ =>
      .bind .myself fun _ =>
      .bind .myWait fun _ =>
      .bindS fun _ h0 =>
      .ite (.bind (.ensure .illegalOp) fun _ => .modMe)
        (.bind (.ensure .illegalOp) fun _ =>
          .bind (.ite .pure (.ite .pure (.bind (.modS fun _ _ => h0.join) fun _ => .pure))) fun _ =>
          .ite .park (.ite .modMe .trapAt)))

/-! ## Near-memory commands -/

theorem CanonM.nearSlot : CanonM Machine.nearSlot := .bind .getS fun _ => .ensure .illegalOp

theorem CanonM.nearChecks {h : Nat} {more : Tensor → M Unit} (hm : ∀ t, CanonM (more t)) : CanonM (Machine.nearChecks h more) :=
  .bind .stamped fun _ => .ite .pure (.bind .checkHandle fun _ => .bind (.ensure .badFormat) fun _ => .bind (hm _) fun _ => .notRefused)

theorem State.canon.nearStart {s : State} {j i stack : Nat} (h : s.canon) {u : State} (e : s.nearStart j i stack = some u) :
    u.canon := by
  unfold State.nearStart at e
  dsimp only at e
  split at e
  · split at e
    · cases e
    · exact h.moveAlias e
  · obtain ⟨t, ht, rfl⟩ := Option.map_eq_some_iff.mp e
    have h1 := h.moveTensor ht
    exact .ite h1.convert h1

theorem CanonM.nearMove {h : Nat} : CanonM (Machine.nearMove h) :=
  .bind .stamped fun _ =>
  .ite .pure
    (.bindS fun _ h0 =>
      .ite .pure
        (by
          split
          · exact .park
          · next e1 =>
              exact .bind (.modS fun _ _ => h0.nearStart e1) fun _ => .ite .pure .park))

theorem State.canon.setWeights {s : State} {stack : Nat} {w : FarWts} (h : s.canon) : (s.setWeights stack w).canon := h.upd

theorem CanonM.loadWeights {hn T : Nat} {q : Region} : CanonM (Machine.loadWeights hn T q) :=
  .bind .entry fun _ => .bind .readRegion fun _ => .modS fun _ h => h.setWeights

theorem CanonOut.execNmload {h c : SReg} : CanonOut (Machine.execNmload h c) :=
  .run
    (.bind .nearSlot fun _ =>
      .bind .readSR fun _ =>
      .bind .readSR fun _ =>
      .bind (.nearChecks (fun _ => .pure)) fun _ =>
      .bind .nearMove fun _ =>
      .bind .stampHandle fun _ => .bind .opTurn fun _ => .bind (.engineStep .loadWeights) fun _ => .retireOp)

theorem CanonM.streamTile {hn T : Nat} {q : Region} {w : FarWts} : CanonM (Machine.streamTile hn T q w) :=
  .bind .entry fun _ => .bind .readRegion fun _ => .bind .getS fun _ => .modMe

theorem CanonOut.execNmstrm {h c : SReg} {rows cols : BitVec 4} : CanonOut (Machine.execNmstrm h c rows cols) :=
  .run
    (.bind .nearSlot fun _ =>
      .bind .readSR fun _ =>
      .bind .readSR fun _ =>
      .bind .myself fun _ => by
        split
        · exact .bind (.nearChecks (fun _ => .badFormat)) fun _ => .badFormat
        · exact .bind (.nearChecks (fun _ => .ensure .badFormat)) fun _ =>
            .bind .nearMove fun _ =>
            .bind .stampHandle fun _ => .bind .opTurn fun _ => .bind (.engineStep .streamTile) fun _ => .retireOp)

theorem CanonM.drainTile {hn : Nat} {q : Region} {b : FarBuf} {k : Rnd} : CanonM (Machine.drainTile hn q b k) :=
  .bind .entry fun _ => .keepShadow

theorem CanonOut.execNmdrain {h c : SReg} {rows cols : BitVec 4}
    {rm : Option RMode} : CanonOut (Machine.execNmdrain h c rows cols rm) :=
  .run
    (.bind .nearSlot fun _ =>
      .bind .readSR fun _ =>
      .bind .readSR fun _ =>
      .bind .myself fun _ =>
      .bind (.nearChecks (fun _ => .ensure .badFormat)) fun _ =>
      .bind .nearMove fun _ =>
      .bind .stampHandle fun _ =>
      .bind .opTurn fun _ => .bind (.engineStep .drainTile) fun _ => .bind .publishMine fun _ => .pure)

/-! ## STASH and RESTORE -/

theorem CanonM.readUnits {h : Nat} {t : Tensor} {T lo hi : Nat} : CanonM (Machine.readUnits h t T lo hi) :=
  .bind .readStorage fun _ => .loopM fun _ => .touchAlias

theorem CanonM.targetDesc {a : Nat} {host : Bool} : CanonM (Machine.targetDesc a host) :=
  .bind .checkLocal fun _ => .bind .aligned fun _ => .bind .loadLocal fun _ => .bind (.ensure .illegalOp) fun _ => .pure

theorem CanonM.stashAllowed {t : Tgt} : CanonM (Machine.stashAllowed t) := .bind .getS fun _ => .ensure .illegalOp

theorem CanonM.stashChecks {o : StashArgs} {h : Nat} {l : Word} : CanonM (Machine.stashChecks o h l) := by
  unfold Machine.stashChecks
  split
  · exact .bind .checkTwo fun _ => .bind (.ensure .badFormat) fun _ => .ensure .badFormat
  · exact .bind .checkHandle fun _ => .ensure .badFormat

theorem CanonM.keptTarget {o : StashArgs} {l : Word} : CanonM (Machine.keptTarget o l) :=
  .bind .myWait fun _ =>
  .ite .pure
    (.bind
          (by
            split
            · exact .pure
            · exact .targetDesc
            · exact .targetDesc) fun _ =>
      .bind
          (by
            split
            · exact .aligned
            · exact .pure) fun _ =>
      .bind .keepWait fun _ => .pure)

theorem CanonM.peerStatus {key : Nat} {ok : Nat → Bool} : CanonM (Machine.peerStatus key ok) :=
  .bind .myWait fun _ => .ite .pure (.bind .await fun _ => .bind .pick fun _ => .bind .keepWait fun _ => .pure)

theorem CanonM.reportStatus {st : BitVec 5} {x h : Nat} : CanonM (Machine.reportStatus st x h) :=
  .ite (.ite .pure .trap) .writeStatus

theorem CanonM.countBytes {n : Option (BitVec 5)} {bytes tm : Nat} : CanonM (Machine.countBytes n bytes tm) := by
  unfold Machine.countBytes
  split
  · exact .pure
  · exact .modS fun _ h => h.countChunk

theorem CanonM.stashError {n : Option (BitVec 5)} {status : Nat} : CanonM (Machine.stashError n status) := by
  unfold Machine.stashError
  split
  · exact .pure
  · exact .ite (.modS fun _ h => h.failCtr) .pure

theorem CanonM.stashFail {o : StashArgs} {h status : Nat} : CanonM (Machine.stashFail o h status) :=
  .bind (.modS fun _ h => h.dropOps) fun _ => .bind .stashError fun _ => .keepDone .reportStatus

theorem CanonM.stashEncode {h T : Nat} {g : Grade} {n0 : Nat} : CanonM (Machine.stashEncode h T g n0) :=
  .bind .entry fun _ =>
  .bind .myself fun _ =>
  .bind
      (.loopM fun _ =>
        .bind .setProg fun _ => .engineStep (.longTrap .setProg (.bind .readUnits fun _ => .bind .getS fun _ => .keepShadow))) fun _ =>
  .setProg

theorem CanonM.hostDown : CanonM Machine.hostDown := .bind .getS fun _ => .pure

theorem CanonM.stashHost {base size n0 : Nat} {l : List Nat} : CanonM (Machine.stashHost base size n0 l) := by
  induction l with
  | nil => exact .pure
  | cons i l ih =>
    refine .bind .myWait fun _ => .ite ih (.bind .hostDown fun _ => .ite .pure ?_)
    split
    · exact ih
    · exact .bind .behalfStore fun _ => .bind .keepWait fun _ => ih

theorem CanonM.stashBegin {o : StashArgs} : CanonM (Machine.stashBegin o) :=
  .bind .tensorSlot fun _ =>
  .bind .stashAllowed fun _ =>
  .bind .readSR fun _ =>
  .bind .readG fun _ =>
  .bind (.unstamped (.bind (.bind .stashChecks fun _ => .entry) fun _ => .checkProg)) fun _ => .bind .keptTarget fun _ => .pure

theorem CanonM.stashEarly {o : StashArgs} {d : Target_} {size : Nat} : CanonM (Machine.stashEarly o d size) := by
  unfold Machine.stashEarly
  split
  · exact .pure
  · exact .pure
  · exact .peerStatus

theorem CanonM.stashImage {o : StashArgs} {h q T size : Nat} : CanonM (Machine.stashImage o h q T size) :=
  .bind .stampHandle fun _ =>
  .bind .opTurn fun _ =>
  .bind .opTurn fun _ =>
  .bind .stashEncode fun _ => .bind .retireOp fun _ => .bind .publishMine fun _ => .bind .countBytes fun _ => .writeStatus

theorem CanonM.stashEnd {o : StashArgs} {h T size : Nat} : CanonM (Machine.stashEnd o h T size) :=
  .bind .retireOp fun _ => .bind .myself fun _ => .bind .countBytes fun _ => .writeStatus

theorem CanonM.stashToHost {o : StashArgs} {h T size : Nat} {d : Target_} : CanonM (Machine.stashToHost o h T size d) :=
  .bind .opTurn fun _ => .bind .stashEncode fun _ => .bind .entry fun _ => .bind .stashHost fun _ => .ite .stashFail .stashEnd

theorem CanonM.stashToPeer {o : StashArgs} {h T size : Nat} : CanonM (Machine.stashToPeer o h T size) :=
  .bind .opTurn fun _ => .bind .stashEncode fun _ => .bind .peerStatus fun _ => .ite .stashFail .stashEnd

theorem CanonOut.execStash {o : StashArgs} : CanonOut (Machine.execStash o) :=
  .run
    (.bind .stashBegin fun _ =>
      .bind .myself fun _ =>
      .ite .stashFail
        (by
          dsimp only
          split
          · exact .bind (.unstamped (.bind .entry fun _ => .checkPool)) fun _ =>
              .bind .stampHandle fun _ =>
              .bind .entry fun _ =>
              .bind .stashEarly fun _ =>
              .ite .stashFail
                (by
                  split
                  · exact .stashImage
                  · exact .stashToHost
                  · exact .stashToPeer)
          · exact .bind .stampHandle fun _ =>
              .bind .entry fun _ =>
              .bind .stashEarly fun _ =>
              .ite .stashFail
                (by
                  split
                  · exact .stashImage
                  · exact .stashToHost
                  · exact .stashToPeer)))

theorem CanonM.restoreDecode {h : Nat} {g : Grade} {n0 : Nat} {check : Nat → M Unit} {byte : State → Nat → Nat}
    (hc : ∀ k, CanonM (check k)) : CanonM (Machine.restoreDecode h g n0 check byte) :=
  .bind .entry fun _ => .bind .myself fun _ => .bind (.loopM fun k => .bind .setProg fun _ => .engineStep
    (.longTrap .setProg (.bind (hc k) fun _ => .bind .getS fun _ => .keepShadow))) fun _ => .setProg

theorem CanonM.restoreHost {base size : Nat} {l : List Nat} : CanonM (Machine.restoreHost base size l) := by
  induction l with
  | nil => exact .pure
  | cons i l ih =>
    refine .bind .myWait fun _ => .ite ih (.bind .hostDown fun _ => .ite .pure ?_)
    split
    · exact ih
    · exact .bind .behalfLoad fun _ => .bind .keepWait fun _ => ih

theorem CanonM.restoreEarly {o : StashArgs} {d : Target_} {size : Nat} : CanonM (Machine.restoreEarly o d size) := by
  unfold Machine.restoreEarly
  split
  · exact .pure
  · exact .pure
  · exact .peerStatus

theorem CanonM.restoreEnd {o : StashArgs} {h T : Nat} : CanonM (Machine.restoreEnd o h T) :=
  .bind .entry fun _ => .bind .publishMine fun _ => .bind .countBytes fun _ => .writeStatus

theorem CanonM.restoreImage {o : StashArgs} {h q : Nat} : CanonM (Machine.restoreImage o h q) :=
  .bind (.unstamped (.bind .entry fun _ => .checkPool)) fun _ =>
  .bind .stampHandle fun _ =>
  .bind .stampHandle fun _ =>
  .bind .opTurn fun _ =>
  .bind .opTurn fun _ =>
  .bind (.restoreDecode (fun _ => .bind .entry fun _ => .bind .entry fun _ => .readStorage)) fun _ =>
  .bind .retireOp fun _ => .restoreEnd

theorem CanonM.restoreFromHost {o : StashArgs} {h size : Nat} {d : Target_} : CanonM (Machine.restoreFromHost o h size d) :=
  .bind .stampHandle fun _ =>
  .bind .opTurn fun _ =>
  .bind .restoreHost fun _ => .ite .stashFail (.bind (.restoreDecode (fun _ => .pure)) fun _ => .restoreEnd)

theorem CanonM.restoreFromPeer {o : StashArgs} {h size : Nat} : CanonM (Machine.restoreFromPeer o h size) :=
  .bind .stampHandle fun _ =>
  .bind .opTurn fun _ =>
  .bind (.restoreDecode (fun _ => .pure)) fun _ =>
  .bind .peerStatus fun _ => .ite .stashFail (.bind (.modS fun _ h => h.upd) fun _ => .restoreEnd)

theorem CanonOut.execRestore {o : StashArgs} : CanonOut (Machine.execRestore o) :=
  .run
    (.bind .stashBegin fun _ =>
      .bind .entry fun _ =>
      .bind .myself fun _ =>
      .bind (.ite .pure .restoreEarly) fun _ =>
      .ite .stashFail
        (by
          split
          · exact .restoreImage
          · exact .restoreFromHost
          · exact .restoreFromPeer))

theorem CanonOut.execPeerStashRequest {job handle rows cols pages : Nat} {grade : Grade}
    {data : Option (List (Nat × Nat))} : CanonOut (Machine.execPeerStashRequest job handle rows cols pages grade data) :=
  .event fun _ h => by
    dsimp only
    split
    · exact h
    · exact .ite h
          (by
            split
            · exact .ite h h.modTensor
            · exact .ite h h.modTensor.publishAt)

/-! ## Levels of work -/

theorem State.canon.cancelUnits {s : State} {j kind : Nat} {id : Word} (h : s.canon) : (s.cancelUnits j kind id).canon :=
  .upd (.foldl (.foldl h.upd fun _ _ h => .ite h.finishCopy h.stopCopy) fun _ _ h => h.failColl)

theorem State.canon.freeSaved {s : State} {j kind : Nat} {id : Word} (h : s.canon) : (s.freeSaved j kind id).canon := by
  unfold State.freeSaved
  split
  · exact h
  · exact .modJob (.foldl h.upd fun _ _ h => h.dropOps)

theorem State.canon.stopLevel {s : State} {j kind : Nat} {id : Word} {st : Nat} (h : s.canon) : (s.stopLevel j kind id st).canon :=
  .cancelUnits (.freeSaved (.modJob (.ite h h.log)))

theorem State.canon.childFailed {s : State} {j kind : Nat} {id : Word} {cause tid tries : Nat} {again : State → State} (h : s.canon)
    (ha : ∀ s, s.canon → (again s).canon) : (s.childFailed j kind id cause tid tries again).canon := by
  unfold State.childFailed
  dsimp only
  split
  · exact h
  · split
    · exact h.modJob.modJob
    · split
      · exact h.modJob.modJob
      · exact .ite (ha _ h.modJob) h.modJob.modJob.stopLevel
      · exact h.modJob.modJob.stopLevel
      · exact .ite h.modJob.modJob.stopLevel h.modJob.modJob.stopLevel.modJob.stopLevel

theorem State.canon.rerunUnit {id : Word} {j i : Nat} {s : State} (h : s.canon) : (State.rerunUnit id j i s).canon := h.modJob

theorem State.canon.countUnit {s : State} {j : Nat} {launch : Word} {i : Nat} {e : EndRec} {pts : Nat} (h : s.canon) :
    (s.countUnit j launch i e pts).canon := by
  unfold State.countUnit
  split
  · exact h
  · split
    · exact h
    · dsimp only
      split
      · exact h.modJob.modJob
      · exact h.modJob.modJob
      · exact h.modJob.childFailed fun _ h => h.rerunUnit

theorem State.canon.reapSlot {s : State} {t : Nat} (h : s.canon) : (s.reapSlot t).canon := h.setSlot.countUnit

theorem State.canon.tableRead {s : State} {j va pts : Nat} (h : s.canon) {n : Nat} :
    ∀ {p : State × Nat × Nat}, s.tableRead j va pts n = some p → p.1.canon := by
  induction n with
  | zero =>
    intro p e
    cases e
    exact h
  | succ n ih =>
    intro p e
    unfold State.tableRead at e
    split at e
    · cases e
    · next e1 =>
      split at e
      · cases e
      · next e2 =>
        have h2 := State.canon.agentLoad (ih e1) e2
        cases e
        exact h2

theorem State.canon.tabEntry {s : State} {j tab i lim pts : Nat} (h : s.canon) {p : State × Nat × TabEnt}
    (e : s.tabEntry j tab i lim pts = some p) : p.1.canon := by
  unfold State.tabEntry at e
  split at e
  · cases e
  · next e1 =>
    obtain ⟨x, -, rfl⟩ := Option.map_eq_some_iff.mp e
    exact h.tableRead e1

theorem State.canon.submit {s : State} {t x : Nat} (h : s.canon) : (s.submit t x).1.canon := by
  unfold State.submit
  dsimp only
  split
  · exact h
  · split
    · exact .iteFst h h.setJob
    · exact h

theorem State.canon.cancelLevel {s : State} {j kind : Nat} {id : Word} (h : s.canon) : (s.cancelLevel j kind id).1.canon := by
  unfold State.cancelLevel
  split
  · exact h
  · split
    · exact .iteFst h h.stopLevel
    · exact h.modJob
    · exact h

/-! ## System instructions -/

theorem CanonM.starterOnly : CanonM Machine.starterOnly := .bind .getS fun _ => .ensure .illegalOp

theorem CanonOut.execSpawn {a b : Src} : CanonOut (Machine.execSpawn a b) :=
  .run
    (.bind .starterOnly fun _ =>
      .bind .readAB fun _ =>
      .bind .aligned fun _ =>
      .bind .checkLocal fun _ =>
      .bind .loadLocal fun _ =>
      .bind .getS fun _ => .bind (.ensure .illegalOp) fun _ => .bind (.ensure .illegalOp) fun _ => .modS fun _ h => h.setSlot)

theorem CanonOut.execReap {d : SReg} {a b : Src} : CanonOut (Machine.execReap d a b) :=
  .run
    (.bind .starterOnly fun _ =>
      .bind .readAB fun _ =>
      .bind (.ensure .illegalOp) fun _ =>
      .bind .aligned fun _ =>
      .bind .checkLocal fun _ =>
      .bind .getS fun _ =>
      .bind (.ensure .illegalOp) fun _ => by
        split
        · exact .park
        · exact .bind .storeLocal fun _ => .bind (.modS fun _ h => h.reapSlot) fun _ => .writeSR)

theorem CanonOut.execLaunch {d : SReg} {a : Src} : CanonOut (Machine.execLaunch d a) :=
  .run
    (.bind .readSrc fun _ =>
      .bind .aligned fun _ =>
      .bind .myWait fun _ =>
      .bind (.ite .pure (.bind .behalfLoad fun _ => .bind .keepWait fun _ => .pure)) fun _ =>
      .bind (.ensure .illegalOp) fun _ =>
      .bind .await fun _ => .bind .replyRoute fun _ => .bindS fun _ h0 => .bind (.modS fun _ _ => h0.submit) fun _ => .writeSR)

theorem CanonOut.execCancel {lvl : Level} {d : SReg} {a : Src} : CanonOut (Machine.execCancel lvl d a) :=
  .run
    (.bind .readSrc fun _ =>
      .bind .await fun _ =>
      .bind .replyRoute fun _ => .bindS fun _ h0 => .bind (.modS fun _ _ => h0.cancelLevel) fun _ => .writeSR)

theorem CanonM.checkSp {r : SpReg} : CanonM (Machine.checkSp r) :=
  .bind .getS fun _ => by
    split
    · exact .ensure .illegalOp
    · exact .ensure .illegalOp
    · exact .pure

theorem CanonM.linkReg {f : Link → Nat} : CanonM (Machine.linkReg f) :=
  .bind .getS fun _ =>
  .ite (.bind .getS fun _ => .pure) (.bind .await fun _ => .bind .replyRoute fun _ => .bind .getS fun _ => .pure)

theorem CanonM.readSp {r : SpReg} : CanonM (Machine.readSp r) :=
  .bind .getS fun _ => by
    dsimp only
    split
    · exact .pure
    · exact .pure
    · exact .pure
    · exact .pure
    · exact .pure
    · exact .bind .await fun _ => .bind .replyRoute fun _ => .bind .getS fun _ => .pure
    · exact .bind .await fun _ => .bind .replyRoute fun _ => .bind .getS fun _ => .pure
    · exact .pure
    · exact .pure
    · exact .pure
    · exact .pure
    · exact .pure
    · exact .pure
    · exact .pure
    · exact .pure
    · exact .pure
    · exact .bind .mergePts fun _ => .pure
    · exact .pure
    · exact .pure
    · exact .pure
    · exact .pure
    · exact .pure
    · exact .pure
    · exact .pure
    · exact .linkReg
    · exact .linkReg
    · exact .linkReg
    · exact .linkReg
    · exact .linkReg
    · exact .pure
    · exact .pure
    · exact .pure
    · exact .pure
    · exact .pure
    · exact .pure

theorem CanonM.refuseValue {α : Type} : CanonM (Machine.refuseValue : M α) := .illegalOp

theorem CanonM.writeKeep {n : Nat} {v : Word} : CanonM (Machine.writeKeep n v) :=
  .bind .getS fun _ => .bind (.ensure .refuseValue) fun _ => .modS fun _ h => h.modDie

theorem State.canon.writeXpc {s : State} {v : Word} (h : s.canon) : (s.writeXpc v).canon := h.modSlot

theorem CanonM.writeSlot {ok : Bool} {f : Special → Special} : CanonM (Machine.writeSlot ok f) :=
  .bind (.ensure .refuseValue) fun _ => .modSp

theorem CanonM.writeCount {v : Word} {f : Core → Core} : CanonM (Machine.writeCount v f) :=
  .bind (.ensure .refuseValue) fun _ => .modS fun _ h => h.modCore

theorem CanonM.writeSp {r : SpReg} {v : Word} : CanonM (Machine.writeSp r v) :=
  .bind .myself fun _ => by
    split
    · exact .writeSlot
    · exact .writeSlot
    · exact .bind (.ensure .refuseValue) fun _ => .modS fun _ h => h.writeXpc
    · exact .writeSlot
    · exact .writeSlot
    · exact .writeSlot
    · exact .writeSlot
    · exact .writeSlot
    · exact .writeHb
    · exact .writeView
    · exact .modS fun _ h => h.modCore
    · exact .writeCount
    · exact .writeCount
    · exact .writeSlot
    · exact .writeKeep
    · exact .bind (.ensure .refuseValue) fun _ => .modS fun _ h => h.upd
    · exact .bind (.ensure .refuseValue) fun _ => .modS fun _ h => h.modJob
    · exact .illegalOp

theorem CanonOut.execSysrd {d : SReg} {r : SpReg} : CanonOut (Machine.execSysrd d r) :=
  .run (.bind .checkSp fun _ => .bind .readSp fun _ => .writeSR)

theorem CanonOut.execSyswr {r : SpReg} {a : Src} : CanonOut (Machine.execSyswr r a) :=
  .run (.bind .checkSp fun _ => .bind .getS fun _ => .bind (.ensure .illegalOp) fun _ => .bind .readSrc fun _ => .writeSp)

theorem CanonOut.execKeep {n : BitVec 3} {a : Src} : CanonOut (Machine.execKeep n a) :=
  .run (.bind .getS fun _ => .bind (.ensure .illegalOp) fun _ => .bind .readSrc fun _ => .writeKeep)

theorem CanonOut.execXret {a : Option Src} : CanonOut (Machine.execXret a) :=
  .run
    (.bind
          (by
            split
            · exact .pure
            · exact .bind .readSrc fun _ => .pure) fun _ =>
      .bind .myself fun _ =>
      .bind (.ensure .trap) fun _ =>
      .bind
          (by
            split
            · exact .pure
            · exact .ensure .trap) fun _ =>
      .ite .doneOp
        (.ite (.bind (.modS fun _ h => h.trapReturn) fun _ => .bind .modMe fun _ => .leave)
            (.bind .checkTarget fun _ => .bind (.modS fun _ h => h.trapReturn) fun _ => .bind .modMe fun _ => .leave)))

theorem State.canon.changeEntry {s : State} {j va how : Nat} (h : s.canon) : (s.changeEntry j va how).canon := by
  unfold State.changeEntry
  split
  · exact .ite h h.changeMap
  · exact h

theorem State.canon.givePage {s : State} {j va how : Nat} (h : s.canon) : (s.givePage j va how).canon := by
  unfold State.givePage
  dsimp only
  split
  · exact h
  · split
    · exact h
    · next e =>
      split at e
      · have h1 := h.mapPage (fun _ _ h e => h.takeFrame e) e
        split
        · exact wf_writeN _ _ _ h1
        · exact h1
      · cases e

theorem State.canon.giveGroup {s : State} {j a rank dims fp : Nat} (h : s.canon) : (s.giveGroup j a rank dims fp).1.canon := by
  unfold State.giveGroup
  dsimp only
  split
  · exact h
  · exact .iteFst h.storeAt h

theorem State.canon.serve1 {s : State} {d j act a b c e : Nat} (h : s.canon) : (s.serve1 d j act a b c e).1.canon :=
  .iteFst h.giveGroup
    (by
      split
      · exact h.modDie
      · exact h.modDie
      · exact h.changeEntry
      · exact .ite h.upd h
      · exact h.modTensor
      · exact h.givePage
      · exact h)

theorem CanonM.svcReply : CanonM Machine.svcReply :=
  .bind .pick fun _ =>
  .bind .pick fun _ =>
  .bind .pick fun _ =>
  .bind .pick fun _ =>
  .bind .pick fun _ =>
  .bindS fun _ h0 =>
  .bind (.modS fun _ _ => h0.serve1) fun _ =>
  .bind .mergePts fun _ => .bind .writeG fun _ => .bind .writeG fun _ => .bind .mergePts fun _ => .modS fun _ h => h.upd

theorem CanonOut.execSvc {n : BitVec 16} : CanonOut (Machine.execSvc n) :=
  .run (.bind .await fun _ => .bind .replyRoute fun _ => .svcReply)

/-! ## A slot that looks at its instruction again -/

theorem CanonOut.rerun : ∀ {i : Instr}, CanonOut (Machine.rerun i)
  | .nop => .execNop | .add .. => .execAdd | .addi .. => .execAddi | .sub .. => .execSub | .mul .. => .execMul
  | .mulh .. => .execMulh | .mulhn .. => .execMulhn | .div .. => .execDiv | .divn .. => .execDivn | .rem .. => .execRem
  | .remn .. => .execRemn | .and .. => .execAnd | .andi .. => .execAndi | .or .. => .execOr | .ori .. => .execOri
  | .xor .. => .execXor | .xori .. => .execXori | .andn .. => .execAndn | .shl .. => .execShl | .shli .. => .execShli
  | .shr .. => .execShr | .shri .. => .execShri | .sar .. => .execSar | .sari .. => .execSari | .rol .. => .execRol
  | .roli .. => .execRoli | .clz .. => .execClz | .ctz .. => .execCtz | .popc .. => .execPopc | .brev .. => .execBrev
  | .sext .. => .execSext | .zext .. => .execZext | .bfx .. => .execBfx | .bfxS .. => .execBfxS | .bfi .. => .execBfi
  | .min .. => .execMin | .max .. => .execMax | .minn .. => .execMinn | .maxn .. => .execMaxn | .slt .. => .execSlt
  | .sltn .. => .execSltn | .slti .. => .execSlti | .sltiN .. => .execSltiN | .seq .. => .execSeq | .sel .. => .execSel
  | .mov .. => .execMov | .movi .. => .execMovi | .movx .. => .execMovx | .lea .. => .execLea
  | .leaWin .. => .execLeaWin | .br .. => .execBr | .jmp .. => .execJmp | .jmpi .. => .execJmpi | .call .. => .execCall
  | .calli .. => .execCalli | .loop .. => .execLoop | .btag .. => .execBtag | .bkany .. => .execBkany
  | .bkall .. => .execBkall | .park .. => .execPark | .parkEv .. => .execParkEv | .done => .execDone
  | .trap .. => .execTrap | .brkp .. => .execBrkp | .ld .. => .execLd | .lds .. => .execLds | .st .. => .execSt
  | .vld .. => .execVld | .vst .. => .execVst | .vlds .. => .execVlds | .vsts .. => .execVsts | .vgath .. => .execVgath
  | .vscat .. => .execVscat | .vgathT .. => .execVgathT | .vscatT .. => .execVscatT | .kld .. => .execKld
  | .kst .. => .execKst | .amoadd .. => .execAmoadd | .amoswp .. => .execAmoswp | .amocas .. => .execAmocas
  | .amoand .. => .execAmoand | .amoor .. => .execAmoor | .amoxor .. => .execAmoxor | .amomin .. => .execAmomin
  | .amomax .. => .execAmomax | .amofadd .. => .execAmofadd | .radd .. => .execRadd | .raddOrd .. => .execRaddOrd
  | .raddv .. => .execRaddv | .raddvOrd .. => .execRaddvOrd | .fence => .execFence | .sfill .. => .execSfill
  | .fstat .. => .execFstat | .migr .. => .execMigr | .migrCrew .. => .execMigrCrew | .mpin .. => .execMpin
  | .crewj .. => .execCrewj | .get .. => .execGet | .put .. => .execPut | .gett .. => .execGett | .putt .. => .execPutt
  | .qsend .. => .execQsend | .cexp .. => .execCexp | .cadd .. => .execCadd | .caddClr .. => .execCaddClr
  | .crd .. => .execCrd | .xwait .. => .execXwait | .hset .. => .execHset | .hurdle .. => .execHurdle
  | .view .. => .execView | .clineWb .. => .execClineWb | .clineEvict .. => .execClineEvict
  | .clinePf .. => .execClinePf | .vadd .. => .execVadd | .vsub .. => .execVsub | .vmul .. => .execVmul
  | .vfma .. => .execVfma | .vmin .. => .execVmin | .vmax .. => .execVmax | .vabs .. => .execVabs
  | .vneg .. => .execVneg | .vand .. => .execVand | .vor .. => .execVor | .vxor .. => .execVxor | .vshl .. => .execVshl
  | .vshr .. => .execVshr | .vsar .. => .execVsar | .vcmp .. => .execVcmp | .vsel .. => .execVsel
  | .vmov .. => .execVmov | .vbcast .. => .execVbcast | .vext .. => .execVext | .vins .. => .execVins
  | .vred .. => .execVred | .vidx .. => .execVidx | .vrcp .. => .execVrcp | .vrsq .. => .execVrsq
  | .vexp2 .. => .execVexp2 | .vlog2 .. => .execVlog2 | .vcvt .. => .execVcvt | .vpack .. => .execVpack
  | .vunpk .. => .execVunpk | .vshrr .. => .execVshrr | .vsat .. => .execVsat | .vmulq .. => .execVmulq
  | .vquant .. => .execVquant | .vdeq .. => .execVdeq | .vdot .. => .execVdot | .kand .. => .execKand
  | .kor .. => .execKor | .kxor .. => .execKxor | .knot .. => .execKnot | .kpop .. => .execKpop
  | .kfirst .. => .execKfirst | .kmov .. => .execKmov | .mma .. => .execMma | .mmat .. => .execMmat
  | .mmag .. => .execMmag | .mmas .. => .execMmas | .azero .. => .execAzero | .aepi .. => .execAepi
  | .arel .. => .execArel | .aclaim .. => .execAclaim | .asave .. => .execAsave | .aload .. => .execAload
  | .collAr .. => .execCollAr | .collRs .. => .execCollRs | .collAg .. => .execCollAg | .collA2a .. => .execCollA2a
  | .talloc .. => .execTalloc | .tfree .. => .execTfree | .twiden .. => .execTwiden | .tinfo .. => .execTinfo
  | .tld .. => .execTld | .tldt .. => .execTldt | .tst .. => .execTst | .tstAdd .. => .execTstAdd
  | .tredRow .. => .execTredRow | .tredCol .. => .execTredCol | .tscale .. => .execTscale | .tew .. => .execTew
  | .tcopy .. => .execTcopy | .stash .. => .execStash | .restore .. => .execRestore | .nmload .. => .execNmload
  | .nmstrm .. => .execNmstrm | .nmdrain .. => .execNmdrain | .spawn .. => .execSpawn | .reap .. => .execReap
  | .launch .. => .execLaunch | .cancel .. => .execCancel | .sysrd .. => .execSysrd | .syswr .. => .execSyswr
  | .xret .. => .execXret | .svc .. => .execSvc | .keep .. => .execKeep
  | .xpcWrite .. | .ptsTick .. | .lapBoundary .. | .translationRequest .. | .walkEnd .. | .shootdown ..
  | .shootdownAck .. | .leaseRenewal .. | .homeStore .. | .crossingInvalidation .. | .directoryEviction ..
  | .hbmRequest .. | .periodicRefresh .. | .patrolScrub .. | .managerErrorHandling .. | .carveInterval
  | .carveStepReady | .handleStamp .. | .publish .. | .reduceStoreLineAdd .. | .reRepresentation ..
  | .converterSnapshot .. | .reRepresentationPublish .. | .tensorEntryFree .. | .copyChunk .. | .chunkVisible ..
  | .chunkAck .. | .copyDone .. | .copyStop .. | .raddArrival .. | .raddOrdStage .. | .queueMessageArrival ..
  | .assignStart .. | .assignEnded .. | .assignCancel .. | .matrixStep .. | .epilogueStep .. | .tensorStep ..
  | .batonArrival .. | .batonRefusal .. | .batonAccepted .. | .crewBatonArrival .. | .crewAdmissionTimeout ..
  | .crewRefusalWindowEnd .. | .crewjTimeout .. | .hurdleSignal .. | .hurdleRelease .. | .brokenSignal ..
  | .brokenRelease .. | .completionRecordWrite .. | .killAck .. | .cancelDelivery .. | .cancelHandlerTimeout ..
  | .phaseStart .. | .graphStart .. | .launchPlacement .. | .farUnitPlace .. | .farUnitRetire .. | .preemption ..
  | .launchRestore .. | .rebase .. | .clusterAssignment .. | .loaderLoad .. | .jobnotify .. | .intakeReread ..
  | .hostRead .. | .hostWrite .. | .hostRegisterWrite .. | .featselWrite .. | .actlvlhWrite .. | .lnkcthrWrite ..
  | .portmodeWrite .. | .portmodeApply .. | .attestationRequest .. | .freeze .. | .freezeToken .. | .coldReset ..
  | .frameReceive .. | .windowClose .. | .laneMapMarker .. | .retrainComplete .. | .rateAdvertisement ..
  | .keyExchange .. | .timeDiscipline .. | .governorTick .. | .replyArrival .. | .graphEngineRequest ..
  | .crewjRefusalWindowEnd .. | .disciplineLost .. | .warmReset | .peerStashRequest .. | .collPeerData .. => .same

/-! ## Steps that answer a slot or move a thread -/

theorem State.canon.wakeUp {s : State} {t : Nat} (h : s.canon) : (s.wakeUp t).canon := .ite h h.modSlot

theorem State.canon.resume {s : State} {t : Nat} {k : WaitKind} (h : s.canon) : (s.resume t k).canon := by
  unfold State.resume
  split
  · split
    · next e => exact State.canon.wakeUp (.upd (CanonOut.rerun _ _ (.upd h) e))
    · exact h
  · exact h

theorem State.canon.setWait {s : State} {t : Nat} {k : WaitKind} (h : s.canon) : (s.setWait t k).canon := h.modSlot

theorem CanonOut.execXpcWrite {x : Word} : CanonOut (Machine.execXpcWrite x) := .event fun _ h => .ite h.writeXpc h

theorem State.canon.tick {s : State} {t : Nat} (h : s.canon) : (s.tick t).canon := h.modSlot

theorem CanonOut.execPtsTick {t : Nat} : CanonOut (Machine.execPtsTick t) := .event fun _ h => .ite h.tick h

theorem State.canon.startUnits {s : State} {c : Nat} (h : s.canon) : (s.startUnits c).canon :=
  .foldl h fun _ _ h => .ite h.modSlot h

theorem State.canon.arriveAll {s : State} (h : s.canon) : (s.arriveAll).canon := .foldl h.upd fun _ _ h => h.arrive

theorem State.canon.hearAll {s : State} (h : s.canon) : (s.hearAll).canon := .foldl h.upd fun _ _ h => h.hear

theorem State.canon.serveMail {s : State} {t : Nat} (h : s.canon) : (s.serveMail t).canon :=
  .resume
    (by
      split
      · exact h.setWait
      · exact h.setWait
      · exact h)

theorem State.canon.lapStart {s : State} {c : Nat} (h : s.canon) : (s.lapStart c).canon := by
  have h1 : (if s.prompt then s.arriveAll else s).canon := .ite h.arriveAll h
  unfold State.lapStart
  dsimp only
  refine .modCore (.ite (.hearAll ?_) ?_)
  · exact .placeBatons (.startCrews (.startUnits (.foldl h1 fun _ _ h => .serveMail h)))
  · exact .placeBatons (.startCrews (.startUnits (.foldl h1 fun _ _ h => .serveMail h)))

theorem CanonOut.execLapBoundary {c : Nat} : CanonOut (Machine.execLapBoundary c) := .event fun _ h => .ite h.lapStart h

theorem CanonOut.execTranslationRequest {t : Nat} : CanonOut (Machine.execTranslationRequest t) :=
  .event fun _ h => by
    dsimp only
    split
    · split
      · exact h.installTlb.setWait
      · exact h.modDie
    · exact h

theorem CanonOut.execWalkEnd {die job page : Nat} : CanonOut (Machine.execWalkEnd die job page) :=
  .event fun _ h => by
    dsimp only
    split
    · exact h
    · split
      · exact .foldl h.modDie.modDie fun _ _ h => .ite h (.ite h.installTlb.setWait h.resume)
      · exact .foldl h.modDie fun _ _ h => h.resume

theorem CanonOut.execShootdown {die job : Nat} : CanonOut (Machine.execShootdown die job) := .event fun _ h => h.ackShoot

theorem CanonOut.execShootdownAck {job : Nat} : CanonOut (Machine.execShootdownAck job) := .event fun _ h => h.endShoot

theorem State.canon.evictL2 {s : State} {d line : Nat} (h : s.canon) : (s.evictL2 d line).canon := h.writeBack.dropLine

theorem State.canon.makeRoom {s : State} {d line : Nat} (h : s.canon) : (s.makeRoom d line).canon := .ite h h.evictL2

theorem State.canon.countHit {s : State} {q : Nat} (h : s.canon) : (s.countHit q).canon := h.upd

theorem CanonOut.execLeaseRenewal {t : Nat} : CanonOut (Machine.execLeaseRenewal t) :=
  .event fun _ h => .ite (.makeRoom (.resume (.ite h.upd h.upd.countHit))) h

theorem CanonOut.execHomeStore {t : Nat} : CanonOut (Machine.execHomeStore t) := .event fun _ h => .ite h h.resume

theorem CanonOut.execRaddArrival {t : Nat} : CanonOut (Machine.execRaddArrival t) := .event fun _ h => .ite h.resume h

theorem CanonOut.execRaddOrdStage {t : Nat} : CanonOut (Machine.execRaddOrdStage t) := .event fun _ h => h.resume

theorem CanonOut.execHandleStamp {t : Nat} : CanonOut (Machine.execHandleStamp t) := .event fun _ h => h.resume

theorem CanonOut.execPublish {t : Nat} : CanonOut (Machine.execPublish t) :=
  .event fun _ h => .ite (.foldl h fun _ _ h => h.stepColl) (.resume (.foldl h fun _ _ h => h.stepColl))

theorem CanonOut.execReduceStoreLineAdd {t : Nat} : CanonOut (Machine.execReduceStoreLineAdd t) :=
  .event fun _ h => .ite h.resume h

theorem State.canon.engineStep {s : State} {t n : Nat} (h : s.canon) : (s.engineStep t n).canon := .ite h.resume h

theorem CanonOut.execMatrixStep {t : Nat} : CanonOut (Machine.execMatrixStep t) := .event fun _ h => h.engineStep

theorem CanonOut.execEpilogueStep {t : Nat} : CanonOut (Machine.execEpilogueStep t) := .event fun _ h => h.engineStep

theorem CanonOut.execTensorStep {t : Nat} : CanonOut (Machine.execTensorStep t) := .event fun _ h => h.engineStep

theorem CanonOut.execReplyArrival {t : Nat} : CanonOut (Machine.execReplyArrival t) :=
  .event fun _ h => by
    split
    · exact h.resume
    · exact h.resume
    · exact h.resume
    · exact h

theorem CanonOut.execGraphEngineRequest {t : Nat} : CanonOut (Machine.execGraphEngineRequest t) := .event fun _ h => h.resume

theorem State.canon.enterPort {s : State} {n : Nat} {m : Msg} (h : s.canon) : (s.enterPort n m).canon := by
  unfold State.enterPort
  dsimp only
  split
  · exact h.upd.deliver
  · exact h.upd.deliver.modSlot

theorem CanonOut.execQueueMessageArrival {n : Nat} : CanonOut (Machine.execQueueMessageArrival n) :=
  .event fun _ h => by
    split
    · exact h
    · exact .ite h.enterPort h

theorem CanonOut.execAssignEnded {t : Nat} : CanonOut (Machine.execAssignEnded t) :=
  .event fun _ h => by
    split
    · exact h
    · split
      · exact h
      · exact .ite h.enterPort h

theorem State.canon.batonIn {s : State} {n : Nat} {crew : Bool} (h : s.canon) : (s.batonIn n crew).canon := by
  unfold State.batonIn
  split
  · exact h
  · exact .ite h.upd.arrive h

theorem CanonOut.execBatonArrival {n : Nat} : CanonOut (Machine.execBatonArrival n) := .event fun _ h => h.batonIn

theorem CanonOut.execCrewBatonArrival {n : Nat} : CanonOut (Machine.execCrewBatonArrival n) := .event fun _ h => h.batonIn

theorem State.canon.answerIn {s : State} {n : Nat} {refused : Bool} (h : s.canon) : (s.answerIn n refused).canon := by
  unfold State.answerIn
  split
  · exact h
  · exact .ite h.upd.hear h

theorem CanonOut.execBatonRefusal {n : Nat} : CanonOut (Machine.execBatonRefusal n) := .event fun _ h => h.answerIn

theorem CanonOut.execBatonAccepted {n : Nat} : CanonOut (Machine.execBatonAccepted n) := .event fun _ h => h.answerIn

theorem CanonOut.execCrewAdmissionTimeout {core job id : Nat} : CanonOut (Machine.execCrewAdmissionTimeout core job id) :=
  .event fun _ h => by
    split
    · exact h
    · exact h.refuseCrew

theorem CanonOut.execCrewRefusalWindowEnd {core job id : Nat} : CanonOut (Machine.execCrewRefusalWindowEnd core job id) :=
  .event fun _ h => h.modCore

theorem CanonOut.execCrewjTimeout {core job id : Nat} : CanonOut (Machine.execCrewjTimeout core job id) :=
  .event fun _ h => by
    split
    · exact h
    · exact h.failJoin

theorem CanonOut.execCrewjRefusalWindowEnd {core job id : Nat} : CanonOut (Machine.execCrewjRefusalWindowEnd core job id) :=
  .event fun _ h => h.modCore

theorem State.canon.signalIn {s : State} {n : Nat} {rel broken : Bool} (h : s.canon) : (s.signalIn n rel broken).canon := by
  unfold State.signalIn
  split
  · exact h
  · exact .ite h.upd.hbDeliver h

theorem CanonOut.execHurdleSignal {n : Nat} : CanonOut (Machine.execHurdleSignal n) := .event fun _ h => h.signalIn

theorem CanonOut.execHurdleRelease {n : Nat} : CanonOut (Machine.execHurdleRelease n) := .event fun _ h => h.signalIn

theorem CanonOut.execBrokenSignal {n : Nat} : CanonOut (Machine.execBrokenSignal n) := .event fun _ h => h.signalIn

theorem CanonOut.execBrokenRelease {n : Nat} : CanonOut (Machine.execBrokenRelease n) := .event fun _ h => h.signalIn

theorem State.canon.failStash {s : State} {t : Nat} (h : s.canon) : (s.failStash t).canon :=
  .ite
    (by
      split
      · dsimp only
        split
        · exact h
        · exact h.failCtr
      · dsimp only
        split
        · exact h
        · exact h.failCtr
      · exact h) h

theorem State.canon.stopEpis {s : State} {t : Nat} (h : s.canon) : (s.stopEpis t).canon := h.upd

theorem State.canon.cancelStarter {s : State} {t : Nat} (h : s.canon) : (s.cancelStarter t).canon :=
  .ite h.modSlot.takeTrap h.modSlot

theorem State.canon.restartWriter {s : State} {t : Nat} (h : s.canon) : (s.restartWriter t).canon := .ite h.modSlot h

theorem State.canon.keepResults {s : State} {t : Nat} (h : s.canon) : (s.keepResults t).canon := by
  unfold State.keepResults
  dsimp only
  split
  · split
    · exact h
    · split
      · next e => exact .upd (CanonM.ok (.bind .readSR fun _ => .bind .tredWrite fun _ => .engineDone) (.upd h) e)
      · exact h
  · exact h

theorem State.canon.takeCancel {s : State} {t : Nat} (h : s.canon) : (s.takeCancel t).canon :=
  .ite h.cancelStarter h.keepResults.failStash.stopEpis.restartWriter.dropOps.takeTrap

theorem CanonOut.execCancelDelivery {t : Nat} : CanonOut (Machine.execCancelDelivery t) := .event fun _ h => .ite h.takeCancel h

theorem CanonOut.execCancelHandlerTimeout {t : Nat} : CanonOut (Machine.execCancelHandlerTimeout t) :=
  .event fun _ h => .ite h.endUnit h

/-! ## Steps of the memory side -/

theorem CanonOut.execCrossingInvalidation {die line : Nat} : CanonOut (Machine.execCrossingInvalidation die line) :=
  .event fun _ h => .ite (.evictL2 (.ite h.upd.dropColumns h)) (.ite h.upd.dropColumns h)

theorem State.canon.squareBack {s : State} {sq : Nat} (h : s.canon) : (s.squareBack sq).canon :=
  .foldl h fun _ _ h => .ite h.setPair h

theorem State.canon.llcDrop {s : State} {sq : Nat} (h : s.canon) : (s.llcDrop sq).canon := h.squareBack.upd

theorem CanonOut.execDirectoryEviction {line : Nat} : CanonOut (Machine.execDirectoryEviction line) :=
  .event fun _ h => by
    split
    · exact h.squareBack
    · exact .ite h.llcDrop h.upd

theorem State.canon.llcTrim {s : State} (h : s.canon) : (s.llcTrim).canon := .foldl h fun _ _ h => h.llcDrop

theorem State.canon.countArray {s : State} {d a : Nat} (h : s.canon) : (s.countArray d a).canon := h.modDie.log

theorem State.canon.countEcc {s : State} {st sector : Nat} (h : s.canon) : (s.countEcc st sector).canon := h.upd.log

theorem State.canon.checkSector {s : State} {sector errs : Nat} (h : s.canon) : (s.checkSector sector errs).canon :=
  .ite h (.ite h.countEcc (.ite h.written h.upd.log))

theorem CanonOut.execHbmRequest {sector bank errs : Nat} {wr : Bool} : CanonOut (Machine.execHbmRequest sector bank errs wr) :=
  .event fun _ h => .ite h (.ite h.upd.upd h.upd.checkSector)

theorem CanonOut.execPeriodicRefresh {stack bank : Nat} : CanonOut (Machine.execPeriodicRefresh stack bank) :=
  .event fun _ h => h.upd

theorem CanonOut.execPatrolScrub {sector errs : Nat} : CanonOut (Machine.execPatrolScrub sector errs) :=
  .event fun _ h => .ite h.checkSector h

theorem State.canon.poisonSegment {s : State} {j i g : Nat} (h : s.canon) : (s.poisonSegment j i g).canon := h.modTensor

theorem State.canon.freshTensorFrame {s : State} {j i f hint : Nat} (h : s.canon) : (s.freshTensorFrame j i f hint).canon := by
  unfold State.freshTensorFrame
  extract_lets t st spot
  split
  · exact .remark (.modTensor h)
  · exact h

theorem State.canon.forgetErrors {s : State} {f : Nat} (h : s.canon) : (s.forgetErrors f).canon := h.upd

theorem State.canon.handleStorage {s : State} {f j i : Nat} {u : FrameUse} {n hint : Nat} (h : s.canon) :
    (s.handleStorage f j i u n hint).canon :=
  .releaseErrors (.freshTensorFrame (.ite h.forgetErrors h.forgetErrors.poisonSegment))

theorem State.canon.handlePage {s : State} {f hint : Nat} (h : s.canon) : (s.handlePage f hint).canon := by
  unfold State.handlePage
  dsimp only
  split
  · exact .ite (.releaseErrors (.ite h.upd h)) (.releaseErrors (.upd (.upd (.ite h.upd h))))
  · split
    · exact .changeMap (.ite h.upd h)
    · exact .ite (.releaseErrors (.ite h.upd h)) (.releaseErrors (.upd (.upd (.ite h.upd h))))

theorem State.canon.handleFrame {s : State} {f hint : Nat} (h : s.canon) : (s.handleFrame f hint).canon := by
  unfold State.handleFrame
  dsimp only
  split
  · exact h.upd.handleStorage
  · exact .ite h h.upd.handlePage

theorem State.canon.loseWord {s : State} {w : Nat} (h : s.canon) : (s.loseWord w).canon := by
  unfold State.loseWord
  split
  · exact h.poisonSegment
  · exact h.upd

theorem State.canon.loseL1 {s : State} {c w : Nat} (h : s.canon) : (s.loseL1 c w).canon := by
  unfold State.loseL1
  dsimp only
  split
  · exact h
  · exact .ite h.loseWord h.modCore

theorem State.canon.loseL2 {s : State} {d w : Nat} (h : s.canon) : (s.loseL2 d w).canon := by
  unfold State.loseL2
  dsimp only
  split
  · exact h
  · exact .ite h.loseWord h.evictL2

theorem State.canon.loseLlc {s : State} {w : Nat} (h : s.canon) : (s.loseLlc w).canon := by
  unfold State.loseLlc
  split
  · exact h
  · exact .ite h.loseWord h.llcDrop

theorem State.canon.arrayError {s : State} {n w : Nat} (h : s.canon) : (s.arrayError n w).canon := by
  unfold State.arrayError
  dsimp only
  split
  · exact h.modCore.log
  · exact h.modCluster.log
  · exact .log (.ite h h.poisonSegment)
  · exact h.countArray
  · exact h.loseL1.log
  · exact h.loseL2.log
  · exact h.loseLlc.log
  · exact .ite h.loseWord.log h
  · exact h

theorem CanonOut.execManagerErrorHandling {sector fresh : Nat}
    {_clean : Bool} : CanonOut (Machine.execManagerErrorHandling sector fresh _clean) :=
  .event fun _ h => .ite h.upd.arrayError (.ite h h.handleFrame)

theorem State.canon.carveDown {n : Nat} : ∀ {s : State}, s.canon → (State.carveDown n s).canon := by
  induction n with
  | zero => exact fun h => h
  | succ n ih =>
    intro s h
    unfold State.carveDown
    split
    · exact ih h
    · exact h

theorem State.canon.carveFit {s : State} (h : s.canon) : (s.carveFit).canon := .llcTrim (.carveDown (.ite h.upd h))

theorem CanonOut.execCarveInterval : CanonOut Machine.execCarveInterval := .event fun _ h => h.upd

theorem CanonOut.execCarveStepReady : CanonOut Machine.execCarveStepReady := .event fun _ h => h.upd.llcTrim

theorem CanonOut.execReRepresentation {job idx cls : Nat} : CanonOut (Machine.execReRepresentation job idx cls) :=
  .service fun s h => State.canon.getD (s := { s with picks := s.picks.tail }) h fun _ e =>
    State.canon.moveTensor (s := { s with picks := s.picks.tail }) h e

theorem CanonOut.execConverterSnapshot {job idx : Nat} : CanonOut (Machine.execConverterSnapshot job idx) :=
  .service fun _ h => h.modTensor

theorem CanonOut.execReRepresentationPublish {job idx : Nat} : CanonOut (Machine.execReRepresentationPublish job idx) :=
  .service fun _ h => h.publishRerep

theorem CanonOut.execTensorEntryFree {job idx : Nat} : CanonOut (Machine.execTensorEntryFree job idx) :=
  .service fun _ h => h.settleTensor

/-! ## Rebases -/

theorem State.canon.rebaseSaved {s : State} {j : Nat} {l : List Saved} (h : s.canon) : (s.rebaseSaved j l).canon :=
  .foldl h fun _ _ h => by
    split
    · exact h.written
    · exact h

theorem State.canon.dropPairs {s : State} {rs : List (Nat × Nat)} (h : s.canon) : (s.dropPairs rs).canon := h.upd

theorem State.canon.rebaseFlight {s : State} {j m : Nat} (h : s.canon) : (s.rebaseFlight j m).canon := h.upd

theorem State.canon.rebaseJob {s : State} {j : Nat} (h : s.canon) : (s.rebaseJob j).canon := by
  unfold State.rebaseJob
  split
  · exact h
  · exact h.rebaseSaved.dropPairs.rebaseFlight.upd.setJob

theorem State.canon.holdJobs {s : State} (h : s.canon) : (s.holdJobs).canon := h.upd

theorem CanonOut.execRebase {job : Nat} : CanonOut (Machine.execRebase job) := .event fun _ h => .ite h.rebaseJob h

/-! ## Completion records -/

theorem State.canon.writeRecord {s : State} {j : Nat} {id : Word} {l : Lvl} {status : Nat} (h : s.canon) :
    (s.writeRecord j id l status).1.canon := by
  unfold State.writeRecord
  split
  · exact h
  · exact h.upd.modJob.storeAt

theorem State.canon.toParent {s : State} {j kind : Nat} {id : Word} {l : Lvl} {status cause tid t : Nat} (h : s.canon) :
    (s.toParent j kind id l status cause tid t).canon := by
  have h1 : (s.modJob j fun x => x.modLvl (kind + 1) (parentId kind id) fun p => p.raise t).canon := h.modJob
  unfold State.toParent
  dsimp only
  split
  · exact h1.modJob
  · exact h1.modJob
  · exact h1.modJob
  · exact h1.modJob
  · exact .ite h1.modJob (h1.childFailed fun _ h => h.modJob)

theorem State.canon.unpoison {s : State} {rs : List (Nat × Nat)} (h : s.canon) : (s.unpoison rs).canon := h.upd

theorem State.canon.endJob {s : State} {j : Nat} {written : Bool} (h : s.canon) : (s.endJob j written).canon :=
  .carveFit (.upd (.setJob (.unpoison (.rebaseJob (.foldl h fun _ _ h => h.remark)))))

theorem CanonOut.execCompletionRecordWrite {id : Word} : CanonOut (Machine.execCompletionRecordWrite id) :=
  .event fun _ h => by
    dsimp only
    split
    · exact h
    · split
      · exact h
      · exact .ite h
            (.ite
                (.endJob
                    (by
                      split
                      · exact h.writeRecord.modJob.log
                      · exact h.writeRecord.modJob))
                (by
                  split
                  · exact h.writeRecord.modJob.toParent
                  · exact h.writeRecord.modJob.toParent))

theorem State.canon.ack {s : State} {j kind : Nat} {id : Word} (h : s.canon) : (s.ack j kind id).canon := h.modJob

theorem CanonOut.execKillAck {id : Word} : CanonOut (Machine.execKillAck id) :=
  .event fun _ h => .ite (.ite h.cancelUnits.ack h.cancelUnits) h

/-! ## The graph engine and the launch controllers -/

theorem State.canon.killTable {s : State} {j kind : Nat} {id : Word} (h : s.canon) : (s.killTable j kind id).canon :=
  h.modJob.stopLevel

theorem State.canon.takeEarly {s : State} {j kind : Nat} {id : Word} (h : s.canon) : (s.takeEarly j kind id).canon := by
  unfold State.takeEarly
  split
  · exact h
  · exact .ite h.modJob.stopLevel h

theorem CanonOut.execPhaseStart {job : Nat} : CanonOut (Machine.execPhaseStart job) :=
  .event fun _ h => by
    dsimp only
    split
    · exact h
    · exact .ite h
          (by
            split
            · exact h.killTable
            · next e1 =>
                exact (h.tabEntry e1).modJob.takeEarly)

theorem State.canon.launchTable {s : State} {j p g tab n pts : Nat} (h : s.canon) {i : Nat} :
    ∀ {q : State × Nat × List (Nat × List Nat)}, s.launchTable j p g tab n pts i = some q → q.1.canon := by
  induction i with
  | zero =>
    intro q e
    cases e
    exact h
  | succ i ih =>
    intro q e
    unfold State.launchTable at e
    split at e
    · cases e
    · next e1 =>
      split at e
      · cases e
      · next e2 =>
        split at e
        · cases e
        · next e3 =>
          obtain ⟨d, -, rfl⟩ := Option.map_eq_some_iff.mp e
          exact State.canon.tableRead (State.canon.tableRead (ih e1) e2) e3

theorem State.canon.unopened {s : State} {j : Nat} (h : s.canon) : (s.unopened j).canon := h.modJob

theorem State.canon.openGraph {s : State} {j p g : Nat} {e : TabEnt} {pts : Nat} (h : s.canon) : (s.openGraph j p g e pts).canon := by
  unfold State.openGraph
  dsimp only
  split
  · exact h.unopened.killTable
  · next e1 =>
      exact .ite (h.launchTable e1).unopened.killTable (.foldl (h.launchTable e1).modJob fun _ _ h => h.takeEarly)

theorem CanonOut.execGraphStart {job : Nat} : CanonOut (Machine.execGraphStart job) :=
  .event fun _ h => by
    dsimp only
    split
    · exact h
    · split
      · exact h
      · exact .ite h
            (by
              split
              · exact h.killTable
              · next e1 =>
                  exact .ite (h.tabEntry e1).modJob.unopened.takeEarly (h.tabEntry e1).modJob.openGraph)

theorem State.canon.modLaunch {s : State} {j : Nat} {id : Word} {f : Launch → Launch} (h : s.canon) : (s.modLaunch j id f).canon :=
  h.modJob

theorem CanonOut.execLaunchPlacement {id : Word} : CanonOut (Machine.execLaunchPlacement id) :=
  .event fun _ h => by
    dsimp only
    split
    · exact h
    · exact .ite h (.ite h.modLaunch (.ite h h.modLaunch.modJob))

theorem State.canon.tellCore {s : State} {c : Nat} {words : List Word} {stamp : Nat} {f : State → State} (h : s.canon)
    (hf : ∀ s, s.canon → (f s).canon) : (s.tellCore c words stamp f).canon := .ite (hf _ h.deliver) h

theorem CanonOut.execAssignStart {core : Nat} {id : Word} {n i : Nat} : CanonOut (Machine.execAssignStart core id n i) :=
  .event fun s h => by
    split
    · exact h
    · exact .ite (h.tellCore fun _ h => h.modLaunch) h

theorem CanonOut.execAssignCancel {core : Nat} {id : Word} : CanonOut (Machine.execAssignCancel core id) :=
  .event fun s h => by
    split
    · exact h
    · exact .ite (h.tellCore fun _ h => h) h

theorem CanonOut.execFarUnitPlace {id : Word} {core : Nat} : CanonOut (Machine.execFarUnitPlace id core) :=
  .event fun _ h => by
    split
    · exact h
    · split
      · exact h
      · exact h.setSlot.modLaunch

theorem CanonOut.execFarUnitRetire {t : Nat} : CanonOut (Machine.execFarUnitRetire t) := .event fun _ h => .ite h.reapSlot h

/-! ## The host link, freeze and reset -/

theorem CanonOut.execHostRead {pa n : Nat} : CanonOut (Machine.execHostRead pa n) :=
  .event fun _ h => .foldl h fun _ _ h => .ite h.setPair h

theorem CanonOut.execHostWrite {pa n x : Nat} : CanonOut (Machine.execHostWrite pa n x) :=
  .event fun _ h => .foldl h fun _ _ h => .ite h.storeAt h

theorem CanonOut.execHostRegisterWrite {off : Nat} {x : Word} : CanonOut (Machine.execHostRegisterWrite off x) :=
  .event fun _ h => h.upd

theorem CanonOut.execFeatselWrite {x : Word} : CanonOut (Machine.execFeatselWrite x) := .event fun _ h => .ite h h.upd

theorem CanonOut.execActlvlhWrite {x : Word} : CanonOut (Machine.execActlvlhWrite x) := .event fun _ h => .ite h.upd h

theorem CanonOut.execLnkcthrWrite {x : Word} : CanonOut (Machine.execLnkcthrWrite x) := .event fun _ h => h.upd

theorem CanonOut.execPortmodeWrite {x : Word} : CanonOut (Machine.execPortmodeWrite x) := .event fun _ h => h.upd

theorem CanonOut.execPortmodeApply {port : Nat} : CanonOut (Machine.execPortmodeApply port) :=
  .event fun _ h => .ite h (.upd (.foldl h fun _ _ h => h.upd))

theorem CanonOut.execAttestationRequest {x : Word} : CanonOut (Machine.execAttestationRequest x) := .event fun _ h => h.upd

theorem CanonOut.execFreeze {x : Word} : CanonOut (Machine.execFreeze x) :=
  .event fun _ h => .ite h (.foldl h fun _ _ h => h.modDie)

theorem CanonOut.execFreezeToken {die : Nat} : CanonOut (Machine.execFreezeToken die) :=
  .event fun _ h => .ite (.ite h.log.modDie.upd h.log.modDie) h

theorem State.canon_restart {s : State} {good : Bool} : (s.restart good).canon := reset_mem_wf

theorem CanonOut.execColdReset {good : Bool} : CanonOut (Machine.execColdReset good) := .next fun _ _ => State.canon_restart

theorem CanonOut.execWarmReset : CanonOut Machine.execWarmReset := .event fun _ _ => reset_mem_wf

/-! ## Pre-emption: save, spill and restore -/

theorem State.canon.withdraw {s : State} {t : Nat} {w : Wait} (h : s.canon) : (s.withdraw t w).canon := by
  unfold State.withdraw
  dsimp only
  split
  · exact h.setCtr
  · exact .ite h.modHb h.modHb.upd
  · exact h

theorem State.canon.dropJoins {s : State} {c : Nat} (h : s.canon) : (s.dropJoins c).canon := h.modCore

theorem State.canon.stopSlot {s : State} {t : Nat} (h : s.canon) {u : State} (e : s.stopSlot t = some u) : u.canon := by
  unfold State.stopSlot at e
  dsimp only at e
  split at e
  · cases e
    exact h
  · split at e
    · cases e
    · split at e <;> cases e
      · exact h.unlist.modSlot
      · exact h.withdraw.undo.dropOps.dropJoins
  · cases e

theorem State.canon.storeFor {s : State} {j va x pts n : Nat} (h : s.canon) {p : State × Option Nat}
    (e : s.storeFor j va x pts n = p) : p.1.canon := by
  subst e
  induction n with
  | zero => exact h
  | succ n ih =>
    unfold State.storeFor
    split
    · next e => rwa [e] at ih
    · next e =>
      rw [e] at ih
      split
      · exact ih
      · exact State.canon.storeAt ih

theorem State.canon.loadFor {s : State} {j va : Nat} (h : s.canon) {n : Nat} :
    ∀ {p : State × Nat}, s.loadFor j va n = .ok p → p.1.canon := by
  induction n with
  | zero =>
    intro p e
    cases e
    exact h
  | succ n ih =>
    intro p e
    unfold State.loadFor at e
    split at e
    · cases e
    · next e1 =>
      split at e
      · cases e
      · cases e
      · next e2 =>
        have h2 := State.canon.agentLoad (ih e1) e2
        cases e
        exact h2

theorem State.canon.killJob {s : State} {j cause : Nat} (h : s.canon) : (s.killJob j cause).canon := h.modJob.stopLevel

theorem State.canon.renameOps {s : State} {a b : Nat} (h : s.canon) : (s.renameOps a b).canon := h.upd

theorem State.canon.parkAccs {s : State} {x : Slot} {j cl : Nat} (h : s.canon) : (s.parkAccs x j cl).canon := h.modCluster

theorem State.canon.saveThread {s : State} {j t : Nat} (h : s.canon) : (s.saveThread j t).canon := by
  unfold State.saveThread
  dsimp only
  split
  · next e => exact State.canon.killJob (h.storeFor e)
  · next e =>
    have h1 := h.storeFor e
    exact State.canon.modJob (State.canon.setSlot (State.canon.renameOps (.ite h1 (State.canon.parkAccs h1))))

theorem State.canon.saveBaton {s : State} {j : Nat} {b : Baton} (h : s.canon) : (s.saveBaton j b).canon := by
  unfold State.saveBaton
  dsimp only
  split
  · next e => exact State.canon.killJob (h.storeFor e)
  · next e => exact State.canon.modJob (h.storeFor e)

theorem State.canon.spill {s : State} {j k cl a : Nat} (h : s.canon) : (s.spill j k cl a).canon := by
  generalize hf : @State.spill = f
  delta State.spill at hf
  subst hf
  beta_reduce
  extract_lets area q img
  generalize e : s.storeFor _ _ _ _ _ = p
  have h1 := h.storeFor e
  split
  · exact .killJob h1
  · dsimp only
    split
    · exact .killJob (.modCluster h1)
    · exact .storeAt (.modCluster h1)

/-- The state of a pair is canonical: a name for it, so that a proof about a pair does not compute its first component. -/
def CanonFst {α : Type} (p : State × α) : Prop := p.1.canon

theorem CanonFst.ite {α : Type} {c : Prop} [Decidable c] {p q : State × α} (hp : CanonFst p) (hq : CanonFst q) :
    CanonFst (if c then p else q) := by
  split
  · exact hp
  · exact hq

theorem State.canon.unspill {s : State} {j : Nat} {x : Slot} {b c a : Nat} (h : s.canon) : CanonFst (s.unspill j x b c a) := by
  generalize hf : @State.unspill = f
  delta State.unspill at hf
  subst hf
  beta_reduce
  generalize e : s.loadFor _ _ _ = p
  split
  · exact h
  · have h1 := h.loadFor e
    split
    · exact h1
    · exact State.canon.modCluster h1

theorem State.canon.reclaim {s : State} {j : Nat} {x : Slot} {cl a : Nat} (h : s.canon) : (s.reclaim j x cl a).1.canon :=
  .iteFst h.modCluster h

theorem State.canon.restoreAccs {s : State} {j k x cl : Nat} {th : Slot} (h : s.canon) : CanonFst (s.restoreAccs j k x cl th) := by
  refine List.foldlRecOn (motive := CanonFst) _ _ h fun p h a _ => ?_
  split
  · exact h
  · exact .ite (State.canon.reclaim h) (State.canon.unspill (.ite h (State.canon.spill h)))

theorem State.canon.restoreAccs_fst {s : State} {j k x cl : Nat} {th : Slot} (h : s.canon) {p : State × Option Nat}
    (e : s.restoreAccs j k x cl th = p) : p.1.canon := e ▸ h.restoreAccs

theorem State.canon.savedOf {s : State} {j : Nat} {l : List Saved} (h : s.canon) {p : State × List (Saved × Nat)}
    (e : s.savedOf j l = some p) : p.1.canon := by
  refine foldl_some (P := fun p : State × List (Saved × Nat) => p.1.canon) h (fun o v r ho hr => ?_) e
  cases o with
  | none => cases hr
  | some q =>
    dsimp only at hr
    split at hr <;> cases hr
    next e1 => exact State.canon.loadFor (ho q rfl) e1

theorem State.canon.placeSaved {s : State} {j : Nat} {l : Launch} {g : List (Saved × Nat)} (h : s.canon) {u : State}
    (e : s.placeSaved j l g = some u) : u.canon := by
  unfold State.placeSaved at e
  split at e <;> cases e
  refine h.foldl fun s x h => ?_
  dsimp only
  split
  · next e1 => exact State.canon.restoreAccs_fst (State.canon.renameOps h.setSlot) e1
  · next e1 => exact State.canon.failUnit (State.canon.restoreAccs_fst (State.canon.renameOps h.setSlot) e1)

theorem State.canon.restore {s : State} {j : Nat} {l : Launch} (h : s.canon) {u : State} (e : s.restore j l = some u) : u.canon := by
  unfold State.restore at e
  split at e
  · cases e
  · split at e
    · cases e
      exact h.killJob
    · next e1 =>
      split at e
      · cases e
      · next e2 =>
        dsimp only at e
        split at e <;> cases e
        refine State.canon.modLaunch (State.canon.modJob (foldl_some (P := State.canon) (h.savedOf e1) (fun o g r ho hr => ?_) e2))
        cases o with
        | none => cases hr
        | some t => exact (ho t rfl).placeSaved hr

theorem State.canon.vacated {s : State} {c : Nat} (h : s.canon) : (s.vacated c).canon := h.upd

theorem State.canon.preempt {s : State} {j : Nat} {id : Word} (h : s.canon) : (s.preempt j id).canon := by
  unfold State.preempt
  dsimp only
  split
  · exact .foldl
          (.upd
              (.foldl
                    (.foldl h fun _ _ h =>
                      .ite h
                        (by
                          split
                          · exact h
                          · next e2 =>
                              exact (h.stopSlot e2).modJob)) fun _ _ h =>
                .ite h.saveThread h)) fun _ _ h =>
      h.saveBaton
  · exact .ite
        (.modLaunch
            (.foldl
                  (.upd
                      (.foldl
                            (.foldl h fun _ _ h =>
                              .ite h
                                (by
                                  split
                                  · exact h
                                  · next e2 =>
                                      exact (h.stopSlot e2).modJob)) fun _ _ h =>
                        .ite h.saveThread h)) fun _ _ h =>
              h.saveBaton))
        (.foldl
              (.upd
                  (.foldl
                        (.foldl h fun _ _ h =>
                          .ite h
                            (by
                              split
                              · exact h
                              · next e2 =>
                                  exact (h.stopSlot e2).modJob)) fun _ _ h =>
                    .ite h.saveThread h)) fun _ _ h =>
          h.saveBaton)

theorem CanonOut.execPreemption {id : Word} : CanonOut (Machine.execPreemption id) :=
  .event fun _ h => by
    dsimp only
    split
    · exact .ite h.preempt h
    · exact h

theorem CanonOut.execLaunchRestore {id : Word} : CanonOut (Machine.execLaunchRestore id) :=
  .event fun s h => by
    split
    · exact h
    · exact .ite (h.getD fun _ e => h.restore e) h

/-! ## Job intake -/

theorem State.canon.intakeStatus {s : State} {f seq j code : Nat} (h : s.canon) : (s.intakeStatus f seq j code).canon := h.upd

theorem State.canon.clearBanks {s : State} {j : Nat} (h : s.canon) : (s.clearBanks j).canon := h.upd

theorem State.canon.accept {s : State} {f seq : Nat} (h : s.canon) : (s.accept f seq).canon := by
  unfold State.accept
  split
  · exact h.clearBanks.setJob.rebaseJob.carveFit.intakeStatus.upd
  · exact h.intakeStatus

theorem State.canon.intake {f : Nat} {l : List Notify} : ∀ {s : State}, s.canon → (s.intake f l).1.canon := by
  induction l with
  | nil => exact fun h => h
  | cons n l ih =>
    intro s h
    unfold State.intake
    split
    · exact ih h
    · split
      · exact ih h.accept
      · split
        · exact ih h.intakeStatus
        · exact h

theorem State.canon.intakeFrame {s : State} {f : Nat} (h : s.canon) : (s.intakeFrame f).canon := h.intake.upd

theorem CanonOut.execJobnotify {x : Word} : CanonOut (Machine.execJobnotify x) :=
  .service fun _ h => .ite h (.ite h.intakeStatus (.ite h.upd.intakeFrame h.upd))

theorem CanonOut.execIntakeReread {frame : Nat} : CanonOut (Machine.execIntakeReread frame) :=
  .service fun _ h => .ite h.intakeFrame h

theorem State.canon.spillCluster {s : State} {cl : Nat} (h : s.canon) : (s.spillCluster cl).canon :=
  .foldl h fun _ _ h => by
    dsimp only
    split
    · exact h.spill
    · exact h

theorem CanonOut.execClusterAssignment {cluster job : Nat} : CanonOut (Machine.execClusterAssignment cluster job) :=
  .event fun _ h => .ite h (.setCluster (.foldl (.foldl h.spillCluster fun _ _ h => h.modCore) fun _ _ h => h.modSlot))

/-! ## Links, time and the governor -/

theorem State.canon.modLink {s : State} {v : Nat} {f : Link → Link} (h : s.canon) : (s.modLink v f).canon := h.upd

theorem State.canon.errorReply {s : State} {v t : Nat} (h : s.canon) : (s.errorReply v t).canon := by
  unfold State.errorReply
  split
  · exact h
  · next k _ =>
    split
    · split
      · next e =>
        split
        · exact h
        · split
          · exact h.takeCancel
          · exact State.canon.wakeUp (.upd (CanonOut.rerun _ _ (.upd h) e))
      · exact h
    · exact h

theorem State.canon.linkDown {s : State} {v : Nat} (h : s.canon) : (s.linkDown v).canon :=
  .ite h (.dropColls (.drained (.foldl (.log (.modLink (.foldl h fun _ _ h => h.errorReply))) fun _ _ h => h.stopCopy)))

theorem CanonOut.execFrameReceive {link seq : Nat} {bad : Bool}
    {corr : List (Nat × Nat)} : CanonOut (Machine.execFrameReceive link seq bad corr) :=
  .event fun _ h =>
  .ite h
    (.ite
        (.ite
            (.ite (.linkDown (.modLink (.ite h.upd.modLink.modLink h.upd.modLink)))
                (.modLink (.ite h.upd.modLink.modLink h.upd.modLink)))
            (.modLink (.ite (.ite h.upd.modLink.modLink h.upd.modLink) (.drained (.ite h.upd.modLink.modLink h.upd.modLink)))))
        (.ite h.upd.modLink.modLink h.upd.modLink))

theorem CanonOut.execWindowClose {link : Nat} : CanonOut (Machine.execWindowClose link) := .event fun _ h => .ite h h.modLink

theorem CanonOut.execLaneMapMarker {link w : Nat} {back : Bool} : CanonOut (Machine.execLaneMapMarker link w back) :=
  .event fun _ h => .ite h (.ite (.ite h.modLink.log h) (.ite (.ite h.modLink.log.linkDown h.modLink.log) h))

theorem CanonOut.execRetrainComplete {link w : Nat} {good : Bool} : CanonOut (Machine.execRetrainComplete link w good) :=
  .event fun _ h => .ite h (.ite h.modLink (.ite h.modLink h.modLink))

theorem CanonOut.execRateAdvertisement {link rate : Nat} : CanonOut (Machine.execRateAdvertisement link rate) :=
  .event fun _ h => .ite h.modLink h

theorem CanonOut.execKeyExchange {link : Nat} : CanonOut (Machine.execKeyExchange link) := .event fun _ h => .ite h.modLink h

theorem CanonOut.execTimeDiscipline {src bound tai die : Nat} : CanonOut (Machine.execTimeDiscipline src bound tai die) :=
  .event fun _ h => .ite (.foldl h.upd fun _ _ h => h.modDie) h

theorem CanonOut.execDisciplineLost {us : Nat} : CanonOut (Machine.execDisciplineLost us) :=
  .event fun _ h => .ite h (.upd (.foldl h fun _ _ h => h.modDie))

theorem CanonOut.execGovernorTick {power : Nat} {near : Bool} : CanonOut (Machine.execGovernorTick power near) :=
  .event fun _ h => .ite h.upd h.upd.log

/-! ## The loader -/

theorem State.canon.mapSection {s : State} {root base n : Nat} {i : Image} (h : s.canon) {u : State}
    (e : s.mapSection root base n i = some u) : u.canon := by
  refine foldl_some h (fun o p r ho hr => ?_) e
  cases o with
  | none => cases hr
  | some t =>
    simp only [Option.bind_some, Option.map_eq_some_iff] at hr
    obtain ⟨q, hq, rfl⟩ := hr
    exact wf_writeN _ _ _ ((ho t rfl).mapPage (fun _ _ h e => h.takeFrame e) hq)

theorem State.canon.poke {s : State} {j va n x : Nat} (h : s.canon) : (s.poke j va n x).canon := by
  refine h.foldl fun s k h => ?_
  split
  · exact wf_set _ _ h
  · exact h

theorem State.canon.applyRel {s : State} {j base : Nat} {i : Image} {recs n : Nat} (h : s.canon) {p : State × Nat}
    (e : s.applyRel j base i recs n = .ok p) : p.1.canon := by
  unfold State.applyRel at e
  dsimp only at e
  generalize relocate _ _ _ _ _ _ = r at e
  split at e
  · cases e
  · split at e
    · cases e
    · split at e <;> cases e
      · exact h
      · exact h.poke

theorem State.canon.applyRels {s : State} {j base : Nat} {i : Image} (h : s.canon) {p : State × Nat}
    (e : s.applyRels j base i = .ok p) : p.1.canon := by
  refine foldl_ok (P := fun q : State × Nat => q.1.canon) h (fun o n r ho hr => ?_) e
  cases o with
  | error x => cases hr
  | ok q => exact State.canon.applyRel (ho q rfl) hr

theorem State.canon.allocTensor_eq {s t : State} {j pts : Nat} {d : AllocDesc} {f : Tag} {data : Nat} {k : AllocPick}
    {x : Nat × Nat × Nat} (h : s.canon) (e : s.allocTensor j pts d f data k = (t, x)) : t.canon := by
  have h1 : (s.allocTensor j pts d f data k).1.canon := h.allocTensor
  rwa [e] at h1

theorem State.canon.loadTensor {s : State} {j base : Nat} {i : Image} {recs o : Nat} (h : s.canon) {p : State × List Nat}
    (e : s.loadTensor j base i recs o = .ok p) : p.1.canon := by
  unfold State.loadTensor at e
  extract_lets w d name stop bytes at e
  split at e
  · cases e
    exact h
  · split at e
    · cases e
    · split at e
      · split at e
        · next e1 =>
          rw [← Except.ok.inj e]
          dsimp only
          refine .poke (State.canon.allocTensor_eq ?_ e1)
          exact h
        · cases e
      · cases e

theorem State.canon.loadTensors {j base : Nat} {i : Image} {recs : Nat} {l : List Nat} :
    ∀ {s : State} {hs : List Nat}, s.canon → ∀ {p : State × List Nat}, s.loadTensors j base i recs hs l = .ok p → p.1.canon := by
  induction l with
  | nil =>
    intro s hs h p e
    cases e
    exact h
  | cons o l ih =>
    intro s hs h p e
    unfold State.loadTensors at e
    split at e
    · cases e
    · next e1 => exact ih (h.loadTensor e1) e

theorem State.canon.loadStatus {s : State} {pa : Nat} {e : LoadStop} (h : s.canon) : (s.loadStatus pa e).canon := h.written

theorem State.canon.unload {s : State} {j hd : Nat} (h : s.canon) : (s.unload j hd).canon := h.modTensor.settleTensor

theorem State.canon.undoLoad {old new : State} {j : Nat} {hs : List Nat} (h : old.canon) : (old.undoLoad new j hs).canon := h

theorem State.canon.load {s : State} {j root base : Nat} {i : Image} (h : s.canon) {p : State × List Nat}
    (e : s.load j root base i = .ok p) : p.1.canon := by
  unfold State.load at e
  split at e
  · cases e
  · split at e
    · cases e
    · split at e
      · cases e
      · split at e
        · cases e
        · split at e
          · cases e
          · next e1 =>
            split at e
            · cases e
            · next e2 =>
              refine State.canon.loadTensors (State.canon.applyRels (foldl_some (P := State.canon) h (fun o n r ho hr => ?_) e1) e2) e
              cases o with
              | none => cases hr
              | some t => exact (ho t rfl).mapSection hr

theorem CanonOut.execLoaderLoad {job image len base status : Nat} : CanonOut (Machine.execLoaderLoad job image len base status) :=
  .service fun s h => by
    split
    · exact h
    · dsimp only
      split
      · exact h.undoLoad.loadStatus
      · next e => exact State.canon.loadStatus (h.load e)

/-! ## What a step leaves to stopped dies -/

theorem State.canon.count {s : State} {t : Nat} (h : s.canon) : (s.count t).canon := .modSlot (.ite h.tick h)

theorem State.canon.parkedTurn {s : State} {c : Nat} (h : s.canon) : (s.parkedTurn c).canon := h.modCore

theorem State.canon.passTurn {s : State} {c : Nat} (h : s.canon) : (s.passTurn c).canon :=
  h.holdJobs.settleRounds.modCore.modDie

theorem State.canon.openTurn {s : State} {c : Nat} (h : s.canon) : (s.openTurn c).canon := .ite h.lapStart h

theorem State.canon.keepStopped {old new : State} (hn : new.canon) : (old.keepStopped new).canon := by
  unfold State.keepStopped
  split
  · exact hn
  · exact List.foldlRecOn (motive := fun m : SMap Byte => Memory.wf m = true) _ _ (wf_filter _ hn) fun _ hm _ _ => wf_set _ _ hm

end Sys2Proof.Machine
end

section
/-! One move of the machine keeps the canonical form of memory (O3): the meaning of every instruction and step of the device, a turn of a core,
a step of the device on a package with stopped dies. -/
namespace Sys2Proof.Machine

/-- An instruction with a word means the same when it issues as when its slot looks at it again; the other arms are the steps of the
device. -/
theorem CanonOut.exec {i : Instr} : CanonOut (Machine.exec i) := by
  have hr := CanonOut.rerun (i := i)
  cases i with
  | xpcWrite => exact .execXpcWrite
  | ptsTick => exact .execPtsTick
  | lapBoundary => exact .execLapBoundary
  | translationRequest => exact .execTranslationRequest
  | walkEnd => exact .execWalkEnd
  | shootdown => exact .execShootdown
  | shootdownAck => exact .execShootdownAck
  | leaseRenewal => exact .execLeaseRenewal
  | homeStore => exact .execHomeStore
  | crossingInvalidation => exact .execCrossingInvalidation
  | directoryEviction => exact .execDirectoryEviction
  | hbmRequest => exact .execHbmRequest
  | periodicRefresh => exact .execPeriodicRefresh
  | patrolScrub => exact .execPatrolScrub
  | managerErrorHandling _ _ clean => exact .execManagerErrorHandling (_clean := clean)
  | carveInterval => exact .execCarveInterval
  | carveStepReady => exact .execCarveStepReady
  | handleStamp => exact .execHandleStamp
  | publish => exact .execPublish
  | reduceStoreLineAdd => exact .execReduceStoreLineAdd
  | reRepresentation => exact .execReRepresentation
  | converterSnapshot => exact .execConverterSnapshot
  | reRepresentationPublish => exact .execReRepresentationPublish
  | tensorEntryFree => exact .execTensorEntryFree
  | copyChunk => exact .execCopyChunk
  | chunkVisible => exact .execChunkVisible
  | chunkAck => exact .execChunkAck
  | copyDone => exact .execCopyDone
  | copyStop => exact .execCopyStop
  | raddArrival => exact .execRaddArrival
  | raddOrdStage => exact .execRaddOrdStage
  | queueMessageArrival => exact .execQueueMessageArrival
  | assignStart => exact .execAssignStart
  | assignEnded => exact .execAssignEnded
  | assignCancel => exact .execAssignCancel
  | matrixStep => exact .execMatrixStep
  | epilogueStep => exact .execEpilogueStep
  | tensorStep => exact .execTensorStep
  | batonArrival => exact .execBatonArrival
  | batonRefusal => exact .execBatonRefusal
  | batonAccepted => exact .execBatonAccepted
  | crewBatonArrival => exact .execCrewBatonArrival
  | crewAdmissionTimeout => exact .execCrewAdmissionTimeout
  | crewRefusalWindowEnd => exact .execCrewRefusalWindowEnd
  | crewjTimeout => exact .execCrewjTimeout
  | hurdleSignal => exact .execHurdleSignal
  | hurdleRelease => exact .execHurdleRelease
  | brokenSignal => exact .execBrokenSignal
  | brokenRelease => exact .execBrokenRelease
  | completionRecordWrite => exact .execCompletionRecordWrite
  | killAck => exact .execKillAck
  | cancelDelivery => exact .execCancelDelivery
  | cancelHandlerTimeout => exact .execCancelHandlerTimeout
  | phaseStart => exact .execPhaseStart
  | graphStart => exact .execGraphStart
  | launchPlacement => exact .execLaunchPlacement
  | farUnitPlace => exact .execFarUnitPlace
  | farUnitRetire => exact .execFarUnitRetire
  | preemption => exact .execPreemption
  | launchRestore => exact .execLaunchRestore
  | rebase => exact .execRebase
  | clusterAssignment => exact .execClusterAssignment
  | loaderLoad => exact .execLoaderLoad
  | jobnotify => exact .execJobnotify
  | intakeReread => exact .execIntakeReread
  | hostRead => exact .execHostRead
  | hostWrite => exact .execHostWrite
  | hostRegisterWrite => exact .execHostRegisterWrite
  | featselWrite => exact .execFeatselWrite
  | actlvlhWrite => exact .execActlvlhWrite
  | lnkcthrWrite => exact .execLnkcthrWrite
  | portmodeWrite => exact .execPortmodeWrite
  | portmodeApply => exact .execPortmodeApply
  | attestationRequest => exact .execAttestationRequest
  | freeze => exact .execFreeze
  | freezeToken => exact .execFreezeToken
  | coldReset => exact .execColdReset
  | frameReceive => exact .execFrameReceive
  | windowClose => exact .execWindowClose
  | laneMapMarker => exact .execLaneMapMarker
  | retrainComplete => exact .execRetrainComplete
  | rateAdvertisement => exact .execRateAdvertisement
  | keyExchange => exact .execKeyExchange
  | timeDiscipline => exact .execTimeDiscipline
  | governorTick => exact .execGovernorTick
  | replyArrival => exact .execReplyArrival
  | graphEngineRequest => exact .execGraphEngineRequest
  | crewjRefusalWindowEnd => exact .execCrewjRefusalWindowEnd
  | disciplineLost => exact .execDisciplineLost
  | warmReset => exact .execWarmReset
  | peerStashRequest => exact .execPeerStashRequest
  | collPeerData => exact .execCollPeerData
  | _ => exact hr

/-! ## Turns -/

/-- What a fetch answers goes with a canonical state. -/
def CanonFetch : Except (State × Nat × Word) (Instr × State) → Prop
  | .ok p => p.2.canon
  | .error p => p.1.canon

theorem State.canon.answer {s : State} {r : Except (Nat × Word) Instr} (h : s.canon) : CanonFetch (s.answer r) := by
  unfold State.answer
  split
  · exact h
  · exact h

theorem State.canon.fetchHeader {t n : Nat} : ∀ {s : State} {w : Word}, s.canon → CanonFetch (s.fetchHeader t n w) := by
  induction n with
  | zero => exact fun h => h
  | succ n ih =>
    intro s w h
    unfold State.fetchHeader
    dsimp only
    split
    · exact h
    · split
      · exact h
      · split
        · exact h.modSlot.answer
        · split
          · exact ih h.modSlot
          · exact h.modSlot.answer

theorem State.canon.fetchIssue {s : State} {t : Nat} (h : s.canon) : CanonFetch (s.fetchIssue t) := by
  unfold State.fetchIssue
  split
  · exact h.answer
  · split
    · exact h.fetchHeader
    · exact h.answer

theorem CanonOut.issue {t : Nat} : CanonOut (fun s => s.issue t) := by
  intro s u h e
  have hf : CanonFetch (s.fetchIssue t) := h.fetchIssue
  dsimp only at e
  unfold State.issue at e
  split at e
  · next e1 =>
    rw [e1] at hf
    cases e
    exact .trapMe (.logFetch hf)
  · next e1 =>
    rw [e1] at hf
    exact CanonOut.exec _ _ (State.canon.count hf) e

theorem CanonOut.parkedTurnOf {c t : Nat} {w : Wait} : CanonOut (fun s => s.parkedTurnOf c t w) := by
  intro s u h e
  dsimp only at e
  unfold State.parkedTurnOf at e
  split at e
  · split at e <;> cases e
    · exact .setWait (.parkedTurn h)
    · exact .wakeUp (.advance (.parkedTurn h))
  · split at e
    · split at e
      · next e1 =>
        have h1 := CanonOut.exec _ _ h e1
        split at e <;> cases e
        · exact .parkedTurn h1
        · exact .wakeUp h1
      · next e1 => exact absurd e (e1 u)
    · cases e
      exact .parkedTurn h

theorem CanonOut.slotTurn {c t : Nat} : CanonOut (fun s => s.slotTurn c t) := by
  intro s u h e
  have h1 : State.canon (if (s.slot t).inCancel then s.modSlot t fun x => { x with handTurns := x.handTurns + 1 } else s) :=
    .ite h.modSlot h
  dsimp only at e
  unfold State.slotTurn at e
  dsimp only at e
  split at e
  · cases e
    exact h.takeCancel
  · split at e
    · cases e
      exact h.endUnit
    · split at e
      · cases e
        exact h
      · split at e
        · exact CanonOut.issue _ _ h1 e
        · split at e
          · exact CanonOut.parkedTurnOf _ _ h1 e
          · cases e
            exact h1

/-! ## Moves -/

theorem State.kept_canon {s t : State} {o : Out} (ho : ∀ u, o = .next u → u.canon) (e : s.kept o = .next t) : t.canon := by
  cases o with
  | next u =>
    cases e
    exact .keepStopped (ho u rfl)
  | fault x => cases e
  | refused x => cases e

theorem CanonOut.takeTurn {c : Nat} : CanonOut (Machine.takeTurn c) := by
  intro s t h e
  unfold Machine.takeTurn at e
  split at e
  · cases e
  · refine State.kept_canon (fun u e => ?_) e
    split at e
    · next e1 =>
      cases e
      exact .passTurn (CanonOut.slotTurn _ _ (.upd h.openTurn) e1)
    · next e1 => exact absurd e (e1 u)

theorem CanonOut.takeEvent {i : Instr} : CanonOut (Machine.takeEvent i) := by
  intro s t h e
  have ho : ∀ u, (match Machine.exec i { s with prompt := false, grant := none } with
      | .next s' => .next { s'.holdJobs.settleRounds with prompt := s.prompt }
      | o => o : Out) = .next u → u.canon := by
    intro u e
    split at e
    · next e1 =>
      cases e
      exact .upd (.settleRounds (.holdJobs (CanonOut.exec _ _ (.upd h) e1)))
    · next e1 => exact absurd e (e1 u)
  unfold Machine.takeEvent at e
  dsimp only at e
  split at e
  · split at e
    · exact ho t e
    · exact State.kept_canon ho e
  · cases e
    exact h

/-- Settles O3: every action of the machine answers a canonical state when it starts from one, so a turn of a core and a step of the device do. -/
theorem stepKeepsCanon : Obligations.StepKeepsCanon := by
  unfold Obligations.StepKeepsCanon
  intro s t h e
  unfold step at e
  split at e
  · exact CanonOut.takeTurn _ _ h e
  · exact CanonOut.takeTurn _ _ (.upd h) e
  · exact CanonOut.takeEvent _ _ (.upd h) e

end Sys2Proof.Machine
end

section
/-! SUPPORT. Sparse maps: the union of two, the erasure of several keys, and the codes that `overlay` puts in place. -/
namespace Sys2Proof.Machine

section
variable {α : Type}

theorem SMap.get_of_mem (d : α) {m : SMap α} (hm : (m.map Prod.fst).Pairwise (· < ·)) {e : Nat × α} (he : e ∈ m) :
    SMap.get d m e.1 = e.2 := by
  induction m with
  | nil => simp at he
  | cons a m ih =>
    obtain ⟨k, v⟩ := a
    rw [List.map_cons, List.pairwise_cons] at hm
    rcases List.mem_cons.1 he with rfl | he'
    · simp [SMap.get]
    · have hlt : k < e.1 := hm.1 _ (List.mem_map_of_mem he')
      simp [SMap.get, Nat.ne_of_gt hlt, ih hm.2 he']

/-- A key that no entry has. -/
theorem SMap.get_of_not_key (d : α) {m : SMap α} {k : Nat} (h : k ∉ m.map Prod.fst) : SMap.get d m k = d :=
  SMap.get_absent d m k fun _ he hk => h (hk ▸ List.mem_map_of_mem he)

/-- The first map has the say about its own keys, the second about every other. -/
theorem SMap.get_unionMap (d : α) (k fuel : Nat) (a b : SMap α) (hf : a.length + b.length ≤ fuel)
    (ha : (a.map Prod.fst).Pairwise (· < ·)) :
    (k ∈ a.map Prod.fst → SMap.get d (unionMap fuel a b) k = SMap.get d a k) ∧
      (k ∉ a.map Prod.fst → SMap.get d (unionMap fuel a b) k = SMap.get d b k) := by
  induction fuel generalizing a b with
  | zero =>
    obtain rfl : a = [] := List.length_eq_zero_iff.1 (by omega)
    simp [unionMap]
  | succ fuel ih =>
    match a, b with
    | [], b => simp [unionMap]
    | (i, x) :: a, [] => exact ⟨fun _ => rfl, fun h => SMap.get_of_not_key d h⟩
    | (i, x) :: a, (n, y) :: b =>
      have hfirst : ∀ j ∈ a.map Prod.fst, i < j := (List.pairwise_cons.1 ha).1
      have hrest : (a.map Prod.fst).Pairwise (· < ·) := (List.pairwise_cons.1 ha).2
      have hmem : k ∈ ((i, x) :: a).map Prod.fst ↔ k = i ∨ k ∈ a.map Prod.fst := List.mem_cons
      simp only [List.length_cons] at hf
      rw [unionMap, hmem, not_or]
      split
      · obtain ⟨hin, hout⟩ := ih a ((n, y) :: b) (by simp only [List.length_cons]; omega) hrest
        by_cases hk : k = i
        · subst hk; simp [SMap.get]
        · rw [SMap.get, if_neg hk, SMap.get, if_neg hk]
          exact ⟨fun h => hin (h.resolve_left hk), fun h => hout h.2⟩
      · split
        · next heq =>
          obtain ⟨hin, hout⟩ := ih a b (by omega) hrest
          by_cases hk : k = i
          · subst hk; simp [SMap.get]
          · rw [SMap.get, if_neg hk, SMap.get, if_neg hk, SMap.get, if_neg (heq ▸ hk)]
            exact ⟨fun h => hin (h.resolve_left hk), fun h => hout h.2⟩
        · next hlt hne =>
          obtain ⟨hin, hout⟩ := ih ((i, x) :: a) b (by simp only [List.length_cons]; omega) ha
          rw [hmem] at hin hout
          by_cases hk : k = n
          · have hnot : ¬ (k = i ∨ k ∈ a.map Prod.fst) := by
              rintro (h | h)
              · omega
              · have := hfirst k h; omega
            exact ⟨fun h => absurd h hnot, fun _ => by simp [SMap.get, hk]⟩
          · simp only [SMap.get, hk, if_false] at hin hout ⊢
            exact ⟨hin, fun h => hout (not_or.2 h)⟩

section
variable {d : α} {k : Nat} {a b : SMap α} (ha : (a.map Prod.fst).Pairwise (· < ·))
include ha

theorem SMap.get_union_mem (hk : k ∈ a.map Prod.fst) : SMap.get d (union a b) k = SMap.get d a k :=
  (SMap.get_unionMap d k _ a b (Nat.le_refl _) ha).1 hk

theorem SMap.get_union_other (hk : k ∉ a.map Prod.fst) : SMap.get d (union a b) k = SMap.get d b k :=
  (SMap.get_unionMap d k _ a b (Nat.le_refl _) ha).2 hk

end

theorem SMap.get_erased_other {d : α} {k : Nat} {β : Type} {l : List (Nat × β)} {m : SMap α} (hk : k ∉ l.map Prod.fst) :
    SMap.get d (l.foldl (fun m e => m.erase e.1) m) k = SMap.get d m k := by
  induction l generalizing m with
  | nil => rfl
  | cons e l ih =>
    have hout : k ≠ e.1 ∧ k ∉ l.map Prod.fst := not_or.1 (mt List.mem_cons.2 hk)
    exact (ih hout.2).trans (SMap.get_erase_ne d m hout.1)

theorem SMap.get_erased_mem {d : α} {k : Nat} {β : Type} {l : List (Nat × β)} {m : SMap α} (hk : k ∈ l.map Prod.fst) :
    SMap.get d (l.foldl (fun m e => m.erase e.1) m) k = d := by
  induction l generalizing m with
  | nil => simp at hk
  | cons e l ih =>
    by_cases h : k ∈ l.map Prod.fst
    · exact ih h
    · obtain rfl : k = e.1 := (List.mem_cons.1 hk).resolve_right h
      exact (SMap.get_erased_other h).trans (SMap.get_erase_self d m e.1)

end

section
variable {es : List (Nat × Nat)} (h : (es.map Prod.fst).Pairwise (· < ·)) (cells : SMap Nat)

/-- Part of a list of rising keys. -/
theorem filter_keys_rising (h : (es.map Prod.fst).Pairwise (· < ·)) (p : Nat × Nat → Bool) : ((es.filter p).map Prod.fst).Pairwise (· < ·) :=
  h.sublist (List.filter_sublist.map _)

include h

theorem overlay_get_mem {e : Nat × Nat} (he : e ∈ es) : (overlay es cells).get 0 e.1 = e.2 := by
  by_cases hz : e.2 = 0
  · have hin : e.1 ∈ (es.filter fun e => decide (e.2 = 0)).map Prod.fst := List.mem_map_of_mem (List.mem_filter.2 ⟨he, by simpa using hz⟩)
    have hout : e.1 ∉ (es.filter fun e => decide (e.2 ≠ 0)).map Prod.fst := by
      intro hmem
      obtain ⟨q, hq, hk⟩ := List.mem_map.1 hmem
      obtain ⟨hq, hne⟩ := List.mem_filter.1 hq
      have hv : q.2 = e.2 := by rw [← SMap.get_of_mem 0 h hq, hk, SMap.get_of_mem 0 h he]
      simp_all
    exact ((SMap.get_union_other (filter_keys_rising h _) hout).trans (SMap.get_erased_mem hin)).trans hz.symm
  · have hin : e ∈ es.filter fun e => decide (e.2 ≠ 0) := List.mem_filter.2 ⟨he, by simpa using hz⟩
    exact (SMap.get_union_mem (filter_keys_rising h _) (List.mem_map_of_mem hin)).trans (SMap.get_of_mem 0 (filter_keys_rising h _) hin)

theorem overlay_get_other {k : Nat} (hk : k ∉ es.map Prod.fst) : (overlay es cells).get 0 k = cells.get 0 k := by
  have hsub (p : Nat × Nat → Bool) : k ∉ (es.filter p).map Prod.fst := fun hm => hk ((List.filter_sublist.map _).subset hm)
  exact (SMap.get_union_other (filter_keys_rising h _) (hsub _)).trans (SMap.get_erased_other (hsub _))

end

/-! ## Entries of the tensor tables -/

theorem State.job_modJob_self {s : State} {j : Nat} {x : Job} (h : s.job j = some x) (f : Job → Job) : (s.modJob j f).job j = some (f x) := by
  unfold State.modJob
  rw [h]
  exact SMap.get_set_self none s.jobs j (some (f x))

theorem State.job_modTensor_self {s : State} {j : Nat} {x : Job} (h : s.job j = some x) (i : Nat) (f : Tensor → Tensor) :
    (s.modTensor j i f).job j = some { x with tensors := x.tensors.set Tensor.dflt i (f (x.tensors.get Tensor.dflt i)) } :=
  State.job_modJob_self h _

theorem State.tensor_eq {s : State} {j : Nat} {x : Job} (h : s.job j = some x) (i : Nat) : s.tensor j i = x.tensors.get Tensor.dflt i := by
  unfold State.tensor
  rw [h]

theorem State.tensor_modTensor_self {s : State} {j : Nat} {x : Job} (h : s.job j = some x) (i : Nat) (f : Tensor → Tensor) :
    (s.modTensor j i f).tensor j i = f (s.tensor j i) := by
  rw [State.tensor_eq (State.job_modTensor_self h i f), State.tensor_eq h]
  exact SMap.get_set_self _ _ _ _

theorem State.tensor_modTensor_of {s : State} {j i : Nat} {x : Job} {t : Tensor} (h : s.job j = some x) (ht : s.tensor j i = t)
    (f : Tensor → Tensor) : (s.modTensor j i f).tensor j i = f t := by
  rw [State.tensor_modTensor_self h, ht]

theorem State.tensor_modTensor_ne {s : State} {j : Nat} {x : Job} (h : s.job j = some x) {i k : Nat} (hk : k ≠ i) (f : Tensor → Tensor) :
    (s.modTensor j i f).tensor j k = s.tensor j k := by
  rw [State.tensor_eq (State.job_modTensor_self h i f), State.tensor_eq h]
  exact SMap.get_set_ne _ _ _ hk

@[simp] theorem State.modTensor_mem (s : State) (j i : Nat) (f : Tensor → Tensor) : (s.modTensor j i f).mem = s.mem := State.modJob_mem s j _
@[simp] theorem State.modTensor_hostMem (s : State) (j i : Nat) (f : Tensor → Tensor) : (s.modTensor j i f).hostMem = s.hostMem :=
  State.modJob_hostMem s j _
@[simp] theorem State.modTensor_slot (s : State) (j i : Nat) (f : Tensor → Tensor) (k : Nat) : (s.modTensor j i f).slot k = s.slot k :=
  State.modJob_slot s j _ k
@[simp] theorem State.modTensor_core (s : State) (j i : Nat) (f : Tensor → Tensor) (k : Nat) : (s.modTensor j i f).core k = s.core k :=
  State.modJob_core s j _ k
@[simp] theorem State.modTensor_cur (s : State) (j i : Nat) (f : Tensor → Tensor) : (s.modTensor j i f).cur = s.cur := State.modJob_cur s j _
@[simp] theorem State.modTensor_badSect (s : State) (j i : Nat) (f : Tensor → Tensor) : (s.modTensor j i f).badSect = s.badSect :=
  State.modJob_badSect s j _

end Sys2Proof.Machine
end

section
/-! CERTIFICATE. Handles: their checks and their stamps (R44, R64, R66, R67, R69). -/
namespace Sys2Proof.Machine

/-! ## The checks (R44, R69) -/

theorem missingBit_none {need caps : Nat} (h : ∀ b, b < 32 → need.testBit b = true → caps.testBit b = true) : missingBit need caps = none := by
  refine List.find?_eq_none.2 fun b hb hlack => ?_
  obtain ⟨hn, hc⟩ := Bool.and_eq_true_iff.1 hlack
  simp [h b (List.mem_range.1 hb) hn] at hc

theorem missingBit_lowest {need caps b : Nat} (hb : b < 32) (hn : need.testBit b = true) (hc : caps.testBit b = false)
    (hlow : ∀ c, c < b → need.testBit c = true → caps.testBit c = true) : missingBit need caps = some b := by
  refine List.find?_range_eq_some.2 ⟨by simp [hn, hc], List.mem_range.2 hb, fun c hcb => ?_⟩
  by_cases h : need.testBit c = true
  · simp [hlow c hcb h]
  · simp [h]

section
variable {s : State} {h need : Nat} {t : Tensor}

theorem checkHandle_stale (ht : s.liveTensor (s.jobOf s.cur) h = none) : checkHandle h need s = .error (.trap 8 (BitVec.ofNat 64 h)) := by
  refine M.bind_error ?_
  unfold checkStale
  rw [M.bind_ok (getS_apply _)]
  simp only [ht, trap_apply]

/-- A handle that is not stale: what is left is the check of the capabilities. -/
theorem checkHandle_live (ht : s.liveTensor (s.jobOf s.cur) h = some t) : checkHandle h need s = (do checkCaps h need t; pure t : M Tensor) s := by
  refine M.bind_ok ?_
  unfold checkStale
  rw [M.bind_ok (getS_apply _)]
  simp only [ht, M.pure_apply]

theorem checkHandle_ok (ht : s.liveTensor (s.jobOf s.cur) h = some t)
    (hc : ∀ b, b < 32 → need.testBit b = true → t.caps.testBit b = true) : checkHandle h need s = .ok (t, s) := by
  rw [checkHandle_live ht]
  unfold checkCaps
  rw [missingBit_none hc]
  rfl

theorem checkHandle_lacks {b : Nat} (ht : s.liveTensor (s.jobOf s.cur) h = some t) (hb : b < 32) (hn : need.testBit b = true)
    (hc : t.caps.testBit b = false) (hlow : ∀ c, c < b → need.testBit c = true → t.caps.testBit c = true) :
    checkHandle h need s = .error (.trap 7 (BitVec.ofNat 64 (b * 2 ^ 32 + h))) := by
  rw [checkHandle_live ht]
  unfold checkCaps
  rw [missingBit_lowest hb hn hc hlow]
  rfl

end

/-! ## The stamp (R64, R66, R67) -/

theorem modEntry_apply (h : Nat) (f : Tensor → Tensor) (s : State) :
    modEntry h f s = .ok ((), s.modTensor (s.jobOf s.cur) (h / 65536) f) := rfl

theorem keepWait_apply (f : Wait → Wait) (s : State) : keepWait f s = .ok ((), s.modSlot s.cur fun x =>
    { x with wait := some (f (x.wait.getD { kind := .ready, instr := .nop, stamps := [], data := [], n := 0 })) }) := rfl

/-- The ordering point of an instruction on a handle, where it takes its stamp. -/
def stampNow (h hH need : Nat) (kind : OpKind) (exts : Tensor → List Ext) : M Nat := do
  let s ← getS
  ensure (s.routedIn (atCore s.cur)) (noRoute 1 h)
  let t ← checkHandle h need
  if kind = .writer then checkPool hH (t.newSegs kind need (exts t)).length else pure ()
  let T := t.nextStamp s.me.pts
  modEntry h fun t => t.queue T s.cur kind (exts t) need
  mergePts T
  keepWait fun w => { w with stamps := w.stamps ++ [T] }
  pure T

/-- The state with a stamp taken: the operation is queued, the PTS raised, and the stamp kept. -/
def State.stamped (s : State) (h need T : Nat) (kind : OpKind) (exts : Tensor → List Ext) : State :=
  ((s.modTensor (s.jobOf s.cur) (h / 65536) fun t => t.queue T s.cur kind (exts t) need).modSlot s.cur
    fun x => { x with pts := max x.pts T }).modSlot s.cur fun x =>
      { x with wait := some ((fun w => { w with stamps := w.stamps ++ [T] })
        (x.wait.getD { kind := .ready, instr := .nop, stamps := [], data := [], n := 0 })) }

section
variable {s : State} {k h hH need : Nat} {kind : OpKind} {exts : Tensor → List Ext} {t : Tensor}

/-- An instruction that has not parked has no stamp yet. -/
theorem stampHandle_fresh (hw : s.me.wait = none) :
    stampHandle k h hH need kind exts s = (do await .stamp; stampNow h hH need kind exts) s := by
  unfold stampHandle
  rw [M.bind_ok (myWait_apply _), hw]
  rfl

theorem checkPool_ok {n : Nat} (h : n ≤ s.poolSegs (s.jobOf s.cur)) : checkPool hH n s = .ok ((), s) := by
  unfold checkPool
  rw [M.bind_ok (getS_apply _), decide_eq_true h]
  rfl

theorem liveTensor_eq {s : State} {j h : Nat} {t : Tensor} (ht : s.liveTensor j h = some t) : s.tensor j (h / 65536) = t := by
  unfold State.liveTensor at ht
  dsimp only at ht
  split at ht
  · exact Option.some.inj ht
  · simp at ht

variable (hr : s.routedIn (atCore s.cur) = true) (ht : s.liveTensor (s.jobOf s.cur) h = some t)
  (hc : ∀ b, b < 32 → need.testBit b = true → t.caps.testBit b = true)
  (hp : kind ≠ .writer ∨ (t.newSegs kind need (exts t)).length ≤ s.poolSegs (s.jobOf s.cur))
include hr ht hc hp

theorem stampNow_ok : stampNow h hH need kind exts s = .ok (t.nextStamp s.me.pts, s.stamped h need (t.nextStamp s.me.pts) kind exts) := by
  unfold stampNow
  rw [M.bind_ok (getS_apply _), hr, ensure_true, M.bind_ok (M.pure_apply _ _), M.bind_ok (checkHandle_ok ht hc)]
  have hqueue : (do
      modEntry h fun e => e.queue (t.nextStamp s.me.pts) s.cur kind (exts e) need
      mergePts (t.nextStamp s.me.pts)
      keepWait fun w => { w with stamps := w.stamps ++ [t.nextStamp s.me.pts] }
      pure (t.nextStamp s.me.pts) : M Nat) s = .ok (t.nextStamp s.me.pts, s.stamped h need (t.nextStamp s.me.pts) kind exts) := by
    rw [M.bind_ok (modEntry_apply _ _ _), M.bind_ok (mergePts_apply _ _), M.bind_ok (keepWait_apply _ _), M.pure_apply,
      State.modSlot_cur, State.modTensor_cur]
    rfl
  by_cases hk : kind = .writer
  · rw [if_pos hk, M.bind_ok (checkPool_ok (hp.resolve_left (not_not_intro hk)))]
    exact hqueue
  · rw [if_neg hk]
    exact hqueue

end

/-- What a stamp changes: the entry's HLAST and queue, the slot's PTS and what it keeps. -/
theorem State.stamped_spec {s : State} {h need T : Nat} {kind : OpKind} {exts : Tensor → List Ext} {t : Tensor} {x : Job}
    (hx : s.job (s.jobOf s.cur) = some x) (ht : s.tensor (s.jobOf s.cur) (h / 65536) = t) :
    let u := s.stamped h need T kind exts
    (u.slot s.cur).pts = max s.me.pts T ∧ u.tensor (s.jobOf s.cur) (h / 65536) = t.queue T s.cur kind (exts t) need ∧
      (∀ i, i ≠ h / 65536 → u.tensor (s.jobOf s.cur) i = s.tensor (s.jobOf s.cur) i) ∧ bytesKept s u ∧ slotsKept s u := by
  have hslot (k : Nat) : k = s.cur ∨ k ≠ s.cur := em _
  refine ⟨?_, ?_, fun i hi => ?_, ⟨?_, ?_, fun _ _ => ?_, fun k => ?_⟩, ?_, fun k => ?_⟩
  · simp [State.stamped, State.me]
  · exact ht ▸ State.tensor_modTensor_self hx _ _
  · exact State.tensor_modTensor_ne hx hi _
  · simp [State.stamped]
  · simp [State.stamped]
  · simp [State.stamped, State.padByte]
  · rcases hslot k with rfl | hk
    · simp [State.stamped]
    · simp [State.stamped, hk]
  · simp [State.stamped]
  · rcases hslot k with rfl | hk
    · simp [State.stamped]
    · simp [State.stamped, hk]

end Sys2Proof.Machine
end

section
/-! CERTIFICATE. A publish: the codes it puts in place, and those that earlier operations still see (R65, R143). -/
namespace Sys2Proof.Machine

/-! ## What a write of tensor storage leaves alone -/

/-- A part of the state that no step of a fold changes. -/
theorem foldl_keeps {α β : Type} (p : State → β) {f : State → α → State} (hf : ∀ s a, p (f s a) = p s) (l : List α) (s : State) :
    p (l.foldl f s) = p s := by
  induction l generalizing s with
  | nil => rfl
  | cons a l ih => exact (ih (f s a)).trans (hf s a)

/-- What a write of tensor storage does not touch. -/
structure State.SameTables (s u : State) : Prop where
  jobs    : u.jobs = s.jobs
  mem     : u.mem = s.mem
  badSect : u.badSect = s.badSect

theorem State.llcMerge_same (s : State) (pa n : Nat) : s.SameTables (s.llcMerge pa n) := by
  unfold State.llcMerge
  split <;> exact ⟨rfl, rfl, rfl⟩

theorem State.SameTables.foldl {α : Type} {f : State → α → State} (hf : ∀ (s : State) (a : α), s.SameTables (f s a)) (l : List α) (s : State) :
    s.SameTables (l.foldl f s) :=
  ⟨foldl_keeps (·.jobs) (fun s a => (hf s a).jobs) l s, foldl_keeps (·.mem) (fun s a => (hf s a).mem) l s,
    foldl_keeps (·.badSect) (fun s a => (hf s a).badSect) l s⟩

theorem State.SameTables.trans {s u v : State} (h : s.SameTables u) (h' : u.SameTables v) : s.SameTables v :=
  ⟨h'.jobs.trans h.jobs, h'.mem.trans h.mem, h'.badSect.trans h.badSect⟩

theorem State.tensWritten_same (s : State) (rs : List (Nat × Nat)) : s.SameTables (s.tensWritten rs) := by
  have hmerge : s.SameTables (if s.llc.isEmpty then s else rs.foldl (fun (s : State) r => s.llcMerge r.1 r.2) s) := by
    split
    · exact ⟨rfl, rfl, rfl⟩
    · exact .foldl (fun s r => s.llcMerge_same r.1 r.2) rs s
  refine hmerge.trans ?_
  have hpairs (l : List Nat) (u : State) := State.SameTables.foldl (f := fun (s : State) (q : Nat) =>
    { s with pairs := s.pairs.set Pair.dflt q { wts := (s.pairs.get Pair.dflt q).rts + 1, rts := (s.pairs.get Pair.dflt q).rts + 1,
                                                scope := 0, who := 0 } })
    (fun _ _ => ⟨rfl, rfl, rfl⟩) l u
  obtain ⟨hj, hm, hb⟩ := hpairs _ (if s.llc.isEmpty then s else rs.foldl (fun (s : State) r => s.llcMerge r.1 r.2) s)
  exact ⟨hj, hm, hb⟩

theorem State.SameTables.job {s u : State} (h : s.SameTables u) (j : Nat) : u.job j = s.job j := congrArg (·.get none j) h.jobs

theorem State.SameTables.tensor {s u : State} (h : s.SameTables u) (j i : Nat) : u.tensor j i = s.tensor j i := by
  unfold State.tensor
  rw [h.job j]

/-! ## The entry after a publish (R143) -/

/-- An entry with new codes in place of some units; what they held is kept for the operations stamped below `T`. -/
def Tensor.withCodes (t : Tensor) (T : Nat) (old : SMap Nat) (es : List (Nat × Nat)) : Tensor :=
  if t.ops.any fun o => decide (o.stamp < T) then { t with cells := overlay es t.cells, log := t.log ++ [(T, old)] }
  else { t with cells := overlay es t.cells }

section
variable {s : State} {j i T tm : Nat} {es : List (Nat × Nat)} {x : Job} (hx : s.job j = some x) (hp : (s.tensor j i).plain = false)
include hp

theorem State.install_mem : (s.install j i T es).mem = s.mem := by
  have hwritten := (s.modTensor j i fun t => { t with cells := overlay es t.cells }).tensWritten_same ((s.tensor j i).rangesIn es)
  unfold State.install
  dsimp only
  rw [if_neg (ne_true_of_eq_false hp)]
  split
  · rw [State.modTensor_mem, hwritten.mem, State.modTensor_mem]
  · rw [hwritten.mem, State.modTensor_mem]

include hx

theorem State.install_tensor : (∃ y, (s.install j i T es).job j = some y) ∧
    (s.install j i T es).tensor j i = (s.tensor j i).withCodes T (s.oldUnits j (s.tensor j i) es) es := by
  have hwritten := (s.modTensor j i fun t => { t with cells := overlay es t.cells }).tensWritten_same ((s.tensor j i).rangesIn es)
  have hjob := (hwritten.job j).trans (State.job_modTensor_self hx i _)
  have htensor := (hwritten.tensor j i).trans (State.tensor_modTensor_self hx i _)
  unfold State.install Tensor.withCodes
  dsimp only
  rw [if_neg (ne_true_of_eq_false hp)]
  split
  · exact ⟨⟨_, State.job_modTensor_self hjob i _⟩, by rw [State.tensor_modTensor_self hjob, htensor]⟩
  · exact ⟨⟨_, hjob⟩, htensor⟩

/-- The entry after the publish of a tensor whose codes lie in its own storage. -/
theorem State.publishAs_tensor : (s.publishAs j i T tm es).tensor j i =
    ((s.tensor j i).withCodes T (s.oldUnits j (s.tensor j i) es) es).retire T := by
  obtain ⟨⟨y, hy⟩, htensor⟩ := State.install_tensor (T := T) (es := es) hx hp
  unfold State.publishAs
  dsimp only
  rw [if_neg (ne_true_of_eq_false hp)]
  split
  · exact State.tensor_modTensor_of hy htensor _
  · refine State.tensor_modTensor_of (x := y) ?_ ?_ _
    · exact hy
    · exact htensor

omit hx in
theorem State.publishAs_mem : (s.publishAs j i T tm es).mem = s.mem := by
  unfold State.publishAs
  dsimp only
  rw [if_neg (ne_true_of_eq_false hp), State.modTensor_mem]
  split <;> exact State.install_mem hp

omit hx in
theorem State.publishTm_stored : s.publishTm j i T tm = tm := by
  unfold State.publishTm
  exact if_neg (ne_true_of_eq_false hp)

end

/-! ## Codes (R65) -/

/-- The codes of a SPARSE group are those of its cells: expanding what is packed gives them back. -/
theorem Tensor.sparseCode_eq {t : Tensor} (h : 0 < t.upr) (k : Nat) : t.sparseCode k = t.cells.get 0 k := by
  have hcol : k % t.upr < t.upr := Nat.mod_lt _ h
  have hle : k % t.upr ≤ k := Nat.mod_le _ _
  have hin : k % t.upr % 64 < min 64 (t.upr - k % t.upr / 64 * 64) := by omega
  have hplace : k - k % t.upr + k % t.upr / 64 * 64 + k % t.upr % 64 = k := by omega
  unfold Tensor.sparseCode
  dsimp only
  rw [sparseExpand_packed]
  unfold Tensor.sparseGroup
  dsimp only
  rw [List.getD_eq_getElem?_getD, List.getElem?_map, List.getElem?_range hin, Option.map_some, Option.getD_some, hplace]

theorem State.codeNow_stored {s : State} {j : Nat} {t : Tensor} (hp : t.plain = false) (hu : t.form = 3 → 0 < t.upr) (k : Nat) :
    s.codeNow j t k = t.cells.get 0 k := by
  unfold State.codeNow
  rw [if_neg (ne_true_of_eq_false hp)]
  split
  · next hf => exact Tensor.sparseCode_eq (hu hf) k
  · rfl

/-- One entry of the log, as a search for the earliest publish after `T` takes it. -/
def loggedStep (T k : Nat) (b : Option (Nat × Nat)) (e : Nat × SMap Nat) : Option (Nat × Nat) :=
  if e.1 ≤ T ∨ e.2.get 0 k = 0 then b
  else match b with
    | none => some (e.1, e.2.get 0 k - 1)
    | some x => if e.1 < x.1 then some (e.1, e.2.get 0 k - 1) else b

theorem Tensor.logged_eq (t : Tensor) (T k : Nat) : t.logged T k = (t.log.foldl (loggedStep T k) none).map (·.2) := rfl

theorem loggedStep_earlier {T k : Nat} {e : Nat × SMap Nat} (h : e.1 ≤ T) (b : Option (Nat × Nat)) : loggedStep T k b e = b := if_pos (.inl h)

theorem loggedStep_other {T k : Nat} {e : Nat × SMap Nat} (h : e.2.get 0 k = 0) (b : Option (Nat × Nat)) : loggedStep T k b e = b :=
  if_pos (.inr h)

/-- What a search has found is a publish of the log. -/
theorem loggedStep_le {T T' k : Nat} (l : List (Nat × SMap Nat)) (hl : ∀ e ∈ l, e.1 ≤ T') (b : Option (Nat × Nat))
    (hb : ∀ x ∈ b, x.1 ≤ T') : ∀ x ∈ l.foldl (loggedStep T k) b, x.1 ≤ T' := by
  induction l generalizing b with
  | nil => exact hb
  | cons e l ih =>
    refine ih (fun q hq => hl q (List.mem_cons_of_mem _ hq)) _ fun x hx => ?_
    have he : e.1 ≤ T' := hl e List.mem_cons_self
    unfold loggedStep at hx
    split at hx
    · exact hb x hx
    · split at hx
      · cases hx; exact he
      · split at hx
        · cases hx; exact he
        · exact hb x hx

/-- A publish stamped after the others is found only where no other changed the unit. -/
theorem Tensor.logged_append {t : Tensor} {T T' k : Nat} (old : SMap Nat) (cells : SMap Nat) (hT : T < T') (hl : ∀ e ∈ t.log, e.1 ≤ T') :
    ({ t with cells := cells, log := t.log ++ [(T', old)] } : Tensor).logged T k =
      (t.logged T k).or (if old.get 0 k = 0 then none else some (old.get 0 k - 1)) := by
  rw [Tensor.logged_eq, Tensor.logged_eq, List.foldl_append, List.foldl_cons, List.foldl_nil]
  have hle := loggedStep_le (T := T) (k := k) t.log hl none (by simp)
  generalize t.log.foldl (loggedStep T k) none = b at hle ⊢
  by_cases hz : old.get 0 k = 0
  · rw [loggedStep_other hz, if_pos hz, Option.or_none]
  · have hlate : ¬ (T' ≤ T ∨ old.get 0 k = 0) := by rintro (h | h) <;> [omega; exact hz h]
    unfold loggedStep
    rw [if_neg hlate, if_neg hz]
    cases b with
    | none => rfl
    | some x =>
      have hkeep : (if T' < x.1 then some (T', old.get 0 k - 1) else some x) = some x := if_neg (Nat.not_lt.2 (hle x rfl))
      exact congrArg (Option.map (·.2)) hkeep

/-- Pruning keeps what an operation that is still queued may read. -/
theorem Tensor.logged_prune {t : Tensor} {o : HOp} (ho : o ∈ t.ops) (k : Nat) : t.prune.logged o.stamp k = t.logged o.stamp k := by
  rw [Tensor.logged_eq, Tensor.logged_eq]
  unfold Tensor.prune
  dsimp only
  rw [List.foldl_filter]
  congr 1
  refine List.foldl_ext _ _ _ fun b e _ => ?_
  split
  · rfl
  · next hany =>
    have hearly : e.1 ≤ o.stamp := by
      by_contra hlate
      exact hany (List.any_eq_true.2 ⟨o, ho, by simpa using hlate⟩)
    exact (loggedStep_earlier hearly b).symm

/-- The operation of another stamp, queued still, sees the same log. -/
theorem Tensor.logged_retire {t : Tensor} {T : Nat} {o : HOp} (ho : o ∈ t.ops) (hT : o.stamp ≠ T) (k : Nat) :
    (t.retire T).logged o.stamp k = t.logged o.stamp k :=
  Tensor.logged_prune (t := { t with ops := t.ops.filter fun o => decide (o.stamp ≠ T) })
    (List.mem_filter.2 ⟨ho, decide_eq_true hT⟩) k

theorem Tensor.retire_opAt (t : Tensor) (T : Nat) : (t.retire T).opAt T = none := by
  refine List.find?_eq_none.2 fun o ho => ?_
  simpa using (List.mem_filter.1 ho).2

/-! ## The codes of a published entry -/

section
variable {s u : State} {j T : Nat} {t : Tensor} {old : SMap Nat} {es : List (Nat × Nat)}

theorem Tensor.withCodes_cells : (t.withCodes T old es).cells = overlay es t.cells := by unfold Tensor.withCodes; split <;> rfl
theorem Tensor.withCodes_ops : (t.withCodes T old es).ops = t.ops := by unfold Tensor.withCodes; split <;> rfl
theorem Tensor.withCodes_plain : (t.withCodes T old es).plain = t.plain := by unfold Tensor.withCodes; split <;> rfl
theorem Tensor.withCodes_form : (t.withCodes T old es).form = t.form := by unfold Tensor.withCodes; split <;> rfl
theorem Tensor.withCodes_upr : (t.withCodes T old es).upr = t.upr := by unfold Tensor.withCodes; split <;> rfl

/-- Where some queued operation has a lower stamp, what the units held is in the log. -/
theorem Tensor.logged_withCodes {o : HOp} (ho : o ∈ t.ops) (hT : o.stamp < T) (hl : ∀ e ∈ t.log, e.1 ≤ T) (k : Nat) :
    (t.withCodes T old es).logged o.stamp k = (t.logged o.stamp k).or (if old.get 0 k = 0 then none else some (old.get 0 k - 1)) := by
  unfold Tensor.withCodes
  rw [if_pos (List.any_eq_true.2 ⟨o, ho, decide_eq_true hT⟩)]
  exact Tensor.logged_append old _ hT hl

variable (hp : t.plain = false) (hu : t.form = 3 → 0 < t.upr)
include hp hu

theorem State.codeNow_published (k : Nat) :
    u.codeNow j ((t.withCodes T old es).retire T) k = (overlay es t.cells).get 0 k := by
  rw [State.codeNow_stored (t := (t.withCodes T old es).retire T) (Tensor.withCodes_plain.trans hp)
    (fun hf => (Tensor.withCodes_upr (T := T) (old := old) (es := es)).symm ▸ hu (Tensor.withCodes_form.symm.trans hf))]
  exact congrArg (·.get 0 k) Tensor.withCodes_cells

/-- An operation with a lower stamp sees the codes of before the publish. -/
theorem State.codeAt_published {o : HOp} (he : (es.map Prod.fst).Pairwise (· < ·)) (ho : o ∈ t.ops) (hT : o.stamp < T)
    (hl : ∀ e ∈ t.log, e.1 ≤ T) (k : Nat) :
    u.codeAt j ((t.withCodes T (s.oldUnits j t es) es).retire T) o.stamp k = s.codeAt j t o.stamp k := by
  unfold State.codeAt
  rw [Tensor.logged_retire (Tensor.withCodes_ops.symm ▸ ho) (Nat.ne_of_lt hT), Tensor.logged_withCodes ho hT hl, State.codeNow_published hp hu,
    State.codeNow_stored hp hu]
  cases t.logged o.stamp k with
  | some x => rfl
  | none =>
    have hkeys : (s.oldUnits j t es).map Prod.fst = es.map Prod.fst := List.map_map
    by_cases hk : k ∈ es.map Prod.fst
    · obtain ⟨e, hmem, rfl⟩ := List.mem_map.1 hk
      have hold : (s.oldUnits j t es).get 0 e.1 = s.codeNow j t e.1 + 1 :=
        SMap.get_of_mem 0 (e := (e.1, s.codeNow j t e.1 + 1)) (by rw [hkeys]; exact he) (List.mem_map_of_mem hmem)
      rw [hold, State.codeNow_stored hp hu]
      rfl
    · rw [SMap.get_of_not_key 0 (by rw [hkeys]; exact hk), overlay_get_other he _ hk]
      rfl

end

/-! ## The obligation -/

/-- Settles O49: the checks and the stamp of a handle run to their end, and a publish changes the codes of its units alone, which the
log keeps for every operation with a lower stamp. -/
theorem handleOperations : Obligations.HandleOperations := by
  unfold Obligations.HandleOperations
  refine ⟨fun s h need => ⟨checkHandle_stale, fun t ht => ⟨checkHandle_ok ht, fun b => checkHandle_lacks ht⟩⟩, ?_, ?_⟩
  · intro s k h hH need kind exts t x hw hready hr hx ht hc hp
    have htake : ∃ q : State, (q = s ∨ q = { s with grant := none }) ∧ stampHandle k h hH need kind exts s =
        .ok (t.nextStamp s.me.pts, q.stamped h need (t.nextStamp s.me.pts) kind exts) := by
      rw [stampHandle_fresh hw]
      rcases await_ready hready with ha | ha
      · exact ⟨s, .inl rfl, by rw [M.bind_ok ha]; exact stampNow_ok hr ht hc hp⟩
      · exact ⟨_, .inr rfl, by rw [M.bind_ok ha]; exact stampNow_ok (s := { s with grant := none }) hr ht hc hp⟩
    obtain ⟨q, hq, hrun⟩ := htake
    refine ⟨_, hrun, ?_⟩
    have hspec : let u := q.stamped h need (t.nextStamp s.me.pts) kind exts
        (u.slot s.cur).pts = max s.me.pts (t.nextStamp s.me.pts) ∧
          u.tensor (s.jobOf s.cur) (h / 65536) = t.queue (t.nextStamp s.me.pts) s.cur kind (exts t) need ∧
          (∀ i, i ≠ h / 65536 → u.tensor (s.jobOf s.cur) i = s.tensor (s.jobOf s.cur) i) ∧ bytesKept s u ∧ slotsKept s u := by
      rcases hq with rfl | rfl
      · exact State.stamped_spec hx (liveTensor_eq ht)
      · exact State.stamped_spec (s := { s with grant := none }) hx (liveTensor_eq ht)
    obtain ⟨hpts, hqueue, hothers, hbytes, hslots⟩ := hspec
    exact ⟨hpts.trans (max_eq_right (le_max_left _ _)), congrArg (·.hlast) hqueue,
      ⟨_, congrArg (·.ops) hqueue, rfl, rfl, rfl, rfl, rfl, rfl⟩, hothers, hbytes, hslots⟩
  · intro s j i T tm es x hx he hp hu
    have htensor : (s.publishAt j i T tm es).1.tensor j i = _ := State.publishAs_tensor hx hp
    refine ⟨State.publishTm_stored hp, State.publishAs_mem hp, ?_, fun e hmem => ?_, fun k hk => ?_, fun o k ho hT hl => ?_⟩
    · rw [htensor, Tensor.retire_opAt]
    · rw [htensor, State.codeNow_published hp hu, overlay_get_mem he _ hmem]
    · rw [htensor, State.codeNow_published hp hu, overlay_get_other he _ hk, State.codeNow_stored hp hu]
    · rw [htensor, State.codeAt_published hp hu he ho hT hl]

end Sys2Proof.Machine
end

section
/-! SUPPORT. What the parts of a device step leave alone: words put back, translations dropped, changes of a mapping, ports, hurdles. -/
namespace Sys2Proof.Machine

theorem State.core_modCore_self (s : State) (c : Nat) (f : Core → Core) : (s.modCore c f).core c = f (s.core c) :=
  (s.core_modCore c c f).trans (if_pos rfl)

/-- A step of the device on a die that has its clocks, with what it does. -/
theorem event_step {d : Nat} {f : State → State} {s u : State} (h : (s.die d).stopped = false) (hf : f s = u) : event d f s = .next u :=
  hf ▸ event_next d f h

/-! ## Undoing an instruction (R107, R118) -/

@[simp] theorem State.modBank_slot (s : State) (c b : Nat) (f : Bank → Bank) (k : Nat) : (s.modBank c b f).slot k = s.slot k := rfl

@[simp] theorem State.modPort_slot (s : State) (c b p : Nat) (f : Port → Port) (k : Nat) : (s.modPort c b p f).slot k = s.slot k := by
  unfold State.modPort
  split <;> rfl

theorem State.putBack_slot (s : State) (t : Nat) (l : Latch) (k : Nat) : (s.putBack t l).slot k = s.slot k := by
  unfold State.putBack
  split
  · rfl
  · rfl
  · exact State.modPort_slot _ _ _ _ _ _

theorem State.unopen_slot (s : State) (t k : Nat) : (s.unopen t).slot k = s.slot k := by
  unfold State.unopen
  split <;> rfl

theorem State.unlist_slot (s : State) (t k : Nat) : (s.unlist t).slot k = s.slot k := by
  unfold State.unlist
  dsimp only
  split <;> rfl

/-- Undoing changes the thread's own slot alone: what it took and what it waits for is gone. -/
theorem State.undo_slot (s : State) (t : Nat) : (s.undo t).slot t = { s.slot t with
    latch := [], wait := none, mailOut := none, st := if (s.slot t).st = .parked then .running else (s.slot t).st } := by
  have hback (ls : List Latch) : (ls.foldr (fun l s => s.putBack t l) s).slot t = s.slot t := by
    induction ls with
    | nil => rfl
    | cons l ls ih => exact (State.putBack_slot _ t l t).trans ih
  unfold State.undo
  dsimp only
  rw [State.modSlot_slot_self, State.unlist_slot, State.unopen_slot, hback]

/-- A trap that its thread absorbs (R385, R387). -/
theorem State.takeTrap_absorbed {s : State} {t cause : Nat} {v : Word} (hh : (s.slot t).sp.xhandler ≠ 0)
    (hhnd : (s.slot t).sp.xstat.getLsbD 0 = false) : s.takeTrap t cause v true = (s.undo t).enter t cause v := by
  unfold State.takeTrap
  exact if_pos ⟨hh, hhnd, rfl⟩

/-! ## Changes of a mapping (R43) -/

theorem State.dropLeaves_same (s : State) (d j va n : Nat) : s.SameTables (s.dropLeaves d j va n) := ⟨rfl, rfl, rfl⟩

theorem State.dropAll_same (s : State) (j va n : Nat) : s.SameTables (s.dropAll j va n) := by
  unfold State.dropAll
  exact .foldl (fun s d => s.dropLeaves_same d j va n) _ s

/-- What takes effect: the entries in memory, and no shootdown is left. -/
theorem State.takeEffect_entries {s : State} {j : Nat} {w : Shoot} (hw : w.move = []) :
    (s.takeEffect j w).mem = w.ents.foldl (fun m e => writeN m e.1 8 e.2) s.mem ∧
      ∀ x, (s.takeEffect j w).job j = some x → x.shoot = none := by
  have hdrop := State.dropAll_same { s with mem := w.ents.foldl (fun m e => writeN m e.1 8 e.2) s.mem } j w.va w.size
  generalize hd : ({ s with mem := w.ents.foldl (fun m e => writeN m e.1 8 e.2) s.mem } : State).dropAll j w.va w.size = d at hdrop
  have hmem : (d.modJob j fun x => { x with shoot := none }).mem = w.ents.foldl (fun m e => writeN m e.1 8 e.2) s.mem :=
    (State.modJob_mem d j _).trans hdrop.mem
  have hshoot : ∀ x, (d.modJob j fun x => { x with shoot := none }).job j = some x → x.shoot = none := by
    intro x hx
    cases hj : d.job j with
    | none =>
      unfold State.modJob at hx
      rw [hj] at hx
      dsimp only at hx
      rw [hj] at hx
      simp at hx
    | some y =>
      rw [State.job_modJob_self hj] at hx
      rw [← Option.some.inj hx]
  unfold State.takeEffect
  rw [hw]
  dsimp only [List.foldl_nil]
  rw [hd]
  split
  · exact ⟨hmem, hshoot⟩
  · exact ⟨hmem, hshoot⟩

/-! ## Ports (R119) -/

theorem State.port_modPort_self (s : State) (c b p : Nat) (f : Port → Port) : (s.modPort c b p f).port c b p = f (s.port c b p) := by
  unfold State.port State.modPort
  by_cases h : p = 0 ∧ isNear c
  · simp only [if_pos h]
    simp [State.modCore, State.setCore, State.core]
  · simp only [if_neg h]
    rw [State.bank_modBank_self]
    exact SMap.get_set_self _ _ _ _

/-- What an event does to a slot that sees it. -/
def Slot.signalled (c b mask : Nat) (any : Bool) (t : Nat) (x : Slot) : Slot :=
  if sees c b mask any t x then
    match x.wait with
    | some w =>
      match w.kind with
      | .event m false => { x with wait := some { w with kind := .event m (decide (m &&& mask ≠ 0)) } }
      | _ => x
    | none => x
  else x

theorem Slot.signalled_idle {c b mask t : Nat} {any : Bool} {x : Slot} (h : x.wait = none) : x.signalled c b mask any t = x := by
  unfold Slot.signalled
  rw [h]
  exact ite_self x

theorem State.signal_slot (s : State) (c b mask : Nat) (any : Bool) (t : Nat) :
    (s.signal c b mask any).slot t = (s.slot t).signalled c b mask any t :=
  SMap.get_map Slot.dflt s.slots (fun t x => x.signalled c b mask any t) t fun _ => Slot.signalled_idle rfl

theorem Slot.signalled_waits {c b mask t : Nat} {any : Bool} {x : Slot} {w : Wait} (h : x.wait = some w) :
    ∃ v, (x.signalled c b mask any t).wait = some v := by
  unfold Slot.signalled
  rw [h]
  dsimp only
  split
  · split
    · exact ⟨_, rfl⟩
    · exact ⟨w, h⟩
  · exact ⟨w, h⟩

/-- What a message that enters its port changes (R119, R285). -/
theorem State.enterPort_spec (s : State) (n : Nat) (m : Msg) : let u := s.enterPort n m
    u.msgs = dropAt n s.msgs ∧
    (u.port m.core m.bank m.port).words = (s.port m.core m.bank m.port).words ++ m.words.map (fun w => (w, m.stamp)) ∧
    (∀ t w, m.src = some t → (s.slot t).wait = some w → ∃ v, (u.slot t).wait = some v ∧ v.kind = .ready ∧ v.n = 1) := by
  have hmsgs (q : State) : (q.deliver m).msgs = q.msgs := by
    unfold State.deliver State.modPort
    split <;> rfl
  have hport (q : State) : (q.deliver m).port m.core m.bank m.port =
      { q.port m.core m.bank m.port with words := (q.port m.core m.bank m.port).words ++ m.words.map fun w => (w, m.stamp) } :=
    State.port_modPort_self q m.core m.bank m.port _
  have hslot (q : State) (t : Nat) : (q.deliver m).slot t =
      (q.slot t).signalled m.core m.bank (2 ^ m.port) (decide (m.port = 0)) t :=
    (State.signal_slot _ _ _ _ _ t).trans (by rw [State.modPort_slot])
  unfold State.enterPort
  cases hs : m.src with
  | none => exact ⟨hmsgs _, by simp only [hport]; rfl, fun t w ht => by simp at ht⟩
  | some t =>
    refine ⟨hmsgs _, ?_, fun k w hk hw => ?_⟩
    · exact congrArg Port.words (hport { s with msgs := dropAt n s.msgs })
    · obtain rfl := Option.some.inj hk
      obtain ⟨v, hv⟩ := Slot.signalled_waits (c := m.core) (b := m.bank) (mask := 2 ^ m.port) (any := decide (m.port = 0)) (t := t) hw
      refine ⟨{ v with kind := .ready, n := 1 }, ?_, rfl, rfl⟩
      dsimp only
      rw [State.modSlot_slot_self, hslot]
      exact congrArg (Option.map fun w : Wait => { w with kind := .ready, n := 1 }) hv

/-! ## Hurdles (R184, R185) -/

theorem State.hb_modHb_self (s : State) (c n : Nat) (f : Hurdle → Hurdle) : (s.modHb c n f).hb c n = f (s.hb c n) := by
  simp [State.modHb, State.hb, State.core_modCore]

/-- Sending a core's own signal: at most one signal joins those on their way, and the hurdle is marked. -/
theorem State.hbSend_spec (s : State) (c n : Nat) : (s.hbSend c n).slots = s.slots ∧ (∃ l, l.length ≤ 1 ∧ (s.hbSend c n).sigs = s.sigs ++ l) ∧
    ∃ b, (s.hbSend c n).hb c n = { s.hb c n with sent := b } := by
  unfold State.hbSend
  dsimp only
  split
  · exact ⟨rfl, ⟨[], Nat.zero_le _, (List.append_nil _).symm⟩, _, rfl⟩
  · exact ⟨rfl, ⟨[hbSignal c n (s.hb c n)], Nat.le_refl 1, rfl⟩, true, State.hb_modHb_self _ c n _⟩

/-- The slots of a core at a release. -/
theorem State.hbRelease_slots {s : State} {c n pts cnt : Nat} {broken : Bool} {t : Nat} {w : Wait} (hc : coreOf t = c)
    (hw : (s.slot t).wait = some w) :
    (({ s with slots := s.slots.map fun (e : Nat × Slot) =>
      (e.1, if coreOf e.1 = c then { e.2 with wait := e.2.wait.map (hbWake n pts cnt broken) } else e.2) } : State).slot t).wait =
      some (hbWake n pts cnt broken w) := by
  have hget := SMap.get_map Slot.dflt s.slots
    (fun k x => if coreOf k = c then { x with wait := x.wait.map (hbWake n pts cnt broken) } else x) t fun _ => ite_self _
  have hslot : (({ s with slots := s.slots.map fun (e : Nat × Slot) =>
      (e.1, if coreOf e.1 = c then { e.2 with wait := e.2.wait.map (hbWake n pts cnt broken) } else e.2) } : State).slot t) =
      { s.slot t with wait := (s.slot t).wait.map (hbWake n pts cnt broken) } := hget.trans (if_pos hc)
  rw [hslot, hw]
  rfl

end Sys2Proof.Machine
end

section
/-! CERTIFICATE. Batons, crews, joins and hurdles: what each arrival and each refusal leaves (R177, R178, R180, R182, R184, R185, R280). -/
namespace Sys2Proof.Machine

/-! ## Batons (R177, R178) -/

section
variable {s : State} {b : Baton}

theorem State.arrive_single (hr : s.routedTo (atCore b.origin) b.dest = true) (hb : b.isCrew = false) : s.arrive b = s.land b := by
  unfold State.arrive
  unfold Baton.isCrew at hb
  rw [if_neg (by simp [hr]), if_neg (by simpa using hb)]

/-- A destination that cannot take the baton refuses it, whether it comes alone or with a crew. -/
theorem State.arrive_refused (hr : s.routedTo (atCore b.origin) b.dest = true) (ht : s.takes b.dest b.job = false) :
    s.arrive b = s.sendAnswer b (some 1) := by
  have hnot : ¬ s.takes b.dest b.job = true := ne_true_of_eq_false ht
  unfold State.arrive
  rw [if_neg (by simp [hr])]
  split
  · unfold State.crewLand
    exact if_pos hnot
  · unfold State.land
    exact if_pos hnot

variable (ht : s.takes b.dest b.job = true)
include ht

theorem State.land_waits (h : (s.core b.dest).landed.length + (s.core b.dest).arrivals.length < (s.freeSlots b.dest).length) :
    s.land b = s.modCore b.dest fun x => { x with landed := x.landed ++ [b] } := by
  unfold State.land
  dsimp only
  rw [if_neg (not_not_intro ht), if_pos h]

variable (hfull : ¬ (s.core b.dest).landed.length + (s.core b.dest).arrivals.length < (s.freeSlots b.dest).length)
include hfull

theorem State.land_buffered (h : (s.core b.dest).buffered < 8) : s.land b =
    ((s.modCore b.dest fun x => { x with landed := x.landed ++ [{ b with held := true }] }).countMigr b.dest).sendAnswer b none := by
  unfold State.land
  dsimp only
  rw [if_neg (not_not_intro ht), if_neg hfull, if_pos h]

theorem State.land_noRoom (h : 8 ≤ (s.core b.dest).buffered) : s.land b = s.sendAnswer b (some 0) := by
  unfold State.land
  dsimp only
  rw [if_neg (not_not_intro ht), if_neg hfull, if_neg (Nat.not_lt.2 h)]

end

/-- A refused baton's origin resumes in its handler, with trap 0x0A (R178). -/
theorem State.hear_refused {s : State} {b : Baton} {r : Nat} (hb : b.verdict = some r) (hh : (s.slot b.origin).sp.xhandler ≠ 0)
    (hhnd : (s.slot b.origin).sp.xstat.getLsbD 0 = false)
    (hok : (s.modSlot b.origin fun x => { x with st := .running, wait := none }).handlerOk b.origin = true) :
    let x := s.slot b.origin
    let y := (s.hear b).slot b.origin
    y.st = .running ∧ y.wait = none ∧ y.pc = x.sp.xhandler.setWidth 56 ∧ y.sp.xcause = 0x0A ∧
      y.sp.xvalue = migrationValue r b.addr ∧ y.sp.xpc = x.pc.setWidth 64 := by
  have hself := State.modSlot_slot_self s b.origin fun x => { x with st := .running, wait := none }
  have hhear : s.hear b = ((s.modSlot b.origin fun x => { x with st := .running, wait := none }).undo b.origin).enter b.origin 0x0A
      (migrationValue r b.addr) := by
    unfold State.hear
    rw [hb]
    dsimp only
    rw [hok]
    exact State.takeTrap_absorbed (by rw [hself]; exact hh) (by rw [hself]; exact hhnd)
  intro x y
  have hy : y = (((s.modSlot b.origin fun x => { x with st := .running, wait := none }).undo b.origin).enter b.origin 0x0A
      (migrationValue r b.addr)).slot b.origin := congrArg (·.slot b.origin) hhear
  unfold State.enter at hy
  rw [State.modSlot_slot_self, State.undo_slot, hself] at hy
  rw [hy]
  exact ⟨rfl, rfl, rfl, rfl, rfl, rfl⟩

/-! ## Crews (R182) -/

/-- The slots of a core that become FREE. -/
theorem State.slot_setDflt (s : State) (a k : Nat) : (s.setSlot a Slot.dflt).slot k = if k = a then Slot.dflt else s.slot k := by
  unfold State.setSlot State.slot
  split
  · next h => subst h; exact SMap.get_set_self Slot.dflt s.slots k Slot.dflt
  · next h => exact SMap.get_set_ne Slot.dflt s.slots Slot.dflt h

/-- What freeing some slots one by one leaves: each of them is FREE, and one that was FREE stays so. -/
theorem slot_foldl_dflt {f : State → Nat → State} {g : Nat → Nat}
    (hf : ∀ (s : State) a k, (f s a).slot k = if k = g a then Slot.dflt else s.slot k) (l : List Nat) (s : State) (k : Nat)
    (h : s.slot k = Slot.dflt ∨ ∃ a ∈ l, k = g a) : (l.foldl f s).slot k = Slot.dflt := by
  induction l generalizing s with
  | nil => exact h.resolve_right (by simp)
  | cons a l ih =>
    refine ih _ ?_
    by_cases hk : k = g a
    · exact .inl ((hf s a k).trans (if_pos hk))
    · rcases h with h | ⟨q, hq, hg⟩
      · exact .inl (((hf s a k).trans (if_neg hk)).trans h)
      · rcases List.mem_cons.1 hq with rfl | hq
        · exact absurd hg hk
        · exact .inr ⟨q, hq, hg⟩

/-- A member of a refused crew goes back to its origin, with the reason GROUP. -/
def State.sendBack (s : State) (c k : Nat) : State :=
  (s.setSlot (tidOf c k) Slot.dflt).sendAnswer { s.batonOf (tidOf c k) c 0 with
    origin := (s.slot (tidOf c k)).origin, addr := ((s.slot (s.slot (tidOf c k)).origin).wait.map (·.n)).getD 0 } (some 2)

theorem State.refuseCrew_eq (s : State) (c : Nat) (a : CrewAdm) : s.refuseCrew c a =
    (a.slots.foldl (fun s k => s.setSlot (tidOf c k) Slot.dflt) (a.arrived.foldl (fun s k => s.sendBack c k) s)).modCore c fun x =>
      { x with crews := { a with arrived := [], slots := [], refused := true } :: x.crews.filter fun q => ¬ (q.job = a.job ∧ q.id = a.id) } :=
  rfl

theorem State.sendBack_answers (s : State) (c k : Nat) : ∃ b, (s.sendBack c k).answers = s.answers ++ [b] ∧ b.verdict = some 2 :=
  ⟨_, rfl, rfl⟩

theorem State.sendBack_all_answers (c : Nat) (l : List Nat) (s : State) : ∃ r, (l.foldl (fun s k => s.sendBack c k) s).answers = s.answers ++ r ∧
    r.length = l.length ∧ ∀ b ∈ r, b.verdict = some 2 := by
  induction l generalizing s with
  | nil => exact ⟨[], (List.append_nil _).symm, rfl, by simp⟩
  | cons k l ih =>
    obtain ⟨r, hr, hlen, hv⟩ := ih (s.sendBack c k)
    obtain ⟨b, hone, hb⟩ := State.sendBack_answers s c k
    refine ⟨b :: r, ?_, congrArg (· + 1) hlen, fun q hq => ?_⟩
    · rw [List.foldl_cons, hr, hone, List.append_assoc, List.singleton_append]
    · rcases List.mem_cons.1 hq with rfl | hq
      · exact hb
      · exact hv q hq

/-- A refused crew: its slots are FREE, each member that had arrived is answered, and the core keeps the refusal. -/
theorem State.refuseCrew_spec (s : State) (c : Nat) (a : CrewAdm) : let u := s.refuseCrew c a
    (∀ k, (k ∈ a.arrived ∨ k ∈ a.slots) → u.slot (tidOf c k) = Slot.dflt) ∧
    (∃ l, u.answers = s.answers ++ l ∧ l.length = a.arrived.length ∧ ∀ b ∈ l, b.verdict = some 2) ∧
    (∃ q ∈ (u.core c).crews, q.job = a.job ∧ q.id = a.id ∧ q.refused = true ∧ q.slots = [] ∧ q.arrived = []) ∧ u.mem = s.mem := by
  rw [State.refuseCrew_eq]
  dsimp only
  generalize hq : a.arrived.foldl (fun s k => s.sendBack c k) s = q
  refine ⟨fun k hk => ?_, ?_, ?_, ?_⟩
  · rw [State.modCore_slot]
    refine slot_foldl_dflt (g := tidOf c) (fun s n k => State.slot_setDflt s _ k) _ _ _ (hk.imp (fun hk => ?_) fun hk => ⟨k, hk, rfl⟩)
    rw [← hq]
    exact slot_foldl_dflt (f := fun s k => s.sendBack c k) (g := tidOf c) (fun s n k => State.slot_setDflt s _ k) _ _ _ (.inr ⟨k, hk, rfl⟩)
  · have hkeep : (a.slots.foldl (fun s k => s.setSlot (tidOf c k) Slot.dflt) q).answers = q.answers :=
      foldl_keeps (f := fun s k => s.setSlot (tidOf c k) Slot.dflt) (·.answers) (fun _ _ => rfl) _ _
    rw [State.modCore_answers, hkeep, ← hq]
    exact State.sendBack_all_answers c a.arrived s
  · rw [State.core_modCore_self]
    exact ⟨_, List.mem_cons_self, rfl, rfl, rfl, rfl, rfl⟩
  · have hkeep : (a.slots.foldl (fun s k => s.setSlot (tidOf c k) Slot.dflt) q).mem = q.mem :=
      foldl_keeps (f := fun s k => s.setSlot (tidOf c k) Slot.dflt) (·.mem) (fun _ _ => rfl) _ _
    rw [State.modCore_mem, hkeep, ← hq]
    exact foldl_keeps (f := fun s k => s.sendBack c k) (·.mem) (fun _ _ => rfl) _ _

/-! ## Joins (R180, R280) -/

/-- What a member of a join finds when it is told. -/
theorem State.tellJoin_wait {n t : Nat} {w : Wait} (ms : List Nat) (s : State)
    (h : (s.slot t).wait = some (joinWait n w) ∨ t ∈ ms ∧ (s.slot t).wait = some w) :
    ((s.tellJoin ms n).slot t).wait = some (joinWait n w) := by
  induction ms generalizing s with
  | nil => exact h.resolve_right (by simp)
  | cons a ms ih =>
    refine ih _ ?_
    by_cases hta : t = a
    · subst hta
      rw [State.modSlot_slot_self]
      rcases h with h | ⟨_, h⟩ <;> exact .inl (by rw [h]; rfl)
    · rw [State.modSlot_slot_ne s _ hta]
      exact h.imp id fun ⟨hmem, hw⟩ => ⟨(List.mem_cons.1 hmem).resolve_left hta, hw⟩

theorem State.failJoin_spec (s : State) (c : Nat) (k : CrewJoin) : let u := s.failJoin c k
    (∀ t ∈ k.members, ∀ w, (s.slot t).wait = some w → (u.slot t).wait = some { w with kind := .ready, n := 2 }) ∧
    (∃ q ∈ (u.core c).joins, isJoin k.job k.id q = true ∧ q.members = [] ∧ q.failed = true) ∧ u.mem = s.mem := by
  have hmem : (s.tellJoin k.members 2).mem = s.mem := by
    unfold State.tellJoin
    exact foldl_keeps (f := fun s t => s.modSlot t fun x => { x with wait := x.wait.map (joinWait 2) }) (·.mem) (fun _ _ => rfl) _ _
  refine ⟨fun t ht w hw => State.tellJoin_wait k.members s (.inr ⟨ht, hw⟩), ?_, hmem⟩
  unfold State.failJoin State.setJoin
  rw [State.core_modCore_self]
  exact ⟨{ k with members := [], failed := true }, List.mem_append_right _ List.mem_cons_self, by simp [isJoin], rfl, rfl⟩

/-! ## Signals and releases (R184, R185) -/

section
variable {s : State} {g : HSig} {c : Nat} (hc : coreXY g.die g.x g.y = c)
include hc

theorem State.hbDeliver_signal (hrel : g.rel = false) : let h := s.hb c g.n
    let u := s.hbDeliver g
    let y := u.hb c g.n
    let bad := g.broken || decide (g.val ≠ h.val &&& hbWritten)
    y.val = h.val ∧ y.arrs = h.arrs ∧ y.extra = h.extra ∧ y.row = (h.row || g.row) ∧ y.col = (h.col || !g.row) ∧
      y.pts = max h.pts g.pts ∧ y.broken = (h.broken || bad) ∧ u.slots = s.slots ∧ ∃ l, u.sigs = s.sigs ++ l ∧ l.length ≤ 1 := by
  subst hc
  unfold State.hbDeliver
  rw [if_neg (ne_true_of_eq_false hrel)]
  unfold State.hbReceive
  extract_lets h c h' bad s1 u y bad'
  obtain ⟨hslots, ⟨l, hlen, hsigs⟩, b, hhb⟩ := State.hbSend_spec s1 c g.n
  have hs1 : s1.hb c g.n = _ := State.hb_modHb_self s c g.n _
  rw [hs1] at hhb
  have hy : y = _ := hhb
  rw [hy]
  exact ⟨rfl, rfl, rfl, rfl, rfl, rfl, rfl, hslots, l, hsigs, hlen⟩

theorem State.hbDeliver_release (hrel : g.rel = true) : let h := s.hb c g.n
    let u := s.hbDeliver g
    let y := u.hb c g.n
    let cnt := hbCount h.val
    y.val = h.val ^^^ 0x4000000000000000 ∧ y.arrs = h.extra.take cnt ∧ y.extra = h.extra.drop cnt ∧ y.row = false ∧ y.col = false ∧
      y.pts = 0 ∧ y.broken = false ∧
      (∀ t w, coreOf t = c → (s.slot t).wait = some w → w.kind = .hurdle g.n none →
        (u.slot t).wait = some (if w.n = 0 then { w with kind := .hurdle g.n (some g.broken), stamps := [g.pts] }
          else { w with n := w.n - cnt })) ∧
      ∃ l, l.length ≤ 1 ∧ u.sigs = s.sigs ++ (if g.x + 1 < hbX0 g.val + hbW g.val then [{ g with x := g.x + 1 }] else []) ++
        (if g.x = hbX0 g.val ∧ g.y + 1 < hbY0 g.val + hbH g.val then [{ g with y := g.y + 1 }] else []) ++ l := by
  unfold State.hbDeliver
  rw [if_pos hrel]
  unfold State.hbRelease
  rw [hc]
  extract_lets h c' h' v cnt s1 s2 right up u y cnt'
  obtain ⟨hslots, ⟨l, hlen, hsigs⟩, b, hhb⟩ := State.hbSend_spec { s2 with sigs := s2.sigs ++ right ++ up } c g.n
  have hy : y = { s2.hb c g.n with sent := b } := hhb
  have hs2 : s2.hb c g.n = _ := State.hb_modHb_self s1 c g.n _
  rw [hs2] at hy
  rw [hy]
  refine ⟨rfl, rfl, rfl, rfl, rfl, rfl, rfl, fun t w ht hw hk => ?_, l, hlen, hsigs⟩
  have hu : u.slot t = s1.slot t := congrArg (·.get Slot.dflt t) hslots
  rw [hu, State.hbRelease_slots ht hw]
  unfold hbWake
  rw [if_pos hk]

end

end Sys2Proof.Machine
end

section
/-! CERTIFICATE. The steps of slots, laps, translation, messages, batons, crews, hurdles and cancels, on a die that has its clocks. -/
namespace Sys2Proof.Machine

section
variable {s : State} {t : Nat} (h : (s.die (runDie t)).stopped = false)
include h

/-! ## Ticks, cancels and ENDED messages -/

theorem ptsTick_due (hst : (s.slot t).st = .running) (hdue : (s.slot t).issued % 4096 = 4095 ∨ (s.slot t).total % 4096 = 4095)
    (ht : (s.slot t).ticked = false) :
    ∃ u : State, exec (.ptsTick t) s = .next u ∧ (u.slot t).pts = (s.slot t).pts + 1 ∧ (u.slot t).ticked = true := by
  have hd : (s.slot t).tickDue = true := by simpa [Slot.tickDue] using hdue
  have htick : (s.tick t).slot t = { s.slot t with pts := (s.slot t).pts + 1, ticked := true } := by
    unfold State.tick
    rw [State.modSlot_slot_self, if_neg (ne_true_of_eq_false ht)]
  have hstep : exec (.ptsTick t) s = .next (s.tick t) := event_step h (if_pos ⟨hst, hd⟩)
  exact ⟨_, hstep, by rw [htick], by rw [htick]⟩

theorem ptsTick_idle (hst : (s.slot t).st ≠ .running) : exec (.ptsTick t) s = .next s :=
  event_step h (if_neg fun hc => hst hc.1)

theorem cancelDelivery_due (hd : s.cancelDue t = true) : exec (.cancelDelivery t) s = .next (s.takeCancel t) :=
  event_step h (if_pos hd)

theorem cancelDelivery_unit (hd : s.cancelDue t = true) (ht : slotNo t ≠ 0) : exec (.cancelDelivery t) s =
    .next ((((((s.keepResults t).failStash t).stopEpis t).restartWriter t).dropOps t).takeTrap t 0x13
      (cancelValue ((s.slot t).cancel.getD 0)) (s.handlerOk t)) := by
  rw [cancelDelivery_due h hd]
  unfold State.takeCancel isStarter
  rw [if_neg (by simpa using ht)]

theorem cancelDelivery_starter (hd : s.cancelDue t = true) (ht : slotNo t = 0) (hw : s.waitOf t = some .reap)
    (hh : (s.slot t).sp.xhandler ≠ 0) (hhnd : (s.slot t).sp.xstat.getLsbD 0 = false)
    (hok : (s.modSlot t fun x => { x with cancel := none }).handlerOk t = true) : exec (.cancelDelivery t) s =
      .next ((s.modSlot t fun x => { x with cancel := none }).takeTrap t 0x13 (cancelValue ((s.slot t).cancel.getD 0)) true) := by
  have hwait : (s.modSlot t fun x => { x with cancel := none }).waitOf t = some .reap := by
    rw [← hw]
    unfold State.waitOf
    rw [State.modSlot_slot_self]
  rw [cancelDelivery_due h hd]
  unfold State.takeCancel isStarter State.cancelStarter
  rw [if_pos (by simpa using ht)]
  dsimp only
  rw [if_pos ⟨hwait, hh, hhnd, hok⟩]

theorem cancelHandlerTimeout_due (hc : (s.slot t).inCancel = true) (hst : (s.slot t).st = .running ∨ (s.slot t).st = .parked)
    (hn : 4096 ≤ (s.slot t).handTurns) :
    exec (.cancelHandlerTimeout t) s = .next (s.endUnit t { code := 2, cause := 0, xpc := 0, tid := t }) := by
  unfold Slot.inCancel at hc
  simp only [Bool.and_eq_true, decide_eq_true_eq] at hc
  obtain ⟨⟨hcancel, hhnd⟩, hcause⟩ := hc
  exact event_step h (if_pos ⟨hcancel, hst, hhnd, hcause, hn⟩)

theorem assignEnded_room {n : Nat} {m : Msg} (hn : s.msgs.findIdx? (isEnded t) = some n) (hm : s.msgs[n]? = some m)
    (hr : s.hasRoom m = true) : exec (.assignEnded t) s = .next (s.enterPort n m) := by
  change execAssignEnded t s = _
  unfold execAssignEnded
  refine event_step h ?_
  simp only [hn, hm]
  exact if_pos hr

/-! ## Translation requests (R40) -/

theorem translationRequest_hit {p : Nat} {l : Leaf} (hw : s.waitOf t = some (.translate p))
    (hl : (s.die (runDie t)).tcache.find? (fun l => l.covers (s.jobOf t) (p * 4096)) = some l) :
    exec (.translationRequest t) s = .next ((s.installTlb (coreOf t) l).setWait t .ready) := by
  change execTranslationRequest t s = _
  unfold execTranslationRequest
  refine event_step h ?_
  simp only [hw, walkDie, hl]

theorem translationRequest_new {p : Nat} (hw : s.waitOf t = some (.translate p))
    (hl : (s.die (runDie t)).tcache.find? (fun l => l.covers (s.jobOf t) (p * 4096)) = none)
    (hno : ∀ w ∈ (s.die (runDie t)).walks, ¬ (w.job = s.jobOf t ∧ w.page = p)) :
    exec (.translationRequest t) s = .next (s.modDie (runDie t) fun d =>
      { d with walks := d.walks ++ [{ job := s.jobOf t, page := p, tids := [t] }] }) := by
  have hany : ¬ (s.die (runDie t)).walks.any (fun w => decide (w.job = s.jobOf t) && decide (w.page = p)) = true := by
    rw [List.any_eq_true]
    rintro ⟨w, hmem, hw⟩
    exact hno w hmem (by simpa using hw)
  change execTranslationRequest t s = _
  unfold execTranslationRequest
  refine event_step h ?_
  simp only [hw, walkDie, hl]
  exact congrArg (s.setDie (runDie t)) (if_neg hany)

end

/-! ## Laps (R163, R383) -/

theorem State.lapStart_begun (s : State) (c : Nat) : ((s.lapStart c).core c).begun = true := by
  unfold State.lapStart
  dsimp only
  rw [State.core_modCore_self]

section
variable {s : State} {c : Nat} (h : (s.die (c / 128)).stopped = false)
include h

theorem lapBoundary_begins (ht : (s.core c).turn = 0) (hb : (s.core c).begun = false) : exec (.lapBoundary c) s = .next (s.lapStart c) :=
  event_step h (if_pos (by simp [State.atLap, ht, hb]))

theorem lapBoundary_idle (hc : (s.core c).turn ≠ 0 ∨ (s.core c).begun = true) : exec (.lapBoundary c) s = .next s :=
  event_step h (if_neg (by rcases hc with hc | hc <;> simp [State.atLap, hc]))

/-! ## Crews and joins that do not become whole (R182, R280) -/

theorem crewAdmissionTimeout_found {j id : Nat} {a : CrewAdm}
    (ha : (s.core c).crews.find? (fun a => decide (a.job = j) && decide (a.id = id) && !a.refused && decide (a.arrived.length < a.size)) =
      some a) : exec (.crewAdmissionTimeout c j id) s = .next (s.refuseCrew c a) := by
  change execCrewAdmissionTimeout c j id s = _
  unfold execCrewAdmissionTimeout
  refine event_step h ?_
  simp only [ha]

theorem crewjTimeout_found {j id : Nat} {k : CrewJoin} (hk : (s.core c).joins.find? (fun k => isJoin j id k && !k.failed) = some k) :
    exec (.crewjTimeout c j id) s = .next (s.failJoin c k) := by
  change execCrewjTimeout c j id s = _
  unfold execCrewjTimeout
  refine event_step h ?_
  simp only [hk]

theorem crewRefusalWindowEnd_forgets {j id : Nat} : exec (.crewRefusalWindowEnd c j id) s = .next (s.modCore c fun x =>
    { x with crews := x.crews.filter fun a => ¬ (a.job = j ∧ a.id = id ∧ a.refused = true) }) := by
  change execCrewRefusalWindowEnd c j id s = _
  unfold execCrewRefusalWindowEnd
  exact event_next _ _ h

theorem crewjRefusalWindowEnd_forgets {j id : Nat} : exec (.crewjRefusalWindowEnd c j id) s = .next (s.modCore c fun x =>
    { x with joins := x.joins.filter fun k => !(isJoin j id k && k.failed) }) := by
  change execCrewjRefusalWindowEnd c j id s = _
  unfold execCrewjRefusalWindowEnd
  exact event_next _ _ h

end

/-! ## Walks and shootdowns (R41, R43) -/

section
variable {s : State} {d j p : Nat} {w : Walk} (h : (s.die d).stopped = false)
  (hw : ((s.die d).walks.take 64).find? (fun w => decide (w.job = j) && decide (w.page = p)) = some w)
include h hw

theorem walkEnd_leaf {l : Leaf}
    (hl : (s.modDie d fun x => { x with walks := x.walks.filter fun q => ¬ (q.job = j ∧ q.page = p) }).walkOf j (p * 4096) = .ok l) :
    exec (.walkEnd d j p) s = .next (w.tids.foldl (fun s t =>
      if s.waitOf t ≠ some (.translate p) then s
      else if s.walkRouted (atCore t) j (p * 4096) then (s.installTlb (coreOf t) l).setWait t .ready
      else s.resume t (.translate p))
      ((s.modDie d fun x => { x with walks := x.walks.filter fun q => ¬ (q.job = j ∧ q.page = p) }).modDie d fun x =>
        { x with tcache := l :: x.tcache })) := by
  change execWalkEnd d j p s = _
  unfold execWalkEnd
  refine event_step h ?_
  simp only [hw]
  rw [hl]

theorem walkEnd_stop {e : WalkStop}
    (he : (s.modDie d fun x => { x with walks := x.walks.filter fun q => ¬ (q.job = j ∧ q.page = p) }).walkOf j (p * 4096) = .error e) :
    exec (.walkEnd d j p) s = .next (w.tids.foldl (fun s t => s.resume t (.translate p))
      (s.modDie d fun x => { x with walks := x.walks.filter fun q => ¬ (q.job = j ∧ q.page = p) })) := by
  change execWalkEnd d j p s = _
  unfold execWalkEnd
  refine event_step h ?_
  simp only [hw]
  rw [he]

end

section
variable {s : State} {j : Nat} {w : Shoot} (hw : (s.job j).bind (·.shoot) = some w)
include hw

theorem shootdown_announced {d : Nat} (h : (s.die d).stopped = false) :
    exec (.shootdown d j) s = .next (if s.busyDie d j then s else
      (s.dropLeaves d j w.va w.size).modJob j fun x => { x with shoot := some { w with dies := w.dies.filter fun k => decide (k ≠ d) } }) := by
  change execShootdown d j s = _
  unfold execShootdown
  refine event_step h ?_
  unfold State.ackShoot
  rw [hw]

theorem shootdownAck_announced (h : (s.die Config.infieldDie).stopped = false) :
    exec (.shootdownAck j) s =
      .next (if w.dies = [] ∧ (List.range Config.dieCount).all (fun d => !s.busyDie d j) = true then s.takeEffect j w else s) := by
  change execShootdownAck j s = _
  unfold execShootdownAck
  refine event_step h ?_
  unfold State.endShoot
  rw [hw]

end

/-! ## What is on its way (R119, R177, R178, R182, R184, R185) -/

section
variable {s : State} {n : Nat} (h : (s.die Config.infieldDie).stopped = false)
include h

theorem queueMessageArrival_at {m : Msg} (hm : s.msgs[n]? = some m) :
    exec (.queueMessageArrival n) s = .next (if s.hasRoom m then s.enterPort n m else s) := by
  change execQueueMessageArrival n s = _
  unfold execQueueMessageArrival
  refine event_step h ?_
  simp only [hm]

theorem batonIn_at {b : Baton} (hb : s.batons[n]? = some b) :
    event Config.infieldDie (fun s => s.batonIn n b.isCrew) s = .next (({ s with batons := dropAt n s.batons } : State).arrive b) := by
  refine event_step h ?_
  unfold State.batonIn
  rw [hb]
  exact if_pos rfl

theorem answerIn_at {b : Baton} (hb : s.answers[n]? = some b) :
    event Config.infieldDie (fun s => s.answerIn n b.verdict.isSome) s = .next (({ s with answers := dropAt n s.answers } : State).hear b) := by
  refine event_step h ?_
  unfold State.answerIn
  rw [hb]
  exact if_pos rfl

theorem signalIn_at {g : HSig} (hg : s.sigs[n]? = some g) :
    event Config.infieldDie (fun s => s.signalIn n g.rel g.broken) s = .next (({ s with sigs := dropAt n s.sigs } : State).hbDeliver g) := by
  refine event_step h ?_
  unfold State.signalIn
  rw [hg]
  exact if_pos ⟨rfl, rfl⟩

theorem batonArrivals_at {b : Baton} (hb : s.batons[n]? = some b) :
    let u := ({ s with batons := dropAt n s.batons } : State).arrive b
    (b.isCrew = false → exec (.batonArrival n) s = .next u) ∧ (b.isCrew = true → exec (.crewBatonArrival n) s = .next u) := by
  have hin := batonIn_at h hb
  exact ⟨fun hk => by rw [hk] at hin; exact hin, fun hk => by rw [hk] at hin; exact hin⟩

theorem batonAnswers_at {b : Baton} (hb : s.answers[n]? = some b) : let u : State := { s with answers := dropAt n s.answers }
    (b.verdict = none → exec (.batonAccepted n) s = .next (u.setSlot b.origin Slot.dflt)) ∧
      ∀ r, b.verdict = some r → exec (.batonRefusal n) s = .next (u.hear b) := by
  have hin := answerIn_at h hb
  refine ⟨fun hv => ?_, fun r hv => by rw [hv] at hin; exact hin⟩
  rw [hv] at hin
  refine Eq.trans hin ?_
  unfold State.hear
  rw [hv]

theorem hurdleSignals_at {g : HSig} (hg : s.sigs[n]? = some g) : let u := ({ s with sigs := dropAt n s.sigs } : State).hbDeliver g
    (g.rel = false → g.broken = false → exec (.hurdleSignal n) s = .next u) ∧
    (g.rel = true → g.broken = false → exec (.hurdleRelease n) s = .next u) ∧
    (g.rel = false → g.broken = true → exec (.brokenSignal n) s = .next u) ∧
    (g.rel = true → g.broken = true → exec (.brokenRelease n) s = .next u) := by
  have hin := signalIn_at h hg
  refine ⟨fun hr hb => ?_, fun hr hb => ?_, fun hr hb => ?_, fun hr hb => ?_⟩ <;>
  · rw [hr, hb] at hin
    exact hin

end

/-- A write of XPC from outside takes a code address alone (R372). -/
theorem xpcWrite_live {s : State} (x : Word) (h : s.live) : exec (.xpcWrite x) s =
    .next (if x.toNat < 2 ^ 56 ∧ x.toNat % 8 = 0 then s.modSlot s.cur fun y => { y with sp := { y.sp with xpc := x, rmark := false } } else s) := by
  have hcode : codeAddress x = true ↔ x.toNat < 2 ^ 56 ∧ x.toNat % 8 = 0 := by simp [codeAddress]
  refine event_step h.1 ?_
  simp only [hcode]
  rfl

/-! ## The obligation -/

/-- Settles O57: each step is its definition at the branch that its condition selects, and what it leaves alone follows from the parts. -/
theorem threadSteps : Obligations.ThreadSteps := by
  unfold Obligations.ThreadSteps
  refine ⟨fun s x hl => xpcWrite_live x hl, ?slots, ?laps, ?walks, fun s d j w h hw => shootdown_announced hw h,
    fun s j w h hw => shootdownAck_announced hw h, fun s j w => State.takeEffect_entries, ?queues, ?landing,
    fun s b => State.arrive_refused, fun s b v => rfl, fun s b r hb => State.hear_refused hb, fun s c a => s.refuseCrew_spec c a,
    fun s c k => s.failJoin_spec c k, fun s n m => s.enterPort_spec n m,
    fun s g => ⟨State.hbDeliver_signal rfl, State.hbDeliver_release rfl⟩, ?crews⟩
  case slots =>
    intro s t h
    exact ⟨ptsTick_due h, ptsTick_idle h, cancelDelivery_unit h, cancelDelivery_starter h, cancelHandlerTimeout_due h,
      fun n m => assignEnded_room h, fun p l => translationRequest_hit h, fun p => translationRequest_new h⟩
  case laps =>
    intro s c h
    exact ⟨lapBoundary_begins h, lapBoundary_idle h, s.lapStart_begun c⟩
  case walks =>
    intro s d j p w h hw
    exact ⟨fun l => walkEnd_leaf h hw, fun e => walkEnd_stop h hw⟩
  case queues =>
    intro s n h
    exact ⟨fun m => queueMessageArrival_at h, fun b => batonArrivals_at h, fun b => batonAnswers_at h, fun g => hurdleSignals_at h⟩
  case landing =>
    intro s b c hc ht hr hb
    subst hc
    rw [State.arrive_single hr hb]
    refine ⟨fun hroom => State.land_waits ht (not_not.1 hroom), fun hfull hbuf => ?_, fun hfull => State.land_noRoom ht hfull⟩
    rw [State.land_buffered ht hfull hbuf]
    have hcore : (((s.modCore b.dest fun x => { x with landed := x.landed ++ [{ b with held := true }] }).countMigr b.dest).core b.dest) =
        { s.core b.dest with landed := (s.core b.dest).landed ++ [{ b with held := true }], migrs := ((s.core b.dest).migrs + 1) % 2 ^ 48 } := by
      unfold State.countMigr
      rw [State.core_modCore_self, State.core_modCore_self]
    exact ⟨rfl, congrArg Core.landed hcore, congrArg Core.migrs hcore⟩
  case crews =>
    intro s c j id h
    exact ⟨fun a => crewAdmissionTimeout_found h, crewRefusalWindowEnd_forgets h, fun k => crewjTimeout_found h,
      crewjRefusalWindowEnd_forgets h⟩

end Sys2Proof.Machine
end

section
/-! SUPPORT. A launch that is not pre-empted stays so: of the steps that a pass of a pre-emption takes, only its last says PRE-EMPTED (R381,
R388, R389). A lemma has the name of the operation that keeps it so. -/
namespace Sys2Proof.Machine

/-! ## Launches that are not pre-empted -/

/-- The launch that an id names in a list is not PRE-EMPTED. -/
def NoneSaved (i : Word) (ls : List Launch) : Prop := ∀ l, ls.find? (fun l => decide (l.id = i)) = some l → l.st ≠ 3

/-- A change of every launch that keeps its id and pre-empts none. -/
theorem NoneSaved.map {i : Word} {ls : List Launch} (h : NoneSaved i ls) {g : Launch → Launch} (hid : ∀ l, (g l).id = l.id)
    (hst : ∀ l, (g l).st = 3 → l.st = 3) : NoneSaved i (ls.map g) := by
  intro l hl
  have hsame : ((fun l : Launch => decide (l.id = i)) ∘ g) = fun l => decide (l.id = i) := funext fun l => by simp [hid]
  rw [List.find?_map, hsame] at hl
  obtain ⟨q, hq, rfl⟩ := Option.map_eq_some_iff.1 hl
  exact fun h3 => h q hq (hst q h3)

/-- The launch that an id names in its job is not PRE-EMPTED. -/
def State.Unsaved (s : State) (i : Word) : Prop := ∀ x, s.job (idJob i) = some x → NoneSaved i x.launches

theorem State.unsaved_of_launchAt {s : State} {i : Word} {l : Launch} (hl : s.launchAt i = some l) (h : l.st ≠ 3) : s.Unsaved i := by
  intro x hx q hq
  unfold State.launchAt at hl
  rw [hx] at hl
  obtain rfl : q = l := Option.some.inj (hq.symm.trans hl)
  exact h

section
variable {s : State} {i : Word}

theorem State.Unsaved.launchAt (h : s.Unsaved i) {l : Launch} (hl : s.launchAt i = some l) : l.st ≠ 3 := by
  obtain ⟨x, hx, hl⟩ := Option.bind_eq_some_iff.1 hl
  exact h x hx l hl

/-- Only the jobs matter. -/
theorem State.Unsaved.of_jobs {u : State} (h : s.Unsaved i) (e : u.jobs = s.jobs) : u.Unsaved i := by
  intro x hx
  refine h x ?_
  unfold State.job at hx ⊢
  rwa [← e]

theorem State.Unsaved.ite {c : Prop} [Decidable c] {t : State} (hs : s.Unsaved i) (ht : t.Unsaved i) : (if c then s else t).Unsaved i := by
  split
  · exact hs
  · exact ht

theorem State.Unsaved.foldl {α : Type} {f : State → α → State} {l : List α} (h : s.Unsaved i)
    (hf : ∀ s x, s.Unsaved i → (f s x).Unsaved i) : (l.foldl f s).Unsaved i :=
  List.foldlRecOn l f h fun s hs x _ => hf s x hs

/-! ## Changes of a job -/

theorem State.Unsaved.modJob {j : Nat} {f : Job → Job} (h : s.Unsaved i)
    (hf : ∀ x, NoneSaved i x.launches → NoneSaved i (f x).launches) : (s.modJob j f).Unsaved i := by
  unfold State.modJob
  split
  · exact h
  · next x hx =>
    intro y hy
    by_cases hj : idJob i = j
    · subst hj
      have hself : (s.setJob (idJob i) (some (f x))).job (idJob i) = some (f x) := SMap.get_set_self none s.jobs (idJob i) (some (f x))
      rw [hself] at hy
      exact Option.some.inj hy ▸ hf x (h x hx)
    · have hother : (s.setJob j (some (f x))).job (idJob i) = s.job (idJob i) := SMap.get_set_ne none s.jobs (some (f x)) hj
      exact h y (hother ▸ hy)

/-- A change of a job that leaves its launches alone. -/
theorem State.Unsaved.modJobRest {j : Nat} {f : Job → Job} (h : s.Unsaved i) (hf : ∀ x, (f x).launches = x.launches) :
    (s.modJob j f).Unsaved i := h.modJob fun x hx => hf x ▸ hx

/-- The same change of every job. -/
theorem State.Unsaved.mapJobs {f : Job → Job} (h : s.Unsaved i) (hf : ∀ x, (f x).launches = x.launches) :
    ({ s with jobs := s.jobs.map fun (e : Nat × Option Job) => (e.1, e.2.map f) } : State).Unsaved i := by
  intro x hx
  have hget := (SMap.get_map none s.jobs (fun _ o => o.map f) (idJob i) fun _ => rfl).symm.trans hx
  obtain ⟨y, hy, rfl⟩ := Option.map_eq_some_iff.1 hget
  exact hf y ▸ h y hy

theorem State.Unsaved.modTensor {j n : Nat} {f : Tensor → Tensor} (h : s.Unsaved i) : (s.modTensor j n f).Unsaved i :=
  h.modJobRest fun _ => rfl

theorem State.Unsaved.dropOps {t : Nat} (h : s.Unsaved i) : (s.dropOps t).Unsaved i := h.mapJobs fun _ => rfl

theorem State.Unsaved.renameOps {a b : Nat} (h : s.Unsaved i) : (s.renameOps a b).Unsaved i := h.mapJobs fun _ => rfl

theorem State.Unsaved.raiseLaunch {j tm : Nat} {id : Word} (h : s.Unsaved i) : (s.raiseLaunch j id tm).Unsaved i := by
  refine h.modJob fun x hx => hx.map (fun l => ?_) fun l h3 => ?_
  · split <;> rfl
  · split at h3 <;> exact h3

/-! ## Slots, cores, clusters, dies -/

theorem State.Unsaved.modSlot {t : Nat} {f : Slot → Slot} (h : s.Unsaved i) : (s.modSlot t f).Unsaved i := h

theorem State.Unsaved.setSlot {t : Nat} {x : Slot} (h : s.Unsaved i) : (s.setSlot t x).Unsaved i := h

theorem State.Unsaved.modCore {c : Nat} {f : Core → Core} (h : s.Unsaved i) : (s.modCore c f).Unsaved i := h

theorem State.Unsaved.modBank {c b : Nat} {f : Bank → Bank} (h : s.Unsaved i) : (s.modBank c b f).Unsaved i := h

theorem State.Unsaved.modHb {c n : Nat} {f : Hurdle → Hurdle} (h : s.Unsaved i) : (s.modHb c n f).Unsaved i := h

theorem State.Unsaved.setPair {pa : Nat} {p : Pair} (h : s.Unsaved i) : (s.setPair pa p).Unsaved i := h

theorem State.Unsaved.setCopy {k : Copy} (h : s.Unsaved i) : (s.setCopy k).Unsaved i := h

theorem State.Unsaved.setColl {c : Coll} {x : Option Coll} (h : s.Unsaved i) : (s.setColl c x).Unsaved i := h

theorem State.Unsaved.signal {c b mask : Nat} {any : Bool} (h : s.Unsaved i) : (s.signal c b mask any).Unsaved i := h

theorem State.Unsaved.boardLeave {t id : Nat} (h : s.Unsaved i) : (s.boardLeave t id).Unsaved i := h

theorem State.Unsaved.dropJoins {c : Nat} (h : s.Unsaved i) : (s.dropJoins c).Unsaved i := h

theorem State.Unsaved.parkAccs {x : Slot} {j cl : Nat} (h : s.Unsaved i) : (s.parkAccs x j cl).Unsaved i := h

theorem State.Unsaved.releaseErrors (h : s.Unsaved i) : s.releaseErrors.Unsaved i := h

theorem State.Unsaved.modPort {c b p : Nat} {f : Port → Port} (h : s.Unsaved i) : (s.modPort c b p f).Unsaved i := by
  unfold State.modPort
  exact .ite h h

theorem State.Unsaved.notify {space a n wts : Nat} (h : s.Unsaved i) : (s.notify space a n wts).Unsaved i := by
  unfold State.notify
  exact .ite h h

theorem State.Unsaved.log {d kind who data : Nat} (h : s.Unsaved i) : (s.log d kind who data).Unsaved i := by
  unfold State.log
  exact .ite h h

theorem State.Unsaved.setCtr {c b n : Nat} {x : Counter} (h : s.Unsaved i) : (s.setCtr c b n x).Unsaved i := by
  unfold State.setCtr
  exact .ite h h

theorem State.Unsaved.failCtr {c b n err id : Nat} (h : s.Unsaved i) : (s.failCtr c b n err id).Unsaved i := .ite h.setCtr h

theorem State.Unsaved.countChunk {c b n bytes stamp id : Nat} (h : s.Unsaved i) : (s.countChunk c b n bytes stamp id).Unsaved i :=
  .ite h.setCtr h.setCtr

theorem State.Unsaved.stallEngine {c a n : Nat} (h : s.Unsaved i) : (s.stallEngine c a n).Unsaved i := .ite h h

theorem State.Unsaved.putBack {t : Nat} {l : Latch} (h : s.Unsaved i) : (s.putBack t l).Unsaved i := by
  unfold State.putBack
  split
  · exact h
  · exact h
  · exact h.modPort

theorem State.Unsaved.unopen {t : Nat} (h : s.Unsaved i) : (s.unopen t).Unsaved i := by
  unfold State.unopen
  split <;> exact h

theorem State.Unsaved.unlist {t : Nat} (h : s.Unsaved i) : (s.unlist t).Unsaved i := .ite h h

theorem State.Unsaved.undo {t : Nat} (h : s.Unsaved i) : (s.undo t).Unsaved i := by
  have hback (ls : List Latch) : (ls.foldr (fun l s => s.putBack t l) s).Unsaved i :=
    List.foldrRecOn (motive := fun s : State => s.Unsaved i) ls (fun l s => s.putBack t l) h fun _ hs _ _ => hs.putBack
  exact .modSlot (.unlist (.unopen (hback _)))

/-! ## Stores and changes of a mapping -/

theorem State.Unsaved.storeAt {pa n v pts scope who owner : Nat} (h : s.Unsaved i) : (s.storeAt pa n v pts scope who owner).1.Unsaved i := by
  unfold State.storeAt State.sendCrossing
  exact .notify (.ite h h)

theorem State.Unsaved.writeAlias {j : Nat} {t : Tensor} {es : List (Nat × Nat)} (h : s.Unsaved i) : (s.writeAlias j t es).Unsaved i := by
  refine h.foldl fun s x h => ?_
  dsimp only
  split <;> exact h

theorem State.Unsaved.orient {q : Nat} (h : s.Unsaved i) : (s.orient q).Unsaved i := .ite h h

theorem State.Unsaved.disorient {q : Nat} (h : s.Unsaved i) : (s.disorient q).Unsaved i := .ite h h

theorem State.Unsaved.remark {old new : Tensor} (h : s.Unsaved i) : (s.remark old new).Unsaved i :=
  .foldl (.foldl h fun _ _ h => h.disorient) fun _ _ h => h.orient

theorem State.Unsaved.takeEffect {j : Nat} {w : Shoot} (h : s.Unsaved i) : (s.takeEffect j w).Unsaved i := by
  have hmove : (w.move.foldl (fun (s : State) m => s.moveBytes m.1 m.2.1 m.2.2) s).Unsaved i := h.foldl fun _ _ h => h
  have hdrop (u : State) (hu : u.Unsaved i) : ((u.dropAll j w.va w.size).modJob j fun x => { x with shoot := none }).Unsaved i :=
    State.Unsaved.modJobRest (hu.of_jobs (u.dropAll_same j w.va w.size).jobs) fun _ => rfl
  unfold State.takeEffect
  dsimp only
  split
  · exact .releaseErrors (hdrop _ hmove)
  · exact .releaseErrors (hdrop _ hmove)

theorem State.Unsaved.endShoot {j : Nat} (h : s.Unsaved i) : (s.endShoot j).Unsaved i := by
  unfold State.endShoot
  split
  · exact h
  · exact .ite h.takeEffect h

theorem State.Unsaved.ackShoot {d j : Nat} (h : s.Unsaved i) : (s.ackShoot d j).Unsaved i := by
  unfold State.ackShoot
  split
  · exact h
  · exact .ite h (.modJobRest h fun _ => rfl)

theorem State.Unsaved.changeMap {j : Nat} {w : Shoot} (h : s.Unsaved i) : (s.changeMap j w).Unsaved i :=
  .ite (.endShoot (.foldl (.modJobRest h fun _ => rfl) fun _ _ h => h.ackShoot)) (.modJobRest h fun _ => rfl)

theorem State.Unsaved.unmapAlias {j va n : Nat} (h : s.Unsaved i) : (s.unmapAlias j va n).Unsaved i := h.changeMap

theorem State.Unsaved.settleTensor {j n : Nat} (h : s.Unsaved i) : (s.settleTensor j n).Unsaved i :=
  .ite h (.ite h.modTensor.remark.unmapAlias h.modTensor.remark)

theorem State.Unsaved.settleIf {j n : Nat} (h : s.Unsaved i) : (s.settleIf j n).Unsaved i := .ite h.settleTensor h

theorem State.Unsaved.tensWritten {rs : List (Nat × Nat)} (h : s.Unsaved i) : (s.tensWritten rs).Unsaved i :=
  h.of_jobs (s.tensWritten_same rs).jobs

theorem State.Unsaved.install {j n T : Nat} {es : List (Nat × Nat)} (h : s.Unsaved i) : (s.install j n T es).Unsaved i :=
  .ite (.modTensor (.ite h.writeAlias h.modTensor.tensWritten)) (.ite h.writeAlias h.modTensor.tensWritten)

theorem State.Unsaved.publishAs {j n T tm : Nat} {es : List (Nat × Nat)} (h : s.Unsaved i) : (s.publishAs j n T tm es).Unsaved i := by
  have hsect : (if (s.install j n T es).badSect.isEmpty then s.install j n T es else
      { s.install j n T es with badSect := (s.install j n T es).badSect.filter fun x =>
        !((s.tensor j n).framesOf ((s.tensor j n).segsAt T)).contains (x / 2048) }).Unsaved i := .ite h.install h.install
  exact .modTensor (.ite (.foldl hsect fun _ _ h => h.setPair.notify) hsect)

/-! ## Copies, collectives and levels that stop -/

theorem State.Unsaved.copyStalls {k : Copy} (h : s.Unsaved i) : (s.copyStalls k).Unsaved i := by
  unfold State.copyStalls
  dsimp only
  split
  · exact .foldl h fun _ _ h => h.stallEngine
  · exact .foldl (.foldl h fun _ _ h => h.stallEngine) fun _ _ h => h.stallEngine

theorem State.Unsaved.retireCopy {k : Copy} {tm : Nat} (h : s.Unsaved i) : (s.retireCopy k tm).Unsaved i :=
  .ite (.boardLeave (.modSlot (.raiseLaunch (.modBank (.ite h h.setCopy)))))
    (.signal (.boardLeave (.modSlot (.raiseLaunch (.modBank (.ite h h.setCopy))))))

theorem State.Unsaved.finishCopy {k : Copy} (h : s.Unsaved i) : (s.finishCopy k).Unsaved i := by
  unfold State.finishCopy
  dsimp only
  split
  · exact h.copyStalls.modTensor.settleIf.retireCopy
  · refine .retireCopy (.settleIf ?_)
    split
    · exact h.copyStalls.publishAs.countChunk
    · exact h.copyStalls.publishAs
  · exact h.copyStalls.retireCopy

theorem State.Unsaved.stopCopy {k : Copy} {status : Nat} (h : s.Unsaved i) : (s.stopCopy k status).Unsaved i := by
  unfold State.stopCopy
  extract_lets n s1 s2 s3 s4 k'
  have h1 : s1.Unsaved i := by
    unfold s1
    split
    · exact h.failCtr
    · exact h
  have h2 : s2.Unsaved i := by
    unfold s2
    split
    · exact h1.failCtr
    · exact h1
  have h3 : s3.Unsaved i := h2.modSlot
  exact .retireCopy (.copyStalls (.ite (.settleIf (.modTensor h3)) h3))

theorem State.Unsaved.failColl {c : Coll} {err : Nat} (h : s.Unsaved i) : (s.failColl c err).Unsaved i := by
  unfold State.failColl
  dsimp only
  refine .setColl ?_
  split
  · exact .failCtr (.foldl h fun _ _ h => h.modTensor.settleIf)
  · exact .foldl h fun _ _ h => h.modTensor.settleIf

theorem State.Unsaved.cancelUnits {j kind : Nat} {id : Word} (h : s.Unsaved i) : (s.cancelUnits j kind id).Unsaved i := by
  unfold State.cancelUnits
  extract_lets hit s1 s2 s3
  have h1 : s1.Unsaved i := h
  have h2 : s2.Unsaved i := h1.foldl fun _ _ h => .ite h.finishCopy h.stopCopy
  have h3 : s3.Unsaved i := h2.foldl fun _ _ h => h.failColl
  exact h3

theorem State.Unsaved.freeSaved {j kind : Nat} {id : Word} (h : s.Unsaved i) : (s.freeSaved j kind id).Unsaved i := by
  unfold State.freeSaved
  split
  · exact h
  · next x hx =>
    refine .modJobRest ?_ fun _ => rfl
    exact State.Unsaved.foldl h fun _ _ h => h.dropOps

end

/-- A launch of a stopped graph is not pre-empted. -/
theorem Job.stopLaunch_st {x : Job} {st : Nat} {l : Launch} : (x.stopLaunch st l).st ≠ 3 := by
  unfold Job.stopLaunch
  dsimp only
  split
  · decide
  · next h => exact h

theorem NoneSaved.stopGraph {i : Word} {x : Job} {j st : Nat} (h : NoneSaved i x.launches) : NoneSaved i (x.stopGraph j st).launches := by
  refine h.map (fun l => ?_) fun l h3 => ?_
  · split
    · rfl
    · split <;> rfl
  · split at h3
    · simp at h3
    · split at h3
      · exact absurd h3 Job.stopLaunch_st
      · exact h3

theorem NoneSaved.stop {i : Word} {x : Job} {j kind st : Nat} {id : Word} (h : NoneSaved i x.launches) :
    NoneSaved i (x.stop j kind id st).launches := by
  unfold Job.stop
  split
  · refine h.map (fun l => ?_) fun l h3 => ?_
    · split <;> rfl
    · split at h3
      · exact absurd h3 Job.stopLaunch_st
      · exact h3
  · exact h.stopGraph (st := st)
  · exact h.stopGraph (st := 5)
  · exact h.stopGraph (st := 5)

section
variable {s : State} {i : Word}

theorem State.Unsaved.stopLevel {j kind st : Nat} {id : Word} (h : s.Unsaved i) : (s.stopLevel j kind id st).Unsaved i :=
  .cancelUnits (.freeSaved (.modJob (.ite h h.log) fun _ hx => hx.stop))

theorem State.Unsaved.killJob {j cause : Nat} (h : s.Unsaved i) : (s.killJob j cause).Unsaved i :=
  .stopLevel (.modJobRest h fun _ => rfl)

/-! ## Slots that stop, and their records -/

theorem State.Unsaved.storeFor {j va x pts n : Nat} (h : s.Unsaved i) {p : State × Option Nat} (e : s.storeFor j va x pts n = p) :
    p.1.Unsaved i := by
  subst e
  induction n with
  | zero => exact h
  | succ n ih =>
    unfold State.storeFor
    split
    · next e => rwa [e] at ih
    · next e =>
      rw [e] at ih
      split
      · exact ih
      · exact State.Unsaved.storeAt ih

theorem State.Unsaved.withdraw {t : Nat} {w : Wait} (h : s.Unsaved i) : (s.withdraw t w).Unsaved i := by
  unfold State.withdraw
  dsimp only
  split
  · exact h.setCtr
  · exact .ite h.modHb h
  · exact h

theorem State.Unsaved.stopSlot {t : Nat} (h : s.Unsaved i) {u : State} (e : s.stopSlot t = some u) : u.Unsaved i := by
  unfold State.stopSlot at e
  dsimp only at e
  split at e
  · cases e
    exact h
  · split at e
    · cases e
    · split at e <;> cases e
      · exact h.unlist.modSlot
      · exact h.withdraw.undo.dropOps.dropJoins
  · cases e

theorem State.Unsaved.saveThread {j t : Nat} (h : s.Unsaved i) : (s.saveThread j t).Unsaved i := by
  unfold State.saveThread
  dsimp only
  split
  · next e => exact State.Unsaved.killJob (h.storeFor e)
  · next e =>
    have h1 := h.storeFor e
    exact .modJobRest (.setSlot (.renameOps (.ite h1 (State.Unsaved.parkAccs h1)))) fun _ => rfl

theorem State.Unsaved.saveBaton {j : Nat} {b : Baton} (h : s.Unsaved i) : (s.saveBaton j b).Unsaved i := by
  unfold State.saveBaton
  dsimp only
  split
  · next e => exact State.Unsaved.killJob (h.storeFor e)
  · next e => exact State.Unsaved.modJobRest (h.storeFor e) fun _ => rfl

end

/-! ## The end of a pre-emption -/

theorem State.jobOf_modJob (s : State) (j : Nat) (f : Job → Job) (t : Nat) : (s.modJob j f).jobOf t = s.jobOf t := by
  unfold State.jobOf
  rw [State.modJob_slot, State.modJob_cluster]

theorem State.threadsOf_modJob (s : State) (j : Nat) (f : Job → Job) (n : Nat) (id : Word) :
    (s.modJob j f).threadsOf n id = s.threadsOf n id := by
  unfold State.threadsOf State.runsLevel
  simp only [State.jobOf_modJob, State.modJob_slots]

/-- A launch that a pass pre-empts has no thread left. -/
theorem State.preempt_empties {s : State} {id : Word} {l l' : Launch} (hl : s.launchAt id = some l) (h2 : l.st = 2)
    (hl' : (s.preempt (idJob id) id).launchAt id = some l') (h3 : l'.st = 3) : (s.preempt (idJob id) id).threadsOf (idJob id) id = [] := by
  have h : s.Unsaved id := State.unsaved_of_launchAt hl (by omega)
  revert hl'
  unfold State.preempt
  extract_lets s1 s2 bs s3 s4
  intro hl'
  have h1 : s1.Unsaved id := by
    refine h.foldl fun s t h => .ite h ?_
    split
    · exact h
    · next e => exact .modJobRest (h.stopSlot e) fun _ => rfl
  have h2 : s2.Unsaved id := h1.foldl fun _ _ h => .ite h.saveThread h
  have h4 : s4.Unsaved id := State.Unsaved.foldl (s := s3) h2 fun _ _ h => h.saveBaton
  generalize s4 = q at h4 hl' ⊢
  cases hq : q.launchAt id with
  | none =>
    rw [hq] at hl'
    exact absurd h3 (h4.launchAt hl')
  | some k =>
    rw [hq] at hl'
    dsimp only at hl' ⊢
    by_cases hall : k.lvl.status.isNone ∧ q.allSaved (idJob id) k
    · have hid : k.id = id := by
        obtain ⟨x, hx, hk⟩ := Option.bind_eq_some_iff.1 hq
        simpa using List.find?_some hk
      have hnone : q.threadsOf (idJob id) id = [] := by
        have hsaved := hall.2
        unfold State.allSaved at hsaved
        simp only [Bool.and_eq_true, List.isEmpty_iff] at hsaved
        exact hid ▸ hsaved.1.1.1
      rw [if_pos hall]
      exact (State.threadsOf_modJob q _ _ _ id).trans hnone
    · rw [if_neg hall] at hl'
      exact absurd h3 (h4.launchAt hl')

end Sys2Proof.Machine
end

section
/-! CERTIFICATE. The record of a saved thread: every field is read back as it was written (R389, R390). -/
namespace Sys2Proof.Machine

/-! ## Fields of packed numbers -/

theorem fieldN_packNat {w : Nat} (xs : List Nat) (k : Nat) : fieldN (packNat w xs) (w * k) w = xs.getD k 0 % 2 ^ w := by
  have hpos : 0 < 2 ^ w := Nat.two_pow_pos w
  induction xs generalizing k with
  | nil => simp [packNat, fieldN]
  | cons x xs ih =>
    have hlt : x % 2 ^ w < 2 ^ w := Nat.mod_lt _ hpos
    cases k with
    | zero =>
      unfold fieldN packNat
      simp
    | succ k =>
      rw [List.getD_cons_succ, ← ih k, packNat]
      unfold fieldN
      rw [Nat.shiftRight_eq_div_pow, Nat.shiftRight_eq_div_pow, Nat.mul_succ, Nat.add_comm (w * k), Nat.pow_add, ← Nat.div_div_eq_div_mul,
        Nat.add_mul_div_left _ _ hpos, Nat.div_eq_of_lt hlt, Nat.zero_add]

theorem packNat_lt {w n : Nat} (xs : List Nat) (h : w * xs.length ≤ n) : packNat w xs < 2 ^ n := by
  refine Nat.lt_of_lt_of_le ?_ (Nat.pow_le_pow_right (by decide) h)
  clear h
  induction xs with
  | nil => exact Nat.two_pow_pos _
  | cons x xs ih =>
    have hlt : x % 2 ^ w < 2 ^ w := Nat.mod_lt _ (Nat.two_pow_pos w)
    rw [packNat, List.length_cons, Nat.mul_succ, Nat.add_comm (w * xs.length), Nat.pow_add]
    calc x % 2 ^ w + 2 ^ w * packNat w xs < 2 ^ w + 2 ^ w * packNat w xs := Nat.add_lt_add_right hlt _
      _ = 2 ^ w * (packNat w xs + 1) := by rw [Nat.mul_succ, Nat.add_comm]
      _ ≤ 2 ^ w * 2 ^ (w * xs.length) := Nat.mul_le_mul_left _ ih

/-- A field below what is added. -/
theorem fieldN_add_below {x y a lo n : Nat} (h : lo + n ≤ a) : fieldN (x + y * 2 ^ a) lo n = fieldN x lo n := by
  obtain ⟨d, rfl⟩ := Nat.exists_eq_add_of_le h
  have hsum : x + y * 2 ^ (lo + n + d) = x + 2 ^ lo * (2 ^ n * (y * 2 ^ d)) := by ring
  unfold fieldN
  rw [Nat.shiftRight_eq_div_pow, Nat.shiftRight_eq_div_pow, hsum, Nat.add_mul_div_left _ _ (Nat.two_pow_pos lo), Nat.add_mul_mod_self_left]

/-- A field of what is added. -/
theorem fieldN_add_above {x y a lo n : Nat} (hx : x < 2 ^ a) : fieldN (x + y * 2 ^ a) (a + lo) n = fieldN y lo n := by
  unfold fieldN
  rw [Nat.shiftRight_eq_div_pow, Nat.shiftRight_eq_div_pow, Nat.pow_add, ← Nat.div_div_eq_div_mul, Nat.add_mul_div_right _ _ (Nat.two_pow_pos a),
    Nat.div_eq_of_lt hx, Nat.zero_add]

theorem add_mul_pow_lt {x y a b c : Nat} (hc : a + b = c) (hx : x < 2 ^ a) (hy : y < 2 ^ b) : x + y * 2 ^ a < 2 ^ c := by
  subst hc
  calc x + y * 2 ^ a < 2 ^ a + y * 2 ^ a := Nat.add_lt_add_right hx _
    _ = 2 ^ a * (y + 1) := by ring
    _ ≤ 2 ^ a * 2 ^ b := Nat.mul_le_mul_left _ hy
    _ = 2 ^ (a + b) := (Nat.pow_add ..).symm

/-! ## The layout of a record (R389) -/

/-- The words at the head of a record. -/
def saveHead (x : Slot) (t mask cl : Nat) : List Nat :=
  [x.pc.toNat, x.sp.xstat.toNat, x.pts % 2 ^ 48, x.sp.unitid.toNat, x.sp.launchid.toNat, x.sp.seed.toNat, x.sp.xhandler.toNat,
    x.sp.xcause.toNat, x.sp.xvalue.toNat, x.sp.xpc.toNat, x.sp.progidx.toNat % 2 ^ 32,
    2 ^ 63 + (if x.sp.rmark then 2 ^ 62 else 0) + t % 2 ^ 17 * 2 ^ 33 + x.carried.toNat,
    (if mask = 0 then 0 else cl % 32 * 2 ^ 32 + cl / 32 * 2 ^ 24) + mask,
    (if x.crewN = 0 then 0 else x.crewN % 16 * 2 ^ 16 + fieldN x.sp.xstat.toNat 16 16), min 64 x.fails.length]

/-- The general registers of a record. -/
def savedG (x : Slot) : List Nat := (List.range 32).map fun i => (x.regs.readG i).toNat
/-- The vector registers of a record. -/
def savedV (x : Slot) : List Nat := (List.range 16).map fun i => (x.regs.readV i).toNat
/-- The mask registers of a record. -/
def savedK (x : Slot) : List Nat := (List.range 8).map fun i => (x.regs.readK i).toNat
/-- The failures of a record. -/
def savedFails (x : Slot) : List Nat := (x.fails.take 64).map fun e => e.2 % 256 * 2 ^ 32 + e.1 % 2 ^ 32

theorem saveBytes_eq (x : Slot) (t mask cl : Nat) : saveBytes x t mask cl =
    packNat 64 (saveHead x t mask cl) + packNat 64 (savedG x) * 2 ^ (8 * 0x100) + packNat 2048 (savedV x) * 2 ^ (8 * 0x200) +
      packNat 64 (savedK x) * 2 ^ (8 * 0x1200) + packNat 64 (savedFails x) * 2 ^ (8 * 0x1240) := rfl

section
variable (x : Slot) (t mask cl : Nat)

theorem saveWord_saveBytes {k : Nat} (hk : k < 15) : saveWord (saveBytes x t mask cl) k = (saveHead x t mask cl).getD k 0 % 2 ^ 64 := by
  unfold saveWord
  rw [saveBytes_eq, fieldN_add_below (by omega), fieldN_add_below (by omega), fieldN_add_below (by omega), fieldN_add_below (by omega)]
  exact fieldN_packNat _ k

theorem saveHead_lt : packNat 64 (saveHead x t mask cl) < 2 ^ (8 * 0x100) := packNat_lt _ (by simp [saveHead])

theorem saveHeadG_lt : packNat 64 (saveHead x t mask cl) + packNat 64 (savedG x) * 2 ^ (8 * 0x100) < 2 ^ (8 * 0x200) :=
  add_mul_pow_lt (b := 8 * 0x100) (by decide) (saveHead_lt x t mask cl) (packNat_lt _ (by simp [savedG]))

theorem saveHeadV_lt : packNat 64 (saveHead x t mask cl) + packNat 64 (savedG x) * 2 ^ (8 * 0x100) + packNat 2048 (savedV x) * 2 ^ (8 * 0x200) <
    2 ^ (8 * 0x1200) := add_mul_pow_lt (b := 8 * 0x1000) (by decide) (saveHeadG_lt x t mask cl) (packNat_lt _ (by simp [savedV]))

theorem fieldN_saveBytes_g {i : Nat} (hi : i < 32) : fieldN (saveBytes x t mask cl) (8 * 0x100 + 64 * i) 64 = (x.regs.readG i).toNat := by
  rw [saveBytes_eq, fieldN_add_below (by omega), fieldN_add_below (by omega), fieldN_add_below (by omega),
    fieldN_add_above (saveHead_lt x t mask cl), fieldN_packNat]
  simp [savedG, hi, Nat.mod_eq_of_lt (x.regs.readG i).isLt]

theorem fieldN_saveBytes_v {i : Nat} (hi : i < 16) : fieldN (saveBytes x t mask cl) (8 * 0x200 + 2048 * i) 2048 = (x.regs.readV i).toNat := by
  rw [saveBytes_eq, fieldN_add_below (by omega), fieldN_add_below (by omega), fieldN_add_above (saveHeadG_lt x t mask cl), fieldN_packNat]
  have hget : (savedV x).getD i 0 = (x.regs.readV i).toNat := by simp [savedV, hi]
  rw [hget, BitVec.toNat_mod_cancel]

theorem fieldN_saveBytes_k {i : Nat} (hi : i < 8) : fieldN (saveBytes x t mask cl) (8 * 0x1200 + 64 * i) 64 = (x.regs.readK i).toNat := by
  rw [saveBytes_eq, fieldN_add_below (by omega), fieldN_add_above (saveHeadV_lt x t mask cl), fieldN_packNat]
  simp [savedK, hi, Nat.mod_eq_of_lt (x.regs.readK i).isLt]

end

/-! ## The registers of a record -/

theorem Regs.foldl_writeG_vk (f : Nat → Word) (l : List Nat) (r : Regs) :
    (l.foldl (fun r i => r.writeG i (f i)) r).v = r.v ∧ (l.foldl (fun r i => r.writeG i (f i)) r).k = r.k := by
  induction l generalizing r with
  | nil => exact ⟨rfl, rfl⟩
  | cons a l ih =>
    have hone : (r.writeG a (f a)).v = r.v ∧ (r.writeG a (f a)).k = r.k := by unfold Regs.writeG; split <;> exact ⟨rfl, rfl⟩
    exact ⟨(ih _).1.trans hone.1, (ih _).2.trans hone.2⟩

theorem Regs.foldl_writeV_g (f : Nat → Row) (l : List Nat) (r : Regs) : (l.foldl (fun r i => r.writeV i (f i)) r).g = r.g := by
  induction l generalizing r with
  | nil => rfl
  | cons a l ih => exact ih _

theorem Regs.foldl_writeK_gv (f : Nat → Word) (l : List Nat) (r : Regs) :
    (l.foldl (fun r i => r.writeK i (f i)) r).g = r.g ∧ (l.foldl (fun r i => r.writeK i (f i)) r).v = r.v := by
  induction l generalizing r with
  | nil => exact ⟨rfl, rfl⟩
  | cons a l ih =>
    have hone : (r.writeK a (f a)).g = r.g ∧ (r.writeK a (f a)).v = r.v := by unfold Regs.writeK; split <;> exact ⟨rfl, rfl⟩
    exact ⟨(ih _).1.trans hone.1, (ih _).2.trans hone.2⟩

/-- A register file into which the registers below `n` are written one by one. -/
theorem Regs.readG_foldl_writeG (f : Nat → Word) (r : Regs) {n k : Nat} (hk : k < n) (h0 : k ≠ 0) :
    ((List.range n).foldl (fun r i => r.writeG i (f i)) r).readG k = f k := by
  induction n with
  | zero => omega
  | succ n ih =>
    rw [List.range_succ, List.foldl_append, List.foldl_cons, List.foldl_nil]
    unfold Regs.readG Regs.writeG at *
    rw [if_neg h0] at *
    by_cases hkn : k = n
    · subst hkn
      rw [if_neg h0]
      exact SMap.get_set_self _ _ _ _
    · split
      · exact ih (by omega)
      · exact (SMap.get_set_ne _ _ _ hkn).trans (ih (by omega))

theorem Regs.readV_foldl_writeV (f : Nat → Row) (r : Regs) {n k : Nat} (hk : k < n) :
    ((List.range n).foldl (fun r i => r.writeV i (f i)) r).readV k = f k := by
  induction n with
  | zero => omega
  | succ n ih =>
    rw [List.range_succ, List.foldl_append, List.foldl_cons, List.foldl_nil]
    by_cases hkn : k = n
    · subst hkn
      exact SMap.get_set_self _ _ _ _
    · exact (SMap.get_set_ne _ _ _ hkn).trans (ih (by omega))

theorem Regs.readK_foldl_writeK (f : Nat → Word) (r : Regs) {n k : Nat} (hk : k < n) (h0 : k ≠ 0) :
    ((List.range n).foldl (fun r i => r.writeK i (f i)) r).readK k = f k := by
  induction n with
  | zero => omega
  | succ n ih =>
    rw [List.range_succ, List.foldl_append, List.foldl_cons, List.foldl_nil]
    unfold Regs.readK Regs.writeK at *
    rw [if_neg h0] at *
    by_cases hkn : k = n
    · subst hkn
      rw [if_neg h0]
      exact SMap.get_set_self _ _ _ _
    · split
      · exact ih (by omega)
      · exact (SMap.get_set_ne _ _ _ hkn).trans (ih (by omega))

section
variable (x : Slot) (t mask cl : Nat)

theorem savedRegs_readG {n : Nat} (hn : n < 32) : (savedRegs (saveBytes x t mask cl)).readG n = x.regs.readG n := by
  by_cases h0 : n = 0
  · rw [Regs.readG, Regs.readG, if_pos h0, if_pos h0]
  · have hread (r r' : Regs) (h : r.g = r'.g) : r.readG n = r'.readG n := by unfold Regs.readG; rw [h]
    unfold savedRegs
    dsimp only
    rw [hread _ _ ((Regs.foldl_writeK_gv _ _ _).1.trans (Regs.foldl_writeV_g _ _ _)), Regs.readG_foldl_writeG _ _ hn h0,
      fieldN_saveBytes_g x t mask cl hn]
    exact (BitVec.ofNat_toNat ..).trans (BitVec.setWidth_eq _)

theorem savedRegs_readV {n : Nat} (hn : n < 16) : (savedRegs (saveBytes x t mask cl)).readV n = x.regs.readV n := by
  have hread (r r' : Regs) (h : r.v = r'.v) : r.readV n = r'.readV n := by unfold Regs.readV; rw [h]
  unfold savedRegs
  dsimp only
  rw [hread _ _ (Regs.foldl_writeK_gv _ _ _).2, Regs.readV_foldl_writeV _ _ hn, fieldN_saveBytes_v x t mask cl hn]
  exact (BitVec.ofNat_toNat ..).trans (BitVec.setWidth_eq _)

theorem savedRegs_readK {n : Nat} (hn : n < 8) : (savedRegs (saveBytes x t mask cl)).readK n = x.regs.readK n := by
  by_cases h0 : n = 0
  · rw [Regs.readK, Regs.readK, if_pos h0, if_pos h0]
  · unfold savedRegs
    dsimp only
    rw [Regs.readK_foldl_writeK _ _ hn h0, fieldN_saveBytes_k x t mask cl hn]
    exact (BitVec.ofNat_toNat ..).trans (BitVec.setWidth_eq _)

/-! ## The special registers of a record -/

/-- A word of the head that is a register comes back. -/
theorem saveWord_word {k : Nat} {w : Word} (hk : k < 15) (hw : (saveHead x t mask cl).getD k 0 = w.toNat) :
    BitVec.ofNat 64 (saveWord (saveBytes x t mask cl) k) = w := by
  rw [saveWord_saveBytes x t mask cl hk, hw, Nat.mod_eq_of_lt w.isLt]
  exact (BitVec.ofNat_toNat ..).trans (BitVec.setWidth_eq _)

theorem saveWord_pc : BitVec.ofNat 56 (saveWord (saveBytes x t mask cl) 0) = x.pc := by
  have hlt := x.pc.isLt
  rw [saveWord_saveBytes x t mask cl (by omega)]
  refine BitVec.eq_of_toNat_eq ?_
  rw [BitVec.toNat_ofNat]
  change x.pc.toNat % 2 ^ 64 % 2 ^ 56 = _
  omega

theorem saveWord_pts : saveWord (saveBytes x t mask cl) 2 % 2 ^ 48 = x.pts % 2 ^ 48 := by
  rw [saveWord_saveBytes x t mask cl (by omega)]
  change x.pts % 2 ^ 48 % 2 ^ 64 % 2 ^ 48 = _
  omega

theorem saveWord_progidx : fieldN (saveWord (saveBytes x t mask cl) 10) 0 32 = x.sp.progidx.toNat % 2 ^ 32 := by
  rw [saveWord_saveBytes x t mask cl (by omega)]
  change (x.sp.progidx.toNat % 2 ^ 32 % 2 ^ 64) % 2 ^ 32 = _
  omega

theorem saveWord_mask : BitVec.ofNat 33 (saveWord (saveBytes x t mask cl) 11) = x.carried := by
  have hlt := x.carried.isLt
  rw [saveWord_saveBytes x t mask cl (by omega)]
  refine BitVec.eq_of_toNat_eq ?_
  rw [BitVec.toNat_ofNat]
  change (2 ^ 63 + (if x.sp.rmark then 2 ^ 62 else 0) + t % 2 ^ 17 * 2 ^ 33 + x.carried.toNat) % 2 ^ 64 % 2 ^ 33 = _
  split <;> omega

theorem saveWord_rmark : (saveWord (saveBytes x t mask cl) 11).testBit 62 = x.sp.rmark := by
  have hlt := x.carried.isLt
  rw [saveWord_saveBytes x t mask cl (by omega), Nat.testBit_eq_decide_div_mod_eq]
  change decide ((2 ^ 63 + (if x.sp.rmark then 2 ^ 62 else 0) + t % 2 ^ 17 * 2 ^ 33 + x.carried.toNat) % 2 ^ 64 / 2 ^ 62 % 2 = 1) = _
  cases hr : x.sp.rmark with
  | true => exact decide_eq_true (by rw [if_pos rfl]; omega)
  | false => exact decide_eq_false (by rw [if_neg (by decide)]; omega)

/-- The thread of a record is the thread that was saved, in an open span, with what it carried (R390, R424). -/
theorem savedSlot_saveBytes (j : Nat) (v : Saved) (same : Bool) : let y := savedSlot (saveBytes x t mask cl) j v same
    y.st = .held ∧ y.pc = x.pc ∧ y.pts = x.pts % 2 ^ 48 ∧ y.wmask = x.carried ∧ y.span = .open_ ∧ y.total = v.total ∧
    y.sp = { x.sp with lnksel := 0, progidx := BitVec.ofNat 64 (x.sp.progidx.toNat % 2 ^ 32) } ∧
    (∀ n, n < 32 → y.regs.readG n = x.regs.readG n) ∧ (∀ n, n < 16 → y.regs.readV n = x.regs.readV n) ∧
    ∀ n, n < 8 → y.regs.readK n = x.regs.readK n := by
  have hw {k : Nat} {w : Word} (hk : k < 15) (h : (saveHead x t mask cl).getD k 0 = w.toNat) := saveWord_word x t mask cl hk h
  refine ⟨rfl, saveWord_pc x t mask cl, saveWord_pts x t mask cl, saveWord_mask x t mask cl, rfl, rfl, ?_,
    fun n hn => savedRegs_readG x t mask cl hn, fun n hn => savedRegs_readV x t mask cl hn, fun n hn => savedRegs_readK x t mask cl hn⟩
  unfold savedSlot
  dsimp only
  rw [saveWord_progidx, saveWord_rmark, hw (k := 1) (w := x.sp.xstat) (by decide) rfl, hw (k := 3) (w := x.sp.unitid) (by decide) rfl,
    hw (k := 4) (w := x.sp.launchid) (by decide) rfl, hw (k := 5) (w := x.sp.seed) (by decide) rfl, hw (k := 6) (w := x.sp.xhandler) (by decide) rfl,
    hw (k := 7) (w := x.sp.xcause) (by decide) rfl, hw (k := 8) (w := x.sp.xvalue) (by decide) rfl, hw (k := 9) (w := x.sp.xpc) (by decide) rfl]
  rfl

end

end Sys2Proof.Machine
end

section
/-! CERTIFICATE. Saved and restored threads, a rebase, and a cluster that goes to a job: what each leaves (R51, R131, R389, R390). -/
namespace Sys2Proof.Machine

/-! ## Saved threads (R389) -/

theorem State.notify_jobs (s : State) (space a n wts : Nat) : (s.notify space a n wts).jobs = s.jobs := by
  unfold State.notify
  split <;> rfl

theorem State.sendCrossing_jobs (s : State) (pa : Nat) : (s.sendCrossing pa).jobs = s.jobs := by
  unfold State.sendCrossing
  split <;> rfl

theorem State.storeAt_jobs (s : State) (pa n v pts scope who owner : Nat) : (s.storeAt pa n v pts scope who owner).1.jobs = s.jobs := by
  unfold State.storeAt
  dsimp only
  rw [State.notify_jobs, State.sendCrossing_jobs]
  rfl

theorem State.storeFor_jobs (s : State) (j va x pts n : Nat) : (s.storeFor j va x pts n).1.jobs = s.jobs := by
  induction n with
  | zero => rfl
  | succ n ih =>
    unfold State.storeFor
    split
    · next e => rwa [e] at ih
    · next e =>
      rw [e] at ih
      split
      · exact ih
      · exact (State.storeAt_jobs ..).trans ih

theorem State.slot_setSlot_self (s : State) (t : Nat) (x : Slot) : (s.setSlot t x).slot t = x := SMap.get_set_self _ _ _ _

theorem State.slot_setSlot_ne (s : State) {t k : Nat} (x : Slot) (h : k ≠ t) : (s.setSlot t x).slot k = s.slot k := SMap.get_set_ne _ _ _ h

theorem State.renameOps_slot (s : State) (a b k : Nat) : (s.renameOps a b).slot k = s.slot k := rfl

theorem State.job_setJob_self (s : State) (j : Nat) (x : Option Job) : (s.setJob j x).job j = x := SMap.get_set_self _ _ _ _

theorem State.cluster_setCluster_self (s : State) (k : Nat) (x : Cluster) : (s.setCluster k x).cluster k = x := SMap.get_set_self _ _ _ _

theorem State.job_modJob_map (s : State) (j : Nat) (f : Job → Job) : (s.modJob j f).job j = (s.job j).map f := by
  cases h : s.job j with
  | some x => exact State.job_modJob_self h f
  | none =>
    unfold State.modJob
    rw [h]
    exact h

theorem State.renameOps_job (s : State) (a b j : Nat) : ((s.renameOps a b).job j).isSome = (s.job j).isSome := by
  have hget := SMap.get_map none s.jobs (fun _ o => o.map fun x : Job => { x with tensors := x.tensors.map fun e =>
    (e.1, { e.2 with ops := e.2.ops.map fun o => if o.tid = a then { o with tid := b } else o }) }) j fun _ => rfl
  exact (congrArg Option.isSome hget).trans Option.isSome_map

/-- A thread whose record is written: its slot is FREE, and the job lists it among those saved. -/
theorem State.saveThread_saved {s u : State} {j t : Nat} (hj : (s.job j).isSome = true)
    (hstore : s.storeFor j (s.saveArea j + 8192 * saveNo t) (saveBytes (s.slot t) t
      (if isLocal t then s.accMask (s.slot t) j (clusterOf (coreOf t)) else 0) (clusterOf (coreOf t))) (s.slot t).pts 32 = (u, none)) :
    (s.saveThread j t).slot t = Slot.dflt ∧ ∃ x, (s.saveThread j t).job j = some x ∧ t ∉ x.stopping ∧
      ∃ v ∈ x.saved, v.k = saveNo t ∧ v.tid = t ∧ v.launch = (s.slot t).sp.launchid ∧ v.total = (s.slot t).total := by
  have hu : (u.job j).isSome = true := by
    have hjobs := State.storeFor_jobs s j (s.saveArea j + 8192 * saveNo t) (saveBytes (s.slot t) t
      (if isLocal t then s.accMask (s.slot t) j (clusterOf (coreOf t)) else 0) (clusterOf (coreOf t))) (s.slot t).pts 32
    rw [hstore] at hjobs
    exact (congrArg (fun m : SMap (Option Job) => (m.get none j).isSome) hjobs).trans hj
  unfold State.saveThread
  dsimp only
  rw [hstore]
  dsimp only
  generalize hmask : (if isLocal t then s.accMask (s.slot t) j (clusterOf (coreOf t)) else 0) = mask
  have hp : ((if mask = 0 then u else u.parkAccs (s.slot t) j (clusterOf (coreOf t))).job j).isSome = true := by split <;> exact hu
  generalize (if mask = 0 then u else u.parkAccs (s.slot t) j (clusterOf (coreOf t))) = p at hp ⊢
  rw [State.modJob_slot, State.slot_setSlot_self, State.job_modJob_map]
  obtain ⟨x, hx⟩ := Option.isSome_iff_exists.1 ((State.renameOps_job p t (savedTid (saveNo t)) j).trans hp)
  have hx' : ((p.renameOps t (savedTid (saveNo t))).setSlot t Slot.dflt).job j = some x := hx
  rw [hx']
  exact ⟨rfl, _, rfl, by simp, _, List.mem_append_right _ List.mem_cons_self, rfl, rfl, rfl, rfl⟩

/-! ## Restored threads (R390) -/

section
variable {s : State} {j : Nat} {l : Launch} {v : Saved} {x : Nat} (hx : savedAccs x = [])

theorem State.slotsFor_free {c n : Nat} (h : n ∈ s.slotsFor [(v, x)] c) : (s.slot (tidOf c n)).st = .free := by
  have hfree (h : n ∈ s.freeSlots c) : (s.slot (tidOf c n)).st = .free := by simpa using (List.mem_filter.1 h).2
  unfold State.slotsFor at h
  dsimp only at h
  split at h
  · split at h
    · next hst =>
      obtain rfl := List.mem_singleton.1 h
      exact hst
    · simp at h
  · exact hfree h

include hx

/-- A thread that held no accumulator slot goes to the first core with a slot for it. -/
theorem State.placeSaved_single : s.placeSaved j l [(v, x)] =
    ((s.homesOf j l [(v, x)]).find? fun c => decide (s.slotsFor [(v, x)] c ≠ [])).map fun c =>
      ([(v, x)].zip (s.slotsFor [(v, x)] c)).foldl (fun s e =>
        (s.setSlot (tidOf c e.2) (savedSlot e.1.2 j e.1.1 (decide (coreOf e.1.1.tid = c)))).renameOps (savedTid e.1.1.k) (tidOf c e.2)) s := by
  have hfit (s : State) (c : Nat) : s.accsFit x c = true := by unfold State.accsFit; rw [hx]; rfl
  have haccs (s : State) (k c : Nat) (th : Slot) : s.restoreAccs j k x c th = (s, none) := by unfold State.restoreAccs; rw [hx]; rfl
  have hroom : (fun c => decide ([(v, x)].length ≤ (s.slotsFor [(v, x)] c).length) && [(v, x)].all fun e => s.accsFit e.2 (clusterOf c)) =
      fun c => decide (s.slotsFor [(v, x)] c ≠ []) := by
    funext c
    cases s.slotsFor [(v, x)] c <;> simp [hfit]
  unfold State.placeSaved
  rw [hroom]
  cases (s.homesOf j l [(v, x)]).find? fun c => decide (s.slotsFor [(v, x)] c ≠ []) with
  | none => rfl
  | some c =>
    dsimp only [Option.map_some]
    cases s.slotsFor [(v, x)] c with
    | nil => rfl
    | cons n ns =>
      dsimp only [List.zip_cons_cons, List.zip_nil_left, List.foldl_cons, List.foldl_nil]
      rw [haccs]

theorem State.placeSaved_slot {u : State} (h : s.placeSaved j l [(v, x)] = some u) :
    ∃ c n, c ∈ s.homesOf j l [(v, x)] ∧ n ∈ s.slotsFor [(v, x)] c ∧ (s.slot (tidOf c n)).st = .free ∧
      u.slot (tidOf c n) = savedSlot x j v (decide (coreOf v.tid = c)) ∧ ∀ t, t ≠ tidOf c n → u.slot t = s.slot t := by
  rw [State.placeSaved_single hx] at h
  obtain ⟨c, hc, hu⟩ := Option.map_eq_some_iff.1 h
  have hne : s.slotsFor [(v, x)] c ≠ [] := by simpa using List.find?_some hc
  obtain ⟨n, ns, hn⟩ := List.exists_cons_of_ne_nil hne
  have hmem : n ∈ s.slotsFor [(v, x)] c := hn ▸ List.mem_cons_self
  rw [hn] at hu
  dsimp only [List.zip_cons_cons, List.zip_nil_left, List.foldl_cons, List.foldl_nil] at hu
  subst hu
  exact ⟨c, n, List.mem_of_find?_eq_some hc, hmem, State.slotsFor_free hmem,
    by rw [State.renameOps_slot, State.slot_setSlot_self], fun t ht => by rw [State.renameOps_slot, State.slot_setSlot_ne _ _ ht]⟩

theorem State.placeSaved_isSome (h : ∃ c ∈ s.homesOf j l [(v, x)], s.slotsFor [(v, x)] c ≠ []) : (s.placeSaved j l [(v, x)]).isSome = true := by
  obtain ⟨c, hc, hne⟩ := h
  rw [State.placeSaved_single hx, Option.isSome_map, List.find?_isSome]
  exact ⟨c, hc, decide_eq_true hne⟩

end

/-- A restored launch is placed, and none of its threads is among those saved any more. -/
theorem State.restore_places {s u : State} {l : Launch} {x : Job} {r : State × List (Saved × Nat)} (hx : s.job (idJob l.id) = some x)
    (hr : s.savedOf (idJob l.id) (x.saved.filter fun v => decide (v.launch = l.id)) = some r) (h : s.restore (idJob l.id) l = some u) :
    (∀ y, u.job (idJob l.id) = some y → ∀ v ∈ y.saved, v.launch ≠ l.id) ∧ ∀ l', u.launchAt l.id = some l' → l'.st = 2 := by
  unfold State.restore at h
  rw [hx] at h
  dsimp only at h
  rw [hr] at h
  dsimp only at h
  generalize (crewGroups r.2 []).foldl (fun (p : Option State) g => p.bind fun s => s.placeSaved (idJob l.id) l g) (some r.1) = o at h
  cases o with
  | none => simp at h
  | some q =>
    dsimp only at h
    split at h
    · have hu := (Option.some.inj h).symm
      have hjob : u.job (idJob l.id) = ((q.job (idJob l.id)).map fun y =>
          { y with saved := y.saved.filter fun v => decide (v.launch ≠ l.id) }).map fun y =>
            { y with launches := y.launches.map fun k => if k.id = l.id then { k with st := 2, placed := q.nextPlaced } else k } := by
        rw [hu]
        exact (State.job_modJob_map _ _ _).trans (congrArg (Option.map _) (State.job_modJob_map _ _ _))
      rw [Option.map_map] at hjob
      refine ⟨fun y hy v hv => ?_, fun l' hl' => ?_⟩
      · obtain ⟨z, -, rfl⟩ := Option.map_eq_some_iff.1 (hjob.symm.trans hy)
        simpa using (List.mem_filter.1 hv).2
      · obtain ⟨y, hy, hl'⟩ := Option.bind_eq_some_iff.1 hl'
        obtain ⟨z, -, rfl⟩ := Option.map_eq_some_iff.1 (hjob.symm.trans hy)
        have hid : l'.id = l.id := by simpa using List.find?_some hl'
        obtain ⟨k, -, rfl⟩ := List.mem_map.1 (List.mem_of_find?_eq_some hl')
        by_cases hk : k.id = l.id
        · rw [if_pos hk]
        · rw [if_neg hk] at hid
          exact absurd hid hk
    · simp at h

/-! ## A rebase (R131) -/

theorem State.jobOf_congr {s u : State} (hs : u.slots = s.slots) (hc : u.clusters = s.clusters) (t : Nat) : u.jobOf t = s.jobOf t := by
  unfold State.jobOf State.slot State.cluster
  rw [hs, hc]

theorem State.rebaseSaved_same (s : State) (j : Nat) (l : List Saved) :
    (s.rebaseSaved j l).slots = s.slots ∧ (s.rebaseSaved j l).clusters = s.clusters := by
  have hone (s : State) (v : Saved) (n : Nat) : ((match s.recordPlace j n with
      | .ok pa => { s with mem := writeN s.mem pa 8 0 }
      | .error _ => s : State).slots = s.slots) ∧ ((match s.recordPlace j n with
      | .ok pa => { s with mem := writeN s.mem pa 8 0 }
      | .error _ => s : State).clusters = s.clusters) := by
    split <;> exact ⟨rfl, rfl⟩
  exact ⟨foldl_keeps (·.slots) (fun s v => (hone s v _).1) l s, foldl_keeps (·.clusters) (fun s v => (hone s v _).2) l s⟩

/-- The threads of a rebased job keep all but their timestamps. -/
theorem State.rebaseJob_spec {s : State} {j : Nat} {x : Job} (hx : s.job j = some x) :
    (s.rebaseJob j).job j = some x.rebased ∧ ∀ t, s.jobOf t = j →
      ((s.rebaseJob j).slot t).pts = 0 ∧ ((s.rebaseJob j).slot t).regs = (s.slot t).regs ∧ ((s.rebaseJob j).slot t).pc = (s.slot t).pc := by
  obtain ⟨hslots, hclusters⟩ := State.rebaseSaved_same s j x.saved
  unfold State.rebaseJob
  rw [hx]
  dsimp only
  refine ⟨State.job_setJob_self _ _ _, fun t ht => ?_⟩
  rw [State.setJob_slot]
  generalize hq : (((s.rebaseSaved j x.saved).dropPairs (s.rangesOf j x)).rebaseFlight j (x.stampBase.getD 0)) = q
  have hqs : q.slots = s.slots := by rw [← hq]; exact hslots
  have hqc : q.clusters = s.clusters := by rw [← hq]; exact hclusters
  have hget := SMap.get_map Slot.dflt q.slots (fun t y => if q.jobOf t = j then y.rebased (x.stampBase.getD 0) else y) t fun k => by
    split <;> rfl
  have hslot : SMap.get Slot.dflt (q.slots.map fun (e : Nat × Slot) =>
      (e.1, if q.jobOf e.1 = j then e.2.rebased (x.stampBase.getD 0) else e.2)) t = (s.slot t).rebased (x.stampBase.getD 0) := by
    rw [hget, if_pos ((State.jobOf_congr hqs hqc t).trans ht), hqs]
    rfl
  have hkept (y : Slot) (hy : y = (s.slot t).rebased (x.stampBase.getD 0)) : y.pts = 0 ∧ y.regs = (s.slot t).regs ∧ y.pc = (s.slot t).pc := by
    subst hy
    exact ⟨rfl, rfl, rfl⟩
  exact hkept _ hslot

/-! ## A cluster that goes to a job (R49, R51) -/

/-- What a change of several cores one by one leaves in each of them. -/
theorem core_foldl_modCore {f : Core → Core} {p : Core → Prop} (hp : ∀ x, p (f x)) {g : Nat → Nat} (l : List Nat) (s : State) (c : Nat)
    (h : p (s.core c) ∨ ∃ a ∈ l, c = g a) : p ((l.foldl (fun s a => s.modCore (g a) f) s).core c) := by
  induction l generalizing s with
  | nil => exact h.resolve_right (by simp)
  | cons a l ih =>
    refine ih _ ?_
    by_cases hc : c = g a
    · subst hc
      exact .inl (by rw [State.core_modCore_self]; exact hp _)
    · rw [State.core_modCore, if_neg hc]
      exact h.imp id fun ⟨q, hq, hg⟩ => ⟨q, (List.mem_cons.1 hq).resolve_left fun e => hc (e ▸ hg), hg⟩

/-- The same for slots. -/
theorem slot_foldl_modSlot {f : Slot → Slot} {p : Slot → Prop} (hp : ∀ x, p (f x)) {g : Nat → Nat} (l : List Nat) (s : State) (t : Nat)
    (h : p (s.slot t) ∨ ∃ a ∈ l, t = g a) : p ((l.foldl (fun s a => s.modSlot (g a) f) s).slot t) := by
  induction l generalizing s with
  | nil => exact h.resolve_right (by simp)
  | cons a l ih =>
    refine ih _ ?_
    by_cases ht : t = g a
    · subst ht
      exact .inl (by rw [State.modSlot_slot_self]; exact hp _)
    · rw [State.modSlot_slot_ne _ _ ht]
      exact h.imp id fun ⟨q, hq, hg⟩ => ⟨q, (List.mem_cons.1 hq).resolve_left fun e => ht (e ▸ hg), hg⟩

theorem core_foldl_modSlot (f : Slot → Slot) (g : Nat → Nat) (l : List Nat) (s : State) (c : Nat) :
    (l.foldl (fun s a => s.modSlot (g a) f) s).core c = s.core c :=
  foldl_keeps (f := fun (s : State) a => s.modSlot (g a) f) (fun s : State => s.core c) (fun _ _ => rfl) l s

/-- A core whose local state is cleared. -/
def Core.Empty (x : Core) : Prop := x.spad = [] ∧ x.hb = [] ∧ x.vw = []

theorem State.cleared_core (s : State) (k : Nat) {p : Nat} (hp : p < 4) :
    (((List.range 4).foldl (fun s p => s.modCore (coreAt k p) Core.cleared) s).core (coreAt k p)).Empty :=
  core_foldl_modCore (p := Core.Empty) (g := coreAt k) (fun _ => ⟨rfl, rfl, rfl⟩) (List.range 4) s (coreAt k p)
    (.inr ⟨p, List.mem_range.2 hp, rfl⟩)

/-- No failure is left for the starter of any core of a cluster. -/
theorem State.starter_fails (s : State) (k : Nat) {p : Nat} (hp : p < 4) :
    (((List.range 64).foldl (fun s n => s.modSlot (tidOf (coreAt k (n / 16)) (n % 16)) fun x => { x with fails := [] }) s).slot
      (tidOf (coreAt k p) 0)).fails = [] := by
  have hn : 16 * p < 64 ∧ 16 * p / 16 = p ∧ 16 * p % 16 = 0 := by omega
  obtain ⟨hlt, hdiv, hmod⟩ := hn
  refine slot_foldl_modSlot (p := fun x => x.fails = []) (g := fun n => tidOf (coreAt k (n / 16)) (n % 16)) (fun _ => rfl) _ s _
    (.inr ⟨16 * p, List.mem_range.2 hlt, ?_⟩)
  rw [hdiv, hmod]

theorem Hurdle.dflt_word : Hurdle.dflt.word = 0 := by decide

section
variable {s : State} {k : Nat} (hcores : ∀ p, p < 4 → (s.core (coreAt k p)).Empty)
  (hfails : ∀ p, p < 4 → (s.slot (tidOf (coreAt k p) 0)).fails = [])
include hcores hfails

/-- A cluster as a job takes it over, its cores cleared. -/
theorem State.assigned_spec (j : Nat) : let u := s.setCluster k { Cluster.dflt with job := some j }
    (u.cluster k).job = some j ∧ (∀ n, (u.cluster k).acc.get Acc.dflt n = Acc.dflt) ∧
      ∀ p, p < 4 → (∀ a, u.padByte (coreAt k p) a = 0) ∧ (u.slot (tidOf (coreAt k p) 0)).fails = [] ∧
        ∀ n, (u.hb (coreAt k p) n).word = 0 ∧ (u.core (coreAt k p)).vw.get 0 n = 0 := by
  intro u
  have hcluster : u.cluster k = { Cluster.dflt with job := some j } := State.cluster_setCluster_self _ _ _
  refine ⟨by rw [hcluster], fun n => by rw [hcluster]; rfl, fun p hp => ?_⟩
  obtain ⟨hspad, hhb, hvw⟩ : (u.core (coreAt k p)).Empty := hcores p hp
  exact ⟨fun a => by rw [State.padByte, hspad]; rfl, hfails p hp,
    fun n => ⟨by rw [State.hb, hhb]; exact Hurdle.dflt_word, by rw [hvw]; rfl⟩⟩

end

end Sys2Proof.Machine
end

section
/-! CERTIFICATE. The steps of jobs and their levels of work, on a die that has its clocks: what each does where its condition holds, and that
it does nothing where it fails, a theorem for each clause of O59; and the one clause that fails. -/
namespace Sys2Proof.Machine

section
variable {s : State} (h : (s.die Config.infieldDie).stopped = false)
include h

/-! ## Launches: placement, messages to starters, far units (R165, R366, R380, R382) -/

section
variable {id : Word} {l : Launch} (hl : s.launchAt id = some l)
include hl

theorem assignStart_ready {c n i : Nat} (hst : l.st = 2) (hs : l.lvl.status = none) (hok : s.startable l c n i = true) :
    let m : Msg := { src := none, core := c, bank := 0, port := 0, words := startWords l n i, stamp := l.minPts }
    exec (.assignStart c id n i) s = .next (if s.hasRoom m then (s.deliver m).modLaunch (idJob id) id fun l =>
      { l with list := l.list.map fun u => if i ≤ u.idx ∧ u.idx < i + n then { u with st := 1, core := c } else u } else s) := by
  change execAssignStart c id n i s = _
  unfold execAssignStart
  refine event_step h ?_
  simp only [hl]
  exact if_pos ⟨hst, hs, hok⟩

theorem assignCancel_stopped {c : Nat} (hs : l.lvl.status.isSome = true) (hu : ∃ u ∈ l.list, u.core = c ∧ u.far = false) :
    let m : Msg := { src := none, core := c, bank := 0, port := 0, words := [2, id], stamp := l.minPts }
    exec (.assignCancel c id) s = .next (if s.hasRoom m then s.deliver m else s) := by
  have hany : l.list.any (fun u => decide (u.core = c) && !u.far) = true := by
    obtain ⟨u, hmem, hcore, hfar⟩ := hu
    exact List.any_eq_true.2 ⟨u, hmem, by simp [hcore, hfar]⟩
  change execAssignCancel c id s = _
  unfold execAssignCancel
  refine event_step h ?_
  simp only [hl]
  exact if_pos ⟨hs, hany⟩

/-- The units go to the cores of the launch that the id finds first, also in another launch of that id. -/
theorem launchPlacement_ready (hu : l.unplaced = true) (hst : l.st = 1) : let cs := s.eligible (idJob id) l
    let t := (s.die Config.infieldDie).time
    exec (.launchPlacement id) s = .next (if cs = [] then s.modLaunch (idJob id) id fun l => { l with st := 4, lvl := l.lvl.stopWith 6 }
      else if s.overtakes l ∨ s.fits l cs = false then s
      else (s.modLaunch (idJob id) id fun l =>
        { l with st := 2, placed := s.nextPlaced, list := unitsOf l cs, lvl := l.lvl.start t }).modJob (idJob id) fun x => x.begin t) := by
  have hready : ¬ (l.unplaced = false ∨ l.st ≠ 1) := by simp [hu, hst]
  change execLaunchPlacement id s = _
  unfold execLaunchPlacement
  refine event_step h ?_
  simp only [hl]
  exact if_neg hready

theorem farUnitPlace_free {c : Nat} {u : UnitRec} (hst : l.st = 2) (hs : l.lvl.status = none) (hfree : (s.slot (tidOf c 16)).st = .free)
    (hu : s.farNext l c = some u) :
    exec (.farUnitPlace id c) s = .next ((s.setSlot (tidOf c 16) (farUnit l u.idx)).modLaunch (idJob id) id fun l =>
      { l with list := l.list.map fun q => if q.idx = u.idx then { q with st := 1, core := c } else q }) := by
  change execFarUnitPlace id c s = _
  unfold execFarUnitPlace
  refine event_step h ?_
  simp only [hl, if_pos (And.intro hst (And.intro hs hfree)), hu]

theorem preemption_due {x : Job} (hx : s.job (idJob id) = some x) (hst : l.st = 2) (hs : l.lvl.status = none)
    (hy : s.yielding x id = true ∨ s.mustYield l = true) : exec (.preemption id) s = .next (s.preempt (idJob id) id) := by
  change execPreemption id s = _
  unfold execPreemption
  refine event_step h ?_
  simp only [hx, hl]
  exact if_pos ⟨hst, by simp [hs], hy⟩

theorem launchRestore_next (hst : l.st = 3) (hu : l.unplaced = true) (ho : s.overtakes l = false) :
    exec (.launchRestore id) s = .next ((s.restore (idJob id) l).getD s) := by
  change execLaunchRestore id s = _
  unfold execLaunchRestore
  refine event_step h ?_
  simp only [hl]
  exact if_pos ⟨hst, hu, by simp [ho]⟩

end

/-- A step that names no launch does nothing. -/
theorem launchSteps_unnamed {id : Word} (hl : s.launchAt id = none) (c n i : Nat) : ∀ k ∈ [Instr.assignStart c id n i, .assignCancel c id,
    .launchPlacement id, .farUnitPlace id c, .preemption id, .launchRestore id], exec k s = .next s := by
  have hnext {d : Nat} {f : State → State} (hd : d = Config.infieldDie) (hf : f s = s) : event d f s = .next s :=
    event_step (hd ▸ h) hf
  intro k hk
  simp only [List.mem_cons, List.not_mem_nil, or_false] at hk
  rcases hk with rfl | rfl | rfl | rfl | rfl | rfl
  · change execAssignStart c id n i s = _
    unfold execAssignStart
    exact hnext rfl (by simp only [hl])
  · change execAssignCancel c id s = _
    unfold execAssignCancel
    exact hnext rfl (by simp only [hl])
  · change execLaunchPlacement id s = _
    unfold execLaunchPlacement
    exact hnext rfl (by simp only [hl])
  · change execFarUnitPlace id c s = _
    unfold execFarUnitPlace
    exact hnext rfl (by simp only [hl])
  · change execPreemption id s = _
    unfold execPreemption
    refine hnext rfl ?_
    dsimp only
    rw [hl]
    cases s.job (idJob id) <;> rfl
  · change execLaunchRestore id s = _
    unfold execLaunchRestore
    exact hnext rfl (by simp only [hl])

/-! ## Phases and graphs (R377, R379) -/

/-- A step of a job that does not run does nothing. -/
theorem jobSteps_unnamed {j : Nat} (hj : s.job j = none) : ∀ k ∈ [Instr.phaseStart j, .graphStart j, .rebase j], exec k s = .next s := by
  intro k hk
  simp only [List.mem_cons, List.not_mem_nil, or_false] at hk
  rcases hk with rfl | rfl | rfl
  · change execPhaseStart j s = _
    unfold execPhaseStart
    exact event_step h (by simp only [hj])
  · change execGraphStart j s = _
    unfold execGraphStart
    exact event_step h (by simp only [hj])
  · change execRebase j s = _
    unfold execRebase
    exact event_step h (by simp [hj])

section
variable {j : Nat} {x : Job} (hx : s.job j = some x)
include hx

theorem phaseStart_idle (hc : x.phase.isSome = true ∨ x.lvl.status.isSome = true ∨ x.nPhases ≤ x.lvl.counted) :
    exec (.phaseStart j) s = .next s := by
  change execPhaseStart j s = _
  unfold execPhaseStart
  refine event_step h ?_
  simp only [hx]
  exact if_pos hc

section
variable (hp : x.phase = none) (hs : x.lvl.status = none) (hn : x.lvl.counted < x.nPhases)
include hp hs hn

omit h hx in
theorem phaseStart_due : ¬ (x.phase.isSome = true ∨ x.lvl.status.isSome = true ∨ x.nPhases ≤ x.lvl.counted) := by
  rw [hp, hs]
  simp only [Option.isSome_none, Bool.false_eq_true, false_or]
  omega

theorem phaseStart_malformed (ht : s.tabEntry j x.phaseTab x.lvl.counted 65535 x.lvl.pts = none) :
    exec (.phaseStart j) s = .next (s.killTable j 3 (jobIdOf j)) := by
  change execPhaseStart j s = _
  unfold execPhaseStart
  refine event_step h ?_
  simp only [hx]
  rw [if_neg (phaseStart_due hp hs hn), ht]

theorem phaseStart_starts {u : State} {t : Nat} {e : TabEnt}
    (ht : s.tabEntry j x.phaseTab x.lvl.counted 65535 x.lvl.pts = some (u, t, e)) :
    exec (.phaseStart j) s = .next ((u.modJob j fun y =>
      { y with phase := some (startGrp x.lvl.counted e y.again t), again := 0, graph := none }).takeEarly j 2 (phaseIdOf j x.lvl.counted)) := by
  change execPhaseStart j s = _
  unfold execPhaseStart
  refine event_step h ?_
  simp only [hx]
  rw [if_neg (phaseStart_due hp hs hn), ht]

end

section
variable {ph : Grp} (hp : x.phase = some ph) (hg : x.graph = none) (hs : ph.lvl.status = none) (hn : ph.lvl.counted < ph.n)
include hp hg hs hn

omit h hx hp in
theorem graphStart_due : ¬ (x.graph.isSome = true ∨ ph.lvl.status.isSome = true ∨ ph.n ≤ ph.lvl.counted) := by
  rw [hg, hs]
  simp only [Option.isSome_none, Bool.false_eq_true, false_or]
  omega

theorem graphStart_malformed (ht : s.tabEntry j ph.tab ph.lvl.counted 4096 ph.lvl.pts = none) :
    exec (.graphStart j) s = .next (s.killTable j 2 (phaseIdOf j ph.idx)) := by
  change execGraphStart j s = _
  unfold execGraphStart
  refine event_step h ?_
  simp only [hx, hp]
  rw [if_neg (graphStart_due hg hs hn), ht]

theorem graphStart_starts {u : State} {t : Nat} {e : TabEnt} (ht : s.tabEntry j ph.tab ph.lvl.counted 4096 ph.lvl.pts = some (u, t, e)) :
    let v := u.modJob j fun y =>
      { y with graph := some (startGrp ph.lvl.counted e ph.again t), phase := y.phase.map fun q => { q with again := 0 } }
    let id := graphIdOf j ph.idx ph.lvl.counted
    exec (.graphStart j) s = .next (if x.early.contains id then (v.unopened j).takeEarly j 1 id
      else v.openGraph j ph.idx ph.lvl.counted e t) := by
  change execGraphStart j s = _
  unfold execGraphStart
  refine event_step h ?_
  simp only [hx, hp]
  rw [if_neg (graphStart_due hg hs hn), ht]

end

/-! ## A rebase (R131) -/

theorem rebase_waits (hc : x.rebasing = false ∨ s.atBoundary j = false) : exec (.rebase j) s = .next s := by
  change execRebase j s = _
  unfold execRebase
  refine event_step h (if_neg ?_)
  rw [hx]
  rcases hc with hc | hc <;> simp [hc]

theorem rebase_done (hr : x.rebasing = true) (hb : s.atBoundary j = true) :
    ∃ u : State, exec (.rebase j) s = .next u ∧ u.job j = some x.rebased ∧ x.rebased.rebasing = false ∧
      ∀ t, s.jobOf t = j → (u.slot t).pts = 0 ∧ (u.slot t).regs = (s.slot t).regs ∧ (u.slot t).pc = (s.slot t).pc := by
  obtain ⟨hjob, hslots⟩ := State.rebaseJob_spec hx
  refine ⟨s.rebaseJob j, ?_, hjob, rfl, hslots⟩
  change execRebase j s = _
  unfold execRebase
  refine event_step h (if_pos ⟨?_, hb⟩)
  rw [hx]
  exact hr

end

/-! ## Completion records and acknowledgements (R158, R159, R168-R171) -/

section
variable {id : Word} {x : Job} (hx : s.job (idJob id) = some x)
include hx

theorem completionRecordWrite_notDue (hd : s.recordDue x (idJob id) (idKind id) id = none) :
    exec (.completionRecordWrite id) s = .next s := by
  change execCompletionRecordWrite id s = _
  unfold execCompletionRecordWrite
  refine event_step h ?_
  simp only [hx, hd]

section
variable {l : Lvl} (hd : s.recordDue x (idJob id) (idKind id) id = some l)
include hd

theorem completionRecordWrite_waits (hb : s.aliasBusy (idJob id) l.record 64 = true) : exec (.completionRecordWrite id) s = .next s := by
  change execCompletionRecordWrite id s = _
  unfold execCompletionRecordWrite
  refine event_step h ?_
  simp only [hx, hd]
  exact if_pos hb

variable (hb : s.aliasBusy (idJob id) l.record 64 = false) {u : State} {t : Nat}
  (hw : s.writeRecord (idJob id) id l l.final = (u, t, none))
include hb hw

theorem completionRecordWrite_level (hk : idKind id < 3) : exec (.completionRecordWrite id) s =
    .next ((u.modJob (idJob id) fun y => y.over (idKind id) id t).toParent (idJob id) (idKind id) id l l.final l.fcause l.ftid t) := by
  change execCompletionRecordWrite id s = _
  unfold execCompletionRecordWrite
  refine event_step h ?_
  simp only [hx, hd]
  rw [if_neg (ne_true_of_eq_false hb), hw]
  exact if_neg (by omega)

theorem completionRecordWrite_job (hk : idKind id = 3) : exec (.completionRecordWrite id) s =
    .next ((u.modJob (idJob id) fun y => y.over 3 id t).endJob (idJob id) true) := by
  change execCompletionRecordWrite id s = _
  unfold execCompletionRecordWrite
  refine event_step h ?_
  simp only [hx, hd]
  rw [if_neg (ne_true_of_eq_false hb), hw]
  exact (if_pos hk).trans (by rw [hk]; rfl)

end

theorem killAck_launch {l : Lvl} (hk : idKind id = 0) (hl : x.lvlOf 0 id = some l) (hs : l.status.isSome = true) (ha : l.acked = false)
    (hw : l.written = false) : let u := s.cancelUnits (idJob id) 0 id
    exec (.killAck id) s = .next (if u.levelGone (idJob id) 0 id then u.ack (idJob id) 0 id else u) := by
  change execKillAck id s = _
  unfold execKillAck
  refine event_step h ?_
  simp only [hx, hk, hl]
  exact if_pos (by simp [hs, ha, hw])

end

/-! ## The loader and the intake of jobs (R238, R376) -/

theorem service_recovers (f : State → State) (hr : s.pkg.recovery = true) : service f s = .next s := event_step h (if_pos hr)

theorem service_runs {f : State → State} {u : State} (hr : s.pkg.recovery = false) (hf : f s = u) : service f s = .next u :=
  event_step h ((if_neg (ne_true_of_eq_false hr)).trans hf)

theorem serviceSteps_recovery (hr : s.pkg.recovery = true) (j im n b st f : Nat) (x : Word) :
    ∀ k ∈ [Instr.loaderLoad j im n b st, .jobnotify x, .intakeReread f], exec k s = .next s := by
  intro k hk
  simp only [List.mem_cons, List.not_mem_nil, or_false] at hk
  rcases hk with rfl | rfl | rfl
  · change execLoaderLoad j im n b st s = _
    unfold execLoaderLoad
    exact service_recovers h _ hr
  · change execJobnotify x s = _
    unfold execJobnotify
    exact service_recovers h _ hr
  · change execIntakeReread f s = _
    unfold execIntakeReread
    exact service_recovers h _ hr

variable (hr : s.pkg.recovery = false)
include hr

theorem loaderLoad_ends {j im n b st : Nat} {x : Job} (hx : s.job j = some x) :
    (∀ u hs, s.load j x.root b { x := readN s.mem im n, len := n } = .ok (u, hs) →
      exec (.loaderLoad j im n b st) s = .next (u.loadStatus st (loadStop 0))) ∧
    (∀ e u hs, s.load j x.root b { x := readN s.mem im n, len := n } = .error (e, u, hs) →
      exec (.loaderLoad j im n b st) s = .next ((s.undoLoad u j hs).loadStatus st e)) := by
  refine ⟨fun u hs hload => ?_, fun e u hs hload => ?_⟩ <;>
  · change execLoaderLoad j im n b st s = _
    unfold execLoaderLoad
    refine service_runs h hr ?_
    simp only [hx, hload]

theorem jobnotify_cases (x : Word) : let f := x.toNat % 16
    let seq := x.toNat / 2 ^ 32
    (x.toNat / 16 % 2 ^ 28 ≠ 0 → exec (.jobnotify x) s = .next s) ∧
    (x.toNat / 16 % 2 ^ 28 = 0 → s.pkg.featDone = false → exec (.jobnotify x) s = .next (s.intakeStatus f seq 0 4)) ∧
    (x.toNat / 16 % 2 ^ 28 = 0 → s.pkg.featDone = true →
      let u : State := { s with pkg := { s.pkg with notifies := s.pkg.notifies ++ [{ frame := f, seq := seq, tries := 0 }] } }
      exec (.jobnotify x) s = .next (if s.pkg.notifies.all (fun n => decide (n.frame ≠ f)) then u.intakeFrame f else u)) := by
  intro f seq
  have hfield : fieldN x.toNat 4 28 = x.toNat / 16 % 2 ^ 28 := by
    unfold fieldN
    rw [Nat.shiftRight_eq_div_pow]
  have hstep {u : State} (hu : (if fieldN x.toNat 4 28 ≠ 0 then s
      else if s.pkg.featDone = false then s.intakeStatus f seq 0 4
      else
        let v : State := { s with pkg := { s.pkg with notifies := s.pkg.notifies ++ [{ frame := f, seq := seq, tries := 0 }] } }
        if s.pkg.notifies.all (fun n => decide (n.frame ≠ f)) then v.intakeFrame f else v) = u) : exec (.jobnotify x) s = .next u := by
    change execJobnotify x s = _
    unfold execJobnotify
    exact service_runs h hr hu
  rw [hfield] at hstep
  exact ⟨fun hz => hstep (if_pos hz), fun hz hd => hstep ((if_neg (not_not_intro hz)).trans (if_pos hd)),
    fun hz hd => hstep ((if_neg (not_not_intro hz)).trans (if_neg (by simp [hd])))⟩

theorem intakeReread_next (f : Nat) : exec (.intakeReread f) s =
    .next (if s.pkg.notifies.any (fun n => decide (n.frame = f)) then s.intakeFrame f else s) := by
  change execIntakeReread f s = _
  unfold execIntakeReread
  exact service_runs h hr rfl

end

/-! ## Far units that end, and clusters (R49, R51, R165) -/

theorem farUnitRetire_next {s : State} {t : Nat} (h : (s.die (runDie t)).stopped = false) : exec (.farUnitRetire t) s =
    .next (if isFar t = true ∧ (s.slot t).st = .ended then s.reapSlot t else s) := by
  change execFarUnitRetire t s = _
  unfold execFarUnitRetire
  exact event_step h rfl

section
variable {s : State} {k j : Nat} (h : (s.die (k / 32)).stopped = false)
include h

theorem clusterAssignment_refused (hc : 256 ≤ k ∨ (s.cluster k).harvested = true ∨ (s.cluster k).job = some j ∨ s.job j = none ∨
    s.clusterIdle k = false) : exec (.clusterAssignment k j) s = .next s := by
  change execClusterAssignment k j s = _
  unfold execClusterAssignment
  exact event_step h (if_pos (by simpa using hc))

theorem clusterAssignment_given (hk : k < 256) (hh : (s.cluster k).harvested = false) (hj : (s.cluster k).job ≠ some j)
    (hx : (s.job j).isSome = true) (hi : s.clusterIdle k = true) :
    ∃ u : State, exec (.clusterAssignment k j) s = .next u ∧ (u.cluster k).job = some j ∧
      (∀ n, (u.cluster k).acc.get Acc.dflt n = Acc.dflt) ∧
      ∀ p, p < 4 → (∀ a, u.padByte (coreAt k p) a = 0) ∧ (u.slot (tidOf (coreAt k p) 0)).fails = [] ∧
        ∀ n, (u.hb (coreAt k p) n).word = 0 ∧ (u.core (coreAt k p)).vw.get 0 n = 0 := by
  have hok : ¬ (256 ≤ k ∨ (s.cluster k).harvested = true ∨ (s.cluster k).job = some j ∨ (s.job j).isNone = true ∨ s.clusterIdle k = false) := by
    simp [hh, hj, hi, Option.isSome_iff_ne_none.1 hx, hk]
  refine ⟨_, show execClusterAssignment k j s = _ from event_step h (if_neg hok), State.assigned_spec (fun p hp => ?_) (fun p hp => State.starter_fails _ k hp) j⟩
  rw [core_foldl_modSlot (fun x => { x with fails := [] }) (fun n => tidOf (coreAt k (n / 16)) (n % 16))]
  exact State.cleared_core _ k hp

end

/-! ## The obligation -/

/-- A ready launch of one unit for the first core of each die that `dies` names, always with the id 0x1000. -/
def twin (dies : Nat) : Launch := { launchOf 0 0x1000 0 0 false [] with dies := dies, units := 1 }

/-- A job of cluster 0 with two launches of one id, for die 0, where the cluster stands, and for die 1. -/
def twins : State := { State.reset with
  jobs := [(0, some { State.reset.jobOfFrame 0 with launches := [twin 1, twin 2] })]
  clusters := [(0, { Cluster.dflt with job := some 0 })] }

/-- The units of each launch of job 0. -/
def State.unitLists (s : State) : Option (List (List UnitRec)) := (s.job 0).map fun x => x.launches.map (·.list)

/-- Refutes O59, by its clause of a launch that is placed: there every launch of the id takes the cores that itself is eligible for, in
the model those of the launch found first. With `twins`, the second launch has no eligible core and gets the unit of the first all the
same. The other clauses hold: the theorems above state them. -/
theorem not_workSteps : ¬ Obligations.WorkSteps := by
  unfold Obligations.WorkSteps
  intro h
  obtain ⟨hinfield, -⟩ := h
  obtain ⟨hlaunch, -⟩ := hinfield twins rfl
  have hl : twins.launchAt 0x1000 = some (twin 1) := by decide +kernel
  have hcores : twins.eligible 0 (twin 1) ≠ [] := by decide +kernel
  have hfirst : twins.overtakes (twin 1) = false := by decide +kernel
  have hfits : twins.fits (twin 1) (twins.eligible 0 (twin 1)) = true := by decide +kernel
  obtain ⟨-, -, hplace, -⟩ := hlaunch 0x1000 (twin 1) 0 hl
  obtain ⟨-, -, hplaced⟩ := hplace (by decide) (by decide)
  have hmodel := launchPlacement_ready rfl hl (by decide) (by decide)
  have hsame := congrArg State.unitLists (Host.Outcome.next.inj (hmodel.symm.trans (hplaced hcores hfirst hfits)))
  exact absurd hsame (by decide +kernel)

end Sys2Proof.Machine
end

section
/-! CERTIFICATE. Replies: a slot that looks at its instruction again means by it what it meant when it issued, and each step that brings a
reply resumes one slot (R64, R125, R126, R143, R147, R162, R273, R274, R327, R335, R353, R367, R368, R373). -/
namespace Sys2Proof.Machine

/-- An instruction with a word means the same when its slot looks at it again; the steps of the device have no word. -/
theorem rerun_eq_exec {i : Instr} (h : Dec.encode i ≠ []) (s : State) : rerun i s = exec i s := by
  cases i with
  | xpcWrite | ptsTick | lapBoundary | translationRequest | walkEnd | shootdown | shootdownAck | leaseRenewal | homeStore |
    crossingInvalidation | directoryEviction | hbmRequest | periodicRefresh | patrolScrub | managerErrorHandling | carveInterval |
    carveStepReady | handleStamp | publish | reduceStoreLineAdd | reRepresentation | converterSnapshot | reRepresentationPublish |
    tensorEntryFree | copyChunk | chunkVisible | chunkAck | copyDone | copyStop | raddArrival | raddOrdStage | queueMessageArrival |
    assignStart | assignEnded | assignCancel | matrixStep | epilogueStep | tensorStep | batonArrival | batonRefusal |
    batonAccepted | crewBatonArrival | crewAdmissionTimeout | crewRefusalWindowEnd | crewjTimeout | hurdleSignal | hurdleRelease |
    brokenSignal | brokenRelease | completionRecordWrite | killAck | cancelDelivery | cancelHandlerTimeout | phaseStart |
    graphStart | launchPlacement | farUnitPlace | farUnitRetire | preemption | launchRestore | rebase | clusterAssignment |
    loaderLoad | jobnotify | intakeReread | hostRead | hostWrite | hostRegisterWrite | featselWrite | actlvlhWrite | lnkcthrWrite |
    portmodeWrite | portmodeApply | attestationRequest | freeze | freezeToken | coldReset | frameReceive | windowClose |
    laneMapMarker | retrainComplete | rateAdvertisement | keyExchange | timeDiscipline | governorTick | replyArrival |
    graphEngineRequest | crewjRefusalWindowEnd | disciplineLost | warmReset | peerStashRequest | collPeerData => exact absurd rfl h
  | _ => rfl

theorem State.resume_waiting {s u : State} {t : Nat} {k : WaitKind} (hk : s.waitOf t = some k)
    (hr : rerun (s.instrOf t) { s with cur := t, grant := some k } = .next u) :
    s.resume t k = ({ u with cur := s.cur, grant := none } : State).wakeUp t := by
  simp only [State.resume, hk, if_true, hr]

theorem State.resume_of_ne {s : State} {t : Nat} {k : WaitKind} (hk : s.waitOf t ≠ some k) : s.resume t k = s := if_neg hk

theorem State.wakeUp_parked {s : State} {t : Nat} (h : (s.slot t).st = .parked) : s.wakeUp t = s := if_pos h

theorem State.wakeUp_awake {s : State} {t : Nat} (h : (s.slot t).st ≠ .parked) :
    s.wakeUp t = s.modSlot t fun x => { x with issued := 0 } := if_neg h

theorem State.wakeUp_cur (s : State) (t : Nat) : (s.wakeUp t).cur = s.cur := by
  by_cases h : (s.slot t).st = .parked
  · rw [State.wakeUp_parked h]
  · rw [State.wakeUp_awake h]
    rfl

theorem State.wakeUp_issued {s : State} {t : Nat} (h : (s.slot t).st ≠ .parked) : ((s.wakeUp t).slot t).issued = 0 := by
  rw [State.wakeUp_awake h, State.modSlot_slot_self]

/-! ## Each of these steps resumes one slot -/

section
variable {s : State} {t : Nat} (hrun : (s.die (runDie t)).stopped = false)
include hrun

theorem homeStore_resumes (hi : isRadd (s.instrOf t) = false) : exec (.homeStore t) s = .next (s.resume t .store) := by
  change execHomeStore t s = _
  unfold execHomeStore
  exact event_step hrun (if_neg (by simp [hi]))

theorem raddArrival_resumes (hi : isRadd (s.instrOf t) = true) : exec (.raddArrival t) s = .next (s.resume t .store) :=
  event_step hrun (if_pos hi)

theorem reduceStoreLineAdd_resumes (hi : isReduceStore (s.instrOf t) = true) :
    exec (.reduceStoreLineAdd t) s = .next (s.resume t .publish) :=
  event_step hrun (if_pos hi)

/-- A thread without a collective in progress: PUBLISH steps no collective first. -/
theorem publish_resumes (hc : ∀ c ∈ s.colls, c.tid ≠ t) (hi : isReduceStore (s.instrOf t) = false) :
    exec (.publish t) s = .next (s.resume t .publish) := by
  have hnone : (s.colls.filter fun c => decide (c.tid = t)) = [] := List.filter_eq_nil_iff.2 (by simpa using hc)
  change execPublish t s = _
  unfold execPublish
  exact event_step hrun (by simp [hnone, hi])

theorem State.engineStep_resumes {n : Nat} (hn : engineOf (s.instrOf t) = n) :
    event (runDie t) (fun s => s.engineStep t n) s = .next (s.resume t .engine) :=
  event_step hrun (if_pos hn)

theorem replyArrival_resumes {k : WaitKind} (hk : k = .svc ∨ k = .hostReply ∨ k = .timeReply) (hw : s.waitOf t = some k) :
    exec (.replyArrival t) s = .next (s.resume t k) := by
  change execReplyArrival t s = _
  unfold execReplyArrival
  obtain rfl | rfl | rfl := hk <;> exact event_step hrun (by simp only [hw])

theorem leaseRenewal_resumes (hw : s.waitOf t = some .load) :
    let u : State := { s with picks := s.picks.drop 2 }
    let q := s.picks.tail.headD 0
    exec (.leaseRenewal t) s =
      .next (((if q = 0 ∨ 64 < q then u else u.countHit q).resume t .load).makeRoom (runDie t) (s.picks.headD 0)) :=
  event_step hrun (if_pos hw)

end

/-- Settles O56: an instruction that waits is one with a word, which means the same when its slot looks at it again, and each of the
steps is the resumption of one slot. -/
theorem replies : Obligations.Replies := by
  unfold Obligations.Replies
  refine ⟨fun s t k u hk hw hx => ?_, fun s t k hk => State.resume_of_ne hk, fun s t => ?_, fun s t hrun => ?_⟩
  · exact State.resume_waiting hk ((rerun_eq_exec hw _).trans hx)
  · exact ⟨s.wakeUp_cur t, State.wakeUp_parked, State.wakeUp_issued⟩
  · exact ⟨event_step hrun rfl, event_step hrun rfl, event_step hrun rfl, homeStore_resumes hrun, raddArrival_resumes hrun,
      reduceStoreLineAdd_resumes hrun, publish_resumes hrun, State.engineStep_resumes hrun, State.engineStep_resumes hrun,
      State.engineStep_resumes hrun, fun k => replyArrival_resumes hrun, leaseRenewal_resumes hrun⟩

end Sys2Proof.Machine
end

section
/-! CERTIFICATE. The streamers (R149, R384; O58): what COPY_CHUNK does, and why the clause about it fails away from the compute cores. -/
namespace Sys2Proof.Machine

/-- COPY_CHUNK where the core's own queue does not send: the streamer that serves requests where the core stands serves the next one. -/
theorem copyChunk_serves {s : State} {c : Nat} (hrun : (s.die (c / 128)).stopped = false) :
    let u : State := { s with picks := s.picks.tail }
    (s.picks.headD 0 ≠ 0 ∨ u.sendNext c = none) → exec (.copyChunk c) s = .next ((u.serveNext (serverAt c)).getD u) := by
  intro u hidle
  have hsend : (if s.picks.headD 0 = 0 then u.sendNext c else none) = none := by
    obtain hfree | hnone := hidle
    · exact if_neg hfree
    · rw [hnone, ite_self]
  change execCopyChunk c s = _
  unfold execCopyChunk
  exact event_step hrun (congrArg (·.getD u) (congrArg (·.orElse fun _ => u.serveNext (serverAt c)) hsend))

/-! ## A request at the streamer of a stack -/

/-- A live tensor of one unit, in the first frame that is no table. -/
def oneUnit : Tensor := { Tensor.dflt with gen := 1, st := 1, caps := 2 ^ capWrTile, hlast := 1, frames := [0x100] }

/-- A PUTT of core 0 into that unit: its only chunk is read, and the streamer of the stack is asked to serve it. -/
def askedPutt : Copy :=
  { id := 0, core := 0, bank := 0, tid := 1, job := 0, kind := 3, glob := 0, loc := 0, n := 8, done := 8, vis := 0, acked := 0, prio := 0
    rc := none, sc := none, p0 := 0, pts := 0, stamp := 1, handle := 0x10001, row0 := 0, col0 := 0, page := 0, rows := 1, cols := 1
    pitch := 8, data := [(sentKey 0, 1), (askKey 0, 1)], launch := 0 }

/-- Job 0 with that tensor and that copy. -/
def asking : State := { State.reset with
  jobs := [(0, some { State.reset.jobOfFrame 0 with tensors := [(1, oneUnit)] })]
  copies := [askedPutt] }

/-- What has been sent of each copy, and asked for. -/
def State.copyData (s : State) : List (SMap Nat) := s.copies.map (·.data)

/-- Refutes O58, by its clause of COPY_CHUNK where the core's queue has nothing to send: there a core's streamer serves the requests that
name the core itself. Away from the compute cores no streamer has a core's number: it is the stack's that serves (`serverAt`). In
`asking`, when core 1152 of the first base die takes the step, the model serves the PUTT at the stack's streamer, and the clause leaves
it waiting. -/
theorem not_storageSteps : ¬ Obligations.StorageSteps := by
  unfold Obligations.StorageSteps
  intro h
  obtain ⟨-, -, -, -, -, -, -, -, -, -, -, -, -, -, -, -, -, -, hchunk, -⟩ := h
  have hrun : (asking.die (1152 / 128)).stopped = false := rfl
  have hidle : asking.sendNext 1152 = none := by decide +kernel
  obtain ⟨-, hclause⟩ := hchunk asking 1152 hrun
  have hsame := congrArg State.copyData (Host.Outcome.next.inj
    ((copyChunk_serves hrun (.inr hidle)).symm.trans (hclause (.inr hidle))))
  exact absurd hsame (by decide +kernel)

end Sys2Proof.Machine
end

section
/-! CERTIFICATE. The tensor table: what TALLOC finds there, and the entry and the codes that it leaves (R53, R60, R63, R65). -/
namespace Sys2Proof.Machine

/-! ## What TALLOC finds -/

theorem freeEntry_usable {m : SMap Tensor} {k i : Nat} (h : freeEntry m k = some i) : (m.get Tensor.dflt i).usable = true := by
  have hfound (n : Nat) (hn : ((List.range (m.length + 1)).map (n + ·)).find? (fun i => decide (i < 65536) && (m.get Tensor.dflt i).usable) =
      some i) : (m.get Tensor.dflt i).usable = true := by
    have hi := List.find?_some hn
    exact (Bool.and_eq_true_iff.1 hi).2
  unfold freeEntry at h
  dsimp only at h
  split at h
  · next hn => exact hfound k (hn.trans h)
  · exact hfound 0 h

theorem Tensor.usable_iff (t : Tensor) : t.usable = true ↔ t.st = 0 ∧ t.gen < 0xFFFF := by
  unfold Tensor.usable
  rw [Bool.and_eq_true, decide_eq_true_iff, decide_eq_true_iff]

section
variable {s : State} {j pts data i : Nat} {d : AllocDesc} {f : Tag} {k : AllocPick} {x : Job}

theorem allocTensor_noEntry (h : s.job j = none ∨ ∃ x, s.job j = some x ∧ freeEntry x.tensors k.at_ = none) :
    s.allocTensor j pts d f data k = (s, 0, 6, pts) := by
  have hplace : s.allocPlace j d f k = .error 6 := by
    unfold State.allocPlace
    obtain hx | ⟨x, hx, hi⟩ := h
    · simp only [hx]
    · simp only [hx, hi]
  simp only [State.allocTensor, hplace]

variable (hx : s.job j = some x) (hi : freeEntry x.tensors k.at_ = some i)
include hx hi

theorem allocTensor_noMemory (hfull : k.full ≠ 0) : s.allocTensor j pts d f data k = (s, 0, 7, pts) := by
  have hplace : s.allocPlace j d f k = .error 7 := by
    unfold State.allocPlace
    simp only [hx, hi]
    exact if_pos hfull
  simp only [State.allocTensor, hplace]

theorem freeEntry_free : (s.tensor j i).st = 0 ∧ (s.tensor j i).gen < 0xFFFF :=
  (Tensor.usable_iff _).1 (State.tensor_eq hx i ▸ freeEntry_usable hi)

end

/-! ## What it leaves -/

theorem State.orient_jobs (s : State) (q : Nat) : (s.orient q).jobs = s.jobs := by
  unfold State.orient
  split <;> rfl

theorem State.disorient_jobs (s : State) (q : Nat) : (s.disorient q).jobs = s.jobs := by
  unfold State.disorient
  split <;> rfl

theorem State.remark_jobs (s : State) (old new : Tensor) : (s.remark old new).jobs = s.jobs :=
  (foldl_keeps (·.jobs) State.orient_jobs _ _).trans (foldl_keeps (·.jobs) State.disorient_jobs _ _)

theorem State.tensor_congr {s u : State} (h : u.jobs = s.jobs) (j i : Nat) : u.tensor j i = s.tensor j i := by
  unfold State.tensor State.job
  rw [h]

/-- A write of codes leaves the other entries of the table. -/
theorem State.install_tensor_ne {s : State} {j i T : Nat} {es : List (Nat × Nat)} {x : Job} (hx : s.job j = some x)
    (hp : (s.tensor j i).plain = false) {n : Nat} (hn : n ≠ i) : (s.install j i T es).tensor j n = s.tensor j n := by
  have hwritten := (s.modTensor j i fun t => { t with cells := overlay es t.cells }).tensWritten_same ((s.tensor j i).rangesIn es)
  have hjob := (hwritten.job j).trans (State.job_modTensor_self hx i _)
  have hothers := (hwritten.tensor j n).trans (State.tensor_modTensor_ne hx hn _)
  unfold State.install
  dsimp only
  rw [if_neg (ne_true_of_eq_false hp)]
  split
  · rw [State.tensor_modTensor_ne hjob hn, hothers]
  · exact hothers

/-- Nothing is queued on the entry: no operation needs what the units held. -/
theorem Tensor.withCodes_idle {t : Tensor} (h : t.ops = []) (T : Nat) (old : SMap Nat) (es : List (Nat × Nat)) :
    t.withCodes T old es = { t with cells := overlay es t.cells } := by
  unfold Tensor.withCodes
  rw [h]
  rfl

/-! ## The codes of a new tensor (R60, R65) -/

theorem denseUnits_rising (f : Tag) (bytes x : Nat) : ((denseUnits f bytes x).map Prod.fst).Pairwise (· < ·) := by
  refine filter_keys_rising ?_ _
  rw [List.map_map]
  exact (List.map_id _).symm ▸ List.pairwise_lt_range

theorem denseUnits_get (f : Tag) (bytes x k : Nat) : (overlay (denseUnits f bytes x) []).get 0 k =
    if k < bytes * 8 / unitBits f then fieldN x (k * unitBits f) (unitBits f) else 0 := by
  have hmem (e : Nat × Nat) : e ∈ denseUnits f bytes x ↔
      e.1 < bytes * 8 / unitBits f ∧ e.2 = fieldN x (e.1 * unitBits f) (unitBits f) ∧ e.2 ≠ 0 := by
    obtain ⟨n, v⟩ := e
    simp only [denseUnits, List.mem_filter, List.mem_map, List.mem_range, Prod.mk.injEq, decide_eq_true_eq]
    constructor
    · rintro ⟨⟨_, hn, rfl, rfl⟩, hv⟩
      exact ⟨hn, rfl, hv⟩
    · rintro ⟨hn, rfl, hv⟩
      exact ⟨⟨n, hn, rfl, rfl⟩, hv⟩
  by_cases hk : k ∈ (denseUnits f bytes x).map Prod.fst
  · obtain ⟨e, he, rfl⟩ := List.mem_map.1 hk
    obtain ⟨hlt, hv, -⟩ := (hmem e).1 he
    rw [overlay_get_mem (denseUnits_rising f bytes x) [] he, if_pos hlt, hv]
  · have hzero : k < bytes * 8 / unitBits f → fieldN x (k * unitBits f) (unitBits f) = 0 := fun hlt =>
      by_contra fun hv => hk (List.mem_map.2 ⟨(k, _), (hmem (k, _)).2 ⟨hlt, rfl, hv⟩, rfl⟩)
    rw [overlay_get_other (denseUnits_rising f bytes x) [] hk]
    split
    · next hlt => exact (hzero hlt).symm
    · rfl

/-- A SPARSE tensor without codes expands to nothing, also where it has no unit in a row. -/
theorem Tensor.sparseCode_empty {t : Tensor} (h : t.cells = []) (k : Nat) : t.sparseCode k = 0 := by
  unfold Tensor.sparseCode
  dsimp only
  rw [sparseExpand_packed]
  unfold Tensor.sparseGroup
  simp only [h, SMap.get, List.map_const', List.getD_eq_getElem?_getD, List.getElem?_replicate]
  split <;> rfl

/-! ## An entry in a representation of its own (R60, R63) -/

/-- The entry that a TALLOC makes, at its place. -/
def newAt (old : Tensor) (f : Tag) (d : AllocDesc) (T : Nat) (h : Home) : Tensor := (newEntry old f d T 0).putAt h

theorem State.placeTensor_cls {s : State} {j cls form hint : Nat} {t : Tensor} {stack : Option Nat} {h : Home}
    (hh : s.placeTensor j t cls form hint stack = some h) : h.cls = cls := by
  unfold State.placeTensor at hh
  extract_lets m room used at hh
  split at hh
  · cases hh
  · split at hh
    · cases hh
    · obtain ⟨_, -, rfl⟩ := Option.map_eq_some_iff.1 hh
      rfl

/-- A tensor whose place the manager picks lies in a class that its mask permits. -/
theorem State.placePick_cls {s : State} {j pick hint : Nat} {t : Tensor} {h : Home} (hh : s.placePick j t pick hint = some h) :
    h.cls = classFor t.tag t.caps (pick % 16) := State.placeTensor_cls hh

/-- A stash image takes no form but its own. -/
theorem classFor_stash {f : Tag} (hf : (sgGrade f).isSome = true) (caps cls : Nat) : classFor f caps cls = 6 := by
  unfold classFor classOk
  simp only [hf, if_true, decide_eq_true_eq]
  split <;> [assumption; rfl]

/-- A tensor with no unit in a row has no data. -/
theorem dataBytes_narrow {f : Tag} {rows cols pages : Nat} (hf : (sgGrade f).isSome = false) (h : cols / unitCols f = 0) :
    dataBytes f rows cols pages = 0 := by
  unfold dataBytes
  rw [Option.isSome_eq_false_iff, Option.isNone_iff_eq_none] at hf
  simp [hf, h]

section
variable {s : State} {j n T data : Nat} {old : Tensor} {d : AllocDesc} {f : Tag} {h : Home}

theorem newAt_form_stash (hf : (sgGrade f).isSome = true) (hc : h.cls = classFor f d.caps n) : (newAt old f d T h).form = 6 := by
  rw [classFor_stash hf] at hc
  unfold Tensor.form
  have hcls : (newAt old f d T h).cls = 6 := hc
  rw [hcls]
  rfl

/-- The codes of a new tensor are those of its dense image, and 0 where that has none. -/
theorem newAt_codeNow (hp : d.caps.testBit 17 = false) (hc : h.cls = classFor f d.caps n) (k : Nat) :
    s.codeNow j { newAt old f d T h with cells := overlay (denseUnits f (dataBytes f d.rows d.cols d.pages) data) [] } k =
      if k < dataBytes f d.rows d.cols d.pages * 8 / unitBits f then fieldN data (k * unitBits f) (unitBits f) else 0 := by
  by_cases hu : (newAt old f d T h).form = 3 ∧ (newAt old f d T h).upr = 0
  · obtain ⟨h3, h0⟩ := hu
    have hf : (sgGrade f).isSome = false := by
      by_contra hsome
      have := h3.symm.trans (newAt_form_stash (Bool.eq_true_of_not_eq_false hsome) hc)
      omega
    have hcols : (d.cols - 1 + 1) / unitCols f = 0 := h0
    have hbytes : dataBytes f d.rows d.cols d.pages = 0 :=
      dataBytes_narrow hf (Nat.eq_zero_of_le_zero (hcols ▸ Nat.div_le_div_right (by omega)))
    rw [hbytes]
    unfold State.codeNow
    rw [if_neg (by exact ne_true_of_eq_false hp), if_pos (by exact h3),
      Tensor.sparseCode_empty (by simp [denseUnits, overlay, union, unionMap])]
    simp
  · rw [State.codeNow_stored (t := { newAt old f d T h with cells := overlay (denseUnits f _ data) [] }) hp
      (fun h3 => Nat.pos_of_ne_zero fun h0 => hu ⟨h3, h0⟩)]
    exact denseUnits_get f _ data k

end

/-- The state with the entry in the table, before its contents. -/
def State.entered (s : State) (j i : Nat) (t : Tensor) : State := (s.modTensor j i fun _ => t).remark (s.tensor j i) t

section
variable {s : State} {j pts data i : Nat} {d : AllocDesc} {f : Tag} {k : AllocPick} {x : Job} {h : Home}
  (hx : s.job j = some x) (hi : freeEntry x.tensors k.at_ = some i) (hfull : k.full = 0) (hp : d.caps.testBit 17 = false)
  (hh : s.placePick j (newEntry (s.tensor j i) f d 0 0) k.cls k.base = some h)

include hx hi hfull hp hh in
theorem allocTensor_stored : let T := max pts ((s.tensor j i).hlast + 1)
    s.allocTensor j pts d f data k = ((s.entered j i (newAt (s.tensor j i) f d T h)).install j i T
      (denseUnits f (dataBytes f d.rows d.cols d.pages) data), i * 65536 + ((s.tensor j i).gen + 1), 0, T) := by
  intro T
  have hplace : s.allocPlace j d f k = .ok (s, i, 0, h) := by
    unfold State.allocPlace
    simp only [hx, hi, hfull, hp, hh]
    rfl
  simp only [State.allocTensor, hplace]
  exact congrArg (·, _) (if_neg (ne_true_of_eq_false hp))

include hx in
theorem State.entered_tensor (t : Tensor) : (∃ y, (s.entered j i t).job j = some y) ∧ (s.entered j i t).tensor j i = t ∧
    ∀ n, n ≠ i → (s.entered j i t).tensor j n = s.tensor j n := by
  have hjobs : (s.entered j i t).jobs = (s.modTensor j i fun _ => t).jobs := State.remark_jobs _ _ _
  refine ⟨⟨_, (congrArg (·.get none j) hjobs).trans (State.job_modTensor_self hx i _)⟩, ?_, fun n hn => ?_⟩
  · exact (State.tensor_congr hjobs j i).trans (State.tensor_modTensor_self hx i _)
  · exact (State.tensor_congr hjobs j n).trans (State.tensor_modTensor_ne hx hn _)

end

/-- What TALLOC leaves of an entry in a representation of its own, and of the other entries. -/
theorem allocTensor_spec {s : State} {j pts data i : Nat} {d : AllocDesc} {f : Tag} {k : AllocPick} {x : Job} {h : Home}
    (hx : s.job j = some x) (hi : freeEntry x.tensors k.at_ = some i) (hfull : k.full = 0) (hp : d.caps.testBit 17 = false)
    (hh : s.placePick j (newEntry (s.tensor j i) f d 0 0) k.cls k.base = some h) :
    let u := (s.allocTensor j pts d f data k).1
    u.tensor j i = { newAt (s.tensor j i) f d (max pts ((s.tensor j i).hlast + 1)) h with
      cells := overlay (denseUnits f (dataBytes f d.rows d.cols d.pages) data) [] } ∧
    ∀ n, n ≠ i → u.tensor j n = s.tensor j n := by
  intro u
  generalize hT : max pts ((s.tensor j i).hlast + 1) = T
  obtain ⟨⟨y, hy⟩, hentry, hothers⟩ := State.entered_tensor (i := i) hx (newAt (s.tensor j i) f d T h)
  have hplain : ((s.entered j i (newAt (s.tensor j i) f d T h)).tensor j i).plain = false := by
    rw [hentry]
    exact hp
  have hu : u = (s.entered j i (newAt (s.tensor j i) f d T h)).install j i T (denseUnits f (dataBytes f d.rows d.cols d.pages) data) :=
    hT ▸ congrArg Prod.fst (allocTensor_stored hx hi hfull hp hh)
  rw [hu]
  refine ⟨?_, fun n hn => (State.install_tensor_ne hy hplain hn).trans (hothers n hn)⟩
  rw [(State.install_tensor hy hplain).2, hentry]
  exact Tensor.withCodes_idle rfl T _ _

end Sys2Proof.Machine
end

section
/-! CERTIFICATE. TALLOC, TFREE and TINFO: what each does once its registers are read and its checks decided (R60, R62, R344, R345, R347). -/
namespace Sys2Proof.Machine

/-! ## Registers and handles -/

@[simp] theorem readG_apply (n : BitVec 5) (s : State) : readG n s = .ok (s.me.regs.readG n.toNat, s) := rfl
@[simp] theorem writeG_apply (n : BitVec 5) (v : Word) (s : State) : writeG n v s = .ok ((), s.modSlot s.cur fun x => x.putG n.toNat v) := rfl

theorem writeStatus_apply (st : BitVec 5) (v : Nat) (s : State) : writeStatus st v s =
    .ok ((), if st = 0 then s else s.modSlot s.cur fun x => x.putG st.toNat (BitVec.ofNat 64 v)) := by
  unfold writeStatus
  split <;> rfl

section
variable {s : State} {n : Nat} {t : Tensor}

theorem checkStale_live (ht : s.liveTensor (s.jobOf s.cur) n = some t) : checkStale n s = .ok (t, s) := by
  unfold checkStale
  rw [M.bind_ok (getS_apply _)]
  simp only [ht, M.pure_apply]

theorem notRefused_ok (hr : s.me.refusing = false) : notRefused n s = .ok ((), s) := by
  unfold notRefused
  rw [M.bind_ok (myself_apply _), hr]
  rfl

end

/-- An instruction that has not parked has kept nothing. -/
theorem myWait_fresh {s : State} (hw : s.me.wait = none) :
    myWait s = .ok ({ kind := .ready, instr := .nop, stamps := [], data := [], n := 0 }, s) := by
  rw [myWait_apply, hw]
  rfl

/-! ## TALLOC (R60, R344) -/

theorem allocKept_kept {s : State} {a : Word} {x : Nat} {w : Wait} (hw : s.me.wait = some w) (hx : w.data.get 0 1 = x + 1) :
    allocKept a s = .ok (x, s) := by
  unfold allocKept
  rw [M.bind_ok (myWait_apply _), hw]
  simp only [Option.getD_some, hx, M.pure_apply]

theorem allocKept_read {s s1 : State} {a : Word} {x : Nat} (hw : s.me.wait = none) (hc : checkLocal a.toNat 64 false s = .ok ((), s))
    (ha : a.toNat % 8 = 0) (hx : loadLocal a.toNat 64 s = .ok (x, s1)) (hd : descReserved x = false) : allocKept a s = .ok (x, s1) := by
  have haligned : aligned a.toNat 8 s = .ok ((), s) := by
    unfold aligned
    rw [if_pos (by exact_mod_cast ha)]
    rfl
  unfold allocKept
  rw [M.bind_ok (myWait_fresh hw)]
  change (do checkLocal a.toNat 64 false; aligned a.toNat 8; let x ← loadLocal a.toNat 64; ensure (!descReserved x) _; pure x : M Nat) s = _
  rw [M.bind_ok hc, M.bind_ok haligned, M.bind_ok hx, hd]
  rfl

/-- The address of the initial contents. -/
def initReg (l : BitVec 5) (s : State) : Option Word := if l = 0 then none else some (s.me.regs.readG l.toNat)

/-- What TALLOC does once its descriptor is there and fails a check with status `n`. -/
def refuseAlloc (h st : BitVec 5) (x n : Nat) : M Unit := do
  keepAlloc x
  await .stamp
  writeG h 0
  writeStatus st n

/-- The initial contents enter the scoreboard. -/
def enterInit (d : AllocDesc) (f : Tag) : Option Word → M Unit
  | none => pure ()
  | some y => boardEnter boardOp y.toNat (dataBytes f d.rows d.cols d.pages) false

/-- What it does for a descriptor that passes. -/
def takeAlloc (h st : BitVec 5) (x : Nat) (f : Tag) (init : Option Word) : M Unit := do
  enterInit (allocDesc x) f init
  keepAlloc x
  await .stamp
  let (hd, status) ← allocate (allocDesc x) f init
  boardDone
  writeG h (BitVec.ofNat 64 hd)
  writeStatus st status

/-- TALLOC once its descriptor is there, and the status of its checks is known. -/
def decideAlloc (h st : BitVec 5) (x n : Nat) (init : Option Word) : M Unit :=
  match tagOf (allocDesc x).fmt, n with
  | some f, 0 => takeAlloc h st x f init
  | _, _ => refuseAlloc h st x n

theorem talloc_decides {s s1 t : State} {h c l st : BitVec 5} {x : Nat} (hl : s.live) (hslot : tensorSlot s = .ok ((), s))
    (hx : allocKept (s.me.regs.readG c.toNat) s = .ok (x, s1))
    (hrun : decideAlloc h st x (allocStatus s1.cur (allocDesc x) (initReg l s1)) (initReg l s1) s1 = .ok ((), t)) :
    exec (.talloc h c l st) s = .next (t.advance (.talloc h c l st)) := by
  have hinit : (if l = 0 then pure none else do let y ← readG l; pure (some y) : M (Option Word)) s1 = .ok (initReg l s1, s1) := by
    unfold initReg
    split <;> rfl
  refine run_ok hl ?_
  rw [M.bind_ok hslot, M.bind_ok (readG_apply _ _), M.bind_ok hx, M.bind_ok hinit, M.bind_ok (getS_apply _)]
  exact hrun

section
variable {s s2 s3 : State} {h st : BitVec 5} {x : Nat}

theorem decideAlloc_refused {n : Nat} {init : Option Word} (hn : n ≠ 0) (hkeep : keepAlloc x s = .ok ((), s2))
    (hstamp : await .stamp s2 = .ok ((), s3)) :
    let u := s3.modSlot s3.cur fun k => k.putG h.toNat (BitVec.ofNat 64 0)
    decideAlloc h st x n init s = .ok ((), if st = 0 then u else u.modSlot u.cur fun k => k.putG st.toNat (BitVec.ofNat 64 n)) := by
  intro u
  have hrefuse : decideAlloc h st x n init = refuseAlloc h st x n := by
    obtain ⟨m, rfl⟩ := Nat.exists_eq_succ_of_ne_zero hn
    unfold decideAlloc
    cases tagOf (allocDesc x).fmt <;> rfl
  rw [hrefuse]
  unfold refuseAlloc
  rw [M.bind_ok hkeep, M.bind_ok hstamp, M.bind_ok (writeG_apply _ _ _)]
  exact writeStatus_apply st n u

theorem decideAlloc_taken {f : Tag} {init : Option Word} {hd n : Nat} {s1 s4 s5 : State} (hf : tagOf (allocDesc x).fmt = some f)
    (hboard : enterInit (allocDesc x) f init s = .ok ((), s1))
    (hkeep : keepAlloc x s1 = .ok ((), s2)) (hstamp : await .stamp s2 = .ok ((), s3))
    (halloc : allocate (allocDesc x) f init s3 = .ok ((hd, n), s4)) (hdone : boardDone s4 = .ok ((), s5)) :
    let u := s5.modSlot s5.cur fun k => k.putG h.toNat (BitVec.ofNat 64 hd)
    decideAlloc h st x 0 init s = .ok ((), if st = 0 then u else u.modSlot u.cur fun k => k.putG st.toNat (BitVec.ofNat 64 n)) := by
  intro u
  unfold decideAlloc
  rw [hf]
  change takeAlloc h st x f init s = _
  unfold takeAlloc
  rw [M.bind_ok hboard, M.bind_ok hkeep, M.bind_ok hstamp, M.bind_ok halloc]
  refine (M.bind_ok hdone).trans ?_
  rw [M.bind_ok (writeG_apply _ _ _), writeStatus_apply]

end

/-! ## TFREE (R62, R345) -/

theorem tfree_frees {s s1 s2 : State} {h : SReg} {x : Word} {t : Tensor} {T : Nat} (hl : s.live) (hslot : tensorSlot s = .ok ((), s))
    (hx : readSR 0 h s = .ok (x, s1)) (ht : s1.liveTensor (s1.jobOf s1.cur) (handleIn x) = some t) (hr : s1.me.refusing = false)
    (hT : stampHandle 0 (handleIn x) (handleIn x) 0 .free Tensor.allExt s1 = .ok (T, s2)) :
    let u := s2.modTensor (s2.jobOf s2.cur) (handleIn x / 65536) Tensor.freed
    exec (.tfree h) s = .next ((u.settleIf (u.jobOf u.cur) (handleIn x / 65536)).advance (.tfree h)) := by
  refine run_ok hl ?_
  rw [M.bind_ok hslot, M.bind_ok hx, M.bind_ok (checkStale_live ht), M.bind_ok (notRefused_ok hr), M.bind_ok hT]
  exact M.bind_ok (modEntry_apply _ _ _)

/-! ## TINFO (R53, R347) -/

theorem tinfo_hidden {s : State} {h l : SReg} {w : BitVec 3} (hl : s.live) (hs : isService s.cur = false) (hw : 4 ≤ w.toNat) :
    exec (.tinfo h l w) s = .next (s.trapMe 1 8) := by
  refine run_trap hl ?_
  rw [M.bind_ok (getS_apply _), hs, decide_eq_false (Nat.not_lt.2 hw)]
  rfl

theorem tinfo_reads {s s1 s2 s3 s4 s5 s6 : State} {h l : SReg} {w : BitVec 3} {x v : Word} {t : Tensor} {T : Nat} (hl : s.live)
    (hw : isService s.cur = true ∨ (tensorSlot s = .ok ((), s) ∧ w.toNat < 4)) (hx : readSR 0 h s = .ok (x, s1))
    (ht : s1.liveTensor (s1.jobOf s1.cur) (handleIn x) = some t) (hr : s1.me.refusing = false)
    (hT : stampHandle 0 (handleIn x) (handleIn x) 0 .reader (fun _ => []) s1 = .ok (T, s2))
    (hword : keptWord (handleIn x) w.toNat s2 = .ok (v, s3)) (hturn : opTurn (handleIn x) T s3 = .ok ((), s4))
    (hretire : retireOp (handleIn x) T s4 = .ok ((), s5)) (hdest : writeSR l v s5 = .ok ((), s6)) :
    exec (.tinfo h l w) s = .next (s6.advance (.tinfo h l w)) := by
  have hshown : (decide (w.toNat < 4) || isService s.cur) = true := by
    obtain h | ⟨-, h⟩ := hw <;> simp [h]
  have hslot (m : Unit → M Unit) : (if isService s.cur then m () else tensorSlot >>= m) s = m () s := by
    split
    · rfl
    · next hs => exact M.bind_ok (hw.resolve_left hs).1
  refine run_ok hl ?_
  rw [M.bind_ok (getS_apply _), hshown, ensure_true, M.bind_ok (M.pure_apply _ _)]
  refine (hslot _).trans ((M.bind_ok hx).trans ?_)
  rw [M.bind_ok (checkStale_live ht), M.bind_ok (notRefused_ok hr), M.bind_ok hT, M.bind_ok hword, M.bind_ok hturn,
    M.bind_ok hretire]
  exact hdest

/-- What a slot keeps while it waits is not among its bytes and registers. -/
theorem keepWait_still (f : Wait → Wait) (s : State) : ∃ t, keepWait f s = .ok ((), t) ∧ still s t :=
  ⟨_, keepWait_apply f s, still_modSlot s _ _ fun _ => ⟨rfl, rfl, rfl, rfl⟩⟩

theorem keptWord_fresh {s : State} {n w : Nat} {k : Wait} (hk : s.me.wait = some k) (hz : k.data.get 0 2 = 0) :
    ∃ t, keptWord n w s = .ok ((s.tensor (s.jobOf s.cur) (n / 65536)).word w, t) ∧ still s t := by
  obtain ⟨t, hkeep, hstill⟩ := keepWait_still (fun k => { k with
    data := k.data.set 0 2 (((s.tensor (s.jobOf s.cur) (n / 65536)).word w).toNat + 1) }) s
  refine ⟨t, ?_, hstill⟩
  unfold keptWord
  rw [M.bind_ok (myWait_apply _), hk]
  simp only [Option.getD_some, hz]
  rw [M.bind_ok (show entry n s = .ok (s.tensor (s.jobOf s.cur) (n / 65536), s) from rfl), M.bind_ok hkeep, M.pure_apply]

end Sys2Proof.Machine
end

section
/-! CERTIFICATE. TWIDEN: the status of its checks, its stamp, and the bits that CAPS gains (R61, R67, R70, R346). -/
namespace Sys2Proof.Machine

/-! ## Masks -/

theorem and_mod_two_le (m c : Nat) : (m &&& c) % 2 ≤ m % 2 :=
  calc (m &&& c) % 2 = m % 2 &&& c % 2 := Nat.and_mod_two_pow (n := 1)
    _ ≤ m % 2 := Nat.and_le_left

/-- Taking some of the bits of a mask away leaves no bit that it has not. -/
theorem testBit_sub_and {m c b : Nat} (h : (m - (m &&& c)).testBit b = true) : m.testBit b = true := by
  have hlow := and_mod_two_le m c
  have hle : m &&& c ≤ m := Nat.and_le_left
  induction b generalizing m c with
  | zero =>
    rw [Nat.testBit_zero, decide_eq_true_iff] at h ⊢
    omega
  | succ b ih =>
    have hhalf : (m - (m &&& c)) / 2 = m / 2 - (m / 2 &&& c / 2) := by
      rw [← Nat.and_div_two]
      omega
    rw [Nat.testBit_add_one] at h ⊢
    exact ih (hhalf ▸ h) (and_mod_two_le _ _) Nat.and_le_left

/-- The bits that a widening adds are in its mask. -/
theorem or_missing (c m : Nat) : c ||| m ||| (m - (m &&& c)) = c ||| m := by
  refine Nat.eq_of_testBit_eq fun b => ?_
  rw [Nat.testBit_or (c ||| m)]
  cases hb : (m - (m &&& c)).testBit b with
  | false => exact Bool.or_false _
  | true => rw [Bool.or_true, Nat.testBit_or, testBit_sub_and hb, Bool.or_true]

/-! ## The status of the checks (R70, R346) -/

section
variable {t : Tensor} {m : Nat} (hm : m ≠ 0)
include hm

theorem widenStatus_reserved (hbig : 2 ^ 18 ≤ m) : widenStatus t m = 2 := by
  unfold widenStatus
  rw [if_neg hm, if_pos hbig]

variable (hsmall : m < 2 ^ 18)
include hsmall

theorem widenStatus_combination (h : m.testBit 17 = true ∨ combineOk t.tag (t.caps ||| m) = false) : widenStatus t m = 5 := by
  unfold widenStatus
  rw [if_neg hm, if_neg (Nat.not_le.2 hsmall)]
  split
  · rfl
  · next hplain => rw [h.resolve_left hplain]; rfl

theorem widenStatus_passes (hplain : m.testBit 17 = false) (h : combineOk t.tag (t.caps ||| m) = true) : widenStatus t m = 0 := by
  unfold widenStatus
  rw [if_neg hm, if_neg (Nat.not_le.2 hsmall), hplain, h]
  rfl

end

/-! ## The instruction -/

/-- TWIDEN from its stamp on, once its mask has passed the checks. -/
def widenPassed (n m : Nat) (st : BitVec 5) (wait : Bool) : M Unit := do
  let (status, T) ← stampWiden n m
  match T with
  | none => writeStatus st status
  | some T => do
    let status ← widenRun n T wait
    writeStatus st status

/-- TWIDEN with a mask, at its ordering point. -/
def widenChecked (n m : Nat) (st : BitVec 5) (wait : Bool) : M Unit := do
  await .stamp
  let s ← getS
  ensure (s.routedIn (atCore s.cur)) (noRoute 1 n)
  let t ← checkStale n
  match widenStatus t m with
  | 0 => widenPassed n m st wait
  | k => writeStatus st k

theorem await_leaves {k : WaitKind} {s u : State} (h : await k s = .ok ((), u)) : u = s ∨ u = { s with grant := none } := by
  unfold await at h
  split at h
  · cases h; exact .inr rfl
  · split at h
    · cases h; exact .inl rfl
    · cases h

theorem liveTensor_await {k : WaitKind} {s u : State} (h : await k s = .ok ((), u)) (n : Nat) :
    u.liveTensor (u.jobOf u.cur) n = s.liveTensor (s.jobOf s.cur) n := by
  obtain rfl | rfl := await_leaves h <;> rfl

section
variable {s s1 s2 t : State} {h c : SReg} {st : BitVec 5} {wait : Bool} {x y : Word} {e : Tensor} (hl : s.live)
  (hslot : tensorSlot s = .ok ((), s)) (hx : readSR 0 h s = .ok (x, s1)) (hy : readSR 1 c s1 = .ok (y, s2)) (hw : s2.me.wait = none)
  (he : s2.liveTensor (s2.jobOf s2.cur) (handleIn x) = some e) (hr : s2.me.refusing = false)
include hl hslot hx hy hw he hr

theorem twiden_runs (hrun : (if y.toNat % 2 ^ 32 = 0 then writeStatus st 1 else widenChecked (handleIn x) (y.toNat % 2 ^ 32) st wait) s2 =
    .ok ((), t)) : exec (.twiden h c st wait) s = .next (t.advance (.twiden h c st wait)) := by
  refine run_ok hl ?_
  rw [M.bind_ok hslot, M.bind_ok hx, M.bind_ok hy]
  refine (M.bind_ok (myWait_fresh hw)).trans ?_
  refine (M.bind_ok (checkStale_live he)).trans ((M.bind_ok (notRefused_ok hr)).trans ?_)
  exact hrun

end

section
variable {s u : State} {n m : Nat} {st : BitVec 5} {wait : Bool} {e : Tensor} (ha : await .stamp s = .ok ((), u))
  (hroute : u.routedIn (atCore u.cur) = true) (he : s.liveTensor (s.jobOf s.cur) n = some e)
include ha hroute he

theorem widenChecked_refused {k : Nat} (hk : widenStatus e m = k + 1) : widenChecked n m st wait s = writeStatus st (k + 1) u := by
  unfold widenChecked
  rw [M.bind_ok ha, M.bind_ok (getS_apply _), hroute, ensure_true, M.bind_ok (M.pure_apply _ _),
    M.bind_ok (checkStale_live ((liveTensor_await ha n).trans he)), hk]
  rfl

theorem widenChecked_passes (hk : widenStatus e m = 0) : widenChecked n m st wait s = widenPassed n m st wait u := by
  unfold widenChecked
  rw [M.bind_ok ha, M.bind_ok (getS_apply _), hroute, ensure_true, M.bind_ok (M.pure_apply _ _),
    M.bind_ok (checkStale_live ((liveTensor_await ha n).trans he)), hk]
  rfl

end

section
variable {s u v : State} {n m k : Nat} {st : BitVec 5} {wait : Bool}

theorem widenPassed_unstamped (h : stampWiden n m s = .ok ((k, none), u)) : widenPassed n m st wait s = writeStatus st k u := by
  unfold widenPassed
  rw [M.bind_ok h]

theorem widenPassed_stamped {T r : Nat} (h : stampWiden n m s = .ok ((k, some T), u)) (hrun : widenRun n T wait u = .ok (r, v)) :
    widenPassed n m st wait s = writeStatus st r v := by
  unfold widenPassed
  rw [M.bind_ok h]
  exact M.bind_ok hrun

end

/-! ## The stamp (R67, R70) -/

/-- A choice of the manager that only some widenings need. -/
def pickFor (add : Nat) : M Nat := if add = 0 then pure 0 else pick

theorem pickFor_picks (add : Nat) (s : State) : ∃ p l, pickFor add s = .ok (p, { s with picks := l }) := by
  unfold pickFor
  split
  · exact ⟨0, s.picks, rfl⟩
  · exact ⟨_, _, rfl⟩

/-- The entry with a widening queued at its stamp: the next conversion begins where none is in progress. -/
def Tensor.widened (t : Tensor) (T tid m add : Nat) (home : Option Home) : Tensor :=
  (({ (t.queue T tid .widen [] add) with caps := t.caps ||| m } : Tensor).modOp T fun o =>
    { o with home := if add = 0 then none else home }).startNext

/-- The state with that stamp taken. -/
def State.widenStamped (s : State) (n m T add : Nat) (home : Option Home) : State :=
  ((s.modTensor (s.jobOf s.cur) (n / 65536) fun t => t.widened T s.cur m add home).modSlot s.cur
    fun x => { x with pts := max x.pts T }).modSlot s.cur fun x =>
      { x with wait := some ((fun w => { w with stamps := [T] })
        (x.wait.getD { kind := .ready, instr := .nop, stamps := [], data := [], n := 0 })) }

/-- A widening with bits to add and no memory for them has no stamp; every other takes one. -/
theorem stampWiden_cases (s : State) (n m : Nat) :
    let t := s.tensor (s.jobOf s.cur) (n / 65536)
    let add := m - (m &&& t.caps)
    let T := max s.me.pts (t.hlast + 1)
    ∃ l home, let u : State := { s with picks := l }
      stampWiden n m s = if add ≠ 0 ∧ home = none then .ok ((7, none), u) else .ok ((0, some T), u.widenStamped n m T add home) := by
  intro t add T
  obtain ⟨full, l1, h1⟩ := pickFor_picks add s
  obtain ⟨cls, l2, h2⟩ := pickFor_picks add { s with picks := l1 }
  obtain ⟨hint, l3, h3⟩ := pickFor_picks add { s with picks := l2 }
  refine ⟨l3, if full ≠ 0 then none else s.placePick (s.jobOf s.cur) { t with caps := t.caps ||| m } cls hint, ?_⟩
  intro u
  unfold stampWiden
  rw [M.bind_ok (getS_apply _), M.bind_ok (show entry n s = .ok (t, s) from rfl)]
  refine (M.bind_ok h1).trans ((M.bind_ok h2).trans ((M.bind_ok h3).trans ?_))
  generalize (if full ≠ 0 then none else s.placePick (s.jobOf s.cur) { t with caps := t.caps ||| m } cls hint) = home
  by_cases hnone : add ≠ 0 ∧ home = none
  · exact (congrFun (if_pos hnone) u).trans (if_pos hnone).symm
  · refine (congrFun (if_neg hnone) u).trans (Eq.trans ?_ (if_neg hnone).symm)
    rw [M.bind_ok (modEntry_apply _ _ _), M.bind_ok (mergePts_apply _ _), M.bind_ok (keepWait_apply _ _), State.modSlot_cur,
      State.modTensor_cur]
    rfl

/-! ## The bits that CAPS gains (R61, R70) -/

/-- A conversion that begins puts its own bits in CAPS; no other field of R53 but ST changes. -/
theorem Tensor.startNext_caps (t : Tensor) : t.startNext.hlast = t.hlast ∧
    (t.startNext.caps = t.caps ∨ ∃ o ∈ t.ops, o.kind = .widen ∧ t.startNext.caps = t.caps ||| o.caps) := by
  unfold Tensor.startNext
  split
  · next o _ hfound =>
    split
    · exact ⟨rfl, .inl rfl⟩
    · have hwiden := List.find?_some hfound
      simp only [Bool.and_eq_true, decide_eq_true_eq] at hwiden
      exact ⟨rfl, .inr ⟨o, List.mem_of_find?_eq_some hfound, hwiden.1.1, rfl⟩⟩
  · exact ⟨rfl, .inl rfl⟩

section
variable (t : Tensor) (T tid m : Nat) (home : Option Home)

theorem Tensor.widened_hlast (add : Nat) : (t.widened T tid m add home).hlast = T := (Tensor.startNext_caps _).1

theorem Tensor.widened_caps_superset (add b : Nat) (hb : (t.caps ||| m).testBit b = true) :
    (t.widened T tid m add home).caps.testBit b = true := by
  obtain ⟨-, h | ⟨o, -, -, h⟩⟩ := Tensor.startNext_caps (({ (t.queue T tid .widen [] add) with caps := t.caps ||| m } : Tensor).modOp T
    fun o => { o with home := if add = 0 then none else home })
  · exact (congrArg (·.testBit b) h).trans hb
  · refine (congrArg (·.testBit b) h).trans ?_
    rw [Nat.testBit_or]
    exact Bool.or_eq_true_iff.2 (.inl hb)

/-- Where no other widening is queued, CAPS gains the bits of the mask and no others. -/
theorem Tensor.widened_caps_alone (h : ∀ o ∈ t.ops, o.kind ≠ .widen) :
    (t.widened T tid m (m - (m &&& t.caps)) home).caps = t.caps ||| m := by
  obtain ⟨-, hc | ⟨o, ho, hk, hc⟩⟩ := Tensor.startNext_caps (({ (t.queue T tid .widen [] (m - (m &&& t.caps))) with
    caps := t.caps ||| m } : Tensor).modOp T fun o => { o with home := if m - (m &&& t.caps) = 0 then none else home })
  · exact hc
  · have hadd : o.caps = m - (m &&& t.caps) := by
      obtain ⟨q, hq, rfl⟩ := List.mem_map.1 ho
      obtain hq | hq := List.mem_append.1 hq
      · exact absurd ((by split at hk <;> exact hk : q.kind = .widen)) (h q hq)
      · rw [List.mem_singleton.1 hq]
        split <;> rfl
    exact hc.trans ((congrArg (t.caps ||| m ||| ·) hadd).trans (or_missing t.caps m))

end

theorem State.widenStamped_pts (s : State) (n m T add : Nat) (home : Option Home) :
    ((s.widenStamped n m T add home).slot s.cur).pts = max s.me.pts T := by
  simp [State.widenStamped, State.me]

theorem stampWiden_refused {s u : State} {n m v : Nat} (h : stampWiden n m s = .ok ((v, none), u)) :
    v = 7 ∧ (u.slot s.cur).pts = s.me.pts ∧ ∀ j i, u.tensor j i = s.tensor j i := by
  obtain ⟨l, home, hcases⟩ := stampWiden_cases s n m
  rw [hcases] at h
  split at h
  · cases h
    exact ⟨rfl, rfl, fun _ _ => rfl⟩
  · cases h

theorem stampWiden_stamped {s u : State} {n m v T : Nat} {x : Job} (hx : s.job (s.jobOf s.cur) = some x)
    (h : stampWiden n m s = .ok ((v, some T), u)) :
    let t := s.tensor (s.jobOf s.cur) (n / 65536)
    v = 0 ∧ T = max s.me.pts (t.hlast + 1) ∧ (u.slot s.cur).pts = T ∧
      ∃ home, u.tensor (s.jobOf s.cur) (n / 65536) = t.widened T s.cur m (m - (m &&& t.caps)) home := by
  intro t
  obtain ⟨l, home, hcases⟩ := stampWiden_cases s n m
  rw [hcases] at h
  split at h
  · cases h
  · cases h
    refine ⟨rfl, rfl, ?_, home, ?_⟩
    · exact (State.widenStamped_pts { s with picks := l } _ _ _ _ _).trans (max_eq_right (le_max_left _ _))
    · exact State.tensor_modTensor_self (s := { s with picks := l }) hx _ _

end Sys2Proof.Machine
end

section
/-! CERTIFICATE. The instructions on the tensor table together (R53, R60-R62, R70, R344-R347). -/
namespace Sys2Proof.Machine

theorem Tensor.startRerep_spec (t : Tensor) (T add : Nat) (h : Home) : (t.startRerep T add h).caps = t.caps ||| add ∧
    (t.st = 1 → (t.startRerep T add h).st = 2) ∧
    (t.startRerep T add h).rerep = some { tc := T, add := add, home := h, ready := false } ∧
    (t.startRerep T add h).cells = t.cells ∧ (t.startRerep T add h).log = t.log := by
  refine ⟨rfl, fun ht => ?_, rfl, rfl, rfl⟩
  unfold Tensor.startRerep
  exact if_neg (by omega)

theorem Tensor.word_fields {t : Tensor} {f : Tag} (hf : t.fmt = some f) :
    t.word 0 = BitVec.ofNat 64 (t.gen * 2 ^ 48 + tagCode f * 2 ^ 40 + t.scl * 2 ^ 37 + t.st * 2 ^ 35 + t.caps) := by
  unfold Tensor.word
  rw [hf]
  rfl

/-- Settles O50: a TALLOC is what `talloc_decides` says of its descriptor, and leaves what `allocTensor_spec` says; the bits that a TWIDEN
adds follow from `stampWiden_stamped`; TFREE and TINFO run their parts in turn. -/
theorem tensorTable : Obligations.TensorTable := by
  unfold Obligations.TensorTable
  refine ⟨?_, ?_, ?_, fun s j pts d f data k => allocTensor_noEntry, fun s j pts d f data k x i => allocTensor_noMemory, ?_, ?_, ?_, ?_,
    Tensor.startRerep_spec, ?_, ?_, ?_, ?_⟩
  · intro s h c l st x s1 s2 hl hslot hw a init hc ha hx hregs hd put
    have hkept := allocKept_read hw hc ha hx hd
    have hinit : init = initReg l s1 := by
      unfold initReg
      rw [hregs]
    rw [hinit]
    refine ⟨fun n s3 hn hne hkeep hstamp => ?_, fun f s3 s4 hd n s5 s6 hf hn hboard hkeep hstamp halloc hdone => ?_⟩
    · subst hn
      exact talloc_decides hl hslot hkept (decideAlloc_refused hne hkeep hstamp)
    · exact talloc_decides hl hslot hkept (hn ▸ decideAlloc_taken hf hboard hkeep hstamp halloc hdone)
  · exact fun s a x w hw hx => allocKept_kept hw hx
  · intro s j pts d f data k x i h hx hi hfull hp old hh T u
    obtain ⟨hentry, hothers⟩ := allocTensor_spec (pts := pts) (data := data) hx hi hfull hp hh
    obtain ⟨hst, hgen⟩ := freeEntry_free hx hi
    refine ⟨congrArg Prod.snd (allocTensor_stored hx hi hfull hp hh), hst, hgen, ?_⟩
    rw [show u.tensor j i = _ from hentry]
    exact ⟨rfl, rfl, rfl, rfl, rfl, rfl, rfl, rfl, rfl, hothers, newAt_codeNow hp (State.placePick_cls hh)⟩
  · intro s h x s1 t T s2 hl hslot hx _ n ht hr hT
    exact tfree_frees hl hslot hx ht hr hT
  · intro s h c st wait x s1 y s2 t hl hslot hx hy hw n m i put ht hr
    have hchecked {u : State} (hm : m ≠ 0) (hrun : widenChecked n m st wait s2 = .ok ((), u)) : exec i s = .next (u.advance i) :=
      twiden_runs hl hslot hx hy hw ht hr ((congrFun (if_neg hm) s2).trans hrun)
    refine ⟨fun hm => ?_, fun s3 hm ha hroute => ⟨fun hbig => ?_, fun hsmall hbad => ?_, fun hsmall hplain hok => ?_⟩⟩
    · exact twiden_runs hl hslot hx hy hw ht hr ((congrFun (if_pos hm) s2).trans (writeStatus_apply st 1 s2))
    · exact hchecked hm ((widenChecked_refused ha hroute ht (widenStatus_reserved hm hbig)).trans (writeStatus_apply st 2 s3))
    · exact hchecked hm ((widenChecked_refused ha hroute ht (widenStatus_combination hm hsmall hbad)).trans (writeStatus_apply st 5 s3))
    · have hpasses : widenChecked n m st wait s2 = widenPassed n m st wait s3 :=
        widenChecked_passes ha hroute ht (widenStatus_passes hm hsmall hplain hok)
      refine ⟨fun v s4 hnone => ?_, fun v T s4 r s5 hsome hrun => ?_⟩
      · exact hchecked hm (hpasses.trans ((widenPassed_unstamped hnone).trans (writeStatus_apply st v s4)))
      · exact hchecked hm (hpasses.trans ((widenPassed_stamped hsome hrun).trans (writeStatus_apply st r s5)))
  · exact fun s n m v t h => stampWiden_refused h
  · intro s n m v T t x j hx h
    obtain ⟨hv, hT, hpts, home, htensor⟩ := stampWiden_stamped hx h
    rw [htensor]
    exact ⟨hv, hT, Tensor.widened_hlast .., hpts, Tensor.widened_caps_superset _ _ _ _ _ _, Tensor.widened_caps_alone _ _ _ _ _⟩
  · intro s h l w x s1 t T s2 v s3 s4 s5 s6 hl hw hx n ht hr hT hword hturn hretire hdest
    exact tinfo_reads hl hw hx ht hr hT hword hturn hretire hdest
  · intro s n w k hk hz
    obtain ⟨t, ht, hbytes, hslots⟩ := keptWord_fresh (n := n) (w := w) hk hz
    exact ⟨t, ht, hbytes, hslots⟩
  · exact fun s h l w hl hs hslot hw => tinfo_hidden hl hs hw
  · exact fun t f hf => ⟨Tensor.word_fields hf, rfl, rfl, rfl, rfl, rfl, rfl, rfl⟩

end Sys2Proof.Machine
end

section
/-! CERTIFICATE. A load of a CACHED page through the L1, the L2 of the die and the home (R84, R86, R125). -/
namespace Sys2Proof.Machine

/-- Raising the PTS of one slot changes no register, special register or PC. -/
theorem slotsKept_modSlot_pts (s : State) (t : Nat) (f : Slot → Nat) : slotsKept s (s.modSlot t fun x => { x with pts := f x }) :=
  (still_modSlot s t (fun x => { x with pts := f x }) fun _ => ⟨rfl, rfl, rfl, rfl⟩).2

/-- A copy that fills a cache stands at its head, and only its dirty bits depend on what the cache held (R84). -/
theorem mem_putCopy_refill (l : List LineCopy) (holder : Bool) (k : LineCopy) :
    ∃ q ∈ putCopy l (refill l holder k), q.job = k.job ∧ q.line = k.line ∧ q.data = k.data ∧ q.wts = k.wts ∧ q.rts = k.rts ∧
      q.valid = k.valid :=
  ⟨refill l holder k, List.mem_cons_self, rfl, rfl, rfl, rfl, rfl, rfl⟩

/-- A request of another agent takes a line from its holder, but leaves both timestamps (R87, R134). -/
theorem Pair.published_stamps (p : Pair) (t : Nat) : (p.published t).wts = p.wts ∧ (p.published t).rts = p.rts := by
  unfold Pair.published
  dsimp only
  split_ifs <;> exact ⟨rfl, rfl⟩

/-- The fill of the LLC changes no slot, no pair, no orientation and no byte. -/
theorem State.llcFill_frame (s : State) (pa : Nat) (cols : Bool) :
    (s.llcFill pa cols).slots = s.slots ∧ (s.llcFill pa cols).pairs = s.pairs ∧ (s.llcFill pa cols).squares = s.squares ∧
      (s.llcFill pa cols).mem = s.mem := by
  unfold State.llcFill
  split
  · exact ⟨rfl, rfl, rfl, rfl⟩
  · split <;> exact ⟨rfl, rfl, rfl, rfl⟩

/-- The renewal at the home of a line for the issuing slot, at its timestamp (R125). -/
def State.renewed (s : State) (j pa kept : Nat) : State :=
  (s.renew j pa kept).1.modSlot s.cur fun x => { x with pts := (s.renew j pa kept).2.1 }

/-- What a load at the home of its line leaves of the PTS, of the pair and of memory, in terms of the state `s` before it (R125, R129). -/
def State.Renewed (s : State) (j pa : Nat) (t : State) : Prop :=
  (t.slot s.cur).pts = max s.me.pts (s.pairOf pa).wts ∧ (t.pairOf pa).wts = (s.pairOf pa).wts ∧
    (t.pairOf pa).rts = max (s.pairOf pa).rts (max s.me.pts (s.pairOf pa).wts + s.lease j) ∧ t.mem = s.mem

/-- What holds of the slots, the pairs and memory holds of every state that has the same. -/
theorem State.Renewed.congr {s t u : State} {j pa : Nat} (h : s.Renewed j pa t) (hslots : u.slots = t.slots) (hpairs : u.pairs = t.pairs)
    (hsq : u.squares = t.squares) (hmem : u.mem = t.mem) : s.Renewed j pa u := by
  obtain ⟨hpts, hwts, hrts, hm⟩ := h
  have hp : u.pairOf pa = t.pairOf pa := State.pairOf_congr hpairs hsq pa
  refine ⟨?_, hp ▸ hwts, hp ▸ hrts, hmem.trans hm⟩
  simpa only [State.slot, hslots] using hpts

theorem State.Renewed.llcFill {s t : State} {j pa : Nat} (h : s.Renewed j pa t) (cols : Bool) : s.Renewed j pa (t.llcFill pa cols) := by
  obtain ⟨hslots, hpairs, hsq, hmem⟩ := t.llcFill_frame pa cols
  exact h.congr hslots hpairs hsq hmem

/-- The renewal as a load of `s` sees it that has passed its waits and been counted. -/
theorem State.CountedTo.renewed {s w : State} (h : s.CountedTo w) (pa kept : Nat) :
    s.Renewed (s.jobOf s.cur) pa (w.renewed (s.jobOf s.cur) pa kept) := by
  obtain ⟨g, ds, rfl, -⟩ := h
  obtain ⟨hwts, hrts⟩ := (s.pairOf pa).published_stamps s.cur
  have hpair : (State.renewed { s with grant := g, dies := ds } (s.jobOf s.cur) pa kept).pairOf pa =
      { (s.pairOf pa).published s.cur with
        rts := max ((s.pairOf pa).published s.cur).rts (max s.me.pts ((s.pairOf pa).published s.cur).wts + s.lease (s.jobOf s.cur)) } :=
    State.pairOf_setPair _ _ _
  refine ⟨?_, ?_, ?_, rfl⟩
  · exact (congrArg Slot.pts (State.modSlot_slot_self _ _ _)).trans (congrArg (max s.me.pts) hwts)
  · rw [hpair]; exact hwts
  · rw [hpair]
    dsimp only
    rw [hwts, hrts]

section
variable {s : State} {pa n : Nat} (va : Nat) (hint : Bool)

/-- A copy in the L1 that serves the load (R125): nothing is asked of another agent. -/
theorem loadCached_l1 {k : LineCopy} (hl : isLocal s.cur = true)
    (hk : (s.core (coreOf s.cur)).l1.find? (fun k => k.serves (s.jobOf s.cur) pa n s.me.pts (s.lease (s.jobOf s.cur))) = some k) :
    ∃ w, s.CountedTo w ∧ loadCached pa va n hint s =
      .ok (rowBytes k.data pa n, w.modSlot w.cur fun x => { x with pts := max x.pts k.wts }) := by
  obtain ⟨q, w, hq, hw⟩ := sampled_counted (.refl s) va hint
  refine ⟨w, hw, ?_⟩
  unfold loadCached
  rw [M.bind_ok (getS_apply _)]
  dsimp only
  rw [if_pos hl, hk]
  dsimp only
  rw [M.bind_ok hq, M.bind_ok (mergePts_apply _ _), M.pure_apply]

/-- A copy in the L2 of the die that serves it: its lease comes to the L1 with its bytes (R84, R85, R125). -/
theorem loadCached_l2 {k : LineCopy} (hl : isLocal s.cur = true)
    (h1 : (s.core (coreOf s.cur)).l1.find? (fun k => k.serves (s.jobOf s.cur) pa n s.me.pts (s.lease (s.jobOf s.cur))) = none)
    (h2 : (s.die (dieOf s.cur)).l2.find? (fun k => k.serves (s.jobOf s.cur) pa n s.me.pts (s.lease (s.jobOf s.cur)) &&
      insideScope (s.pairOf pa) s.cur) = some k)
    (hg : s.prompt = true ∨ s.grant = some .load) (hm : s.moving pa = false) :
    ∃ w b, s.CountedTo w ∧ loadCached pa va n hint s =
      .ok (rowBytes k.data pa n, (w.modSlot w.cur fun x => { x with pts := max x.pts k.wts }).modCore (coreOf s.cur) fun x =>
        { x with l1 := putCopy x.l1 (refill x.l1 b k) }) := by
  obtain ⟨u, ha, hu⟩ := await_counted hg
  obtain ⟨q, w, hq, hw⟩ := sampled_counted hu va hint
  refine ⟨w, (w.pairOf pa).heldBy 1 (coreOf s.cur), hw, ?_⟩
  unfold loadCached
  rw [M.bind_ok (getS_apply _)]
  dsimp only
  rw [if_pos hl, h1]
  dsimp only
  rw [M.bind_ok (entryReady_ok _ hm), M.bind_ok ha, h2]
  dsimp only
  rw [M.bind_ok hq, M.bind_ok (mergePts_apply _ _), M.bind_ok (modS_apply _ _), M.pure_apply]
  rfl

/-- A load that asks the home: where no cache of the slot serves it, and for a near core and a far slot always (R84, R125). -/
theorem loadCached_home
    (hc : isLocal s.cur = true →
      (s.core (coreOf s.cur)).l1.find? (fun k => k.serves (s.jobOf s.cur) pa n s.me.pts (s.lease (s.jobOf s.cur))) = none ∧
      (s.die (dieOf s.cur)).l2.find? (fun k => k.serves (s.jobOf s.cur) pa n s.me.pts (s.lease (s.jobOf s.cur)) &&
        insideScope (s.pairOf pa) s.cur) = none)
    (hg : s.prompt = true ∨ s.grant = some .load) (hm : s.moving pa = false)
    (hr : s.ownLine pa = true ∨ s.routed (atCore s.cur) pa = true) :
    ∃ t, loadCached pa va n hint s = .ok (readN s.mem pa n, t) ∧ s.Renewed (s.jobOf s.cur) pa t := by
  obtain ⟨u, ha, hu⟩ := await_counted hg
  obtain ⟨q, w, hq, hw⟩ := sampled_counted hu va hint
  have hru : s.routed (atCore s.cur) pa = true → u.routed (atCore u.cur) pa = true := by
    obtain ⟨g, ds, rfl, -⟩ := hu
    exact id
  unfold loadCached
  rw [M.bind_ok (getS_apply _)]
  dsimp only
  by_cases hl : isLocal s.cur = true
  · obtain ⟨h1, h2⟩ := hc hl
    have hroute : ∀ m : M Nat, (if s.ownLine pa = true then m else checkRoute pa va >>= fun _ => m) u = m u := by
      intro m
      split
      · rfl
      · next ho => exact M.bind_ok (checkRoute_ok (hru (hr.resolve_left ho)))
    rw [if_pos hl, h1]
    dsimp only
    rw [M.bind_ok (entryReady_ok _ hm), M.bind_ok ha, h2]
    dsimp only
    rw [hroute, M.bind_ok hq, M.bind_ok (modS_apply _ _), M.pure_apply]
    have hfill : s.Renewed (s.jobOf s.cur) pa ((w.renewed (s.jobOf s.cur) pa q).fillBoth (coreOf s.cur) (w.renew (s.jobOf s.cur) pa q).2.2) :=
      (hw.renewed pa q).congr rfl rfl rfl rfl
    refine ⟨_, rfl, ?_⟩
    split
    · exact hfill
    · exact hfill.llcFill false
  · have hown : ¬ s.ownLine pa = true := by simp [State.ownLine, hl]
    rw [if_neg hl, M.bind_ok (entryReady_ok _ hm), M.bind_ok ha, M.bind_ok (checkRoute_ok (hru (hr.resolve_left hown))), M.bind_ok hq,
      M.bind_ok (modS_apply _ _), M.pure_apply]
    exact ⟨_, rfl, (hw.renewed pa 0).llcFill false⟩

end

/-- What a load from a cache leaves, where its copy carries `wts`: the PTS of the issuing slot alone has changed of what is listed. -/
theorem State.CountedTo.merged {s w : State} (h : s.CountedTo w) (wts : Nat) :
    let t := w.modSlot w.cur fun x => { x with pts := max x.pts wts }
    (t.slot s.cur).pts = max s.me.pts wts ∧ t.mem = s.mem ∧ t.pairs = s.pairs ∧ slotsKept s t := by
  obtain ⟨g, ds, rfl, -⟩ := h
  exact ⟨congrArg Slot.pts (State.modSlot_slot_self _ _ _), rfl, rfl, slotsKept_modSlot_pts _ s.cur fun x => max x.pts wts⟩

/-- Settles O31: behind its checks a load is `loadCached`, which reads the L1, then the L2 of the die, then the home. -/
theorem cachedLoads : Obligations.CachedLoads := by
  unfold Obligations.CachedLoads
  intro s pa va n hint hp hb hlost j hit near took
  have hload : loadT (.cached pa va) n hint s = loadCached pa va n hint s := M.bind_ok (checkPoison_readable hp hb hlost)
  rw [hload]
  refine ⟨fun k hl hk => ?l1, fun k hl h1 h2 hg hm => ?l2, fun hc hg hm hr => loadCached_home va hint hc hg hm hr⟩
  case l1 =>
    obtain ⟨w, hw, he⟩ := loadCached_l1 va hint hl hk
    exact ⟨_, he, hw.merged k.wts⟩
  case l2 =>
    obtain ⟨w, b, hw, he⟩ := loadCached_l2 va hint hl h1 h2 hg hm
    refine ⟨_, he, hw.merged k.wts, ?_⟩
    rw [State.core_modCore, if_pos rfl]
    exact mem_putCopy_refill _ _ _

end Sys2Proof.Machine
end

section
/-! CERTIFICATE. HSET, HURDLE and VIEW (R79, R183-R185, R287). -/
namespace Sys2Proof.Machine

/-- A change of a hurdle leaves the core's other hurdles. -/
theorem State.hb_modHb_ne (s : State) (c : Nat) {n k : Nat} (f : Hurdle → Hurdle) (h : k ≠ n) : (s.modHb c n f).hb c k = s.hb c k := by
  simp [State.modHb, State.hb, State.core_modCore, h]

theorem still_modHb (s : State) (c n : Nat) (f : Hurdle → Hurdle) : still s (s.modHb c n f) := still_modCore s c _ fun _ => rfl

/-- What a slot that parks waits for. -/
theorem State.parkOn_slot (s : State) (i : Instr) (k : WaitKind) :
    ((s.parkOn i k).slot s.cur).st = .parked ∧ ∃ w, ((s.parkOn i k).slot s.cur).wait = some w ∧ w.kind = k := by
  simp only [State.parkOn, State.modSlot_slot_self, true_and]
  cases (s.slot s.cur).wait <;> exact ⟨_, rfl, rfl⟩

section
variable {s : State}

/-! ## Where they issue (R287) -/

theorem localOnly_ok (h : isLocal s.cur = true) : localOnly s = .ok ((), s) := by
  unfold localOnly
  rw [M.bind_ok (getS_apply _), h, ensure_true, M.pure_apply]

theorem localOnly_refused (h : isLocal s.cur = false) : localOnly s = .error (.trap 1 (BitVec.ofNat 64 (56 * 256 + 8))) := by
  unfold localOnly
  rw [M.bind_ok (getS_apply _), h]
  rfl

/-! ## HSET (R183) -/

theorem writeHb_ok {n : Nat} {v : Word} (h : hbBad (coreOf s.cur) (s.hb (coreOf s.cur) n) v = false) :
    writeHb n v s = .ok ((), s.modHb (coreOf s.cur) n fun h => { h with val := (v &&& hbWritten) ||| (h.val &&& 0x4000000000000000) }) := by
  unfold writeHb
  rw [M.bind_ok (getS_apply _), h]
  rfl

theorem writeHb_bad {n : Nat} {v : Word} (h : hbBad (coreOf s.cur) (s.hb (coreOf s.cur) n) v = true) :
    writeHb n v s = .error (.trap 1 (BitVec.ofNat 64 (40 * 256 + 7))) := by
  unfold writeHb
  rw [M.bind_ok (getS_apply _), h]
  rfl

/-! ## HURDLE (R184, R185) -/

theorem State.hbSend_cur (s : State) (c n : Nat) : (s.hbSend c n).cur = s.cur := by
  unfold State.hbSend
  dsimp only
  split <;> rfl

/-- An arrival is counted at the core, which may send its signal; no slot changes. -/
theorem hbArrive_ok (s : State) (n : Nat) : ∃ k u, hbArrive n s = .ok (k, u) ∧ u.cur = s.cur ∧ u.slots = s.slots :=
  ⟨_, _, rfl, State.hbSend_cur _ _ _, (State.hbSend_spec _ _ _).1⟩

theorem execHurdle_disabled {n : BitVec 2} (hlive : s.live) (hl : isLocal s.cur = true) (hw : s.me.wait = none)
    (hen : (s.hb (coreOf s.cur) n.toNat).val.getLsbD 63 = false) :
    execHurdle n s = .next (s.trapMe 1 (BitVec.ofNat 64 (32 * 256 + 7))) := by
  refine run_trap hlive ?_
  rw [M.bind_ok (localOnly_ok hl), M.bind_ok (myWait_fresh hw)]
  dsimp only
  rw [M.bind_ok (getS_apply _), hen]
  rfl

/-- A thread that arrives at an enabled hurdle keeps that it has arrived, and waits for the release where replies do not come at
once. -/
theorem execHurdle_arrives {n : BitVec 2} (hlive : s.live) (hl : isLocal s.cur = true) (hw : s.me.wait = none)
    (hen : (s.hb (coreOf s.cur) n.toNat).val.getLsbD 63 = true) (hp : s.prompt = false) :
    ∃ v : State, v.cur = s.cur ∧ execHurdle n s = .next (v.parkOn (.hurdle n) (.hurdle n.toNat none)) := by
  obtain ⟨k, u, ha, hcur, hslots⟩ := hbArrive_ok s n.toNat
  have hme : u.me.wait = none := by simpa only [State.me, State.slot, hcur, hslots] using hw
  obtain ⟨v, hv, hvcur, w, hvw, hwk⟩ : ∃ v, keepWait (fun w => { w with kind := .hurdle n.toNat none, n := k }) u = .ok ((), v) ∧
      v.cur = s.cur ∧ ∃ w, v.me.wait = some w ∧ w.kind = .hurdle n.toNat none := by
    refine ⟨_, keepWait_apply _ _, hcur, _, congrArg Slot.wait (State.modSlot_slot_self _ _ _), rfl⟩
  refine ⟨v, hvcur, run_park hlive ?_⟩
  rw [M.bind_ok (localOnly_ok hl), M.bind_ok (myWait_fresh hw)]
  dsimp only
  rw [M.bind_ok (getS_apply _), hen, ensure_true, M.bind_ok (M.pure_apply _ _), M.bind_ok ha, M.bind_ok hv, hp, if_neg Bool.false_ne_true,
    M.bind_ok (myWait_apply _), hvw, Option.getD_some, hwk]
  rfl

/-- A thread goes on after a release that is not broken, with the PTS that the release carries (R132). -/
theorem execHurdle_released {n : BitVec 2} {w : Wait} {m p : Nat} {ps : List Nat} (hlive : s.live) (hl : isLocal s.cur = true)
    (hw : s.me.wait = some w) (hk : w.kind = .hurdle m (some false)) (hs : w.stamps = p :: ps) :
    execHurdle n s = .next ((s.modSlot s.cur fun x => { x with pts := max x.pts p }).advance (.hurdle n)) := by
  refine run_ok hlive ?_
  rw [M.bind_ok (localOnly_ok hl), M.bind_ok (myWait_apply _), hw, Option.getD_some, hk, hs]
  rfl

/-! ## VIEW (R79) -/

/-- The scoreboard of core `c`, a transfer through its window or a row group half written holds a byte of a range (R79; log 41). -/
def State.rangeHeld (s : State) (c : Nat) (r : Nat × Nat) : Bool :=
  (s.core c).board.any (fun e => overlap (e.lo, e.hi) r) || s.windowBusy c r || s.partBusy c r

theorem writeView_ok {n : Nat} {v : Word} (hv : viewBad (s.core (coreOf s.cur)) n v = false)
    (hold : s.rangeHeld (coreOf s.cur) (viewRange ((s.core (coreOf s.cur)).vw.get 0 n)) = false)
    (hnew : s.rangeHeld (coreOf s.cur) (viewRange v) = false) :
    writeView n v s = .ok ((), s.modCore (coreOf s.cur) fun k => { k with vw := k.vw.set 0 n v }) := by
  have hfree : ¬ (s.rangeHeld (coreOf s.cur) (viewRange ((s.core (coreOf s.cur)).vw.get 0 n)) || s.rangeHeld (coreOf s.cur) (viewRange v)) := by
    rw [hold, hnew]
    exact Bool.false_ne_true
  unfold writeView
  rw [M.bind_ok (getS_apply _)]
  dsimp only
  rw [hv, Bool.not_false, ensure_true, M.bind_ok (M.pure_apply _ _)]
  exact congrFun (if_neg hfree) s

end

/-- Settles O39: each is `localOnly`, and then what `writeHb`, `execHurdle` and `writeView` do. -/
theorem hurdlesAndViews : Obligations.HurdlesAndViews := by
  unfold Obligations.HurdlesAndViews
  refine ⟨fun s n a x s1 hlive hl hx hcur => ⟨fun hb => ?set, fun hb => ?badSet⟩, fun s n hlive hl => ⟨fun hw hen => ?disabled,
    fun hw hen hp => ?arrives, fun w m p ps hw hk hs => ?released⟩, fun s n a x s1 hlive hl hx hcur => ?view,
    fun s n m k a hlive hl => ?refused⟩
  case set =>
    rw [← hcur] at hb ⊢
    refine ⟨_, run_ok hlive ((M.bind_ok (localOnly_ok hl)).trans ((M.bind_ok hx).trans (writeHb_ok hb))), ?_⟩
    rw [State.hb_modHb_self]
    exact ⟨rfl, rfl, fun k hk => State.hb_modHb_ne _ _ _ hk, still_modHb _ _ _ _⟩
  case badSet =>
    rw [← hcur] at hb
    exact run_trap hlive ((M.bind_ok (localOnly_ok hl)).trans ((M.bind_ok hx).trans (writeHb_bad hb)))
  case disabled => exact execHurdle_disabled hlive hl hw hen
  case arrives =>
    obtain ⟨v, hv, he⟩ := execHurdle_arrives hlive hl hw hen hp
    exact ⟨_, he, hv ▸ v.parkOn_slot _ _⟩
  case released => exact execHurdle_released hlive hl hw hk hs
  case view =>
    intro c held hv hold hnew
    refine run_ok hlive ((M.bind_ok (localOnly_ok hl)).trans ((M.bind_ok hx).trans ?_))
    have hc : c = coreOf s1.cur := congrArg coreOf hcur.symm
    clear_value c
    subst hc
    exact writeView_ok hv hold hnew
  case refused =>
    exact ⟨run_trap hlive (M.bind_error (localOnly_refused hl)), run_trap hlive (M.bind_error (localOnly_refused hl)),
      run_trap hlive (M.bind_error (localOnly_refused hl))⟩

end Sys2Proof.Machine
end

section
/-! CERTIFICATE. The links of the package, and what keeps them: only the steps of links, ports and resets write a link (O60). A link that goes
down answers the requests in flight on it, and each answer runs an instruction again: that this keeps the links is said here, choice by
choice of an instruction in progress, and in the next section, operation by operation. -/
namespace Sys2Proof.Machine
variable {L : SMap Link} {α β : Type}

/-- The links of the state are `L`: a name for it, so that the rule of an operation is found by its name. -/
def State.Linked (s : State) (L : SMap Link) : Prop := s.links = L

theorem State.linked_self (s : State) : s.Linked s.links := rfl

/-! ## Choices and loops on states -/

theorem State.Linked.ite {c : Prop} [Decidable c] {s t : State} (hs : s.Linked L) (ht : t.Linked L) : (if c then s else t).Linked L := by
  split
  · exact hs
  · exact ht

theorem State.Linked.iteFst {α : Type} {c : Prop} [Decidable c] {p q : State × α} (hp : p.1.Linked L) (hq : q.1.Linked L) :
    (if c then p else q).1.Linked L := by
  split
  · exact hp
  · exact hq

theorem State.Linked.foldl {α : Type} {f : State → α → State} {l : List α} {s : State} (h : s.Linked L)
    (hf : ∀ s x, s.Linked L → (f s x).Linked L) : (l.foldl f s).Linked L :=
  List.foldlRecOn l f h fun s hs x _ => hf s x hs

theorem State.Linked.foldlFst {α β : Type} {f : State × β → α → State × β} {l : List α} {p : State × β} (h : p.1.Linked L)
    (hf : ∀ p x, p.1.Linked L → (f p x).1.Linked L) : (l.foldl f p).1.Linked L :=
  List.foldlRecOn (motive := fun p : State × β => p.1.Linked L) l f h fun p hp x _ => hf p x hp

theorem State.Linked.foldr {α : Type} {f : α → State → State} {l : List α} {s : State} (h : s.Linked L)
    (hf : ∀ x s, s.Linked L → (f x s).Linked L) : (l.foldr f s).Linked L :=
  List.foldrRecOn l f h fun s hs x _ => hf x s hs

/-- A change of other fields keeps the links. -/
theorem State.Linked.upd {s : State} {a b c d e f g i j k l m y a' b' c' d' e' f' g' i' j' k' l' m' n o p q r t u v x}
    (h : s.Linked L) : (State.mk a b c d e f g i j k l m y a' b' c' d' e' f' g' i' j' k' l' m' n o p q r t u v s.links x).Linked L := h

/-! ## Instructions in progress -/

/-- The state that an instruction stops with has the links `L`; a trap that performs something keeps those of the state it starts from. -/
def Stop.Linked (L : SMap Link) : Stop → Prop
  | .trap _ _ => True
  | .trapDo _ _ f => ∀ s : State, s.Linked L → (f s).Linked L
  | .trapAt _ _ s => s.Linked L
  | .park _ s => s.Linked L
  | .leave s => s.Linked L

/-- The state of an end of an instruction has the links `L`. -/
def LinkEnd (L : SMap Link) {α : Type} : Except Stop (α × State) → Prop
  | .ok p => p.2.Linked L
  | .error e => e.Linked L

/-- An instruction in progress keeps the links, whichever way it ends. -/
def LinkM (L : SMap Link) {α : Type} (m : M α) : Prop := ∀ s : State, s.Linked L → LinkEnd L (m s)

theorem LinkM.ok {m : M α} (hm : LinkM L m) {s t : State} {x : α} (hs : s.Linked L) (e : m s = .ok (x, t)) : t.Linked L := by
  have h := hm s hs
  rwa [e] at h

theorem LinkM.error {m : M α} (hm : LinkM L m) {s : State} {e : Stop} (hs : s.Linked L) (h : m s = .error e) : e.Linked L := by
  have h' := hm s hs
  rwa [h] at h'

theorem LinkM.pure {x : α} : LinkM L (Pure.pure x : M α) := fun _ h => h

theorem LinkM.getS : LinkM L Machine.getS := fun _ h => h

theorem LinkM.modS {f : State → State} (hf : ∀ s, s.Linked L → (f s).Linked L) : LinkM L (Machine.modS f) := hf

theorem LinkM.bind {m : M α} {f : α → M β} (hm : LinkM L m) (hf : ∀ x, LinkM L (f x)) : LinkM L (m >>= f) := by
  intro s hs
  cases e : m s with
  | error x =>
    rw [M.bind_error e]
    exact hm.error hs e
  | ok p =>
    rw [M.bind_ok e]
    exact hf p.1 p.2 (hm.ok hs e)

/-- What follows a read of the state may use the state read: it has the links `L`. -/
theorem LinkM.bindS {f : State → M α} (hf : ∀ s : State, s.Linked L → LinkM L (f s)) : LinkM L (Machine.getS >>= f) :=
  fun s hs => hf s hs s hs

theorem LinkM.ite {c : Prop} [Decidable c] {m n : M α} (hm : LinkM L m) (hn : LinkM L n) : LinkM L (if c then m else n) := by
  split
  · exact hm
  · exact hn

/-! ## What an instruction answers -/

/-- An instruction keeps the links. -/
def LinkOut (L : SMap Link) (f : State → Out) : Prop := ∀ s t : State, s.Linked L → f s = .next t → t.Linked L

theorem LinkOut.next {f : State → State} (hf : ∀ s, s.Linked L → (f s).Linked L) : LinkOut L (fun s => .next (f s)) := by
  intro s t hs e
  cases e
  exact hf s hs

theorem LinkOut.same : LinkOut L (fun s => .next s) := next fun _ h => h

end Sys2Proof.Machine
end

section
/-! CERTIFICATE. What each operation of an instruction does to the links: it keeps them (O60). A lemma has the name of the operation, and
they stand in the order of the model. -/
namespace Sys2Proof.Machine
variable {L : SMap Link}

/-! ## Threads and places, waits, traps and ends of units -/

theorem LinkM.stop {α : Type} {x : Stop} (hx : x.Linked L) : LinkM L (Machine.stop x : M α) := fun _ _ => hx

theorem LinkM.trap {α : Type} {cause : Nat} {xvalue : Word} : LinkM L (Machine.trap cause xvalue : M α) := fun _ _ => trivial

theorem LinkM.trapAt {α : Type} {cause : Nat} {xvalue : Word} : LinkM L (Machine.trapAt cause xvalue : M α) := fun _ h => h

theorem LinkM.illegalOp {α : Type} {sub field : Nat} : LinkM L (Machine.illegalOp sub field : M α) := .trap

theorem LinkM.badFormat {α : Type} {reason : Nat} : LinkM L (Machine.badFormat reason : M α) := .trap

theorem LinkM.park {α : Type} {k : WaitKind} : LinkM L (Machine.park k : M α) := fun _ h => h

theorem LinkM.leave {α : Type} : LinkM L (Machine.leave : M α) := fun _ h => h

theorem LinkM.ensure {ok : Bool} {t : M Unit} (ht : LinkM L t) : LinkM L (Machine.ensure ok t) := .ite .pure ht

theorem LinkM.loopM {f : Nat → M Unit} (hf : ∀ i, LinkM L (f i)) : ∀ {l : List Nat}, LinkM L (Machine.loopM l f)
  | [] => .pure
  | i :: _ => .bind (hf i) fun _ => .loopM hf

theorem State.Linked.setSlot {s : State} {t : Nat} {x : Slot} (h : s.Linked L) : (s.setSlot t x).Linked L := h.upd

theorem State.Linked.setCore {s : State} {c : Nat} {x : Core} (h : s.Linked L) : (s.setCore c x).Linked L := h.upd

theorem State.Linked.setCluster {s : State} {k : Nat} {x : Cluster} (h : s.Linked L) : (s.setCluster k x).Linked L := h.upd

theorem State.Linked.setDie {s : State} {d : Nat} {x : Die} (h : s.Linked L) : (s.setDie d x).Linked L := h.upd

theorem State.Linked.setJob {s : State} {j : Nat} {x : Option Job} (h : s.Linked L) : (s.setJob j x).Linked L := h.upd

theorem State.Linked.modSlot {s : State} {t : Nat} {f : Slot → Slot} (h : s.Linked L) : (s.modSlot t f).Linked L := h.setSlot

theorem State.Linked.modCore {s : State} {c : Nat} {f : Core → Core} (h : s.Linked L) : (s.modCore c f).Linked L := h.setCore

theorem State.Linked.modCluster {s : State} {k : Nat} {f : Cluster → Cluster} (h : s.Linked L) : (s.modCluster k f).Linked L :=
  h.setCluster

theorem State.Linked.modDie {s : State} {d : Nat} {f : Die → Die} (h : s.Linked L) : (s.modDie d f).Linked L := h.setDie

theorem State.Linked.modJob {s : State} {j : Nat} {f : Job → Job} (h : s.Linked L) : (s.modJob j f).Linked L := by
  unfold State.modJob
  split
  · exact h
  · exact h.setJob

theorem State.Linked.modBank {s : State} {c b : Nat} {f : Bank → Bank} (h : s.Linked L) : (s.modBank c b f).Linked L := h.modCore

theorem LinkM.myself : LinkM L Machine.myself := fun _ h => h

theorem LinkM.modMe {f : Slot → Slot} : LinkM L (Machine.modMe f) := .modS fun _ h => h.modSlot

theorem LinkM.modSp {f : Special → Special} : LinkM L (Machine.modSp f) := .modMe

theorem LinkM.mergePts {n : Nat} : LinkM L (Machine.mergePts n) := .modMe

theorem LinkM.pick : LinkM L Machine.pick := fun _ h => h

theorem LinkM.await {k : WaitKind} : LinkM L (Machine.await k) := by
  intro s h
  unfold Machine.await
  split
  · exact h
  · split
    · exact h
    · exact h

theorem LinkM.myWait : LinkM L Machine.myWait := fun _ h => h

theorem LinkM.keepWait {f : Wait → Wait} : LinkM L (Machine.keepWait f) := .modMe

theorem State.Linked.modReg {s : State} {c b r : Nat} {f : SyncReg → SyncReg} (h : s.Linked L) : (s.modReg c b r f).Linked L :=
  h.modBank

theorem State.Linked.modPort {s : State} {c b p : Nat} {f : Port → Port} (h : s.Linked L) : (s.modPort c b p f).Linked L :=
  .ite h.modCore h.modBank

theorem State.Linked.putBack {s : State} {t : Nat} {l : Latch} (h : s.Linked L) : (s.putBack t l).Linked L := by
  unfold State.putBack
  split
  · exact h
  · exact h.modReg
  · exact h.modPort

theorem State.Linked.unlist {s : State} {t : Nat} (h : s.Linked L) : (s.unlist t).Linked L :=
  .ite h.modBank.modCore.upd.modCluster h.modBank.modCore.upd

theorem State.Linked.unopen {s : State} {t : Nat} (h : s.Linked L) : (s.unopen t).Linked L := by
  unfold State.unopen
  split
  · exact h
  · exact h.modCluster

theorem State.Linked.undo {s : State} {t : Nat} (h : s.Linked L) : (s.undo t).Linked L :=
  .modSlot (.unlist (.unopen (.foldr h fun _ _ h => h.putBack)))

theorem State.Linked.signal {s : State} {c b mask : Nat} {any : Bool} (h : s.Linked L) : (s.signal c b mask any).Linked L := h.upd

theorem State.Linked.fillReg {s : State} {c b r : Nat} {v : Word} {stamp : Nat} (h : s.Linked L) : (s.fillReg c b r v stamp).Linked L :=
  h.modReg.signal

theorem State.Linked.askMail {s : State} {t : Nat} (h : s.Linked L) : (s.askMail t).Linked L := h.modCore

theorem State.Linked.doneMail {s : State} {t : Nat} (h : s.Linked L) : (s.doneMail t).Linked L := h.modCore

theorem State.Linked.freeHeld {s : State} {x : Slot} {j : Nat} (h : s.Linked L) : (s.freeHeld x j).Linked L := h.upd

theorem State.Linked.log {s : State} {d kind who data : Nat} (h : s.Linked L) : (s.log d kind who data).Linked L :=
  .ite h.modDie.upd h.modDie

theorem State.Linked.dropOps {s : State} {t : Nat} (h : s.Linked L) : (s.dropOps t).Linked L := h.upd

theorem State.Linked.deliver {s : State} {m : Msg} (h : s.Linked L) : (s.deliver m).Linked L := h.modPort.signal

theorem State.Linked.tellStarter {s : State} {t : Nat} (h : s.Linked L) : (s.tellStarter t).Linked L := .ite h (.ite h.deliver h.upd)

theorem State.Linked.endUnit {s : State} {t : Nat} {e : EndRec} (h : s.Linked L) : (s.endUnit t e).Linked L :=
  h.undo.dropOps.freeHeld.modSlot.tellStarter

theorem State.Linked.failUnit {s : State} {t cause : Nat} (h : s.Linked L) : (s.failUnit t cause).Linked L :=
  .ite h.endUnit h.log.endUnit

theorem State.Linked.enter {s : State} {t cause : Nat} {xvalue : Word} (h : s.Linked L) : (s.enter t cause xvalue).Linked L :=
  h.modSlot

theorem State.Linked.takeTrap {s : State} {t cause : Nat} {xvalue : Word} {ok : Bool} (h : s.Linked L) :
    (s.takeTrap t cause xvalue ok).Linked L := .ite h.undo.enter h.undo.failUnit

theorem State.Linked.trapReturn {s : State} {t : Nat} {x : Word} (h : s.Linked L) : (s.trapReturn t x).Linked L := h.modSlot

theorem State.Linked.advance {s : State} {i : Instr} (h : s.Linked L) : (s.advance i).Linked L := h.modSlot

theorem State.Linked.parkOn {s : State} {i : Instr} {k : WaitKind} (h : s.Linked L) : (s.parkOn i k).Linked L := h.modSlot

/-! ## Memory: translation, scratchpads, timestamps and caches -/

theorem LinkM.checkLocal {a : Int} {n : Nat} {wr : Bool} : LinkM L (Machine.checkLocal a n wr) :=
  .bind .getS fun _ =>
  .ite .trap
    (by
      split
      · exact .pure
      · exact .trap)

theorem State.Linked.installTlb {s : State} {c : Nat} {l : Leaf} (h : s.Linked L) : (s.installTlb c l).Linked L := h.modCore

theorem State.Linked.noteRoute {s : State} {t : Nat} (h : s.Linked L) : (s.noteRoute t).Linked L := .ite h.upd h.log

theorem LinkM.noRoute {α : Type} {kind place : Nat} : LinkM L (Machine.noRoute kind place : M α) :=
  .bind .myself fun _ => .ite (.stop fun _ h => h.noteRoute) (.stop fun _ h => h.noteRoute)

theorem LinkM.checkRoute {pa va : Nat} : LinkM L (Machine.checkRoute pa va) := .bind .getS fun _ => .ite .pure .noRoute

theorem LinkM.replyRoute : LinkM L Machine.replyRoute := .bind .getS fun _ => .ite .noRoute .pure

theorem LinkM.translate {va : Nat} {wr fetch : Bool} : LinkM L (Machine.translate va wr fetch) :=
  .bind .getS fun _ => by
    dsimp only
    split
    · exact .pure
    · exact .bind .await fun _ =>
        .bind .getS fun _ =>
        .ite
          (by
            split
            · exact .trap
            · exact .bind (.modS fun _ h => h.installTlb.modDie) fun _ => .pure)
          (.bind .noRoute fun _ => by
              split
              · exact .trap
              · exact .bind (.modS fun _ h => h.installTlb.modDie) fun _ => .pure)

theorem State.Linked.sample {s : State} {d j va : Nat} {hint : Bool} (h : s.Linked L) : (s.sample d j va hint).1.Linked L := by
  unfold State.sample
  split
  · exact h
  · exact h.modDie

theorem LinkM.sampled {va : Nat} {hint : Bool} : LinkM L (Machine.sampled va hint) := fun _ h => h.sample

theorem LinkM.resolve {a : Int} {wr amo : Bool} : LinkM L (Machine.resolve a wr amo) :=
  .bind .getS fun _ =>
  .ite .trap (.ite (.ite .trap (.ite .pure .pure)) (.bind .translate fun _ => .ite .trap (.ite .trap (.ite .trap .pure))))

theorem State.Linked.stall {s : State} {c k : Nat} (h : s.Linked L) : (s.stall c k).Linked L := .ite h h.modCore

theorem State.Linked.stallEngine {s : State} {c a n : Nat} (h : s.Linked L) : (s.stallEngine c a n).Linked L := .ite h.modCore h

theorem State.Linked.notify {s : State} {space a n wts : Nat} (h : s.Linked L) : (s.notify space a n wts).Linked L := .ite h h.upd

theorem LinkM.boardPark {a n : Nat} : LinkM L (Machine.boardPark a n) := .bind .getS fun _ => .ite .park .pure

theorem LinkM.spwLoad : LinkM L Machine.spwLoad := .modS fun _ h => h.modSlot.modBank

theorem LinkM.spwStore : LinkM L Machine.spwStore := .modS fun _ h => h.modSlot.modBank

theorem State.Linked.raiseSpw {s : State} {c b n : Nat} (h : s.Linked L) : (s.raiseSpw c b n).Linked L := h.modBank

theorem State.Linked.writeLocal {s : State} {t a n v : Nat} (h : s.Linked L) : (s.writeLocal t a n v).Linked L :=
  .ite h.modCore h.modSlot

theorem LinkM.dataLost {α : Type} {kind place : Nat} : LinkM L (Machine.dataLost kind place : M α) := .trap

theorem LinkM.checkSpadPoison {a n : Nat} : LinkM L (Machine.checkSpadPoison a n) :=
  .bind .getS fun _ =>
  .ite
    (by
      split
      · exact .dataLost
      · exact .pure)
    .pure

theorem LinkM.loadLocal {a n : Nat} : LinkM L (Machine.loadLocal a n) :=
  .bind .boardPark fun _ =>
  .bind .checkSpadPoison fun _ =>
  .bind .spwLoad fun _ => .bind .getS fun _ => .ite (.bind (.modS fun _ h => h.stall) fun _ => .pure) .pure

theorem LinkM.storeLocal {a n v : Nat} : LinkM L (Machine.storeLocal a n v) :=
  .bind .boardPark fun _ => .bind .spwStore fun _ => .modS fun _ h => .notify (.writeLocal (.ite h.stall h))

theorem State.Linked.setPair {s : State} {pa : Nat} {p : Pair} (h : s.Linked L) : (s.setPair pa p).Linked L := h.upd

theorem State.Linked.renew {s : State} {j pa kept : Nat} (h : s.Linked L) : (s.renew j pa kept).1.Linked L := h.setPair

theorem LinkM.checkPoison {pa va n : Nat} {wr : Bool} : LinkM L (Machine.checkPoison pa va n wr) :=
  .bind .getS fun _ =>
  .ite .dataLost
    (.ite .park
        (.ite .pure
            (by
              split
              · exact .dataLost
              · exact .pure)))

theorem LinkM.entryReady {k : WaitKind} {pa : Nat} : LinkM L (Machine.entryReady k pa) := .bind .getS fun _ => .ite .park .pure

theorem State.Linked.fillBoth {s : State} {c : Nat} {k : LineCopy} (h : s.Linked L) : (s.fillBoth c k).Linked L := h.modCore.modDie

theorem State.Linked.llcFill {s : State} {pa : Nat} {cols : Bool} (h : s.Linked L) : (s.llcFill pa cols).Linked L := by
  unfold State.llcFill
  split
  · exact h
  · exact .ite h.upd h

theorem State.Linked.llcDirty {s : State} {pa n : Nat} (h : s.Linked L) : (s.llcDirty pa n).Linked L := by
  unfold State.llcDirty
  dsimp only
  split
  · exact h.llcFill
  · exact h.llcFill.upd

theorem State.Linked.sendCrossing {s : State} {pa : Nat} (h : s.Linked L) : (s.sendCrossing pa).Linked L := .ite h.upd h

theorem LinkM.loadCached {pa va n : Nat} {hint : Bool} : LinkM L (Machine.loadCached pa va n hint) := by
  have hr : ∀ {s : State} {j c kept : Nat} {b : Bool}, s.Linked L → (
      let (s', t, k) := s.renew j pa kept
      let s' := (s'.modSlot s.cur fun x => { x with pts := t }).fillBoth c k
      if b then s' else s'.llcFill pa false).Linked L := fun {s j c kept b} h =>
    .ite (.fillBoth (.modSlot (h.renew (kept := kept)))) (.llcFill (.fillBoth (.modSlot (h.renew (kept := kept)))))
  refine .bind .getS fun s => .ite ?_ (.bind .entryReady fun _ => .bind .await fun _ => .bind .checkRoute fun _ =>
    .bind .sampled fun _ => .bind (.modS fun _ h => .llcFill (.modSlot (h.renew (kept := 0)))) fun _ => .pure)
  split
  · exact .bind .sampled fun _ => .bind .mergePts fun _ => .pure
  · refine .bind .entryReady fun _ => .bind .await fun _ => ?_
    split
    · exact .bind .sampled fun _ => .bind .mergePts fun _ => .bind (.modS fun _ h => h.modCore) fun _ => .pure
    · exact .ite (.bind .sampled fun _ => .bind (.modS fun _ h => hr h) fun _ => .pure)
        (.bind .checkRoute fun _ => .bind .sampled fun _ => .bind (.modS fun _ h => hr h) fun _ => .pure)

theorem State.Linked.storeAt {s : State} {pa n v pts scope who owner : Nat} (h : s.Linked L) :
    (s.storeAt pa n v pts scope who owner).1.Linked L := h.setPair.upd.sendCrossing.notify

theorem State.Linked.dropColumns {s : State} {d sq : Nat} (h : s.Linked L) : (s.dropColumns d sq).Linked L := h.modDie

theorem LinkM.storePair {pa n v scope : Nat} : LinkM L (Machine.storePair pa n v scope) :=
  .modS fun _ h => .modSlot (.ite h.storeAt.dropColumns h.storeAt)

theorem State.Linked.keepOwn {s : State} {old : Pair} {j pa n t scope kept : Nat} (h : s.Linked L) :
    (s.keepOwn old j pa n t scope kept).Linked L := .ite (.llcDirty (.ite h.modCore.modDie h)) (.ite h.modCore.modDie h)

theorem LinkM.storeCached {pa va n v scope : Nat} {hint : Bool} : LinkM L (Machine.storeCached pa va n v scope hint) :=
  .bind .sampled fun _ => .bind .getS fun _ => .bind .storePair fun _ => .modS fun _ h => h.keepOwn

theorem LinkM.loadHome {pa n : Nat} : LinkM L (Machine.loadHome pa n) :=
  .bind .getS fun _ => .bind (.modS fun _ h => h.setPair.modSlot) fun _ => .pure

theorem State.Linked.hostPut {s : State} {pa n v : Nat} (h : s.Linked L) : (s.hostPut pa n v).Linked L := h.upd

theorem LinkM.hostLoad {pa va n : Nat} : LinkM L (Machine.hostLoad pa va n) :=
  .bind .await fun _ => .bind .checkRoute fun _ => .bind .sampled fun _ => .bind .getS fun _ => .pure

theorem LinkM.hostStore {pa va n v : Nat} : LinkM L (Machine.hostStore pa va n v) :=
  .bind .await fun _ => .bind .checkRoute fun _ => .bind .sampled fun _ => .modS fun _ h => h.hostPut

/-! ## Operands -/

theorem LinkM.readG {n : BitVec 5} : LinkM L (Machine.readG n) := fun _ h => h

theorem LinkM.writeG {n : BitVec 5} {v : Word} : LinkM L (Machine.writeG n v) := .modMe

theorem LinkM.readV {n : BitVec 4} : LinkM L (Machine.readV n) := fun _ h => h

theorem LinkM.writeV {n : BitVec 4} {v : Row} : LinkM L (Machine.writeV n v) := .modMe

theorem LinkM.readK {n : BitVec 3} : LinkM L (Machine.readK n) := fun _ h => h

theorem LinkM.writeK {n : BitVec 3} {v : Word} : LinkM L (Machine.writeK n v) := .modMe

theorem LinkM.mailTrip : LinkM L Machine.mailTrip :=
  .bind .getS fun _ => .ite (.ite (.modS fun _ h => h.upd.doneMail) (.bind (.modS fun _ h => h.askMail) fun _ => .park)) .pure

theorem LinkM.modMyReg {r : Nat} {f : SyncReg → SyncReg} : LinkM L (Machine.modMyReg r f) := .modS fun _ h => h.modReg

theorem LinkM.tripFor {r : Nat} : LinkM L (Machine.tripFor r) := .ite .mailTrip .pure

theorem LinkM.staysAsked {r : Nat} : LinkM L (Machine.staysAsked r) := .modS fun _ h => .ite h.askMail h

theorem LinkM.readShared {r : Nat} : LinkM L (Machine.readShared r) :=
  .bind .tripFor fun _ => .bind .getS fun _ => .bind .mergePts fun _ => .pure

theorem LinkM.takeShared {r : Nat} : LinkM L (Machine.takeShared r) :=
  .bind .tripFor fun _ =>
  .bind .getS fun _ =>
  .ite (.bind .modMyReg fun _ => .bind .mergePts fun _ => .pure) (.bind .modMyReg fun _ => .bind .staysAsked fun _ => .park)

theorem LinkM.fillShared {r : Nat} {v : Word} : LinkM L (Machine.fillShared r v) := .modS fun _ h => h.fillReg

theorem LinkM.writeShared {r : Nat} {v : Word} : LinkM L (Machine.writeShared r v) :=
  .bind .getS fun _ => .ite (.bind (.modS fun _ h => h.modSlot.askMail) fun _ => .park) .fillShared

theorem LinkM.sfillShared {r : Nat} {v : Word} : LinkM L (Machine.sfillShared r v) :=
  .bind .tripFor fun _ =>
  .bind .getS fun _ => .ite (.bind .modMyReg fun _ => .fillShared) (.bind .modMyReg fun _ => .bind .staysAsked fun _ => .park)

theorem LinkM.takePort {p n : Nat} : LinkM L (Machine.takePort p n) :=
  .bind .getS fun _ =>
  .ite
    (by
      split
      · exact .park
      · exact .bind (.modS fun _ h => h.modPort) fun _ => .bind .mergePts fun _ => .pure)
    (.bind (.modS fun _ h => h.modPort) fun _ => .park)

theorem LinkM.latchOp {f : Nat} {v : Word} {how : Taken} : LinkM L (Machine.latchOp f v how) := .modMe

theorem LinkM.readSrcN {f : Nat} {a : Src} {n : Nat} : LinkM L (Machine.readSrcN f a n) := by
  unfold Machine.readSrcN
  split
  · exact .readG
  · exact .bind .myself fun _ => by
        split
        · exact .pure
        · split
          · exact .readG
          · exact .bind .readShared fun _ => .bind .latchOp fun _ => .pure
          · exact .bind .readShared fun _ => .bind .latchOp fun _ => .pure
          · exact .bind .takeShared fun _ => .bind .latchOp fun _ => .pure
          · exact .bind .takeShared fun _ => .bind .latchOp fun _ => .pure
          · exact .bind .takePort fun _ => .bind .latchOp fun _ => .pure

theorem LinkM.readSrc {f : Nat} {a : Src} : LinkM L (Machine.readSrc f a) := .readSrcN

theorem LinkM.readAB {a b : Src} : LinkM L (Machine.readAB a b) := .bind .readSrcN fun _ => .bind .readSrc fun _ => .pure

theorem LinkM.readSR {f : Nat} {x : SReg} : LinkM L (Machine.readSR f x) := by
  unfold Machine.readSR
  split
  · exact .readG
  · exact .readSrc
  · exact .readSrc

theorem LinkM.writeSR {x : SReg} {y : Word} : LinkM L (Machine.writeSR x y) := by
  unfold Machine.writeSR
  split
  · exact .writeG
  · exact .writeShared
  · exact .writeShared

theorem LinkM.readVSrc {w : Nat} {x : VSrc} : LinkM L (Machine.readVSrc w x) := by
  unfold Machine.readVSrc
  split
  · exact .bind .readV fun _ => .pure
  · exact .bind .readSrc fun _ => .pure

theorem LinkM.writeMasked {d : BitVec 4} {k : BitVec 3} {new : Row} : LinkM L (Machine.writeMasked d k new) :=
  .bind .readK fun _ => .bind .readV fun _ => .writeV

/-! ## Frames, pages and aliases -/

theorem State.Linked.freshFrame {s : State} {f : Nat} (h : s.Linked L) {p : State × Nat} (e : s.freshFrame f = some p) : p.1.Linked L := by
  unfold State.freshFrame at e
  split at e
  · cases e
  · cases e
    exact h

theorem State.Linked.takeFrame {s : State} (h : s.Linked L) {p : State × Nat} (e : s.takeFrame = some p) : p.1.Linked L := by
  unfold State.takeFrame at e
  dsimp only at e
  split at e
  · cases e
  · exact State.Linked.freshFrame (s := { s with picks := s.picks.tail }) h e

theorem State.Linked.nextFrame {s : State} (h : s.Linked L) {p : State × Nat} (e : s.nextFrame = some p) : p.1.Linked L := h.freshFrame e

theorem State.Linked.tableFor {take : State → Option (State × Nat)} (ht : ∀ s p, s.Linked L → take s = some p → p.1.Linked L)
    {va fuel : Nat} : ∀ {s : State} {lvl tab : Nat}, s.Linked L →
      ∀ {p : State × Nat}, s.tableFor take va fuel lvl tab = some p → p.1.Linked L := by
  induction fuel with
  | zero =>
    intro s lvl tab h p e
    cases e
    exact h
  | succ fuel ih =>
    intro s lvl tab h p e
    unfold State.tableFor at e
    dsimp only at e
    generalize tab + 8 * (if lvl = 0 then fieldN va 39 16 else fieldN va (12 + 9 * (3 - lvl)) 9) = a at e
    split at e
    · split at e
      · cases e
      · exact ih h e
    · split at e
      · cases e
      · next e1 => exact ih ((ht _ _ h e1).upd) e

theorem State.Linked.mapPage {s : State} {take : State → Option (State × Nat)} {root va : Nat} {w x : Bool} (h : s.Linked L)
    (ht : ∀ s p, s.Linked L → take s = some p → p.1.Linked L) {p : State × Nat} (e : s.mapPage take root va w x = some p) : p.1.Linked L := by
  unfold State.mapPage at e
  split at e
  · cases e
  · next e1 =>
    have h1 := State.Linked.tableFor ht h e1
    dsimp only at e
    split at e
    · cases e
    · split at e
      · cases e
      · next e2 =>
        cases e
        exact (ht _ _ h1 e2).upd

theorem State.Linked.dropLeaves {s : State} {d j va n : Nat} (h : s.Linked L) : (s.dropLeaves d j va n).Linked L := h.modDie.upd

theorem State.Linked.dropAll {s : State} {j va n : Nat} (h : s.Linked L) : (s.dropAll j va n).Linked L :=
  .foldl h fun _ _ h => h.dropLeaves

theorem State.Linked.moveBytes {s : State} {a b n : Nat} (h : s.Linked L) : (s.moveBytes a b n).Linked L := h.upd

theorem State.Linked.releaseErrors {s : State} (h : s.Linked L) : (s.releaseErrors).Linked L := h.upd

theorem State.Linked.takeEffect {s : State} {j : Nat} {w : Shoot} (h : s.Linked L) : (s.takeEffect j w).Linked L := by
  have hm : (w.move.foldl (fun (s : State) m => s.moveBytes m.1 m.2.1 m.2.2) s).Linked L := h.foldl fun _ _ h => h.moveBytes
  unfold State.takeEffect
  dsimp only
  split
  · exact .releaseErrors (.modJob (.dropAll hm.upd))
  · exact .releaseErrors (.upd (.modJob (.dropAll hm.upd)))

theorem State.Linked.endShoot {s : State} {j : Nat} (h : s.Linked L) : (s.endShoot j).Linked L := by
  unfold State.endShoot
  split
  · exact h
  · exact .ite h.takeEffect h

theorem State.Linked.ackShoot {s : State} {d j : Nat} (h : s.Linked L) : (s.ackShoot d j).Linked L := by
  unfold State.ackShoot
  split
  · exact h
  · exact .ite h h.dropLeaves.modJob

theorem State.Linked.changeMap {s : State} {j : Nat} {w : Shoot} (h : s.Linked L) : (s.changeMap j w).Linked L :=
  .ite (.endShoot (.foldl h.modJob fun _ _ h => h.ackShoot)) h.modJob

theorem State.Linked.mapAlias {s : State} {j va n : Nat} (h : s.Linked L) {u : State} (e : s.mapAlias j va n = some u) : u.Linked L := by
  unfold State.mapAlias at e
  split at e
  · cases e
  · refine foldl_some (P := fun t : State => t.Linked L) h (fun o i r ho hr => ?_) e
    cases o with
    | none => cases hr
    | some t =>
      simp only [Option.bind_some, Option.map_eq_some_iff] at hr
      obtain ⟨p, hp, rfl⟩ := hr
      exact (ho t rfl).mapPage (fun _ _ h e => h.nextFrame e) hp

theorem State.Linked.unmapAlias {s : State} {j va n : Nat} (h : s.Linked L) : (s.unmapAlias j va n).Linked L := h.changeMap

theorem State.Linked.moveAlias {s : State} {j va n stack : Nat} (h : s.Linked L) {u : State} (e : s.moveAlias j va n stack = some u) :
    u.Linked L := by
  obtain ⟨b, -, rfl⟩ := Option.map_eq_some_iff.mp e
  exact h.changeMap

theorem State.Linked.orient {s : State} {q : Nat} (h : s.Linked L) : (s.orient q).Linked L := .ite h h.upd

theorem State.Linked.disorient {s : State} {q : Nat} (h : s.Linked L) : (s.disorient q).Linked L := .ite h.upd h

theorem State.Linked.remark {s : State} {old new : Tensor} (h : s.Linked L) : (s.remark old new).Linked L :=
  .foldl (.foldl h fun _ _ h => h.disorient) fun _ _ h => h.orient

theorem State.Linked.tensFill {s : State} {d T : Nat} {k : TensLine} (h : s.Linked L) : (s.tensFill d T k).Linked L :=
  h.setPair.modDie.llcFill

theorem State.Linked.tensRead {s : State} {d T : Nat} {ks : List TensLine} (h : s.Linked L) : (s.tensRead d T ks).Linked L :=
  .ite (.foldl h fun _ _ h => h.tensFill) h

theorem State.Linked.llcMerge {s : State} {pa n : Nat} (h : s.Linked L) : (s.llcMerge pa n).Linked L := by
  unfold State.llcMerge
  split
  · exact h
  · exact h.upd

theorem State.Linked.tensWritten {s : State} {rs : List (Nat × Nat)} (h : s.Linked L) : (s.tensWritten rs).Linked L :=
  .upd (.upd (.foldl (.ite h (.foldl h fun _ _ h => h.llcMerge)) fun _ _ h => h.upd))

/-! ## Tensors: placement and re-representation -/

theorem State.Linked.modTensor {s : State} {j i : Nat} {f : Tensor → Tensor} (h : s.Linked L) : (s.modTensor j i f).Linked L :=
  h.modJob

theorem State.Linked.settleTensor {s : State} {j i : Nat} (h : s.Linked L) : (s.settleTensor j i).Linked L :=
  .ite h (.ite h.modTensor.remark.unmapAlias h.modTensor.remark)

theorem State.Linked.settleIf {s : State} {j i : Nat} (h : s.Linked L) : (s.settleIf j i).Linked L := .ite h.settleTensor h

theorem State.Linked.publishRerep {s : State} {j i : Nat} (h : s.Linked L) : (s.publishRerep j i).Linked L := h.modTensor.remark

theorem State.Linked.convert {j i n : Nat} : ∀ {s : State}, s.Linked L → (s.convert j i n).Linked L := by
  induction n with
  | zero => exact fun h => h
  | succ n ih =>
    intro s h
    unfold State.convert
    split
    · exact ih h.modTensor.publishRerep.settleTensor
    · exact h

theorem State.Linked.convertOwn {s : State} {t : Nat} (h : s.Linked L) : (s.convertOwn t).Linked L := by
  unfold State.convertOwn
  split
  · exact h
  · exact .foldl h fun _ _ h => h.convert

theorem State.Linked.moveTensor {s : State} {j i cls form hint : Nat} {stack : Option Nat} (h : s.Linked L) {u : State}
    (e : s.moveTensor j i cls form hint stack = some u) : u.Linked L := by
  unfold State.moveTensor at e
  dsimp only at e
  split at e
  · obtain ⟨b, -, rfl⟩ := Option.map_eq_some_iff.mp e
    exact h.modTensor
  · cases e

/-! ## Targets of transfers; running one instruction -/

theorem State.Linked.logFetch {s : State} {t c : Nat} {x : Word} (h : s.Linked L) : (s.logFetch t c x).Linked L := .ite h.noteRoute h

theorem LinkM.checkTarget {a : Nat} : LinkM L (Machine.checkTarget a) :=
  .bind .getS fun _ => by
    split
    · exact .pure
    · exact .stop fun _ h => h.logFetch

theorem State.Linked.jump {s : State} {a : Nat} (h : s.Linked L) : (s.jump a).Linked L := h.modSlot

theorem LinkM.transfer {a : Nat} : LinkM L (Machine.transfer a) :=
  .bind .checkTarget fun _ => .bind (.modS fun _ h => h.jump) fun _ => .leave

theorem State.Linked.trapMe {s : State} {c : Nat} {x : Word} (h : s.Linked L) : (s.trapMe c x).Linked L := h.upd.dropOps.takeTrap

theorem State.Linked.mailDone {s : State} {i : Instr} {r : Nat} {v : Word} (h : s.Linked L) : (s.mailDone i r v).Linked L :=
  .ite h.upd.doneMail.fillReg.advance h.askMail.parkOn

/-- The same where the instruction looks at the state that it starts from. -/
theorem LinkOut.runS {i : Instr} {m : State → M Unit} (hm : ∀ s, s.Linked L → LinkM L (m s)) :
    LinkOut L (fun s => Machine.run i (m s) s) := by
  intro s t h e
  dsimp only at e
  unfold Machine.run at e
  split at e
  · cases e
  · split at e
    · cases e
      exact h.mailDone
    · split at e <;> cases e
      · next e1 => exact ((hm s h).ok h e1).advance
      · exact h.trapMe
      · next e1 => exact State.Linked.trapMe ((hm s h).error h e1 _ h)
      · next e1 => exact State.Linked.trapMe ((hm s h).error h e1)
      · next e1 => exact State.Linked.parkOn ((hm s h).error h e1)
      · next e1 => exact (hm s h).error h e1

theorem LinkOut.run {i : Instr} {m : M Unit} (hm : LinkM L m) : LinkOut L (Machine.run i m) := .runS fun _ _ => hm

/-! ## Batons and crews -/

theorem LinkM.reportFail {l : List (Nat × Nat)} : LinkM L (Machine.reportFail l) := by
  unfold Machine.reportFail
  split
  · exact .pure
  · exact .stop fun _ h => h.modSlot

theorem LinkM.waitQuiet {k : WaitKind} : LinkM L (Machine.waitQuiet k) :=
  .bind (.modS fun _ h => .ite h.convertOwn h) fun _ => .bind .getS fun _ => .ite .reportFail .park

theorem State.Linked.depart {s : State} {t dest addr : Nat} (h : s.Linked L) : (s.depart t dest addr).Linked L := h.modSlot.upd

theorem LinkM.migrate {α : Type} {dest : Nat} {a : Int} {crew : Bool} : LinkM L (Machine.migrate dest a crew : M α) :=
  .bind .getS fun _ =>
  .ite .trap
    (.ite .trap
        (.ite .trap
            (.ite .trap
                (.ite .trap (.bind .waitQuiet fun _ => .bind .modMe fun _ => .bind (.modS fun _ h => h.depart) fun _ => .leave)))))

/-! ## Data accesses -/

theorem LinkM.aligned {a : Int} {n : Nat} : LinkM L (Machine.aligned a n) := .ite .pure .trap

theorem LinkM.placeOf {glb : Bool} {a : Int} {n : Nat} {wr amo : Bool} : LinkM L (Machine.placeOf glb a n wr amo) :=
  .ite
    (.bind .resolve fun _ =>
      .bind .getS fun _ => by
        split
        · exact .pure
        · exact .pure
        · exact .ite .pure (.ite (.ite .pure .pure) .pure))
    (.bind .checkLocal fun _ => .pure)

theorem LinkM.access {glb : Bool} {a : Int} {n align : Nat} {wr amo : Bool} : LinkM L (Machine.access glb a n align wr amo) :=
  .bind .aligned fun _ =>
  .bind .placeOf fun _ => by
    split
    · exact .pure
    · exact .migrate

theorem LinkM.loadT {t : Target} {n : Nat} {hint : Bool} : LinkM L (Machine.loadT t n hint) := by
  unfold Machine.loadT
  split
  · exact .loadLocal
  · exact .bind .checkPoison fun _ => .loadCached
  · exact .bind .checkPoison fun _ =>
      .bind .entryReady fun _ => .bind .await fun _ => .bind .checkRoute fun _ => .bind .sampled fun _ => .loadHome
  · exact .hostLoad

theorem LinkM.storeGate {pa va n : Nat} {wr : Bool} : LinkM L (Machine.storeGate pa va n wr) :=
  .bind .getS fun _ => .ite .park (.bind .checkPoison fun _ => .bind .entryReady fun _ => .bind .await fun _ => .checkRoute)

theorem LinkM.storeT {t : Target} {n v scope : Nat} {hint : Bool} : LinkM L (Machine.storeT t n v scope hint) := by
  unfold Machine.storeT
  split
  · exact .storeLocal
  · exact .bind .storeGate fun _ => .storeCached
  · exact .bind .storeGate fun _ => .bind .sampled fun _ => .storePair
  · exact .hostStore

theorem LinkM.updateT {t : Target} {n scope : Nat} {f : Nat → Nat} : LinkM L (Machine.updateT t n scope f) := by
  unfold Machine.updateT
  split
  · exact .bind .boardPark fun _ =>
      .bind .checkSpadPoison fun _ =>
      .bind .spwStore fun _ => .bind .getS fun _ => .bind (.modS fun _ h => h.writeLocal.notify) fun _ => .pure
  · exact .bind .storeGate fun _ => .bind .getS fun _ => .bind .storeCached fun _ => .pure
  · exact .bind .storeGate fun _ => .bind .sampled fun _ => .bind .getS fun _ => .bind .storePair fun _ => .pure
  · exact .bind .getS fun _ => .bind .hostStore fun _ => .pure

theorem LinkM.behalf {a : Int} {wr : Bool} : LinkM L (Machine.behalf a wr) :=
  .bind .resolve fun _ => by
    split
    · exact .pure
    · exact .pure
    · exact .ite .pure (.ite .pure .pure)

theorem LinkM.behalfLoad {a : Int} {n : Nat} : LinkM L (Machine.behalfLoad a n) :=
  .bind .behalf fun _ => by
    split
    · exact .loadT
    · exact .bind .getS fun _ =>
        .ite
          (.bind .park fun _ =>
            .bind .await fun _ =>
            .bind .getS fun _ =>
            .bind (.ensure .noRoute) fun _ => by
              split
              · exact .dataLost
              · exact .bind (.modS fun _ h => h.modSlot.raiseSpw) fun _ => .pure)
          (.bind .await fun _ =>
            .bind .getS fun _ =>
            .bind (.ensure .noRoute) fun _ => by
              split
              · exact .dataLost
              · exact .bind (.modS fun _ h => h.modSlot.raiseSpw) fun _ => .pure)

theorem State.Linked.windowPut {s : State} {c off n v : Nat} (h : s.Linked L) : (s.windowPut c off n v).Linked L :=
  h.modSlot.raiseSpw.modCore.notify

theorem LinkM.behalfGate {p : Target ⊕ (Nat × Nat)} {a n : Nat} : LinkM L (Machine.behalfGate p a n) :=
  .bind .getS fun _ => by
    split
    · exact .boardPark
    · exact .ite (.bind .park fun _ => .bind .checkPoison fun _ => .bind .entryReady fun _ => .checkRoute)
          (.bind .checkPoison fun _ => .bind .entryReady fun _ => .checkRoute)
    · exact .ite (.bind .park fun _ => .bind .checkPoison fun _ => .bind .entryReady fun _ => .checkRoute)
          (.bind .checkPoison fun _ => .bind .entryReady fun _ => .checkRoute)
    · exact .checkRoute
    · exact .ensure .noRoute

theorem LinkM.behalfPut {p : Target ⊕ (Nat × Nat)} {n v : Nat} : LinkM L (Machine.behalfPut p n v) := by
  unfold Machine.behalfPut
  split
  · exact .storeLocal
  · exact .storeCached
  · exact .bind .sampled fun _ => .storePair
  · exact .bind .sampled fun _ => .modS fun _ h => h.hostPut
  · exact .modS fun _ h => h.windowPut

theorem LinkM.behalfStore {a : Int} {n v : Nat} : LinkM L (Machine.behalfStore a n v) :=
  .bind .behalf fun _ => by
    split
    · exact .storeT
    · exact .bind .await fun _ => .bind .getS fun _ => .bind (.ensure .noRoute) fun _ => .modS fun _ h => h.windowPut

theorem LinkM.keepDone {α : Type} {m : M α} (hm : LinkM L m) : LinkM L (Machine.keepDone m) := by
  intro s h
  unfold Machine.keepDone
  split
  · exact h
  · exact hm s h

/-! ## Vector and conversion instructions -/

theorem LinkM.vec2 {o : V3} {f : Nat → Nat → Nat → Nat} : LinkM L (Machine.vec2 o f) :=
  .bind .readV fun _ => .bind .readVSrc fun _ => .writeMasked

theorem LinkM.vec3 {o : V3} {f : Nat → Nat → Nat → Nat → Nat} : LinkM L (Machine.vec3 o f) :=
  .bind .readV fun _ => .bind .readVSrc fun _ => .bind .readV fun _ => .writeMasked

theorem LinkM.vec1 {o : V2} {f : Nat → Nat → Nat} : LinkM L (Machine.vec1 o f) := .bind .readV fun _ => .writeMasked

theorem LinkM.myRnd {rm : Option RMode} : LinkM L (Machine.myRnd rm) := .bind .myself fun _ => .pure

theorem LinkOut.execVabs {o : V2} {sat : Bool} : LinkOut L (Machine.execVabs o sat) := .run .vec1

theorem LinkOut.execVneg {o : V2} {sat : Bool} : LinkOut L (Machine.execVneg o sat) := .run .vec1

theorem LinkOut.execVrcp {o : V2} {rm : Option RMode} : LinkOut L (Machine.execVrcp o rm) := .run (.bind .myRnd fun _ => .vec1)

theorem LinkOut.execVrsq {o : V2} {rm : Option RMode} : LinkOut L (Machine.execVrsq o rm) := .run (.bind .myRnd fun _ => .vec1)

theorem LinkOut.execVexp2 {o : V2} {rm : Option RMode} : LinkOut L (Machine.execVexp2 o rm) :=
  .run (.bind .myRnd fun _ => .vec1)

theorem LinkOut.execVlog2 {o : V2} {rm : Option RMode} : LinkOut L (Machine.execVlog2 o rm) :=
  .run (.bind .myRnd fun _ => .vec1)

theorem LinkOut.execVcvt {o : V2} {src : Ty} {rm : Option RMode} : LinkOut L (Machine.execVcvt o src rm) :=
  .run (.bind .myRnd fun _ => .vec1)

theorem LinkOut.execVpack {d a b : BitVec 4} {p : Perm} {k : BitVec 3} {dst src : Ty}
    {rm : Option RMode} : LinkOut L (Machine.execVpack d a b p k dst src rm) :=
  .run (.bind .myRnd fun _ => .bind .readV fun _ => .bind .readV fun _ => .writeMasked)

theorem LinkOut.execVunpk {o : V2} {src : Ty} {hi : Bool} : LinkOut L (Machine.execVunpk o src hi) :=
  .run (.bind .readV fun _ => .writeMasked)

theorem LinkOut.execVsat {o : V2} {nM1 : BitVec 6} {u : Bool} : LinkOut L (Machine.execVsat o nM1 u) := .run .vec1

theorem LinkM.quantScale {x : QFmt} : LinkM L (Machine.quantScale x) := by
  unfold Machine.quantScale
  split
  · exact .readVSrc
  · exact .readVSrc
  · exact .pure

/-! ## Loads, stores, atomics, remote adds and line operations -/

theorem LinkOut.execLds {n : BitVec 5} {sz : Size} {p : MAddr} : LinkOut L (Machine.execLds n sz p) :=
  .run
    (.bind .myWait fun _ => by
        dsimp only
        split
        · exact .bind .park fun _ =>
            .bind .readG fun _ =>
            .bind .readSrc fun _ =>
            .bind .access fun _ => .bind .loadT fun _ => .ite .writeG (.bind .getS fun _ => .bind .keepWait fun _ => .park)
        · exact .bind .mergePts fun _ =>
            .bind .readG fun _ =>
            .bind .readSrc fun _ =>
            .bind .access fun _ => .bind .loadT fun _ => .ite .writeG (.bind .getS fun _ => .bind .keepWait fun _ => .park)
        · exact .bind .readG fun _ =>
            .bind .readSrc fun _ =>
            .bind .access fun _ => .bind .loadT fun _ => .ite .writeG (.bind .getS fun _ => .bind .keepWait fun _ => .park))

theorem LinkM.checkLanes {ls : List Nat} {addr : Nat → Int} {wr : Bool} : LinkM L (Machine.checkLanes ls addr wr) :=
  .bind (.loopM fun _ => .aligned) fun _ => .loopM fun _ => .checkLocal

theorem LinkM.boardLanes {ls : List Nat} {addr : Nat → Int} : LinkM L (Machine.boardLanes ls addr) := .loopM fun _ => .boardPark

theorem LinkM.stallLanes {ls : List Nat} {addr : Nat → Int} : LinkM L (Machine.stallLanes ls addr) :=
  .modS fun _ h => .ite h.stall h

theorem LinkM.gatherLocal {ls : List Nat} {addr : Nat → Int} {d : BitVec 4} : LinkM L (Machine.gatherLocal ls addr d) :=
  .bind .checkLanes fun _ =>
  .bind .boardLanes fun _ =>
  .bind (.loopM fun _ => .checkSpadPoison) fun _ =>
  .bind .spwLoad fun _ => .bind .stallLanes fun _ => .bind .getS fun _ => .bind .readV fun _ => .writeV

theorem LinkM.scatterLocal {ls : List Nat} {addr : Nat → Int} {x : Row} : LinkM L (Machine.scatterLocal ls addr x) :=
  .bind .checkLanes fun _ =>
  .bind .boardLanes fun _ =>
  .bind .spwStore fun _ => .bind .stallLanes fun _ => .modS fun _ h => .foldl h fun _ _ h => h.writeLocal.notify

theorem LinkM.laneTarget {a : Int} {wr : Bool} : LinkM L (Machine.laneTarget a wr) :=
  .bind .aligned fun _ =>
  .bind .placeOf fun _ => by
    split
    · exact .pure
    · exact .trap

theorem LinkM.longLanes {ls : List Nat} {f : Nat → M Unit} (hf : ∀ l, LinkM L (f l)) : LinkM L (Machine.longLanes ls f) :=
  .bind .myself fun _ => .bind (.loopM fun l => .bind .modSp fun _ => .keepDone (hf l)) fun _ => .modSp

theorem LinkM.keepRow {key : Nat} {m : M Row} (hm : LinkM L m) : LinkM L (Machine.keepRow key m) :=
  .bind .myWait fun _ => .ite (.bind hm fun _ => .bind .keepWait fun _ => .pure) .pure

theorem LinkM.gatherForm {glb : Bool} {k : BitVec 3} {d : BitVec 4}
    {addr : Nat → Int} : LinkM L (Machine.gatherForm glb k d addr) :=
  .bind .readK fun _ =>
  .ite (.longLanes (fun _ => .bind .laneTarget fun _ => .bind .loadT fun _ => .bind .readV fun _ => .writeV)) .gatherLocal

theorem LinkM.scatterForm {glb : Bool} {k : BitVec 3} {x : Row} {addr : Nat → Int} : LinkM L (Machine.scatterForm glb k x addr) :=
  .bind .readK fun _ => .ite (.longLanes (fun _ => .bind .laneTarget fun _ => .storeT)) .scatterLocal

theorem LinkM.stridedAddr {o : Strided} : LinkM L (Machine.stridedAddr o) :=
  .bind .readSrc fun _ => .bind .readSR fun _ => .pure

theorem LinkM.gatheredAddr {o : Gathered} : LinkM L (Machine.gatheredAddr o) :=
  .bind .readSrc fun _ => .bind (.keepRow .readV) fun _ => .pure

theorem LinkM.atomic {o : Amo} {op : Nat → Nat → Nat} : LinkM L (Machine.atomic o op) :=
  .bind .readAB fun _ => .bind .access fun _ => .bind .updateT fun _ => .writeSR

theorem LinkM.raddPlain {t : Target} {ty : RTy} {n : Nat} {es : List (Nat × Nat)} : LinkM L (Machine.raddPlain t ty n es) :=
  .bind .updateT fun _ => .pure

theorem State.Linked.closeRound {s : State} {r : Round} (h : s.Linked L) : (s.closeRound r).Linked L :=
  .ite h.storeAt h.raiseSpw.modCore.notify

theorem State.Linked.closeAll {n : Nat} : ∀ {s : State} {r : Round}, s.Linked L → (Machine.closeAll n s r).Linked L := by
  induction n with
  | zero => exact fun h => h
  | succ n ih =>
    intro s r h
    unfold Machine.closeAll
    split
    · dsimp only
      split
      · exact h.closeRound
      · exact ih h.closeRound
    · exact h

theorem State.Linked.contribute {s : State} {line : Nat} {c : Contrib} (h : s.Linked L) : (s.contribute line c).Linked L :=
  h.upd.closeAll

theorem LinkM.stagePage {pa va w : Nat} {ty : RTy} {n idx : Nat}
    {es : List (Nat × Nat)} : LinkM L (Machine.stagePage pa va w ty n idx es) :=
  .bind .getS fun _ =>
  .ite
    (.bind .park fun _ =>
      .bind .checkPoison fun _ =>
      .bind .entryReady fun _ =>
      .bind .await fun _ =>
      .bind .checkRoute fun _ =>
      .bind .sampled fun _ => .bind (.modS fun _ h => h.modSlot) fun _ => .modS fun _ h => h.contribute)
    (.bind .checkPoison fun _ =>
      .bind .entryReady fun _ =>
      .bind .await fun _ =>
      .bind .checkRoute fun _ =>
      .bind .sampled fun _ => .bind (.modS fun _ h => h.modSlot) fun _ => .modS fun _ h => h.contribute)

theorem LinkM.raddStage {t : Target} {ty : RTy} {n idx w : Nat}
    {es : List (Nat × Nat)} : LinkM L (Machine.raddStage t ty n idx w es) := by
  unfold Machine.raddStage
  split
  · exact .bind .boardPark fun _ => .bind .checkSpadPoison fun _ => .bind .spwStore fun _ => .modS fun _ h => h.contribute
  · exact .stagePage
  · exact .stagePage
  · exact .pure

theorem LinkM.orderOf {o : Word} : LinkM L (Machine.orderOf o) := .bind (.ensure .illegalOp) fun _ => .pure

theorem State.Linked.dropLine {s : State} {d line : Nat} (h : s.Linked L) : (s.dropLine d line).Linked L := h.upd.modDie

theorem State.Linked.writeBack {s : State} {d line : Nat} (h : s.Linked L) : (s.writeBack d line).Linked L := .ite h.setPair h

theorem LinkOut.execClineWb {a : Src} {off : BitVec 32} : LinkOut L (Machine.execClineWb a off) :=
  .run
    (.bind .readSrc fun _ =>
      .modS fun _ h => by
        split
        · exact h
        · exact h.writeBack)

theorem LinkOut.execClineEvict {a : Src} {off : BitVec 32} : LinkOut L (Machine.execClineEvict a off) :=
  .run
    (.bind .readSrc fun _ =>
      .modS fun _ h => by
        split
        · exact h
        · exact h.writeBack.dropLine)

theorem State.Linked.prefetch {s : State} {j line pts : Nat} (h : s.Linked L) : (s.prefetch j line pts).Linked L :=
  .ite h h.setPair.fillBoth

theorem LinkOut.execClinePf {a : Src} {off : BitVec 32} : LinkOut L (Machine.execClinePf a off) :=
  .run
    (.bind .readSrc fun _ =>
      .modS fun _ h => by
        split
        · exact h
        · exact .ite h.prefetch h)

/-! ## Fences, full bits, messages, counters, hurdles and views -/

theorem LinkOut.execSfill {d : SReg} {a : Src} : LinkOut L (Machine.execSfill d a) :=
  .run
    (.bind .getS fun _ =>
      .bind (.ensure .illegalOp) fun _ =>
      .bind .readSrc fun _ => by
        split
        · exact .pure
        · exact .sfillShared)

theorem LinkM.sendTarget {a : Word} {port : BitVec 3} : LinkM L (Machine.sendTarget a port) :=
  .bind .getS fun _ => .ite .trap (.ite .trap .pure)

theorem LinkOut.execQsend {p : BitVec 3} {a : Src} {b : BitVec 5} {nM1 : BitVec 3} : LinkOut L (Machine.execQsend p a b nM1) :=
  .run
    (.bind .myWait fun _ =>
      .ite .pure
        (.bind .readSrc fun _ =>
          .bind .sendTarget fun _ =>
          .bind .myself fun _ =>
          .bind .getS fun _ => .ite (.modS fun _ h => h.upd.deliver) (.bind (.modS fun _ h => h.upd) fun _ => .park)))

theorem State.Linked.setCtr {s : State} {c b n : Nat} {x : Counter} (h : s.Linked L) : (s.setCtr c b n x).Linked L :=
  .ite h.modBank h.modBank.signal

theorem State.Linked.countChunk {s : State} {c b n bytes stamp id : Nat} (h : s.Linked L) :
    (s.countChunk c b n bytes stamp id).Linked L := .ite h.setCtr h.setCtr

theorem State.Linked.failCtr {s : State} {c b n err id : Nat} (h : s.Linked L) : (s.failCtr c b n err id).Linked L := .ite h.setCtr h

theorem LinkM.myCtr {n : BitVec 5} : LinkM L (Machine.myCtr n) := fun _ h => h

theorem LinkM.setMyCtr {n : BitVec 5} {x : Counter} : LinkM L (Machine.setMyCtr n x) := .modS fun _ h => h.setCtr

theorem LinkM.notFar : LinkM L Machine.notFar := .bind .getS fun _ => .ensure .illegalOp

theorem LinkM.overflowTrap {α : Type} {n : BitVec 5} : LinkM L (Machine.overflowTrap n : M α) := .trap

theorem LinkM.checkErr {n : BitVec 5} {x : Counter} : LinkM L (Machine.checkErr n x) := .ite .pure (.ite .overflowTrap .trap)

theorem State.Linked.modHb {s : State} {c n : Nat} {f : Hurdle → Hurdle} (h : s.Linked L) : (s.modHb c n f).Linked L := h.modCore

theorem LinkM.localOnly : LinkM L Machine.localOnly := .bind .getS fun _ => .ensure .illegalOp

theorem LinkM.writeHb {n : Nat} {v : Word} : LinkM L (Machine.writeHb n v) :=
  .bind .getS fun _ => .bind (.ensure .illegalOp) fun _ => .modS fun _ h => h.modHb

theorem State.Linked.hbSend {s : State} {c n : Nat} (h : s.Linked L) : (s.hbSend c n).Linked L := .ite h h.upd.modHb

theorem State.Linked.hbReceive {s : State} {g : HSig} (h : s.Linked L) : (s.hbReceive g).Linked L := h.modHb.hbSend

theorem State.Linked.hbRelease {s : State} {g : HSig} (h : s.Linked L) : (s.hbRelease g).Linked L := h.upd.modHb.upd.hbSend

theorem State.Linked.hbDeliver {s : State} {g : HSig} (h : s.Linked L) : (s.hbDeliver g).Linked L := .ite h.hbRelease h.hbReceive

theorem State.Linked.hbRun {n : Nat} : ∀ {s : State}, s.Linked L → (State.hbRun n s).Linked L := by
  induction n with
  | zero => exact fun h => h
  | succ n ih =>
    intro s h
    unfold State.hbRun
    split
    · exact h
    · exact ih (State.Linked.hbDeliver h)

theorem LinkM.hbArrive {n : Nat} : LinkM L (Machine.hbArrive n) :=
  .bind .getS fun _ => .bind (.modS fun _ h => h.modHb) fun _ => .bind (.modS fun _ h => h.hbSend) fun _ => .pure

theorem LinkM.hbLeave {broken : Bool} {pts : Nat} : LinkM L (Machine.hbLeave broken pts) :=
  .bind .mergePts fun _ => .ite .trapAt .pure

theorem LinkOut.execHurdle {n : BitVec 2} : LinkOut L (Machine.execHurdle n) :=
  .run
    (.bind .localOnly fun _ =>
      .bind .myWait fun _ => by
        split
        · exact .hbLeave
        · exact .park
        · exact .bind .getS fun _ =>
            .bind (.ensure .illegalOp) fun _ =>
            .bind .hbArrive fun _ =>
            .bind .keepWait fun _ =>
            .ite
              (.bind (.modS fun _ h => h.hbRun) fun _ =>
                .bind .myWait fun _ => by
                  split
                  · exact .hbLeave
                  · exact .park)
              (.bind .myWait fun _ => by
                  split
                  · exact .hbLeave
                  · exact .park))

theorem LinkM.writeView {n : Nat} {v : Word} : LinkM L (Machine.writeView n v) :=
  .bind .getS fun _ => .bind (.ensure .illegalOp) fun _ => .ite .park (.modS fun _ h => h.modCore)

/-! ## Handles, stamps, shadows and publishes -/

theorem State.Linked.lineLoad {s : State} {j cls pa ts : Nat} (h : s.Linked L) : (s.lineLoad j cls pa ts).1.Linked L :=
  .iteFst h (.ite h.setPair.llcFill h.setPair)

theorem State.Linked.agentLoad {s : State} {d j va n ts : Nat} {queue : Bool} (h : s.Linked L) {p : State × Nat × Nat}
    (e : s.agentLoad d j va n ts queue = .ok p) : p.1.Linked L := by
  unfold State.agentLoad at e
  split at e
  · cases e
  · split at e
    · cases e
    · dsimp only at e
      split at e
      · cases e
      · split at e
        · cases e
        · cases e
          exact State.Linked.foldlFst h.sample fun _ _ h => h.lineLoad

theorem LinkM.checkTensorPoison {h : Nat} {t : Tensor} {segs : List Nat} : LinkM L (Machine.checkTensorPoison h t segs) :=
  .ensure .dataLost

theorem State.Linked.readAlias {s : State} {d j : Nat} {t : Tensor} {T p r nr c nc : Nat} (h : s.Linked L) {q : State × Nat}
    (e : s.readAlias d j t T p r nr c nc = .ok q) : q.1.Linked L := by
  unfold State.readAlias at e
  dsimp only at e
  split at e
  · cases e
    exact h
  · refine foldl_ok (P := fun q : State × Nat => q.1.Linked L) h (fun o v r ho hr => ?_) e
    cases o with
    | error x => cases hr
    | ok q =>
      dsimp only at hr
      split at hr
      · next e1 =>
        cases hr
        exact (ho q rfl).agentLoad e1
      · cases hr
        exact ho q rfl
      · cases hr

theorem LinkM.lostStop {α : Type} {fault : M α} {kind place : Nat} {e : Lost} (hf : LinkM L fault) :
    LinkM L (Machine.lostStop fault kind place e) := by
  cases e with
  | fault => exact hf
  | poison => exact .dataLost
  | error => exact .park
  | moving => exact .park

theorem LinkM.touchAlias {h : Nat} {t : Tensor} {T p r nr c nc : Nat} : LinkM L (Machine.touchAlias h t T p r nr c nc) :=
  .bindS fun _ h0 => by
    split
    · next e1 =>
        exact .bind (.modS fun _ _ => h0.readAlias e1) fun _ => .mergePts
    · exact .lostStop .dataLost

theorem LinkM.planeLoad {hH T va n : Nat} : LinkM L (Machine.planeLoad hH T va n) :=
  .bindS fun _ h0 => by
    split
    · next e1 =>
        exact .bind (.modS fun _ _ => h0.agentLoad e1) fun _ => .bind .mergePts fun _ => .pure
    · exact .lostStop .trap

theorem LinkM.elemValue {hH : Nat} {t : Tensor} {T p i j : Nat} : LinkM L (Machine.elemValue hH t T p i j) :=
  .bind .getS fun _ =>
  .ite .pure
    (by
      dsimp only
      split
      · exact .pure
      · exact .pure
      · exact .pure
      · exact .bind .planeLoad fun _ => .pure
      · exact .bind .planeLoad fun _ => .bind .planeLoad fun _ => .bind .planeLoad fun _ => .pure
      · exact .bind .planeLoad fun _ => .bind .planeLoad fun _ => .bind .planeLoad fun _ => .pure
      · split
        · exact .ite .pure (.bind .planeLoad fun _ => .pure)
        · exact .pure
        · exact .pure)

theorem LinkM.checkStale {h : Nat} : LinkM L (Machine.checkStale h) :=
  .bind .getS fun _ => by
    split
    · exact .pure
    · exact .trap

theorem LinkM.checkCaps {h need : Nat} {t : Tensor} : LinkM L (Machine.checkCaps h need t) := by
  unfold Machine.checkCaps
  split
  · exact .trap
  · exact .pure

theorem LinkM.checkHandle {h need : Nat} : LinkM L (Machine.checkHandle h need) :=
  .bind .checkStale fun _ => .bind .checkCaps fun _ => .pure

theorem LinkM.entry {h : Nat} : LinkM L (Machine.entry h) := fun _ hs => hs

theorem LinkM.modEntry {h : Nat} {f : Tensor → Tensor} : LinkM L (Machine.modEntry h f) := .modS fun _ h => h.modTensor

theorem LinkM.notRefused {h : Nat} : LinkM L (Machine.notRefused h) := .bind .myself fun _ => .ensure .trap

theorem LinkM.checkPool {h n : Nat} : LinkM L (Machine.checkPool h n) := .bind .getS fun _ => .ensure .trap

theorem LinkM.stampHandle {k h hH need : Nat} {kind : OpKind}
    {exts : Tensor → List Ext} : LinkM L (Machine.stampHandle k h hH need kind exts) :=
  .bind .myWait fun _ => by
    split
    · exact .pure
    · exact .bind .await fun _ =>
        .bind .getS fun _ =>
        .bind (.ensure .noRoute) fun _ =>
        .bind .checkHandle fun _ =>
        .ite (.bind .checkPool fun _ => .bind .modEntry fun _ => .bind .mergePts fun _ => .bind .keepWait fun _ => .pure)
          (.bind .modEntry fun _ => .bind .mergePts fun _ => .bind .keepWait fun _ => .pure)

theorem LinkM.convertFor {h T : Nat} : LinkM L (Machine.convertFor h T) := .modS fun _ h => .ite h.convert h

theorem LinkM.opTurn {h T : Nat} : LinkM L (Machine.opTurn h T) :=
  .bind .convertFor fun _ =>
  .bind .entry fun _ => by
    split
    · exact .pure
    · exact .ite .park (.ite (.bind .getS fun _ => .bind .checkTensorPoison fun _ => .ite .park (.ite .modEntry .park)) .pure)

theorem LinkM.retireOp {h T : Nat} : LinkM L (Machine.retireOp h T) := .bind .modEntry fun _ => .modS fun _ h => h.settleIf

theorem LinkM.keepShadow {es : List (Nat × Nat)} : LinkM L (Machine.keepShadow es) := .keepWait

theorem State.Linked.writeAlias {s : State} {j : Nat} {t : Tensor} {es : List (Nat × Nat)} (h : s.Linked L) :
    (s.writeAlias j t es).Linked L :=
  .foldl h fun _ _ h => by
    dsimp only
    split
    · exact h
    · exact h.upd

theorem State.Linked.install {s : State} {j i T : Nat} {es : List (Nat × Nat)} (h : s.Linked L) : (s.install j i T es).Linked L :=
  .ite (.modTensor (.ite h.writeAlias h.modTensor.tensWritten)) (.ite h.writeAlias h.modTensor.tensWritten)

theorem State.Linked.publishAs {s : State} {j i T tm : Nat} {es : List (Nat × Nat)} (h : s.Linked L) :
    (s.publishAs j i T tm es).Linked L :=
  .modTensor (.ite (.foldl (.ite h.install h.install.upd) fun _ _ h => h.setPair.notify) (.ite h.install h.install.upd))

theorem State.Linked.publishAt {s : State} {j i T tm : Nat} {es : List (Nat × Nat)} (h : s.Linked L) :
    (s.publishAt j i T tm es).1.Linked L := h.publishAs

theorem LinkM.publishMine {h T : Nat} : LinkM L (Machine.publishMine h T) :=
  .bind .await fun _ =>
  .bind .myWait fun _ =>
  .bindS fun _ h0 =>
  .bind (.modS fun _ _ => h0.publishAt) fun _ => .bind .modMe fun _ => .bind (.modS fun _ h => h.settleIf) fun _ => .pure

theorem LinkM.addLine {h T : Nat} {es : List (Nat × Nat)} : LinkM L (Machine.addLine h T es) :=
  .bind .await fun _ =>
  .bind .getS fun _ =>
  .bind (.modS fun _ h => h.install) fun _ =>
  .ite
    (.loopM fun _ =>
      .bind .getS fun _ => by
        split
        · exact .pure
        · exact .bind (.modS fun _ h => h.setPair.notify) fun _ => .mergePts)
    .pure

theorem LinkM.checkTile {l rows rb pitch al : Nat} {wr : Bool} : LinkM L (Machine.checkTile l rows rb pitch al wr) :=
  .bind (.ensure .badFormat) fun _ => .bind .checkLocal fun _ => .aligned

theorem LinkM.boardEnter {id lo n : Nat} {wr : Bool} : LinkM L (Machine.boardEnter id lo n wr) :=
  .bind .getS fun _ => .ite .pure (.ite .park (.modS fun _ h => h.modCore))

theorem State.Linked.boardLeave {s : State} {t id : Nat} (h : s.Linked L) : (s.boardLeave t id).Linked L := h.modCore

theorem LinkM.boardDone : LinkM L Machine.boardDone := .modS fun _ h => h.boardLeave

theorem LinkM.engineRead {a n : Nat} : LinkM L (Machine.engineRead a n) :=
  .bind .checkSpadPoison fun _ => .bind .getS fun _ => .bind (.modS fun _ h => h.stallEngine) fun _ => .pure

theorem State.Linked.padWords {s : State} {c : Nat} {ws : List Nat} {a n v ts : Nat} (h : s.Linked L) :
    (s.padWords c ws a n v ts).Linked L := .ite h.modCore.notify (.foldl h.modCore fun _ _ h => h.notify)

theorem LinkM.engineWrite {a n v : Nat} : LinkM L (Machine.engineWrite a n v) :=
  .modS fun _ h => h.stallEngine.writeLocal.notify

theorem LinkM.engineDone : LinkM L Machine.engineDone := .modS fun _ h => h.raiseSpw

theorem LinkM.tensorSlot : LinkM L Machine.tensorSlot := .bind .getS fun _ => .ensure .illegalOp

theorem LinkM.engineStep {k : Nat} {m : M Unit} (hm : LinkM L m) : LinkM L (Machine.engineStep k m) :=
  .bind .myWait fun _ => .ite .pure (.bind .await fun _ => .bind hm fun _ => .keepWait)

theorem LinkM.setProg {k : Nat} : LinkM L (Machine.setProg k) := .modSp

theorem LinkM.longTrap {onLoss m : M Unit} (ho : LinkM L onLoss) (hm : LinkM L m) : LinkM L (Machine.longTrap onLoss m) := by
  intro s h
  unfold Machine.longTrap
  split
  · split
    · split
      · next e => exact ho.ok h e
      · exact h
    · split
      · next e => exact LinkM.setProg.ok h e
      · exact h
  · exact hm s h

theorem LinkM.longStep {k : Nat} {onLoss m : M Unit} (ho : LinkM L onLoss) (hm : LinkM L m) : LinkM L (Machine.longStep k onLoss m) :=
  .bind .setProg fun _ => .engineStep (.longTrap ho hm)

/-! ## Tile and element instructions -/

theorem LinkM.checkPitch {f : Tag} {view : BitVec 4} {n : Nat} : LinkM L (Machine.checkPitch f view n) := .ensure .badFormat

theorem LinkM.checkColumns {f : Tag} {q : Region} : LinkM L (Machine.checkColumns f q) := .ensure .badFormat

theorem LinkM.readStorage {h : Nat} {t : Tensor} {T : Nat} {es : List Ext}
    {cols : Bool} : LinkM L (Machine.readStorage h t T es cols) :=
  .bind .checkTensorPoison fun _ => .bind .getS fun _ => .ite .park (.modS fun _ h => h.tensRead)

theorem LinkM.readRegion {h : Nat} {t : Tensor} {T : Nat} {q : Region} {cols : Bool} : LinkM L (Machine.readRegion h t T q cols) :=
  .bind .readStorage fun _ => .touchAlias

theorem LinkM.stamped : LinkM L Machine.stamped := .bind .myWait fun _ => .pure

theorem LinkM.mapL {α β : Type} {f : α → M β} (hf : ∀ x, LinkM L (f x)) : ∀ {l : List α}, LinkM L (Machine.mapL f l)
  | [] => .pure
  | x :: _ => .bind (hf x) fun _ => .bind (.mapL hf) fun _ => .pure

theorem LinkM.checkProg {steps : Nat} : LinkM L (Machine.checkProg steps) := .bind .myself fun _ => .ensure .illegalOp

theorem LinkM.tileRegs {o : TileArgs} : LinkM L (Machine.tileRegs o) :=
  .bind .tensorSlot fun _ => .bind .readSR fun _ => .bind .readSR fun _ => .bind .readSR fun _ => .pure

theorem LinkM.unstamped {m : M Unit} (hm : LinkM L m) : LinkM L (Machine.unstamped m) := .bind .stamped fun _ => .ite .pure hm

theorem LinkM.tldChecks {o : TileArgs} {h l : Nat} {q : Region} : LinkM L (Machine.tldChecks o h l q) :=
  .bind .checkHandle fun _ => .bind .checkColumns fun _ => .bind .checkTile fun _ => .bind .notRefused fun _ => .boardEnter

theorem LinkM.tldRows {o : TileArgs} {h l T : Nat} {q : Region} : LinkM L (Machine.tldRows o h l T q) :=
  .bind .entry fun _ => .bind .readRegion fun _ => .loopM fun _ => .bind .getS fun _ => .engineWrite

theorem LinkM.tldtChecks {o : TileArgs} {h l : Nat} {q : Region} : LinkM L (Machine.tldtChecks o h l q) :=
  .bind .checkHandle fun _ =>
  .bind (.ensure .badFormat) fun _ => .bind .checkTile fun _ => .bind .notRefused fun _ => .boardEnter

theorem LinkM.tldtRows {o : TileArgs} {h l T : Nat} {q : Region} : LinkM L (Machine.tldtRows o h l T q) :=
  .bind .entry fun _ => .bind .readRegion fun _ => .loopM fun _ => .bind .getS fun _ => .engineWrite

theorem LinkM.storeTileChecks {o : TileArgs} {h l : Nat} {q : Region} {need : Nat}
    {ok : Tag → Bool} : LinkM L (Machine.storeTileChecks o h l q need ok) :=
  .bind .checkHandle fun _ =>
  .bind (.ensure .badFormat) fun _ =>
  .bind .checkColumns fun _ => .bind .checkTile fun _ => .bind .notRefused fun _ => .boardEnter

theorem LinkM.tstRows {o : TileArgs} {h l : Nat} {q : Region} : LinkM L (Machine.tstRows o h l q) :=
  .bind .entry fun _ => .loopM fun _ => .bind .engineRead fun _ => .keepShadow

theorem LinkM.addLines {h T : Nat} {t : Tensor} {es : List (Nat × Nat)} {add : Nat → Nat → Nat} :
    ∀ {l : List Nat} {k : Nat}, LinkM L (Machine.addLines h T t es add l k)
  | [], _ => .pure
  | _ :: _, _ => .bind .myWait fun _ => .ite (.bind .pure fun _ => .addLines) (.bind .getS fun _ => .bind .entry fun _ =>
      .bind .addLine fun _ => .bind .keepWait fun _ => .addLines)

theorem LinkM.tstAddRows {o : TileArgs} {h l T : Nat} {q : Region} : LinkM L (Machine.tstAddRows o h l T q) :=
  .bind .entry fun _ => .bind .readRegion fun _ => .tstRows

theorem LinkM.tstAddLines {h T : Nat} : LinkM L (Machine.tstAddLines h T) :=
  .bind .entry fun _ => .bind .myWait fun _ => .addLines

theorem LinkM.tredOf {hH : Nat} {t : Tensor} {T p : Nat} {op : TRedOp} {k : Rnd}
    {es : List (Nat × Nat)} : LinkM L (Machine.tredOf hH t T p op k es) :=
  .ite (.bind .getS fun _ => .pure) (.bind (.mapL (fun _ => .elemValue)) fun _ => .pure)

theorem LinkM.tredWrite {l lo hi : Nat} : LinkM L (Machine.tredWrite l lo hi) :=
  .ite (.bind .myWait fun _ => .engineWrite) .pure

theorem LinkM.tredChecks {h l : Nat} {q : Region} {view : BitVec 4}
    {need n : Nat} : LinkM L (Machine.tredChecks h l q view need n) :=
  .bind .checkHandle fun _ =>
  .bind .checkColumns fun _ =>
  .bind .checkPitch fun _ => .bind .checkLocal fun _ => .bind .aligned fun _ => .bind .notRefused fun _ => .boardPark

theorem LinkM.tredFirst : LinkM L Machine.tredFirst :=
  .bind .myself fun _ => .bind .myWait fun _ => .bind .keepWait fun _ => .pure

theorem LinkM.tredRowStep {h T : Nat} {q : Region} {op : TRedOp} {rnd : Rnd}
    {k : Nat} : LinkM L (Machine.tredRowStep h T q op rnd k) :=
  .bind .entry fun _ => .bind .readRegion fun _ => .loopM fun _ => .bind .tredOf fun _ => .keepWait

theorem LinkM.tredRowRun {h l T k0 : Nat} {q : Region} {op : TRedOp}
    {rnd : Rnd} : LinkM L (Machine.tredRowRun h l T k0 q op rnd) :=
  .bind (.loopM fun _ => .longStep (.bind .tredWrite fun _ => .engineDone) .tredRowStep) fun _ =>
  .bind .tredWrite fun _ => .setProg

theorem LinkM.tredColStep {h T : Nat} {q : Region} {op : TRedOp} {rnd : Rnd} : LinkM L (Machine.tredColStep h T q op rnd) :=
  .bind .entry fun _ => .bind .readRegion fun _ => .loopM fun _ => .bind .tredOf fun _ => .keepWait

theorem LinkM.ewStep {h T : Nat} {rnd : Rnd} {g : FV → FV → FV} {q : Region} {k : Nat} {ys : Nat → M (List Nat)}
    (hy : ∀ i, LinkM L (ys i)) : LinkM L (Machine.ewStep h T rnd g q k ys) :=
  .bind .entry fun _ => .bind .readRegion fun _ => .loopM fun i => .bind (hy _) fun _ => .bind .getS fun _ => by
    split
    · exact .pure
    · exact .keepShadow

theorem LinkM.writerSteps {n : Nat} {f : Nat → M Unit} (hf : ∀ k, LinkM L (f k)) : LinkM L (Machine.writerSteps n f) :=
  .bind .myself fun _ => .bind (.loopM fun k => .longStep .setProg (hf k)) fun _ => .setProg

theorem LinkM.tscaleChecks {h : Nat} {view : BitVec 4} {q : Region} : LinkM L (Machine.tscaleChecks h view q) :=
  .bind .checkHandle fun _ => .bind (.ensure .badFormat) fun _ => .bind .checkPitch fun _ => .notRefused

theorem LinkM.tscaleRun {h T z : Nat} {q : Region} {rnd : Rnd} : LinkM L (Machine.tscaleRun h T z q rnd) :=
  .writerSteps (fun _ => .ewStep (fun _ => .pure))

theorem LinkM.tewParts {rdn : Bool} {x : TewArg} : LinkM L (Machine.tewParts rdn x) := by
  unfold Machine.tewParts
  split
  · exact .bind .readSR fun _ => .pure
  · exact .bind .readG fun _ => .pure
  · exact .pure

theorem LinkM.tewChecks {h : Nat} {tile : Option Nat} {view : BitVec 4} {q : Region} : LinkM L (Machine.tewChecks h tile view q) :=
  .bind .checkHandle fun _ =>
  .bind (.ensure .badFormat) fun _ => by
    split
    · exact .bind .checkPitch fun _ => .notRefused
    · exact .bind .checkTile fun _ => .bind .notRefused fun _ => .boardPark

theorem LinkM.tewRow {tile : Option Nat} {pitch sc : Nat} {q : Region} {i : Nat} : LinkM L (Machine.tewRow tile pitch sc q i) := by
  unfold Machine.tewRow
  split
  · exact .pure
  · exact .bind .engineRead fun _ => .pure

theorem LinkM.tewRun {h T : Nat} {g : FV → FV → FV} {tile : Option Nat} {pitch sc : Nat} {q : Region}
    {rnd : Rnd} : LinkM L (Machine.tewRun h T g tile pitch sc q rnd) := .writerSteps (fun _ => .ewStep (fun _ => .tewRow))

theorem LinkM.copyStep {hd hs Ts : Nat} {rnd : Rnd} {tr : Bool} {d q : Region}
    {k : Nat} : LinkM L (Machine.copyStep hd hs Ts rnd tr d q k) :=
  .bind .entry fun _ => .bind .entry fun _ => .bind .readRegion fun _ => .loopM fun _ => .bind .getS fun _ => .keepShadow

theorem LinkM.checkTwo {h hneed k kneed : Nat} : LinkM L (Machine.checkTwo h hneed k kneed) :=
  .bind .checkStale fun _ => .bind .checkStale fun _ => .bind .checkCaps fun _ => .bind .checkCaps fun _ => .pure

theorem LinkM.tcopyChecks {hd hs need : Nat} {tr : Bool} {view : BitVec 4}
    {d q : Region} : LinkM L (Machine.tcopyChecks hd hs need tr view d q) :=
  .bind .checkTwo fun _ =>
  .bind (.ensure .badFormat) fun _ =>
  .bind (.ensure .badFormat) fun _ =>
  .bind .checkColumns fun _ => .bind .checkColumns fun _ => .bind .checkPitch fun _ => .bind .notRefused fun _ => .checkPool

theorem LinkOut.execTcopy {h : SReg} {c l : BitVec 5} {sh : TShape} {t : Bool}
    {rm : Option RMode} : LinkOut L (Machine.execTcopy h c l sh t rm) :=
  .run
    (.bind .tensorSlot fun _ =>
      .bind .readSR fun _ =>
      .bind .readG fun _ =>
      .bind .readG fun _ =>
      .bind .readG fun _ =>
      .bind .checkProg fun _ =>
      .bind (.unstamped .tcopyChecks) fun _ =>
      .bind .stampHandle fun _ =>
      .bind .stampHandle fun _ =>
      .bind .opTurn fun _ =>
      .bind .opTurn fun _ =>
      .bind .myself fun _ =>
      .bind (.writerSteps (fun _ => .copyStep)) fun _ => .bind .retireOp fun _ => .bind .publishMine fun _ => .pure)

theorem LinkM.gatherChecks {h need : Nat} : LinkM L (Machine.gatherChecks h need) :=
  .bind .stamped fun _ => .ite .pure (.bind .checkHandle fun _ => .bind (.ensure .badFormat) fun _ => .notRefused)

theorem LinkM.gatherRegs {o : TGathered} : LinkM L (Machine.gatherRegs o) :=
  .bind .readSrc fun _ => .bind .readG fun _ => .bind (.keepRow .readV) fun _ => .pure

theorem LinkM.laneSteps {ls : List Nat} {f : Nat → M Unit} (hf : ∀ l, LinkM L (f l)) : LinkM L (Machine.laneSteps ls f) :=
  .bind .myself fun _ => .bind (.loopM fun l => .bind .setProg fun _ => .engineStep (hf l)) fun _ => .setProg

theorem LinkM.gatherLane {v : BitVec 4} {h T : Nat} {crd : Crd} {y : Row} {l : Nat} : LinkM L (Machine.gatherLane v h T crd y l) :=
  .keepDone (.bind .entry fun _ => .bind .readRegion fun _ => .bind .getS fun _ => .bind .readV fun _ => .writeV)

theorem LinkM.scatterLane {h : Nat} {crd : Crd} {y v : Row} {l : Nat} : LinkM L (Machine.scatterLane h crd y v l) :=
  .bind .entry fun _ => .ite .keepShadow .pure

/-! ## Copies and streamers -/

theorem State.Linked.setCopy {s : State} {k : Copy} (h : s.Linked L) : (s.setCopy k).Linked L := h.upd

theorem State.Linked.copyStalls {s : State} {k : Copy} (h : s.Linked L) : (s.copyStalls k).Linked L := by
  unfold State.copyStalls
  dsimp only
  split
  · exact .foldl h fun _ _ h => h.stallEngine
  · exact .foldl (.foldl h fun _ _ h => h.stallEngine) fun _ _ h => h.stallEngine

theorem State.Linked.raiseLaunch {s : State} {j : Nat} {id : Word} {tm : Nat} (h : s.Linked L) : (s.raiseLaunch j id tm).Linked L :=
  h.modJob

theorem State.Linked.retireCopy {s : State} {k : Copy} {tm : Nat} (h : s.Linked L) : (s.retireCopy k tm).Linked L :=
  .ite (.boardLeave (.modSlot (.raiseLaunch (.modBank (.ite h.upd h.setCopy)))))
    (.signal (.boardLeave (.modSlot (.raiseLaunch (.modBank (.ite h.upd h.setCopy))))))

theorem State.Linked.finishCopy {s : State} {k : Copy} (h : s.Linked L) : (s.finishCopy k).Linked L := by
  unfold State.finishCopy
  dsimp only
  split
  · exact h.copyStalls.modTensor.settleIf.retireCopy
  · exact .retireCopy
        (.settleIf
            (by
              split
              · exact h.copyStalls.publishAt.countChunk
              · exact h.copyStalls.publishAt))
  · exact h.copyStalls.retireCopy

theorem State.Linked.stopCopy {s : State} {k : Copy} {status : Nat} (h : s.Linked L) : (s.stopCopy k status).Linked L := by
  unfold State.stopCopy
  extract_lets i s1 s2 s3 s4 k'
  have h1 : s1.Linked L := by
    unfold s1
    split
    · exact h.failCtr
    · exact h
  have h2 : s2.Linked L := by
    unfold s2
    split
    · exact h1.failCtr
    · exact h1
  have h3 : s3.Linked L := h2.modSlot
  exact .retireCopy (.copyStalls (.ite (.settleIf (.modTensor h3)) h3))

theorem State.Linked.drained {s : State} {v : Nat} (h : s.Linked L) : (s.drained v).Linked L := h.upd

theorem State.Linked.setDues {s : State} {v : Nat} {d : SMap Nat} (h : s.Linked L) : (s.setDues v d).Linked L := .ite h.modCore h.upd

/-- What a streamer finds leaves a state with the links `L`. -/
def Served.Linked (L : SMap Link) : Served → Prop
  | .got s _ _ => s.Linked L
  | _ => True

theorem Served.Linked.of_got {r : Served} (h : r.Linked L) {s : State} {ts x : Nat} (e : r = .got s ts x) : s.Linked L := by
  subst e
  exact h

theorem Lost.served_linked (e : Lost) : e.served.Linked L := by
  cases e <;> exact trivial

theorem State.Linked.serveSpad {s : State} {c b off m ts : Nat} (h : s.Linked L) : (s.serveSpad c b off m ts).Linked L := by
  unfold State.serveSpad
  split
  · exact trivial
  · exact h.raiseSpw

theorem State.Linked.serveLocal {s : State} {k : Copy} {a m ts : Nat} (h : s.Linked L) : (s.serveLocal k a m ts).Linked L := by
  unfold State.serveLocal
  split
  · exact h.serveSpad
  · exact h.raiseSpw

theorem State.Linked.servePieces {k : Copy} {l : List (Nat × Nat × Nat)} :
    ∀ {s : State} {ts : Nat}, s.Linked L → (s.servePieces k ts l).Linked L := by
  induction l with
  | nil => exact fun h => h
  | cons p l ih =>
    intro s ts h
    have h1 := State.Linked.serveLocal (k := k) (a := p.1) (m := p.2.1) (ts := ts) h
    unfold State.servePieces
    split
    · next e1 =>
      have h2 := fun ts => ih (ts := ts) (h1.of_got e1)
      split
      · next e2 => exact (h2 _).of_got e2
      · exact h2 _
    · exact h1

theorem State.Linked.copyTurn {s : State} {k : Copy} (h : s.Linked L) : (s.copyTurn k).Linked L := by
  unfold State.copyTurn
  dsimp only
  split
  · exact h
  · split
    · exact trivial
    · split
      · split
        · exact trivial
        · split
          · exact trivial
          · split
            · exact h.modTensor
            · exact trivial
      · exact h

theorem State.Linked.serve {s : State} {k : Copy} {o m : Nat} (h : s.Linked L) : (s.serve k o m).Linked L := by
  have ht := State.Linked.copyTurn (k := k) h
  unfold State.serve
  dsimp only
  split
  · split
    · split
      · exact trivial
      · split
        · exact trivial
        · exact h.serveSpad
    · split
      · next e => exact h.agentLoad e
      · exact Lost.served_linked _
  · exact h.servePieces
  · split
    · next e =>
      split
      · exact trivial
      · split
        · exact trivial
        · split
          · exact Lost.served_linked _
          · next e1 => exact (State.Linked.tensRead (ht.of_got e)).readAlias e1
    · exact ht
  · split
    · next e => exact State.Linked.servePieces (ht.of_got e)
    · exact ht

theorem State.Linked.readChunk {s : State} {k : Copy} {o : Nat} (h : s.Linked L) {u : State} (e : s.readChunk k o = some u) : u.Linked L := by
  unfold State.readChunk at e
  dsimp only at e
  split at e
  · cases e
  · rw [← Option.some.inj e]
    exact h.stopCopy
  · next e1 =>
    have h1 : State.Linked _ L := h.serve.of_got e1
    rw [← Option.some.inj e]
    exact .ite (.boardLeave (.setCopy h1)) (.setCopy h1)

theorem State.Linked.sendChunk {s : State} {k : Copy} (h : s.Linked L) {u : State} (e : s.sendChunk k = some u) : u.Linked L := by
  have hc : Served.Linked L (if k.isTile then s.copyTurn k else .got s 0 0) := by
    split
    · exact h.copyTurn
    · exact h
  unfold State.sendChunk at e
  dsimp only at e
  split at e
  · rw [← Option.some.inj e]
    exact .stopCopy h.log
  · split at e
    · cases e
    · rw [← Option.some.inj e]
      exact h.stopCopy
    · next e1 =>
      have h1 := hc.of_got e1
      split at e
      · exact h1.readChunk e
      · obtain ⟨t, ht, rfl⟩ := Option.map_eq_some_iff.mp e
        refine State.Linked.setDues ?_
        split at ht
        · exact h1.readChunk ht
        · rw [← Option.some.inj ht]
          exact .setCopy h1

theorem State.Linked.serveChunk {s : State} {k : Copy} {o : Nat} (h : s.Linked L) {u : State} (e : s.serveChunk k o = some u) : u.Linked L := by
  unfold State.serveChunk at e
  dsimp only at e
  split at e
  · cases e
    exact h.setCopy
  · exact h.readChunk e

theorem State.Linked.privWords {s : State} {t : Nat} {ws : List Nat} {a n v ts : Nat} (h : s.Linked L) :
    (s.privWords t ws a n v ts).Linked L := .foldl h fun _ _ h => h.writeLocal.notify

theorem State.Linked.writeChunk {s : State} {k : Copy} {o m x ts : Nat} {ws : List Nat} (h : s.Linked L) :
    (s.writeChunk k o m x ts ws).Linked L := by
  unfold State.writeChunk
  dsimp only
  split
  · split
    · split
      · exact trivial
      · exact h.padWords
    · split
      · exact trivial
      · split
        · exact trivial
        · split
          · exact trivial
          · exact State.Linked.foldlFst h fun p v h => .iteFst (State.Linked.hostPut h.sample) (State.Linked.storeAt h.sample)
  · exact h
  · exact h.foldl fun _ _ h => .ite h.padWords h.privWords

theorem State.Linked.landChunk {s : State} {k : Copy} {o mask : Nat} (h : s.Linked L) : (s.landChunk k o mask).Linked L := by
  unfold State.landChunk
  dsimp only
  split
  · exact h
  · exact h.stopCopy
  · next s1 ts1 _ e =>
    have h1 : s1.Linked L := h.writeChunk.of_got e
    have h2 : (match k.padOf with | some p => s1.raiseSpw p.1 p.2 ts1 | none => s1).Linked L := by
      split
      · exact h1.raiseSpw
      · exact h1
    split
    · exact h1.setCopy
    · refine .ite (State.Linked.finishCopy ?_) ?_ <;>
      · split
        · exact State.Linked.countChunk (State.Linked.setCopy h2)
        · exact State.Linked.setCopy h2

theorem State.Linked.ackChunk {s : State} {k : Copy} {o : Nat} (h : s.Linked L) : (s.ackChunk k o).Linked L := by
  unfold State.ackChunk
  dsimp only
  split
  · exact .countChunk (.ite h.upd h.setCopy)
  · exact .ite h.upd h.setCopy

/-- What a streamer's class holds leaves a state with the links `L`. -/
def LinkHead (L : SMap Link) (f : Nat → Head) : Prop := ∀ cls n t, f cls = some (some (n, t)) → t.Linked L

theorem drr_linked {head : Nat → Head} (hh : LinkHead L head) {b fuel : Nat} :
    ∀ {d : SMap Nat} {t : State}, (drr head b fuel d).2 = some t → t.Linked L := by
  induction fuel with
  | zero => exact fun e => nomatch e
  | succ fuel ih =>
    intro d t e
    unfold drr at e
    dsimp only at e
    split at e
    · exact ih e
    · exact ih e
    · next e1 =>
      have h1 := hh _ _ _ e1
      split at e
      · split at e
        · exact Option.some.inj e ▸ h1
        · exact ih e
      · split at e
        · exact Option.some.inj e ▸ h1
        · exact ih e

theorem State.drrStep_linked {s : State} {v b : Nat} {head : Nat → Head} (hh : LinkHead L head) {u : State}
    (e : s.drrStep v b head = some u) : u.Linked L := by
  obtain ⟨t, ht, rfl⟩ := Option.map_eq_some_iff.mp e
  exact State.Linked.setDues (drr_linked hh ht)

theorem State.Linked.nextSend {s : State} {c : Nat} (h : s.Linked L) : LinkHead L fun cls => s.nextSend c cls := by
  intro cls n t e
  dsimp only at e
  unfold State.nextSend at e
  split at e
  · cases e
  · obtain ⟨u, hu, hp⟩ := Option.map_eq_some_iff.mp (Option.some.inj e)
    cases hp
    exact h.sendChunk hu

theorem State.Linked.sendNext {s : State} {c : Nat} (h : s.Linked L) {u : State} (e : s.sendNext c = some u) : u.Linked L :=
  State.drrStep_linked h.nextSend e

theorem State.Linked.nextServe {s : State} {v : Nat} (h : s.Linked L) : LinkHead L fun cls => s.nextServe v cls := by
  intro cls n t e
  obtain ⟨q, -, hq⟩ := Option.map_eq_some_iff.mp e
  obtain ⟨u, hu, hp⟩ := Option.map_eq_some_iff.mp hq
  cases hp
  exact h.serveChunk hu

theorem State.Linked.serveNext {s : State} {v : Nat} (h : s.Linked L) {u : State} (e : s.serveNext v = some u) : u.Linked L :=
  State.drrStep_linked h.nextServe e

theorem State.Linked.serveUntil {n v c b id o : Nat} : ∀ {s : State}, s.Linked L → (State.serveUntil n s v c b id o).Linked L := by
  induction n with
  | zero => exact fun h => h
  | succ n ih =>
    intro s h
    unfold State.serveUntil
    split
    · split
      · exact h
      · next e => exact ih (h.serveNext e)
    · exact h

theorem State.Linked.eachMark {s : State} {c b id : Nat} {l : Copy → List Nat} {f : State → Copy → Nat → State} (h : s.Linked L)
    (hf : ∀ s k o, s.Linked L → (f s k o).Linked L) : (s.eachMark c b id l f).Linked L := by
  unfold State.eachMark
  split
  · exact h
  · refine h.foldl fun s o h => ?_
    split
    · exact h
    · exact hf _ _ _ h

theorem State.Linked.promptCopy {s : State} {c b id : Nat} (h : s.Linked L) : (s.promptCopy c b id).Linked L := by
  have h1 : ∀ (s : State) (k : Copy) (o : Nat), s.Linked L →
      (match s.server k o with | none => s | some v => s.serveUntil (s.askedCount + 1) v c b id o : State).Linked L := by
    intro s k o h
    split
    · exact h
    · exact h.serveUntil
  have h2 := ((h.eachMark (c := c) (b := b) (id := id) (l := fun k => k.marks 54) h1).eachMark (c := c) (b := b) (id := id)
    (l := Copy.coming) fun _ k o h => h.landChunk (k := k) (o := o) (mask := 0)).eachMark (c := c) (b := b) (id := id)
    (l := fun k => k.marks 52) fun _ k o h => h.ackChunk (k := k) (o := o)
  unfold State.promptCopy
  dsimp only
  split
  · exact h2
  · exact .ite (State.Linked.finishCopy h2) h2

theorem State.Linked.runQueue {n c : Nat} : ∀ {s : State}, s.Linked L → (State.runQueue n s c).Linked L := by
  induction n with
  | zero => exact fun h => h
  | succ n ih =>
    intro s h
    unfold State.runQueue
    split
    · exact h
    · next e => exact ih ((h.sendNext e).foldl fun _ _ h => h.promptCopy)

theorem LinkM.copyPrio {p : Option (BitVec 2)} : LinkM L (Machine.copyPrio p) := .bind .myself fun _ => .pure

theorem LinkM.checkGlobal {a : Int} {n : Nat} {wr : Bool} : LinkM L (Machine.checkGlobal a n wr) :=
  .bind .getS fun _ => by
    dsimp only
    split
    · exact .pure
    · exact .trap

theorem LinkM.copyRoom : LinkM L Machine.copyRoom := .bind .getS fun _ => .ite .park .pure

theorem LinkM.newCopy {kind glob loc n prio : Nat}
    {rc sc : Option (BitVec 5)} : LinkM L (Machine.newCopy kind glob loc n prio rc sc) := .bind .getS fun _ => .pure

theorem LinkM.launchCopy {k : Copy} : LinkM L (Machine.launchCopy k) :=
  .bind (.modS fun _ h => h.modBank) fun _ =>
  .bind (.modS fun _ h => h.upd) fun _ =>
  .bind .getS fun _ =>
  .ite (.modS fun _ h => h.stopCopy) (.ite (.modS fun _ h => h.retireCopy) (.ite (.modS fun _ h => h.runQueue) .pure))

theorem LinkM.copyOp {o : CopyArgs} {put : Bool} : LinkM L (Machine.copyOp o put) :=
  .bind .readSR fun _ =>
  .bind .readSR fun _ =>
  .bind .readG fun _ =>
  .bind (.ensure .illegalOp) fun _ =>
  .bind .checkLocal fun _ =>
  .bind .checkGlobal fun _ =>
  .bind (.ensure .illegalOp) fun _ =>
  .bind .copyRoom fun _ =>
  .bind .copyPrio fun _ => .bind .newCopy fun _ => .bind .boardEnter fun _ => .bind .writeG fun _ => .launchCopy

theorem State.Linked.adopt {s : State} {k : Copy} (h : s.Linked L) : (s.adopt k).Linked L := h.modCore.modTensor

theorem LinkM.tileCopyChecks {o : TCopyArgs} {h l need : Nat} {q : Region}
    {put : Bool} : LinkM L (Machine.tileCopyChecks o h l need q put) :=
  .bind .checkHandle fun _ => .bind .checkColumns fun _ => .bind .checkTile fun _ => .bind .copyRoom fun _ => .boardEnter

theorem LinkM.tileCopyOf {o : TCopyArgs} {h l T : Nat} {q : Region} {put : Bool} : LinkM L (Machine.tileCopyOf o h l T q put) :=
  .bind .entry fun _ => .bind .copyPrio fun _ => .bind .newCopy fun _ => .bind (.modS fun _ h => h.adopt) fun _ => .pure

theorem LinkM.tileCopy {o : TCopyArgs} {put : Bool} : LinkM L (Machine.tileCopy o put) :=
  .bind .readSR fun _ =>
  .bind .readSR fun _ =>
  .bind .readSR fun _ =>
  .bind (.unstamped .tileCopyChecks) fun _ =>
  .bind .myself fun _ =>
  .ite
    (.bind .pure fun _ =>
      .bind .copyRoom fun _ => .bind .tileCopyOf fun _ => .ite .launchCopy (.bind .writeG fun _ => .launchCopy))
    (.bind .stampHandle fun _ =>
      .bind .copyRoom fun _ => .bind .tileCopyOf fun _ => .ite .launchCopy (.bind .writeG fun _ => .launchCopy))

/-! ## The matrix engine -/

theorem LinkM.matrixSlot : LinkM L Machine.matrixSlot := .bind .getS fun _ => .ensure .illegalOp

theorem LinkM.modAcc {l : Nat} {f : Acc → Acc} : LinkM L (Machine.modAcc l f) := .modS fun _ h => h.modCluster

theorem LinkM.accRefused {α : Type} : LinkM L (Machine.accRefused : M α) := .illegalOp

theorem LinkM.waitAcc {α : Type} {l : Nat} : LinkM L (Machine.waitAcc l : M α) :=
  .bind .getS fun _ => .bind .modAcc fun _ => .park

theorem LinkM.openAcc {l : Nat} {free : Bool} : LinkM L (Machine.openAcc l free) :=
  .bind .myWait fun _ =>
  .ite .pure
    (.bind .getS fun _ => .ite .accRefused (.ite .pure (.ite (.bind .modAcc fun _ => .bind .keepWait fun _ => .pure) .waitAcc)))

theorem LinkM.accKept : LinkM L Machine.accKept := .keepWait

theorem LinkM.ownAcc {l : Nat} {parked : Bool} : LinkM L (Machine.ownAcc l parked) :=
  .bind .getS fun _ => .ite (.ite .pure .waitAcc) (.ite .accRefused .pure)

theorem LinkM.checkAccPoison {l : Nat} : LinkM L (Machine.checkAccPoison l) := .bind .getS fun _ => .ensure .dataLost

theorem LinkM.checkCluster {v n : Nat} {wr : Bool} : LinkM L (Machine.checkCluster v n wr) := .ensure .trap

theorem LinkM.padRead {c a n : Nat} : LinkM L (Machine.padRead c a n) :=
  .bind .getS fun _ => by
    split
    · exact .dataLost
    · exact .bind (.modS fun _ h => h.stallEngine) fun _ => .pure

theorem LinkM.padRow {c a : Nat} {f : Tag} {c0 n len : Nat} : LinkM L (Machine.padRow c a f c0 n len) := by
  unfold Machine.padRow
  split
  · exact .bind .padRead fun _ => .pure
  · exact .bind .padRead fun _ => .pure
  · exact .bind .padRead fun _ => .pure
  · exact .bind .padRead fun _ => .bind .padRead fun _ => .pure
  · exact .bind .padRead fun _ => .pure

theorem LinkM.dxRow {h : Nat} {t : Tensor} {T : Nat} {o : Operand} {i : Nat}
    {ks : List Nat} : LinkM L (Machine.dxRow h t T o i ks) :=
  .bind
      (.mapL
          (fun _ =>
            .ite (.bind .planeLoad fun _ => .bind .planeLoad fun _ => .bind .planeLoad fun _ => .bind .getS fun _ => .pure)
              .pure)) fun _ =>
  .pure

theorem LinkM.handleRow {h : Nat} {t : Tensor} {T : Nat} {o : Operand} {i : Nat}
    {ks : List Nat} : LinkM L (Machine.handleRow h t T o i ks) := by
  unfold Machine.handleRow
  split
  · exact .dxRow
  · exact .dxRow
  · exact .bind (.mapL (fun _ => .elemValue)) fun _ => .pure

theorem LinkM.readRegions {h : Nat} {t : Tensor} {T : Nat} {qs : List Region}
    {cols : Bool} : LinkM L (Machine.readRegions h t T qs cols) :=
  .loopM fun _ => by
    split
    · exact .readRegion
    · exact .pure

theorem LinkM.opRows {o : Operand} {T p k g : Nat} : LinkM L (Machine.opRows o T p k g) := by
  unfold Machine.opRows
  split
  · exact .bind .entry fun _ => .ite (.mapL (fun _ => .handleRow)) (.bind .readRegions fun _ => .mapL (fun _ => .handleRow))
  · exact .bind .getS fun _ =>
      .ite (.bind (.mapL (fun _ => .padRow)) fun _ => .pure) (.bind (.mapL (fun _ => .padRow)) fun _ => .pure)

theorem LinkM.mmStep {l mm nn : Nat} {ints : Bool} {as bs : List OpRow} : LinkM L (Machine.mmStep l mm nn ints as bs) :=
  .bind .getS fun _ => .bind .modAcc fun _ => .ite .pure (.modS fun _ h => h.upd)

theorem LinkM.operandStale {o : Operand} : LinkM L (Machine.operandStale o) := by
  unfold Machine.operandStale
  split
  · exact .pure
  · exact .bind .checkStale fun _ => .pure

theorem LinkM.operandCaps {o : Operand} {need : Nat} : LinkM L (Machine.operandCaps o need) := by
  unfold Machine.operandCaps
  split
  · exact .pure
  · exact .bind .checkHandle fun _ => .pure

theorem LinkM.handleOperand {o : Operand} : LinkM L (Machine.handleOperand o) := by
  unfold Machine.handleOperand
  split
  · exact .pure
  · exact .bind .checkStale fun _ => .bind (.ensure .badFormat) fun _ => .pure

theorem LinkM.padAddress {o : Operand} {p k : Nat} : LinkM L (Machine.padAddress o p k) := by
  unfold Machine.padAddress
  split
  · exact .pure
  · exact .checkCluster

theorem LinkM.padAlign {o : Operand} {p k : Nat} : LinkM L (Machine.padAlign o p k) := by
  unfold Machine.padAlign
  split
  · exact .pure
  · exact .ensure .trap

theorem LinkM.padPark {c a n rows stride : Nat} : LinkM L (Machine.padPark c a n rows stride) :=
  .bind .getS fun _ => .ite .park .pure

theorem LinkM.padBoard {o : Operand} {p k : Nat} : LinkM L (Machine.padBoard o p k) := by
  unfold Machine.padBoard
  split
  · exact .pure
  · exact .bind .getS fun _ => .padPark

theorem LinkM.planePass {o : Operand} {T p k : Nat} : LinkM L (Machine.planePass o T p k) := by
  unfold Machine.planePass
  split
  · exact .pure
  · exact .bind .entry fun _ =>
      .ite .pure
        (.loopM fun _ => by
            split
            · exact .bind .planeLoad fun _ => .pure
            · exact .pure)

theorem LinkM.stampOperand {n hH : Nat} {o : Operand} {need k p : Nat} : LinkM L (Machine.stampOperand n hH o need k p) := by
  unfold Machine.stampOperand
  split
  · exact .pure
  · exact .stampHandle

theorem LinkM.operandTurn {o : Operand} {T : Nat} : LinkM L (Machine.operandTurn o T) := by
  unfold Machine.operandTurn
  split
  · exact .pure
  · exact .opTurn

theorem LinkM.operandRetire {o : Operand} {T : Nat} : LinkM L (Machine.operandRetire o T) := by
  unfold Machine.operandRetire
  split
  · exact .pure
  · exact .retireOp

theorem LinkM.padStamps {os : List Operand} : LinkM L (Machine.padStamps os) :=
  .modS fun _ h => .foldl h.modSlot fun _ _ h => h.raiseSpw

theorem LinkM.fillLatch {o : Operand} {T mm K : Nat} : LinkM L (Machine.fillLatch o T mm K) :=
  .bind .myWait fun _ => by
    split
    · exact .bind .entry fun _ =>
        .bind .readRegions fun _ => .bind .keepWait fun _ => .bind .pick fun _ => .modS fun _ h => h.modCluster
    · exact .pure

theorem LinkM.mmFirst {m : M Unit} (hm : LinkM L m) : LinkM L (Machine.mmFirst m) := .bind .myWait fun _ => .ite hm .pure

theorem LinkM.mmPair {mm K : Nat} {a b : Operand} {sparse : Bool} : LinkM L (Machine.mmPair mm K a b sparse) :=
  .bind .operandStale fun _ =>
  .bind .operandStale fun _ =>
  .bind .operandCaps fun _ =>
  .bind .operandCaps fun _ =>
  .bind .handleOperand fun _ =>
  .bind .handleOperand fun _ =>
  .bind (.ensure .badFormat) fun _ =>
  .bind (.ensure .badFormat) fun _ => by
    dsimp only
    split
    · exact .bind .notRefused fun _ => by
          split
          · exact .bind (.ensure .badFormat) fun _ =>
              .bind (.ensure .badFormat) fun _ => by
                split
                · exact .badFormat
                · exact .pure
          · split
            · exact .badFormat
            · exact .pure
    · exact .bind .notRefused fun _ => by
          split
          · exact .bind (.ensure .badFormat) fun _ =>
              .bind (.ensure .badFormat) fun _ => by
                split
                · exact .badFormat
                · exact .pure
          · split
            · exact .badFormat
            · exact .pure
    · split
      · exact .bind (.ensure .badFormat) fun _ =>
          .bind (.ensure .badFormat) fun _ => by
            split
            · exact .badFormat
            · exact .pure
      · split
        · exact .badFormat
        · exact .pure

theorem LinkM.mmKind {l : Nat} {fresh ints : Bool} : LinkM L (Machine.mmKind l fresh ints) :=
  .bind .getS fun _ => .ite .modAcc (.ensure .badFormat)

theorem LinkM.mmPads {mm nn K : Nat} {a b : Operand} : LinkM L (Machine.mmPads mm nn K a b) :=
  .bind .padAddress fun _ =>
  .bind .padAddress fun _ => .bind .padAlign fun _ => .bind .padAlign fun _ => .mmFirst (.bind .padBoard fun _ => .padBoard)

theorem LinkM.mmStamps {mm nn K na nb : Nat} {a b : Operand} : LinkM L (Machine.mmStamps mm nn K na nb a b) :=
  .bind .stampOperand fun _ =>
  .bind .stampOperand fun _ =>
  .bind .operandTurn fun _ =>
  .bind .operandTurn fun _ => .bind (.mmFirst (.bind .planePass fun _ => .planePass)) fun _ => .bind .fillLatch fun _ => .pure

theorem LinkM.mmGroups {l mm nn G : Nat} {ints : Bool} {a b : Operand}
    {Ta Tb : Nat} : LinkM L (Machine.mmGroups l mm nn G ints a b Ta Tb) :=
  .bind .myself fun _ =>
  .bind
      (.loopM fun _ =>
        .longStep .pure
          (.bind .accKept fun _ => .bind .checkAccPoison fun _ => .bind .opRows fun _ => .bind .opRows fun _ => .mmStep)) fun _ =>
  .setProg

theorem LinkM.mmClose {l : Nat} {sh : MShape} {a b : Operand} {Ta Tb : Nat} : LinkM L (Machine.mmClose l sh a b Ta Tb) :=
  .bind .modAcc fun _ => .bind .operandRetire fun _ => .bind .operandRetire fun _ => .padStamps

theorem LinkM.multiply {l : Nat} {sh : MShape} {a b : Operand} {sparse : Bool} : LinkM L (Machine.multiply l sh a b sparse) :=
  .bind .checkProg fun _ =>
  .bind .openAcc fun _ =>
  .bind .mmPair fun _ =>
  .bind .mmKind fun _ => .bind .mmPads fun _ => .bind .mmStamps fun _ => .bind .mmGroups fun _ => .mmClose

theorem LinkM.strides {n : BitVec 5} : LinkM L (Machine.strides n) := .ite .pure (.bind .readG fun _ => .pure)

theorem LinkM.epiArray {used : Bool} {a n : Nat} : LinkM L (Machine.epiArray used a n) :=
  .ite (.bind .checkLocal fun _ => .bind .boardPark fun _ => .engineRead) .pure

theorem LinkM.epiDesc {a : Word} {mm nn : Nat} : LinkM L (Machine.epiDesc a mm nn) :=
  .bind .checkLocal fun _ =>
  .bind .aligned fun _ =>
  .bind .boardPark fun _ =>
  .bind .engineRead fun _ =>
  .bind (.ensure .illegalOp) fun _ => .bind .epiArray fun _ => .bind .epiArray fun _ => .bind .epiArray fun _ => .pure

theorem LinkM.keptDesc {n : BitVec 5} {mm nn : Nat} : LinkM L (Machine.keptDesc n mm nn) :=
  .bind .myWait fun _ =>
  .ite .pure (.bind (.ite .pure (.bind .readG fun _ => .epiDesc)) fun _ => .bind .keepWait fun _ => .pure)

theorem LinkM.epiStep {l : Nat} {hnd : Bool} {m : M Unit} (hm : LinkM L m) : LinkM L (Machine.epiStep l hnd m) := by
  intro s h
  unfold Machine.epiStep
  split
  · split
    · next e => exact LinkM.ok (.bind .modAcc fun _ => .ite .setProg .pure) h e
    · next e => exact LinkM.error (.bind .modAcc fun _ => .ite .setProg .pure) h e
  · exact hm s h

theorem LinkM.epiBegin {l : Nat} : LinkM L (Machine.epiBegin l) :=
  .bind .getS fun _ => .bind .myWait fun _ => .ite (.bind .keepWait fun _ => .modAcc) .pure

theorem LinkM.epiGuard {l : Nat} {m : M Unit} (hm : LinkM L m) : LinkM L (Machine.epiGuard l m) := by
  intro s h
  unfold Machine.epiGuard
  split
  · dsimp only
    split
    · next e => exact LinkM.ok (.bind .modAcc fun _ => .ite .setProg .pure) h e
    · next e => exact LinkM.error (.bind .modAcc fun _ => .ite .setProg .pure) h e
  · exact hm s h

theorem LinkM.epiEnd {l : Nat} {rel : Bool} : LinkM L (Machine.epiEnd l rel) := .modAcc

theorem LinkM.writeRows {c : Nat} {rs : List (Nat × Nat × Nat)} : LinkM L (Machine.writeRows c rs) :=
  .bind .getS fun _ =>
  .bind .myWait fun _ =>
  .bind (.modS fun _ h => h.upd) fun _ =>
  .bind (.loopM fun _ => .modS fun _ h => h.padWords) fun _ => .bind .keepWait fun _ => .ite .pure .park

theorem LinkM.epiPoison {l : Nat} : LinkM L (Machine.epiPoison l) := .bind .myWait fun _ => .ite .checkAccPoison .pure

theorem LinkM.epiPad {l c base stride mm nn : Nat} {df : Tag} {d : EpiDesc} {act : Act}
    {k : Rnd} : LinkM L (Machine.epiPad l c base stride mm nn df d act k) :=
  .bind .myself fun _ =>
  .bind
      (.loopM fun _ =>
        .bind .setProg fun _ =>
        .engineStep
          (.epiStep
              (.bind .epiPoison fun _ =>
                .bind .getS fun _ => .bind .writeRows fun _ => .loopM fun _ => .modS fun _ h => h.stallEngine))) fun _ =>
  .bind .setProg fun _ => .modS fun _ h => h.modSlot.raiseSpw

theorem LinkM.epiShadow {l h T : Nat} {q : Region} {df : Tag} {d : EpiDesc} {act : Act}
    {k : Rnd} : LinkM L (Machine.epiShadow l h T q df d act k) :=
  .bind .myself fun _ =>
  .bind
      (.loopM fun _ =>
        .bind .setProg fun _ =>
        .engineStep (.epiStep (.bind .checkAccPoison fun _ => .bind .entry fun _ => .bind .getS fun _ => .keepShadow))) fun _ =>
  .bind .setProg fun _ => .bind .publishMine fun _ => .pure

theorem LinkM.epiAdd {l h T : Nat} {q : Region} {df : Tag} {d : EpiDesc} {act : Act}
    {k : Rnd} : LinkM L (Machine.epiAdd l h T q df d act k) :=
  .bind .entry fun _ =>
  .bind (.engineStep (.epiStep (.bind .checkAccPoison fun _ => .readRegion))) fun _ =>
  .bind .getS fun _ => .bind .addLines fun _ => .bind .retireOp fun _ => .modMe

theorem LinkM.aepiPad {o : AepiArgs} {l v mm nn : Nat} {k : Rnd} : LinkM L (Machine.aepiPad o l v mm nn k) :=
  .bind .keptDesc fun _ =>
  .bind .checkCluster fun _ =>
  .bind .getS fun _ =>
  .bind .myWait fun _ => .ite (.bind .padPark fun _ => .bind .epiBegin fun _ => .epiPad) (.bind .epiBegin fun _ => .epiPad)

theorem LinkM.aepiHandle {o : AepiArgs} {l h mm nn : Nat} {k : Rnd} : LinkM L (Machine.aepiHandle o l h mm nn k) :=
  .bind .readG fun _ =>
  .bind .stamped fun _ =>
  .ite
    (.bind .keptDesc fun _ =>
      .bind .epiBegin fun _ => .bind .stampHandle fun _ => .bind (.epiStep .opTurn) fun _ => .ite .epiAdd .epiShadow)
    (.bind .checkHandle fun _ =>
      .bind (.ensure .badFormat) fun _ =>
      .bind .notRefused fun _ =>
      .bind .keptDesc fun _ =>
      .bind .epiBegin fun _ => .bind .stampHandle fun _ => .bind (.epiStep .opTurn) fun _ => .ite .epiAdd .epiShadow)

theorem LinkOut.execAepi {o : AepiArgs} : LinkOut L (Machine.execAepi o) :=
  .run
    (.bind .matrixSlot fun _ =>
      .bind .readSR fun _ =>
      .bind .ownAcc fun _ =>
      .bind .myself fun _ => by
        split
        · exact .badFormat
        · exact .bind (.epiGuard (.ite .aepiPad .aepiHandle)) fun _ => .epiEnd)

theorem LinkM.checkImage {h : Word} {wr : Bool} : LinkM L (Machine.checkImage h wr) :=
  .loopM fun _ => .bind .behalf fun _ => .pure

theorem LinkM.saveLines {hv : Word} {a : Acc} : LinkM L (Machine.saveLines hv a) :=
  .bind (.loopM fun _ => .bind .behalf fun _ => .behalfGate) fun _ =>
  .bind .await fun _ => .loopM fun _ => .bind .behalf fun _ => .behalfPut

theorem LinkM.loadLines {hv : Word} : LinkM L (Machine.loadLines hv) :=
  .loopM fun _ => .bind .myWait fun _ => .ite .pure (.bind .behalfLoad fun _ => .keepWait)

theorem LinkOut.execAload {h : SReg} {l : BitVec 4} : LinkOut L (Machine.execAload h l) :=
  .run
    (.bind .matrixSlot fun _ =>
      .bind .readSR fun _ =>
      .bind .openAcc fun _ =>
      .bind .aligned fun _ =>
      .bind .checkImage fun _ =>
      .bind .loadLines fun _ =>
      .bind .myWait fun _ =>
      .bind .getS fun _ => by
        split
        · exact .trap
        · exact .modAcc)

/-! ## Collectives -/

theorem State.Linked.collTurn {s : State} {c : Coll} (h : s.Linked L) {u : State} (e : s.collTurn c = some u) : u.Linked L := by
  refine foldl_some (P := fun t : State => t.Linked L) h (fun o p r ho hr => ?_) e
  cases o with
  | none => cases hr
  | some t =>
    have ht := ho t rfl
    dsimp only [Option.bind] at hr
    split at hr
    · cases hr
      exact ht
    · split at hr
      · cases hr
      · split at hr
        · cases hr
          exact ht
        · split at hr
          · cases hr
            exact ht.modTensor
          · cases hr

theorem State.Linked.collRead {s : State} {c : Coll} (h : s.Linked L) {p : State × Nat} (e : s.collRead c = .ok p) : p.1.Linked L := by
  refine foldl_ok (P := fun q : State × Nat => q.1.Linked L) h (fun o x r ho hr => ?_) e
  cases o with
  | error x => cases hr
  | ok q =>
    refine foldl_ok (P := fun q : State × Nat => q.1.Linked L) (ho q rfl) (fun o x r ho hr => ?_) hr
    cases o with
    | error x => cases hr
    | ok q =>
      dsimp only [Except.bind, bind, Except.map] at hr
      split at hr
      · cases hr
      · next e1 =>
        have h1 := (ho q rfl).readAlias e1
        cases hr
        exact h1

theorem State.Linked.setColl {s : State} {c : Coll} {x : Option Coll} (h : s.Linked L) : (s.setColl c x).Linked L := h.upd

theorem State.Linked.failColl {s : State} {c : Coll} {err : Nat} (h : s.Linked L) : (s.failColl c err).Linked L :=
  .setColl
    (by
      split
      · exact .failCtr (.foldl h fun _ _ h => h.modTensor.settleIf)
      · exact .foldl h fun _ _ h => h.modTensor.settleIf)

theorem State.Linked.failGroup {s : State} {c : Coll} {err : Nat} (h : s.Linked L) : (s.failGroup c err).Linked L :=
  .foldl h fun _ _ h => h.failColl

theorem State.Linked.publishColl {s : State} {c : Coll} (h : s.Linked L) : (s.publishColl c).Linked L :=
  .setColl
    (.upd
        (.modSlot
            (.raiseLaunch
                (by
                  split
                  · exact .countChunk (.settleIf (.ite h.publishAs h.publishAs.publishAs.settleIf))
                  · exact .settleIf (.ite h.publishAs h.publishAs.publishAs.settleIf)))))

theorem State.Linked.stepColl {s : State} {c : Coll} (h : s.Linked L) : (s.stepColl c).Linked L := by
  unfold State.stepColl
  split
  · exact h
  · next e1 =>
      exact .ite (h.collTurn e1).failColl
          (.ite (.ite (h.collTurn e1).publishColl (h.collTurn e1))
              (by
                split
                · exact h.collTurn e1
                · exact h.collTurn e1
                · exact (h.collTurn e1).failColl
                · next e2 =>
                    exact .ite ((h.collTurn e1).collRead e2).setColl.publishColl ((h.collTurn e1).collRead e2).setColl))

theorem LinkM.collChecks {op : Nat} {g : Group} {t : Tensor} {r : Option Tensor} : LinkM L (Machine.collChecks op g t r) :=
  .bind (.ensure .badFormat) fun _ =>
  .bind (.ensure .badFormat) fun _ => by
    split
    · exact .pure
    · exact .ensure .badFormat

theorem LinkM.collDesc {a : Nat} : LinkM L (Machine.collDesc a) :=
  .bind .myWait fun _ => .ite .pure (.bind .aligned fun _ => .bind .behalfLoad fun _ => .bind .keepWait fun _ => .pure)

theorem LinkM.collRegs {o : CollArgs} : LinkM L (Machine.collRegs o) :=
  .bind .matrixSlot fun _ => .bind .readG fun _ => .bind .readG fun _ => .bind (.ite .pure .readG) fun _ => .pure

theorem LinkM.collGuard {op h r x : Nat} {res : Bool} : LinkM L (Machine.collGuard op h r x res) :=
  .bind (.ite (.bind .checkTwo fun _ => .pure) (.bind .checkHandle fun _ => .pure)) fun _ =>
  .bind (.ensure .badFormat) fun _ =>
  .bind (.ensure .badFormat) fun _ => .bind .getS fun _ => .bind (.ensure .badFormat) fun _ => .collChecks

theorem LinkM.collPool {h r : Nat} {first : Tensor → Nat} : LinkM L (Machine.collPool h r first) :=
  .bind .entry fun _ => .bind .entry fun _ => .checkPool

theorem LinkM.collStamps {h r : Nat} {res : Bool} : LinkM L (Machine.collStamps h r res) :=
  .ite
    (.bind (.unstamped .collPool) fun _ =>
      .bind .stampHandle fun _ => .ite (.bind .collPool fun _ => .bind .stampHandle fun _ => .pure) .pure)
    (.bind .stampHandle fun _ => .ite (.bind .collPool fun _ => .bind .stampHandle fun _ => .pure) .pure)

theorem State.Linked.joinColl {s : State} {c : Coll} (h : s.Linked L) : (s.joinColl c).Linked L :=
  .ite h.upd.failGroup (.ite h.upd.stepColl h.upd)

theorem LinkM.collPoison {c : Coll} : LinkM L (Machine.collPoison c) :=
  .loopM fun _ => by
    split
    · exact .bind .entry fun _ => .checkTensorPoison
    · exact .pure

theorem LinkM.collEnter {c : Coll} : LinkM L (Machine.collEnter c) :=
  .bind .getS fun _ =>
  .bind
      (.loopM fun _ => by
          split
          · exact .modEntry
          · exact .pure) fun _ =>
  .modS fun _ h => h.joinColl

theorem LinkM.collRefused {o : CollArgs} {h : Nat} : LinkM L (Machine.collRefused o h) := by
  unfold Machine.collRefused
  split
  · exact .notRefused
  · exact .modS fun _ h => h.failCtr

theorem LinkM.collOp {o : CollArgs} {op : Nat} : LinkM L (Machine.collOp o op) :=
  .bind .collRegs fun _ =>
  .bind .collDesc fun _ =>
  .bind (.unstamped .collGuard) fun _ =>
  .bind .myself fun _ =>
  .ite .collRefused (.bind .collStamps fun _ => .bind .getS fun _ => .bind .collPoison fun _ => .collEnter)

theorem State.Linked.dropColls {s : State} {ext : Bool} (h : s.Linked L) : (s.dropColls ext).Linked L :=
  .foldl h fun _ _ h => h.failColl

/-! ## Transfers of control, waiting and ends -/

theorem LinkM.branchIf {c : Bool} {off : BitVec 35} : LinkM L (Machine.branchIf c off) :=
  .bind .myself fun _ => .ite .transfer .pure

theorem LinkM.checkCallPos : LinkM L Machine.checkCallPos := .bind .getS fun _ => .ensure .trap

theorem LinkOut.execBtag {port : BitVec 3} {table : Src} {mask : SReg} : LinkOut L (Machine.execBtag port table mask) :=
  .run
    (.bind .myself fun _ =>
      .bind
          (by
            split
            · exact .pure
            · exact .bind .getS fun _ => by
                  split
                  · exact .park
                  · exact .bind .mergePts fun _ => .bind .latchOp fun _ => .pure) fun _ =>
      .bind .readSrc fun _ => .bind .readSR fun _ => .bind .aligned fun _ => .bind .behalfLoad fun _ => .transfer)

theorem State.Linked.retire {s : State} {t : Nat} (h : s.Linked L) : (s.retire t).Linked L := h.endUnit

theorem LinkM.doneOp : LinkM L Machine.doneOp :=
  .bind .getS fun _ =>
  .bind (.ensure .illegalOp) fun _ => .bind .waitQuiet fun _ => .ite .park (.bind (.modS fun _ h => h.retire) fun _ => .leave)

/-! ## TALLOC, TFREE, TWIDEN and TINFO -/

theorem State.Linked.allocPlace {s : State} {j : Nat} {d : AllocDesc} {f : Tag} {k : AllocPick} (h : s.Linked L)
    {p : State × Nat × Nat × Home} (e : s.allocPlace j d f k = .ok p) : p.1.Linked L := by
  unfold State.allocPlace at e
  split at e
  · cases e
  · split at e
    · cases e
    · dsimp only at e
      split at e
      · cases e
      · split at e
        · split at e
          · cases e
          · split at e
            · cases e
            · next e1 =>
              split at e <;> cases e
              exact h.mapAlias e1
        · split at e <;> cases e
          exact h

theorem State.Linked.allocTensor {s : State} {j pts : Nat} {d : AllocDesc} {f : Tag} {data : Nat} {k : AllocPick}
    (h : s.Linked L) : (s.allocTensor j pts d f data k).1.Linked L := by
  unfold State.allocTensor
  split
  · exact h
  · next e1 =>
      exact .ite (.foldl (h.allocPlace e1).modTensor.remark.install fun _ _ h => h.setPair)
          (h.allocPlace e1).modTensor.remark.install

theorem LinkM.allocate {d : AllocDesc} {f : Tag} {init : Option Word} : LinkM L (Machine.allocate d f init) :=
  .bind .pick fun _ => .bind .pick fun _ => .bind .pick fun _ => .bind .pick fun _ => .bind .getS fun _ =>
    .bind (by
      split
      · exact .engineRead
      · exact .pure) fun _ => .bindS fun _ h => .bind (.modS fun _ _ => h.allocTensor) fun _ => .bind .mergePts fun _ => .pure

theorem LinkM.writeStatus {st : BitVec 5} {x : Nat} : LinkM L (Machine.writeStatus st x) := .ite .pure .writeG

theorem LinkM.allocKept {a : Word} : LinkM L (Machine.allocKept a) :=
  .bind .myWait fun _ => by
    split
    · exact .pure
    · exact .bind .checkLocal fun _ =>
        .bind .aligned fun _ => .bind .loadLocal fun _ => .bind (.ensure .illegalOp) fun _ => .pure

theorem LinkM.keepAlloc {x : Nat} : LinkM L (Machine.keepAlloc x) := .keepWait

theorem LinkOut.execTalloc {h c l st : BitVec 5} : LinkOut L (Machine.execTalloc h c l st) :=
  .run
    (.bind .tensorSlot fun _ =>
      .bind .readG fun _ =>
      .bind .allocKept fun _ =>
      .bind (.ite .pure (.bind .readG fun _ => .pure)) fun _ =>
      .bind .getS fun _ => by
        dsimp only
        split
        · exact .bind
                (by
                  split
                  · exact .pure
                  · exact .boardEnter) fun _ =>
            .bind .keepAlloc fun _ =>
            .bind .await fun _ => .bind .allocate fun _ => .bind .boardDone fun _ => .bind .writeG fun _ => .writeStatus
        · exact .bind .keepAlloc fun _ => .bind .await fun _ => .bind .writeG fun _ => .writeStatus)

theorem LinkOut.execTfree {h : SReg} : LinkOut L (Machine.execTfree h) :=
  .run
    (.bind .tensorSlot fun _ =>
      .bind .readSR fun _ =>
      .bind .checkStale fun _ =>
      .bind .notRefused fun _ => .bind .stampHandle fun _ => .bind .modEntry fun _ => .modS fun _ h => h.settleIf)

theorem LinkM.widenRun {hn T : Nat} {wait : Bool} : LinkM L (Machine.widenRun hn T wait) :=
  .bind .convertFor fun _ =>
  .bind .entry fun _ => by
    split
    · exact .pure
    · exact .ite .park
          (.ite (.bind .retireOp fun _ => .pure)
              (.ite (.bind (.modS fun _ h => .ite h.convert h) fun _ => .bind .entry fun _ => .ite .park .pure) .pure))

theorem LinkM.stampWiden {hn mask : Nat} : LinkM L (Machine.stampWiden hn mask) :=
  .bind .getS fun _ =>
  .bind .entry fun _ =>
  .bind (.ite .pure .pick) fun _ =>
  .bind (.ite .pure .pick) fun _ =>
  .bind (.ite .pure .pick) fun _ =>
  .ite .pure (.bind .modEntry fun _ => .bind .mergePts fun _ => .bind .keepWait fun _ => .pure)

theorem LinkOut.execTwiden {h c : SReg} {st : BitVec 5} {wait : Bool} : LinkOut L (Machine.execTwiden h c st wait) :=
  .run
    (.bind .tensorSlot fun _ =>
      .bind .readSR fun _ =>
      .bind .readSR fun _ =>
      .bind .myWait fun _ => by
        split
        · exact .bind .widenRun fun _ => .writeStatus
        · exact .bind .checkStale fun _ =>
            .bind .notRefused fun _ =>
            .ite .writeStatus
              (.bind .await fun _ =>
                .bind .getS fun _ =>
                .bind (.ensure .noRoute) fun _ =>
                .bind .checkStale fun _ => by
                  split
                  · exact .bind .stampWiden fun _ => by
                        split
                        split
                        · exact .writeStatus
                        · exact .bind .widenRun fun _ => .writeStatus
                  · exact .writeStatus))

theorem LinkM.keptWord {hn w : Nat} : LinkM L (Machine.keptWord hn w) :=
  .bind .myWait fun _ => by
    split
    · exact .pure
    · exact .bind .entry fun _ => .bind .keepWait fun _ => .pure

theorem LinkOut.execTinfo {h l : SReg} {w : BitVec 3} : LinkOut L (Machine.execTinfo h l w) :=
  .run
    (.bind .getS fun _ =>
      .bind (.ensure .illegalOp) fun _ =>
      .ite
        (.bind .readSR fun _ =>
          .bind .checkStale fun _ =>
          .bind .notRefused fun _ =>
          .bind .stampHandle fun _ => .bind .keptWord fun _ => .bind .opTurn fun _ => .bind .retireOp fun _ => .writeSR)
        (.bind .tensorSlot fun _ =>
          .bind .readSR fun _ =>
          .bind .checkStale fun _ =>
          .bind .notRefused fun _ =>
          .bind .stampHandle fun _ => .bind .keptWord fun _ => .bind .opTurn fun _ => .bind .retireOp fun _ => .writeSR))

/-! ## Scalar and address instructions -/

theorem LinkM.alu2 {d : SReg} {a b : Src} {f : Word → Word → Word} : LinkM L (Machine.alu2 d a b f) :=
  .bind .readAB fun _ => .writeSR

theorem LinkM.alu1 {d : SReg} {a : Src} {f : Word → Word} : LinkM L (Machine.alu1 d a f) := .bind .readSrc fun _ => .writeSR

theorem LinkOut.execNop : LinkOut L Machine.execNop := .run .pure

/-! ## Mask instructions -/

theorem LinkM.mask2 {d a b : BitVec 3} {f : Word → Word → Word} : LinkM L (Machine.mask2 d a b f) :=
  .bind .readK fun _ => .bind .readK fun _ => .writeK

theorem LinkOut.execKand {d a b : BitVec 3} : LinkOut L (Machine.execKand d a b) := .run .mask2

theorem LinkOut.execKor {d a b : BitVec 3} : LinkOut L (Machine.execKor d a b) := .run .mask2

theorem LinkOut.execKxor {d a b : BitVec 3} : LinkOut L (Machine.execKxor d a b) := .run .mask2

theorem LinkOut.execKnot {d a : BitVec 3} : LinkOut L (Machine.execKnot d a) := .run .mask2

theorem LinkM.readKSrc {x : KSrc} : LinkM L (Machine.readKSrc x) := by
  unfold Machine.readKSrc
  split
  · exact .readK
  · exact .readSrc

theorem LinkOut.execKmov {d : KDst} {a : KSrc} : LinkOut L (Machine.execKmov d a) :=
  .run
    (.bind .readKSrc fun _ => by
        split
        · exact .writeK
        · exact .writeSR)

/-! ## Migration by instruction -/

theorem LinkM.migrTo {a : Src} {off : BitVec 32} {crew : Bool} : LinkM L (Machine.migrTo a off crew) :=
  .bind .readSrc fun _ =>
  .bind .placeOf fun _ => by
    split
    · exact .pure
    · exact .migrate

theorem LinkOut.execMpin {on : Bool} : LinkOut L (Machine.execMpin on) := .run .modSp

theorem State.Linked.tellJoin {s : State} {ms : List Nat} {n : Nat} (h : s.Linked L) : (s.tellJoin ms n).Linked L :=
  .foldl h fun _ _ h => h.modSlot

theorem State.Linked.setJoin {s : State} {c j id : Nat} {k : Option CrewJoin} (h : s.Linked L) : (s.setJoin c j id k).Linked L :=
  h.modCore

theorem State.Linked.failJoin {s : State} {c : Nat} {k : CrewJoin} (h : s.Linked L) : (s.failJoin c k).Linked L := h.tellJoin.setJoin

theorem State.Linked.join {s : State} {t c j id size : Nat} (h : s.Linked L) : (s.join t c j id size).1.Linked L := by
  unfold State.join
  split
  · exact h.setJoin
  · exact .iteFst h (.iteFst h.failJoin (.iteFst h.tellJoin.setJoin h.setJoin))

/-! ## Near-memory commands -/

theorem LinkM.nearSlot : LinkM L Machine.nearSlot := .bind .getS fun _ => .ensure .illegalOp

theorem LinkM.nearChecks {h : Nat} {more : Tensor → M Unit} (hm : ∀ t, LinkM L (more t)) : LinkM L (Machine.nearChecks h more) :=
  .bind .stamped fun _ => .ite .pure (.bind .checkHandle fun _ => .bind (.ensure .badFormat) fun _ => .bind (hm _) fun _ => .notRefused)

theorem State.Linked.nearStart {s : State} {j i stack : Nat} (h : s.Linked L) {u : State} (e : s.nearStart j i stack = some u) :
    u.Linked L := by
  unfold State.nearStart at e
  dsimp only at e
  split at e
  · split at e
    · cases e
    · exact h.moveAlias e
  · obtain ⟨t, ht, rfl⟩ := Option.map_eq_some_iff.mp e
    have h1 := h.moveTensor ht
    exact .ite h1.convert h1

theorem LinkM.nearMove {h : Nat} : LinkM L (Machine.nearMove h) :=
  .bind .stamped fun _ =>
  .ite .pure
    (.bindS fun _ h0 =>
      .ite .pure
        (by
          split
          · exact .park
          · next e1 =>
              exact .bind (.modS fun _ _ => h0.nearStart e1) fun _ => .ite .pure .park))

theorem State.Linked.setWeights {s : State} {stack : Nat} {w : FarWts} (h : s.Linked L) : (s.setWeights stack w).Linked L := h.upd

theorem LinkM.loadWeights {hn T : Nat} {q : Region} : LinkM L (Machine.loadWeights hn T q) :=
  .bind .entry fun _ => .bind .readRegion fun _ => .modS fun _ h => h.setWeights

theorem LinkM.streamTile {hn T : Nat} {q : Region} {w : FarWts} : LinkM L (Machine.streamTile hn T q w) :=
  .bind .entry fun _ => .bind .readRegion fun _ => .bind .getS fun _ => .modMe

theorem LinkOut.execNmstrm {h c : SReg} {rows cols : BitVec 4} : LinkOut L (Machine.execNmstrm h c rows cols) :=
  .run
    (.bind .nearSlot fun _ =>
      .bind .readSR fun _ =>
      .bind .readSR fun _ =>
      .bind .myself fun _ => by
        split
        · exact .bind (.nearChecks (fun _ => .badFormat)) fun _ => .badFormat
        · exact .bind (.nearChecks (fun _ => .ensure .badFormat)) fun _ =>
            .bind .nearMove fun _ =>
            .bind .stampHandle fun _ => .bind .opTurn fun _ => .bind (.engineStep .streamTile) fun _ => .retireOp)

theorem LinkM.drainTile {hn : Nat} {q : Region} {b : FarBuf} {k : Rnd} : LinkM L (Machine.drainTile hn q b k) :=
  .bind .entry fun _ => .keepShadow

/-! ## STASH and RESTORE -/

theorem LinkM.readUnits {h : Nat} {t : Tensor} {T lo hi : Nat} : LinkM L (Machine.readUnits h t T lo hi) :=
  .bind .readStorage fun _ => .loopM fun _ => .touchAlias

theorem LinkM.targetDesc {a : Nat} {host : Bool} : LinkM L (Machine.targetDesc a host) :=
  .bind .checkLocal fun _ => .bind .aligned fun _ => .bind .loadLocal fun _ => .bind (.ensure .illegalOp) fun _ => .pure

theorem LinkM.stashAllowed {t : Tgt} : LinkM L (Machine.stashAllowed t) := .bind .getS fun _ => .ensure .illegalOp

theorem LinkM.stashChecks {o : StashArgs} {h : Nat} {l : Word} : LinkM L (Machine.stashChecks o h l) := by
  unfold Machine.stashChecks
  split
  · exact .bind .checkTwo fun _ => .bind (.ensure .badFormat) fun _ => .ensure .badFormat
  · exact .bind .checkHandle fun _ => .ensure .badFormat

theorem LinkM.keptTarget {o : StashArgs} {l : Word} : LinkM L (Machine.keptTarget o l) :=
  .bind .myWait fun _ =>
  .ite .pure
    (.bind
          (by
            split
            · exact .pure
            · exact .targetDesc
            · exact .targetDesc) fun _ =>
      .bind
          (by
            split
            · exact .aligned
            · exact .pure) fun _ =>
      .bind .keepWait fun _ => .pure)

theorem LinkM.peerStatus {key : Nat} {ok : Nat → Bool} : LinkM L (Machine.peerStatus key ok) :=
  .bind .myWait fun _ => .ite .pure (.bind .await fun _ => .bind .pick fun _ => .bind .keepWait fun _ => .pure)

theorem LinkM.reportStatus {st : BitVec 5} {x h : Nat} : LinkM L (Machine.reportStatus st x h) :=
  .ite (.ite .pure .trap) .writeStatus

theorem LinkM.countBytes {n : Option (BitVec 5)} {bytes tm : Nat} : LinkM L (Machine.countBytes n bytes tm) := by
  unfold Machine.countBytes
  split
  · exact .pure
  · exact .modS fun _ h => h.countChunk

theorem LinkM.stashError {n : Option (BitVec 5)} {status : Nat} : LinkM L (Machine.stashError n status) := by
  unfold Machine.stashError
  split
  · exact .pure
  · exact .ite (.modS fun _ h => h.failCtr) .pure

theorem LinkM.stashFail {o : StashArgs} {h status : Nat} : LinkM L (Machine.stashFail o h status) :=
  .bind (.modS fun _ h => h.dropOps) fun _ => .bind .stashError fun _ => .keepDone .reportStatus

theorem LinkM.stashEncode {h T : Nat} {g : Grade} {n0 : Nat} : LinkM L (Machine.stashEncode h T g n0) :=
  .bind .entry fun _ =>
  .bind .myself fun _ =>
  .bind
      (.loopM fun _ =>
        .bind .setProg fun _ => .engineStep (.longTrap .setProg (.bind .readUnits fun _ => .bind .getS fun _ => .keepShadow))) fun _ =>
  .setProg

theorem LinkM.hostDown : LinkM L Machine.hostDown := .bind .getS fun _ => .pure

theorem LinkM.stashHost {base size n0 : Nat} {l : List Nat} : LinkM L (Machine.stashHost base size n0 l) := by
  induction l with
  | nil => exact .pure
  | cons i l ih =>
    refine .bind .myWait fun _ => .ite ih (.bind .hostDown fun _ => .ite .pure ?_)
    split
    · exact ih
    · exact .bind .behalfStore fun _ => .bind .keepWait fun _ => ih

theorem LinkM.stashBegin {o : StashArgs} : LinkM L (Machine.stashBegin o) :=
  .bind .tensorSlot fun _ =>
  .bind .stashAllowed fun _ =>
  .bind .readSR fun _ =>
  .bind .readG fun _ =>
  .bind (.unstamped (.bind (.bind .stashChecks fun _ => .entry) fun _ => .checkProg)) fun _ => .bind .keptTarget fun _ => .pure

theorem LinkM.stashEarly {o : StashArgs} {d : Target_} {size : Nat} : LinkM L (Machine.stashEarly o d size) := by
  unfold Machine.stashEarly
  split
  · exact .pure
  · exact .pure
  · exact .peerStatus

theorem LinkM.stashImage {o : StashArgs} {h q T size : Nat} : LinkM L (Machine.stashImage o h q T size) :=
  .bind .stampHandle fun _ =>
  .bind .opTurn fun _ =>
  .bind .opTurn fun _ =>
  .bind .stashEncode fun _ => .bind .retireOp fun _ => .bind .publishMine fun _ => .bind .countBytes fun _ => .writeStatus

theorem LinkM.stashEnd {o : StashArgs} {h T size : Nat} : LinkM L (Machine.stashEnd o h T size) :=
  .bind .retireOp fun _ => .bind .myself fun _ => .bind .countBytes fun _ => .writeStatus

theorem LinkM.stashToHost {o : StashArgs} {h T size : Nat} {d : Target_} : LinkM L (Machine.stashToHost o h T size d) :=
  .bind .opTurn fun _ => .bind .stashEncode fun _ => .bind .entry fun _ => .bind .stashHost fun _ => .ite .stashFail .stashEnd

theorem LinkM.stashToPeer {o : StashArgs} {h T size : Nat} : LinkM L (Machine.stashToPeer o h T size) :=
  .bind .opTurn fun _ => .bind .stashEncode fun _ => .bind .peerStatus fun _ => .ite .stashFail .stashEnd

theorem LinkOut.execStash {o : StashArgs} : LinkOut L (Machine.execStash o) :=
  .run
    (.bind .stashBegin fun _ =>
      .bind .myself fun _ =>
      .ite .stashFail
        (by
          dsimp only
          split
          · exact .bind (.unstamped (.bind .entry fun _ => .checkPool)) fun _ =>
              .bind .stampHandle fun _ =>
              .bind .entry fun _ =>
              .bind .stashEarly fun _ =>
              .ite .stashFail
                (by
                  split
                  · exact .stashImage
                  · exact .stashToHost
                  · exact .stashToPeer)
          · exact .bind .stampHandle fun _ =>
              .bind .entry fun _ =>
              .bind .stashEarly fun _ =>
              .ite .stashFail
                (by
                  split
                  · exact .stashImage
                  · exact .stashToHost
                  · exact .stashToPeer)))

theorem LinkM.restoreDecode {h : Nat} {g : Grade} {n0 : Nat} {check : Nat → M Unit} {byte : State → Nat → Nat}
    (hc : ∀ k, LinkM L (check k)) : LinkM L (Machine.restoreDecode h g n0 check byte) :=
  .bind .entry fun _ => .bind .myself fun _ => .bind (.loopM fun k => .bind .setProg fun _ => .engineStep
    (.longTrap .setProg (.bind (hc k) fun _ => .bind .getS fun _ => .keepShadow))) fun _ => .setProg

theorem LinkM.restoreHost {base size : Nat} {l : List Nat} : LinkM L (Machine.restoreHost base size l) := by
  induction l with
  | nil => exact .pure
  | cons i l ih =>
    refine .bind .myWait fun _ => .ite ih (.bind .hostDown fun _ => .ite .pure ?_)
    split
    · exact ih
    · exact .bind .behalfLoad fun _ => .bind .keepWait fun _ => ih

theorem LinkM.restoreEarly {o : StashArgs} {d : Target_} {size : Nat} : LinkM L (Machine.restoreEarly o d size) := by
  unfold Machine.restoreEarly
  split
  · exact .pure
  · exact .pure
  · exact .peerStatus

theorem LinkM.restoreEnd {o : StashArgs} {h T : Nat} : LinkM L (Machine.restoreEnd o h T) :=
  .bind .entry fun _ => .bind .publishMine fun _ => .bind .countBytes fun _ => .writeStatus

theorem LinkM.restoreImage {o : StashArgs} {h q : Nat} : LinkM L (Machine.restoreImage o h q) :=
  .bind (.unstamped (.bind .entry fun _ => .checkPool)) fun _ =>
  .bind .stampHandle fun _ =>
  .bind .stampHandle fun _ =>
  .bind .opTurn fun _ =>
  .bind .opTurn fun _ =>
  .bind (.restoreDecode (fun _ => .bind .entry fun _ => .bind .entry fun _ => .readStorage)) fun _ =>
  .bind .retireOp fun _ => .restoreEnd

theorem LinkM.restoreFromHost {o : StashArgs} {h size : Nat} {d : Target_} : LinkM L (Machine.restoreFromHost o h size d) :=
  .bind .stampHandle fun _ =>
  .bind .opTurn fun _ =>
  .bind .restoreHost fun _ => .ite .stashFail (.bind (.restoreDecode (fun _ => .pure)) fun _ => .restoreEnd)

theorem LinkM.restoreFromPeer {o : StashArgs} {h size : Nat} : LinkM L (Machine.restoreFromPeer o h size) :=
  .bind .stampHandle fun _ =>
  .bind .opTurn fun _ =>
  .bind (.restoreDecode (fun _ => .pure)) fun _ =>
  .bind .peerStatus fun _ => .ite .stashFail (.bind (.modS fun _ h => h.upd) fun _ => .restoreEnd)

theorem LinkOut.execRestore {o : StashArgs} : LinkOut L (Machine.execRestore o) :=
  .run
    (.bind .stashBegin fun _ =>
      .bind .entry fun _ =>
      .bind .myself fun _ =>
      .bind (.ite .pure .restoreEarly) fun _ =>
      .ite .stashFail
        (by
          split
          · exact .restoreImage
          · exact .restoreFromHost
          · exact .restoreFromPeer))

/-! ## Levels of work -/

theorem State.Linked.cancelUnits {s : State} {j kind : Nat} {id : Word} (h : s.Linked L) : (s.cancelUnits j kind id).Linked L :=
  .upd (.foldl (.foldl h.upd fun _ _ h => .ite h.finishCopy h.stopCopy) fun _ _ h => h.failColl)

theorem State.Linked.freeSaved {s : State} {j kind : Nat} {id : Word} (h : s.Linked L) : (s.freeSaved j kind id).Linked L := by
  unfold State.freeSaved
  split
  · exact h
  · exact .modJob (.foldl h.upd fun _ _ h => h.dropOps)

theorem State.Linked.stopLevel {s : State} {j kind : Nat} {id : Word} {st : Nat} (h : s.Linked L) : (s.stopLevel j kind id st).Linked L :=
  .cancelUnits (.freeSaved (.modJob (.ite h h.log)))

theorem State.Linked.childFailed {s : State} {j kind : Nat} {id : Word} {cause tid tries : Nat} {again : State → State} (h : s.Linked L)
    (ha : ∀ s, s.Linked L → (again s).Linked L) : (s.childFailed j kind id cause tid tries again).Linked L := by
  unfold State.childFailed
  dsimp only
  split
  · exact h
  · split
    · exact h.modJob.modJob
    · split
      · exact h.modJob.modJob
      · exact .ite (ha _ h.modJob) h.modJob.modJob.stopLevel
      · exact h.modJob.modJob.stopLevel
      · exact .ite h.modJob.modJob.stopLevel h.modJob.modJob.stopLevel.modJob.stopLevel

theorem State.Linked.rerunUnit {id : Word} {j i : Nat} {s : State} (h : s.Linked L) : (State.rerunUnit id j i s).Linked L := h.modJob

theorem State.Linked.countUnit {s : State} {j : Nat} {launch : Word} {i : Nat} {e : EndRec} {pts : Nat} (h : s.Linked L) :
    (s.countUnit j launch i e pts).Linked L := by
  unfold State.countUnit
  split
  · exact h
  · split
    · exact h
    · dsimp only
      split
      · exact h.modJob.modJob
      · exact h.modJob.modJob
      · exact h.modJob.childFailed fun _ h => h.rerunUnit

theorem State.Linked.reapSlot {s : State} {t : Nat} (h : s.Linked L) : (s.reapSlot t).Linked L := h.setSlot.countUnit

theorem State.Linked.submit {s : State} {t x : Nat} (h : s.Linked L) : (s.submit t x).1.Linked L := by
  unfold State.submit
  dsimp only
  split
  · exact h
  · split
    · exact .iteFst h h.setJob
    · exact h

theorem State.Linked.cancelLevel {s : State} {j kind : Nat} {id : Word} (h : s.Linked L) : (s.cancelLevel j kind id).1.Linked L := by
  unfold State.cancelLevel
  split
  · exact h
  · split
    · exact .iteFst h h.stopLevel
    · exact h.modJob
    · exact h

/-! ## System instructions -/

theorem LinkM.starterOnly : LinkM L Machine.starterOnly := .bind .getS fun _ => .ensure .illegalOp

theorem LinkOut.execSpawn {a b : Src} : LinkOut L (Machine.execSpawn a b) :=
  .run
    (.bind .starterOnly fun _ =>
      .bind .readAB fun _ =>
      .bind .aligned fun _ =>
      .bind .checkLocal fun _ =>
      .bind .loadLocal fun _ =>
      .bind .getS fun _ => .bind (.ensure .illegalOp) fun _ => .bind (.ensure .illegalOp) fun _ => .modS fun _ h => h.setSlot)

theorem LinkOut.execReap {d : SReg} {a b : Src} : LinkOut L (Machine.execReap d a b) :=
  .run
    (.bind .starterOnly fun _ =>
      .bind .readAB fun _ =>
      .bind (.ensure .illegalOp) fun _ =>
      .bind .aligned fun _ =>
      .bind .checkLocal fun _ =>
      .bind .getS fun _ =>
      .bind (.ensure .illegalOp) fun _ => by
        split
        · exact .park
        · exact .bind .storeLocal fun _ => .bind (.modS fun _ h => h.reapSlot) fun _ => .writeSR)

theorem LinkM.checkSp {r : SpReg} : LinkM L (Machine.checkSp r) :=
  .bind .getS fun _ => by
    split
    · exact .ensure .illegalOp
    · exact .ensure .illegalOp
    · exact .pure

theorem LinkM.linkReg {f : Link → Nat} : LinkM L (Machine.linkReg f) :=
  .bind .getS fun _ =>
  .ite (.bind .getS fun _ => .pure) (.bind .await fun _ => .bind .replyRoute fun _ => .bind .getS fun _ => .pure)

theorem LinkM.readSp {r : SpReg} : LinkM L (Machine.readSp r) :=
  .bind .getS fun _ => by
    dsimp only
    split
    · exact .pure
    · exact .pure
    · exact .pure
    · exact .pure
    · exact .pure
    · exact .bind .await fun _ => .bind .replyRoute fun _ => .bind .getS fun _ => .pure
    · exact .bind .await fun _ => .bind .replyRoute fun _ => .bind .getS fun _ => .pure
    · exact .pure
    · exact .pure
    · exact .pure
    · exact .pure
    · exact .pure
    · exact .pure
    · exact .pure
    · exact .pure
    · exact .pure
    · exact .bind .mergePts fun _ => .pure
    · exact .pure
    · exact .pure
    · exact .pure
    · exact .pure
    · exact .pure
    · exact .pure
    · exact .pure
    · exact .linkReg
    · exact .linkReg
    · exact .linkReg
    · exact .linkReg
    · exact .linkReg
    · exact .pure
    · exact .pure
    · exact .pure
    · exact .pure
    · exact .pure
    · exact .pure

theorem LinkM.refuseValue {α : Type} : LinkM L (Machine.refuseValue : M α) := .illegalOp

theorem LinkM.writeKeep {n : Nat} {v : Word} : LinkM L (Machine.writeKeep n v) :=
  .bind .getS fun _ => .bind (.ensure .refuseValue) fun _ => .modS fun _ h => h.modDie

theorem State.Linked.writeXpc {s : State} {v : Word} (h : s.Linked L) : (s.writeXpc v).Linked L := h.modSlot

theorem LinkM.writeSlot {ok : Bool} {f : Special → Special} : LinkM L (Machine.writeSlot ok f) :=
  .bind (.ensure .refuseValue) fun _ => .modSp

theorem LinkM.writeCount {v : Word} {f : Core → Core} : LinkM L (Machine.writeCount v f) :=
  .bind (.ensure .refuseValue) fun _ => .modS fun _ h => h.modCore

theorem LinkM.writeSp {r : SpReg} {v : Word} : LinkM L (Machine.writeSp r v) :=
  .bind .myself fun _ => by
    split
    · exact .writeSlot
    · exact .writeSlot
    · exact .bind (.ensure .refuseValue) fun _ => .modS fun _ h => h.writeXpc
    · exact .writeSlot
    · exact .writeSlot
    · exact .writeSlot
    · exact .writeSlot
    · exact .writeSlot
    · exact .writeHb
    · exact .writeView
    · exact .modS fun _ h => h.modCore
    · exact .writeCount
    · exact .writeCount
    · exact .writeSlot
    · exact .writeKeep
    · exact .bind (.ensure .refuseValue) fun _ => .modS fun _ h => h.upd
    · exact .bind (.ensure .refuseValue) fun _ => .modS fun _ h => h.modJob
    · exact .illegalOp

theorem LinkOut.execXret {a : Option Src} : LinkOut L (Machine.execXret a) :=
  .run
    (.bind
          (by
            split
            · exact .pure
            · exact .bind .readSrc fun _ => .pure) fun _ =>
      .bind .myself fun _ =>
      .bind (.ensure .trap) fun _ =>
      .bind
          (by
            split
            · exact .pure
            · exact .ensure .trap) fun _ =>
      .ite .doneOp
        (.ite (.bind (.modS fun _ h => h.trapReturn) fun _ => .bind .modMe fun _ => .leave)
            (.bind .checkTarget fun _ => .bind (.modS fun _ h => h.trapReturn) fun _ => .bind .modMe fun _ => .leave)))

theorem State.Linked.changeEntry {s : State} {j va how : Nat} (h : s.Linked L) : (s.changeEntry j va how).Linked L := by
  unfold State.changeEntry
  split
  · exact .ite h h.changeMap
  · exact h

theorem State.Linked.givePage {s : State} {j va how : Nat} (h : s.Linked L) : (s.givePage j va how).Linked L := by
  unfold State.givePage
  dsimp only
  split
  · exact h
  · split
    · exact h
    · next e =>
      split at e
      · have h1 := h.mapPage (fun _ _ h e => h.takeFrame e) e
        split
        · exact h1.upd
        · exact h1
      · cases e

theorem State.Linked.giveGroup {s : State} {j a rank dims fp : Nat} (h : s.Linked L) : (s.giveGroup j a rank dims fp).1.Linked L := by
  unfold State.giveGroup
  dsimp only
  split
  · exact h
  · exact .iteFst h.storeAt h

theorem State.Linked.serve1 {s : State} {d j act a b c e : Nat} (h : s.Linked L) : (s.serve1 d j act a b c e).1.Linked L :=
  .iteFst h.giveGroup
    (by
      split
      · exact h.modDie
      · exact h.modDie
      · exact h.changeEntry
      · exact .ite h.upd h
      · exact h.modTensor
      · exact h.givePage
      · exact h)

theorem LinkM.svcReply : LinkM L Machine.svcReply :=
  .bind .pick fun _ =>
  .bind .pick fun _ =>
  .bind .pick fun _ =>
  .bind .pick fun _ =>
  .bind .pick fun _ =>
  .bindS fun _ h0 =>
  .bind (.modS fun _ _ => h0.serve1) fun _ =>
  .bind .mergePts fun _ => .bind .writeG fun _ => .bind .writeG fun _ => .bind .mergePts fun _ => .modS fun _ h => h.upd

/-! ## A slot that looks at its instruction again -/

/-- An instruction keeps the links, because the operations that it is made of do; a step of the device is no instruction of a slot. -/
theorem LinkOut.rerun : ∀ {i : Instr}, LinkOut L (Machine.rerun i)
  | .nop => .execNop
  | .add .. | .sub .. | .mul .. | .mulh .. | .mulhn .. | .div .. | .divn .. | .rem .. | .remn .. | .and .. | .or .. | .xor ..
    | .andn .. | .shl .. | .shr .. | .sar .. | .rol .. | .min .. | .max .. | .minn .. | .maxn .. | .slt .. | .sltn .. | .seq .. =>
    .run .alu2
  | .addi .. | .andi .. | .ori .. | .xori .. | .shli .. | .shri .. | .sari .. | .roli .. | .clz .. | .ctz .. | .popc .. | .brev ..
    | .sext .. | .zext .. | .bfx .. | .bfxS .. | .slti .. | .sltiN .. | .mov .. | .lea .. => .run .alu1
  | .bfi .. => .run (.bind .readSrc fun _ => .bind .readSR fun _ => .writeSR)
  | .sel .. => .run (.bind .readAB fun _ => .bind .readSR fun _ => .writeSR)
  | .movi .. | .movx .. => .run .writeSR
  | .leaWin .. => .runS fun _ _ => .bind (.ensure .illegalOp) fun _ => .alu1
  | .br .. => .run (.bind .readAB fun _ => .branchIf)
  | .jmp .. => .run .branchIf
  | .jmpi .. => .run (.bind .readSrc fun _ => .transfer)
  | .call .. => .run (.bind .checkCallPos fun _ => .bind .myself fun _ => .bind .checkTarget fun _ => .bind .writeG fun _ => .transfer)
  | .calli .. =>
    .run (.bind .checkCallPos fun _ => .bind .myself fun _ => .bind .readSrc fun _ => .bind .checkTarget fun _ =>
      .bind .writeG fun _ => .transfer)
  | .loop .. => .run (.bind .readG fun _ => .bind .writeG fun _ => .branchIf)
  | .btag .. => .execBtag
  | .bkany .. | .bkall .. => .run (.bind .readK fun _ => .bind .readK fun _ => .branchIf)
  | .park .. => .run (.ite .pure .park)
  | .parkEv .. => .run (.bind .getS fun _ => .bind .myWait fun _ => .ite .pure .park)
  | .done => .run .doneOp
  | .trap .. | .brkp .. => .run .trap
  | .ld .. => .run (.bind .readSrc fun _ => .bind .access fun _ => .bind .loadT fun _ => .writeSR)
  | .lds .. => .execLds
  | .st .. => .run (.bind .readSrcN fun _ => .bind .readSrc fun _ => .bind .access fun _ => .storeT)
  | .vld .. => .run (.bind .readSrc fun _ => .bind .access fun _ => .bind .loadT fun _ => .writeV)
  | .vst .. => .run (.bind .readSrc fun _ => .bind .access fun _ => .bind .readV fun _ => .storeT)
  | .vlds .. => .run (.bind .stridedAddr fun _ => .gatherForm)
  | .vsts .. => .run (.bind .stridedAddr fun _ => .bind .readV fun _ => .scatterForm)
  | .vgath .. => .run (.bind .gatheredAddr fun _ => .gatherForm)
  | .vscat .. => .run (.bind .gatheredAddr fun _ => .bind .readV fun _ => .scatterForm)
  | .vgathT .. =>
    .run (.bind .gatherRegs fun _ => .bind .readK fun _ => .bind .gatherChecks fun _ => .bind .stampHandle fun _ =>
      .bind .opTurn fun _ => .bind (.laneSteps (fun _ => .gatherLane)) fun _ => .retireOp)
  | .vscatT .. =>
    .run (.bind .gatherRegs fun _ => .bind (.keepRow .readV) fun _ => .bind .readK fun _ => .bind .gatherChecks fun _ =>
      .bind .stampHandle fun _ => .bind .opTurn fun _ => .longTrap .setProg (.bind (.laneSteps (fun _ => .scatterLane)) fun _ =>
      .bind .publishMine fun _ => .pure))
  | .kld .. => .run (.bind .readSrc fun _ => .bind .access fun _ => .bind .loadT fun _ => .writeK)
  | .kst .. => .run (.bind .readSrc fun _ => .bind .access fun _ => .bind .readK fun _ => .storeT)
  | .amoadd .. | .amoswp .. | .amoand .. | .amoor .. | .amoxor .. | .amomin .. | .amomax .. | .amofadd .. => .run .atomic
  | .amocas .. => .run (.bind .readAB fun _ => .bind .readSR fun _ => .bind .access fun _ => .bind .updateT fun _ => .writeSR)
  | .radd .. => .run (.bind .readAB fun _ => .bind .access fun _ => .raddPlain)
  | .raddOrd .. => .run (.bind .readAB fun _ => .bind .readSR fun _ => .bind .orderOf fun _ => .bind .access fun _ => .raddStage)
  | .raddv .. => .run (.bind .readSrc fun _ => .bind .readV fun _ => .bind .readK fun _ => .bind .access fun _ => .raddPlain)
  | .raddvOrd .. =>
    .run (.bind .readSrc fun _ => .bind .readSR fun _ => .bind .orderOf fun _ => .bind .readV fun _ => .bind .readK fun _ =>
      .bind .access fun _ => .raddStage)
  | .fence => .run (.bind .waitQuiet fun _ => .modMe)
  | .sfill .. => .execSfill
  | .fstat .. => .run (.bind .getS fun _ => .bind (.ensure .illegalOp) fun _ => .writeSR)
  | .migr .. => .run .migrTo
  | .migrCrew .. => .run (.bind .myself fun _ => .bind (.ensure .illegalOp) fun _ => .migrTo)
  | .mpin .. => .execMpin
  | .crewj .. =>
    .run (.bind .readAB fun _ => .bind .myself fun _ => .bind .myWait fun _ => .bindS fun _ h0 => .ite
      (.bind (.ensure .illegalOp) fun _ => .modMe) (.bind (.ensure .illegalOp) fun _ => .bind (.ite .pure (.ite .pure
      (.bind (.modS fun _ _ => h0.join) fun _ => .pure))) fun _ => .ite .park (.ite .modMe .trapAt)))
  | .get .. | .put .. => .run .copyOp
  | .gett .. | .putt .. => .run .tileCopy
  | .qsend .. => .execQsend
  | .cexp .. =>
    .run (.bind .notFar fun _ => .bind .myWait fun _ => .bind .myCtr fun _ => .ite (.bind .checkErr fun _ => .bind .myCtr fun _ =>
      .ite .park .mergePts) (.bind .readSrc fun _ => .bind .checkErr fun _ => .bind (.ensure .overflowTrap) fun _ =>
      .bind .setMyCtr fun _ => .bind .myCtr fun _ => .ite .park .mergePts))
  | .cadd .. =>
    .run (.bind .notFar fun _ => .bind .readSrc fun _ => .bind .myCtr fun _ => .bind (.ensure .overflowTrap) fun _ =>
      .bind (.ensure .overflowTrap) fun _ => .bind .myself fun _ => .setMyCtr)
  | .caddClr .. =>
    .run (.bind .notFar fun _ => .bind .readSrc fun _ => .bind .myCtr fun _ => .bind (.ensure .overflowTrap) fun _ =>
      .bind .myself fun _ => .setMyCtr)
  | .crd .. => .run (.bind .notFar fun _ => .bind .myCtr fun _ => .bind .mergePts fun _ => .writeSR)
  | .xwait .. =>
    .run (.bind .notFar fun _ => .bind .readSrc fun _ => .bind .getS fun _ => .ite .trap (.ite .park (.bind .myself fun _ =>
      .bind .reportFail fun _ => .mergePts)))
  | .hset .. => .run (.bind .localOnly fun _ => .bind .readSrc fun _ => .writeHb)
  | .hurdle .. => .execHurdle
  | .view .. => .run (.bind .localOnly fun _ => .bind .readSrc fun _ => .writeView)
  | .clineWb .. => .execClineWb
  | .clineEvict .. => .execClineEvict
  | .clinePf .. => .execClinePf
  | .vadd .. | .vsub .. | .vmul .. => .run (.bind .myRnd fun _ => .vec2)
  | .vfma .. => .run (.bind .myRnd fun _ => .vec3)
  | .vmin .. | .vmax .. | .vand .. | .vor .. | .vxor .. | .vshl .. | .vshr .. | .vsar .. | .vshrr .. | .vmulq .. => .run .vec2
  | .vabs .. => .execVabs
  | .vneg .. => .execVneg
  | .vcmp .. => .run (.bind .readV fun _ => .bind .readVSrc fun _ => .bind .readK fun _ => .writeK)
  | .vsel .. => .run (.bind .readV fun _ => .bind .readVSrc fun _ => .bind .readK fun _ => .writeMasked)
  | .vmov .. => .run (.bind .readVSrc fun _ => .writeMasked)
  | .vbcast .. => .run (.bind .readV fun _ => .bind .readSrc fun _ => .writeMasked)
  | .vext .. => .run (.bind .readV fun _ => .bind .readSrc fun _ => .writeSR)
  | .vins .. => .run (.bind .readAB fun _ => .bind .readV fun _ => .writeV)
  | .vred .. => .run (.bind .myRnd fun _ => .bind .readV fun _ => .bind .readK fun _ => .writeSR)
  | .vidx .. => .run (.bind .readAB fun _ => .writeMasked)
  | .vrcp .. => .execVrcp
  | .vrsq .. => .execVrsq
  | .vexp2 .. => .execVexp2
  | .vlog2 .. => .execVlog2
  | .vcvt .. => .execVcvt
  | .vpack .. => .execVpack
  | .vunpk .. => .execVunpk
  | .vsat .. => .execVsat
  | .vquant .. | .vdeq .. => .run (.bind .myRnd fun _ => .bind .readV fun _ => .bind .quantScale fun _ => .writeV)
  | .vdot .. => .run (.bind .readV fun _ => .bind .readVSrc fun _ => .bind .readV fun _ => .writeMasked)
  | .kand .. => .execKand
  | .kor .. => .execKor
  | .kxor .. => .execKxor
  | .knot .. => .execKnot
  | .kpop .. | .kfirst .. => .run (.bind .readK fun _ => .writeSR)
  | .kmov .. => .execKmov
  | .mma .. => .run (.bind .matrixSlot fun _ => .bind .readSR fun _ => .bind .readSR fun _ => .bind .strides fun _ => .multiply)
  | .mmat .. =>
    .run (.bind .matrixSlot fun _ => .bind .readG fun _ => .bind .readG fun _ => .bind .readG fun _ => .bind .strides fun _ =>
      .multiply)
  | .mmag .. =>
    .run (.bind .matrixSlot fun _ => .bind .readG fun _ => .bind .readG fun _ => .bind (.keepRow .readV) fun _ =>
      .bind (.keepRow .readV) fun _ => .multiply)
  | .mmas .. => .run (.bind .matrixSlot fun _ => .bind .readG fun _ => .bind .readG fun _ => .bind .readG fun _ => .multiply)
  | .azero .. => .run (.bind .matrixSlot fun _ => .bind .openAcc fun _ => .modAcc)
  | .aepi .. => .execAepi
  | .arel .. => .run (.bind .matrixSlot fun _ => .bind .ownAcc fun _ => .ite .park .modAcc)
  | .aclaim .. => .run (.bind .matrixSlot fun _ => .bind .getS fun _ => .ite .accRefused (.ite .park .modAcc))
  | .asave .. =>
    .run (.bind .matrixSlot fun _ => .bind .readSR fun _ => .bind .ownAcc fun _ => .bind .getS fun _ => .ite .accRefused
      (.bind .aligned fun _ => .ite .park (.bind .checkImage fun _ => .bind .checkAccPoison fun _ => .bind .saveLines fun _ => .ite
      .modAcc .pure)))
  | .aload .. => .execAload
  | .collAr .. | .collRs .. | .collAg .. | .collA2a .. => .run .collOp
  | .talloc .. => .execTalloc
  | .tfree .. => .execTfree
  | .twiden .. => .execTwiden
  | .tinfo .. => .execTinfo
  | .tld .. =>
    .run (.bind .tileRegs fun _ => .bind (.unstamped .tldChecks) fun _ => .bind .stampHandle fun _ => .bind .opTurn fun _ =>
      .bind (.engineStep .tldRows) fun _ => .bind .retireOp fun _ => .bind .boardDone fun _ => .engineDone)
  | .tldt .. =>
    .run (.bind .tileRegs fun _ => .bind (.unstamped .tldtChecks) fun _ => .bind .stampHandle fun _ => .bind .opTurn fun _ =>
      .bind (.engineStep .tldtRows) fun _ => .bind .retireOp fun _ => .bind .boardDone fun _ => .engineDone)
  | .tst .. =>
    .run (.bind .tileRegs fun _ => .bind (.unstamped .storeTileChecks) fun _ => .bind .stampHandle fun _ => .bind .opTurn fun _ =>
      .bind (.engineStep (.bind .tstRows fun _ => .boardDone)) fun _ => .bind .publishMine fun _ => .pure)
  | .tstAdd .. =>
    .run (.bind .tileRegs fun _ => .bind (.unstamped .storeTileChecks) fun _ => .bind .stampHandle fun _ => .bind .opTurn fun _ =>
      .bind (.engineStep (.bind .tstAddRows fun _ => .boardDone)) fun _ => .bind .tstAddLines fun _ => .bind .retireOp fun _ =>
      .modMe)
  | .tredRow .. =>
    .run (.bind .tileRegs fun _ => .bind .checkProg fun _ => .bind (.unstamped .tredChecks) fun _ => .bind .stampHandle fun _ =>
      .bind .opTurn fun _ => .bind .myself fun _ => .bind .tredFirst fun _ => .bind .tredRowRun fun _ => .bind .retireOp fun _ =>
      .engineDone)
  | .tredCol .. =>
    .run (.bind .tileRegs fun _ => .bind (.unstamped .tredChecks) fun _ => .bind .stampHandle fun _ => .bind .opTurn fun _ =>
      .bind .myself fun _ => .bind (.engineStep (.longTrap .setProg .tredColStep)) fun _ => .bind .tredWrite fun _ =>
      .bind .retireOp fun _ => .engineDone)
  | .tscale .. =>
    .run (.bind .tensorSlot fun _ => .bind .readSR fun _ => .bind .readSR fun _ => .bind .readG fun _ => .bind .checkProg fun _ =>
      .bind (.unstamped .tscaleChecks) fun _ => .bind .stampHandle fun _ => .bind .opTurn fun _ => .bind .myself fun _ =>
      .bind .tscaleRun fun _ => .bind .publishMine fun _ => .pure)
  | .tew .. =>
    .run (.bind .tensorSlot fun _ => .bind .readSR fun _ => .bind .readSR fun _ => .bind .myself fun _ => .bind .tewParts fun _ =>
      .bind .checkProg fun _ => .bind (.unstamped .tewChecks) fun _ => .bind .stampHandle fun _ => .bind .opTurn fun _ =>
      .bind .tewRun fun _ => .bind .publishMine fun _ => .pure)
  | .tcopy .. => .execTcopy
  | .stash .. => .execStash
  | .restore .. => .execRestore
  | .nmload .. =>
    .run (.bind .nearSlot fun _ => .bind .readSR fun _ => .bind .readSR fun _ => .bind (.nearChecks (fun _ => .pure)) fun _ =>
      .bind .nearMove fun _ => .bind .stampHandle fun _ => .bind .opTurn fun _ => .bind (.engineStep .loadWeights) fun _ => .retireOp)
  | .nmstrm .. => .execNmstrm
  | .nmdrain .. =>
    .run (.bind .nearSlot fun _ => .bind .readSR fun _ => .bind .readSR fun _ => .bind .myself fun _ => .bind (.nearChecks (fun _ =>
      .ensure .badFormat)) fun _ => .bind .nearMove fun _ => .bind .stampHandle fun _ => .bind .opTurn fun _ =>
      .bind (.engineStep .drainTile) fun _ => .bind .publishMine fun _ => .pure)
  | .spawn .. => .execSpawn
  | .reap .. => .execReap
  | .launch .. =>
    .run (.bind .readSrc fun _ => .bind .aligned fun _ => .bind .myWait fun _ => .bind (.ite .pure (.bind .behalfLoad fun _ =>
      .bind .keepWait fun _ => .pure)) fun _ => .bind (.ensure .illegalOp) fun _ => .bind .await fun _ => .bind .replyRoute fun _ =>
      .bindS fun _ h0 => .bind (.modS fun _ _ => h0.submit) fun _ => .writeSR)
  | .cancel .. =>
    .run (.bind .readSrc fun _ => .bind .await fun _ => .bind .replyRoute fun _ => .bindS fun _ h0 =>
      .bind (.modS fun _ _ => h0.cancelLevel) fun _ => .writeSR)
  | .sysrd .. => .run (.bind .checkSp fun _ => .bind .readSp fun _ => .writeSR)
  | .syswr .. => .run (.bind .checkSp fun _ => .bind .getS fun _ => .bind (.ensure .illegalOp) fun _ => .bind .readSrc fun _ => .writeSp)
  | .xret .. => .execXret
  | .svc .. => .run (.bind .await fun _ => .bind .replyRoute fun _ => .svcReply)
  | .keep .. => .run (.bind .getS fun _ => .bind (.ensure .illegalOp) fun _ => .bind .readSrc fun _ => .writeKeep)
  | .xpcWrite .. | .ptsTick .. | .lapBoundary .. | .translationRequest .. | .walkEnd .. | .shootdown .. | .shootdownAck ..
    | .leaseRenewal .. | .homeStore .. | .crossingInvalidation .. | .directoryEviction .. | .hbmRequest .. | .periodicRefresh ..
    | .patrolScrub .. | .managerErrorHandling .. | .carveInterval | .carveStepReady | .handleStamp .. | .publish ..
    | .reduceStoreLineAdd .. | .reRepresentation .. | .converterSnapshot .. | .reRepresentationPublish .. | .tensorEntryFree ..
    | .copyChunk .. | .chunkVisible .. | .chunkAck .. | .copyDone .. | .copyStop .. | .raddArrival .. | .raddOrdStage ..
    | .queueMessageArrival .. | .assignStart .. | .assignEnded .. | .assignCancel .. | .matrixStep .. | .epilogueStep ..
    | .tensorStep .. | .batonArrival .. | .batonRefusal .. | .batonAccepted .. | .crewBatonArrival .. | .crewAdmissionTimeout ..
    | .crewRefusalWindowEnd .. | .crewjTimeout .. | .hurdleSignal .. | .hurdleRelease .. | .brokenSignal .. | .brokenRelease ..
    | .completionRecordWrite .. | .killAck .. | .cancelDelivery .. | .cancelHandlerTimeout .. | .phaseStart .. | .graphStart ..
    | .launchPlacement .. | .farUnitPlace .. | .farUnitRetire .. | .preemption .. | .launchRestore .. | .rebase ..
    | .clusterAssignment .. | .loaderLoad .. | .jobnotify .. | .intakeReread .. | .hostRead .. | .hostWrite .. | .hostRegisterWrite ..
    | .featselWrite .. | .actlvlhWrite .. | .lnkcthrWrite .. | .portmodeWrite .. | .portmodeApply .. | .attestationRequest ..
    | .freeze .. | .freezeToken .. | .coldReset .. | .frameReceive .. | .windowClose .. | .laneMapMarker .. | .retrainComplete ..
    | .rateAdvertisement .. | .keyExchange .. | .timeDiscipline .. | .governorTick .. | .replyArrival .. | .graphEngineRequest ..
    | .crewjRefusalWindowEnd .. | .disciplineLost .. | .warmReset | .peerStashRequest .. | .collPeerData .. => .same

/-! ## Steps that answer a slot or move a thread -/

theorem State.Linked.wakeUp {s : State} {t : Nat} (h : s.Linked L) : (s.wakeUp t).Linked L := .ite h h.modSlot

theorem State.Linked.failStash {s : State} {t : Nat} (h : s.Linked L) : (s.failStash t).Linked L :=
  .ite
    (by
      split
      · dsimp only
        split
        · exact h
        · exact h.failCtr
      · dsimp only
        split
        · exact h
        · exact h.failCtr
      · exact h) h

theorem State.Linked.stopEpis {s : State} {t : Nat} (h : s.Linked L) : (s.stopEpis t).Linked L := h.upd

theorem State.Linked.cancelStarter {s : State} {t : Nat} (h : s.Linked L) : (s.cancelStarter t).Linked L :=
  .ite h.modSlot.takeTrap h.modSlot

theorem State.Linked.restartWriter {s : State} {t : Nat} (h : s.Linked L) : (s.restartWriter t).Linked L := .ite h.modSlot h

theorem State.Linked.keepResults {s : State} {t : Nat} (h : s.Linked L) : (s.keepResults t).Linked L := by
  unfold State.keepResults
  dsimp only
  split
  · split
    · exact h
    · split
      · next e => exact .upd (LinkM.ok (.bind .readSR fun _ => .bind .tredWrite fun _ => .engineDone) (.upd h) e)
      · exact h
  · exact h

theorem State.Linked.takeCancel {s : State} {t : Nat} (h : s.Linked L) : (s.takeCancel t).Linked L :=
  .ite h.cancelStarter h.keepResults.failStash.stopEpis.restartWriter.dropOps.takeTrap

end Sys2Proof.Machine
end

section
/-! CERTIFICATE. Links: what the steps on a link change, and what a link that goes down leaves (R393, R400, R401). -/
namespace Sys2Proof.Machine

/-! ## Reading a link after a change -/

@[simp] theorem State.link_modLink_self (s : State) (v : Nat) (f : Link → Link) : (s.modLink v f).link v = f (s.link v) :=
  SMap.get_set_self ..

theorem State.link_of_links {s t : State} (h : t.links = s.links) (v : Nat) : t.link v = s.link v := congrArg (SMap.get Link.dflt · v) h

@[simp] theorem State.log_links (s : State) (d kind who data : Nat) : (s.log d kind who data).links = s.links :=
  State.Linked.log s.linked_self

@[simp] theorem State.log_link (s : State) (d kind who data v : Nat) : (s.log d kind who data).link v = s.link v :=
  State.link_of_links (s.log_links ..) v

/-! ## A link goes down -/

/-- The answer to a request in flight runs its instruction again, which keeps the links. -/
theorem State.errorReply_links (s : State) (v t : Nat) : (s.errorReply v t).links = s.links := by
  unfold State.errorReply
  split
  · rfl
  · split
    · split
      · next e =>
        split
        · rfl
        · split
          · exact State.Linked.takeCancel s.linked_self
          · exact State.Linked.wakeUp (.upd (LinkOut.rerun _ _ (.upd s.linked_self) e))
      · rfl
    · rfl

/-- Of the link that goes down its state, its replay buffer and its replay change, and nothing else (R400). -/
theorem State.link_linkDown (s : State) (v : Nat) (h : (s.link v).down = false) :
    (s.linkDown v).link v = { s.link v with down := true, unacked := 0, resend := 0 } := by
  have hr : ((s.slots.map fun (x : Nat × Slot) => x.1).foldl (fun s t => s.errorReply v t) s).links = s.links :=
    State.Linked.foldl s.linked_self fun s t h => (s.errorReply_links v t).trans h
  unfold State.linkDown
  rw [if_neg (by simp [h])]
  extract_lets ks s1 s2 s3
  have h2 : s2.link v = { s.link v with down := true, unacked := 0, resend := 0 } := by
    simp only [s2, State.log_link, State.link_modLink_self, State.link_of_links hr, s1]
  have h3 : ((s3.drained v).dropColls (linkExt v)).links = s2.links :=
    State.Linked.dropColls (.drained (.foldl s2.linked_self fun _ _ h => h.stopCopy))
  rw [State.link_of_links h3, h2]

theorem State.linkDown_down (s : State) (v : Nat) (h : (s.link v).down = true) : s.linkDown v = s := if_pos h

/-! ## What the steps on one link change -/

theorem Link.fill_eq (l : Link) : ∃ t w, l.fill = { l with training := t, waiting := w } := by
  unfold Link.fill
  split
  · exact ⟨_, _, rfl⟩
  · split <;> exact ⟨_, _, rfl⟩

theorem Link.retrain_eq (l : Link) (w : Nat) : ∃ t r, l.retrain w = { l with training := t, waiting := r } := by
  unfold Link.retrain
  split
  · exact ⟨_, _, rfl⟩
  · exact Link.fill_eq _

theorem Link.retrainOver_eq (l : Link) : ∃ t r, l.retrainOver = { l with training := t, waiting := r } := by
  refine List.foldlRecOn (motive := fun m : Link => ∃ t r, m = { l with training := t, waiting := r }) l.over _ ⟨_, _, rfl⟩ ?_
  rintro m ⟨t, r, rfl⟩ w -
  obtain ⟨t', r', e⟩ := Link.retrain_eq { l with training := t, waiting := r } w
  exact ⟨t', r', e⟩

theorem Link.buffer_eq (l : Link) (v q : Nat) : ∃ u, l.buffer v q = { l with unacked := u } ∧ (linkExt v = true → u = l.unacked) := by
  unfold Link.buffer
  split
  · next h => exact ⟨_, rfl, fun hx => by simp [hx] at h⟩
  · exact ⟨_, rfl, fun _ => rfl⟩

theorem Link.count_nil_eq (l : Link) : ∃ t r, l.count [] = { l with frames := l.frames + 1, training := t, waiting := r } :=
  Link.retrainOver_eq { l with frames := l.frames + 1 }

/-- A frame that enters the buffer and the window: one frame more, and what retrains. -/
theorem Link.enter_eq (l : Link) (v q : Nat) : ∃ u t r,
    (l.buffer v q).count [] = { l with unacked := u, frames := l.frames + 1, training := t, waiting := r } ∧
      (linkExt v = true → u = l.unacked) := by
  obtain ⟨u, e, hu⟩ := l.buffer_eq v q
  obtain ⟨t, r, e'⟩ := Link.count_nil_eq { l with unacked := u }
  exact ⟨u, t, r, by rw [e, e'], hu⟩

/-- An external group sends at most one new frame in a frame time (R400, R403). -/
theorem Link.send_eq (l : Link) (acks : Nat) (back : Bool) (stride : Nat) (crypt : Bool) : ∃ u r c n k,
    l.send acks back stride crypt = { l with unacked := u, resend := r, clock := c, sentUs := n, keyed := k } ∧ u ≤ l.unacked + 1 := by
  unfold Link.send
  extract_lets l1 u l2 room
  have hu : u ≤ l.unacked := Nat.sub_le ..
  split
  · split
    · exact ⟨u, _, _, _, _, rfl, hu.trans (Nat.le_succ _)⟩
    · exact ⟨u, _, _, _, _, rfl, hu.trans (Nat.le_succ _)⟩
  · split
    · exact ⟨u + 1, _, _, _, _, rfl, Nat.succ_le_succ hu⟩
    · exact ⟨u, _, _, _, _, rfl, hu.trans (Nat.le_succ _)⟩

end Sys2Proof.Machine
end

section
/-! CERTIFICATE. The host's registers, the report, freeze and reset, time and the governor: what each step changes (R397-R409). -/
namespace Sys2Proof.Machine

/-! ## Every die at once -/

/-- A change of every die, as one die sees it. -/
theorem State.die_eachDie (f : Nat → Die → Die) (s : State) (n d : Nat) :
    ((List.range n).foldl (fun s d => s.modDie d (f d)) s).die d = if d < n then f d (s.die d) else s.die d := by
  induction n with
  | zero => rfl
  | succ n ih =>
    rw [List.range_succ, List.foldl_append, List.foldl_cons, List.foldl_nil, State.die_modDie]
    by_cases h : d = n
    · subst h
      simp [ih]
    · simp [ih, h, Nat.le_iff_lt_or_eq]

/-- It changes nothing but the dies. -/
theorem State.eachDie_eq (f : Nat → Die → Die) (s : State) (n : Nat) :
    ∃ ds, (List.range n).foldl (fun s d => s.modDie d (f d)) s = { s with dies := ds } :=
  List.foldlRecOn (motive := fun t : State => ∃ ds, t = { s with dies := ds }) _ _ ⟨_, rfl⟩ fun _ ⟨_, e⟩ _ _ => e ▸ ⟨_, rfl⟩

/-! ## Registers of the host (R398) -/

/-- A write of a register leaves the value of FEATSEL. -/
theorem Package.write_featsel (p : Package) (off : Nat) (x : Word) : (p.write off x).featsel = p.featsel := by
  unfold Package.write
  dsimp only
  repeat' split
  all_goals rfl

theorem Package.write_hwbase_other (p : Package) {off : Nat} (x : Word) (h : off ≠ 0x8) : (p.write off x).hwbase = p.hwbase := by
  unfold Package.write
  simp only [if_neg h]
  repeat' split
  all_goals rfl

theorem Package.write_budget (p : Package) (x : Word) :
    (p.write 0x3100 x).budget = if 1000 ≤ x.toNat ∧ x.toNat ≤ 3600 then x.toNat else p.budget :=
  apply_ite Package.budget ..

theorem Package.write_budget_other (p : Package) {off : Nat} (x : Word) (h : off ≠ 0x3100) : (p.write off x).budget = p.budget := by
  unfold Package.write
  simp only [if_neg h]
  repeat' split
  all_goals rfl

theorem Package.write_lnkcsel (p : Package) (x : Word) :
    (p.write 0x3400 x).lnkcsel = if linkOk x then x else p.lnkcsel :=
  apply_ite Package.lnkcsel ..

theorem Package.write_frames (p : Package) {off : Nat} (x : Word) (h : 0x1000 ≤ off) (h' : off + 8 ≤ 0x2000) :
    (p.write off x).frames = writeN p.frames (off - 0x1000) 8 x.toNat := by
  unfold Package.write
  rw [if_neg (by omega), if_pos ⟨h, h'⟩]

/-! ## The report (R407) -/

theorem putBytes_get_below (m : SMap Byte) {o b : Nat} (l : List Byte) (h : b < o) : (putBytes m o l).get 0 b = m.get 0 b := by
  induction l generalizing m o with
  | nil => rfl
  | cons x l ih => rw [putBytes, ih _ (by omega), SMap.get_set_ne _ _ _ (by omega)]

theorem putBytes_get (m : SMap Byte) (o : Nat) (l : List Byte) {i : Nat} (h : i < l.length) :
    (putBytes m o l).get 0 (o + i) = l.getD i 0 := by
  induction l generalizing m o i with
  | nil => exact absurd h (Nat.not_lt_zero i)
  | cons x l ih =>
    cases i with
    | zero => rw [putBytes, putBytes_get_below _ _ (by omega), Nat.add_zero, SMap.get_set_self, List.getD_cons_zero]
    | succ i =>
      rw [putBytes, show o + (i + 1) = o + 1 + i by omega, ih _ _ (Nat.lt_of_succ_lt_succ h), List.getD_cons_succ]

/-- The report stands from 0x80 up, and 0x40 says that it is there. -/
theorem attestationRequest_report {s : State} {x : Word} (hs : (s.die Config.infieldDie).stopped = false) (hx : x = 1) :
    ∃ u, exec (.attestationRequest x) s = .next u ∧ readN u.pkg.mailbox 0x40 8 = 2 ∧
      ∀ i, i < s.reportText.length → u.pkg.mailbox.get 0 (0x80 + i) = s.reportText.getD i 0 := by
  change ∃ u : State, execAttestationRequest x s = .next u ∧ _
  unfold execAttestationRequest
  rw [event_next _ _ hs]
  refine ⟨_, rfl, ?_, fun i hi => ?_⟩
  · dsimp only
    rw [if_pos hx, readN_writeN]
    exact Nat.mod_eq_of_lt (by norm_num)
  · dsimp only
    rw [if_pos hx, writeN_get_out _ _ _ _ _ (by omega), putBytes_get _ _ _ (by rw [List.length_append]; omega), List.getD_append _ _ _ _ hi]

/-! ## Freeze and reset (R407-R409) -/

/-- A value that every entry has, and the default too, is the value of every key. -/
theorem SMap.get_of_forall {α : Type} {P : α → Prop} {d : α} {m : SMap α} (hd : P d) (hm : ∀ e ∈ m, P e.2) (k : Nat) :
    P (SMap.get d m k) := by
  induction m with
  | nil => exact hd
  | cons e m ih =>
    unfold SMap.get
    split
    · exact hm e (by simp)
    · exact ih fun e' h => hm e' (by simp [h])

theorem State.restart_cluster_job (s : State) (good : Bool) (k : Nat) : ((s.restart good).cluster k).job = none := by
  refine SMap.get_of_forall (P := fun c : Cluster => c.job = none) rfl (fun e he => ?_) k
  obtain ⟨e', -, rfl⟩ := List.mem_map.mp he
  rfl

theorem freeze_tokens {s : State} {x : Word} (hs : (s.die Config.infieldDie).stopped = false) (hx : x = 0x46525A21) :
    ∃ u : State, exec (.freeze x) s = .next u ∧ (∀ d, d < Config.dieCount → (u.die d).token = true) ∧
      (∀ d, (u.die d).stopped = (s.die d).stopped) ∧ u.mem = s.mem ∧ u.slots = s.slots := by
  change ∃ u : State, execFreeze x s = .next u ∧ _
  unfold execFreeze
  rw [event_next _ _ hs]
  refine ⟨_, rfl, ?_⟩
  rw [if_neg (not_not.mpr hx)]
  obtain ⟨ds, e⟩ := s.eachDie_eq (fun _ q => { q with token := true }) Config.dieCount
  refine ⟨fun d h => ?_, fun d => ?_, by rw [e], by rw [e]⟩
  · rw [State.die_eachDie (fun _ q => { q with token := true }), if_pos h]
  · rw [State.die_eachDie (fun _ q => { q with token := true }), apply_ite Die.stopped, ite_self]

/-- An entry of a black box changes that die, and the notices for the host. -/
theorem State.log_eq (s : State) (d kind who data : Nat) :
    ∃ ds l, s.log d kind who data = { s with dies := ds, pkg := { s.pkg with msix := l } } := by
  unfold State.log
  dsimp only
  split
  · exact ⟨_, _, rfl⟩
  · exact ⟨_, _, rfl⟩

theorem State.die_log_ne (s : State) {d k : Nat} (kind who data : Nat) (h : k ≠ d) : (s.log d kind who data).die k = s.die k := by
  unfold State.log
  extract_lets s1
  have h1 : s1.die k = s.die k := (s.die_modDie ..).trans (if_neg h)
  split
  · exact h1
  · exact h1

/-- The token stops the clocks of its die, and of no other. -/
theorem freezeToken_stops {s : State} {d : Nat} (hs : (s.die d).stopped = false) (ht : (s.die d).token = true) :
    ∃ u : State, exec (.freezeToken d) s = .next u ∧ (u.die d).stopped = true ∧ (u.die d).token = false ∧
      (∀ k, k ≠ d → (u.die k).stopped = (s.die k).stopped) ∧ u.mem = s.mem ∧ u.slots = s.slots := by
  refine ⟨_, event_next _ _ hs, ?_⟩
  rw [if_pos ht]
  extract_lets s1
  have hd : (s1.die d).stopped = true ∧ (s1.die d).token = false := by
    simp only [s1, State.die_modDie, if_pos, and_self]
  have hk (k : Nat) (h : k ≠ d) : (s1.die k).stopped = (s.die k).stopped := by
    simp only [s1, State.die_modDie, if_neg h, s.die_log_ne 8 d 0 h]
  obtain ⟨ds, l, e⟩ := s.log_eq d 8 d 0
  have hm : s1.mem = s.mem ∧ s1.slots = s.slots := by
    simp only [s1, e, State.modDie_mem, State.modDie_slots, and_self]
  split
  · exact ⟨hd.1, hd.2, hk, hm⟩
  · exact ⟨hd.1, hd.2, hk, hm⟩

theorem warmReset_keeps {s : State} (hs : (s.die Config.infieldDie).stopped = false) :
    ∃ u : State, exec .warmReset s = .next u ∧ u.pkg.featDone = false ∧ u.pkg.featsel = 0 ∧
      (∀ d, (u.die d).box = (s.die d).box ∧ (u.die d).boxSeq = (s.die d).boxSeq) ∧ (∀ t, u.slot t = Slot.dflt) ∧ ∀ j, u.job j = none := by
  change ∃ u : State, execWarmReset s = .next u ∧ _
  unfold execWarmReset
  rw [event_next _ _ hs]
  refine ⟨_, rfl, rfl, rfl, fun d => ?_, fun _ => rfl, fun _ => rfl⟩
  have e := SMap.get_map Die.dflt s.dies (fun _ q => { Die.dflt with box := q.box, boxSeq := q.boxSeq, stopped := q.stopped }) d fun _ => rfl
  exact ⟨(congrArg Die.box e :), (congrArg Die.boxSeq e :)⟩

/-! ## Time and the governor (R405, R406) -/

/-- A change of TIMEERR of every die, as one die sees it. The change is a variable here: what it computes does not matter. -/
theorem State.timeErr_eachDie (m : Nat → Nat) (s : State) {n d : Nat} (h : d < n) :
    ((((List.range n).foldl (fun s d => s.modDie d fun q => { q with timeErr := m q.timeErr }) s).die d).timeErr = m (s.die d).timeErr) ∧
    (((List.range n).foldl (fun s d => s.modDie d fun q => { q with timeErr := m q.timeErr }) s).die d).time = (s.die d).time := by
  rw [State.die_eachDie fun _ q => { q with timeErr := m q.timeErr }, if_pos h]
  exact ⟨rfl, rfl⟩

theorem disciplineLost_grows {s : State} (us : Nat) (hs : (s.die Config.infieldDie).stopped = false) :
    ∃ u : State, exec (.disciplineLost us) s = .next u ∧
      (s.pkg.timeSrc = 0 → u = s) ∧ (s.pkg.timeSrc ≠ 0 → u.pkg.timeSrc = 3 ∧
        ∀ d, d < Config.dieCount → (u.die d).timeErr = min 0xFFFFFFFF ((s.die d).timeErr + us) ∧ (u.die d).time = (s.die d).time) := by
  change ∃ u : State, execDisciplineLost us s = .next u ∧ _
  unfold execDisciplineLost
  rw [event_next _ _ hs]
  refine ⟨_, rfl, fun h => if_pos h, fun h => ?_⟩
  rw [if_neg h]
  obtain ⟨ds, e⟩ := s.eachDie_eq (fun _ q => { q with timeErr := min 0xFFFFFFFF (q.timeErr + us) }) Config.dieCount
  have he (d : Nat) (hd : d < Config.dieCount) := State.timeErr_eachDie (fun t => min 0xFFFFFFFF (t + us)) s hd
  rw [e] at he ⊢
  exact ⟨rfl, he⟩

theorem governorTick_sets {s : State} (p : Nat) (b : Bool) (hs : (s.die Config.infieldDie).stopped = false) :
    ∃ u : State, exec (.governorTick p b) s = .next u ∧ u.pkg.power = p ∧
      u.pkg.limit = decide (s.pkg.budget < p) ∧ u.pkg.near = (s.nearRuns || b) ∧
      u.pkg.mdiv = nextDivider s.pkg.mdiv p s.pkg.budget (if s.nearRuns || b then 4 else 0) ∧ u.mem = s.mem ∧ u.slots = s.slots := by
  change ∃ u : State, execGovernorTick p b s = .next u ∧ _
  unfold execGovernorTick
  rw [event_next _ _ hs]
  refine ⟨_, rfl, ?_⟩
  extract_lets pk near n s1
  split
  · exact ⟨rfl, rfl, rfl, rfl, rfl, rfl⟩
  · obtain ⟨ds, l, e⟩ := s1.log_eq Config.infieldDie 5 0 n
    rw [e]
    exact ⟨rfl, rfl, rfl, rfl, rfl, rfl⟩

/-- TIME of a die follows the master within 2 ns and never falls; the master never falls either. -/
theorem timeDiscipline_follows {s : State} {src bound tai d : Nat} (hs : (s.die Config.infieldDie).stopped = false)
    (h : src = 1 ∨ (src = 2 ∧ s.pkg.featsel.testBit 5 = true)) :
    ∃ u : State, exec (.timeDiscipline src bound tai d) s = .next u ∧ u.pkg.master = max s.pkg.master tai ∧ u.pkg.timeSrc = src ∧
      ∀ k, k < Config.dieCount → (s.die k).time ≤ (u.die k).time ∧
        (u.die k).time ≤ max (s.die k).time (max s.pkg.master tai + 2) ∧ max s.pkg.master tai - 2 ≤ (u.die k).time ∧
        (k ≠ d → (u.die k).time = max (s.die k).time (max s.pkg.master tai)) ∧
        (u.die k).timeErr = min 0xFFFFFFFF (25000 + (if src = 1 then bound else 0)) := by
  change ∃ u : State, execTimeDiscipline src bound tai d s = .next u ∧ _
  unfold execTimeDiscipline
  rw [event_next _ _ hs]
  refine ⟨_, rfl, ?_⟩
  rw [if_pos h]
  extract_lets m off pk s1
  obtain ⟨ds, e⟩ := s1.eachDie_eq (fun k q => q.follow (if k = d then off else m) (timeErrOf src bound)) Config.dieCount
  refine ⟨by rw [e], by rw [e], fun k hk => ?_⟩
  rw [State.die_eachDie fun k q => q.follow (if k = d then off else m) (timeErrOf src bound), if_pos hk]
  have hoff : off ≤ m + 2 ∧ m - 2 ≤ off := by
    have := Nat.mod_lt (s.picks.headD 2) (show 5 > 0 by omega)
    simp only [off]
    omega
  have hr : (if k = d then off else m) ≤ m + 2 ∧ m - 2 ≤ if k = d then off else m := by
    split
    · exact hoff
    · omega
  refine ⟨Nat.le_max_left .., max_le_max_left _ hr.1, hr.2.trans (Nat.le_max_right ..), fun hne => ?_, rfl⟩
  exact congrArg (max (s.die k).time) (if_neg hne)

/-! ## Ports (R403) -/

/-- A mode that is set on a list of groups stands on each of them. -/
theorem State.long_foldl (on : Bool) (l : List Nat) (s : State) {g : Nat} (h : g ∈ l ∨ (s.link g).long = on) :
    ((l.foldl (fun s g => ({ s with links := s.links.set Link.dflt g { s.link g with long := on } } : State)) s).link g).long = on := by
  induction l generalizing s with
  | nil => exact h.resolve_left List.not_mem_nil
  | cons v l ih =>
    refine ih _ ?_
    by_cases e : g = v
    · subst e
      exact .inr (congrArg Link.long (SMap.get_set_self ..))
    · refine (h.imp_left fun h => (List.mem_cons.mp h).resolve_left e).imp_right fun h => ?_
      exact (congrArg Link.long (SMap.get_set_ne _ _ _ e)).trans h

theorem setBit_testBit (m p : Nat) (on : Bool) : (setBit m p on).testBit p = on := by
  unfold setBit
  split
  · next h => exact h
  · next h =>
    rw [Nat.testBit_xor, Nat.testBit_two_pow_self, Bool.xor_true]
    exact Bool.not_eq_eq_eq_not.mpr (Bool.eq_not_of_ne h)

theorem portmodeApply_sets {s : State} {p : Nat} (hs : (s.die (Config.opticalDie0 + p / 16)).stopped = false) (hp : p < 64)
    (h : ∀ g ∈ portGroups p, (s.link g).unacked = 0) :
    ∃ u : State, exec (.portmodeApply p) s = .next u ∧
      (∀ g ∈ portGroups p, (u.link g).long = s.pkg.portReq.testBit p) ∧ u.pkg.portMode.testBit p = s.pkg.portReq.testBit p := by
  change ∃ u : State, execPortmodeApply p s = .next u ∧ _
  unfold execPortmodeApply
  rw [event_next _ _ hs]
  refine ⟨_, rfl, ?_⟩
  rw [if_neg (by simpa using ⟨hp, h⟩)]
  extract_lets on s1
  have hl (g : Nat) (hg : g ∈ portGroups p) : (s1.link g).long = on := (State.long_foldl on (portGroups p) s (.inl hg) :)
  clear_value s1
  exact ⟨hl, setBit_testBit ..⟩

end Sys2Proof.Machine
end

section
/-! CERTIFICATE. What the steps on a link do: frames, windows, wavelengths, rates and keys (R400-R404), and the steps of the host link,
links, time and the governor together (O60). -/
namespace Sys2Proof.Machine

/-! ## A frame arrives (R400) -/

/-- The state once a frame without corrected symbols has entered the window, and an external group has sent its own: what FRAME_RECEIVE does
before it looks at the order of the frame. -/
def State.frameIn (s : State) (v q : Nat) (bad : Bool) : State :=
  let s1 : State := { s with picks := if linkExt v then s.picks.drop 3 else s.picks }
  let s2 := s1.modLink v fun l => (l.buffer v q).count []
  if linkExt v then s2.modLink v fun l =>
    { l.send (s.picks.headD 0) (decide (s.picks.getD 1 0 ≠ 0)) s2.pkg.replayStride (s.crypted v) with
      tagBad := if s.crypted v && bad && decide (s.picks.getD 2 0 ≠ 0) then l.tagBad + 1 else l.tagBad }
  else s2

/-- The entry of a frame leaves what the link expects, and counts the frame. -/
theorem State.frameIn_link (s : State) (v q : Nat) (bad : Bool) :
    ((s.frameIn v q bad).link v).seq = (s.link v).seq ∧ ((s.frameIn v q bad).link v).fails = (s.link v).fails ∧
    ((s.frameIn v q bad).link v).down = (s.link v).down ∧ ((s.frameIn v q bad).link v).frames = (s.link v).frames + 1 ∧
    (linkExt v = true → ((s.frameIn v q bad).link v).unacked ≤ (s.link v).unacked + 1) := by
  obtain ⟨u, tr, wt, e, hu⟩ := (s.link v).enter_eq v q
  unfold State.frameIn
  extract_lets s1 s2
  have h2 : s2.link v = { s.link v with unacked := u, frames := (s.link v).frames + 1, training := tr, waiting := wt } :=
    (State.link_modLink_self ..).trans e
  split
  · next hx =>
    rw [State.link_modLink_self]
    obtain ⟨u', r, c, n, k, e', hu'⟩ := Link.send_eq (s2.link v) (s.picks.headD 0) (decide (s.picks.getD 1 0 ≠ 0)) s2.pkg.replayStride
      (s.crypted v)
    rw [e', h2]
    rw [h2] at hu'
    exact ⟨rfl, rfl, rfl, rfl, fun _ => hu hx ▸ hu'⟩
  · next hx =>
    rw [h2]
    exact ⟨rfl, rfl, rfl, rfl, fun h => absurd h hx⟩

theorem State.frameIn_picks (s : State) {v : Nat} (q : Nat) (bad : Bool) (hx : linkExt v = true) :
    (s.frameIn v q bad).picks = s.picks.drop 3 := by
  unfold State.frameIn
  simp only [hx, if_true]
  rfl

section
variable {s : State} {v q : Nat} (hs : (s.die (linkDie v)).stopped = false) (hd : (s.link v).down = false)
include hs

theorem frameReceive_down (hd : (s.link v).down = true) (bad : Bool) (corr : List (Nat × Nat)) :
    exec (.frameReceive v q bad corr) s = .next s := by
  change execFrameReceive v q bad corr s = _
  unfold execFrameReceive
  rw [event_next _ _ hs, if_pos (.inl hd)]

theorem frameReceive_no (hm : (s.link v).mayCome v q = false) (bad : Bool) (corr : List (Nat × Nat)) :
    exec (.frameReceive v q bad corr) s = .next s := by
  change execFrameReceive v q bad corr s = _
  unfold execFrameReceive
  rw [event_next _ _ hs, if_pos (.inr hm)]

include hd

/-- A frame that can arrive enters the window; the frame expected is then delivered, or fails. -/
theorem frameReceive_enters (hm : (s.link v).mayCome v q = true) (bad : Bool) :
    exec (.frameReceive v q bad []) s = .next (
      let t := s.frameIn v q bad
      if (t.link v).seq = q then
        if bad then
          let t' := t.modLink v fun l => { l with fails := l.fails + 1 }
          if 16 ≤ (t'.link v).fails then t'.linkDown v else t'
        else (if (t.link v).fails = 0 then t else t.drained v).modLink v fun l => l.deliver v
      else t) := by
  change execFrameReceive v q bad [] s = _
  unfold execFrameReceive
  rw [event_next _ _ hs, if_neg (by simp [hd, hm])]
  rfl

/-- The frame expected is delivered. -/
theorem frameReceive_delivers (hq : (s.link v).seq = q) (hm : (s.link v).mayCome v q = true) :
    exec (.frameReceive v q false []) s = .next (
      (if ((s.frameIn v q false).link v).fails = 0 then s.frameIn v q false else (s.frameIn v q false).drained v).modLink v
        fun l => l.deliver v) := by
  obtain ⟨e, -⟩ := s.frameIn_link v q false
  rw [frameReceive_enters hs hd hm false]
  exact congrArg Host.Outcome.next ((if_pos (e.trans hq)).trans (if_neg Bool.false_ne_true))

theorem frameReceive_delivered (hq : (s.link v).seq = q) (hm : (s.link v).mayCome v q = true) :
    ∃ u : State, exec (.frameReceive v q false []) s = .next u ∧
      (u.link v).seq = (q + 1) % seqMod v ∧ (u.link v).fails = 0 ∧ (u.link v).frames = (s.link v).frames + 1 ∧
      (linkExt v = true → u.picks = s.picks.drop 3 ∧ (u.link v).unacked ≤ (s.link v).unacked + 1) := by
  obtain ⟨hseq, -, -, hframes, hun⟩ := s.frameIn_link v q false
  have hdr (p : Prop) [Decidable p] (t : State) :
      (if p then t else t.drained v).link v = t.link v ∧ (if p then t else t.drained v).picks = t.picks := by
    split
    · exact ⟨rfl, rfl⟩
    · exact ⟨rfl, rfl⟩
  refine ⟨_, frameReceive_delivers hs hd hq hm, ?_⟩
  rw [State.link_modLink_self, (hdr _ _).1, Link.deliver, hseq, hq]
  refine ⟨rfl, rfl, hframes, fun hx => ⟨((hdr _ _).2).trans (s.frameIn_picks q false hx), ?_⟩⟩
  rw [if_pos hx]
  exact hun hx

/-- A bad frame is one more failure in a row, and is asked for again. -/
theorem frameReceive_fails (hq : (s.link v).seq = q) (hm : (s.link v).mayCome v q = true) (hf : (s.link v).fails + 1 < 16) :
    ∃ u : State, exec (.frameReceive v q true []) s = .next u ∧
      (u.link v).fails = (s.link v).fails + 1 ∧ (u.link v).seq = q ∧ (u.link v).down = false := by
  obtain ⟨hseq, hfails, hdown, -⟩ := s.frameIn_link v q true
  refine ⟨_, frameReceive_enters hs hd hm true, ?_⟩
  extract_lets t t'
  have ht : t'.link v = { t.link v with fails := (t.link v).fails + 1 } := State.link_modLink_self ..
  have hf' : (t'.link v).fails = (s.link v).fails + 1 := by rw [ht, ← hfails]
  rw [if_pos (hseq.trans hq), if_pos rfl, if_neg (by omega)]
  exact ⟨hf', by rw [ht]; exact hseq.trans hq, by rw [ht]; exact hdown.trans hd⟩

/-- The sixteenth failure in a row takes the link down. -/
theorem frameReceive_breaks (hq : (s.link v).seq = q) (hm : (s.link v).mayCome v q = true) (hf : 16 ≤ (s.link v).fails + 1) :
    ∃ u : State, exec (.frameReceive v q true []) s = .next u ∧ (u.link v).down = true := by
  obtain ⟨hseq, hfails, hdown, -⟩ := s.frameIn_link v q true
  refine ⟨_, frameReceive_enters hs hd hm true, ?_⟩
  extract_lets t t'
  have ht : t'.link v = { t.link v with fails := (t.link v).fails + 1 } := State.link_modLink_self ..
  have hf' : (t'.link v).fails = (s.link v).fails + 1 := by rw [ht, ← hfails]
  rw [if_pos (hseq.trans hq), if_pos rfl, if_pos (hf'.symm ▸ hf),
    State.link_linkDown _ _ (by rw [ht]; exact hdown.trans hd)]

/-- A frame out of order only enters the window. -/
theorem frameReceive_outOfOrder (hq : (s.link v).seq ≠ q) (hm : (s.link v).mayCome v q = true) (bad : Bool) :
    ∃ u : State, exec (.frameReceive v q bad []) s = .next u ∧
      (u.link v).seq = (s.link v).seq ∧ (u.link v).fails = (s.link v).fails ∧ (u.link v).frames = (s.link v).frames + 1 := by
  obtain ⟨hseq, hfails, -, hframes, -⟩ := s.frameIn_link v q bad
  refine ⟨_, frameReceive_enters hs hd hm bad, ?_⟩
  extract_lets t t'
  rw [if_neg (hseq.trans_ne hq)]
  exact ⟨hseq, hfails, hframes⟩

end

/-! ## Wavelengths (R401, R420) -/

section
variable {s : State} {v w : Nat} (hs : (s.die (linkDie v)).stopped = false) (hw : w < 8)
include hs hw

/-- A wavelength that is to retrain is removed; under six the link goes down. -/
theorem laneMapMarker_removes (ht : (s.link v).training.contains w = true) (ha : (s.link v).active.testBit w = true) :
    ∃ u : State, exec (.laneMapMarker v w false) s = .next u ∧ (u.link v).active = (s.link v).active ^^^ 2 ^ w ∧
      (u.link v).down = ((s.link v).down || decide (ones8 ((s.link v).active ^^^ 2 ^ w) < 6)) := by
  change ∃ u : State, execLaneMapMarker v w false s = .next u ∧ _
  unfold execLaneMapMarker
  rw [event_next _ _ hs]
  refine ⟨_, rfl, ?_⟩
  extract_lets l t
  rw [if_neg (by omega), if_neg Bool.false_ne_true, if_pos ⟨ht, ha⟩]
  have hl : t.link v = { s.link v with active := (s.link v).active ^^^ 2 ^ w } := by
    simp only [t, State.log_link, State.link_modLink_self]
  rw [hl]
  split
  · next h6 =>
    cases hd : (s.link v).down with
    | false =>
      rw [State.link_linkDown _ _ (by rw [hl]; exact hd), hl]
      exact ⟨rfl, by simp [h6]⟩
    | true =>
      rw [State.linkDown_down _ _ (by rw [hl]; exact hd), hl]
      exact ⟨rfl, by simp [hd]⟩
  · next h6 =>
    rw [hl]
    exact ⟨rfl, by simp [h6]⟩

/-- A wavelength whose retrain has ended is handed back. -/
theorem laneMapMarker_handsBack (ht : (s.link v).training.contains (backKey w) = true) :
    ∃ u : State, exec (.laneMapMarker v w true) s = .next u ∧ (u.link v).active = (s.link v).active ||| 2 ^ w ∧
      (u.link v).retr = ((s.link v).retr + 1) % 2 ^ 32 := by
  change ∃ u : State, execLaneMapMarker v w true s = .next u ∧ _
  unfold execLaneMapMarker
  rw [event_next _ _ hs]
  refine ⟨_, rfl, ?_⟩
  extract_lets l t
  rw [if_neg (by omega), if_pos rfl, if_pos ht, State.log_link, State.link_modLink_self]
  obtain ⟨a, b, e⟩ := Link.fill_eq { s.link v with
    active := (s.link v).active ||| 2 ^ w, retr := ((s.link v).retr + 1) % 2 ^ 32, win := (s.link v).win.set 0 w 0
    tries := (s.link v).tries.set 0 w 0, training := (s.link v).training.filter fun x => decide (x ≠ backKey w) }
  rw [e]
  exact ⟨rfl, rfl⟩

theorem retrainComplete_good (ht : (s.link v).training.contains w = true) (ha : (s.link v).active.testBit w = false) :
    exec (.retrainComplete v w true) s =
      .next (s.modLink v fun l => { l with training := l.training.map fun x => if x = w then backKey w else x }) := by
  change execRetrainComplete v w true s = _
  unfold execRetrainComplete
  rw [event_next _ _ hs, if_neg (by simp [-List.contains_eq_mem, ht, ha, hw]), if_pos rfl]

theorem retrainComplete_again (ht : (s.link v).training.contains w = true) (ha : (s.link v).active.testBit w = false)
    (h2 : (s.link v).tries.get 0 w < 2) :
    exec (.retrainComplete v w false) s = .next (s.modLink v fun l => { l with tries := l.tries.set 0 w (l.tries.get 0 w + 1) }) := by
  change execRetrainComplete v w false s = _
  unfold execRetrainComplete
  rw [event_next _ _ hs, if_neg (by simp [-List.contains_eq_mem, ht, ha, hw]), if_neg Bool.false_ne_true, if_pos h2]

/-- The third retrain that fails leaves the wavelength out. -/
theorem retrainComplete_leavesOut (ht : (s.link v).training.contains w = true) (ha : (s.link v).active.testBit w = false)
    (h2 : 2 ≤ (s.link v).tries.get 0 w) :
    ∃ u : State, exec (.retrainComplete v w false) s = .next u ∧ w ∈ (u.link v).out := by
  change ∃ u : State, execRetrainComplete v w false s = .next u ∧ _
  unfold execRetrainComplete
  rw [event_next _ _ hs, if_neg (by simp [-List.contains_eq_mem, ht, ha, hw]), if_neg Bool.false_ne_true, if_neg (by omega)]
  refine ⟨_, rfl, ?_⟩
  rw [State.link_modLink_self]
  obtain ⟨a, b, e⟩ := Link.fill_eq { s.link v with
    out := w :: (s.link v).out, tries := (s.link v).tries.set 0 w 0, training := (s.link v).training.filter fun x => decide (x ≠ w) }
  rw [e]
  exact List.mem_cons_self

end

/-! ## The steps together -/

theorem Link.mayCome_outside {l : Link} {v q : Nat} (hx : linkExt v = true) (hf : l.frames < 65536) : l.mayCome v q = true := by
  simp [Link.mayCome, hx, windowFrames, hf]

/-- A host write of a register (R398). -/
theorem hostRegisterWrite_sets {s : State} (hs : (s.die Config.infieldDie).stopped = false) (off : Nat) (x : Word) :
    ∃ u, exec (.hostRegisterWrite off x) s = .next u ∧
      (off = 0x8 → u.pkg.hwbase = x &&& 0xFFFFC00000000000) ∧
      (off = 0x3100 → u.pkg.budget = if 1000 ≤ x.toNat ∧ x.toNat ≤ 3600 then x.toNat else s.pkg.budget) ∧
      (off = 0x3400 → u.pkg.lnkcsel = if linkOk x then x else s.pkg.lnkcsel) ∧
      (0x1000 ≤ off → off + 8 ≤ 0x2000 → u.pkg.frames = writeN s.pkg.frames (off - 0x1000) 8 x.toNat) ∧
      (off ≠ 0x8 → u.pkg.hwbase = s.pkg.hwbase) ∧ (off ≠ 0x3100 → u.pkg.budget = s.pkg.budget) ∧
      u.pkg.featsel = s.pkg.featsel ∧ u.mem = s.mem ∧ u.slots = s.slots := by
  refine ⟨{ s with pkg := s.pkg.write off x }, (event_next _ _ hs : execHostRegisterWrite off x s = _), ?_, ?_, ?_,
    Package.write_frames _ _, Package.write_hwbase_other _ _, Package.write_budget_other _ _, Package.write_featsel .., rfl, rfl⟩
  · rintro rfl
    rfl
  · rintro rfl
    exact Package.write_budget ..
  · rintro rfl
    exact Package.write_lnkcsel ..

/-- Settles O60: each clause is the rule of its step. -/
theorem hostAndLinkSteps : Obligations.HostAndLinkSteps := by
  unfold Obligations.HostAndLinkSteps
  refine ⟨fun s hs => ⟨?_, ?_, hostRegisterWrite_sets hs, ?_, ?_, ?_, ?_, ?_, attestationRequest_report hs rfl, ?_,
      freeze_tokens hs rfl, warmReset_keeps hs, fun us => disciplineLost_grows us hs, fun p b => governorTick_sets p b hs⟩,
    fun s p hs => ⟨?_, portmodeApply_sets hs⟩,
    fun s d hs => ⟨?_, freezeToken_stops hs⟩,
    fun s good => ⟨rfl, fun _ => rfl, fun _ => rfl, rfl, s.restart_cluster_job good⟩,
    fun s v hs => ⟨fun hd q b c => frameReceive_down hs hd b c, fun q hm b c => frameReceive_no hs hm b c, ?_, ?_, ?_, ?_,
      fun w hw => laneMapMarker_removes hs hw, fun w hw => laneMapMarker_handsBack hs hw, ?_,
      fun w hw ht ha => ⟨retrainComplete_good hs hw ht ha, retrainComplete_again hs hw ht ha, retrainComplete_leavesOut hs hw ht ha⟩,
      ?_, event_next _ _ hs⟩,
    fun s src bound tai d hs => ⟨timeDiscipline_follows hs, ?_⟩, fun s v hd => ?_, State.linkDown_down⟩
  · exact fun pa n => (event_step hs rfl : execHostRead pa n s = _)
  · exact fun pa n x => (event_step hs rfl : execHostWrite pa n x s = _)
  · exact fun x => (event_step hs rfl : execFeatselWrite x s = _)
  · exact fun x => (event_step hs rfl : execActlvlhWrite x s = _)
  · exact fun x => (event_step hs rfl : execLnkcthrWrite x s = _)
  · exact fun x => (event_step hs rfl : execPortmodeWrite x s = _)
  · exact fun x hx => (event_step hs (by simp only [if_neg hx]) : execAttestationRequest x s = _)
  · exact fun x hx => (event_step hs (if_pos hx) : execFreeze x s = _)
  · exact fun h => (event_step hs (if_pos (by simpa using h)) : execPortmodeApply p s = _)
  · exact fun h => (event_step hs (if_neg (by simp [h])) : execFreezeToken d s = _)
  · intro hd hx q hm
    refine ⟨?_, frameReceive_fails hs hd rfl hm, frameReceive_breaks hs hd rfl hm,
      fun q' b hq' hm' => frameReceive_outOfOrder hs hd hq'.symm hm' b⟩
    obtain ⟨u, e, hseq, hfails, hframes, -⟩ := frameReceive_delivered hs hd rfl hm
    exact ⟨u, e, by rw [hseq, seqMod, hx]; rfl, hfails, hframes⟩
  · intro hd hx q hf
    obtain ⟨u, e, hseq, hfails, -, hsent⟩ := frameReceive_delivered hs hd rfl (Link.mayCome_outside hx hf)
    obtain ⟨hpicks, hun⟩ := hsent hx
    exact ⟨u, e, by rw [hseq, seqMod, hx]; rfl, hfails, hpicks, hun⟩
  · exact fun h => (event_step hs (if_pos h) : execWindowClose v s = _)
  · exact fun h => (event_step hs (if_neg (Nat.not_lt.mpr h)) : execWindowClose v s = _)
  · exact fun w hw x => ⟨(event_step hs (if_pos hw) : execLaneMapMarker v w x s = _),
      (event_step hs (if_pos (.inl hw)) : execRetrainComplete v w x s = _)⟩
  · exact fun r => (event_step hs rfl : execRateAdvertisement v r s = _)
  · intro h1 h2
    refine (event_step hs (if_neg fun h => ?_) : execTimeDiscipline src bound tai d s = _)
    rcases h with h | ⟨h, h5⟩
    · exact h1 h
    · rcases h2 with h2 | h2
      · exact h2 h
      · simp [h2] at h5
  · rw [State.link_linkDown s v hd]
    exact ⟨rfl, rfl⟩

end Sys2Proof.Machine
end

section
/-! SUPPORT. Shared registers, mailboxes and ports: what a lookup returns after a change, and what the trip of a far slot, a signal and a write
of a register leave (R115-R120, R256). -/
namespace Sys2Proof.Machine

/-! ## Lookups after a change -/

/-- A core whose banks stay has the same banks. -/
theorem State.bank_modCore (s : State) (c c' b : Nat) {f : Core → Core} (h : (f (s.core c)).banks = (s.core c).banks) :
    (s.modCore c f).bank c' b = s.bank c' b := by
  unfold State.bank
  rw [State.core_modCore]
  split
  · next e => rw [h, e]
  · rfl

theorem State.reg_modReg_self (s : State) (c b r : Nat) (f : SyncReg → SyncReg) :
    ((s.modReg c b r f).bank c b).regs.get SyncReg.dflt r = f ((s.bank c b).regs.get SyncReg.dflt r) := by
  unfold State.modReg
  rw [State.bank_modBank_self]
  exact SMap.get_set_self _ _ _ _

theorem State.myReg_modReg_self (s : State) (r : Nat) (f : SyncReg → SyncReg) :
    (s.modReg (coreOf s.cur) (s.bankNo s.cur) r f).myReg r = f (s.myReg r) :=
  s.reg_modReg_self _ _ r f

theorem State.modPort_cur (s : State) (c b p : Nat) (f : Port → Port) : (s.modPort c b p f).cur = s.cur := by
  unfold State.modPort
  split <;> rfl

/-! ## The mailbox trip of a far slot (R120) -/

/-- The state once the trip that register `r` needs is made: a far slot's request for a mailbox is performed, and the lap start is used. -/
def State.afterTrip (s : State) (r : Nat) : State :=
  if 64 ≤ r ∧ isFar s.cur then ({ s with grant := none } : State).doneMail s.cur else s

/-- The trip to register `r` can be made now: only a far slot's to a mailbox waits for the start of a lap. -/
def State.MayTrip (s : State) (r : Nat) : Prop := 64 ≤ r → isFar s.cur = true → s.grant = some .lapStart

theorem noTrip_shared (s : State) (r : BitVec 6) : ¬ (64 ≤ r.toNat ∧ isFar s.cur = true) := fun h => by omega

theorem noTrip_near {s : State} (h : isFar s.cur = false) (r : Nat) : ¬ (64 ≤ r ∧ isFar s.cur = true) := fun e => by simp [h] at e

theorem State.mayTrip_noTrip {s : State} {r : Nat} (h : ¬ (64 ≤ r ∧ isFar s.cur = true)) : s.MayTrip r :=
  fun hr hf => absurd ⟨hr, hf⟩ h

theorem State.mayTrip_lapStart {s : State} (h : s.grant = some .lapStart) (r : Nat) : s.MayTrip r := fun _ _ => h

theorem State.afterTrip_noTrip {s : State} {r : Nat} (h : ¬ (64 ≤ r ∧ isFar s.cur = true)) : s.afterTrip r = s := if_neg h

theorem State.afterTrip_far {s : State} (h : isFar s.cur = true) (r : BitVec 3) :
    s.afterTrip (64 + r.toNat) = ({ s with grant := none } : State).doneMail s.cur := if_pos ⟨by omega, h⟩

theorem State.afterTrip_cur (s : State) (r : Nat) : (s.afterTrip r).cur = s.cur := by
  unfold State.afterTrip
  split <;> rfl

theorem State.afterTrip_slot (s : State) (r k : Nat) : (s.afterTrip r).slot k = s.slot k := by
  unfold State.afterTrip
  split <;> rfl

theorem State.afterTrip_me (s : State) (r : Nat) : (s.afterTrip r).me = s.me := by
  unfold State.me
  rw [State.afterTrip_cur, State.afterTrip_slot]

theorem State.afterTrip_mem (s : State) (r : Nat) : (s.afterTrip r).mem = s.mem := by
  unfold State.afterTrip
  split <;> rfl

theorem State.afterTrip_bankNo (s : State) (r t : Nat) : (s.afterTrip r).bankNo t = s.bankNo t := by
  unfold State.afterTrip
  split <;> rfl

theorem State.afterTrip_myReg (s : State) (r n : Nat) : (s.afterTrip r).myReg n = s.myReg n := by
  unfold State.myReg
  rw [State.afterTrip_cur, State.afterTrip_bankNo]
  unfold State.afterTrip
  split
  · rw [State.doneMail, State.bank_modCore _ _ _ _ rfl]
    rfl
  · rfl

theorem tripFor_ok {s : State} {r : Nat} (h : s.MayTrip r) : tripFor r s = .ok ((), s.afterTrip r) := by
  unfold tripFor State.afterTrip mailTrip
  by_cases hr : 64 ≤ r
  · rw [if_pos hr, M.bind_ok (getS_apply s)]
    cases hf : isFar s.cur with
    | false => simp
    | true =>
      rw [if_pos rfl, if_pos (h hr hf), if_pos ⟨hr, rfl⟩]
      rfl
  · rw [if_neg hr, if_neg fun e => hr e.1]
    rfl

/-- What a trip that can be made leaves: the registers, the slot and memory. -/
theorem tripFor_spec {s : State} {r : Nat} (h : s.MayTrip r) :
    ∃ u, tripFor r s = .ok ((), u) ∧ u.cur = s.cur ∧ u.me = s.me ∧ u.mem = s.mem ∧ u.myReg r = s.myReg r :=
  ⟨s.afterTrip r, tripFor_ok h, s.afterTrip_cur r, s.afterTrip_me r, s.afterTrip_mem r, s.afterTrip_myReg r r⟩

theorem tripFor_noTrip {s : State} {r : Nat} (h : ¬ (64 ≤ r ∧ isFar s.cur = true)) : tripFor r s = .ok ((), s) := by
  rw [tripFor_ok (State.mayTrip_noTrip h), State.afterTrip_noTrip h]

/-- A far slot asks its core for the mailbox before the start of a lap. -/
theorem tripFor_asks {s : State} {r : Nat} (hr : 64 ≤ r) (hf : isFar s.cur = true) (hg : s.grant ≠ some .lapStart) :
    tripFor r s = .error (.park .lapStart (s.askMail s.cur)) := by
  unfold tripFor mailTrip
  rw [if_pos hr, M.bind_ok (getS_apply s), if_pos hf, if_neg hg]
  rfl

/-! ## An event, and a write of a register (R116, R256) -/

/-- An event changes nothing of a slot but what it waits for. -/
theorem Slot.signalled_eq (x : Slot) (c b mask : Nat) (any : Bool) (t : Nat) :
    ∃ w, x.signalled c b mask any t = { x with wait := w } := by
  unfold Slot.signalled
  split
  · split
    · split
      · exact ⟨_, rfl⟩
      · exact ⟨x.wait, rfl⟩
    · exact ⟨x.wait, rfl⟩
  · exact ⟨x.wait, rfl⟩

theorem still_signal_any (s : State) (c b mask : Nat) (any : Bool) : still s (s.signal c b mask any) := by
  refine still_mapSlots s (fun e => e.2.signalled c b mask any e.1) fun e => ?_
  obtain ⟨w, hw⟩ := e.2.signalled_eq c b mask any e.1
  rw [hw]
  exact ⟨rfl, rfl, rfl, rfl⟩

/-- A write of a register changes nothing of a slot but what it waits for. -/
theorem State.fillReg_slot (s : State) (c b r : Nat) (v : Word) (stamp k : Nat) :
    ∃ w, (s.fillReg c b r v stamp).slot k = { s.slot k with wait := w } := by
  obtain ⟨w, hw⟩ := (s.slot k).signalled_eq c b (regEvent r) false k
  exact ⟨w, (State.signal_slot _ _ _ _ _ k).trans hw⟩

theorem State.fillReg_kept (s : State) (c b r : Nat) (v : Word) (stamp k : Nat) :
    ((s.fillReg c b r v stamp).slot k).regs = (s.slot k).regs ∧ ((s.fillReg c b r v stamp).slot k).sp = (s.slot k).sp ∧
      ((s.fillReg c b r v stamp).slot k).pts = (s.slot k).pts := by
  obtain ⟨w, hw⟩ := s.fillReg_slot c b r v stamp k
  rw [hw]
  exact ⟨rfl, rfl, rfl⟩

theorem State.fillReg_bankNo (s : State) (c b r : Nat) (v : Word) (stamp t : Nat) :
    (s.fillReg c b r v stamp).bankNo t = s.bankNo t := by
  obtain ⟨w, hw⟩ := s.fillReg_slot c b r v stamp t
  unfold State.bankNo State.jobOf
  rw [hw]
  rfl

/-- A write of either kind: the value, F = 1 and the stamp; the slots that wait stay (R116). -/
theorem State.fillReg_myReg (s : State) (r : Nat) (v : Word) (stamp : Nat) :
    (s.fillReg (coreOf s.cur) (s.bankNo s.cur) r v stamp).myReg r = { s.myReg r with val := v, full := true, stamp := stamp } := by
  have hcur : (s.fillReg (coreOf s.cur) (s.bankNo s.cur) r v stamp).cur = s.cur := rfl
  rw [State.myReg, hcur, State.fillReg_bankNo]
  exact s.reg_modReg_self (coreOf s.cur) (s.bankNo s.cur) r fun x => { x with val := v, full := true, stamp := stamp }

theorem State.still_fillReg (s : State) (c b r : Nat) (v : Word) (stamp : Nat) : still s (s.fillReg c b r v stamp) :=
  framing_still.2 _ _ _ (still_modReg s _ _ _ _) (still_signal _ _ _ _)

end Sys2Proof.Machine
end

section
/-! CERTIFICATE. Reading a scalar source of each class (R115-R120, R221, R222). -/
namespace Sys2Proof.Machine

section
variable {s : State} {f r : Nat}

/-! ## Shared registers and ports -/

/-- An ordinary read: the value, whatever F is; the stamp is merged (R116). -/
theorem readShared_ok (h : s.MayTrip r) : readShared r s =
    .ok ((s.myReg r).val, (s.afterTrip r).modSlot s.cur fun x => { x with pts := max x.pts (s.myReg r).stamp }) := by
  unfold readShared
  rw [M.bind_ok (tripFor_ok h), M.bind_ok (getS_apply _)]
  rw [M.bind_ok (mergePts_apply _ _), State.afterTrip_myReg, State.afterTrip_cur]
  rfl

theorem readShared_asks (hr : 64 ≤ r) (hf : isFar s.cur = true) (hg : s.grant ≠ some .lapStart) :
    readShared r s = .error (.park .lapStart (s.askMail s.cur)) :=
  M.bind_error (tripFor_asks hr hf hg)

/-- A synchronised read of a full register that no other slot waits for takes the value and clears F (R116, R117). -/
theorem takeShared_ok (hn : ¬ (64 ≤ r ∧ isFar s.cur = true)) (hfull : (s.myReg r).full = true) (hq : (s.myReg r).readers = []) :
    takeShared r s = .ok (((s.myReg r).val, (s.myReg r).stamp),
      (s.modReg (coreOf s.cur) (s.bankNo s.cur) r fun x => { x with full := false, readers := x.readers.filter (· ≠ s.cur) }).modSlot
        s.cur fun x => { x with pts := max x.pts (s.myReg r).stamp }) := by
  unfold takeShared
  rw [M.bind_ok (tripFor_noTrip hn), M.bind_ok (getS_apply s)]
  rw [if_pos (by simp [hfull, hq])]
  rfl

/-- A synchronised read of an empty register joins the line of readers (R117). -/
theorem takeShared_waits (hn : ¬ (64 ≤ r ∧ isFar s.cur = true)) (hfull : (s.myReg r).full = false) : takeShared r s =
    .error (.park (.syncRead r)
      (s.modReg (coreOf s.cur) (s.bankNo s.cur) r fun x => { x with readers := joinEnd x.readers s.cur })) := by
  unfold takeShared
  rw [M.bind_ok (tripFor_noTrip hn), M.bind_ok (getS_apply s)]
  rw [if_neg (by simp [hfull])]
  exact congrArg (fun t => Except.error (Stop.park (.syncRead r) t)) (if_neg fun e => hn e.symm)

theorem takeShared_asks (hr : 64 ≤ r) (hf : isFar s.cur = true) (hg : s.grant ≠ some .lapStart) :
    takeShared r s = .error (.park .lapStart (s.askMail s.cur)) :=
  M.bind_error (tripFor_asks hr hf hg)

/-- A read of a port that no other slot waits for takes the head word (R119). -/
theorem takePort_head {p : Nat} {w : Word × Nat} {ws : List (Word × Nat)}
    (hw : (s.port (coreOf s.cur) (s.portBank s.cur) p).words = w :: ws)
    (hq : (s.port (coreOf s.cur) (s.portBank s.cur) p).readers = []) : takePort p 1 s =
      .ok (w, (s.modPort (coreOf s.cur) (s.portBank s.cur) p fun x =>
        { x with words := ws, readers := x.readers.filter (· ≠ s.cur) }).modSlot s.cur fun x => { x with pts := max x.pts w.2 }) := by
  unfold takePort
  rw [M.bind_ok (getS_apply s)]
  rw [if_pos (by simp [hw, hq]), hw]
  dsimp only
  rw [M.bind_ok (modS_apply _ _), M.bind_ok (mergePts_apply _ _), M.pure_apply, State.modPort_cur]
  rfl

/-- A read of an empty port joins the line of readers (R119). -/
theorem takePort_waits {p : Nat} (hw : (s.port (coreOf s.cur) (s.portBank s.cur) p).words = []) : takePort p 1 s =
    .error (.park (.port p 1)
      (s.modPort (coreOf s.cur) (s.portBank s.cur) p fun x => { x with readers := joinEnd x.readers s.cur })) := by
  unfold takePort
  rw [M.bind_ok (getS_apply s)]
  rw [if_neg (by simp [hw])]
  rfl

/-! ## What the instruction has not taken already -/

/-- Keeping an operand that an instruction has taken (R118). -/
def State.latched (s : State) (f : Nat) (v : Word) (how : Taken) : State :=
  s.modSlot s.cur fun x => { x with latch := x.latch ++ [{ field := f, val := v, how := how }] }

theorem latchOp_apply (v : Word) (how : Taken) : latchOp f v how s = .ok ((), s.latched f v how) := rfl

variable (h : s.me.latch.find? (fun l => decide (l.field = f)) = none)
include h

theorem readSrc_s_plain (r : BitVec 6) :
    readSrc f (.s r false) s = (do let v ← readShared r.toNat; latchOp f v .plain; pure v : M Word) s := by
  unfold readSrc readSrcN
  dsimp only
  rw [M.bind_ok (myself_apply s), h]

theorem readSrc_m_plain (r : BitVec 3) :
    readSrc f (.m r false) s = (do let v ← readShared (64 + r.toNat); latchOp f v .plain; pure v : M Word) s := by
  unfold readSrc readSrcN
  dsimp only
  rw [M.bind_ok (myself_apply s), h]

theorem readSrc_s_sync (r : BitVec 6) : readSrc f (.s r true) s =
    (do let p ← takeShared r.toNat; latchOp f p.1 (.reg r.toNat p.2); pure p.1 : M Word) s := by
  unfold readSrc readSrcN
  dsimp only
  rw [M.bind_ok (myself_apply s), h]

theorem readSrc_m_sync (r : BitVec 3) : readSrc f (.m r true) s =
    (do let p ← takeShared (64 + r.toNat); latchOp f p.1 (.reg (64 + r.toNat) p.2); pure p.1 : M Word) s := by
  unfold readSrc readSrcN
  dsimp only
  rw [M.bind_ok (myself_apply s), h]

theorem readSrc_q (p : BitVec 3) : readSrc f (.q p) s =
    (do let w ← takePort p.toNat 1; latchOp f w.1 (.word p.toNat w.2); pure w.1 : M Word) s := by
  unfold readSrc readSrcN
  dsimp only
  rw [M.bind_ok (myself_apply s), h]

end

/-- Settles O15: behind `readSrc` of an operand that is not taken yet stand the ordinary read, the synchronised read and the read of a port,
and each of them gives the value, waits in line, or asks for the trip of a far slot. -/
theorem sourceReads : Obligations.SourceReads := by
  unfold Obligations.SourceReads
  refine ⟨fun s f h => ⟨fun r => rfl, fun r => ?s, fun r hn => ?near, fun r hf hg => ?far, fun r sync hf hg => ?asks,
    fun r hn hfull hq => ?mSync, fun r hfull hq => ?sSync, fun p w ws hw hq => ?port⟩,
    fun s d hl hla => ?parks⟩
  case s =>
    rw [readSrc_s_plain h, M.bind_ok (readShared_ok (State.mayTrip_noTrip (noTrip_shared s r))), State.afterTrip_noTrip (noTrip_shared s r)]
    rfl
  case near =>
    rw [readSrc_m_plain h, M.bind_ok (readShared_ok (State.mayTrip_noTrip (noTrip_near hn _))), State.afterTrip_noTrip (noTrip_near hn _)]
    rfl
  case far =>
    rw [readSrc_m_plain h, M.bind_ok (readShared_ok (State.mayTrip_lapStart hg _)), State.afterTrip_far hf]
    rfl
  case asks =>
    have h64 : 64 ≤ 64 + r.toNat := Nat.le_add_right _ _
    cases sync with
    | false => rw [readSrc_m_plain h, M.bind_error (readShared_asks h64 hf hg)]
    | true => rw [readSrc_m_sync h, M.bind_error (takeShared_asks h64 hf hg)]
  case mSync =>
    rw [readSrc_m_sync h, M.bind_ok (takeShared_ok (noTrip_near hn _) hfull hq)]
    rfl
  case sSync =>
    rw [readSrc_s_sync h, M.bind_ok (takeShared_ok (noTrip_shared s r) hfull hq)]
    rfl
  case port =>
    rw [readSrc_q h, M.bind_ok (takePort_head hw hq), M.bind_ok (latchOp_apply _ _), State.latched, State.modSlot_cur, State.modPort_cur]
    rfl
  case parks =>
    have hfresh : s.me.latch.find? (fun l => decide (l.field = 1)) = none := by
      rw [hla]
      rfl
    refine ⟨fun r he => run_park hl (M.bind_error ?_), fun p hw => run_park hl (M.bind_error ?_)⟩
    · rw [readSrc_s_sync hfresh, M.bind_error (takeShared_waits (noTrip_shared s r) he)]
    · rw [readSrc_q hfresh, M.bind_error (takePort_waits hw)]

end Sys2Proof.Machine
end

section
/-! CERTIFICATE. Writing a destination of each class, and the write of a mailbox that a far slot's instruction ends with (R107, R116, R120,
R175, R221). -/
namespace Sys2Proof.Machine

/-! ## A register of the own bank (R116) -/

/-- An ordinary write, of any register but a far slot's mailbox. -/
theorem writeShared_fills {s : State} {r : Nat} (h : ¬ (64 ≤ r ∧ isFar s.cur = true)) (v : Word) :
    writeShared r v s = .ok ((), s.fillReg (coreOf s.cur) (s.bankNo s.cur) r v s.me.pts) := by
  unfold writeShared
  rw [M.bind_ok (getS_apply s), if_neg h]
  rfl

/-- A far slot sends its write of a mailbox to its core, and waits for the start of a lap. -/
theorem writeShared_sends {s : State} {r : Nat} (hr : 64 ≤ r) (hf : isFar s.cur = true) (v : Word) : writeShared r v s =
    .error (.park .lapStart ((s.modSlot s.cur fun x => { x with mailOut := some (r, v) }).askMail s.cur)) := by
  unfold writeShared
  rw [M.bind_ok (getS_apply s), if_pos ⟨hr, hf⟩]
  rfl

/-! ## An instruction whose last write waits for its core (R120) -/

/-- Every instruction with a word is performed by `run`; what has no word is a step of the device. -/
theorem exec_eq_run {i : Instr} (hi : Dec.encode i ≠ []) (s : State) : ∃ m, exec i s = run i m s := by
  cases i
  -- the meaning of an instruction is `run` by its definition; that of a step of the device is not, and `hi` excludes it
  all_goals try exact ⟨_, by dsimp only [exec]; exact rfl⟩
  all_goals exact absurd rfl hi

/-- Nothing of the instruction is done twice: all that it still does is the write. -/
theorem exec_of_mail {i : Instr} (hi : Dec.encode i ≠ []) {s : State} {r : Nat} {v : Word}
    (hs : (s.die (runDie s.cur)).stopped = false) (hm : s.me.mailOut = some (r, v)) : exec i s = .next (s.mailDone i r v) := by
  obtain ⟨m, hrun⟩ := exec_eq_run hi s
  rw [hrun, run_mail i m hs hm]

/-- A request that its core has performed changes no byte and no slot. -/
theorem State.still_doneMail (s : State) (t : Nat) : still s (s.doneMail t) := still_modCore s _ _ fun _ => rfl

/-- Settles O16: a write fills a register of the own bank, or is sent to the core; there `mailDone` fills the register at a lap start. -/
theorem destinationWrites : Obligations.DestinationWrites := by
  unfold Obligations.DestinationWrites
  refine fun s v => ⟨fun r => rfl, fun r => ⟨_, writeShared_fills (noTrip_shared s r) v, rfl, rfl, ?shared⟩,
    fun r hn => ⟨_, writeShared_fills (noTrip_near hn _) v, rfl, rfl, ?mailbox⟩,
    fun r hf => writeShared_sends (Nat.le_add_right 64 _) hf v, fun i r hm hs hi => ⟨fun hg => ?lapStart, fun hg => ?asks⟩⟩
  case shared =>
    rw [State.fillReg_myReg]
    exact ⟨rfl, rfl, rfl, rfl, rfl, State.fillReg_kept _ _ _ _ _ _⟩
  case mailbox =>
    rw [State.fillReg_myReg]
    exact ⟨rfl, rfl, rfl, State.fillReg_kept _ _ _ _ _ _⟩
  case lapStart =>
    let u : State := ({ s with grant := none } : State).doneMail s.cur
    have hreg := u.fillReg_myReg r v s.me.pts
    have hdone : still s u := framing_still.2 _ _ _ (still_grant s) (State.still_doneMail _ _)
    obtain ⟨hbytes, -⟩ := framing_still.2 _ _ _ hdone (u.still_fillReg (coreOf s.cur) (s.bankNo s.cur) r v s.me.pts)
    refine ⟨_, (exec_of_mail hi hs hm).trans (congrArg _ (if_pos hg)), rfl, hbytes, ?_⟩
    exact ⟨congrArg SyncReg.val hreg, congrArg SyncReg.full hreg, congrArg SyncReg.stamp hreg, State.fillReg_kept _ _ _ _ _ _⟩
  case asks => exact (exec_of_mail hi hs hm).trans (congrArg _ (if_neg hg))

end Sys2Proof.Machine
end

section
/-! CERTIFICATE. FENCE, SFILL and FSTAT, and the line operations (R110, R116, R120, R263, R275-R277, R288). -/
namespace Sys2Proof.Machine

/-! ## FENCE (R110, R275) -/

/-- With something of the thread outstanding it waits, where no reply comes at once. -/
theorem waitQuiet_parks {s : State} (k : WaitKind) (hq : s.quiet s.cur = false) (hp : s.prompt = false) :
    waitQuiet k s = .error (.park k s) := by
  unfold waitQuiet
  rw [M.bind_ok (modS_apply _ _), if_neg (by simp [hp]), M.bind_ok (getS_apply s), if_neg (by simp [hq])]
  rfl

/-! ## SFILL (R116, R117, R120) -/

/-- The register that SFILL fills: the slot no longer waits to write it. -/
def State.sfilled (s : State) (r : Nat) (x : Word) : State :=
  (s.modReg (coreOf s.cur) (s.bankNo s.cur) r fun y => { y with writers := y.writers.filter (· ≠ s.cur) }).fillReg
    (coreOf s.cur) (s.bankNo s.cur) r x s.me.pts

theorem State.still_sfilled (s : State) (r : Nat) (x : Word) : still s (s.sfilled r x) :=
  framing_still.2 _ _ _ (still_modReg s _ _ _ _) (State.still_fillReg _ _ _ _ _ _)

theorem State.sfilled_myReg (s : State) (r : Nat) (x : Word) : (s.sfilled r x).myReg r =
    { s.myReg r with val := x, full := true, stamp := s.me.pts, writers := (s.myReg r).writers.filter (· ≠ s.cur) } := by
  refine (State.fillReg_myReg (s.modReg _ _ r _) r x s.me.pts).trans ?_
  rw [State.myReg_modReg_self]

section
variable {s : State} {r : Nat} (h : s.MayTrip r) (x : Word)
include h

/-- A synchronised write fills an empty register that no other slot waits to write. -/
theorem sfillShared_fills (hempty : (s.myReg r).full = false) (hq : (s.myReg r).writers = []) :
    ∃ t : State, sfillShared r x s = .ok ((), t) ∧ t.cur = s.cur ∧ (t.myReg r).val = x ∧ (t.myReg r).full = true ∧
      (t.myReg r).stamp = s.me.pts ∧ t.mem = s.mem := by
  obtain ⟨u, htrip, hcur, hme, hmem, hreg⟩ := tripFor_spec h
  obtain ⟨⟨hfmem, -⟩, hfcur, -⟩ := u.still_sfilled r x
  refine ⟨u.sfilled r x, ?_, hfcur.trans hcur, ?_⟩
  · unfold sfillShared
    rw [M.bind_ok htrip, M.bind_ok (getS_apply u), hreg, if_pos (by simp [hempty, hq])]
    rfl
  · rw [State.sfilled_myReg, hme]
    exact ⟨rfl, rfl, rfl, hfmem.trans hmem⟩

/-- A synchronised write of a full register waits; a far slot's request stays with its core. -/
theorem sfillShared_waits (hfull : (s.myReg r).full = true) :
    ∃ t : State, sfillShared r x s = .error (.park (.syncWrite r) t) ∧ t.cur = s.cur ∧ t.mem = s.mem := by
  obtain ⟨u, htrip, hcur, -, hmem, hreg⟩ := tripFor_spec h
  let v := u.modReg (coreOf u.cur) (u.bankNo u.cur) r fun y => { y with writers := joinEnd y.writers u.cur }
  have hstay : ∃ t, staysAsked r v = .ok ((), t) ∧ t.cur = u.cur ∧ t.mem = u.mem := by
    refine ⟨_, modS_apply _ _, ?_⟩
    split
    · exact ⟨rfl, rfl⟩
    · exact ⟨rfl, rfl⟩
  obtain ⟨t, ht, htcur, htmem⟩ := hstay
  refine ⟨t, ?_, htcur.trans hcur, htmem.trans hmem⟩
  unfold sfillShared
  rw [M.bind_ok htrip, M.bind_ok (getS_apply u), hreg, if_neg (by simp [hfull])]
  exact (M.bind_ok (modS_apply _ _)).trans (M.bind_ok ht)

end

/-! ## FSTAT (R277) -/

theorem testBit_eq_fieldN (x n : Nat) : x.testBit n = decide (fieldN x n 1 = 1) := by
  rw [Nat.testBit_eq_decide_div_mod_eq, fieldN, Nat.shiftRight_eq_div_pow, Nat.pow_one]

/-- The bits of a mask are its lanes. -/
theorem getLsbD_maskOf (f : Nat → Bool) (n : Nat) : (maskOf f).getLsbD n = (decide (n < 64) && f n) := by
  unfold maskOf
  rw [BitVec.getLsbD_ofNat]
  by_cases hn : n < 64
  · have hfield := fieldN_packNat (w := 1) ((List.range 64).map fun l => if f l then 1 else 0) n
    rw [Nat.one_mul] at hfield
    rw [testBit_eq_fieldN, hfield]
    cases hf : f n <;> simp [List.getD, hn, hf]
  · simp [hn]

theorem eq_maskOf {x : Word} {f : Nat → Bool} (h : ∀ n, x.getLsbD n = true ↔ n < 64 ∧ f n = true) : x = maskOf f := by
  refine BitVec.eq_of_getLsbD_eq fun n _ => ?_
  rw [getLsbD_maskOf, Bool.eq_iff_iff, h n]
  simp

section
variable {s s1 : State} (hl : s.live)
include hl

theorem execFstat_ok {d : SReg} {mail : Bool} (h : mail = true ∨ isFar s.cur = false) (hw : writeSR d (s.fullBits mail) s = .ok ((), s1)) :
    exec (.fstat d mail) s = .next (s1.advance (.fstat d mail)) := by
  have hok : (mail || !isFar s.cur) = true := by simpa using h
  refine run_ok hl ?_
  rw [M.bind_ok (getS_apply s), hok, ensure_true]
  exact hw

/-- The s registers are none of a far slot's (R263). -/
theorem execFstat_refused (hf : isFar s.cur = true) (d : SReg) :
    exec (.fstat d false) s = .next (s.trapMe 1 (BitVec.ofNat 64 (56 * 256 + 8))) := by
  refine run_trap hl ?_
  rw [M.bind_ok (getS_apply s), hf]
  rfl

theorem execSfill_refused (hf : isFar s.cur = true) (n : BitVec 6) (a : Src) :
    exec (.sfill (.s n) a) s = .next (s.trapMe 1 (BitVec.ofNat 64 (56 * 256 + 8))) := by
  refine run_trap hl ?_
  rw [M.bind_ok (getS_apply s), hf]
  rfl

end

/-- SFILL is the synchronised write of its register, which is a mailbox where the slot is far. -/
theorem execSfill_eq {s s1 : State} {d : SReg} {k : Nat} {a : Src} {x : Word} (hd : sharedNo d = some k) (hf : isFar s.cur = true → 64 ≤ k)
    (hx : readSrc 1 a s = .ok (x, s1)) :
    ∃ m, exec (.sfill d a) s = run (.sfill d a) m s ∧ m s = sfillShared k x s1 := by
  have hok : (!(isFar s.cur && isS d)) = true := by
    cases d with
    | g n => simp [sharedNo] at hd
    | s n =>
      obtain rfl : n.toNat = k := by simpa [sharedNo] using hd
      cases h : isFar s.cur with
      | false => rfl
      | true => exact absurd (hf h) (by omega)
    | m n => simp [isS]
  refine ⟨_, rfl, ?_⟩
  rw [M.bind_ok (getS_apply s), hok, ensure_true, M.bind_ok (M.pure_apply _ _), M.bind_ok hx, hd]

/-! ## Line operations (R288) -/

/-- Nothing that R288 keeps changes: no byte, no register, no timestamp of a slot and no timestamp of a line. -/
def lineKept (s t : State) : Prop :=
  still s t ∧ (∀ k, (t.slot k).pts = (s.slot k).pts) ∧
    ∀ pa, (t.pairOf pa).wts = (s.pairOf pa).wts ∧ (t.pairOf pa).rts = (s.pairOf pa).rts

theorem framing_lineKept : framing lineKept :=
  ⟨fun s => ⟨framing_still.1 s, fun _ => rfl, fun _ => ⟨rfl, rfl⟩⟩, fun a b c ⟨h, hp, hq⟩ ⟨k, kp, kq⟩ =>
    ⟨framing_still.2 a b c h k, fun n => (kp n).trans (hp n), fun pa => ⟨(kq pa).1.trans (hq pa).1, (kq pa).2.trans (hq pa).2⟩⟩⟩

/-- A new pair with the timestamps of the old one. -/
theorem lineKept_setPair (s : State) (pa : Nat) {p : Pair} (hw : p.wts = (s.pairOf pa).wts) (hr : p.rts = (s.pairOf pa).rts) :
    lineKept s (s.setPair pa p) := by
  refine ⟨still_of_eq rfl rfl rfl rfl rfl, fun _ => rfl, fun pb => ?_⟩
  by_cases h : s.unitOf pb = s.unitOf pa
  · have hnew : (s.setPair pa p).pairOf pb = p := by
      refine Eq.trans ?_ (s.pairOf_setPair pa p)
      exact congrArg ((s.setPair pa p).pairs.get Pair.dflt) h
    have hold : s.pairOf pb = s.pairOf pa := congrArg (s.pairs.get Pair.dflt) h
    rw [hnew, hold]
    exact ⟨hw, hr⟩
  · have hother : (s.setPair pa p).pairOf pb = s.pairOf pb := SMap.get_set_ne _ _ _ h
    rw [hother]
    exact ⟨rfl, rfl⟩

theorem lineKept_modCore (s : State) (c : Nat) (f : Core → Core) (h : ∀ x, (f x).spad = x.spad) : lineKept s (s.modCore c f) :=
  ⟨still_modCore s c f h, fun _ => rfl, fun _ => ⟨rfl, rfl⟩⟩

theorem lineKept_modDie (s : State) (d : Nat) (f : Die → Die) : lineKept s (s.modDie d f) :=
  ⟨still_modDie s d f, fun _ => rfl, fun _ => ⟨rfl, rfl⟩⟩

theorem lineKept_writeBack (s : State) (d line : Nat) : lineKept s (s.writeBack d line) := by
  unfold State.writeBack
  dsimp only
  split
  · exact lineKept_setPair s _ rfl rfl
  · exact framing_lineKept.1 s

/-- A line leaves the L1s of a die, and no scratchpad changes. -/
theorem lineKept_dropLine (s : State) (d line : Nat) : lineKept s (s.dropLine d line) := by
  have hcore (c : Nat) : (s.dropLine d line).core c =
      if c / 128 = d then { s.core c with l1 := (s.core c).l1.filter fun k => decide (k.line ≠ line) } else s.core c :=
    SMap.get_map Core.dflt s.cores (fun c x => if c / 128 = d then { x with l1 := x.l1.filter fun k => decide (k.line ≠ line) } else x) c
      fun _ => ite_self _
  refine ⟨⟨⟨rfl, rfl, fun c p => ?_, fun _ => rfl⟩, rfl, fun _ => ⟨rfl, rfl, rfl⟩⟩, fun _ => rfl, fun _ => ⟨rfl, rfl⟩⟩
  unfold State.padByte
  rw [hcore]
  split
  · rfl
  · rfl

theorem lineKept_fillBoth (s : State) (c : Nat) (k : LineCopy) : lineKept s (s.fillBoth c k) := by
  unfold State.fillBoth
  refine framing_lineKept.2 _ _ _ (lineKept_modCore s c _ ?_) (lineKept_modDie _ _ _)
  exact fun _ => rfl

theorem lineKept_prefetch (s : State) (j line pts : Nat) : lineKept s (s.prefetch j line pts) := by
  unfold State.prefetch
  dsimp only
  split
  · exact framing_lineKept.1 s
  · obtain ⟨hw, hr⟩ := (s.pairOf (line * 256)).published_stamps s.cur
    exact framing_lineKept.2 _ _ _ (lineKept_setPair s _ hw hr) (lineKept_fillBoth _ _ _)

/-- A line operation completes wherever its base can be read, with what it does to the line. -/
theorem run_lineOp {i : Instr} {a : Src} {s s1 : State} {b : Word} {f : Word → State → State} (hl : s.live)
    (hx : readSrc 1 a s = .ok (b, s1)) (hf : lineKept s1 (f b s1)) :
    ∃ t, run i (do let b ← readSrc 1 a; modS (f b)) s = .next (t.advance i) ∧ lineKept s1 t :=
  ⟨f b s1, run_ok hl (M.bind_ok hx), hf⟩

/-- Settles O36: FENCE is `waitQuiet`, SFILL the synchronised write, FSTAT a write of the mask of F bits; a line operation keeps what
`lineKept` names. -/
theorem fenceFullBitsAndLines : Obligations.FenceFullBitsAndLines := by
  unfold Obligations.FenceFullBitsAndLines
  refine ⟨fun s hl hq hf => run_ok hl (M.bind_ok (waitQuiet_ok .fence hq hf)),
    fun s hl hq hp => run_park hl (M.bind_error (waitQuiet_parks .fence hq hp)), fun s d k a x s1 hl hd hf hx => ?sfill,
    fun s n a hl hf => ⟨execSfill_refused hl hf n a, execFstat_refused hl hf⟩, fun s d s1 hl hn x hx hw => ?fstat,
    fun s d s1 hl x hx hw => ?fstatMail, fun i a s b s1 hl hx hi => ?line⟩
  case sfill =>
    obtain ⟨m, hrun, hm⟩ := execSfill_eq hd (fun h => (hf h).1) hx
    obtain ⟨-, hcur, -⟩ := (still_readSrc (T := True) 1 a).ok hx
    have htrip : s1.MayTrip k := fun _ h => (hf (hcur ▸ h)).2
    rw [hrun]
    constructor
    · intro hempty hw
      obtain ⟨t, ht, hfilled⟩ := sfillShared_fills htrip x hempty hw
      exact ⟨t, run_ok hl (hm.trans ht), hfilled⟩
    · intro hfull
      obtain ⟨t, ht, htcur, htmem⟩ := sfillShared_waits htrip x hfull
      exact ⟨_, run_park hl (hm.trans ht), htcur ▸ (t.parkOn_slot _ _).1, htmem⟩
  case fstat =>
    obtain rfl : x = s.fullBits false := eq_maskOf hx
    exact execFstat_ok hl (.inr hn) hw
  case fstatMail =>
    obtain rfl : x = s.fullBits true := eq_maskOf fun n => (hx n).trans (by simp; omega)
    exact execFstat_ok hl (.inl rfl) hw
  case line =>
    suffices h : ∃ t, exec i s = .next (t.advance i) ∧ lineKept s1 t by
      obtain ⟨t, ht, ⟨hbytes, hslots⟩, hpts, hpairs⟩ := h
      exact ⟨t, ht, hbytes, hslots, hpts, hpairs⟩
    rcases hi with ⟨off, rfl⟩ | ⟨off, rfl⟩ | ⟨off, rfl⟩
    · refine run_lineOp hl hx ?_
      split
      · exact framing_lineKept.1 s1
      · exact lineKept_writeBack _ _ _
    · refine run_lineOp hl hx ?_
      split
      · exact framing_lineKept.1 s1
      · exact framing_lineKept.2 _ _ _ (lineKept_writeBack _ _ _) (lineKept_dropLine _ _ _)
    · refine run_lineOp hl hx ?_
      split
      · exact framing_lineKept.1 s1
      · split
        · exact lineKept_prefetch _ _ _ _
        · exact framing_lineKept.1 s1

end Sys2Proof.Machine
end

section
/-! CERTIFICATE. QSEND: its target, the message, and what its slot does once the message is in its port (R119, R285). -/
namespace Sys2Proof.Machine

/-! ## A message that enters its port (R119, R256) -/

theorem State.deliver_msgs (s : State) (m : Msg) : (s.deliver m).msgs = s.msgs := by
  unfold State.deliver State.modPort
  split <;> rfl

theorem State.deliver_words (s : State) (m : Msg) : ((s.deliver m).port m.core m.bank m.port).words =
    (s.port m.core m.bank m.port).words ++ m.words.map fun w => (w, m.stamp) :=
  congrArg Port.words (s.port_modPort_self m.core m.bank m.port fun x => { x with words := x.words ++ m.words.map fun w => (w, m.stamp) })

theorem State.deliver_slot (s : State) (m : Msg) (t : Nat) :
    (s.deliver m).slot t = (s.slot t).signalled m.core m.bank (2 ^ m.port) (decide (m.port = 0)) t :=
  (State.signal_slot _ _ _ _ _ t).trans (by rw [State.modPort_slot])

theorem State.still_deliver (s : State) (m : Msg) : still s (s.deliver m) :=
  framing_still.2 _ _ _ (still_modPort s m.core m.bank m.port _) (still_signal_any _ _ _ _ _)

/-- A slot that waits for an event of a port waits no longer once a message enters it (R256). -/
theorem Slot.signalled_port {c b p e t : Nat} {any : Bool} {x : Slot} {w : Wait} (hw : x.wait = some w) (hk : w.kind = .event e false)
    (hp : e.testBit p = true) (hc : coreOf t = c) (hf : isFar t = false) (hj : isNear c = true → x.job = some b) :
    (x.signalled c b (2 ^ p) any t).wait = some { w with kind := .event e true } := by
  have hsees : sees c b (2 ^ p) any t x = true := by
    cases hn : isNear c with
    | false => simp [sees, hc, hf, hn]
    | true => simp [sees, hc, hf, hj hn]
  have hmeets : e &&& 2 ^ p ≠ 0 := by
    intro h
    simpa [hp] using congrArg (·.testBit p) h
  unfold Slot.signalled
  rw [if_pos hsees, hw]
  dsimp only
  rw [hk]
  simp [hmeets]

/-! ## QSEND (R285) -/

section
variable {s s1 : State} {p : BitVec 3} {a : Src} {b : BitVec 5} {k : BitVec 3} {x : Word} {c : Nat}

/-- The message of QSEND: the registers B to B + N - 1, with the sender's PTS. -/
def State.qsendMsg (s : State) (c : Nat) (p : BitVec 3) (b : BitVec 5) (k : BitVec 3) : Msg :=
  { src := some s.cur, core := c, bank := if isNear c then s.jobOf s.cur else 0, port := p.toNat,
    words := (List.range (k.toNat + 1)).map fun j => s.me.regs.readG (b.toNat + j), stamp := s.me.pts }

section
variable (hc : fieldN x.toNat 12 5 * 128 + fieldN x.toNat 5 7 = c)
include hc

theorem sendTarget_ok (hx : x.toNat < 2 ^ 17) (hp : p ≠ 0)
    (ht : isNear c = true ∨ (isCompute c = true ∧ s.notOwned c (s.jobOf s.cur) = false)) : sendTarget x p s = .ok (c, s) := by
  have hinside : ¬ (2 ^ 17 ≤ x.toNat ∨ ¬ (isCompute c = true ∨ isNear c = true)) := by
    rintro (h | h)
    · omega
    · exact h (ht.elim .inr fun e => .inl e.1)
  have howned : ¬ (p = 0 ∨ (isCompute c = true ∧ s.notOwned c (s.jobOf s.cur) = true)) := by
    rintro (h | ⟨hcomp, hno⟩)
    · exact hp h
    · rcases ht with hn | ⟨-, ho⟩
      · simp [isNear_of_isCompute hcomp] at hn
      · simp [ho] at hno
  unfold sendTarget
  rw [M.bind_ok (getS_apply s), hc, if_neg hinside, if_neg howned]
  rfl

theorem sendTarget_outside (h : 2 ^ 17 ≤ x.toNat ∨ (isCompute c = false ∧ isNear c = false)) :
    sendTarget x p s = .error (.trap 5 (faultValue 2 0 false false x.toNat)) := by
  unfold sendTarget
  rw [M.bind_ok (getS_apply s), hc, if_pos (h.imp_right fun e => by simp [e.1, e.2])]
  rfl

theorem sendTarget_notOwned (hx : x.toNat < 2 ^ 17) (ht : isCompute c = true ∨ isNear c = true)
    (h : p = 0 ∨ (isCompute c = true ∧ s.notOwned c (s.jobOf s.cur) = true)) :
    sendTarget x p s = .error (.trap 5 (faultValue 3 0 false false x.toNat)) := by
  have hinside : ¬ (2 ^ 17 ≤ x.toNat ∨ ¬ (isCompute c = true ∨ isNear c = true)) := by
    rintro (h17 | hno)
    · omega
    · exact hno ht
  unfold sendTarget
  rw [M.bind_ok (getS_apply s), hc, if_neg hinside, if_pos h]
  rfl

end

/-- What QSEND does with its message: it enters the port, or it is on its way, once, and the slot waits for room. -/
def sendMsg (m : Msg) : M Unit := do
  let s ← getS
  if s.prompt ∧ s.hasRoom m then
    modS fun s => ({ s with msgs := s.msgs.filter fun q => decide (q.src ≠ m.src) } : State).deliver m
  else do
    modS fun s => { s with msgs := if s.msgs.any fun q => decide (q.src = m.src) then s.msgs else s.msgs ++ [m] }
    park (.room m.core m.port m.words.length)

/-- A QSEND that has not waited checks its target, then sends. -/
theorem execQsend_sends (hw : s.me.wait = none) (hx : readSrc 1 a s = .ok (x, s1)) :
    ∃ q, exec (.qsend p a b k) s = run (.qsend p a b k) q s ∧
      q s = (do let c ← sendTarget x p; let u ← getS; sendMsg (u.qsendMsg c p b k) : M Unit) s1 := by
  refine ⟨_, rfl, ?_⟩
  rw [M.bind_ok (myWait_fresh hw), if_neg (by simp), M.bind_ok hx]
  rfl

theorem execQsend_refused {n : Nat} {v : Word} (hl : s.live) (hw : s.me.wait = none) (hx : readSrc 1 a s = .ok (x, s1))
    (ht : sendTarget x p s1 = .error (.trap n v)) : exec (.qsend p a b k) s = .next (s.trapMe n v) := by
  obtain ⟨q, hrun, hq⟩ := execQsend_sends (p := p) (b := b) (k := k) hw hx
  rw [hrun]
  exact run_trap hl (hq.trans (M.bind_error ht))

/-- A slot whose message has entered its port goes on, and does nothing twice. -/
theorem execQsend_ready {w : Wait} (hl : s.live) (hw : s.me.wait = some w) (hk : w.kind = .ready) (hn : w.n = 1) :
    exec (.qsend p a b k) s = .next (s.advance (.qsend p a b k)) := by
  refine run_ok hl ?_
  rw [M.bind_ok (myWait_apply s), hw, Option.getD_some, if_pos ⟨hk, hn⟩]
  rfl

section
variable {m : Msg} (hq : ∀ q ∈ s.msgs, q.src ≠ m.src)
include hq

theorem sendMsg_enters (hp : s.prompt = true) (hroom : s.hasRoom m = true) : sendMsg m s = .ok ((), s.deliver m) := by
  have hmsgs : (s.msgs.filter fun q => decide (q.src ≠ m.src)) = s.msgs := List.filter_eq_self.2 fun q h => decide_eq_true (hq q h)
  unfold sendMsg
  rw [M.bind_ok (getS_apply s), if_pos ⟨hp, hroom⟩, modS_apply, hmsgs]

theorem sendMsg_waits (h : ¬ (s.prompt = true ∧ s.hasRoom m = true)) :
    sendMsg m s = .error (.park (.room m.core m.port m.words.length) { s with msgs := s.msgs ++ [m] }) := by
  have hnew : ¬ (s.msgs.any fun q => decide (q.src = m.src)) = true := by simpa using hq
  unfold sendMsg
  rw [M.bind_ok (getS_apply s), if_neg h, M.bind_ok (modS_apply _ _), if_neg hnew]
  rfl

end

end

theorem State.hasRoom_iff (s : State) (m : Msg) :
    s.hasRoom m = true ↔ (s.port m.core m.bank m.port).words.length + m.words.length ≤ 64 := by
  unfold State.hasRoom portRoom
  exact decide_eq_true_iff

theorem State.qsendMsg_length (s : State) (c : Nat) (p : BitVec 3) (b : BitVec 5) (k : BitVec 3) :
    (s.qsendMsg c p b k).words.length = k.toNat + 1 := by
  simp [State.qsendMsg]

/-- Settles O38: `sendTarget` decides on the target, `sendMsg` whether the message enters the port or is on its way. -/
theorem messages : Obligations.Messages := by
  unfold Obligations.Messages
  intro s p a b k x s1 c hl hw hx hc
  refine ⟨fun h17 hp ht => ⟨fun hprompt hq hroom => ?enters, fun hwait hq => ?waits⟩,
    fun h => execQsend_refused hl hw hx (sendTarget_outside hc h),
    fun h17 ht h => execQsend_refused hl hw hx (sendTarget_notOwned hc h17 ht h),
    fun v w hvl hvw hk hn => execQsend_ready hvl hvw hk hn⟩
  all_goals
    obtain ⟨q, hrun, hbody⟩ := execQsend_sends (p := p) (b := b) (k := k) hw hx
    rw [M.bind_ok (sendTarget_ok hc h17 hp ht), M.bind_ok (getS_apply s1)] at hbody
    rw [hrun]
  case enters =>
    have hfits : s1.hasRoom (s1.qsendMsg c p b k) = true := (State.hasRoom_iff _ _).2 (by rwa [State.qsendMsg_length])
    obtain ⟨hbytes, hslots⟩ := s1.still_deliver (s1.qsendMsg c p b k)
    refine ⟨_, run_ok hl (hbody.trans (sendMsg_enters hq hprompt hfits)), State.deliver_msgs _ _, State.deliver_words _ _, hbytes, hslots,
      fun n w e hn hk hbit hcore hfar hjob => ?_⟩
    rw [State.deliver_slot]
    exact Slot.signalled_port hn hk hbit hcore hfar hjob
  case waits =>
    refine run_park hl (hbody.trans ?_)
    have hno : ¬ (s1.prompt = true ∧ s1.hasRoom (s1.qsendMsg c p b k) = true) := by
      rintro ⟨hp1, hr⟩
      rw [State.hasRoom_iff, State.qsendMsg_length] at hr
      rcases hwait with h | h
      · simp [h] at hp1
      · exact absurd hr (Nat.not_le.2 h)
    rw [sendMsg_waits hq hno, State.qsendMsg_length]
    rfl

end Sys2Proof.Machine
end

section
/-! CERTIFICATE. A store and an atomic at the authoritative pair of a line, through the caches of the slot or at the home of its page
(R84, R87, R88, R103, R104, R126). -/
namespace Sys2Proof.Machine

/-! ## The pair, the bytes and the PTS (R126) -/

/-- What a store of `n` bytes `b` leaves, in terms of the state `s` before it: the bytes, and one new timestamp in the PTS and in the
pair of the line, which rests under `scope` and is owned through the L2 of the slot (R87, R88, R126). -/
def State.Stored (s : State) (pa n b scope : Nat) (t : State) : Prop :=
  let p := max s.me.pts ((s.pairOf pa).rts + 1)
  slotsKept s t ∧ t.mem = writeN s.mem pa n b ∧ (t.slot s.cur).pts = p ∧
    ∃ who, t.pairOf pa = { wts := p, rts := p, scope := scope, who := who, owner := l2Of s.cur }

section
variable {s t u : State} {pa n b scope : Nat}

/-- The reply that has come and the counts of the dies do not matter to it. -/
theorem State.CountedTo.stored (h : s.CountedTo u) (hu : u.Stored pa n b scope t) : s.Stored pa n b scope t := by
  obtain ⟨g, ds, rfl, -⟩ := h
  exact hu

theorem State.CountedTo.mem (h : s.CountedTo u) : u.mem = s.mem := by
  obtain ⟨g, ds, rfl, -⟩ := h
  rfl

theorem State.CountedTo.jobOf (h : s.CountedTo u) : u.jobOf u.cur = s.jobOf s.cur := by
  obtain ⟨g, ds, rfl, -⟩ := h
  rfl

theorem State.CountedTo.restScope (h : s.CountedTo u) : u.restScope scope = s.restScope scope := by
  obtain ⟨g, ds, rfl, -⟩ := h
  rfl

theorem State.Stored.cur (h : s.Stored pa n b scope t) : t.cur = s.cur := by
  obtain ⟨⟨hcur, -⟩, -⟩ := h
  exact hcur

theorem State.Stored.me_pts (h : s.Stored pa n b scope t) : t.me.pts = max s.me.pts ((s.pairOf pa).rts + 1) := by
  obtain ⟨⟨hcur, -⟩, -, hpts, -⟩ := h
  exact (congrArg (fun k => (t.slot k).pts) hcur).trans hpts

/-- What the caches hold does not matter to it. -/
theorem State.Stored.caches (h : s.Stored pa n b scope t) (cs : SMap Core) (ds : SMap Die) (l : SMap (Option LlcSq)) :
    s.Stored pa n b scope { t with cores := cs, dies := ds, llc := l } := h

end

/-- A store changes no register, special register or PC: of the slots only the watches of its bytes learn of it (R265). -/
theorem State.storeAt_slotsKept (s : State) (pa n v pts scope who owner : Nat) :
    slotsKept s (s.storeAt pa n v pts scope who owner).1 := by
  unfold State.storeAt State.sendCrossing
  dsimp only
  split
  · exact (still_notify _ _ _ _ _).2
  · exact (still_notify _ _ _ _ _).2

/-- The store of the issuing slot, under the scope where its line may rest. -/
theorem storePair_stored (s : State) (pa n v scope : Nat) :
    ∃ t, storePair pa n v scope s = .ok ((), t) ∧ s.Stored pa n v (s.restScope scope) t := by
  let who := if s.restScope scope = 0 then 0 else coreOf s.cur
  let u := (s.storeAt pa n v s.me.pts (s.restScope scope) who (l2Of s.cur)).1
  let p := max s.me.pts ((s.pairOf pa).rts + 1)
  obtain ⟨-, -, hmem, -, -, hpair⟩ := s.storeAt_spec pa n v s.me.pts (s.restScope scope) who (l2Of s.cur)
  obtain ⟨hcur, hslots⟩ := s.storeAt_slotsKept pa n v s.me.pts (s.restScope scope) who (l2Of s.cur)
  have hstored : s.Stored pa n v (s.restScope scope) (u.modSlot s.cur fun x => { x with pts := p }) := by
    obtain ⟨-, hpts⟩ := slotsKept_modSlot_pts u s.cur fun _ => p
    refine ⟨⟨hcur, fun k => ?_⟩, hmem, congrArg Slot.pts (State.modSlot_slot_self _ _ _), who, hpair⟩
    obtain ⟨hr, hsp, hpc⟩ := hpts k
    obtain ⟨hr', hsp', hpc'⟩ := hslots k
    exact ⟨hr.trans hr', hsp.trans hsp', hpc.trans hpc'⟩
  refine ⟨_, modS_apply _ _, ?_⟩
  dsimp only
  split
  · exact hstored
  · exact hstored

/-! ## The caches of the slot (R84, R85, R88) -/

/-- Resting in the LLC changes nothing but the LLC. -/
theorem State.llcDirty_eq (s : State) (pa n : Nat) : ∃ l, s.llcDirty pa n = { s with llc := l } := by
  have hfill : ∃ l, s.llcFill pa false = { s with llc := l } := by
    unfold State.llcFill
    split
    · exact ⟨_, rfl⟩
    · split
      · exact ⟨_, rfl⟩
      · exact ⟨_, rfl⟩
  obtain ⟨l, hl⟩ := hfill
  unfold State.llcDirty
  rw [hl]
  dsimp only
  split
  · exact ⟨_, rfl⟩
  · exact ⟨_, rfl⟩

/-- With scope pkg the line rests dirty in the LLC (R88). -/
theorem State.restsInLlc_eq (s : State) (pa n scope : Nat) :
    ∃ l, (if scope = 1 then s.llcDirty pa n else s) = { s with llc := l } := by
  split
  · exact s.llcDirty_eq pa n
  · exact ⟨_, rfl⟩

/-- A copy fills the L1 of core `c`. -/
def State.putL1 (s : State) (c : Nat) (k : LineCopy) : State := s.modCore c fun x => { x with l1 := putCopy x.l1 k }

theorem State.putL1_l1 (s : State) (c : Nat) (k : LineCopy) : ((s.putL1 c k).core c).l1 = putCopy (s.core c).l1 k :=
  congrArg Core.l1 ((s.core_modCore c c _).trans (if_pos rfl))

/-- The copy of a store stands at the head of its cache, with the sectors written and the new pair (R84, R126). -/
theorem mem_putCopy_ownCopy (l : List LineCopy) (old : Pair) (holder : Bool) (m : Memory) (j pa n t kept : Nat) :
    ∃ k ∈ putCopy l (ownCopy l old holder m j pa n t kept), k.job = j ∧ k.line = pa / 256 ∧ k.wts = t ∧ k.rts = t ∧
      sectorsOf pa n &&& ~~~k.valid = 0 ∧ k.data = BitVec.ofNat 2048 (readN m (pa - pa % 256) 256) := by
  refine ⟨ownCopy l old holder m j pa n t kept, List.mem_cons_self, rfl, rfl, rfl, rfl, ?_, rfl⟩
  ext i hi
  simp +contextual [ownCopy]

/-- The L1 of core `c` holds the line of `pa` for job `j`, with the bytes in memory and the pair that a store at timestamp `t` gives it:
the core reads no older value (R126). -/
def State.OwnInL1 (s : State) (c j pa n t : Nat) : Prop :=
  ∃ k ∈ (s.core c).l1, k.job = j ∧ k.line = pa / 256 ∧ k.wts = t ∧ k.rts = t ∧ sectorsOf pa n &&& ~~~k.valid = 0 ∧
    k.data = BitVec.ofNat 2048 (readN s.mem (pa - pa % 256) 256)

section
variable (s : State) (old : Pair) (j pa n t scope kept : Nat)

/-- The L1 of a local slot takes the copy of its own store, and nothing but caches changes. -/
theorem State.keepOwn_of_local (hl : isLocal s.cur = true) :
    let c := coreOf s.cur
    let k := ownCopy (s.core c).l1 old (decide (old.scope = 3 ∧ old.who = c)) s.mem j pa n t kept
    ∃ ds l, s.keepOwn old j pa n t scope kept = { s.putL1 c k with dies := ds, llc := l } := by
  intro c k
  unfold State.keepOwn
  dsimp only
  rw [if_pos hl]
  exact ⟨_, State.restsInLlc_eq _ _ _ _⟩

/-- A near core and a far slot have no cache that keeps the line (R88, R134). -/
theorem State.keepOwn_of_other (hl : ¬ isLocal s.cur = true) :
    ∃ l, s.keepOwn old j pa n t scope kept = { s with llc := l } := by
  unfold State.keepOwn
  dsimp only
  rw [if_neg hl]
  exact s.restsInLlc_eq _ _ _

/-- The copies that a store leaves are all that it adds to its pair. -/
theorem State.keepOwn_caches : ∃ cs ds l, s.keepOwn old j pa n t scope kept = { s with cores := cs, dies := ds, llc := l } := by
  by_cases hl : isLocal s.cur = true
  · obtain ⟨ds, l, h⟩ := s.keepOwn_of_local old j pa n t scope kept hl
    exact ⟨_, ds, l, h⟩
  · obtain ⟨l, h⟩ := s.keepOwn_of_other old j pa n t scope kept hl
    exact ⟨s.cores, s.dies, l, h⟩

theorem State.ownInL1_keepOwn (hl : isLocal s.cur = true) :
    (s.keepOwn old j pa n t scope kept).OwnInL1 (coreOf s.cur) j pa n t := by
  obtain ⟨ds, l, h⟩ := s.keepOwn_of_local old j pa n t scope kept hl
  rw [h]
  change ∃ k ∈ ((s.putL1 (coreOf s.cur) _).core (coreOf s.cur)).l1, _
  rw [State.putL1_l1]
  exact mem_putCopy_ownCopy _ _ _ _ _ _ _ _ _

end

/-- The caches of the issuing slot of `s` behind its store. -/
theorem State.Stored.keepOwn {s u : State} {pa n b sc : Nat} (h : s.Stored pa n b sc u) (old : Pair) (scope kept : Nat) :
    let t := u.keepOwn old (s.jobOf s.cur) pa n u.me.pts scope kept
    s.Stored pa n b sc t ∧
      (isLocal s.cur = true → t.OwnInL1 (coreOf s.cur) (s.jobOf s.cur) pa n (max s.me.pts ((s.pairOf pa).rts + 1))) := by
  obtain ⟨cs, ds, l, ht⟩ := u.keepOwn_caches old (s.jobOf s.cur) pa n u.me.pts scope kept
  refine ⟨?_, fun hl => ?_⟩
  · rw [ht]
    exact h.caches cs ds l
  · have hown := u.ownInL1_keepOwn old (s.jobOf s.cur) pa n u.me.pts scope kept (h.cur.symm ▸ hl)
    rw [h.me_pts] at hown ⊢
    rwa [h.cur] at hown

/-! ## Stores and atomics behind their gate -/

section
variable {s u : State} {pa : Nat} (h : s.CountedTo u) (va n : Nat) (hint : Bool)
include h

/-- A store to a line of a CACHED page (R84, R126). -/
theorem storeCached_stored (v sc : Nat) : ∃ t, storeCached pa va n v sc hint u = .ok ((), t) ∧
    s.Stored pa n v (s.restScope sc) t ∧ (isLocal s.cur = true →
      t.OwnInL1 (coreOf s.cur) (s.jobOf s.cur) pa n (max s.me.pts ((s.pairOf pa).rts + 1))) := by
  obtain ⟨k, w, hk, hw⟩ := sampled_counted h va hint
  obtain ⟨x, hx, hstored⟩ := storePair_stored w pa n v sc
  rw [hw.restScope] at hstored
  refine ⟨_, ?_, (hw.stored hstored).keepOwn (w.pairOf pa) sc k⟩
  unfold storeCached
  rw [M.bind_ok hk, M.bind_ok (getS_apply w), M.bind_ok hx, modS_apply, hw.jobOf]

/-- A store at the home of a MIGRATE page, whose line rests in no cache (R27, R88). -/
theorem homeStore_stored : ∃ k w, sampled va hint u = .ok (k, w) ∧ w.mem = s.mem ∧
    ∀ v, ∃ t, storePair pa n v 0 w = .ok ((), t) ∧ s.Stored pa n v 0 t := by
  obtain ⟨k, w, hk, hw⟩ := sampled_counted h va hint
  refine ⟨k, w, hk, hw.mem, fun v => ?_⟩
  obtain ⟨t, ht, hstored⟩ := storePair_stored w pa n v 0
  have hrest : w.restScope 0 = 0 := by simp [State.restScope]
  exact ⟨t, ht, hw.stored (hrest ▸ hstored)⟩

end

/-! ## The gate (R87, R103, R104) -/

/-- A store waits for no sector that a read does not wait for (R103). -/
theorem State.badAt_write_of_read {s : State} {pa n : Nat} (h : s.badAt pa n false = false) : s.badAt pa n true = false := by
  unfold State.badAt at h ⊢
  rw [List.any_eq_false] at h ⊢
  intro x hx hbad
  refine h x hx ?_
  rw [Bool.and_eq_true] at hbad
  simpa using hbad.1

/-- Where every word that it reads is there, an atomic passes the gate as a store does. -/
theorem storeGate_read {s : State} {pa va n : Nat} (hp : s.poison.contains (pa / 4096) = false) (hb : s.badAt pa n false = false)
    (hl : s.lostAt pa n = none) : storeGate pa va n false s = storeGate pa va n true s := by
  unfold storeGate
  rw [M.bind_ok (getS_apply s), M.bind_ok (getS_apply s)]
  split
  · rfl
  · rw [M.bind_ok (checkPoison_readable hp hb hl), M.bind_ok (checkPoison_writable hp (State.badAt_write_of_read hb))]

section
variable {s u : State} {pa va n : Nat}

/-- A store, by the class of its page, once it has passed its gate. -/
theorem storeT_stored (h : s.CountedTo u) (hgate : storeGate pa va n true s = .ok ((), u)) (v sc : Nat) (hint : Bool) :
    (∃ t, storeT (.cached pa va) n v sc hint s = .ok ((), t) ∧ s.Stored pa n v (s.restScope sc) t ∧
      (isLocal s.cur = true → t.OwnInL1 (coreOf s.cur) (s.jobOf s.cur) pa n (max s.me.pts ((s.pairOf pa).rts + 1)))) ∧
    ∃ t, storeT (.home pa va) n v sc hint s = .ok ((), t) ∧ s.Stored pa n v 0 t := by
  constructor
  · obtain ⟨t, ht, hstored⟩ := storeCached_stored h va n hint v sc
    exact ⟨t, (M.bind_ok hgate).trans ht, hstored⟩
  · obtain ⟨k, w, hk, -, hput⟩ := homeStore_stored h va n hint
    obtain ⟨t, ht, hstored⟩ := hput v
    exact ⟨t, (M.bind_ok hgate).trans ((M.bind_ok hk).trans ht), hstored⟩

/-- An atomic, by the class of its page, once it has passed its gate: it answers the bytes that stood there. -/
theorem updateT_stored (h : s.CountedTo u) (hgate : storeGate pa va n false s = .ok ((), u)) (sc : Nat) (f : Nat → Nat) :
    (∃ t, updateT (.cached pa va) n sc f s = .ok (readN s.mem pa n, t) ∧ s.Stored pa n (f (readN s.mem pa n)) (s.restScope sc) t) ∧
    ∃ t, updateT (.home pa va) n sc f s = .ok (readN s.mem pa n, t) ∧ s.Stored pa n (f (readN s.mem pa n)) 0 t := by
  constructor
  · obtain ⟨t, ht, hstored, -⟩ := storeCached_stored h va n false (f (readN s.mem pa n)) sc
    refine ⟨t, ?_, hstored⟩
    unfold updateT
    dsimp only
    rw [M.bind_ok hgate, M.bind_ok (getS_apply u), h.mem, M.bind_ok ht, M.pure_apply]
  · obtain ⟨k, w, hk, hwmem, hput⟩ := homeStore_stored h va n false
    obtain ⟨t, ht, hstored⟩ := hput (f (readN s.mem pa n))
    refine ⟨t, ?_, hstored⟩
    unfold updateT
    dsimp only
    rw [M.bind_ok hgate, M.bind_ok hk, M.bind_ok (getS_apply w), hwmem, M.bind_ok ht, M.pure_apply]

end

/-- Settles O29: behind the gate, which an atomic passes as a store does, every store is `storePair`, and one to a CACHED page is then
kept in the caches of its slot. -/
theorem storeTimestamp : Obligations.StoreTimestamp := by
  unfold Obligations.StoreTimestamp
  intro s pa va n v sc ha hp hg hr hm p done x hx
  have hdone {t : State} {b scope : Nat} (h : s.Stored pa n b scope t) : done t b ∧ (t.pairOf pa).scope = scope := by
    obtain ⟨⟨-, hslots⟩, hmem, hpts, who, hpair⟩ := h
    obtain ⟨hregs, -⟩ := hslots s.cur
    rw [hpair]
    exact ⟨⟨hmem, hpts, congrArg Pair.wts hpair, congrArg Pair.rts hpair, congrArg Pair.owner hpair, hregs⟩, rfl⟩
  refine ⟨fun hb hint => ?store, fun hb hl f => ?atomic⟩
  case store =>
    obtain ⟨u, hu, hgate⟩ := storeGate_ok hp hb hg ha hm hr
    obtain ⟨⟨t, ht, hstored, hown⟩, ⟨q, hq, hhome⟩⟩ := storeT_stored hu hgate v sc hint
    rcases hx with rfl | rfl
    · obtain ⟨hd, hscope⟩ := hdone hstored
      exact ⟨t, ht, hd, nofun, fun _ => hscope, fun _ => hown⟩
    · obtain ⟨hd, hscope⟩ := hdone hhome
      exact ⟨q, hq, hd, fun _ => hscope, nofun, nofun⟩
  case atomic =>
    obtain ⟨u, hu, hgate⟩ := storeGate_ok hp (State.badAt_write_of_read hb) hg ha hm hr
    obtain ⟨⟨t, ht, hstored⟩, ⟨q, hq, hhome⟩⟩ := updateT_stored hu ((storeGate_read hp hb hl).trans hgate) sc f
    rcases hx with rfl | rfl
    · obtain ⟨hd, -⟩ := hdone hstored
      exact ⟨t, ht, hd⟩
    · obtain ⟨hd, -⟩ := hdone hhome
      exact ⟨q, hq, hd⟩

end Sys2Proof.Machine
end

section
/-! CERTIFICATE. PARK, PARK.ev and DONE, and what the end of a unit leaves (R107, R166, R172, R256, R257, R382). -/
namespace Sys2Proof.Machine

/-! ## What an ended unit leaves alone -/

theorem State.still_putBack (s : State) (t : Nat) (l : Latch) : still s (s.putBack t l) := by
  unfold State.putBack
  split
  · exact framing_still.1 s
  · exact still_modReg _ _ _ _ _
  · exact still_modPort _ _ _ _ _

theorem State.still_unopen (s : State) (t : Nat) : still s (s.unopen t) := by
  unfold State.unopen
  split
  · exact framing_still.1 s
  · exact still_modCluster _ _ _

theorem State.still_unlist (s : State) (t : Nat) : still s (s.unlist t) := by
  unfold State.unlist
  extract_lets c b inBank inCore inMsgs
  have hbank : still s inBank := still_modBank s _ _ _
  have hcore : still inBank inCore := still_modCore _ _ _ fun _ => rfl
  have hmsgs : still inCore inMsgs := still_of_eq rfl rfl rfl rfl rfl
  have hlists := framing_still.2 _ _ _ hbank (framing_still.2 _ _ _ hcore hmsgs)
  split
  · exact framing_still.2 _ _ _ hlists (still_modCluster _ _ _)
  · exact hlists

/-- Undoing an instruction changes what its thread takes and waits for, and nothing that a program reads. -/
theorem State.still_undo (s : State) (t : Nat) : still s (s.undo t) := by
  have hback (ls : List Latch) : still s (ls.foldr (fun l s => s.putBack t l) s) := by
    induction ls with
    | nil => exact framing_still.1 s
    | cons l ls ih => exact framing_still.2 _ _ _ ih (State.still_putBack _ t l)
  have hlists := framing_still.2 _ _ _ (hback (s.slot t).latch) (framing_still.2 _ _ _ (State.still_unopen _ t) (State.still_unlist _ t))
  exact framing_still.2 _ _ _ hlists (still_modSlot _ t _ fun _ => ⟨rfl, rfl, rfl, rfl⟩)

theorem State.still_tellStarter (s : State) (t : Nat) : still s (s.tellStarter t) := by
  unfold State.tellStarter
  dsimp only
  split
  · exact framing_still.1 s
  · split
    · exact s.still_deliver _
    · exact still_of_eq rfl rfl rfl rfl rfl

theorem State.still_endUnit (s : State) (t : Nat) (e : EndRec) : still s (s.endUnit t e) := by
  have hfree (u : State) : still u ((u.dropOps t).freeHeld (s.slot t) (s.jobOf t)) := still_of_eq rfl rfl rfl rfl rfl
  have hslot (u : State) : still u (u.modSlot t fun x =>
      { x with st := .ended, wait := none, latch := [], mailOut := none, fin := some e, cancel := none }) :=
    still_modSlot u t _ fun _ => ⟨rfl, rfl, rfl, rfl⟩
  have hfreed := framing_still.2 _ _ _ (s.still_undo t) (hfree _)
  exact framing_still.2 _ _ _ hfreed (framing_still.2 _ _ _ (hslot _) (State.still_tellStarter _ t))

/-! ## The ended slot (R166) -/

/-- The message to the starter changes no slot that waits for nothing. -/
theorem State.tellStarter_slot {s : State} {t k : Nat} (h : (s.slot k).wait = none) : (s.tellStarter t).slot k = s.slot k := by
  unfold State.tellStarter
  dsimp only
  split
  · rfl
  · split
    · exact (s.deliver_slot _ k).trans (Slot.signalled_idle h)
    · rfl

theorem State.endUnit_slot (s : State) (t : Nat) (e : EndRec) : (s.endUnit t e).slot t =
    { s.slot t with st := .ended, wait := none, latch := [], mailOut := none, fin := some e, cancel := none } := by
  have hkept : (((s.undo t).dropOps t).freeHeld (s.slot t) (s.jobOf t)).slot t = (s.undo t).slot t := rfl
  unfold State.endUnit
  dsimp only
  rw [State.tellStarter_slot (by rw [State.modSlot_slot_self]), State.modSlot_slot_self, hkept, State.undo_slot]

/-! ## The accumulator slots of the unit (R257, R320) -/

theorem holds_freeAcc (x : Slot) (j : Nat) (a : Acc) : holds x j (freeAcc a) = false := rfl

/-- What the end of the unit leaves of an accumulator slot, the unit does not hold. -/
theorem holds_freed (x : Slot) (j : Nat) (a : Acc) : holds x j (if holds x j a then freeAcc a else a) = false := by
  split
  · exact holds_freeAcc x j a
  · next h => exact eq_false_of_ne_true h

theorem State.holdsAcc_freeHeld (s : State) (x : Slot) (j : Nat) : (s.freeHeld x j).holdsAcc x j = false := by
  unfold State.holdsAcc State.freeHeld
  simp only [List.any_map, List.any_eq_false, Function.comp_apply, Bool.not_eq_true]
  intro e _ a ha
  obtain ⟨a', -, rfl⟩ := List.mem_map.1 (List.mem_filter.1 ha).1
  exact holds_freed x j a'.2

theorem State.tellStarter_clusters (s : State) (t : Nat) : (s.tellStarter t).clusters = s.clusters := by
  have hdeliver (m : Msg) : (s.deliver m).clusters = s.clusters := by
    unfold State.deliver State.modPort
    split <;> rfl
  unfold State.tellStarter
  dsimp only
  split
  · rfl
  · split
    · exact hdeliver _
    · rfl

theorem State.endUnit_holdsAcc (s : State) (t : Nat) (e : EndRec) : (s.endUnit t e).holdsAcc (s.slot t) (s.jobOf t) = false := by
  unfold State.endUnit State.holdsAcc
  dsimp only
  rw [State.tellStarter_clusters]
  exact State.holdsAcc_freeHeld ((s.undo t).dropOps t) (s.slot t) (s.jobOf t)

section
variable {s : State}

/-! ## PARK and PARK.ev (R256) -/

theorem execPark_zero (hl : s.live) : execPark 0 s = .next (s.advance (.park 0)) :=
  run_ok hl (congrFun (if_pos rfl) s)

theorem execPark_parks {n : BitVec 32} (hl : s.live) (hn : n ≠ 0) : execPark n s = .next (s.parkOn (.park n) (.turns n.toNat)) :=
  run_park hl (congrFun (if_neg hn) s)

theorem State.portEvent_iff (s : State) (m : BitVec 12) : s.portEvent m.toNat = true ↔
    ∃ p, p < 8 ∧ m.getLsbD p = true ∧ (s.port (coreOf s.cur) (s.portBank s.cur) p).words ≠ [] := by
  simp [State.portEvent, BitVec.testBit_toNat]

theorem execParkEv_port {m : BitVec 12} (hl : s.live) (h : s.portEvent m.toNat = true) :
    execParkEv m s = .next (s.advance (.parkEv m)) := by
  refine run_ok hl ?_
  rw [M.bind_ok (getS_apply s), M.bind_ok (myWait_apply s), h, Bool.true_or, if_pos rfl]
  rfl

/-- A slot whose event has come goes on. -/
theorem execParkEv_event {m : BitVec 12} {w : Wait} {k : Nat} (hl : s.live) (hw : s.me.wait = some w) (hk : w.kind = .event k true) :
    execParkEv m s = .next (s.advance (.parkEv m)) := by
  refine run_ok hl ?_
  rw [M.bind_ok (getS_apply s), M.bind_ok (myWait_apply s), hw, Option.getD_some, hk]
  dsimp only
  rw [Bool.or_true, if_pos rfl]
  rfl

theorem execParkEv_parks {m : BitVec 12} (hl : s.live) (h : s.portEvent m.toNat = false) (hw : s.me.wait = none) :
    execParkEv m s = .next (s.parkOn (.parkEv m) (.event m.toNat false)) := by
  refine run_park hl ?_
  rw [M.bind_ok (getS_apply s), M.bind_ok (myWait_fresh hw), h, Bool.or_false, if_neg Bool.false_ne_true]
  rfl

/-! ## DONE (R257) -/

theorem execDone_retires (hl : s.live) (hu : isFar s.cur = true ∨ slotNo s.cur ≠ 0) (hq : s.quiet s.cur = true) (hf : s.me.fails = [])
    (he : s.epiBusy s.me (s.jobOf s.cur) = false) : execDone s = .next (s.retire s.cur) := by
  have hunit : (isFar s.cur || decide (slotNo s.cur ≠ 0)) = true := by simpa using hu
  refine run_leave hl ?_
  unfold doneOp
  rw [M.bind_ok (getS_apply s), hunit, ensure_true, M.bind_ok (M.pure_apply _ _), M.bind_ok (waitQuiet_ok .doneWait hq hf), he,
    if_neg Bool.false_ne_true]
  rfl

/-- The starter of a core does not end by DONE. -/
theorem execDone_starter (hl : s.live) (hn : isFar s.cur = false) (h0 : slotNo s.cur = 0) :
    execDone s = .next (s.trapMe 1 (BitVec.ofNat 64 (56 * 256 + 8))) := by
  refine run_trap hl ?_
  unfold doneOp
  rw [M.bind_ok (getS_apply s), hn, h0]
  rfl

end

/-- Settles O25: PARK.ev goes on by `portEvent_iff` or by its event; DONE retires its unit, and what that leaves is `endUnit_slot`,
`endUnit_holdsAcc` and `still_endUnit`. -/
theorem waitingAndEnding : Obligations.WaitingAndEnding := by
  unfold Obligations.WaitingAndEnding
  refine ⟨fun s hl => execPark_zero hl, fun s n hl hn => execPark_parks hl hn, fun s c t w hw => ?lastTurn, fun s c t w n hw => ?turn,
    fun s m hl => ⟨?goesOn, fun hempty hw => ?waits⟩, fun s hl hu hq hf he => execDone_retires hl hu hq hf he, fun s k => ?retired,
    fun s hl hn h0 => execDone_starter hl hn h0⟩
  case lastTurn =>
    unfold State.parkedTurnOf
    rw [hw]
    rfl
  case turn =>
    unfold State.parkedTurnOf
    rw [hw]
    exact if_pos (by omega)
  case goesOn =>
    rintro (hport | ⟨w, k, hw, hk⟩)
    · exact execParkEv_port hl ((s.portEvent_iff m).2 hport)
    · exact execParkEv_event hl hw hk
  case waits =>
    refine execParkEv_parks hl (eq_false_of_ne_true fun h => ?_) hw
    obtain ⟨p, hp, hm, hword⟩ := (s.portEvent_iff m).1 h
    exact hword (hempty p hp hm)
  case retired =>
    intro t
    have hslot : t.slot k = _ := s.endUnit_slot k _
    obtain ⟨hbytes, hslots⟩ : still s t := s.still_endUnit k _
    rw [hslot]
    exact ⟨rfl, rfl, rfl, rfl, rfl, rfl, s.endUnit_holdsAcc k _, hbytes, hslots⟩

end Sys2Proof.Machine
end

section
/-! CERTIFICATE. CADD, CADD.clr, CEXP, CRD and XWAIT (R150, R151, R154, R263, R286). -/
namespace Sys2Proof.Machine

section
variable {s : State}

/-! ## Where they issue (R263) -/

theorem notFar_ok (h : isFar s.cur = false) : notFar s = .ok ((), s) := by
  unfold notFar
  rw [M.bind_ok (getS_apply s), h]
  rfl

theorem notFar_refused (h : isFar s.cur = true) : notFar s = .error (.trap 1 (BitVec.ofNat 64 (56 * 256 + 8))) := by
  unfold notFar
  rw [M.bind_ok (getS_apply s), h]
  rfl

/-! ## The counters of a bank (R151) -/

theorem myCtr_ok {t : Nat} {n : BitVec 5} {u : Counter} (hcur : s.cur = t) (hu : s.ctr (coreOf t) (s.bankNo t) n.toNat = u) :
    myCtr n s = .ok (u, s) := by
  rw [← hu, ← hcur]
  rfl

theorem setMyCtr_ok {t : Nat} (hcur : s.cur = t) (n : BitVec 5) (x : Counter) :
    setMyCtr n x s = .ok ((), s.setCtr (coreOf t) (s.bankNo t) n.toNat x) := by
  rw [← hcur]
  rfl

theorem State.setCtr_cur (s : State) (c b n : Nat) (x : Counter) : (s.setCtr c b n x).cur = s.cur := by
  unfold State.setCtr
  dsimp only
  split <;> rfl

theorem State.ctr_setCtr_self (s : State) (c b n : Nat) (x : Counter) : (s.setCtr c b n x).ctr c b n = x := by
  have hput : (s.modBank c b fun k => { k with ctrs := k.ctrs.set Counter.dflt n x }).ctr c b n = x := by
    unfold State.ctr
    rw [State.bank_modBank_self]
    exact SMap.get_set_self _ _ _ _
  unfold State.setCtr
  dsimp only
  split
  · exact hput
  · exact hput

/-- A write of a counter changes nothing of a slot but what it waits for (R256). -/
theorem State.setCtr_slot (s : State) (c b n : Nat) (x : Counter) (k : Nat) :
    ∃ w, (s.setCtr c b n x).slot k = { s.slot k with wait := w } := by
  unfold State.setCtr
  dsimp only
  split
  · exact ⟨(s.slot k).wait, rfl⟩
  · obtain ⟨w, hw⟩ := (s.slot k).signalled_eq c b 0x100 false k
    exact ⟨w, (State.signal_slot _ _ _ _ _ k).trans hw⟩

theorem State.setCtr_clusters (s : State) (c b n : Nat) (x : Counter) : (s.setCtr c b n x).clusters = s.clusters := by
  unfold State.setCtr
  dsimp only
  split <;> rfl

theorem State.setCtr_bankNo (s : State) (c b n : Nat) (x : Counter) (t : Nat) : (s.setCtr c b n x).bankNo t = s.bankNo t := by
  obtain ⟨w, hw⟩ := s.setCtr_slot c b n x t
  unfold State.bankNo State.jobOf State.cluster
  rw [hw, State.setCtr_clusters]

/-- The issuing thread reads the counter that it has written. -/
theorem myCtr_setCtr {t : Nat} (hcur : s.cur = t) (n : BitVec 5) (x : Counter) :
    myCtr n (s.setCtr (coreOf t) (s.bankNo t) n.toNat x) = .ok (x, s.setCtr (coreOf t) (s.bankNo t) n.toNat x) := by
  refine myCtr_ok ((State.setCtr_cur _ _ _ _ _).trans hcur) ?_
  rw [State.setCtr_bankNo, State.ctr_setCtr_self]

/-- The range of VALUE (R151). -/
theorem inRange_iff (v : Int) : inRange v = true ↔ -(2 : Int) ^ 47 ≤ v ∧ v < 2 ^ 47 := by
  simp [inRange]

theorem inRange_eq_false {v : Int} (h : v < -(2 : Int) ^ 47 ∨ (2 : Int) ^ 47 ≤ v) : inRange v = false :=
  eq_false_of_ne_true fun hv => by have := (inRange_iff v).1 hv; omega

/-! ## CADD and CADD.clr, then CEXP (R154, R286) -/

section
variable {s1 : State} {c : BitVec 5} {b : Src} {n : Word} {u : Counter}
variable (hl : s.live) (hf : isFar s.cur = false) (hn : readSrc 2 b s = .ok (n, s1)) (hcur : s1.cur = s.cur)

section
variable (hu : s1.ctr (coreOf s.cur) (s1.bankNo s.cur) c.toNat = u)
include hl hf hn hcur hu

theorem execCadd_counts (he : u.err ≠ 1) (hv : inRange (u.val + n.toInt) = true) :
    execCadd c b s = .next ((s1.setCtr (coreOf s.cur) (s1.bankNo s.cur) c.toNat
      { u with val := u.val + n.toInt, stamp := max u.stamp s1.me.pts }).advance (.cadd c b)) := by
  refine run_ok hl ?_
  rw [M.bind_ok (notFar_ok hf), M.bind_ok hn, M.bind_ok (myCtr_ok hcur hu), decide_eq_true he, hv]
  exact setMyCtr_ok hcur c _

/-- A counter that has overflowed, or would, is not counted. -/
theorem execCadd_overflows (h : u.err = 1 ∨ inRange (u.val + n.toInt) = false) :
    execCadd c b s = .next (s.trapMe 0x12 (c.setWidth 64)) := by
  refine run_trap hl ?_
  rw [M.bind_ok (notFar_ok hf), M.bind_ok hn, M.bind_ok (myCtr_ok hcur hu)]
  by_cases he : u.err = 1
  · rw [he]
    rfl
  · rw [decide_eq_true he, h.resolve_left he]
    rfl

theorem execCaddClr_sets (hv : inRange n.toInt = true) :
    execCaddClr c b s = .next ((s1.setCtr (coreOf s.cur) (s1.bankNo s.cur) c.toNat
      { val := n.toInt, err := 0, failId := 0, stamp := max u.stamp s1.me.pts }).advance (.caddClr c b)) := by
  refine run_ok hl ?_
  rw [M.bind_ok (notFar_ok hf), M.bind_ok hn, M.bind_ok (myCtr_ok hcur hu), hv]
  exact setMyCtr_ok hcur c _

end

section
variable (hu : s.ctr (coreOf s.cur) (s.bankNo s.cur) c.toNat = u) (hw : s.me.wait = none) (he : u.err = 0)
  (hv : inRange (u.val - n.toInt) = true)
include hf hn hcur hu hw he hv

/-- A CEXP that has not waited subtracts once, and then goes on or waits as VALUE says. -/
theorem execCexp_subtracts : ∃ m, execCexp c b s = run (.cexp c b) m s ∧
      m s = (if u.val - n.toInt < 0 then park (.counter c.toNat) else mergePts u.stamp : M Unit)
        (s1.setCtr (coreOf s.cur) (s1.bankNo s.cur) c.toNat { u with val := u.val - n.toInt }) := by
  refine ⟨_, rfl, ?_⟩
  rw [M.bind_ok (notFar_ok hf), M.bind_ok (myWait_fresh hw), M.bind_ok (myCtr_ok rfl hu), if_neg (by simp), M.bind_ok hn,
    M.bind_ok (congrFun (if_pos he) s1), hv, ensure_true, M.bind_ok (M.pure_apply _ _), M.bind_ok (setMyCtr_ok hcur c _)]
  exact M.bind_ok (myCtr_setCtr hcur c _)

include hl

theorem execCexp_goesOn (h : 0 ≤ u.val - n.toInt) :
    execCexp c b s = .next (((s1.setCtr (coreOf s.cur) (s1.bankNo s.cur) c.toNat { u with val := u.val - n.toInt }).modSlot s.cur
      fun x => { x with pts := max x.pts u.stamp }).advance (.cexp c b)) := by
  obtain ⟨m, hrun, hm⟩ := execCexp_subtracts hf hn hcur hu hw he hv
  rw [hrun]
  refine run_ok hl (hm.trans ?_)
  rw [if_neg (by omega), mergePts_apply, State.setCtr_cur, hcur]

theorem execCexp_waits (h : u.val - n.toInt < 0) :
    execCexp c b s = .next ((s1.setCtr (coreOf s.cur) (s1.bankNo s.cur) c.toNat { u with val := u.val - n.toInt }).parkOn (.cexp c b)
      (.counter c.toNat)) := by
  obtain ⟨m, hrun, hm⟩ := execCexp_subtracts hf hn hcur hu hw he hv
  exact hrun.trans (run_park hl (hm.trans (congrFun (if_pos h) _)))

end

end

/-! ## CRD (R151) -/

theorem execCrd_reads {d : SReg} {c : BitVec 5} {u : Counter} {s2 : State} (hl : s.live) (hf : isFar s.cur = false)
    (hu : s.ctr (coreOf s.cur) (s.bankNo s.cur) c.toNat = u)
    (hw : writeSR d u.word (s.modSlot s.cur fun x => { x with pts := max x.pts u.stamp }) = .ok ((), s2)) :
    execCrd d c s = .next (s2.advance (.crd d c)) := by
  refine run_ok hl ?_
  rw [M.bind_ok (notFar_ok hf), M.bind_ok (myCtr_ok rfl hu), M.bind_ok (mergePts_apply _ _)]
  exact hw

/-! ## XWAIT (R150) -/

/-- The order of ids, from an id that has not been issued. -/
theorem idBelow_succ (w t : Nat) : idBelow w (t + 1) = decide (((t : Int) - w) % 2 ^ 32 < 2 ^ 31) := by
  unfold idBelow
  rw [Nat.cast_succ, add_sub_cancel_right]

section
variable {s1 : State} {a : Src} {x : Word} {b : Bank} {t : Nat}
variable (hl : s.live) (hf : isFar s.cur = false) (hx : readSrc 1 a s = .ok (x, s1))
  (hb : s1.bank (coreOf s1.cur) (s1.bankNo s1.cur) = b) (ht : x.toNat % 2 ^ 32 = t)
include hf hx hb ht

/-- XWAIT looks at its id in the bank of the thread, once it has read it. -/
theorem execXwait_finds : ∃ m, execXwait a s = run (.xwait a) m s ∧
    m s = (if idBelow b.xferNext (t + 1) then trap 0x0D (engineValue 6 t)
      else if b.pending.contains t then park (.xfer t)
      else do
        let me ← myself
        reportFail (me.fails.filter fun e => idBelow e.1 (t + 1))
        mergePts b.xferStamp : M Unit) s1 := by
  refine ⟨_, rfl, ?_⟩
  rw [M.bind_ok (notFar_ok hf), M.bind_ok hx]
  dsimp only
  rw [M.bind_ok (getS_apply s1), hb, ht]

include hl

theorem execXwait_notIssued (h : idBelow b.xferNext (t + 1) = true) :
    execXwait a s = .next (s.trapMe 0x0D (BitVec.ofNat 64 (6 * 2 ^ 32 + t))) := by
  obtain ⟨m, hrun, hm⟩ := execXwait_finds hf hx hb ht
  rw [if_pos h] at hm
  exact hrun.trans (run_trap hl hm)

theorem execXwait_waits (h : idBelow b.xferNext (t + 1) = false) (hp : t ∈ b.pending) :
    execXwait a s = .next (s1.parkOn (.xwait a) (.xfer t)) := by
  obtain ⟨m, hrun, hm⟩ := execXwait_finds hf hx hb ht
  rw [if_neg (ne_true_of_eq_false h), if_pos (List.contains_iff_mem.2 hp)] at hm
  exact hrun.trans (run_park hl hm)

/-- The PTS takes the stamp of the copies that are done. -/
theorem execXwait_goesOn (h : idBelow b.xferNext (t + 1) = false) (hp : t ∉ b.pending) (hfails : s1.me.fails = []) :
    execXwait a s = .next ((s1.modSlot s1.cur fun x => { x with pts := max x.pts b.xferStamp }).advance (.xwait a)) := by
  obtain ⟨m, hrun, hm⟩ := execXwait_finds hf hx hb ht
  rw [if_neg (ne_true_of_eq_false h), if_neg (fun e => hp (List.contains_iff_mem.1 e)), M.bind_ok (myself_apply s1),
    hfails] at hm
  exact hrun.trans (run_ok hl hm)

end

end

/-- Settles O37: each is `notFar`; then CADD, CADD.clr and CEXP write a counter within its range, CRD reads one, and XWAIT goes by
`execXwait_finds`. -/
theorem counters : Obligations.Counters := by
  unfold Obligations.Counters
  refine ⟨fun s c b n s1 u hl hf hn hcur hu => ?count, fun s d c u s2 hl hf hu hw => execCrd_reads hl hf hu hw,
    fun s a x s1 hl hf hx => ?xwait, fun s c b d a n hl hf => ?refused⟩
  case count =>
    exact ⟨fun he hlo hhi => execCadd_counts hl hf hn hcur hu he ((inRange_iff _).2 ⟨hlo, hhi⟩),
      fun h => execCadd_overflows hl hf hn hcur hu (h.imp_right inRange_eq_false),
      fun hlo hhi => execCaddClr_sets hl hf hn hcur hu ((inRange_iff _).2 ⟨hlo, hhi⟩),
      fun he hw hu0 hlo hhi h => execCexp_goesOn hl hf hn hcur hu0 hw he ((inRange_iff _).2 ⟨hlo, hhi⟩) h,
      fun he hw hu0 hlo h => execCexp_waits hl hf hn hcur hu0 hw he ((inRange_iff _).2 ⟨hlo, by omega⟩) h⟩
  case xwait =>
    intro b t
    have hbelow : ((t : Int) - b.xferNext) % 2 ^ 32 < 2 ^ 31 ↔ idBelow b.xferNext (t + 1) = true := by
      rw [idBelow_succ, decide_eq_true_iff]
    rw [hbelow, Bool.not_eq_true]
    exact ⟨execXwait_notIssued hl hf hx rfl rfl, execXwait_waits hl hf hx rfl rfl, execXwait_goesOn hl hf hx rfl rfl⟩
  case refused =>
    exact ⟨run_trap hl (M.bind_error (notFar_refused hf)), run_trap hl (M.bind_error (notFar_refused hf)),
      run_trap hl (M.bind_error (notFar_refused hf)), run_trap hl (M.bind_error (notFar_refused hf)),
      run_trap hl (M.bind_error (notFar_refused hf))⟩

end Sys2Proof.Machine
end

section
/-! CERTIFICATE. The issue of GET, PUT, GETT and PUTT (R149, R150, R172, R281-R284). -/
namespace Sys2Proof.Machine

/-! ## The id and the queue entry (R150, R282) -/

/-- A copy takes its id: the next one rises by 1, and those that are not done gain it. -/
def State.takeId (s : State) (k : Copy) : State :=
  s.modBank k.core k.bank fun b => { b with xferNext := (b.xferNext + 1) % 2 ^ 32, pending := b.pending ++ [k.id] }

/-- A copy that has its id takes its queue entry. -/
def State.enqueued (s : State) (k : Copy) : State := { s.takeId k with copies := s.copies ++ [k] }

theorem State.enqueued_bank (s : State) (k : Copy) :
    ((s.enqueued k).bank k.core k.bank).xferNext = ((s.bank k.core k.bank).xferNext + 1) % 2 ^ 32 ∧
      ((s.enqueued k).bank k.core k.bank).pending = (s.bank k.core k.bank).pending ++ [k.id] := by
  have hbank : (s.takeId k).bank k.core k.bank = _ := State.bank_modBank_self s k.core k.bank _
  exact ⟨(congrArg Bank.xferNext hbank :), (congrArg Bank.pending hbank :)⟩

theorem State.still_enqueued (s : State) (k : Copy) : still s (s.enqueued k) :=
  framing_still.2 s (s.takeId k) _ (still_modBank s _ _ _) (still_of_eq rfl rfl rfl rfl rfl)

section
variable {s : State} {k : Copy} (hr : s.me.refusing = false)
include hr

/-- A copy of a unit that is not cancelled, where replies do not come at once, waits in the queue. -/
theorem launchCopy_queues (hp : s.prompt = false) (hn : k.n ≠ 0) : launchCopy k s = .ok ((), s.enqueued k) := by
  unfold launchCopy
  rw [M.bind_ok (modS_apply _ s), M.bind_ok (modS_apply _ _), M.bind_ok (getS_apply _)]
  refine (congrFun (if_neg (ne_true_of_eq_false hr)) _).trans ((congrFun (if_neg hn) _).trans ?_)
  exact congrFun (if_neg (ne_true_of_eq_false hp)) _

/-- A copy of 0 bytes is done at once. -/
theorem launchCopy_empty (hn : k.n = 0) : launchCopy k s = .ok ((), (s.enqueued k).retireCopy k 0) := by
  unfold launchCopy
  rw [M.bind_ok (modS_apply _ s), M.bind_ok (modS_apply _ _), M.bind_ok (getS_apply _)]
  exact (congrFun (if_neg (ne_true_of_eq_false hr)) _).trans (congrFun (if_pos hn) _)

end

/-! ## A copy of which nothing more comes is done (R83, R150) -/

theorem State.still_raiseLaunch (s : State) (j : Nat) (id : Word) (tm : Nat) : still s (s.raiseLaunch j id tm) := by
  unfold State.raiseLaunch State.modJob
  split
  · exact framing_still.1 s
  · exact still_of_eq rfl rfl rfl rfl rfl

theorem State.raiseLaunch_bank (s : State) (j : Nat) (id : Word) (tm c b : Nat) : (s.raiseLaunch j id tm).bank c b = s.bank c b := by
  unfold State.bank State.core State.raiseLaunch
  rw [State.modJob_cores]

/-- In `t` the id of a copy is done, and the copy is gone. -/
structure State.CopyGone (s : State) (k : Copy) (t : State) : Prop where
  copies   : t.copies = s.copies.filter fun q => !q.isAt k.core k.bank k.id
  xferNext : (t.bank k.core k.bank).xferNext = (s.bank k.core k.bank).xferNext
  pending  : (t.bank k.core k.bank).pending = (s.bank k.core k.bank).pending.filter fun i => decide (i ≠ k.id)
  still    : still s t

theorem State.retireCopy_gone {k : Copy} (h : k.data = []) (s : State) (tm : Nat) : s.CopyGone k (s.retireCopy k tm) := by
  have hrest : k.rest.isEmpty = true := by
    unfold Copy.rest
    rw [h]
    rfl
  unfold State.retireCopy
  rw [if_pos hrest]
  extract_lets dropped old idDone noted left
  have hdone : Machine.still s idDone :=
    framing_still.2 s dropped _ (still_of_eq rfl rfl rfl rfl rfl) (still_modBank _ _ _ _)
  have hnoted : Machine.still idDone noted := framing_still.2 _ _ _ (State.still_raiseLaunch _ _ _ _)
    (still_modSlot _ _ _ fun _ => ⟨rfl, rfl, rfl, rfl⟩)
  have hleft : Machine.still noted left := still_modCore _ _ _ fun _ => rfl
  have hcopies : left.copies = dropped.copies := State.modJob_copies idDone _ _
  have hbank : left.bank k.core k.bank = idDone.bank k.core k.bank :=
    (State.bank_modCore _ _ _ _ rfl).trans (State.raiseLaunch_bank _ _ _ _ _ _)
  have hids : left.bank k.core k.bank = _ := hbank.trans (State.bank_modBank_self dropped _ _ _)
  have hgone : s.CopyGone k left := ⟨hcopies, (congrArg Bank.xferNext hids :), (congrArg Bank.pending hids :),
    framing_still.2 _ _ _ hdone (framing_still.2 _ _ _ hnoted hleft)⟩
  split
  · exact hgone
  · exact ⟨hgone.copies, hgone.xferNext, hgone.pending, framing_still.2 _ _ _ hgone.still (still_signal _ _ _ _)⟩

/-- What a copy of 0 bytes leaves: the next id has risen, and neither its id nor the copy stays. -/
theorem State.retireCopy_enqueued {k : Copy} (h : k.data = []) (s : State) :
    ((s.enqueued k).retireCopy k 0).copies = s.copies.filter (fun q => !q.isAt k.core k.bank k.id) ∧
    (((s.enqueued k).retireCopy k 0).bank k.core k.bank).xferNext = ((s.bank k.core k.bank).xferNext + 1) % 2 ^ 32 ∧
    (((s.enqueued k).retireCopy k 0).bank k.core k.bank).pending =
      (s.bank k.core k.bank).pending.filter (fun n => decide (n ≠ k.id)) ∧
    still s ((s.enqueued k).retireCopy k 0) := by
  have hgone := State.retireCopy_gone h (s.enqueued k) 0
  obtain ⟨hnext, hpending⟩ := s.enqueued_bank k
  have hqueue : (s.enqueued k).copies = s.copies ++ [k] := rfl
  refine ⟨?copies, hgone.xferNext.trans hnext, ?pending, framing_still.2 _ _ _ (s.still_enqueued k) hgone.still⟩
  case copies =>
    rw [hgone.copies, hqueue]
    simp [Copy.isAt]
  case pending =>
    rw [hgone.pending, hpending]
    simp

/-! ## GET and PUT (R281, R282) -/

/-- A copy whose far side is not its own core's window holds the bytes of its local side on the scoreboard (R81). -/
theorem Copy.hull_of_window {k : Copy} (h : k.window ≠ some k.core) : k.hull = (k.loc, k.n) :=
  if_neg fun e => h e.1

section
variable {s5 s6 s7 s8 : State} {o : CopyArgs} {put : Bool} {g l n prio : Nat} {k : Copy}
variable (hprio : copyPrio o.prio s5 = .ok (prio, s5)) (hnew : newCopy (if put then 1 else 0) g l n prio o.rc o.sc s5 = .ok (k, s6))
  (hboard : boardEnter k.id k.hull.1 k.hull.2 (!put || decide (k.window = some k.core)) s6 = .ok ((), s7))
  (hlaunch : launchCopy k (s7.modSlot s7.cur fun x => x.putG o.c.toNat (BitVec.ofNat 64 k.id)) = .ok ((), s8))
include hprio hnew hboard hlaunch

/-- What a GET or PUT does behind its checks. -/
theorem checked_copyOp_issues : (do
    let prio ← copyPrio o.prio
    let k ← newCopy (if put then 1 else 0) g l n prio o.rc o.sc
    boardEnter k.id k.hull.1 k.hull.2 (!put || decide (k.window = some k.core))
    writeG o.c (BitVec.ofNat 64 k.id)
    launchCopy k : M Unit) s5 = .ok ((), s8) := by
  rw [M.bind_ok hprio, M.bind_ok hnew, M.bind_ok hboard]
  exact hlaunch

theorem copyOp_issues {s s1 s2 s3 s4 : State} {h lo : Word} (hh : readSR 0 o.h s = .ok (h, s1)) (hlo : readSR 2 o.l s1 = .ok (lo, s2))
    (hg : h.toNat = g) (hl : lo.toNat = l) (hc : (s2.me.regs.readG o.c.toNat).toNat = n) (hn : n ≤ 0x400000)
    (hloc : checkLocal l n (!put) s2 = .ok ((), s3)) (hglob : checkGlobal g n put s3 = .ok ((), s4))
    (hrc : put = true → o.rc = none ∨ windowBase ≤ g) (hroom : copyRoom s4 = .ok ((), s5)) : copyOp o put s = .ok ((), s8) := by
  have hreceiver : (!put || o.rc.isNone || decide (windowBase ≤ g)) = true := by
    cases put with
    | false => rfl
    | true => simpa using hrc rfl
  have hread : readG o.c s2 = .ok (s2.me.regs.readG o.c.toNat, s2) := rfl
  unfold copyOp
  rw [M.bind_ok hh, M.bind_ok hlo, M.bind_ok hread]
  dsimp only
  rw [hg, hl, hc, decide_eq_true hn, ensure_true, M.bind_ok (M.pure_apply _ _), M.bind_ok hloc, M.bind_ok hglob, hreceiver, ensure_true,
    M.bind_ok (M.pure_apply _ _), M.bind_ok hroom]
  exact checked_copyOp_issues hprio hnew hboard hlaunch

end

/-! ## GETT and PUTT (R284) -/

section
variable {s5 s6 s7 s8 : State} {o : TCopyArgs} {put : Bool} {hn l T : Nat} {q : Region} {k : Copy}
variable (hroom : copyRoom s5 = .ok ((), s6)) (hcopy : tileCopyOf o hn l T q put s6 = .ok (k, s7))
  (hlaunch : launchCopy k (if o.id = 0 then s7 else s7.modSlot s7.cur fun x => x.putG o.id.toNat (BitVec.ofNat 64 k.id)) = .ok ((), s8))
include hroom hcopy hlaunch

/-- What a GETT or PUTT does behind its stamp. -/
theorem stamped_tileCopy_issues : (do
    copyRoom
    let k ← tileCopyOf o hn l T q put
    if o.id = 0 then pure () else writeG o.id (BitVec.ofNat 64 k.id)
    launchCopy k : M Unit) s5 = .ok ((), s8) := by
  rw [M.bind_ok hroom, M.bind_ok hcopy]
  by_cases hid : o.id = 0
  · rw [if_pos hid] at hlaunch ⊢
    exact hlaunch
  · rw [if_neg hid] at hlaunch ⊢
    exact hlaunch

theorem tileCopy_issues {s s1 s2 s3 s4 : State} {h y lo : Word} (hh : readSR 0 o.t.h s = .ok (h, s1)) (hy : readSR 1 o.t.c s1 = .ok (y, s2))
    (hlo : readSR 2 o.t.l s2 = .ok (lo, s3)) (hhn : handleIn h = hn) (hl : lo.toNat = l) (hq : regionOf y o.t.sh = q)
    (hchecks : unstamped (tileCopyChecks o hn l (tileCopyNeed put) q put) s3 = .ok ((), s4))
    (hstamp : if s4.me.refusing then (T, s5) = (0, s4)
      else stampHandle 0 hn hn (tileCopyNeed put) (if put then .writer else .reader) q.ext s4 = .ok (T, s5)) :
    tileCopy o put s = .ok ((), s8) := by
  unfold tileCopy
  rw [M.bind_ok hh, M.bind_ok hy, M.bind_ok hlo]
  dsimp only
  rw [hhn, hl, hq, M.bind_ok hchecks, M.bind_ok (myself_apply s4)]
  by_cases hr : s4.me.refusing = true
  · rw [if_pos hr] at hstamp ⊢
    obtain ⟨rfl, rfl⟩ := Prod.mk.inj hstamp
    exact (M.bind_ok (M.pure_apply _ _)).trans (stamped_tileCopy_issues hroom hcopy hlaunch)
  · rw [if_neg hr] at hstamp ⊢
    exact (M.bind_ok hstamp).trans (stamped_tileCopy_issues hroom hcopy hlaunch)

end

/-- Settles O42: `copyOp_issues` and `tileCopy_issues` run the parts of a copy one after another; the last of them, `launchCopy`, leaves
`enqueued`, and of a copy of 0 bytes what `retireCopy_enqueued` says. -/
theorem copiesIssue : Obligations.CopiesIssue := by
  unfold Obligations.CopiesIssue
  refine ⟨fun s o h s1 l s2 s3 s4 s5 k s6 s7 s8 hl hh hlo => ?plain, fun s o put h s1 y s2 l s3 s4 T s5 s6 k s7 s8 hl hh hy hlo => ?tile,
    fun s k hp hr hn => ⟨_, launchCopy_queues hr hp hn, rfl, ?ids⟩, fun s k hr hn hd => ⟨_, launchCopy_empty hr hn, ?empty⟩,
    fun s kind g l n prio rc sc => ⟨_, rfl, rfl, rfl, rfl, rfl, Copy.hull_of_window, rfl, rfl, rfl, rfl, rfl, rfl⟩⟩
  case plain =>
    intro n prio hn hroom
    have hprio : copyPrio o.prio s5 = .ok (prio s5, s5) := rfl
    constructor
    · intro hloc hglob hnew hboard hlaunch
      exact run_ok hl (copyOp_issues (put := false) hprio hnew hboard hlaunch hh hlo rfl rfl rfl hn hloc hglob nofun hroom)
    · intro hloc hglob hrc hnew hboard hlaunch
      exact run_ok hl (copyOp_issues (put := true) hprio hnew hboard hlaunch hh hlo rfl rfl rfl hn hloc hglob (fun _ => hrc) hroom)
  case tile =>
    intro hn q hchecks hstamp hroom hcopy hlaunch
    have hissues := tileCopy_issues hroom hcopy hlaunch hh hy hlo rfl rfl rfl hchecks hstamp
    cases put with
    | false => exact run_ok hl hissues
    | true => exact run_ok hl hissues
  case ids =>
    obtain ⟨hnext, hpending⟩ := s.enqueued_bank k
    exact ⟨hnext, hpending, s.still_enqueued k⟩
  case empty => exact s.retireCopy_enqueued hd

end Sys2Proof.Machine
end

section
/-! CERTIFICATE. MPIN, the words that it refuses, and the migration that a pin forbids (R174, R279). -/
namespace Sys2Proof.Dec

/-! ## Words of format I (R209, R215) -/

theorem partsI_packI (op : BitVec 8) (f : FI) : partsI (packI op f) = f := by
  obtain ⟨d, a, wa, ty, sub, imm⟩ := f
  simp only [partsI, packI, bits, bit, FI.mk.injEq]
  refine ⟨?_, ?_, ?_, ?_, ?_, ?_⟩ <;> grind

theorem bits_packI_op (op : BitVec 8) (f : FI) : bits (packI op f) 56 8 = op := by
  unfold packI bits
  grind

theorem bits_packI_opHigh (op : BitVec 8) (f : FI) : bits (packI op f) 60 4 = bits op 4 4 := by
  unfold packI bits
  grind

theorem bits_packI_opLow (op : BitVec 8) (f : FI) : bits (packI op f) 56 4 = bits op 0 4 := by
  unfold packI bits
  grind

/-- A word of format I that is neither a literal nor MOVX decodes by the row of its opcode, whatever word follows it. -/
theorem decode_packI (far : Bool) (op : BitVec 8) (f : FI) (next : Option Word) (hlit : bits op 4 4 ≠ 0xE) (hmovx : op ≠ 0x2E) :
    decode far (packI op f) next = row far 0 (packI op f) (bits op 4 4).toNat (bits op 0 4).toNat := by
  have hl : isLiteral (packI op f) = false := by
    rw [isLiteral, bits_packI_opHigh]
    exact beq_false_of_ne hlit
  have hm : isMovx (packI op f) = false := by
    rw [isMovx, bits_packI_op]
    exact beq_false_of_ne hmovx
  unfold decode
  rw [if_neg (ne_true_of_eq_false hl), if_neg (ne_true_of_eq_false hm), bits_packI_opHigh, bits_packI_opLow]

/-! ## The word of MPIN (R226, R279) -/

theorem decode_packI_mpin (far : Bool) (f : FI) (next : Option Word) : decode far (packI 0x6A f) next = rMpin f :=
  calc decode far (packI 0x6A f) next
    _ = row far 0 (packI 0x6A f) 6 10 := decode_packI far 0x6A f next (by decide) (by decide)
    _ = rMpin (partsI (packI 0x6A f)) := rfl
    _ = rMpin f := by rw [partsI_packI]

/-- With every reserved field zero, the immediate alone decides. -/
theorem rMpin_imm (v : BitVec 32) :
    rMpin { imm := v } = (need (v == 0 || v == 1) 5 0).bind fun _ => .ok (.mpin (v == 1)) := rfl

theorem rMpin_refuses {v : BitVec 32} (h0 : v ≠ 0) (h1 : v ≠ 1) : rMpin { imm := v } = .error (illegal 5 0) := by
  rw [rMpin_imm, beq_false_of_ne h0, beq_false_of_ne h1]
  rfl

end Sys2Proof.Dec

namespace Sys2Proof.Machine

/-! ## XSTAT.PIN (R174, R279) -/

/-- MPIN reads nothing and checks nothing. -/
theorem execMpin_completes {s : State} (hl : s.live) (on : Bool) :
    execMpin on s = .next ((s.modSlot s.cur fun x =>
      { x with sp := { x.sp with xstat := if on then x.sp.xstat ||| 2 else x.sp.xstat &&& ~~~2 } }).advance (.mpin on)) :=
  run_ok hl (modSp_apply _ s)

/-- PINNED is the first of the reasons of R174: no other one is looked at. -/
theorem migrate_pinned {α : Type} {s : State} (dest : Nat) (a : Int) (crew : Bool) (h : s.me.sp.xstat.getLsbD 1 = true) :
    (migrate dest a crew : M α) s = .error (.trap 0x0B (migrationValue 0 a)) := by
  unfold migrate
  rw [M.bind_ok (getS_apply s), if_pos h, trap_apply]

theorem migrationValue_pinned (a : Int) : migrationValue 0 a = BitVec.ofNat 64 (a % 2 ^ 56).toNat := by
  rw [migrationValue, Nat.zero_mul, Nat.zero_add]

/-- Settles O40: MPIN completes by `execMpin_completes`; its word decodes by `decode_packI_mpin`, where the immediate alone
decides, and a pin is what `migrate` asks first. -/
theorem pinning : Obligations.Pinning := by
  unfold Obligations.Pinning
  refine ⟨fun s hl => ⟨execMpin_completes hl true, execMpin_completes hl false⟩, fun v far n h0 h1 => ?refused,
    fun far n => ⟨Dec.decode_packI_mpin far _ n, Dec.decode_packI_mpin far _ n⟩, fun s dest a crew hpin => ?pinned⟩
  case refused => rw [Dec.decode_packI_mpin, Dec.rMpin_refuses h0 h1]
  case pinned => rw [migrate_pinned dest a crew hpin, migrationValue_pinned]

end Sys2Proof.Machine
end

section
/-! CERTIFICATE. Accumulator slots: what leaves them as they are, reading one after a change, and the elements after a block of new ones
(R320, R327). -/
namespace Sys2Proof.Machine

/-! ## What leaves every accumulator slot as it is -/

/-- No cluster changes, and the same slot issues: `State.acc` reads nothing else. -/
def State.SameAccs (s u : State) : Prop := u.cur = s.cur ∧ u.clusters = s.clusters

section
variable {s u : State}

theorem State.SameAccs.refl (s : State) : s.SameAccs s := ⟨rfl, rfl⟩

theorem State.SameAccs.trans {v : State} (h : s.SameAccs u) (h' : u.SameAccs v) : s.SameAccs v :=
  ⟨h'.1.trans h.1, h'.2.trans h.2⟩

theorem State.SameAccs.acc (h : s.SameAccs u) (l : Nat) : u.acc l = s.acc l := by
  obtain ⟨hcur, hclusters⟩ := h
  unfold State.acc State.cluster
  rw [hcur, hclusters]

theorem State.SameAccs.ite {p : Prop} [Decidable p] {a b : State} (h : s.SameAccs a) (h' : s.SameAccs b) :
    s.SameAccs (if p then a else b) := by
  split
  · exact h
  · exact h'

theorem State.SameAccs.foldl {α : Type} {f : State → α → State} {l : List α} (h : s.SameAccs u)
    (hf : ∀ (v : State) (x : α), s.SameAccs v → s.SameAccs (f v x)) : s.SameAccs (l.foldl f u) :=
  List.foldlRecOn (motive := fun v : State => s.SameAccs v) l f h fun v hv x _ => hf v x hv

theorem State.SameAccs.modJob {j : Nat} {f : Job → Job} (h : s.SameAccs u) : s.SameAccs (u.modJob j f) :=
  h.trans ⟨u.modJob_cur j f, u.modJob_clusters j f⟩

theorem State.SameAccs.modTensor {j i : Nat} {f : Tensor → Tensor} (h : s.SameAccs u) : s.SameAccs (u.modTensor j i f) := h.modJob

theorem State.SameAccs.orient {q : Nat} (h : s.SameAccs u) : s.SameAccs (u.orient q) := .ite h h

theorem State.SameAccs.disorient {q : Nat} (h : s.SameAccs u) : s.SameAccs (u.disorient q) := .ite h h

theorem State.SameAccs.remark {old new : Tensor} (h : s.SameAccs u) : s.SameAccs (u.remark old new) :=
  .foldl (.foldl h fun _ _ h => h.disorient) fun _ _ h => h.orient

theorem State.SameAccs.dropLeaves {d j va n : Nat} (h : s.SameAccs u) : s.SameAccs (u.dropLeaves d j va n) := h

theorem State.SameAccs.dropAll {j va n : Nat} (h : s.SameAccs u) : s.SameAccs (u.dropAll j va n) := .foldl h fun _ _ h => h.dropLeaves

theorem State.SameAccs.releaseErrors (h : s.SameAccs u) : s.SameAccs u.releaseErrors := h

theorem State.SameAccs.takeEffect {j : Nat} {w : Shoot} (h : s.SameAccs u) : s.SameAccs (u.takeEffect j w) := by
  have hmove : s.SameAccs (w.move.foldl (fun (v : State) m => v.moveBytes m.1 m.2.1 m.2.2) u) := h.foldl fun _ _ h => h
  have hdrop (v : State) (hv : s.SameAccs v) : s.SameAccs ((v.dropAll j w.va w.size).modJob j fun x => { x with shoot := none }) :=
    hv.dropAll.modJob
  unfold State.takeEffect
  dsimp only
  split
  · exact .releaseErrors (hdrop _ hmove)
  · exact .releaseErrors (hdrop _ hmove)

theorem State.SameAccs.endShoot {j : Nat} (h : s.SameAccs u) : s.SameAccs (u.endShoot j) := by
  unfold State.endShoot
  split
  · exact h
  · exact .ite h.takeEffect h

theorem State.SameAccs.ackShoot {d j : Nat} (h : s.SameAccs u) : s.SameAccs (u.ackShoot d j) := by
  unfold State.ackShoot
  split
  · exact h
  · exact .ite h h.dropLeaves.modJob

theorem State.SameAccs.changeMap {j : Nat} {w : Shoot} (h : s.SameAccs u) : s.SameAccs (u.changeMap j w) :=
  .ite (.endShoot (.foldl h.modJob fun _ _ h => h.ackShoot)) h.modJob

theorem State.SameAccs.settleIf {j i : Nat} (h : s.SameAccs u) : s.SameAccs (u.settleIf j i) :=
  .ite (.ite h (.ite (.changeMap h.modTensor.remark) h.modTensor.remark)) h

end

/-! ## Reading an accumulator slot after a change -/

/-- A new accumulator slot of the issuing slot's cluster. -/
def State.withAcc (s : State) (l : Nat) (a : Acc) : State :=
  s.modCluster (clusterOf (coreOf s.cur)) fun k => { k with acc := k.acc.set Acc.dflt l a }

theorem modAcc_apply (l : Nat) (f : Acc → Acc) (s : State) : modAcc l f s = .ok ((), s.withAcc l (f (s.acc l))) := rfl

theorem State.acc_withAcc (s : State) (l : Nat) (a : Acc) : (s.withAcc l a).acc l = a := by
  have hcluster : (s.withAcc l a).cluster (clusterOf (coreOf s.cur)) =
      { s.cluster (clusterOf (coreOf s.cur)) with acc := (s.cluster (clusterOf (coreOf s.cur))).acc.set Acc.dflt l a } :=
    SMap.get_set_self _ _ _ _
  have hacc : (s.withAcc l a).acc l = ((s.withAcc l a).cluster (clusterOf (coreOf s.cur))).acc.get Acc.dflt l := rfl
  rw [hacc, hcluster]
  exact SMap.get_set_self _ _ _ _

/-! ## A block of new elements -/

/-- The elements `f i j` of `mm` rows of `nn`, by their places in an accumulator slot. -/
def accBlock (mm nn : Nat) (f : Nat → Nat → Nat) : List (Nat × Nat) :=
  (List.range mm).flatMap fun i => (List.range nn).map fun j => (128 * i + j, f i j)

section
variable {mm nn : Nat} (f : Nat → Nat → Nat)

theorem mem_accBlock {e : Nat × Nat} : e ∈ accBlock mm nn f ↔ ∃ i < mm, ∃ j < nn, (128 * i + j, f i j) = e := by
  simp [accBlock]

/-- Rows of at most 128 columns do not overlap. -/
theorem accBlock_rising (hn : nn ≤ 128) : ((accBlock mm nn f).map Prod.fst).Pairwise (· < ·) := by
  rw [List.pairwise_map, accBlock, List.pairwise_flatMap]
  refine ⟨fun i _ => ?row, List.pairwise_lt_range.imp fun {i k} hik => ?rows⟩
  case row =>
    rw [List.pairwise_map]
    exact List.pairwise_lt_range.imp fun hjk => Nat.add_lt_add_left hjk _
  case rows =>
    intro x hx y hy
    obtain ⟨j, hj, rfl⟩ := List.mem_map.1 hx
    obtain ⟨j', -, rfl⟩ := List.mem_map.1 hy
    have hj := List.mem_range.1 hj
    dsimp only
    omega

theorem mem_keys_accBlock (hn : nn ≤ 128) {i j : Nat} (hj : j < 128) :
    128 * i + j ∈ (accBlock mm nn f).map Prod.fst ↔ i < mm ∧ j < nn := by
  constructor
  · intro h
    obtain ⟨e, he, hkey⟩ := List.mem_map.1 h
    obtain ⟨i', hi', j', hj', rfl⟩ := (mem_accBlock f).1 he
    dsimp only at hkey
    omega
  · rintro ⟨hi, hj'⟩
    exact List.mem_map_of_mem ((mem_accBlock f).2 ⟨i, hi, j, hj', rfl⟩)

end

section
variable {es : List (Nat × Nat)}

/-- The listed ones of some new elements: an element +0 is not listed. -/
def accListed (es : List (Nat × Nat)) : SMap (BitVec 32) :=
  (es.map fun e => (e.1, BitVec.ofNat 32 e.2)).filter fun e => decide (e.2 ≠ 0)

theorem accListed_keys_sublist (es : List (Nat × Nat)) : ((accListed es).map Prod.fst).Sublist (es.map Prod.fst) := by
  have hkeys : (es.map fun e => (e.1, BitVec.ofNat 32 e.2)).map Prod.fst = es.map Prod.fst := by
    rw [List.map_map]
    rfl
  rw [← hkeys]
  exact List.filter_sublist.map _

variable (h : (es.map Prod.fst).Pairwise (· < ·)) {a : Acc} {mm nn : Nat}
include h

theorem accListed_rising : ((accListed es).map Prod.fst).Pairwise (· < ·) := h.sublist (accListed_keys_sublist es)

/-- A listed new element has the value that was put. -/
theorem accListed_value {e : Nat × BitVec 32} (he : e ∈ accListed es) {x : Nat} (hx : (e.1, x) ∈ es) : e.2 = BitVec.ofNat 32 x := by
  obtain ⟨q, hq, rfl⟩ := List.mem_map.1 (List.mem_filter.1 he).1
  have hqx : q.2 = x := (SMap.get_of_mem 0 h hq).symm.trans (SMap.get_of_mem 0 h hx)
  rw [← hqx]

/-- A new element of the rows and columns that are replaced. -/
theorem Acc.elem_put_in {i j x : Nat} (hj : j < 128) (hi : i < mm) (hjn : j < nn) (hx : (128 * i + j, x) ∈ es) :
    (a.put mm nn es).elem i j = x % 2 ^ 32 := by
  have hget : (a.put mm nn es).data.get 0 (128 * i + j) = BitVec.ofNat 32 x := by
    by_cases hkey : 128 * i + j ∈ (accListed es).map Prod.fst
    · obtain ⟨e, he, hk⟩ := List.mem_map.1 hkey
      refine (SMap.get_union_mem (accListed_rising h) hkey).trans ?_
      rw [← hk] at hx ⊢
      rw [SMap.get_of_mem 0 (accListed_rising h) he, accListed_value h he hx]
    · have hzero : BitVec.ofNat 32 x = 0 := by
        by_contra hne
        have hin : (128 * i + j, BitVec.ofNat 32 x) ∈ accListed es :=
          List.mem_filter.2 ⟨List.mem_map.2 ⟨_, hx, rfl⟩, by simpa using hne⟩
        exact hkey (List.mem_map_of_mem hin)
      refine (SMap.get_union_other (accListed_rising h) hkey).trans ?_
      have hdropped : (decide (mm ≤ (128 * i + j) / 128) || decide (nn ≤ (128 * i + j) % 128)) = false := by
        rw [Bool.or_eq_false_iff, decide_eq_false_iff_not, decide_eq_false_iff_not]
        omega
      rw [SMap.get_filter 0 fun k => decide (mm ≤ k / 128) || decide (nn ≤ k % 128), hdropped, hzero]
      rfl
  rw [Acc.elem, hget, BitVec.toNat_ofNat]

/-- An element outside the rows and columns that are replaced stays. -/
theorem Acc.elem_put_out {i j : Nat} (hj : j < 128) (hij : ¬ (i < mm ∧ j < nn)) (hkey : 128 * i + j ∉ es.map Prod.fst) :
    (a.put mm nn es).elem i j = a.elem i j := by
  have hkept : (decide (mm ≤ (128 * i + j) / 128) || decide (nn ≤ (128 * i + j) % 128)) = true := by
    rw [Bool.or_eq_true, decide_eq_true_eq, decide_eq_true_eq]
    omega
  have hget : (a.put mm nn es).data.get 0 (128 * i + j) = a.data.get 0 (128 * i + j) := by
    refine (SMap.get_union_other (accListed_rising h) fun hin => hkey ((accListed_keys_sublist es).subset hin)).trans ?_
    rw [SMap.get_filter 0 fun k => decide (mm ≤ k / 128) || decide (nn ≤ k % 128), hkept]
    rfl
  rw [Acc.elem, Acc.elem, hget]

end

/-- The elements after a block of new ones. -/
theorem Acc.elem_put_accBlock {nn : Nat} (hn : nn ≤ 128) (a : Acc) (mm : Nat) (f : Nat → Nat → Nat) {j : Nat} (hj : j < 128) (i : Nat) :
    (a.put mm nn (accBlock mm nn f)).elem i j = if i < mm ∧ j < nn then f i j % 2 ^ 32 else a.elem i j := by
  have hrising := accBlock_rising (mm := mm) f hn
  by_cases h : i < mm ∧ j < nn
  · rw [if_pos h]
    exact Acc.elem_put_in hrising hj h.1 h.2 ((mem_accBlock f).2 ⟨i, h.1, j, h.2, rfl⟩)
  · rw [if_neg h]
    exact Acc.elem_put_out hrising hj h (mt (mem_keys_accBlock f hn hj).1 h)

end Sys2Proof.Machine
end

section
/-! CERTIFICATE. The multiply family: which slots may issue it, one K group, the steps of a multiply in their order, and its end
(R201, R202, R319, R320, R326-R331). -/
namespace Sys2Proof.Machine

/-! ## Who may issue a matrix instruction (R319) -/

theorem matrixSlot_ok {s : State} (hloc : isLocal s.cur = true) (hno : slotNo s.cur ≠ 0) : matrixSlot s = .ok ((), s) := by
  unfold matrixSlot
  rw [M.bind_ok (getS_apply s), hloc, decide_eq_true hno]
  rfl

theorem matrixSlot_traps {s : State} (h : isLocal s.cur = false ∨ slotNo s.cur = 0) :
    matrixSlot s = .error (.trap 1 (BitVec.ofNat 64 (56 * 256 + 8))) := by
  have hbad : (isLocal s.cur && decide (slotNo s.cur ≠ 0)) = false := by
    rcases h with h | h
    · rw [h, Bool.false_and]
    · rw [decide_eq_false (not_not.2 h), Bool.and_false]
  unfold matrixSlot
  rw [M.bind_ok (getS_apply s), hbad]
  rfl

/-- A matrix instruction that another slot issues takes the trap. -/
theorem run_matrixSlot_refused {s : State} (hl : s.live) (h : isLocal s.cur = false ∨ slotNo s.cur = 0) (i : Instr) (m : Unit → M Unit) :
    run i (matrixSlot >>= m) s = .next (s.trapMe 1 (BitVec.ofNat 64 (56 * 256 + 8))) :=
  run_trap hl (M.bind_error (matrixSlot_traps h))

/-! ## The instructions are their multiplies (R326, R329, R330) -/

/-- The left operand of MMAT: a handle, or a cluster address in its half of the register (R326). -/
def mmatA (s : State) (o : MmatArgs) (sa : Nat) : Operand :=
  let h := (s.me.regs.readG o.h.toNat).toNat
  match o.af with
  | none => handleOp true o.ta (fieldN h 0 32) (crdOf (s.me.regs.readG o.c.toNat))
  | some f => padOperand true o.ta f (fieldN h 0 27) sa

/-- The right operand of MMAT. -/
def mmatB (s : State) (o : MmatArgs) (sb : Nat) : Operand :=
  let h := (s.me.regs.readG o.h.toNat).toNat
  match o.bf with
  | none => handleOp false o.tb (fieldN h 32 32) (crdOf (s.me.regs.readG (o.c + 1).toNat))
  | some f => padOperand false o.tb f (fieldN h 32 27) sb

section
variable {s : State} (hl : s.live) (hloc : isLocal s.cur = true) (hno : slotNo s.cur ≠ 0)
include hl hloc hno

/-- A matrix instruction that a slot 1-15 issues and whose rest succeeds. -/
theorem run_matrixSlot_ok {i : Instr} {m : Unit → M Unit} {t : State} (h : m () s = .ok ((), t)) :
    run i (matrixSlot >>= m) s = .next (t.advance i) :=
  run_ok hl ((M.bind_ok (matrixSlot_ok hloc hno)).trans h)

theorem execMma_ok {o : MmaArgs} {h c : Word} {sa sb : Nat} {s1 s2 s3 s4 : State} (hh : readSR 0 o.h s = .ok (h, s1))
    (hc : readSR 1 o.c s1 = .ok (c, s2)) (hst : strides o.n s2 = .ok ((sa, sb), s3))
    (hm : multiply o.l.toNat o.sh (padOperand true o.ta o.af h.toNat sa) (padOperand false o.tb o.bf c.toNat sb) false s3 = .ok ((), s4)) :
    exec (.mma o) s = .next (s4.advance (.mma o)) := by
  refine run_matrixSlot_ok hl hloc hno ?_
  rw [M.bind_ok hh, M.bind_ok hc, M.bind_ok hst]
  exact hm

theorem execMmat_ok {o : MmatArgs} {sa sb : Nat} {s4 : State} (hst : strides o.n s = .ok ((sa, sb), s))
    (hm : multiply o.l.toNat o.sh (mmatA s o sa) (mmatB s o sb) false s = .ok ((), s4)) :
    exec (.mmat o) s = .next (s4.advance (.mmat o)) := by
  have hread (n : BitVec 5) : readG n s = .ok (s.me.regs.readG n.toNat, s) := rfl
  refine run_matrixSlot_ok hl hloc hno ?_
  rw [M.bind_ok (hread o.h), M.bind_ok (hread o.c), M.bind_ok (hread (o.c + 1)), M.bind_ok hst]
  exact hm

theorem execMmag_ok {o : MmagArgs} {x y : Row} {s1 s2 s4 : State} (hx : keepRow 100 (readV o.vi) s = .ok (x, s1))
    (hy : keepRow 101 (readV (o.vi + 1)) s1 = .ok (y, s2))
    (hm : multiply o.l.toNat o.sh
      { handleOp true false (fieldN (s.me.regs.readG o.h.toNat).toNat 0 32) (crdOf (s.me.regs.readG o.n.toNat)) with
        idx := some ((elems 32 x ++ elems 32 y).take (edgeOf o.sh.m)) }
      (padOperand false false o.bf (fieldN (s.me.regs.readG o.h.toNat).toNat 32 32) 0) false s2 = .ok ((), s4)) :
    exec (.mmag o) s = .next (s4.advance (.mmag o)) := by
  have hread (n : BitVec 5) : readG n s = .ok (s.me.regs.readG n.toNat, s) := rfl
  refine run_matrixSlot_ok hl hloc hno ?_
  rw [M.bind_ok (hread o.h), M.bind_ok (hread o.n), M.bind_ok hx, M.bind_ok hy]
  exact hm

theorem execMmas_ok {h c : BitVec 5} {l : BitVec 4} {sh : MShape} {s4 : State}
    (hm : multiply l.toNat sh (handleOp true false (fieldN (s.me.regs.readG h.toNat).toNat 0 32) (crdOf (s.me.regs.readG c.toNat)))
      (handleOp false false (fieldN (s.me.regs.readG h.toNat).toNat 32 32) (crdOf (s.me.regs.readG (c + 1).toNat))) true s = .ok ((), s4)) :
    exec (.mmas h c l sh) s = .next (s4.advance (.mmas h c l sh)) := by
  have hread (n : BitVec 5) : readG n s = .ok (s.me.regs.readG n.toNat, s) := rfl
  refine run_matrixSlot_ok hl hloc hno ?_
  rw [M.bind_ok (hread h), M.bind_ok (hread c), M.bind_ok (hread (c + 1))]
  exact hm

end

/-! ## One K group (R201, R202) -/

/-- For integers, the exact sum of the products, wrapped. -/
theorem groupOut_int (old n : Nat) (a b : OpRow) : groupOut true old n a b =
    ((sintOf 32 old + ((a.1.zip b.1).map fun (e : FV × FV) => e.1.int * e.2.int).sum) % 2 ^ 32).toNat := by
  rw [groupOut, if_pos rfl, codeOf, List.sum_eq_foldl]

/-- The sum that a K group puts at each element. -/
def groupAt (s : State) (l : Nat) (ints : Bool) (as bs : List OpRow) (i j : Nat) : Nat :=
  groupOut ints ((s.acc l).elem i j) (s.frees + 128 * i + j) (as.getD i ([], none)) (bs.getD j ([], none))

/-- A K group changes its accumulator slot, and at most the number of free values drawn. -/
theorem mmStep_spec (l mm nn : Nat) (ints : Bool) (as bs : List OpRow) (s : State) :
    ∃ t : State, mmStep l mm nn ints as bs s = .ok ((), t) ∧ still s t ∧
      t.acc l = (s.acc l).put mm nn (accBlock mm nn (groupAt s l ints as bs)) := by
  unfold mmStep
  rw [M.bind_ok (getS_apply s), M.bind_ok (modAcc_apply l _ s)]
  split
  · exact ⟨_, rfl, still_modCluster s _ _, s.acc_withAcc l _⟩
  · exact ⟨_, rfl, still_of_eq rfl rfl rfl rfl rfl, s.acc_withAcc l _⟩

/-! ## The end of a multiply (R320, R325, R331) -/

theorem operandRetire_spec (o : Operand) (T : Nat) (s : State) : ∃ t, operandRetire o T s = .ok ((), t) ∧ s.SameAccs t := by
  unfold operandRetire
  cases o.handle with
  | none => exact ⟨s, rfl, .refl s⟩
  | some h => exact ⟨_, rfl, .settleIf (.modTensor (.refl s))⟩

theorem padStamps_spec (os : List Operand) (s : State) : ∃ t, padStamps os s = .ok ((), t) ∧ s.SameAccs t :=
  ⟨_, rfl, .foldl ⟨rfl, rfl⟩ fun _ _ h => h⟩

theorem mmClose_spec (l : Nat) (sh : MShape) (a b : Operand) (Ta Tb : Nat) (s : State) :
    ∃ t : State, mmClose l sh a b Ta Tb s = .ok ((), t) ∧ (t.acc l).ext = some (grown (s.acc l).ext sh.m sh.n) := by
  obtain ⟨u, hA, hu⟩ := operandRetire_spec a Ta (s.withAcc l { s.acc l with ext := some (grown (s.acc l).ext sh.m sh.n) })
  obtain ⟨v, hB, hv⟩ := operandRetire_spec b Tb u
  obtain ⟨t, hstamps, ht⟩ := padStamps_spec [a, b] v
  refine ⟨t, ?_, ?_⟩
  · unfold mmClose
    rw [M.bind_ok (modAcc_apply l _ s), M.bind_ok hA, M.bind_ok hB, hstamps]
  · rw [((hu.trans hv).trans ht).acc, State.acc_withAcc]

/-! ## The steps of a multiply in their order (R327, R331) -/

/-- The steps count through PROGIDX; after the last one it is 0. -/
theorem mmGroups_progidx {l mm nn G : Nat} {ints : Bool} {a b : Operand} {Ta Tb : Nat} {s t : State}
    (h : mmGroups l mm nn G ints a b Ta Tb s = .ok ((), t)) : (t.slot t.cur).sp.progidx = 0 := by
  obtain ⟨x, u, -, hloop⟩ := M.bind_eq_ok.1 h
  obtain ⟨-, v, -, hend⟩ := M.bind_eq_ok.1 hloop
  obtain rfl : v.modSlot v.cur (fun x => { x with sp := { x.sp with progidx := BitVec.ofNat 64 0 } }) = t :=
    congrArg Prod.snd (Except.ok.inj hend)
  rw [State.modSlot_cur, State.modSlot_slot_self]
  rfl

theorem checkProg_ok {s : State} {n : Nat} (h : s.me.sp.progidx.toNat < n) : checkProg n s = .ok ((), s) := by
  unfold checkProg
  rw [M.bind_ok (myself_apply s), decide_eq_true h]
  rfl

/-- Where every step before it succeeds, a multiply is its end. -/
theorem multiply_eq_mmClose {s s1 s2 s3 s4 s5 s6 : State} {l : Nat} {sh : MShape} {a b a' b' : Operand} {sp fresh ints : Bool} {Ta Tb : Nat}
    (hprog : s.me.sp.progidx.toNat < sh.kg.toNat + 1) (hopen : openAcc l false s = .ok (fresh, s1))
    (hpair : mmPair (edgeOf sh.m) (32 * (sh.kg.toNat + 1)) a b sp s1 = .ok ((a', b', ints), s2)) (hkind : mmKind l fresh ints s2 = .ok ((), s3))
    (hpads : mmPads (edgeOf sh.m) (edgeOf sh.n) (32 * (sh.kg.toNat + 1)) a' b' s3 = .ok ((), s4))
    (hstamps : mmStamps (edgeOf sh.m) (edgeOf sh.n) (32 * (sh.kg.toNat + 1)) (needOfA a sp) (needOf b sp false) a' b' s4 = .ok ((Ta, Tb), s5))
    (hgroups : mmGroups l (edgeOf sh.m) (edgeOf sh.n) (sh.kg.toNat + 1) ints a' b' Ta Tb s5 = .ok ((), s6)) :
    multiply l sh a b sp s = mmClose l sh a' b' Ta Tb s6 := by
  unfold multiply
  rw [M.bind_ok (checkProg_ok hprog), M.bind_ok hopen, M.bind_ok hpair]
  dsimp only
  rw [M.bind_ok hkind, M.bind_ok hpads, M.bind_ok hstamps]
  dsimp only
  rw [M.bind_ok hgroups]

/-- Settles O47: each instruction is its multiply (`execMma_ok` and the three like it), a multiply whose steps succeed is its end
(`multiply_eq_mmClose`), and a K group puts a block of sums into its slot (`mmStep_spec`), whose elements `Acc.elem_put_accBlock` gives. -/
theorem matrixMultiply : Obligations.MatrixMultiply := by
  unfold Obligations.MatrixMultiply
  refine ⟨fun s hl hloc hno => ⟨?mma, ?mmat, ?mmag, ?mmas⟩, ?steps, ?group, groupOut_int, ?refused⟩
  case mma => exact fun o h s1 c s2 sa sb s3 s4 hh hc hst hm => execMma_ok hl hloc hno hh hc hst hm
  case mmat => exact fun o sa sb s4 hst hm => execMmat_ok hl hloc hno hst hm
  case mmag => exact fun o x s1 y s2 s4 hx hy hm => execMmag_ok hl hloc hno hx hy hm
  case mmas => exact fun h c l sh s4 hm => execMmas_ok hl hloc hno hm
  case steps =>
    intro s l sh a b sp fresh s1 a' b' ints s2 s3 s4 Ta Tb s5 s6 mm nn G hprog hopen hpair hkind hpads hstamps hgroups
    refine ⟨mmGroups_progidx hgroups, ?_⟩
    rw [multiply_eq_mmClose hprog hopen hpair hkind hpads hstamps hgroups]
    exact mmClose_spec l sh a' b' Ta Tb s6
  case group =>
    intro s l mm nn ints as bs _ hn
    obtain ⟨t, hstep, ⟨⟨hmem, -⟩, hslots⟩, hacc⟩ := mmStep_spec l mm nn ints as bs s
    refine ⟨t, hstep, hmem, hslots, fun i j _ hj => ?_⟩
    rw [hacc, Acc.elem_put_accBlock hn _ _ _ hj]
    rfl
  case refused =>
    intro s o p q h c l sh hl hbad
    exact ⟨run_matrixSlot_refused hl hbad _ _, run_matrixSlot_refused hl hbad _ _, run_matrixSlot_refused hl hbad _ _,
      run_matrixSlot_refused hl hbad _ _⟩

end Sys2Proof.Machine
end

section
/-! SUPPORT. Words and their fields: which bits of a concatenation a field is, the fields of each format read back from a packed word, and the
row of the opcode map that decodes it (R209, R214-R218, R225). -/
namespace Sys2Proof.Dec

/-! ## Bits of a concatenation -/

@[simp] theorem bits_append_of_le {n m lo k : Nat} (x : BitVec n) (y : BitVec m) (h : m ≤ lo) :
    bits (@HAppend.hAppend (BitVec n) (BitVec m) (no_index (BitVec (n + m))) _ x y) lo k = bits x (lo - m) k := by
  unfold bits
  grind

@[simp] theorem bits_append_of_add_le {n m lo k : Nat} (x : BitVec n) (y : BitVec m) (h : lo + k ≤ m) :
    bits (@HAppend.hAppend (BitVec n) (BitVec m) (no_index (BitVec (n + m))) _ x y) lo k = bits y lo k := by
  unfold bits
  grind

@[simp] theorem bits_self {n : Nat} (x : BitVec n) : bits x 0 n = x := by
  unfold bits
  grind

@[simp] theorem bits_ofNat (n x lo k : Nat) : bits (BitVec.ofNat n x) lo k = BitVec.ofNat k (x % 2 ^ n / 2 ^ lo) := by
  apply BitVec.eq_of_toNat_eq
  simp [bits, Nat.shiftRight_eq_div_pow]

theorem bits_bits {n : Nat} (x : BitVec n) {lo k lo' k' : Nat} (h : lo' + k' ≤ k) : bits (bits x lo k) lo' k' = bits x (lo + lo') k' := by
  unfold bits
  grind

@[simp] theorem bit_append_of_le {n m i : Nat} (x : BitVec n) (y : BitVec m) (h : m ≤ i) :
    bit (@HAppend.hAppend (BitVec n) (BitVec m) (no_index (BitVec (n + m))) _ x y) i = bit x (i - m) := by
  unfold bit
  grind

@[simp] theorem bit_append_of_lt {n m i : Nat} (x : BitVec n) (y : BitVec m) (h : i < m) :
    bit (@HAppend.hAppend (BitVec n) (BitVec m) (no_index (BitVec (n + m))) _ x y) i = bit y i := by
  unfold bit
  grind

@[simp] theorem bit_ofBool (b : Bool) : bit (BitVec.ofBool b) 0 = b := by cases b <;> rfl

@[simp] theorem bit_ofNat (n x i : Nat) : bit (BitVec.ofNat n x) i = (decide (i < n) && decide (x / 2 ^ i % 2 = 1)) := by
  rw [bit, BitVec.getLsbD_ofNat, Nat.testBit_eq_decide_div_mod_eq]

/-! ## The fields of a packed word (R214-R218) -/

theorem partsA_packA (op : BitVec 8) (f : FA) : partsA (packA op f) = f := by simp [partsA, packA]
theorem partsM_packM (op : BitVec 8) (f : FM) : partsM (packM op f) = f := by simp [partsM, packM]
theorem partsB_packB (op : BitVec 8) (f : FB) : partsB (packB op f) = f := by simp [partsB, packB]
theorem partsT_packT (op : BitVec 8) (f : FT) : partsT (packT op f) = f := by simp [partsT, packT]

theorem bits_packA_op (op : BitVec 8) (f : FA) : bits (packA op f) 56 8 = op := by simp [packA]
theorem bits_packM_op (op : BitVec 8) (f : FM) : bits (packM op f) 56 8 = op := by simp [packM]
theorem bits_packB_op (op : BitVec 8) (f : FB) : bits (packB op f) 56 8 = op := by simp [packB]
theorem bits_packT_op (op : BitVec 8) (f : FT) : bits (packT op f) 56 8 = op := by simp [packT]

/-! ## The row of an opcode (R225) -/

/-- The row that the opcode `op` selects for a word of a local slot. -/
def opRow (op : BitVec 8) (w : Word) : R Instr := row false 0 w (bits op 4 4).toNat (bits op 0 4).toNat

/-- A word that is neither a literal nor MOVX decodes by the row of its opcode. -/
theorem decode_of_opcode {w : Word} {op : BitVec 8} (hw : bits w 56 8 = op) (hlit : bits op 4 4 ≠ 0xE) (hmovx : op ≠ 0x2E) (next : Option Word) :
    decode false w next = opRow op w := by
  have hhigh : bits w 60 4 = bits op 4 4 := by rw [← hw, bits_bits w (by decide)]
  have hlow : bits w 56 4 = bits op 0 4 := by rw [← hw, bits_bits w (by decide)]
  have hl : isLiteral w = false := by rw [isLiteral, hhigh, beq_false_of_ne hlit]
  have hm : isMovx w = false := by rw [isMovx, hw, beq_false_of_ne hmovx]
  unfold decode
  rw [if_neg (ne_true_of_eq_false hl), if_neg (ne_true_of_eq_false hm), hhigh, hlow]
  rfl

section
variable {op : BitVec 8} {i : Instr} {w : Word} {rest : List Word}

/-- An encoded word of format A decodes to its instruction where the row of its opcode reads it from the fields. -/
theorem decode_encoded_A {f : FA} {r : FA → R Instr} (henc : [packA op f] = w :: rest) (hrow : r f = .ok i)
    (hop : ∀ v, opRow op v = r (partsA v)) (hlit : bits op 4 4 ≠ 0xE := by decide) (hmovx : op ≠ 0x2E := by decide) :
    decode false w rest.head? = .ok i := by
  obtain ⟨rfl, rfl⟩ := List.cons.inj henc
  rw [decode_of_opcode (bits_packA_op op f) hlit hmovx, hop, partsA_packA, hrow]

theorem decode_encoded_I {f : FI} {r : FI → R Instr} (henc : [packI op f] = w :: rest) (hrow : r f = .ok i)
    (hop : ∀ v, opRow op v = r (partsI v)) (hlit : bits op 4 4 ≠ 0xE := by decide) (hmovx : op ≠ 0x2E := by decide) :
    decode false w rest.head? = .ok i := by
  obtain ⟨rfl, rfl⟩ := List.cons.inj henc
  rw [decode_of_opcode (bits_packI_op op f) hlit hmovx, hop, partsI_packI, hrow]

theorem decode_encoded_M {f : FM} {r : FM → R Instr} (henc : [packM op f] = w :: rest) (hrow : r f = .ok i)
    (hop : ∀ v, opRow op v = r (partsM v)) (hlit : bits op 4 4 ≠ 0xE := by decide) (hmovx : op ≠ 0x2E := by decide) :
    decode false w rest.head? = .ok i := by
  obtain ⟨rfl, rfl⟩ := List.cons.inj henc
  rw [decode_of_opcode (bits_packM_op op f) hlit hmovx, hop, partsM_packM, hrow]

theorem decode_encoded_B {f : FB} {r : FB → R Instr} (henc : [packB op f] = w :: rest) (hrow : r f = .ok i)
    (hop : ∀ v, opRow op v = r (partsB v)) (hlit : bits op 4 4 ≠ 0xE := by decide) (hmovx : op ≠ 0x2E := by decide) :
    decode false w rest.head? = .ok i := by
  obtain ⟨rfl, rfl⟩ := List.cons.inj henc
  rw [decode_of_opcode (bits_packB_op op f) hlit hmovx, hop, partsB_packB, hrow]

theorem decode_encoded_T {f : FT} {r : FT → R Instr} (henc : [packT op f] = w :: rest) (hrow : r f = .ok i)
    (hop : ∀ v, opRow op v = r (partsT v)) (hlit : bits op 4 4 ≠ 0xE := by decide) (hmovx : op ≠ 0x2E := by decide) :
    decode false w rest.head? = .ok i := by
  obtain ⟨rfl, rfl⟩ := List.cons.inj henc
  rw [decode_of_opcode (bits_packT_op op f) hlit hmovx, hop, partsT_packT, hrow]

end

end Sys2Proof.Dec
end

section
/-! SUPPORT. Specifiers and modifier fields read back, and the checks that an encoded word passes (R197, R216-R224, R301, R305). -/
namespace Sys2Proof.Dec

/-! ## Checks that pass (R220, R221) -/

@[simp] theorem R.ok_bind {α β : Type} (x : α) (f : α → R β) : ((Except.ok x : R α) >>= f) = f x := rfl
@[simp] theorem need_true (sub field : Nat) : need true sub field = .ok () := rfl
@[simp] theorem zero_zero (n field : Nat) : zero (0#n) field = .ok () := by simp [zero]
@[simp] theorem zeroBit_false (field : Nat) : zeroBit false field = .ok () := rfl
@[simp] theorem cls_some {α : Type} (x : α) (field : Nat) : cls (some x) field = .ok x := rfl
@[simp] theorem modv_some {α : Type} (x : α) (field : Nat) : modv (some x) field = .ok x := rfl
@[simp] theorem shp_some {α : Type} (x : α) (reason : Nat) : shp (some x) reason = .ok x := rfl

/-! ## Register specifiers (R221, R222) -/

@[simp] theorem toSReg_ofSReg (d : SReg) : toSReg false (ofSReg d) = some d := by
  cases d with
  | g n => revert n; decide
  | s n => revert n; decide
  | m n => revert n; decide

/-- An unused field names g0. -/
@[simp] theorem toSReg_zero : toSReg false 0#8 = some (.g 0) := rfl

@[simp] theorem toSrc_ofSrc (a : Src) : toSrc false (ofSrc a) (wOf a) = some a := by
  cases a with
  | g n => revert n; decide
  | s n w => revert n w; decide
  | m n w => revert n w; decide
  | q n => revert n; decide

theorem toBase_ofSrc {a : Src} (h : WF.notQ a = true) : toBase false (ofSrc a) (wOf a) = some a := by
  unfold toBase
  rw [toSrc_ofSrc]
  cases a with
  | q n => cases h
  | g n => rfl
  | s n w => rfl
  | m n w => rfl

theorem wOf_of_noW {a : Src} (h : WF.noW a = true) : wOf a = false := by
  cases a with
  | g n => rfl
  | s n w => exact Bool.not_eq_true' w ▸ h
  | m n w => exact Bool.not_eq_true' w ▸ h
  | q n => rfl

@[simp] theorem toG_ofG (n : BitVec 5) : toG (ofG n) = some n := by revert n; decide
@[simp] theorem toGZ_ofG (n : BitVec 5) : toGZ (ofG n) = some n := toG_ofG n
theorem toG1_ofG {n : BitVec 5} (h : (n != 0) = true) : toG1 (ofG n) = some n := by revert n; decide
theorem toGE_ofG {n : BitVec 5} (h : WF.even n = true) : toGE (ofG n) = some n := by revert n; decide
@[simp] theorem toV_ofV (n : BitVec 4) : toV (ofV n) = some n := by revert n; decide
@[simp] theorem toK_ofK (n : BitVec 3) : toK (ofK n) = some n := by revert n; decide
@[simp] theorem toQ_ofQ (n : BitVec 3) : toQ (ofQ n) = some n := by revert n; decide
@[simp] theorem toA_ofA (n : BitVec 4) : toA (ofA n) = some n := by revert n; decide
@[simp] theorem toC_ofC (n : BitVec 5) : toC (ofC n) = some n := by revert n; decide

@[simp] theorem toCZ_ofCZ (n : Option (BitVec 5)) : toCZ (ofCZ n) = some n := by
  cases n with
  | none => rfl
  | some c => revert c; decide

theorem toSM_ofSReg {d : SReg} (h : ∀ n, d ≠ .g n) : toSM false (ofSReg d) = some d := by
  unfold toSM
  rw [toSReg_ofSReg]
  cases d with
  | g n => exact absurd rfl (h n)
  | s n => rfl
  | m n => rfl

/-! ## Synchronised reads (R118, R222) -/

@[simp] theorem syncOk_ofSrc (a : Src) : syncOk (ofSrc a) (wOf a) = true := by
  cases a with
  | g n => rfl
  | s n w => revert n w; decide
  | m n w => revert n w; decide
  | q n => rfl

@[simp] theorem syncOk_false (b : BitVec 8) : syncOk b false = true := rfl

@[simp] theorem syncA_ofSrc (a : Src) : syncA (ofSrc a) (wOf a) = .ok () := by simp [syncA]
@[simp] theorem syncA_false (b : BitVec 8) : syncA b false = .ok () := rfl

/-- The specifier and the W bit tell a source. -/
theorem ofSrc_inj {a b : Src} (hb : ofSrc a = ofSrc b) (hw : wOf a = wOf b) : a = b :=
  Option.some.inj (by rw [← toSrc_ofSrc a, ← toSrc_ofSrc b, hb, hw])

theorem noClash_self {a : Src} (h : wOf a = true) : WF.noClash a a = false := by
  cases a with
  | g n => cases h
  | q n => cases h
  | s n w => cases h; exact bne_self_eq_false n
  | m n w => cases h; exact bne_self_eq_false n

/-- Two sources that do not both take one register are not refused as synchronised reads of one (R118). -/
theorem specifiers_noClash {a b : Src} (h : WF.noClash a b = true) : (wOf a && wOf b && ofSrc a == ofSrc b) = false := by
  by_contra hclash
  simp only [Bool.not_eq_false, Bool.and_eq_true, beq_iff_eq] at hclash
  obtain ⟨⟨ha, hb⟩, hab⟩ := hclash
  obtain rfl := ofSrc_inj hab (ha.trans hb.symm)
  rw [noClash_self ha] at h
  cases h

end Sys2Proof.Dec
end

section
/-! CERTIFICATE. Scalar, transfer, memory, synchronisation and migration rows read back what the encoder wrote (R239-R288). -/
namespace Sys2Proof.Dec

/-! ## Modifier fields (R197, R216, R217, R223) -/

@[simp] theorem toCond_ofCond (c : Cond) : toCond (ofCond c) = some c := by cases c <;> rfl
@[simp] theorem toSize_ofSize (z : Size) : toSize (ofSize z) = some z := by cases z <;> rfl
theorem toStSize_ofSize {z : Size} (h : WF.stSize z = true) : toStSize (ofSize z) = some z := by
  revert h
  cases z <;> decide
@[simp] theorem toScope_ofScope (c : Scope) : toScope (ofScope c) = c := by cases c <;> rfl

theorem toPerm_ofPerm {p : Perm} (h : WF.perm p = true) : toPerm (ofPerm p) = some p := by
  cases p with
  | none => rfl
  | rot s d =>
    obtain ⟨hs, hd⟩ := Bool.and_eq_true_iff.1 h
    simp_all [toPerm, ofPerm, WF.segLog]
  | bfly s d =>
    obtain ⟨hs, hd⟩ := Bool.and_eq_true_iff.1 h
    simp_all [toPerm, ofPerm, WF.segLog]
  | bcast s d =>
    obtain ⟨hs, hd⟩ := Bool.and_eq_true_iff.1 h
    simp_all [toPerm, ofPerm, WF.segLog]

/-- The priority field of a copy: FN[11] says that FN[10:9] is one (R281). -/
@[simp] theorem prio_ePrio (p : Option (BitVec 2)) : (if bit (ePrio p) 2 = true then some (bits (ePrio p) 0 2) else none) = p := by
  cases p with
  | none => rfl
  | some x => revert x; decide

@[simp] theorem prio_reserved (p : Option (BitVec 2)) : (bit (ePrio p) 2 || bits (ePrio p) 0 2 == 0#2) = true := by
  cases p with
  | none => rfl
  | some x => revert x; decide

@[simp] theorem toTShape_ofTShape (s : TShape) : toTShape (ofTShape s) = s := by simp [toTShape, ofTShape]

@[simp] theorem toNat_zero_append {n m : Nat} (x : BitVec m) :
    (@HAppend.hAppend (BitVec n) (BitVec m) (no_index (BitVec (n + m))) _ (0#n) x).toNat = x.toNat := by
  simp [BitVec.toNat_append]

theorem toSrc_ofSrc_noW {a : Src} (h : WF.noW a = true) : toSrc false (ofSrc a) false = some a := by
  have hread := toSrc_ofSrc a
  rwa [wOf_of_noW h] at hread

/-- The fields of a memory word (R216). -/
def mFields (v : BitVec 8) (z : BitVec 3) (c : Scope) (p : MAddr) : FM :=
  { v := v, a := ofSrc p.base, wa := wOf p.base, sz := z, sp := p.glb, scope := ofScope c, keep := p.keep, off := p.off }

section
variable (v : BitVec 8) (z : BitVec 3) (c : Scope) (p : MAddr)

@[simp] theorem mFields_v : (mFields v z c p).v = v := rfl
@[simp] theorem mFields_a : (mFields v z c p).a = ofSrc p.base := rfl
@[simp] theorem mFields_wa : (mFields v z c p).wa = wOf p.base := rfl
@[simp] theorem mFields_sz : (mFields v z c p).sz = z := rfl
@[simp] theorem mFields_scope : (mFields v z c p).scope = ofScope c := rfl
@[simp] theorem mAddr_mFields : mAddr p.base (mFields v z c p) = p := rfl

end

theorem eM_eq_packM (op v : BitVec 8) (z : BitVec 3) (c : Scope) (p : MAddr) : eM op v z c p = packM op (mFields v z c p) := rfl

/-- The reserved fields of a memory word: the hint and a scope need global space (R260). -/
theorem mReserved_mFields {p : MAddr} {c : Scope} {st : Bool} (h : WF.maddr p = true) (hc : (c == .sys || (st && p.glb)) = true)
    (v : BitVec 8) (z : BitVec 3) : mReserved st (mFields v z c p) = .ok () := by
  have hkeep : (p.keep && !p.glb) = false := by
    have hhint : (p.glb || !p.keep) = true := (Bool.and_eq_true_iff.1 h).2
    rw [← Bool.not_eq_true', Bool.not_and, Bool.not_not, Bool.or_comm, hhint]
  have hscope : (ofScope c == 0 || (st && p.glb)) = true := by cases c <;> exact hc
  unfold mReserved mFields
  rw [hkeep, hscope]
  rfl

section
variable {d : SReg} {a b : Src}

/-! ## Scalar and address rows (R239-R249) -/

theorem rNone_reads (i : Instr) : rNone i {} = .ok i := rfl

theorem rR3_reads (mk : SReg → Src → Src → Instr) (h : WF.noClash a b = true) :
    rR3 mk false { d := ofSReg d, a := ofSrc a, wa := wOf a, b := ofSrc b, wb := wOf b } = .ok (mk d a b) := by
  simp [rR3, syncAB, specifiers_noClash h]

theorem rRI_reads (mk : SReg → Src → BitVec 32 → Instr) (x : BitVec 32) :
    rRI mk false { d := ofSReg d, a := ofSrc a, wa := wOf a, sub := 0, imm := x } = .ok (mk d a x) := by
  simp [rRI]

theorem rSlti_reads (x : BitVec 32) (uns : Bool) :
    rSlti false { d := ofSReg d, a := ofSrc a, wa := wOf a, sub := if uns then 1 else 0, imm := x } =
      .ok (if uns then .sltiN d a x else .slti d a x) := by
  cases uns <;> simp [rSlti]

theorem rSh_reads (mk : SReg → Src → BitVec 6 → Instr) (n : BitVec 6) :
    rSh mk false { d := ofSReg d, a := ofSrc a, wa := wOf a, sub := 0, imm := (0 : BitVec 26) ++ n } = .ok (mk d a n) := by
  simp [rSh]

theorem rR1_reads (mk : SReg → Src → Instr) : rR1 mk false { d := ofSReg d, a := ofSrc a, wa := wOf a } = .ok (mk d a) := by
  simp [rR1]

theorem rExt_reads (mk : SReg → Src → BitVec 7 → Instr) {w : BitVec 7} (h : 1 ≤ w.toNat ∧ w.toNat ≤ 64) :
    rExt mk false { d := ofSReg d, a := ofSrc a, wa := wOf a, sub := 0, imm := (0 : BitVec 25) ++ w } = .ok (mk d a w) := by
  simp [rExt, h]

theorem rBf_reads (mk : BitVec 4 → SReg → Src → BitVec 6 → BitVec 6 → Instr) {subs : Nat} {sub : BitVec 4} {p l : BitVec 6}
    (hsub : sub.toNat ≤ subs) (h : p.toNat + l.toNat + 1 ≤ 64) :
    rBf mk subs false { d := ofSReg d, a := ofSrc a, wa := wOf a, sub := sub, imm := (0 : BitVec 18) ++ l ++ (0 : BitVec 2) ++ p } =
      .ok (mk sub d a p l) := by
  simp [rBf, hsub, h]

theorem rSel_reads {c : SReg} (h : WF.noClash a b = true) :
    rSel false { d := ofSReg d, a := ofSrc a, wa := wOf a, b := ofSrc b, wb := wOf b, fn := (0 : BitVec 4) ++ ofSReg c } =
      .ok (.sel d a b c) := by
  simp [rSel, syncAB, specifiers_noClash h]


theorem rMovi_reads (x : BitVec 32) : rMovi false { d := ofSReg d, imm := x } = .ok (.movi d x) := by simp [rMovi]

theorem rMovx_reads (x : Word) : rMovx false (packX x) { d := ofSReg d, sub := bits x 60 4 } = .ok (.movx d x) := by
  have hx : bits x 60 4 ++ bits x 0 60 = x := by
    unfold bits
    grind
  simp [rMovx, packX, hx]

/-- A word of MOVX is read with the literal word behind it (R219). -/
theorem decode_packI_movx (f : FI) (x : Word) : decode false (packI 0x2E f) (some (packX x)) = rMovx false (packX x) f := by
  have hmovx : isMovx (packI 0x2E f) = true := by rw [isMovx, bits_packI_op]; rfl
  have hnext : isLiteral (packX x) = true := by simp [isLiteral, packX]
  have hword : isLiteral (packI 0x2E f) = false := by rw [isLiteral, bits_packI_opHigh]; rfl
  calc decode false (packI 0x2E f) (some (packX x))
    _ = row false (packX x) (packI 0x2E f) 2 14 := by
      simp only [decode, hword, hmovx, hnext, bits_packI_opHigh, bits_packI_opLow]
      rfl
    _ = rMovx false (packX x) (partsI (packI 0x2E f)) := rfl
    _ = rMovx false (packX x) f := by rw [partsI_packI]

theorem decode_encoded_movx {x w : Word} {rest : List Word} (henc : encode (.movx d x) = w :: rest) :
    decode false w rest.head? = .ok (.movx d x) := by
  obtain ⟨rfl, rfl⟩ := List.cons.inj henc
  exact (decode_packI_movx _ x).trans (rMovx_reads x)

theorem rLea_reads (h : WF.notQ a = true) (sp : Bool) (x : BitVec 32) :
    rLea false { v := ofSReg d, a := ofSrc a, wa := wOf a, sz := 0, sp := sp, off := x } =
      .ok (if sp then .leaWin d a x else .lea d a x) := by
  simp [rLea, toBase_ofSrc h]

/-! ## Transfers, waiting and ending (R250-R258) -/

theorem rBr_reads (h : WF.noW b = true) (c : Cond) (x : BitVec 35) :
    rBr false { a := ofSrc a, b := ofSrc b, wa := wOf a, cond := ofCond c, off := x } = .ok (.br c a b x) := by
  simp [rBr, toSrc_ofSrc_noW h]

theorem rJmp_reads (mk : BitVec 35 → Instr) (x : BitVec 35) : rJmp mk { off := x } = .ok (mk x) := rfl

theorem rJmpi_reads (mk : Src → Instr) (h : WF.notQ a = true) : rJmpi mk false { a := ofSrc a, wa := wOf a } = .ok (mk a) := by
  simp [rJmpi, toBase_ofSrc h]

theorem rLoop_reads {n : BitVec 5} (h : (n != 0) = true) (x : BitVec 35) : rLoop { a := ofG n, off := x } = .ok (.loop n x) := by
  simp [rLoop, toG1_ofG h]

theorem rBtag_reads (h : WF.notQ b = true) (p : BitVec 3) :
    rBtag false { a := ofQ p, b := ofSrc b, wb := wOf b, fn := (0 : BitVec 4) ++ ofSReg d } = .ok (.btag p b d) := by
  simp [rBtag, toBase_ofSrc h, syncAB]

theorem rBk_reads (mk : BitVec 3 → BitVec 3 → BitVec 35 → Instr) (k l : BitVec 3) (x : BitVec 35) :
    rBk mk { a := ofK k, b := ofK l, off := x } = .ok (mk k l x) := by
  simp [rBk]

theorem rPark_reads (n : BitVec 32) : rPark { imm := n } = .ok (.park n) := by simp [rPark]

theorem rPark_reads_ev {m : BitVec 12} (h : (m != 0) = true) : rPark { sub := 1, imm := (0 : BitVec 20) ++ m } = .ok (.parkEv m) := by
  have h' : (m != 0#12) = true := h
  simp [rPark, h']

theorem rTrap_reads (mk : BitVec 32 → Instr) (x : BitVec 32) : rTrap mk { imm := x } = .ok (mk x) := rfl

/-! ## Loads and stores (R260-R270) -/

section
variable {p : MAddr} (hp : WF.maddr p = true)
include hp

theorem toBase_maddr : toBase false (ofSrc p.base) (wOf p.base) = some p.base := toBase_ofSrc (Bool.and_eq_true_iff.1 hp).1

theorem rLd_reads (z : Size) :
    rLd false (mFields (ofSReg d) (ofSize z) .sys p) = .ok (.ld d z p) := by
  simp [rLd, mReserved_mFields hp, toBase_maddr hp]

theorem rLds_reads (z : Size) {n : BitVec 5} (hn : (n != 0) = true) :
    rLds false (mFields (ofG n) (ofSize z) .sys p) = .ok (.lds n z p) := by
  simp [rLds, mReserved_mFields hp, toBase_maddr hp, toG1_ofG hn]

theorem rSt_reads {z : Size} {c : Scope} (ha : WF.noW a = true) (hz : WF.stSize z = true) (hc : WF.scopeOk c p = true) :
    rSt false (mFields (ofSrc a) (ofSize z) c p) = .ok (.st a z c p) := by
  simp [rSt, mReserved_mFields hp (st := true) hc, toBase_maddr hp, toSrc_ofSrc_noW ha, toStSize_ofSize hz]

theorem rVm_reads {c : Scope} {st : Bool} (hc : (c == .sys || (st && p.glb)) = true) (v : BitVec 4) :
    rVm st false (mFields (ofV v) 7 c p) = .ok (if st then .vst v c p else .vld v p) := by
  simp [rVm, mReserved_mFields hp hc, toBase_maddr hp]

theorem rKm_reads {c : Scope} {st : Bool} (hc : (c == .sys || (st && p.glb)) = true) (k : BitVec 3) :
    rKm st false (mFields (ofK k) 3 c p) = .ok (if st then .kst k c p else .kld k p) := by
  simp [rKm, mReserved_mFields hp hc, toBase_maddr hp]

end

theorem rStrided_reads (mk : Strided → Instr) {o : Strided} (h : WF.notQ o.base = true) :
    rStrided mk false
      { d := ofV o.v, a := ofSrc o.base, wa := wOf o.base, b := ofSReg o.stride, k := o.k,
        fn := BitVec.ofBool o.glb ++ o.off } = .ok (mk o) := by
  simp [rStrided, toBase_ofSrc h]

theorem rGather_reads (mk : Gathered → Instr) (mkT : TGathered → Instr) {o : Gathered} (h : WF.gathered o = true) :
    rGather mk mkT false
      { d := ofV o.v, a := ofSrc o.base, wa := wOf o.base, b := ofV o.vi, perm := ofPerm o.perm, k := o.k,
        fn := BitVec.ofBool o.glb ++ (0 : BitVec 1) ++ o.off } = .ok (mk o) := by
  obtain ⟨hbase, hperm⟩ := Bool.and_eq_true_iff.1 h
  simp [rGather, toBase_ofSrc hbase, toPerm_ofPerm hperm]

theorem rGather_reads_T (mk : Gathered → Instr) (mkT : TGathered → Instr) {o : TGathered} (h : (WF.notQ o.h && WF.perm o.perm) = true) :
    rGather mk mkT false
      { d := ofV o.v, a := ofSrc o.h, wa := wOf o.h, b := ofV o.vi, perm := ofPerm o.perm, k := o.k,
        fn := (4 : BitVec 4) ++ ofG o.c } = .ok (mkT o) := by
  obtain ⟨hbase, hperm⟩ := Bool.and_eq_true_iff.1 h
  simp [rGather, toBase_ofSrc hbase, toPerm_ofPerm hperm]

/-! ## Atomics and remote adds (R271, R272) -/

theorem rAmo_reads (mk : Amo → BitVec 3 → Instr) (tys : BitVec 3 → Bool) (noW64 : Bool) {o : Amo} {ty : BitVec 3} (h : WF.amo o = true)
    (hty : tys ty = true) (hw : (noW64 && o.w64) = false) :
    rAmo mk tys noW64 false
      { d := ofSReg o.d, a := ofSrc o.a, wa := wOf o.a, b := ofSrc o.b, wb := wOf o.b, ty := ty,
        fn := BitVec.ofBool o.glb ++ ofScope o.scope ++ BitVec.ofBool o.w64 ++ (0 : BitVec 8) } = .ok (mk o ty) := by
  obtain ⟨hbase, hclash⟩ := Bool.and_eq_true_iff.1 h
  simp [rAmo, toBase_ofSrc hbase, hty, hw, syncAB, specifiers_noClash hclash]

theorem rCas_reads {o : Amo} (h : WF.amo o = true) :
    rCas false
      { d := ofSReg o.d, a := ofSrc o.a, wa := wOf o.a, b := ofSrc o.b, wb := wOf o.b, ty := 0,
        fn := BitVec.ofBool o.glb ++ ofScope o.scope ++ BitVec.ofBool o.w64 ++ ofSReg d } = .ok (.amocas o d) := by
  obtain ⟨hbase, hclash⟩ := Bool.and_eq_true_iff.1 h
  simp [rCas, toBase_ofSrc hbase, syncAB, specifiers_noClash hclash]

theorem rRadd_reads (t : RTy) (ha : WF.notQ a = true) (h : WF.noClash a b = true) (ord : Bool) :
    rRadd false
      { a := ofSrc a, wa := wOf a, b := ofSrc b, wb := wOf b, ty := if t = .f32 then 2 else 0,
        fn := BitVec.ofBool ord ++ (0 : BitVec 2) ++ BitVec.ofBool (decide (t = .i64)) ++ (if ord then ofSReg d else 0) } =
      .ok (if ord then .raddOrd t a b d else .radd t a b) := by
  cases t <;> cases ord <;> simp [rRadd, toBase_ofSrc ha, syncAB, specifiers_noClash h]

theorem rRaddv_reads {r : RaddV} (h : WF.raddv r = true) (ord : Bool) :
    rRaddv false
      { a := ofSrc r.a, wa := wOf r.a, b := ofV r.v, perm := ofPerm r.perm, k := r.k, ty := if r.isF then 2 else 0,
        fn := BitVec.ofBool ord ++ (0 : BitVec 3) ++ (if ord then ofSReg d else 0) } = .ok (if ord then .raddvOrd r d else .raddv r) := by
  obtain ⟨hbase, hperm⟩ := Bool.and_eq_true_iff.1 h
  obtain ⟨isF, a, v, p, k⟩ := r
  cases isF <;> cases ord <;> simp [rRaddv, toBase_ofSrc hbase, toPerm_ofPerm hperm]

/-! ## Full bits, migration, copies, messages, counters, hurdles and lines (R275-R288) -/

theorem rSfill_reads (h : WF.instr (.sfill d a) = true) : rSfill false { d := ofSReg d, a := ofSrc a, wa := wOf a } = .ok (.sfill d a) := by
  have hd : toSM false (ofSReg d) = some d := toSM_ofSReg fun n hg => by subst hg; cases h
  simp [rSfill, hd]

theorem rFstat_reads (mail : Bool) : rFstat false { d := ofSReg d, a := if mail then 0x80 else 0x40 } = .ok (.fstat d mail) := by
  cases mail <;> simp [rFstat]

theorem rMigr_reads (h : WF.notQ a = true) (x : BitVec 32) (crew : Bool) :
    rMigr false { v := 0, a := ofSrc a, wa := wOf a, sz := if crew then 1 else 0, sp := true, off := x } =
      .ok (if crew then .migrCrew a x else .migr a x) := by
  cases crew <;> simp [rMigr, toBase_ofSrc h]

theorem rMpin_reads (on : Bool) : rMpin { imm := if on then 1 else 0 } = .ok (.mpin on) := by cases on <;> rfl

theorem rCrewj_reads (h : WF.noClash a b = true) :
    rCrewj false { a := ofSrc a, wa := wOf a, b := ofSrc b, wb := wOf b } = .ok (.crewj a b) := by
  simp [rCrewj, syncAB, specifiers_noClash h]

theorem rCopy_reads (mk : CopyArgs → Instr) {o : CopyArgs} (h : (o.c != 0) = true) :
    rCopy mk false
      { h := ofSReg o.h, c := ofG o.c, l := ofSReg o.l, n := ofCZ o.rc,
        fn := ePrio o.prio ++ (0 : BitVec 1) ++ ofCZ o.sc } = .ok (mk o) := by
  simp [rCopy, prioOf, toG1_ofG h]

@[simp] theorem tileOf_reads (o : TileArgs) (n : BitVec 8) (fn : BitVec 12) :
    tileOf false { h := ofSReg o.h, c := ofSReg o.c, l := ofSReg o.l, n := n, shape := ofTShape o.sh, fn := fn } = .ok o := by
  simp [tileOf]

theorem rTcopy_reads (mk : TCopyArgs → Instr) (o : TCopyArgs) :
    rTcopy mk false
      { h := ofSReg o.t.h, c := ofSReg o.t.c, l := ofSReg o.t.l, n := ofCZ o.n, shape := ofTShape o.t.sh,
        fn := ePrio o.prio ++ (0 : BitVec 1) ++ ofG o.id } = .ok (mk o) := by
  simp [rTcopy, prioOf]

theorem rQsend_reads {n : BitVec 5} {m : BitVec 3} (h : (n != 0 && decide (n.toNat + m.toNat ≤ 31)) = true) (p : BitVec 3) :
    rQsend false { a := ofSrc a, wa := wOf a, b := ofG n, fn := (0 : BitVec 6) ++ m ++ p } = .ok (.qsend p a n m) := by
  obtain ⟨hn, hm⟩ := Bool.and_eq_true_iff.1 h
  simp [rQsend, toG1_ofG hn, hm]

theorem rCexp_reads (h : WF.notQ b = true) (c : BitVec 5) : rCexp false { a := ofC c, b := ofSrc b, wb := wOf b } = .ok (.cexp c b) := by
  simp [rCexp, toBase_ofSrc h]

theorem rCadd_reads (h : WF.notQ b = true) (c : BitVec 5) (clr : Bool) :
    rCadd false { a := ofC c, b := ofSrc b, wb := wOf b, fn := if clr then 1 else 0 } = .ok (if clr then .caddClr c b else .cadd c b) := by
  cases clr <;> simp [rCadd, toBase_ofSrc h]

theorem rCrd_reads (c : BitVec 5) : rCrd false { d := ofSReg d, a := ofC c } = .ok (.crd d c) := by simp [rCrd]

theorem rHset_reads (n : BitVec 2) : rHset false { a := ofSrc a, wa := wOf a, sub := (0 : BitVec 2) ++ n } = .ok (.hset n a) := by
  have hn : n.toNat ≤ 3 := by omega
  simp [rHset, hn]

theorem rHurdle_reads (n : BitVec 2) : rHurdle { sub := (0 : BitVec 2) ++ n } = .ok (.hurdle n) := by
  have hn : n.toNat ≤ 3 := by omega
  simp [rHurdle, hn]

theorem rSub8_reads (mk : BitVec 3 → Src → Instr) (n : BitVec 3) :
    rSub8 mk false { a := ofSrc a, wa := wOf a, sub := (0 : BitVec 1) ++ n } = .ok (mk n a) := by
  have hn : n.toNat ≤ 7 := by omega
  simp [rSub8, hn]

/-- The operation of a line, in its SZ field (R288). -/
theorem rCline_reads (h : WF.notQ a = true) (x : BitVec 32) {z : BitVec 3} (hz : z.toNat ≤ 2) :
    rCline false { v := 0, a := ofSrc a, wa := wOf a, sz := z, sp := true, off := x } =
      .ok (if z == 0 then .clineWb a x else if z == 1 then .clineEvict a x else .clinePf a x) := by
  simp [rCline, toBase_ofSrc h, hz]

end

end Sys2Proof.Dec

namespace Sys2Proof.Machine

/-- Decoding undoes encoding for an instruction. -/
def readsBack (i : Instr) : Prop := ∀ w rest, Dec.encode i = w :: rest → Dec.decode false w rest.head? = .ok i

open Dec in
/-- Scalar and address instructions, transfers, waiting and ending (R239-R258). -/
theorem readsBack_scalarRow (i : Instr) (hrow : scalarRow i = true) (hwf : WF.instr i = true) : readsBack i := by
  intro w rest henc
  cases i
  case nop | done => exact decode_encoded_A henc (rNone_reads _) fun _ => rfl
  case add | sub | mul | mulh | mulhn | div | divn | rem | remn | and | or | xor | andn | shl | shr | sar | rol | min | max | minn | maxn
      | slt | sltn | seq =>
    exact decode_encoded_A henc (rR3_reads _ hwf) fun _ => rfl
  case addi | andi | ori | xori => exact decode_encoded_I henc (rRI_reads _ _) fun _ => rfl
  case slti => exact decode_encoded_I henc (rSlti_reads _ false) fun _ => rfl
  case sltiN => exact decode_encoded_I henc (rSlti_reads _ true) fun _ => rfl
  case shli | shri | sari | roli => exact decode_encoded_I henc (rSh_reads _ _) fun _ => rfl
  case clz | ctz | popc | brev | mov => exact decode_encoded_A henc (rR1_reads _) fun _ => rfl
  case sext | zext => exact decode_encoded_I henc (rExt_reads _ (of_decide_eq_true hwf)) fun _ => rfl
  case bfx | bfxS =>
    exact decode_encoded_I henc (rBf_reads (fun s => if s == 0 then .bfx else .bfxS) (by decide) (of_decide_eq_true hwf)) fun _ => rfl
  case bfi => exact decode_encoded_I henc (rBf_reads (fun _ => .bfi) (by decide) (of_decide_eq_true hwf)) fun _ => rfl
  case sel => exact decode_encoded_A henc (rSel_reads hwf) fun _ => rfl
  case movi => exact decode_encoded_I henc (rMovi_reads _) fun _ => rfl
  case movx d x => exact decode_encoded_movx henc
  case lea => exact decode_encoded_M henc (rLea_reads hwf false _) fun _ => rfl
  case leaWin => exact decode_encoded_M henc (rLea_reads hwf true _) fun _ => rfl
  case br => exact decode_encoded_B henc (rBr_reads hwf _ _) fun _ => rfl
  case jmp | call => exact decode_encoded_B henc (rJmp_reads _ _) fun _ => rfl
  case jmpi | calli => exact decode_encoded_A henc (rJmpi_reads _ hwf) fun _ => rfl
  case loop => exact decode_encoded_B henc (rLoop_reads hwf _) fun _ => rfl
  case btag => exact decode_encoded_A henc (rBtag_reads hwf _) fun _ => rfl
  case bkany | bkall => exact decode_encoded_B henc (rBk_reads _ _ _ _) fun _ => rfl
  case park => exact decode_encoded_I henc (rPark_reads _) fun _ => rfl
  case parkEv => exact decode_encoded_I henc (rPark_reads_ev hwf) fun _ => rfl
  case trap | brkp => exact decode_encoded_I henc (rTrap_reads _ _) fun _ => rfl
  all_goals cases hrow

open Dec in
/-- Memory, synchronisation and migration (R260-R288). -/
theorem readsBack_memoryRow (i : Instr) (hrow : memoryRow i = true) (hwf : WF.instr i = true) : readsBack i := by
  intro w rest henc
  cases i
  case ld => exact decode_encoded_M henc (rLd_reads hwf _) fun _ => rfl
  case lds =>
    obtain ⟨hn, hp⟩ := Bool.and_eq_true_iff.1 hwf
    exact decode_encoded_M henc (rLds_reads hp _ hn) fun _ => rfl
  case st =>
    obtain ⟨hval, hp⟩ := Bool.and_eq_true_iff.1 hwf
    obtain ⟨hsize, hscope⟩ := Bool.and_eq_true_iff.1 hval
    obtain ⟨hv, hz⟩ := Bool.and_eq_true_iff.1 hsize
    exact decode_encoded_M henc (rSt_reads hp hv hz hscope) fun _ => rfl
  case vld => exact decode_encoded_M henc (rVm_reads (st := false) hwf rfl _) fun _ => rfl
  case vst =>
    obtain ⟨hscope, hp⟩ := Bool.and_eq_true_iff.1 hwf
    exact decode_encoded_M henc (rVm_reads (st := true) hp hscope _) fun _ => rfl
  case kld => exact decode_encoded_M henc (rKm_reads (st := false) hwf rfl _) fun _ => rfl
  case kst =>
    obtain ⟨hscope, hp⟩ := Bool.and_eq_true_iff.1 hwf
    exact decode_encoded_M henc (rKm_reads (st := true) hp hscope _) fun _ => rfl
  case vlds | vsts => exact decode_encoded_A henc (rStrided_reads _ hwf) fun _ => rfl
  case vgath => exact decode_encoded_A henc (rGather_reads .vgath .vgathT hwf) fun _ => rfl
  case vscat => exact decode_encoded_A henc (rGather_reads .vscat .vscatT hwf) fun _ => rfl
  case vgathT => exact decode_encoded_A henc (rGather_reads_T .vgath .vgathT hwf) fun _ => rfl
  case vscatT => exact decode_encoded_A henc (rGather_reads_T .vscat .vscatT hwf) fun _ => rfl
  case amoadd => exact decode_encoded_A henc (rAmo_reads (fun o _ => .amoadd o) (· == 0) false hwf rfl rfl) fun _ => rfl
  case amoswp => exact decode_encoded_A henc (rAmo_reads (fun o _ => .amoswp o) (· == 0) false hwf rfl rfl) fun _ => rfl
  case amoand => exact decode_encoded_A henc (rAmo_reads (fun o _ => .amoand o) (· == 0) false hwf rfl rfl) fun _ => rfl
  case amoor => exact decode_encoded_A henc (rAmo_reads (fun o _ => .amoor o) (· == 0) false hwf rfl rfl) fun _ => rfl
  case amoxor => exact decode_encoded_A henc (rAmo_reads (fun o _ => .amoxor o) (· == 0) false hwf rfl rfl) fun _ => rfl
  case amomin o uns =>
    cases uns <;> exact decode_encoded_A henc (rAmo_reads (fun o t => .amomin o (t == 1)) (fun t => t == 0 || t == 1) false hwf rfl rfl) fun _ => rfl
  case amomax o uns =>
    cases uns <;> exact decode_encoded_A henc (rAmo_reads (fun o t => .amomax o (t == 1)) (fun t => t == 0 || t == 1) false hwf rfl rfl) fun _ => rfl
  case amofadd o =>
    obtain ⟨ho, hw⟩ := Bool.and_eq_true_iff.1 hwf
    exact decode_encoded_A henc (rAmo_reads (fun o _ => .amofadd o) (· == 2) true ho rfl (Bool.not_eq_eq_eq_not.1 hw)) fun _ => rfl
  case amocas => exact decode_encoded_A henc (rCas_reads hwf) fun _ => rfl
  case radd =>
    obtain ⟨ha, hclash⟩ := Bool.and_eq_true_iff.1 hwf
    exact decode_encoded_A henc (rRadd_reads (d := .g 0) _ ha hclash false) fun _ => rfl
  case raddOrd =>
    obtain ⟨ha, hclash⟩ := Bool.and_eq_true_iff.1 hwf
    exact decode_encoded_A henc (rRadd_reads _ ha hclash true) fun _ => rfl
  case raddv => exact decode_encoded_A henc (rRaddv_reads (d := .g 0) hwf false) fun _ => rfl
  case raddvOrd => exact decode_encoded_A henc (rRaddv_reads hwf true) fun _ => rfl
  case fence => exact decode_encoded_A henc (rNone_reads _) fun _ => rfl
  case sfill => exact decode_encoded_A henc (rSfill_reads hwf) fun _ => rfl
  case fstat => exact decode_encoded_A henc (rFstat_reads _) fun _ => rfl
  case migr => exact decode_encoded_M henc (rMigr_reads hwf _ false) fun _ => rfl
  case migrCrew => exact decode_encoded_M henc (rMigr_reads hwf _ true) fun _ => rfl
  case mpin => exact decode_encoded_I henc (rMpin_reads _) fun _ => rfl
  case crewj => exact decode_encoded_A henc (rCrewj_reads hwf) fun _ => rfl
  case get | put => exact decode_encoded_T henc (rCopy_reads _ hwf) fun _ => rfl
  case gett | putt => exact decode_encoded_T henc (rTcopy_reads _ _) fun _ => rfl
  case qsend => exact decode_encoded_A henc (rQsend_reads hwf _) fun _ => rfl
  case cexp => exact decode_encoded_A henc (rCexp_reads hwf _) fun _ => rfl
  case cadd => exact decode_encoded_A henc (rCadd_reads hwf _ false) fun _ => rfl
  case caddClr => exact decode_encoded_A henc (rCadd_reads hwf _ true) fun _ => rfl
  case crd => exact decode_encoded_A henc (rCrd_reads _) fun _ => rfl
  case xwait => exact decode_encoded_A henc (rJmpi_reads _ hwf) fun _ => rfl
  case hset => exact decode_encoded_I henc (rHset_reads _) fun _ => rfl
  case hurdle => exact decode_encoded_I henc (rHurdle_reads _) fun _ => rfl
  case view => exact decode_encoded_I henc (rSub8_reads _ _) fun _ => rfl
  case clineWb => exact decode_encoded_M henc (rCline_reads hwf _ (z := 0) (by decide)) fun _ => rfl
  case clineEvict => exact decode_encoded_M henc (rCline_reads hwf _ (z := 1) (by decide)) fun _ => rfl
  case clinePf => exact decode_encoded_M henc (rCline_reads hwf _ (z := 2) (by decide)) fun _ => rfl
  all_goals cases hrow

/-- Settles O7: each word is decoded by the row of its opcode, which reads back the fields that the encoder packed. -/
theorem roundTripScalarMemory : Obligations.RoundTripScalarMemory := by
  unfold Obligations.RoundTripScalarMemory
  intro i w rest hrow hwf henc
  rcases Bool.or_eq_true_iff.1 hrow with hscalar | hmemory
  · exact readsBack_scalarRow i hscalar hwf w rest henc
  · exact readsBack_memoryRow i hmemory hwf w rest henc

end Sys2Proof.Machine
end

section
/-! CERTIFICATE. Vector, conversion and mask rows read back what the encoder wrote (R289-R317). -/
namespace Sys2Proof.Dec

/-! ## Modifier fields (R224, R292, R301, R305) -/

@[simp] theorem toTy_ofTy (t : Ty) : toTy (ofTy t) = t := by cases t <;> rfl
@[simp] theorem toVCond_ofVCond (c : VCond) : toVCond (ofVCond c) = c := by cases c <;> rfl
@[simp] theorem toRed_ofRed (o : RedOp) : toRed (ofRed o) = some o := by cases o <;> rfl
@[simp] theorem toRM_ofRM (m : RMode) : toRM (ofRM m) = some m := by cases m <;> rfl

theorem tyFloat_eq_isFloat (t : Ty) : tyFloat t = WF.isFloat t := by cases t <;> rfl
theorem tyArith_eq_arith (t : Ty) : tyArith t = WF.arith t := by cases t <;> rfl
theorem tyShift_eq_shiftTy (t : Ty) : tyShift t = WF.shiftTy t := by cases t <;> rfl
theorem tyBits_eq_width (t : Ty) : tyBits t = WF.width t := by cases t <;> rfl
theorem ofTy_le_two {t : Ty} (h : WF.word32 t = true) : (ofTy t).toNat ≤ 2 := by
  revert h
  cases t <;> decide

/-- FN[3] says whether FN[2:0] is a rounding mode. -/
@[simp] theorem bit_eLow_three (rm : Option RMode) (sat : Bool) : bit (eLow rm sat) 3 = rm.isSome := by cases rm <;> simp [eLow]
@[simp] theorem bit_eLow_four (rm : Option RMode) (sat : Bool) : bit (eLow rm sat) 4 = sat := by cases rm <;> simp [eLow]

section
variable (x : BitVec 7) (rm : Option RMode) {rounds sats sat : Bool}

/-- The low modifier bits pass where the type takes the modifiers that are there (R292). -/
theorem fnLow_eLow (hrm : (rm == none || rounds) = true) (hsat : (!sat || sats) = true) : fnLow (x ++ eLow rm sat) rounds sats = .ok () := by
  cases rm with
  | none => simp [fnLow, hsat, eLow]
  | some m =>
    have hrounds : rounds = true := hrm
    simp [fnLow, hsat, hrounds]

/-- An instruction that rounds whatever its type. -/
@[simp] theorem fnLow_rounding : fnLow (x ++ eLow rm false) true false = .ok () := fnLow_eLow x rm (Bool.or_true _) rfl

@[simp] theorem fnRM_eLow : fnRM (x ++ eLow rm sat) = .ok rm := by
  cases rm <;> simp [fnRM, eLow]

end

/-! ## The B operand (R223, R290) -/

/-- The register that a B operand names. -/
def vsrcOf : VSrc → BitVec 4 ⊕ Src
  | .v n _ => .inl n
  | .sc s => .inr s

theorem toV_ofSrc (a : Src) : toV (ofSrc a) = none := by
  cases a with
  | g n => revert n; decide
  | s n => revert n; simp only [ofSrc]; decide
  | m n => revert n; simp only [ofSrc]; decide
  | q n => revert n; decide

section
variable (f : FA) (b : VSrc)

@[simp] theorem eVS_d : (eVS f b).d = f.d := by cases b <;> rfl
@[simp] theorem eVS_a : (eVS f b).a = f.a := by cases b <;> rfl
@[simp] theorem eVS_wa : (eVS f b).wa = f.wa := by cases b <;> rfl
@[simp] theorem eVS_k : (eVS f b).k = f.k := by cases b <;> rfl
@[simp] theorem eVS_ty : (eVS f b).ty = f.ty := by cases b <;> rfl
@[simp] theorem eVS_fn : (eVS f b).fn = f.fn := by cases b <;> rfl

variable {f b}

theorem toVB_eVS (hwb : f.wb = false) : toVB false (eVS f b).b (eVS f b).wb = some (vsrcOf b) := by
  cases b with
  | v n p => simp [toVB, eVS, vsrcOf, hwb]
  | sc s => simp [toVB, eVS, vsrcOf, toV_ofSrc]

theorem vsrc_eVS (hperm : f.perm = 0) (h : WF.vsrc b = true) : vsrc (vsrcOf b) (eVS f b).perm = .ok b := by
  cases b with
  | v n p => simp [vsrc, eVS, vsrcOf, toPerm_ofPerm h]
  | sc s => simp [vsrc, eVS, vsrcOf, hperm]

theorem syncOk_eVS (hwb : f.wb = false) : syncOk (eVS f b).b (eVS f b).wb = true := by
  cases b with
  | v n p => simp [eVS, hwb]
  | sc s => simp [eVS]

/-- A vector word whose A takes no synchronised read. -/
theorem syncAB_eVS (hwa : f.wa = false) (hwb : f.wb = false) : syncAB (eVS f b) = .ok () := by
  simp [syncAB, hwa, syncOk_eVS hwb]

end

/-- The fields of a vector word of three registers (R214). -/
def v3Fields (o : V3) (fn : BitVec 12) : FA := { d := ofV o.d, a := ofV o.a, k := o.k, ty := ofTy o.ty, fn := fn }

@[simp] theorem v3Fields_d (o : V3) (fn : BitVec 12) : (v3Fields o fn).d = ofV o.d := rfl
@[simp] theorem v3Fields_a (o : V3) (fn : BitVec 12) : (v3Fields o fn).a = ofV o.a := rfl
@[simp] theorem v3Fields_k (o : V3) (fn : BitVec 12) : (v3Fields o fn).k = o.k := rfl
@[simp] theorem v3Fields_ty (o : V3) (fn : BitVec 12) : (v3Fields o fn).ty = ofTy o.ty := rfl
@[simp] theorem v3Fields_fn (o : V3) (fn : BitVec 12) : (v3Fields o fn).fn = fn := rfl
theorem eV3_eq_packA (op : BitVec 8) (o : V3) (fn : BitVec 12) : eV3 op o fn = packA op (eVS (v3Fields o fn) o.b) := rfl

theorem v3of_reads {o : V3} {tys : Ty → Bool} (h : WF.v3 o tys = true) (fn : BitVec 12) :
    v3of tys false (eVS (v3Fields o fn) o.b) = .ok o := by
  obtain ⟨hty, hb⟩ := Bool.and_eq_true_iff.1 h
  have hvb : toVB false (eVS (v3Fields o fn) o.b).b (eVS (v3Fields o fn) o.b).wb = some (vsrcOf o.b) := toVB_eVS rfl
  have hsrc : vsrc (vsrcOf o.b) (eVS (v3Fields o fn) o.b).perm = .ok o.b := vsrc_eVS rfl hb
  simp [v3of, hvb, hsrc, hty]

@[simp] theorem syncAB_v3Fields (o : V3) (fn : BitVec 12) : syncAB (eVS (v3Fields o fn) o.b) = .ok () := syncAB_eVS rfl rfl

/-- The fields of a vector word without B. -/
def v2Fields (o : V2) (fn : BitVec 12) : FA := { d := ofV o.d, a := ofV o.a, k := o.k, ty := ofTy o.ty, fn := fn }

theorem eV2_eq_packA (op : BitVec 8) (o : V2) (fn : BitVec 12) : eV2 op o fn = packA op (v2Fields o fn) := rfl

theorem v2of_reads {o : V2} {tys : Ty → Bool} (h : tys o.ty = true) (fn : BitVec 12) : v2of tys (v2Fields o fn) = .ok o := by
  simp [v2of, v2Fields, h]

@[simp] theorem noB_v2Fields (o : V2) (fn : BitVec 12) : noB (v2Fields o fn) = .ok () := by simp [noB, v2Fields]
@[simp] theorem v2Fields_fn (o : V2) (fn : BitVec 12) : (v2Fields o fn).fn = fn := rfl
@[simp] theorem v2Fields_ty (o : V2) (fn : BitVec 12) : (v2Fields o fn).ty = ofTy o.ty := rfl
@[simp] theorem syncA_v2Fields (o : V2) (fn : BitVec 12) : syncA (v2Fields o fn).a (v2Fields o fn).wa = .ok () := rfl

/-! ## Arithmetic (R296-R300, R307, R311-R313) -/

section
variable {o : V3} {q : V2} {rm : Option RMode} {sat : Bool}

theorem rVarith_reads (mk : V3 → Option RMode → Bool → Instr) (h : (WF.v3 o WF.arith && WF.mods o.ty rm sat) = true) :
    rVarith mk false (eVS (v3Fields o ((0 : BitVec 7) ++ eLow rm sat)) o.b) = .ok (mk o rm sat) := by
  obtain ⟨ho, hmods⟩ := Bool.and_eq_true_iff.1 h
  obtain ⟨hrm, hsat⟩ := Bool.and_eq_true_iff.1 hmods
  have hv : WF.v3 o tyArith = true := by rwa [funext tyArith_eq_arith]
  simp [rVarith, tyFloat_eq_isFloat, fnLow_eLow _ _ hrm hsat, v3of_reads hv]

theorem rV3_reads (mk : V3 → Instr) (tys : Ty → Bool) (h : WF.v3 o tys = true) : rV3 mk tys false (eVS (v3Fields o 0) o.b) = .ok (mk o) := by
  simp [rV3, v3of_reads h]

theorem v3_tyShift (h : WF.v3 o WF.shiftTy = true) : WF.v3 o tyShift = true := by rwa [funext tyShift_eq_shiftTy]

theorem rVmulq_reads (h : WF.v3 o (fun t => t == .i32 || t == .i16) = true) : rVmulq false (eVS (v3Fields o 0) o.b) = .ok (.vmulq o) := by
  simp [rVmulq, fnLow, v3of_reads h]

theorem rVabs_reads (mk : V2 → Bool → Instr) (h : (q.ty != .n32 && (!sat || !WF.isFloat q.ty)) = true) :
    rVabs mk (v2Fields q ((0 : BitVec 7) ++ eLow none sat)) = .ok (mk q sat) := by
  obtain ⟨hty, hsat⟩ := Bool.and_eq_true_iff.1 h
  simp [rVabs, tyFloat_eq_isFloat, fnLow_eLow _ none rfl hsat, v2of_reads (tys := (· != .n32)) hty]

theorem rVtrans_reads (mk : V2 → Option RMode → Instr) (h : (q.ty == .f32 || q.ty == .bf16) = true) :
    rVtrans mk (v2Fields q ((0 : BitVec 7) ++ eLow rm false)) = .ok (mk q rm) := by
  simp [rVtrans, v2of_reads (tys := fun t => t == .f32 || t == .bf16) h]

theorem rVsat_reads {n : BitVec 6} {u : Bool}
    (h : ((q.ty == .i32 || q.ty == .i16 || q.ty == .i8) && decide (n.toNat + 1 + u.toNat ≤ WF.width q.ty)) = true) :
    rVsat (v2Fields q (BitVec.ofBool u ++ n ++ (0 : BitVec 5))) = .ok (.vsat q n u) := by
  obtain ⟨hty, hn⟩ := Bool.and_eq_true_iff.1 h
  simp [rVsat, tyBits_eq_width, v2of_reads (tys := fun t => t == .i32 || t == .i16 || t == .i8) hty, hn]

/-! ## Conversion (R308-R310, R314-R316) -/

theorem rVcvt_reads {s : Ty} (h : WF.cvt q.ty s = true) :
    rVcvt (v2Fields q ((0 : BitVec 4) ++ ofTy s ++ eLow rm false)) = .ok (.vcvt q s rm) := by
  have hpair : cvtPair q.ty s = true := h
  simp [rVcvt, v2of_reads (tys := fun _ => true) rfl, hpair]

theorem rVpack_reads {p : Perm} {t s : Ty} (h : (WF.perm p && WF.pack t s && (rm == none || WF.isFloat t)) = true) (d a b : BitVec 4)
    (k : BitVec 3) :
    rVpack { d := ofV d, a := ofV a, b := ofV b, perm := ofPerm p, k := k, ty := ofTy t, fn := (0 : BitVec 4) ++ ofTy s ++ eLow rm false } =
      .ok (.vpack d a b p k t s rm) := by
  obtain ⟨hops, hrm⟩ := Bool.and_eq_true_iff.1 h
  obtain ⟨hperm, hpair⟩ := Bool.and_eq_true_iff.1 hops
  have hpair' : packPair t s = true := hpair
  simp [rVpack, tyFloat_eq_isFloat, fnLow_eLow _ rm hrm, toPerm_ofPerm hperm, hpair', syncAB]

theorem rVunpk_reads {s : Ty} (h : WF.unpk q.ty s = true) (hi : Bool) :
    rVunpk (v2Fields q ((0 : BitVec 3) ++ BitVec.ofBool hi ++ ofTy s ++ (0 : BitVec 5))) = .ok (.vunpk q s hi) := by
  have hpair : unpkPair q.ty s = true := h
  simp [rVunpk, fnLow, v2of_reads (tys := fun _ => true) rfl, hpair]

/-- The codes of the formats without a scale operand (R314). -/
def blockCode : QFmt → Option (BitVec 3)
  | .px9 => some 0
  | .px6 => some 1
  | .px4 => some 2
  | .mxfp4 => some 3
  | .i8 _ | .i4 _ => none

theorem rVquant_reads_block (mk : BitVec 4 → BitVec 4 → QFmt → Option RMode → Instr) {q : QFmt} {c : BitVec 3} (hc : blockCode q = some c)
    (d a : BitVec 4) (rm : Option RMode) :
    rVquant mk false { d := ofV d, a := ofV a, ty := 2, fn := (0 : BitVec 4) ++ c ++ eLow rm false } = .ok (mk d a q rm) := by
  have hlow : ∀ x : BitVec 7, fnLow (x ++ eLow rm false) true false = .ok () := fun x => fnLow_rounding x rm
  cases q <;> cases hc <;> simp [rVquant, noB, toTy, hlow]

/-- An integer format of VQUANT and VDEQ: 4 is INT8, 5 is INT4 (R314). -/
theorem rVquant_reads_int (mk : BitVec 4 → BitVec 4 → QFmt → Option RMode → Instr) (d a : BitVec 4) {b : VSrc} {c : BitVec 3}
    (hc : 4 ≤ c.toNat ∧ c.toNat < 6) (h : WF.vsrc b = true) :
    rVquant mk false (eVS { d := ofV d, a := ofV a, ty := 2, fn := (0 : BitVec 4) ++ c ++ eLow rm false } b) =
      .ok (mk d a (if c.toNat == 4 then .i8 b else .i4 b) rm) := by
  obtain ⟨hlo, hhi⟩ := hc
  have hblock : ¬ c.toNat < 4 := by omega
  simp [rVquant, hblock, hhi, toVB_eVS, vsrc_eVS, syncAB_eVS, h, toTy]

/-- VQUANT and VDEQ, whatever the format. -/
theorem decode_encoded_quant {op : BitVec 8} {d a : BitVec 4} {q : QFmt} {w : Word} {rest : List Word}
    (mk : BitVec 4 → BitVec 4 → QFmt → Option RMode → Instr) (hwf : WF.qfmt q = true) (henc : [eQuant op d a q rm] = w :: rest)
    (hop : ∀ v, opRow op v = rVquant mk false (partsA v)) (hlit : bits op 4 4 ≠ 0xE := by decide) (hmovx : op ≠ 0x2E := by decide) :
    decode false w rest.head? = .ok (mk d a q rm) := by
  cases q with
  | i8 b => exact decode_encoded_A henc (rVquant_reads_int mk d a (c := 4) (by decide) hwf) hop hlit hmovx
  | i4 b => exact decode_encoded_A henc (rVquant_reads_int mk d a (c := 5) (by decide) hwf) hop hlit hmovx
  | _ => exact decode_encoded_A henc (rVquant_reads_block mk rfl d a rm) hop hlit hmovx

theorem rVdot_reads (h : WF.v3 o (· == .i8) = true) (au bu : Bool) :
    rVdot false
      (eVS (v3Fields o ((0 : BitVec 5) ++ BitVec.ofBool bu ++ BitVec.ofBool au ++ BitVec.ofBool sat ++ (0 : BitVec 4))) o.b) =
      .ok (.vdot o.d o.a o.b o.k au bu sat) := by
  simp [rVdot, fnLow, v3of_reads h]

end

/-! ## Comparison, selection, movement, reduction (R301-R306) -/

section
variable {b : VSrc} {ty : Ty}

theorem rVcmp_reads (h : (WF.word32 ty && WF.vsrc b) = true) (d : BitVec 3) (c : VCond) (a : BitVec 4) (k : BitVec 3) :
    rVcmp false (eVS { d := ofK d, a := ofV a, k := k, ty := ofTy ty, fn := (0 : BitVec 4) ++ ofVCond c ++ (0 : BitVec 5) } b) =
      .ok (.vcmp d c a b k ty) := by
  obtain ⟨hty, hb⟩ := Bool.and_eq_true_iff.1 h
  simp [rVcmp, toVB_eVS, vsrc_eVS, syncAB_eVS, hb, ofTy_le_two hty]

theorem rVsel_reads {o : V3} (h : WF.v3 o (· == .i32) = true) (km : BitVec 3) :
    rVsel false (eVS (v3Fields o ((0 : BitVec 4) ++ km ++ (0 : BitVec 5))) o.b) = .ok (.vsel o km) := by
  simp [rVsel, v3of_reads h]

theorem rVmov_reads (h : WF.vsrc b = true) (d : BitVec 4) (k : BitVec 3) :
    rVmov false (eVS { d := ofV d, k := k, ty := ofTy ty } b) = .ok (.vmov d b k ty) := by
  simp [rVmov, toVB_eVS, vsrc_eVS, syncOk_eVS, h]

theorem rVbcast_reads (d a : BitVec 4) (i : Src) (k : BitVec 3) :
    rVbcast false { d := ofV d, a := ofV a, b := ofSrc i, wb := wOf i, k := k, ty := ofTy ty } = .ok (.vbcast d a i k ty) := by
  simp [rVbcast, syncAB]

theorem rVext_reads (d : SReg) (a : BitVec 4) (i : Src) :
    rVext false { d := ofSReg d, a := ofV a, b := ofSrc i, wb := wOf i, ty := ofTy ty } = .ok (.vext d a i ty) := by
  simp [rVext, syncAB]

theorem rVins_reads {a i : Src} (h : WF.noClash a i = true) (d : BitVec 4) :
    rVins false { d := ofV d, a := ofSrc a, wa := wOf a, b := ofSrc i, wb := wOf i, ty := ofTy ty } = .ok (.vins d a i ty) := by
  simp [rVins, syncAB, specifiers_noClash h]

theorem rVred_reads {rm : Option RMode} (h : (WF.word32 ty && (rm == none || WF.isFloat ty)) = true) (d : SReg) (op : RedOp) (a : BitVec 4)
    (k : BitVec 3) :
    rVred false { d := ofSReg d, a := ofV a, k := k, ty := ofTy ty, fn := (0 : BitVec 4) ++ ofRed op ++ eLow rm false } =
      .ok (.vred d op a k ty rm) := by
  obtain ⟨hty, hrm⟩ := Bool.and_eq_true_iff.1 h
  simp [rVred, tyFloat_eq_isFloat, fnLow_eLow _ rm hrm, noB, ofTy_le_two hty]

theorem rVidx_reads {a i : Src} (h : (WF.noClash a i && WF.shiftTy ty) = true) (d : BitVec 4) (k : BitVec 3) :
    rVidx false { d := ofV d, a := ofSrc a, wa := wOf a, b := ofSrc i, wb := wOf i, k := k, ty := ofTy ty } = .ok (.vidx d a i k ty) := by
  obtain ⟨hclash, hty⟩ := Bool.and_eq_true_iff.1 h
  simp [rVidx, tyShift_eq_shiftTy, hty, syncAB, specifiers_noClash hclash]

end

/-! ## Mask instructions (R317) -/

theorem rK3_reads (mk : BitVec 3 → BitVec 3 → BitVec 3 → Instr) (d a b : BitVec 3) :
    rK3 mk { d := ofK d, a := ofK a, b := ofK b } = .ok (mk d a b) := by
  simp [rK3, syncAB]

theorem rKnot_reads (d a : BitVec 3) : rKnot { d := ofK d, a := ofK a, b := 0 } = .ok (.knot d a) := by simp [rKnot, kReserved]

theorem rKpop_reads (mk : SReg → BitVec 3 → Instr) (d : SReg) (a : BitVec 3) :
    rKpop mk false { d := ofSReg d, a := ofK a, b := 0 } = .ok (mk d a) := by
  simp [rKpop, kReserved]

theorem toK_ofSReg (d : SReg) : toK (ofSReg d) = none := by
  cases d with
  | g n => revert n; decide
  | s n => revert n; decide
  | m n => revert n; decide

theorem toK_ofSrc (a : Src) : toK (ofSrc a) = none := by
  cases a with
  | g n => revert n; decide
  | s n => revert n; simp only [ofSrc]; decide
  | m n => revert n; simp only [ofSrc]; decide
  | q n => revert n; decide

theorem toKD_eKD (d : KDst) : toKD false (eKD d) = some d := by
  cases d with
  | k n => simp [toKD, eKD]
  | r d => simp [toKD, eKD, toK_ofSReg]

theorem toKS_eKS (a : KSrc) : toKS false (eKS a) (wKS a) = some a := by
  cases a with
  | k n => simp [toKS, eKS]
  | r s => simp [toKS, eKS, wKS, toK_ofSrc]

theorem syncA_eKS (a : KSrc) : syncA (eKS a) (wKS a) = .ok () := by
  cases a with
  | k n => rfl
  | r s => exact syncA_ofSrc s

theorem rKmov_reads {d : KDst} {a : KSrc} (h : WF.instr (.kmov d a) = true) :
    rKmov false { d := eKD d, a := eKS a, wa := wKS a } = .ok (.kmov d a) := by
  have hk : kmovOk d a = true := by cases d <;> cases a <;> exact h
  simp [rKmov, kReserved, toKD_eKD, toKS_eKS, syncA_eKS, hk]

end Sys2Proof.Dec

namespace Sys2Proof.Machine

open Dec in
/-- Vector, conversion and mask instructions (R289-R317). -/
theorem readsBack_vectorRow (i : Instr) (hrow : vectorRow i = true) (hwf : WF.instr i = true) : readsBack i := by
  intro w rest henc
  cases i
  case vadd | vsub | vmul | vfma => exact decode_encoded_A henc (rVarith_reads _ hwf) fun _ => rfl
  case vmin | vmax => exact decode_encoded_A henc (rV3_reads _ (fun _ => true) hwf) fun _ => rfl
  case vand | vor | vxor => exact decode_encoded_A henc (rV3_reads _ (· == .i32) hwf) fun _ => rfl
  case vshl | vshr | vsar | vshrr => exact decode_encoded_A henc (rV3_reads _ tyShift (v3_tyShift hwf)) fun _ => rfl
  case vabs | vneg => exact decode_encoded_A henc (rVabs_reads _ hwf) fun _ => rfl
  case vcmp => exact decode_encoded_A henc (rVcmp_reads hwf _ _ _ _) fun _ => rfl
  case vsel => exact decode_encoded_A henc (rVsel_reads hwf _) fun _ => rfl
  case vmov => exact decode_encoded_A henc (rVmov_reads hwf _ _) fun _ => rfl
  case vbcast => exact decode_encoded_A henc (rVbcast_reads _ _ _ _) fun _ => rfl
  case vext => exact decode_encoded_A henc (rVext_reads _ _ _) fun _ => rfl
  case vins => exact decode_encoded_A henc (rVins_reads hwf _) fun _ => rfl
  case vred => exact decode_encoded_A henc (rVred_reads hwf _ _ _ _) fun _ => rfl
  case vidx => exact decode_encoded_A henc (rVidx_reads hwf _ _) fun _ => rfl
  case vrcp | vrsq | vexp2 | vlog2 => exact decode_encoded_A henc (rVtrans_reads _ hwf) fun _ => rfl
  case vcvt => exact decode_encoded_A henc (rVcvt_reads hwf) fun _ => rfl
  case vpack => exact decode_encoded_A henc (rVpack_reads hwf _ _ _ _) fun _ => rfl
  case vunpk => exact decode_encoded_A henc (rVunpk_reads hwf _) fun _ => rfl
  case vsat => exact decode_encoded_A henc (rVsat_reads hwf) fun _ => rfl
  case vmulq => exact decode_encoded_A henc (rVmulq_reads hwf) fun _ => rfl
  case vquant d a f rm => exact decode_encoded_quant .vquant hwf henc fun _ => rfl
  case vdeq d a f rm => exact decode_encoded_quant .vdeq hwf henc fun _ => rfl
  case vdot d a b k au bu sat =>
    exact decode_encoded_A henc (rVdot_reads (o := { d := d, a := a, b := b, k := k, ty := .i8 }) hwf au bu) fun _ => rfl
  case kand | kor | kxor => exact decode_encoded_A henc (rK3_reads _ _ _ _) fun _ => rfl
  case knot => exact decode_encoded_A henc (rKnot_reads _ _) fun _ => rfl
  case kpop | kfirst => exact decode_encoded_A henc (rKpop_reads _ _ _) fun _ => rfl
  case kmov => exact decode_encoded_A henc (rKmov_reads hwf) fun _ => rfl
  all_goals cases hrow

/-- Settles O8: each word is decoded by the row of its opcode, which reads back the fields that the encoder packed. -/
theorem roundTripVector : Obligations.RoundTripVector := by
  unfold Obligations.RoundTripVector
  exact fun i w rest hrow hwf henc => readsBack_vectorRow i hrow hwf w rest henc

end Sys2Proof.Machine
end

section
/-! CERTIFICATE. Matrix, collective, tensor, engine, system and launch rows read back what the encoder wrote (R319-R374). -/
namespace Sys2Proof.Dec

/-! ## Formats and shapes (R218, R322, R324, R333) -/

theorem toTag_ofTag {t : Tag} (h : (ofTag t != 0) = true) : toTag (ofTag t) = some t := by
  revert h
  cases t <;> decide
theorem ofTag_of_scratch {t : Tag} (h : WF.scratch t = true) : (ofTag t != 0) = true := by
  revert h
  cases t <;> decide
theorem ofTag_of_epi {t : Tag} (h : WF.epi t = true) : (ofTag t != 0) = true := by
  revert h
  cases t <;> decide
theorem scratchFmt_eq_scratch (t : Tag) : scratchFmt t = WF.scratch t := by cases t <;> rfl
theorem elemFmt_eq_elem (t : Tag) : elemFmt t = WF.elem t := by cases t <;> rfl
theorem epiFmt_eq_epi (t : Tag) : epiFmt t = WF.epi t := by cases t <;> rfl

theorem scratchPair_of_pair {t u : Tag} (h : WF.pair t u = true) : scratchPair t u = true ∧ WF.scratch t = true ∧ WF.scratch u = true := by
  revert h
  cases t <;> cases u <;> decide

@[simp] theorem toEdge_ofEdge (e : Edge) : toEdge (ofEdge e) = some e := by cases e <;> rfl
@[simp] theorem toMShape_ofMShape (s : MShape) : toMShape (ofMShape s) = some s := by simp [toMShape, ofMShape]

/-! ## Other modifier fields (R333, R341, R350, R351, R354, R368, R369) -/

@[simp] theorem toAct_ofAct (a : Act) : toAct (ofAct a) = a := by cases a <;> rfl
@[simp] theorem toTRed_ofTRed (o : TRedOp) : toTRed (ofTRed o) = o := by cases o <;> rfl
@[simp] theorem toTew_ofTew (o : TewOp) : toTew (ofTew o) = some o := by cases o <;> rfl
@[simp] theorem toGrade_ofGrade (g : Grade) : toGrade (ofGrade g) = some g := by cases g <;> rfl
@[simp] theorem toTgt_ofTgt (t : Tgt) : toTgt (ofTgt t) = some t := by cases t <;> rfl
@[simp] theorem toLevel_ofLevel (l : Level) : toLevel (ofLevel l) = l := by cases l <;> rfl

@[simp] theorem toSp_ofSp (r : SpReg) : toSp (ofSp r) = some r := by
  cases r with
  | hb n | vw n | lnkcorr n | keep n => revert n; decide
  | _ => rfl

/-! ## Matrix and collective rows (R319-R340) -/

theorem rMma_reads {o : MmaArgs} (h : WF.instr (.mma o) = true) :
    rMma false
      { h := ofSReg o.h, c := ofSReg o.c, l := ofA o.l, n := ofG o.n, shape := ofMShape o.sh,
        fn := (0 : BitVec 2) ++ BitVec.ofBool o.tb ++ BitVec.ofBool o.ta ++ ofTag o.bf ++ ofTag o.af } = .ok (.mma o) := by
  obtain ⟨hformats, htb⟩ := Bool.and_eq_true_iff.1 h
  obtain ⟨hpair, hta⟩ := Bool.and_eq_true_iff.1 hformats
  obtain ⟨hpair, ha, hb⟩ := scratchPair_of_pair hpair
  have hcheck : (scratchPair o.af o.bf && (!o.ta || elemFmt o.af) && (!o.tb || elemFmt o.bf)) = true := by
    rw [hpair, elemFmt_eq_elem, elemFmt_eq_elem, hta, htb]
    rfl
  simp [rMma, toTag_ofTag (ofTag_of_scratch ha), toTag_ofTag (ofTag_of_scratch hb), -Bool.and_eq_true, hcheck]

/-- The format of an operand of MMAT: a handle has none (R326). -/
theorem mmatFmt_reads {t : Option Tag} {tr : Bool} (h : WF.mmatFmt t tr = true) : mmatFmt (decide (t = none)) (fmtNib t) tr = .ok t := by
  cases t with
  | none => rfl
  | some t =>
    obtain ⟨hscratch, htr⟩ := Bool.and_eq_true_iff.1 h
    simp [mmatFmt, fmtNib, toTag_ofTag (ofTag_of_scratch hscratch), scratchFmt_eq_scratch, elemFmt_eq_elem, hscratch, -Bool.or_eq_true, htr]

theorem fmtNib_reserved (t : Option Tag) : (!decide (t = none) || fmtNib t == 0#4) = true := by cases t <;> rfl

theorem rMmat_reads {o : MmatArgs} (h : WF.instr (.mmat o) = true) :
    rMmat
      { h := ofG o.h, c := ofG o.c, l := ofA o.l, n := ofG o.n, shape := ofMShape o.sh,
        fn := BitVec.ofBool o.tb ++ BitVec.ofBool o.ta ++ BitVec.ofBool (decide (o.bf = none)) ++ BitVec.ofBool (decide (o.af = none))
          ++ fmtNib o.bf ++ fmtNib o.af } = .ok (.mmat o) := by
  obtain ⟨hrest, hb⟩ := Bool.and_eq_true_iff.1 h
  obtain ⟨hrest, ha⟩ := Bool.and_eq_true_iff.1 hrest
  obtain ⟨heven, hhandle⟩ := Bool.and_eq_true_iff.1 hrest
  have hone : (decide (o.af = none) || decide (o.bf = none)) = true := by
    simpa only [Bool.or_eq_true, beq_iff_eq, decide_eq_true_eq] using hhandle
  simp [rMmat, toGE_ofG heven, mmatFmt_reads ha, mmatFmt_reads hb, -Bool.not_eq_eq_eq_not, -Bool.or_eq_true, fmtNib_reserved, hone]

theorem bits_ofMShape_m (s : MShape) : bits (ofMShape s) 10 2 = ofEdge s.m := by simp [ofMShape]

theorem rMmag_reads {o : MmagArgs} (h : WF.instr (.mmag o) = true) :
    rMmag
      { h := ofG o.h, c := ofV o.vi, l := ofA o.l, n := ofG o.n, shape := ofMShape o.sh,
        fn := (0 : BitVec 4) ++ ofTag o.bf ++ (0 : BitVec 4) } = .ok (.mmag o) := by
  obtain ⟨hodd, hb⟩ := Bool.and_eq_true_iff.1 h
  have hedge : (!bits (ofMShape o.sh) 10 2 == 2#2 || !bit o.vi 0) = true := by
    rw [bits_ofMShape_m, ← hodd]
    cases o.sh.m <;> rfl
  simp [rMmag, toTag_ofTag (ofTag_of_scratch hb), scratchFmt_eq_scratch, hb, -Bool.or_eq_true, -Bool.not_eq_eq_eq_not, hedge]

theorem rMmas_reads {c : BitVec 5} (hc : WF.even c = true) (h : BitVec 5) (l : BitVec 4) (sh : MShape) :
    rMmas { h := ofG h, c := ofG c, l := ofA l, shape := ofMShape sh } = .ok (.mmas h c l sh) := by
  simp [rMmas, toGE_ofG hc]

theorem rAzero_reads (l : BitVec 4) (t : Bool) : rAzero { l := ofA l, fn := (0 : BitVec 11) ++ BitVec.ofBool t } = .ok (.azero l t) := by
  simp [rAzero]

theorem rArel_reads (mk : BitVec 4 → Instr) (l : BitVec 4) : rArel mk { l := ofA l, fn := 0 } = .ok (mk l) := by simp [rArel]

theorem epiShape_extended (m n : Edge) : epiShape (ofEdge m ++ ofEdge n ++ (0 : BitVec 7) ++ (1 : BitVec 1)) = .ok (some (m, n)) := by
  simp [epiShape]

theorem rAepi_reads {o : AepiArgs} {sh : BitVec 12} (h : WF.instr (.aepi o) = true) (hxs : epiShape sh = .ok o.xs)
    (hsh : (bit sh 0 || bits sh 8 4 == 0) = true) :
    rAepi false
      { h := ofSReg o.h, c := ofG o.c, l := ofA o.l, n := ofG o.n, shape := sh,
        fn := eHigh o.rm ++ BitVec.ofBool o.rel ++ BitVec.ofBool o.add ++ ofAct o.act ++ ofTag o.df } = .ok (.aepi o) := by
  obtain ⟨hops, hadd⟩ := Bool.and_eq_true_iff.1 h
  obtain ⟨hepi, hact⟩ := Bool.and_eq_true_iff.1 hops
  have hclamp : (!ofAct o.act == 3#2 || !o.n == 0#5) = true := by
    rw [← hact]
    cases o.act <;> rfl
  have hbias : ¬(o.add = true ∧ o.c = 0#5) := by
    rintro ⟨hset, hzero⟩
    simp [hset, hzero] at hadd
  have hshape : (bit sh 0 || bits sh 8 4 == 0#4) = true := hsh
  obtain ⟨h, c, l, n, xs, df, act, add, rel, rm⟩ := o
  dsimp only at *
  cases rm <;> simp [rAepi, fnHigh, fnHighRM, eHigh, toTag_ofTag (ofTag_of_epi hepi), epiFmt_eq_epi, hepi, hxs,
    -Bool.or_eq_true, -Bool.not_eq_eq_eq_not, hshape, hclamp, hbias]

theorem rAimg_reads (mk : SReg → BitVec 4 → Instr) (h : SReg) (l : BitVec 4) :
    rAimg mk false { h := ofSReg h, l := ofA l } = .ok (mk h l) := by
  simp [rAimg]

theorem rColl_reads (o : CollArgs) (op : BitVec 2) {i : Instr}
    (hop : [Instr.collAr o, .collRs o, .collAg o, .collA2a o][op.toNat]? = some i) :
    rColl { h := ofG o.h, c := ofG o.c, l := ofG o.l, n := ofCZ o.n, fn := (0 : BitVec 10) ++ op } = .ok i := by
  obtain ⟨k, hk⟩ := op
  interval_cases k <;> cases hop <;> simp [rColl]

/-! ## Tensor and engine rows (R341-R361) -/

theorem rTalloc_reads (h c l st : BitVec 5) :
    rTalloc { h := ofG h, c := ofG c, l := ofG l, fn := (0 : BitVec 4) ++ ofG st } = .ok (.talloc h c l st) := by
  simp [rTalloc]

section
variable {h c l : SReg} {rm : Option RMode}

theorem rTfree_reads : rTfree false { h := ofSReg h } = .ok (.tfree h) := by simp [rTfree]

theorem rTwiden_reads (st : BitVec 5) (wait : Bool) :
    rTwiden false { h := ofSReg h, c := ofSReg c, fn := (0 : BitVec 3) ++ BitVec.ofBool wait ++ ofG st } = .ok (.twiden h c st wait) := by
  simp [rTwiden]

theorem rTinfo_reads (w : BitVec 3) : rTinfo false { h := ofSReg h, l := ofSReg l, fn := (0 : BitVec 9) ++ w } = .ok (.tinfo h l w) := by
  simp [rTinfo]

theorem rTld_reads (mk : TileArgs → Instr) (o : TileArgs) :
    rTld mk false { h := ofSReg o.h, c := ofSReg o.c, l := ofSReg o.l, n := 0, shape := ofTShape o.sh, fn := 0 } = .ok (mk o) := by
  simp [rTld]

theorem rTst_reads (o : TileArgs) (add : Bool) :
    rTst false { h := ofSReg o.h, c := ofSReg o.c, l := ofSReg o.l, n := 0, shape := ofTShape o.sh, fn := if add then 1 else 0 } =
      .ok (if add then .tstAdd o else .tst o) := by
  cases add <;> simp [rTst]

theorem rTred_reads (o : TileArgs) (op : TRedOp) (col : Bool) :
    rTred false
      { h := ofSReg o.h, c := ofSReg o.c, l := ofSReg o.l, n := 0, shape := ofTShape o.sh,
        fn := eHigh rm ++ (0 : BitVec 5) ++ ofTRed op ++ BitVec.ofBool col } = .ok (if col then .tredCol o op rm else .tredRow o op rm) := by
  cases rm <;> simp [rTred, fnHigh, fnHighRM, eHigh]

theorem rTscale_reads (l : BitVec 5) (sh : TShape) :
    rTscale false { h := ofSReg h, c := ofSReg c, l := ofG l, shape := ofTShape sh, fn := eHigh rm ++ (0 : BitVec 8) } =
      .ok (.tscale h c l sh rm) := by
  cases rm <;> simp [rTscale, fnHigh, fnHighRM, eHigh]

/-- TEW with a tile, with a scalar, and RELU (R351). -/
theorem rTew_reads_tile (op : TewOp) (sh : TShape) :
    rTew false
      { h := ofSReg h, c := ofSReg c, l := ofSReg l, shape := ofTShape sh, fn := eHigh rm ++ (0 : BitVec 5) ++ ofTew op } =
      .ok (.tew h c (.tile op l) sh rm) := by
  have hop : (ofTew op == 4#3) = false := by cases op <;> rfl
  cases rm <;> simp [rTew, fnHigh, fnHighRM, eHigh, hop]

theorem rTew_reads_scalar (op : TewOp) (l : BitVec 5) (sh : TShape) :
    rTew false
      { h := ofSReg h, c := ofSReg c, l := ofG l, shape := ofTShape sh, fn := eHigh rm ++ (1 : BitVec 5) ++ ofTew op } =
      .ok (.tew h c (.scalar op l) sh rm) := by
  have hop : (ofTew op == 4#3) = false := by cases op <;> rfl
  cases rm <;> simp [rTew, fnHigh, fnHighRM, eHigh, hop]

theorem rTew_reads_relu (sh : TShape) :
    rTew false { h := ofSReg h, c := ofSReg c, shape := ofTShape sh, fn := eHigh rm ++ (0 : BitVec 5) ++ (4 : BitVec 3) } =
      .ok (.tew h c .relu sh rm) := by
  cases rm <;> simp [rTew, fnHigh, fnHighRM, eHigh]

theorem rTcopyI_reads {c : BitVec 5} (hc : WF.even c = true) (l : BitVec 5) (sh : TShape) (t : Bool) :
    rTcopyI false
      { h := ofSReg h, c := ofG c, l := ofG l, shape := ofTShape sh, fn := eHigh rm ++ (0 : BitVec 7) ++ BitVec.ofBool t } =
      .ok (.tcopy h c l sh t rm) := by
  cases rm <;> simp [rTcopyI, fnHigh, fnHighRM, eHigh, toGE_ofG hc]

theorem rStash_reads (mk : StashArgs → Instr) (o : StashArgs) :
    rStash mk false
      { h := ofSReg o.h, l := ofG o.l, n := ofCZ o.n, fn := ofTgt o.tgt ++ ofGrade o.grade ++ ofG o.st } = .ok (mk o) := by
  simp [rStash]

theorem rNmload_reads : rNmload false { h := ofSReg h, c := ofSReg c } = .ok (.nmload h c) := by simp [rNmload]

theorem rNmstrm_reads (r k : BitVec 4) :
    rNmstrm false { h := ofSReg h, c := ofSReg c, shape := r ++ k ++ (0 : BitVec 4) } = .ok (.nmstrm h c r k) := by
  simp [rNmstrm]

theorem rNmdrain_reads (r k : BitVec 4) :
    rNmdrain false { h := ofSReg h, c := ofSReg c, shape := r ++ k ++ (0 : BitVec 4), fn := eHigh rm ++ (0 : BitVec 8) } =
      .ok (.nmdrain h c r k rm) := by
  cases rm <;> simp [rNmdrain, fnHigh, fnHighRM, eHigh]

end

/-! ## System and launch rows (R362-R374) -/

section
variable {d : SReg} {a b : Src}

theorem rSpawn_reads (h : WF.noClash a b = true) :
    rSpawn false { a := ofSrc a, wa := wOf a, b := ofSrc b, wb := wOf b } = .ok (.spawn a b) := by
  simp [rSpawn, syncAB, specifiers_noClash h]

theorem rReap_reads (h : WF.noClash a b = true) :
    rReap false { d := ofSReg d, a := ofSrc a, wa := wOf a, b := ofSrc b, wb := wOf b } = .ok (.reap d a b) := by
  simp [rReap, syncAB, specifiers_noClash h]

theorem rLaunch_reads : rLaunch false { d := ofSReg d, a := ofSrc a, wa := wOf a } = .ok (.launch d a) := by simp [rLaunch]

theorem rCancel_reads (l : Level) :
    rCancel false { d := ofSReg d, a := ofSrc a, wa := wOf a, fn := (0 : BitVec 10) ++ ofLevel l } = .ok (.cancel l d a) := by
  simp [rCancel]

theorem rSysrd_reads (r : SpReg) : rSysrd false { d := ofSReg d, imm := (0 : BitVec 20) ++ ofSp r } = .ok (.sysrd d r) := by
  simp [rSysrd]

theorem rSyswr_reads (r : SpReg) : rSyswr false { a := ofSrc a, wa := wOf a, imm := (0 : BitVec 20) ++ ofSp r } = .ok (.syswr r a) := by
  simp [rSyswr]

theorem rXret_reads : rXret false {} = .ok (.xret none) := rfl

theorem rXret_reads_some (h : WF.notQ a = true) : rXret false { a := ofSrc a, wa := wOf a, fn := 1 } = .ok (.xret (some a)) := by
  simp [rXret, toBase_ofSrc h]

theorem rSvc_reads (n : BitVec 16) : rSvc { imm := (0 : BitVec 16) ++ n } = .ok (.svc n) := by
  have hn : n.toNat < 0x10000 := n.isLt
  simp [rSvc, hn]

end

end Sys2Proof.Dec

namespace Sys2Proof.Machine
open Sys2Proof.Dec

theorem readsBack_engineRow (i : Instr) (hrow : engineRow i = true) (hwf : WF.instr i = true) : readsBack i := by
  intro w rest henc
  cases i
  case mma => exact decode_encoded_T henc (rMma_reads hwf) fun _ => rfl
  case mmat => exact decode_encoded_T henc (rMmat_reads hwf) fun _ => rfl
  case mmag => exact decode_encoded_T henc (rMmag_reads hwf) fun _ => rfl
  case mmas => exact decode_encoded_T henc (rMmas_reads hwf _ _ _) fun _ => rfl
  case azero => exact decode_encoded_T henc (rAzero_reads _ _) fun _ => rfl
  case aepi o =>
    obtain ⟨h, c, l, n, xs, df, act, add, rel, rm⟩ := o
    cases xs with
    | none => exact decode_encoded_T henc (rAepi_reads (sh := 0) hwf rfl (by decide)) fun _ => rfl
    | some e =>
      exact decode_encoded_T henc (rAepi_reads (sh := ofEdge e.1 ++ ofEdge e.2 ++ (0 : BitVec 7) ++ (1 : BitVec 1)) hwf
        (epiShape_extended _ _) (by simp)) fun _ => rfl
  case arel | aclaim => exact decode_encoded_T henc (rArel_reads _ _) fun _ => rfl
  case asave | aload => exact decode_encoded_T henc (rAimg_reads _ _ _) fun _ => rfl
  case collAr | collRs | collAg | collA2a => exact decode_encoded_T henc (rColl_reads _ _ rfl) fun _ => rfl
  case talloc => exact decode_encoded_T henc (rTalloc_reads _ _ _ _) fun _ => rfl
  case tfree => exact decode_encoded_T henc rTfree_reads fun _ => rfl
  case twiden => exact decode_encoded_T henc (rTwiden_reads _ _) fun _ => rfl
  case tinfo => exact decode_encoded_T henc (rTinfo_reads _) fun _ => rfl
  case tld | tldt => exact decode_encoded_T henc (rTld_reads _ _) fun _ => rfl
  case tst => exact decode_encoded_T henc (rTst_reads _ false) fun _ => rfl
  case tstAdd => exact decode_encoded_T henc (rTst_reads _ true) fun _ => rfl
  case tredRow => exact decode_encoded_T henc (rTred_reads _ _ false) fun _ => rfl
  case tredCol => exact decode_encoded_T henc (rTred_reads _ _ true) fun _ => rfl
  case tscale => exact decode_encoded_T henc (rTscale_reads _ _) fun _ => rfl
  case tew h c y sh rm =>
    cases y with
    | tile => exact decode_encoded_T henc (rTew_reads_tile _ _) fun _ => rfl
    | scalar => exact decode_encoded_T henc (rTew_reads_scalar _ _ _) fun _ => rfl
    | relu => exact decode_encoded_T henc (rTew_reads_relu _) fun _ => rfl
  case tcopy => exact decode_encoded_T henc (rTcopyI_reads hwf _ _ _) fun _ => rfl
  case stash | restore => exact decode_encoded_T henc (rStash_reads _ _) fun _ => rfl
  case nmload => exact decode_encoded_T henc rNmload_reads fun _ => rfl
  case nmstrm => exact decode_encoded_T henc (rNmstrm_reads _ _) fun _ => rfl
  case nmdrain => exact decode_encoded_T henc (rNmdrain_reads _ _) fun _ => rfl
  case spawn => exact decode_encoded_A henc (rSpawn_reads hwf) fun _ => rfl
  case reap => exact decode_encoded_A henc (rReap_reads hwf) fun _ => rfl
  case launch => exact decode_encoded_A henc rLaunch_reads fun _ => rfl
  case cancel => exact decode_encoded_A henc (rCancel_reads _) fun _ => rfl
  case sysrd => exact decode_encoded_I henc (rSysrd_reads _) fun _ => rfl
  case syswr => exact decode_encoded_I henc (rSyswr_reads _) fun _ => rfl
  case xret a =>
    cases a with
    | none => exact decode_encoded_A henc rXret_reads fun _ => rfl
    | some a => exact decode_encoded_A henc (rXret_reads_some hwf) fun _ => rfl
  case svc => exact decode_encoded_I henc (rSvc_reads _) fun _ => rfl
  case keep => exact decode_encoded_I henc (rSub8_reads _ _) fun _ => rfl
  all_goals cases hrow

/-- Settles O9: each word is decoded by the row of its opcode, which reads back the fields that the encoder packed. -/
theorem roundTripEngines : Obligations.RoundTripEngines := by
  unfold Obligations.RoundTripEngines
  exact fun i w rest hrow hwf henc => readsBack_engineRow i hrow hwf w rest henc

end Sys2Proof.Machine
end

section
/-! CERTIFICATE. Words of the spec's examples, and the g, v and k registers read back (R209, R214, R219, R221, R226). -/
namespace Sys2Proof.Dec

theorem bits_isHeader {w : Word} (h : isHeader w = true) : bits w 60 4 = 0xF := by
  simpa [isHeader] using h

theorem isLiteral_of_isHeader {w : Word} (h : isHeader w = true) : isLiteral w = false := by
  rw [isLiteral, bits_isHeader h]
  rfl

/-- The opcode 0x2E has 2, not 0xF, in its high nibble. -/
theorem isMovx_of_isHeader {w : Word} (h : isHeader w = true) : isMovx w = false := by
  have hnibble : bits (bits w 56 8) 4 4 = 0xF := by
    rw [bits_bits w (by decide)]
    exact bits_isHeader h
  apply Bool.eq_false_iff.2
  intro hmovx
  rw [beq_iff_eq.1 hmovx] at hnibble
  cases hnibble

theorem decode_of_isLiteral {w : Word} (h : isLiteral w = true) (far : Bool) (next : Option Word) :
    decode far w next = .error (illegal 6 60) := if_pos h

/-- No row of the table has 0xF in its opcode's high nibble (R209). -/
theorem decode_of_isHeader {w : Word} (h : isHeader w = true) (far : Bool) (next : Option Word) : decode far w next = unassigned := by
  unfold decode
  rw [isLiteral_of_isHeader h, isMovx_of_isHeader h, bits_isHeader h]
  rfl

end Sys2Proof.Dec

namespace Sys2Proof.Machine
open Sys2Proof.Dec

/-- Settles O6: the decoder reads the seven words as printed, and refuses literals and headers by their class. -/
theorem specWordsDecode : Obligations.SpecWordsDecode := by
  unfold Obligations.SpecWordsDecode
  refine ⟨by decide, by decide, by decide, by decide, by decide, by decide, fun far w next => ⟨?_, ?_⟩⟩
  · exact fun h => decode_of_isLiteral h far next
  · exact fun h => ⟨_, decode_of_isHeader h far next⟩

/-! ## Registers read back (R214, R221) -/

section
variable (r : Regs) {n k : Nat}

@[simp] theorem Regs.readG_zero : r.readG 0 = 0 := rfl
@[simp] theorem Regs.readK_zero : r.readK 0 = BitVec.allOnes 64 := rfl
@[simp] theorem Regs.writeG_zero (x : Word) : r.writeG 0 x = r := rfl
@[simp] theorem Regs.writeK_zero (x : Word) : r.writeK 0 x = r := rfl

theorem Regs.readG_writeG_self (hn : n ≠ 0) (x : Word) : (r.writeG n x).readG n = x := by
  simp [readG, writeG, hn]
theorem Regs.readV_writeV_self (x : Row) : (r.writeV n x).readV n = x := by
  simp [readV, writeV]
theorem Regs.readK_writeK_self (hn : n ≠ 0) (x : Word) : (r.writeK n x).readK n = x := by
  simp [readK, writeK, hn]

theorem Regs.readG_writeG_ne (x : Word) (h : k ≠ n) : (r.writeG n x).readG k = r.readG k := by
  by_cases hn : n = 0 <;> simp [readG, writeG, hn, h]
theorem Regs.readV_writeV_ne (x : Row) (h : k ≠ n) : (r.writeV n x).readV k = r.readV k := by
  simp [readV, writeV, h]
theorem Regs.readK_writeK_ne (x : Word) (h : k ≠ n) : (r.writeK n x).readK k = r.readK k := by
  by_cases hn : n = 0 <;> simp [readK, writeK, hn, h]

theorem Regs.writeG_v (x : Word) : (r.writeG n x).v = r.v := by by_cases hn : n = 0 <;> simp [writeG, hn]
theorem Regs.writeG_k (x : Word) : (r.writeG n x).k = r.k := by by_cases hn : n = 0 <;> simp [writeG, hn]
theorem Regs.writeK_g (x : Word) : (r.writeK n x).g = r.g := by by_cases hn : n = 0 <;> simp [writeK, hn]
theorem Regs.writeK_v (x : Word) : (r.writeK n x).v = r.v := by by_cases hn : n = 0 <;> simp [writeK, hn]

end

/-- Settles O14: reading after a write to the same register, to another one, and to a register of another file. -/
theorem hardWiredRegisters : Obligations.HardWiredRegisters := by
  unfold Obligations.HardWiredRegisters
  intro r
  refine ⟨⟨r.readG_zero, r.readK_zero⟩, r.writeG_zero, r.writeK_zero, fun n x hn => ?_, fun n x => ?_, fun n x hn => ?_⟩
  · exact ⟨r.readG_writeG_self hn x, fun k => r.readG_writeG_ne x,
      fun k => ⟨by rw [Regs.readV, r.writeG_v, Regs.readV], by rw [Regs.readK, r.writeG_k, Regs.readK]⟩⟩
  · exact ⟨r.readV_writeV_self x, fun k => r.readV_writeV_ne x, fun k => ⟨rfl, rfl⟩⟩
  · exact ⟨r.readK_writeK_self hn x, fun k => r.readK_writeK_ne x,
      fun k => ⟨by rw [Regs.readG, r.writeK_g, Regs.readG], by rw [Regs.readV, r.writeK_v, Regs.readV]⟩⟩

end Sys2Proof.Machine
end

section
/-! CERTIFICATE. A transfer whose target no route reaches: the trap is taken, and its missing route is an event of kind 7 besides
(R211, R250, R252, R423). -/
namespace Sys2Proof.Machine
open Sys2Proof.Tests

/-- Thread 1 of `blocks`, with 2 in g1, in a package whose 64 links from the infield die to the first optical die are down: no route
leads to the host window, which job 0 has at address 0x80000000. -/
def hostCutOff : State :=
  { blocks [(1, 2)] with
    links := (List.range 64).map fun k => ((linksTo Config.infieldDie Config.opticalDie0).1 + k, { Link.dflt with down := true }) }

/-- The distance in words from 0x1000, where thread 1 stands, to 0x80000000. -/
def toHost : BitVec 35 := 0xFFFFE00

/-- The interrupts that an outcome leaves raised. -/
def interruptsOf : Out → Nat
  | .next t => t.pkg.msix.length
  | _ => 0

theorem hostCutOff_live : hostCutOff.live := ⟨by decide, by decide⟩

theorem targetFault_hostCutOff : hostCutOff.targetFault hostCutOff.cur (0x80000000 : BitVec 56).toNat = some (0x0C, 0x80000000) := by
  decide +kernel

/-- The trap alone raises no interrupt. -/
theorem interruptsOf_trapMe_hostCutOff : interruptsOf (.next (hostCutOff.trapMe 0x0C 0x80000000)) = 0 := by decide +kernel

/-- The event of kind 7 raises one. -/
theorem interruptsOf_jmp_hostCutOff : interruptsOf (exec (.jmp toHost) hostCutOff) = 1 := by decide +kernel
theorem interruptsOf_loop_hostCutOff : interruptsOf (exec (.loop 1 toHost) hostCutOff) = 1 := by decide +kernel

/-- Refutes O22: a JMP to a page that no route of up links reaches takes trap 0x0C, but the state after it is not `trapMe`'s: the
missing route is also logged, an event of kind 7 that raises an interrupt (R423). -/
theorem not_branches : ¬ Obligations.Branches := by
  unfold Obligations.Branches
  rintro ⟨hjmp, -⟩
  have htrap := (hjmp hostCutOff toHost 0x80000000 hostCutOff_live (by decide)).2 0x0C 0x80000000 targetFault_hostCutOff
  have hraised := interruptsOf_jmp_hostCutOff
  rw [htrap, interruptsOf_trapMe_hostCutOff] at hraised
  cases hraised

/-- Refutes O24: the clause on a LOOP whose target's check fails, by the same missing route: g1 is 2, so that LOOP branches. -/
theorem not_callsAndLoops : ¬ Obligations.CallsAndLoops := by
  unfold Obligations.CallsAndLoops
  rintro ⟨-, -, hloop, -⟩
  have htrap := (hloop hostCutOff 1 toHost 0x80000000 hostCutOff_live (by decide)).2.1 (by decide) 0x0C 0x80000000 targetFault_hostCutOff
  have hraised := interruptsOf_loop_hostCutOff
  rw [htrap, interruptsOf_trapMe_hostCutOff] at hraised
  cases hraised

end Sys2Proof.Machine
end

section
/-! CERTIFICATE. Elements of a row, the merge under a lane mask, and the three permutations (R223, R289-R291). -/
namespace Sys2Proof.Machine

/-! ## Elements of packed rows (R289) -/

theorem elemAt_eq_fieldN (x : Row) (w i : Nat) : elemAt x w i = fieldN x.toNat (w * i) w := rfl

theorem elemAt_mod (x : Row) (w i : Nat) : elemAt x w i % 2 ^ w = elemAt x w i := Nat.mod_mod _ _

theorem fieldN_fieldN {x lo n lo' n' : Nat} (h : lo' + n' ≤ n) : fieldN (fieldN x lo n) lo' n' = fieldN x (lo + lo') n' := by
  apply Nat.eq_of_testBit_eq
  intro i
  simp only [fieldN, Nat.testBit_mod_two_pow, Nat.testBit_shiftRight, ← Nat.add_assoc]
  grind

theorem toNat_ofNat_packNat {w n : Nat} {xs : List Nat} (h : w * xs.length ≤ n) : (BitVec.ofNat n (packNat w xs)).toNat = packNat w xs := by
  rw [BitVec.toNat_ofNat, Nat.mod_eq_of_lt (packNat_lt xs h)]

theorem elemAt_ofElems {w : Nat} {xs : List Nat} (h : w * xs.length ≤ 2048) (e : Nat) : elemAt (ofElems w xs) w e = xs.getD e 0 % 2 ^ w := by
  rw [elemAt_eq_fieldN, ofElems, toNat_ofNat_packNat h, fieldN_packNat]

theorem elemAt_rowOf {w e : Nat} (g : Nat → Nat) (he : e < 2048 / w) : elemAt (rowOf w g) w e = g e % 2 ^ w := by
  have hlen : w * ((List.range (2048 / w)).map g).length ≤ 2048 := by
    rw [List.length_map, List.length_range]
    exact Nat.mul_div_le 2048 w
  rw [rowOf, elemAt_ofElems hlen, List.getD_eq_getElem _ _ (by simpa using he), List.getElem_map, List.getElem_range]

/-- An element lies within its lane of 32 bits. -/
theorem elemAt_eq_lane {w : Nat} (hw : w = 8 ∨ w = 16 ∨ w = 32) (x : Row) (e : Nat) :
    elemAt x w e = fieldN (elemAt x 32 (e * w / 32)) (e * w % 32) w := by
  have hplace : 32 * (e * w / 32) + e * w % 32 = w * e := by rw [Nat.div_add_mod, Nat.mul_comm]
  have hfit : e * w % 32 + w ≤ 32 := by rcases hw with rfl | rfl | rfl <;> omega
  rw [elemAt_eq_fieldN x 32, fieldN_fieldN hfit, hplace, elemAt_eq_fieldN]

theorem lane_lt_of_elem {w e : Nat} (hw : w = 8 ∨ w = 16 ∨ w = 32) (he : e < 2048 / w) : e * w / 32 < 64 := by
  rcases hw with rfl | rfl | rfl <;> omega

/-! ## The merge under a mask (R291) -/

theorem mergeLanes_lane (m : Word) (new old : Row) {l : Nat} (hl : l < 64) :
    elemAt (mergeLanes m new old) 32 l = if m.getLsbD l then elemAt new 32 l else elemAt old 32 l := by
  unfold mergeLanes
  split
  next hall => rw [hall, BitVec.getLsbD_allOnes, decide_eq_true hl, if_pos rfl]
  next =>
    rw [← rowOf, elemAt_rowOf _ hl]
    split <;> exact elemAt_mod _ _ _

theorem elemAt_mergeLanes (m : Word) (new old : Row) {w e : Nat} (hw : w = 8 ∨ w = 16 ∨ w = 32) (he : e < 2048 / w) :
    elemAt (mergeLanes m new old) w e = if m.getLsbD (e * w / 32) then elemAt new w e else elemAt old w e := by
  rw [elemAt_eq_lane hw, mergeLanes_lane _ _ _ (lane_lt_of_elem hw he), elemAt_eq_lane hw new, elemAt_eq_lane hw old]
  split <;> rfl

/-! ## Permutations (R223) -/

theorem elemAt_permRow (p : Perm) (x : Row) {l : Nat} (hl : l < 64) : elemAt (permRow p x) 32 l = elemAt x 32 (permLane p l) := by
  have hpacked (q : Nat → Nat) : elemAt (rowOf 32 fun l => elemAt x 32 (q l)) 32 l = elemAt x 32 (q l) := by
    rw [elemAt_rowOf _ hl, elemAt_mod]
  cases p with
  | none => rfl
  | rot | bfly | bcast => exact hpacked _

/-- The lanes of a segment. -/
def segLanes (seg : BitVec 3) : Nat := if seg = 0 then 64 else 2 ^ seg.toNat

theorem permLane_rot (seg : BitVec 3) (d : BitVec 7) (l : Nat) :
    permLane (.rot seg d) l = l - l % segLanes seg + (l % segLanes seg + d.toNat) % segLanes seg := rfl
theorem permLane_bcast (seg : BitVec 3) (d : BitVec 7) (l : Nat) : permLane (.bcast seg d) l = l - l % segLanes seg + d.toNat := rfl

theorem segLanes_dvd {seg : BitVec 3} (h : seg ≠ 7) : segLanes seg ∣ 64 := by
  revert seg
  decide

theorem segLanes_pos (seg : BitVec 3) : 0 < segLanes seg := by
  revert seg
  decide

/-- A lane of a segment of the 64 lanes is one of them. -/
theorem segment_lane_lt {S l i : Nat} (hS : S ∣ 64) (hl : l < 64) (hi : i < S) : l - l % S + i < 64 := by
  obtain ⟨k, hk⟩ := hS
  have hseg : l / S < k := Nat.div_lt_of_lt_mul (hk ▸ hl)
  have hstart : l - l % S = S * (l / S) := by
    have hdiv := Nat.div_add_mod l S
    omega
  calc l - l % S + i < S * (l / S) + S := by omega
    _ = S * (l / S + 1) := (Nat.mul_succ _ _).symm
    _ ≤ S * k := Nat.mul_le_mul_left S hseg
    _ = 64 := hk.symm

/-- The start and the place of lane `gS + i`. -/
theorem segment_of_lane {S i : Nat} (hi : i < S) (g : Nat) : (g * S + i) % S = i ∧ g * S + i - (g * S + i) % S = g * S := by
  have hmod : (g * S + i) % S = i := by rw [Nat.mul_comm, Nat.mul_add_mod, Nat.mod_eq_of_lt hi]
  exact ⟨hmod, by rw [hmod, Nat.add_sub_cancel]⟩

section
variable {seg : BitVec 3} {i : Nat} (d : BitVec 7) (hi : i < segLanes seg) (g : Nat)
include hi

theorem permLane_rot_segment : permLane (.rot seg d) (g * segLanes seg + i) = g * segLanes seg + (i + d.toNat) % segLanes seg := by
  obtain ⟨hplace, hstart⟩ := segment_of_lane hi g
  rw [permLane_rot, hstart, hplace]

theorem permLane_bcast_segment : permLane (.bcast seg d) (g * segLanes seg + i) = g * segLanes seg + d.toNat := by
  rw [permLane_bcast, (segment_of_lane hi g).2]

end

theorem permLane_bfly_lt {d : BitVec 7} (hd : d.toNat < 6) (seg : BitVec 3) {l : Nat} (hl : l < 64) : permLane (.bfly seg d) l < 64 :=
  Nat.xor_lt_two_pow (n := 6) hl (Nat.pow_lt_pow_right (by decide) hd)

theorem testBit_permLane_bfly (seg : BitVec 3) (d : BitVec 7) (l n : Nat) :
    (permLane (.bfly seg d) l).testBit n = (l.testBit n != decide (n = d.toNat)) := by
  rw [permLane, Nat.testBit_xor, Nat.testBit_two_pow]
  simp [eq_comm]

/-! ## A scalar B (R290) -/

theorem readVSrc_scalar {w : Nat} {n : Src} {x : Word} {s s1 : State} (h : readSrc 2 n s = .ok (x, s1)) :
    readVSrc w (.sc n) s = .ok (rowOf w fun _ => x.toNat % 2 ^ w, s1) := by
  rw [readVSrc, M.bind_ok h, rowOf, List.map_const', List.length_range]
  rfl

/-- Settles O43: elements by the digits of a packed row, lanes of 8 and 16 bits within those of 32, and the segments' arithmetic. -/
theorem laneMerge : Obligations.LaneMerge := by
  unfold Obligations.LaneMerge
  refine ⟨fun w g e _ he => elemAt_rowOf g he, fun m new old w e hw he => elemAt_mergeLanes m new old hw he,
    fun p x l hl _ => elemAt_permRow p x hl, fun seg d l hl hseg hd => ⟨?_, ?_⟩, fun seg d g i => ?_,
    fun seg d l hl hd => ⟨permLane_bfly_lt hd seg hl, testBit_permLane_bfly seg d l⟩, fun s w n x s1 hread _ => ?_⟩
  · rw [permLane_rot]
    exact segment_lane_lt (segLanes_dvd hseg) hl (Nat.mod_lt _ (segLanes_pos seg))
  · rw [permLane_bcast]
    exact segment_lane_lt (segLanes_dvd hseg) hl hd
  · exact fun hi => ⟨permLane_rot_segment d hi g, permLane_bcast_segment d hi g⟩
  · refine ⟨_, readVSrc_scalar hread, fun e he => ?_⟩
    rw [elemAt_rowOf _ he, Nat.mod_mod]

end Sys2Proof.Machine
end

section
/-! CERTIFICATE. The frame of the scalar instructions with a destination (R221, R239, R240). -/
namespace Sys2Proof.Machine

/-! ## Completing and parking change no register -/

/-- No byte changes, no register of any slot, and no PC but that of the issuing thread. -/
def regsKept (s t : State) : Prop :=
  (∀ a, t.byte a = s.byte a) ∧ (∀ c p, t.padByte c p = s.padByte c p) ∧
    (∀ k, (t.slot k).regs = (s.slot k).regs ∧ (t.slot k).sp = (s.slot k).sp) ∧
    ∀ k, k ≠ s.cur → (t.slot k).pc = (s.slot k).pc

theorem regsKept_refl (s : State) : regsKept s s := ⟨fun _ => rfl, fun _ _ => rfl, fun _ => ⟨rfl, rfl⟩, fun _ _ => rfl⟩

theorem regsKept_modMe (s : State) (f : Slot → Slot) (h : ∀ x, (f x).regs = x.regs ∧ (f x).sp = x.sp) : regsKept s (s.modSlot s.cur f) := by
  refine ⟨fun _ => rfl, fun _ _ => rfl, fun k => ?_, fun k hk => by rw [State.modSlot_slot_ne s f hk]⟩
  by_cases hk : k = s.cur
  · rw [hk, State.modSlot_slot_self]
    exact h _
  · rw [State.modSlot_slot_ne s f hk]
    exact ⟨rfl, rfl⟩

theorem regsKept_advance (s : State) (i : Instr) : regsKept s (s.advance i) := regsKept_modMe s _ fun _ => ⟨rfl, rfl⟩
theorem regsKept_parkOn (s : State) (i : Instr) (k : WaitKind) : regsKept s (s.parkOn i k) := regsKept_modMe s _ fun _ => ⟨rfl, rfl⟩

/-! ## A write of one destination -/

theorem destBut_of_still {d : SReg} {s t : State} (h : still s t) : destBut d s t := fun _ _ => still_but h

/-- A finished write of a mailbox: its register is filled, or the core is asked again (R120). -/
theorem mailDone_frame (s : State) (i : Instr) (r : Nat) (v : Word) : ∃ u, still s u ∧ regsKept u (s.mailDone i r v) := by
  unfold State.mailDone
  split
  · have hdone : still s (({ s with grant := none } : State).doneMail s.cur) := framing_still.2 _ _ _ (still_grant s) (State.still_doneMail _ _)
    exact ⟨_, framing_still.2 _ _ _ hdone (State.still_fillReg _ _ _ _ _ _), regsKept_advance _ i⟩
  · exact ⟨s.askMail s.cur, still_modCore s _ _ fun _ => rfl, regsKept_parkOn _ i _⟩

/-- An instruction that raises no trap and writes one destination changes that, then completes or parks. -/
theorem run_destBut {i : Instr} {d : SReg} {m : M Unit} {s t : State} (hm : keeps False (destBut d) m) (e : run i m s = .next t) :
    ∃ u, destBut d s u ∧ regsKept u t := by
  cases hmail : s.me.mailOut with
  | none =>
    rcases run_keeps (framing_destBut d) hmail hm e with ⟨u, hu, rfl⟩ | ⟨hfalse, -⟩ | ⟨u, k, hu, rfl⟩ | ht
    · exact ⟨u, hu, regsKept_advance u i⟩
    · exact hfalse.elim
    · exact ⟨u, hu, regsKept_parkOn u i k⟩
    · exact ⟨t, ht, regsKept_refl t⟩
  | some rv =>
    cases hstop : (s.die (runDie s.cur)).stopped with
    | true =>
      rw [run_stopped i m hstop] at e
      cases e
    | false =>
      rw [run_mail i m hstop hmail] at e
      cases e
      obtain ⟨u, hstill, hkept⟩ := mailDone_frame s i rv.1 rv.2
      exact ⟨u, destBut_of_still hstill, hkept⟩

/-! ## What the scalar instructions do (R239-R249) -/

section
variable {T : Prop} (d : SReg) (a b : Src)

theorem keeps_alu1 (f : Word → Word) : keeps T (destBut d) (alu1 d a f) :=
  keeps_bind (framing_destBut d) (destBut_of (still_readSrc 1 a)) fun _ => keeps_writeSR d _

theorem keeps_alu2 (f : Word → Word → Word) : keeps T (destBut d) (alu2 d a b f) :=
  keeps_bind (framing_destBut d) (destBut_of (still_readAB a b)) fun _ => keeps_writeSR d _

/-- BFI and SEL read a third register, then write D. -/
theorem keeps_third {α : Type} {m : M α} (hm : keeps T still m) (c : SReg) (f : α → Word → Word) :
    keeps T (destBut d) (do let x ← m; let z ← readSR 3 c; writeSR d (f x z)) :=
  keeps_bind (framing_destBut d) (destBut_of hm) fun _ =>
    keeps_bind (framing_destBut d) (destBut_of (still_readSR 3 c)) fun _ => keeps_writeSR d _

end

/-- A scalar instruction reads its operands and writes D; LEA.win raises a trap only outside local slots. -/
theorem exec_scalarDest {i : Instr} {d : SReg} {s : State} (hd : scalarDest i = some d)
    (hwin : isLocal s.cur = true ∨ ∀ a o, i ≠ .leaWin d a o) : ∃ m, exec i s = run i m s ∧ keeps False (destBut d) m := by
  cases i
  case add | sub | mul | mulh | mulhn | div | divn | rem | remn | and | or | xor | andn | shl | shr | sar | rol | min | max | minn | maxn |
      slt | sltn | seq =>
    cases hd
    exact ⟨_, rfl, keeps_alu2 _ _ _ _⟩
  case addi | andi | ori | xori | slti | sltiN | shli | shri | sari | roli | clz | ctz | popc | brev | sext | zext | bfx | bfxS | mov | lea =>
    cases hd
    exact ⟨_, rfl, keeps_alu1 _ _ _⟩
  case bfi =>
    cases hd
    exact ⟨_, rfl, keeps_third d (still_readSrc _ _) d fun x old => bitInsert old x _ _⟩
  case sel =>
    cases hd
    exact ⟨_, rfl, keeps_third d (still_readAB _ _) _ fun xy z => if z ≠ 0 then xy.1 else xy.2⟩
  case movi | movx =>
    cases hd
    exact ⟨_, rfl, keeps_writeSR _ _⟩
  case leaWin =>
    cases hd
    have hlocal : isLocal s.cur = true := hwin.resolve_right fun h => h _ _ rfl
    refine ⟨_, rfl, ?_⟩
    rw [hlocal, ensure_true]
    exact keeps_bind (framing_destBut d) (keeps_pure (framing_destBut d) ()) fun _ => keeps_alu1 _ _ _
  all_goals cases hd

/-- The one register that D may be is not register `n`, where D is not `n`. -/
theorem stillBut_of_destBut {d : SReg} {s u : State} (h : destBut d s u) {n : BitVec 5} (hn : d ≠ .g n) : ∃ k, n ≠ k ∧ stillBut k s u := by
  cases d with
  | g k => exact ⟨k, fun e => hn (e ▸ rfl), h k fun m hm => by cases hm; rfl⟩
  | s k | m k => exact ⟨n + 1, by bv_omega, h (n + 1) fun m hm => by cases hm⟩

theorem exists_stillBut_of_destBut {d : SReg} {s u : State} (h : destBut d s u) : ∃ k, stillBut k s u := by
  cases d with
  | g k => exact ⟨k, h k fun m hm => by cases hm; rfl⟩
  | s k | m k => exact ⟨0, h 0 fun m hm => by cases hm⟩

/-- Settles O21: the operands' reads keep every register, the one write is that of D, and completing or parking changes no register. -/
theorem scalarFrame : Obligations.ScalarFrame := by
  unfold Obligations.ScalarFrame
  intro i d s t hd hwin e
  obtain ⟨m, hrun, hm⟩ := exec_scalarDest hd hwin
  obtain ⟨u, hu, hbyte, hpad, hregs, hpc⟩ := run_destBut hm (hrun ▸ e)
  obtain ⟨_, ⟨hmem, -, hpad', -⟩, hcur, hsp', hothers, -, hvk⟩ := exists_stillBut_of_destBut hu
  refine ⟨fun a => (hbyte a).trans (by rw [State.byte, hmem, State.byte]), fun c p => (hpad c p).trans (hpad' c p), fun n hn => ?_, ?_,
    (hregs s.cur).2.trans (hsp' s.cur).1, fun k hk => ⟨(hregs k).1.trans (hothers k hk), (hregs k).2.trans (hsp' k).1,
      (hpc k (hcur ▸ hk)).trans (hsp' k).2⟩⟩
  · obtain ⟨_, hne, -, -, -, -, hg, -⟩ := stillBut_of_destBut hu hn
    rw [(hregs s.cur).1]
    exact hg n hne
  · rw [(hregs s.cur).1]
    exact hvk

end Sys2Proof.Machine
end

section
/-! CERTIFICATE. Loads and stores of scalars, rows and masks, and LDS (R264-R267). -/
namespace Sys2Proof.Machine

theorem sizeExt_eq_loaded (z : Size) (v : Nat) : sizeExt z v = loaded z v := by cases z <;> rfl

/-! ## Loads (R264, R266, R267) -/

section
variable {s s1 s2 s3 s4 : State} {p : MAddr} {b : Word} {x : Target} (hl : s.live) (hbase : readSrc 1 p.base s = .ok (b, s1))
include hl hbase

theorem execLd_ok {d : SReg} {z : Size} {v : Nat}
    (hacc : access p.glb (addrOf b p.off) (sizeBytes z) (sizeBytes z) false false s1 = .ok (x, s2))
    (hload : loadT x (sizeBytes z) p.keep s2 = .ok (v, s3)) (hw : writeSR d (loaded z v) s3 = .ok ((), s4)) :
    execLd d z p s = .next (s4.advance (.ld d z p)) :=
  run_ok hl (by rw [M.bind_ok hbase, M.bind_ok hacc, M.bind_ok hload, sizeExt_eq_loaded, hw])

theorem execLd_trap {d : SReg} {z : Size} {c : Nat} {v : Word}
    (hacc : access p.glb (addrOf b p.off) (sizeBytes z) (sizeBytes z) false false s1 = .error (.trap c v)) :
    execLd d z p s = .next (s.trapMe c v) :=
  run_trap hl (by rw [M.bind_ok hbase, M.bind_error hacc])

theorem execVld_ok {v : BitVec 4} {y : Nat}
    (hacc : access p.glb (addrOf b p.off) 256 (if p.glb then 256 else 1) false false s1 = .ok (x, s2))
    (hload : loadT x 256 p.keep s2 = .ok (y, s3)) :
    execVld v p s = .next ((s3.modSlot s3.cur fun k => k.putV v.toNat (BitVec.ofNat 2048 y)).advance (.vld v p)) :=
  run_ok hl (by rw [M.bind_ok hbase, M.bind_ok hacc, M.bind_ok hload]; rfl)

theorem execKld_ok {k : BitVec 3} {y : Nat}
    (hacc : access p.glb (addrOf b p.off) 8 8 false false s1 = .ok (x, s2)) (hload : loadT x 8 p.keep s2 = .ok (y, s3)) :
    execKld k p s = .next ((s3.modSlot s3.cur fun m => m.putK k.toNat (BitVec.ofNat 64 y)).advance (.kld k p)) :=
  run_ok hl (by rw [M.bind_ok hbase, M.bind_ok hacc, M.bind_ok hload]; rfl)

/-! ## Stores of rows and masks (R266, R267) -/

theorem execVst_ok {v : BitVec 4} {sc : Scope}
    (hacc : access p.glb (addrOf b p.off) 256 (if p.glb then 256 else 1) true false s1 = .ok (x, s2))
    (hstore : storeT x 256 (s2.me.regs.readV v.toNat).toNat (scopeNo sc) p.keep s2 = .ok ((), s3)) :
    execVst v sc p s = .next (s3.advance (.vst v sc p)) :=
  run_ok hl (by rw [M.bind_ok hbase, M.bind_ok hacc, M.bind_ok rfl, hstore])

theorem execKst_ok {k : BitVec 3} {sc : Scope}
    (hacc : access p.glb (addrOf b p.off) 8 8 true false s1 = .ok (x, s2))
    (hstore : storeT x 8 (s2.me.regs.readK k.toNat).toNat (scopeNo sc) p.keep s2 = .ok ((), s3)) :
    execKst k sc p s = .next (s3.advance (.kst k sc p)) :=
  run_ok hl (by rw [M.bind_ok hbase, M.bind_ok hacc, M.bind_ok rfl, hstore])

end

/-! ## ST (R264) -/

section
variable {s s1 s2 s3 s4 : State} {v : Src} {z : Size} {sc : Scope} {p : MAddr} {y b : Word} (hl : s.live)
  (hval : readSrcN 0 v (needA v p.base) s = .ok (y, s1)) (hbase : readSrc 1 p.base s1 = .ok (b, s2))
include hl hval hbase

theorem execSt_ok {x : Target} (hacc : access p.glb (addrOf b p.off) (sizeBytes z) (sizeBytes z) true false s2 = .ok (x, s3))
    (hstore : storeT x (sizeBytes z) (y.toNat % 2 ^ (8 * sizeBytes z)) (scopeNo sc) p.keep s3 = .ok ((), s4)) :
    execSt v z sc p s = .next (s4.advance (.st v z sc p)) :=
  run_ok hl (by rw [M.bind_ok hval, M.bind_ok hbase, M.bind_ok hacc, hstore])

theorem execSt_trap {c : Nat} {w : Word}
    (hacc : access p.glb (addrOf b p.off) (sizeBytes z) (sizeBytes z) true false s2 = .error (.trap c w)) :
    execSt v z sc p s = .next (s.trapMe c w) :=
  run_trap hl (by rw [M.bind_ok hval, M.bind_ok hbase, M.bind_error hacc])

end

/-! ## LDS (R265) -/

/-- What LDS keeps while it is parked: the space and the place that it watches, and its bytes. -/
def watching (s : State) (x : Target) (n : Nat) (w : Wait) : Wait :=
  { w with data := (w.data.set 0 0 (watchOf s x).1).set 0 1 (watchOf s x).2, n := n }

theorem watching_place (s : State) (x : Target) (n : Nat) (w : Wait) :
    ((watching s x n w).data.get 0 0, (watching s x n w).data.get 0 1) = watchOf s x := by
  simp [watching]

/-- Parking keeps what the slot has noted in its wait. -/
theorem parkOn_wait {s : State} {w : Wait} (h : s.me.wait = some w) (i : Instr) (k : WaitKind) :
    ((s.parkOn i k).slot s.cur).wait = some { w with kind := k, instr := i } := by
  have hslot : (s.slot s.cur).wait = some w := h
  rw [State.parkOn, State.modSlot_slot_self, hslot]

theorem keepWait_wait (f : Wait → Wait) (s : State) :
    ∃ u w, keepWait f s = .ok ((), u) ∧ u.cur = s.cur ∧ u.mem = s.mem ∧ u.me.wait = some (f w) := by
  let w₀ : Wait := s.me.wait.getD { kind := .ready, instr := .nop, stamps := [], data := [], n := 0 }
  refine ⟨_, w₀, keepWait_apply f s, rfl, rfl, ?_⟩
  exact congrArg Slot.wait (State.modSlot_slot_self s s.cur _)

section
variable {s s1 s2 s3 : State} {n : BitVec 5} {z : Size} {p : MAddr} {b : Word} {x : Target} {v : Nat} (hl : s.live)
  (hbase : readSrc 1 p.base s = .ok (b, s1))
  (hacc : access p.glb (addrOf b p.off) (sizeBytes z) (sizeBytes z) false true s1 = .ok (x, s2))
  (hload : loadT x (sizeBytes z) p.keep s2 = .ok (v, s3)) (hfresh : s.me.wait = none)
include hl hbase hacc hload hfresh

theorem execLds_differs (hne : loaded z v ≠ loaded z ((s.me.regs.readG n.toNat).toNat % 2 ^ (8 * sizeBytes z))) :
    execLds n z p s = .next ((s3.modSlot s3.cur fun k => k.putG n.toNat (loaded z v)).advance (.lds n z p)) := by
  refine run_ok hl ?_
  rw [M.bind_ok (myWait_fresh hfresh)]
  refine (M.bind_ok (readG_apply n s)).trans ?_
  rw [M.bind_ok hbase, M.bind_ok hacc, M.bind_ok hload]
  simp only [sizeExt_eq_loaded]
  rw [if_pos hne, writeG_apply]

theorem execLds_parks (heq : loaded z v = loaded z ((s.me.regs.readG n.toNat).toNat % 2 ^ (8 * sizeBytes z))) {u : State}
    (hkeep : keepWait (watching s3 x (sizeBytes z)) s3 = .ok ((), u)) :
    execLds n z p s = .next (u.parkOn (.lds n z p) (.watch none)) := by
  refine run_park hl ?_
  rw [M.bind_ok (myWait_fresh hfresh)]
  refine (M.bind_ok (readG_apply n s)).trans ?_
  rw [M.bind_ok hbase, M.bind_ok hacc, M.bind_ok hload]
  simp only [sizeExt_eq_loaded]
  rw [if_neg (not_not_intro heq), M.bind_ok (getS_apply s3)]
  exact (M.bind_ok hkeep).trans (park_apply _ _)

end

/-- Settles O26: each instruction's parts one after another; LDS compares, then writes or parks with the place that it watches. -/
theorem loadsAndStores : Obligations.LoadsAndStores := by
  unfold Obligations.LoadsAndStores
  refine ⟨fun s d z p b s1 x s2 v s3 s4 hl hbase hacc hload hw => execLd_ok hl hbase hacc hload hw,
    fun s v p b s1 x s2 y s3 hl hbase hacc hload => execVld_ok hl hbase hacc hload,
    fun s k p b s1 x s2 y s3 hl hbase hacc hload => execKld_ok hl hbase hacc hload,
    fun s v z sc p y s1 b s2 x s3 s4 hl hval hbase hacc hstore => execSt_ok hl hval hbase hacc hstore,
    fun s v sc p b s1 x s2 s3 hl hbase hacc hstore => execVst_ok hl hbase hacc hstore,
    fun s k sc p b s1 x s2 s3 hl hbase hacc hstore => execKst_ok hl hbase hacc hstore,
    fun s d z p b s1 c v hl hbase hacc => execLd_trap hl hbase hacc,
    fun s v z sc p y s1 b s2 c w hl hval hbase hacc => execSt_trap hl hval hbase hacc,
    fun s n z p b s1 x s2 v s3 hl hbase hacc hload hfresh =>
      ⟨execLds_differs hl hbase hacc hload hfresh, fun heq => ?_⟩⟩
  obtain ⟨u, w, hkeep, hcur, hmem, hwait⟩ := keepWait_wait (watching s3 x (sizeBytes z)) s3
  have hparked := (u.parkOn_slot (.lds n z p) (.watch none)).1
  have hnoted := parkOn_wait hwait (.lds n z p) (.watch none)
  rw [hcur] at hparked hnoted
  exact ⟨_, _, execLds_parks hl hbase hacc hload hfresh heq hkeep, hparked, hnoted, rfl, rfl, watching_place s3 x (sizeBytes z) w, hmem⟩

end Sys2Proof.Machine
end
